-- ==== Sys2Proof/Word.lean ====
section
/-! DEFINITION. The plain data types of the model: words, bytes, vector registers and the sparse map in which
every sparse structure of the machine (memory, register files, tables) is held, in one canonical form. -/

namespace Sys2Proof

/-- A 64-bit scalar register, address or system register. -/
abbrev Word := BitVec 64

/-- The smallest addressable unit. -/
abbrev Byte := BitVec 8

/-- A 2048-bit vector register, lane 0 in the lowest bits (R4). -/
abbrev VecReg := BitVec 2048

/-- A 256-bit vector mask (R83). -/
abbrev MaskReg := BitVec 256

/-- A sparse map from numbers: entries strictly rising by key, and no entry equal to the default that an
unlisted key reads as. -/
abbrev Map (α : Type) := List (Nat × α)

namespace Map

variable {α : Type}

/-- The value at key `k`, `d` where nothing is listed. -/
def get (d : α) : Map α → Nat → α
  | [], _ => d
  | (j, v) :: m, k => if k = j then v else if k < j then d else get d m k

/-- The entry at key `k`, if one is listed. -/
def find? : Map α → Nat → Option α
  | [], _ => none
  | (j, v) :: m, k => if k = j then some v else if k < j then none else find? m k

/-- Drop the entry at key `k`. -/
def erase : Map α → Nat → Map α
  | [], _ => []
  | (j, v) :: m, k => if k = j then m else if k < j then (j, v) :: m else (j, v) :: erase m k

/-- List `v` at key `k`, whatever `v` is. -/
def put : Map α → Nat → α → Map α
  | [], k, v => [(k, v)]
  | (j, u) :: m, k, v => if k = j then (k, v) :: m else if k < j then (k, v) :: (j, u) :: m
      else (j, u) :: put m k v

/-- Set key `k` to `v`; setting the default removes the entry, so that equal maps are equal lists. -/
def set [DecidableEq α] (d : α) (m : Map α) (k : Nat) (v : α) : Map α :=
  if v = d then erase m k else put m k v

/-- Change the value at key `k`. -/
def upd [DecidableEq α] (d : α) (m : Map α) (k : Nat) (f : α → α) : Map α :=
  set d m k (f (get d m k))

/-- Every key listed is at least `n`, the keys rise strictly, and nothing listed is the default. -/
def wfFrom [DecidableEq α] (d : α) : Nat → Map α → Bool
  | _, [] => true
  | n, (j, v) :: m => decide (n ≤ j) && decide (v ≠ d) && wfFrom d (j + 1) m

/-- The canonical form of a map with default `d`. -/
def wf [DecidableEq α] (d : α) (m : Map α) : Bool := wfFrom d 0 m

end Map

/-- Bits `[lo + w - 1 : lo]` of a number. -/
def bitsAt (x lo w : Nat) : Nat := x / 2 ^ lo % 2 ^ w

/-- Bit `i` of a number. -/
def bitAt (x i : Nat) : Bool := x / 2 ^ i % 2 == 1

/-- The number 1 or 0 that stands for a truth value. -/
def b2n (b : Bool) : Nat := if b then 1 else 0

/-- The two's complement value of the low `w` bits of `x`. -/
def sextNat (w x : Nat) : Int :=
  let y := x % 2 ^ w
  if y < 2 ^ (w - 1) then (y : Int) else (y : Int) - (2 ^ w : Nat)

/-- An integer wrapped to `w` bits. -/
def wrapInt (w : Nat) (x : Int) : Nat := (x % ((2 ^ w : Nat) : Int)).toNat

end Sys2Proof
end

