-- ==== Sys2Proof/Syntax.lean ====
section
/-! DEFINITION. The instruction set as syntax: one constructor of `Instr` for each row of spec/opcode_table.json.
The first 189 are the slot instructions of R58 and R69; the others are the machine's own steps (events), which take
as arguments what the outside, or the machine's timing, decides about them. -/

namespace Sys2Proof

/-- The eight issue slots, in slot order (R49). -/
inductive SlotId | s0 | s1 | v0 | v1 | l | t0 | t1 | x
  deriving DecidableEq, Repr

/-- The scalar slots; S0 owns the a file and S1 the b file. -/
inductive SSlot | s0 | s1
  deriving DecidableEq, Repr

/-- The vector slots; V0 owns v and x, V1 owns w and y. -/
inductive VSlot | v0 | v1
  deriving DecidableEq, Repr

/-- The matrix engines and their slots. -/
inductive TSlot | t0 | t1
  deriving DecidableEq, Repr

/-- Element types of R63. -/
inductive ElemTy
  | fp32 | bf16 | fp16 | e4m3 | e5m2 | e8m0 | cw8
  | i8 | u8 | i16 | u16 | i32 | u32 | i64 | u64
  deriving DecidableEq, Repr

/-- Scalar floating-point formats of R122. -/
inductive SFmt | fp32 | bf16 | fp16
  deriving DecidableEq, Repr

/-- An S operand specifier (R60). `lit` is sext of the slot word's 26-bit literal; the other three are the header
literal sign-extended, zero-extended, and zero-extended times 2^32. -/
inductive SOpnd
  | reg (i : BitVec 6) | head (q : BitVec 3) | lit (v : BitVec 26) | immS | immZ | immHi
  deriving DecidableEq, Repr

/-- A V operand specifier (R61). -/
inductive VOpnd
  | reg (i : BitVec 10) | head (q : BitVec 3) | bc | imm
  deriving DecidableEq, Repr

/-- The 2-bit rounding field of a V word (R35). -/
inductive VRnd | ctx | rne | rz | sr
  deriving DecidableEq, Repr

/-- Integer conditions of CMP (R119). -/
inductive ICond | eq | ne | lt | le | gt | ge
  deriving DecidableEq, Repr

/-- Floating-point conditions of FCMP and VCMP (R125). -/
inductive FCond | eq | ne | lt | le | gt | ge | un | ord
  deriving DecidableEq, Repr

/-- Destination files of XFER (R121). -/
inductive XferFile | other | p | k | v | w
  deriving DecidableEq, Repr

/-- An S-slot word with one source. `h1` is the hold bit of R59, which has no visible effect (R95). -/
structure SUn where
  slot : SSlot
  h1 : Bool
  w : Bool
  u : Bool
  dst : BitVec 6
  a : SOpnd
  deriving DecidableEq, Repr

/-- An S-slot word with two sources. -/
structure SBin where
  slot : SSlot
  h1 : Bool
  h2 : Bool
  w : Bool
  u : Bool
  dst : BitVec 6
  a : SOpnd
  b : SOpnd
  deriving DecidableEq, Repr

/-- A V-slot word with one source; `mask` is the mask index when mask enable is 1. -/
structure VUn where
  slot : VSlot
  ty : ElemTy
  mask : Option (BitVec 3)
  dst : BitVec 10
  a : VOpnd
  rnd : VRnd
  deriving DecidableEq, Repr

/-- A V-slot word with two sources. -/
structure VBin where
  slot : VSlot
  ty : ElemTy
  mask : Option (BitVec 3)
  dst : BitVec 10
  a : VOpnd
  b : VOpnd
  rnd : VRnd
  deriving DecidableEq, Repr

/-- A V-slot word with three sources. -/
structure VTer where
  slot : VSlot
  ty : ElemTy
  mask : Option (BitVec 3)
  dst : BitVec 10
  a : VOpnd
  b : VOpnd
  c : VOpnd
  rnd : VRnd
  deriving DecidableEq, Repr

/-- A V-slot word with no source operand. -/
structure VNul where
  slot : VSlot
  ty : ElemTy
  mask : Option (BitVec 3)
  dst : BitVec 10
  deriving DecidableEq, Repr

/-- The operation of VMASK (R158). Masks are named by index in the slot's own file. -/
inductive VMaskOp
  | and (a b : BitVec 3) | or (a b : BitVec 3) | xor (a b : BitVec 3) | andn (a b : BitVec 3) | not (a : BitVec 3)
  | first (a : VOpnd) | nz (ty : ElemTy) (a : VOpnd) | neg (ty : ElemTy) (a : VOpnd)
  deriving DecidableEq, Repr

/-- Operators of VRED (R162). -/
inductive VRedOp | sum | sumw | max | min
  deriving DecidableEq, Repr

/-- Conditions of VFIND (R163). -/
inductive VFindCond | gt | ge | eq | ne
  deriving DecidableEq, Repr

/-- Views of CW8 weights (R32). -/
inductive CwView | cw8 | cw4 | cw2
  deriving DecidableEq, Repr

/-- Destination files of VXFER (R173). -/
inductive VXferFile | other | a | b | p | k
  deriving DecidableEq, Repr

/-- Integer modes of the vector integer forms (R153). -/
inductive VIMode | wrap | sat | hi
  deriving DecidableEq, Repr

/-- The register files with the codes of R64. -/
inductive RFile | a | b | v | w | p | k | x | y
  deriving DecidableEq, Repr

/-- A register named by file and index. -/
structure RegRef where
  file : RFile
  idx : BitVec 10
  deriving DecidableEq, Repr

/-- The address field of LDS, STS, VLD and VST (R187): a signed offset, or an index register and a shift. -/
inductive LAddr
  | off (o : Int) | idx (pi : BitVec 5) (sh : BitVec 3)
  deriving DecidableEq, Repr

/-- Operations of ATOM and NAT (R194). -/
inductive AtomOp | add | min | max | and | or | xor | swap | cas | fadd | fmin | fmax
  deriving DecidableEq, Repr

/-- Where a descriptor comes from (R221): the plane's constant area, or a vector register. -/
inductive TDescSrc | const (off : BitVec 13) | reg (w : Bool) (i : BitVec 10)
  deriving DecidableEq, Repr

/-- Operators of TRED (R238). -/
inductive TRedOp | sum | max | min
  deriving DecidableEq, Repr

/-- Operations of TCARRY (R243). -/
inductive TCarryOp | ident | h | wr | rd
  deriving DecidableEq, Repr

/-- Scopes of R210 and R314. -/
inductive Scope | core | cluster | die | package | domain
  deriving DecidableEq, Repr

/-- The acquire, release and scope bits of an engine command (R252). -/
structure EngBits where
  acq : Bool
  rel : Bool
  scope : Scope
  deriving DecidableEq, Repr

/-- The operand fields of an engine command or of a sequence-manager command with a completion counter. -/
structure EngArgs where
  bits : EngBits
  cmd : BitVec 5
  ctr : BitVec 5
  amount : BitVec 30
  deriving DecidableEq, Repr

/-- Operations of CSRW (R137). -/
inductive CsrOp | write | set | clr
  deriving DecidableEq, Repr

/-- Selections of KVMAP (R323). -/
inductive KvBind | none | bind | rel
  deriving DecidableEq, Repr

/-- A fabric packet (R387). `data` holds its data bytes, 32 per data flit. -/
structure Packet where
  jobKey : BitVec 32
  asid : BitVec 16
  op : BitVec 8
  flits : Nat
  target : Word
  flag : Word
  seq : Nat
  srcPkg : Nat
  srcDie : Nat
  dstPkg : Nat
  dstDie : Nat
  aux : BitVec 8
  srcCtx : BitVec 16
  data : List Byte
  deriving DecidableEq, Repr

/-- One of a die's keys: the package its lane bundle serves, and whether it is the key of the incoming direction (R386: keys are per
die pair and per direction). -/
structure BundleKey where
  pkg : Nat
  incoming : Bool
  deriving DecidableEq, Repr

/-- A flit group as it arrives on a lane bundle (R386): the sending package, its number, whether its tag checks,
and the packets it carries. -/
structure FlitGroup where
  srcPkg : Nat
  num : Nat
  tagOk : Bool
  packets : List Packet
  /-- the receiver's acknowledgement: the number of good groups of the other direction, which travels with this one (R391) -/
  ack : Nat := 0
  deriving DecidableEq, Repr

/-- What a home sends to a follower (R330): an acceptance, or a commit. -/
inductive FollowMsg
  | accept (result : Word) (path : List Nat) (correction : BitVec 24) (counter : BitVec 128)
  | commit (delivered : Nat) (stopped : Bool)
  | commitDirect (n : Nat) (token : Option (BitVec 24)) (stopped : Bool)
  deriving DecidableEq, Repr

/-- The engines that commands reach (R274, R368): copy engines and the gather/scatter engine of a cluster (number
die × 8 + cluster), and the four engines of a die. -/
inductive EngineId
  | copy0 (cl : Nat) | copy1 (cl : Nat) | gs (cl : Nat)
  | collective (d : Nat) | requant (d : Nat) | compact (d : Nat) | loader (d : Nat)
  deriving DecidableEq, Repr

/-- Sources of a shutter firing (R377). -/
inductive ShutSource | snap | watch | cause | densitometer | management
  deriving DecidableEq, Repr

/-- What becomes uncorrectable, or takes a correctable bit error, of itself (R103, R217, R448). -/
inductive ErrTarget
  | memory (pa : Nat) (cause : BitVec 8)
  /-- the side status of the counter at an address (R248, R277) -/
  | side (pa : Nat) (cause : BitVec 8)
  /-- the image of a saved task where it stands in a core's offer (R292) -/
  | image (task : Nat)
  | register (ctx : Nat) (file : Nat) (idx : Nat)
  | headLatch (ctx : Nat) (q : Nat)
  | landing (ctx : Nat) (n : Nat)
  | tile (core : Nat) (t : Nat) (row col : Nat)
  | corrected (dens : Nat)
  deriving DecidableEq, Repr

/-- The registers of the management space (R6, R374). -/
inductive MgmtReg
  | kvGeometry | membership (die i : Nat) | mesh (die : Nat) | hostArea (i : Nat) | queuePair (i : Nat)
  | ingressMode (die : Nat) | ageing (core : Nat) | densitometer (i : Nat) | shutterCause (i : Nat)
  | sheetArea | nameRegion | repairThreshold (i : Nat) | powerLimit | scrubRate | engineDisable (e : EngineId)
  /-- this package's number, and a mask of the packages in its domain (R382) -/
  | domain
  /-- the division of a vault and the reserve of a core (R280, R285) -/
  | vaultConfig (cl : Nat) | reserve (core : Nat)
  /-- the configuration loader's command port of a die, and its flip port for a core (R371) -/
  | loaderPort (die : Nat) | flipPort (core : Nat)
  /-- the scheduler's region table and its pending nodes, by entry (R360, R361, R374) -/
  | regionTable (i : Nat) | pendingNode (i : Nat)
  /-- the mailbox of the root of trust (R375), its request for attestation (R376), an order to replace a core (R293), and
  management's firing (R377) -/
  | mailbox | attestation | replaceCore (core : Nat) | fireShutter
  /-- sys.tlbinv of a die (R307) -/
  | tlbinv (die : Nat)
  deriving DecidableEq, Repr

/-- What densitometers count (R47, R275, R277, R298, R321, R372, R379). -/
inductive DensEvent
  | shadowRounded | errorArisen | failedAdd | scrubbedBad | recordLost
  /-- a single-bit error that a core has corrected (R103) -/
  | corrected (core : Nat)
  /-- a race entry that the log of the region with this control block dropped -/
  | raceDropped (rcb : Word)
  deriving DecidableEq, Repr

/-- Why a context is saved: a pre-emption request, to free a context for a trap handler (R107), or a parked JOIN. -/
inductive SaveWhy | preempt | handler | park
  deriving DecidableEq, Repr

/-- Every row of the opcode table. -/
inductive Instr
  -- every slot class (R58)
  | nop (slot : SlotId)
  -- S class (R117 to R127)
  | add (f : SBin) | sub (f : SBin) | mul (f : SBin) | mulh (f : SBin) | div (f : SBin) | rem (f : SBin)
  | and (f : SBin) | or (f : SBin) | xor (f : SBin) | andn (f : SBin)
  | shl (f : SBin) | shr (f : SBin) | sar (f : SBin) | rot (f : SBin)
  | clz (f : SUn) | ctz (f : SUn) | popc (f : SUn) | min (f : SBin) | max (f : SBin)
  | cmp (c : ICond) (f : SBin) | sel (g : BitVec 3) (neg : Bool) (f : SBin)
  | li (f : SUn) | mov (f : SUn) | bfx (pos len : BitVec 6) (f : SUn) | bfi (pos len : BitVec 6) (f : SUn)
  | addr (sh : BitVec 3) (f : SBin) | xfer (file : XferFile) (f : SUn)
  | fadd (fmt : SFmt) (f : SBin) | fsub (fmt : SFmt) (f : SBin) | fmul (fmt : SFmt) (f : SBin)
  | fma (fmt : SFmt) (f : SBin)
  | frcp (fmt : SFmt) (f : SUn) | frsq (fmt : SFmt) (f : SUn) | fexp2 (fmt : SFmt) (f : SUn) | flog2 (fmt : SFmt) (f : SUn)
  | fmin (fmt : SFmt) (f : SBin) | fmax (fmt : SFmt) (f : SBin)
  | fcmp (fmt : SFmt) (c : FCond) (f : SBin) | fcvt (src dst : ElemTy) (f : SUn)
  | rand (float : Bool) (slot : SSlot) (dst : BitVec 6)
  -- V class (R151 to R174)
  | vadd (f : VBin) | vsub (f : VBin) | vmul (f : VBin) | vfma (f : VTer) | vfms (f : VTer) | vfnma (f : VTer)
  | vmin (f : VBin) | vmax (f : VBin) | vabs (f : VUn) | vneg (f : VUn)
  | vrcp (f : VUn) | vrsq (f : VUn) | vsqrt (f : VUn) | vdiv (f : VBin) | vexp2 (f : VUn) | vlog2 (f : VUn)
  | vtanh (f : VUn) | vsigm (f : VUn) | vsilu (f : VUn) | vgelu (f : VUn)
  | viadd (m : VIMode) (f : VBin) | visub (m : VIMode) (f : VBin) | vimul (m : VIMode) (f : VBin)
  | vimad (m : VIMode) (f : VTer) | vimin (f : VBin) | vimax (f : VBin)
  | vand (f : VBin) | vor (f : VBin) | vxor (f : VBin) | vshl (f : VBin) | vshr (f : VBin) | vsar (f : VBin)
  | vcmp (c : FCond) (f : VBin) | vsel (f : VBin) | vmask (op : VMaskOp) (slot : VSlot) (dst : BitVec 3)
  | vmov (f : VUn) | vperm (f : VBin) | vbcast (j : BitVec 8) (f : VUn) | vslide (n : BitVec 8) (f : VBin)
  | vcomp (f : VUn) | vexpd (f : VUn) | vpsum (f : VUn) | vred (op : VRedOp) (f : VUn)
  | vfind (c : VFindCond) (f : VBin) | vcnt (f : VNul) | viota (f : VNul)
  | vcvt (dst : ElemTy) (h : BitVec 2) (sat : Bool) (f : VUn)
  | vquant (scales : Bool) (dst : ElemTy) (h : BitVec 2) (f : VBin)
  | vdeq (dst : ElemTy) (h : BitVec 2) (f : VBin) | vcwenc (h : BitVec 2) (f : VBin)
  | vcwdec (dst : ElemTy) (h : BitVec 2) (view : CwView) (o : BitVec 4) (f : VBin)
  | vrand (f : VNul) | vxfer (file : VXferFile) (j : BitVec 8) (f : VUn) | vins (j : BitVec 8) (f : VUn)
  | vclass (f : VUn)
  -- L class (R186, R394)
  | lds (ty : ElemTy) (dst : RegRef) (base : BitVec 5) (addr : LAddr)
  | sts (ty : ElemTy) (src : RegRef) (base : BitVec 5) (addr : LAddr)
  | vld (ty : ElemTy) (dst : RegRef) (base : BitVec 5) (addr : LAddr)
  | vst (ty : ElemTy) (src : RegRef) (base : BitVec 5) (addr : LAddr)
  | vlds (ty : ElemTy) (dst : RegRef) (base : BitVec 5) (stride : BitVec 5) (off : Int)
  | vsts (ty : ElemTy) (src : RegRef) (base : BitVec 5) (stride : BitVec 5) (off : Int)
  | vgath (ty : ElemTy) (h : BitVec 2) (dst : RegRef) (base : BitVec 5) (index : BitVec 10) (off : Int)
  | vscat (ty : ElemTy) (h : BitVec 2) (src : RegRef) (base : BitVec 5) (index : BitVec 10)
  | atom (op : AtomOp) (ty : ElemTy) (dst : Option RegRef) (src : RegRef) (base : BitVec 5) (off : Int)
  | pref (action : BitVec 2) (base : BitVec 5) (off : Int)
  | wset (q : BitVec 3) (mem : Bool) (set : BitVec 5) (rec : BitVec 5) (base : BitVec 5)
  | wstart (q : BitVec 3) | wstop (drain : Bool) (q : BitVec 3) | wstat (dst : RegRef) (q : BitVec 3)
  | cbwait (dst : RegRef) (cb : BitVec 4) (n : BitVec 10) (version : BitVec 16)
  | cbadv (cb : BitVec 4) (n : BitVec 10) (version : BitVec 16)
  | cbset (cb : BitVec 4) (base : BitVec 5) (off : Int)
  | nld (ty : ElemTy) (dst : RegRef) (base : BitVec 5) (off : Int)
  | nst (ty : ElemTy) (flag : Option (BitVec 5)) (src : RegRef) (base : BitVec 5) (off : Int)
  | nat (op : AtomOp) (ty : ElemTy) (dst : Option RegRef) (src : RegRef) (base : BitVec 5) (off : Int)
  | nts (ty : ElemTy) (src : RegRef) (entry piece : BitVec 6) (slot : BitVec 5) (base : BitVec 5)
  | nmc (ty : ElemTy) (flag : Option (BitVec 5)) (axis : BitVec 2) (self : Bool) (src : RegRef) (base : BitVec 5) (off : Int)
  | ncb (ty : ElemTy) (src : RegRef) (entry piece : BitVec 6) (base : BitVec 5)
  | pld (ty : ElemTy) (dst : RegRef) (base : BitVec 5) (demand : BitVec 12) (desc : BitVec 5) (off : Int)
  | pst (ty : ElemTy) (acc : Bool) (src : RegRef) (base : BitVec 5) (desc : BitVec 5) (off : Int)
  -- T class (R219); tiles and descriptors are numbered within the slot's own engine (R65)
  | tcfg (e : TSlot) (dA dB : BitVec 3) | tdrain (e : TSlot) (dA : BitVec 3) | tzero (e : TSlot) (t : BitVec 2)
  | tmma (adv : Bool) (e : TSlot) (t : BitVec 2) (dA dB : BitVec 3) (k : BitVec 33)
  | taff (ident off : Bool) (e : TSlot) (pair : BitVec 1)
  | tscan (carry : Bool) (e : TSlot) (pair : BitVec 1) (set : BitVec 1) (n : BitVec 7)
  | tcarry (op : TCarryOp) (w : Bool) (e : TSlot) (t : BitVec 2) (set : BitVec 1) (reg : BitVec 10)
  | trd (retire : Bool) (w : Bool) (e : TSlot) (t : BitVec 2) (reg : BitVec 10) (row0 n1 : BitVec 6)
  | twr (w : Bool) (e : TSlot) (t : BitVec 2) (reg : BitVec 10) (row0 n1 : BitVec 6)
  | tld (e : TSlot) (t : BitVec 2) (dA : BitVec 3) | tst (retire : Bool) (e : TSlot) (t : BitVec 2) (dA : BitVec 3)
  | tred (op : TRedOp) (cols : Bool) (w : Bool) (e : TSlot) (t : BitVec 2) (reg : BitVec 10)
  | tcomb (fold : Bool) (e : TSlot) (pair : BitVec 1) (n : BitVec 7)
  | tres (hz clr : Bool) (e : TSlot) (t : BitVec 2) (dst : RegRef)
  | tdesc (e : TSlot) (dA : BitVec 3) (src : TDescSrc)
  -- X class: control and system (R128)
  | br (off : BitVec 30) | brc (neg : Bool) (g : BitVec 3) (off : BitVec 30) | jmp (base : BitVec 5) (off : BitVec 30)
  | call (indirect : Bool) (link base : BitVec 5) (off : BitVec 30) | ret (link : BitVec 5)
  | loop (level : BitVec 2) (count : Option (BitVec 5)) (off : BitVec 30) | end_ | yield
  -- counters, deque (R252)
  | cadd (rel : Bool) (scope : Scope) (ctr : BitVec 5) (amount : BitVec 5 ⊕ BitVec 30)
  | cwait (acq : Bool) (scope : Scope) (dst ctr tgt : BitVec 5) (timeout : BitVec 30)
  | ctest (acq : Bool) (scope : Scope) (g : BitVec 3) (ctr tgt : BitVec 5)
  | cread (acq : Bool) (scope : Scope) (status : Bool) (dst ctr : BitVec 5)
  | fence (scope : Scope) | drain (scope : Scope) (ctr tgt : BitVec 5)
  | fork (rec arg : BitVec 5) | join (acq : Bool) (scope : Scope) (park : Bool) (ctr tgt : BitVec 5)
  | launch (dst pkt : BitVec 5) | msend (rel : Bool) (len : BitVec 5) (tgt src : BitVec 5) (off : BitVec 30)
  | ecopy (eng : BitVec 2) (f : EngArgs) | egather (f : EngArgs) | escatter (f : EngArgs)
  | efill (eng : BitVec 2) (f : EngArgs) | econv (eng : BitVec 2) (f : EngArgs)
  | ecoll (f : EngArgs) | eplane (f : EngArgs) | estat (dst : BitVec 5) (e : BitVec 3) | swap (ctr : Option (BitVec 5))
  -- sequence manager (R323)
  | sqnew (dst rec : BitVec 5) | sqfork (dst id rec : BitVec 5) | sqfree (dst id : BitVec 5)
  | sqtree (dst id rec : BitVec 5) | sqacc (dst id tab : BitVec 5)
  | sqcommit (direct : Option (BitVec 5 × Option (BitVec 24))) (dst id : BitVec 5)
  | sqrewind (dst id n : BitVec 5) | sqpreempt (dst id : BitVec 5) | sqresume (dst id tab : BitVec 5)
  | sqstat (dst id : BitVec 5) (sel : BitVec 5)
  | kvmap (slot : Bool) (kb : KvBind) (dst id x : BitVec 5) (layer : BitVec 16)
  | kvappend (dst id n : BitVec 5) | kvcompact (bits : EngBits) (dst id ctr : BitVec 5) (amount : BitVec 30)
  | kvrequant (bits : EngBits) (dst rec ctr : BitVec 5) (amount : BitVec 30)
  -- placement (R418)
  | pdecl (dst desc : BitVec 5) | prel (drop : Bool) (desc : BitVec 5) | pconv (dst desc : BitVec 5) (demand : BitVec 12)
  | pqry (dst desc : BitVec 5) (sel : BitVec 2)
  -- system (R128)
  | csrr (dst : BitVec 5) (num : BitVec 12) | csrw (op : CsrOp) (src : BitVec 5) (num : BitVec 12)
  | trap (code : BitVec 30) | eret (dst : Option (BitVec 5))
  | watch (arm shut : Bool) (dst base len : BitVec 5) (entry : BitVec 3) | snap (tag : BitVec 16)
  | bkpt (code : BitVec 30) | creset (core ctr : BitVec 5)
  -- packets that arrive at a die (R387)
  | nldRequest (die : Nat) (p : Packet) | storePacket (die : Nat) (p : Packet) | natPacket (die : Nat) (p : Packet)
  | contributionPiece (die : Nat) (p : Packet) | collectiveTransfer (die : Nat) (p : Packet)
  | response (die : Nat) (p : Packet) | acknowledgement (die : Nat) (p : Packet)
  | negativeAcknowledgement (die : Nat) (p : Packet)
  -- steps of the core and its contexts
  | issueSelection (core : Nat) | contextPromotion (ctx : Nat) | yieldExpiry (ctx : Nat) | stallExpiry (ctx : Nat)
  | fixedLatencyLanding (ctx : Nat) | outsideTrap (ctx : Nat) | contextSave (ctx : Nat) (why : SaveWhy)
  | preemptionWithdrawn (ctx : Nat) | parkedJoinRestore (task ctx : Nat) | waitSatisfied (core ctr : Nat)
  | sweepReread (core : Nat) | cwaitTimeout (ctx : Nat)
  | endToEndTimeout (die n : Nat) | timedSlotFold (die entry : Nat) | combinerTimeout (die entry : Nat)
  | patrolScrub (pa : Nat) (corrected : Bool) | attestationRequest (nonce : List Byte)
  | accessPerformed (ctx : Nat) | logicalTimeAdvance (ctx n : Nat)
  | invalidationComplete (die n : Nat) | watchpointReport (n : Nat)
  | coreReset (core : Nat) (n : Nat) | vaultConfigWrite (cl : Nat) (v : Word)
  | divisionChangeComplete (cl : Nat) | reserveRegisterWrite (core : Nat) (v : Word)
  | spillOfferWithdrawal (core : Nat) (reserve : Bool) | spareSubstitution (core : Nat) | coreDisable (core : Nat)
  | postPackageRepair (pa : Nat) | planeFlip (core : Nat)
  | managementEplane (die : Nat) (rec ctr : Word) (amount : Nat) | managementFlip (core : Nat)
  | kvcompactCopyDone (id : Nat) | kvrequantSwitch (n : Nat) | deliveryFailure (id : Nat)
  | memberShardWrite (die n : Nat) | memberConversionFailed (die n : Nat) | markMemberFailed (pkg die : Nat)
  | shutterFire (src : ShutSource) (tag : BitVec 16) (ctx : BitVec 16) | registerWrite (r : MgmtReg) (v : List Word)
  | clockThrottle (mhz : Nat) | sysTlbinv (die : Nat) (rec : Word)
  -- steps that only the schedule of a cycle holds
  | variableLatencyLanding (ctx n : Nat) | contextRestore (task ctx : Nat) | preemptionRequest (ctx : Nat)
  | taskRetire (ctx : Nat) | dequeStart (ctx : Nat) | drainSweep (ctx : Nat) | latheFetch (ctx q : Nat)
  | engineShadowSwap (e : EngineId) | engineCommandComplete (e : EngineId) | atomPerform (ctx : Nat)
  | tileOperationExecute (core : Nat) (e : TSlot) (residueFails : Nat)
  | messageArrival (core n : Nat) | messageHandlerStart (ctx : Nat) | pageWalk (ctx : Nat) (va : Word) (write : Bool)
  | packageColdReset
  | spareChannelMigration (die ch : Nat)
  -- steps of the package scheduler and the sequence manager
  | packetRead (region : Nat) | nodeEligible (n : Nat) | taskPlacement (set ctx : Nat)
  | crewPlacement (set cl : Nat) (ctxs : List Nat) (window : Nat) | sharePreemption (ctx : Nat) | savedTaskRestore (task ctx : Nat)
  | configLoaderLoad (die : Nat) | followerApply (id : Nat) (m : FollowMsg)
  -- the host and the fabric's links
  | hostRdmaWrite (qp : Nat) (va : Word) (data : List Byte) | hostRdmaRead (qp : Nat) (va : Word) (len : Nat)
  | hostFetchAndAdd (qp : Nat) (va : Word) (v : Word) | hostCompareAndSwap (qp : Nat) (va : Word) (c v : Word)
  | linkGroupReceive (die : Nat) (g : FlitGroup) | groupReplay (die pkg : Nat) | bundleDetour (die pkg : Nat)
  | keyRotation (die : Nat) (key : BundleKey)
  | ecollMatch (die : Nat) | ntsSlotBegins (die n : Nat) | laneReturn (die pkg : Nat) | rdmaAcknowledgement (id : Nat)
  -- health, time and management
  | contactSheetGatherEnd
  | densitometerSample (n v : Nat) | densitometerClear (n : Nat)
  | boot (ok : Bool) (code : Nat) | uncorrectableError (t : ErrTarget)
  deriving DecidableEq, Repr

end Sys2Proof
end

