-- ==== Sys2Proof/WellFormed.lean ====
section
/-! DEFINITION. Which instructions of the syntax the encodings admit: the static rules of the entries (types, files,
indexes, mask roles, field ranges). A word that stands for no well-formed instruction raises the illegal-encoding trap. -/

namespace Sys2Proof

namespace ElemTy
/-- Element width in bits (R63). -/
def width : ElemTy → Nat
  | fp32 | i32 | u32 => 32 | bf16 | fp16 | i16 | u16 => 16 | e4m3 | e5m2 | e8m0 | cw8 | i8 | u8 => 8 | i64 | u64 => 64
/-- Lanes per 2048-bit register (R63). -/
def lanes : ElemTy → Nat
  | fp32 | i32 | u32 => 64 | bf16 | fp16 | i16 | u16 => 128 | e4m3 | e5m2 | e8m0 | cw8 | i8 | u8 => 256 | i64 | u64 => 32
/-- Type set F of R147. -/
def isF : ElemTy → Bool | fp32 | bf16 | fp16 => true | _ => false
/-- Type set F8. -/
def isF8 : ElemTy → Bool | e4m3 | e5m2 => true | _ => false
/-- Type set I. -/
def isI : ElemTy → Bool | i8 | u8 | i16 | u16 | i32 | u32 | i64 | u64 => true | _ => false
/-- The signed integer types. -/
def signed : ElemTy → Bool | i8 | i16 | i32 | i64 => true | _ => false
end ElemTy

/-- Registers in a file that every context holds in full; the vector banks have 1,024 names (R64). -/
def RFile.size : RFile → Nat
  | .a | .b => 64 | .v | .w => 1024 | .p | .k => 32 | .x | .y => 8

def RFile.isScalar : RFile → Bool | .a | .b | .p | .k => true | _ => false
def RFile.isVector : RFile → Bool | .v | .w => true | _ => false
def RFile.isMask : RFile → Bool | .x | .y => true | _ => false

/-- An index within its file's range (R64). -/
def RegRef.ok (r : RegRef) : Bool := decide (r.idx.toNat < r.file.size)
def RegRef.scalar (r : RegRef) : Bool := r.ok && r.file.isScalar
def RegRef.vector (r : RegRef) : Bool := r.ok && r.file.isVector
def RegRef.vecOrMask (r : RegRef) : Bool := r.ok && !r.file.isScalar

def SOpnd.isReg : SOpnd → Bool | .reg _ => true | _ => false
def SOpnd.isLit : SOpnd → Bool | .lit _ => true | _ => false
def SOpnd.isLiteral : SOpnd → Bool | .reg _ => false | .head _ => false | _ => true

/-- Both operands read the one 26-bit literal of the word. -/
def SOpnd.sameLit : SOpnd → SOpnd → Bool
  | .lit a, .lit b => a == b
  | _, _ => true

/-- A hold bit only for a register operand (R60). -/
def SUn.ok (f : SUn) : Bool := !f.h1 || f.a.isReg
def SBin.ok (f : SBin) : Bool := (!f.h1 || f.a.isReg) && (!f.h2 || f.b.isReg) && f.a.sameLit f.b
/-- Forms without .w and .u (R114). -/
def SUn.plain (f : SUn) : Bool := f.ok && !f.w && !f.u
def SBin.plain (f : SBin) : Bool := f.ok && !f.w && !f.u

/-- Whether a signed number fits n bits. -/
def fitsS (n : Nat) (x : Int) : Bool := decide (-((2 ^ (n - 1) : Nat) : Int) ≤ x) && decide (x < ((2 ^ (n - 1) : Nat) : Int))

/-- The address field of a form whose offset has n bits (R187). -/
def LAddr.ok (n : Nat) : LAddr → Bool
  | .off o => fitsS n o
  | .idx _ _ => true

/-- The types of each atomic operation (R194). -/
def AtomOp.okTy (op : AtomOp) (ty : ElemTy) : Bool :=
  match op, ty with
  | .fadd, .fp32 | .fadd, .bf16 | .fadd, .e4m3 | .fadd, .e5m2 => true
  | .fmin, .fp32 | .fmin, .bf16 | .fmin, .e4m3 | .fmin, .e5m2 => true
  | .fmax, .fp32 | .fmax, .bf16 | .fmax, .e4m3 | .fmax, .e5m2 => true
  | .fadd, _ | .fmin, _ | .fmax, _ => false
  | _, .i32 | _, .u32 | _, .i64 | _, .u64 => true
  | _, _ => false

/-- The operand rules of R195. -/
def atomOk (op : AtomOp) (ty : ElemTy) (dst : Option RegRef) (src : RegRef) (off : Int) : Bool :=
  op.okTy ty && src.scalar && (op != .cas || decide (src.idx.toNat + 1 < src.file.size)) &&
  (match dst with | none => true | some d => d.scalar) && fitsS 16 off

/-- The types of a combiner contribution (R402). -/
def ElemTy.combiner : ElemTy → Bool | .fp32 | .bf16 | .fp16 | .e4m3 | .e5m2 => true | _ => false

/-- How many parts a conversion between Ns and Nd lanes has (R164). -/
def parts (ns nd : Nat) : Nat := if ns < nd then nd / ns else ns / nd

/-- A V word whose rounding field is marked 0. -/
def VUn.flat (f : VUn) : Bool := f.rnd == .ctx
def VBin.flat (f : VBin) : Bool := f.rnd == .ctx
def VBin.plainI (f : VBin) : Bool := f.rnd == .ctx && f.ty.isI

/-- The conversions of FCVT (R126). -/
def fcvtTy : ElemTy → Bool
  | .fp32 | .bf16 | .fp16 | .e4m3 | .e5m2 | .i32 | .u32 | .i64 | .u64 => true | _ => false

/-- n of a T form, 1 to 64 (R219). -/
def tN (n : BitVec 7) : Bool := decide (1 ≤ n.toNat) && decide (n.toNat ≤ 64)

/-- The static rules of every instruction's entry. -/
def Instr.wf : Instr → Bool
  | .nop _ => true
  | .add f | .sub f | .mul f | .mulh f | .div f | .rem f | .and f | .or f | .xor f | .andn f
  | .shl f | .shr f | .sar f | .rot f | .min f | .max f => f.ok
  | .clz f | .ctz f | .popc f => f.ok
  | .cmp _ f => f.ok && decide (f.dst.toNat < 8)
  | .sel _ _ f => f.plain
  | .li f => f.plain && f.a.isLiteral
  | .mov f => f.plain && !f.a.isLiteral
  | .bfx pos len f | .bfi pos len f => f.ok && !f.a.isLit && decide (pos.toNat + (len.toNat + 1) ≤ if f.w then 32 else 64)
  | .addr _ f => f.plain
  | .xfer file f => f.plain && (match file with | .p | .k => decide (f.dst.toNat < 32) | _ => true)
  | .fadd _ f | .fsub _ f | .fmul _ f | .fma _ f | .fmin _ f | .fmax _ f => f.plain
  | .frcp _ f | .frsq _ f | .fexp2 _ f | .flog2 _ f => f.plain
  | .fcmp _ _ f => f.plain && decide (f.dst.toNat < 8) && !f.a.isLit && !f.b.isLit
  | .fcvt s d f => f.plain && !f.a.isLit && fcvtTy s && fcvtTy d && !(s.isI && d.isI)
  | .rand _ _ _ => true
  | .vadd f | .vsub f | .vmul f | .vdiv f => f.ty.isF
  | .vfma f | .vfms f | .vfnma f => f.ty.isF
  | .vmin f | .vmax f => f.ty.isF && f.flat
  | .vabs f | .vneg f => (f.ty.isF || f.ty.isF8) && f.flat
  | .vrcp f | .vrsq f | .vsqrt f | .vexp2 f | .vlog2 f | .vtanh f | .vsigm f | .vsilu f | .vgelu f => f.ty.isF
  | .viadd m f | .visub m f => f.plainI && m != .hi
  | .vimul _ f => f.plainI
  | .vimad m f => f.rnd == .ctx && f.ty.isI && m != .hi
  | .vimin f | .vimax f => f.plainI
  | .vand f | .vor f | .vxor f => f.flat
  | .vshl f | .vshr f | .vsar f => f.plainI
  | .vcmp c f => f.flat && decide (f.dst.toNat < 8) && (f.ty.isF || ((f.ty.isF8 || f.ty.isI) && c != .un && c != .ord))
  | .vsel f => f.flat && f.mask.isSome
  | .vmask _ _ _ => true
  | .vmov f => f.flat
  | .vperm f => f.flat
  | .vbcast j f => f.flat && decide (j.toNat < f.ty.lanes)
  | .vslide n f => f.flat && decide (n.toNat < f.ty.lanes)
  | .vcomp f | .vexpd f => f.flat && f.mask.isSome
  | .vpsum f => f.flat && (f.ty.isF || f.ty.isI)
  | .vred op f => f.flat && (match op with
      | .sum => f.ty.isF || f.ty.isI
      | .sumw => f.ty == .bf16 || f.ty == .fp16 || f.ty.isF8
      | _ => f.ty.isF || f.ty.isF8 || f.ty.isI)
  | .vfind _ f => f.flat && (f.ty.isF || f.ty.isF8 || f.ty.isI)
  | .vcnt f | .viota f => f.ty.isI && f.mask.isSome
  | .vcvt d h sat f =>
    let ok := fun (t : ElemTy) => t.isF || t.isF8 || t.isI
    ok f.ty && ok d && decide (h.toNat < parts f.ty.lanes d.lanes) && (!sat || (f.ty.isI && d.isI)) &&
      (!(f.ty.isI && d.isI) || f.flat)
  | .vquant sc d h f => (f.ty == .fp32 || f.ty == .bf16) && d.isF8 && decide (h.toNat < parts f.ty.lanes 256) &&
      (!sc || (f.b == .reg 0 && f.flat))
  | .vdeq d h f => f.ty.isF8 && (d == .fp32 || d == .bf16) && decide (h.toNat < parts 256 d.lanes)
  | .vcwenc h f => (f.ty == .fp32 || f.ty == .bf16) && decide (h.toNat < parts f.ty.lanes 256)
  | .vcwdec d h view o f => f.ty == .cw8 && (d == .fp32 || d == .bf16) && decide (h.toNat < parts 256 d.lanes) &&
      (o == 0 || view != .cw8)
  | .vrand f => f.ty == .u32 || f.ty == .fp32
  | .vxfer file j f => f.flat && f.mask.isNone && decide (j.toNat < f.ty.lanes) && (match file with
      | .other => j == 0
      | .a | .b => decide (f.dst.toNat < 64)
      | .p | .k => decide (f.dst.toNat < 32))
  | .vins j f => f.flat && f.mask.isNone && decide (j.toNat < f.ty.lanes)
  | .vclass f => f.flat && (f.ty.isF || f.ty.isF8)
  | .lds _ d _ ad => d.scalar && ad.ok 30
  | .sts _ s _ ad => s.scalar && ad.ok 17
  | .vld _ d _ ad => d.vecOrMask && ad.ok 30
  | .vst _ s _ ad => s.vecOrMask && ad.ok 17
  | .vlds _ d _ _ off => d.vector && fitsS 25 off
  | .vsts _ s _ _ off => s.vector && fitsS 12 off
  | .vgath ty h d _ _ off => d.vector && fitsS 20 off && decide (h.toNat < Nat.max 1 (ty.lanes / 64))
  | .vscat ty h s _ _ => s.vector && decide (h.toNat < Nat.max 1 (ty.lanes / 64))
  | .atom op ty d s _ off | .nat op ty d s _ off => atomOk op ty d s off
  | .pref _ _ off => fitsS 30 off
  | .wset _ mem set rec _ => if mem then set == 0 else rec == 0
  | .wstart _ | .wstop _ _ => true
  | .wstat d _ | .cbwait d _ _ _ => d.scalar
  | .cbadv _ _ _ => true
  | .cbset _ _ off => fitsS 26 off
  | .nld _ d _ off => d.ok && fitsS 30 off
  | .nst _ _ s _ off => s.ok && fitsS 12 off
  | .nts ty s _ _ _ _ | .ncb ty s _ _ _ => ty.combiner && s.ok
  | .nmc _ _ _ _ s _ off => s.ok && fitsS 12 off
  | .pld _ d _ _ _ off => d.ok && fitsS 13 off
  | .pst ty acc s _ _ off => s.ok && fitsS 12 off && (!acc || (s.scalar && AtomOp.fadd.okTy ty))
  | .tcfg _ _ _ | .tdrain _ _ | .tzero _ _ | .tmma _ _ _ _ _ _ | .tld _ _ _ | .tst _ _ _ _ | .tred _ _ _ _ _ _ => true
  | .taff ident off _ _ => !(ident && off)
  | .tscan c _ _ set n => tN n && (c || set == 0)
  | .tcarry op w _ _ _ reg => op != .ident || (reg == 0 && !w)
  | .trd r _ _ _ _ row0 n1 => decide (row0.toNat + n1.toNat < 64) && (!r || (row0 == 0 && n1 == 63))
  | .twr _ _ _ _ row0 n1 => decide (row0.toNat + n1.toNat < 64)
  | .tcomb _ _ _ n => tN n
  | .tres _ _ _ _ d => d.scalar
  | .tdesc _ _ src => (match src with | .const o => decide (o.toNat % 64 = 0) | .reg _ _ => true)
  | .call ind _ base _ => ind || base == 0
  | .loop _ _ off => decide (0 < off.toInt)
  | .ecopy eng f | .efill eng f | .econv eng f => eng != 3 && decide (0 < f.amount.toNat)
  | .egather f | .escatter f | .ecoll f | .eplane f => decide (0 < f.amount.toNat)
  | .estat _ e => decide (e.toNat < 6)
  | .pqry _ _ what => what != 3
  | .watch arm shut _ base len _ => arm || (!shut && base == 0 && len == 0)
  | _ => true

end Sys2Proof
end

