-- ==== Sys2Proof/Decode.lean ====
section
/-! DEFINITION. The bundle header and the five slot-word layouts (R52, R59), the encoder, and the decoder: total on every
word, rejecting by name. A word is read field by field; it is accepted when the instruction read is well formed and the
word is exactly that instruction's encoding, so every reserved field that is not zero is rejected (R68). -/

namespace Sys2Proof

/-- Why a slot word stands for no instruction. Each raises the illegal-encoding trap. -/
inductive DecodeReject
  /-- an opcode that R69 does not assign (R70) -/
  | unassignedOpcode
  /-- an operand specifier, type, file or function value that is reserved (R60, R61, R63, R66) -/
  | reservedValue
  /-- a reserved field or bit that is not zero (R68) -/
  | reservedField
  /-- fields that the entry's own rules exclude -/
  | illFormed
  deriving DecidableEq, Repr

/-! ### Codes of small fields -/

namespace ElemTy
def code : ElemTy → BitVec 4
  | fp32 => 0 | bf16 => 1 | fp16 => 2 | e4m3 => 3 | e5m2 => 4 | e8m0 => 5 | cw8 => 6
  | i8 => 8 | u8 => 9 | i16 => 10 | u16 => 11 | i32 => 12 | u32 => 13 | i64 => 14 | u64 => 15
def ofCode (c : BitVec 4) : Option ElemTy :=
  match c.toNat with
  | 0 => some fp32 | 1 => some bf16 | 2 => some fp16 | 3 => some e4m3 | 4 => some e5m2 | 5 => some e8m0 | 6 => some cw8
  | 8 => some i8 | 9 => some u8 | 10 => some i16 | 11 => some u16 | 12 => some i32 | 13 => some u32 | 14 => some i64
  | 15 => some u64 | _ => none
end ElemTy

def SFmt.code : SFmt → BitVec 4 | .fp32 => 0 | .bf16 => 1 | .fp16 => 2
def SFmt.ofCode (c : BitVec 4) : Option SFmt :=
  match c.toNat with | 0 => some .fp32 | 1 => some .bf16 | 2 => some .fp16 | _ => none

def VRnd.code : VRnd → BitVec 2 | .ctx => 0 | .rne => 1 | .rz => 2 | .sr => 3
def VRnd.ofCode (c : BitVec 2) : VRnd := match c.toNat with | 0 => .ctx | 1 => .rne | 2 => .rz | _ => .sr

def VIMode.code : VIMode → BitVec 2 | .wrap => 0 | .sat => 1 | .hi => 2
def VIMode.ofCode (c : BitVec 2) : Option VIMode :=
  match c.toNat with | 0 => some .wrap | 1 => some .sat | 2 => some .hi | _ => none

def ICond.code : ICond → BitVec 4 | .eq => 0 | .ne => 1 | .lt => 2 | .le => 3 | .gt => 4 | .ge => 5
def ICond.ofCode (c : BitVec 4) : Option ICond :=
  match c.toNat with
  | 0 => some .eq | 1 => some .ne | 2 => some .lt | 3 => some .le | 4 => some .gt | 5 => some .ge | _ => none

def FCond.code : FCond → Nat | .eq => 0 | .ne => 1 | .lt => 2 | .le => 3 | .gt => 4 | .ge => 5 | .un => 6 | .ord => 7
def FCond.ofCode : Nat → Option FCond
  | 0 => some .eq | 1 => some .ne | 2 => some .lt | 3 => some .le | 4 => some .gt | 5 => some .ge
  | 6 => some .un | 7 => some .ord | _ => none

def XferFile.code : XferFile → BitVec 4 | .other => 0 | .p => 1 | .k => 2 | .v => 3 | .w => 4
def XferFile.ofCode (c : BitVec 4) : Option XferFile :=
  match c.toNat with | 0 => some .other | 1 => some .p | 2 => some .k | 3 => some .v | 4 => some .w | _ => none

def VXferFile.code : VXferFile → Nat | .other => 0 | .a => 1 | .b => 2 | .p => 3 | .k => 4
def VXferFile.ofCode : Nat → Option VXferFile
  | 0 => some .other | 1 => some .a | 2 => some .b | 3 => some .p | 4 => some .k | _ => none

def VRedOp.code : VRedOp → Nat | .sum => 0 | .sumw => 1 | .max => 2 | .min => 3
def VRedOp.ofCode : Nat → VRedOp | 0 => .sum | 1 => .sumw | 2 => .max | _ => .min
def VFindCond.code : VFindCond → Nat | .gt => 0 | .ge => 1 | .eq => 2 | .ne => 3
def VFindCond.ofCode : Nat → VFindCond | 0 => .gt | 1 => .ge | 2 => .eq | _ => .ne
def CwView.code : CwView → Nat | .cw8 => 0 | .cw4 => 1 | .cw2 => 2
def CwView.ofCode : Nat → Option CwView | 0 => some .cw8 | 1 => some .cw4 | 2 => some .cw2 | _ => none

def RFile.code : RFile → Nat | .a => 0 | .b => 1 | .v => 2 | .w => 3 | .p => 4 | .k => 5 | .x => 6 | .y => 7
def RFile.ofCode : Nat → RFile
  | 0 => .a | 1 => .b | 2 => .v | 3 => .w | 4 => .p | 5 => .k | 6 => .x | _ => .y

def AtomOp.code : AtomOp → BitVec 4
  | .add => 0 | .min => 1 | .max => 2 | .and => 3 | .or => 4 | .xor => 5 | .swap => 6 | .cas => 7
  | .fadd => 8 | .fmin => 9 | .fmax => 10
def AtomOp.ofCode (c : BitVec 4) : Option AtomOp :=
  match c.toNat with
  | 0 => some .add | 1 => some .min | 2 => some .max | 3 => some .and | 4 => some .or | 5 => some .xor
  | 6 => some .swap | 7 => some .cas | 8 => some .fadd | 9 => some .fmin | 10 => some .fmax | _ => none

def TRedOp.code : TRedOp → Nat | .sum => 0 | .max => 1 | .min => 2
def TRedOp.ofCode : Nat → Option TRedOp | 0 => some .sum | 1 => some .max | 2 => some .min | _ => none
def TCarryOp.code : TCarryOp → Nat | .ident => 0 | .h => 1 | .wr => 2 | .rd => 3
def TCarryOp.ofCode : Nat → TCarryOp | 0 => .ident | 1 => .h | 2 => .wr | _ => .rd
def Scope.code : Scope → Nat | .core => 0 | .cluster => 1 | .die => 2 | .package => 3 | .domain => 4
def Scope.ofCode : Nat → Option Scope
  | 0 => some .core | 1 => some .cluster | 2 => some .die | 3 => some .package | 4 => some .domain | _ => none
def CsrOp.code : CsrOp → Nat | .write => 0 | .set => 1 | .clr => 2
def CsrOp.ofCode : Nat → Option CsrOp | 0 => some .write | 1 => some .set | 2 => some .clr | _ => none
def KvBind.code : KvBind → Nat | .none => 0 | .bind => 1 | .rel => 2
def KvBind.ofCode : Nat → Option KvBind | 0 => some .none | 1 => some .bind | 2 => some .rel | _ => Option.none

/-! ### S words -/

/-- The fields of an S word (R59). -/
structure SWord where
  op : BitVec 8
  mod : BitVec 8
  dst : BitVec 6
  s1 : BitVec 8
  s2 : BitVec 8
  imm : BitVec 26
  deriving DecidableEq, Repr

def SWord.pack (f : SWord) : Nat :=
  f.op.toNat * 2 ^ 56 + f.mod.toNat * 2 ^ 48 + f.dst.toNat * 2 ^ 42 + f.s1.toNat * 2 ^ 34 + f.s2.toNat * 2 ^ 26 +
    f.imm.toNat

def SWord.unpack (w : Nat) : SWord :=
  ⟨BitVec.ofNat 8 (bitsAt w 56 8), BitVec.ofNat 8 (bitsAt w 48 8), BitVec.ofNat 6 (bitsAt w 42 6),
   BitVec.ofNat 8 (bitsAt w 34 8), BitVec.ofNat 8 (bitsAt w 26 8), BitVec.ofNat 26 (bitsAt w 0 26)⟩

/-- The specifier byte of an S operand (R60). -/
def SOpnd.spec : SOpnd → BitVec 8
  | .reg i => BitVec.ofNat 8 i.toNat
  | .head q => BitVec.ofNat 8 (64 + q.toNat)
  | .lit _ => 0x80 | .immS => 0x81 | .immZ => 0x82 | .immHi => 0x83

/-- The operand of a specifier byte, with the word's literal. -/
def SOpnd.ofSpec (s : BitVec 8) (imm : BitVec 26) : Option SOpnd :=
  let n := s.toNat
  if n < 64 then some (.reg (BitVec.ofNat 6 n))
  else if n < 72 then some (.head (BitVec.ofNat 3 (n - 64)))
  else match n with
    | 0x80 => some (.lit imm) | 0x81 => some .immS | 0x82 => some .immZ | 0x83 => some .immHi | _ => none

/-- The literal field that the operands of a word need. -/
def litOf (a b : SOpnd) : BitVec 26 :=
  match a, b with
  | .lit v, _ => v
  | _, .lit v => v
  | _, _ => 0

/-- The mod byte of an S word. -/
def smod (h1 h2 w u : Bool) (sub : BitVec 4) : BitVec 8 :=
  BitVec.ofNat 8 (b2n h1 * 128 + b2n h2 * 64 + b2n w * 32 + b2n u * 16 + sub.toNat)

def SWord.h1 (f : SWord) : Bool := bitAt f.mod.toNat 7
def SWord.h2 (f : SWord) : Bool := bitAt f.mod.toNat 6
def SWord.w (f : SWord) : Bool := bitAt f.mod.toNat 5
def SWord.u (f : SWord) : Bool := bitAt f.mod.toNat 4
def SWord.sub (f : SWord) : BitVec 4 := BitVec.ofNat 4 (bitsAt f.mod.toNat 0 4)

def SBin.word (op : BitVec 8) (sub : BitVec 4) (f : SBin) : SWord :=
  ⟨op, smod f.h1 f.h2 f.w f.u sub, f.dst, f.a.spec, f.b.spec, litOf f.a f.b⟩
/-- As `SBin.word`, with an imm field of its own (R115). -/
def SBin.wordImm (op : BitVec 8) (sub : BitVec 4) (imm : BitVec 26) (f : SBin) : SWord :=
  ⟨op, smod f.h1 f.h2 f.w f.u sub, f.dst, f.a.spec, f.b.spec, imm⟩
def SUn.word (op : BitVec 8) (sub : BitVec 4) (f : SUn) : SWord :=
  ⟨op, smod f.h1 false f.w f.u sub, f.dst, f.a.spec, 0, litOf f.a (.reg 0)⟩
def SUn.wordImm (op : BitVec 8) (sub : BitVec 4) (imm : BitVec 26) (f : SUn) : SWord :=
  ⟨op, smod f.h1 false f.w f.u sub, f.dst, f.a.spec, 0, imm⟩

def SWord.bin (slot : SSlot) (f : SWord) : Option SBin := do
  let a ← SOpnd.ofSpec f.s1 f.imm
  let b ← SOpnd.ofSpec f.s2 f.imm
  pure ⟨slot, f.h1, f.h2, f.w, f.u, f.dst, a, b⟩
def SWord.un (slot : SSlot) (f : SWord) : Option SUn := do
  let a ← SOpnd.ofSpec f.s1 f.imm
  pure ⟨slot, f.h1, f.w, f.u, f.dst, a⟩

/-- pos and len of BFX and BFI in the imm field (R120). -/
def bfImm (pos len : BitVec 6) : BitVec 26 := BitVec.ofNat 26 (pos.toNat * 64 + len.toNat)
def bfPos (f : SWord) : BitVec 6 := BitVec.ofNat 6 (bitsAt f.imm.toNat 6 6)
def bfLen (f : SWord) : BitVec 6 := BitVec.ofNat 6 (bitsAt f.imm.toNat 0 6)

/-- The fields of an S-class instruction's word, none for an instruction of another class. -/
def Instr.sWord : Instr → Option (SSlot × SWord)
  | .nop .s0 => some (.s0, ⟨0, 0, 0, 0, 0, 0⟩)
  | .nop .s1 => some (.s1, ⟨0, 0, 0, 0, 0, 0⟩)
  | .add f => some (f.slot, f.word 0x01 0) | .sub f => some (f.slot, f.word 0x02 0)
  | .mul f => some (f.slot, f.word 0x03 0) | .mulh f => some (f.slot, f.word 0x04 0)
  | .div f => some (f.slot, f.word 0x05 0) | .rem f => some (f.slot, f.word 0x06 0)
  | .and f => some (f.slot, f.word 0x07 0) | .or f => some (f.slot, f.word 0x08 0)
  | .xor f => some (f.slot, f.word 0x09 0) | .andn f => some (f.slot, f.word 0x0A 0)
  | .shl f => some (f.slot, f.word 0x0B 0) | .shr f => some (f.slot, f.word 0x0C 0)
  | .sar f => some (f.slot, f.word 0x0D 0) | .rot f => some (f.slot, f.word 0x0E 0)
  | .clz f => some (f.slot, f.word 0x0F 0) | .ctz f => some (f.slot, f.word 0x10 0)
  | .popc f => some (f.slot, f.word 0x11 0)
  | .min f => some (f.slot, f.word 0x12 0) | .max f => some (f.slot, f.word 0x13 0)
  | .cmp c f => some (f.slot, f.word 0x14 c.code)
  | .sel g n f => some (f.slot, f.word 0x15 (BitVec.ofNat 4 (b2n n * 8 + g.toNat)))
  | .li f => some (f.slot, f.word 0x16 0) | .mov f => some (f.slot, f.word 0x17 0)
  | .bfx p l f => some (f.slot, f.wordImm 0x18 0 (bfImm p l)) | .bfi p l f => some (f.slot, f.wordImm 0x19 0 (bfImm p l))
  | .addr sh f => some (f.slot, f.word 0x1A (BitVec.ofNat 4 sh.toNat))
  | .xfer file f => some (f.slot, f.word 0x1B file.code)
  | .fadd t f => some (f.slot, f.word 0x1C t.code) | .fsub t f => some (f.slot, f.word 0x1D t.code)
  | .fmul t f => some (f.slot, f.word 0x1E t.code) | .fma t f => some (f.slot, f.word 0x1F t.code)
  | .fmin t f => some (f.slot, f.word 0x20 t.code) | .fmax t f => some (f.slot, f.word 0x21 t.code)
  | .fcmp t c f => some (f.slot, f.wordImm 0x22 t.code (BitVec.ofNat 26 c.code))
  | .fcvt s d f => some (f.slot, f.wordImm 0x23 0 (BitVec.ofNat 26 (d.code.toNat * 16 + s.code.toNat)))
  | .frcp t f => some (f.slot, f.word 0x24 t.code) | .frsq t f => some (f.slot, f.word 0x25 t.code)
  | .fexp2 t f => some (f.slot, f.word 0x26 t.code) | .flog2 t f => some (f.slot, f.word 0x27 t.code)
  | .rand fl s d => some (s, ⟨0x28, smod false false false false (BitVec.ofNat 4 (b2n fl)), d, 0, 0, 0⟩)
  | _ => none

/-- The instruction that the fields of an S word name, reserved fields apart. -/
def SWord.read (slot : SSlot) (f : SWord) : Option Instr := do
  let bin := f.bin slot
  let un := f.un slot
  let fmt := SFmt.ofCode f.sub
  match f.op.toNat with
  | 0x00 => pure (.nop (match slot with | .s0 => .s0 | .s1 => .s1))
  | 0x01 => pure (.add (← bin)) | 0x02 => pure (.sub (← bin)) | 0x03 => pure (.mul (← bin))
  | 0x04 => pure (.mulh (← bin)) | 0x05 => pure (.div (← bin)) | 0x06 => pure (.rem (← bin))
  | 0x07 => pure (.and (← bin)) | 0x08 => pure (.or (← bin)) | 0x09 => pure (.xor (← bin))
  | 0x0A => pure (.andn (← bin)) | 0x0B => pure (.shl (← bin)) | 0x0C => pure (.shr (← bin))
  | 0x0D => pure (.sar (← bin)) | 0x0E => pure (.rot (← bin)) | 0x0F => pure (.clz (← un))
  | 0x10 => pure (.ctz (← un)) | 0x11 => pure (.popc (← un)) | 0x12 => pure (.min (← bin))
  | 0x13 => pure (.max (← bin)) | 0x14 => pure (.cmp (← ICond.ofCode f.sub) (← bin))
  | 0x15 => pure (.sel (BitVec.ofNat 3 (bitsAt f.sub.toNat 0 3)) (bitAt f.sub.toNat 3) (← bin))
  | 0x16 => pure (.li (← un)) | 0x17 => pure (.mov (← un))
  | 0x18 => pure (.bfx (bfPos f) (bfLen f) (← un)) | 0x19 => pure (.bfi (bfPos f) (bfLen f) (← un))
  | 0x1A => pure (.addr (BitVec.ofNat 3 (bitsAt f.sub.toNat 0 3)) (← bin))
  | 0x1B => pure (.xfer (← XferFile.ofCode f.sub) (← un))
  | 0x1C => pure (.fadd (← fmt) (← bin)) | 0x1D => pure (.fsub (← fmt) (← bin))
  | 0x1E => pure (.fmul (← fmt) (← bin)) | 0x1F => pure (.fma (← fmt) (← bin))
  | 0x20 => pure (.fmin (← fmt) (← bin)) | 0x21 => pure (.fmax (← fmt) (← bin))
  | 0x22 => pure (.fcmp (← fmt) (← FCond.ofCode f.imm.toNat) (← bin))
  | 0x23 => pure (.fcvt (← ElemTy.ofCode (BitVec.ofNat 4 (bitsAt f.imm.toNat 0 4)))
      (← ElemTy.ofCode (BitVec.ofNat 4 (bitsAt f.imm.toNat 4 4))) (← un))
  | 0x24 => pure (.frcp (← fmt) (← un)) | 0x25 => pure (.frsq (← fmt) (← un))
  | 0x26 => pure (.fexp2 (← fmt) (← un)) | 0x27 => pure (.flog2 (← fmt) (← un))
  | 0x28 => pure (.rand (bitAt f.sub.toNat 0) slot f.dst)
  | _ => none

/-! ### V words -/

/-- The fields of a V word (R59). -/
structure VWord where
  op : BitVec 8
  ty : BitVec 4
  midx : BitVec 3
  men : BitVec 1
  dst : BitVec 10
  a : BitVec 12
  b : BitVec 12
  c : BitVec 12
  rnd : BitVec 2
  deriving DecidableEq, Repr

def VWord.pack (f : VWord) : Nat :=
  f.op.toNat * 2 ^ 56 + f.ty.toNat * 2 ^ 52 + f.midx.toNat * 2 ^ 49 + f.men.toNat * 2 ^ 48 + f.dst.toNat * 2 ^ 38 +
    f.a.toNat * 2 ^ 26 + f.b.toNat * 2 ^ 14 + f.c.toNat * 2 ^ 2 + f.rnd.toNat

def VWord.unpack (w : Nat) : VWord :=
  ⟨BitVec.ofNat 8 (bitsAt w 56 8), BitVec.ofNat 4 (bitsAt w 52 4), BitVec.ofNat 3 (bitsAt w 49 3),
   BitVec.ofNat 1 (bitsAt w 48 1), BitVec.ofNat 10 (bitsAt w 38 10), BitVec.ofNat 12 (bitsAt w 26 12),
   BitVec.ofNat 12 (bitsAt w 14 12), BitVec.ofNat 12 (bitsAt w 2 12), BitVec.ofNat 2 (bitsAt w 0 2)⟩

/-- The 12-bit specifier of a V operand (R61). -/
def VOpnd.spec : VOpnd → BitVec 12
  | .reg i => BitVec.ofNat 12 i.toNat
  | .head q => BitVec.ofNat 12 (1024 + q.toNat)
  | .bc => 0x800 | .imm => 0x801

def VOpnd.ofSpec (s : BitVec 12) : Option VOpnd :=
  let n := s.toNat
  if n < 1024 then some (.reg (BitVec.ofNat 10 n))
  else if n < 1032 then some (.head (BitVec.ofNat 3 (n - 1024)))
  else match n with | 0x800 => some .bc | 0x801 => some .imm | _ => none

def maskIdx : Option (BitVec 3) → BitVec 3 | none => 0 | some i => i
def maskEn : Option (BitVec 3) → BitVec 1 | none => 0 | some _ => 1
def VWord.mask (f : VWord) : Option (BitVec 3) := if f.men = 1 then some f.midx else none

/-- A V word over raw operand fields. -/
def vword (op : BitVec 8) (ty : ElemTy) (m : Option (BitVec 3)) (dst : BitVec 10) (a b c : BitVec 12) (r : BitVec 2) : VWord :=
  ⟨op, ty.code, maskIdx m, maskEn m, dst, a, b, c, r⟩
def VUn.word (op : BitVec 8) (f : VUn) (c : BitVec 12 := 0) : VWord := vword op f.ty f.mask f.dst f.a.spec 0 c f.rnd.code
def VBin.word (op : BitVec 8) (f : VBin) (c : BitVec 12 := 0) : VWord :=
  vword op f.ty f.mask f.dst f.a.spec f.b.spec c f.rnd.code
def VTer.word (op : BitVec 8) (f : VTer) : VWord := vword op f.ty f.mask f.dst f.a.spec f.b.spec f.c.spec f.rnd.code
def VBin.wordM (op : BitVec 8) (m : VIMode) (f : VBin) : VWord := vword op f.ty f.mask f.dst f.a.spec f.b.spec 0 m.code
def VTer.wordM (op : BitVec 8) (m : VIMode) (f : VTer) : VWord :=
  vword op f.ty f.mask f.dst f.a.spec f.b.spec f.c.spec m.code
def VNul.word (op : BitVec 8) (f : VNul) : VWord := vword op f.ty f.mask f.dst 0 0 0 0

def VWord.un (slot : VSlot) (f : VWord) : Option VUn := do
  pure ⟨slot, ← ElemTy.ofCode f.ty, f.mask, f.dst, ← VOpnd.ofSpec f.a, VRnd.ofCode f.rnd⟩
def VWord.bin (slot : VSlot) (f : VWord) : Option VBin := do
  pure ⟨slot, ← ElemTy.ofCode f.ty, f.mask, f.dst, ← VOpnd.ofSpec f.a, ← VOpnd.ofSpec f.b, VRnd.ofCode f.rnd⟩
def VWord.ter (slot : VSlot) (f : VWord) : Option VTer := do
  pure ⟨slot, ← ElemTy.ofCode f.ty, f.mask, f.dst, ← VOpnd.ofSpec f.a, ← VOpnd.ofSpec f.b, ← VOpnd.ofSpec f.c, VRnd.ofCode f.rnd⟩
def VWord.nul (slot : VSlot) (f : VWord) : Option VNul := do
  pure ⟨slot, ← ElemTy.ofCode f.ty, f.mask, f.dst⟩

def c12 (n : Nat) : BitVec 12 := BitVec.ofNat 12 n

/-- A VMASK word: function, type and the two operand fields (R158). -/
def VMaskOp.word (op : VMaskOp) (dst : BitVec 3) : VWord :=
  let m := fun (a b : BitVec 12) (fn : Nat) => vword 0x23 .fp32 none (BitVec.ofNat 10 dst.toNat) a b (c12 fn) 0
  let i := fun (x : BitVec 3) => c12 x.toNat
  match op with
  | .and a b => m (i a) (i b) 0 | .or a b => m (i a) (i b) 1 | .xor a b => m (i a) (i b) 2
  | .andn a b => m (i a) (i b) 3 | .not a => m (i a) 0 4 | .first a => m a.spec 0 5
  | .nz ty a => vword 0x23 ty none (BitVec.ofNat 10 dst.toNat) a.spec 0 (c12 6) 0
  | .neg ty a => vword 0x23 ty none (BitVec.ofNat 10 dst.toNat) a.spec 0 (c12 7) 0

def VMaskOp.read (f : VWord) : Option VMaskOp := do
  let a := BitVec.ofNat 3 f.a.toNat
  let b := BitVec.ofNat 3 f.b.toNat
  match f.c.toNat with
  | 0 => pure (.and a b) | 1 => pure (.or a b) | 2 => pure (.xor a b) | 3 => pure (.andn a b) | 4 => pure (.not a)
  | 5 => pure (.first (← VOpnd.ofSpec f.a)) | 6 => pure (.nz (← ElemTy.ofCode f.ty) (← VOpnd.ofSpec f.a))
  | 7 => pure (.neg (← ElemTy.ofCode f.ty) (← VOpnd.ofSpec f.a)) | _ => none

def Instr.vWord : Instr → Option (VSlot × VWord)
  | .nop .v0 => some (.v0, ⟨0, 0, 0, 0, 0, 0, 0, 0, 0⟩)
  | .nop .v1 => some (.v1, ⟨0, 0, 0, 0, 0, 0, 0, 0, 0⟩)
  | .vadd f => some (f.slot, f.word 0x01) | .vsub f => some (f.slot, f.word 0x02) | .vmul f => some (f.slot, f.word 0x03)
  | .vfma f => some (f.slot, f.word 0x04) | .vfms f => some (f.slot, f.word 0x05) | .vfnma f => some (f.slot, f.word 0x06)
  | .vmin f => some (f.slot, f.word 0x07) | .vmax f => some (f.slot, f.word 0x08)
  | .vabs f => some (f.slot, f.word 0x09) | .vneg f => some (f.slot, f.word 0x0A)
  | .vrcp f => some (f.slot, f.word 0x0B) | .vrsq f => some (f.slot, f.word 0x0C) | .vsqrt f => some (f.slot, f.word 0x0D)
  | .vdiv f => some (f.slot, f.word 0x0E) | .vexp2 f => some (f.slot, f.word 0x0F) | .vlog2 f => some (f.slot, f.word 0x10)
  | .vtanh f => some (f.slot, f.word 0x11) | .vsigm f => some (f.slot, f.word 0x12) | .vsilu f => some (f.slot, f.word 0x13)
  | .vgelu f => some (f.slot, f.word 0x14)
  | .viadd m f => some (f.slot, f.wordM 0x15 m) | .visub m f => some (f.slot, f.wordM 0x16 m)
  | .vimul m f => some (f.slot, f.wordM 0x17 m) | .vimad m f => some (f.slot, f.wordM 0x18 m)
  | .vand f => some (f.slot, f.word 0x19) | .vor f => some (f.slot, f.word 0x1A) | .vxor f => some (f.slot, f.word 0x1B)
  | .vshl f => some (f.slot, f.word 0x1C) | .vshr f => some (f.slot, f.word 0x1D) | .vsar f => some (f.slot, f.word 0x1E)
  | .vimin f => some (f.slot, f.word 0x1F) | .vimax f => some (f.slot, f.word 0x20)
  | .vcmp c f => some (f.slot, f.word 0x21 (c12 c.code)) | .vsel f => some (f.slot, f.word 0x22)
  | .vmask op s d => some (s, op.word d) | .vmov f => some (f.slot, f.word 0x24)
  | .vperm f => some (f.slot, f.word 0x25) | .vbcast j f => some (f.slot, f.word 0x26 (c12 j.toNat))
  | .vslide n f => some (f.slot, f.word 0x27 (c12 n.toNat))
  | .vcomp f => some (f.slot, f.word 0x28) | .vexpd f => some (f.slot, f.word 0x29)
  | .vpsum f => some (f.slot, f.word 0x2A) | .vred op f => some (f.slot, f.word 0x2B (c12 op.code))
  | .vfind c f => some (f.slot, f.word 0x2C (c12 c.code))
  | .vcnt f => some (f.slot, f.word 0x2D) | .viota f => some (f.slot, f.word 0x2E)
  | .vcvt d h sat f => some (f.slot, f.word 0x2F (c12 (b2n sat * 64 + h.toNat * 16 + d.code.toNat)))
  | .vquant sc d h f => some (f.slot, f.word 0x30 (c12 (b2n sc * 64 + h.toNat * 16 + d.code.toNat)))
  | .vdeq d h f => some (f.slot, f.word 0x31 (c12 (h.toNat * 16 + d.code.toNat)))
  | .vcwenc h f => some (f.slot, f.word 0x32 (c12 (h.toNat * 16)))
  | .vcwdec d h v o f => some (f.slot, f.word 0x33 (c12 (o.toNat * 256 + v.code * 64 + h.toNat * 16 + d.code.toNat)))
  | .vrand f => some (f.slot, f.word 0x34)
  | .vxfer file j f => some (f.slot, f.word 0x35 (c12 (file.code * 512 + j.toNat)))
  | .vins j f => some (f.slot, f.word 0x36 (c12 j.toNat))
  | .vclass f => some (f.slot, f.word 0x37)
  | _ => none

/-- A V word's rounding field read as the integer mode (R153), the rounding field itself being then 00. -/
def VWord.ibin (slot : VSlot) (f : VWord) : Option VBin := ({ f with rnd := 0 }).bin slot
def VWord.iter (slot : VSlot) (f : VWord) : Option VTer := ({ f with rnd := 0 }).ter slot

def VWord.read (slot : VSlot) (f : VWord) : Option Instr := do
  let un := f.un slot
  let bin := f.bin slot
  let ter := f.ter slot
  let nul := f.nul slot
  let mode := VIMode.ofCode f.rnd
  let c := f.c.toNat
  let h := BitVec.ofNat 2 (bitsAt c 4 2)
  let cty := ElemTy.ofCode (BitVec.ofNat 4 (bitsAt c 0 4))
  let j := BitVec.ofNat 8 (bitsAt c 0 8)
  match f.op.toNat with
  | 0x00 => pure (.nop (match slot with | .v0 => .v0 | .v1 => .v1))
  | 0x01 => pure (.vadd (← bin)) | 0x02 => pure (.vsub (← bin)) | 0x03 => pure (.vmul (← bin))
  | 0x04 => pure (.vfma (← ter)) | 0x05 => pure (.vfms (← ter)) | 0x06 => pure (.vfnma (← ter))
  | 0x07 => pure (.vmin (← bin)) | 0x08 => pure (.vmax (← bin)) | 0x09 => pure (.vabs (← un)) | 0x0A => pure (.vneg (← un))
  | 0x0B => pure (.vrcp (← un)) | 0x0C => pure (.vrsq (← un)) | 0x0D => pure (.vsqrt (← un)) | 0x0E => pure (.vdiv (← bin))
  | 0x0F => pure (.vexp2 (← un)) | 0x10 => pure (.vlog2 (← un)) | 0x11 => pure (.vtanh (← un)) | 0x12 => pure (.vsigm (← un))
  | 0x13 => pure (.vsilu (← un)) | 0x14 => pure (.vgelu (← un))
  | 0x15 => pure (.viadd (← mode) (← f.ibin slot)) | 0x16 => pure (.visub (← mode) (← f.ibin slot))
  | 0x17 => pure (.vimul (← mode) (← f.ibin slot)) | 0x18 => pure (.vimad (← mode) (← f.iter slot))
  | 0x19 => pure (.vand (← bin)) | 0x1A => pure (.vor (← bin)) | 0x1B => pure (.vxor (← bin))
  | 0x1C => pure (.vshl (← bin)) | 0x1D => pure (.vshr (← bin)) | 0x1E => pure (.vsar (← bin))
  | 0x1F => pure (.vimin (← bin)) | 0x20 => pure (.vimax (← bin))
  | 0x21 => pure (.vcmp (← FCond.ofCode c) (← bin)) | 0x22 => pure (.vsel (← bin))
  | 0x23 => pure (.vmask (← VMaskOp.read f) slot (BitVec.ofNat 3 f.dst.toNat)) | 0x24 => pure (.vmov (← un))
  | 0x25 => pure (.vperm (← bin)) | 0x26 => pure (.vbcast j (← un)) | 0x27 => pure (.vslide j (← bin))
  | 0x28 => pure (.vcomp (← un)) | 0x29 => pure (.vexpd (← un)) | 0x2A => pure (.vpsum (← un))
  | 0x2B => pure (.vred (VRedOp.ofCode c) (← un)) | 0x2C => pure (.vfind (VFindCond.ofCode c) (← bin))
  | 0x2D => pure (.vcnt (← nul)) | 0x2E => pure (.viota (← nul))
  | 0x2F => pure (.vcvt (← cty) h (bitAt c 6) (← un)) | 0x30 => pure (.vquant (bitAt c 6) (← cty) h (← bin))
  | 0x31 => pure (.vdeq (← cty) h (← bin)) | 0x32 => pure (.vcwenc h (← bin))
  | 0x33 => pure (.vcwdec (← cty) h (← CwView.ofCode (bitsAt c 6 2)) (BitVec.ofNat 4 (bitsAt c 8 4)) (← bin))
  | 0x34 => pure (.vrand (← nul)) | 0x35 => pure (.vxfer (← VXferFile.ofCode (bitsAt c 9 3)) j (← un))
  | 0x36 => pure (.vins j (← un)) | 0x37 => pure (.vclass (← un))
  | _ => none

/-! ### L words -/

/-- The fields of an L word (R59). -/
structure LWord where
  op : BitVec 8
  ty : BitVec 4
  mod : BitVec 4
  dfile : BitVec 3
  dst : BitVec 10
  base : BitVec 5
  fld : BitVec 30
  deriving DecidableEq, Repr

def LWord.pack (f : LWord) : Nat :=
  f.op.toNat * 2 ^ 56 + f.ty.toNat * 2 ^ 52 + f.mod.toNat * 2 ^ 48 + f.dfile.toNat * 2 ^ 45 + f.dst.toNat * 2 ^ 35 +
    f.base.toNat * 2 ^ 30 + f.fld.toNat

def LWord.unpack (w : Nat) : LWord :=
  ⟨BitVec.ofNat 8 (bitsAt w 56 8), BitVec.ofNat 4 (bitsAt w 52 4), BitVec.ofNat 4 (bitsAt w 48 4),
   BitVec.ofNat 3 (bitsAt w 45 3), BitVec.ofNat 10 (bitsAt w 35 10), BitVec.ofNat 5 (bitsAt w 30 5),
   BitVec.ofNat 30 (bitsAt w 0 30)⟩

/-- An L word with a destination register. -/
def lwordD (op : BitVec 8) (ty : ElemTy) (mod : Nat) (d : RegRef) (base : BitVec 5) (fld : Nat) : LWord :=
  ⟨op, ty.code, BitVec.ofNat 4 mod, BitVec.ofNat 3 d.file.code, d.idx, base, BitVec.ofNat 30 fld⟩
/-- An L word without a destination. -/
def lwordN (op : BitVec 8) (ty : ElemTy) (mod : Nat) (base : BitVec 5) (fld : Nat) : LWord :=
  ⟨op, ty.code, BitVec.ofNat 4 mod, 0, 0, base, BitVec.ofNat 30 fld⟩

/-- A register operand inside the field: file and index in 13 bits. -/
def RegRef.code (r : RegRef) : Nat := r.file.code * 1024 + r.idx.toNat
def RegRef.ofCode (n : Nat) : RegRef := ⟨RFile.ofCode (bitsAt n 10 3), BitVec.ofNat 10 (bitsAt n 0 10)⟩
def LWord.dreg (f : LWord) : RegRef := ⟨RFile.ofCode f.dfile.toNat, f.dst⟩

/-- The address sub-field of n bits, and the index-mode bit (R187). -/
def LAddr.fld (n : Nat) : LAddr → Nat
  | .off o => wrapInt n o
  | .idx pi sh => sh.toNat * 32 + pi.toNat
def LAddr.mode : LAddr → Nat | .off _ => 0 | .idx _ _ => 8
def LAddr.read (n : Nat) (m : BitVec 4) (fld : Nat) : LAddr :=
  if bitAt m.toNat 3 then .idx (BitVec.ofNat 5 (bitsAt fld 0 5)) (BitVec.ofNat 3 (bitsAt fld 5 3))
  else .off (sextNat n fld)

def optFlag : Option (BitVec 5) → Nat | none => 0 | some p => p.toNat
def atomFld (src : RegRef) (ret : Bool) (off : Int) : Nat := src.code * 2 ^ 17 + b2n ret * 2 ^ 16 + wrapInt 16 off

/-- ATOM and NAT. -/
def atomWord (op8 : BitVec 8) (op : AtomOp) (ty : ElemTy) (d : Option RegRef) (src : RegRef) (base : BitVec 5) (off : Int) : LWord :=
  match d with
  | some r => lwordD op8 ty op.code.toNat r base (atomFld src true off)
  | none => lwordN op8 ty op.code.toNat base (atomFld src false off)

def Instr.lWord : Instr → Option LWord
  | .nop .l => some ⟨0, 0, 0, 0, 0, 0, 0⟩
  | .lds ty d b ad => some (lwordD 0x01 ty ad.mode d b (ad.fld 30))
  | .sts ty s b ad => some (lwordN 0x02 ty ad.mode b (s.code * 2 ^ 17 + ad.fld 17))
  | .vld ty d b ad => some (lwordD 0x03 ty ad.mode d b (ad.fld 30))
  | .vst ty s b ad => some (lwordN 0x04 ty ad.mode b (s.code * 2 ^ 17 + ad.fld 17))
  | .vlds ty d b st off => some (lwordD 0x05 ty 0 d b (st.toNat * 2 ^ 25 + wrapInt 25 off))
  | .vsts ty s b st off => some (lwordN 0x06 ty 0 b (s.code * 2 ^ 17 + st.toNat * 2 ^ 12 + wrapInt 12 off))
  | .vgath ty h d b ix off => some (lwordD 0x07 ty h.toNat d b (ix.toNat * 2 ^ 20 + wrapInt 20 off))
  | .vscat ty h s b ix => some (lwordN 0x08 ty h.toNat b (s.code * 2 ^ 17 + ix.toNat * 2 ^ 7))
  | .atom op ty d s b off => some (atomWord 0x09 op ty d s b off)
  | .pref act b off => some (lwordN 0x0A .fp32 act.toNat b (wrapInt 30 off))
  | .wset q mem set rec b =>
    some (lwordN 0x0B .fp32 0 b (q.toNat * 2 ^ 27 + set.toNat * 2 ^ 22 + b2n mem * 2 ^ 21 + rec.toNat * 2 ^ 16))
  | .wstart q => some (lwordN 0x0C .fp32 0 0 (q.toNat * 2 ^ 27))
  | .wstop dr q => some (lwordN 0x0D .fp32 (b2n dr) 0 (q.toNat * 2 ^ 27))
  | .wstat d q => some (lwordD 0x0E .fp32 0 d 0 (q.toNat * 2 ^ 27))
  | .cbwait d cb n ver => some (lwordD 0x0F .fp32 0 d 0 (cb.toNat * 2 ^ 26 + n.toNat * 2 ^ 16 + ver.toNat))
  | .cbadv cb n ver => some (lwordN 0x10 .fp32 0 0 (cb.toNat * 2 ^ 26 + n.toNat * 2 ^ 16 + ver.toNat))
  | .cbset cb b off => some (lwordN 0x11 .fp32 0 b (cb.toNat * 2 ^ 26 + wrapInt 26 off))
  | .nld ty d b off => some (lwordD 0x12 ty 0 d b (wrapInt 30 off))
  | .nst ty fl s b off => some (lwordN 0x13 ty (b2n fl.isSome) b (s.code * 2 ^ 17 + optFlag fl * 2 ^ 12 + wrapInt 12 off))
  | .nat op ty d s b off => some (atomWord 0x14 op ty d s b off)
  | .nts ty s e p sl b => some (lwordN 0x15 ty 0 b (s.code * 2 ^ 17 + e.toNat * 2 ^ 11 + p.toNat * 2 ^ 5 + sl.toNat))
  | .nmc ty fl ax self s b off => some (lwordN 0x16 ty (b2n self * 8 + ax.toNat * 2 + b2n fl.isSome) b
      (s.code * 2 ^ 17 + optFlag fl * 2 ^ 12 + wrapInt 12 off))
  | .ncb ty s e p b => some (lwordN 0x17 ty 0 b (s.code * 2 ^ 17 + e.toNat * 2 ^ 11 + p.toNat * 2 ^ 5))
  | .pld ty d b dem de off => some (lwordD 0x18 ty 0 d b (dem.toNat * 2 ^ 18 + de.toNat * 2 ^ 13 + wrapInt 13 off))
  | .pst ty acc s b de off => some (lwordN 0x19 ty (b2n acc) b (s.code * 2 ^ 17 + de.toNat * 2 ^ 12 + wrapInt 12 off))
  | _ => none

def flagRead (m : Bool) (p : Nat) : Option (BitVec 5) := if m then some (BitVec.ofNat 5 p) else none

def LWord.read (f : LWord) : Option Instr := do
  let ty := ElemTy.ofCode f.ty
  let fld := f.fld.toNat
  let m := f.mod.toNat
  let src := RegRef.ofCode (bitsAt fld 17 13)
  let off := fun n => sextNat n fld
  let dopt := if bitAt fld 16 then some f.dreg else none
  let q := BitVec.ofNat 3 (bitsAt fld 27 3)
  let cb := BitVec.ofNat 4 (bitsAt fld 26 4)
  let h := BitVec.ofNat 2 (bitsAt m 0 2)
  match f.op.toNat with
  | 0x00 => pure (.nop .l)
  | 0x01 => pure (.lds (← ty) f.dreg f.base (LAddr.read 30 f.mod fld))
  | 0x02 => pure (.sts (← ty) src f.base (LAddr.read 17 f.mod (bitsAt fld 0 17)))
  | 0x03 => pure (.vld (← ty) f.dreg f.base (LAddr.read 30 f.mod fld))
  | 0x04 => pure (.vst (← ty) src f.base (LAddr.read 17 f.mod (bitsAt fld 0 17)))
  | 0x05 => pure (.vlds (← ty) f.dreg f.base (BitVec.ofNat 5 (bitsAt fld 25 5)) (off 25))
  | 0x06 => pure (.vsts (← ty) src f.base (BitVec.ofNat 5 (bitsAt fld 12 5)) (off 12))
  | 0x07 => pure (.vgath (← ty) h f.dreg f.base (BitVec.ofNat 10 (bitsAt fld 20 10)) (off 20))
  | 0x08 => pure (.vscat (← ty) h src f.base (BitVec.ofNat 10 (bitsAt fld 7 10)))
  | 0x09 => pure (.atom (← AtomOp.ofCode f.mod) (← ty) dopt src f.base (off 16))
  | 0x0A => pure (.pref h f.base (off 30))
  | 0x0B => pure (.wset q (bitAt fld 21) (BitVec.ofNat 5 (bitsAt fld 22 5)) (BitVec.ofNat 5 (bitsAt fld 16 5)) f.base)
  | 0x0C => pure (.wstart q)
  | 0x0D => pure (.wstop (bitAt m 0) q)
  | 0x0E => pure (.wstat f.dreg q)
  | 0x0F => pure (.cbwait f.dreg cb (BitVec.ofNat 10 (bitsAt fld 16 10)) (BitVec.ofNat 16 (bitsAt fld 0 16)))
  | 0x10 => pure (.cbadv cb (BitVec.ofNat 10 (bitsAt fld 16 10)) (BitVec.ofNat 16 (bitsAt fld 0 16)))
  | 0x11 => pure (.cbset cb f.base (off 26))
  | 0x12 => pure (.nld (← ty) f.dreg f.base (off 30))
  | 0x13 => pure (.nst (← ty) (flagRead (bitAt m 0) (bitsAt fld 12 5)) src f.base (off 12))
  | 0x14 => pure (.nat (← AtomOp.ofCode f.mod) (← ty) dopt src f.base (off 16))
  | 0x15 => pure (.nts (← ty) src (BitVec.ofNat 6 (bitsAt fld 11 6)) (BitVec.ofNat 6 (bitsAt fld 5 6))
      (BitVec.ofNat 5 (bitsAt fld 0 5)) f.base)
  | 0x16 => pure (.nmc (← ty) (flagRead (bitAt m 0) (bitsAt fld 12 5)) (BitVec.ofNat 2 (bitsAt m 1 2)) (bitAt m 3)
      src f.base (off 12))
  | 0x17 => pure (.ncb (← ty) src (BitVec.ofNat 6 (bitsAt fld 11 6)) (BitVec.ofNat 6 (bitsAt fld 5 6)) f.base)
  | 0x18 => pure (.pld (← ty) f.dreg f.base (BitVec.ofNat 12 (bitsAt fld 18 12)) (BitVec.ofNat 5 (bitsAt fld 13 5)) (off 13))
  | 0x19 => pure (.pst (← ty) (bitAt m 0) src f.base (BitVec.ofNat 5 (bitsAt fld 12 5)) (off 12))
  | _ => none

/-! ### T words -/

/-- The fields of a T word (R59). -/
structure TWord where
  op : BitVec 8
  mod : BitVec 8
  tile : BitVec 3
  dA : BitVec 4
  dB : BitVec 4
  dC : BitVec 4
  count : BitVec 33
  deriving DecidableEq, Repr

def TWord.pack (f : TWord) : Nat :=
  f.op.toNat * 2 ^ 56 + f.mod.toNat * 2 ^ 48 + f.tile.toNat * 2 ^ 45 + f.dA.toNat * 2 ^ 41 + f.dB.toNat * 2 ^ 37 +
    f.dC.toNat * 2 ^ 33 + f.count.toNat

def TWord.unpack (w : Nat) : TWord :=
  ⟨BitVec.ofNat 8 (bitsAt w 56 8), BitVec.ofNat 8 (bitsAt w 48 8), BitVec.ofNat 3 (bitsAt w 45 3),
   BitVec.ofNat 4 (bitsAt w 41 4), BitVec.ofNat 4 (bitsAt w 37 4), BitVec.ofNat 4 (bitsAt w 33 4),
   BitVec.ofNat 33 (bitsAt w 0 33)⟩

/-- Engine number: T0 owns t0 to t3 and d0 to d7, T1 the rest (R65). -/
def TSlot.num : TSlot → Nat | .t0 => 0 | .t1 => 1
def TSlot.tile (e : TSlot) (t : BitVec 2) : BitVec 3 := BitVec.ofNat 3 (e.num * 4 + t.toNat)
def TSlot.pairTile (e : TSlot) (p : BitVec 1) : BitVec 3 := BitVec.ofNat 3 (e.num * 4 + p.toNat * 2)
def TSlot.desc (e : TSlot) (d : BitVec 3) : BitVec 4 := BitVec.ofNat 4 (e.num * 8 + d.toNat)

def tword (op : BitVec 8) (mod : Nat) (tile : BitVec 3) (dA dB : BitVec 4) (dC count : Nat) : TWord :=
  ⟨op, BitVec.ofNat 8 mod, tile, dA, dB, BitVec.ofNat 4 dC, BitVec.ofNat 33 count⟩

/-- reg, row0 and n-1 in the count field (R219). -/
def regRows (reg : BitVec 10) (row0 n1 : BitVec 6) : Nat := n1.toNat * 2 ^ 16 + row0.toNat * 2 ^ 10 + reg.toNat

def Instr.tWord : Instr → Option (TSlot × TWord)
  | .nop .t0 => some (.t0, ⟨0, 0, 0, 0, 0, 0, 0⟩)
  | .nop .t1 => some (.t1, ⟨0, 0, 0, 0, 0, 0, 0⟩)
  | .tcfg e a b => some (e, tword 0x01 0 0 (e.desc a) (e.desc b) 0 0)
  | .tdrain e a => some (e, tword 0x02 0 0 (e.desc a) 0 0 0)
  | .tzero e t => some (e, tword 0x03 0 (e.tile t) 0 0 0 0)
  | .tmma adv e t a b k => some (e, tword 0x04 (b2n adv) (e.tile t) (e.desc a) (e.desc b) 0 k.toNat)
  | .taff i o e p => some (e, tword 0x05 (b2n o * 2 + b2n i) (e.pairTile p) 0 0 0 0)
  | .tscan c e p s n => some (e, tword 0x06 (b2n c) (e.pairTile p) 0 0 s.toNat n.toNat)
  | .tcarry op w e t s r => some (e, tword 0x07 (op.code * 2 + b2n w) (e.tile t) 0 0 s.toNat r.toNat)
  | .trd r w e t reg r0 n1 => some (e, tword 0x08 (b2n r * 128 + b2n w) (e.tile t) 0 0 0 (regRows reg r0 n1))
  | .twr w e t reg r0 n1 => some (e, tword 0x09 (b2n w) (e.tile t) 0 0 0 (regRows reg r0 n1))
  | .tld e t a => some (e, tword 0x0A 0 (e.tile t) (e.desc a) 0 0 0)
  | .tst r e t a => some (e, tword 0x0B (b2n r * 128) (e.tile t) (e.desc a) 0 0 0)
  | .tred op c w e t reg => some (e, tword 0x0C (b2n c * 8 + op.code * 2 + b2n w) (e.tile t) 0 0 0 reg.toNat)
  | .tcomb fold e p n => some (e, tword 0x0D (b2n fold) (e.pairTile p) 0 0
      (if fold then 0 else (e.pairTile (p + 1)).toNat) n.toNat)
  | .tres hz clr e t d => some (e, tword 0x0E (b2n clr * 16 + b2n hz * 8 + d.file.code) (e.tile t) 0 0 0 d.idx.toNat)
  | .tdesc e a (.const o) => some (e, tword 0x0F 0 0 (e.desc a) 0 0 o.toNat)
  | .tdesc e a (.reg w i) => some (e, tword 0x0F (b2n w * 4 + 1) 0 (e.desc a) 0 0 i.toNat)
  | _ => none

def TWord.read (e : TSlot) (f : TWord) : Option Instr := do
  let m := f.mod.toNat
  let t := BitVec.ofNat 2 f.tile.toNat
  let p := BitVec.ofNat 1 (f.tile.toNat / 2)
  let a := BitVec.ofNat 3 f.dA.toNat
  let b := BitVec.ofNat 3 f.dB.toNat
  let c := f.count.toNat
  let set := BitVec.ofNat 1 f.dC.toNat
  let reg := BitVec.ofNat 10 (bitsAt c 0 10)
  let r0 := BitVec.ofNat 6 (bitsAt c 10 6)
  let n1 := BitVec.ofNat 6 (bitsAt c 16 6)
  let n := BitVec.ofNat 7 c
  match f.op.toNat with
  | 0x00 => pure (.nop (match e with | .t0 => .t0 | .t1 => .t1))
  | 0x01 => pure (.tcfg e a b) | 0x02 => pure (.tdrain e a) | 0x03 => pure (.tzero e t)
  | 0x04 => pure (.tmma (bitAt m 0) e t a b f.count)
  | 0x05 => pure (.taff (bitAt m 0) (bitAt m 1) e p) | 0x06 => pure (.tscan (bitAt m 0) e p set n)
  | 0x07 => pure (.tcarry (TCarryOp.ofCode (bitsAt m 1 2)) (bitAt m 0) e t set reg)
  | 0x08 => pure (.trd (bitAt m 7) (bitAt m 0) e t reg r0 n1) | 0x09 => pure (.twr (bitAt m 0) e t reg r0 n1)
  | 0x0A => pure (.tld e t a) | 0x0B => pure (.tst (bitAt m 7) e t a)
  | 0x0C => pure (.tred (← TRedOp.ofCode (bitsAt m 1 2)) (bitAt m 3) (bitAt m 0) e t reg)
  | 0x0D => pure (.tcomb (bitAt m 0) e p n)
  | 0x0E => pure (.tres (bitAt m 3) (bitAt m 4) e t ⟨RFile.ofCode (bitsAt m 0 3), reg⟩)
  | 0x0F => if bitAt m 0 then pure (.tdesc e a (.reg (bitAt m 2) reg)) else pure (.tdesc e a (.const (BitVec.ofNat 13 c)))
  | _ => none

/-! ### X words -/

/-- The fields of an X word (R59). The k fields hold values 0 to 31 of 6 bits (R66). -/
structure XWord where
  op : BitVec 8
  mod : BitVec 8
  kd : BitVec 6
  k1 : BitVec 6
  k2 : BitVec 6
  imm : BitVec 30
  deriving DecidableEq, Repr

def XWord.pack (f : XWord) : Nat :=
  f.op.toNat * 2 ^ 56 + f.mod.toNat * 2 ^ 48 + f.kd.toNat * 2 ^ 42 + f.k1.toNat * 2 ^ 36 + f.k2.toNat * 2 ^ 30 +
    f.imm.toNat

def XWord.unpack (w : Nat) : XWord :=
  ⟨BitVec.ofNat 8 (bitsAt w 56 8), BitVec.ofNat 8 (bitsAt w 48 8), BitVec.ofNat 6 (bitsAt w 42 6),
   BitVec.ofNat 6 (bitsAt w 36 6), BitVec.ofNat 6 (bitsAt w 30 6), BitVec.ofNat 30 (bitsAt w 0 30)⟩

def xword (op : BitVec 8) (mod : Nat) (kd k1 k2 : BitVec 5) (imm : Nat) : XWord :=
  ⟨op, BitVec.ofNat 8 mod, BitVec.ofNat 6 kd.toNat, BitVec.ofNat 6 k1.toNat, BitVec.ofNat 6 k2.toNat, BitVec.ofNat 30 imm⟩

/-- acquire [0], scope [3:1], release [4], engine [6:5] (R252). -/
def engMod (b : EngBits) (eng : Nat) : Nat := eng * 32 + b2n b.rel * 16 + b.scope.code * 2 + b2n b.acq
def scopeMod (bit : Bool) (s : Scope) : Nat := s.code * 2 + b2n bit
def engWord (op : BitVec 8) (eng : Nat) (f : EngArgs) : XWord := xword op (engMod f.bits eng) 0 f.cmd f.ctr f.amount.toNat

def Instr.xWord : Instr → Option XWord
  | .nop .x => some ⟨0, 0, 0, 0, 0, 0⟩
  | .br off => some (xword 0x01 0 0 0 0 off.toNat)
  | .brc n g off => some (xword 0x02 (b2n n * 8 + g.toNat) 0 0 0 off.toNat)
  | .jmp b off => some (xword 0x03 0 0 b 0 off.toNat)
  | .call true l b off => some (xword 0x04 1 l b 0 off.toNat)
  | .call false l b off => some (xword 0x04 0 l b 0 off.toNat)
  | .ret l => some (xword 0x05 0 0 l 0 0)
  | .loop lv none off => some (xword 0x06 (4 + lv.toNat) 0 0 0 off.toNat)
  | .loop lv (some k) off => some (xword 0x06 lv.toNat 0 k 0 off.toNat)
  | .end_ => some (xword 0x07 0 0 0 0 0)
  | .yield => some (xword 0x08 0 0 0 0 0)
  | .cadd r s c (.inl k) => some (xword 0x09 (scopeMod r s) 0 c k 0)
  | .cadd r s c (.inr i) => some (xword 0x09 (16 + scopeMod r s) 0 c 0 i.toNat)
  | .cwait a s d c t dst => some (xword 0x0A (scopeMod a s) d c t dst.toNat)
  | .ctest a s g c t => some (xword 0x0B (scopeMod a s) (BitVec.ofNat 5 g.toNat) c t 0)
  | .cread a s st d c => some (xword 0x0C (b2n st * 16 + scopeMod a s) d c 0 0)
  | .fence s => some (xword 0x0D (scopeMod false s) 0 0 0 0)
  | .drain s c t => some (xword 0x0E (scopeMod false s) 0 c t 0)
  | .fork r a => some (xword 0x0F 0 0 r a 0)
  | .join a s p c t => some (xword 0x10 (b2n p * 16 + scopeMod a s) 0 c t 0)
  | .launch d p => some (xword 0x11 0 d p 0 0)
  | .msend r len t s off => some (xword 0x12 (b2n r * 32 + len.toNat) 0 t s off.toNat)
  | .ecopy e f => some (engWord 0x13 e.toNat f) | .egather f => some (engWord 0x14 0 f)
  | .escatter f => some (engWord 0x15 0 f) | .efill e f => some (engWord 0x16 e.toNat f)
  | .econv e f => some (engWord 0x17 e.toNat f) | .ecoll f => some (engWord 0x18 0 f)
  | .eplane f => some (engWord 0x19 0 f)
  | .estat d e => some (xword 0x1A 0 d 0 0 e.toNat)
  | .swap none => some (xword 0x1B 0 0 0 0 0)
  | .swap (some c) => some (xword 0x1B 1 0 c 0 0)
  | .sqnew d r => some (xword 0x1C 0 d r 0 0) | .sqfork d i r => some (xword 0x1D 0 d i r 0)
  | .sqfree d i => some (xword 0x1E 0 d i 0 0) | .sqtree d i r => some (xword 0x1F 0 d i r 0)
  | .sqacc d i t => some (xword 0x20 0 d i t 0)
  | .sqcommit none d i => some (xword 0x21 0 d i 0 0)
  | .sqcommit (some (n, none)) d i => some (xword 0x21 1 d i n 0)
  | .sqcommit (some (n, some t)) d i => some (xword 0x21 3 d i n t.toNat)
  | .sqrewind d i n => some (xword 0x22 0 d i n 0) | .sqpreempt d i => some (xword 0x23 0 d i 0 0)
  | .sqresume d i t => some (xword 0x24 0 d i t 0) | .sqstat d i s => some (xword 0x25 0 d i 0 s.toNat)
  | .kvmap sl kb d i x ly => some (xword 0x26 (kb.code * 4 + b2n sl) d i x ly.toNat)
  | .kvappend d i n => some (xword 0x27 0 d i n 0)
  | .kvcompact b d i c am => some (xword 0x28 (engMod b 0) d i c am.toNat)
  | .kvrequant b d r c am => some (xword 0x29 (engMod b 0) d r c am.toNat)
  | .pdecl d r => some (xword 0x2A 0 d r 0 0) | .prel dr r => some (xword 0x2B (b2n dr) 0 r 0 0)
  | .pconv d r dem => some (xword 0x2C 0 d r 0 dem.toNat) | .pqry d r s => some (xword 0x2D 0 d r 0 s.toNat)
  | .csrr d n => some (xword 0x2E 0 d 0 0 n.toNat) | .csrw op s n => some (xword 0x2F op.code 0 s 0 n.toNat)
  | .trap c => some (xword 0x30 0 0 0 0 c.toNat)
  | .eret none => some (xword 0x31 0 0 0 0 0) | .eret (some k) => some (xword 0x31 1 0 k 0 0)
  | .watch arm sh d b l e => some (xword 0x32 (b2n sh * 4 + b2n arm) d b l e.toNat)
  | .snap t => some (xword 0x33 0 0 0 0 t.toNat) | .bkpt c => some (xword 0x34 0 0 0 0 c.toNat)
  | .creset k c => some (xword 0x35 0 0 k c 0)
  | _ => none

def XWord.read (f : XWord) : Option Instr := do
  let m := f.mod.toNat
  let kd := BitVec.ofNat 5 f.kd.toNat
  let k1 := BitVec.ofNat 5 f.k1.toNat
  let k2 := BitVec.ofNat 5 f.k2.toNat
  let i := f.imm.toNat
  let b0 := bitAt m 0
  let sc := Scope.ofCode (bitsAt m 1 3)
  let eng := do pure (⟨b0, bitAt m 4, ← sc⟩ : EngBits)
  let args := do pure (⟨← eng, k1, k2, f.imm⟩ : EngArgs)
  let e2 := BitVec.ofNat 2 (bitsAt m 5 2)
  match f.op.toNat with
  | 0x00 => pure (.nop .x)
  | 0x01 => pure (.br f.imm) | 0x02 => pure (.brc (bitAt m 3) (BitVec.ofNat 3 (bitsAt m 0 3)) f.imm)
  | 0x03 => pure (.jmp k1 f.imm) | 0x04 => pure (.call b0 kd k1 f.imm) | 0x05 => pure (.ret k1)
  | 0x06 => pure (.loop (BitVec.ofNat 2 (bitsAt m 0 2)) (if bitAt m 2 then none else some k1) f.imm)
  | 0x07 => pure .end_ | 0x08 => pure .yield
  | 0x09 => pure (.cadd b0 (← sc) k1 (if bitAt m 4 then .inr f.imm else .inl k2))
  | 0x0A => pure (.cwait b0 (← sc) kd k1 k2 f.imm)
  | 0x0B => pure (.ctest b0 (← sc) (BitVec.ofNat 3 f.kd.toNat) k1 k2)
  | 0x0C => pure (.cread b0 (← sc) (bitAt m 4) kd k1)
  | 0x0D => pure (.fence (← sc)) | 0x0E => pure (.drain (← sc) k1 k2) | 0x0F => pure (.fork k1 k2)
  | 0x10 => pure (.join b0 (← sc) (bitAt m 4) k1 k2) | 0x11 => pure (.launch kd k1)
  | 0x12 => pure (.msend (bitAt m 5) (BitVec.ofNat 5 (bitsAt m 0 5)) k1 k2 f.imm)
  | 0x13 => pure (.ecopy e2 (← args)) | 0x14 => pure (.egather (← args)) | 0x15 => pure (.escatter (← args))
  | 0x16 => pure (.efill e2 (← args)) | 0x17 => pure (.econv e2 (← args)) | 0x18 => pure (.ecoll (← args))
  | 0x19 => pure (.eplane (← args)) | 0x1A => pure (.estat kd (BitVec.ofNat 3 i))
  | 0x1B => pure (.swap (if b0 then some k1 else none))
  | 0x1C => pure (.sqnew kd k1) | 0x1D => pure (.sqfork kd k1 k2) | 0x1E => pure (.sqfree kd k1)
  | 0x1F => pure (.sqtree kd k1 k2) | 0x20 => pure (.sqacc kd k1 k2)
  | 0x21 => pure (.sqcommit (if b0 then some (k2, if bitAt m 1 then some (BitVec.ofNat 24 i) else none) else none) kd k1)
  | 0x22 => pure (.sqrewind kd k1 k2) | 0x23 => pure (.sqpreempt kd k1) | 0x24 => pure (.sqresume kd k1 k2)
  | 0x25 => pure (.sqstat kd k1 (BitVec.ofNat 5 i))
  | 0x26 => pure (.kvmap b0 (← KvBind.ofCode (bitsAt m 2 2)) kd k1 k2 (BitVec.ofNat 16 i))
  | 0x27 => pure (.kvappend kd k1 k2) | 0x28 => pure (.kvcompact (← eng) kd k1 k2 f.imm)
  | 0x29 => pure (.kvrequant (← eng) kd k1 k2 f.imm)
  | 0x2A => pure (.pdecl kd k1) | 0x2B => pure (.prel b0 k1) | 0x2C => pure (.pconv kd k1 (BitVec.ofNat 12 i))
  | 0x2D => pure (.pqry kd k1 (BitVec.ofNat 2 i))
  | 0x2E => pure (.csrr kd (BitVec.ofNat 12 i)) | 0x2F => pure (.csrw (← CsrOp.ofCode (bitsAt m 0 2)) k1 (BitVec.ofNat 12 i))
  | 0x30 => pure (.trap f.imm) | 0x31 => pure (.eret (if b0 then some k1 else none))
  | 0x32 => pure (.watch b0 (bitAt m 2) kd k1 k2 (BitVec.ofNat 3 i)) | 0x33 => pure (.snap (BitVec.ofNat 16 i))
  | 0x34 => pure (.bkpt f.imm) | 0x35 => pure (.creset k1 k2)
  | _ => none

/-! ### One slot word -/

def SSlot.id : SSlot → SlotId | .s0 => .s0 | .s1 => .s1
def VSlot.id : VSlot → SlotId | .v0 => .v0 | .v1 => .v1
def TSlot.id : TSlot → SlotId | .t0 => .t0 | .t1 => .t1

/-- The slot and the word of an instruction; none for a step of the machine, which no word names. -/
def encode (i : Instr) : Option (SlotId × Word) :=
  match i.sWord, i.vWord, i.lWord, i.tWord, i.xWord with
  | some (s, f), _, _, _, _ => some (s.id, BitVec.ofNat 64 f.pack)
  | none, some (s, f), _, _, _ => some (s.id, BitVec.ofNat 64 f.pack)
  | none, none, some f, _, _ => some (.l, BitVec.ofNat 64 f.pack)
  | none, none, none, some (s, f), _ => some (s.id, BitVec.ofNat 64 f.pack)
  | none, none, none, none, some f => some (.x, BitVec.ofNat 64 f.pack)
  | none, none, none, none, none => none

/-- The number of opcodes that R69 assigns in a slot's class, NOP apart. -/
def SlotId.opcodes : SlotId → Nat
  | .s0 | .s1 => 0x28 | .v0 | .v1 => 0x37 | .l => 0x19 | .t0 | .t1 => 0x0F | .x => 0x35

/-- The instruction that the fields of a word name in its slot's class, reserved fields apart. -/
def readFields (s : SlotId) (w : Nat) : Option Instr :=
  match s with
  | .s0 => (SWord.unpack w).read .s0 | .s1 => (SWord.unpack w).read .s1
  | .v0 => (VWord.unpack w).read .v0 | .v1 => (VWord.unpack w).read .v1
  | .l => (LWord.unpack w).read
  | .t0 => (TWord.unpack w).read .t0 | .t1 => (TWord.unpack w).read .t1
  | .x => (XWord.unpack w).read

/-- Decode the word of a slot. -/
def decodeSlot (s : SlotId) (w : Word) : Except DecodeReject Instr :=
  if s.opcodes < w.toNat / 2 ^ 56 then .error .unassignedOpcode
  else match readFields s w.toNat with
    | none => .error .reservedValue
    | some i =>
      if encode i ≠ some (s, w) then .error .reservedField
      else if i.wf then .ok i else .error .illFormed

/-! ### The header -/

/-- The bundle header (R52). -/
structure Header where
  imm : BitVec 32
  kind : BitVec 2
  stall : BitVec 6
  bcValid : Bool
  bcFile : Bool
  bcIdx : BitVec 6
  pop : BitVec 8
  slots : BitVec 8
  deriving DecidableEq, Repr

def Header.pack (h : Header) : Word :=
  BitVec.ofNat 64 (h.imm.toNat * 2 ^ 32 + h.kind.toNat * 2 ^ 30 + h.stall.toNat * 2 ^ 24 + b2n h.bcValid * 2 ^ 23 +
    b2n h.bcFile * 2 ^ 22 + h.bcIdx.toNat * 2 ^ 16 + h.pop.toNat * 2 ^ 8 + h.slots.toNat)

def Header.ofWord (w : Word) : Header :=
  let n := w.toNat
  ⟨BitVec.ofNat 32 (bitsAt n 32 32), BitVec.ofNat 2 (bitsAt n 30 2), BitVec.ofNat 6 (bitsAt n 24 6), bitAt n 23, bitAt n 22,
   BitVec.ofNat 6 (bitsAt n 16 6), BitVec.ofNat 8 (bitsAt n 8 8), BitVec.ofNat 8 (bitsAt n 0 8)⟩

/-- The header rules of R53, R55 and R57. -/
def Header.ok (h : Header) : Bool :=
  h.slots != 0 && h.kind != 3 && (h.bcValid || (!h.bcFile && h.bcIdx == 0))

def SlotId.num : SlotId → Nat
  | .s0 => 0 | .s1 => 1 | .v0 => 2 | .v1 => 3 | .l => 4 | .t0 => 5 | .t1 => 6 | .x => 7

/-- The slots in slot order (R49). -/
def allSlots : List SlotId := [.s0, .s1, .v0, .v1, .l, .t0, .t1, .x]

/-- The slots that a mask names, in slot order. -/
def slotsOf (m : BitVec 8) : List SlotId := allSlots.filter (fun s => m.getLsbD s.num)

/-- Words in a bundle whose slot mask is `m`: one header and one word per slot. -/
def bundleWords (m : BitVec 8) : Nat := 1 + (slotsOf m).length

/-- The instruction of a bundle of one slot, header in the low 64 bits and slot word above it; none where the header or
the word is rejected. Bits at and above `nbits` are zero. -/
def decodeTableWord (nbits w : Nat) : Option Instr :=
  let n := w % 2 ^ nbits
  let h := Header.ofWord (BitVec.ofNat 64 (bitsAt n 0 64))
  if h.ok then
    match slotsOf h.slots with
    | s :: _ => (decodeSlot s (BitVec.ofNat 64 (bitsAt n 64 64))).toOption
    | [] => none
  else none

end Sys2Proof
end

