-- ==== Sys2Proof/Config.lean ====
section
/-! DEFINITION. What one part or one run fixes and the spec leaves open: free values without a body, and the few
constants that the spec gives the whole part. A proof can use no value of an opaque constant. -/

namespace Sys2Proof.Config

/-- A free 64-bit value, one for each number drawn from the state's free-value counter. -/
opaque freeWord : Nat → Word

/-- A free choice among alternatives that the spec leaves open, by the free-value counter. -/
opaque freeChoice : Nat → Nat

/-- The position (0 to 255) within the bound of R256 at which a CWAIT timeout falls after its first evaluation. -/
opaque timeoutSlack : Nat → Nat

/-- Breaks a tie that no working precision of the model resolves in a transcendental result; the spec's result is the
rounded exact value, which the model leaves free in that case. Arguments: operand bits and format width. -/
opaque roundTie : Nat → Nat → Bool

/-- The geometry of the L2, which the spec does not give: its ways, and the set of a line whose slice has a size (R47, R198). -/
opaque l2Ways : Nat
opaque l2Set : Nat → Nat → Nat

/-- Whether the patrol scrubber finds a single-bit error, by the number of its read and the granule's address (R298). -/
opaque scrubFinds : Nat → Nat → Bool

/-- The row of HBM4E that holds a physical address (R299). -/
opaque rowOf : Nat → Nat

/-- Where the registers of the management space stand within the blocks of R374: the register and the number of its word at
the offset of an eight-byte word. -/
opaque mgmtMap : Nat → Option (MgmtReg × Nat)

/-- The source tables of the densitometers (R379): whether densitometer n counts an event under a source selector. -/
opaque densSource : Nat → Nat → DensEvent → Bool

/-- Whether the package draws more than the limit that management sets, by the clock cycle and the clock in MHz (R380). -/
opaque overLimit : Word → Nat → Nat → Bool

/-- The translation entry that a full TLB displaces (R305 gives sizes and no replacement rule). -/
opaque tlbVictim : Nat → Nat

/-- The Ed25519 and SHA-512 outcomes of boot and attestation (R375, R376): no algorithm of theirs is in the spec. -/
opaque sha512 : List Byte → List Byte
opaque identityKey : List Byte
opaque sign : List Byte → List Byte

/-- The images of the stage-2, management-core, die and port firmware (0 to 3), and the security version (R376). -/
opaque firmware : Nat → List Byte
opaque securityVersion : Nat

/-- A block's record in a contact sheet, from its number and its latched snapshot registers: R378 leaves the format per block
to management tables. -/
opaque blockRecord : Nat → List Word → List Byte

/-- The file and index bits that sys.tval shows for an uncorrectable queue-head latch, which R103 does not give. -/
opaque headErrorTval : Nat → Nat

/-- The value of a byte of memory that nothing has written after a cold reset (DESIGN CHOICE, log entry 2). -/
def resetByte : Byte := 0

/-- Bytes in one line, sector or shadow unit of the memory system. -/
def lineBytes : Nat := 64

/-- The largest physical address plus one (R295). -/
def physTop : Nat := 2 ^ 52

/-- What the machine's timing, its other agents and the outside do in each clock cycle, as a list of steps: the free
schedule of every step whose moment the spec leaves open (log entry 5). -/
opaque environment : Nat → List Instr

end Sys2Proof.Config
end

