-- ==== Sys2Proof/Machine/Numbers.lean ====
section
/-! DEFINITION. Number formats, exact values, the one rounding of R36, R37 and R40, and the exact arithmetic that every
instruction rounds once (02_numbers.md). -/

namespace Sys2Proof.Machine

/-- The signed floating-point formats of R26. -/
inductive FFmt | fp32 | bf16 | fp16 | e4m3 | e5m2
  deriving DecidableEq, Repr

namespace FFmt
/-- Encoded width in bits. -/
def width : FFmt → Nat | fp32 => 32 | bf16 => 16 | fp16 => 16 | e4m3 => 8 | e5m2 => 8
/-- Fraction bits. -/
def mb : FFmt → Nat | fp32 => 23 | bf16 => 7 | fp16 => 10 | e4m3 => 3 | e5m2 => 2
/-- Exponent bits. -/
def eb : FFmt → Nat | fp32 => 8 | bf16 => 8 | fp16 => 5 | e4m3 => 4 | e5m2 => 5
/-- Exponent bias. -/
def bias : FFmt → Nat | fp32 => 127 | bf16 => 127 | fp16 => 15 | e4m3 => 7 | e5m2 => 15
/-- The canonical quiet NaN of R28. -/
def nan : FFmt → Nat | fp32 => 0x7FC00000 | bf16 => 0x7FC0 | fp16 => 0x7E00 | e4m3 => 0x7F | e5m2 => 0x7E
/-- The bits of the largest finite magnitude. -/
def maxBits : FFmt → Nat | fp32 => 0x7F7FFFFF | bf16 => 0x7F7F | fp16 => 0x7BFF | e4m3 => 0x7E | e5m2 => 0x7B
/-- The bits of +infinity; E4M3 has none and never uses this. -/
def infBits : FFmt → Nat | fp32 => 0x7F800000 | bf16 => 0x7F80 | fp16 => 0x7C00 | e4m3 => 0x7E | e5m2 => 0x7C
/-- The formats whose results R40 and the native draws concern. -/
def narrow : FFmt → Bool | fp32 => false | _ => true
/-- The sign bit of a result. -/
def signBit (f : FFmt) (neg : Bool) : Nat := if neg then 2 ^ (f.width - 1) else 0
/-- The exponent of the smallest normal. -/
def emin (f : FFmt) : Int := 1 - (f.bias : Int)
end FFmt

/-- A floating-point operand as a value: a NaN (signalling or quiet), an infinity, or (-1)^neg × m × 2^e. -/
inductive FVal
  | nan (sig : Bool)
  | inf (neg : Bool)
  | num (neg : Bool) (m : Nat) (e : Int)
  deriving DecidableEq, Repr

/-- The value of an encoding (R26, R27). -/
def FFmt.decode (f : FFmt) (bits : Nat) : FVal :=
  let b := bits % 2 ^ f.width
  let frac := b % 2 ^ f.mb
  let ex := b / 2 ^ f.mb % 2 ^ f.eb
  let neg := bitAt b (f.width - 1)
  let top := 2 ^ f.eb - 1
  if f = .e4m3 && ex == top && frac == 7 then .nan false
  else if f ≠ .e4m3 && ex == top then
    if frac = 0 then .inf neg else .nan (f ≠ .e5m2 && !bitAt frac (f.mb - 1))
  else if ex = 0 then .num neg frac (f.emin - f.mb)
  else .num neg (2 ^ f.mb + frac) ((ex : Int) - f.bias - f.mb)

/-- R39: a BF16 subnormal operand reads as zero of its sign in compat mode. -/
def FFmt.operand (f : FFmt) (compat : Bool) (bits : Nat) : FVal :=
  if compat && f = .bf16 && bits / 2 ^ 7 % 2 ^ 8 == 0 then .num (bitAt bits 15) 0 0 else f.decode bits

/-- Rounding modes of R34. -/
inductive RMode | rne | rz | ru | rd | sr
  deriving DecidableEq, Repr

/-- The sticky flags of R41 as bits of sys.fflags. -/
def fInvalid : Nat := 1
def fDivZero : Nat := 2
def fOverflow : Nat := 4
def fUnderflow : Nat := 8
def fInexact : Nat := 16
def fSaturate : Nat := 32

/-- The magnitude of an exact value: m × 2^e, or, when `st` is set, some value strictly between m × 2^e and
(m + 1) × 2^e. A magnitude with `st` set carries at least 64 bits in m, so no rounding below depends on more. -/
structure Mag where
  m : Nat
  e : Int
  st : Bool := false
  deriving DecidableEq, Repr

/-- floor(log2 n), 0 for 0, by halving with fuel. -/
def log2F : Nat → Nat → Nat
  | 0, _ => 0
  | k + 1, n => if n < 2 then 0 else
      let h := n / 2 ^ (2 ^ k)
      if h = 0 then log2F k n else 2 ^ k + log2F k h

/-- floor(log2 n) for n below 2^8192. -/
def lg2 (n : Nat) : Nat := log2F 13 n

/-- x × 2^s for an integer s, rounded down. -/
def shl2 (x : Nat) (s : Int) : Nat := if 0 ≤ s then x * 2 ^ s.toNat else x / 2 ^ (-s).toNat

/-- The magnitude on the grid of multiples of 2^q: the multiple below it, the rest in units of 2^(q - 64) rounded
down, and whether the value lies strictly above that. -/
def Mag.onGrid (x : Mag) (q : Int) : Nat × Nat × Bool :=
  let n := shl2 x.m (x.e - q)
  let fine := shl2 x.m (x.e - q + 64)
  let exact := (x.e - q + 64 ≥ 0 || fine * 2 ^ (q - 64 - x.e).toNat == x.m) && !x.st
  (n, fine - n * 2 ^ 64, !exact)

/-- Whether the multiple above is taken, for a value at fraction `r / 2^64` (and a little more when `st`) above the even
or odd multiple `n` (R34, R37); `u` is the element's stream word. -/
def roundUp (mode : RMode) (u : Nat) (neg : Bool) (n r : Nat) (st : Bool) : Bool :=
  match mode with
  | .rne => if r = 2 ^ 63 then st || n % 2 == 1 else decide (2 ^ 63 < r)
  | .rz => false
  | .ru => !neg && (decide (0 < r) || st)
  | .rd => neg && (decide (0 < r) || st)
  | .sr => if st then decide (u * 2 ^ 32 ≤ r) else decide (u * 2 ^ 32 < r)

/-- Encode n × 2^q, where n < 2^(mb + 1) and q is the grid of n's exponent, as a positive number of format f. -/
def FFmt.encodeGrid (f : FFmt) (n : Nat) (q : Int) : Nat :=
  if n < 2 ^ f.mb then n else n - 2 ^ f.mb + (q + f.mb + f.bias).toNat * 2 ^ f.mb

/-- The overflow value and flags of R36. -/
def FFmt.overflow (f : FFmt) (mode : RMode) (neg : Bool) : Nat × Nat :=
  if f = .e4m3 then (f.signBit neg + f.maxBits, fOverflow + fInexact + fSaturate)
  else
    let toMax := match mode with | .rz => true | .ru => neg | .rd => !neg | _ => false
    (f.signBit neg + (if toMax then f.maxBits else f.infBits), fOverflow + fInexact)

/-- Round an exact non-zero value once to format f (R36, R37, R40, R41): the delivered bits and the flags raised.
`nat` says that R40 applies to a narrow result. -/
def FFmt.round (f : FFmt) (mode : RMode) (u : Nat) (nat : Bool) (neg : Bool) (x : Mag) : Nat × Nat :=
  if x.m = 0 && !x.st then (f.signBit neg, 0) else
  let lg : Int := x.e + lg2 x.m
  let qmin : Int := f.emin - f.mb
  let tiny := decide (lg < f.emin)
  if nat && f.narrow && lg < qmin then
    let (_, r, st) := x.onGrid qmin
    let up := roundUp .sr u neg 0 r st
    (f.signBit neg + (if up then 1 else 0), fUnderflow + fInexact)
  else
    let q := max (lg - f.mb) qmin
    let (n, r, st) := x.onGrid q
    let exact := r = 0 && !st
    let n' := if roundUp mode u neg n r st then n + 1 else n
    -- renormalise a carry out of the significand
    let (n', q) := if n' = 2 ^ (f.mb + 1) then (2 ^ f.mb, q + 1) else (n', q)
    let bits := f.encodeGrid n' q
    if f.maxBits < bits then f.overflow mode neg
    else (f.signBit neg + bits, (if exact then 0 else fInexact + (if tiny then fUnderflow else 0)))

/-- An exact result before its one rounding. -/
inductive FRes
  | nan (flags : Nat)
  | inf (neg : Bool) (flags : Nat)
  | zero (neg : Bool)
  | real (neg : Bool) (x : Mag)
  deriving DecidableEq, Repr

/-- Deliver a result in format f. An infinity that an operand brought becomes ±448 in E4M3 with the saturate flag (R36),
and with the inexact flag, since the delivered result differs from the exact one (R41). -/
def FRes.deliver (f : FFmt) (mode : RMode) (u : Nat) (nat : Bool) : FRes → Nat × Nat
  | .nan fl => (f.nan, fl)
  | .inf neg fl => (f.signBit neg + f.infBits, if f = .e4m3 then Nat.lor fl (fSaturate + fInexact) else fl)
  | .zero neg => (f.signBit neg, 0)
  | .real neg x => f.round mode u nat neg x

/-- The flag that a signalling NaN operand raises. -/
def FVal.sig : FVal → Nat | .nan true => fInvalid | _ => 0
def FVal.isNan : FVal → Bool | .nan _ => true | _ => false
def FVal.isZero : FVal → Bool | .num _ 0 _ => true | _ => false
def FVal.neg : FVal → FVal | .nan s => .nan s | .inf n => .inf (!n) | .num n m e => .num (!n) m e
def FVal.isNeg : FVal → Bool | .nan _ => false | .inf n => n | .num n _ _ => n

/-- A finite value as an integer multiple of 2^q, for q at most its exponent. -/
def FVal.scaled (q : Int) : FVal → Int
  | .num n m e => (if n then -1 else 1) * ((m * 2 ^ (e - q).toNat : Nat) : Int)
  | _ => 0

/-- Exact sum of two finite values; a zero sum is +0, or -0 under RD, or the common sign of two zeros (R123). -/
def sumFin (mode : RMode) (x y : FVal) : FRes :=
  match x, y with
  | .num nx mx ex, .num ny my ey =>
    let q := min ex ey
    let s := x.scaled q + y.scaled q
    if s = 0 then
      if mx = 0 && my = 0 && nx == ny then .zero nx
      else .zero (mode = .rd)
    else .real (decide (s < 0)) ⟨s.natAbs, q, false⟩
  | _, _ => .nan 0

/-- A + B (R123). -/
def fAdd (mode : RMode) (x y : FVal) : FRes :=
  if x.isNan || y.isNan then .nan (x.sig ||| y.sig) else
  match x, y with
  | .inf a, .inf b => if a == b then .inf a 0 else .nan fInvalid
  | .inf a, _ => .inf a 0
  | _, .inf b => .inf b 0
  | _, _ => sumFin mode x y

/-- Exact product of two values that are no NaN and no zero-infinity pair. -/
def prodFin (x y : FVal) : FVal :=
  match x, y with
  | .num a m e, .num b n f => .num (a != b) (m * n) (e + f)
  | _, _ => .inf (x.isNeg != y.isNeg)

/-- Infinity times zero. -/
def infTimesZero (x y : FVal) : Bool :=
  match x, y with
  | .inf _, .num _ m _ => m == 0
  | .num _ m _, .inf _ => m == 0
  | _, _ => false

/-- A value as a result to round once. -/
def FVal.res : FVal → FRes
  | .nan s => .nan (if s then fInvalid else 0)
  | .inf n => .inf n 0
  | .num n m e => if m = 0 then .zero n else .real n ⟨m, e, false⟩

/-- A × B (R123). -/
def fMul (x y : FVal) : FRes :=
  if x.isNan || y.isNan then .nan (x.sig ||| y.sig)
  else if infTimesZero x y then .nan fInvalid
  else (prodFin x y).res

/-- A × B + C with the product exact (R123, R151). -/
def fFma (mode : RMode) (x y z : FVal) : FRes :=
  if infTimesZero x y then .nan fInvalid
  else if x.isNan || y.isNan || z.isNan then .nan (x.sig ||| y.sig ||| z.sig)
  else fAdd mode (prodFin x y) z

/-- The quotient of two non-zero magnitudes to more than 128 bits. -/
def magDiv (m n : Nat) (e f : Int) : Mag :=
  let t : Nat := 140 + lg2 n
  let q := m * 2 ^ t / n
  ⟨q, e - f - t, q * n != m * 2 ^ t⟩

/-- A / B (R41, R151). -/
def fDiv (x y : FVal) : FRes :=
  if x.isNan || y.isNan then .nan (x.sig ||| y.sig) else
  let s := x.isNeg != y.isNeg
  match x, y with
  | .inf _, .inf _ => .nan fInvalid
  | .inf _, _ => .inf s 0
  | _, .inf _ => .zero s
  | .num _ m e, .num _ n f =>
    if n = 0 then (if m = 0 then .nan fInvalid else .inf s fDivZero)
    else if m = 0 then .zero s
    else .real s (magDiv m n e f)
  | _, _ => .nan 0

/-- 1 / A (R123). -/
def fRcp (x : FVal) : FRes := fDiv (.num false 1 0) x

/-- One step towards the integer square root: try bit `i`. -/
def isqrtBits : Nat → Nat → Nat → Nat
  | 0, _, r => r
  | i + 1, n, r =>
    let c := r + 2 ^ i
    isqrtBits i n (if c * c ≤ n then c else r)

/-- floor(sqrt n). -/
def isqrt (n : Nat) : Nat := isqrtBits (lg2 n / 2 + 1) n 0

/-- The square root of m × 2^e to more than 100 bits. -/
def magSqrt (m : Nat) (e : Int) : Mag :=
  let (m, e) := if e % 2 = 0 then (m, e) else (2 * m, e - 1)
  let t : Nat := 110
  let r := isqrt (m * 2 ^ (2 * t))
  ⟨r, e / 2 - t, r * r != m * 2 ^ (2 * t)⟩

/-- sqrt A (R151). -/
def fSqrt (x : FVal) : FRes :=
  match x with
  | .nan s => .nan (if s then fInvalid else 0)
  | .inf n => if n then .nan fInvalid else .inf false 0
  | .num n m e => if m = 0 then .zero n else if n then .nan fInvalid else .real false (magSqrt m e)

/-- 1 / sqrt A (R123). -/
def fRsq (x : FVal) : FRes :=
  match x with
  | .nan s => .nan (if s then fInvalid else 0)
  | .inf n => if n then .nan fInvalid else .zero false
  | .num n m e =>
    if m = 0 then .inf n fDivZero
    else if n then .nan fInvalid
    else
      let (m, e) := if e % 2 = 0 then (m, e) else (2 * m, e - 1)
      let t : Nat := 120 + lg2 m
      let r := isqrt (2 ^ (2 * t) / m)
      .real false ⟨r, -(e / 2) - t, r * r * m != 2 ^ (2 * t)⟩

/-- Whether x < y, for values that are no NaN; -0 equals +0. -/
def fLt (x y : FVal) : Bool :=
  match x, y with
  | .inf a, .inf b => a && !b
  | .inf a, _ => a
  | _, .inf b => !b
  | .num _ _ ex, .num _ _ ey => let q := min ex ey; decide (x.scaled q < y.scaled q)
  | _, _ => false

/-- Whether x = y as numbers. -/
def fEq (x y : FVal) : Bool := !x.isNan && !y.isNan && !fLt x y && !fLt y x

/-- The conditions of R125: the result and the flags; `quietOrd` tells whether a quiet NaN raises invalid too. -/
def fCompare (c : FCond) (x y : FVal) : Bool × Nat :=
  let nan := x.isNan || y.isNan
  let sig := x.sig ||| y.sig
  match c with
  | .eq => (fEq x y, sig)
  | .ne => (!fEq x y, sig)
  | .lt => (!nan && fLt x y, if nan then fInvalid else 0)
  | .le => (!nan && !fLt y x, if nan then fInvalid else 0)
  | .gt => (!nan && fLt y x, if nan then fInvalid else 0)
  | .ge => (!nan && !fLt x y, if nan then fInvalid else 0)
  | .un => (nan, sig)
  | .ord => (!nan, sig)

/-- The lesser (or greater) operand's bits, -0 below +0, a NaN giving the canonical NaN (R124, R152). -/
def fMinMax (f : FFmt) (compat max : Bool) (a b : Nat) : Nat × Nat :=
  let x := f.operand compat a
  let y := f.operand compat b
  let keep := fun (bits : Nat) (v : FVal) => if v.isZero then f.signBit v.isNeg else bits % 2 ^ f.width
  if x.isNan || y.isNan then (f.nan, x.sig ||| y.sig)
  else
    let xLess := fLt x y || (fEq x y && x.isNeg && !y.isNeg)
    (if xLess != max then keep a x else keep b y, 0)

/-- The integer on the chosen side of an exact value (R30). -/
def roundInt (mode : RMode) (u : Nat) : FVal → Int × Bool
  | .num neg m e =>
    let (n, r, st) := (⟨m, e, false⟩ : Mag).onGrid 0
    let n' := if roundUp mode u neg n r st then n + 1 else n
    ((if neg then -(n' : Int) else n'), r != 0 || st)
  | _ => (0, false)

/-- Clamp an integer to [lo, hi]; whether it clamped. -/
def clampInt (lo hi x : Int) : Int × Bool :=
  if x < lo then (lo, true) else if hi < x then (hi, true) else (x, false)

/-- The range of a w-bit integer type. -/
def intRange (w : Nat) (signed : Bool) : Int × Int :=
  if signed then (-((2 ^ (w - 1) : Nat) : Int), ((2 ^ (w - 1) : Nat) : Int) - 1) else (0, ((2 ^ w : Nat) : Int) - 1)

/-- Conversion of a floating-point value to an integer type (R30): the w-bit pattern and the flags. -/
def fToInt (mode : RMode) (u : Nat) (w : Nat) (signed : Bool) (x : FVal) : Nat × Nat :=
  let (lo, hi) := intRange w signed
  match x with
  | .nan _ => (0, fInvalid + fSaturate)
  | .inf n => (wrapInt w (if n then lo else hi), fInvalid + fSaturate)
  | _ =>
    let (i, changed) := roundInt mode u x
    let (c, cl) := clampInt lo hi i
    (wrapInt w c, if cl then fInvalid + fSaturate else if changed then fInexact else 0)

/-- An integer as an exact value. -/
def intVal (i : Int) : FVal := .num (decide (i < 0)) i.natAbs 0

/-- The class code of R172. -/
def fClass (f : FFmt) (bits : Nat) : Nat :=
  match f.decode bits with
  | .nan s => if s then 8 else 9
  | .inf n => if n then 0 else 7
  | .num n m _ =>
    if m = 0 then (if n then 3 else 4)
    else if m < 2 ^ f.mb then (if n then 2 else 5)
    else if n then 1 else 6

/-! ### The rounding stream (R38) -/

/-- One round of Philox4x32: the counter words, with the round's key words. -/
def philoxRound (c : Nat × Nat × Nat × Nat) (k0 k1 : Nat) : Nat × Nat × Nat × Nat :=
  let (c0, c1, c2, c3) := c
  let p0 := 0xD2511F53 * c0
  let p1 := 0xCD9E8D57 * c2
  (Nat.xor (Nat.xor (p1 / 2 ^ 32) c1) k0, p1 % 2 ^ 32, Nat.xor (Nat.xor (p0 / 2 ^ 32) c3) k1, p0 % 2 ^ 32)

/-- `n` rounds, the key bumped between rounds. -/
def philoxRounds : Nat → (Nat × Nat × Nat × Nat) → Nat → Nat → Nat × Nat × Nat × Nat
  | 0, c, _, _ => c
  | n + 1, c, k0, k1 => philoxRounds n (philoxRound c k0 k1) ((k0 + 0x9E3779B9) % 2 ^ 32) ((k1 + 0xBB67AE85) % 2 ^ 32)

/-- Philox4x32-10: word `j` (0 to 3) of the block of a 128-bit counter under a 64-bit key. DESIGN CHOICE: R38 does not say
how the two registers split into Philox's 32-bit words; word 0 is the lowest 32 bits of each (log entry 69). -/
def philox (key ctr j : Nat) : Nat :=
  let (a, b, c, d) := philoxRounds 10 (bitsAt ctr 0 32, bitsAt ctr 32 32, bitsAt ctr 64 32, bitsAt ctr 96 32)
    (bitsAt key 0 32) (bitsAt key 32 32)
  match j with | 0 => a | 1 => b | 2 => c | _ => d

/-- The stream word of element `j` of an instruction whose first block is `ctr` (R38). -/
def streamWord (key ctr j : Nat) : Nat := philox key ((ctr + j / 4) % 2 ^ 128) (j % 4)

/-! ### CW8 (R31, R32, R168) -/

/-- A term of R31 in units of 2^-6: sign s and exponent e. -/
def cwTerm (s : Bool) (e : Nat) : Int :=
  if e = 7 then 0 else (if s then -1 else 1) * ((2 ^ (6 - e) : Nat) : Int)

/-- The unscaled value of a code in a view, in units of 2^-6 (R32). -/
def cwValue (view : CwView) (code : Nat) : Int :=
  let tA := cwTerm (bitAt code 7) (bitsAt code 4 3)
  match view with
  | .cw8 => tA + cwTerm (bitAt code 3) (bitsAt code 0 3)
  | .cw4 => tA
  | .cw2 => (if bitAt code 7 then -1 else 1) * (if bitAt code 6 then 2 else 32)

/-- The canonical code of an unscaled value given in units of 2^-6 (R168): the nearest term, ties to the greater. -/
def cwCanon (v : Int) : Nat :=
  if v = 0 then 0x77 else
  let s := decide (v < 0)
  let n := v.natAbs
  -- the term 2^k nearest n, 0 ≤ k ≤ 6, ties to the greater magnitude
  let lo := min 6 (lg2 n)
  let k := if lo < 6 && 2 * (2 ^ (lo + 1) - n) ≤ 2 * (n - 2 ^ lo) then lo + 1 else lo
  let tA : Int := (if s then -1 else 1) * ((2 ^ k : Nat) : Int)
  let b := v - tA
  let eB := if b = 0 then 7 else 6 - lg2 b.natAbs
  (if s then 128 else 0) + (6 - k) * 16 + (if b < 0 then 8 else 0) + eB

end Sys2Proof.Machine
end

