-- ==== Sys2Proof/Machine/State.lean ====
section
/-! DEFINITION. The state of one EFX-DL8 package, as plain data, and its state after a package cold reset. Contexts are
numbered as sys.ctxid numbers them (R86), cores by bits [11:2] of it, clusters by bits [11:6], dies by bits [11:9]. -/

namespace Sys2Proof.Machine

/-! ### The context (R83 to R112) -/

/-- The states of R99 in which a context slot of a core can be; a saved context stands in `State.saved`. -/
inductive RunState | dormant | ready | blocked | frozen
  deriving DecidableEq, Repr

/-- An address space: the ASID, the physical page-table root and the job key (R300, R301, R356). -/
structure Space where
  asid : BitVec 16 := 0
  root : Word := 0
  key : BitVec 32 := 0
  deriving DecidableEq, Repr

/-- What a task takes from its region control block and the block's ancestors at its placement (R356, R357). -/
structure Region where
  rcb : Word := 0
  space : Space := {}
  depth : Nat := 0
  priority : Nat := 0
  role : Nat := 0
  race : Nat := 0
  domain : BitVec 16 := 0
  trapEntry : Word := 0
  share : Nat := 0
  scope : Scope := .core
  ring : Word := 0
  ringSize : Nat := 0
  launchCtr : Word := 0
  consumedCtr : Word := 0
  vaultSave : Word := 0
  vaultSaveSize : Nat := 0
  hbmSave : Word := 0
  hbmSaveSize : Nat := 0
  raceRing : Word := 0
  raceSize : Nat := 0
  faultRing : Word := 0
  faultSize : Nat := 0
  faultCtr : Word := 0
  /-- The control-block addresses from this region up to its root. -/
  chain : List Word := []
  /-- their budgets, in the same order: cores, contexts, vault bytes, HBM bytes -/
  budgets : List (Nat × Nat × Nat × Nat) := []
  deriving DecidableEq, Repr

/-- What the context runs for, which decides what its end does (R107, R135, R265, R288, R363). -/
inductive TaskKind
  | none
  /-- task `index` of a set; `crew` is the number of its crew within the set -/
  | taskSet (set index crew : Nat)
  | forked (join : Word) (scope : Scope)
  | message (slot : Nat)
  | trapHandler (served : Nat)
  | remoteHandler (task : Nat)
  deriving DecidableEq, Repr

/-- A fixed-latency result in flight (R92). Files are the codes of R64, 8 for predicates; `seq` orders results by the
issue of their bundle and, within a bundle, by slot (R72, R93). -/
structure Landing where
  count : Nat
  seq : Nat
  file : Nat
  idx : Nat
  val : VecReg
  err : Bool := false
  /-- the error tag that comes with a load's value (R104) -/
  tag : Option (BitVec 8 × Word) := none
  deriving DecidableEq, Repr

/-- A variable-latency result in flight (R74, R93): its destinations, and once `ready` the values it will land, with the
error tag of R104. -/
structure Pending where
  seq : Nat
  dests : List (Nat × Nat)
  ready : Bool := false
  vals : List VecReg := []
  tag : Option (BitVec 8 × Word) := none
  /-- the memory requests that a load holds until it lands (R184) -/
  lines : Nat := 0
  deriving DecidableEq, Repr

/-- An error tag of a register (R104). -/
structure ErrTag where
  file : Nat
  idx : Nat
  cause : BitVec 8
  addr : Word
  deriving DecidableEq, Repr

/-- One element of a store: its physical and virtual address, whether its page is counter-capable, and its bytes. -/
structure Piece where
  pa : Nat
  va : Word
  cnt : Bool
  bytes : List Byte
  deriving DecidableEq, Repr

/-- A part of a load within one sector: its addresses, its length, and where its bytes stand in the value loaded. -/
structure LoadPiece where
  pa : Nat
  va : Word
  len : Nat
  cnt : Bool
  pos : Nat
  /-- the address that an error is reported with, where it is not the piece's own -/
  rep : Option Word := none
  deriving DecidableEq, Repr

/-- A memory access that its bundle issued and that is not yet performed at its home. -/
inductive PostKind
  /-- a load of more than one sector: the pieces not yet read, the value so far, its error of the lowest position, and the order
  of the pending result -/
  | load (pieces : List LoadPiece) (val : VecReg) (bad : Option (Nat × BitVec 8 × Word)) (ret : Nat)
  /-- element stores in ascending order -/
  | store (pieces : List Piece)
  | atom (op : AtomOp) (ty : ElemTy) (va : Word) (pa : Nat) (x y : Word) (ret : Option Nat)
  | add (va : Word) (pa : Nat) (amount : Nat) (rel : Bool)
  deriving DecidableEq, Repr

structure Posted where
  seq : Nat
  interval : BitVec 16
  kind : PostKind
  /-- the place of an ATOM among the messages that its core sends (R284) -/
  order : Nat
  deriving DecidableEq, Repr

/-- What a blocked context waits for (R100): a counter under a monitor entry or sweep, a drain, an occupied engine shadow, an
inbox slot of a core, the flip after its SWAP, room in a launch ring, or the generation of its PLD. -/
inductive Wait
  | counter | drain
  | engine (e : EngineId)
  /-- the shadow of either copy engine of a cluster, whichever frees first (R269) -/
  | copies (cl : Nat)
  | inbox (core : Nat)
  | swap
  /-- the physical addresses of the launch and consumed counters, and the ring's size -/
  | ring (launch consumed size : Nat)
  | placement (die : Nat) (desc : Word) (demand : Nat)
  deriving DecidableEq, Repr

/-- An entry of the acquired-from cache (R319), most recently entered last. -/
structure AcqEntry where
  writer : BitVec 16
  interval : BitVec 16
  scope : Nat
  deriving DecidableEq, Repr

/-- Condition of a queue head (R54). -/
inductive HeadCond | closed | empty | holding
  deriving DecidableEq, Repr

/-- A lathe parameter set (R199); `lenSeq` is the length source, `lenReg` its k-register. -/
structure LatheSet where
  ty : Nat := 0
  counts : List Nat := []
  strides : List Int := []
  lenLevel : Option Nat := none
  lenSeq : Bool := false
  lenReg : Nat := 0
  deriving DecidableEq, Repr

/-- A queue head and its stream channel (R199 to R207). `ahead` holds the vectors fetched and not yet in the latch; a
fault stands in the place of its vector. -/
structure Head where
  cond : HeadCond := .closed
  latch : VecReg := 0
  latchErr : Bool := false
  fault : Option (BitVec 8 × Word) := none
  loaded : Bool := false
  mem : Bool := false
  setNo : Nat := 0
  recAddr : Word := 0
  params : LatheSet := {}
  base : Word := 0
  len : Nat := 0
  pos : Nat := 0
  ahead : List VecReg := []
  aheadFault : Option (BitVec 8 × Word) := none
  next : Nat := 0
  /-- WSTOP.drain: the point from which on nothing is fetched (R203) -/
  stopAt : Option Nat := none
  /-- the issue order of the WSTART whose walk runs -/
  start : Nat := 0
  deriving DecidableEq, Repr

/-- A circular-buffer handle (R210). -/
structure Handle where
  valid : Bool := false
  base : Word := 0
  size : Nat := 0
  count : Nat := 0
  producer : Bool := false
  scope : Nat := 0
  ctl : Word := 0
  pos : Nat := 0
  deriving DecidableEq, Repr

/-- A tile descriptor (R222). -/
structure TileDesc where
  addr0 : Word := 0
  addr1 : Word := 0
  addr2 : Word := 0
  scale : Word := 0
  stride : Nat := 0
  sstride : Nat := 0
  fmt : BitVec 8 := 0
  flags : BitVec 8 := 0
  deriving DecidableEq, Repr

/-- A trap that arrives from outside the instruction stream (R105). -/
structure TrapRec where
  cause : BitVec 8
  tval : Word
  deriving DecidableEq, Repr

/-- One execution context (R83), with the model's own record of what it has in flight. -/
structure Ctx where
  run : RunState := .dormant
  pc : Word := 0
  a : Map Word := []
  b : Map Word := []
  v : Map VecReg := []
  w : Map VecReg := []
  p : Map Word := []
  k : Map Word := []
  x : Map MaskReg := []
  y : Map MaskReg := []
  g : BitVec 8 := 0
  desc : Map TileDesc := []
  /-- carry sets T0.c0, T0.c1, T1.c0, T1.c1: gains and offsets, column n in lane n -/
  carryA : Map VecReg := []
  carryB : Map VecReg := []
  heads : Map Head := []
  handles : Map Handle := []
  landing : List Landing := []
  stall : Nat := 0
  waitAct : Bool := false
  /-- the words of the bundle whose first-wait action is taken, which is checked again and not fetched again (R451) -/
  heldWords : List Word := []
  mode : Word := 0
  fflags : Word := 0
  rkey : Word := 0
  rctr : BitVec 128 := 0
  vregs : Word := 256
  tmask : BitVec 8 := 0
  cause : Word := 0
  epc : Word := 0
  tval : Word := 0
  npc : Word := 0
  interval : BitVec 16 := 0
  maxred : Word := 4096
  acq : List AcqEntry := []
  tags : List ErrTag := []
  /-- registers that hold an uncorrectable word (R103) -/
  badRegs : List (Nat × Nat) := []
  /-- the next bundle is the delay bundle of a transfer or of a BRC (R131) -/
  delay : Bool := false
  /-- ordering of results, keyed file × 1024 + index: twice the last issue order that wrote each register, plus 1 where that
  result was of variable latency -/
  lastSeq : Map Nat := []
  seq : Nat := 1
  pending : List Pending := []
  posted : List Posted := []
  outside : List TrapRec := []
  wait : Option Wait := none
  timedOut : Bool := false
  waitStart : Nat := 0
  waitLimit : Nat := 0
  /-- DRAIN: its counter and target, and the sums of its last sweeps, latest first (R268) -/
  drainPa : Nat := 0
  drainTgt : Nat := 0
  drainScope : Scope := .core
  drainSums : List (Nat × Nat) := []
  waitCount : Nat := 0
  promoted : Bool := false
  lastIssue : Nat := 0
  yielded : Option Nat := none
  ended : Bool := false
  preemptAt : Option Nat := none
  /-- the clock cycle before which a withdrawn pre-emption request is not renewed (R365) -/
  askAgain : Nat := 0
  task : TaskKind := .none
  /-- the number of the task that runs, which stays its own through saves and restores -/
  tid : Nat := 0
  region : Region := {}
  ltime : Nat := 0
  deriving DecidableEq, Repr

/-- An access that outlives the context that issued it: the context's number, its task, region and acquired-from cache. -/
structure Loose where
  ctx : Nat
  tid : Nat
  region : Region
  acq : List AcqEntry
  posted : Posted
  deriving DecidableEq, Repr

/-! ### The core -/

/-- An accumulator tile (R214, R216); `bad` lists elements with an uncorrectable error (R217). -/
structure Tile where
  rows : Map VecReg := []
  live : Bool := false
  depth : Nat := 0
  sat : Bool := false
  inv : Bool := false
  bad : List (Nat × Nat) := []
  deriving DecidableEq, Repr

/-- An issued T-slot operation with the operands it captured (R215, R220, R226). Tiles are numbered 0 to 7. -/
inductive TKind
  | cfg (fa fw : Nat)
  | zero (t : Nat)
  | mma (t : Nat) (a b : TileDesc) (k : Nat)
  | aff (t : Nat) (ident off : Bool)
  | scan (t : Nat) (carry : Bool) (set n : Nat)
  | carry (op : TCarryOp) (set : Nat) (r0 r1 : VecReg) (seq : Nat)
  | rd (t row0 n : Nat) (retire : Bool) (seq : Nat)
  | wr (t row0 : Nat) (rows : List VecReg)
  | ld (t : Nat) (d : TileDesc)
  | st (t : Nat) (d : TileDesc) (retire : Bool)
  | red (t : Nat) (op : TRedOp) (cols : Bool) (seq : Nat)
  | comb (t t2 : Nat) (fold : Bool) (n : Nat)
  | res (t : Nat) (hz clr : Bool) (seq : Nat)
  deriving DecidableEq, Repr

structure TOp where
  ctx : Nat
  /-- the task that issued it -/
  tid : Nat := 0
  seq : Nat
  space : Space
  interval : BitVec 16
  compat : Bool
  kind : TKind
  deriving DecidableEq, Repr

/-- An entry of the watch table (R143): the owner, the watched range, and the physical page of each page of it. -/
structure WatchEntry where
  owner : Nat
  base : Word
  len : Nat
  shut : Bool
  pages : List (Nat × Nat)
  deriving DecidableEq, Repr

/-- An entry of the monitor table, or a sweep waiter (R259, R260): the waiter, the counter, the value it waits for, the
handle of a CBWAIT, and the saved task of a parked JOIN. -/
structure MonEntry where
  ctx : Nat
  pa : Nat
  va : Word
  tgt : Nat
  handle : Option (Nat × Nat × Nat) := none
  task : Option Nat := none
  /-- the counter's value when the core last evaluated the entry: a CBWAIT is evaluated anew only once it has moved (R212) -/
  seen : Nat := 0
  deriving DecidableEq, Repr

/-- A record of the task deque (R262). -/
structure TaskRec where
  entry : Word
  arg : Word
  join : Word
  image : Word
  role : Nat
  scope : Scope
  bank : Nat
  region : Region
  /-- the forking context and its interval at the release, for the acquire of the start (R264, R319) -/
  from_ : BitVec 16
  interval : BitVec 16
  deriving DecidableEq, Repr

/-- Condition of a configuration plane (R371). Whether a shadow is loading (R368) shows in the pending loader commands. -/
inductive PlaneCond | empty | loading | loaded
  deriving DecidableEq, Repr

/-- A configuration plane (R369). `bytes` holds the parameter sets, the constants and the code at their image offsets. -/
structure Plane where
  cond : PlaneCond := .empty
  sets : Nat := 0
  pairs : BitVec 16 := 0
  hasPairs : Bool := false
  codeLen : Nat := 0
  constLen : Nat := 0
  codeBase : Word := 0
  bytes : Map Byte := []
  deriving DecidableEq, Repr

/-- A message between its issue and its handler start (R287, R288). -/
structure Msg where
  slot : Nat
  sender : Nat
  seq : Nat
  interval : BitVec 16
  region : Region
  handler : Word
  payload : List Byte
  /-- MSEND.rel: it is performed after every earlier operation of its sender -/
  rel : Bool := false
  /-- the place of the reservation of its slot among all reservations -/
  order : Nat := 0
  deriving DecidableEq, Repr

/-- A TLB entry (R305): the ASID it is tagged with, the leaf's virtual base, its level (1 to 3), the leaf word and the
physical address of the entry it came from. -/
structure TlbEntry where
  asid : BitVec 16
  base : Nat
  level : Nat
  pte : Word
  pteAddr : Nat
  deriving DecidableEq, Repr

/-- A SWAP that waits for the flip (R370): its task, context, region and interval, and its counter, if any. -/
structure SwapToken where
  tid : Nat
  ctx : Nat
  region : Region
  interval : BitVec 16
  ctr : Option Word
  deriving DecidableEq, Repr

/-- One core. -/
structure Core where
  present : Bool := true
  suspect : Bool := false
  /-- a reset has stopped the core's issue and waits for what it issued (R278) -/
  stopping : Bool := false
  ageing : Word := 10
  cycle0 : Nat := 0
  tiles : Map Tile := []
  affine : BitVec 4 := 0
  /-- the affine bits as the operations issued so far will leave them (R240) -/
  affineIssue : BitVec 4 := 0
  horizon : Map Word := []
  tq0 : List TOp := []
  tq1 : List TOp := []
  held0 : List TOp := []
  held1 : List TOp := []
  pair0 : Option (Nat × Nat) := none
  pair1 : Option (Nat × Nat) := none
  /-- saved tasks whose tiles the core keeps resident (R237) -/
  heldTiles : List (Nat × BitVec 8) := []
  watch : List (Nat × WatchEntry) := []
  monitor : List MonEntry := []
  sweep : List MonEntry := []
  deque : List TaskRec := []
  l1tlb : List TlbEntry := []
  active : Plane := {}
  shadow : Plane := {}
  swapLock : Bool := false
  /-- the place of the lock among the loader's commands -/
  lockOrder : Nat := 0
  swapTokens : List SwapToken := []
  flips : Nat := 0
  /-- inbox: slots in use, requests in order, messages on their way, and pending handler starts (R287, R288) -/
  inboxUsed : List Nat := []
  inboxQueue : List Nat := []
  transit : List Msg := []
  starts : List Msg := []
  reserve : Nat := 0
  lBusy : Nat := 0
  /-- management has ordered the core's replacement (R293) -/
  replace : Bool := false
  /-- what the core has sent, by ASID, and received, by source core × 2^16 + ASID (R267) -/
  sent : Map Nat := []
  received : Map Nat := []
  deriving DecidableEq, Repr

/-! ### Engines, clusters and dies -/

/-- An engine command that has been issued (R269, R270): its 64-byte record, and what its completion needs. -/
structure Cmd where
  form : Nat
  ctx : Nat
  tid : Nat
  seq : Nat
  region : Region
  cmdRec : List Byte
  /-- the record's address, by which the collective engines match commands (R421) -/
  recVa : Word := 0
  bits : EngBits
  ctrVa : Word
  amount : Nat
  interval : BitVec 16
  recorded : BitVec 16
  /-- the core that counts the command as sent (R267), none for management -/
  core : Option Nat := none
  /-- its place among the commands that a loader accepts and the locks of SWAP (R368, R370) -/
  order : Nat := 0
  deriving DecidableEq, Repr

/-- An engine with its shadow register set (R269, R274). -/
structure Engine where
  present : Bool := true
  cur : Option Cmd := none
  shadow : Option Cmd := none
  completed : Nat := 0
  err : Bool := false
  cause : BitVec 8 := 0
  received : Map Nat := []
  deriving DecidableEq, Repr

/-- A crew's vault window (R290). -/
structure Window where
  set : Nat
  crew : Nat
  base : Nat
  bytes : Nat
  live : Nat
  deriving DecidableEq, Repr

structure Cluster where
  slice : Nat := 4
  target : Nat := 4
  busy : Bool := false
  spare : Bool := true
  copy0 : Engine := {}
  copy1 : Engine := {}
  gs : Engine := {}
  windows : List Window := []
  deriving DecidableEq, Repr

/-- An accepted invalidation (R309). -/
structure Inval where
  op : Nat
  scope : Nat
  asid : BitVec 16
  va : Word
  len : Nat
  ctrVa : Word
  ctx : Nat
  tid : Nat
  /-- the submission's place among the context's issues -/
  seq : Nat
  region : Region
  /-- the context's interval at submission -/
  interval : BitVec 16
  deriving DecidableEq, Repr

/-- An entry of the membership table (R390). -/
structure Member where
  key : BitVec 32 := 0
  asid : BitVec 16 := 0
  valid : Bool := false
  nat : Bool := false
  comb : Bool := false
  root : Word := 0
  rcb : Word := 0
  deriving DecidableEq, Repr

/-- A mesh table (R407); a member is [4:0] package, [7:5] die, [8] present, [9] failed. -/
structure Mesh where
  axes : Nat := 0
  sizes : List Nat := []
  members : List (BitVec 16) := []
  deriving DecidableEq, Repr

/-- A combiner entry (R402 to R406). Contributions are keyed by slot × 256 + rank; `acc` holds FP32 words. -/
structure Comb where
  armed : Bool := false
  op : Nat := 0
  ty : Nat := 0
  size : Nat := 0
  axis : Nat := 0
  timed : Bool := false
  expected : Nat := 0
  guard : Nat := 0
  deadline : Option Nat := none
  dest : Word := 0
  salvage : Word := 0
  status : Word := 0
  cmd : Option Cmd := none
  pieces : List (Nat × Nat × List Byte) := []
  folded : List Nat := []
  foldedSlots : Nat := 0
  acc : Option (List Nat) := none
  dup : Bool := false
  late : Bool := false
  /-- the entry is to end incomplete, and does so once a conversion lets it write (R406, R417) -/
  doomed : Bool := false
  deriving DecidableEq, Repr

/-- A remote operation that has left, or an NTS that waits for its slot, and is not yet acknowledged (R392, R393, R401). -/
structure Remote where
  pkt : Packet
  ctx : Nat
  tid : Nat
  cseq : Nat
  region : Region
  va : Word
  resends : Nat := 0
  /-- domain time of the last sending -/
  time : Nat := 0
  pend : Option Nat := none
  ty : Option ElemTy := none
  /-- the issuer's own copy of an NMC: its address space and interval (R399) -/
  own : Option (Space × BitVec 16) := none
  /-- a transfer of the die's collective engine -/
  coll : Bool := false
  deriving DecidableEq, Repr

/-- A declared descriptor as the placement table of one die holds it (R413). -/
structure Placed where
  addr : Word
  record : List Byte
  region : Region
  placement : List Nat
  gen : Nat := 0
  st : Nat := 0
  released : Bool := false
  /-- this die's demands that no generation has satisfied yet, and those that the coordinator has removed (R415) -/
  own : List Nat := []
  refused : List Nat := []
  /-- the demand that the conversion in progress serves, the rank whose demand it is, and whether the records differ (R414, R419) -/
  demand : Nat := 0
  asker : Nat := 0
  mismatch : Bool := false
  drop : Bool := false
  /-- contexts that wait at a PLD -/
  waiting : List Nat := []
  /-- at the coordinator: the pending demands, each with the rank of its member, and the releases as generation and rank -/
  demands : List (Nat × Nat) := []
  releases : List (Nat × Nat) := []
  differs : Bool := false
  /-- while converting: the step of R415 in progress, the member's data at it as elements (none where its shard cannot be read),
  whether it has given them to its line, and the reserved combiner entry that holds its fold (R402, R415) -/
  step : Nat := 0
  cur : Option (List Nat) := none
  supplied : Bool := false
  entry : Option Nat := none
  /-- pieces of inputs that have arrived: step × 256 + rank, piece and bytes; and those that cannot -/
  inputs : List (Nat × Nat × List Byte) := []
  badInputs : List Nat := []
  /-- stores and atomics of other packages held during conversion (R417) -/
  heldStores : List Packet := []
  /-- PCONVs whose demand the coordinator has not yet queued: their contexts, orders and demands -/
  asking : List (Nat × Nat × Nat) := []
  deriving DecidableEq, Repr

/-- The two lane bundles between this die and the same die of another package, one for each direction (R383 to R391). Key
number 0 is none. -/
structure Bundle where
  /-- the outgoing bundle: its lanes, key, group counter, the groups acknowledged, and the last groups sent -/
  lanes : Nat := 6
  up : Bool := true
  txKey : Nat := 0
  txGroup : Nat := 0
  txAcked : Nat := 0
  txBuf : List FlitGroup := []
  /-- link replay is active (R393) -/
  replaying : Bool := false
  /-- the incoming bundle: down while it is compromised (R389), its key, the good groups received, and the failures of the next -/
  rxUp : Bool := true
  rxKey : Nat := 0
  rxNext : Nat := 0
  rxFails : Nat := 0
  deriving DecidableEq, Repr

/-- A packet that a die has performed, as the request and its answer, in the window of its stream (R392). -/
structure Answered where
  key : Nat
  req : Packet
  ans : Packet
  deriving DecidableEq, Repr

structure Die where
  tlb : List TlbEntry := []
  walks : List (BitVec 16 × Nat × Word) := []
  collective : Engine := {}
  requant : Engine := {}
  compact : Engine := {}
  loader : Engine := {}
  loaderQueue : List Cmd := []
  /-- the collective engine's current operation: 0 new, 1 announced to its line, 2 matched; the announcements and inputs that
  have arrived, by record address, rank and piece, and the inputs that cannot (R421) -/
  collPhase : Nat := 0
  collArrived : List (Word × Nat) := []
  collInputs : List (Word × Nat × Nat × List Byte) := []
  collBad : List (Word × Nat) := []
  invals : List Inval := []
  members : Map Member := []
  mesh : Mesh := {}
  comb : Map Comb := []
  placed : List (Nat × Placed) := []
  skid : Bool := false
  txSeq : Map Nat := []
  remotes : List Remote := []
  /-- NTS packets that wait for their slot (R401), and transfers of the collective engine, at slot 0, that wait for room in their
  stream (R392) -/
  heldNts : List (Nat × Remote) := []
  rxWindow : List Answered := []
  bundles : Map Bundle := []
  dropped : Nat := 0
  /-- the counts of the die's fabric port by ASID, and of its homes by source core × 2^16 + ASID (R267) -/
  sent : Map Nat := []
  received : Map Nat := []
  homes : Map Nat := []
  deriving DecidableEq, Repr

/-! ### Sequences and KV frames (R328 to R355) -/

structure Node where
  token : BitVec 24
  parent : Nat
  depth : Nat
  given : Bool
  q : BitVec 32
  deriving DecidableEq, Repr

structure Extent where
  base : Nat
  len : Nat
  reserve : Nat
  stride : Nat
  deriving DecidableEq, Repr

/-- A token of the matching state (R345): its position and correction bit, and its image. -/
structure Tok where
  token : BitVec 24
  pos : Nat
  corr : Bool
  image : List Byte
  /-- it has been delivered and is carried for its bytes alone -/
  given : Bool := false
  deriving DecidableEq, Repr

structure Accept where
  path : List Nat
  correction : BitVec 24
  result : Word
  table : Word
  deriving DecidableEq, Repr

/-- A sequence. State numbers are those of R329. -/
structure Seq where
  st : Nat := 0
  region : Region := {}
  home : Nat := 0
  follower : Bool := false
  followers : BitVec 32 := 0
  rule : Nat := 0
  holdBack : Bool := false
  theta : BitVec 32 := 0
  cohort : Option Nat := none
  priority : Nat := 0
  keyWord : BitVec 32 := 0
  work : BitVec 128 := 0
  comm : BitVec 128 := 0
  stopTab : Word := 0
  penalty : Word := 0
  penHalf : Nat := 0
  ring : Word := 0
  ringSize : Nat := 0
  hostCtr : Word := 0
  ack : Word := 0
  save : Word := 0
  c : Nat := 0
  pendTok : Option (BitVec 24) := none
  extents : List Extent := []
  tree : Nat := 0
  nodes : List Node := []
  acc : Option Accept := none
  lastAcc : Word := 0
  ackRead : Word := 0
  delivered : Nat := 0
  /-- the matching state: the tokens from the first one with a byte in the suffix s on; under hold-back they are withheld -/
  carried : List Tok := []
  /-- what a follower has received from its home and not yet applied, in the home's order (R330) -/
  inbox : List FollowMsg := []
  deriving DecidableEq, Repr

/-- A KV frame's entry (R332). -/
structure Frame where
  count : Nat := 0
  bind : Nat := 0
  fmt : Nat := 0
  /-- held as a reserve of an extent, in a tree block, or by a requantisation -/
  resv : Bool := false
  deriving DecidableEq, Repr

/-- The KV geometry (R331). -/
structure KvGeom where
  asid : BitVec 16 := 0
  frames : Nat := 0
  fb : Nat := 0
  lb : Nat := 0
  tb : Nat := 0
  layers : Nat := 0
  pool : List Word := []
  fmt : Nat := 0
  deriving DecidableEq, Repr

structure Cohort where
  ctrVa : Word := 0
  region : Region := {}
  deriving DecidableEq, Repr

/-- A KVCOMPACT or KVREQUANT that the manager has accepted and the engines are copying. -/
structure KvJob where
  cmd : Cmd
  id : Nat
  c : Nat := 0
  path : List Nat := []
  page : Nat := 0
  old : Nat := 0
  new : Nat := 0
  fmt : Nat := 0
  /-- a compaction whose completion add has been made, with whether it met a fault; its state change follows (R343) -/
  copied : Option Bool := none
  deriving DecidableEq, Repr

/-- A delivery whose host acknowledgement a SQCOMMIT result waits for (R346). -/
structure Delivery where
  id : Nat
  ctx : Nat
  pend : Nat
  result : Word
  /-- what the followers are sent when the delivery has ended well -/
  msg : FollowMsg
  deriving DecidableEq, Repr

/-! ### Scheduler, host, health -/

/-- A region whose launch ring the scheduler serves (R360). -/
structure RingState where
  region : Region
  /-- the address space in which the control block is read -/
  space : Space
  next : Nat := 0
  /-- the place of the last read of a packet among all regions' reads (R360) -/
  lastRead : Nat := 0
  bad : Bool := false
  /-- the launch counter when the control block was last read -/
  seen : Nat := 0
  deriving DecidableEq, Repr

/-- A launch packet as read (R359), with the region its control block names. -/
structure LaunchPkt where
  entry : Word
  image : Word
  rcb : Word
  done : Word
  tasks : Nat
  inc : Nat
  crew : Nat
  role : Nat
  graph : Bool
  cond : Bool
  neg : Bool
  window : Nat
  depTgt : Nat
  depCtr : Word
  pred : Word
  deriving DecidableEq, Repr

/-- A pending graph node (R361). -/
structure PendNode where
  pkt : LaunchPkt
  region : Region
  index : Nat
  /-- the control block of the ring it was read from -/
  ring : Word
  deriving DecidableEq, Repr

/-- A task set (R363). -/
structure TaskSet where
  id : Nat
  pkt : LaunchPkt
  region : Region
  next : Nat := 0
  retired : Nat := 0
  fault : Option (BitVec 8) := none
  deriving DecidableEq, Repr

/-- Where a saved image stands (R279). -/
inductive Place
  | offer (core : Nat) (reserve : Bool) (bytes : List Byte)
  | memory (va : Word) (len : Nat) (vault : Bool)
  deriving DecidableEq, Repr

/-- A saved context: its image's place, and what is not in the image. -/
structure Saved where
  id : Nat
  tid : Nat
  core : Nat
  /-- the context's number on its core -/
  num : Nat := 0
  place : Place
  frozen : Bool
  why : SaveWhy
  region : Region
  task : TaskKind
  bank : Nat
  tmask : BitVec 8
  heldTiles : Bool := false
  /-- the image holds uncorrectable data where it stands in an offer (R292) -/
  imageBad : Bool := false
  /-- a trap handler for it is running, or must be started, on another core (R107) -/
  handler : Option Nat := none
  needHandler : Bool := false
  outside : List TrapRec := []
  cause : BitVec 8 := 0
  epc : Word := 0
  tval : Word := 0
  /-- the counter for which a parked JOIN waits has been satisfied (R266) -/
  ripe : Bool := false
  /-- what has no field in the image: the orders of results, results of held operations, errors in flight, drained heads -/
  delay : Bool := false
  heldWords : List Word := []
  askAgain : Nat := 0
  seq : Nat := 1
  lastSeq : Map Nat := []
  pending : List Pending := []
  landing : List Landing := []
  badRegs : List (Nat × Nat) := []
  stops : List (Nat × Nat) := []
  /-- heads whose latch holds an uncorrectable word (R103) -/
  headErrs : List Nat := []
  ltime : Nat := 0
  deriving DecidableEq, Repr

/-- A host area (R373). -/
structure HostArea where
  port : Nat := 0
  qp : Nat := 0
  rkey : Nat := 0
  base : Word := 0
  len : Nat := 0
  deriving DecidableEq, Repr

/-- A host write that its port has taken and that is not yet performed: its queue pair, address space and pieces (R317, R185). -/
structure HostWrite where
  qp : Nat
  asid : BitVec 16
  pieces : List Piece
  deriving DecidableEq, Repr

/-- A device-initiated RDMA operation to the host, or the answer to a host verb (R346, R373). -/
inductive HostOut
  | write (area : Nat) (addr : Word) (data : List Byte)
  | add (area : Nat) (addr : Word) (v : Nat)
  | readData (qp : Nat) (data : List Byte)
  | oldValue (qp : Nat) (v : Word)
  | ack (qp : Nat)
  | nak (qp : Nat)
  deriving DecidableEq, Repr

/-- A densitometer (R379). -/
structure Dens where
  cfg : Word := 0x00000000000000F0
  min : Nat := 2 ^ 64 - 1
  max : Nat := 0
  count : Nat := 0
  buckets : Map Nat := []
  deriving DecidableEq, Repr

/-- A core reset that a CRESET has requested (R145): the target, the issuing context and task, its order, and the counter. -/
structure ResetReq where
  core : Nat
  ctx : Nat
  tid : Nat
  seq : Nat
  region : Region
  ctrVa : Word
  deriving DecidableEq, Repr

/-- The shutter and the contact sheet of its running gather (R377, R378). -/
structure Shutter where
  gathering : Bool := false
  merged : Nat := 0
  source : ShutSource := .snap
  time : Nat := 0
  tags : List (BitVec 16) := []
  sources : List ShutSource := []
  /-- the context of the first SNAP or watch -/
  ctx : Option (BitVec 16) := none
  causes : List (BitVec 8) := []
  area : Word := 0
  /-- the snapshot registers that a firing latches, by block, those of a block at rest not listed -/
  latched : Map (List Word) := []
  deriving DecidableEq, Repr

/-- A watch hit on its way to its owner (R322). -/
structure WatchHit where
  core : Nat
  owner : Nat
  shut : Bool
  tval : Word
  deriving DecidableEq, Repr

/-! ### The bundle being issued -/

/-- How a slot's part of the bundle stands. `enc` marks the checks of R71 steps 1 and 2. -/
inductive Verdict
  | ran
  | trapped (enc : Bool) (cause : BitVec 8) (tval : Word)
  /-- with the stream position after the operation's draws, from which later slots are evaluated (R38, R71) -/
  | fpTrapped (flags : BitVec 6) (rctr : BitVec 128)
  | held
  deriving DecidableEq, Repr

/-- What takes place at the end of the bundle, after every slot (R54, R56, R129, R137, R202, R203). -/
inductive EndAct
  | setReg (file idx : Nat) (v : VecReg)
  | setPred (g : Nat) (v : Bool)
  | goto (target : Word)
  | transfer (target : Word)
  | delayOnly
  | setDesc (d : Nat) (t : TileDesc)
  | wset (q : Nat) (h : Head)
  | wstart (q : Nat) (len : Nat)
  | wstop (q : Nat) (drain : Bool)
  | setHandle (cb : Nat) (h : Handle)
  | csr (num : Nat) (op : CsrOp) (v : Word)
  | ended
  | yield
  | trapAfter (code : Word)
  | snap (tag : BitVec 16)
  | eret (dst : Option Word)
  deriving DecidableEq, Repr

/-- The bundle being issued: its context, address and length in words, the header's fields, the slot word now being
executed, and what the executed slots have scheduled. `commit` is false while the conditions of execution are being
checked and true while the bundle takes effect. -/
structure Issue where
  ctx : Nat := 0
  addr : Word := 0
  words : Nat := 0
  kind : Nat := 0
  imm : BitVec 32 := 0
  bc : Option Word := none
  pop : BitVec 8 := 0
  stall : Nat := 0
  slots : BitVec 8 := 0
  word : Nat := 0
  slot : Nat := 0
  commit : Bool := false
  seq : Nat := 0
  fflags0 : Word := 0
  rctr0 : BitVec 128 := 0
  interval0 : BitVec 16 := 0
  verdict : Verdict := .ran
  acts : List EndAct := []
  deriving DecidableEq, Repr

/-- Reasons for which the machine stops with a fault. -/
inductive Fault
  /-- Raised by a step whose agenda or issue record names a context, core or table slot that no package has; no run from
  reset reaches it. Safe: the hardware has no such state. -/
  | noSuchUnit
  deriving DecidableEq, Repr

/-- Reasons for which the model gives no next state. -/
inductive Refusal
  /-- The instruction has no meaning in this model yet. Raised by its arm of `exec`. Safe: nothing can be proved of it. -/
  | notModelled (mnemonic : String)
  deriving DecidableEq, Repr

/-- The package. -/
structure State where
  /-- this package's number in its domain, and which packages the domain has (R382) -/
  pkg : Nat
  packages : List Nat
  /-- clock cycles since the cold reset, the clock in MHz, and domain time in picoseconds (R380, R400) -/
  clock : Nat
  mhz : Nat
  dtimePs : Nat
  /-- physical memory by physical address; side status of counters; reduction shadows (type code, FP32 bits); race
  shadows by sector; uncorrectable granules with their cause; retained lines -/
  mem : Map Byte
  side : Map Word
  redShadow : Map (Nat × Nat)
  race : Map (BitVec 35)
  bad : Map (BitVec 8)
  /-- uncorrectable side statuses by the counter's address, with their cause (R277) -/
  badSide : Map (BitVec 8)
  /-- retained lines, the least recently marked first, and lines with live shadows, the least recently reduced first -/
  retained : List Nat
  shadowLines : List Nat
  /-- by line, the latest logical time of a read and the time of the last write (R313) -/
  lineTimes : Map (Nat × Nat)
  ctxs : Map Ctx
  loose : List Loose
  cores : Map Core
  clusters : Map Cluster
  dies : Map Die
  /-- the sequence manager -/
  geom : KvGeom
  seqs : Map Seq
  frames : Map Frame
  free : Map (List Nat)
  cohorts : Map Cohort
  kvJobs : List KvJob
  deliveries : List Delivery
  followerOut : List (Nat × Nat × FollowMsg)
  /-- the scheduler -/
  rings : List RingState
  nodes : List PendNode
  sets : List TaskSet
  saved : List Saved
  nextId : Nat
  raceLogged : Map Nat
  /-- corrected errors by core or die, and by HBM4E row; repaired rows, and the channel of each stack that its spare channel
  replaces (R293, R299) -/
  corrected : Map Nat
  rowErrors : Map Nat
  repaired : List Nat
  spareChannels : List (Nat × Nat)
  /-- the host and management -/
  mgmtSpace : Space
  areas : Map HostArea
  qps : Map Region
  hostWrites : List HostWrite
  hostOut : List HostOut
  watchHits : List WatchHit
  resets : List ResetReq
  shutter : Shutter
  dens : Map Dens
  thresholds : Map Word
  powerLimit : Word
  /-- the patrol scrubber's rate, the granules that it has read since the cold reset, and the domain time from which on the next
  is due (R298) -/
  scrubRate : Word
  scrubs : Nat
  scrubAt : Nat
  bootStage : Nat
  bootFail : Option Nat
  reports : List (List Byte)
  /-- the model's own fields: the counter of free values, the bundle being issued, the steps still to take in this clock
  cycle, the contexts selected to issue, and the bundles issued in this cycle with their slot masks -/
  freeIdx : Nat
  issue : Issue
  agenda : List Instr
  issuing : List Nat
  issued : List (Nat × BitVec 8)
  deriving DecidableEq, Repr

/-- The order-10 blocks in which every frame is free at reset (R332), for `n` blocks. -/
def freeBlocks : Nat → List Nat
  | 0 => []
  | n + 1 => freeBlocks n ++ [n * 1024]

/-- The package right after a package cold reset. Every context is dormant, both planes of every core are empty (R371),
every register map field holds its 'After reset' value (R7), and memory lists nothing. The management ASID has the number 0 and the
page-table root 0, which no rule gives (DESIGN CHOICE, log entry 24). -/
def State.reset : State where
  pkg := 0
  packages := [0]
  clock := 0
  mhz := 2100
  dtimePs := 0
  mem := []
  side := []
  redShadow := []
  race := []
  bad := []
  badSide := []
  retained := []
  shadowLines := []
  lineTimes := []
  ctxs := []
  loose := []
  cores := []
  clusters := []
  dies := []
  geom := {}
  seqs := []
  frames := []
  free := []
  cohorts := []
  kvJobs := []
  deliveries := []
  followerOut := []
  rings := []
  nodes := []
  sets := []
  saved := []
  nextId := 1
  raceLogged := []
  corrected := []
  rowErrors := []
  repaired := []
  spareChannels := []
  mgmtSpace := {}
  areas := []
  qps := []
  hostWrites := []
  hostOut := []
  watchHits := []
  resets := []
  shutter := {}
  dens := []
  thresholds := []
  powerLimit := 0
  scrubRate := 0
  scrubs := 0
  scrubAt := 0
  bootStage := 1
  bootFail := none
  reports := []
  freeIdx := 0
  issue := {}
  agenda := []
  issuing := []
  issued := []

end Sys2Proof.Machine
end

