-- ==== Sys2Proof/Machine/Mem.lean ====
section
/-! DEFINITION. Physical memory: the map of R295, bytes and granules, reduction shadows (R47), the one operation through
which every write goes (R249, R276, R318, R322), and the add to a counter (R248, R250, R277). -/

namespace Sys2Proof.Machine

/-! ### Units of the package -/

namespace State

def ctx (s : State) (c : Nat) : Ctx := Map.get {} s.ctxs c
def updCtx (s : State) (c : Nat) (f : Ctx → Ctx) : State := { s with ctxs := Map.upd {} s.ctxs c f }
def core (s : State) (k : Nat) : Core := Map.get {} s.cores k
def updCore (s : State) (k : Nat) (f : Core → Core) : State := { s with cores := Map.upd {} s.cores k f }
def cluster (s : State) (k : Nat) : Cluster := Map.get {} s.clusters k
def updCluster (s : State) (k : Nat) (f : Cluster → Cluster) : State := { s with clusters := Map.upd {} s.clusters k f }
def die (s : State) (d : Nat) : Die := Map.get {} s.dies d
def updDie (s : State) (d : Nat) (f : Die → Die) : State := { s with dies := Map.upd {} s.dies d f }

/-- The engine of an identity. -/
def engine (s : State) : EngineId → Engine
  | .copy0 cl => (s.cluster cl).copy0
  | .copy1 cl => (s.cluster cl).copy1
  | .gs cl => (s.cluster cl).gs
  | .collective d => (s.die d).collective
  | .requant d => (s.die d).requant
  | .compact d => (s.die d).compact
  | .loader d => (s.die d).loader

end State

/-- Change an engine. -/
def setEngine (s : State) (e : EngineId) (f : Engine → Engine) : State :=
  match e with
  | .copy0 cl => s.updCluster cl (fun x => { x with copy0 := f x.copy0 })
  | .copy1 cl => s.updCluster cl (fun x => { x with copy1 := f x.copy1 })
  | .gs cl => s.updCluster cl (fun x => { x with gs := f x.gs })
  | .collective d => s.updDie d (fun x => { x with collective := f x.collective })
  | .requant d => s.updDie d (fun x => { x with requant := f x.requant })
  | .compact d => s.updDie d (fun x => { x with compact := f x.compact })
  | .loader d => s.updDie d (fun x => { x with loader := f x.loader })

/-- Core, cluster and die of a context number (R86). -/
def coreOf (c : Nat) : Nat := c / 4
def clusterOf (c : Nat) : Nat := c / 64
def dieOf (c : Nat) : Nat := c / 512

/-- The twelve logical cores of a cluster, and the core numbers of the package. -/
def coreValid (k : Nat) : Bool := decide (k < 1024) && decide (k % 16 < 12)
def ctxValid (c : Nat) : Bool := coreValid (c / 4)
/-- The contexts of a core. -/
def ctxsOf (k : Nat) : List Nat := [4 * k, 4 * k + 1, 4 * k + 2, 4 * k + 3]
/-- The cores of a cluster. -/
def coresOf (cl : Nat) : List Nat := (List.range 12).map (fun n => cl * 16 + n)
/-- Every core of the package. -/
def allCores : List Nat := (List.range 64).flatMap coresOf

/-! ### The physical map -/

/-- Where a physical address lies (R295). Clusters and cores are numbered through the package. -/
inductive Loc
  | hbm (die off : Nat) | vault (cl off : Nat) | scratch (core off : Nat) | mgmt (off : Nat) | absent
  deriving DecidableEq, Repr

def vaultBase : Nat := 0x10000000000
def scratchBase : Nat := 0x10200000000
def mgmtBase : Nat := 0x20000000000

def locOf (pa : Nat) : Loc :=
  if pa < 8 * 2 ^ 36 then .hbm (pa / 2 ^ 36) (pa % 2 ^ 36)
  else if vaultBase ≤ pa ∧ pa < vaultBase + 2 ^ 33 then .vault ((pa - vaultBase) / 2 ^ 27) ((pa - vaultBase) % 2 ^ 27)
  else if scratchBase ≤ pa ∧ pa < scratchBase + 2 ^ 30 then
    .scratch ((pa - scratchBase) / 2 ^ 20) ((pa - scratchBase) % 2 ^ 20)
  else if mgmtBase ≤ pa ∧ pa < mgmtBase + 2 ^ 32 then .mgmt (pa - mgmtBase)
  else .absent

/-- The physical address of byte `o` of a core's scratchpad, and of a cluster's vault. -/
def scratchPa (core o : Nat) : Nat := scratchBase + core * 2 ^ 20 + o
def vaultPa (cl o : Nat) : Nat := vaultBase + cl * 2 ^ 27 + o

/-- Direct space of a cluster in bytes (R280). -/
def State.directSize (s : State) (cl : Nat) : Nat := (8 - (s.cluster cl).slice) * 2 ^ 24

/-- Whether an offset of a scratchpad lies in its spill reserve (R285). -/
def inReserve (s : State) (core o : Nat) : Bool :=
  decide (0xF0000 - (s.core core).reserve * 2 ^ 16 ≤ o) && decide (o < 0xF0000)

/-- Whether an access through translation reaches the byte (R296), the management space apart. -/
def State.populated (s : State) (pa : Nat) : Bool :=
  match locOf pa with
  | .hbm _ o => decide (o < 60 * 2 ^ 30)
  | .vault cl o => decide (o < s.directSize cl)
  | .scratch k o => coreValid k && (s.core k).present && !inReserve s k o
  | .mgmt _ => false
  | .absent => false

/-- The die whose home holds a byte. -/
def homeDie (pa : Nat) : Nat :=
  match locOf pa with
  | .hbm d _ => d | .vault cl _ => cl / 8 | .scratch k _ => k / 128 | .mgmt _ => 0 | .absent => 0

/-- ECC granule size (R276). -/
def granule (pa : Nat) : Nat := match locOf pa with | .hbm _ _ => 32 | _ => 8

/-- Whether a location's sector has a race shadow, its page's capability apart (R318). -/
def shadowable (pa : Nat) : Bool := match locOf pa with | .hbm _ _ => true | .vault _ _ => true | _ => false

/-! ### Bytes -/

/-- The little-endian number of a list of bytes. -/
def leNat : List Byte → Nat
  | [] => 0
  | b :: bs => b.toNat + 256 * leNat bs

/-- A field of `n` bytes at an offset of a record, as a little-endian number. -/
def field (bs : List Byte) (off n : Nat) : Nat := leNat ((bs.drop off).take n)

/-- The `n` little-endian bytes of a number. -/
def leBytes : Nat → Nat → List Byte
  | 0, _ => []
  | n + 1, x => BitVec.ofNat 8 x :: leBytes n (x / 256)

def rawBytes (m : Map Byte) (pa n : Nat) : List Byte := (List.range n).map (fun i => Map.get Config.resetByte m (pa + i))

/-- Write bytes at rising addresses, in the canonical form. -/
def putBytes : Map Byte → Nat → List Byte → Map Byte
  | m, _, [] => m
  | m, pa, b :: bs => putBytes (Map.set Config.resetByte m pa b) (pa + 1) bs

/-- A number read from raw memory, with no effect on shadows. -/
def State.peek (s : State) (pa n : Nat) : Nat := leNat (rawBytes s.mem pa n)

/-! ### Reduction shadows (R47) -/

/-- The format of a shadow's type code. -/
def shadowFmt : Nat → FFmt | 1 => .bf16 | 3 => .e4m3 | _ => .e5m2

/-- FP32 bits rounded to a narrow format as R47 item 3 gives. -/
def roundShadow (f : FFmt) (bits : Nat) : Nat := ((FFmt.fp32.decode bits).res.deliver f .rne 0 false).1

/-- Whether [a, a + m) and [b, b + n) meet. -/
def overlaps (a m b n : Nat) : Bool := decide (a < b + n) && decide (b < a + m)

/-- Round the live shadows that a read of the range meets into their lines. -/
def State.settle (s : State) (pa n : Nat) : State :=
  { s with mem := s.redShadow.foldl (fun m (k, ty, bits) =>
      let w := (shadowFmt ty).width / 8
      if overlaps k w pa n then putBytes m k (leBytes w (roundShadow (shadowFmt ty) bits)) else m) s.mem }

/-- Discard the live shadows that a write of the range meets. -/
def State.dropShadows (s : State) (pa n : Nat) : State :=
  { s with redShadow := s.redShadow.filter (fun (k, ty, _) => !overlaps k ((shadowFmt ty).width / 8) pa n) }

/-- Round a range's shadows into memory and drop them (R47 item 5). -/
def State.flushShadows (s : State) (pa n : Nat) : State := (s.settle pa n).dropShadows pa n

/-- The cluster whose L2 slice holds a line, and the side band of its shadows: the vault's own cluster in direct space (R47), and in
HBM4E that of the home agent that the 256-byte granule selects. R297 interleaves the lines over the die's 8 home agents and does not
say which cluster's slice an agent keeps its lines in: agent n and cluster n of the die go together here (DESIGN CHOICE, log entry
82). -/
def sliceOf (pa : Nat) : Option Nat :=
  match locOf pa with
  | .hbm d o => some (d * 8 + o / 256 % 8)
  | .vault cl _ => some cl
  | _ => none

/-- The L2 set of a line. -/
def State.setOf (s : State) (pa : Nat) : Nat :=
  match sliceOf pa with
  | some cl => Config.l2Set (s.cluster cl).slice (pa / 64)
  | none => 0

/-- The lines of a set in a list of lines. -/
def State.inSet (s : State) (line : Nat) (l : List Nat) : List Nat :=
  l.filter (fun m => decide (sliceOf m = sliceOf line) && s.setOf m == s.setOf line)

/-- Round and drop every live shadow of the lines of one slice (R281). -/
def State.flushSlice (s : State) (cl : Nat) : State :=
  (s.shadowLines.filter (fun l => decide (sliceOf l = some cl))).foldl (fun s l => s.flushShadows l 64)
    { s with shadowLines := s.shadowLines.filter (fun l => decide (sliceOf l ≠ some cl)) }

/-- A read of `n` bytes: the bytes, and the state with the shadows it met rounded into their lines. -/
def State.readBytes (s : State) (pa n : Nat) : List Byte × State :=
  let s := if s.redShadow.isEmpty then s else s.settle pa n
  (rawBytes s.mem pa n, s)

/-- A number that a read of `n` bytes gives. -/
def State.readNat (s : State) (pa n : Nat) : Nat := leNat (s.readBytes pa n).1

/-! ### Uncorrectable granules -/

/-- The bases of the granules that a range meets. -/
def granulesIn (pa n : Nat) : List Nat :=
  let g := granule pa
  (List.range ((pa + n - 1) / g - pa / g + 1)).map (fun i => (pa / g + i) * g)

/-- The cause of the first uncorrectable granule that a range meets (R448). -/
def State.badAt (s : State) (pa n : Nat) : Option (BitVec 8) :=
  if s.bad.isEmpty then none else (granulesIn pa n).findSome? (fun b => Map.find? s.bad b)

/-- The cause of an uncorrectable counter: its word's granule, or its side status (R277). -/
def State.counterBad (s : State) (pa : Nat) : Option (BitVec 8) := (s.badAt pa 8).or (Map.find? s.badSide pa)

/-- The first byte of the range that lies in an uncorrectable granule, as an offset. -/
def State.badOffset (s : State) (pa n : Nat) : Nat :=
  match (granulesIn pa n).find? (fun b => (Map.find? s.bad b).isSome) with
  | some b => b - pa
  | none => 0

/-- The marks left after a write of the range: a granule written whole is clear (R276). -/
def clearGranules (bad : Map (BitVec 8)) (pa n : Nat) : Map (BitVec 8) :=
  if bad.isEmpty then bad else
  (granulesIn pa n).foldl (fun m b => if pa ≤ b && b + granule pa ≤ pa + n then Map.erase m b else m) bad

/-! ### Writes -/

/-- Who writes: the kind and identity of a watch report (R143), and what the race shadow records (R318), if anything. -/
structure Writer where
  kind : Nat
  id : Nat
  pkg : Nat
  race : Option (BitVec 16 × BitVec 16 × Nat)
  deriving DecidableEq, Repr

/-- A context's own store. -/
def State.ctxWriter (s : State) (c : Nat) (interval : BitVec 16) : Writer :=
  ⟨0, c, s.pkg, some (BitVec.ofNat 16 c, interval, 4)⟩
/-- The writer 0xFFFF of remote operations and of host RDMA. -/
def outsideWriter (kind id pkg : Nat) : Writer := ⟨kind, id, pkg, some (0xFFFF, 0, 4)⟩

/-- The packed race shadow of R318. -/
def packRace (w i : BitVec 16) (sc : Nat) : BitVec 35 := BitVec.ofNat 35 (w.toNat * 2 ^ 19 + i.toNat * 8 + sc)

def sectorsIn (pa n : Nat) : List Nat := (List.range ((pa + n - 1) / 64 - pa / 64 + 1)).map (fun i => pa / 64 + i)

/-- The times of the lines that a write touches, whoever makes it: it is performed later than every read and write before it (R313). -/
def timesAfter (m : Map (Nat × Nat)) (pa n : Nat) : Map (Nat × Nat) :=
  (sectorsIn pa n).foldl (fun m l => Map.upd (0, 0) m l (fun (r, w) => (r, max r w + 1))) m

/-- The race shadows after a write of the range. -/
def raceAfter (r : Map (BitVec 35)) (w : Writer) (cnt : Bool) (pa n : Nat) : Map (BitVec 35) :=
  match w.race with
  | some (wr, i, sc) =>
    if cnt || !shadowable pa then r else (sectorsIn pa n).foldl (fun m k => Map.set 0 m k (packRace wr i sc)) r
  | none => r

/-- The offset from a watch entry's base of the first watched byte that a write of the range touches. For a write that begins
below the base R143 gives no offset, and the first watched byte is this model's (DESIGN CHOICE, log entry 72). -/
def watchOffset (e : WatchEntry) (pa n : Nat) : Option Nat :=
  e.pages.foldl (fun best (va, pp) =>
    let lo := max pa (pp + (e.base.toNat - va))
    let hi := min (pa + n) (pp + min 65536 (e.base.toNat + e.len - va))
    if lo < hi then
      let off := va + (lo - pp) - e.base.toNat
      match best with | none => some off | some b => some (min b off)
    else best) none

/-- sys.tval of a watchpoint (R143). -/
def watchTval (w : Writer) (entry off : Nat) : Word :=
  BitVec.ofNat 64 (w.kind * 2 ^ 62 + entry * 2 ^ 59 + off % 2 ^ 24 * 2 ^ 32 + w.pkg * 2 ^ 16 + w.id)

/-- The watch check of one core's table: hits disarm their entries (R322). -/
def watchCore (w : Writer) (pa n k : Nat) (x : Core) : Core × List WatchHit :=
  let hits := x.watch.filterMap (fun (i, e) => (watchOffset e pa n).map (fun o => (i, e, o)))
  ({ x with watch := x.watch.filter (fun (_, e) => (watchOffset e pa n).isNone) },
   hits.map (fun (i, e, o) => ⟨k, e.owner, e.shut, watchTval w i o⟩))

/-- The watch check at the homes of a written range. -/
def State.watchCheck (s : State) (w : Writer) (pa n : Nat) : State :=
  s.cores.foldl (fun s (k, x) =>
    if x.watch.isEmpty then s else
    let (x', hits) := watchCore w pa n k x
    if hits.isEmpty then s else { s.updCore k (fun _ => x') with watchHits := s.watchHits ++ hits }) s

/-- Clear what a map keeps for the counters whose words a range meets. -/
def clearCounters {α : Type} (m : Map α) (pa n : Nat) : Map α :=
  if m.isEmpty then m else (List.range ((pa + n - 1) / 8 - pa / 8 + 1)).foldl (fun m i => Map.erase m ((pa / 8 + i) * 8)) m

/-- Every write of memory other than an add: the bytes in the canonical form, shadows discarded (R47), the side status
of the counters touched cleared, its error with it (R249, R277), granules written whole made good (R276), the race shadow (R318), the
lines' times (R313) and the watch check (R322). -/
def State.write (s : State) (w : Writer) (cnt : Bool) (pa : Nat) (bytes : List Byte) : State :=
  let n := bytes.length
  if n = 0 then s else
  let s := if s.redShadow.isEmpty then s else s.dropShadows pa n
  let s := { s with
    mem := putBytes s.mem pa bytes
    side := clearCounters s.side pa n
    badSide := clearCounters s.badSide pa n
    bad := clearGranules s.bad pa n
    race := raceAfter s.race w cnt pa n
    lineTimes := timesAfter s.lineTimes pa n }
  s.watchCheck w pa n

/-! ### Counters -/

/-- Why an add was not applied: it would pass 2^64 - 1 (R250), or its word or side status is uncorrectable (R277). -/
inductive AddFail
  | overflow
  | bad (cause : BitVec 8)
  deriving DecidableEq, Repr

def AddFail.cause : AddFail → BitVec 8 | .overflow => 0x13 | .bad c => c

/-- The side status after an add: an error add keeps the first cause, a releasing add records writer and interval (R248). -/
def sideAfter (old : Word) (err : Option (BitVec 8)) (rel : Option (BitVec 16 × BitVec 16)) : Word :=
  let n := old.toNat
  let e := match err with
    | some c => if bitAt n 63 then bitsAt n 40 24 * 2 ^ 40 else 2 ^ 63 + c.toNat * 2 ^ 40
    | none => bitsAt n 40 24 * 2 ^ 40
  let wi := match rel with
    | some (w, i) => w.toNat * 2 ^ 16 + i.toNat
    | none => bitsAt n 0 32
  BitVec.ofNat 64 (e + wi)

/-- counter_add: one atomic read-modify-write of the word and its side status (R249, R255). `rel` is the writer and
interval that a releasing add records. -/
def State.counterAdd (s : State) (w : Writer) (pa amount : Nat) (err : Option (BitVec 8))
    (rel : Option (BitVec 16 × BitVec 16)) : Except AddFail State :=
  match s.counterBad pa with
  | some c => .error (.bad c)
  | none =>
    let s := if s.redShadow.isEmpty then s else s.flushShadows pa 8
    let v := s.peek pa 8 + amount
    if 2 ^ 64 ≤ v then .error .overflow
    else
      let s := { s with
        mem := putBytes s.mem pa (leBytes 8 v)
        side := Map.upd 0 s.side pa (fun o => sideAfter o err rel)
        lineTimes := timesAfter s.lineTimes pa 8 }
      .ok (s.watchCheck { w with race := none } pa 8)

/-- A counter's value and side status. -/
def State.counter (s : State) (pa : Nat) : Nat := s.readNat pa 8
def State.sideStatus (s : State) (pa : Nat) : Word := Map.get 0 s.side pa

/-- Domain time in nanoseconds (R400). -/
def State.dtimeNs (s : State) : Nat := s.dtimePs / 1000 % 2 ^ 64

/-- The next free value: a 64-bit word nothing constrains. -/
def State.free64 (s : State) : Word × State := (Config.freeWord s.freeIdx, { s with freeIdx := s.freeIdx + 1 })
def State.freeNat (s : State) : Nat × State := (Config.freeChoice s.freeIdx, { s with freeIdx := s.freeIdx + 1 })

end Sys2Proof.Machine
end

