-- ==== Sys2Proof/Machine/Mgmt.lean ====
section
/-! DEFINITION. The management space (R6, R295, R374): the words of its registers, the register that an offset names, reads,
and the steps that a write sets going; and the read and the write of any physical address. -/

namespace Sys2Proof.Machine

/-- The block of R374, in units of 256 MiB, in which a register lies; where R374 names none, the block is this model's (log
entry 73). -/
def mgmtBlock : MgmtReg → Nat
  | .nameRegion | .domain | .regionTable _ | .pendingNode _ => 0
  | .kvGeometry => 1
  | .vaultConfig _ | .reserve _ | .repairThreshold _ | .loaderPort _ | .flipPort _ | .ageing _ | .scrubRate | .membership _ _
  | .tlbinv _ | .mesh _ | .ingressMode _ => 2
  | .densitometer _ | .shutterCause _ | .sheetArea | .fireShutter => 3
  | .mailbox | .attestation => 4
  | .hostArea _ | .queuePair _ => 5
  | .powerLimit | .engineDisable _ | .replaceCore _ => 6

/-- The size of the populated part of the management space (R374). -/
def mgmtTop : Nat := 0x70000000

/-- The register whose word stands at an offset, and the word's number in it. -/
def mgmtAt (off : Nat) : Option (MgmtReg × Nat) :=
  match Config.mgmtMap (off / 8 * 8) with
  | some (r, i) => if mgmtBlock r = off / 2 ^ 28 then some (r, i) else none
  | none => none

/-- 64-bit words of bytes. -/
def wordsOf : Nat → List Byte → List Word
  | 0, _ => []
  | n + 1, bs => BitVec.ofNat 64 (leNat (bs.take 8)) :: wordsOf n (bs.drop 8)

/-- Bytes of a list of words. -/
def wordsBytes (l : List Word) : List Byte := l.flatMap (fun w => leBytes 8 w.toNat)

/-- The words of a densitometer: its configuration with reserved bits and the write-only clear as zeros, minimum, maximum,
count, and the buckets of 32 bits, two to a word (R379). -/
def densWords (d : Dens) : List Word :=
  [d.cfg, BitVec.ofNat 64 d.min, BitVec.ofNat 64 d.max, BitVec.ofNat 64 d.count] ++
    (List.range 8).map (fun i => BitVec.ofNat 64 (Map.get 0 d.buckets (2 * i) + Map.get 0 d.buckets (2 * i + 1) * 2 ^ 32))

/-- What the words of a register read as (R6): write-only words and reserved bits as zero. -/
def mgmtWords (s : State) : MgmtReg → List Word
  | .kvGeometry =>
    let g := s.geom
    [g.asid.setWidth 64] ++ [g.frames, g.fb, g.lb, g.tb, g.layers, g.fmt].map (BitVec.ofNat 64) ++ (g.pool ++ List.replicate 8 0).take 8
  | .membership d i =>
    let m := Map.get {} (s.die d).members i
    [BitVec.ofNat 64 (m.key.toNat + m.asid.toNat * 2 ^ 32 + (b2n m.valid + 2 * b2n m.nat + 4 * b2n m.comb) * 2 ^ 48), m.root, m.rcb, 0]
  | .mesh d =>
    let m := (s.die d).mesh
    wordsOf 65 (leBytes 1 m.axes ++ ((m.sizes ++ List.replicate 4 1).take 4).flatMap (leBytes 1) ++ leBytes 3 0 ++
      (m.members ++ List.replicate 256 0).flatMap (fun (x : BitVec 16) => leBytes 2 x.toNat))
  | .hostArea i =>
    let a := Map.get {} s.areas i
    [BitVec.ofNat 64 a.port, BitVec.ofNat 64 a.qp, BitVec.ofNat 64 a.rkey, a.base, BitVec.ofNat 64 a.len]
  | .queuePair i =>
    let r := Map.get {} s.qps i
    [r.space.asid.setWidth 64, r.space.root, r.space.key.setWidth 64]
  | .ingressMode d => [BitVec.ofNat 64 (b2n (s.die d).skid)]
  | .ageing k => [(s.core k).ageing]
  | .densitometer i => densWords (Map.get {} s.dens i)
  | .shutterCause i => [(s.shutter.causes.getD i 0).setWidth 64]
  | .sheetArea => [s.shutter.area]
  | .repairThreshold i => [Map.get 0 s.thresholds i]
  | .powerLimit => [s.powerLimit]
  | .scrubRate => [s.scrubRate]
  | .engineDisable e => [BitVec.ofNat 64 (b2n !(s.engine e).present)]
  | .domain => [BitVec.ofNat 64 s.pkg, BitVec.ofNat 64 ((s.packages.map (fun n => 2 ^ n)).sum)]
  | .vaultConfig cl => [BitVec.ofNat 64 ((s.cluster cl).slice + 256 * b2n (s.cluster cl).busy)]
  | .reserve k => [BitVec.ofNat 64 (s.core k).reserve]
  | .mailbox => [BitVec.ofNat 64 (s.bootFail.getD 0), BitVec.ofNat 64 s.bootStage] ++ wordsOf 64 (s.reports.getLastD (List.replicate 512 0))
  | .regionTable i => match s.rings[i]? with
    | some r => [1 + 2 * BitVec.ofNat 64 (b2n r.bad), r.region.rcb, r.space.asid.setWidth 64, r.space.root, BitVec.ofNat 64 r.next]
    | none => [0, 0, 0, 0, 0]
  | .pendingNode i => match s.nodes[i]? with
    | some n => [1, n.ring, BitVec.ofNat 64 n.index, n.pkt.depCtr, BitVec.ofNat 64 n.pkt.depTgt]
    | none => [0, 0, 0, 0, 0]
  | .nameRegion | .attestation => [0, 0, 0, 0]
  | .loaderPort _ => [0, 0, 0]
  | .flipPort _ | .replaceCore _ | .fireShutter | .tlbinv _ => [0]

/-- The step that a write of a register's words is. -/
def mgmtStep (r : MgmtReg) (v : List Word) : Instr :=
  match r with
  | .vaultConfig cl => .vaultConfigWrite cl (v.headD 0)
  | .reserve k => .reserveRegisterWrite k (v.headD 0)
  | .loaderPort d => .managementEplane d (v.headD 0) (v.getD 1 0) (v.getD 2 0).toNat
  | .flipPort k => .managementFlip k
  | .tlbinv d => .sysTlbinv d (v.headD 0)
  | .attestation => .attestationRequest (wordsBytes ((v ++ List.replicate 4 0).take 4))
  | .fireShutter => .shutterFire .management ((v.headD 0).setWidth 16) 0
  | r => .registerWrite r v

/-- One word of the management space; a word of a block that names no register here is free. -/
def mgmtWord (s : State) (off : Nat) : Word × State :=
  match mgmtAt off with
  | some (r, i) => ((mgmtWords s r).getD i 0, s)
  | none => s.free64

/-- The words that cover `n` eight-byte words from a base. -/
def mgmtRead : Nat → Nat → State → List Byte × State
  | 0, _, s => ([], s)
  | n + 1, off, s =>
    let (w, s) := mgmtWord s off
    let (bs, s) := mgmtRead n (off + 8) s
    (leBytes 8 w.toNat ++ bs, s)

/-- A write of bytes: each register that the range meets is written once, its other bytes as they read (R6). -/
def mgmtWrite (s : State) (off : Nat) (bs : List Byte) : State :=
  let first := off / 8
  let n := (off + bs.length - 1) / 8 - first + 1
  let (old, s) := mgmtRead n (first * 8) s
  let new := wordsOf n (old.take (off % 8) ++ bs ++ old.drop (off % 8 + bs.length))
  let hits := (new.zipIdx).filterMap (fun (w, j) => (mgmtAt ((first + j) * 8)).map (fun (r, i) => (r, i, w)))
  let regs := (hits.map (fun h => h.1)).eraseDups
  let steps := regs.map (fun r => mgmtStep r ((hits.filter (fun h => h.1 == r)).foldl (fun l (_, i, w) => l.set i w) (mgmtWords s r)))
  { s with agenda := steps ++ s.agenda }

/-- Whether a physical address lies in the management space, and at which offset. -/
def mgmtOff (pa : Nat) : Option Nat := match locOf pa with | .mgmt o => some o | _ => none

/-- A read of any physical address. -/
def State.readAt (s : State) (pa n : Nat) : List Byte × State :=
  match mgmtOff pa with
  | some o =>
    let (bs, s) := mgmtRead ((o + n - 1) / 8 - o / 8 + 1) (o / 8 * 8) s
    ((bs.drop (o % 8)).take n, s)
  | none => s.readBytes pa n

/-- A write of any physical address. -/
def State.storeAt (s : State) (w : Writer) (cnt : Bool) (pa : Nat) (bs : List Byte) : State :=
  match mgmtOff pa with
  | some o => if bs.isEmpty then s else mgmtWrite s o bs
  | none => s.write w cnt pa bs

end Sys2Proof.Machine
end

