-- ==== Sys2Proof/Machine/Dens.lean ====
section
/-! DEFINITION. The shutter's firing (R377, R378), the densitometers and what they count (R379, R47, R275, R277, R298, R321,
R372). -/

namespace Sys2Proof.Machine

/-! ### The shutter -/

/-- The snapshot registers of a context (R377): which registers a block's are, management's tables say; this is the model's
choice (log entry 74). -/
def Ctx.snapWords (x : Ctx) : List Word :=
  [x.pc, x.mode, x.cause, x.epc, x.tval, x.npc, BitVec.ofNat 64 x.stall, BitVec.ofNat 64 x.tid]
def Core.snapWords (x : Core) : List Word :=
  [BitVec.ofNat 64 (x.tq0.length + 256 * x.tq1.length), BitVec.ofNat 64 x.deque.length, BitVec.ofNat 64 x.monitor.length,
    BitVec.ofNat 64 x.flips, BitVec.ofNat 64 x.inboxUsed.length]
def Engine.snapWord (e : Engine) : Word :=
  BitVec.ofNat 64 (e.completed % 2 ^ 32 + b2n e.err * 2 ^ 32 + e.cause.toNat * 2 ^ 40 + b2n e.cur.isSome * 2 ^ 48)
def Cluster.snapWords (x : Cluster) : List Word :=
  [BitVec.ofNat 64 x.slice, x.copy0.snapWord, x.copy1.snapWord, x.gs.snapWord]
def Die.snapWords (x : Die) : List Word :=
  [x.collective.snapWord, x.requant.snapWord, x.compact.snapWord, x.loader.snapWord, BitVec.ofNat 64 x.remotes.length]
/-- The blocks of the bridge die: scheduler and sequence manager. -/
def bridgeWords (s : State) : List Word :=
  [BitVec.ofNat 64 s.nodes.length, BitVec.ofNat 64 s.sets.length, BitVec.ofNat 64 s.saved.length, BitVec.ofNat 64 s.seqs.length]

/-- The package's blocks by number: contexts as sys.ctxid numbers them, then cores, clusters, dies and the bridge die. -/
def coreBlock (k : Nat) : Nat := 4096 + k
def clusterBlock (k : Nat) : Nat := 8192 + k
def dieBlock (d : Nat) : Nat := 8448 + d
def bridgeBlock : Nat := 8704
def allBlocks : List Nat :=
  allCores.flatMap ctxsOf ++ allCores.map coreBlock ++ (List.range 64).map clusterBlock ++ (List.range 8).map dieBlock ++ [bridgeBlock]

/-- The snapshot registers of every block that is not as at reset. -/
def snapshot (s : State) : Map (List Word) :=
  s.ctxs.map (fun (c, x) => (c, x.snapWords)) ++ s.cores.map (fun (k, x) => (coreBlock k, x.snapWords)) ++
    s.clusters.map (fun (k, x) => (clusterBlock k, x.snapWords)) ++ s.dies.map (fun (d, x) => (dieBlock d, x.snapWords)) ++
    [(bridgeBlock, bridgeWords s)]

/-- A latched block's words, those of a block at rest being the ones of reset. -/
def latchedWords (l : Map (List Word)) (b : Nat) : List Word :=
  match Map.find? l b with
  | some ws => ws
  | none => if b < 4096 then Ctx.snapWords {} else if b < 8192 then Core.snapWords {} else if b < 8448 then Cluster.snapWords {}
    else if b < 8704 then Die.snapWords {} else [0, 0, 0, 0]

/-- A firing of the shutter (R377, R378): it latches every block in one cycle, or during a gather it is merged, its tag and
source entering the lists of 8. `c` is the identity of a SNAP or watch. -/
def fireShutter (s : State) (src : ShutSource) (tag : BitVec 16) (c : Option (BitVec 16)) : State :=
  let h := s.shutter
  if h.gathering then
    { s with shutter := { h with
      merged := h.merged + 1
      tags := if h.tags.length < 8 then h.tags ++ [tag] else h.tags
      sources := if h.sources.length < 8 then h.sources ++ [src] else h.sources
      ctx := h.ctx.or c } }
  else
    { s with shutter := { h with
      gathering := true
      merged := 0
      source := src
      time := s.dtimeNs
      tags := [tag]
      sources := [src]
      ctx := c
      latched := snapshot s } }

/-! ### Densitometers -/

/-- The bucket of a scaled sample (R379). -/
def bucketOf (v : Nat) : Nat := if v < 2 then 0 else min 15 (Nat.log2 v)

/-- Densitometer counts saturate (R379). -/
def satCount (n : Nat) : Nat := min n (2 ^ 32 - 1)

/-- A sample enters an enabled densitometer (R379). -/
def Dens.sampled (d : Dens) (v : Nat) : Dens :=
  let b := bucketOf (v / 2 ^ bitsAt d.cfg.toNat 8 4)
  { d with
    min := Nat.min d.min v
    max := Nat.max d.max v
    count := satCount (d.count + 1)
    buckets := Map.upd 0 d.buckets b (fun n => satCount (n + 1)) }

/-- A densitometer with its statistics zeroed (R379, bit 1). -/
def Dens.cleared (d : Dens) : Dens := { cfg := d.cfg, min := 0 }

/-- Densitometer n takes a sample when it is enabled; at its threshold it may fire the shutter (R379). -/
def sampleDens (s : State) (n v : Nat) : State :=
  let d := Map.get {} s.dens n
  if !d.cfg.getLsbD 0 then s
  else
    let s := { s with dens := Map.set {} s.dens n (d.sampled v) }
    let b := bucketOf (v / 2 ^ bitsAt d.cfg.toNat 8 4)
    if d.cfg.getLsbD 3 && bitsAt d.cfg.toNat 4 4 ≤ b then fireShutter s .densitometer 0 none else s

/-- An event is counted by every densitometer whose source it is; R379 does not say what value such a sample has, so it is
free (log entry 75). -/
def countEvent (s : State) (e : DensEvent) : State :=
  s.dens.foldl (fun s (n, d) =>
    if d.cfg.getLsbD 0 && Config.densSource n (bitsAt d.cfg.toNat 16 16) e then
      let (v, s) := s.free64
      sampleDens s n v.toNat
    else s) s

/-- An add that an uncorrectable error stopped is counted (R277); one that would overflow is none. -/
def countFailedAdd (s : State) : AddFail → State
  | .bad _ => countEvent s .failedAdd
  | .overflow => s

end Sys2Proof.Machine
end

