-- ==== Sys2Proof/Machine/Translate.lean ====
section
/-! DEFINITION. Translation (R300 to R306): the walk, the translation caches, the checks of R303 in their order, and the
ranges of bytes that an access reaches. -/

namespace Sys2Proof.Machine

/-- What an access needs of its page (R303, R247, R249). -/
inductive Acc | read | write | atomic | fetch | counterRead | counterAdd
  deriving DecidableEq, Repr

/-- On whose behalf an address is translated: the address space, the core whose aperture the address may name, the die,
and whether the core's L1 TLB is used. -/
structure View where
  space : Space
  core : Option Nat
  die : Nat
  l1 : Bool
  deriving DecidableEq, Repr

/-- The core whose L1 TLB serves the view. -/
def View.l1core (v : View) : Option Nat := if v.l1 then v.core else none

/-- A context's own view. -/
def State.view (s : State) (c : Nat) : View := ⟨(s.ctx c).region.space, some (coreOf c), dieOf c, true⟩
/-- The view of a package block on the bridge die, and of a die's engine or ingress port, in a region's address space. -/
def packageView (sp : Space) : View := ⟨sp, none, 0, false⟩
def dieView (sp : Space) (d : Nat) : View := ⟨sp, none, d, false⟩

/-- The view of an engine or of tile fetch that works for a context: its aperture, but only the last-level TLB (R305). -/
def engineView (sp : Space) (c : Nat) : View := ⟨sp, some (coreOf c), dieOf c, false⟩

/-! ### Entries -/

def pteValid (p : Word) : Bool := p.getLsbD 0
def pteLeaf (p : Word) : Bool := p.getLsbD 1
def pteKind (p : Word) : Nat := bitsAt p.toNat 8 2
def pteCnt (p : Word) : Bool := p.getLsbD 5
def pteKey (p : Word) : Nat := bitsAt p.toNat 56 8
/-- Physical bits [51:16] of an entry, as an address. -/
def pteAddr (p : Word) : Nat := bitsAt p.toNat 16 36 * 2 ^ 16

/-- log2 of the page size of a leaf at a level. -/
def pageShift : Nat → Nat | 1 => 42 | 2 => 29 | _ => 16

/-- Whether a page lies wholly in HBM4E or in vault direct space (R302). -/
def pageCountable (s : State) (pa size : Nat) : Bool :=
  match locOf pa, locOf (pa + size - 1) with
  | .hbm d o, .hbm d' o' => d == d' && decide (o < 60 * 2 ^ 30) && decide (o' < 60 * 2 ^ 30)
  | .vault cl o, .vault cl' o' => decide (o < s.directSize cl) && decide (o' < s.directSize cl') &&
    (List.range (cl' - cl)).all (fun i => (s.cluster (cl + i)).slice == 0)
  | _, _ => false

/-- Whether an entry met at a level breaks R302. -/
def pteBad (s : State) (level : Nat) (p : Word) : Bool :=
  let n := p.toNat
  if !pteValid p then true
  else if pteLeaf p then
    level == 0 || bitsAt n 52 4 != 0 || bitsAt n 10 6 != 0 || pteKind p == 3 ||
    (pteKind p == 0 && bitsAt n 16 (pageShift level - 16) != 0) || (pteKind p != 0 && bitsAt n 32 20 != 0) ||
    (pteCnt p && (pteKind p != 0 || !pageCountable s (pteAddr p) (2 ^ pageShift level)))
  else level == 3 || bitsAt n 2 8 != 0 || bitsAt n 10 6 != 0 || bitsAt n 52 12 != 0

/-- The index of an address at a level (R300). -/
def vaIndex (level va : Nat) : Nat :=
  match level with | 0 => bitsAt va 55 2 | 1 => bitsAt va 42 13 | 2 => bitsAt va 29 13 | _ => bitsAt va 16 13

/-- The key of a walk-cache entry: the table of `level` that covers an address. -/
def walkKey (level va : Nat) : Nat :=
  level + 4 * (va / 2 ^ (match level with | 1 => 55 | 2 => 42 | _ => 29))

/-- The walk from a table at a level: the leaf found, with the tables it passed. Recursion is on the levels left. -/
def walkFrom (s : State) (asid : BitVec 16) (va : Nat) : Nat → Nat → Nat → List (Nat × Word) →
    Option (TlbEntry × List (Nat × Word))
  | 0, _, _, _ => none
  | fuel + 1, level, table, seen =>
    let at_ := table + 8 * vaIndex level va
    let p : Word := BitVec.ofNat 64 (s.readNat at_ 8)
    if pteBad s level p then none
    else if pteLeaf p then
      some (⟨asid, va / 2 ^ pageShift level * 2 ^ pageShift level, level, p, at_⟩, seen)
    else walkFrom s asid va fuel (level + 1) (pteAddr p) (seen ++ [(walkKey (level + 1) va, BitVec.ofNat 64 (pteAddr p))])

/-- A walk in an address space, from the deepest table that the die's walk cache holds (R305). -/
def walk (s : State) (v : View) (va : Nat) : Option (TlbEntry × List (Nat × Word)) :=
  let asid := v.space.asid
  let cached := fun (l : Nat) =>
    ((s.die v.die).walks.find? (fun (a, k, _) => a == asid && k == walkKey l va)).map (fun (_, _, t) => t.toNat)
  match cached 3, cached 2, cached 1 with
  | some t, _, _ => walkFrom s asid va 1 3 t []
  | none, some t, _ => walkFrom s asid va 2 2 t []
  | none, none, some t => walkFrom s asid va 3 1 t []
  | none, none, none => walkFrom s asid va 4 0 (v.space.root.toNat / 64 * 64) []

/-- Whether a TLB entry translates an address. -/
def TlbEntry.covers (e : TlbEntry) (asid : BitVec 16) (va : Nat) : Bool :=
  e.asid == asid && decide (e.base ≤ va) && decide (va < e.base + 2 ^ pageShift e.level)

/-- Put an entry into a cache of `cap` entries; a full cache loses an entry of free choice. -/
def cachePut {α : Type} (cap idx : Nat) (l : List α) (e : α) : List α :=
  if l.length < cap then e :: l else e :: l.eraseIdx (Config.tlbVictim idx % cap)

/-- Install a walk's results: last-level TLB and walk cache of the die, L1 TLB of the core. -/
def installWalk (s : State) (v : View) (e : TlbEntry) (seen : List (Nat × Word)) : State :=
  let asid := v.space.asid
  let drop := fun (l : List TlbEntry) => l.filter (fun x => !(x.asid == asid && x.base == e.base && x.level == e.level))
  let s := s.updDie v.die (fun d => { d with
    tlb := cachePut 8192 s.freeIdx (drop d.tlb) e
    walks := seen.foldl (fun w (k, t) => cachePut 512 s.freeIdx (w.filter (fun (a, j, _) => !(a == asid && j == k)))
      (asid, k, t)) d.walks })
  let s := match v.l1core with
    | some k => s.updCore k (fun x => { x with l1tlb := cachePut 256 s.freeIdx (drop x.l1tlb) e })
    | none => s
  { s with freeIdx := s.freeIdx + 1 }

/-- The atomic OR of accessed or dirty into an entry at its home (R304): not a store, so nothing else of R249 follows. Live shadows
there are rounded out first (R47). -/
def orEntry (s : State) (pa bits : Nat) : State :=
  let s := if s.redShadow.isEmpty then s else s.flushShadows pa 8
  { s with mem := putBytes s.mem pa (leBytes 8 (Nat.lor (s.peek pa 8) bits)) }

/-- Walk afresh and install; sets accessed in the entry (R301). None when the walk raises the translation fault. -/
def walkInstall (s : State) (v : View) (va : Nat) : Option (TlbEntry × State) :=
  (walk s v va).map fun (e, seen) =>
    let s := if e.pte.getLsbD 6 then s else orEntry s e.pteAddr 0x40
    let e := { e with pte := e.pte ||| 0x40 }
    (e, installWalk s v e seen)

/-- Whether a view reaches a physical byte (R296): the management space only under the management ASID (R295). -/
def State.reaches (s : State) (v : View) (pa : Nat) : Bool :=
  match mgmtOff pa with
  | some o => decide (o < mgmtTop) && v.space.asid == s.mgmtSpace.asid
  | none => s.populated pa

/-- The key and permission checks of R303 on a leaf, with R247, R249 and R296: the cause of the first that fails. -/
def leafCheck (s : State) (v : View) (e : TlbEntry) (va : Nat) (acc : Acc) : Option (BitVec 8) :=
  let p := e.pte
  let pa := pteAddr p + va % 2 ^ pageShift e.level
  if pteKey p != 0 && pteKey p != bitsAt v.space.key.toNat 0 8 then some 0x06
  else
    let rd := p.getLsbD 2
    let wr := p.getLsbD 3
    let ok := match acc with
      | .read => rd | .write => wr | .atomic => rd && wr && !pteCnt p | .fetch => p.getLsbD 4
      | .counterRead => rd && pteCnt p | .counterAdd => wr && pteCnt p
    if ok && pteKind p == 0 && s.reaches v pa then none else some 0x05

/-- Mark the entry dirty at the first write through it (R301, R304), in memory and in the caches that hold it. -/
def markDirty (s : State) (v : View) (e : TlbEntry) : State :=
  if e.pte.getLsbD 7 then s else
  let s := orEntry s e.pteAddr 0x80
  let fix := fun (x : TlbEntry) => if x.asid == e.asid && x.base == e.base && x.level == e.level
    then { x with pte := x.pte ||| 0x80 } else x
  let s := s.updDie v.die (fun d => { d with tlb := d.tlb.map fix })
  match v.l1core with
  | some k => s.updCore k (fun x => { x with l1tlb := x.l1tlb.map fix })
  | none => s

/-- The cached entry for an address, L1 TLB first. -/
def cachedEntry (s : State) (v : View) (va : Nat) : Option TlbEntry :=
  let here := fun (l : List TlbEntry) => l.find? (fun e => e.covers v.space.asid va)
  match v.l1core with
  | some k => (here (s.core k).l1tlb).or (here (s.die v.die).tlb)
  | none => here (s.die v.die).tlb

/-- Whether an access writes. -/
def Acc.writes : Acc → Bool | .write | .atomic | .counterAdd => true | _ => false

/-- Whether the entry that a walk read still stands at its home (R304). -/
def entryStands (s : State) (e : TlbEntry) : Bool := s.readNat e.pteAddr 8 == e.pte.toNat

/-- The page of an address and its checks: the physical address and whether the page is counter-capable, or the cause. A
failure on a cached entry is confirmed by a fresh walk (R305), and an entry that a first write must mark dirty is walked
again when it has changed since its walk (R304). -/
def translatePage (s : State) (v : View) (va : Nat) (acc : Acc) : Except (BitVec 8) (Nat × Bool × State) :=
  let finish := fun (e : TlbEntry) (s : State) =>
    let s := if acc.writes then markDirty s v e else s
    Except.ok (pteAddr e.pte + va % 2 ^ pageShift e.level, pteCnt e.pte, s)
  let fresh := fun (_ : Unit) => match walkInstall s v va with
    | none => Except.error 0x04
    | some (e, s') => match leafCheck s' v e va acc with
      | some c => Except.error c
      | none => finish e s'
  match cachedEntry s v va with
  | some e =>
    if (leafCheck s v e va acc).isNone && (!acc.writes || e.pte.getLsbD 7 || entryStands s e) then finish e s else fresh ()
  | none => fresh ()

/-- The fresh walk that has confirmed a fault replaces what the caches hold for the address; a walk that itself faults leaves
nothing there (R305). -/
def confirmWalk (s : State) (v : View) (cause : BitVec 8) (va : Nat) : State :=
  if (cause == 0x04 || cause == 0x05 || cause == 0x06) && (cachedEntry s v va).isSome then
    let out := fun (l : List TlbEntry) => l.filter (fun e => !e.covers v.space.asid va)
    let s := s.updDie v.die (fun d => { d with tlb := out d.tlb })
    let s := match v.l1core with
      | some k => s.updCore k (fun x => { x with l1tlb := out x.l1tlb })
      | none => s
    match walkInstall s v va with
    | some (_, s) => s
    | none => s
  else s

/-! ### The local aperture and whole ranges -/

/-- The local aperture's base (R177) and the end of the virtual space. -/
def apertureBase : Nat := 0x01FFFFFFFFF00000
def vaTop : Nat := 2 ^ 57

/-- Translate one byte address of a context (R177 to R179) or of another party: cause or (pa, cnt, state). The aperture
is no counter space (R247); its accesses must miss the spill reserve (R285). -/
def translate (s : State) (v : View) (va : Nat) (acc : Acc) : Except (BitVec 8) (Nat × Bool × State) :=
  if vaTop ≤ va then .error 0x04
  else match v.core with
    | some k =>
      if apertureBase ≤ va then
        let o := va - apertureBase
        match acc with
        | .counterRead | .counterAdd | .fetch => .error 0x05
        | _ => if inReserve s k o then .error 0x05 else .ok (scratchPa k o, false, s)
      else translatePage s v va acc
    | none => if apertureBase ≤ va then .error 0x04 else translatePage s v va acc

/-- One stretch of a translated range, within one 64 KiB page. -/
structure Span where
  pa : Nat
  va : Nat
  len : Nat
  cnt : Bool
  deriving DecidableEq, Repr

/-- Translate [va, va + len) page by page in ascending order: the spans, or the cause and the first offending address. -/
def translateSpans (v : View) (acc : Acc) : Nat → State → Nat → Nat → Except (BitVec 8 × Word) (List Span × State)
  | 0, s, _, _ => .ok ([], s)
  | fuel + 1, s, va, len =>
    if len = 0 then .ok ([], s) else
    match translate s v va acc with
    | .error c => .error (c, BitVec.ofNat 64 va)
    | .ok (pa, cnt, s) =>
      let n := min len (65536 - va % 65536)
      match translateSpans v acc fuel s (va + n) (len - n) with
      | .error e => .error e
      | .ok (rest, s) => .ok (⟨pa, va, n, cnt⟩ :: rest, s)

/-- Translate a range. A range that starts in the aperture and runs past its top faults at its start (R178). -/
def translateRange (s : State) (v : View) (va len : Nat) (acc : Acc) : Except (BitVec 8 × Word) (List Span × State) :=
  if v.core.isSome && apertureBase ≤ va && va < vaTop && vaTop < va + len then .error (0x04, BitVec.ofNat 64 va)
  else translateSpans v acc (len / 65536 + 2) s va len

/-- Read translated spans: the bytes and the state. -/
def readSpans (s : State) : List Span → List Byte × State
  | [] => ([], s)
  | p :: ps =>
    let (b, s) := s.readAt p.pa p.len
    let (bs, s) := readSpans s ps
    (b ++ bs, s)

/-- The first uncorrectable byte of spans: cause and virtual address. -/
def badSpan (s : State) (ps : List Span) : Option (BitVec 8 × Word) :=
  ps.findSome? (fun p => (s.badAt p.pa p.len).map (fun c => (c, BitVec.ofNat 64 (p.va + s.badOffset p.pa p.len))))

/-- Write bytes over translated spans, in ascending order. -/
def writeSpans (s : State) (w : Writer) : List Span → List Byte → State
  | [], _ => s
  | p :: ps, bs => writeSpans (s.storeAt w p.cnt p.pa (bs.take p.len)) w ps (bs.drop p.len)

/-- A read of a range through translation, as a package block, an engine or a port makes it: bytes, or cause and
address, uncorrectable data included. -/
def readVia (s : State) (v : View) (va len : Nat) : Except (BitVec 8 × Word) (List Byte × State) :=
  match translateRange s v va len .read with
  | .error e => .error e
  | .ok (ps, s) => match badSpan s ps with
    | some e => .error e
    | none => .ok (readSpans s ps)

/-- A write of a range through translation. -/
def writeVia (s : State) (v : View) (w : Writer) (va : Nat) (bs : List Byte) : Except (BitVec 8 × Word) State :=
  match translateRange s v va bs.length .write with
  | .error e => .error e
  | .ok (ps, s) => .ok (writeSpans s w ps bs)

/-- The physical address of a counter for an access (R247): misalignment, then translation, key and permission. -/
def translateCounter (s : State) (v : View) (va : Word) (acc : Acc) : Except (BitVec 8 × Word) (Nat × State) :=
  if va.toNat % 8 ≠ 0 then .error (0x03, va)
  else match translate s v va.toNat acc with
    | .error c => .error (c, va)
    | .ok (pa, _, s) => .ok (pa, s)

/-! ### Pages of kinds 01 and 10 -/

/-- The leaf of an address under checks of one's own, for a write or not, a failure on a cached entry being confirmed by a
fresh walk (R304, R305). -/
def leafFor (s : State) (v : View) (va : Nat) (wr : Bool) (check : TlbEntry → Option (BitVec 8)) :
    Except (BitVec 8) (TlbEntry × State) :=
  let mark := fun (e : TlbEntry) (s : State) => if wr then markDirty s v e else s
  let fresh := match walkInstall s v va with
    | none => Except.error 0x04
    | some (e, s) => match check e with
      | some c => Except.error c
      | none => Except.ok (e, mark e s)
  if vaTop ≤ va || apertureBase ≤ va then .error 0x04
  else match cachedEntry s v va with
    | some e => if (check e).isNone && (!wr || e.pte.getLsbD 7 || entryStands s e) then .ok (e, mark e s) else fresh
    | none => fresh

/-- The key and the rights of a leaf of a kind (R301, R303): rd for reads, wr for writes. -/
def kindCheck (v : View) (kind : Nat) (rd wr : Bool) (e : TlbEntry) : Option (BitVec 8) :=
  if pteKey e.pte != 0 && pteKey e.pte != bitsAt v.space.key.toNat 0 8 then some 0x06
  else if pteKind e.pte == kind && (!rd || e.pte.getLsbD 2) && (!wr || e.pte.getLsbD 3) then none else some 0x05

/-- The index that a leaf of kind 01 or 10 holds (R301). -/
def leafIndex (e : TlbEntry) : Nat := bitsAt e.pte.toNat 16 16

end Sys2Proof.Machine
end

