-- ==== Sys2Proof/Machine/Room.lean ====
section
/-! DEFINITION. Budgets (R294, R356, R358) and room: the banks of a core (R84), the images that stand in its offers and in save
areas (R279, R292), and what a start needs of them. -/

namespace Sys2Proof.Machine

/-- The writer of package blocks, the scheduler and the sequence manager. R143 names no kind and no identity for them: kind 01
and identity 0 are this model's (DESIGN CHOICE, log entry 72), as is the race writer (log entry 23). -/
def State.pkgWriter (s : State) : Writer := ⟨1, 0, s.pkg, some (0xFFFF, 0, 4)⟩

/-! ### The contexts and the banks of a core -/

/-- The live contexts of a core. -/
def liveOn (s : State) (k : Nat) : List Nat := (ctxsOf k).filter (fun c => (s.ctx c).run != .dormant)

/-- Its lowest-numbered dormant context, if any. -/
def dormantOn (s : State) (k : Nat) : Option Nat := (ctxsOf k).find? (fun c => (s.ctx c).run == .dormant)

/-- Vector registers in use by the live contexts of a core (R84). -/
def bankUse (s : State) (k : Nat) : Nat :=
  ((ctxsOf k).map (fun c => if (s.ctx c).run = .dormant then 0 else (s.ctx c).vregs.toNat)).sum

/-- Bytes of saved images that stand in a core's offer of registers, or of its spill reserve (R292). -/
def offerUse (s : State) (k : Nat) (reserve : Bool) : Nat :=
  (s.saved.map (fun v => match v.place with
    | .offer j r bs => if j = k && r = reserve then bs.length else 0
    | .memory _ _ _ => 0)).sum

/-- Whether a bank fits beside a core's live contexts and the images in its registers (R84, R292). -/
def bankRoom (s : State) (k bank : Nat) : Bool := decide (512 * (bankUse s k + bank) + offerUse s k false ≤ 512 * 1024)

/-! ### Budgets (R358) -/

/-- The contexts that a region's subtree occupies, saved and parked ones apart (R358). -/
def occupied (s : State) (rcb : Word) : List Nat :=
  (s.ctxs.filter (fun (_, x) => x.run != .dormant && x.region.chain.contains rcb)).map (·.1)

/-- The core budget of a cluster: its cores, less one for each that has become absent (R294). -/
def clusterBudget (s : State) (cl : Nat) : Nat := (coresOf cl).length - ((coresOf cl).filter (fun k => !(s.core k).present)).length

/-- The cores of a cluster on which contexts live. -/
def clusterUse (s : State) (cl : Nat) : List Nat :=
  (((s.ctxs.filter (fun (c, x) => clusterOf c == cl && x.run != .dormant)).map (fun (c, _) => coreOf c))).eraseDups

/-- Whether one more context of a region on a core keeps within every budget above it (R358), and within the core budget of its
cluster (R294). -/
def withinBudget (s : State) (r : Region) (core : Nat) : Bool :=
  let inCluster := clusterUse s (core / 16)
  (inCluster.contains core || decide (inCluster.length + 1 ≤ clusterBudget s (core / 16))) &&
  (r.chain.zip r.budgets).all (fun (rcb, (cores, ctxs, _, _)) =>
    let here := occupied s rcb
    let saved := (s.saved.filter (fun v => v.region.chain.contains rcb)).length
    let used := (here.map coreOf).eraseDups
    decide (here.length + saved + 1 ≤ ctxs) && (used.contains core || decide (used.length + 1 ≤ cores)))

/-- Bytes of the pieces of a combiner entry that wait ahead of their turn in its reorder area (R403). -/
def Comb.reorder (c : Comb) : Nat := ((c.pieces.filter (fun (k, _, _) => c.timed || k != c.folded.length)).map (fun (_, _, b) => b.length)).sum

/-- Bytes of the images of a region's subtree in its vault or HBM save areas (R358). -/
def imageUse (s : State) (rcb : Word) (vault : Bool) : Nat :=
  (s.saved.map (fun v => match v.place with
    | .memory _ len w => if w == vault && v.region.chain.contains rcb then len else 0
    | .offer _ _ _ => 0)).sum

/-- Bytes of vault that a region's subtree uses: crew windows, reorder areas of combiner entries (R403) and images in vault save
areas (R358). -/
def vaultUse (s : State) (rcb : Word) : Nat :=
  (s.clusters.map (fun (_, cl) => (cl.windows.map (fun w =>
    match s.sets.find? (fun t => t.id == w.set) with
    | some t => if t.region.chain.contains rcb then w.bytes else 0
    | none => 0)).sum)).sum +
  (s.dies.map (fun (_, d) => (d.comb.map (fun (_, e) => match e.cmd with
    | some m => if m.region.chain.contains rcb then e.reorder else 0
    | none => 0)).sum)).sum +
  imageUse s rcb true

/-- Whether `n` more bytes of vault, or of HBM, keep within every budget above a region (R290, R358). -/
def bytesInBudget (s : State) (r : Region) (vault : Bool) (n : Nat) : Bool :=
  (r.chain.zip r.budgets).all (fun (rcb, (_, _, v, h)) =>
    if vault then decide (vaultUse s rcb + n ≤ v) else decide (imageUse s rcb false + n ≤ h))

/-! ### Save areas and offers (R279, R292) -/

/-- A free stretch of `n` bytes in a save area: images stand at multiples of 256 and do not meet. -/
def areaSpot (s : State) (r : Region) (base : Word) (size n : Nat) : Option Word :=
  let taken := s.saved.filterMap (fun v => match v.place with
    | .memory va len _ => if v.region.space.asid = r.space.asid then some (va.toNat, len) else none
    | .offer _ _ _ => none)
  let up := fun (x : Nat) => (x + 255) / 256 * 256
  let starts := up base.toNat :: taken.map (fun (a, l) => up (a + l))
  (starts.find? (fun a => decide (base.toNat ≤ a) && decide (a + n ≤ base.toNat + size) &&
    !taken.any (fun (b, l) => overlaps a n b l))).map (BitVec.ofNat 64)

/-- Put an image into one save area of a region; none where it has no room, goes above a budget (R358), or its write faults. -/
def placeInArea (s : State) (r : Region) (vault : Bool) (bs : List Byte) : Option (Place × State) :=
  let (base, size) := if vault then (r.vaultSave, r.vaultSaveSize) else (r.hbmSave, r.hbmSaveSize)
  match if bytesInBudget s r vault bs.length then areaSpot s r base size bs.length else none with
  | none => none
  | some va => match writeVia s (packageView r.space) s.pkgWriter va.toNat bs with
    | .ok s => some (.memory va bs.length vault, s)
    | .error _ => none

/-- Move one image out of an offer: to the vault save area, else to the HBM save area (R279). -/
def moveImage (s : State) (v : Saved) : Option State :=
  match v.place with
  | .memory _ _ _ => some s
  | .offer _ _ bs =>
    let dest := match placeInArea s v.region true bs with
      | some p => some p
      | none => placeInArea s v.region false bs
    dest.map (fun (place, s) => { s with saved := s.saved.map (fun (u : Saved) => if u.id == v.id then { u with place := place } else u) })

/-- Move every image out of an offer of a core; none where one of them has no other place. -/
def moveImages (s : State) (k : Nat) (reserve : Bool) : Option State :=
  (s.saved.filter (fun v => match v.place with
    | .offer j r _ => j == k && r == reserve
    | .memory _ _ _ => false)).foldl (fun (o : Option State) v => o.bind (fun s => moveImage s v)) (some s)

/-- A core with room for a bank beside its live contexts: where images in its register offer stand in the way, the offer is
withdrawn, which first moves them (R84, R292); none where the bank does not fit, or an image has no other place. -/
def roomFor (s : State) (k bank : Nat) : Option State :=
  if bankRoom s k bank then some s
  else if bankUse s k + bank ≤ 1024 then moveImages s k false
  else none

end Sys2Proof.Machine
end

