-- ==== Sys2Proof/Machine/Ops.lean ====
section
/-! DEFINITION. The shared operations over registers, landings, waits, tasks and faults: the meaning monad, the register
files (R64, R92, R93, R103, R104), taking a trap and returning from one (R102, R105 to R109, R142), fault records (R372)
and the end of a task (R135, R265, R363). -/

namespace Sys2Proof.Machine

/-! ### What a slot's part of a bundle can come to -/

/-- Why a slot's part of a bundle does not run: a trap (of the encoding checks, or of the conditions of execution),
enabled floating-point flags with every flag the operation raised and the stream position after its draws (R71), or a wait, with the state that its first
evaluation leaves (R100, R451). -/
inductive Stop
  | trap (enc : Bool) (cause : BitVec 8) (tval : Word)
  | fp (flags : Nat) (rctr : BitVec 128)
  | held (s : State)

/-- A meaning: a change of state that may stop. -/
abbrev M := StateT State (Except Stop)

/-- The condition of execution fails with this cause and detail. -/
def condTrap {α : Type} (cause : BitVec 8) (tval : Word) : M α := throw (.trap false cause tval)

/-- The illegal-encoding trap of the slot word being executed, as a condition of execution. -/
def illegal {α : Type} : M α := do
  let s ← get
  throw (.trap false 0x01 (BitVec.ofNat 64 s.issue.word))

/-- The illegal-encoding trap of the slot word, as one of the checks of R71 step 2. -/
def illegalWord {α : Type} : M α := do
  let s ← get
  throw (.trap true 0x01 (BitVec.ofNat 64 s.issue.word))

/-- Trap unless the condition holds. -/
def need (b : Bool) (cause : BitVec 8) (tval : Word) : M Unit := if b then pure () else condTrap cause tval
def needWord (b : Bool) : M Unit := if b then pure () else illegalWord
def needLegal (b : Bool) : M Unit := if b then pure () else illegal

/-- Lift a failing operation whose error is a cause and a detail. -/
def liftTrap {α : Type} (r : Except (BitVec 8 × Word) α) : M α :=
  match r with
  | .ok a => pure a
  | .error (c, t) => condTrap c t

/-! ### Registers -/

/-- File codes (R64), with 8 for predicates. -/
def fA : Nat := 0
def fB : Nat := 1
def fV : Nat := 2
def fW : Nat := 3
def fP : Nat := 4
def fK : Nat := 5
def fX : Nat := 6
def fY : Nat := 7
def fG : Nat := 8

namespace Ctx

/-- A register as a 2048-bit value, zeros above its width. -/
def reg (x : Ctx) (file idx : Nat) : VecReg :=
  match file with
  | 0 => (Map.get 0 x.a idx).setWidth 2048
  | 1 => (Map.get 0 x.b idx).setWidth 2048
  | 2 => Map.get 0 x.v idx
  | 3 => Map.get 0 x.w idx
  | 4 => (Map.get 0 x.p idx).setWidth 2048
  | 5 => (Map.get 0 x.k idx).setWidth 2048
  | 6 => (Map.get 0 x.x idx).setWidth 2048
  | 7 => (Map.get 0 x.y idx).setWidth 2048
  | _ => if x.g.getLsbD idx then 1 else 0

/-- A scalar register. -/
def scalar (x : Ctx) (file idx : Nat) : Word := (x.reg file idx).setWidth 64
def kReg (x : Ctx) (i : BitVec 5) : Word := Map.get 0 x.k i.toNat
def pReg (x : Ctx) (i : BitVec 5) : Word := Map.get 0 x.p i.toNat
def maskReg (x : Ctx) (file idx : Nat) : MaskReg := (x.reg file idx).setWidth 256
def pred (x : Ctx) (i : Nat) : Bool := x.g.getLsbD i

/-- Put a value into a register file. -/
def putReg (x : Ctx) (file idx : Nat) (v : VecReg) : Ctx :=
  match file with
  | 0 => { x with a := Map.set 0 x.a idx (v.setWidth 64) }
  | 1 => { x with b := Map.set 0 x.b idx (v.setWidth 64) }
  | 2 => { x with v := Map.set 0 x.v idx v }
  | 3 => { x with w := Map.set 0 x.w idx v }
  | 4 => { x with p := Map.set 0 x.p idx (v.setWidth 64) }
  | 5 => { x with k := Map.set 0 x.k idx (v.setWidth 64) }
  | 6 => { x with x := Map.set 0 x.x idx (v.setWidth 256) }
  | 7 => { x with y := Map.set 0 x.y idx (v.setWidth 256) }
  | _ => { x with g := if v.getLsbD 0 then x.g ||| BitVec.ofNat 8 (2 ^ idx) else x.g &&& ~~~(BitVec.ofNat 8 (2 ^ idx)) }

/-- The key of a register in `lastSeq`. -/
def regKey (file idx : Nat) : Nat := file * 1024 + idx

/-- Whether a register holds a value that stands against a result of order `seq`, of variable latency or not. A result of an
earlier bundle always gives way (R72, R93). Within one bundle a fixed-latency result gives way only to a later slot's result
of variable latency, since results of fixed latency that land in different context cycles land in that order (R92). -/
def superseded (x : Ctx) (seq file idx : Nat) (var : Bool) : Bool :=
  let last := Map.get 0 x.lastSeq (regKey file idx)
  let order := last / 2
  if var then decide (seq < order) else decide (seq / 8 < order / 8) || (seq / 8 == order / 8 && last % 2 == 1 && decide (seq < order))

/-- A write of a whole register by the instruction of order `seq`: discarded when a later-issued instruction has written
it (R72, R93), else it clears the register's error and its tag (R103, R104). `bad` marks a value with an uncorrectable word,
`tag` the tag that comes with the value, `var` a result of variable latency. -/
def writeReg (x : Ctx) (seq file idx : Nat) (v : VecReg) (bad : Bool) (tag : Option (BitVec 8 × Word)) (var : Bool := false) : Ctx :=
  if x.superseded seq file idx var then x
  else
    let x := x.putReg file idx v
    let tags := x.tags.filter (fun t => !(t.file == file && t.idx == idx))
    let bads := x.badRegs.filter (fun r => !(r.1 == file && r.2 == idx))
    { x with
      lastSeq := Map.set 0 x.lastSeq (regKey file idx) (2 * seq + b2n var)
      tags := match tag with | some (c, a) => tags ++ [⟨file, idx, c, a⟩] | none => tags
      badRegs := if bad then bads ++ [(file, idx)] else bads }

/-- Write several registers of one result of variable latency. -/
def writeRegs (x : Ctx) (seq : Nat) (tag : Option (BitVec 8 × Word)) : List (Nat × Nat) → List VecReg → Ctx
  | (f, i) :: ds, v :: vs => (x.writeReg seq f i v false tag true).writeRegs seq tag ds vs
  | _, _ => x

/-- The counts of the landing list fall by one in a context cycle (R92): entries issued at order `cur` or later do not
count. -/
def countDown (x : Ctx) (cur : Nat) : Ctx :=
  { x with landing := x.landing.map (fun l => if l.seq < cur then { l with count := l.count - 1 } else l) }

/-- The entries whose count is zero are written to their destinations, in order (R92, R72). -/
def landZero (x : Ctx) : Ctx :=
  (x.landing.filter (fun l => l.count == 0)).foldl (fun x l => x.writeReg l.seq l.file l.idx l.val l.err l.tag)
    { x with landing := x.landing.filter (fun l => l.count != 0) }

/-- One context cycle of the landing list. -/
def tick (x : Ctx) (cur : Nat) : Ctx := (x.countDown cur).landZero

/-- Privilege, compat and the enables of sys.mode (R87). -/
def priv (x : Ctx) : Bool := x.mode.getLsbD 11
def compat (x : Ctx) : Bool := x.mode.getLsbD 3
def enables (x : Ctx) : Nat := bitsAt x.mode.toNat 4 6
def role (x : Ctx) : Nat := bitsAt x.mode.toNat 12 2

def isTrapHandler (x : Ctx) : Bool := match x.task with | .trapHandler _ => true | .remoteHandler _ => true | _ => false

end Ctx

/-- The order number of the slot being executed: bundles in issue order, slots in slot order within one (R72). -/
def Issue.order (i : Issue) : Nat := i.seq * 8 + i.slot

/-- The issuing context. -/
def curCtx : M Ctx := do let s ← get; pure (s.ctx s.issue.ctx)
/-- Change the issuing context. -/
def modCtx (f : Ctx → Ctx) : M Unit := modify (fun s => s.updCtx s.issue.ctx f)

/-- Land a value on a register after a fixed number of context cycles (R10, R92). -/
def landAt (file idx : Nat) (v : VecReg) (lat : Nat) : M Unit :=
  modify (fun s => s.updCtx s.issue.ctx (fun x =>
    { x with landing := x.landing ++ [{ count := lat, seq := s.issue.order, file := file, idx := idx, val := v }] }))

/-- Schedule what takes place at the end of the bundle. -/
def act (a : EndAct) : M Unit := modify (fun s => { s with issue := { s.issue with acts := s.issue.acts ++ [a] } })

/-- A variable-latency result (R74): pending from now on, and ready with these values and tag when they are known. -/
def pendResult (dests : List (Nat × Nat)) (vals : Option (List VecReg × Option (BitVec 8 × Word))) (lines : Nat := 0) : M Unit :=
  modify (fun s => s.updCtx s.issue.ctx (fun x => { x with pending := x.pending ++ [{
    seq := s.issue.order
    dests := dests
    ready := vals.isSome
    vals := match vals with | some (v, _) => v | none => []
    tag := match vals with | some (_, t) => t | none => none
    lines := lines }] }))

/-- Make a pending result of a context ready. -/
def readyPending (s : State) (c seq : Nat) (vals : List VecReg) (tag : Option (BitVec 8 × Word)) : State :=
  s.updCtx c (fun x => { x with pending := x.pending.map (fun p =>
    if p.seq == seq then { p with ready := true, vals := vals, tag := tag } else p) })

/-- Land a pending result (R93). -/
def landPending (s : State) (c seq : Nat) : State :=
  s.updCtx c (fun x => match x.pending.find? (fun p => p.seq == seq && p.ready) with
    | none => x
    | some p => { x with pending := x.pending.filter (fun q => q.seq != seq) }.writeRegs p.seq p.tag p.dests p.vals)

/-- sys.tval of an uncorrectable register (R103). -/
def regTval (file idx : Nat) : Word := BitVec.ofNat 64 (file * 4096 + idx)

/-- The error, if any, that a read of a register meets: the register error of R103 or the tag of R104. -/
def Ctx.regError (x : Ctx) (file idx : Nat) : Option (BitVec 8 × Word) :=
  if x.badRegs.contains (file, idx) then some (0x08, regTval file idx)
  else (x.tags.find? (fun t => t.file == file && t.idx == idx)).map (fun t => (t.cause, t.addr))

/-- Read a register as it stood before the bundle (R90). -/
def readReg (file idx : Nat) : M VecReg := do
  let x ← curCtx
  match x.regError file idx with
  | some (c, t) => condTrap c t
  | none => pure (x.reg file idx)

def readScalar (file idx : Nat) : M Word := do return (← readReg file idx).setWidth 64
def readK (i : BitVec 5) : M Word := readScalar fK i.toNat
def readP (i : BitVec 5) : M Word := readScalar fP i.toNat

/-- The vector of a queue head, as it stood at issue (R54, R205). -/
def readHead (q : BitVec 3) : M VecReg := do
  let s ← get
  let h := Map.get {} (s.ctx s.issue.ctx).heads q.toNat
  match h.cond with
  | .closed => illegal
  | .empty => throw (.held s)
  | .holding =>
    match h.fault with
    | some (c, t) => condTrap c t
    | none => if h.latchErr then condTrap 0x08 (BitVec.ofNat 64 (Config.headErrorTval q.toNat)) else pure h.latch

/-! ### Tiles -/

/-- A freed tile keeps its sticky status bits (R216, R234). -/
def Tile.freed (t : Tile) : Tile := { sat := t.sat, inv := t.inv }

/-- Free the tiles of a mask, and clear their status and the affine bits and horizon words of their pairs (R214). -/
def freeTiles (s : State) (k : Nat) (mask : BitVec 8) : State :=
  if mask = 0 then s else
  s.updCore k (fun x =>
    let ts := (List.range 8).filter (fun t => mask.getLsbD t)
    let pairs := ts.map (· / 2)
    let am := pairs.foldl (fun m p => m &&& ~~~(BitVec.ofNat 4 (2 ^ p))) 0xF
    { x with
      tiles := ts.foldl (fun m t => Map.erase m t) x.tiles
      affine := x.affine &&& am
      affineIssue := x.affineIssue &&& am
      horizon := pairs.foldl (fun m p => Map.erase m p) x.horizon })

/-! ### Waiting -/

/-- Drop a context's monitor entry and its place in sweep wait; the next sweep waiter takes an entry that frees (R260). -/
def unwait (s : State) (c : Nat) : State :=
  let s := s.updCore (coreOf c) (fun x =>
    let mine := fun (m : MonEntry) => m.task.isNone && m.ctx == c
    let mon := x.monitor.filter (fun m => !mine m)
    let sw := x.sweep.filter (fun m => !mine m)
    let room := 64 - mon.length
    { x with monitor := mon ++ sw.take room, sweep := sw.drop room })
  s.updCtx c (fun x => { x with wait := none })

/-- Block a context on a counter: a monitor entry, or sweep wait when the table is full (R259, R260). -/
def waitOn (s : State) (e : MonEntry) : State :=
  let s := s.updCore (coreOf e.ctx) (fun x =>
    if (x.monitor ++ x.sweep).any (fun m => m.task.isNone && m.ctx == e.ctx) then x
    else if x.monitor.length < 64 then { x with monitor := x.monitor ++ [e] } else { x with sweep := x.sweep ++ [e] })
  s.updCtx e.ctx (fun x => { x with run := .blocked, wait := some .counter })

/-- Block a context for a reason that every clock cycle evaluates anew. -/
def waitRetry (s : State) (c : Nat) (w : Wait) : State := s.updCtx c (fun x => { x with run := .blocked, wait := some w })

/-- A blocked context becomes ready. -/
def wake (s : State) (c : Nat) : State := (unwait s c).updCtx c (fun x => { x with run := .ready })

/-! ### Counters on behalf of the package -/

/-- An add by the package to a counter of an address space; the cause and address when it is not applied. -/
def addVia (s : State) (v : View) (w : Writer) (va : Word) (amount : Nat) (err : Option (BitVec 8))
    (rel : Option (BitVec 16 × BitVec 16)) : Except (BitVec 8 × Word) State :=
  match translateCounter s v va .counterAdd with
  | .error e => .error e
  | .ok (pa, s) => match s.counterAdd w pa amount err rel with
    | .ok s => .ok s
    | .error f => .error (f.cause, va)

/-- A read of a counter in a view: its physical address and its value (R247, R275). -/
def counterAt (s : State) (v : View) (va : Word) : Except (BitVec 8 × Word) (Nat × Nat × State) :=
  match translateCounter s v va .counterRead with
  | .error e => .error e
  | .ok (pa, s) => match s.counterBad pa with
    | some c => .error (c, va)
    | none =>
      let (bs, s) := s.readBytes pa 8
      .ok (pa, leNat bs, s)

/-- The value of a counter of an address space. -/
def counterVia (s : State) (v : View) (va : Word) : Except (BitVec 8 × Word) (Nat × State) :=
  match counterAt s v va with
  | .error e => .error e
  | .ok (_, n, s) => .ok (n, s)

/-! ### Fault records -/

/-- The 32 bytes of a fault record (R372). -/
def faultBytes (s : State) (r : Region) (kind : Nat) (cause : BitVec 8) (ctxid : Nat) (epc tval : Word) : List Byte :=
  leBytes 1 cause.toNat ++ leBytes 1 kind ++ leBytes 2 ctxid ++ leBytes 2 r.domain.toNat ++ leBytes 2 0 ++
    leBytes 8 epc.toNat ++ leBytes 8 tval.toNat ++ leBytes 8 s.dtimeNs

/-- The densitometers count an add of the package that an uncorrectable counter stopped (R277). -/
def countIfBad (s : State) (cause : BitVec 8) : State :=
  if cause == 0x09 || cause == 0x0A || cause == 0x0B || cause == 0x0C then countEvent s .failedAdd else s

/-- Write a fault record into a region's ring and add 1 to its fault counter (R372). A record whose write faults, or whose
slot is unknown because the counter cannot be read, is lost and counted; the add is made all the same. -/
def faultRecord (s : State) (r : Region) (kind : Nat) (cause : BitVec 8) (ctxid : Nat) (epc tval : Word) : State :=
  let v := packageView r.space
  let s := match counterVia s v r.faultCtr with
    | .error _ => countEvent s .recordLost
    | .ok (n, s) =>
      if r.faultSize = 0 then countEvent s .recordLost else
      match writeVia s v s.pkgWriter (r.faultRing.toNat + 32 * (n % r.faultSize)) (faultBytes s r kind cause ctxid epc tval) with
      | .ok s => s
      | .error _ => countEvent s .recordLost
  match addVia s v s.pkgWriter r.faultCtr 1 none (some (0, 0)) with
  | .ok s => s
  | .error (c, t) => confirmWalk (countIfBad s c) v c t.toNat

/-- An add by the package on behalf of a region, translated in a view; one that is not applied gives a fault record of kind 2
(R277), its fault confirmed by a fresh walk (R305). -/
def packageAddIn (s : State) (v : View) (r : Region) (va : Word) (amount : Nat) (err : Option (BitVec 8))
    (rel : Option (BitVec 16 × BitVec 16)) : State :=
  match addVia s v s.pkgWriter va amount err rel with
  | .ok s => s
  | .error (c, t) => faultRecord (confirmWalk (countIfBad s c) v c t.toNat) r 2 c 0 0 t

/-- An add by the package in a region's own address space. -/
def packageAdd (s : State) (r : Region) (va : Word) (amount : Nat) (err : Option (BitVec 8))
    (rel : Option (BitVec 16 × BitVec 16)) : State := packageAddIn s (packageView r.space) r va amount err rel

/-! ### Outside traps -/

/-- Deliver a trap from outside the instruction stream to the task it belongs to: the context that runs it, its saved
image, or, when the task has ended, its region's fault domain (R105, R272). -/
def outsideTrap (s : State) (tid : Nat) (r : Region) (kind : Nat) (cause : BitVec 8) (tval : Word) : State :=
  match List.find? (fun ((_, x) : Nat × Ctx) => x.tid == tid && x.run != .dormant && !x.ended) s.ctxs with
  | some (c, _) => s.updCtx c (fun x => { x with outside := x.outside ++ [⟨cause, tval⟩] })
  | none =>
    if s.saved.any (fun v => v.tid == tid) then
      { s with saved := s.saved.map (fun v => if v.tid == tid then { v with outside := v.outside ++ [⟨cause, tval⟩] } else v) }
    else faultRecord s r kind cause 0 0 tval

/-- Reports of watch hits on their way to a context reach it (R322); those that fire the shutter go on their way. -/
def deliverHits (s : State) (c : Nat) : State :=
  let mine := s.watchHits.filter (fun h => h.owner == c && !h.shut)
  let s := { s with watchHits := s.watchHits.filter (fun h => h.shut || h.owner != c) }
  s.updCtx c (fun x => { x with outside := x.outside ++ mine.map (fun h => ⟨0x10, h.tval⟩) })

/-! ### The end of a task -/

/-- A task of a set retires (R363): the last one makes the completion add, with the release of its END if it ended, and with
the error bit and the cause of the first fault if any task faulted. -/
def retireInSet (s : State) (id : Nat) (fault : Option (BitVec 8)) (rel : Option (BitVec 16 × BitVec 16)) : State :=
  match s.sets.find? (fun t => t.id == id) with
  | none => s
  | some t =>
    let t := { t with retired := t.retired + 1, fault := t.fault.or fault }
    if t.retired < t.pkt.tasks then { s with sets := s.sets.map (fun u => if u.id == id then t else u) }
    else
      let s := { s with sets := s.sets.filter (fun u => u.id != id) }
      if t.pkt.done = 0 then s
      else packageAdd s t.region t.pkt.done t.pkt.inc t.fault rel

/-- A member of a crew leaves its window, which is freed when the last member has retired (R290). -/
def leaveWindow (s : State) (core : Nat) (task : TaskKind) : State :=
  match task with
  | .taskSet set _ crew => s.updCluster (core / 16) (fun cl =>
    let ws := cl.windows.map (fun w => if w.set == set && w.crew == crew then { w with live := w.live - 1 } else w)
    { cl with windows := ws.filter (fun w => w.live != 0) })
  | _ => s

/-- A context gives up its place among the messages that wait for an inbox slot (R287). -/
def leaveInbox (s : State) (c : Nat) : State :=
  s.cores.foldl (fun s (k, x) => if x.inboxQueue.contains c then
    s.updCore k (fun x => { x with inboxQueue := x.inboxQueue.filter (· != c) }) else s) s

/-- The accounting of a task that faults (R265, R363), its context apart: record, of kind 0 for a forked task whatever the
origin, join or completion add, inbox slot. -/
def faultTask (s : State) (core : Nat) (task : TaskKind) (r : Region) (kind : Nat) (cause : BitVec 8) (ctxid : Nat)
    (epc tval : Word) : State :=
  let s := faultRecord s r (match task with | .forked _ _ => 0 | _ => kind) cause ctxid epc tval
  match task with
  | .taskSet id _ _ => retireInSet s id (some cause) none
  | .forked join _ => if join = 0 then s else packageAdd s r join 1 (some cause) none
  | .message slot => s.updCore core (fun x => { x with inboxUsed := x.inboxUsed.filter (· != slot) })
  | _ => s

/-- The cleared state of a context that a fill or a handler start begins with (R101, R102): only the numbers that order
its results go on. A context that has not issued since ranks as least recently issued: R96 does not say where it ranks, and
lastIssue 0 is this model's (DESIGN CHOICE, log entry 72). -/
def Ctx.cleared (x : Ctx) (tid : Nat) : Ctx := { seq := x.seq, tid := tid }

/-- A handler context (R102): cleared, ready at its entry, a 64-register bank, role handler, no tiles. -/
def handlerCtx (x : Ctx) (tid : Nat) (r : Region) (task : TaskKind) (priv : Bool) (pc : Word) (args : List Word) : Ctx :=
  { x.cleared tid with
    run := .ready
    pc := pc
    vregs := 64
    mode := if priv then 0x3800 else 0x3000
    region := r
    task := task
    a := (args.zipIdx).foldl (fun m (v, i) => Map.set 0 m i v) [] }

/-- Whether a frozen context has no handler on its core. -/
def needsHandler (s : State) (c : Nat) : Bool :=
  (s.ctx c).run == .frozen && !(s.ctx c).isTrapHandler &&
    !(ctxsOf (coreOf c)).any (fun h => (s.ctx h).run != .dormant && (s.ctx h).task == .trapHandler c)

/-- A trap starts a trap-handler context on the same core, when one is dormant, its bank fits and no budget forbids it (R107, R292,
R358). Otherwise the frozen context goes on needing a handler, until CONTEXT_SAVE frees a context for it or the budget allows it. -/
def startTrapHandler (s : State) (c : Nat) : State :=
  let k := coreOf c
  match dormantOn s k, roomFor s k 64 with
  | some h, some t =>
    if !withinBudget s (s.ctx c).region k then s
    else
      let x := t.ctx c
      { t.updCtx h (fun o => handlerCtx o t.nextId x.region (.trapHandler c) true x.region.trapEntry
          [BitVec.ofNat 64 (c % 4), x.cause, x.epc, x.tval, x.npc]) with nextId := t.nextId + 1 }
  | _, _ => s

/-- Start the handlers that frozen contexts of a core still need. -/
def startNeeded (s : State) (k : Nat) : State :=
  (ctxsOf k).foldl (fun s c => if needsHandler s c then startTrapHandler s c else s) s

/-- What a context has posted goes on without it: its accesses are performed though it is dormant, saved no state, or reused. -/
def loosen (s : State) (c : Nat) : State :=
  let x := s.ctx c
  if x.posted.isEmpty then s else
  { s with loose := s.loose ++ x.posted.map (fun p => { ctx := c, tid := x.tid, region := x.region, acq := x.acq, posted := p }) }

/-- A context becomes dormant: it leaves its waits, its watch entries and its tiles, and holds no state of value (R99); what it
has posted is performed all the same. Operations still in the matrix engines, which only a task that faults leaves there, are given up
with its tiles: R214 and R215 do not say what becomes of them (DESIGN CHOICE, log entry 83). -/
def becomeDormant (s : State) (c : Nat) : State :=
  let s := loosen (leaveInbox (unwait (deliverHits s c) c) c) c
  let s := leaveWindow s (coreOf c) (s.ctx c).task
  let s := freeTiles s (coreOf c) (s.ctx c).tmask
  let s := s.updCore (coreOf c) (fun x => { x with
    watch := x.watch.filter (fun (_, e) => e.owner != c)
    tq0 := x.tq0.filter (fun o => o.tid != (s.ctx c).tid)
    tq1 := x.tq1.filter (fun o => o.tid != (s.ctx c).tid)
    held0 := x.held0.filter (fun o => o.tid != (s.ctx c).tid)
    held1 := x.held1.filter (fun o => o.tid != (s.ctx c).tid)
    inboxUsed := match (s.ctx c).task with | .message j => x.inboxUsed.filter (· != j) | _ => x.inboxUsed })
  startNeeded (s.updCtx c (fun x => x.cleared 0)) (coreOf c)

/-- A task faults in its domain and its context becomes dormant. -/
def faultContext (s : State) (c kind : Nat) (cause : BitVec 8) : State :=
  let x := s.ctx c
  becomeDormant (faultTask s (coreOf c) x.task x.region kind cause c x.epc x.tval) c

/-- Drop the held tiles of the saved task `id`, and the operations of its task that are held with them (R237). -/
def dropHeldTiles (s : State) (k id tid : Nat) : State :=
  match (s.core k).heldTiles.find? (fun x => x.1 == id) with
  | none => s
  | some (_, mask) => (freeTiles s k mask).updCore k (fun x => { x with
      heldTiles := x.heldTiles.filter (fun y => y.1 != id)
      held0 := x.held0.filter (fun o => o.tid != tid)
      held1 := x.held1.filter (fun o => o.tid != tid) })

/-- A saved task faults in its domain; its image and its held tiles are given up. -/
def faultSaved (s : State) (v : Saved) (kind : Nat) (cause : BitVec 8) : State :=
  let s := { s with saved := s.saved.filter (fun u => u.id != v.id) }
  let s := faultTask s v.core v.task v.region kind cause 0 v.epc v.tval
  dropHeldTiles (leaveWindow s v.core v.task) v.core v.id v.tid

/-! ### Taking a trap and returning from one -/

/-- Freeze a context: cause, detail and the address of the bundle to resume at are recorded, the resume link and the
remaining stall are kept (R105, R132). -/
def Ctx.freeze (x : Ctx) (cause : BitVec 8) (tval epc : Word) : Ctx :=
  { x with run := .frozen, cause := cause.setWidth 64, tval := tval, epc := epc, pc := epc }

/-- A trap reaches a context (R105, R107). In a trap handler it ends the handler and the task it serves (R109); in a
region without a trap handler it faults the task. -/
def takeTrap (s : State) (c : Nat) (cause : BitVec 8) (tval epc : Word) : State :=
  let s := if s.shutter.causes.contains cause then fireShutter s .cause 0 none else s
  let s := leaveInbox (unwait s c) c
  let s := s.updCtx c (fun x => x.freeze cause tval epc)
  match (s.ctx c).task with
  | .trapHandler f =>
    let s := faultContext s f 0 ((s.ctx f).cause.setWidth 8)
    faultContext s c 0 cause
  | .remoteHandler id =>
    let s := match s.saved.find? (fun v => v.id == id) with
      | some v => faultSaved s v 0 v.cause
      | none => s
    faultContext s c 0 cause
  | _ =>
    if (s.ctx c).region.trapEntry = 0 then faultContext s c 0 cause
    else startTrapHandler s c

/-- A head whose pending fault a resume lets its channel meet afresh (R205). -/
def Head.refetch (h : Head) : Head :=
  if h.cond == .holding && h.fault.isSome then
    { h with
      cond := .empty
      fault := none
      next := h.pos
      ahead := []
      aheadFault := none }
  else { h with aheadFault := none }

/-- After ERET the lathe channels fetch their faulted points again (R205). -/
def Ctx.refetch (x : Ctx) : Ctx := { x with heads := x.heads.map (fun (q, h) => (q, h.refetch)) }

/-- The operations held for a context go back to the head of their engines' queues, in order (R228). -/
def replayHeld (s : State) (c : Nat) : State :=
  let tid := (s.ctx c).tid
  s.updCore (coreOf c) (fun x => { x with
    tq0 := x.held0.filter (fun o => o.tid == tid) ++ x.tq0
    tq1 := x.held1.filter (fun o => o.tid == tid) ++ x.tq1
    held0 := x.held0.filter (fun o => o.tid != tid)
    held1 := x.held1.filter (fun o => o.tid != tid) })

/-- ERET resumes the frozen context `f` at sys.epc with its link and stall, or at an address with neither (R108, R142). Held
operations are replayed by the ERET after which no further fault waits to be delivered (R228). -/
def resume (s : State) (f : Nat) (dst : Option Word) : State :=
  if (s.ctx f).run != .frozen then s else
  let s := if (s.ctx f).outside.isEmpty then replayHeld s f else s
  s.updCtx f (fun x =>
    let x := { x.refetch with run := .ready }
    match dst with
    | none => { x with pc := x.epc }
    | some t => { x with
        pc := t
        npc := 0
        stall := 0
        waitAct := false
        heldWords := []
        delay := false
        timedOut := false
        waitStart := 0
        drainSums := [] })

/-- Change bytes of a saved context's image, where it stands. -/
def patchImage (s : State) (id off : Nat) (bs : List Byte) : State :=
  match s.saved.find? (fun v => v.id == id) with
  | none => s
  | some v => match v.place with
    | .offer k r old =>
      let new := old.take off ++ bs ++ old.drop (off + bs.length)
      { s with saved := s.saved.map (fun u => if u.id == id then { u with place := .offer k r new } else u) }
    | .memory va _ _ =>
      match writeVia s (packageView v.region.space) s.pkgWriter (va.toNat + off) bs with
      | .ok s => s
      | .error _ => s

/-- ERET of a handler that serves a saved image: its state byte becomes 0, and ERET.to writes the address and clears the
link and the stall (R110). -/
def eretSaved (s : State) (id : Nat) (dst : Option Word) : State :=
  let s := patchImage s id 0x05 [0]
  let s := match dst with
    | none => s
    | some t => patchImage (patchImage (patchImage (patchImage s id 0x48 (leBytes 8 t.toNat)) id 0x10 (leBytes 8 0)) id 0x58 [0])
        id 0x59 [0]
  { s with saved := s.saved.map (fun v => if v.id != id then v else
      { v with
        frozen := false
        handler := none
        needHandler := false
        epc := dst.getD v.epc
        delay := dst.isNone && v.delay
        heldWords := if dst.isNone then v.heldWords else [] }) }

/-- ERET by the context `h` (R142): the task it serves resumes, here or in its saved image, and `h` becomes dormant. -/
def eretFrom (s : State) (h : Nat) (dst : Option Word) : State :=
  match (s.ctx h).task with
  | .trapHandler f => becomeDormant (resume s f dst) h
  | .remoteHandler id => becomeDormant (eretSaved s id dst) h
  | _ => s

/-! ### Finishing a slot's part of the bundle -/

/-- The lowest set bit's number among six. -/
def lowestFlag (n : Nat) : Nat := ((List.range 6).find? (fun i => bitAt n i)).getD 0

/-- The trap of enabled floating-point flags (R71): every flag of the operations that raised one is kept. -/
def takeFpTrap (s : State) (c : Nat) (flags : Nat) (epc : Word) : State :=
  let en := Nat.land flags (s.ctx c).enables
  let s := s.updCtx c (fun x => { x with fflags := x.fflags ||| BitVec.ofNat 64 flags })
  takeTrap s c (BitVec.ofNat 8 (0x20 + lowestFlag en)) (BitVec.ofNat 64 en) epc

/-- The state in which a slot's part of the bundle stops: its trap taken, or the context waiting. -/
def stopped (s : State) (st : Stop) : State :=
  let c := s.issue.ctx
  let a := s.issue.addr
  match st with
  | .trap enc cause tval =>
    let s := takeTrap (confirmWalk s (s.view c) cause tval.toNat) c cause tval a
    { s with issue := { s.issue with verdict := .trapped enc cause tval } }
  | .fp flags rctr =>
    let s := takeFpTrap s c flags a
    { s with issue := { s.issue with verdict := .fpTrapped (BitVec.ofNat 6 flags) rctr } }
  | .held s => { s with issue := { s.issue with verdict := .held } }

/-- Run a meaning: its own effect, the trap it takes, or its wait. -/
def runSlot (m : M Unit) (s : State) : Host.Outcome State Fault Refusal :=
  match m.run s with
  | .ok (_, s) => .next s
  | .error st => .next (stopped s st)

end Sys2Proof.Machine
end

