-- ==== Sys2Proof/Machine/Operands.lean ====
section
/-! DEFINITION. Every operand form of the S and V slots (R60 to R62, R113, R146), lanes and masks (R63, R148), and the
address forms of the L slot (R187, R208). -/

namespace Sys2Proof.Machine

/-! ### Scalar operands -/

/-- The code of a slot's own scalar file, and of the other one (R60, R121). -/
def SSlot.file : SSlot → Nat | .s0 => fA | .s1 => fB
def SSlot.other : SSlot → Nat | .s0 => fB | .s1 => fA

/-- The header's literal. In a lathe template it is no literal, and naming it is illegal (R208). -/
def headerImm : M (BitVec 32) := do
  let s ← get
  if s.issue.kind = 2 then illegalWord else pure s.issue.imm

/-- opnd of R113. -/
def readS (slot : SSlot) : SOpnd → M Word
  | .reg i => readScalar (SSlot.file slot) i.toNat
  | .head q => do return (← readHead q).setWidth 64
  | .lit v => pure (v.signExtend 64)
  | .immS => do return (← headerImm).signExtend 64
  | .immZ => do return (← headerImm).setWidth 64
  | .immHi => do return (← headerImm).setWidth 64 <<< 32

/-- The destination's own value before the bundle (FMA, BFI). -/
def readDst (slot : SSlot) (i : BitVec 6) : M Word := readScalar (SSlot.file slot) i.toNat

/-- An S-slot result on the slot's own file (R116). -/
def landS (slot : SSlot) (dst : BitVec 6) (v : Word) (lat : Nat) : M Unit :=
  landAt (SSlot.file slot) dst.toNat (v.setWidth 2048) lat

/-- A predicate result. -/
def landG (g : Nat) (b : Bool) (lat : Nat) : M Unit := landAt fG g (if b then 1 else 0) lat

/-- Operand bits of a form with .w: the low 32 or all 64 bits (R114). -/
def opBits (w : Bool) (v : Word) : Nat := if w then v.toNat % 2 ^ 32 else v.toNat
/-- The same bits as a number, signed or with .u unsigned. -/
def opNum (w u : Bool) (v : Word) : Int := if u then (opBits w v : Int) else sextNat (if w then 32 else 64) (opBits w v)
/-- The operation width. -/
def opWidth (w : Bool) : Nat := if w then 32 else 64
/-- The result of a form with .w and .u (R114). -/
def deliver (w u : Bool) (r : Nat) : Word :=
  if w then (if u then (BitVec.ofNat 32 r).setWidth 64 else (BitVec.ofNat 32 r).signExtend 64) else BitVec.ofNat 64 r

/-! ### Lanes -/

/-- Lane `i` of `w`-bit lanes. -/
def laneAt (w : Nat) (v : VecReg) (i : Nat) : Nat := v.toNat / 2 ^ (w * i) % 2 ^ w

/-- The lanes of a register as a list. -/
def toLanes (w n : Nat) (v : VecReg) : List Nat := (List.range n).map (laneAt w v)

/-- The number whose `w`-bit digits, lowest first, are the list's. -/
def packLanes (w : Nat) (l : List Nat) : Nat := l.foldr (fun x acc => acc * 2 ^ w + x % 2 ^ w) 0

def ofLanes (w : Nat) (l : List Nat) : VecReg := BitVec.ofNat 2048 (packLanes w l)

/-- A register with one value in every lane. -/
def splat (w x : Nat) : VecReg := ofLanes w (List.replicate (2048 / w) x)

/-- A list's element, 0 past its end. -/
def at0 (l : List Nat) (i : Nat) : Nat := (l[i]?).getD 0

/-! ### Vector operands -/

def VSlot.file : VSlot → Nat | .v0 => fV | .v1 => fW
def VSlot.other : VSlot → Nat | .v0 => fW | .v1 => fV
def VSlot.maskFile : VSlot → Nat | .v0 => fX | .v1 => fY

/-- A vector register index must lie below sys.vregs (R67). -/
def vecIndex (i : Nat) : M Unit := do
  let x ← curCtx
  needWord (decide (i < x.vregs.toNat))

/-- The splat of bc (R55) or of the header literal (R62) in a type. -/
def bcSplat (ty : ElemTy) (v : Word) : VecReg := splat ty.width (v.toNat % 2 ^ ty.width)
def immSplat (ty : ElemTy) (v : BitVec 32) : VecReg :=
  splat ty.width (match ty with | .i64 => (v.signExtend 64).toNat | _ => v.toNat % 2 ^ ty.width)

/-- A V operand (R146). A bc that the header does not define is illegal (R55). -/
def readV (slot : VSlot) (ty : ElemTy) : VOpnd → M VecReg
  | .reg i => do
    vecIndex i.toNat
    readReg (VSlot.file slot) i.toNat
  | .head q => readHead q
  | .bc => do
    let s ← get
    match s.issue.bc with
    | some v => pure (bcSplat ty v)
    | none => illegalWord
  | .imm => do return immSplat ty (← headerImm)

/-- A mask of the slot's own file. -/
def readMask (slot : VSlot) (i : BitVec 3) : M MaskReg := do return (← readReg (VSlot.maskFile slot) i.toNat).setWidth 256

/-- The active lanes of a write mask (R148). -/
def readActive (slot : VSlot) (m : Option (BitVec 3)) : M (Nat → Bool) :=
  match m with
  | none => pure (fun _ => true)
  | some i => do
    let k ← readMask slot i
    pure (fun l => k.getLsbD l)

/-- A selector mask, which the form requires (R148). -/
def readSelector (slot : VSlot) (m : Option (BitVec 3)) : M (Nat → Bool) :=
  match m with
  | none => illegalWord
  | some _ => readActive slot m

/-- Land a whole vector register. -/
def landV (slot : VSlot) (dst : BitVec 10) (v : VecReg) (lat : Nat) : M Unit := do
  vecIndex dst.toNat
  landAt (VSlot.file slot) dst.toNat v lat

/-- Land lanes under a write mask: an inactive lane keeps the value the destination held at issue (R148, R149). A form
that keeps lanes reads its destination. -/
def landLanes (slot : VSlot) (w : Nat) (m : Option (BitVec 3)) (active : Nat → Bool) (dst : BitVec 10) (l : List Nat)
    (lat : Nat) : M Unit := do
  vecIndex dst.toNat
  match m with
  | none => landAt (VSlot.file slot) dst.toNat (ofLanes w l) lat
  | some _ =>
    let old ← readReg (VSlot.file slot) dst.toNat
    landAt (VSlot.file slot) dst.toNat
      (ofLanes w (l.zipIdx.map (fun (x, i) => if active i then x else laneAt w old i))) lat

/-- A signed or unsigned lane as an integer, by type. -/
def laneInt (ty : ElemTy) (x : Nat) : Int := if ty.signed then sextNat ty.width x else (x : Int)

/-- Number of blocks that N elements draw (R38). -/
def blocks (n : Nat) : Nat := (n + 3) / 4

/-! ### L-slot addresses -/

/-- The increment of a lathe template (R208): t × c with c the counter of the innermost active loop level before the
bundle; 0 for any other bundle. -/
def templateAdd : M Word := do
  let s ← get
  if s.issue.kind = 2 then
    let x := s.ctx s.issue.ctx
    let c := match [3, 2, 1, 0].find? (fun l => Map.get 0 x.k (24 + 2 * l) != 0) with
      | some l => Map.get 0 x.k (24 + 2 * l)
      | none => 0
    pure (s.issue.imm.signExtend 64 * c)
  else pure 0

/-- p[pb] + sext(off), increased in a template. -/
def eaOff (base : BitVec 5) (off : Int) : M Word := do
  let p ← readP base
  let t ← templateAdd
  pure (p + BitVec.ofInt 64 off + t)

/-- The effective address of R187. -/
def eaOf (base : BitVec 5) : LAddr → M Word
  | .off o => eaOff base o
  | .idx pi sh => do
    let p ← readP base
    let i ← readP pi
    let t ← templateAdd
    pure (p + (i <<< sh.toNat) + t)

end Sys2Proof.Machine
end

