-- ==== Sys2Proof/Machine/Transcend.lean ====
section
/-! DEFINITION. The transcendental functions of R123 and R151 as exact values: enclosures between dyadic bounds at rising
working precision, until the bounds agree in their leading 80 bits. The values are irrational wherever they are not
handled exactly first, so a value strictly between two grid points results. -/

namespace Sys2Proof.Machine

/-- An interval of non-negative fixed-point numbers with a common scale. -/
structure Ivl where
  lo : Nat
  hi : Nat
  deriving DecidableEq, Repr

/-- Division rounded up. -/
def cdiv (a b : Nat) : Nat := (a + b - 1) / b

namespace Ivl
/-- The product of two numbers of scale 2^P. -/
def mul (p : Nat) (a b : Ivl) : Ivl := ⟨a.lo * b.lo / 2 ^ p, cdiv (a.hi * b.hi) (2 ^ p)⟩
def add (a b : Ivl) : Ivl := ⟨a.lo + b.lo, a.hi + b.hi⟩
/-- The difference, for a not less than b. -/
def sub (a b : Ivl) : Ivl := ⟨a.lo - b.hi, a.hi - b.lo⟩
def divN (a : Ivl) (n : Nat) : Ivl := ⟨a.lo / n, cdiv a.hi n⟩
/-- The quotient of two numbers of scale 2^P, for b positive. -/
def div (p : Nat) (a b : Ivl) : Ivl := ⟨a.lo * 2 ^ p / b.hi, cdiv (a.hi * 2 ^ p) b.lo⟩
end Ivl

/-- m × 2^e on the scale 2^P. -/
def ivlOf (p m : Nat) (e : Int) : Ivl :=
  let s := e + p
  if 0 ≤ s then ⟨m * 2 ^ s.toNat, m * 2 ^ s.toNat⟩ else ⟨m / 2 ^ (-s).toNat, cdiv m (2 ^ (-s).toNat)⟩

/-- The sum of z^(2k+1) / (2k+1), for `n` terms from index k: atanh of z below 1/2. -/
def atanhTerms (p : Nat) (z2 : Ivl) : Nat → Nat → Ivl → Ivl → Ivl
  | 0, _, _, acc => ⟨acc.lo, acc.hi + 2⟩
  | n + 1, k, t, acc => atanhTerms p z2 n (k + 1) (t.mul p z2) (acc.add (t.divN (2 * k + 1)))

/-- atanh z for 0 ≤ z ≤ 1/3. -/
def atanhI (p : Nat) (z : Ivl) : Ivl := atanhTerms p (z.mul p z) (p / 3 + 2) 0 z ⟨0, 0⟩

/-- ln 2 = 2 atanh(1/3). -/
def ln2I (p : Nat) : Ivl :=
  let t := atanhI p ⟨2 ^ p / 3, cdiv (2 ^ p) 3⟩
  t.add t

/-- Taylor terms of e^z, 0 ≤ z ≤ 1. -/
def expTerms (p : Nat) (z : Ivl) : Nat → Nat → Ivl → Ivl → Ivl
  | 0, _, _, acc => ⟨acc.lo, acc.hi + 2⟩
  | n + 1, k, t, acc => expTerms p z n (k + 1) ((t.mul p z).divN k) (acc.add t)

/-- e^z for 0 ≤ z ≤ 1, between 1 and e, on the scale 2^P. -/
def expI (p : Nat) (z : Ivl) : Ivl := expTerms p z (p / 4 + 16) 1 ⟨2 ^ p, 2 ^ p⟩ ⟨0, 0⟩

/-- e^-y for y = m × 2^e ≥ 0: a factor between 1 and e on the scale 2^P, and the power of two that goes with it. -/
def expNeg (p m : Nat) (e : Int) : Ivl × Int :=
  let y := ivlOf p m e
  let l := ln2I p
  let n := cdiv y.hi l.lo
  (expI p (Ivl.sub ⟨n * l.lo, n * l.hi⟩ y), -(n : Int))

/-- The largest precisions tried, smallest first. -/
def precisions : List Nat := [128, 256, 512, 1024]

/-- The magnitude to 80 bits that an enclosure on the scale 2^(-s) settles, if both bounds agree. -/
def settle1 (s : Int) (x : Ivl) : Option Mag :=
  let l := lg2 x.lo
  if l < 80 then none
  else
    let d := 2 ^ (l - 80)
    if x.lo / d = x.hi / d then some ⟨x.lo / d, ((l : Int) - 80) - s, true⟩ else none

/-- Try the precisions in turn; what none of them settles is left to `Config.roundTie`. -/
def settle (tag : Nat) (f : Nat → Ivl × Int) : List Nat → Mag
  | [] =>
    let (x, s) := f 1024
    let l := lg2 x.lo
    let d := 2 ^ (l - 80)
    ⟨if Config.roundTie tag l then x.hi / d else x.lo / d, ((l : Int) - 80) - s, true⟩
  | p :: ps =>
    let (x, s) := f p
    match settle1 s x with
    | some m => m
    | none => settle tag f ps

/-- A magnitude just above m × 2^e. -/
def justAbove (m : Nat) (e : Int) : Mag := ⟨m * 2 ^ 100, e - 100, true⟩
/-- A magnitude just below m × 2^e. -/
def justBelow (m : Nat) (e : Int) : Mag := ⟨m * 2 ^ 100 - 1, e - 100, true⟩
/-- A magnitude far below every format's smallest subnormal. -/
def negligible : Mag := ⟨2 ^ 100, -2000, true⟩

/-- Whether m × 2^e is below 2^k. -/
def belowPow (m : Nat) (e k : Int) : Bool := m == 0 || decide (e + lg2 m < k)

/-- 2^A (R123). -/
def fExp2 (x : FVal) : FRes :=
  match x with
  | .nan s => .nan (if s then fInvalid else 0)
  | .inf n => if n then .zero false else .inf false 0
  | .num neg m e =>
    if m = 0 then .real false ⟨1, 0, false⟩
    else if !belowPow m e 12 then .real false (if neg then negligible else ⟨1, 5000, false⟩)
    else if e ≥ 0 || m % 2 ^ (-e).toNat = 0 then
      let n : Int := shl2 m e
      .real false ⟨1, if neg then -n else n, false⟩
    else if belowPow m e (-100) then .real false (if neg then justBelow 1 0 else justAbove 1 0)
    else
      -- x = n + f with 0 < f < 1
      let d := 2 ^ (-e).toNat
      let n : Int := if neg then -((m / d + 1 : Nat) : Int) else (m / d : Nat)
      let f := if neg then d - m % d else m % d
      .real false (settle m (fun p => (expI p ((ivlOf p f e).mul p (ln2I p)), (p : Int) - n)) precisions)

/-- log2 A (R123): A = 2^k × y with y from 3/4 to 3/2. -/
def fLog2 (x : FVal) : FRes :=
  match x with
  | .nan s => .nan (if s then fInvalid else 0)
  | .inf n => if n then .nan fInvalid else .inf false 0
  | .num neg m e =>
    if m = 0 then .inf true fDivZero
    else if neg then .nan fInvalid
    else
      let l := lg2 m
      if m = 2 ^ l then (intVal (e + l)).res
      else
        let up := decide (3 * 2 ^ l ≤ 2 * m)
        let k : Int := if up then e + l + 1 else e + l
        let one := if up then 2 ^ (l + 1) else 2 ^ l
        -- |ln y| = 2 atanh(|m - one| / (m + one))
        let num := if up then one - m else m - one
        let f := fun p =>
          let z : Ivl := ⟨num * 2 ^ p / (m + one), cdiv (num * 2 ^ p) (m + one)⟩
          let a := atanhI p z
          let fr := (a.add a).div p (ln2I p)
          let kk := k.natAbs * 2 ^ p
          -- |k + s × fr|, s the sign of ln y
          if k = 0 then (fr, (p : Int))
          else if decide (k < 0) == up then (Ivl.add ⟨kk, kk⟩ fr, (p : Int)) else (Ivl.sub ⟨kk, kk⟩ fr, (p : Int))
        .real (if k = 0 then up else decide (k < 0)) (settle m f precisions)

/-- tanh A (R151). -/
def fTanh (x : FVal) : FRes :=
  match x with
  | .nan s => .nan (if s then fInvalid else 0)
  | .inf n => .real n ⟨1, 0, false⟩
  | .num neg m e =>
    if m = 0 then .zero neg
    else if belowPow m e (-60) then .real neg (justBelow m e)
    else if !belowPow m e 6 then .real neg (justBelow 1 0)
    else .real neg (settle m (fun p =>
      let (t, n) := expNeg p m (e + 1)
      let ex := ivlOf p 1 0
      let lo := ivlOf p t.lo (n - p)
      let hi := ivlOf p t.hi (n - p)
      let q : Ivl := ⟨lo.lo, hi.hi⟩
      ((ex.sub q).div p (ex.add q), (p : Int))) precisions)

/-- 1 / (1 + e^-|A|), or e^-|A| / (1 + e^-|A|) when `low`: on a scale that keeps the leading bits. -/
def sigmoidI (low : Bool) (p m : Nat) (e : Int) : Ivl × Int :=
  let (t, n) := expNeg p m e
  let one := ivlOf p 1 0
  let q : Ivl := ⟨(ivlOf p t.lo (n - p)).lo, (ivlOf p t.hi (n - p)).hi⟩
  let den := one.add q
  if low then (t.div p den, (p : Int) - n) else (one.div p den, (p : Int))

/-- 1 / (1 + e^-A) (R151). -/
def fSigm (x : FVal) : FRes :=
  match x with
  | .nan s => .nan (if s then fInvalid else 0)
  | .inf n => if n then .zero false else .real false ⟨1, 0, false⟩
  | .num neg m e =>
    if m = 0 then .real false ⟨1, -1, false⟩
    else if belowPow m e (-100) then .real false (if neg then justBelow 1 (-1) else justAbove 1 (-1))
    else if !belowPow m e 10 then .real false (if neg then negligible else justBelow 1 0)
    else if !neg && !belowPow m e 7 then .real false (justBelow 1 0)
    else .real false (settle m (fun p => sigmoidI neg p m e) precisions)

/-- A / (1 + e^-A) (R151). -/
def fSilu (x : FVal) : FRes :=
  match x with
  | .nan s => .nan (if s then fInvalid else 0)
  | .inf n => if n then .zero true else .inf false 0
  | .num neg m e =>
    if m = 0 then .zero neg
    else if belowPow m e (-60) then .real neg (if neg then justBelow m (e - 1) else justAbove m (e - 1))
    else if !belowPow m e 10 then .real neg (if neg then negligible else justBelow m e)
    else if !neg && !belowPow m e 7 then .real neg (justBelow m e)
    else .real neg (settle m (fun p =>
      let (q, s) := sigmoidI neg p m e
      (⟨q.lo * m, q.hi * m⟩, s - e)) precisions)

/-- Terms of the series of pi: (-1)^k / ((2k+1) q^(2k+1)), even and odd terms apart. -/
def atanTerms (p q : Nat) : Nat → Nat → Nat → Ivl → Ivl → Ivl
  | 0, _, _, pos, neg => ⟨pos.lo - neg.hi - 1, pos.hi + 1 - neg.lo⟩
  | n + 1, k, pw, pos, neg =>
    let t : Ivl := ⟨2 ^ p / ((2 * k + 1) * pw), cdiv (2 ^ p) ((2 * k + 1) * pw)⟩
    if k % 2 = 0 then atanTerms p q n (k + 1) (pw * q * q) (pos.add t) neg
    else atanTerms p q n (k + 1) (pw * q * q) pos (neg.add t)

/-- pi = 16 atan(1/5) - 4 atan(1/239). -/
def piI (p : Nat) : Ivl :=
  let a := atanTerms p 5 (p / 4 + 2) 0 5 ⟨0, 0⟩ ⟨0, 0⟩
  let b := atanTerms p 239 (p / 4 + 2) 0 239 ⟨0, 0⟩ ⟨0, 0⟩
  Ivl.sub ⟨16 * a.lo, 16 * a.hi⟩ ⟨4 * b.lo, 4 * b.hi⟩

/-- Terms x^(2k+1) / (1·3···(2k+1)) of the series of the normal distribution function. -/
def phiTerms (p : Nat) (x2 : Ivl) : Nat → Nat → Ivl → Ivl → Ivl
  | 0, _, _, acc => ⟨acc.lo, acc.hi + 4⟩
  | n + 1, k, t, acc => phiTerms p x2 n (k + 1) ((t.mul p x2).divN (2 * k + 3)) (acc.add t)

/-- The part of the normal distribution between 0 and y = m × 2^e, below 24: density at y times the series. -/
def phiHalf (p m : Nat) (e : Int) : Ivl :=
  let y := ivlOf p m e
  let y2 := ivlOf p (m * m) (2 * e)
  let s := phiTerms p y2 (2 * p + 64) 0 y ⟨0, 0⟩
  let (t, n) := expNeg p (m * m) (2 * e - 1)
  let ex : Ivl := ⟨(ivlOf p t.lo (n - p)).lo, (ivlOf p t.hi (n - p)).hi⟩
  let pi := piI p
  -- sqrt(2 pi) on the scale 2^P
  let r : Ivl := ⟨isqrt (2 * pi.lo * 2 ^ p), isqrt (2 * pi.hi * 2 ^ p) + 1⟩
  (s.mul p ex).div p r

/-- A × Φ(A) (R151). -/
def fGelu (x : FVal) : FRes :=
  match x with
  | .nan s => .nan (if s then fInvalid else 0)
  | .inf n => if n then .zero true else .inf false 0
  | .num neg m e =>
    if m = 0 then .zero neg
    else if belowPow m e (-60) then .real neg (if neg then justBelow m (e - 1) else justAbove m (e - 1))
    else if !fLt (.num false m e) (.num false 24 0) then .real neg (if neg then negligible else justBelow m e)
    else .real neg (settle m (fun p =>
      let h := phiHalf p m e
      let half := ivlOf p 1 (-1)
      let q := if neg then half.sub h else half.add h
      (⟨q.lo * m, q.hi * m⟩, (p : Int) - e)) precisions)

end Sys2Proof.Machine
end

