-- ==== Sys2Proof/Machine/Flags.lean ====
section
/-! DEFINITION. Rounding modes, stream draws and flags of floating-point forms (R34, R35, R38, R41, R71, R90, R150), and
element conversions (R30, R36, R126, R164, R165). -/

namespace Sys2Proof.Machine

/-! ### Modes, draws and flags -/

/-- The context's rounding mode (R34). -/
def Ctx.rmode (x : Ctx) : RMode :=
  match bitsAt x.mode.toNat 0 3 with | 0 => .rne | 1 => .rz | 2 => .ru | 3 => .rd | _ => .sr

/-- The mode of a V word's rounding field (R35). -/
def vMode (x : Ctx) : VRnd → RMode | .ctx => x.rmode | .rne => .rne | .rz => .rz | .sr => .sr

/-- The format of a floating-point type. -/
def fmtOf : ElemTy → Option FFmt
  | .fp32 => some .fp32 | .bf16 => some .bf16 | .fp16 => some .fp16 | .e4m3 => some .e4m3 | .e5m2 => some .e5m2 | _ => none
/-- The same for a type known to be floating-point. -/
def fmtD (t : ElemTy) : FFmt := (fmtOf t).getD .fp32
/-- The format of a scalar form. -/
def SFmt.fmt : SFmt → FFmt | .fp32 => .fp32 | .bf16 => .bf16 | .fp16 => .fp16

/-- Whether a form that rounds a result to a format draws on the stream (R38). -/
def drawsFor (x : Ctx) (mode : RMode) (narrow : Bool) : Bool := mode == .sr || (narrow && !x.compat)

/-- Draw blocks: the words of the elements, and the counter moved on (R38). -/
def draw (n : Nat) : M (Nat → Nat) := do
  let x ← curCtx
  modCtx (fun x => { x with rctr := x.rctr + BitVec.ofNat 128 n })
  pure (streamWord x.rkey.toNat x.rctr.toNat)

/-- Draw when the form draws; otherwise no word is used. -/
def drawIf (b : Bool) (n : Nat) : M (Nat → Nat) := if b then draw n else pure (fun _ => 0)

/-- Merge the flags of an operation, or trap when one of them is enabled (R41, R71, R90). -/
def mergeFlags (fl : Nat) : M Unit := do
  let x ← curCtx
  if Nat.land fl x.enables != 0 then throw (.fp fl x.rctr)
  else if fl = 0 then pure ()
  else modCtx (fun x => { x with fflags := x.fflags ||| BitVec.ofNat 64 fl })

/-- The OR of a list of flags. -/
def orAll (l : List Nat) : Nat := l.foldl Nat.lor 0

/-! ### Conversions between element types -/

/-- An integer as its type's bits. -/
def intBits (ty : ElemTy) (i : Int) : Nat := wrapInt ty.width i

/-- A conversion with rounding (R30, R36, R126): bits and flags. A same-format conversion returns the value, a NaN
becoming canonical and a BF16 subnormal zero in compat mode. `sat` clamps integer to integer (R165). -/
def convertElem (compat : Bool) (mode : RMode) (u : Nat) (nat sat : Bool) (src dst : ElemTy) (bits : Nat) : Nat × Nat :=
  match fmtOf src, fmtOf dst with
  | some f, some g =>
    let v := f.operand compat bits
    if f = g then
      match v with
      | .nan sg => (f.nan, if sg then fInvalid else 0)
      | v => if v.isZero then (f.signBit v.isNeg, 0) else (bits % 2 ^ f.width, 0)
    else v.res.deliver g mode u nat
  | some f, none => fToInt mode u dst.width dst.signed (f.operand compat bits)
  | none, some g =>
    let i := if src.signed then sextNat src.width bits else ((bits % 2 ^ src.width : Nat) : Int)
    (intVal i).res.deliver g mode u nat
  | none, none =>
    let i := if src.signed then sextNat src.width bits else ((bits % 2 ^ src.width : Nat) : Int)
    if sat then
      let (lo, hi) := intRange dst.width dst.signed
      let (c, cl) := clampInt lo hi i
      (intBits dst c, if cl then fSaturate else 0)
    else (intBits dst i, 0)

/-- Whether a conversion to a type draws: it rounds, to a narrow format or with SR. -/
def convDraws (x : Ctx) (mode : RMode) (src dst : ElemTy) : Bool :=
  match fmtOf src, fmtOf dst with
  | _, some g => drawsFor x mode g.narrow
  | some _, none => mode == .sr
  | none, none => false

/-! ### Scalar floating-point forms -/

/-- The low bits of an operand as a value of the format (R122, R39). -/
def sVal (x : Ctx) (t : SFmt) (v : Word) : FVal := (SFmt.fmt t).operand x.compat v.toNat

/-- Deliver a scalar floating-point result: round once, draw, flag, land (R122, R123). -/
def landF (t : SFmt) (slot : SSlot) (dst : BitVec 6) (lat : Nat) (r : RMode → FRes) : M Unit := do
  let x ← curCtx
  let f := SFmt.fmt t
  let mode := x.rmode
  let u ← drawIf (drawsFor x mode f.narrow) 1
  let (bits, fl) := (r mode).deliver f mode (u 0) (!x.compat)
  mergeFlags fl
  landS slot dst (BitVec.ofNat 64 bits) lat

/-! ### Vector floating-point forms -/

/-- The value that a masked form's destination held at issue, read before any flag is merged: where one slot meets both an
uncorrectable destination and an enabled flag, R71 gives no order, and in every masked form the model lets the register
error come first (DESIGN CHOICE, log entry 70). -/
def readOld (slot : VSlot) (m : Option (BitVec 3)) (dst : BitVec 10) : M Unit := do
  vecIndex dst.toNat
  if m.isSome then
    let _ ← readReg (VSlot.file slot) dst.toNat

/-- Deliver one rounded result per lane (R150, R151): draws for every lane of the result format, flags of active lanes. -/
def landVF (slot : VSlot) (ty : ElemTy) (m : Option (BitVec 3)) (rnd : VRnd) (dst : BitVec 10) (lat : Nat)
    (r : RMode → Nat → FRes) : M Unit := do
  let x ← curCtx
  let f := fmtD ty
  let mode := vMode x rnd
  let active ← readActive slot m
  let u ← drawIf (drawsFor x mode f.narrow) (blocks ty.lanes)
  readOld slot m dst
  let out := (List.range ty.lanes).map (fun i =>
    if active i then (r mode i).deliver f mode (u i) (!x.compat) else (0, 0))
  mergeFlags (orAll (out.map (·.2)))
  landLanes slot f.width m active dst (out.map (·.1)) lat

/-- A lane of an operand as a value (R39). -/
def vVal (x : Ctx) (ty : ElemTy) (v : VecReg) (i : Nat) : FVal := (fmtD ty).operand x.compat (laneAt ty.width v i)

/-- Deliver one result per lane that is not rounded, with its flags (R152, R154). -/
def landVX (slot : VSlot) (ty : ElemTy) (m : Option (BitVec 3)) (dst : BitVec 10) (lat : Nat) (r : Nat → Nat × Nat) :
    M Unit := do
  let active ← readActive slot m
  readOld slot m dst
  let out := (List.range ty.lanes).map (fun i => if active i then r i else (0, 0))
  mergeFlags (orAll (out.map (·.2)))
  landLanes slot ty.width m active dst (out.map (·.1)) lat

end Sys2Proof.Machine
end

