-- ==== Sys2Proof/Machine/Access.lean ====
section
/-! DEFINITION. What the memory forms share: the ranges an access touches, loads at issue (R104, R181, R185), stores posted
to their homes, race checks (R318 to R321), acquire and release (R254, R319), and the atomic operations (R193 to R196). -/

namespace Sys2Proof.Machine

/-- The bundle is not ready: it changes nothing and is tried again. -/
def notReady {α : Type} : M α := do let s ← get; throw (.held s)

/-! ### The race detector -/

/-- The smallest scope that holds two contexts of the package (R320). -/
def commonScope (c d : Nat) : Nat :=
  if coreOf c = coreOf d then 0 else if clusterOf c = clusterOf d then 1 else if dieOf c = dieOf d then 2 else 3

/-- Whether interval j follows interval i (R319). -/
def follows (j i : BitVec 16) : Bool := let d := (j - i).toNat; decide (1 ≤ d) && decide (d ≤ 2 ^ 15 - 1)

/-- The key of a race log ring: its address space and its virtual base. -/
def raceRingKey (r : Region) : Nat := r.raceRing.toNat * 2 ^ 16 + r.space.asid.toNat

/-- Write a race log entry (R321); a full ring drops it and counts it in the region's race densitometer. -/
def raceLog (s : State) (c : Nat) (r : Region) (sector : Word) (w i : BitVec 16) (conflict store : Bool) : State :=
  let n := Map.get 0 s.raceLogged (raceRingKey r)
  if r.raceSize ≤ n then countEvent s (.raceDropped r.rcb)
  else
    let e := leBytes 8 sector.toNat ++ leBytes 2 c ++ leBytes 2 w.toNat ++ leBytes 2 i.toNat ++ leBytes 1 (b2n conflict) ++
      leBytes 1 (b2n store) ++ leBytes 8 s.dtimeNs ++ leBytes 8 0
    match writeVia s (packageView r.space) { s.pkgWriter with race := none } (r.raceRing.toNat + 32 * n) e with
    | .ok s => { s with raceLogged := Map.set 0 s.raceLogged (raceRingKey r) (n + 1) }
    | .error _ => countEvent s (.raceDropped r.rcb)

/-- On whose behalf an access is performed: the context, its task, its region and its acquired-from cache. -/
structure Issuer where
  ctx : Nat
  tid : Nat
  region : Region
  acq : List AcqEntry
  deriving DecidableEq, Repr

/-- A context as the issuer of what it has posted, and the issuer of an access that outlives its context. -/
def State.issuerOf (s : State) (c : Nat) : Issuer :=
  let x := s.ctx c
  ⟨c, x.tid, x.region, x.acq⟩
def Loose.issuer (l : Loose) : Issuer := ⟨l.ctx, l.tid, l.region, l.acq⟩

/-- The check of one sector (R320). A conflict in trap mode reaches the task as an outside trap. -/
def raceSector (s : State) (x : Issuer) (store : Bool) (sector va : Nat) : State :=
  let c := x.ctx
  let sh := (Map.get 0 s.race sector).toNat
  let w := BitVec.ofNat 16 (bitsAt sh 19 16)
  let i := BitVec.ofNat 16 (bitsAt sh 3 16)
  let e := commonScope c w.toNat
  let at_ : Word := BitVec.ofNat 64 (va / 64 * 64)
  if w = 0xFFFF || w.toNat = c then s
  else match x.acq.find? (fun a => a.writer == w) with
    | none => raceLog s c x.region at_ w i false store
    | some a =>
      if follows a.interval i && e ≤ a.scope && e ≤ bitsAt sh 0 3 then s
      else if x.region.race = 1 then raceLog s c x.region at_ w i true store
      else outsideTrap s x.tid x.region 0 0x11 at_

/-- The check of an L-slot access to a stretch of memory. -/
def raceCheck (s : State) (x : Issuer) (store : Bool) (p : Span) : State :=
  if x.region.race = 0 || p.cnt || p.len = 0 || !shadowable p.pa then s
  else (sectorsIn p.pa p.len).foldl (fun s k => raceSector s x store k (p.va + (k * 64 - p.pa))) s

/-! ### Logical time (R313) -/

/-- A load of a line: the context's time moves to the line's last write, and the line records the read. Every load renews at the
home, so no L1 copy is held (log entry 76). -/
def timeLoad (s : State) (c pa : Nat) : State :=
  let l := pa / 64
  let (r, w) := Map.get (0, 0) s.lineTimes l
  let t := max (s.ctx c).ltime w
  { s.updCtx c (fun x => { x with ltime := t }) with lineTimes := Map.set (0, 0) s.lineTimes l (max r t, w) }

/-- A context's write to a line is performed no earlier than the context's own time, and the context's time moves forward to that of
the write, which is later than every read before it. -/
def timeStore (s : State) (c pa : Nat) : State :=
  let l := pa / 64
  let (r, w) := Map.get (0, 0) s.lineTimes l
  let t := max (s.ctx c).ltime w
  { s.updCtx c (fun x => { x with ltime := t }) with lineTimes := Map.set (0, 0) s.lineTimes l (r, t) }

/-- The same for every line that translated spans touch. -/
def timeSpans (move : State → Nat → Nat → State) (s : State) (c : Nat) (ps : List Span) : State :=
  (ps.flatMap (fun p => sectorsIn p.pa p.len)).eraseDups.foldl (fun s k => move s c (64 * k)) s

/-! ### Acquire and release -/

/-- Enter a writer into an acquired-from cache of 32 entries (R319). -/
def acqEnter (l : List AcqEntry) (e : AcqEntry) : List AcqEntry :=
  match l.find? (fun a => a.writer == e.writer) with
  | some a => if follows e.interval a.interval then (l.filter (fun a => a.writer != e.writer)) ++ [e] else l
  | none => (if l.length < 32 then l else l.drop 1) ++ [e]

/-- An acquire by a context that read a counter's side status (R319). -/
def acquireSide (s : State) (c : Nat) (side : Word) (scope : Nat) : State :=
  let w := BitVec.ofNat 16 (bitsAt side.toNat 16 16)
  let i := BitVec.ofNat 16 (bitsAt side.toNat 0 16)
  if w = 0 && i = 0 then s else s.updCtx c (fun x => { x with acq := acqEnter x.acq ⟨w, i, scope⟩ })

/-- Advance sys.interval for a release; the interval after it (R254). -/
def advanceInterval : M (BitVec 16) := do
  modCtx (fun x => { x with interval := x.interval + 1 })
  return (← curCtx).interval

/-- The operations of a core's matrix engines that are not complete, those of the replay lists included. -/
def Core.ops (k : Core) : List TOp := k.tq0 ++ k.tq1 ++ k.held0 ++ k.held1

/-- Whether an operation of the matrix engines belongs to a context. -/
def matrixWork (s : State) (c : Nat) : Bool := (s.core (coreOf c)).ops.any (fun o => o.tid == (s.ctx c).tid)

/-- A die's remote operations that are not yet acknowledged, an NTS that waits for its slot included. -/
def Die.open (d : Die) : List Remote := d.remotes ++ d.heldNts.map (·.2)

/-- Whether a context has remote operations not yet acknowledged. -/
def remoteWork (s : State) (tid : Nat) : Bool := s.dies.any (fun (_, d) => d.open.any (fun r => r.tid == tid))

/-- Whether a release for a task that issued on a context may be performed: every access that it issued before order `seq` is
performed (R254, R230). -/
def releasableAs (s : State) (c tid seq : Nat) : Bool :=
  !((s.ctx c).tid == tid && (s.ctx c).posted.any (fun p => p.seq < seq)) &&
    !s.loose.any (fun l => l.tid == tid && l.posted.seq < seq) &&
    !(s.core (coreOf c)).ops.any (fun o => o.tid == tid && o.seq < seq) &&
    !s.dies.any (fun (_, d) => d.open.any (fun r => r.tid == tid && r.cseq < seq))

/-- Whether a release by a context may be performed. -/
def releasable (s : State) (c seq : Nat) : Bool := releasableAs s c (s.ctx c).tid seq

/-! ### Outstanding requests (R184) -/

/-- The sectors of a list of physical addresses, in their first order. -/
def sectorSet (l : List Nat) : List Nat := (l.map (· / 64)).eraseDups

/-- The requests that a posted access holds: a load's are counted with its result, and counter adds hold none. -/
def Posted.lines (p : Posted) : Nat :=
  match p.kind with
  | .store ps => (sectorSet (ps.map (·.pa))).length
  | .atom _ _ _ _ _ _ _ => 1
  | _ => 0

/-- The outstanding memory requests of a core: loads that have not landed, stores and atomics not yet performed, and remote
operations not yet acknowledged (R184, R392). A lathe fetch is served in the step that makes it. -/
def requestsHeld (s : State) (k : Nat) : Nat :=
  ((ctxsOf k).map (fun c => (((s.ctx c).pending.map (·.lines)).sum + ((s.ctx c).posted.map Posted.lines).sum))).sum +
    ((s.loose.filter (fun l => coreOf l.ctx == k)).map (fun l => l.posted.lines)).sum +
    (s.dies.map (fun (_, d) => (d.open.filter (fun r => !r.coll && coreOf r.ctx == k)).length)).sum

/-- The bundle is not ready while the core has fewer than `n` requests free. -/
def needRequests (n : Nat) : M Unit := do
  let s ← get
  if n != 0 && decide (512 < requestsHeld s (coreOf s.issue.ctx) + n) then notReady else pure ()

/-- Whether a request on a sequence is still open, so that later requests on it wait (R325). -/
def State.seqBusy (s : State) (id : Nat) : Bool := s.deliveries.any (fun d => d.id == id)

/-! ### Loads -/

/-- Translate the ranges of an access in lane order, each checked for alignment first (R181, R303). -/
def transRanges (v : View) (acc : Acc) (align : Nat) : List (Nat × Nat) → State → Except (BitVec 8 × Word) (List Span × State)
  | [], s => .ok ([], s)
  | (va, len) :: rs, s =>
    if va % align ≠ 0 then .error (0x03, BitVec.ofNat 64 va)
    else match translateRange s v va len acc with
      | .error e => .error e
      | .ok (ps, s) => match transRanges v acc align rs s with
        | .error e => .error e
        | .ok (qs, s) => .ok (ps ++ qs, s)

/-- Whether every range lies in the local aperture (R177). An access without any active lane has no range; R74 does not say
which latency it has, and this model gives it the fixed one (DESIGN CHOICE, log entry 72). -/
def inAperture (rs : List (Nat × Nat)) : Bool := rs.all (fun (va, _) => decide (apertureBase ≤ va) && decide (va < vaTop))

/-- The range that an incomplete TST writes, row m. -/
def tstRows (d : TileDesc) : List (Nat × Nat) :=
  (List.range 64).map (fun m => ((d.addr0.toNat + m * d.stride) % 2 ^ 64, if d.fmt = 0 then 256 else 128))

/-- The physical spans of a range in a view, as far as it translates. -/
def spansIn (s : State) (v : View) (va n : Nat) : List Span :=
  match translateRange s v va n .read with
  | .ok (ps, _) => ps
  | .error _ => []

/-- Whether two lists of spans share a byte. -/
def spansMeet (ps qs : List Span) : Bool := ps.any (fun p => qs.any (fun q => overlaps p.pa p.len q.pa q.len))

/-- Whether a range meets the range of an incomplete TST of the context (R230 item 2): by its addresses, or, where two addresses
name one byte, by the bytes reached, which R230 does not distinguish (DEDUCED, log entry 83). -/
def meetsTst (s : State) (c : Nat) (rs : List (Nat × Nat)) : Bool :=
  (s.core (coreOf c)).ops.any (fun o => o.tid == (s.ctx c).tid && (match o.kind with
    | .st _ d _ =>
      (tstRows d).any (fun (a, n) => rs.any (fun (b, m) => overlaps a n b m)) ||
        spansMeet ((tstRows d).flatMap (fun (a, n) => spansIn s (engineView o.space o.ctx) a n))
          (rs.flatMap (fun (b, m) => spansIn s (s.view c) b m))
    | _ => false))

/-- The state at a member as R417 takes it: a member is releasing from its own release of the generation on, whether or not a
demand is known there yet (R435); a store that comes before a member's own release is performed, since that release waits for it
(R419, R434). -/
def Placed.stage (p : Placed) : Nat := if 2 ≤ p.st then p.st else if p.released then 1 else 0

/-- Whether the placement of the present generation stands at a member, for a PLD to load under it (R413, R420): no demand is
being served there, or the member has not itself released the generation. -/
def Placed.stands (p : Placed) : Bool := p.st == 0 || (p.st == 1 && !p.released)

/-- Whether two ranges of two address spaces share a byte at a die. -/
def sharesBytes (s : State) (die : Nat) (sp : Space) (va n : Nat) (sp' : Space) (va' n' : Nat) : Bool :=
  spansMeet (spansIn s (dieView sp die) va n) (spansIn s (dieView sp' die) va' n')

/-- Whether a descriptor that is releasing or converting holds a write of a range of an address space at its die, whichever
address space names the bytes (R417). -/
def Placed.holds (s : State) (die : Nat) (p : Placed) (sp : Space) (va n : Nat) : Bool :=
  (p.stage == 1 || p.stage == 2) &&
    ((p.region.space.asid == sp.asid && overlaps va n (field p.record 0x20 8) (field p.record 0x28 8)) ||
      sharesBytes s die p.region.space (field p.record 0x20 8) (field p.record 0x28 8) sp va n)

/-- Whether a write of a range of an address space is held at a die (R417). -/
def heldShard (s : State) (die : Nat) (sp : Space) (va n : Nat) : Bool :=
  (s.die die).placed.any (fun (_, p) => p.holds s die sp va n)

/-- Translate an L-slot access of the issuing context. A bundle that writes into a shard that is releasing or converting at its
die passes its checks and is then held (R417). -/
def accessSpans (acc : Acc) (align : Nat) (rs : List (Nat × Nat)) : M (List Span) := do
  let s ← get
  if meetsTst s s.issue.ctx rs then notReady
  else do
    let (ps, s') ← liftTrap (transRanges (s.view s.issue.ctx) acc align rs s)
    let c := s.issue.ctx
    if (acc = .write || acc = .atomic) && rs.any (fun (va, n) => heldShard s (dieOf c) (s.ctx c).region.space va n) then notReady
    else do
      set s'
      pure ps

/-- Read translated spans for an issuer: race checks where they apply (R320), logical time, the bytes, and the first
uncorrectable data. -/
def readFor (s : State) (x : Issuer) (race : Bool) (ps : List Span) : (List Byte × Option (BitVec 8 × Word)) × State :=
  let s := if race then ps.foldl (fun s p => raceCheck s x false p) s else s
  let s := timeSpans timeLoad s x.ctx ps
  let bad := badSpan s ps
  let (bs, s) := readSpans s ps
  ((bs, bad), s)

/-- An ordinary load at issue: its bytes, and the cause and address of the first uncorrectable data. -/
def loadBytes (race : Bool) (align : Nat) (rs : List (Nat × Nat)) : M (List Byte × Option (BitVec 8 × Word)) := do
  let ps ← accessSpans .read align rs
  let s ← get
  let (r, s) := readFor s (s.issuerOf s.issue.ctx) race ps
  set s
  pure r

/-- An ordinary load whose uncorrectable data trap at the bundle. Only those of the L slot are race checked (R320). -/
def loadStrict (race : Bool) (align va len : Nat) : M (List Byte) := do
  let (bs, bad) ← loadBytes race align [(va, len)]
  match bad with
  | some (c, _) => condTrap c (BitVec.ofNat 64 va)
  | none => pure bs

/-- Deliver a load performed at issue: a fixed-latency landing when every range lies in the aperture, else a scoreboarded result
(R73, R74), which holds its request until it lands (R184). -/
def deliverLoad (own : Bool) (file idx : Nat) (v : VecReg) (tag : Option (BitVec 8 × Word)) : M Unit :=
  if own then modify (fun s => s.updCtx s.issue.ctx (fun x =>
    { x with landing := x.landing ++ [{ count := 8, seq := s.issue.order, file := file, idx := idx, val := v, tag := tag }] }))
  else pendResult [(file, idx)] (some ([v], tag)) 1

/-- Put bytes into a register value at a byte position. -/
def putAt (v : VecReg) (pos : Nat) (bs : List Byte) : VecReg :=
  let mask : VecReg := BitVec.ofNat 2048 ((2 ^ (8 * bs.length) - 1) * 2 ^ (8 * pos))
  (v &&& ~~~mask) ||| BitVec.ofNat 2048 (leNat bs * 2 ^ (8 * pos))

/-- Cut a span at 64-byte sectors. Recursion is on the pieces left. -/
def loadCut (p : Span) (pos : Nat) (rep : Option Word) : Nat → Nat → List LoadPiece
  | 0, _ => []
  | fuel + 1, o =>
    if p.len ≤ o then [] else
    let n := min (p.len - o) (64 - (p.pa + o) % 64)
    let va : Word := BitVec.ofNat 64 (p.va + o)
    { pa := p.pa + o, va := va, len := n, cnt := p.cnt, pos := pos + o, rep := rep } :: loadCut p pos rep fuel (o + n)

/-- The pieces of translated spans; the byte at offset n of the access stands at `place n` of the value. -/
def loadPieces (place : Nat → Nat) (rep : Option Word) : Nat → List Span → List LoadPiece
  | _, [] => []
  | o, p :: ps => loadCut p (place o) rep (p.len + 1) 0 ++ loadPieces place rep (o + p.len) ps

/-- Read one piece into a value, keeping the error of the lowest position. -/
def readPiece (x : Issuer) (acc : (VecReg × Option (Nat × BitVec 8 × Word)) × State) (q : LoadPiece) :
    (VecReg × Option (Nat × BitVec 8 × Word)) × State :=
  let ((v, bad), s) := acc
  let sp : Span := ⟨q.pa, q.va.toNat, q.len, q.cnt⟩
  let ((bs, err), s) := readFor s x true [sp]
  let bad := match err, bad with
    | some (c, a), none => some (q.pos, c, q.rep.getD a)
    | some (c, a), some (p, d, b) => if q.pos < p then some (q.pos, c, q.rep.getD a) else some (p, d, b)
    | none, b => b
  ((putAt v q.pos bs, bad), s)

/-- The tag of a value with its first error. -/
def errTag (bad : Option (Nat × BitVec 8 × Word)) : Option (BitVec 8 × Word) := bad.map (fun (_, c, a) => (c, a))

/-- A load of several elements into a register whose other bytes stay as `old`: performed at issue in the own scratchpad, and
where it lies in one sector; else posted, to be performed sector by sector (R181, R185). An error is reported with the address
`rep`, or that of the element. -/
def loadInto (align : Nat) (rs : List (Nat × Nat)) (place : Nat → Nat) (rep : Option Word) (old : VecReg) (file idx : Nat) :
    M Unit := do
  let ps ← accessSpans .read align rs
  let s ← get
  let pieces := loadPieces place rep 0 ps
  let n := (sectorSet (pieces.map (·.pa))).length
  if inAperture rs || n ≤ 1 then do
    let own := inAperture rs
    if own then pure () else needRequests 1
    let ((v, bad), s) := pieces.foldl (readPiece (s.issuerOf s.issue.ctx)) ((old, none), s)
    set s
    deliverLoad own file idx v (errTag bad)
  else do
    needRequests n
    pendResult [(file, idx)] none n
    modify (fun s => s.updCtx s.issue.ctx (fun x => { x with
      posted := x.posted ++ [⟨s.issue.order, x.interval, .load pieces old none s.issue.order, 0⟩] }))

/-- An element as LDS extends it (R189). -/
def extElem (ty : ElemTy) (x : Nat) : Word :=
  if ty.signed then BitVec.ofInt 64 (sextNat ty.width x) else BitVec.ofNat 64 (x % 2 ^ ty.width)

/-- Bytes in an element. -/
def elemBytes (ty : ElemTy) : Nat := ty.width / 8

/-! ### Stores -/

/-- Cut a span and its bytes at 64-byte sectors (R185). Recursion is on the bytes left. -/
def sectorPieces (p : Span) : Nat → List Byte → List Piece
  | 0, _ => []
  | fuel + 1, bs =>
    if bs.isEmpty then [] else
    let o := p.len - bs.length
    let n := min bs.length (64 - (p.pa + o) % 64)
    ⟨p.pa + o, BitVec.ofNat 64 (p.va + o), p.cnt, bs.take n⟩ :: sectorPieces p fuel (bs.drop n)

/-- The pieces of translated spans over their bytes. -/
def piecesOf : List Span → List Byte → List Piece
  | [], _ => []
  | p :: ps, bs => sectorPieces p (p.len + 1) (bs.take p.len) ++ piecesOf ps (bs.drop p.len)

/-- An ordinary store: performed at issue in the own scratchpad, otherwise posted to its home (R181, R185). -/
def storeRanges (align : Nat) (rs : List (Nat × Nat)) (bs : List Byte) : M Unit := do
  let ps ← accessSpans .write align rs
  needRequests (if inAperture rs then 0 else (sectorSet ((piecesOf ps bs).map (·.pa))).length)
  modify (fun s =>
    let c := s.issue.ctx
    let x := s.ctx c
    if inAperture rs then timeSpans timeStore (writeSpans s (s.ctxWriter c x.interval) ps bs) c ps
    else if rs.isEmpty then s
    else
      let s := s.updCtx c (fun x => { x with posted := x.posted ++ [⟨s.issue.order, x.interval, .store (piecesOf ps bs), 0⟩] })
      s.updCore (coreOf c) (fun k => { k with sent := Map.upd 0 k.sent x.region.space.asid.toNat (· + 1) }))

/-! ### Atomic operations -/

/-- The new element of a non-additive or integer operation (R194): M, X, and for cas the second source. -/
def atomNew (op : AtomOp) (ty : ElemTy) (m x y : Nat) : Nat :=
  let w := ty.width
  let x := x % 2 ^ w
  let le := decide (laneInt ty m ≤ laneInt ty x)
  match op with
  | .add => (m + x) % 2 ^ w
  | .min => if le then m else x
  | .max => if le then x else m
  | .and => Nat.land m x | .or => Nat.lor m x | .xor => Nat.xor m x
  | .swap => x
  | .cas => if m = x then y % 2 ^ w else m
  | .fadd => ((fAdd .rne ((fmtD ty).decode m) ((fmtD ty).decode x)).deliver (fmtD ty) .rne 0 false).1
  | .fmin => (fMinMax (fmtD ty) false false m x).1
  | .fmax => (fMinMax (fmtD ty) false true m x).1

/-- Whether additive reductions on a narrow location accumulate in a shadow (R47, R196). -/
def shadowed (s : State) (pa : Nat) : Bool :=
  match locOf pa with
  | .hbm _ _ => true
  | .vault cl _ => (s.cluster cl).slice != 0
  | _ => false

/-- Whether a line has a live shadow. -/
def hasShadow (s : State) (line : Nat) : Bool := s.redShadow.any (fun (k, ty, _) => overlaps k ((shadowFmt ty).width / 8) line 64)

/-- Make a line the most recently reduced one. A line that needs a further way in a set where a quarter of the ways hold live
shadows first rounds out the least recently reduced line there, which is counted (R47 item 5). In a set of fewer than four ways a quarter is
no way: one line may hold live shadows there (DESIGN CHOICE, log entry 82). -/
def shadowRoom (s : State) (line : Nat) : State :=
  let live := s.shadowLines.filter (hasShadow s)
  let peers := s.inSet line (live.filter (· != line))
  if live.contains line || peers.length < max 1 (Config.l2Ways / 4) then { s with shadowLines := live.filter (· != line) ++ [line] }
  else match peers with
    | old :: _ => countEvent { s.flushShadows old 64 with shadowLines := live.filter (fun l => l != line && l != old) ++ [line] } .shadowRounded
    | [] => s

/-- Add to the shadow of a narrow location, allocating it first when it has none (R47). What a reduction of another format on a
location with a live shadow, or overlapping one, does R47 does not say: the model rounds the old shadow into memory, drops it
and starts a new one (DESIGN CHOICE, log entry 72). -/
def shadowAdd (s : State) (ty : ElemTy) (pa x : Nat) : State × Nat :=
  let f := fmtD ty
  let code := ty.code.toNat
  let widen := fun (b : Nat) => ((f.decode b).res.deliver .fp32 .rne 0 false).1
  let live := match Map.find? s.redShadow pa with
    | some (t, b) => if t = code then some b else none
    | none => none
  let s := shadowRoom s (pa / 64 * 64)
  let s := if live.isSome then s else s.flushShadows pa (elemBytes ty)
  let cur := live.getD (widen (s.peek pa (elemBytes ty)))
  let new := (fAdd .rne (FFmt.fp32.decode cur) (f.decode x)).deliver .fp32 .rne 0 false
  ({ s with redShadow := Map.put s.redShadow pa (code, new.1), lineTimes := timesAfter s.lineTimes pa 1 }, roundShadow f cur)

/-- One atomic at its bank or home: the state and the old element (R193, R196). -/
def atomApply (s : State) (w : Writer) (op : AtomOp) (ty : ElemTy) (pa x y : Nat) : State × Nat :=
  let narrow := match fmtOf ty with | some g => g.narrow | none => false
  if op = .fadd && narrow && shadowed s pa then
    let (s, old) := shadowAdd s ty pa x
    (s.watchCheck { w with race := none } pa (elemBytes ty), old)
  else
    let (bs, s) := s.readAt pa (elemBytes ty)
    let m := leNat bs
    (s.storeAt { w with race := none } false pa (leBytes (elemBytes ty) (atomNew op ty m x y)), m)

end Sys2Proof.Machine
end

