-- ==== Sys2Proof/Machine/Lathe.lean ====
section
/-! DEFINITION. The lathe (R199 to R207): parameter sets, WSET, WSTART, WSTOP, WSTAT, and the fetch of a channel. -/

namespace Sys2Proof.Machine

/-! ### Parameter sets (R199) -/

/-- Whether a field of a record is zero. -/
def zeroField (bs : List Byte) (off n : Nat) : Bool := ((bs.drop off).take n).all (· == 0)

/-- The parameter set of a 128-byte record; none when a field breaks R199, its strides' multiple of 16 apart. -/
def parseSet (bs : List Byte) : Option LatheSet :=
  let ty := field bs 0 1
  let n := field bs 1 1
  let b2 := field bs 2 1
  let b3 := field bs 3 1
  let len := if bitAt b2 7 then some (bitsAt b2 4 3) else none
  let levels := (List.range 6).map (fun j => (field bs (0x10 + 16 * j) 4, field bs (0x14 + 16 * j) 4, field bs (0x18 + 16 * j) 8))
  let okLevel := fun (j : Nat) (c z st : Nat) =>
    if n ≤ j then c == 0 && z == 0 && st == 0
    else z == 0 && (if len = some j then c == 0 else c != 0)
  let ok := (ElemTy.ofCode (BitVec.ofNat 4 ty)).isSome && decide (ty < 16) && decide (1 ≤ n) && decide (n ≤ 6) &&
    bitsAt b2 0 4 == 0 && decide (bitsAt b2 4 3 < n) && bitsAt b3 5 2 == 0 && zeroField bs 4 12 && zeroField bs 0x70 16 &&
    levels.zipIdx.all (fun ((c, z, st), j) => okLevel j c z st)
  if ok then some {
    ty := ty
    counts := (levels.take n).map (·.1)
    strides := (levels.take n).map (fun l => sextNat 64 l.2.2)
    lenLevel := len
    lenSeq := bitAt b3 7
    lenReg := bitsAt b3 0 5 }
  else none

/-- The bytes of a plane's record. -/
def planeBytes (p : Plane) (off n : Nat) : List Byte := rawBytes p.bytes off n

/-- Whether every stride is a multiple of 16. -/
def LatheSet.aligned (l : LatheSet) : Bool := l.strides.all (fun x => x % 16 == 0)

/-- The counts of a walk with the length resolved. -/
def walkCounts (h : Head) : List Nat :=
  h.params.counts.zipIdx.map (fun (c, j) => if h.params.lenLevel = some j then h.len else c)

/-- Points in the walk. -/
def walkSize (h : Head) : Nat := (walkCounts h).foldl (· * ·) 1

/-- The offset of point P: the last level varies fastest (R200). Counts and strides come last level first. -/
def pointOffset : List (Nat × Int) → Nat → Int
  | [], _ => 0
  | (c, st) :: r, p => ((p % c : Nat) : Int) * st + pointOffset r (p / c)

/-- The address of point P. -/
def pointAddr (h : Head) (p : Nat) : Word :=
  h.base + BitVec.ofInt 64 (pointOffset ((walkCounts h).zip h.params.strides).reverse p)

/-! ### The forms -/

/-- The current head. -/
def headOf (q : BitVec 3) : M Head := do return Map.get {} (← curCtx).heads q.toNat

/-- WSET: loads the parameters and the walk base of a closed head (R201). A misalignment trap, of the base or of a stride, shows
the walk's base. R201 does not say what a parameter set does that breaks a field rule of R199: here it raises the
illegal-encoding trap (DESIGN CHOICE, log entry 72). -/
def execWset (q : BitVec 3) (mem : Bool) (setNo rec_ base : BitVec 5) (s : State) : Host.Outcome State Fault Refusal :=
  runSlot (do
    let h ← headOf q
    needLegal (h.cond == .closed)
    let st ← get
    let b ← readP base
    let t ← templateAdd
    let addr ← if mem then readP rec_ else pure 0
    let params ← if mem then do
        needRequests ((addr.toNat % 64 + 128 + 63) / 64)
        let bs ← loadStrict true 16 addr.toNat 128
        match parseSet bs with
        | some l => pure l
        | none => illegal
      else do
        let pl := (st.core (coreOf st.issue.ctx)).active
        needLegal (decide (setNo.toNat < pl.sets))
        match parseSet (planeBytes pl (0x100 + 128 * setNo.toNat) 128) with
        | some l => pure l
        | none => illegal
    need ((b + t).toNat % 16 == 0 && params.aligned) 0x03 (b + t)
    act (.wset q.toNat { h with
      loaded := true
      mem := mem
      setNo := setNo.toNat
      recAddr := addr
      params := params
      base := b + t })) s

/-- Whether a region lies in the subtree of another: their control blocks' chain (R356). -/
def inSubtree (r root : Region) : Bool := r.chain.contains root.rcb

/-- The length of a walk (R200). -/
def walkLength (h : Head) : M Nat := do
  match h.params.lenLevel with
  | none => pure 0
  | some _ =>
    let v ← readScalar fK h.params.lenReg
    if h.params.lenSeq then do
      let s ← get
      need (decide (v.toNat < 32768)) 0x05 v
      if s.seqBusy v.toNat then notReady else pure ()
      let q := Map.get {} s.seqs v.toNat
      if q.st = 0 then pure 0
      else do
        need (inSubtree q.region (s.ctx s.issue.ctx).region) 0x05 v
        pure q.c
    else do
      needLegal (decide (v.toNat < 2 ^ 32))
      pure v.toNat

/-- WSTART: binds a channel and starts the walk, at the end of the bundle (R200, R202). -/
def execWstart (q : BitVec 3) (s : State) : Host.Outcome State Fault Refusal :=
  runSlot (do
    let h ← headOf q
    needLegal (h.cond == .closed && h.loaded)
    let n ← walkLength h
    act (.wstart q.toNat n)) s

/-- WSTOP, with or without drain, at the end of the bundle (R203). -/
def execWstop (drain : Bool) (q : BitVec 3) (s : State) : Host.Outcome State Fault Refusal :=
  runSlot (act (.wstop q.toNat drain)) s

/-- The word of WSTAT (R207). -/
def headWord (h : Head) : Word :=
  let hold := h.cond == .holding
  let ahead := if hold && h.fault.isNone then h.ahead.length + 1 else h.ahead.length
  let cond := match h.cond with | .closed => 0 | .empty => 1 | .holding => 2
  BitVec.ofNat 64 (h.pos % 2 ^ 32 * 2 ^ 32 + ahead * 256 + b2n h.loaded * 8 + b2n (hold && h.fault.isSome) * 4 + cond)

/-- WSTAT: the head's state before the bundle, as a write of the bundle (R207). -/
def execWstat (dst : RegRef) (q : BitVec 3) (s : State) : Host.Outcome State Fault Refusal :=
  runSlot (do
    let h ← headOf q
    act (.setReg dst.file.code dst.idx.toNat ((headWord h).setWidth 2048))) s

/-! ### Channels -/

/-- The head after its walk starts (R202). -/
def Head.started (h : Head) (len order : Nat) : Head :=
  let h := { h with
    loaded := false
    len := len
    pos := 0
    next := 0
    ahead := []
    fault := none
    aheadFault := none
    stopAt := none
    latchErr := false
    start := order }
  { h with cond := if walkSize h = 0 then .closed else .empty }

/-- The number of points that the channel fetches in all. -/
def Head.limit (h : Head) : Nat := match h.stopAt with | some n => min n (walkSize h) | none => walkSize h

/-- The head after WSTOP (R203). A point at which the channel has met a fault counts as fetched. -/
def Head.stopped (h : Head) (drain : Bool) : Head :=
  if h.cond == .closed then h
  else if drain then
    let n := if h.fault.isSome || h.aheadFault.isSome then h.next + 1 else h.next
    if h.cond == .empty && h.ahead.isEmpty && h.aheadFault.isNone then { h with cond := .closed, stopAt := none }
    else { h with stopAt := some n }
  else { h with cond := .closed, ahead := [], fault := none, aheadFault := none, stopAt := none }

/-- The head after one pop (R54): the next vector, the fault in its place, empty, or closed at the walk's end. -/
def Head.popped (h : Head) : Head :=
  let h := { h with pos := h.pos + 1, latchErr := false }
  match h.ahead with
  | v :: vs => { h with latch := v, ahead := vs, cond := .holding }
  | [] =>
    match h.aheadFault with
    | some f => { h with cond := .holding, fault := some f, aheadFault := none }
    | none => { h with cond := if h.limit ≤ h.pos then .closed else .empty }

/-- Whether a channel may fetch: it runs, is not stopped at a fault, has points left, and keeps at most 16
vectors (R204, R205). -/
def Head.canFetch (h : Head) : Bool :=
  h.cond != .closed && h.fault.isNone && h.aheadFault.isNone && decide (h.next < h.limit) &&
    decide ((if h.cond == .holding then h.ahead.length + 1 else h.ahead.length) < 16)

/-- A fetched vector, or a fault, goes to the head or behind the vectors ahead of it. -/
def Head.deliver (h : Head) (r : Except (BitVec 8) VecReg) : Head :=
  let front := h.cond == .empty && h.ahead.isEmpty
  match r with
  | .ok v =>
    let h := { h with next := h.next + 1 }
    if front then { h with latch := v, cond := .holding } else { h with ahead := h.ahead ++ [v] }
  | .error c =>
    let f := (c, pointAddr h h.next)
    if front then { h with cond := .holding, fault := some f } else { h with aheadFault := some f }

/-- LATHE_FETCH: the channel of a head fetches its next point (R204, R205), when the core has requests free for its lines
(R184). It sees every store the context issued before WSTART. Of a frozen context nothing changes (R106). -/
def execLatheFetch (c q : Nat) (s : State) : Host.Outcome State Fault Refusal :=
  let x := s.ctx c
  let h := Map.get {} x.heads q
  if x.run == .dormant || x.run == .frozen || !h.canFetch || x.posted.any (fun p => p.seq < h.start) ||
      512 < requestsHeld s (coreOf c) + ((pointAddr h h.next).toNat % 64 + 256 + 63) / 64 then .next s
  else
    let put := fun (s : State) (h : Head) => s.updCtx c (fun x => { x with heads := Map.set {} x.heads q h })
    match translateRange s (s.view c) (pointAddr h h.next).toNat 256 .read with
    | .error (cause, va) => .next (put (confirmWalk s (s.view c) cause va.toNat) (h.deliver (.error cause)))
    | .ok (ps, s) =>
      match badSpan s ps with
      | some (cause, _) => .next (put s (h.deliver (.error cause)))
      | none =>
        let (bs, s) := readSpans s ps
        .next (put s (h.deliver (.ok (BitVec.ofNat 2048 (leNat bs)))))

end Sys2Proof.Machine
end

