-- ==== Sys2Proof/Machine/Tiles.lean ====
section
/-! DEFINITION. The T-slot forms at issue (R215, R219 to R226, R231 to R246): ownership, the engine's queue, the conditions
of execution, and the operands that an operation captures. -/

namespace Sys2Proof.Machine

/-! ### Ownership and queues -/

/-- A tile that a T form acts on must be the context's own (R219). -/
def ownTile (t : Nat) : M Unit := do
  let x ← curCtx
  needWord (x.tmask.getLsbD t)

/-- Both tiles of a pair. -/
def ownPair (t : Nat) : M Unit := do
  ownTile t
  ownTile (t + 1)

/-- The registers reg to reg + n − 1 lie below sys.vregs (R219). -/
def ownRegs (reg n : Nat) : M Unit := vecIndex (reg + n - 1)

def Core.queue (k : Core) : TSlot → List TOp | .t0 => k.tq0 | .t1 => k.tq1
def Core.heldOps (k : Core) : TSlot → List TOp | .t0 => k.held0 | .t1 => k.held1
def Core.setQueue (k : Core) (e : TSlot) (q : List TOp) : Core :=
  match e with | .t0 => { k with tq0 := q } | .t1 => { k with tq1 := q }
def Core.setHeldOps (k : Core) (e : TSlot) (q : List TOp) : Core :=
  match e with | .t0 => { k with held0 := q } | .t1 => { k with held1 := q }

/-- Numbers of a slot's tiles, pairs and descriptors within the core and the context (R65). -/
def tileNo (e : TSlot) (t : BitVec 2) : Nat := (e.tile t).toNat
def pairNo (e : TSlot) (p : BitVec 1) : Nat := (e.pairTile p).toNat
def descNo (e : TSlot) (d : BitVec 3) : Nat := (e.desc d).toNat
/-- A carry set's place among the context's four (R243). -/
def carryNo (e : TSlot) (set : BitVec 1) : Nat := e.num * 2 + set.toNat

/-- The core of the issuing context. -/
def curCore : M Core := do
  let s ← get
  pure (s.core (coreOf s.issue.ctx))

/-- Whether an engine holds 8 operations that have issued and not completed, those of its replay list included (R215, R228). -/
def Core.engineFull (k : Core) (e : TSlot) : Bool := decide (8 ≤ (k.queue e).length + (k.heldOps e).length)

/-- A bundle with a T-slot operation for a full engine is not ready (R215). -/
def engineRoom (e : TSlot) : M Unit := do
  let k ← curCore
  if k.engineFull e then notReady else pure ()

/-- Issue an operation into its engine's queue. -/
def issueT (e : TSlot) (kind : TKind) : M Unit := modify (fun s =>
  let c := s.issue.ctx
  let x := s.ctx c
  let op : TOp :=
    { ctx := c
      tid := x.tid
      seq := s.issue.order
      space := x.region.space
      interval := x.interval
      compat := x.compat
      kind := kind }
  s.updCore (coreOf c) (fun k => k.setQueue e (k.queue e ++ [op])))

/-- A descriptor register as it stood before the bundle. -/
def readDesc (e : TSlot) (d : BitVec 3) : M TileDesc := do return Map.get {} (← curCtx).desc (descNo e d)

/-- The tile that a retiring or freeing operation frees. -/
def TKind.frees : TKind → Option Nat
  | .zero t => some t | .rd t _ _ true _ => some t | .st t _ true => some t | _ => none

/-- A tile's depth after an operation. -/
def depthAfter (t : Nat) (d : Nat) (k : TKind) : Nat :=
  match k with
  | .mma u _ _ n => if u = t then d + n else d
  | .ld u _ => if u = t then 0 else d
  | k => if k.frees = some t then 0 else d

/-- The depth that the operations issued so far will leave a tile with (R226). -/
def issueDepth (k : Core) (e : TSlot) (t : Nat) : Nat :=
  (k.queue e).foldl (fun d o => depthAfter t d o.kind) (Map.get {} k.tiles t).depth

/-- Set or clear a pair's affine bit as the issue view has it (R240). -/
def issueAffine (t : Nat) (on : Bool) : M Unit := modify (fun s => s.updCore (coreOf s.issue.ctx) (fun k =>
  let b := BitVec.ofNat 4 (2 ^ (t / 2))
  { k with affineIssue := if on then k.affineIssue ||| b else k.affineIssue &&& ~~~b }))

/-! ### Descriptors (R222, R223) -/

/-- Bits of a descriptor. -/
def TileDesc.view (d : TileDesc) : Nat := bitsAt d.flags.toNat 0 2
def TileDesc.scales (d : TileDesc) : Bool := d.flags.getLsbD 2
def TileDesc.retain (d : TileDesc) : Bool := d.flags.getLsbD 3
def TileDesc.offset (d : TileDesc) : Int := sextNat 4 (bitsAt d.flags.toNat 4 4)
def TileDesc.cw (d : TileDesc) : Bool := d.fmt == 6
def TileDesc.fp8 (d : TileDesc) : Bool := d.fmt == 3 || d.fmt == 4
/-- Element size in bytes. -/
def TileDesc.size (d : TileDesc) : Nat := match d.fmt.toNat with | 0 => 4 | 1 => 2 | 2 => 2 | _ => 1

/-- The record's descriptor, unchecked. -/
def descOf (bs : List Byte) : TileDesc :=
  { addr0 := BitVec.ofNat 64 (field bs 0 8)
    addr1 := BitVec.ofNat 64 (field bs 8 8)
    addr2 := BitVec.ofNat 64 (field bs 0x10 8)
    scale := BitVec.ofNat 64 (field bs 0x18 8)
    stride := field bs 0x20 4
    sstride := field bs 0x24 4
    fmt := BitVec.ofNat 8 (field bs 0x28 1)
    flags := BitVec.ofNat 8 (field bs 0x29 1) }

/-- The 64 bytes of a descriptor. -/
def TileDesc.bytes (d : TileDesc) : List Byte :=
  leBytes 8 d.addr0.toNat ++ leBytes 8 d.addr1.toNat ++ leBytes 8 d.addr2.toNat ++ leBytes 8 d.scale.toNat ++
    leBytes 4 d.stride ++ leBytes 4 d.sstride ++ leBytes 1 d.fmt.toNat ++ leBytes 1 d.flags.toNat ++ leBytes 22 0

/-- The value rules of R222, the alignment of its bases apart. -/
def TileDesc.legal (d : TileDesc) : Bool :=
  (d.fmt == 0 || d.fmt == 1 || d.fmt == 2 || d.fmt == 3 || d.fmt == 4 || d.fmt == 6) && d.view != 3 &&
  (d.cw || (d.addr1 == 0 && d.addr2 == 0)) && (d.scales || d.scale == 0) &&
  (!d.cw || (d.stride == 0 && d.sstride == 0)) && (d.scales || d.sstride == 0) &&
  d.stride % 64 == 0 && d.sstride % 16 == 0 &&
  (d.view == 0 || d.cw) && (d.offset == 0 || (d.cw && d.view != 0)) &&
  (if d.cw then d.scales else if d.fp8 then true else !d.scales)

/-- The alignment rules of R222: the first base that breaks one. -/
def TileDesc.misaligned (d : TileDesc) : Option Word :=
  let bad := fun (v n : Nat) => v % n != 0
  if d.cw then
    if bad d.addr0.toNat 512 then some d.addr0
    else if bad d.addr1.toNat 512 then some d.addr1
    else if bad d.addr2.toNat 1024 then some d.addr2
    else if bad d.scale.toNat 64 then some d.scale
    else none
  else if bad d.addr0.toNat 64 then some d.addr0
  else if bad d.scale.toNat 16 then some d.scale
  else none

/-- The descriptor of a record, or the cause and detail with which its load fails (R221, R222). `where_` is the detail of
an illegal record. -/
def parseDesc (bs : List Byte) (where_ : Word) : Except (BitVec 8 × Word) TileDesc :=
  let d := descOf bs
  if !(d.legal && zeroField bs 0x2A 22) then .error (0x01, where_)
  else match d.misaligned with
    | some v => .error (0x03, v)
    | none => .ok d

/-- The pairs of R223. -/
def pairOk (a b : TileDesc) : Bool :=
  match a.fmt.toNat, b.fmt.toNat with
  | 3, 6 | 4, 6 | 3, 3 | 4, 3 | 1, 6 | 1, 1 | 2, 2 => true
  | _, _ => false

/-! ### The forms -/

/-- TCFG: the engine's pair, ahead of time (R223). -/
def execTcfg (e : TSlot) (dA dB : BitVec 3) (s : State) : Host.Outcome State Fault Refusal :=
  runSlot (do
    engineRoom e
    let a ← readDesc e dA
    let b ← readDesc e dB
    needLegal (pairOk a b)
    issueT e (.cfg a.fmt.toNat b.fmt.toNat)) s

/-- TDRAIN: not ready until the context's earlier operations on the engine have completed (R224). -/
def execTdrain (e : TSlot) (_dA : BitVec 3) (s : State) : Host.Outcome State Fault Refusal :=
  runSlot (do
    engineRoom e
    let st ← get
    let k ← curCore
    if (k.queue e ++ k.heldOps e).any (fun o => o.tid == (st.ctx st.issue.ctx).tid && o.seq < st.issue.order) then notReady
    else pure ()) s

/-- TZERO: frees its tile, in queue order (R231). -/
def execTzero (e : TSlot) (t : BitVec 2) (s : State) : Host.Outcome State Fault Refusal :=
  runSlot (do
    ownTile (tileNo e t)
    engineRoom e
    issueT e (.zero (tileNo e t))
    issueAffine (tileNo e t) false) s

/-- The activation descriptor after K columns (R226). -/
def TileDesc.advA (d : TileDesc) (k : Nat) : TileDesc :=
  { d with
    addr0 := d.addr0 + BitVec.ofNat 64 (k * d.size)
    scale := if d.scales then d.scale + BitVec.ofNat 64 (k / 32) else d.scale }

/-- The weight descriptor after K rows (R226). -/
def TileDesc.advB (d : TileDesc) (k : Nat) : TileDesc :=
  if d.cw then
    { d with
      addr0 := d.addr0 + BitVec.ofNat 64 (16 * k)
      addr1 := d.addr1 + BitVec.ofNat 64 (16 * k)
      addr2 := d.addr2 + BitVec.ofNat 64 (32 * k)
      scale := d.scale + BitVec.ofNat 64 (2 * k) }
  else
    { d with
      addr0 := d.addr0 + BitVec.ofNat 64 (k * d.stride)
      scale := if d.scales then d.scale + BitVec.ofNat 64 (k / 32 * d.sstride) else d.scale }

/-- TMMA (R226): its conditions in order, the captured descriptors, and their advance at the end of the bundle. -/
def execTmma (adv : Bool) (e : TSlot) (t : BitVec 2) (dA dB : BitVec 3) (k : BitVec 33) (s : State) :
    Host.Outcome State Fault Refusal :=
  runSlot (do
    ownTile (tileNo e t)
    engineRoom e
    let a ← readDesc e dA
    let b ← readDesc e dB
    let x ← curCtx
    let core ← curCore
    let n := k.toNat
    needLegal (pairOk a b)
    needLegal (n != 0 && n % 32 == 0)
    need (decide (issueDepth core e (tileNo e t) + n ≤ x.maxred.toNat)) 0x2A (BitVec.ofNat 64 n)
    issueT e (.mma (tileNo e t) a b n)
    if adv then do
      act (.setDesc (descNo e dA) (a.advA n))
      act (.setDesc (descNo e dB) ((if dA = dB then a.advA n else b).advB n))
    else pure ()) s

/-- TAFF: affine mode of a pair (R240). -/
def execTaff (ident off : Bool) (e : TSlot) (pair : BitVec 1) (s : State) : Host.Outcome State Fault Refusal :=
  runSlot (do
    ownPair (pairNo e pair)
    engineRoom e
    issueT e (.aff (pairNo e pair) ident off)
    issueAffine (pairNo e pair) (!off)) s

/-- TSCAN: the pair must be affine as the earlier-issued operations will leave it (R240, R242). -/
def execTscan (carry : Bool) (e : TSlot) (pair set : BitVec 1) (n : BitVec 7) (s : State) :
    Host.Outcome State Fault Refusal :=
  runSlot (do
    ownPair (pairNo e pair)
    engineRoom e
    let k ← curCore
    needLegal (k.affineIssue.getLsbD (pairNo e pair / 2))
    issueT e (.scan (pairNo e pair) carry (carryNo e set) n.toNat)) s

/-- The file of a T form's register field. -/
def tFile (w : Bool) : Nat := if w then fW else fV

/-- TCARRY: the carry sets, in queue order (R243). Its sources are read at issue (R220). -/
def execTcarry (op : TCarryOp) (w : Bool) (e : TSlot) (t : BitVec 2) (set : BitVec 1) (reg : BitVec 10) (s : State) :
    Host.Outcome State Fault Refusal :=
  runSlot (do
    ownTile (tileNo e t)
    let r := reg.toNat
    match op with
    | .ident => pure ()
    | .h => ownRegs r 1
    | _ => ownRegs r 2
    engineRoom e
    let st ← get
    match op with
    | .ident => issueT e (.carry op (carryNo e set) 0 0 st.issue.order)
    | .h => do
      let a ← readReg (tFile w) r
      issueT e (.carry op (carryNo e set) a 0 st.issue.order)
    | .wr => do
      let a ← readReg (tFile w) r
      let b ← readReg (tFile w) (r + 1)
      issueT e (.carry op (carryNo e set) a b st.issue.order)
    | .rd => do
      pendResult [(tFile w, r), (tFile w, r + 1)] none
      issueT e (.carry op (carryNo e set) 0 0 st.issue.order)) s

/-- TRD: rows of a tile into registers, each scoreboarded; the retiring form frees the tile (R233, R234). -/
def execTrd (retire w : Bool) (e : TSlot) (t : BitVec 2) (reg : BitVec 10) (row0 n1 : BitVec 6) (s : State) :
    Host.Outcome State Fault Refusal :=
  runSlot (do
    ownTile (tileNo e t)
    let n := n1.toNat + 1
    ownRegs reg.toNat n
    engineRoom e
    let st ← get
    pendResult ((List.range n).map (fun i => (tFile w, reg.toNat + i))) none
    issueT e (.rd (tileNo e t) row0.toNat n retire st.issue.order)
    if retire then issueAffine (tileNo e t) false else pure ()) s

/-- The rows that TWR reads at issue. -/
def readRows (file reg : Nat) : Nat → M (List VecReg)
  | 0 => pure []
  | n + 1 => do
    let v ← readReg file reg
    let vs ← readRows file (reg + 1) n
    pure (v :: vs)

/-- TWR: registers into rows of a tile (R233). -/
def execTwr (w : Bool) (e : TSlot) (t : BitVec 2) (reg : BitVec 10) (row0 n1 : BitVec 6) (s : State) :
    Host.Outcome State Fault Refusal :=
  runSlot (do
    ownTile (tileNo e t)
    ownRegs reg.toNat (n1.toNat + 1)
    engineRoom e
    let rows ← readRows (tFile w) reg.toNat (n1.toNat + 1)
    issueT e (.wr (tileNo e t) row0.toNat rows)) s

/-- The formats that TLD and TST move (R232). -/
def TileDesc.moves (d : TileDesc) : Bool := d.fmt == 0 || d.fmt == 1

/-- TLD: a tile from memory (R232). -/
def execTld (e : TSlot) (t : BitVec 2) (dA : BitVec 3) (s : State) : Host.Outcome State Fault Refusal :=
  runSlot (do
    ownTile (tileNo e t)
    engineRoom e
    let d ← readDesc e dA
    needLegal d.moves
    issueT e (.ld (tileNo e t) d)) s

/-- TST: a tile to memory, its retiring form freeing it at completion (R232, R234). -/
def execTst (retire : Bool) (e : TSlot) (t : BitVec 2) (dA : BitVec 3) (s : State) : Host.Outcome State Fault Refusal :=
  runSlot (do
    ownTile (tileNo e t)
    engineRoom e
    let d ← readDesc e dA
    needLegal d.moves
    issueT e (.st (tileNo e t) d retire)
    if retire then issueAffine (tileNo e t) false else pure ()) s

/-- TRED: a reduction of the tile along an axis into one register (R238). -/
def execTred (op : TRedOp) (cols w : Bool) (e : TSlot) (t : BitVec 2) (reg : BitVec 10) (s : State) :
    Host.Outcome State Fault Refusal :=
  runSlot (do
    ownTile (tileNo e t)
    ownRegs reg.toNat 1
    engineRoom e
    let st ← get
    pendResult [(tFile w, reg.toNat)] none
    issueT e (.red (tileNo e t) op cols st.issue.order)) s

/-- TCOMB: RESCALE of the triples of a pair, with those of the engine's other pair or folded (R246). -/
def execTcomb (fold : Bool) (e : TSlot) (pair : BitVec 1) (n : BitVec 7) (s : State) : Host.Outcome State Fault Refusal :=
  runSlot (do
    ownPair (pairNo e pair)
    if fold then pure () else ownPair (pairNo e (pair + 1))
    engineRoom e
    issueT e (.comb (pairNo e pair) (pairNo e (pair + 1)) fold n.toNat)) s

/-- TRES: the status word or the horizon word, in queue order (R239). -/
def execTres (hz clr : Bool) (e : TSlot) (t : BitVec 2) (dst : RegRef) (s : State) : Host.Outcome State Fault Refusal :=
  runSlot (do
    ownTile (tileNo e t)
    engineRoom e
    let st ← get
    pendResult [(dst.file.code, dst.idx.toNat)] none
    issueT e (.res (tileNo e t) hz clr st.issue.order)) s

/-- TDESC: a checked record becomes the descriptor at the end of the bundle (R221). -/
def execTdesc (e : TSlot) (dA : BitVec 3) (src : TDescSrc) (s : State) : Host.Outcome State Fault Refusal :=
  runSlot (do
    engineRoom e
    let bs ← match src with
      | .const o => do
        let k ← curCore
        needLegal (k.active.cond == .loaded && decide (o.toNat + 64 ≤ k.active.constLen))
        pure (planeBytes k.active (0x1100 + o.toNat) 64)
      | .reg w i => do
        vecIndex i.toNat
        let v ← readReg (tFile w) i.toNat
        pure (leBytes 64 v.toNat)
    let st ← get
    let d ← liftTrap (parseDesc bs (BitVec.ofNat 64 st.issue.word))
    act (.setDesc (descNo e dA) d)) s

end Sys2Proof.Machine
end

