-- ==== Sys2Proof/Machine/Control.lean ====
section
/-! DEFINITION. Fetching a bundle's words (R49, R369), control transfer (R130 to R132), loops (R133), END and YIELD
(R135, R136). -/

namespace Sys2Proof.Machine

/-! ### Fetch -/

/-- Whether a plane holds the code at an address (R369). An empty plane holds none (R371). -/
def Plane.holds (p : Plane) (addr : Nat) : Bool :=
  p.cond == .loaded && decide (p.codeBase.toNat ≤ addr) && decide (addr < p.codeBase.toNat + p.codeLen)

/-- The plane's word at a code address. -/
def Plane.word (p : Plane) (addr : Nat) : Word :=
  BitVec.ofNat 64 (leNat (planeBytes p (0x3100 + (addr - p.codeBase.toNat)) 8))

/-- The word at an address, for a context: from the active plane, or as far code, whose faults carry the fetch address. -/
def fetchWord (s : State) (c : Nat) (far : Bool) (addr : Word) : Except (BitVec 8 × Word) (Word × State) :=
  let pl := (s.core (coreOf c)).active
  if !far && pl.holds addr.toNat then .ok (pl.word addr.toNat, s)
  else match translate s (s.view c) addr.toNat .fetch with
    | .error cause => .error (cause, addr)
    | .ok (pa, _, s) =>
      match s.badAt pa 8 with
      | some cause => .error (cause, addr)
      | none =>
        let (bs, s) := s.readAt pa 8
        .ok (BitVec.ofNat 64 (leNat bs), s)

/-- Fetch the word at an address as a condition of execution. -/
def fetchCond (addr : Word) : M Word := do
  let s ← get
  let (w, s) ← liftTrap (fetchWord s s.issue.ctx false addr)
  set s
  pure w

/-- The address after a bundle whose header word is `h`. -/
def afterBundle (addr : Word) (h : Word) : Word := addr + BitVec.ofNat 64 (8 * bundleWords (Header.ofWord h).slots)

/-- The address of the bundle that follows the one being issued. -/
def Issue.next (i : Issue) : Word := i.addr + BitVec.ofNat 64 (8 * i.words)

/-- A transfer or LOOP may stand neither in a delay bundle nor in a loop-end bundle (R131, R134). -/
def noTransferHere : M Unit := do
  let s ← get
  needWord (!(s.ctx s.issue.ctx).delay && s.issue.kind != 1)

/-! ### Transfers -/

/-- The target of a relative transfer (R130). -/
def relTarget (i : Issue) (off : BitVec 30) : Word := i.addr + (off.signExtend 64 <<< 3)

/-- The target of an indirect transfer, which must be a multiple of 8 (R130). -/
def aligned8 (t : Word) : M Word := do
  need (t.toNat % 8 == 0) 0x03 t
  pure t

/-- BR (R130). -/
def execBr (off : BitVec 30) (s : State) : Host.Outcome State Fault Refusal :=
  runSlot (do
    noTransferHere
    let st ← get
    act (.transfer (relTarget st.issue off))) s

/-- BRC: taken when the predicate, XOR negate, is 1; its next bundle is a delay bundle either way (R130, R131). -/
def execBrc (neg : Bool) (g : BitVec 3) (off : BitVec 30) (s : State) : Host.Outcome State Fault Refusal :=
  runSlot (do
    noTransferHere
    let v ← readReg fG g.toNat
    let st ← get
    if v.getLsbD 0 != neg then act (.transfer (relTarget st.issue off)) else act .delayOnly) s

/-- JMP (R130). -/
def execJmp (base : BitVec 5) (off : BitVec 30) (s : State) : Host.Outcome State Fault Refusal :=
  runSlot (do
    noTransferHere
    let b ← readK base
    let t ← aligned8 (b + (off.signExtend 64 <<< 3))
    act (.transfer t)) s

/-- CALL: the link is the bundle after the delay bundle, whose header word is fetched for it (R130). -/
def execCall (indirect : Bool) (link base : BitVec 5) (off : BitVec 30) (s : State) : Host.Outcome State Fault Refusal :=
  runSlot (do
    noTransferHere
    let st ← get
    let t ← if indirect then do
        let b ← readK base
        aligned8 (b + (off.signExtend 64 <<< 3))
      else pure (relTarget st.issue off)
    let pl := (st.core (coreOf st.issue.ctx)).active
    let d := st.issue.next
    needLegal (!pl.holds st.issue.addr.toNat || decide (d.toNat < pl.codeBase.toNat + pl.codeLen))
    let h ← fetchCond d
    act (.setReg fK link.toNat ((afterBundle d h).setWidth 2048))
    act (.transfer t)) s

/-- RET (R130). -/
def execRet (link : BitVec 5) (s : State) : Host.Outcome State Fault Refusal :=
  runSlot (do
    noTransferHere
    let t ← readK link
    let t ← aligned8 t
    act (.transfer t)) s

/-- LOOP: writes the level's counter and start; a count of 0 goes past the loop-end bundle (R133). -/
def execLoop (level : BitVec 2) (count : Option (BitVec 5)) (off : BitVec 30) (s : State) :
    Host.Outcome State Fault Refusal :=
  runSlot (do
    noTransferHere
    needWord (decide (0 < off.toInt))
    let n ← match count with
      | some k => readK k
      | none => do
        let i ← headerImm
        pure (i.setWidth 64)
    let st ← get
    let e := relTarget st.issue off
    if n = 0 then do
      let h ← fetchCond e
      needLegal ((Header.ofWord h).kind == 1)
      act (.goto (afterBundle e h))
    else pure ()
    act (.setReg fK (24 + 2 * level.toNat) (n.setWidth 2048))
    act (.setReg fK (25 + 2 * level.toNat) (st.issue.next.setWidth 2048))) s

/-- END: after its bundle the context issues nothing more (R135). -/
def execEnd_ (s : State) : Host.Outcome State Fault Refusal := runSlot (act .ended) s

/-- YIELD (R136). -/
def execYield (s : State) : Host.Outcome State Fault Refusal := runSlot (act .yield) s

end Sys2Proof.Machine
end

