-- ==== Sys2Proof/Machine/CBuf.lean ====
section
/-! DEFINITION. Circular buffers (R209 to R213). -/

namespace Sys2Proof.Machine

/-- The handle of a 32-byte record, invalid when a field breaks R210; the position comes from the counter. -/
def parseHandle (bs : List Byte) (pos : Nat) : Handle :=
  let base := field bs 0 8
  let size := field bs 8 4
  let cnt := field bs 12 2
  let b := field bs 14 1
  let ctl := field bs 16 8
  let ok := base % 64 == 0 && size % 64 == 0 && decide (64 ≤ size) && decide (size ≤ 2 ^ 24) && decide (1 ≤ cnt) &&
    decide (cnt ≤ 4096) && decide (bitsAt b 1 3 ≤ 4) && bitsAt b 4 4 == 0 && field bs 15 1 == 0 && ctl % 64 == 0
  { valid := ok
    base := BitVec.ofNat 64 base
    size := size
    count := cnt
    producer := bitAt b 0
    scope := bitsAt b 1 3
    ctl := BitVec.ofNat 64 ctl
    pos := pos }

/-- The counter a handle advances, and the one it watches (R209, R212). -/
def Handle.own (h : Handle) : Word := if h.producer then h.ctl else h.ctl + 8
def Handle.other (h : Handle) : Word := if h.producer then h.ctl + 8 else h.ctl

/-- The value of a counter for the issuing context: translated, and its uncorrectable data trap at the bundle (R275). -/
def readCounter (va : Word) : M (Nat × Nat) := do
  let s ← get
  let (pa, v, s) ← liftTrap (counterAt s (s.view s.issue.ctx) va)
  set s
  pure (pa, v)

/-- CBSET: record and own counter into the handle, at the end of the bundle (R211), with a free request for each line (R184). Both reads complete at issue, so an
uncorrectable record or counter traps at this bundle: R211 does not say how its scoreboarded reads report it (DESIGN CHOICE,
log entry 72). -/
def execCbset (cb : BitVec 4) (base : BitVec 5) (off : Int) (s : State) : Host.Outcome State Fault Refusal :=
  runSlot (do
    let p ← readP base
    let ea := p + BitVec.ofInt 64 off
    needRequests 1
    let bs ← loadStrict true 32 ea.toNat 32
    let h := parseHandle bs 0
    if h.valid then do
      needRequests (if ea.toNat / 64 = h.own.toNat / 64 then 1 else 2)
      let (_, v) ← readCounter h.own
      act (.setHandle cb.toNat { h with pos := v })
    else act (.setHandle cb.toNat { h with valid := false })) s

/-- The handle, which must be valid, with n in range and no version for a producer's wait or a consumer's advance. R213 states
no trap for CBADV's n and version; it is that of CBWAIT here (DESIGN CHOICE, log entry 72). -/
def handleOf (cb : BitVec 4) (n : BitVec 10) : M Handle := do
  let h := Map.get {} (← curCtx).handles cb.toNat
  needLegal (h.valid && decide (1 ≤ n.toNat) && decide (n.toNat ≤ h.count))
  pure h

/-- The address of the version of slot j (R209). -/
def versionVa (h : Handle) (j : Nat) : Nat := (h.ctl + BitVec.ofNat 64 (64 + 2 * (j % h.count))).toNat

/-- The versions of the slots pos to pos + n − 1. -/
def versionRanges (h : Handle) (n : Nat) : List (Nat × Nat) := (List.range n).map (fun i => (versionVa h (h.pos + i), 2))

/-- Whether every version read is `v`. -/
def versionsEq (bs : List Byte) (n v : Nat) : Bool := (List.range n).all (fun i => field bs (2 * i) 2 == v)

/-- Whether every version of the slots pos to pos + n − 1 is `v`. -/
def versionsAre (h : Handle) (n v : Nat) : M Bool := do
  let (bs, bad) ← loadBytes true 2 (versionRanges h n)
  match bad with
  | some (c, t) => condTrap c t
  | none => pure (versionsEq bs n v)

/-- CBWAIT: waits until the handle's condition holds, then acquires and writes the slot's address (R212). -/
def execCbwait (dst : RegRef) (cb : BitVec 4) (n : BitVec 10) (version : BitVec 16) (s : State) :
    Host.Outcome State Fault Refusal :=
  runSlot (do
    let h ← handleOf cb n
    needLegal (!h.producer || version == 0)
    let (pa, v) ← readCounter h.other
    let tgt := if h.producer then h.pos + n.toNat - h.count else h.pos + n.toNat
    let ok ← if tgt ≤ v then (if h.producer then pure true else versionsAre h n.toNat version.toNat) else pure false
    let st ← get
    if ok then do
      modify (fun s => acquireSide s s.issue.ctx (s.sideStatus pa) h.scope)
      act (.setReg dst.file.code dst.idx.toNat
        ((h.base + BitVec.ofNat 64 (h.pos % h.count * h.size)).setWidth 2048))
    else throw (.held (waitOn st
      { ctx := st.issue.ctx, pa := pa, va := h.other, tgt := tgt, handle := some (cb.toNat, n.toNat, version.toNat), seen := v }))) s

/-- CBADV: a producer's versions, then the releasing add, and the handle's position (R213). -/
def execCbadv (cb : BitVec 4) (n : BitVec 10) (version : BitVec 16) (s : State) : Host.Outcome State Fault Refusal :=
  runSlot (do
    let h ← handleOf cb n
    needLegal (h.producer || version == 0)
    if h.producer then
      storeRanges 2 ((List.range n.toNat).map (fun i => (versionVa h (h.pos + i), 2)))
        ((List.range n.toNat).flatMap (fun _ => leBytes 2 version.toNat))
    else pure ()
    let st ← get
    let (pa, st') ← liftTrap (translateCounter st (st.view st.issue.ctx) h.own .counterAdd)
    set st'
    let i ← advanceInterval
    modCtx (fun x => { x with posted := x.posted ++ [⟨st.issue.order, i, .add h.own pa n.toNat true, 0⟩] })
    act (.setHandle cb.toNat { h with pos := h.pos + n.toNat })) s

end Sys2Proof.Machine
end

