-- ==== Sys2Proof/Machine/MemForms.lean ====
section
/-! DEFINITION. The load, store, atomic and prefetch forms of the L slot (R186 to R198). -/

namespace Sys2Proof.Machine

/-- LDS: one element, extended by its type (R189). -/
def execLds (ty : ElemTy) (dst : RegRef) (base : BitVec 5) (addr : LAddr) (s : State) :
    Host.Outcome State Fault Refusal :=
  runSlot (do
    let ea ← eaOf base addr
    let rs := [(ea.toNat, elemBytes ty)]
    needRequests (if inAperture rs then 0 else 1)
    let (bs, bad) ← loadBytes true (elemBytes ty) rs
    deliverLoad (inAperture rs) dst.file.code dst.idx.toNat ((extElem ty (leNat bs)).setWidth 2048)
      (bad.map (fun e => (e.1, ea)))) s

/-- STS: the low w bits of the source (R189). -/
def execSts (ty : ElemTy) (src : RegRef) (base : BitVec 5) (addr : LAddr) (s : State) :
    Host.Outcome State Fault Refusal :=
  runSlot (do
    let v ← readScalar src.file.code src.idx.toNat
    let ea ← eaOf base addr
    storeRanges (elemBytes ty) [(ea.toNat, elemBytes ty)] (leBytes (elemBytes ty) v.toNat)) s

/-- Bytes that VLD and VST move, and their alignment: a vector by its elements, a mask whole (R182, R190). -/
def vecBytes (r : RegRef) : Nat := if r.file.isMask then 32 else 256
def vecAlign (ty : ElemTy) (r : RegRef) : Nat := if r.file.isMask then 32 else elemBytes ty

/-- An L-form vector register's index below sys.vregs (R67). -/
def lVecIndex (r : RegRef) : M Unit := if r.file.isVector then vecIndex r.idx.toNat else pure ()

/-- VLD (R190). -/
def execVld (ty : ElemTy) (dst : RegRef) (base : BitVec 5) (addr : LAddr) (s : State) :
    Host.Outcome State Fault Refusal :=
  runSlot (do
    lVecIndex dst
    let ea ← eaOf base addr
    loadInto (vecAlign ty dst) [(ea.toNat, vecBytes dst)] id (some ea) 0 dst.file.code dst.idx.toNat) s

/-- VST (R190). -/
def execVst (ty : ElemTy) (src : RegRef) (base : BitVec 5) (addr : LAddr) (s : State) :
    Host.Outcome State Fault Refusal :=
  runSlot (do
    lVecIndex src
    let v ← readReg src.file.code src.idx.toNat
    let ea ← eaOf base addr
    storeRanges (vecAlign ty src) [(ea.toNat, vecBytes src)] (leBytes (vecBytes src) v.toNat)) s

/-- The addresses of the lanes of a strided form (R191). -/
def strideRanges (ty : ElemTy) (ea st : Word) : List (Nat × Nat) :=
  (List.range ty.lanes).map (fun i => ((ea + BitVec.ofNat 64 i * st).toNat, elemBytes ty))

/-- VLDS: N elements at stride S (R191). -/
def execVlds (ty : ElemTy) (dst : RegRef) (base stride : BitVec 5) (off : Int) (s : State) :
    Host.Outcome State Fault Refusal :=
  runSlot (do
    lVecIndex dst
    let ea ← eaOff base off
    let st ← readP stride
    loadInto (elemBytes ty) (strideRanges ty ea st) id none 0 dst.file.code dst.idx.toNat) s

/-- VSTS: lanes stored in ascending order (R191). -/
def execVsts (ty : ElemTy) (src : RegRef) (base stride : BitVec 5) (off : Int) (s : State) :
    Host.Outcome State Fault Refusal :=
  runSlot (do
    lVecIndex src
    let v ← readReg src.file.code src.idx.toNat
    let ea ← eaOff base off
    let st ← readP stride
    storeRanges (elemBytes ty) (strideRanges ty ea st) (leBytes 256 v.toNat)) s

/-- The active lanes of a gather or scatter: element number and address (R192). -/
def gatherLanes (ty : ElemTy) (h : BitVec 2) (index : VecReg) (ea : Word) : List (Nat × Nat) :=
  let m := min 64 ty.lanes
  (List.range m).filterMap (fun i =>
    let idx := laneAt 32 index i
    if idx = 0xFFFFFFFF then none
    else some (h.toNat * 64 + i, (ea + BitVec.ofNat 64 (idx * elemBytes ty)).toNat))

/-- The cycles for which a gather or scatter occupies the L port (R180): the distinct granules of the busiest bank. -/
def bankBusy (rs : List (Nat × Nat)) : Nat :=
  let gs := (rs.filter (fun r => inAperture [r])).map (fun (va, _) => (va - apertureBase) / 16)
  let gs := gs.eraseDups
  ((List.range 16).map (fun b => (gs.filter (fun g => g % 16 == b)).length)).foldl max 1

/-- Occupy the L port from this clock cycle on (R180); the next clock cycle is the first that counts one off. -/
def holdPort (rs : List (Nat × Nat)) : M Unit :=
  modify (fun s => s.updCore (coreOf s.issue.ctx) (fun k => { k with lBusy := if 1 < bankBusy rs then bankBusy rs else 0 }))

/-- VGATH: inactive lanes and the lanes outside part h keep their value at issue (R192). -/
def execVgath (ty : ElemTy) (h : BitVec 2) (dst : RegRef) (base : BitVec 5) (index : BitVec 10) (off : Int) (s : State) :
    Host.Outcome State Fault Refusal :=
  runSlot (do
    lVecIndex dst
    vecIndex index.toNat
    let ix ← readReg dst.file.code index.toNat
    let old ← readReg dst.file.code dst.idx.toNat
    let ea ← eaOff base off
    let ls := gatherLanes ty h ix ea
    let rs := ls.map (fun (_, a) => (a, elemBytes ty))
    let n := elemBytes ty
    loadInto n rs (fun o => match ls[o / n]? with | some (j, _) => j * n + o % n | none => 0) none old dst.file.code dst.idx.toNat
    holdPort rs) s

/-- VSCAT: of two lanes with one index the higher one's value remains (R192). -/
def execVscat (ty : ElemTy) (h : BitVec 2) (src : RegRef) (base : BitVec 5) (index : BitVec 10) (s : State) :
    Host.Outcome State Fault Refusal :=
  runSlot (do
    lVecIndex src
    vecIndex index.toNat
    let ix ← readReg src.file.code index.toNat
    let v ← readReg src.file.code src.idx.toNat
    let ea ← eaOff base 0
    let ls := gatherLanes ty h ix ea
    let rs := ls.map (fun (_, a) => (a, elemBytes ty))
    storeRanges (elemBytes ty) rs (ls.flatMap (fun (j, _) => leBytes (elemBytes ty) (laneAt ty.width v j)))
    holdPort rs) s

/-- ATOM: translated and checked at issue, then performed at its bank or home (R193, R195). -/
def execAtom (op : AtomOp) (ty : ElemTy) (dst : Option RegRef) (src : RegRef) (base : BitVec 5) (off : Int) (s : State) :
    Host.Outcome State Fault Refusal :=
  runSlot (do
    let x ← readScalar src.file.code src.idx.toNat
    let y ← if op = .cas then readScalar src.file.code (src.idx.toNat + 1) else pure 0
    let ea ← eaOff base off
    let ps ← accessSpans .atomic (elemBytes ty) [(ea.toNat, elemBytes ty)]
    needRequests 1
    match ps with
    | p :: _ => do
      let st ← get
      let seq := st.issue.order
      match dst with
      | some d => pendResult [(d.file.code, d.idx.toNat)] none
      | none => pure ()
      modCtx (fun c => { c with posted := c.posted ++ [⟨seq, c.interval,
        .atom op ty ea p.pa x y (if dst.isSome then some seq else none), st.nextId⟩] })
      modify (fun s => { s with nextId := s.nextId + 1 })
    | [] => pure ()) s

/-- Mark a line retained; in a set where half the ways hold retained lines, the least recently marked one loses its mark (R198). -/
def retain (s : State) (line : Nat) : State :=
  let l := s.retained.filter (· != line)
  let peers := s.inSet line l
  let l := if peers.length < max 1 (Config.l2Ways / 2) then l else match peers with
    | old :: _ => l.filter (· != old)
    | [] => l
  { s with retained := l ++ [line] }

/-- The lines that the L2 caches are those of HBM4E: vault direct space and scratchpads are not cached there (R296). -/
def inHbm (pa : Nat) : Bool := match locOf pa with | .hbm _ _ => true | _ => false

/-- PREF: a hint that changes no value and never traps after decode (R197). Three readings are the model's (log entry 66): a base
register that holds an error traps the bundle at issue as any reading of it does (R103, R104), four lines of which any lies in
the aperture do nothing, and only lines of HBM4E are marked retained. -/
def execPref (action : BitVec 2) (base : BitVec 5) (off : Int) (s : State) : Host.Outcome State Fault Refusal :=
  runSlot (do
    let ea ← eaOff base off
    let st ← get
    let va := ea.toNat / 64 * 64
    if apertureBase < va + 256 then pure ()
    else match translateRange st (st.view st.issue.ctx) va 256 .read with
      | .error _ => pure ()
      | .ok (ps, _) =>
        let lines := (ps.flatMap (fun p => (List.range (p.len / 64)).map (fun i => p.pa + 64 * i)))
        match action.toNat with
        | 2 => set ((lines.filter inHbm).foldl retain st)
        | 3 => set { st with retained := st.retained.filter (fun l => !lines.contains l) }
        | _ => pure ()) s

end Sys2Proof.Machine
end

