-- ==== Sys2Proof/Machine/Rescale.lean ====
section
/-! DEFINITION. FP32 arithmetic with RNE and subnormals kept, on bits, and the RESCALE operator (R245). -/

namespace Sys2Proof.Machine

/-- An exact FP32 result rounded once by RNE. -/
def rn32 (r : FRes) : Nat := (r.deliver .fp32 .rne 0 false).1
/-- FP32 bits as a value. -/
def v32 (b : Nat) : FVal := FFmt.fp32.decode b
def isNan32 (b : Nat) : Bool := (v32 b).isNan
def add32 (a b : Nat) : Nat := rn32 (fAdd .rne (v32 a) (v32 b))
def mul32 (a b : Nat) : Nat := rn32 (fMul (v32 a) (v32 b))
def fma32 (a b c : Nat) : Nat := rn32 (fFma .rne (v32 a) (v32 b) (v32 c))
def max32 (a b : Nat) : Nat := (fMinMax .fp32 false true a b).1
def nan32 : Nat := 0x7FC00000
def one32 : Nat := 0x3F800000
def negInf32 : Nat := 0xFF800000

/-- The exact difference of two values that are no NaN; of equal infinities a NaN. -/
def exactSub (x y : FVal) : FVal :=
  match x, y with
  | .inf a, .inf b => if a == b then .nan false else .inf a
  | .inf a, _ => .inf a
  | _, .inf b => .inf (!b)
  | .num _ _ ex, .num _ _ ey =>
    let q := min ex ey
    let d := x.scaled q - y.scaled q
    .num (decide (d < 0)) d.natAbs q
  | _, _ => .nan false

/-- RN(exp2(a − m)), the difference exact. -/
def weight32 (a m : Nat) : Nat := rn32 (fExp2 (exactSub (v32 a) (v32 m)))

/-- RESCALE of two triples of FP32 words, the left one of the lower rank (R245). -/
def rescale (l r : Nat × Nat × List Nat) : Nat × Nat × List Nat :=
  let (m1, s1, v1) := l
  let (m2, s2, v2) := r
  if isNan32 m1 || isNan32 m2 then (nan32, nan32, v1.map (fun _ => nan32))
  else
    let m := max32 m1 m2
    if m = negInf32 then (m, 0, v1.map (fun _ => 0))
    else
      let a1 := weight32 m1 m
      let a2 := weight32 m2 m
      let one := fun (x y : Nat) => fma32 a1 x (mul32 a2 y)
      (m, one s1 s2, (v1.zip v2).map (fun (x, y) => one x y))

end Sys2Proof.Machine
end

