-- ==== Sys2Proof/Machine/VecInt.lean ====
section
/-! DEFINITION. The integer, logic, comparison, selection and mask forms of the V slots (R153 to R159). -/

namespace Sys2Proof.Machine

/-- Narrow an exact integer by the mode: wrapping, or saturating with the saturate flag (R29, R153). -/
def viNarrow (ty : ElemTy) (m : VIMode) (i : Int) : Nat × Nat :=
  match m with
  | .wrap => (intBits ty i, 0)
  | .sat =>
    let (lo, hi) := intRange ty.width ty.signed
    let (c, cl) := clampInt lo hi i
    (intBits ty c, if cl then fSaturate else 0)
  | .hi => (intBits ty (i / ((2 ^ ty.width : Nat) : Int)), 0)

/-- An integer form with two sources. -/
def viBin (f : VBin) (op : Int → Int → Nat × Nat) : M Unit := do
  let a ← readV f.slot f.ty f.a
  let b ← readV f.slot f.ty f.b
  landVX f.slot f.ty f.mask f.dst 2 (fun i =>
    op (laneInt f.ty (laneAt f.ty.width a i)) (laneInt f.ty (laneAt f.ty.width b i)))

/-- A logic or shift form over lane bits. -/
def vlBin (f : VBin) (op : Nat → Nat → Nat) : M Unit := do
  let a ← readV f.slot f.ty f.a
  let b ← readV f.slot f.ty f.b
  landVX f.slot f.ty f.mask f.dst 2 (fun i => (op (laneAt f.ty.width a i) (laneAt f.ty.width b i), 0))

/-- VIADD (R153). -/
def execViadd (m : VIMode) (f : VBin) (s : State) : Host.Outcome State Fault Refusal :=
  runSlot (viBin f (fun a b => viNarrow f.ty m (a + b))) s

/-- VISUB (R153). -/
def execVisub (m : VIMode) (f : VBin) (s : State) : Host.Outcome State Fault Refusal :=
  runSlot (viBin f (fun a b => viNarrow f.ty m (a - b))) s

/-- VIMUL, with the high half in mode 10 (R153). -/
def execVimul (m : VIMode) (f : VBin) (s : State) : Host.Outcome State Fault Refusal :=
  runSlot (viBin f (fun a b => viNarrow f.ty m (a * b))) s

/-- VIMAD: A × B + C exact before narrowing (R153). -/
def execVimad (m : VIMode) (f : VTer) (s : State) : Host.Outcome State Fault Refusal :=
  runSlot (do
    let a ← readV f.slot f.ty f.a
    let b ← readV f.slot f.ty f.b
    let c ← readV f.slot f.ty f.c
    let l := fun v i => laneInt f.ty (laneAt f.ty.width v i)
    landVX f.slot f.ty f.mask f.dst 2 (fun i => viNarrow f.ty m (l a i * l b i + l c i))) s

/-- VIMIN (R153). -/
def execVimin (f : VBin) (s : State) : Host.Outcome State Fault Refusal :=
  runSlot (viBin f (fun a b => (intBits f.ty (min a b), 0))) s

/-- VIMAX (R153). -/
def execVimax (f : VBin) (s : State) : Host.Outcome State Fault Refusal :=
  runSlot (viBin f (fun a b => (intBits f.ty (max a b), 0))) s

/-- VAND (R154). -/
def execVand (f : VBin) (s : State) : Host.Outcome State Fault Refusal :=
  runSlot (vlBin f Nat.land) s

/-- VOR (R154). -/
def execVor (f : VBin) (s : State) : Host.Outcome State Fault Refusal :=
  runSlot (vlBin f Nat.lor) s

/-- VXOR (R154). -/
def execVxor (f : VBin) (s : State) : Host.Outcome State Fault Refusal :=
  runSlot (vlBin f Nat.xor) s

/-- VSHL by B mod w (R154). -/
def execVshl (f : VBin) (s : State) : Host.Outcome State Fault Refusal :=
  runSlot (vlBin f (fun a b => a * 2 ^ (b % f.ty.width) % 2 ^ f.ty.width)) s

/-- VSHR: zeros in (R154). -/
def execVshr (f : VBin) (s : State) : Host.Outcome State Fault Refusal :=
  runSlot (vlBin f (fun a b => a / 2 ^ (b % f.ty.width))) s

/-- VSAR: copies of the top bit in (R154). -/
def execVsar (f : VBin) (s : State) : Host.Outcome State Fault Refusal :=
  runSlot (vlBin f (fun a b =>
    wrapInt f.ty.width (sextNat f.ty.width a / ((2 ^ (b % f.ty.width) : Nat) : Int)))) s

/-- The condition of VCMP on one lane, and its flags (R125, R156). -/
def vCond (x : Ctx) (ty : ElemTy) (c : FCond) (a b : Nat) : Bool × Nat :=
  match fmtOf ty with
  | some g => fCompare c (g.operand x.compat a) (g.operand x.compat b)
  | none =>
    let x := laneInt ty a
    let y := laneInt ty b
    (match c with
     | .eq => x == y | .ne => x != y | .lt => decide (x < y) | .le => decide (x ≤ y) | .gt => decide (y < x)
     | .ge => decide (y ≤ x) | .un => false | .ord => true, 0)

/-- The mask whose bit i is `f i`. -/
def maskOf (f : Nat → Bool) : MaskReg := BitVec.ofNat 256 (packLanes 1 ((List.range 256).map (fun i => b2n (f i))))

/-- Land a mask on the slot's own mask file. -/
def landMask (slot : VSlot) (dst : Nat) (m : MaskReg) : M Unit :=
  landAt (VSlot.maskFile slot) dst (m.setWidth 2048) 2

/-- VCMP writes mask dst: active lanes the condition, inactive lanes their bit at issue, 0 from N up (R156). -/
def execVcmp (c : FCond) (f : VBin) (s : State) : Host.Outcome State Fault Refusal :=
  runSlot (do
    let a ← readV f.slot f.ty f.a
    let b ← readV f.slot f.ty f.b
    let x ← curCtx
    let active ← readActive f.slot f.mask
    let d := f.dst.toNat % 8
    let old ← if f.mask.isSome then readMask f.slot (BitVec.ofNat 3 d) else pure 0
    let out := (List.range f.ty.lanes).map (fun i =>
      if active i then vCond x f.ty c (laneAt f.ty.width a i) (laneAt f.ty.width b i) else (old.getLsbD i, 0))
    mergeFlags (orAll (out.map (·.2)))
    landMask f.slot d (BitVec.ofNat 256 (packLanes 1 (out.map (fun r => b2n r.1))))) s

/-- VSEL: A where the selector's bit is 1, else B; every lane written (R157). -/
def execVsel (f : VBin) (s : State) : Host.Outcome State Fault Refusal :=
  runSlot (do
    let a ← readV f.slot f.ty f.a
    let b ← readV f.slot f.ty f.b
    let on ← readSelector f.slot f.mask
    landV f.slot f.dst (ofLanes f.ty.width ((List.range f.ty.lanes).map (fun i =>
      laneAt f.ty.width (if on i then a else b) i))) 2) s

/-- VMASK (R158). DESIGN CHOICE: the mask form nz tests the lane's bits as they stand, so a BF16 subnormal counts as not zero
in compat mode too; neither R158 nor R39 says whether a mask form reads its lanes as numbers (log entry 71). -/
def execVmask (op : VMaskOp) (slot : VSlot) (dst : BitVec 3) (s : State) : Host.Outcome State Fault Refusal :=
  runSlot (do
    let two := fun (a b : BitVec 3) (g : MaskReg → MaskReg → MaskReg) => do
      let x ← readMask slot a
      let y ← readMask slot b
      landMask slot dst.toNat (g x y)
    match op with
    | .and a b => two a b (· &&& ·)
    | .or a b => two a b (· ||| ·)
    | .xor a b => two a b (· ^^^ ·)
    | .andn a b => two a b (fun x y => x &&& ~~~y)
    | .not a => do
      let x ← readMask slot a
      landMask slot dst.toNat (~~~x)
    | .first a => do
      let v ← readV slot .fp32 a
      let n := min (laneAt 32 v 0) 256
      landMask slot dst.toNat (maskOf (fun i => decide (i < n)))
    | .nz ty a => do
      let v ← readV slot ty a
      let zero := fun (x : Nat) => if ty.isF then x % 2 ^ (ty.width - 1) == 0 else x == 0
      landMask slot dst.toNat (maskOf (fun i => decide (i < ty.lanes) && !zero (laneAt ty.width v i)))
    | .neg ty a => do
      let v ← readV slot ty a
      landMask slot dst.toNat (maskOf (fun i => decide (i < ty.lanes) && bitAt (laneAt ty.width v i) (ty.width - 1)))) s

/-- VMOV: A in the active lanes (R155). -/
def execVmov (f : VUn) (s : State) : Host.Outcome State Fault Refusal :=
  runSlot (do
    let a ← readV f.slot f.ty f.a
    landVX f.slot f.ty f.mask f.dst 2 (fun i => (laneAt f.ty.width a i, 0))) s

/-- The number of set bits below `n` of a selector. -/
def countBelow (on : Nat → Bool) (n : Nat) : Nat := ((List.range n).filter on).length

/-- VCNT: every lane the count of set bits among 0 to N − 1 (R159). -/
def execVcnt (f : VNul) (s : State) : Host.Outcome State Fault Refusal :=
  runSlot (do
    let on ← readSelector f.slot f.mask
    landV f.slot f.dst (splat f.ty.width (countBelow on f.ty.lanes)) 2) s

/-- VIOTA: lane i the count of set bits below i (R159). -/
def execViota (f : VNul) (s : State) : Host.Outcome State Fault Refusal :=
  runSlot (do
    let on ← readSelector f.slot f.mask
    landV f.slot f.dst (ofLanes f.ty.width ((List.range f.ty.lanes).map (countBelow on))) 2) s

end Sys2Proof.Machine
end

