-- ==== Sys2Proof/Machine/VecMove.lean ====
section
/-! DEFINITION. Lane movement, prefix sums, reductions, search, random lanes, classification and copies between files of
the V slots (R160 to R163, R171 to R174). -/

namespace Sys2Proof.Machine

/-- The lanes of an operand in its type. -/
def lanesOf (ty : ElemTy) (v : VecReg) : List Nat := toLanes ty.width ty.lanes v

/-- VPERM: d[i] := A[B[i] mod N] (R160). -/
def execVperm (f : VBin) (s : State) : Host.Outcome State Fault Refusal :=
  runSlot (do
    let a ← readV f.slot f.ty f.a
    let b ← readV f.slot f.ty f.b
    landVX f.slot f.ty f.mask f.dst 3 (fun i =>
      (laneAt f.ty.width a (laneAt f.ty.width b i % f.ty.lanes), 0))) s

/-- VBCAST: d[i] := A[j] (R160). -/
def execVbcast (j : BitVec 8) (f : VUn) (s : State) : Host.Outcome State Fault Refusal :=
  runSlot (do
    let a ← readV f.slot f.ty f.a
    landVX f.slot f.ty f.mask f.dst 3 (fun _ => (laneAt f.ty.width a j.toNat, 0))) s

/-- VSLIDE: A above lane s, then B (R160). -/
def execVslide (n : BitVec 8) (f : VBin) (s : State) : Host.Outcome State Fault Refusal :=
  runSlot (do
    let a ← readV f.slot f.ty f.a
    let b ← readV f.slot f.ty f.b
    landVX f.slot f.ty f.mask f.dst 3 (fun i =>
      let j := i + n.toNat
      (if j < f.ty.lanes then laneAt f.ty.width a j else laneAt f.ty.width b (j - f.ty.lanes), 0))) s

/-- VCOMP: the selected lanes of A in order, then zeros (R160). -/
def execVcomp (f : VUn) (s : State) : Host.Outcome State Fault Refusal :=
  runSlot (do
    let a ← readV f.slot f.ty f.a
    let on ← readSelector f.slot f.mask
    landV f.slot f.dst (ofLanes f.ty.width (((List.range f.ty.lanes).filter on).map (laneAt f.ty.width a))) 4) s

/-- VEXPD: the next lane of A at each selected lane; the others keep their value (R160). -/
def execVexpd (f : VUn) (s : State) : Host.Outcome State Fault Refusal :=
  runSlot (do
    let a ← readV f.slot f.ty f.a
    let on ← readSelector f.slot f.mask
    landLanes f.slot f.ty.width f.mask on f.dst ((List.range f.ty.lanes).map (fun i =>
      laneAt f.ty.width a (countBelow on i))) 4) s

/-! ### Fixed orders -/

/-- RNE sum of two running values of a format, subnormals kept: bits and flags (R45, R46). -/
def addRne (g : FFmt) (a b : Nat) : Nat × Nat :=
  (fAdd .rne (g.decode a) (g.decode b)).deliver g .rne 0 false

/-- The lanes of a floating-point operand as they enter a prefix sum or an additive tree, and their flags: a NaN becomes
canonical, a signalling one invalid, and a BF16 subnormal is zero in compat mode; nothing else changes (R28, R39). -/
def sumLanes (ty : ElemTy) (compat : Bool) (l : List Nat) : List Nat × Nat :=
  let e := l.map (convertElem compat .rne 0 false false ty ty)
  (e.map (·.1), orAll (e.map (·.2)))

/-- One step of the Kogge–Stone order at distance d (R46): the lanes, and the flags so far. -/
def scanStep (add : Nat → Nat → Nat × Nat) (d : Nat) (y : List Nat) (fl : Nat) : List Nat × Nat :=
  let out := (y.zip (List.replicate d none ++ y.map some)).map (fun (x, p) =>
    match p with | some q => add x q | none => (x, 0))
  (out.map (·.1), Nat.lor fl (orAll (out.map (·.2))))

/-- All steps at distances d, 2d, … below n; recursion on the steps left. -/
def scanFrom (add : Nat → Nat → Nat × Nat) (n : Nat) : Nat → Nat → List Nat → Nat → List Nat × Nat
  | 0, _, y, fl => (y, fl)
  | k + 1, d, y, fl =>
    if n ≤ d then (y, fl) else
      let (y, fl) := scanStep add d y fl
      scanFrom add n k (2 * d) y fl

/-- VPSUM (R161). -/
def execVpsum (f : VUn) (s : State) : Host.Outcome State Fault Refusal :=
  runSlot (do
    let a ← readV f.slot f.ty f.a
    let x ← curCtx
    let active ← readActive f.slot f.mask
    let n := f.ty.lanes
    let start := (lanesOf f.ty a).zipIdx.map (fun (v, i) => if active i then v else 0)
    match fmtOf f.ty with
    | some g => do
      let _ ← drawIf (g.narrow && !x.compat) (blocks n)
      readOld f.slot f.mask f.dst
      let (start, fl) := sumLanes f.ty x.compat start
      let (y, fl) := scanFrom (addRne g) n 8 1 start fl
      mergeFlags fl
      landLanes f.slot f.ty.width f.mask active f.dst y 6
    | none => do
      let (y, _) := scanFrom (fun p q => ((p + q) % 2 ^ f.ty.width, 0)) n 8 1 start 0
      landLanes f.slot f.ty.width f.mask active f.dst y 6) s

/-- Combine neighbours: one level of the pairwise tree (R45). -/
def pairUp (node : Nat → Nat → Nat × Nat) : List Nat → List Nat × Nat
  | a :: b :: l =>
    let (c, fl) := node a b
    let (r, fr) := pairUp node l
    (c :: r, Nat.lor fl fr)
  | l => (l, 0)

/-- The root of the pairwise tree and the flags of its nodes; recursion on the levels. -/
def treeReduce (node : Nat → Nat → Nat × Nat) : Nat → List Nat → Nat × Nat
  | 0, l => (at0 l 0, 0)
  | k + 1, l =>
    let (l', fl) := pairUp node l
    let (r, fr) := treeReduce node k l'
    (r, Nat.lor fl fr)

/-- The identity of MAX or MIN in a type (R162). -/
def extremeId (ty : ElemTy) (max : Bool) : Nat :=
  match fmtOf ty with
  | some g => g.signBit max + (if g = .e4m3 then g.maxBits else g.infBits)
  | none =>
    let (lo, hi) := intRange ty.width ty.signed
    intBits ty (if max then lo else hi)

/-- A MAX or MIN node (R45, R152). -/
def extremeNode (x : Ctx) (ty : ElemTy) (max : Bool) (a b : Nat) : Nat × Nat :=
  match fmtOf ty with
  | some g => fMinMax g x.compat max a b
  | none => (if (laneInt ty a ≤ laneInt ty b) != max then a else b, 0)

/-- VRED: the root in every lane of the result format (R162). -/
def execVred (op : VRedOp) (f : VUn) (s : State) : Host.Outcome State Fault Refusal :=
  runSlot (do
    let a ← readV f.slot f.ty f.a
    let x ← curCtx
    let active ← readActive f.slot f.mask
    let lanes := fun (ident : Nat) => (lanesOf f.ty a).zipIdx.map (fun (v, i) => if active i then v else ident)
    match op, fmtOf f.ty with
    | .sum, some g => do
      let _ ← drawIf (g.narrow && !x.compat) (blocks f.ty.lanes)
      let (l, f0) := sumLanes f.ty x.compat (lanes 0)
      let (r, fl) := treeReduce (addRne g) 8 l
      mergeFlags (Nat.lor f0 fl)
      landV f.slot f.dst (splat f.ty.width r) 6
    | .sum, none => do
      let (r, _) := treeReduce (fun p q => ((p + q) % 2 ^ f.ty.width, 0)) 8 (lanes 0)
      landV f.slot f.dst (splat f.ty.width r) 6
    | .sumw, g => do
      let g := g.getD .fp32
      let wide := (lanes 0).map (fun v => (g.operand x.compat v).res.deliver .fp32 .rne 0 false)
      let (r, fl) := treeReduce (addRne .fp32) 8 (wide.map (·.1))
      mergeFlags (Nat.lor fl (orAll (wide.map (·.2))))
      landV f.slot f.dst (splat 32 r) 6
    | .max, _ => do
      let (r, fl) := treeReduce (extremeNode x f.ty true) 8 (lanes (extremeId f.ty true))
      mergeFlags fl
      landV f.slot f.dst (splat f.ty.width r) 6
    | .min, _ => do
      let (r, fl) := treeReduce (extremeNode x f.ty false) 8 (lanes (extremeId f.ty false))
      mergeFlags fl
      landV f.slot f.dst (splat f.ty.width r) 6) s

/-- VFIND: the lowest searched lane that satisfies the condition, or N, in each 32-bit element (R163). -/
def execVfind (c : VFindCond) (f : VBin) (s : State) : Host.Outcome State Fault Refusal :=
  runSlot (do
    let a ← readV f.slot f.ty f.a
    let b ← readV f.slot f.ty f.b
    let x ← curCtx
    let active ← readActive f.slot f.mask
    let cc := match c with | .gt => FCond.gt | .ge => .ge | .eq => .eq | .ne => .ne
    let hit := fun i => active i && (vCond x f.ty cc (laneAt f.ty.width a i) (laneAt f.ty.width b i)).1
    landV f.slot f.dst (splat 32 (((List.range f.ty.lanes).find? hit).getD f.ty.lanes)) 6) s

/-! ### Random lanes, classes and copies between files -/

/-- VRAND: 16 blocks of the stream, as words or as FP32 values in [0, 1) (R171). -/
def execVrand (f : VNul) (s : State) : Host.Outcome State Fault Refusal :=
  runSlot (do
    let u ← draw 16
    landVX f.slot f.ty f.mask f.dst 6 (fun i =>
      (if f.ty = .u32 then u i
       else (FRes.deliver .fp32 .rne 0 false (FVal.num false (u i / 256) (-24)).res).1, 0))) s

/-- VCLASS (R172). -/
def execVclass (f : VUn) (s : State) : Host.Outcome State Fault Refusal :=
  runSlot (do
    let a ← readV f.slot f.ty f.a
    landVX f.slot f.ty f.mask f.dst 2 (fun i => (fClass (fmtD f.ty) (laneAt f.ty.width a i), 0))) s

/-- A lane as a 64-bit scalar: sign-extended for signed integer types (R173). -/
def laneWord (ty : ElemTy) (x : Nat) : Word :=
  if ty.signed then BitVec.ofInt 64 (sextNat ty.width x) else BitVec.ofNat 64 (x % 2 ^ ty.width)

/-- VXFER: the whole vector to the other vector file, or a lane to a scalar file (R173). -/
def execVxfer (file : VXferFile) (j : BitVec 8) (f : VUn) (s : State) : Host.Outcome State Fault Refusal :=
  runSlot (do
    let a ← readV f.slot f.ty f.a
    let v : VecReg := (laneWord f.ty (laneAt f.ty.width a j.toNat)).setWidth 2048
    let d := f.dst.toNat
    match file with
    | .other => do
      vecIndex d
      landAt (VSlot.other f.slot) d a 3
    | .a => landAt fA d v 3
    | .b => landAt fB d v 3
    | .p => landAt fP d v 3
    | .k => landAt fK d v 3) s

/-- VINS: lane j := lane 0 of A; the other lanes keep their value (R174). -/
def execVins (j : BitVec 8) (f : VUn) (s : State) : Host.Outcome State Fault Refusal :=
  runSlot (do
    let a ← readV f.slot f.ty f.a
    vecIndex f.dst.toNat
    let d ← readReg (VSlot.file f.slot) f.dst.toNat
    landV f.slot f.dst (ofLanes f.ty.width ((lanesOf f.ty d).set j.toNat (laneAt f.ty.width a 0))) 2) s

end Sys2Proof.Machine
end

