-- ==== Sys2Proof/Machine/Matrix.lean ====
section
/-! DEFINITION. The matrix engines at work: operand fetch (R225, R227), block sums and accumulation (R42), affine maps and
the scan network (R240 to R244), faults, residue and replay (R217, R228, R229), and TILE_OPERATION_EXECUTE. -/

namespace Sys2Proof.Machine

/-! ### Rows of tiles -/

/-- Row `m` of a tile as 64 FP32 words, and the register that holds 64 words. -/
def tileRow (t : Tile) (m : Nat) : List Nat := toLanes 32 64 (Map.get 0 t.rows m)
def rowReg (l : List Nat) : VecReg := ofLanes 32 l
/-- A tile with one row replaced. -/
def Tile.setRow (t : Tile) (m : Nat) (l : List Nat) : Tile := { t with rows := Map.set 0 t.rows m (rowReg l) }
/-- A tile's rows as lists. -/
def tileRows (t : Tile) : List (List Nat) := (List.range 64).map (tileRow t)
/-- A tile with its first rows replaced. -/
def Tile.setRows (t : Tile) (ls : List (List Nat)) : Tile :=
  ls.zipIdx.foldl (fun t (l, m) => t.setRow m l) t
/-- The rows of a list of columns. -/
def transpose (cols : List (List Nat)) (n : Nat) : List (List Nat) := (List.range n).map (fun i => cols.map (fun c => at0 c i))

/-! ### Operands in memory (R225) -/

/-- An operand's array for one block of 32 along K: its bytes, or the fault with the address of the element. -/
abbrev Fetch (α : Type) := Except (BitVec 8 × Word) α

/-- Read a stretch of an operand. -/
def fetchAt (v : View) (s : State) (va len : Nat) : Fetch (List Byte × State) := readVia s v (va % 2 ^ 64) len

/-- Read a stretch for each of a list of addresses. -/
def fetchRows (v : View) (len : Nat) : List Nat → State → Fetch (List (List Byte) × State)
  | [], s => .ok ([], s)
  | a :: as, s =>
    match fetchAt v s a len with
    | .error e => .error e
    | .ok (b, s) => match fetchRows v len as s with
      | .error e => .error e
      | .ok (bs, s) => .ok (b :: bs, s)

/-- The elements of a row of bytes. -/
def elemsOf (size : Nat) (bs : List Byte) (n : Nat) : List Nat := (List.range n).map (fun i => field bs (size * i) size)

/-- A block of 32 along K of the activation: rows of 32 element words, and the scale of each row. -/
def fetchA (v : View) (d : TileDesc) (kb : Nat) (s : State) : Fetch (List (List Nat) × List Nat × State) := do
  let (rows, s) ← fetchRows v (32 * d.size)
    ((List.range 64).map (fun m => d.addr0.toNat + m * d.stride + 32 * kb * d.size)) s
  let (scs, s) ← if d.scales then
      fetchRows v 1 ((List.range 64).map (fun m => d.scale.toNat + m * d.sstride + kb)) s
    else pure ((List.range 64).map (fun _ => [127]), s)
  pure (rows.map (fun r => elemsOf d.size r 32), scs.map leNat, s)

/-- The code of a CW8 weight from the planes of its block (R33); planes that the view does not read hold nothing. -/
def planeCode (hi mid lo : List Byte) (k n : Nat) : Nat :=
  let two := fun (p : List Byte) => bitsAt (field p (16 * k + n / 4) 1) (2 * (n % 4)) 2
  two hi * 64 + two mid * 16 + bitsAt (field lo (32 * k + n / 2) 1) (4 * (n % 2)) 4

/-- A block of 32 along K of the weights: rows of 64 element words or codes, and the scale of each column. Only the arrays
of a CW8 view are read (R227). -/
def fetchB (v : View) (d : TileDesc) (kb : Nat) (s : State) : Fetch (List (List Nat) × List Nat × State) := do
  if d.cw then
    let (hi, s) ← fetchAt v s (d.addr0.toNat + 512 * kb) 512
    let (mid, s) ← if d.view = 2 then pure ([], s) else fetchAt v s (d.addr1.toNat + 512 * kb) 512
    let (lo, s) ← if d.view = 0 then fetchAt v s (d.addr2.toNat + 1024 * kb) 1024 else pure ([], s)
    let (sc, s) ← fetchAt v s (d.scale.toNat + 64 * kb) 64
    pure ((List.range 32).map (fun k => (List.range 64).map (planeCode hi mid lo k)), elemsOf 1 sc 64, s)
  else
    let (rows, s) ← fetchRows v (64 * d.size)
      ((List.range 32).map (fun k => d.addr0.toNat + (32 * kb + k) * d.stride)) s
    let (sc, s) ← if d.scales then fetchAt v s (d.scale.toNat + kb * d.sstride) 64
      else pure (List.replicate 64 127, s)
    pure (rows.map (fun r => elemsOf d.size r 64), elemsOf 1 sc 64, s)

/-! ### Block sums and accumulation (R42) -/

/-- A contribution to an accumulator. -/
inductive Contrib
  | nan
  | inf (neg : Bool)
  | num (s : Int) (e : Int)
  deriving DecidableEq, Repr

/-- An element of an operand format as a value; weights in CW8 by their view (R32). -/
def elemVal (compat : Bool) (fmt view : Nat) (x : Nat) : FVal :=
  match fmt with
  | 6 =>
    let i := cwValue (match view with | 0 => .cw8 | 1 => .cw4 | _ => .cw2) x
    .num (decide (i < 0)) i.natAbs (-6)
  | 3 => FFmt.e4m3.decode x
  | 4 => FFmt.e5m2.decode x
  | 2 => FFmt.fp16.decode x
  | _ => FFmt.bf16.operand compat x

/-- Every exact block sum is a multiple of 2 to this power. -/
def sumGrid : Int := -300

/-- A product added to a block sum: NaN absorbs, infinities of both signs or ∞ × 0 give NaN. -/
def addProduct (c : Contrib) (a b : FVal) : Contrib :=
  if a.isNan || b.isNan || infTimesZero a b then .nan else
  match c, prodFin a b with
  | .nan, _ => .nan
  | .inf n, .inf m => if n == m then .inf n else .nan
  | .inf n, _ => .inf n
  | .num _ _, .inf m => .inf m
  | .num s e, p => .num (s + p.scaled sumGrid) e

/-- The exact block sum S. -/
def blockSum (as bs : List FVal) : Contrib := (as.zip bs).foldl (fun c (a, b) => addProduct c a b) (.num 0 sumGrid)

/-- A contribution scaled by a power of two. -/
def Contrib.scale (c : Contrib) (f : Int) : Contrib := match c with | .num s e => .num s (e + f) | c => c

/-- The accumulator after one contribution, and whether it saturated and whether a NaN arose (R42). -/
def accumulate (acc : Nat) (c : Contrib) : Nat × Bool × Bool :=
  match c with
  | .nan => (nan32, false, true)
  | _ =>
    let cv : FVal := match c with | .inf n => .inf n | .num s e => .num (decide (s < 0)) s.natAbs e | .nan => .nan false
    match fAdd .rne (v32 acc) cv with
    | .nan _ => (nan32, false, true)
    | .inf n f => ((FRes.inf n f).deliver .fp32 .rne 0 false |>.1, false, false)
    | .real n x =>
      let r := rn32 (.real n x)
      if r % 2 ^ 31 = 0x7F800000 then (FFmt.fp32.signBit n + FFmt.fp32.maxBits, true, false) else (r, false, false)
    | .zero n => (FFmt.fp32.signBit n, false, false)

/-- One block of 8 or 32 products for every element: rows of accumulators, saturated, invalid. `ea` is indexed by row and
`ew` by column. -/
def accBlock (acc : List (List Nat)) (as : List (List FVal)) (bs : List (List FVal)) (ea ew : List Nat) (scaleA : Bool)
    (off : Int) : List (List Nat) × Bool × Bool :=
  let out := (acc.zip (as.zip ea)).map (fun (row, (a, (sa : Nat))) => (row.zip (bs.zip ew)).map (fun (x, (b, (sw : Nat))) =>
    let c : Contrib := if sa = 255 || sw = 255 then .nan
      else (blockSum a b).scale ((if scaleA then ((sa + sw : Nat) : Int) - 254 else ((sw : Nat) : Int) - 127) + off)
    accumulate x c))
  (out.map (fun r => r.map (·.1)), out.any (fun r => r.any (·.2.1)), out.any (fun r => r.any (·.2.2)))

/-- The columns of rows of weights. -/
def columnsOf (rows : List (List FVal)) : List (List FVal) :=
  (List.range 64).map (fun n => rows.map (fun r => (r[n]?).getD (.num false 0 0)))

/-- The blocks of one 32-row stretch of K, ascending: one of 32, or four of 8 (R42). -/
def accStretch (acc : List (List Nat)) (a b : TileDesc) (compat : Bool) (ra : List (List Nat)) (ea : List Nat)
    (rb : List (List Nat)) (ew : List Nat) : List (List Nat) × Bool × Bool :=
  let va := ra.map (fun r => r.map (elemVal compat a.fmt.toNat 0))
  let vb := rb.map (fun r => r.map (elemVal compat b.fmt.toNat b.view))
  let off : Int := if b.cw && b.view != 0 then b.offset else 0
  if a.fp8 then accBlock acc va (columnsOf vb) ea ew true off
  else
    let ew := if b.cw then ew else List.replicate 64 127
    [0, 8, 16, 24].foldl (fun (acc, st, iv) k =>
      let (acc, s', i') := accBlock acc (va.map (fun r => (r.drop k).take 8)) (columnsOf ((vb.drop k).take 8))
        (List.replicate 64 127) ew false off
      (acc, st || s', iv || i')) (acc, false, false)

/-- The whole product, block after block along K. -/
def mmaBlocks (v : View) (a b : TileDesc) (compat : Bool) : Nat → Nat → List (List Nat) → Bool × Bool → State →
    Fetch (List (List Nat) × (Bool × Bool) × State)
  | 0, _, acc, st, s => .ok (acc, st, s)
  | n + 1, kb, acc, st, s => do
    let (ra, ea, s) ← fetchA v a kb s
    let (rb, ew, s) ← fetchB v b kb s
    let (acc, sat, inv) := accStretch acc a b compat ra ea rb ew
    mmaBlocks v a b compat n (kb + 1) acc (st.1 || sat, st.2 || inv) s

/-- Mark the lines of HBM that the fetch brought for addr0 retained, with the descriptor's retain bit (R227). -/
def retainRange (s : State) (v : View) (d : TileDesc) (ranges : List (Nat × Nat)) : State :=
  if !d.retain then s else
  ranges.foldl (fun s (va, len) =>
    match translateRange s v (va % 2 ^ 64) len .read with
    | .error _ => s
    | .ok (ps, _) => ps.foldl (fun s p => match locOf p.pa with
      | .hbm _ _ => (List.range ((p.pa + p.len - 1) / 64 - p.pa / 64 + 1)).foldl (fun s i => retain s ((p.pa / 64 + i) * 64)) s
      | _ => s) s) s

/-- The stretches of memory that a TMMA reads at addr0 of its operands. -/
def retainA (d : TileDesc) (k : Nat) : List (Nat × Nat) := (List.range 64).map (fun m => (d.addr0.toNat + m * d.stride, k * d.size))
def retainB (d : TileDesc) (k : Nat) : List (Nat × Nat) :=
  if d.cw then [(d.addr0.toNat, 16 * k)] else (List.range k).map (fun j => (d.addr0.toNat + j * d.stride, 64 * d.size))

/-! ### Affine maps (R241, R242) -/

/-- An element of a pair: gain and offset, and whether a flush has replaced a non-zero gain of its column. -/
abbrev AMap := Nat × Nat

/-- flush: a non-zero gain below 2^-126 becomes +0 (R241). -/
def flush32 (g : Nat) : Nat × Bool :=
  let m := g % 2 ^ 31
  if 0 < m && m < 2 ^ 23 then (0, true) else (g, false)

/-- A later map after an earlier one. -/
def composeA (later earlier : AMap) : AMap × Bool :=
  let (g, h) := flush32 (mul32 later.1 earlier.1)
  ((g, fma32 later.1 earlier.2 later.2), h)

/-- One level of the network at distance d. -/
def scanLevel (d : Nat) (l : List AMap) (hz : Bool) : List AMap × Bool :=
  let out := (l.zip (List.replicate d none ++ l.map some)).map (fun (x, p) =>
    match p with | some q => composeA x q | none => (x, false))
  (out.map (·.1), hz || out.any (·.2))

/-- The scan of one column's maps, with a carry: the maps, the new carry, and the column's horizon bit. -/
def scanColumn (l : List AMap) (carry : Option AMap) : List AMap × Option AMap × Bool :=
  let first := l.map (fun (g, o) => let (g, h) := flush32 g; ((g, o), h))
  let (l, hz) := [1, 2, 4, 8, 16, 32].foldl (fun (l, hz) d => scanLevel d l hz) (first.map (·.1), first.any (·.2))
  match carry with
  | none => (l, none, hz)
  | some c =>
    let out := l.map (fun x => composeA x c)
    let l := out.map (·.1)
    (l, l.getLast?, hz || out.any (·.2))

/-! ### What an operation does -/

/-- What an operation comes to: done, or faulted on memory (R228). -/
inductive TDone
  | done (s : State)
  | fault (cause : BitVec 8) (tval : Word) (s : State)
  deriving DecidableEq, Repr

/-- The tile, and a change of it. -/
def tileOf (s : State) (k t : Nat) : Tile := Map.get {} (s.core k).tiles t
def setTile (s : State) (k t : Nat) (x : Tile) : State := s.updCore k (fun c => { c with tiles := Map.set {} c.tiles t x })

/-- Free a tile by retirement or TZERO: its status stays, its pair's affine bit goes (R216, R231, R234). -/
def retireTile (s : State) (k t : Nat) : State :=
  (setTile s k t (tileOf s k t).freed).updCore k (fun c =>
    { c with affine := c.affine &&& ~~~(BitVec.ofNat 4 (2 ^ (t / 2))) })

/-- The tiles that an operation names, both of a pair where it acts on or reads the pair (R228). -/
def TKind.tiles : TKind → List Nat
  | .cfg _ _ => []
  | .zero t | .mma t _ _ _ | .rd t _ _ _ _ | .wr t _ _ | .ld t _ | .st t _ _ | .red t _ _ _ => [t]
  | .aff t _ _ | .scan t _ _ _ => [t, t + 1]
  | .carry _ _ _ _ _ => []
  | .comb t t2 fold _ => if fold then [t, t + 1] else [t, t + 1, t2, t2 + 1]
  | .res t hz _ _ => if hz then [t / 2 * 2, t / 2 * 2 + 1] else [t]

/-- The carry set that an operation reads or writes. -/
def TKind.carrySet : TKind → Option Nat
  | .scan _ true set _ => some set
  | .carry _ set _ _ _ => some set
  | _ => none

/-- The elements of tiles that an operation reads, as tile, first row, rows and columns (R217). -/
def TKind.reads : TKind → List (Nat × Nat × Nat × Nat)
  | .mma t _ _ _ | .st t _ _ | .red t _ _ _ => [(t, 0, 64, 64)]
  | .rd t r n _ _ => [(t, r, n, 64)]
  | .scan t _ _ n => [(t, 0, n, 64), (t + 1, 0, n, 64)]
  | .comb t t2 fold n =>
    [(t, 0, n, 64), (t + 1, 0, n, 2)] ++ (if fold then [] else [(t2, 0, n, 64), (t2 + 1, 0, n, 2)])
  | _ => []

/-- The first tile of which an operation would read an uncorrectable element. -/
def badTile (s : State) (k : Nat) (o : TKind) : Option Nat :=
  (o.reads.find? (fun (t, r, n, c) =>
    (tileOf s k t).bad.any (fun (i, j) => decide (r ≤ i) && decide (i < r + n) && decide (j < c)))).map (·.1)

/-- The status word of a tile (R216). -/
def statusWord (s : State) (k t : Nat) : Word :=
  let x := tileOf s k t
  let c := s.core k
  BitVec.ofNat 64 (x.depth % 2 ^ 13 * 2 ^ 16 + b2n x.live * 16 + b2n (c.affine.getLsbD (t / 2)) * 8 +
    b2n (Map.get 0 c.horizon (t / 2) != 0) * 4 + b2n x.inv * 2 + b2n x.sat)

/-- A node of TRED (R238). -/
def redNode (op : TRedOp) (a b : Nat) : Nat × Nat :=
  match op with
  | .sum => (add32 a b, 0)
  | .max => fMinMax .fp32 false true a b
  | .min => fMinMax .fp32 false false a b

/-- A TLD row as FP32 words; BF16 elements are widened as operands, under the compat rule (R218, R28, R39). -/
def loadRow (d : TileDesc) (compat : Bool) (bs : List Byte) : List Nat :=
  (elemsOf d.size bs 64).map (fun x => if d.fmt = 0 then x else ((FFmt.bf16.operand compat x).res.deliver .fp32 .rne 0 false).1)

/-- A TST row as bytes (R232). -/
def storeRow (d : TileDesc) (r : List Nat) : List Byte :=
  if d.fmt = 0 then r.flatMap (leBytes 4)
  else r.flatMap (fun x => leBytes 2 (((v32 x).res.deliver .bf16 .rne 0 false).1))

/-- TLD's rows in ascending order. -/
def loadRows (v : View) (d : TileDesc) (compat : Bool) (s : State) : Fetch (List (List Nat) × State) := do
  let (rows, s) ← fetchRows v (64 * d.size) ((List.range 64).map (fun m => d.addr0.toNat + m * d.stride)) s
  pure (rows.map (loadRow d compat), s)

/-- TST's rows from row m on, in ascending order; a fault leaves the earlier rows written (R228). -/
def storeRows (v : View) (w : Writer) (d : TileDesc) : List (List Nat) → Nat → State →
    State × Option (BitVec 8 × Word)
  | [], _, s => (s, none)
  | r :: rs, m, s =>
    let va := (d.addr0.toNat + m * d.stride) % 2 ^ 64
    match writeVia s v w va (storeRow d r) with
    | .error (c, _) => (s, some (c, BitVec.ofNat 64 va))
    | .ok s => storeRows v w d rs (m + 1) s

/-- The triple in row r of a pair (R246). -/
def tripleAt (s : State) (k t r : Nat) : Nat × Nat × List Nat :=
  let ms := tileRow (tileOf s k (t + 1)) r
  (at0 ms 0, at0 ms 1, tileRow (tileOf s k t) r)

/-- Put a triple into row r of a pair, with the invalid bits of the tiles that receive a NaN (R246). -/
def setTriple (s : State) (k t r : Nat) (x : Nat × Nat × List Nat) : State :=
  let (m, w, v) := x
  let a := (tileOf s k t).setRow r v
  let b := tileOf s k (t + 1)
  let b := b.setRow r (m :: w :: (tileRow b r).drop 2)
  let s := setTile s k t { a with inv := a.inv || v.any isNan32 }
  setTile s k (t + 1) { b with inv := b.inv || isNan32 m || isNan32 w }

/-- Carries of a context (R243): gains and offsets by column. -/
def carryOf (s : State) (c set : Nat) : List Nat × List Nat :=
  (toLanes 32 64 (Map.get 0 (s.ctx c).carryA set), toLanes 32 64 (Map.get 0 (s.ctx c).carryB set))
def setCarry (s : State) (c set : Nat) (a b : VecReg) : State :=
  s.updCtx c (fun x => { x with carryA := Map.set 0 x.carryA set a, carryB := Map.set 0 x.carryB set b })

/-- TSCAN on a pair (R242). -/
def runScan (s : State) (k c t : Nat) (carry : Bool) (set n : Nat) : State :=
  let g := tileOf s k t
  let o := tileOf s k (t + 1)
  let gr := (tileRows g).take n
  let orows := (tileRows o).take n
  let (ca, cb) := carryOf s c set
  let cols := (List.range 64).map (fun j =>
    scanColumn ((gr.zip orows).map (fun (x, y) => (at0 x j, at0 y j))) (if carry then some (at0 ca j, at0 cb j) else none))
  let gains := transpose (cols.map (fun x => x.1.map (·.1))) n
  let offs := transpose (cols.map (fun x => x.1.map (·.2))) n
  let hz := packLanes 1 (cols.map (fun x => b2n x.2.2))
  let s := setTile s k t { g.setRows gains with inv := g.inv || gains.any (fun r => r.any isNan32) }
  let s := setTile s k (t + 1) { o.setRows offs with inv := o.inv || offs.any (fun r => r.any isNan32) }
  let s := s.updCore k (fun x => { x with horizon := Map.upd 0 x.horizon (t / 2) (fun w => w ||| BitVec.ofNat 64 hz) })
  if carry then
    let cs := cols.map (fun x => x.2.1.getD (0, 0))
    setCarry s c set (rowReg (cs.map (·.1))) (rowReg (cs.map (·.2)))
  else s

/-- The effect of one operation of core `k`. -/
def runT (s : State) (k : Nat) (o : TOp) (e : TSlot) : TDone :=
  let v := engineView o.space o.ctx
  match o.kind with
  | .cfg a w => .done (s.updCore k (fun c => match e with
      | .t0 => { c with pair0 := some (a, w) } | .t1 => { c with pair1 := some (a, w) }))
  | .zero t => .done (retireTile s k t)
  | .mma t a b n =>
    let s := s.updCore k (fun c => match e with
      | .t0 => { c with pair0 := some (a.fmt.toNat, b.fmt.toNat) } | .t1 => { c with pair1 := some (a.fmt.toNat, b.fmt.toNat) })
    let x := tileOf s k t
    match mmaBlocks v a b o.compat (n / 32) 0 (tileRows x) (false, false) s with
    | .error (c, tv) => .fault c tv s
    | .ok (rows, (sat, inv), s) =>
      let s := retainRange (retainRange s v a (retainA a n)) v b (retainB b n)
      .done (setTile s k t { x.setRows rows with
        live := true
        depth := x.depth + n
        sat := x.sat || sat
        inv := x.inv || inv })
  | .aff t ident off =>
    let bit := BitVec.ofNat 4 (2 ^ (t / 2))
    if off then .done (s.updCore k (fun c => { c with affine := c.affine &&& ~~~bit }))
    else
      let s := s.updCore k (fun c => { c with affine := c.affine ||| bit })
      let g := { tileOf s k t with live := true }
      let f := { tileOf s k (t + 1) with live := true }
      let g := if ident then g.setRows (List.replicate 64 (List.replicate 64 one32)) else g
      let f := if ident then { f with rows := [] } else f
      .done (setTile (setTile s k t g) k (t + 1) f)
  | .scan t carry set n => .done (runScan s k o.ctx t carry set n)
  | .carry op set r0 r1 seq => .done (match op with
      | .ident => setCarry s o.ctx set (splat 32 one32) 0
      | .h => setCarry s o.ctx set (splat 32 one32) r0
      | .wr => setCarry s o.ctx set r0 r1
      | .rd => readyPending s o.ctx seq [Map.get 0 (s.ctx o.ctx).carryA set, Map.get 0 (s.ctx o.ctx).carryB set] none)
  | .rd t row0 n retire seq =>
    let x := tileOf s k t
    let s := readyPending s o.ctx seq ((List.range n).map (fun i => Map.get 0 x.rows (row0 + i))) none
    .done (if retire then retireTile s k t else s)
  | .wr t row0 rows =>
    let x := tileOf s k t
    let n := rows.length
    let y := rows.zipIdx.foldl (fun (x : Tile) (r, i) => { x with rows := Map.set 0 x.rows (row0 + i) r }) x
    .done (setTile s k t { y with
      live := true
      bad := x.bad.filter (fun (i, _) => !(decide (row0 ≤ i) && decide (i < row0 + n))) })
  | .ld t d =>
    match loadRows v d o.compat s with
    | .error (c, tv) => .fault c tv s
    | .ok (rows, s) =>
      let s := retainRange s v d ((List.range 64).map (fun m => (d.addr0.toNat + m * d.stride, 64 * d.size)))
      let x := tileOf s k t
      .done (setTile s k t ({ live := true, sat := x.sat, inv := x.inv : Tile }.setRows rows))
  | .st t d retire =>
    match storeRows v (s.ctxWriter o.ctx o.interval) d (tileRows (tileOf s k t)) 0 s with
    | (s, some (c, tv)) => .fault c tv s
    | (s, none) => .done (if retire then retireTile s k t else s)
  | .red t op cols seq =>
    let rows := tileRows (tileOf s k t)
    let lines := if cols then rows else transpose rows 64
    let out := lines.map (fun l => (treeReduce (redNode op) 6 l).1)
    let s := readyPending s o.ctx seq [rowReg out] none
    .done (if out.any isNan32 then setTile s k t { tileOf s k t with inv := true } else s)
  | .comb t t2 fold n =>
    let s := setTile s k t { tileOf s k t with live := true }
    let s := setTile s k (t + 1) { tileOf s k (t + 1) with live := true }
    if fold then
      .done (setTriple s k t 0 ((List.range (n - 1)).foldl (fun x r => rescale x (tripleAt s k t (r + 1))) (tripleAt s k t 0)))
    else .done ((List.range n).foldl (fun s r => setTriple s k t r (rescale (tripleAt s k t r) (tripleAt s k t2 r))) s)
  | .res t hz clr seq =>
    let c := s.core k
    let w : Word := if hz then Map.get 0 c.horizon (t / 2) else statusWord s k t
    let s := readyPending s o.ctx seq [w.setWidth 2048] none
    if !clr then .done s
    else if hz then .done (s.updCore k (fun c => { c with horizon := Map.erase c.horizon (t / 2) }))
    else .done (setTile s k t { tileOf s k t with sat := false, inv := false })

/-! ### The engine's queue -/

/-- Whether a later operation of the task waits for a held one: it names a tile of it, or it uses a carry set that it
uses (R228, R243). -/
def TKind.waitsFor (later held : TKind) : Bool :=
  later.tiles.any (fun t => held.tiles.contains t) || (later.carrySet.isSome && later.carrySet == held.carrySet)

/-- Split a queue into what is held with the operations already held, and what stays. -/
def splitHeld (tid : Nat) : List TOp → List TOp → List TOp × List TOp
  | held, [] => (held, [])
  | held, o :: q =>
    if o.tid == tid && held.any (fun h => o.kind.waitsFor h.kind) then splitHeld tid (held ++ [o]) q
    else
      let (h, k) := splitHeld tid held q
      (h, o :: k)

/-- An outside trap for a context. -/
def trapOutside (s : State) (c : Nat) (cause : BitVec 8) (tval : Word) : State :=
  s.updCtx c (fun x => { x with outside := x.outside ++ [⟨cause, tval⟩] })

/-- Hold a faulted operation with those that wait for it, and trap its context from outside (R228). -/
def holdOps (s : State) (k : Nat) (e : TSlot) (o : TOp) (rest : List TOp) (cause : BitVec 8) (tval : Word) : State :=
  let (held, keep) := splitHeld o.tid [o] rest
  let s := s.updCore k (fun c => (c.setQueue e keep).setHeldOps e (c.heldOps e ++ held))
  trapOutside s o.ctx cause tval

/-- Whether an operation touches memory, before which the context's earlier stores must be performed (R230). -/
def TKind.memory : TKind → Bool | .mma _ _ _ _ | .ld _ _ | .st _ _ _ => true | _ => false

/-- Destinations of an abandoned operation are given up with it. -/
def dropPending (s : State) (c seq : Nat) : State :=
  s.updCtx c (fun x => { x with pending := x.pending.filter (fun p => p.seq != seq) })

/-- Whether a TST writes into a shard that is releasing or converting at its die, and is held for it (R417). -/
def heldTst (s : State) (o : TOp) : Bool :=
  match o.kind with
  | .st _ d _ => (tstRows d).any (fun (a, n) => heldShard s (dieOf o.ctx) o.space a n)
  | _ => false

/-- TILE_OPERATION_EXECUTE: the operation at the head of an engine's queue (R215). `residueFails` is how often the mod-7
check of a TMMA fails: a first failure replays it unseen, a second one holds it (R229). -/
def execTileOperationExecute (k : Nat) (e : TSlot) (residueFails : Nat) (s : State) : Host.Outcome State Fault Refusal :=
  match (s.core k).queue e with
  | [] => .next s
  | o :: rest =>
    if (o.kind.memory && (s.ctx o.ctx).posted.any (fun p => p.seq < o.seq)) || heldTst s o then .next s
    else match badTile s k o.kind with
      | some t =>
        let s := s.updCore k (fun c => c.setQueue e rest)
        .next (trapOutside (dropPending s o.ctx o.seq) o.ctx 0x08 (BitVec.ofNat 64 (9 * 4096 + t)))
      | none =>
        match o.kind, decide (2 ≤ residueFails) with
        | .mma t _ _ _, true =>
          let s := s.updCore k (fun c => { c with suspect := true })
          .next (holdOps s k e o rest 0x0D (BitVec.ofNat 64 t))
        | _, _ => match runT s k o e with
          | .done s => .next (s.updCore k (fun c => c.setQueue e rest))
          | .fault c tv s => .next (holdOps (confirmWalk s (engineView o.space o.ctx) c tv.toNat) k e o rest c tv)

end Sys2Proof.Machine
end

