-- ==== Sys2Proof/Machine/System.lean ====
section
/-! DEFINITION. System registers (R137 to R139, R87 to R90, R97, R235, R307), invalidation records (R308), TRAP, BKPT and
ERET (R141, R142), WATCH, SNAP and CRESET (R143 to R145). -/

namespace Sys2Proof.Machine

/-! ### System registers -/

/-- The reserved bits of each system register (R138); none for an unassigned number. -/
def csrReserved (num : Nat) : Option Nat :=
  let above := fun (n : Nat) => 2 ^ 64 - 2 ^ n
  match num with
  | 0x000 => some (above 14) | 0x001 => some (above 6) | 0x002 => some 0 | 0x003 => some 0 | 0x004 => some 0
  | 0x005 => some (above 11) | 0x006 => some (above 8) | 0x007 => some (above 12) | 0x008 => some (above 16)
  | 0x010 => some (above 8) | 0x011 => some 0 | 0x012 => some 0 | 0x013 => some 6
  | 0x020 => some (above 5) | 0x021 => some (above 13) | 0x022 => some 0x1F | 0x030 => some 0 | 0x031 => some 0
  | _ => none

/-- The value of a system register as it stood before the bundle (R90, R137). -/
def csrRead (s : State) (num : Nat) : Word :=
  let c := s.issue.ctx
  let x := s.ctx c
  match num with
  | 0x000 => x.mode
  | 0x001 => s.issue.fflags0
  | 0x002 => x.rkey
  | 0x003 => s.issue.rctr0.setWidth 64
  | 0x004 => (s.issue.rctr0 >>> 64).setWidth 64
  | 0x005 => x.vregs
  | 0x006 => x.tmask.setWidth 64
  | 0x007 => BitVec.ofNat 64 c
  | 0x008 => s.issue.interval0.setWidth 64
  | 0x010 => x.cause
  | 0x011 => x.epc
  | 0x012 => x.tval
  | 0x013 => x.npc
  | 0x020 => (s.core (coreOf c)).ageing
  | 0x021 => x.maxred
  | 0x030 => BitVec.ofNat 64 (s.clock - (s.core (coreOf c)).cycle0)
  | 0x031 => BitVec.ofNat 64 s.dtimeNs
  | _ => 0

/-- CSRR: a write of the bundle (R129, R137). -/
def execCsrr (dst : BitVec 5) (num : BitVec 12) (s : State) : Host.Outcome State Fault Refusal :=
  runSlot (do
    needWord (csrReserved num.toNat).isSome
    let st ← get
    act (.setReg fK dst.toNat ((csrRead st num.toNat).setWidth 2048))) s

/-- The operation of CSRW on a register's value (R137). -/
def csrApply (op : CsrOp) (old v : Word) : Word :=
  match op with | .write => v | .set => old ||| v | .clr => old &&& ~~~v

/-- An invalidation record (R308). -/
structure InvalRec where
  op : Nat
  scope : Nat
  asid : BitVec 16
  va : Word
  len : Nat
  ctr : Word
  deriving DecidableEq, Repr

/-- The record of 32 bytes; none where a value is reserved or out of range. -/
def parseInval (bs : List Byte) : Option InvalRec :=
  let r : InvalRec :=
    { op := field bs 0 1
      scope := field bs 1 1
      asid := BitVec.ofNat 16 (field bs 2 2)
      va := BitVec.ofNat 64 (field bs 8 8)
      len := field bs 0x10 8
      ctr := BitVec.ofNat 64 (field bs 0x18 8) }
  let ok := decide (r.op ≤ 3) && (r.scope == 2 || r.scope == 3) && (r.op != 3 || r.asid == 0) && zeroField bs 4 4 &&
    (r.op == 1 || r.op == 2 || r.va == 0) && (if r.op = 2 then decide (1 ≤ r.len) && decide (r.len ≤ 2 ^ 57) else r.len == 0)
  if ok then some r else none

/-- The effect of a CSRW at the end of its bundle: RO fields are kept, and a value that a field rejects leaves it (R6, R97,
R137, R235). -/
def csrWrite (s : State) (c num : Nat) (op : CsrOp) (v : Word) : State :=
  let x := s.ctx c
  let up := fun (f : Ctx → Ctx) => s.updCtx c f
  match num with
  | 0x000 => up (fun x => { x with mode := (x.mode &&& 0x3C00) ||| (csrApply op x.mode v &&& 0x3FF) })
  | 0x001 => up (fun x => { x with fflags := csrApply op x.fflags v &&& 0x3F })
  | 0x002 => up (fun x => { x with rkey := csrApply op x.rkey v })
  | 0x003 => up (fun x => { x with rctr := (x.rctr >>> 64).setWidth 64 ++ csrApply op (x.rctr.setWidth 64) v })
  | 0x004 => up (fun x => { x with rctr := csrApply op ((x.rctr >>> 64).setWidth 64) v ++ x.rctr.setWidth 64 })
  | 0x020 =>
    let n := csrApply op (s.core (coreOf c)).ageing v &&& 0x1F
    if 4 ≤ n.toNat && n.toNat ≤ 16 then s.updCore (coreOf c) (fun k => { k with ageing := n }) else s
  | 0x021 =>
    let n := csrApply op x.maxred v &&& 0x1FFF
    if n.toNat % 32 = 0 && 32 ≤ n.toNat && n.toNat ≤ 4096 then up (fun x => { x with maxred := n }) else s
  | _ => s

/-! ### Traps and resumption -/

/-- TRAP: after its whole bundle (R141). -/
def execTrap (code : BitVec 30) (s : State) : Host.Outcome State Fault Refusal :=
  runSlot (act (.trapAfter (code.setWidth 64))) s

/-- BKPT: a condition of execution (R141). -/
def execBkpt (code : BitVec 30) (s : State) : Host.Outcome State Fault Refusal :=
  runSlot (condTrap 0x28 (code.setWidth 64)) s

/-- ERET and ERET.to: the resumption takes place at the end of the handler's bundle (R142). -/
def execEret (dst : Option (BitVec 5)) (s : State) : Host.Outcome State Fault Refusal :=
  runSlot (do
    noTransferHere
    let x ← curCtx
    need x.priv 0x02 0x31
    match dst with
    | none => act (.eret none)
    | some k => do
      let t ← readK k
      let t ← aligned8 t
      act (.eret (some t))) s

/-! ### WATCH, SNAP and CRESET -/

/-- The physical page of a virtual page as the tables now map it, whatever its permissions; none where it is unmapped or
outside the package. -/
def mappedPage (s : State) (v : View) (va : Nat) : Option Nat :=
  match v.core with
  | some k => if apertureBase ≤ va && va < vaTop then some (scratchPa k (va - apertureBase)) else look
  | none => look
where
  look : Option Nat :=
    ((cachedEntry s v va).or ((walk s v va).map (·.1))).bind (fun e =>
      if pteKind e.pte = 0 then some (pteAddr e.pte + va % 2 ^ pageShift e.level) else none)

/-- The 64 KiB pages of a range, as virtual and physical addresses. -/
def watchPages (s : State) (v : View) (base len : Nat) : List (Nat × Nat) :=
  (List.range ((base + len - 1) / 65536 - base / 65536 + 1)).filterMap (fun i =>
    let va := (base / 65536 + i) * 65536
    (mappedPage s v va).map (fun pa => (va, pa)))

/-- WATCH: arm or disarm an entry that another context has not armed; k-dst receives its state before (R143). -/
def execWatch (arm shut : Bool) (dst base len : BitVec 5) (entry : BitVec 3) (s : State) :
    Host.Outcome State Fault Refusal :=
  runSlot (do
    let st ← get
    let c := st.issue.ctx
    let k ← curCore
    let b ← if arm then readK base else pure 0
    let n ← if arm then readK len else pure 0
    needLegal (!arm || (n != 0 && decide (n.toNat ≤ 2 ^ 24)))
    let old := List.find? (fun (x : Nat × WatchEntry) => x.1 == entry.toNat) k.watch
    let state : Nat := match old with | none => 0 | some (_, e) => if e.owner = c then 1 else 2
    let lo := b.toNat / 64 * 64
    let size := (n.toNat + 63) / 64 * 64
    if state = 2 then pure ()
    else modify (fun s => s.updCore (coreOf c) (fun k =>
      let e : WatchEntry :=
        { owner := c
          base := BitVec.ofNat 64 lo
          len := size
          shut := shut
          pages := watchPages s (s.view c) lo size }
      let rest := k.watch.filter (fun x => x.1 != entry.toNat)
      { k with watch := if arm then rest ++ [(entry.toNat, e)] else rest }))
    act (.setReg fK dst.toNat (BitVec.ofNat 2048 state))) s

/-- SNAP: fires the shutter at the end of its bundle (R144). -/
def execSnap (tag : BitVec 16) (s : State) : Host.Outcome State Fault Refusal := runSlot (act (.snap tag)) s

/-- Whether the leaf that now maps an address is counter-capable. -/
def countable (s : State) (v : View) (va : Nat) : Bool :=
  decide (va < apertureBase) && match (cachedEntry s v va).or ((walk s v va).map (·.1)) with
    | some e => pteCnt e.pte
    | none => false

/-- The counter operand of CRESET: one that is in no counter-capable page, or misaligned, raises the illegal-encoding or alignment trap
(R145); one that does not translate or fails the key raises the trap of that check instead (DEDUCED, log entry 36). -/
def resetCounter (a : Word) : M Unit := do
  let s ← get
  let v := s.view s.issue.ctx
  match translateCounter s v a .counterAdd with
  | .ok (_, s) => set s
  | .error (c, t) => if c == 0x05 && !countable (confirmWalk s v c a.toNat) v a.toNat then illegal else condTrap c t

/-- CRESET: requests the reset of a core of the package (R145). -/
def execCreset (core ctr : BitVec 5) (s : State) : Host.Outcome State Fault Refusal :=
  runSlot (do
    let x ← curCtx
    need x.priv 0x02 0x35
    let t ← readK core
    let a ← readK ctr
    needLegal (t.toNat % 4 == 0 && decide (t.toNat < 4096) && coreValid (t.toNat / 4))
    resetCounter a
    let s ← get
    let e : ResetReq :=
      { core := t.toNat / 4
        ctx := s.issue.ctx
        tid := x.tid
        seq := s.issue.order
        region := x.region
        ctrVa := a }
    set { s with resets := s.resets ++ [e] }) s

end Sys2Proof.Machine
end

