-- ==== Sys2Proof/Machine/Regions.lean ====
section
/-! DEFINITION. Region control blocks (R356 to R358), launch packets (R359), and what fits on a core (R84, R85, R178). -/

namespace Sys2Proof.Machine

/-! ### Control blocks -/

def isPow2 (n : Nat) : Bool := [0, 1, 2, 3, 4, 5, 6, 7, 8, 9, 10, 11, 12, 13, 14, 15, 16, 17, 18, 19, 20, 21, 22, 23, 24, 25,
  26, 27, 28, 29, 30, 31].any (fun k => n == 2 ^ k)

/-- A ring size of R356. -/
def ringOk (n : Nat) : Bool := isPow2 n && decide (16 ≤ n) && decide (n ≤ 65536)

/-- A word of a record. -/
def fieldW (bs : List Byte) (off : Nat) : Word := BitVec.ofNat 64 (field bs off 8)

/-- The rules of R356 on one record, its parent apart. Rules on a ring hold where the record names one. -/
def rcbOk (bs : List Byte) : Bool :=
  let mask := field bs 0x0E 2
  let parent := field bs 0x10 8
  field bs 0 2 == 1 && decide (field bs 2 1 ≤ 7) && decide (field bs 3 1 ≤ 15) && decide (field bs 4 1 ≤ 2) &&
    decide (field bs 5 1 ≤ 2) && decide (mask < 2 ^ 11) && field bs 0x18 8 % 64 == 0 && decide (field bs 0x28 2 ≤ 768) &&
    decide (field bs 0x2A 2 ≤ 3072) && zeroField bs 0x2C 4 && field bs 0x30 8 % 65536 == 0 && field bs 0x38 8 % 65536 == 0 &&
    decide (field bs 0x42 1 ≤ 4) && zeroField bs 0x43 5 && field bs 0x48 8 % 64 == 0 &&
    (field bs 0x48 8 == 0 || ringOk (field bs 0x50 4)) && zeroField bs 0x54 4 &&
    (field bs 0x88 8 == 0 || isPow2 (field bs 0x90 4)) && zeroField bs 0x94 4 &&
    (field bs 0x98 8 == 0 || ringOk (field bs 0xA0 4)) && zeroField bs 0xA4 4 && zeroField bs 0xB0 80 &&
    (if parent = 0 then mask == 0x07FF && field bs 2 1 == 0 else field bs 2 1 != 0)

/-- A record's region, each field its own or, with its override bit clear, the parent's (R356). -/
def rcbRegion (addr : Word) (bs : List Byte) (p : Region) : Region :=
  let own := fun (n : Nat) => bitAt (field bs 0x0E 2) n
  { rcb := addr
    space :=
      { asid := if own 3 then BitVec.ofNat 16 (field bs 6 2) else p.space.asid
        root := if own 3 then fieldW bs 0x18 else p.space.root
        key := if own 4 then BitVec.ofNat 32 (field bs 8 4) else p.space.key }
    depth := field bs 2 1
    priority := if own 0 then field bs 3 1 else p.priority
    role := if own 1 then field bs 4 1 else p.role
    race := if own 2 then field bs 5 1 else p.race
    domain := if own 5 then BitVec.ofNat 16 (field bs 0x0C 2) else p.domain
    trapEntry := if own 6 then fieldW bs 0x20 else p.trapEntry
    share := field bs 0x40 2
    scope := if own 7 then (Scope.ofCode (field bs 0x42 1)).getD .core else p.scope
    ring := fieldW bs 0x48
    ringSize := field bs 0x50 4
    launchCtr := fieldW bs 0x58
    consumedCtr := fieldW bs 0x60
    vaultSave := if own 8 then fieldW bs 0x68 else p.vaultSave
    vaultSaveSize := if own 8 then field bs 0x70 8 else p.vaultSaveSize
    hbmSave := if own 8 then fieldW bs 0x78 else p.hbmSave
    hbmSaveSize := if own 8 then field bs 0x80 8 else p.hbmSaveSize
    raceRing := if own 9 then fieldW bs 0x88 else p.raceRing
    raceSize := if own 9 then field bs 0x90 4 else p.raceSize
    faultRing := if own 10 then fieldW bs 0x98 else p.faultRing
    faultSize := if own 10 then field bs 0xA0 4 else p.faultSize
    faultCtr := if own 10 then fieldW bs 0xA8 else p.faultCtr
    chain := addr :: p.chain
    budgets := (field bs 0x28 2, field bs 0x2A 2, field bs 0x30 8, field bs 0x38 8) :: p.budgets }

/-- Why a control block gives no region. -/
inductive RcbFail
  | fault (cause : BitVec 8) (addr : Word)
  | broken
  deriving DecidableEq, Repr

/-- Read a control block and its ancestors (R356, R357): recursion is on the levels of the tree. -/
def readRcb (v : View) : Nat → State → Word → Except RcbFail (Region × State)
  | 0, _, _ => .error .broken
  | fuel + 1, s, addr =>
    if addr.toNat % 256 ≠ 0 then .error .broken
    else match readVia s v addr.toNat 256 with
      | .error (c, t) => .error (.fault c t)
      | .ok (bs, s) =>
        if !rcbOk bs then .error .broken
        else
          let parent := fieldW bs 0x10
          if parent = 0 then .ok (rcbRegion addr bs {}, s)
          else match readRcb v fuel s parent with
            | .error e => .error e
            | .ok (p, s) => if field bs 2 1 = p.depth + 1 then .ok (rcbRegion addr bs p, s) else .error .broken

/-- The region of a control block, read in an address space. -/
def readRegion (s : State) (v : View) (addr : Word) : Except RcbFail (Region × State) := readRcb v 8 s addr

/-- Whether the counters that a region's control block names for its rings obey R247 under its own ASID (R356). -/
def countersOk (s : State) (r : Region) : Bool :=
  let ok := fun (a : Word) => match translateCounter s (packageView r.space) a .counterAdd with
    | .ok _ => true
    | .error _ => false
  (r.ring == 0 || (ok r.launchCtr && ok r.consumedCtr)) && (r.faultRing == 0 || ok r.faultCtr)

/-- Whether the counters of a region and of its ancestors, whose control blocks are read in a view, obey R247. -/
def chainCountersOk (s : State) (v : View) (r : Region) : Bool :=
  r.chain.all (fun a => match readRegion s v a with
    | .ok (q, s) => countersOk s q
    | .error _ => false)

/-- The region of a control block as the scheduler takes it: a counter that breaks R247 breaks the record (R356, R357). -/
def schedRegion (s : State) (v : View) (addr : Word) : Except RcbFail (Region × State) :=
  match readRegion s v addr with
  | .error e => .error e
  | .ok (r, s) => if chainCountersOk s v r then .ok (r, s) else .error .broken

/-- Whether a region's launch ring can be used (R367): its ring, and its counters under its own ASID. -/
def ringUsable (s : State) (r : Region) : Bool :=
  let ctr := fun (a : Word) (acc : Acc) => match translateCounter s (packageView r.space) a acc with
    | .ok _ => true
    | .error _ => false
  r.ring != 0 && r.ring.toNat % 64 == 0 && ringOk r.ringSize && ctr r.launchCtr .counterAdd && ctr r.consumedCtr .counterAdd &&
    ctr r.launchCtr .counterRead && ctr r.consumedCtr .counterRead

/-! ### Budgets and room -/

/-- Whether a bank, tiles and an ASID fit beside a core's live contexts, none of the tiles being held (R84, R85, R237, R264). -/
def fits (s : State) (k bank : Nat) (tmask : BitVec 8) (asid : BitVec 16) : Bool :=
  let live := (liveOn s k).map s.ctx
  (s.core k).present && bankRoom s k bank &&
    live.all (fun x => x.tmask &&& tmask == 0 && x.region.space.asid == asid) &&
    (s.core k).heldTiles.all (fun (_, m) => m &&& tmask == 0)

/-- Whether a task may start on a core now: it fits, and no SWAP has locked the shadow plane (R370). -/
def canStart (s : State) (k bank : Nat) (tmask : BitVec 8) (r : Region) : Bool :=
  fits s k bank tmask r.space.asid && !(s.core k).swapLock && !(s.core k).stopping && withinBudget s r k

/-- Bank size of a code (R111). -/
def bankOf (code : Nat) : Nat := 64 * 2 ^ code
def bankCode (bank : Nat) : Nat := ([0, 1, 2, 3, 4].find? (fun c => bankOf c == bank)).getD 0

/-! ### Launch packets -/

/-- The rules of R359 on a packet's 64 bytes. -/
def packetOk (bs : List Byte) : Bool :=
  let done := field bs 0x18 8
  let tasks := field bs 0x20 4
  let inc := field bs 0x24 4
  let crew := field bs 0x28 1
  let fl := field bs 0x29 1
  let graph := bitAt fl 2
  let cond := bitAt fl 3
  field bs 0 8 % 8 == 0 && field bs 8 8 % 256 == 0 && decide (1 ≤ tasks) && decide (tasks ≤ 2 ^ 24) &&
    (if done = 0 then inc == 0 else decide (1 ≤ inc) && decide (inc < 2 ^ 30)) && decide (1 ≤ crew) && decide (crew ≤ 12) &&
    bitsAt fl 0 2 != 3 && bitsAt fl 5 3 == 0 && (!cond || graph) && (crew != 1 || field bs 0x2A 2 == 0) &&
    (graph || field bs 0x30 8 == 0) && (cond || field bs 0x38 8 == 0) && field bs 0x38 8 % 8 == 0

/-- A packet's fields. -/
def packetOf (bs : List Byte) : LaunchPkt :=
  let fl := field bs 0x29 1
  { entry := fieldW bs 0
    image := fieldW bs 8
    rcb := fieldW bs 0x10
    done := fieldW bs 0x18
    tasks := field bs 0x20 4
    inc := field bs 0x24 4
    crew := field bs 0x28 1
    role := bitsAt fl 0 2
    graph := bitAt fl 2
    cond := bitAt fl 3
    neg := bitAt fl 4
    window := field bs 0x2A 2
    depTgt := field bs 0x2C 4
    depCtr := fieldW bs 0x30
    pred := fieldW bs 0x38 }

/-! ### Releases made for a context -/

/-- The interval after a release that the package makes for a task: its context's, advanced (R248, R254). -/
def releaseFor (s : State) (c tid : Nat) (old : BitVec 16) : (BitVec 16 × BitVec 16) × State :=
  if (s.ctx c).tid = tid then
    let s := s.updCtx c (fun x => { x with interval := x.interval + 1 })
    ((BitVec.ofNat 16 c, (s.ctx c).interval), s)
  else ((BitVec.ofNat 16 c, old + 1), s)

end Sys2Proof.Machine
end

