-- ==== Sys2Proof/Machine/Image.lean ====
section
/-! DEFINITION. Context images (R111, R112, R206): writing a context as an image, reading one back, and the launch fill
(R88, R101, R221, R243). -/

namespace Sys2Proof.Machine

/-! ### Writing -/

/-- Registers of a file as bytes, `n` of them at `w` bytes each. -/
def regsBytes (m : Map Word) (n : Nat) : List Byte := (List.range n).flatMap (fun i => leBytes 8 (Map.get 0 m i).toNat)
def vecsBytes (m : Map VecReg) (n : Nat) : List Byte := (List.range n).flatMap (fun i => leBytes 256 (Map.get 0 m i).toNat)
def masksBytes (m : Map MaskReg) : List Byte := (List.range 8).flatMap (fun i => leBytes 32 (Map.get 0 m i).toNat)

/-- A handle's 32 bytes (R210); an invalid one is written as zeros, which no valid record is. -/
def Handle.bytes (h : Handle) : List Byte :=
  if h.valid then leBytes 8 h.base.toNat ++ leBytes 4 h.size ++ leBytes 2 h.count ++
    leBytes 1 (h.scope * 2 + b2n h.producer) ++ leBytes 1 0 ++ leBytes 8 h.ctl.toNat ++ leBytes 8 h.pos
  else leBytes 32 0

/-- A head's 32-byte state (R206). -/
def Head.bytes (h : Head) : List Byte :=
  let cond := match h.cond with | .closed => 0 | .empty => 1 | .holding => 2
  leBytes 1 cond ++ leBytes 1 (b2n h.mem) ++ leBytes 1 h.setNo ++
    leBytes 1 (b2n (h.cond == .holding && h.fault.isSome) * 2 + b2n h.loaded) ++ leBytes 4 h.len ++ leBytes 8 h.base.toNat ++
    leBytes 8 h.recAddr.toNat ++ leBytes 8 h.pos

/-- The four carry sets: 64 pairs of FP32 each (R243). -/
def carriesBytes (x : Ctx) : List Byte :=
  (List.range 4).flatMap (fun set => (List.range 64).flatMap (fun n =>
    leBytes 4 (laneAt 32 (Map.get 0 x.carryA set) n) ++ leBytes 4 (laneAt 32 (Map.get 0 x.carryB set) n)))

/-- The acquired-from cache, 8 bytes an entry; the spec leaves their layout open. -/
def acqBytes (l : List AcqEntry) : List Byte :=
  (l.flatMap (fun a => leBytes 2 a.writer.toNat ++ leBytes 2 a.interval.toNat ++ leBytes 1 (a.scope + 1) ++ leBytes 3 0)) ++
    leBytes (256 - 8 * l.length) 0

/-- Bytes of a value of a file. -/
def fileBytes (file : Nat) : Nat := if file = fV || file = fW then 256 else if file = fX || file = fY then 32 else 8

/-- A landing entry (R111). -/
def Landing.bytes (l : Landing) : List Byte :=
  let n := fileBytes l.file
  leBytes 1 l.file ++ leBytes 1 0 ++ leBytes 2 l.idx ++ leBytes 1 l.count ++ leBytes 1 (n / 8) ++ leBytes 2 0 ++
    leBytes 8 l.seq ++ leBytes n l.val.toNat

/-- An error entry (R111). -/
def ErrTag.bytes (t : ErrTag) : List Byte :=
  leBytes 1 t.file ++ leBytes 1 0 ++ leBytes 2 t.idx ++ leBytes 1 t.cause.toNat ++ leBytes 3 0 ++ leBytes 8 t.addr.toNat

/-- A context as a save image (R111); `epc` is the bundle it would issue next (R132). -/
def saveImage (x : Ctx) (epc : Word) : List Byte :=
  let b := x.vregs.toNat
  leBytes 2 1 ++ leBytes 1 1 ++ leBytes 1 (bankCode b) ++ leBytes 1 x.tmask.toNat ++
    leBytes 1 (if x.run == .frozen then 2 else 0) ++ leBytes 1 x.g.toNat ++ leBytes 1 0 ++ leBytes 8 0xFFF ++
    leBytes 8 x.npc.toNat ++ leBytes 8 x.mode.toNat ++ leBytes 8 x.fflags.toNat ++ leBytes 8 x.rkey.toNat ++
    leBytes 16 x.rctr.toNat ++ leBytes 8 x.cause.toNat ++ leBytes 8 epc.toNat ++ leBytes 8 x.tval.toNat ++
    leBytes 1 x.stall ++ leBytes 1 (b2n x.waitAct) ++ leBytes 2 x.interval.toNat ++ leBytes 4 0 ++
    leBytes 4 x.landing.length ++ leBytes 4 x.tags.length ++ leBytes 152 0 ++ regsBytes x.a 64 ++ regsBytes x.b 64 ++
    regsBytes x.p 32 ++ regsBytes x.k 32 ++ masksBytes x.x ++ masksBytes x.y ++
    (List.range 16).flatMap (fun d => (Map.get {} x.desc d).bytes) ++
    (List.range 16).flatMap (fun h => (Map.get {} x.handles h).bytes) ++
    (List.range 8).flatMap (fun q => leBytes 256 (Map.get {} x.heads q).latch.toNat) ++
    (List.range 8).flatMap (fun q => (Map.get {} x.heads q).bytes) ++ carriesBytes x ++ acqBytes x.acq ++
    vecsBytes x.v b ++ vecsBytes x.w b ++ x.landing.flatMap Landing.bytes ++ x.tags.flatMap ErrTag.bytes

/-! ### Reading -/

/-- Registers from bytes, in canonical form. -/
def readRegs (bs : List Byte) (off n : Nat) : Map Word :=
  (List.range n).foldl (fun m i => Map.set 0 m i (fieldW bs (off + 8 * i))) []
def readVecs (bs : List Byte) (off n : Nat) : Map VecReg :=
  (List.range n).foldl (fun m i => Map.set 0 m i (BitVec.ofNat 2048 (field bs (off + 256 * i) 256))) []
def readMasks (bs : List Byte) (off : Nat) : Map MaskReg :=
  (List.range 8).foldl (fun m i => Map.set 0 m i (BitVec.ofNat 256 (field bs (off + 32 * i) 32))) []

/-- The descriptors of an image; none where one breaks R222. -/
def readDescs (bs : List Byte) : Option (Map TileDesc) :=
  (List.range 16).foldl (fun m i => m.bind (fun m =>
    match parseDesc ((bs.drop (0x900 + 64 * i)).take 64) 0 with
    | .ok d => some (Map.set {} m i d)
    | .error _ => none)) (some [])

/-- The handles of an image, with their positions. -/
def readHandles (bs : List Byte) : Map Handle :=
  (List.range 16).foldl (fun m i =>
    let r := (bs.drop (0xD00 + 32 * i)).take 32
    let h := parseHandle r (field r 0x18 8)
    Map.set {} m i (if h.valid then h else {})) []

/-- The carries of an image: A or B of each set. -/
def readCarries (bs : List Byte) (half : Nat) : Map VecReg :=
  (List.range 4).foldl (fun m set => Map.set 0 m set (ofLanes 32 ((List.range 64).map (fun n =>
    field bs (0x1800 + 512 * set + 8 * n + 4 * half) 4)))) []

def readAcq (bs : List Byte) : List AcqEntry :=
  (List.range 32).filterMap (fun i =>
    let o := 0x2000 + 8 * i
    if field bs (o + 4) 1 = 0 then none
    else some ⟨BitVec.ofNat 16 (field bs o 2), BitVec.ofNat 16 (field bs (o + 2) 2), field bs (o + 4) 1 - 1⟩)

/-- The landing entries from an offset on; their errors are not in the image. -/
def readLandings (bs : List Byte) (errs : List Landing) : Nat → Nat → List Landing × Nat
  | 0, off => ([], off)
  | n + 1, off =>
    let file := field bs off 1
    let idx := field bs (off + 2) 2
    let seq := field bs (off + 8) 8
    let size := 8 * field bs (off + 5) 1
    let old := errs.find? (fun l => l.seq == seq && l.file == file && l.idx == idx)
    let l : Landing :=
      { count := field bs (off + 4) 1
        seq := seq
        file := file
        idx := idx
        val := BitVec.ofNat 2048 (field bs (off + 16) size)
        err := match old with | some o => o.err | none => false
        tag := old.bind (·.tag) }
    let (ls, off) := readLandings bs errs n (off + 16 + size)
    (l :: ls, off)

def readTags (bs : List Byte) (off n : Nat) : List ErrTag :=
  (List.range n).map (fun i =>
    let o := off + 16 * i
    ⟨field bs o 1, field bs (o + 2) 2, BitVec.ofNat 8 (field bs (o + 4) 1), fieldW bs (o + 8)⟩)

/-- The registers of an image's sections, those that the present mask leaves out being zero (R112). -/
def loadSections (x : Ctx) (bs : List Byte) (desc : Map TileDesc) : Ctx :=
  let has := fun (n : Nat) => bitAt (field bs 8 8) n
  let b := bankOf (field bs 3 1)
  { x with
    g := BitVec.ofNat 8 (field bs 6 1)
    a := if has 0 then readRegs bs 0x100 64 else []
    b := if has 1 then readRegs bs 0x300 64 else []
    p := if has 2 then readRegs bs 0x500 32 else []
    k := if has 3 then readRegs bs 0x600 32 else []
    x := if has 4 then readMasks bs 0x700 else []
    y := if has 4 then readMasks bs 0x800 else []
    desc := if has 5 then desc else []
    handles := if has 6 then readHandles bs else []
    carryA := if has 8 then readCarries bs 0 else []
    carryB := if has 8 then readCarries bs 1 else []
    v := if has 10 then readVecs bs 0x2100 b else []
    w := if has 11 then readVecs bs (0x2100 + 256 * b) b else []
    fflags := BitVec.ofNat 64 (field bs 0x20 8) &&& 0x3F
    rkey := fieldW bs 0x28
    rctr := BitVec.ofNat 128 (field bs 0x30 16)
    interval := BitVec.ofNat 16 (field bs 0x5A 2)
    vregs := BitVec.ofNat 64 b
    tmask := BitVec.ofNat 8 (field bs 4 1) }

/-! ### The launch fill -/

/-- Length of a register image (R111). -/
def imageLen (code : Nat) : Nat := 0x2100 + 512 * bankOf code

/-- The rules of R88 and R112 on a register image. -/
def registerImageOk (bs : List Byte) : Bool :=
  let mode := field bs 0x18 8
  let present := field bs 8 8
  field bs 0 2 == 1 && field bs 2 1 == 0 && decide (field bs 3 1 ≤ 4) && field bs 5 1 == 0 && field bs 7 1 == 0 &&
    decide (present < 2 ^ 12) && !bitAt present 7 && !bitAt present 9 && decide (mode < 2 ^ 14) && decide (bitsAt mode 0 3 < 5) &&
    zeroField bs 0x40 24 && zeroField bs 0x58 2 && zeroField bs 0x5C 4 && zeroField bs 0x60 8 && zeroField bs 0x68 152

/-- What a task starts with. -/
structure Start where
  entry : Word
  image : Word
  /-- whether there is an image; a deque record names none with the address 0 (R263) -/
  hasImage : Bool := image != 0
  role : Nat
  region : Region
  task : TaskKind
  /-- the bank code when there is no image -/
  bank : Nat := 0
  /-- registers that the start sets over the image's values: file, index and value -/
  regs : List (Nat × Nat × Word) := []
  deriving DecidableEq, Repr

/-- The bank and tiles that a start asks for; the cause with which its image cannot be read. -/
def startNeeds (s : State) (st : Start) : Except (BitVec 8) (Nat × BitVec 8 × State) :=
  if !st.hasImage then .ok (bankOf st.bank, 0, s)
  else match readVia s (packageView st.region.space) st.image.toNat 8 with
    | .error (c, _) => .error c
    | .ok (bs, s) => .ok (bankOf (min 4 (field bs 3 1)), BitVec.ofNat 8 (field bs 4 1), s)

/-- The sections of a register image after its header, with the present-mask bit of each, its length, and none for those
that a register image leaves out (R111, R112). -/
def imageSections (bank : Nat) : List (Option Nat × Nat) :=
  [(some 0, 512), (some 1, 512), (some 2, 256), (some 3, 256), (some 4, 512), (some 5, 1024), (some 6, 512), (none, 2304),
    (some 8, 2048), (none, 256), (some 10, 256 * bank), (some 11, 256 * bank)]

/-- Read the sections that are present, zeros for the others; recursion is on the sections. -/
def readSections (v : View) (present : Nat) : List (Option Nat × Nat) → Nat → State → Except (BitVec 8) (List Byte × State)
  | [], _, s => .ok ([], s)
  | (bit, n) :: l, va, s =>
    let here : Except (BitVec 8) (List Byte × State) := match bit with
      | some i => if bitAt present i then (match readVia s v va n with
          | .error (c, _) => .error c
          | .ok x => .ok x) else .ok (leBytes n 0, s)
      | none => .ok (leBytes n 0, s)
    match here with
    | .error c => .error c
    | .ok (bs, s) => match readSections v present l (va + n) s with
      | .error c => .error c
      | .ok (r, s) => .ok (bs ++ r, s)

/-- The image's bytes, all zero where a start names none. A header that breaks R112 ends the reading. -/
def startImage (s : State) (st : Start) : Except (BitVec 8) (List Byte × State) :=
  if !st.hasImage then .ok (leBytes 3 1 ++ leBytes 1 st.bank ++ leBytes 4 0, s)
  else
    let v := packageView st.region.space
    match readVia s v st.image.toNat 256 with
    | .error (c, _) => .error c
    | .ok (h, s) =>
      if !registerImageOk h then .error 0x01
      else match readSections v (field h 8 8) (imageSections (bankOf (field h 3 1))) (st.image.toNat + 256) s with
        | .error c => .error c
        | .ok (bs, s) => .ok (h ++ bs, s)

/-- A launch fill of a dormant context (R101). An image that breaks R112, or a descriptor of it that breaks R222, or that
cannot be read, faults the task with its entry in sys.epc, and it issues no bundle. -/
def launchFill (s : State) (c : Nat) (st : Start) : State :=
  let tid := s.nextId
  let s := { s with nextId := s.nextId + 1 }
  let fail := fun (s : State) (cause : BitVec 8) =>
    let s := s.updCtx c (fun x => { x.cleared tid with
      run := .ready
      task := st.task
      region := st.region
      epc := st.entry
      cause := cause.setWidth 64 })
    faultContext s c 0 cause
  match startImage s st with
  | .error cause => fail s cause
  | .ok (bs, s) =>
    let descs := if bitAt (field bs 8 8) 5 then readDescs bs else some []
    match descs with
    | none => fail s 0x01
    | some d =>
      let x := loadSections ((s.ctx c).cleared tid) bs d
      let mode := BitVec.ofNat 64 (field bs 0x18 8)
      let x := { x with
        run := .ready
        pc := st.entry
        mode := (mode &&& 0x3FF) ||| BitVec.ofNat 64 (st.role * 2 ^ 12)
        task := st.task
        region := st.region }
      let x := st.regs.foldl (fun x (f, i, v) => x.putReg f i (v.setWidth 2048)) x
      freeTiles (s.updCtx c (fun _ => x)) (coreOf c) x.tmask

end Sys2Proof.Machine
end

