-- ==== Sys2Proof/Machine/Save.lean ====
section
/-! DEFINITION. Saving and restoring contexts (R107, R110, R132, R236, R237, R266, R279, R292), pre-emption requests
(R236, R365), and the end of a task (R135, R265, R363). -/

namespace Sys2Proof.Machine

/-! ### Where an image goes (R279, R292) -/

/-- Bytes that a core's offer of a kind can still take. -/
def offerRoom (s : State) (k : Nat) (reserve : Bool) : Nat :=
  (if reserve then (s.core k).reserve * 65536 else (1024 - bankUse s k) * 512) - offerUse s k reserve

/-- The smallest single offer of a cluster that holds `n` bytes, of a core other than `but`, lowest core number first. -/
def bestOffer (s : State) (cl n but : Nat) : Option (Nat × Bool) :=
  let all := (coresOf cl).flatMap (fun k => if k = but || !(s.core k).present then [] else
    [(k, false, offerRoom s k false), (k, true, offerRoom s k true)])
  ((all.filter (fun (_, _, r) => decide (n ≤ r))).foldl (fun (b : Option (Nat × Bool × Nat)) o => match b with
    | none => some o
    | some (k, r, m) => if o.2.2 < m then some o else some (k, r, m)) none).map (fun (k, r, _) => (k, r))

/-- Place an image: a spill offer, then the vault save area, then the HBM save area (R279). -/
def placeImage (s : State) (r : Region) (core : Nat) (bs : List Byte) : Option (Place × State) :=
  match bestOffer s (core / 16) bs.length core with
  | some (k, res) => some (.offer k res bs, s)
  | none => match placeInArea s r true bs with
    | some p => some p
    | none => placeInArea s r false bs

/-! ### Saving -/

/-- Whether a context has work in its engines' queues, held operations apart. -/
def queuedWork (s : State) (c : Nat) : Bool :=
  let k := s.core (coreOf c)
  (k.tq0 ++ k.tq1).any (fun o => o.tid == (s.ctx c).tid)

/-- The operations held for a context. -/
def heldFor (s : State) (c : Nat) : List TOp :=
  let k := s.core (coreOf c)
  (k.held0 ++ k.held1).filter (fun o => o.tid == (s.ctx c).tid)

/-- Whether every tile of a context is free (R236). -/
def tilesFree (s : State) (c : Nat) : Bool :=
  (List.range 8).all (fun t => !((s.ctx c).tmask.getLsbD t && (tileOf s (coreOf c) t).live))

/-- Accumulator retirement (R236). -/
def retired (s : State) (c : Nat) : Bool := tilesFree s c && !queuedWork s c && (heldFor s c).isEmpty

/-- The order by which a held operation delivers its result, if it does. -/
def TKind.result : TKind → Option Nat
  | .carry .rd _ _ _ n => some n | .rd _ _ _ _ n => some n | .red _ _ _ n => some n | .res _ _ _ n => some n
  | _ => none

/-- Whether a context's results and accesses are all in, those of held operations apart. -/
def settled (s : State) (c : Nat) : Bool :=
  let x := s.ctx c
  x.posted.isEmpty && x.pending.all (fun p => p.ready || (heldFor s c).any (fun o => o.kind.result == some p.seq))

/-- Land every result that is ready. -/
def landAll (s : State) (c : Nat) : State :=
  ((s.ctx c).pending.filter (·.ready)).foldl (fun s p => landPending s c p.seq) s

/-- A context leaves its core without its task's end: watch entries are disarmed, waits given up. -/
def vacate (s : State) (c : Nat) : State :=
  let s := leaveInbox (unwait s c) c
  let s := s.updCore (coreOf c) (fun x => { x with watch := x.watch.filter (fun (_, e) => e.owner != c) })
  s.updCtx c (fun x => x.cleared 0)

/-- Save a context at a bundle boundary (R110): its image, its place, and the record of the saved task; none when no
destination has room. Tiles that are live stay on the core (R237). -/
def saveContext (s : State) (c : Nat) (why : SaveWhy) (needHandler : Bool) : Option State :=
  let s := landAll (deliverHits s c) c
  let x := s.ctx c
  let k := coreOf c
  match placeImage s x.region k (saveImage x x.pc) with
  | none => none
  | some (place, s) =>
    let id := s.nextId
    let keep := !tilesFree s c || !(heldFor s c).isEmpty
    let v : Saved :=
      { id := id
        tid := x.tid
        core := k
        num := c % 4
        place := place
        frozen := x.run == .frozen
        why := why
        region := x.region
        task := x.task
        bank := x.vregs.toNat
        tmask := x.tmask
        heldTiles := keep
        needHandler := needHandler
        outside := x.outside
        cause := x.cause.setWidth 8
        epc := x.pc
        tval := x.tval
        delay := x.delay
        heldWords := x.heldWords
        askAgain := x.askAgain
        seq := x.seq
        lastSeq := x.lastSeq
        pending := x.pending
        landing := x.landing.filter (fun l => l.err || l.tag.isSome)
        badRegs := x.badRegs
        stops := x.heads.filterMap (fun (q, h) => h.stopAt.map (fun n => (q, n)))
        headErrs := x.heads.filterMap (fun (q, h) => if h.latchErr then some q else none)
        ltime := x.ltime }
    let s := { s with saved := s.saved ++ [v], nextId := id + 1 }
    let s := if keep then s.updCore k (fun core => { core with heldTiles := core.heldTiles ++ [(id, x.tmask)] }) else s
    some (vacate s c)

/-- Rank of a context for issue (R96): smaller is better. Promoted contexts first by longest wait, then role, then least
recently issued, then number; a yielded context ranks below every other (R136). -/
def rank (s : State) (c : Nat) : List Nat :=
  let x := s.ctx c
  let role := match x.role with | 3 => 0 | 0 => 1 | 1 => 2 | _ => 3
  [if x.yielded.isSome then 1 else 0, if x.promoted then 0 else 1,
   if x.promoted then 2 ^ 64 - x.waitCount else 0, role, x.lastIssue, c]

/-- Lexicographic order. -/
def lexLt : List Nat → List Nat → Bool
  | a :: as, b :: bs => if a = b then lexLt as bs else decide (a < b)
  | _, _ => false

/-- Whether a trap handler runs for a context. -/
def served (s : State) (c : Nat) : Bool :=
  (ctxsOf (coreOf c)).any (fun h => (s.ctx h).run != .dormant && (s.ctx h).task == .trapHandler c)

/-- The context that R107 saves for a handler that context `f` needs: the lowest-ranked one that is neither frozen nor a
handler, else `f` itself. -/
def handlerVictim (s : State) (f : Nat) : Nat :=
  let cands := (ctxsOf (coreOf f)).filter (fun c =>
    let x := s.ctx c
    x.run != .dormant && x.run != .frozen && x.role != 3)
  match cands with
  | [] => f
  | c :: cs => cs.foldl (fun w d => if lexLt (rank s w) (rank s d) then d else w) c

/-- Whether a core cannot start a handler that a frozen context needs, and that its budgets allow, for want of a context or a bank
(R107, R358). -/
def handlerBlocked (s : State) (f : Nat) : Bool :=
  needsHandler s f && withinBudget s (s.ctx f).region (coreOf f) &&
    ((dormantOn s (coreOf f)).isNone || (roomFor s (coreOf f) 64).isNone)

/-- CONTEXT_SAVE: serves a pre-emption request at accumulator retirement, within 32,768 cycles of its being made (R236), or
frees a context for a trap handler (R107). -/
def execContextSave (c : Nat) (why : SaveWhy) (s : State) : Host.Outcome State Fault Refusal :=
  let x := s.ctx c
  if x.run == .dormant || x.ended || !settled s c || queuedWork s c then .next s
  else match why with
    | .park => .next s
    | .preempt =>
      if !x.preemptAt.any (fun t => s.clock < t + 32768) || !retired s c || (x.run == .frozen && served s c) then .next s
      else match saveContext s c .preempt false with
        | some s => .next (startNeeded s (coreOf c))
        | none => .next s
    | .handler =>
      match (ctxsOf (coreOf c)).find? (handlerBlocked s) with
      | none => .next s
      | some f =>
        if handlerVictim s f != c || (x.run != .frozen && !retired s c) then .next s
        else match saveContext s c .handler (c == f) with
          | some s => .next (startNeeded s (coreOf c))
          | none => .next s

/-! ### Restoring -/

/-- The bytes of a saved image; its read's cause where it faults, 0x09 for an image with bad data, which it keeps where it
moves (R279, R292). -/
def savedImage (s : State) (v : Saved) : Except (BitVec 8) (List Byte × State) :=
  if v.imageBad then .error 0x09 else
  match v.place with
  | .offer _ _ bs => .ok (bs, s)
  | .memory va len _ => match readVia s (packageView v.region.space) va.toNat len with
    | .ok r => .ok r
    | .error (c, _) => .error (if c.toNat < 9 || 12 < c.toNat then c else 0x09)

/-- The parameter set of a restored head, read again from its source (R206); none when it is no valid set now. -/
def rereadSet (s : State) (k : Nat) (r : Region) (h : Head) : Option LatheSet :=
  if h.mem then match readVia s ⟨r.space, some k, k / 128, false⟩ h.recAddr.toNat 128 with
    | .ok (bs, _) => parseSet bs
    | .error _ => none
  else
    let pl := (s.core k).active
    if h.setNo < pl.sets then parseSet (planeBytes pl (0x100 + 128 * h.setNo) 128) else none

/-- A head of an image (R206): the latch holds vector P when it held one without a fault; every other point is fetched
again. A head whose set cannot be read again is closed. An uncorrectable latch stays so through a save, for which the image has
no field (log entry 43). -/
def restoreHead (s : State) (k : Nat) (r : Region) (bs : List Byte) (stop : Option Nat) (err : Bool) (q : Nat) : Head :=
  let o := 0xF00 + 2048 + 32 * q
  let cond := field bs o 1
  let flags := field bs (o + 3) 1
  let pos := field bs (o + 0x18) 8
  let hold := cond == 2 && !bitAt flags 1
  let h : Head :=
    { cond := if cond = 0 then .closed else if hold then .holding else .empty
      latch := BitVec.ofNat 2048 (field bs (0xF00 + 256 * q) 256)
      latchErr := err
      loaded := bitAt flags 0
      mem := field bs (o + 1) 1 == 1
      setNo := field bs (o + 2) 1
      recAddr := fieldW bs (o + 0x10)
      base := fieldW bs (o + 8)
      len := field bs (o + 4) 4
      pos := pos
      next := if hold then pos + 1 else pos
      stopAt := stop }
  if cond = 0 && !h.loaded then { h with stopAt := none }
  else match rereadSet s k r h with
    | some l => { h with params := l }
    | none => { h with cond := .closed, loaded := false, stopAt := none }

/-- The context of a saved image (R110, R111). -/
def restoredCtx (s : State) (v : Saved) (c : Nat) (bs : List Byte) : Ctx :=
  let x := loadSections ((s.ctx c).cleared v.tid) bs ((readDescs bs).getD [])
  let b := bankOf (field bs 3 1)
  let (land_, off) := readLandings bs v.landing (field bs 0x60 4) (0x2100 + 512 * b)
  let heads := (List.range 8).foldl (fun m q => Map.set {} m q
    (restoreHead s (coreOf c) v.region bs ((v.stops.find? (fun p => p.1 == q)).map (·.2))
      (v.headErrs.contains q) q)) []
  { x with
    run := if field bs 5 1 = 2 then .frozen else .ready
    pc := fieldW bs 0x48
    mode := fieldW bs 0x18
    cause := fieldW bs 0x40
    epc := fieldW bs 0x48
    tval := fieldW bs 0x50
    npc := fieldW bs 0x10
    stall := field bs 0x58 1
    waitAct := bitAt (field bs 0x59 1) 0
    acq := readAcq bs
    landing := land_
    tags := readTags bs off (field bs 0x64 4)
    heads := heads
    badRegs := v.badRegs
    delay := v.delay || bitAt (field bs 0x10 8) 0
    heldWords := v.heldWords
    askAgain := v.askAgain
    seq := v.seq
    lastSeq := v.lastSeq
    pending := v.pending
    outside := v.outside
    task := v.task
    region := v.region
    ltime := v.ltime }

/-- The restored descriptors are taken as they stand, checked or not: an advance may have moved their bases (R226). -/
def rawDescs (bs : List Byte) : Map TileDesc :=
  (List.range 16).foldl (fun m i => Map.set {} m i (descOf ((bs.drop (0x900 + 64 * i)).take 64))) []

/-- Restore a saved task into a dormant context (R110, R214, R237). A bad image faults the task (R292). Operations held for a
task that is ready again, its fault dealt with, are replayed (R228). -/
def restoreInto (s : State) (v : Saved) (c : Nat) : State :=
  match savedImage s v with
  | .error cause => faultSaved s v 0 cause
  | .ok (bs, s) =>
    let k := coreOf c
    let x := { restoredCtx s v c bs with desc := rawDescs bs }
    let s := { s with saved := s.saved.filter (fun u => u.id != v.id) }
    let s := s.updCtx c (fun _ => x)
    if v.heldTiles then
      let mark := fun (o : TOp) => if o.tid == v.tid then { o with ctx := c } else o
      let s := s.updCore k (fun core =>
        { core with
          heldTiles := core.heldTiles.filter (fun (i, _) => i != v.id)
          held0 := core.held0.map mark
          held1 := core.held1.map mark })
      if x.run == .ready && x.outside.isEmpty then replayHeld s c else s
    else freeTiles s k x.tmask

/-- Whether a saved task may be restored on a context: it fits, held tiles and inbox slots bind it to its core, and a
frozen image needs room for its handler (R84, R85, R110, R237). -/
def canRestore (s : State) (v : Saved) (c : Nat) : Bool :=
  let k := coreOf c
  let here := { s with cores := Map.upd {} s.cores k (fun x =>
    { x with heldTiles := x.heldTiles.filter (fun (i, _) => i != v.id) }) }
  ctxValid c && (s.ctx c).run == .dormant && fits here k (v.bank + if v.frozen then 64 else 0) v.tmask v.region.space.asid &&
    !(s.core k).swapLock && !(s.core k).stopping && !v.needHandler && v.handler.isNone &&
    (!v.heldTiles || v.core == k) && (match v.task with | .message _ => v.core == k | _ => true) &&
    (!v.frozen || (ctxsOf k).any (fun d => d != c && (s.ctx d).run == .dormant))

/-- Restore, and start the handler of a context restored frozen (R110). -/
def restoreTask (s : State) (v : Saved) (c : Nat) : State := startNeeded (restoreInto s v c) (coreOf c)

/-- The saved task of an identity. -/
def State.savedTask (s : State) (id : Nat) : Option Saved := s.saved.find? (fun v => v.id == id)

/-- Whether a task is a member of a crew. -/
def TaskKind.inCrew (t : TaskKind) (set crew : Nat) : Bool := match t with
  | .taskSet u _ d => u == set && d == crew
  | _ => false

/-- The set and crew number of a task whose crew's window stands. -/
def crewKey (s : State) (t : TaskKind) : Option (Nat × Nat) := match t with
  | .taskSet set _ crew =>
    if s.clusters.any (fun (_, cl) => cl.windows.any (fun w => w.set == set && w.crew == crew)) then some (set, crew) else none
  | _ => none

/-- The contexts of the crew that a context's task belongs to, itself alone without one (R291). -/
def crewOf (s : State) (c : Nat) : List Nat :=
  match crewKey s (s.ctx c).task with
  | some (set, crew) => (s.ctxs.filter (fun (_, x) => x.run != .dormant && x.task.inCrew set crew)).map (·.1)
  | none => [c]

/-- The saved tasks that are restored together with a saved one, itself first: the crew that is pre-empted as a whole, its
parked members apart (R291). A task saved for a handler while its crew runs on comes back alone. -/
def savedCrew (s : State) (v : Saved) : List Saved :=
  match crewKey s v.task with
  | none => [v]
  | some (set, crew) =>
    let all := s.saved.filter (fun u => u.why != .park && u.task.inCrew set crew)
    if all.any (fun u => u.why == .preempt) then v :: all.filter (fun u => u.id != v.id) else [v]

/-- Whether a member of a saved task's crew is still to be saved: none of its images is released before (R291). -/
def crewPending (s : State) (v : Saved) : Bool :=
  match crewKey s v.task with
  | none => false
  | some (set, crew) => s.ctxs.any (fun (_, x) => x.run != .dormant && x.preemptAt.isSome && x.task.inCrew set crew)

/-- Whether a saved task keeps within its budgets on a core, its own place among the saved apart (R358, R365). -/
def savedInBudget (s : State) (v : Saved) (k : Nat) : Bool :=
  withinBudget { s with saved := s.saved.filter (fun u => u.id != v.id) } v.region k

/-- Whether a saved task may be restored on a context now: it fits, keeps within its budgets, no member of its crew is still to be
saved, and a member of a crew goes back to the cluster of its window (R110, R291, R358). -/
def restorable (s : State) (v : Saved) (c : Nat) : Bool :=
  canRestore s v c && savedInBudget s v (coreOf c) && !crewPending s v &&
    ((crewKey s v.task).isNone || clusterOf c == v.core / 16)

/-- Whether the scheduler may restore a saved task on a context (R110, R291, R358). -/
def schedulable (s : State) (v : Saved) (c : Nat) : Bool := v.why != .park && restorable s v c

/-- Whether it is a saved task's turn on a context: saved tasks are restored in priority order (R365). -/
def restoreTurn (s : State) (v : Saved) (c : Nat) : Bool :=
  schedulable s v c && !s.saved.any (fun u => decide (v.region.priority < u.region.priority) && schedulable s u c)

/-- CONTEXT_RESTORE: a saved, unparked task into a dormant context, in priority order (R110, R365); the members of a pre-empted crew come back together
by SAVED_TASK_RESTORE (R291). -/
def execContextRestore (task c : Nat) (s : State) : Host.Outcome State Fault Refusal :=
  match s.savedTask task with
  | none => .next s
  | some v =>
    if (savedCrew s v).length != 1 || !restoreTurn s v c then .next s else .next (restoreTask s v c)

/-- PARKED_JOIN_RESTORE: a parked JOIN whose counter has been satisfied, on the first context of its core that fits (R266); not
while the rest of its crew is saved (R291). -/
def execParkedJoinRestore (task c : Nat) (s : State) : Host.Outcome State Fault Refusal :=
  match s.savedTask task with
  | none => .next s
  | some v =>
    if v.why != .park || !v.ripe || (savedCrew s v).length != 1 || (ctxsOf v.core).find? (restorable s v) != some c then .next s
    else .next (restoreTask s v c)

/-! ### Pre-emption requests -/

/-- Whether a context may be asked for: not within 32,768 cycles of a withdrawn request to the same task (R365). -/
def askable (s : State) (c : Nat) : Bool := decide ((s.ctx c).askAgain ≤ s.clock)

/-- Ask for the pre-emption of a context. -/
def requestPreempt (s : State) (c : Nat) : State :=
  s.updCtx c (fun x => if x.run == .dormant || x.isTrapHandler || x.preemptAt.isSome then x else { x with preemptAt := some s.clock })

/-- Ask for a context, with its whole crew (R291), unless one of them may not be asked for yet. -/
def requestCrew (s : State) (c : Nat) : State :=
  let crew := crewOf s c
  if crew.all (askable s) then crew.foldl requestPreempt s else s

/-- PREEMPTION_REQUEST: the scheduler asks for a context, or for its whole crew (R236, R291, R365). -/
def execPreemptionRequest (c : Nat) (s : State) : Host.Outcome State Fault Refusal := .next (requestCrew s c)

/-- A context's request is withdrawn and reported; the context goes on (R236). -/
def withdrawRequest (s : State) (c : Nat) : State :=
  let x := s.ctx c
  if x.preemptAt.isNone then s else
  let (v, s) := s.free64
  let (t, s) := s.free64
  faultRecord (s.updCtx c (fun x => { x with preemptAt := none, askAgain := s.clock + 32768 })) x.region 5 (v.setWidth 8) c x.pc t

/-- PREEMPTION_WITHDRAWN: a request not served within 32,768 cycles is withdrawn, with those of the context's whole crew
(R236, R291). -/
def execPreemptionWithdrawn (c : Nat) (s : State) : Host.Outcome State Fault Refusal :=
  .next (if (s.ctx c).preemptAt.any (fun t => t + 32768 ≤ s.clock) then (crewOf s c).foldl withdrawRequest s else s)

/-! ### The end of a task -/

/-- TASK_RETIRE: after END, once every result, T-slot operation and access is in, the task retires with the release of its
scope and the add that ends it (R135, R265, R363). END of a trap handler ends the task it serves too. A context that a trap from
outside has frozen after its END waits for its handler. -/
def execTaskRetire (c : Nat) (s : State) : Host.Outcome State Fault Refusal :=
  let x := s.ctx c
  if !x.ended || x.run == .frozen || !x.pending.all (·.ready) || !x.posted.isEmpty || matrixWork s c || remoteWork s x.tid then .next s
  else match x.task with
    | .trapHandler f => .next (becomeDormant (faultContext s f 0 ((s.ctx f).cause.setWidth 8)) c)
    | .remoteHandler id => match s.savedTask id with
      | some v => .next (becomeDormant (faultSaved s v 0 v.cause) c)
      | none => .next (becomeDormant s c)
    | .taskSet set _ _ =>
      let (rel, s) := releaseFor s c x.tid x.interval
      .next (becomeDormant (retireInSet s set none (some rel)) c)
    | .forked join _ =>
      let (rel, s) := releaseFor s c x.tid x.interval
      .next (becomeDormant (if join = 0 then s else packageAdd s x.region join 1 none (some rel)) c)
    | _ => .next (becomeDormant s c)

end Sys2Proof.Machine
end

