-- ==== Sys2Proof/Machine/Perform.lean ====
section
/-! DEFINITION. Performing what a context has posted (R93, R185, R193, R249, R250, R311, R417, R449), releases at issue
(R254, R261), and the landing of results (R92, R93). -/

namespace Sys2Proof.Machine

/-- The key under which a sink counts an item: its source core and its address space (R267). -/
def drainKey (core : Nat) (asid : BitVec 16) : Nat := core * 65536 + asid.toNat

/-- Count an item of a source core as received at a core, or a store at the home that performs it (R267). -/
def countReceived (s : State) (k src : Nat) (asid : BitVec 16) : State :=
  s.updCore k (fun x => { x with received := Map.upd 0 x.received (drainKey src asid) (· + 1) })
def countStored (s : State) (src : Nat) (asid : BitVec 16) (pa : Nat) : State :=
  match locOf pa with
  | .scratch k _ => countReceived s k src asid
  | _ => s.updDie (homeDie pa) (fun d => { d with homes := Map.upd 0 d.homes (drainKey src asid) (· + 1) })
def countSent (s : State) (k : Nat) (asid : BitVec 16) : State :=
  s.updCore k (fun x => { x with sent := Map.upd 0 x.sent asid.toNat (· + 1) })

/-- Everything that a core has posted: that of its contexts, and that which outlived its context. -/
def corePosted (s : State) (k : Nat) : List Posted :=
  (s.loose.filter (fun l => coreOf l.ctx == k)).map (·.posted) ++ (ctxsOf k).flatMap (fun c => (s.ctx c).posted)

/-- Whether a posted ATOM addresses the scratchpad of a core. -/
def Posted.atomTo (p : Posted) (k : Nat) : Bool :=
  match p.kind with
  | .atom _ _ _ pa _ _ _ => (match locOf pa with | .scratch j _ => j == k | _ => false)
  | _ => false

/-- Whether an ATOM or message of one core to another arrives now: everything that it sent there before has arrived (R284). -/
def arrivesNext (s : State) (src tgt order : Nat) : Bool :=
  !(corePosted s src).any (fun p => p.order < order && p.atomTo tgt) &&
    !(s.core tgt).transit.any (fun m => coreOf m.sender == src && m.order < order)

/-- Whether a posted ATOM may be performed: one to another core's scratchpad arrives in its core's order. -/
def atomTurn (s : State) (x : Issuer) (p : Posted) (pa : Nat) : Bool :=
  match locOf pa with
  | .scratch k _ => k == coreOf x.ctx || arrivesNext s (coreOf x.ctx) k p.order
  | _ => true

/-- Perform one atomic (R193, R449). The value that lands with the tag of one that an uncorrectable error stopped is free. -/
def performAtom (s : State) (x : Issuer) (p : Posted) (op : AtomOp) (ty : ElemTy) (va : Word) (pa : Nat) (a b : Word)
    (ret : Option Nat) : State :=
  match s.badAt pa (elemBytes ty) with
  | some cause => match ret with
    | some n =>
      let (w, s) := s.free64
      readyPending s x.ctx n [w.setWidth 2048] (some (cause, va))
    | none => outsideTrap s x.tid x.region 0 cause va
  | none =>
    let (s, old) := atomApply s (s.ctxWriter x.ctx p.interval) op ty pa a.toNat b.toNat
    let s := timeStore s x.ctx pa
    match ret with
    | some n => readyPending s x.ctx n [(extElem ty old).setWidth 2048] none
    | none => s

/-- The parts of an access in the sector of its first one, which are performed as one (R185), and the others. -/
def firstSector {α : Type} (pa : α → Nat) : List α → List α × List α
  | [] => ([], [])
  | q :: qs => ((q :: qs).filter (fun r => pa r / 64 == pa q / 64), (q :: qs).filter (fun r => pa r / 64 != pa q / 64))

/-- Write one part of a store at its home, with its race check (R320) and its place in logical time (R313). -/
def performPiece (x : Issuer) (i : BitVec 16) (s : State) (q : Piece) : State :=
  let s := raceCheck s x true ⟨q.pa, q.va.toNat, q.bytes.length, q.cnt⟩
  timeStore (s.storeAt (s.ctxWriter x.ctx i) q.cnt q.pa q.bytes) x.ctx q.pa

/-- Perform a posted access, one sector of a load or a store at a time: the state, and what of it is left; none where it must wait
(R254, R284, R417). -/
def performPosted (s : State) (x : Issuer) (p : Posted) : Option (State × Option Posted) :=
  let asid := x.region.space.asid
  let src := coreOf x.ctx
  match p.kind with
  | .load pieces val bad ret =>
    let (now, later) := firstSector LoadPiece.pa pieces
    let ((val, bad), s) := now.foldl (readPiece x) ((val, bad), s)
    if later.isEmpty then some (readyPending s x.ctx ret [val] (errTag bad), none)
    else some (s, some { p with kind := .load later val bad ret })
  | .store pieces =>
    let (now, later) := firstSector Piece.pa pieces
    if now.any (fun q => heldShard s (dieOf x.ctx) x.region.space q.va.toNat q.bytes.length) then none
    else
      let s := now.foldl (performPiece x p.interval) s
      if later.isEmpty then some (countStored s src asid ((pieces.head?.map (·.pa)).getD 0), none)
      else some (s, some { p with kind := .store later })
  | .atom op ty va pa a b ret =>
    if heldShard s (dieOf x.ctx) x.region.space va.toNat (elemBytes ty) || !atomTurn s x p pa then none
    else some (performAtom s x p op ty va pa a b ret, none)
  | .add va pa n rel =>
    if rel && !releasableAs s x.ctx x.tid p.seq then none
    else
      let side := if rel then some (BitVec.ofNat 16 x.ctx, p.interval) else none
      match s.counterAdd (s.ctxWriter x.ctx p.interval) pa n none side with
      | .ok s => some (timeStore s x.ctx pa, none)
      | .error f => some (outsideTrap (countFailedAdd s f) x.tid x.region 0 f.cause va, none)

/-- What a context number has posted and is performed next: first what outlived an earlier task there. -/
def nextPosted (s : State) (c : Nat) : Option Posted :=
  match s.loose.find? (fun l => l.ctx == c) with
  | some l => some l.posted
  | none => (s.ctx c).posted.head?

/-- Put what is left of an access in the place of the oldest of a list. -/
def putFirst {α : Type} : Option α → List α → List α
  | some p, l => p :: l.drop 1
  | none, l => l.drop 1

/-- Put what is left of the oldest access that outlived its context `c` in its place. -/
def putLoose (c : Nat) (left : Option Posted) : List Loose → List Loose
  | [] => []
  | l :: ls => if l.ctx == c then (match left with
      | some p => { l with posted := p } :: ls
      | none => ls) else l :: putLoose c left ls

/-- Perform the oldest posted access of a context number, as far as one step does; none where it must wait. -/
def performOne (s : State) (c : Nat) : Option State :=
  match s.loose.find? (fun l => l.ctx == c) with
  | some l => (performPosted s l.issuer l.posted).map (fun (s, left) => { s with loose := putLoose c left s.loose })
  | none => match (s.ctx c).posted with
    | [] => none
    | p :: _ => (performPosted s (s.issuerOf c) p).map (fun (s, left) =>
        s.updCtx c (fun x => { x with posted := putFirst left x.posted }))

/-- Perform everything a context has posted, as far as it can be; recursion is on the number of pieces. -/
def performAll (c : Nat) : Nat → State → State
  | 0, s => s
  | n + 1, s => match performOne s c with
    | some s => performAll c n s
    | none => s

/-- A bound on the steps that a posted access takes. -/
def Posted.size (p : Posted) : Nat :=
  match p.kind with
  | .load qs _ _ _ => qs.length + 1
  | .store qs => qs.length + 1
  | _ => 1

/-- A bound on the performances that everything of a context number takes. -/
def postedSize (s : State) (c : Nat) : Nat :=
  (((s.loose.filter (fun l => l.ctx == c)).map (fun l => l.posted.size)) ++ (s.ctx c).posted.map Posted.size).sum

/-- Perform what the L slot of the same bundle has posted, before the X slot's access (R312). Before the bundle commits
nothing is posted by it. -/
def flushOwn : M Unit := modify (fun s =>
  if s.issue.commit then performAll s.issue.ctx (postedSize s s.issue.ctx) s else s)

/-- A release at issue: the bundle is not ready until every access of earlier bundles is performed; what the bundle's own
L slot has posted is performed first. Then the interval advances (R254). -/
def releaseNow : M (BitVec 16) := do
  let s ← get
  if releasable s s.issue.ctx (s.issue.seq * 8) then do
    flushOwn
    advanceInterval
  else notReady

/-- Whether a posted access is an ATOM. -/
def Posted.isAtom (p : Posted) : Bool := match p.kind with | .atom _ _ _ _ _ _ _ => true | _ => false

/-- ACCESS_PERFORMED: the oldest posted load, store or counter add of a context is performed at its home, a sector of it (R311,
R314). -/
def execAccessPerformed (c : Nat) (s : State) : Host.Outcome State Fault Refusal :=
  .next (if (nextPosted s c).any (fun p => !p.isAtom) then (performOne s c).getD s else s)

/-- ATOM_PERFORM: the oldest posted access of a context, an ATOM, is performed (R193). -/
def execAtomPerform (c : Nat) (s : State) : Host.Outcome State Fault Refusal :=
  .next (if (nextPosted s c).any Posted.isAtom then (performOne s c).getD s else s)

/-- LOGICAL_TIME_ADVANCE: a context's logical time moves on (R313). -/
def execLogicalTimeAdvance (c n : Nat) (s : State) : Host.Outcome State Fault Refusal :=
  .next (s.updCtx c (fun x => { x with ltime := x.ltime + n }))

/-- VARIABLE_LATENCY_LANDING: the result of order `n` of a context, once its value is known, lands (R93). -/
def execVariableLatencyLanding (c n : Nat) (s : State) : Host.Outcome State Fault Refusal := .next (landPending s c n)

/-- STALL_EXPIRY: a context spends one cycle of its header stall, which is a context cycle (R56, R91); after the last one
it may issue again. -/
def execStallExpiry (c : Nat) (s : State) : Host.Outcome State Fault Refusal :=
  .next (s.updCtx c (fun x =>
    if x.run == .ready && x.stall != 0 then { x.countDown ((x.seq + 1) * 8) with stall := x.stall - 1 } else x))

/-- FIXED_LATENCY_LANDING: the landing-list entries of a context whose count has reached zero are written (R92). -/
def execFixedLatencyLanding (c : Nat) (s : State) : Host.Outcome State Fault Refusal :=
  .next (s.updCtx c Ctx.landZero)

end Sys2Proof.Machine
end

