-- ==== Sys2Proof/Machine/Sync.lean ====
section
/-! DEFINITION. Counters, waits, drain and the task deque (R247 to R268), CSRW (R137, R307), and the core's own steps: promotion, the end of a
yield, traps from outside, timeouts (R96, R105, R136, R256, R259, R260). -/

namespace Sys2Proof.Machine

/-! ### Counters -/

/-- CADD: its bundle does not wait for the add, which takes its place among the context's accesses (R255). -/
def execCadd (rel : Bool) (_scope : Scope) (ctr : BitVec 5) (amount : BitVec 5 ⊕ BitVec 30) (s : State) :
    Host.Outcome State Fault Refusal :=
  runSlot (do
    let va ← readK ctr
    let n ← match amount with
      | .inl k => readK k
      | .inr i => pure (i.setWidth 64)
    let st ← get
    let (pa, st) ← liftTrap (translateCounter st (st.view st.issue.ctx) va .counterAdd)
    set st
    let i ← if rel then advanceInterval else pure (st.ctx st.issue.ctx).interval
    modCtx (fun x => { x with posted := x.posted ++ [⟨st.issue.order, i, .add va pa n.toNat rel, 0⟩] })) s

/-- The word that CWAIT writes (R256). -/
def cwaitWord (side : Word) (timeout : Bool) (v : Nat) : Word :=
  BitVec.ofNat 64 (b2n (side.getLsbD 63) * 2 ^ 63 + b2n timeout * 2 ^ 62 + v % 2 ^ 62)

/-- CWAIT: holds its bundle back until the counter reaches its target or the timeout expires (R256). The counter is read after the
L-slot access of the bundle (R312); once the bundle takes effect, its wait has been met, whatever that access has stored there. -/
def execCwait (acq : Bool) (scope : Scope) (dst ctr tgt : BitVec 5) (timeout : BitVec 30) (s : State) :
    Host.Outcome State Fault Refusal :=
  runSlot (do
    let va ← readK ctr
    let t ← readK tgt
    flushOwn
    let (pa, v) ← readCounter va
    let st ← get
    let c := st.issue.ctx
    let side := st.sideStatus pa
    if t.toNat ≤ v || (st.issue.commit && !(st.ctx c).timedOut) then do
      if acq then modify (fun s => acquireSide s c side scope.code) else pure ()
      act (.setReg fK dst.toNat ((cwaitWord side false v).setWidth 2048))
    else if (st.ctx c).timedOut then act (.setReg fK dst.toNat ((cwaitWord side true v).setWidth 2048))
    else
      let st := waitOn st { ctx := c, pa := pa, va := va, tgt := t.toNat }
      throw (.held (if timeout = 0 then st else st.updCtx c (fun x => { x with
        waitStart := if x.waitStart = 0 then st.clock + 1 else x.waitStart
        waitLimit := 256 * timeout.toNat })))) s

/-- CTEST: one evaluation, after the bundle's own L-slot access (R257, R312). -/
def execCtest (acq : Bool) (scope : Scope) (g : BitVec 3) (ctr tgt : BitVec 5) (s : State) :
    Host.Outcome State Fault Refusal :=
  runSlot (do
    let va ← readK ctr
    let t ← readK tgt
    flushOwn
    let (pa, v) ← readCounter va
    let ok := decide (t.toNat ≤ v)
    if acq && ok then modify (fun s => acquireSide s s.issue.ctx (s.sideStatus pa) scope.code) else pure ()
    act (.setPred g.toNat ok)) s

/-- CREAD: the value or the side status, scoreboarded (R258). -/
def execCread (acq : Bool) (scope : Scope) (status : Bool) (dst ctr : BitVec 5) (s : State) :
    Host.Outcome State Fault Refusal :=
  runSlot (do
    let va ← readK ctr
    flushOwn
    let (pa, v) ← readCounter va
    let st ← get
    let side := st.sideStatus pa
    if acq then modify (fun s => acquireSide s s.issue.ctx side scope.code) else pure ()
    pendResult [(fK, dst.toNat)]
      (some ([if status then side.setWidth 2048 else BitVec.ofNat 2048 v], none))) s

/-- FENCE: a release and an acquire; its bundle is not ready until the release is performed (R261). -/
def execFence (_scope : Scope) (s : State) : Host.Outcome State Fault Refusal :=
  runSlot (do
    let _ ← releaseNow
    pure ()) s

/-! ### CSRW (R137, R307) -/

/-- A CSRW to sys.tlbinv submits an invalidation record to the context's die (R307 to R309). -/
def submitInval (v : Word) : M Unit := do
  let s ← get
  let c := s.issue.ctx
  let x := s.ctx c
  need x.priv 0x02 0x022
  if 16 ≤ (s.die (dieOf c)).invals.length then notReady else pure ()
  need (v.toNat % 32 == 0) 0x03 v
  flushOwn
  let bs ← loadStrict false 32 v.toNat 32
  match parseInval bs with
  | none => illegal
  | some r => do
    need (r.op != 3 && r.asid == x.region.space.asid) 0x02 0x022
    let s ← get
    let (_, s) ← liftTrap (translateCounter s (s.view c) r.ctr .counterAdd)
    set s
    let e : Inval :=
      { op := r.op
        scope := r.scope
        asid := r.asid
        va := r.va
        len := r.len
        ctrVa := r.ctr
        ctx := c
        tid := x.tid
        seq := s.issue.order
        region := x.region
        interval := x.interval }
    modify (fun s => s.updDie (dieOf c) (fun d => { d with invals := d.invals ++ [e] }))

/-- CSRW: the write takes place at the end of the bundle (R137). -/
def execCsrw (op : CsrOp) (src : BitVec 5) (num : BitVec 12) (s : State) : Host.Outcome State Fault Refusal :=
  runSlot (do
    let n := num.toNat
    match csrReserved n with
    | none => illegalWord
    | some rsv =>
      needWord (n != 0x022 || op == .write)
      let v ← readK src
      let x ← curCtx
      if n = 0x022 then submitInval v
      else do
        needLegal (op == .clr || Nat.land v.toNat rsv == 0)
        need (n != 0x020 || x.priv) 0x02 0x020
        needLegal (n != 0x000 || decide (bitsAt (csrApply op x.mode v).toNat 0 3 < 5))
        act (.csr n op v)) s

/-! ### Drain -/

/-- A node's count for an address space. -/
def countOf (m : Map Nat) (asid : BitVec 16) : Nat := Map.get 0 m asid.toNat

/-- A sink's count of the items of an address space that cores under a scope have sent (R267). -/
def sinkCount (inScope : Nat → Bool) (asid : BitVec 16) (m : Map Nat) : Nat :=
  ((m.filter (fun (k, _) => k % 65536 == asid.toNat && inScope (k / 65536))).map (·.2)).sum

/-- Every sink of the package: cores, homes and engines. -/
def allSinks (s : State) : List (Map Nat) :=
  s.cores.map (fun (_, x) => x.received) ++
    s.clusters.flatMap (fun (_, x) => [x.copy0.received, x.copy1.received, x.gs.received]) ++
    s.dies.flatMap (fun (_, x) => [x.homes, x.collective.received, x.requant.received, x.compact.received, x.loader.received])

/-- The sent and received counts under a scope (R267). An item whose source lies under the scope is counted with it wherever its
sink stands: R267 lists no home and no core beyond the scope among the nodes, so that a store to one of them would otherwise keep
its source's sums apart for good (DEDUCED, log entry 77). -/
def drainSums (s : State) (c : Nat) (scope : Scope) (asid : BitVec 16) : Nat × Nat :=
  let inScope := fun (k : Nat) => match scope with
    | .core => k == coreOf c
    | .cluster => k / 16 == clusterOf c
    | .die => k / 128 == dieOf c
    | _ => true
  let ports := fun (d : Nat) => match scope with
    | .core => false | .cluster => false | .die => d == dieOf c | _ => true
  let cs := s.cores.filter (fun (k, _) => inScope k)
  let ds := s.dies.filter (fun (d, _) => ports d)
  ((cs.map (fun (_, x) => countOf x.sent asid)).sum + (ds.map (fun (_, x) => countOf x.sent asid)).sum,
   ((allSinks s).map (sinkCount inScope asid)).sum + (ds.map (fun (_, x) => countOf x.received asid)).sum)

/-- Whether the last two sweeps found the same sums, sent equal to received. -/
def sweepsAgree : List (Nat × Nat) → Bool
  | a :: b :: _ => a == b && a.1 == a.2
  | _ => false

/-- DRAIN: the release and the add when its bundle first waits, then the wait for the counter and two sweeps (R268, R451). -/
def execDrain (scope : Scope) (ctr tgt : BitVec 5) (s : State) : Host.Outcome State Fault Refusal :=
  runSlot (do
    let va ← readK ctr
    let t ← readK tgt
    let st ← get
    let c := st.issue.ctx
    let (_, st) ← liftTrap (translateCounter st (st.view c) va .counterAdd)
    set st
    let (pa, v) ← readCounter va
    let x ← curCtx
    let hold := fun (s : State) => s.updCtx c (fun x => { x with
      run := .blocked
      wait := some .drain
      drainPa := pa
      drainTgt := t.toNat
      drainScope := scope })
    if x.waitAct then
      if t.toNat ≤ v && sweepsAgree x.drainSums then modify (fun s => acquireSide s c (s.sideStatus pa) scope.code)
      else throw (.held (hold (← get)))
    else do
      let i ← releaseNow
      let st ← get
      let st := match st.counterAdd (st.ctxWriter c i) pa 1 none (some (BitVec.ofNat 16 c, i)) with
        | .ok s => s
        | .error f => trapOutside (countFailedAdd st f) c f.cause va
      throw (.held (hold (st.updCtx c (fun x => { x with waitAct := true, drainSums := [] }))))) s

/-- DRAIN_SWEEP: one sweep of the drain tree for a context that waits at a DRAIN, once its counter has reached the
target (R268); one whose counter cannot be read is checked again, and traps (R275). Over the domain, the step itself stands for the other packages' balance. -/
def execDrainSweep (c : Nat) (s : State) : Host.Outcome State Fault Refusal :=
  let x := s.ctx c
  if x.wait != some .drain then .next s
  else if (s.counterBad x.drainPa).isSome then .next (wake s c)
  else if s.counter x.drainPa < x.drainTgt then .next s
  else
    let sums := drainSums s c x.drainScope x.region.space.asid :: x.drainSums.take 1
    let s := s.updCtx c (fun x => { x with drainSums := sums })
    .next (if sweepsAgree sums then wake s c else s)

/-! ### JOIN and the monitor table -/

/-- The save of a parked JOIN, whose monitor entry stays (R266); none where the image has no room. -/
def parkAt (s : State) (c : Nat) (e : MonEntry) : Option State :=
  let id := s.nextId
  (saveContext s c .park false).map (fun s =>
    let s := s.updCore (coreOf c) (fun k => { k with monitor := k.monitor ++ [{ e with task := some id }] })
    startNeeded s (coreOf c))

/-- JOIN (R266). -/
def execJoin (acq : Bool) (scope : Scope) (park : Bool) (ctr tgt : BitVec 5) (s : State) :
    Host.Outcome State Fault Refusal :=
  runSlot (do
    let va ← readK ctr
    let t ← readK tgt
    flushOwn
    let (pa, v) ← readCounter va
    let st ← get
    let c := st.issue.ctx
    if t.toNat ≤ v || st.issue.commit then
      if acq then modify (fun s => acquireSide s c (s.sideStatus pa) scope.code) else pure ()
    else
      let e : MonEntry := { ctx := c, pa := pa, va := va, tgt := t.toNat }
      if park && retired st c && decide ((st.core (coreOf c)).monitor.length < 64) then
        if !settled st c then notReady
        else throw (.held ((parkAt st c e).getD (waitOn st e)))
      else throw (.held (waitOn st e))) s

/-- Whether the versions that a consumer's CBWAIT compares are its version now, or cannot be read, so that its bundle traps (R212). -/
def versionsNow (s : State) (c : Nat) (h : Handle) (n ver : Nat) : Bool :=
  match transRanges (s.view c) .read 2 (versionRanges h n) s with
  | .error _ => true
  | .ok (ps, s) => (badSpan s ps).isSome || versionsEq (readSpans s ps).1 n ver

/-- Whether a waiter's entry is to be tried again: its condition holds, or its counter cannot be read (R259, R275). A consumer's
CBWAIT whose versions differed stays blocked until its counter moves (R212). -/
def entryRipe (s : State) (e : MonEntry) : Bool :=
  let v := s.counter e.pa
  (s.counterBad e.pa).isSome || (decide (e.tgt ≤ v) && match e.handle with
    | none => true
    | some (cb, n, ver) =>
      let h := Map.get {} (s.ctx e.ctx).handles cb
      h.producer || (v != e.seen && versionsNow s e.ctx h n ver))

/-- The entry as the core has now evaluated it. -/
def MonEntry.noted (s : State) (e : MonEntry) : MonEntry := { e with seen := s.counter e.pa }

/-- A satisfied waiter becomes ready; a parked one may be restored. Its entry frees. -/
def releaseEntry (s : State) (k : Nat) (e : MonEntry) : State :=
  match e.task with
  | none => wake s e.ctx
  | some id =>
    let s : State := { s with saved := s.saved.map (fun (v : Saved) => if v.id == id then { v with ripe := true } else v) }
    s.updCore k (fun (x : Core) =>
      let mon := x.monitor.filter (fun m => m.task != some id)
      let room := 64 - mon.length
      { x with monitor := mon ++ x.sweep.take room, sweep := x.sweep.drop room })

/-- WAIT_SATISFIED: the home of a counter notifies a core, which re-evaluates the entries that watch it (R259). -/
def execWaitSatisfied (k ctr : Nat) (s : State) : Host.Outcome State Fault Refusal :=
  let t := s.updCore k (fun x => { x with monitor := x.monitor.map (fun e => if e.pa == ctr then e.noted s else e) })
  .next (((s.core k).monitor.filter (fun e => e.pa == ctr && entryRipe s e)).foldl (fun s e => releaseEntry s k e) t)

/-- SWEEP_REREAD: one round in which a core re-reads the counters of its sweep waiters (R260). -/
def execSweepReread (k : Nat) (s : State) : Host.Outcome State Fault Refusal :=
  let t := s.updCore k (fun x => { x with sweep := x.sweep.map (fun e => e.noted s) })
  .next (((s.core k).sweep.filter (entryRipe s)).foldl (fun s e => releaseEntry s k e) t)

/-- CWAIT_TIMEOUT: the timeout of a waiting CWAIT expires; its bundle is checked again and executes (R256). -/
def execCwaitTimeout (c : Nat) (s : State) : Host.Outcome State Fault Refusal :=
  let x := s.ctx c
  if x.run != .blocked || x.wait != some .counter || x.waitStart = 0 || s.clock < x.waitStart - 1 + x.waitLimit then .next s
  else .next ((wake s c).updCtx c (fun x => { x with timedOut := true }))

/-! ### Task deques -/

/-- FORK (R263): the checks in order, the release at package scope, and the push at the head of the core's deque. -/
def execFork (rec_ arg : BitVec 5) (s : State) : Host.Outcome State Fault Refusal :=
  runSlot (do
    let at_ ← readK rec_
    let a ← readK arg
    need (at_.toNat % 64 == 0) 0x03 at_
    flushOwn
    let st ← get
    let c := st.issue.ctx
    let r := (st.ctx c).region
    let (bs, st) ← match readVia st (st.view c) at_.toNat 64 with
      | .ok x => pure x
      | .error (cause, _) => condTrap cause at_
    set st
    let entry := fieldW bs 0
    let join := fieldW bs 0x10
    let image := fieldW bs 0x20
    let b := field bs 0x28 1
    let bank := field bs 0x29 1
    need (entry.toNat % 8 == 0) 0x03 entry
    need (image.toNat % 256 == 0) 0x03 image
    needLegal (bitsAt b 0 2 != 3 && decide (bitsAt b 2 3 ≤ 4) && bitsAt b 5 3 == 0 && zeroField bs 0x2A 22 &&
      (if image = 0 then decide (bank ≤ 4) else bank == 0))
    if join = 0 then pure ()
    else do
      let st ← get
      let (_, st) ← liftTrap (translateCounter st (st.view c) join .counterAdd)
      set st
    let st ← get
    let sub ← match readRegion st (packageView r.space) (fieldW bs 0x18) with
      | .ok (q, s) => do
        set s
        pure q
      | .error _ => condTrap 0x05 at_
    need (inSubtree sub r) 0x05 at_
    let k ← curCore
    need (decide (k.deque.length < 256)) 0x14 0
    let i ← releaseNow
    let t : TaskRec :=
      { entry := entry
        arg := a
        join := join
        image := image
        role := bitsAt b 0 2
        scope := (Scope.ofCode (bitsAt b 2 3)).getD .core
        bank := bank
        region := sub
        from_ := BitVec.ofNat 16 c
        interval := i }
    modify (fun s => s.updCore (coreOf c) (fun k => { k with deque := t :: k.deque }))) s

/-- What a deque record starts (R264). -/
def TaskRec.start (t : TaskRec) : Start :=
  { entry := t.entry
    image := t.image
    role := t.role
    region := t.region
    task := .forked t.join t.scope
    bank := t.bank
    regs := [(fA, 0, t.arg), (fA, 1, t.join), (fK, 0, 0), (fK, 1, 0)] }

/-- Whether a core can start a record now, with an empty tile mask (R264). -/
def dequeFits (s : State) (k : Nat) (t : TaskRec) : Bool :=
  let bank := match startNeeds s t.start with | .ok (b, _, _) => b | .error _ => 64
  canStart s k bank 0 t.region

/-- The cores from which a core steals, in order (R264). -/
def stealOrder (k : Nat) : List Nat :=
  let cl := k / 16
  let own := (List.range 11).map (fun i => cl * 16 + (k % 16 + 1 + i) % 12)
  let others := (List.range 7).flatMap (fun i => coresOf (cl / 8 * 8 + (cl % 8 + 1 + i) % 8))
  own ++ others

/-- Start a record on a context: a launch fill without tiles, and an acquire at package scope (R264, R319). -/
def startRecord (s : State) (c : Nat) (t : TaskRec) : State :=
  let s := launchFill s c t.start
  if (s.ctx c).run == .ready then s.updCtx c (fun x => { x with
    tmask := 0
    acq := if t.from_ = 0 && t.interval = 0 then x.acq else acqEnter x.acq ⟨t.from_, t.interval, 3⟩ })
  else s

/-- DEQUE_START: a dormant context of a core with a newest record of its own, or with an empty deque a record stolen from
another core's tail (R264). -/
def execDequeStart (c : Nat) (s : State) : Host.Outcome State Fault Refusal :=
  let k := coreOf c
  if (s.ctx c).run != .dormant || !ctxValid c then .next s
  else match (s.core k).deque with
    | t :: rest =>
      if dequeFits s k t then .next (startRecord (s.updCore k (fun x => { x with deque := rest })) c t) else .next s
    | [] =>
      let victim := (stealOrder k).find? (fun j => match (s.core j).deque.getLast? with
        | some t => dequeFits s k t
        | none => false)
      match victim with
      | none => .next s
      | some j => match (s.core j).deque.getLast? with
        | none => .next s
        | some t => .next (startRecord (s.updCore j (fun x => { x with deque := x.deque.dropLast })) c t)

/-! ### The core's own steps -/

/-- The promotion threshold of a core in clock cycles (R97). -/
def threshold (s : State) (k : Nat) : Nat := 2 ^ (s.core k).ageing.toNat

/-- CONTEXT_PROMOTION (R96). -/
def execContextPromotion (c : Nat) (s : State) : Host.Outcome State Fault Refusal :=
  .next (s.updCtx c (fun x => if threshold s (coreOf c) ≤ x.waitCount && x.run == .ready then { x with promoted := true } else x))

/-- YIELD_EXPIRY (R136). -/
def execYieldExpiry (c : Nat) (s : State) : Host.Outcome State Fault Refusal :=
  .next (s.updCtx c (fun x => match x.yielded with
    | some t => if t + threshold s (coreOf c) ≤ s.clock then { x with yielded := none } else x
    | none => x))

/-- OUTSIDE_TRAP: the oldest trap that has reached a context from outside freezes it at a context-cycle boundary (R105);
a frozen context keeps it until it goes on. -/
def execOutsideTrap (c : Nat) (s : State) : Host.Outcome State Fault Refusal :=
  let x := s.ctx c
  match x.outside with
  | [] => .next s
  | t :: rest =>
    if x.run == .ready || x.run == .blocked then
      .next (takeTrap (s.updCtx c (fun x => { x with outside := rest })) c t.cause t.tval x.pc)
    else .next s

end Sys2Proof.Machine
end

