-- ==== Sys2Proof/Machine/Deps.lean ====
section
/-! DEFINITION. What each slot instruction names: the registers it reads or writes, the queue heads it reads, the tiles it
acts on, and what else decides whether its bundle is ready or its encoding legal (R54, R55, R67, R71, R74, R85, R131,
R134, R208, R219). -/

namespace Sys2Proof

open Sys2Proof.Machine

/-- What an instruction names. -/
structure Uses where
  /-- registers read or written, as file and index: pending results on them make the bundle not ready (R74) -/
  regs : List (Nat × Nat) := []
  heads : List Nat := []
  /-- vector register indexes, which must lie below sys.vregs (R67) -/
  vecs : List Nat := []
  bc : Bool := false
  imm : Bool := false
  /-- tiles, which must be the context's own (R85) -/
  tiles : List Nat := []
  /-- a transfer, LOOP or ERET, which neither a delay bundle nor a loop-end bundle may hold (R131, R134) -/
  transfer : Bool := false
  /-- an ordinary access that is performed at issue, after the context's earlier ones (R311, R312) -/
  access : Bool := false
  /-- the engine whose queue it needs room in (R215) -/
  engine : Option TSlot := none
  deriving DecidableEq, Repr

namespace Uses

def join (a b : Uses) : Uses where
  regs := a.regs ++ b.regs
  heads := a.heads ++ b.heads
  vecs := a.vecs ++ b.vecs
  bc := a.bc || b.bc
  imm := a.imm || b.imm
  tiles := a.tiles ++ b.tiles
  transfer := a.transfer || b.transfer
  access := a.access || b.access
  engine := a.engine.or b.engine

def ofReg (file i : Nat) : Uses := { regs := [(file, i)] }
def ofVec (file i : Nat) : Uses := { regs := [(file, i)], vecs := [i] }
def ofK (i : BitVec 5) : Uses := ofReg fK i.toNat
def ofP (i : BitVec 5) : Uses := ofReg fP i.toNat
def ks (l : List (BitVec 5)) : Uses := { regs := l.map (fun i => (fK, i.toNat)) }
def ps (l : List (BitVec 5)) : Uses := { regs := l.map (fun i => (fP, i.toNat)) }

end Uses

/-- A register named by file and index. -/
def RegRef.uses (r : RegRef) : Uses :=
  if r.file.isVector then Uses.ofVec r.file.code r.idx.toNat else Uses.ofReg r.file.code r.idx.toNat

/-- An S operand. -/
def SOpnd.uses (slot : SSlot) : SOpnd → Uses
  | .reg i => Uses.ofReg (SSlot.file slot) i.toNat
  | .head q => { heads := [q.toNat] }
  | .lit _ => {}
  | _ => { imm := true }

/-- A V operand. -/
def VOpnd.uses (slot : VSlot) : VOpnd → Uses
  | .reg i => Uses.ofVec (VSlot.file slot) i.toNat
  | .head q => { heads := [q.toNat] }
  | .bc => { bc := true }
  | .imm => { imm := true }

/-- The mask of a V word. -/
def maskUses (slot : VSlot) : Option (BitVec 3) → Uses
  | none => {}
  | some i => Uses.ofReg (VSlot.maskFile slot) i.toNat

/-- The operands of the S and V layouts, destinations apart. -/
def SUn.srcs (f : SUn) : Uses := f.a.uses f.slot
def SBin.srcs (f : SBin) : Uses := (f.a.uses f.slot).join (f.b.uses f.slot)
def VUn.srcs (f : VUn) : Uses := (f.a.uses f.slot).join (maskUses f.slot f.mask)
def VBin.srcs (f : VBin) : Uses := ((f.a.uses f.slot).join (f.b.uses f.slot)).join (maskUses f.slot f.mask)
def VTer.srcs (f : VTer) : Uses :=
  (((f.a.uses f.slot).join (f.b.uses f.slot)).join (f.c.uses f.slot)).join (maskUses f.slot f.mask)

/-- The same with a destination on the slot's own file. -/
def SUn.uses (f : SUn) : Uses := f.srcs.join (Uses.ofReg (SSlot.file f.slot) f.dst.toNat)
def SBin.uses (f : SBin) : Uses := f.srcs.join (Uses.ofReg (SSlot.file f.slot) f.dst.toNat)
def VUn.uses (f : VUn) : Uses := f.srcs.join (Uses.ofVec (VSlot.file f.slot) f.dst.toNat)
def VBin.uses (f : VBin) : Uses := f.srcs.join (Uses.ofVec (VSlot.file f.slot) f.dst.toNat)
def VTer.uses (f : VTer) : Uses := f.srcs.join (Uses.ofVec (VSlot.file f.slot) f.dst.toNat)
def VNul.uses (f : VNul) : Uses := (maskUses f.slot f.mask).join (Uses.ofVec (VSlot.file f.slot) f.dst.toNat)

/-- The address field of an L word. -/
def LAddr.uses : LAddr → Uses
  | .off _ => {}
  | .idx i _ => Uses.ofP i

/-- An L form with a register, a base and an ordinary access. -/
def lUses (r : RegRef) (base : BitVec 5) (more : Uses) : Uses :=
  { (r.uses.join (Uses.ofP base)).join more with access := true }

/-- A source pair of atom.cas (R195). -/
def atomUses (op : AtomOp) (dst : Option RegRef) (src : RegRef) (base : BitVec 5) : Uses :=
  let d : Uses := match dst with | some d => d.uses | none => {}
  let y : Uses := if op = .cas then Uses.ofReg src.file.code (src.idx.toNat + 1) else {}
  ((src.uses.join (Uses.ofP base)).join d).join y

/-- A T form on tiles, with the registers reg to reg + n − 1 of a file. -/
def tUses (e : TSlot) (tiles : List Nat) : Uses := { tiles := tiles, engine := some e }
def tRegs (w : Bool) (reg : BitVec 10) (n : Nat) : Uses :=
  { regs := (List.range n).map (fun i => (tFile w, reg.toNat + i)), vecs := [reg.toNat + n - 1] }

/-- An engine command. -/
def EngArgs.uses (f : EngArgs) : Uses := { Uses.ks [f.cmd, f.ctr] with access := true }

/-- VMASK's operands (R158). -/
def VMaskOp.uses (slot : VSlot) (op : VMaskOp) : Uses :=
  let m := fun (i : BitVec 3) => Uses.ofReg (VSlot.maskFile slot) i.toNat
  match op with
  | .and a b | .or a b | .xor a b | .andn a b => (m a).join (m b)
  | .not a => m a
  | .first a | .nz _ a | .neg _ a => a.uses slot

/-- What every slot instruction names; the machine's own steps name nothing. -/
def Instr.uses : Instr → Uses
  | .nop _ => {}
  | .add f | .sub f | .mul f | .mulh f | .div f | .rem f | .and f | .or f | .xor f | .andn f | .shl f | .shr f | .sar f
  | .rot f | .min f | .max f | .addr _ f | .fadd _ f | .fsub _ f | .fmul _ f | .fma _ f | .fmin _ f | .fmax _ f => f.uses
  | .clz f | .ctz f | .popc f | .li f | .mov f | .bfx _ _ f | .bfi _ _ f | .frcp _ f | .frsq _ f | .fexp2 _ f
  | .flog2 _ f | .fcvt _ _ f => f.uses
  | .cmp _ f | .fcmp _ _ f => f.srcs.join (Uses.ofReg fG (f.dst.toNat % 8))
  | .sel g _ f => f.uses.join (Uses.ofReg fG g.toNat)
  | .xfer file f => f.srcs.join (match file with
      | .other => Uses.ofReg (SSlot.other f.slot) f.dst.toNat
      | .p => Uses.ofReg fP f.dst.toNat
      | .k => Uses.ofReg fK f.dst.toNat
      | .v => Uses.ofVec fV f.dst.toNat
      | .w => Uses.ofVec fW f.dst.toNat)
  | .rand _ slot dst => Uses.ofReg (SSlot.file slot) dst.toNat
  | .vadd f | .vsub f | .vmul f | .vmin f | .vmax f | .vdiv f | .viadd _ f | .visub _ f | .vimul _ f | .vimin f | .vimax f
  | .vand f | .vor f | .vxor f | .vshl f | .vshr f | .vsar f | .vsel f | .vperm f | .vslide _ f | .vfind _ f
  | .vdeq _ _ f | .vcwenc _ f | .vcwdec _ _ _ _ f => f.uses
  | .vquant sc _ _ f => if sc then ({ slot := f.slot, ty := f.ty, mask := f.mask, dst := f.dst, a := f.a, rnd := f.rnd : VUn }).uses
      else f.uses
  | .vfma f | .vfms f | .vfnma f | .vimad _ f => f.uses
  | .vabs f | .vneg f | .vrcp f | .vrsq f | .vsqrt f | .vexp2 f | .vlog2 f | .vtanh f | .vsigm f | .vsilu f | .vgelu f
  | .vmov f | .vbcast _ f | .vcomp f | .vexpd f | .vpsum f | .vred _ f | .vcvt _ _ _ f | .vins _ f | .vclass f => f.uses
  | .vcmp _ f => f.srcs.join (Uses.ofReg (VSlot.maskFile f.slot) (f.dst.toNat % 8))
  | .vmask op slot dst => (op.uses slot).join (Uses.ofReg (VSlot.maskFile slot) dst.toNat)
  | .vcnt f | .viota f | .vrand f => f.uses
  | .vxfer file _ f => f.srcs.join (match file with
      | .other => Uses.ofVec (VSlot.other f.slot) f.dst.toNat
      | .a => Uses.ofReg fA f.dst.toNat
      | .b => Uses.ofReg fB f.dst.toNat
      | .p => Uses.ofReg fP f.dst.toNat
      | .k => Uses.ofReg fK f.dst.toNat)
  | .lds _ r b ad | .sts _ r b ad | .vld _ r b ad | .vst _ r b ad => lUses r b ad.uses
  | .vlds _ r b st _ | .vsts _ r b st _ => lUses r b (Uses.ofP st)
  | .vgath _ _ r b i _ | .vscat _ _ r b i => lUses r b (Uses.ofVec r.file.code i.toNat)
  | .atom op _ d s b _ => atomUses op d s b
  | .pref _ b _ => Uses.ofP b
  | .wset _ mem _ r b => if mem then { Uses.ps [r, b] with access := true } else Uses.ofP b
  | .wstart _ | .wstop _ _ => {}
  | .wstat d _ => d.uses
  | .cbwait d _ _ _ => { d.uses with access := true }
  | .cbadv _ _ _ => {}
  | .cbset _ b _ => { Uses.ofP b with access := true }
  | .nld _ d b _ => d.uses.join (Uses.ofP b)
  | .nst _ fl src b _ | .nmc _ fl _ _ src b _ => (src.uses.join (Uses.ofP b)).join (match fl with | some p => Uses.ofP p | none => {})
  | .nat op _ d s b _ => atomUses op d s b
  | .nts _ src _ _ slot b => src.uses.join (Uses.ps [slot, b])
  | .ncb _ src _ _ b => src.uses.join (Uses.ofP b)
  | .pld _ d b _ desc _ => lUses d b (Uses.ofP desc)
  | .pst _ _ src b desc _ => lUses src b (Uses.ofP desc)
  | .tcfg e _ _ | .tdrain e _ => tUses e []
  | .tzero e t => tUses e [tileNo e t]
  | .tmma _ e t _ _ _ => tUses e [tileNo e t]
  | .taff _ _ e p | .tscan _ e p _ _ => tUses e [pairNo e p, pairNo e p + 1]
  | .tcarry op w e t _ reg => (tUses e [tileNo e t]).join (match op with
      | .ident => {} | .h => tRegs w reg 1 | _ => tRegs w reg 2)
  | .trd _ w e t reg _ n1 | .twr w e t reg _ n1 => (tUses e [tileNo e t]).join (tRegs w reg (n1.toNat + 1))
  | .tld e t _ | .tst _ e t _ => tUses e [tileNo e t]
  | .tred _ _ w e t reg => (tUses e [tileNo e t]).join (tRegs w reg 1)
  | .tcomb fold e p _ =>
    let a := pairNo e p
    let b := pairNo e (p + 1)
    tUses e (if fold then [a, a + 1] else [a, a + 1, b, b + 1])
  | .tres _ _ e t d => (tUses e [tileNo e t]).join d.uses
  | .tdesc e _ src => (tUses e []).join (match src with | .const _ => {} | .reg w i => tRegs w i 1)
  | .br _ => { transfer := true }
  | .brc _ g _ => { Uses.ofReg fG g.toNat with transfer := true }
  | .jmp b _ => { Uses.ofK b with transfer := true }
  | .call ind l b _ => { (if ind then Uses.ks [l, b] else Uses.ofK l) with transfer := true }
  | .ret l => { Uses.ofK l with transfer := true }
  | .loop lv n _ =>
    let own : Uses := { regs := [(fK, 24 + 2 * lv.toNat), (fK, 25 + 2 * lv.toNat)] }
    (match n with | some k => { own.join (Uses.ofK k) with transfer := true } | none => { own with transfer := true, imm := true })
  | .end_ | .yield => {}
  | .cadd _ _ c n => (match n with | .inl k => Uses.ks [c, k] | .inr _ => Uses.ofK c)
  | .cwait _ _ d c t _ => { Uses.ks [d, c, t] with access := true }
  | .ctest _ _ g c t => { (Uses.ks [c, t]).join (Uses.ofReg fG g.toNat) with access := true }
  | .cread _ _ _ d c => { Uses.ks [d, c] with access := true }
  | .fence _ => {}
  | .drain _ c t | .join _ _ _ c t => { Uses.ks [c, t] with access := true }
  | .fork r a => { Uses.ks [r, a] with access := true }
  | .launch d p => { Uses.ks [d, p] with access := true }
  | .msend _ _ t s _ => { Uses.ks [t, s] with access := true }
  | .ecopy _ f | .efill _ f | .econv _ f => f.uses
  | .egather f | .escatter f | .ecoll f | .eplane f => f.uses
  | .estat d _ => Uses.ofK d
  | .swap none => {}
  | .swap (some c) => Uses.ofK c
  | .sqnew d r => { Uses.ks [d, r] with access := true }
  | .sqfork d i r | .sqtree d i r | .sqacc d i r | .sqresume d i r => { Uses.ks [d, i, r] with access := true }
  | .sqfree d i | .sqpreempt d i | .sqstat d i _ => { Uses.ks [d, i] with access := true }
  | .sqcommit direct d i => (match direct with
      | some (n, _) => { Uses.ks [d, i, n] with access := true }
      | none => { Uses.ks [d, i] with access := true })
  | .sqrewind d i n | .kvappend d i n => { Uses.ks [d, i, n] with access := true }
  | .kvmap _ _ d i x _ => { Uses.ks [d, i, x] with access := true }
  | .kvcompact _ d i c _ | .kvrequant _ d i c _ => { Uses.ks [d, i, c] with access := true }
  | .pdecl d r => { Uses.ks [d, r] with access := true }
  | .prel _ r => Uses.ofK r
  | .pconv d r _ | .pqry d r _ => Uses.ks [d, r]
  | .csrr d _ => Uses.ofK d
  | .csrw _ s n => { Uses.ofK s with access := n == 0x022 }
  | .trap _ | .snap _ | .bkpt _ => {}
  | .eret dst => { (match dst with | some k => Uses.ofK k | none => {}) with transfer := true }
  | .watch arm _ d b l _ => if arm then Uses.ks [d, b, l] else Uses.ofK d
  | .creset k c => Uses.ks [k, c]
  | _ => {}

/-- The register that WSTART reads: the length source of the set that its head has loaded (R200). -/
def Instr.lengthRegs (x : Ctx) : Instr → List (Nat × Nat)
  | .wstart q =>
    let h := Map.get {} x.heads q.toNat
    if h.params.lenLevel.isSome then [(fK, h.params.lenReg)] else []
  | _ => []

/-- Whether a slot instruction accesses memory, here or in another package, as of its issue (R94). -/
def Instr.touches (i : Instr) : Bool :=
  i.uses.access || (match i with
    | .atom _ _ _ _ _ _ | .cbadv _ _ _ | .cadd _ _ _ _ | .fence _ | .nld _ _ _ _ | .nst _ _ _ _ _ | .nat _ _ _ _ _ _
    | .nmc _ _ _ _ _ _ _ | .nts _ _ _ _ _ _ | .ncb _ _ _ _ _ | .prel _ _ | .pconv _ _ _ => true
    | _ => false)

/-- Whether an L form has an effective address that a lathe template increments: opcodes 0x01 to 0x0A (R208). -/
def Instr.hasEa : Instr → Bool
  | .lds _ _ _ _ | .sts _ _ _ _ | .vld _ _ _ _ | .vst _ _ _ _ | .vlds _ _ _ _ _ | .vsts _ _ _ _ _ | .vgath _ _ _ _ _ _
  | .vscat _ _ _ _ _ | .atom _ _ _ _ _ _ | .pref _ _ _ => true
  | _ => false

/-- The encoding rules of one slot word that depend on its context and its header (R55, R67, R85, R131, R134, R137, R208). -/
def Instr.legalIn (i : Instr) (x : Ctx) (h : Header) : Bool :=
  let u := i.uses
  u.vecs.all (fun n => decide (n < x.vregs.toNat)) && u.tiles.all (fun t => x.tmask.getLsbD t) &&
    (!u.bc || h.bcValid) && (!u.imm || h.kind != 2) && (!u.transfer || (!x.delay && h.kind != 1)) &&
    (match i with
      | .csrr _ n => (csrReserved n.toNat).isSome
      | .csrw op _ n => (csrReserved n.toNat).isSome && (n != 0x022 || op == .write)
      | _ => true)

end Sys2Proof
end

