-- ==== Sys2Proof/Machine/Issue.lean ====
section
/-! DEFINITION. Issuing one bundle (R49 to R57, R71, R90, R91, R96, R131 to R134, R451): fetch, the checks in their order,
readiness, the conditions of execution, and the end of the bundle. The meaning of a slot instruction is a parameter. -/

namespace Sys2Proof.Machine

/-- A meaning of one instruction. -/
abbrev Meaning := Instr → State → Host.Outcome State Fault Refusal

/-! ### Fetch and decoding -/

/-- A slot of a fetched bundle: the index of its word in the bundle, and its instruction. -/
structure SlotI where
  word : Nat
  slot : SlotId
  instr : Instr
  deriving DecidableEq, Repr

/-- The words of a bundle after its header, or the cause and detail with which their fetch fails. Recursion is on the words
left. -/
def fetchRest (c : Nat) (far : Bool) : Nat → Word → State → Except (BitVec 8 × Word) (List Word × State)
  | 0, _, s => .ok ([], s)
  | n + 1, addr, s => match fetchWord s c far addr with
    | .error e => .error e
    | .ok (w, s) => match fetchRest c far n (addr + 8) s with
      | .error e => .error e
      | .ok (ws, s) => .ok (w :: ws, s)

/-- A fetched bundle: its header word, its header, and the words after it. -/
structure Fetched where
  raw : Word
  header : Header
  words : List Word
  deriving DecidableEq, Repr

/-- Fetch the bundle at an address, with the header's checks (R51, R53, R55, R57, R369). -/
def fetchBundle (s : State) (c : Nat) (addr : Word) : Except (BitVec 8 × Word) (Fetched × State) :=
  let pl := (s.core (coreOf c)).active
  let far := !pl.holds addr.toNat
  match fetchWord s c far addr with
  | .error e => .error e
  | .ok (w, s) =>
    let h := Header.ofWord w
    if !h.ok then .error (0x01, 0)
    else
      let n := bundleWords h.slots
      let room := (pl.codeBase.toNat + pl.codeLen - addr.toNat) / 8
      if !far && decide (room < n) then .error (0x01, BitVec.ofNat 64 room)
      else match fetchRest c far (n - 1) (addr + 8) s with
        | .error e => .error e
        | .ok (ws, s) => .ok ({ raw := w, header := h, words := ws }, s)

/-- The next bundle of a context: fetched at its program counter, or, where its first-wait action stands, the bundle that it holds
and checks again from R71's step 3 on (R451). -/
def nextBundle (s : State) (c : Nat) : Except (BitVec 8 × Word) (Fetched × State) :=
  let x := s.ctx c
  match x.waitAct, x.heldWords with
  | true, w :: ws => .ok ({ raw := w, header := Header.ofWord w, words := ws }, s)
  | _, _ => fetchBundle s c x.pc

/-- Decode the slot words in slot order; the index of the first word that stands for no instruction here (R58 to R70). -/
def decodeWords (x : Ctx) (h : Header) : Nat → List (SlotId × Word) → Except Nat (List SlotI)
  | _, [] => .ok []
  | n, (id, w) :: r => match decodeSlot id w with
    | .error _ => .error n
    | .ok i =>
      if !i.legalIn x h then .error n
      else match decodeWords x h (n + 1) r with
        | .error e => .error e
        | .ok l => .ok ({ word := n, slot := id, instr := i } :: l)

/-- The instructions of a bundle; the index of the first bad word, 0 for a template without an effective address (R208). -/
def decodeBundle (x : Ctx) (f : Fetched) : Except Nat (List SlotI) :=
  match decodeWords x f.header 1 ((slotsOf f.header.slots).zip f.words) with
  | .error e => .error e
  | .ok l => if f.header.kind = 2 && !l.any (fun i => i.instr.hasEa) then .error 0 else .ok l

/-! ### Readiness -/

/-- The registers that the header itself reads: bc, and the loop state of loop-end and template bundles (R55, R134, R208). -/
def headerRegs (h : Header) : List (Nat × Nat) :=
  (if h.bcValid then [(if h.bcFile then fB else fA, h.bcIdx.toNat)] else []) ++
    (if h.kind = 1 then (List.range 8).map (fun i => (fK, 24 + i)) else []) ++
    (if h.kind = 2 then (List.range 4).map (fun i => (fK, 24 + 2 * i)) else [])

/-- The queue heads of a pop mask. -/
def popHeads (mask : BitVec 8) : List Nat := (List.range 8).filter (fun q => mask.getLsbD q)

/-- Whether a bundle is ready, the slots' own waits apart (R71, R74, R96, R180, R215). -/
def bundleReady (s : State) (c : Nat) (h : Header) (l : List SlotI) : Bool :=
  let x := s.ctx c
  let k := s.core (coreOf c)
  let u := l.map (fun i => i.instr.uses)
  let regs := headerRegs h ++ u.flatMap (fun u => u.regs) ++ l.flatMap (fun i => i.instr.lengthRegs x)
  let heads := popHeads h.pop ++ u.flatMap (fun u => u.heads)
  x.run == .ready && !x.ended && x.stall == 0 && x.outside.isEmpty &&
    heads.all (fun q => (Map.get {} x.heads q).cond != .empty) &&
    x.pending.all (fun p => p.dests.all (fun d => !regs.contains d)) &&
    (x.posted.isEmpty || !u.any (fun u => u.access)) &&
    (k.lBusy == 0 || !h.slots.getLsbD 4) &&
    u.all (fun u => match u.engine with | some e => !k.engineFull e | none => true)

/-! ### Conditions of queue heads and of the header's registers -/

/-- The failure of a head: closed, or a fault in the place of its vector (R54, R205). -/
def headFails (x : Ctx) (word : Nat) (q : Nat) : Option (BitVec 8 × Word) :=
  let h := Map.get {} x.heads q
  match h.cond with
  | .closed => some (0x01, BitVec.ofNat 64 word)
  | _ => h.fault

/-- The first failure among the heads of the pop mask and then those that the slot words read. -/
def headsFail (x : Ctx) (h : Header) (l : List SlotI) : Option (BitVec 8 × Word) :=
  ((popHeads h.pop).findSome? (headFails x 0)).or (l.findSome? (fun i => i.instr.uses.heads.findSome? (headFails x i.word)))

/-- The innermost active loop level (R133). -/
def innermost (x : Ctx) : Option Nat := [3, 2, 1, 0].find? (fun l => Map.get 0 x.k (24 + 2 * l) != 0)

/-- The registers that the header reads now: of the loop state, what finds the innermost level and its start. -/
def headerReads (x : Ctx) (h : Header) : List (Nat × Nat) :=
  let upTo := match innermost x with | some l => l | none => 0
  let levels := (List.range (4 - upTo)).map (fun i => (fK, 24 + 2 * (3 - i)))
  (if h.bcValid then [(if h.bcFile then fB else fA, h.bcIdx.toNat)] else []) ++
    (if h.kind = 1 || h.kind = 2 then levels else []) ++
    (match h.kind.toNat, innermost x with | 1, some l => [(fK, 25 + 2 * l)] | _, _ => [])

/-- The register error that the header's reads meet (R103, R104). -/
def headerFails (x : Ctx) (h : Header) : Option (BitVec 8 × Word) :=
  (headerReads x h).findSome? (fun (f, i) => x.regError f i)

/-! ### Running the slots -/

/-- The record of a bundle being issued. -/
def issueOf (s : State) (c : Nat) (addr : Word) (h : Header) : Issue :=
  let x := s.ctx c
  { ctx := c
    addr := addr
    words := bundleWords h.slots
    kind := h.kind.toNat
    imm := h.imm
    bc := if h.bcValid then some (x.scalar (if h.bcFile then fB else fA) h.bcIdx.toNat) else none
    pop := h.pop
    stall := h.stall.toNat
    slots := h.slots
    seq := x.seq
    fflags0 := x.fflags
    rctr0 := x.rctr
    interval0 := x.interval }

/-- The state in which a slot's instruction runs. -/
def atSlot (s : State) (i : SlotI) : State :=
  { s with issue := { s.issue with word := i.word, slot := i.slot.num, verdict := .ran } }

/-- Run one slot; a stop of the model stops the step. -/
def runOne (m : Meaning) (s : State) (i : SlotI) : Except (Host.Outcome State Fault Refusal) State :=
  match m i.instr (atSlot s i) with
  | .next t => .ok t
  | o => .error o

/-- The verdict of one slot in the check of a bundle, with the state that a wait leaves. -/
structure Probe where
  at_ : SlotI
  verdict : Verdict
  after : State

/-- The stream position after a slot's draws. -/
def Probe.rctr (p : Probe) (c : Nat) (old : BitVec 128) : BitVec 128 :=
  match p.verdict with
  | .ran => (p.after.ctx c).rctr
  | .fpTrapped _ r => r
  | _ => old

/-- Check every slot on the state before the bundle, the stream position of earlier draws apart (R38, R71). -/
def probeSlots (m : Meaning) (s : State) (c : Nat) : BitVec 128 → List SlotI →
    Except (Host.Outcome State Fault Refusal) (List Probe)
  | _, [] => .ok []
  | r, i :: l => match runOne m (s.updCtx c (fun x => { x with rctr := r })) i with
    | .error o => .error o
    | .ok t =>
      let p : Probe := { at_ := i, verdict := t.issue.verdict, after := t }
      match probeSlots m s c (p.rctr c r) l with
      | .error o => .error o
      | .ok ps => .ok (p :: ps)

/-- Whether a slot is not ready: it holds the bundle and leaves its context ready. -/
def Probe.unready (p : Probe) (c : Nat) : Bool := p.verdict == .held && (p.after.ctx c).run == .ready

/-- The bundle's trap: the first failure in slot order, floating-point flags taken over every slot (R71). -/
def firstTrap (ps : List Probe) : Option Verdict :=
  match ps.find? (fun p => match p.verdict with | .trapped _ _ _ => true | .fpTrapped _ _ => true | _ => false) with
  | none => none
  | some p => match p.verdict with
    | .fpTrapped _ r => some (.fpTrapped (ps.foldl (fun f q => match q.verdict with
        | .fpTrapped g _ => f ||| g
        | _ => f) 0) r)
    | v => some v

/-- The state in which the bundle waits: the waits of its slots in slot order, each first-wait action taken (R451). -/
def waitFrom (m : Meaning) (s : State) (c : Nat) (first : Bool) : List SlotI → State →
    Except (Host.Outcome State Fault Refusal) State
  | [], t => .ok t
  | i :: l, t =>
    let now := if first then t.updCtx c (fun x => { x with run := .ready, waitAct := false })
      else t.updCtx c (fun x => { x with run := .ready })
    match runOne m { now with issue := s.issue } i with
    | .error o => .error o
    | .ok u => waitFrom m s c first l (u.updCtx c (fun x => { x with waitAct := x.waitAct || (t.ctx c).waitAct }))

/-- Let the bundle take effect, slot by slot. -/
def commitSlots (m : Meaning) : List SlotI → State → Except (Host.Outcome State Fault Refusal) State
  | [], s => .ok s
  | i :: l, s => match runOne m s i with
    | .error o => .error o
    | .ok t => commitSlots m l (if t.issue.verdict == .ran then t else s)

/-! ### The end of the bundle -/

/-- Change a head of a context. -/
def Ctx.updHead (x : Ctx) (q : Nat) (f : Head → Head) : Ctx := { x with heads := Map.upd {} x.heads q f }

/-- The order of the writes of the bundle itself (R129, R72). -/
def bundleOrder (i : Issue) : Nat := i.seq * 8 + 7

/-- What a scheduled action does to its context; control transfer and what needs the package are apart. -/
def Ctx.applyAct (x : Ctx) (i : Issue) : EndAct → Ctx
  | .setReg f n v => x.writeReg (bundleOrder i) f n v false none
  | .setPred g v => x.writeReg (bundleOrder i) fG g (if v then 1 else 0) false none
  | .setDesc d t => { x with desc := Map.set {} x.desc d t }
  | .setHandle n h => { x with handles := Map.set {} x.handles n h }
  | .wset q h => x.updHead q (fun _ => h)
  | .wstart q len => x.updHead q (fun h => h.started len (bundleOrder i))
  | .wstop q d => x.updHead q (fun h => h.stopped d)
  | .ended => { x with ended := true }
  | _ => x

/-- The loop-end decrement, reading the counter that stood before the bundle: the new counter and the body's start (R134). -/
def loopBack (x : Ctx) (kind : Nat) : Option (Nat × Word × Word) :=
  if kind = 1 then (innermost x).map (fun l => (l, Map.get 0 x.k (24 + 2 * l) - 1, Map.get 0 x.k (25 + 2 * l))) else none

/-- Where a transfer, if any, goes. -/
def actTarget (acts : List EndAct) : Option Word := acts.findSome? (fun a => match a with | .transfer t => some t | _ => none)
def actGoto (acts : List EndAct) : Option Word := acts.findSome? (fun a => match a with | .goto t => some t | _ => none)

/-- The next program counter, link and delay mark (R130 to R134). `x0` is the context before the bundle. A loop returns to the start
address as its k-register holds it: R134 rounds nothing and names no trap for one that is not a multiple of 8 (DESIGN CHOICE, log
entry 82). -/
def Ctx.advance (x x0 : Ctx) (i : Issue) : Ctx :=
  let seqPc := i.next
  let back := match loopBack x0 i.kind with
    | some (_, n, start) => if n = 0 then seqPc else start
    | none => seqPc
  let pc := if x0.delay && x0.npc.getLsbD 0 then x0.npc &&& ~~~7 else (actGoto i.acts).getD back
  match actTarget i.acts with
  | some t => { x with pc := seqPc, npc := (t &&& ~~~7) ||| 1, delay := true }
  | none => { x with pc := pc, npc := 0, delay := i.acts.contains .delayOnly }

/-- The context at the end of its bundle, in its order: landings, pops, the loop-end decrement, the scheduled writes, the
next bundle, the stall. R134 does not say which stands where an X-slot form of a loop-end bundle writes the counter that the bundle
decrements: here the form's write does, and the branch follows the decremented value (DESIGN CHOICE, log entry 72). -/
def Ctx.finish (x x0 : Ctx) (i : Issue) (clock : Nat) : Ctx :=
  let x := x.tick (i.seq * 8)
  let x := (popHeads i.pop).foldl (fun x q => x.updHead q Head.popped) x
  let x := match loopBack x0 i.kind with
    | some (l, n, _) => x.writeReg (bundleOrder i) fK (24 + 2 * l) (n.setWidth 2048) false none
    | none => x
  let x := i.acts.foldl (fun x a => x.applyAct i a) x
  let x := x.advance x0 i
  { x with
    seq := i.seq + 1
    stall := i.stall
    waitCount := 0
    promoted := false
    lastIssue := clock
    waitAct := false
    heldWords := []
    timedOut := false
    waitStart := 0
    drainSums := []
    yielded := if i.acts.contains .yield then some clock else x.yielded }

/-- What takes place after the context's own end of bundle: CSR writes, SNAP, TRAP and ERET (R137, R141, R142, R144). -/
def afterActs (s : State) (c : Nat) : List EndAct → State
  | [] => s
  | a :: l =>
    let s := match a with
      | .csr n op v => csrWrite s c n op v
      | .snap tag => fireShutter s .snap tag (BitVec.ofNat 16 c)
      | .trapAfter code => takeTrap s c 0x29 code (s.ctx c).pc
      | .eret dst => eretFrom s c dst
      | _ => s
    afterActs s c l

/-- The end of the issuing bundle, which is counted among those of its clock cycle (R96). Another context of the core has issued,
so a yield of theirs ends (R136). -/
def endBundle (s : State) (x0 : Ctx) : State :=
  let i := s.issue
  let s := { s with issued := s.issued ++ [(i.ctx, i.slots)] }
  let s := s.updCtx i.ctx (fun x => x.finish x0 i s.clock)
  let others := (ctxsOf (coreOf i.ctx)).filter (fun d => d != i.ctx && (s.ctx d).yielded.isSome)
  let s := others.foldl (fun s d => s.updCtx d (fun x => { x with yielded := none })) s
  { afterActs s i.ctx i.acts with issue := {} }

/-! ### One bundle -/

/-- A bundle that the context of number `ctx` may issue, with its words and its instructions. -/
structure Bundled where
  ctx : Nat
  fetched : Fetched
  slots : List SlotI

/-- The state in which the slots of a bundle are evaluated. -/
def Bundled.begin_ (b : Bundled) (s : State) : State :=
  { s with issue := issueOf s b.ctx (s.ctx b.ctx).pc b.fetched.header }

/-- The verdicts of a bundle's slots. -/
def Bundled.probes (b : Bundled) (m : Meaning) (s : State) : Except (Host.Outcome State Fault Refusal) (List Probe) :=
  probeSlots m (b.begin_ s) b.ctx (s.ctx b.ctx).rctr b.slots

/-- The bundle waits: its context keeps the words of one whose first-wait action stands (R451). -/
def Bundled.wait (b : Bundled) (m : Meaning) (s : State) (waits : List SlotI) : Host.Outcome State Fault Refusal :=
  let s0 := b.begin_ s
  match waitFrom m s0 b.ctx (!(s.ctx b.ctx).waitAct) waits s0 with
  | .error o => o
  | .ok t => .next { t.updCtx b.ctx (fun x => { x with
      heldWords := if x.waitAct then b.fetched.raw :: b.fetched.words else [] }) with issue := {} }

/-- The bundle takes effect. -/
def Bundled.run (b : Bundled) (m : Meaning) (s : State) : Host.Outcome State Fault Refusal :=
  let s0 := b.begin_ s
  match commitSlots m b.slots { s0 with issue := { s0.issue with commit := true } } with
  | .error o => o
  | .ok t => .next (endBundle t (s.ctx b.ctx))

/-- A bundle with the verdicts of its slots: nothing while one is not ready; then its conditions of execution, the heads first; then
its waits, or its effect (R71). -/
def Bundled.go (b : Bundled) (m : Meaning) (s : State) (ps : List Probe) : Host.Outcome State Fault Refusal :=
  let x := s.ctx b.ctx
  if ps.any (fun p => p.unready b.ctx) then .next s
  else match (headsFail x b.fetched.header b.slots).or (headerFails x b.fetched.header) with
    | some (cause, tval) => .next (takeTrap s b.ctx cause tval x.pc)
    | none => match firstTrap ps with
      | some (.trapped _ cause tval) => .next (takeTrap s b.ctx cause tval x.pc)
      | some (.fpTrapped fl _) => .next (takeFpTrap s b.ctx fl.toNat x.pc)
      | _ =>
        let waits := (ps.filter (fun p => p.verdict == .held)).map (·.at_)
        if waits.isEmpty then b.run m s else b.wait m s waits

/-- The far bit follows the bundle that the context executes (R87, R369). -/
def markFar (s : State) (c : Nat) : State :=
  let x := s.ctx c
  let far := !(s.core (coreOf c)).active.holds x.pc.toNat
  if x.mode.getLsbD 10 = far then s
  else s.updCtx c (fun x => { x with mode := if far then x.mode ||| 0x400 else x.mode &&& ~~~0x400 })

/-- The next bundle of a context, fetched and decoded; a failure traps at once, whether or not the bundle is ready (R71). -/
def takeBundle (s : State) (c : Nat) : Except State (Bundled × State) :=
  let s := if (s.ctx c).waitAct && !(s.ctx c).heldWords.isEmpty then s else markFar s c
  let pc := (s.ctx c).pc
  match nextBundle s c with
  | .error (cause, tval) => .error (takeTrap (confirmWalk s (s.view c) cause tval.toNat) c cause tval pc)
  | .ok (f, s) => match decodeBundle (s.ctx c) f with
    | .error w => .error (takeTrap s c 0x01 (BitVec.ofNat 64 w) pc)
    | .ok l => .ok ({ ctx := c, fetched := f, slots := l }, s)

end Sys2Proof.Machine
end

