-- ==== Sys2Proof/Machine/Message.lean ====
section
/-! DEFINITION. Messages between cores (R286 to R289). -/

namespace Sys2Proof.Machine

/-- The lowest inbox slot that a target can reserve for a context now: slots go in order of request (R287). -/
def freeInbox (s : State) (k c : Nat) : Option Nat :=
  let x := s.core k
  if x.inboxQueue.isEmpty || x.inboxQueue.head? == some c then (List.range 16).find? (fun j => !x.inboxUsed.contains j)
  else none

/-- A context asks for an inbox slot of a core, once. -/
def askInbox (s : State) (k c : Nat) : State :=
  s.updCore k (fun x => if x.inboxQueue.contains c then x else { x with inboxQueue := x.inboxQueue ++ [c] })

/-- A message takes slot `m.slot` of a core's inbox and sets out. -/
def sendMsg (s : State) (k : Nat) (m : Msg) : State :=
  let s := countSent s (coreOf m.sender) m.region.space.asid
  s.updCore k (fun x => { x with
    inboxUsed := x.inboxUsed ++ [m.slot]
    inboxQueue := x.inboxQueue.filter (fun d => d != m.sender)
    transit := x.transit ++ [m] })

/-- MSEND (R286, R287). `len` is the length code: the payload has 8 × (len + 1) bytes. -/
def execMsend (rel : Bool) (len tgt src : BitVec 5) (off : BitVec 30) (s : State) : Host.Outcome State Fault Refusal :=
  runSlot (do
    let t ← readK tgt
    let a ← readK src
    let n := 8 * (len.toNat + 1)
    let k := t.toNat / 4
    needLegal (t.toNat % 4 == 0 && decide (t.toNat < 4096))
    let st ← get
    let c := st.issue.ctx
    need (coreValid k && (st.core k).present) 0x05 t
    need (a.toNat % 8 == 0) 0x03 a
    let ps ← accessSpans .read 8 [(a.toNat, n)]
    let st ← get
    match freeInbox st k c with
    | none => throw (.held (waitRetry (askInbox st k c) c (.inbox k)))
    | some j => do
      flushOwn
      let st ← get
      match badSpan st ps with
      | some (cause, at_) => condTrap cause at_
      | none => do
        let ((bs, _), st) := readFor st (st.issuerOf c) false ps
        set st
        let i ← if rel then advanceInterval else pure (st.ctx c).interval
        let m : Msg :=
          { slot := j
            sender := c
            seq := st.issue.order
            interval := i
            region := (st.ctx c).region
            handler := st.issue.addr + (off.signExtend 64 <<< 3)
            payload := bs
            rel := rel
            order := st.nextId }
        modify (fun s => { sendMsg s k m with nextId := st.nextId + 1 })) s

/-- Whether a message may arrive: what its sender's core has sent to this core before it has, and what its sender issued before it
is performed (R284, R287). -/
def msgReady (s : State) (k : Nat) (m : Msg) : Bool :=
  arrivesNext s (coreOf m.sender) k m.order && !(s.ctx m.sender).posted.any (fun p => p.seq < m.seq) &&
    !s.loose.any (fun l => l.ctx == m.sender && l.posted.seq < m.seq) && (!m.rel || releasable s m.sender m.seq)

/-- A message is written into its inbox slot, and its handler start is queued (R287). -/
def deliverMsg (s : State) (k : Nat) (m : Msg) : State :=
  let s := s.write (s.ctxWriter m.sender m.interval) false (scratchPa k (0xFF000 + 256 * m.slot)) m.payload
  let s := countReceived s k (coreOf m.sender) m.region.space.asid
  s.updCore k (fun x => { x with
    transit := x.transit.filter (fun b => b.order != m.order)
    starts := x.starts ++ [m] })

/-- MESSAGE_ARRIVAL: the n-th message on its way to a core arrives. -/
def execMessageArrival (core n : Nat) (s : State) : Host.Outcome State Fault Refusal :=
  let l := (s.core core).transit
  match l[n]? with
  | none => .next s
  | some m => if msgReady s core m then .next (deliverMsg s core m) else .next s

/-- The start of a core that begins next: starts begin in the order in which their slots were reserved (R288). -/
def nextStart (x : Core) : Option Msg :=
  match x.starts with
  | [] => none
  | m :: ms =>
    let m := ms.foldl (fun a b => if b.order < a.order then b else a) m
    if x.transit.any (fun b => b.order < m.order) then none else some m

/-- MESSAGE_HANDLER_START: the next pending start of a core begins on one of its dormant contexts (R288, R102). -/
def execMessageHandlerStart (c : Nat) (s : State) : Host.Outcome State Fault Refusal :=
  let k := coreOf c
  if !ctxValid c || (s.ctx c).run != .dormant then .next s
  else match nextStart (s.core k) with
    | none => .next s
    | some m =>
      if !canStart s k 64 0 m.region then .next s
      else
        let args := [BitVec.ofNat 64 (apertureBase + 0xFF000 + 256 * m.slot), BitVec.ofNat 64 m.sender,
          BitVec.ofNat 64 m.payload.length]
        let s := s.updCtx c (fun o =>
          { handlerCtx o s.nextId m.region (.message m.slot) false m.handler args with
            acq := [⟨BitVec.ofNat 16 m.sender, m.interval, 3⟩] })
        .next { s.updCore k (fun x => { x with starts := x.starts.filter (fun b => b.order != m.order) }) with
          nextId := s.nextId + 1 }

end Sys2Proof.Machine
end

