-- ==== Sys2Proof/Machine/Reset.lean ====
section
/-! DEFINITION. Core resets (R145, R278, R289), spill offers and reserves (R285, R292), the spare core (R293, R294), and the
cold reset of the package (R371, R7). -/

namespace Sys2Proof.Machine

/-! ### Reserves and offers -/

/-- RESERVE_REGISTER_WRITE: management sets a core's spill reserve in units of 64 KiB (R285); lowering it withdraws the
offer first. A value above 8 leaves the field unchanged. -/
def execReserveRegisterWrite (core : Nat) (v : Word) (s : State) : Host.Outcome State Fault Refusal :=
  let n := bitsAt v.toNat 0 4
  if !coreValid core || 8 < n then .next s
  else
    let moved := if n < (s.core core).reserve then moveImages s core true else some s
    .next (match moved with
      | some s => s.updCore core (fun x => { x with reserve := n })
      | none => s)

/-! ### Resetting a core -/

/-- Whether a posted access is a load. -/
def Posted.isLoad (p : Posted) : Bool := match p.kind with | .load _ _ _ _ => true | _ => false

/-- Whether every store and remote operation that a core issued has been performed or has failed, those of tasks that are no
longer on it included (R278). -/
def coreQuiet (s : State) (k : Nat) : Bool :=
  (corePosted s k).all Posted.isLoad &&
    !s.dies.any (fun (_, d) => d.open.any (fun r => !r.coll && coreOf r.ctx == k)) &&
    !((s.core k).tq0 ++ (s.core k).tq1).any (fun o => match o.kind with | .st _ _ _ => true | _ => false)

/-- The task of a live context faults at a reset, `origin` being the context that asked for it (R278). The spec names no
cause code for it: `cause` is a free value. -/
def resetContext (cause : BitVec 8) (origin : Word) (s : State) (c : Nat) : State :=
  if (s.ctx c).run == .dormant then s
  else
    let s := match (s.ctx c).task with
      | .remoteHandler id =>
        { s with saved := s.saved.map (fun (v : Saved) => if v.id == id then { v with handler := none, needHandler := true } else v) }
      | _ => s
    faultContext (s.updCtx c (fun x => { x with epc := x.pc, tval := origin })) c 3 cause

/-- The record of message starts that a reset discards, one for each sender's region, with their number (R289). -/
def reportStarts (s : State) (cause : BitVec 8) (l : List Msg) : State :=
  ((l.map (·.region)).eraseDups).foldl (fun s r =>
    faultRecord s r 3 cause 0 0 (BitVec.ofNat 64 (l.filter (fun m => m.region == r)).length)) s

/-- The next present core of a core's cluster ring (R278). -/
def nextInRing (s : State) (k : Nat) : Nat :=
  (((List.range 11).map (fun i => k / 16 * 16 + (k % 16 + 1 + i) % 12)).find? (fun j => (s.core j).present)).getD k

/-- The reset itself (R278): contexts, tiles, channels and tables; the deque moves on; starts are discarded. The scratchpad,
both planes, the ageing register and the counts of drain are kept (R371, R7). -/
def resetCore (s : State) (k : Nat) (origin : Word) : State :=
  let (free, s) := s.free64
  let cause : BitVec 8 := free.setWidth 8
  let s := (s.core k).swapTokens.foldl (fun s t => countReceived s k k t.region.space.asid) s
  let s := (ctxsOf k).foldl (fun s c => s.updCtx c (fun x => if x.run == .frozen then { x with run := .ready } else x)) s
  let s := (ctxsOf k).foldl (resetContext cause origin) s
  let old := s.core k
  let s := reportStarts s cause old.starts
  let j := nextInRing s k
  let s := s.updCore j (fun x => { x with deque := if j = k then x.deque else x.deque ++ old.deque })
  let s := { s with saved := s.saved.map (fun (v : Saved) => if v.core == k then
    { v with
      heldTiles := false
      why := if v.why == SaveWhy.park then SaveWhy.preempt else v.why } else v) }
  s.updCore k (fun (x : Core) => { x with
    stopping := false
    cycle0 := s.clock
    tiles := []
    affine := 0
    affineIssue := 0
    horizon := []
    tq0 := []
    tq1 := []
    held0 := []
    held1 := []
    heldTiles := []
    watch := []
    monitor := []
    sweep := []
    deque := if j = k then x.deque else []
    swapLock := false
    swapTokens := []
    inboxUsed := x.transit.map (fun (m : Msg) => m.slot)
    starts := []
    lBusy := 0 })

/-- Whether a CRESET is refused: its target is absent, or hosts a context of a region outside the issuing subtree (R145). -/
def resetRefused (s : State) (r : ResetReq) : Bool :=
  !(s.core r.core).present || (liveOn s r.core).any (fun c => !inSubtree (s.ctx c).region r.region)

/-- The add that ends a CRESET (R145), to the counter as it is translated then (R309). -/
def resetAdd (s : State) (r : ResetReq) (err : Option (BitVec 8)) : State :=
  packageAddIn { s with resets := s.resets.filter (· != r) } (engineView r.region.space r.ctx) r.region r.ctrVa 1 err none

/-- CORE_RESET: the reset that the package scheduler orders (n = 0), or that CRESET number n − 1 asked for (R145, R278). The
core stops issuing at once, and is reset when what it issued is performed. -/
def execCoreReset (core n : Nat) (s : State) : Host.Outcome State Fault Refusal :=
  let go := fun (s : State) (origin : Word) (fin : State → State) =>
    if coreQuiet s core then .next (fin (resetCore s core origin))
    else .next (s.updCore core (fun x => { x with stopping := true }))
  match n with
  | 0 => if coreValid core && (s.core core).present then go s 0 id else .next s
  | m + 1 => match s.resets[m]? with
    | none => .next s
    | some r =>
      if r.core != core || !releasableAs s r.ctx r.tid r.seq then .next s
      else if resetRefused s r then
        .next (resetAdd (s.updCore core (fun x => { x with stopping := false })) r (some 0x05))
      else go s (BitVec.ofNat 64 r.ctx) (fun s => resetAdd s r none)

/-! ### The spare core -/

/-- The cluster's own repair resets a core at its next quiet moment; none while it is not, or while images cannot move. -/
def repairReset (s : State) (k : Nat) (also : Bool) : Option State :=
  (moveImages s k false).bind (fun s => (if also then moveImages s k true else some s).bind (fun s =>
    if coreQuiet s k then some (resetCore s k 0) else none))

/-- The threshold of a kind of corrected errors: 0 for those of cores, 1 for those of HBM4E rows; none where management has set
none (log entry 73). -/
def overThreshold (s : State) (kind n : Nat) : Bool :=
  let t := (Map.get 0 s.thresholds kind).toNat
  t != 0 && decide (t < n)

/-- Whether repair replaces a core: it reports itself suspect, its corrected-error count has crossed the threshold, or management
has ordered it (R293). -/
def repairDue (s : State) (k : Nat) : Bool :=
  coreValid k && (s.core k).present &&
    ((s.core k).suspect || (s.core k).replace || overThreshold s 0 (Map.get 0 s.corrected k))

/-- SPARE_SUBSTITUTION: the spare takes a core's logical number, its scratchpad, planes and reserve, once repair is due (R293). -/
def execSpareSubstitution (core : Nat) (s : State) : Host.Outcome State Fault Refusal :=
  if !repairDue s core || !(s.cluster (core / 16)).spare then .next s
  else match repairReset s core false with
    | none => .next (s.updCore core (fun x => { x with stopping := true }))
    | some s =>
      let s := s.updCore core (fun x => { x with suspect := false, replace := false })
      .next { s.updCluster (core / 16) (fun cl => { cl with spare := false }) with
        corrected := Map.erase s.corrected core }

/-- CORE_DISABLE: in a cluster without a spare a failing core becomes absent (R294); messages on their way to it are
discarded (R289). -/
def execCoreDisable (core : Nat) (s : State) : Host.Outcome State Fault Refusal :=
  if !repairDue s core || (s.cluster (core / 16)).spare then .next s
  else match repairReset s core true with
    | none => .next (s.updCore core (fun x => { x with stopping := true }))
    | some s =>
      let lost := (s.core core).transit
      let s := lost.foldl (fun s m => countReceived s core (coreOf m.sender) m.region.space.asid) s
      let (v, s) := s.free64
      let s := reportStarts s (v.setWidth 8) lost
      .next (s.updCore core (fun x => { x with present := false, suspect := false, replace := false, transit := [], inboxUsed := [] }))

/-- PACKAGE_COLD_RESET (R371, R7): every field takes its reset value. What a package cold reset does not choose, its place
in the domain, stays. -/
def execPackageColdReset (s : State) : Host.Outcome State Fault Refusal :=
  .next { State.reset with pkg := s.pkg, packages := s.packages, freeIdx := s.freeIdx }

end Sys2Proof.Machine
end

