-- ==== Sys2Proof/Machine/Vault.lean ====
section
/-! DEFINITION. The division of a vault (R280, R281), translation as a machine's step (R301, R304), invalidations (R308,
R309), watch reports (R322), and errors of memory and their repair (R275, R276, R298, R299, R448). -/

namespace Sys2Proof.Machine

/-! ### The division of a vault -/

/-- VAULT_CONFIG_WRITE: a write that changes slice sets busy, and nothing reaches the vault before the change is complete
(R280, R281). A value above 8, or a write while busy is set, changes nothing. -/
def execVaultConfigWrite (cl : Nat) (v : Word) (s : State) : Host.Outcome State Fault Refusal :=
  let n := bitsAt v.toNat 0 4
  let x := s.cluster cl
  if 64 ≤ cl || 8 < n || x.busy || x.slice = n then .next s
  else .next { s.updCluster cl (fun x => { x with busy := true, target := n }) with
    agenda := .divisionChangeComplete cl :: s.agenda }

/-- Forget everything that memory holds in a range of physical addresses, side status and shadows included. -/
def loseRange (s : State) (lo hi : Nat) : State :=
  let out := fun (a : Nat) => decide (a < lo) || decide (hi ≤ a)
  { s with
    mem := s.mem.filter (fun (a, _) => out a)
    side := s.side.filter (fun (a, _) => out a)
    bad := s.bad.filter (fun (a, _) => out a)
    race := s.race.filter (fun (k, _) => out (64 * k))
    redShadow := s.redShadow.filter (fun (a, _) => out a)
    badSide := s.badSide.filter (fun (a, _) => out a) }

/-- DIVISION_CHANGE_COMPLETE: the lines of the old slice, if there is one, are written back with their shadows rounded, their
retained marks are dropped, direct space takes its new size and busy clears (R281). -/
def execDivisionChangeComplete (cl : Nat) (s : State) : Host.Outcome State Fault Refusal :=
  let x := s.cluster cl
  if !x.busy then .next s
  else
    let s := if x.slice = 0 then s else
      { s.flushSlice cl with retained := s.retained.filter (fun l => decide (sliceOf l ≠ some cl)) }
    let a := 8 - x.slice
    let b := 8 - x.target
    let s := loseRange s (vaultPa cl (min a b * 2 ^ 24)) (vaultPa cl (max a b * 2 ^ 24))
    .next (s.updCluster cl (fun x => { x with slice := x.target, busy := false }))

/-! ### Translation -/

/-- Whether stage 3 of the boot has brought HBM4E, the vaults, the links and the ports up: before, management reaches no memory
(R375). -/
def stage3Done (s : State) : Bool := decide (4 ≤ s.bootStage)

/-- PAGE_WALK: a walker translates an address for a context, sets accessed, and dirty for a write that its leaf allows
(R301, R304). -/
def execPageWalk (c : Nat) (va : Word) (write : Bool) (s : State) : Host.Outcome State Fault Refusal :=
  let v := s.view c
  if !ctxValid c || (s.ctx c).run == .dormant || apertureBase ≤ va.toNat then .next s
  else match walkInstall s v va.toNat with
    | none => .next s
    | some (e, s) =>
      .next (if write && (leafCheck s v e va.toNat .write).isNone then markDirty s v e else s)

/-- SYS_TLBINV: management submits an invalidation record to a die, whatever its ASID and operation (R307, R308). A record
that breaks R308, or that finds 16 pending, is not taken. -/
def execSysTlbinv (die : Nat) (rec_ : Word) (s : State) : Host.Outcome State Fault Refusal :=
  let a := rec_.toNat / 32 * 32
  let v := packageView s.mgmtSpace
  if !stage3Done s || 8 ≤ die || 16 ≤ (s.die die).invals.length then .next s
  else match readVia s v a 32 with
    | .error _ => .next s
    | .ok (bs, s) => match parseInval bs with
      | none => .next s
      | some r => match translateCounter s v r.ctr .counterAdd with
        | .error _ => .next s
        | .ok (_, s) =>
          let e : Inval :=
            { op := r.op
              scope := r.scope
              asid := r.asid
              va := r.va
              len := r.len
              ctrVa := r.ctr
              ctx := 0
              tid := 0
              seq := 0
              region := { space := s.mgmtSpace }
              interval := 0 }
          .next (s.updDie die (fun d => { d with invals := d.invals ++ [e] }))

/-- Whether an invalidation's record names an address space and a stretch of virtual addresses (R309). -/
def Inval.hits (e : Inval) (asid : BitVec 16) (base size : Nat) : Bool :=
  match e.op with
  | 0 => asid == e.asid
  | 1 => asid == e.asid && decide (base ≤ e.va.toNat) && decide (e.va.toNat < base + size)
  | 2 => asid == e.asid && overlaps base size e.va.toNat e.len
  | _ => true

/-- Drop the translations that an invalidation names from one TLB. -/
def Inval.drop (e : Inval) (l : List TlbEntry) : List TlbEntry :=
  l.filter (fun t => !e.hits t.asid t.base (2 ^ pageShift t.level))

/-- The stretch of virtual addresses of a walk-cache entry. -/
def walkSpan (key : Nat) : Nat × Nat :=
  let shift := match key % 4 with | 1 => 55 | 2 => 42 | _ => 29
  (key / 4 * 2 ^ shift, 2 ^ shift)

/-- Drop the translations that an invalidation names from every cache under its scope. -/
def dropTranslations (s : State) (die : Nat) (e : Inval) : State :=
  let under := fun (d : Nat) => e.scope == 3 || d == die
  let s := (List.range 8).foldl (fun s d => if under d then s.updDie d (fun x => { x with
    tlb := e.drop x.tlb
    walks := x.walks.filter (fun (a, k, _) => !e.hits a (walkSpan k).1 (walkSpan k).2) }) else s) s
  allCores.foldl (fun s k => if under (k / 128) && !(s.core k).l1tlb.isEmpty then
    s.updCore k (fun x => { x with l1tlb := e.drop x.l1tlb }) else s) s

/-- Whether a context with an address space is one whose translations an invalidation may drop. -/
def Inval.reaches (e : Inval) (die c : Nat) (asid : BitVec 16) : Bool := (e.scope == 3 || dieOf c == die) && (e.op == 3 || asid == e.asid)

/-- Whether a context under the scope, a host port or a delivery to a host area still has an access that a dropped entry may have
translated, those of remote and host leaves included, which an answer closes (R309). -/
def invalBusy (s : State) (die : Nat) (e : Inval) : Bool :=
  let sent := fun (r : Remote) => e.reaches die r.ctx r.region.space.asid
  s.ctxs.any (fun (c, x) => e.reaches die c x.region.space.asid && !x.posted.isEmpty) ||
    s.loose.any (fun l => e.reaches die l.ctx l.region.space.asid) || s.hostWrites.any (fun h => e.op == 3 || h.asid == e.asid) ||
    s.dies.any (fun (_, x) => x.remotes.any sent || x.heldNts.any (fun (_, r) => sent r)) ||
    s.deliveries.any (fun d => e.op == 3 || (Map.get {} s.seqs d.id).region.space.asid == e.asid)

/-- Whether a wait holds the physical address of a counter. -/
def Wait.onCounter : Wait → Bool
  | .counter | .drain | .ring _ _ _ => true
  | _ => false

/-- Waits on a counter hold its physical address: those that an invalidation reaches are checked again, and a parked JOIN is
restored, so that their counters are translated afresh (R309). -/
def recheckWaits (s : State) (die : Nat) (e : Inval) : State :=
  let s := s.ctxs.foldl (fun s (c, x) =>
    if e.reaches die c x.region.space.asid && x.run == .blocked && x.wait.any Wait.onCounter then wake s c
    else s) s
  s.saved.foldl (fun s v =>
    if v.why == .park && e.reaches die (4 * v.core) v.region.space.asid then
      ((s.core v.core).monitor.filter (fun m => m.task == some v.id)).foldl (fun s m => releaseEntry s v.core m) s
    else s) s

/-- INVALIDATION_COMPLETE: pending invalidation `n` of a die drops its translations and makes its add, with the release of
the context that submitted it once that may be performed (R309, R248, R254). -/
def execInvalidationComplete (die n : Nat) (s : State) : Host.Outcome State Fault Refusal :=
  match (s.die die).invals[n]? with
  | none => .next s
  | some e =>
    if invalBusy s die e || (e.tid != 0 && !releasableAs s e.ctx e.tid e.seq) then .next s
    else
      let s := s.updDie die (fun d => { d with invals := d.invals.eraseIdx n })
      let s := recheckWaits (dropTranslations s die e) die e
      let (rel, s) := if e.tid = 0 then ((0, 0), s) else releaseFor s e.ctx e.tid e.interval
      let v := if e.tid = 0 then packageView e.region.space else engineView e.region.space e.ctx
      .next (packageAddIn s v e.region e.ctrVa 1 none (some rel))

/-! ### Watch reports -/

/-- WATCHPOINT_REPORT: the n-th report of a watch hit reaches the owner as an outside trap, or fires the shutter (R322). -/
def execWatchpointReport (n : Nat) (s : State) : Host.Outcome State Fault Refusal :=
  match s.watchHits[n]? with
  | none => .next s
  | some h =>
    let s := { s with watchHits := s.watchHits.eraseIdx n }
    if h.shut then .next (fireShutter s .watch 0 (some (BitVec.ofNat 16 h.owner)))
    else .next (s.updCtx h.owner (fun x => { x with outside := x.outside ++ [⟨0x10, h.tval⟩] }))

/-! ### Errors -/

/-- Mark what an error of one granule of memory touches, with the cause of R448; a granule keeps its first cause. An error in
a spill reserve falls on the image that stands there, images standing in the order of their saves. -/
def markBad (s : State) (pa : Nat) (cause : BitVec 8) : State :=
  let g := pa / granule pa * granule pa
  let set_ := fun (c : BitVec 8) => if (Map.find? s.bad g).isSome then s else { s with bad := Map.put s.bad g c }
  match locOf pa with
  | .hbm _ o => if o < 60 * 2 ^ 30 && (cause == 0x0B || cause == 0x0C) then set_ cause else s
  | .vault cl o => if o < s.directSize cl then set_ 0x0A else s
  | .scratch k o =>
    if !coreValid k then s
    else if inReserve s k o then
      let start := 0xF0000 - (s.core k).reserve * 65536
      let (l, _) := s.saved.foldl (fun ((l, at_) : List Saved × Nat) v => match v.place with
        | .offer j true bs =>
          if j = k then (l ++ [if at_ ≤ o && o < at_ + bs.length then { v with imageBad := true } else v], at_ + bs.length)
          else (l ++ [v], at_)
        | _ => (l ++ [v], at_)) ([], start)
      { s with saved := l }
    else set_ 0x09
  | _ => s

/-- Mark the side status of a counter, in HBM4E or in vault direct space, with the cause of R448; it keeps its first cause. -/
def markBadSide (s : State) (pa : Nat) (cause : BitVec 8) : State :=
  let p := pa / 8 * 8
  let set_ := fun (c : BitVec 8) => if (Map.find? s.badSide p).isSome then s else { s with badSide := Map.put s.badSide p c }
  match locOf p with
  | .hbm _ o => if o < 60 * 2 ^ 30 && (cause == 0x0B || cause == 0x0C) then set_ cause else s
  | .vault cl o => if o < s.directSize cl then set_ 0x0A else s
  | _ => s

/-- UNCORRECTABLE_ERROR: something becomes uncorrectable of itself, or takes a bit error that is corrected (R103, R217, R277, R292,
R293, R448). The error densitometers count an uncorrectable error where it arises, so that one that nobody consumes is counted too
(R275), and the core's count those that it corrects (R103). -/
def execUncorrectableError (t : ErrTarget) (s : State) : Host.Outcome State Fault Refusal :=
  let s := countEvent s (match t with | .corrected k => .corrected k | _ => .errorArisen)
  .next (match t with
  | .memory pa cause => markBad s pa cause
  | .side pa cause => markBadSide s pa cause
  | .image id => { s with saved := s.saved.map (fun (v : Saved) => match v.place with
      | .offer _ _ _ => if v.id == id then { v with imageBad := true } else v
      | .memory _ _ _ => v) }
  | .register c f i => s.updCtx c (fun x =>
      if x.run == .dormant || x.badRegs.contains (f, i) then x else { x with badRegs := x.badRegs ++ [(f, i)] })
  | .headLatch c q => s.updCtx c (fun x => { x with heads := Map.upd {} x.heads q (fun h =>
      if h.cond == .holding then { h with latchErr := true } else h) })
  | .landing c n => s.updCtx c (fun x => { x with landing := x.landing.zipIdx.map (fun (l, i) =>
      if i = n then { l with err := true } else l) })
  | .tile k n r c => s.updCore k (fun x => { x with tiles := Map.upd {} x.tiles n (fun t =>
      if t.live && !t.bad.contains (r, c) then { t with bad := t.bad ++ [(r, c)] } else t) })
  | .corrected k => { s with corrected := Map.upd 0 s.corrected k (· + 1) })

/-- Whether the row of a physical address is to be replaced: its corrected-error count has crossed the threshold (R299). -/
def rowDue (s : State) (pa : Nat) : Bool :=
  (match locOf pa with | .hbm _ o => decide (o < 60 * 2 ^ 30) | _ => false) &&
    overThreshold s 1 (Map.get 0 s.rowErrors (Config.rowOf pa))

/-- The populated granules of one stack of HBM4E (R276, R295, R298). -/
def stackGranules : Nat := 60 * 2 ^ 25

/-- The granule that the patrol scrubber reads as its `n`-th: it goes through the stacks in order, over and over. -/
def scrubPa (n : Nat) : Nat := n % (8 * stackGranules) / stackGranules * 2 ^ 36 + n % stackGranules * 32

/-- The domain time, in picoseconds, from one granule of the patrol to the next: 5 µs take 16 × 10^9 granules through well within 24
hours, and management's rate divides it (R298; DESIGN CHOICE, log entry 73). -/
def scrubPeriod (rate : Word) : Nat := 5000000 / max 1 rate.toNat

/-- The patrol's next read, once it is due (R298, R375). -/
def scrubDue (s : State) : List Instr :=
  if stage3Done s && decide (s.scrubAt ≤ s.dtimePs) then [.patrolScrub (scrubPa s.scrubs) (Config.scrubFinds s.scrubs (scrubPa s.scrubs))]
  else []

/-- The patrol goes on to its next granule. -/
def scrubbed (s : State) (pa : Nat) : State :=
  if pa = scrubPa s.scrubs then { s with scrubs := s.scrubs + 1, scrubAt := s.dtimePs + scrubPeriod s.scrubRate } else s

/-- PATROL_SCRUB: the scrubber reads a populated granule of HBM4E: it corrects a single-bit error in place, which counts for the
granule's row, and counts an uncorrectable granule in the densitometers, which stays so and traps no one (R298, R299). -/
def execPatrolScrub (pa : Nat) (corrected : Bool) (s : State) : Host.Outcome State Fault Refusal :=
  if !stage3Done s then .next s else
  let s := scrubbed s pa
  match locOf pa with
  | .hbm d o =>
    if 60 * 2 ^ 30 ≤ o then .next s
    else if (s.badAt pa 1).isSome then .next (countEvent s .scrubbedBad)
    else if corrected then
      let s := { s with
        corrected := Map.upd 0 s.corrected (2048 + d) (· + 1)
        rowErrors := Map.upd 0 s.rowErrors (Config.rowOf pa) (· + 1) }
      .next (if rowDue s pa then { s with agenda := .postPackageRepair pa :: s.agenda } else s)
    else .next s
  | _ => .next s

/-- POST_PACKAGE_REPAIR: a spare row takes the place of the row at an address, once its count has crossed the threshold; every byte
and every uncorrectable granule is copied, and the new row's count begins anew (R299). -/
def execPostPackageRepair (pa : Nat) (s : State) : Host.Outcome State Fault Refusal :=
  .next (if rowDue s pa then
    { s with
      repaired := if s.repaired.contains (Config.rowOf pa) then s.repaired else s.repaired ++ [Config.rowOf pa]
      rowErrors := Map.erase s.rowErrors (Config.rowOf pa) }
  else s)

/-- SPARE_CHANNEL_MIGRATION: the stack's spare channel takes the place of one of its 32 channels, with all it holds (R299). -/
def execSpareChannelMigration (die ch : Nat) (s : State) : Host.Outcome State Fault Refusal :=
  if 8 ≤ die || 32 ≤ ch || s.spareChannels.any (fun (d, _) => d == die) then .next s
  else .next { s with spareChannels := s.spareChannels ++ [(die, ch)] }

end Sys2Proof.Machine
end

