-- ==== Sys2Proof/Machine/Health.lean ====
section
/-! DEFINITION. The host's verbs (R317, R373), the shutter and its contact sheet (R377, R378), densitometers (R379), the
registers that management writes (R6, R374), boot and attestation (R375, R376), and the clock (R380). -/

namespace Sys2Proof.Machine

/-! ### The host -/

/-- The writer that a host access on a queue pair is: its port has 4,096 queue pairs (R373, R143, R318). -/
def hostWriter (s : State) (qp : Nat) : Writer := outsideWriter 3 (qp / 4096) s.pkg

/-- An answer to a host verb. -/
def answer (s : State) (h : HostOut) : State := { s with hostOut := s.hostOut ++ [h] }

/-- Perform one sector of the host's oldest write; the whole write is then acknowledged (R185, R317). -/
def hostSector (s : State) : State :=
  match s.hostWrites with
  | [] => s
  | h :: hs =>
    let (now, later) := firstSector Piece.pa h.pieces
    let s := now.foldl (fun s q => s.storeAt (hostWriter s h.qp) q.cnt q.pa q.bytes) s
    if later.isEmpty then answer { s with hostWrites := hs } (.ack h.qp)
    else { s with hostWrites := { h with pieces := later } :: hs }

/-- Perform so many sectors of the host's writes; recursion is on their number. -/
def hostSectors : Nat → State → State
  | 0, s => s
  | n + 1, s => hostSectors n (hostSector s)

/-- The sectors that the host's writes up to the last one of a queue pair still need, at most. -/
def hostLeft (s : State) (qp : Nat) : Nat :=
  let after := s.hostWrites.reverse.dropWhile (fun h => h.qp != qp)
  (after.map (fun h => h.pieces.length + 1)).sum

/-- Perform every earlier write of a queue pair (R317). -/
def flushHost (s : State) (qp : Nat) : State := hostSectors (hostLeft s qp) s

/-- In a clock cycle the ports perform a free number of sectors of the host's writes, at least one (log entry 78). -/
def hostCycle (s : State) : State :=
  if s.hostWrites.isEmpty then s else
  let (n, s) := s.freeNat
  let all := (s.hostWrites.map (fun h => h.pieces.length + 1)).sum
  hostSectors (1 + n % (all + 1)) s

/-- A remote-access NAK for a verb that faults, once a fresh walk has confirmed the fault (R317, R305). -/
def refuseVerb (s : State) (qp : Nat) (r : Region) (cause : BitVec 8) (tval : Word) : State :=
  answer (confirmWalk s (packageView r.space) cause tval.toNat) (.nak qp)

/-- HOST_RDMA_WRITE: ordinary stores under the queue pair's ASID, which other accesses may fall between (R185), or a remote-access
NAK and no change (R317, R373). -/
def execHostRdmaWrite (qp : Nat) (va : Word) (data : List Byte) (s : State) : Host.Outcome State Fault Refusal :=
  if !stage3Done s then .next s else
  match Map.find? s.qps qp with
  | none => .next (answer s (.nak qp))
  | some r => match translateRange s (packageView r.space) va.toNat data.length .write with
    | .error (c, t) => .next (refuseVerb s qp r c t)
    | .ok (ps, s) =>
      if data.isEmpty then .next (answer (flushHost s qp) (.ack qp))
      else .next { s with hostWrites := s.hostWrites ++ [⟨qp, r.space.asid, piecesOf ps data⟩] }

/-- HOST_RDMA_READ: ordinary loads (R317), after the earlier writes of its queue pair. -/
def execHostRdmaRead (qp : Nat) (va : Word) (len : Nat) (s : State) : Host.Outcome State Fault Refusal :=
  if !stage3Done s then .next s else
  match Map.find? s.qps qp with
  | none => .next (answer s (.nak qp))
  | some r =>
    let s := flushHost s qp
    match readVia s (packageView r.space) va.toNat len with
    | .ok (bs, s) => .next (answer s (.readData qp bs))
    | .error (c, t) => .next (refuseVerb s qp r c t)

/-- HOST_FETCH_AND_ADD: on a counter-capable word a counter add, after every earlier write of its queue pair and with release at
package scope (R317, R248); else a NAK. An add that an uncorrectable error stops is counted (R277). -/
def execHostFetchAndAdd (qp : Nat) (va v : Word) (s : State) : Host.Outcome State Fault Refusal :=
  if !stage3Done s then .next s else
  match Map.find? s.qps qp with
  | none => .next (answer s (.nak qp))
  | some r =>
    let s := flushHost s qp
    match translateCounter s (packageView r.space) va .counterAdd with
    | .error (c, t) => .next (refuseVerb s qp r c t)
    | .ok (pa, t) =>
      let old := BitVec.ofNat 64 (t.counter pa)
      match t.counterAdd (hostWriter t qp) pa v.toNat none (some (0, 0)) with
      | .ok t => .next (answer t (.oldValue qp old))
      | .error f => .next (answer (countFailedAdd t f) (.nak qp))

/-- HOST_COMPARE_AND_SWAP: always refused with a remote-access NAK (R317). -/
def execHostCompareAndSwap (qp : Nat) (_va _c _v : Word) (s : State) : Host.Outcome State Fault Refusal :=
  .next (if stage3Done s then answer s (.nak qp) else s)

/-! ### The shutter -/

/-- SHUTTER_FIRE: a SNAP and a watch have a context (R377, R378). -/
def execShutterFire (src : ShutSource) (tag ctx : BitVec 16) (s : State) : Host.Outcome State Fault Refusal :=
  .next (fireShutter s src tag (match src with | .snap => some ctx | .watch => some ctx | _ => none))

/-- The code of a firing's source (R378). -/
def sourceCode (src : ShutSource) : Nat :=
  match src with | .snap => 0 | .watch => 1 | .cause => 2 | .densitometer => 3 | .management => 4

/-- The contact sheet: its header, and one record per block (R378). -/
def contactSheet (h : Shutter) : List Byte :=
  let tags := (h.tags ++ List.replicate 8 0).take 8
  leBytes 2 1 ++ leBytes 2 h.merged ++ leBytes 1 (sourceCode h.source) ++ leBytes 3 0 ++ leBytes 8 h.time ++
    tags.flatMap (fun t => leBytes 2 t.toNat) ++ leBytes 8 (h.ctx.getD 0).toNat ++ leBytes 4 allBlocks.length ++ leBytes 20 0 ++
    allBlocks.flatMap (fun b => Config.blockRecord b (latchedWords h.latched b))

/-- CONTACT_SHEET_GATHER_END: the sheet stands in management's area, and the shutter re-arms (R377). -/
def execContactSheetGatherEnd (s : State) : Host.Outcome State Fault Refusal :=
  if !s.shutter.gathering then .next s
  else
    let s := if !stage3Done s then s else match writeVia s (packageView s.mgmtSpace) s.pkgWriter s.shutter.area.toNat (contactSheet s.shutter) with
      | .ok s => s
      | .error _ => s
    .next { s with shutter := { causes := s.shutter.causes, area := s.shutter.area } }

/-! ### Densitometers -/

/-- DENSITOMETER_SAMPLE: an enabled densitometer counts a sample; at its threshold it may fire the shutter (R379). -/
def execDensitometerSample (n v : Nat) (s : State) : Host.Outcome State Fault Refusal := .next (sampleDens s n v)

/-- DENSITOMETER_CLEAR (R379). -/
def execDensitometerClear (n : Nat) (s : State) : Host.Outcome State Fault Refusal :=
  .next { s with dens := Map.upd {} s.dens n Dens.cleared }

/-! ### Registers that management writes -/

/-- The KV geometry of words asid, F, FB, LB, TB, L, format, PB(0) to PB(7), when they keep to R331. -/
def geomOf (v : List Word) : Option KvGeom :=
  let n := fun (i : Nat) => (v.getD i 0).toNat
  let pool := (List.range 8).map (fun d => v.getD (7 + d) 0)
  let fmtOk := match n 6 with | 0 => true | 1 => true | 2 => true | 3 => true | 4 => true | _ => false
  if n 1 % 1024 == 0 && decide (n 1 ≤ 2 ^ 20) && decide (0 < n 2) && n 2 % 65536 == 0 && decide (0 < n 4) && n 4 % 64 == 0 &&
      n 3 % 64 == 0 && decide (16 * n 4 ≤ n 3) && decide (1 ≤ n 5) && decide (n 5 ≤ 256) && decide (n 5 * n 3 ≤ n 2) && fmtOk &&
      pool.all (fun p => p.toNat % 65536 == 0) then
    some
      { asid := BitVec.ofNat 16 (n 0)
        frames := n 1
        fb := n 2
        lb := n 3
        tb := n 4
        layers := n 5
        pool := pool
        fmt := n 6 }
  else none

/-- A mesh table of the bytes of R407; none where a size or the number of axes breaks it. -/
def meshOf (bs : List Byte) : Option Mesh :=
  let axes := field bs 0 1
  let sizes := (List.range 4).map (fun i => field bs (1 + i) 1)
  let size := sizes.foldl (· * ·) 1
  if axes = 0 then some {}
  else if decide (axes ≤ 4) && sizes.all (fun n => n != 0) && decide (size ≤ 256) &&
      (sizes.drop axes).all (fun n => n == 1) then
    some
      { axes := axes
        sizes := sizes
        members := (List.range size).map (fun r => BitVec.ofNat 16 (field bs (8 + 2 * r) 2 % 1024)) }
  else none

/-- The members, as package and die, that a mesh table marks failed and the one before it did not (R406, R422). -/
def newlyFailed (old new : Mesh) : List (Nat × Nat) :=
  let failed := fun (m : Mesh) => (m.members.filter (fun x => x.getLsbD 8 && x.getLsbD 9)).map (fun x => (x.toNat % 32, x.toNat / 32 % 8))
  (failed new).filter (fun x => !(failed old).contains x)

/-- The ring of a region named by management (R357): read under the address space that management gives with it. The next
packet is the one that the consumed counter names. A record that breaks R356 is served all the same, by its own fields, and every
packet of it is refused. -/
def nameRing (s : State) (rcb : Word) (sp : Space) : State :=
  let serve := fun (s : State) (r : Region) (bad : Bool) =>
    let next := match counterVia s (packageView r.space) r.consumedCtr with
      | .ok (n, _) => n
      | .error _ => 0
    let seen := match counterVia s (packageView r.space) r.launchCtr with
      | .ok (n, _) => n
      | .error _ => 0
    let old := s.rings.filter (fun (x : RingState) => x.region.rcb != rcb)
    { s with rings := old ++ [{ region := r, space := sp, next := next, bad := bad, seen := seen }] }
  match schedRegion s (packageView sp) rcb with
  | .ok (r, s) => serve s r false
  | .error _ => match readVia s (packageView sp) rcb.toNat 256 with
    | .ok (bs, s) => serve s (rcbRegion rcb bs { space := sp }) true
    | .error _ => { s with rings := s.rings.map (fun (x : RingState) => if x.region.rcb == rcb then { x with bad := true } else x) }

/-- REGISTER_WRITE: a write to a register of the management space: RW fields take the value, reserved bits are ignored, and a value
that the register's rule excludes changes nothing (R6, R374). A register with a step of its own goes on to that step; the
mailbox holds what the root of trust writes. -/
def execRegisterWrite (r : MgmtReg) (v : List Word) (s : State) : Host.Outcome State Fault Refusal :=
  let w := v.headD 0
  let bs := wordsBytes v
  .next (match r with
  | .kvGeometry => match geomOf v with
    | some g => if s.seqs.isEmpty then
        { s with geom := g, frames := [], free := Map.set [] [] 10 (freeBlocks (g.frames / 1024)) }
      else s
    | none => s
  | .membership die i =>
    let m : Member :=
      { key := BitVec.ofNat 32 (field bs 0 4)
        asid := BitVec.ofNat 16 (field bs 4 2)
        valid := bitAt (field bs 6 1) 0
        nat := bitAt (field bs 6 1) 1
        comb := bitAt (field bs 6 1) 2
        root := fieldW bs 8
        rcb := fieldW bs 0x10 }
    if i < 256 then s.updDie die (fun d => { d with members := Map.set {} d.members i m }) else s
  | .mesh die => match meshOf bs with
    | some m =>
      let failed := newlyFailed (s.die die).mesh m
      { s.updDie die (fun d => { d with mesh := m }) with agenda := failed.map (fun (p, d) => .markMemberFailed p d) ++ s.agenda }
    | none => s
  | .hostArea i =>
    let a : HostArea :=
      { port := w.toNat % 4
        qp := (v.getD 1 0).toNat
        rkey := (v.getD 2 0).toNat
        base := v.getD 3 0
        len := (v.getD 4 0).toNat }
    if i < 65536 then { s with areas := Map.set {} s.areas i a } else s
  | .queuePair i =>
    let sp : Space :=
      { asid := w.setWidth 16
        root := v.getD 1 0
        key := (v.getD 2 0).setWidth 32 }
    if i < 16384 then { s with qps := Map.put s.qps i { space := sp } } else s
  | .ingressMode die => s.updDie die (fun d => { d with skid := w.getLsbD 0 })
  | .ageing core =>
    let n := w &&& 0x1F
    if 4 ≤ n.toNat && n.toNat ≤ 16 then s.updCore core (fun x => { x with ageing := n }) else s
  | .densitometer i => { s with dens := Map.upd {} s.dens i (fun d =>
      let d := { d with cfg := w &&& 0xFFFF0FF9 }
      if w.getLsbD 1 then d.cleared else d) }
  | .shutterCause i => if i < 8 then
      let l := (s.shutter.causes ++ List.replicate 8 0).take 8
      { s with shutter := { s.shutter with causes := l.set i (w.setWidth 8) } } else s
  | .sheetArea => { s with shutter := { s.shutter with area := w } }
  | .nameRegion => if s.bootStage = 4 then
      nameRing s w ⟨(v.getD 1 0).setWidth 16, v.getD 2 0, (v.getD 3 0).setWidth 32⟩ else s
  | .repairThreshold i => { s with thresholds := Map.set 0 s.thresholds i w }
  | .powerLimit => { s with powerLimit := w }
  | .scrubRate => { s with scrubRate := w }
  | .domain =>
    let n := w.toNat % 32
    { s with pkg := n, packages := (List.range 32).filter (fun i => i == n || (v.getD 1 0).getLsbD i) }
  | .engineDisable e => setEngine s e (fun x => { x with present := !w.getLsbD 0 })
  | .replaceCore k => if coreValid k then s.updCore k (fun x => { x with replace := w.getLsbD 0 }) else s
  | .mailbox | .regionTable _ | .pendingNode _ => s
  | .attestation | .vaultConfig _ | .reserve _ | .loaderPort _ | .flipPort _ | .fireShutter | .tlbinv _ =>
    { s with agenda := mgmtStep r v :: s.agenda })

/-! ### Boot, attestation and the clock -/

/-- The root of trust's fabric keys are installed for both directions of every die pair (R375, R386). -/
def installKeys (s : State) : State :=
  let others := s.packages.filter (· != s.pkg)
  let keyed := fun (m : Map Bundle) (j : Nat) => Map.upd {} m j (fun b => { b with txKey := b.txKey + 1, rxKey := b.rxKey + 1 })
  (List.range 8).foldl (fun s d => s.updDie d (fun x => { x with bundles := others.foldl keyed x.bundles })) s

/-- BOOT: the next stage is entered. Stages 1 and 2 verify first: a failure holds the package in stage 1 with a code. Stage 3 brings
up memory, links and ports and installs the fabric keys, and the scheduler's stage is the last (R375). -/
def execBoot (ok : Bool) (code : Nat) (s : State) : Host.Outcome State Fault Refusal :=
  if s.bootFail.isSome || 4 ≤ s.bootStage then .next s
  else if !ok && s.bootStage ≤ 2 then .next { s with bootStage := 1, bootFail := some code }
  else
    let s := if s.bootStage = 3 then installKeys s else s
    .next { s with bootStage := s.bootStage + 1 }

/-- `n` bytes of a list, zeros after its end. -/
def fixLen (n : Nat) (bs : List Byte) : List Byte := (bs ++ List.replicate n 0).take n

/-- The report's bytes that the signature covers (R376). -/
def reportBody (nonce : List Byte) : List Byte :=
  leBytes 2 1 ++ leBytes 6 0 ++ nonce ++ (List.range 4).flatMap (fun i => fixLen 64 (Config.sha512 (Config.firmware i))) ++
    leBytes 8 Config.securityVersion ++ fixLen 32 Config.identityKey ++ List.replicate 112 0

/-- ATTESTATION_REQUEST: a 32-byte nonce is answered with a signed report of 512 bytes (R376). -/
def execAttestationRequest (nonce : List Byte) (s : State) : Host.Outcome State Fault Refusal :=
  if nonce.length ≠ 32 then .next s
  else
    let body := reportBody nonce
    .next { s with reports := s.reports ++ [body ++ fixLen 64 (Config.sign body)] }

/-- CLOCK_THROTTLE: above the limit that management sets, the clock is lowered by 100 MHz (R380). That it rises again by as much
below the limit is this model's (DESIGN CHOICE, log entry 55). -/
def execClockThrottle (mhz : Nat) (s : State) : Host.Outcome State Fault Refusal :=
  let above := Config.overLimit s.powerLimit s.clock s.mhz
  .next (if above && mhz + 100 = s.mhz && 100 ≤ mhz then { s with mhz := mhz }
    else if !above && mhz = s.mhz + 100 && mhz ≤ 2100 then { s with mhz := mhz }
    else s)

end Sys2Proof.Machine
end

