-- ==== Sys2Proof/Machine/Engines.lean ====
section
/-! DEFINITION. The engines that commands reach: issue into a shadow, execution, completion, and their state word (R269 to
R274). -/

namespace Sys2Proof.Machine

/-! ### Engines -/

/-- An engine's identity as a writer: its die and cluster, and its number of R274, in the sys.ctxid layout (R143). -/
def engineIdent : EngineId → Nat
  | .copy0 cl => cl * 64
  | .copy1 cl => cl * 64 + 1
  | .gs cl => cl * 64 + 2
  | .collective d => d * 512 + 3
  | .requant d => d * 512 + 4
  | .compact d => d * 512 + 5
  | .loader d => d * 512 + 6

/-- The copy engine that accepts a command: the one that is named, or whose shadow is free first; the other where one is
disabled (R269, R274). -/
def pickCopy (s : State) (cl sel : Nat) : EngineId :=
  let a := (s.cluster cl).copy0
  let b := (s.cluster cl).copy1
  if !a.present then .copy1 cl
  else if !b.present then .copy0 cl
  else match sel with
    | 1 => .copy0 cl
    | 2 => .copy1 cl
    | _ => if a.shadow.isSome && b.shadow.isNone then .copy1 cl else .copy0 cl

/-- The engine for a gather or scatter. -/
def pickGs (s : State) (cl : Nat) : EngineId := if (s.cluster cl).gs.present then .gs cl else pickCopy s cl 0

/-- What a bundle waits for whose engine's shadow is occupied: that shadow, or the first of both copy engines' shadows where
the command names neither and both may take it (R269). -/
def shadowWait (s : State) (cl sel : Nat) (e : EngineId) : Wait :=
  if e == .gs cl || sel == 1 || sel == 2 || !(s.cluster cl).copy0.present || !(s.cluster cl).copy1.present then .engine e
  else .copies cl

/-- The writer of an engine command's data (R143, R318). -/
def Cmd.writer (c : Cmd) (s : State) (e : EngineId) : Writer :=
  ⟨1, engineIdent e, s.pkg, some (BitVec.ofNat 16 c.ctx, c.interval, if c.bits.rel then c.bits.scope.code else 0)⟩

/-! ### Issue -/

/-- Read a 64-byte command record for the issuing context (R269). -/
def readCmdRec (va : Word) : M (List Byte) := do
  need (va.toNat % 64 == 0) 0x03 va
  flushOwn
  loadStrict false 64 va.toNat 64

/-- The check of a command's completion counter (R247). -/
def cmdCounter (va : Word) : M Unit := do
  let s ← get
  let (_, s) ← liftTrap (translateCounter s (s.view s.issue.ctx) va .counterAdd)
  set s

/-- A command enters an engine's shadow, or its bundle is held back while the shadow is occupied (R269). With release the
context's interval advances at issue; the race shadows take the interval before (R318, R248). -/
def acceptCmd (e : EngineId) (wait : Wait) (form : Nat) (bits : EngBits) (recVa : Word) (bs : List Byte) (ctr : Word)
    (amount : Nat) : M Unit := do
  let s ← get
  let c := s.issue.ctx
  if (s.engine e).shadow.isSome then throw (.held (waitRetry s c wait)) else pure ()
  let x ← curCtx
  let i ← if bits.rel then advanceInterval else pure x.interval
  let cmd : Cmd :=
    { form := form
      ctx := c
      tid := x.tid
      seq := s.issue.order
      region := x.region
      cmdRec := bs
      recVa := recVa
      bits := bits
      ctrVa := ctr
      amount := amount
      interval := x.interval
      recorded := i
      core := some (coreOf c)
      order := s.nextId }
  modify (fun s => countSent { setEngine s e (fun g => { g with shadow := some cmd }) with nextId := s.nextId + 1 }
    (coreOf c) x.region.space.asid)

/-- A type code of a record. -/
def recType (n : Nat) : Option ElemTy := if n < 16 then ElemTy.ofCode (BitVec.ofNat 4 n) else none

/-- The types that ECONV takes: floating-point and integer (R165, R271). -/
def convType (n : Nat) : Option ElemTy := (recType n).bind (fun t => match t with | .e8m0 => none | .cw8 => none | t => some t)

/-- The record checks of R273 that every copy form shares: lengths and reserved fields. -/
def recordOk (form : Nat) (bs : List Byte) : Bool :=
  field bs 0x10 4 != 0 && field bs 0x14 4 != 0 && zeroField bs 0x2A 6 && zeroField bs 0x38 8 &&
    (form == 0x17 || field bs 0x28 1 == 0) && (form == 0x17 || form == 0x16 || field bs 0x29 1 == 0) &&
    (form == 0x14 || form == 0x15 || form == 0x16 || zeroField bs 0x30 8)

/-- An address and its row stride are multiples of an element's width (R273). -/
def needAligned (rec_ addr stride : Word) (w : Nat) : M Unit := do
  need (addr.toNat % w == 0) 0x03 addr
  need (stride.toNat % w == 0) 0x03 rec_

/-- The checks of R273 on one form's record. -/
def checkRecord (form : Nat) (rec_ : Word) (bs : List Byte) : M Unit := do
  needLegal (recordOk form bs)
  match form with
  | 0x16 => match recType (field bs 0x29 1) with
    | none => illegal
    | some t => do
      needLegal (field bs 0x10 4 % elemBytes t == 0)
      needAligned rec_ (fieldW bs 0) (fieldW bs 0x18) (elemBytes t)
      needAligned rec_ (fieldW bs 8) (fieldW bs 0x20) (elemBytes t)
  | 0x17 => match convType (field bs 0x28 1), convType (field bs 0x29 1) with
    | some a, some b => do
      needAligned rec_ (fieldW bs 0) (fieldW bs 0x18) (elemBytes a)
      needAligned rec_ (fieldW bs 8) (fieldW bs 0x20) (elemBytes b)
    | _, _ => illegal
  | 0x14 | 0x15 => need (field bs 0x30 8 % 4 == 0) 0x03 (fieldW bs 0x30)
  | _ => pure ()

/-- The issue of a cluster engine's command, with the selector of mod (R269, R273). -/
def issueEngine (form : Nat) (pick : State → Nat → EngineId) (sel : Nat) (f : EngArgs) : M Unit := do
  let rec_ ← readK f.cmd
  let ctr ← readK f.ctr
  let bs ← readCmdRec rec_
  checkRecord form rec_ bs
  cmdCounter ctr
  let s ← get
  let cl := clusterOf s.issue.ctx
  let e := pick s cl
  acceptCmd e (shadowWait s cl sel e) form f.bits rec_ bs ctr f.amount.toNat

/-- ECOPY (R271). -/
def execEcopy (eng : BitVec 2) (f : EngArgs) (s : State) : Host.Outcome State Fault Refusal :=
  runSlot (issueEngine 0x13 (fun s cl => pickCopy s cl eng.toNat) eng.toNat f) s
/-- EGATHER (R271). -/
def execEgather (f : EngArgs) (s : State) : Host.Outcome State Fault Refusal := runSlot (issueEngine 0x14 pickGs 0 f) s
/-- ESCATTER (R271). -/
def execEscatter (f : EngArgs) (s : State) : Host.Outcome State Fault Refusal := runSlot (issueEngine 0x15 pickGs 0 f) s
/-- EFILL (R271). -/
def execEfill (eng : BitVec 2) (f : EngArgs) (s : State) : Host.Outcome State Fault Refusal :=
  runSlot (issueEngine 0x16 (fun s cl => pickCopy s cl eng.toNat) eng.toNat f) s
/-- ECONV (R271). -/
def execEconv (eng : BitVec 2) (f : EngArgs) (s : State) : Host.Outcome State Fault Refusal :=
  runSlot (issueEngine 0x17 (fun s cl => pickCopy s cl eng.toNat) eng.toNat f) s

/-- The state word of an engine (R274). -/
def Engine.word (e : Engine) : Word :=
  BitVec.ofNat 64 (e.completed % 2 ^ 32 * 2 ^ 32 + e.cause.toNat * 2 ^ 24 + b2n e.err * 8 + b2n e.shadow.isSome * 4 +
    b2n e.cur.isSome * 2 + b2n e.present)

/-- The engine that ESTAT names for a context (R274). -/
def statEngine (c n : Nat) : EngineId :=
  match n with
  | 0 => .copy0 (clusterOf c) | 1 => .copy1 (clusterOf c) | 2 => .gs (clusterOf c)
  | 3 => .collective (dieOf c) | 4 => .requant (dieOf c) | _ => .compact (dieOf c)

/-- Whether the sequence manager has commands of its own in progress in an engine (R343, R354). -/
def managerBusy (s : State) : EngineId → Bool
  | .requant _ => s.kvJobs.any (fun j => j.cmd.form == 0x29)
  | .compact _ => s.kvJobs.any (fun j => j.cmd.form == 0x28 && j.copied.isNone)
  | _ => false

/-- The state word that ESTAT reads (R274). -/
def statWord (s : State) (e : EngineId) : Word := (s.engine e).word ||| (if managerBusy s e then 2 else 0)

/-- ESTAT: scoreboarded (R253, R274). -/
def execEstat (dst : BitVec 5) (e : BitVec 3) (s : State) : Host.Outcome State Fault Refusal :=
  runSlot (do
    let st ← get
    pendResult [(fK, dst.toNat)] (some ([(statWord st (statEngine st.issue.ctx e.toNat)).setWidth 2048], none))) s

/-! ### Execution -/

/-- Why a row does not take place: its destination is held by a conversion (R417), or a fault (R272). -/
inductive RowStop
  | held
  | fault (cause : BitVec 8) (addr : Word)
  deriving DecidableEq, Repr

/-- The bytes of EFILL's row: the pattern's low element, repeated. -/
def fillBytes (bs : List Byte) (len : Nat) : List Byte :=
  let w := match recType (field bs 0x29 1) with | some t => elemBytes t | none => 1
  (List.range len).map (fun i => BitVec.ofNat 8 (field bs (0x30 + i % w) 1))

/-- ECONV's elements: RN, subnormals kept, no flag and no draw (R271). -/
def convBytes (a b : ElemTy) (src : List Byte) (n : Nat) : List Byte :=
  (List.range n).flatMap (fun i =>
    leBytes (elemBytes b) (convertElem false .rne 0 false false a b (field src (i * elemBytes a) (elemBytes a))).1)

/-- A read of an engine. -/
def rowRead (s : State) (v : View) (va : Word) (n : Nat) : Except RowStop (List Byte × State) :=
  match readVia s v va.toNat n with
  | .error (c, t) => .error (.fault c t)
  | .ok r => .ok r

/-- A write of an engine, held by a conversion on its die. -/
def rowWrite (s : State) (v : View) (w : Writer) (va : Word) (bs : List Byte) : Except RowStop State :=
  if heldShard s v.die v.space va.toNat bs.length then .error .held
  else match writeVia s v w va.toNat bs with
    | .error (c, t) => .error (.fault c t)
    | .ok s => .ok s

/-- Row i of a command (R271). -/
def execRow (c : Cmd) (v : View) (w : Writer) (s : State) (i : Nat) : Except RowStop State :=
  let bs := c.cmdRec
  let len := field bs 0x10 4
  let row := fun (base stride n : Nat) => fieldW bs base + BitVec.ofNat 64 n * fieldW bs stride
  let copy := fun (s : State) (src dst : Word) => match rowRead s v src len with
    | .error e => Except.error e
    | .ok (d, s) => rowWrite s v w dst d
  let indexed := fun (f : Nat → Word × Word) => match rowRead s v (fieldW bs 0x30 + BitVec.ofNat 64 (4 * i)) 4 with
    | .error e => Except.error e
    | .ok (d, s) => let j := leNat d; if j = 0xFFFFFFFF then Except.ok s else copy s (f j).1 (f j).2
  match c.form with
  | 0x14 => indexed (fun j => (row 0 0x18 j, row 8 0x20 i))
  | 0x15 => indexed (fun j => (row 0 0x18 i, row 8 0x20 j))
  | 0x16 => rowWrite s v w (row 8 0x20 i) (fillBytes bs len)
  | 0x17 => match convType (field bs 0x28 1), convType (field bs 0x29 1) with
    | some a, some b => match rowRead s v (row 0 0x18 i) (len * elemBytes a) with
      | .error e => .error e
      | .ok (d, s) => rowWrite s v w (row 8 0x20 i) (convBytes a b d len)
    | _, _ => .ok s
  | _ => copy s (row 0 0x18 i) (row 8 0x20 i)

/-- The rows from i on, in ascending order; a fault keeps the rows already written. Recursion is on the rows left. -/
def execRows (c : Cmd) (v : View) (w : Writer) : Nat → Nat → State → State × Option RowStop
  | 0, _, s => (s, none)
  | n + 1, i, s => match execRow c v w s i with
    | .error e => (s, some e)
    | .ok s => execRows c v w n (i + 1) s

/-! ### Completion -/

/-- Whether every access that a command's context issued before it is performed; with release, every operation of any kind
(R272, R254, R230). -/
def cmdReady (s : State) (c : Cmd) : Bool :=
  if c.bits.rel then releasableAs s c.ctx c.tid c.seq
  else !((s.ctx c.ctx).tid == c.tid && (s.ctx c.ctx).posted.any (fun p => p.seq < c.seq)) &&
    !s.loose.any (fun l => l.tid == c.tid && l.posted.seq < c.seq)

/-- The view in which an engine translates for a command: that of its issuing context, or of management (R272). -/
def Cmd.view (c : Cmd) : View := if c.core.isSome then engineView c.region.space c.ctx else packageView c.region.space

/-- Count a command as received at its engine (R267). -/
def countCommand (s : State) (e : EngineId) (c : Cmd) : State :=
  match c.core with
  | some k => setEngine s e (fun g => { g with received := Map.upd 0 g.received (drainKey k c.region.space.asid) (· + 1) })
  | none => s

/-- The completion add of a command of an engine, to its counter as it is translated then (R309), and the report of its fault
(R272, R248, R250, R277): the state, and the cause with which the command ends. A command without a fault to report may still
fail its add, and carries `errOnly` into it. -/
def finishCmd (s : State) (e : EngineId) (c : Cmd) (err : Option (BitVec 8 × Word)) (errOnly : Option (BitVec 8)) :
    State × Option (BitVec 8) :=
  let cause := (err.map (fun (x : BitVec 8 × Word) => x.1)).or errOnly
  let rel := if cause.isNone && c.bits.rel then some (BitVec.ofNat 16 c.ctx, c.recorded) else none
  let s := countCommand s e c
  let (s, cause) := match addVia s c.view (c.writer s e) c.ctrVa c.amount cause rel with
    | .ok s => (s, cause)
    | .error (f, t) => (outsideTrap (confirmWalk (countIfBad s f) c.view f t.toNat) c.tid c.region 2 f t, cause.or (some f))
  match err with
  | none => (s, cause)
  | some (x, t) => (outsideTrap (confirmWalk s c.view x t.toNat) c.tid c.region 2 x t, cause)

/-- An engine's current command has ended. -/
def Engine.ended (e : Engine) (cause : Option (BitVec 8)) : Engine :=
  { e with
    cur := none
    completed := (e.completed + 1) % 2 ^ 32
    err := cause.isSome
    cause := cause.getD e.cause }

/-- ENGINE_SHADOW_SWAP: the command in the shadow enters an idle engine (R269). -/
def execEngineShadowSwap (e : EngineId) (s : State) : Host.Outcome State Fault Refusal :=
  .next (setEngine s e (fun g => match g.cur with
    | none => { g with cur := g.shadow, shadow := none }
    | some _ => g))

/-- A cluster engine performs its current command and completes it; nothing while the command must wait. -/
def runCopyEngine (s : State) (e : EngineId) : State :=
  match (s.engine e).cur with
  | none => s
  | some c =>
    if !cmdReady s c then s
    else
      match execRows c c.view (c.writer s e) (field c.cmdRec 0x14 4) 0 s with
      | (_, some .held) => s
      | (t, some (.fault cause a)) =>
        let (t, r) := finishCmd t e c (some (cause, a)) none
        setEngine t e (fun g => g.ended r)
      | (t, none) =>
        let (t, r) := finishCmd t e c none none
        setEngine t e (fun g => g.ended r)

end Sys2Proof.Machine
end

