-- ==== Sys2Proof/Machine/Planes.lean ====
section
/-! DEFINITION. Configuration planes: EPLANE and the loader (R368, R369), SWAP and the flip (R370), and management's ports
(R371). -/

namespace Sys2Proof.Machine

/-! ### Loader commands -/

/-- The cores that an EPLANE record names (R368). -/
def planeCores (bs : List Byte) : List Nat :=
  ((List.range 12).filter (fun i => bitAt (field bs 8 2) i)).map (fun i => field bs 0xB 1 * 128 + field bs 0xA 1 * 16 + i)

/-- The rules of R368 on a record's fields, the image's alignment apart. -/
def planeRecOk (bs : List Byte) : Bool :=
  decide (field bs 8 2 < 2 ^ 12) && decide (field bs 0xA 1 < 8) && decide (field bs 0xB 1 < 8) && zeroField bs 0xC 52

/-- EPLANE: the command goes to the configuration loader of the die that its record names (R368). -/
def execEplane (f : EngArgs) (s : State) : Host.Outcome State Fault Refusal :=
  runSlot (do
    let rec_ ← readK f.cmd
    let ctr ← readK f.ctr
    let bs ← readCmdRec rec_
    needLegal (planeRecOk bs)
    need (field bs 0 8 % 256 == 0) 0x03 (fieldW bs 0)
    cmdCounter ctr
    let e := EngineId.loader (field bs 0xB 1)
    acceptCmd e (.engine e) 0x19 f.bits rec_ bs ctr f.amount.toNat) s

/-- The commands that a die's loader has accepted and not performed. -/
def loaderPending (s : State) (d : Nat) : List Cmd :=
  let x := s.die d
  x.loader.cur.toList ++ x.loader.shadow.toList ++ x.loaderQueue

/-- Whether a core's shadow is still loading, for a SWAP: a command accepted before its lock names the core (R368, R370). -/
def shadowLoading (s : State) (k : Nat) : Bool :=
  let x := s.core k
  (loaderPending s (k / 128)).any (fun c => (planeCores c.cmdRec).contains k && (!x.swapLock || c.order < x.lockOrder))

/-- Whether a plane is empty (R371). -/
def Plane.isEmpty (p : Plane) : Bool := p.cond == .empty

/-- The plane of an image of R369; none where the image breaks it. -/
def planeOf (bs : List Byte) : Option Plane :=
  let p : Plane :=
    { cond := .loaded
      sets := field bs 2 1
      pairs := BitVec.ofNat 16 (field bs 4 2)
      hasPairs := true
      codeLen := field bs 8 4
      constLen := field bs 0xC 4
      codeBase := fieldW bs 0x10
      bytes := putBytes [] 0 bs }
  if field bs 0 2 == 1 && decide (p.sets ≤ 32) && zeroField bs 3 1 && zeroField bs 6 2 && p.codeLen % 8 == 0 &&
      decide (p.codeLen ≤ 131072) && decide (p.constLen ≤ 8192) && p.codeBase.toNat % 65536 == 0 && zeroField bs 0x18 232 then
    some p
  else none

/-- The length of a plane image (R369). -/
def planeImageLen : Nat := 0x23100

/-- Write the shadow planes of the cores of a command. -/
def setShadows (s : State) (ks : List Nat) (p : Plane) : State :=
  ks.foldl (fun s k => s.updCore k (fun x => { x with shadow := p })) s

/-- Perform one command of a loader (R368): the image into every named core that is present; a failed read, or an image that
breaks R369, leaves their shadows empty. -/
def loadPlane (s : State) (d : Nat) (c : Cmd) : State × Option (BitVec 8) :=
  let ks := planeCores c.cmdRec
  let here := ks.filter (fun k => (s.core k).present)
  let e : EngineId := .loader d
  match readVia s c.view (field c.cmdRec 0 8) planeImageLen with
  | .error err => finishCmd (setShadows s here {}) e c (some err) none
  | .ok (bs, s) => match planeOf bs with
    | none => finishCmd (setShadows s here {}) e c (some (0x01, fieldW c.cmdRec 0)) none
    | some p => finishCmd (setShadows s here p) e c none (if here.length = ks.length then none else some 0x05)

/-- Whether a SWAP that locked first keeps a command from a core's shadow (R368, R370). -/
def lockedOut (s : State) (c : Cmd) : Bool :=
  (planeCores c.cmdRec).any (fun k => (s.core k).swapLock && decide ((s.core k).lockOrder < c.order))

/-- The loader of a die performs the oldest command it has accepted; nothing while that command must wait. -/
def runLoader (s : State) (d : Nat) : State :=
  let x := s.die d
  let own := fun (c : Cmd) =>
    if !cmdReady s c || lockedOut s c then s
    else
      let (t, r) := loadPlane s d c
      setEngine t (.loader d) (fun g => g.ended r)
  let mgmt := fun (c : Cmd) =>
    if lockedOut s c then s
    else
      let (t, r) := loadPlane s d c
      (setEngine t (.loader d) (fun g => { g with
        completed := (g.completed + 1) % 2 ^ 32
        err := r.isSome
        cause := r.getD g.cause })).updDie d (fun y => { y with loaderQueue := y.loaderQueue.drop 1 })
  match x.loader.cur, x.loaderQueue with
  | none, [] => s
  | some c, [] => own c
  | none, m :: _ => if x.loader.shadow.any (fun c => c.order < m.order) then s else mgmt m
  | some c, m :: _ => if c.order < m.order then own c else mgmt m

/-- CONFIG_LOADER_LOAD (R368). -/
def execConfigLoaderLoad (die : Nat) (s : State) : Host.Outcome State Fault Refusal := .next (runLoader s die)

/-- MANAGEMENT_EPLANE: management submits an EPLANE record and a completion counter to a die's loader (R371). A record or
counter that breaks its rules is not taken. -/
def execManagementEplane (die : Nat) (rec_ ctr : Word) (amount : Nat) (s : State) : Host.Outcome State Fault Refusal :=
  let v := packageView s.mgmtSpace
  if !stage3Done s || 8 ≤ die || rec_.toNat % 64 ≠ 0 || amount = 0 || 2 ^ 30 ≤ amount then .next s
  else match readVia s v rec_.toNat 64 with
    | .error _ => .next s
    | .ok (bs, s) =>
      if !planeRecOk bs || field bs 0 8 % 256 ≠ 0 || field bs 0xB 1 ≠ die then .next s
      else match translateCounter s v ctr .counterAdd with
        | .error _ => .next s
        | .ok (_, s) =>
          let c : Cmd :=
            { form := 0x19
              ctx := 0
              tid := 0
              seq := 0
              region := { space := s.mgmtSpace }
              cmdRec := bs
              bits := { acq := false, rel := false, scope := .package }
              ctrVa := ctr
              amount := amount
              interval := 0
              recorded := 0
              order := s.nextId }
          .next { s.updDie die (fun x => { x with loaderQueue := x.loaderQueue ++ [c] }) with nextId := s.nextId + 1 }

/-! ### SWAP -/

/-- Whether a task waits for a flip. -/
def swapPending (s : State) (tid : Nat) : Bool := s.cores.any (fun (_, x) => x.swapTokens.any (fun t => t.tid == tid))

/-- The lock of SWAP, its first-wait action (R370, R451). -/
def swapLocked (s : State) (c : Nat) (ctr : Option Word) : State :=
  let x := s.ctx c
  let t : SwapToken :=
    { tid := x.tid
      ctx := c
      region := x.region
      interval := x.interval
      ctr := ctr }
  let s := countSent s (coreOf c) x.region.space.asid
  let s := { s with nextId := s.nextId + 1 }
  s.updCore (coreOf c) (fun k => { k with
    swapLock := true
    lockOrder := if k.swapLock then k.lockOrder else s.nextId - 1
    swapTokens := k.swapTokens ++ [t] })

/-- SWAP: locks the shadow plane and waits for the flip (R370, R451). A shadow that has become empty under the task's own lock
fails the condition again; a task restored on another core goes on waiting for the core that it locked. -/
def execSwap (ctr : Option (BitVec 5)) (s : State) : Host.Outcome State Fault Refusal :=
  runSlot (do
    let target ← match ctr with
      | none => pure none
      | some k => do
        let va ← readK k
        cmdCounter va
        pure (some va)
    let st ← get
    let c := st.issue.ctx
    let x ← curCtx
    let k ← curCore
    let empty := k.shadow.isEmpty && !shadowLoading st (coreOf c)
    if x.waitAct then
      if swapPending st x.tid then do
        needLegal (!(empty && k.swapTokens.any (fun t => t.tid == x.tid)))
        throw (.held (waitRetry st c .swap))
      else pure ()
    else do
      needLegal (!empty)
      let st := (swapLocked st c target).updCtx c (fun x => { x with waitAct := true })
      throw (.held (waitRetry st c .swap))) s

/-! ### The flip -/

/-- A token's add at the flip: release at core scope (R370, R248). -/
def tokenAdd (k : Nat) (s : State) (t : SwapToken) : State :=
  let s := countReceived s k k t.region.space.asid
  match t.ctr with
  | none => s
  | some va =>
    let (rel, s) := releaseFor s t.ctx t.tid t.interval
    match addVia s (engineView t.region.space t.ctx) (s.ctxWriter t.ctx t.interval) va 1 none (some rel) with
    | .ok s => s
    | .error (c, a) => faultRecord (countIfBad s c) t.region 2 c 0 0 a

/-- The activation and weight formats of an engine in a plane's pairs (R369). -/
def Plane.pair (p : Plane) (e : Nat) : Option (Nat × Nat) :=
  if p.hasPairs then some (bitsAt p.pairs.toNat (8 * e) 4, bitsAt p.pairs.toNat (8 * e + 4) 4) else none

/-- The planes of a core exchange roles, and each engine takes the new plane's format pair (R370). -/
def exchangePlanes (s : State) (k : Nat) : State :=
  s.updCore k (fun x => { x with
    active := x.shadow
    shadow := x.active
    pair0 := x.shadow.pair 0
    pair1 := x.shadow.pair 1
    flips := x.flips + 1 })

/-- Whether every context of a core is dormant or waits at SWAP, and every T-slot operation, queued or held for a frozen task, is done
(R370). -/
def drainPoint (s : State) (k : Nat) : Bool :=
  let x := s.core k
  (ctxsOf k).all (fun c =>
    let y := s.ctx c
    y.run == .dormant || (y.run == .blocked && x.swapTokens.any (fun t => t.tid == y.tid) && y.posted.isEmpty &&
      !remoteWork s y.tid)) && x.tq0.isEmpty && x.tq1.isEmpty && x.held0.isEmpty && x.held1.isEmpty

/-- Unlock a core's shadow: the tokens are spent, and the contexts that wait at SWAP go on. -/
def unlockShadow (s : State) (k : Nat) : State :=
  let s := (s.core k).swapTokens.foldl (tokenAdd k) s
  let s := (ctxsOf k).foldl (fun s c =>
    if (s.ctx c).run == .blocked && (s.core k).swapTokens.any (fun t => t.tid == (s.ctx c).tid) then wake s c else s) s
  s.updCore k (fun x => { x with swapLock := false, swapTokens := [] })

/-- PLANE_FLIP: at the drain point of a core that a SWAP has locked (R370). A shadow whose load has failed is not made active: a core
without a live context then takes starts again, and the SWAPs of its saved tasks still wait for a flip (log entry 45). -/
def execPlaneFlip (core : Nat) (s : State) : Host.Outcome State Fault Refusal :=
  let x := s.core core
  if (!x.swapLock && x.swapTokens.isEmpty) || !drainPoint s core || shadowLoading s core then .next s
  else if x.shadow.isEmpty then
    .next (if (liveOn s core).isEmpty then s.updCore core (fun x => { x with swapLock := false }) else s)
  else .next (unlockShadow (exchangePlanes s core) core)

/-- MANAGEMENT_FLIP: the flip of a core all of whose contexts are dormant, without a SWAP token (R371). -/
def execManagementFlip (core : Nat) (s : State) : Host.Outcome State Fault Refusal :=
  let x := s.core core
  if !coreValid core || !x.present || !(liveOn s core).isEmpty || x.shadow.isEmpty || shadowLoading s core || x.swapLock then .next s
  else .next (exchangePlanes s core)

end Sys2Proof.Machine
end

