-- ==== Sys2Proof/Machine/Sched.lean ====
section
/-! DEFINITION. The package scheduler: LAUNCH (R367), packets and graph nodes (R360 to R362), task sets, crews and their
windows (R290, R291, R363), pre-emption for shares, and saved tasks (R107, R365). -/

namespace Sys2Proof.Machine

/-! ### LAUNCH -/

/-- A region whose launch counter moves is served from then on, its packets refused where its record breaks R356 (R357): its control
block is read in `sp`. -/
def serveRing (s : State) (r : Region) (sp : Space) (next seen : Nat) : State :=
  if s.rings.any (fun x => x.region.rcb == r.rcb) then s
  else
    let bad := !chainCountersOk s (packageView sp) r
    { s with rings := s.rings ++ [{ region := r, space := sp, next := next, bad := bad, seen := seen }] }

/-- The two counters of a region's launch ring, launch and consumed, each with its physical address (R360). -/
def ringCounters (s : State) (r : Region) : Except (BitVec 8 × Word) ((Nat × Nat) × (Nat × Nat) × State) :=
  match counterAt s (packageView r.space) r.launchCtr with
  | .error e => .error e
  | .ok (lpa, l, s) => match counterAt s (packageView r.space) r.consumedCtr with
    | .error e => .error e
    | .ok (cpa, c, s) => .ok ((lpa, l), (cpa, c), s)

/-- The address of packet i in a region's ring (R360). -/
def slotVa (r : Region) (i : Nat) : Nat := r.ring.toNat + 64 * (i % r.ringSize)

/-- LAUNCH (R367). -/
def execLaunch (dst pkt : BitVec 5) (s : State) : Host.Outcome State Fault Refusal :=
  runSlot (do
    let a ← readK pkt
    need (a.toNat % 64 == 0) 0x03 a
    flushOwn
    let bs ← loadStrict false 64 a.toNat 64
    needLegal (packetOk bs)
    let st ← get
    let c := st.issue.ctx
    let mine := (st.ctx c).region
    let rcb := fieldW bs 0x10
    let r ← match readRegion st (packageView mine.space) rcb with
      | .ok (r, t) => do
        set t
        pure r
      | .error (.fault cause _) => condTrap cause rcb
      | .error .broken => condTrap 0x05 rcb
    need (inSubtree r mine) 0x05 rcb
    let st ← get
    let v := packageView r.space
    need (ringUsable st r) 0x05 rcb
    let ((lpa, l), (cpa, done), st) ← match ringCounters st r with
      | .ok x => pure x
      | .error (cause, t) => condTrap cause t
    set st
    match translateRange st v (slotVa r l) 64 .write with
    | .error _ => condTrap 0x05 rcb
    | .ok _ => pure ()
    if r.ringSize ≤ l - done then throw (.held (waitRetry st c (.ring lpa cpa r.ringSize))) else pure ()
    let old := (st.ctx c).interval
    let i ← releaseNow
    modify (fun s =>
      let s := match writeVia s v (s.ctxWriter c old) (slotVa r l) bs with
        | .ok s => s
        | .error _ => s
      let s := packageAdd s r r.launchCtr 1 none (some (BitVec.ofNat 16 c, i))
      serveRing s r mine.space done (l + 1))
    pendResult [(fK, dst.toNat)] (some ([BitVec.ofNat 2048 l], none))) s

/-! ### Packets -/

/-- The completion add of work that the scheduler does not start: the error bit with a cause, and no release (R361, R362). -/
def errorAdd (s : State) (r : Region) (ctr : Word) (inc : Nat) (cause : BitVec 8) : State :=
  if ctr = 0 then s else packageAdd s r ctr inc (some cause) none

/-- A refused packet (R362): its completion add and a fault record of kind 1. The spec gives no sys.tval for it. -/
def refusePacket (s : State) (r : Region) (p : LaunchPkt) (i : Nat) (cause : BitVec 8) : State :=
  let s := errorAdd s r p.done p.inc cause
  let (t, s) := s.free64
  faultRecord s r 1 cause 0 (BitVec.ofNat 64 i) t

/-- A packet becomes a task set (R363). -/
def startSet (s : State) (r : Region) (p : LaunchPkt) : State :=
  { s with
    sets := s.sets ++ [{ id := s.nextId, pkt := p, region := r }]
    nextId := s.nextId + 1 }

/-- An eligible packet: a conditional node reads its predicate word, and launches or is skipped (R361). -/
def launchNode (s : State) (r : Region) (p : LaunchPkt) (i : Nat) : State :=
  if !p.cond then startSet s r p
  else match readVia s (packageView r.space) p.pred.toNat 8 with
    | .error (cause, _) => faultRecord (errorAdd s r p.done p.inc cause) r 1 cause 0 (BitVec.ofNat 64 i) p.pred
    | .ok (bs, s) =>
      if (leNat bs != 0) != p.neg then startSet s r p
      else if p.done = 0 then s else packageAdd s r p.done p.inc none (some (0, 0))

/-- Whether a node's dependence counter has reached its target; a counter that cannot be read has not. -/
def dependenceMet (s : State) (r : Region) (p : LaunchPkt) : Bool :=
  match counterVia s (packageView r.space) p.depCtr with
  | .ok (n, _) => decide (p.depTgt ≤ n)
  | .error _ => false

/-- Why a packet is refused (R362), with the region that this concerns: its own, once it has been read and is the ring's or a
descendant; or the region it launches in. -/
def admitPacket (s : State) (ring : RingState) (bs : List Byte) : Except (BitVec 8 × Region) (Region × State) :=
  let p := packetOf bs
  if ring.bad || !packetOk bs then .error (0x01, ring.region)
  else match schedRegion s (packageView ring.region.space) p.rcb with
    | .error _ => .error (0x01, ring.region)
    | .ok (r, s) =>
      if !inSubtree r ring.region then .error (0x01, ring.region)
      else match readVia s (packageView r.space) p.image.toNat 256 with
        | .error _ => .error (0x01, r)
        | .ok (_, s) =>
          if !p.graph then .ok (r, s)
          else match translateCounter s (packageView r.space) p.depCtr .counterRead with
            | .error (cause, _) => .error (cause, r)
            | .ok (_, s) => .ok (r, s)

/-- Change the state of a region's ring. -/
def setRing (s : State) (rcb : Word) (f : RingState → RingState) : State :=
  { s with rings := s.rings.map (fun x => if x.region.rcb == rcb then f x else x) }

/-- The control block of a ring as the scheduler now reads it (R357): a broken one makes every packet refused. -/
def rereadRing (s : State) (ring : RingState) : RingState × State :=
  match schedRegion s (packageView ring.space) ring.region.rcb with
  | .ok (r, s) => ({ ring with region := r, bad := false }, s)
  | .error _ => ({ ring with bad := true }, s)

/-- The scheduler reads the control block of a region again at each movement of its launch counter (R357). -/
def ringCycle (s : State) : State :=
  s.rings.foldl (fun s x =>
    match counterVia s (packageView x.region.space) x.region.launchCtr with
    | .error _ => s
    | .ok (n, _) =>
      if n = x.seen then s
      else
        let (y, s) := rereadRing s x
        setRing s x.region.rcb (fun _ => { y with seen := n })) s

/-- The region that governs a placement now (R357): as last read for its launch ring, else as read with the packet. -/
def governing (s : State) (r : Region) : Region :=
  match s.rings.find? (fun x => x.region.rcb == r.rcb && !x.bad) with
  | some x => x.region
  | none => r

/-- Whether a region has an announced packet that is not yet read. -/
def unread (s : State) (ring : RingState) : Bool :=
  match counterVia s (packageView ring.region.space) ring.region.launchCtr with
  | .ok (l, _) => decide (ring.next < l)
  | .error _ => false

/-- Whether the full pending-node table keeps a region's next packet from being read: no further packet is read of a region that has
a node there, or whose next packet needs an entry (R361). -/
def tableBlocks (s : State) (ring : RingState) : Bool :=
  if s.nodes.length < 1024 then false
  else if s.nodes.any (fun n => n.ring == ring.region.rcb) then true
  else match readVia s (packageView ring.region.space) (slotVa ring.region ring.next) 64 with
    | .error _ => false
    | .ok (bs, s) => match admitPacket s ring bs with
      | .error _ => false
      | .ok (r, s) => (packetOf bs).graph && !dependenceMet s r (packetOf bs)

/-- The ring served next: the highest priority with an unread packet, the least recently read among equals (R360). -/
def nextRing (s : State) : Option RingState :=
  (s.rings.filter (fun x => unread s x && !tableBlocks s x)).foldl (fun (b : Option RingState) x => match b with
    | none => some x
    | some y => if y.region.priority < x.region.priority || (y.region.priority == x.region.priority && x.lastRead < y.lastRead)
      then some x else some y) none

/-- The place of the next read among the scheduler's reads of packets: later than that of every region's last one (R360). -/
def readStamp (s : State) : Nat := (s.rings.map (·.lastRead)).foldl max 0 + 1

/-- The scheduler reads packet i of a region: the consumed counter, and what becomes of the packet (R360 to R362). -/
def readPacket (s : State) (ring : RingState) : State :=
  let r := ring.region
  let i := ring.next
  let va := slotVa r i
  let s := setRing s r.rcb (fun _ => { ring with next := i + 1, lastRead := readStamp s })
  match readVia s (packageView r.space) va 64 with
  | .error (cause, _) =>
    let s := packageAdd (confirmWalk s (packageView r.space) cause va) r r.consumedCtr 1 none (some (0, 0))
    faultRecord s r 1 cause 0 (BitVec.ofNat 64 i) (BitVec.ofNat 64 va)
  | .ok (bs, s) =>
    let s := packageAdd s r r.consumedCtr 1 none (some (0, 0))
    let p := packetOf bs
    match admitPacket s ring bs with
    | .error (cause, q) => refusePacket s q p i cause
    | .ok (q, s) =>
      if p.graph && !dependenceMet s q p then { s with nodes := s.nodes ++ [{ pkt := p, region := q, index := i, ring := r.rcb }] }
      else launchNode s q p i

/-- PACKET_READ: the scheduler, once the package has booted, reads the next packet of the region whose turn it is (R360, R375). -/
def execPacketRead (region : Nat) (s : State) : Host.Outcome State Fault Refusal :=
  match s.rings[region]?, nextRing s with
  | some x, some y => if s.bootStage = 4 && x.region.rcb == y.region.rcb then .next (readPacket s y) else .next s
  | _, _ => .next s

/-- NODE_ELIGIBLE: pending node n, its counter satisfied, launches or is skipped (R361). -/
def execNodeEligible (n : Nat) (s : State) : Host.Outcome State Fault Refusal :=
  match s.nodes[n]? with
  | none => .next s
  | some d =>
    if dependenceMet s d.region d.pkt then .next (launchNode { s with nodes := s.nodes.eraseIdx n } d.region d.pkt d.index)
    else .next s

/-! ### Placing tasks -/

/-- What a task of a set starts with (R101, R290), in the region as it now reads (R357): k3 is the base of the crew's window, and
for a crew size of 1 stays 0, as cleared, unless the image gives it a value: only k0 and k1 of the image are overwritten (log entry 40). -/
def setStart (s : State) (t : TaskSet) (index crew member : Nat) (window : Word) : Start :=
  { entry := t.pkt.entry
    image := t.pkt.image
    hasImage := true
    role := t.pkt.role
    region := governing s t.region
    task := .taskSet t.id index crew
    regs := [(fK, 0, BitVec.ofNat 64 index), (fK, 1, BitVec.ofNat 64 member)] ++
      (if 2 ≤ t.pkt.crew then [(fK, 3, window)] else []) }

/-- Whether a start fits on a context now (R84, R85, R178, R358, R370). -/
def startFits (s : State) (c : Nat) (st : Start) : Bool :=
  let (bank, tmask) := match startNeeds s st with
    | .ok (b, t, _) => (b, t)
    | .error _ => (64, 0)
  ctxValid c && (s.ctx c).run == .dormant && canStart s (coreOf c) bank tmask st.region

/-- A set with its next task index moved on. -/
def advanceSet (s : State) (id n : Nat) : State :=
  { s with sets := s.sets.map (fun (t : TaskSet) => if t.id == id then { t with next := t.next + n } else t) }

/-- TASK_PLACEMENT: the next task of a set without crews starts on a dormant context (R363). -/
def execTaskPlacement (set ctx : Nat) (s : State) : Host.Outcome State Fault Refusal :=
  match s.sets.find? (fun t => t.id == set) with
  | none => .next s
  | some t =>
    let st := setStart s t t.next t.next 0 0
    if t.pkt.crew ≠ 1 || t.pkt.tasks ≤ t.next || !startFits s ctx st then .next s
    else .next (launchFill (advanceSet s set 1) ctx st)

/-- Whether a stretch of a cluster's direct space is free of windows (R290). -/
def windowFree (s : State) (cl off n : Nat) : Bool :=
  off % 65536 == 0 && decide (off + n ≤ s.directSize cl) &&
    !(s.cluster cl).windows.any (fun w => overlaps (vaultPa cl off) n w.base w.bytes)

/-- Start the members of a crew in order on contexts; none where one of them does not fit. -/
def startCrew (t : TaskSet) (crew first : Nat) (window : Word) : Nat → List Nat → State → Option State
  | _, [], s => some s
  | m, c :: cs, s =>
    let st := setStart s t (first + m) crew m window
    if startFits s c st then startCrew t crew first window (m + 1) cs (launchFill s c st) else none

/-- CREW_PLACEMENT: the next crew of a set is placed as one in a cluster, with a window in its direct space (R290). -/
def execCrewPlacement (set cl : Nat) (ctxs : List Nat) (window : Nat) (s : State) : Host.Outcome State Fault Refusal :=
  match s.sets.find? (fun t => t.id == set) with
  | none => .next s
  | some t =>
    let members := min t.pkt.crew (t.pkt.tasks - t.next)
    let bytes := t.pkt.window * 65536
    if t.pkt.crew < 2 || members = 0 || ctxs.length ≠ members || ctxs.any (fun c => clusterOf c != cl) ||
        !windowFree s cl window bytes || !bytesInBudget s (governing s t.region) true bytes then .next s
    else
      let w : Window :=
        { set := t.id
          crew := t.next / t.pkt.crew
          base := vaultPa cl window
          bytes := bytes
          live := members }
      let s1 := (advanceSet s set members).updCluster cl (fun x => { x with windows := x.windows ++ [w] })
      .next ((startCrew t w.crew t.next (BitVec.ofNat 64 w.base) 0 ctxs s1).getD s)

/-! ### Offers that a start needs (R292) -/

/-- The banks of what could start on a core now: deque records, message handlers, trap handlers, tasks of sets and saved tasks. -/
def startBanks (s : State) (k : Nat) : List Nat :=
  let bank := fun (st : Start) => match startNeeds s st with | .ok (b, _, _) => b | .error _ => 64
  (s.core k).deque.map (fun t => bank t.start) ++ (if (s.core k).starts.isEmpty then [] else [64]) ++
    (if (ctxsOf k).any (needsHandler s) then [64] else []) ++
    ((s.sets.filter (fun t => decide (t.next < t.pkt.tasks))).map (fun t => bank (setStart s t t.next t.next 0 0))) ++
    ((s.saved.filter (fun v => v.why != .park)).map (fun v => v.bank + if v.frozen then 64 else 0))

/-- Whether a context start needs the capacity of a core's register offer. -/
def offerNeeded (s : State) (k : Nat) : Bool :=
  (dormantOn s k).isSome &&
    (startBanks s k).any (fun b => !bankRoom s k b && decide (bankUse s k + b ≤ 1024))

/-- SPILL_OFFER_WITHDRAWAL: a core withdraws its register offer when a start needs the capacity, first moving the images it holds
(R292, R279). A reserve offer is withdrawn by the write that lowers the reserve. -/
def execSpillOfferWithdrawal (core : Nat) (reserve : Bool) (s : State) : Host.Outcome State Fault Refusal :=
  .next (if !reserve && offerNeeded s core then (moveImages s core reserve).getD s else s)

/-! ### Shares -/

/-- Cores that a region's subtree uses, and its core budget as the scheduler last read it, which no more cores than are present
can fill (R294). -/
def coresUsed (s : State) (rcb : Word) : Nat := (((occupied s rcb).map coreOf).eraseDups).length
def coreBudget (s : State) (r : Region) : Nat :=
  let own := match (governing s r).budgets with | (n, _) :: _ => n | [] => 0
  min own (((List.range 64).map (clusterBudget s)).sum)

/-- Whether the budgets of a region's ancestors allow it one core more once a context has been pre-empted, whose image then counts
against its own ancestors; `n` is 0 where the region's task is a saved one, which counts already (R358, R365). -/
def ancestorsAllow (s : State) (r : Region) (victim n : Nat) : Bool :=
  let t := s.updCtx victim (fun x => { x with run := .dormant })
  let g := governing s r
  ((g.chain.zip g.budgets).drop 1).all (fun (rcb, (cores, ctxs, _, _)) =>
    decide (coresUsed t rcb + 1 ≤ cores) &&
      decide ((occupied t rcb).length + (s.saved.filter (fun v => v.region.chain.contains rcb)).length +
        b2n ((s.ctx victim).region.chain.contains rcb) + n ≤ ctxs))

/-- Whether a region with tasks ready to place, and whose ancestors' budgets allow it, holds fewer cores than its share (R365). -/
def starved (s : State) (victim : Nat) : Bool :=
  let short := fun (n : Nat) (r : Region) => decide (coresUsed s r.rcb < coreBudget s r) && ancestorsAllow s r victim n
  s.sets.any (fun t => decide (t.next < t.pkt.tasks) && short 1 t.region) || s.saved.any (fun v => v.why != .park && short 0 v.region)

/-- Whether a context's region is above its own share, and the context may be asked for (R365). -/
def aboveShare (s : State) (c : Nat) : Bool :=
  let x := s.ctx c
  x.run != .dormant && x.preemptAt.isNone && askable s c && decide (coreBudget s x.region < coresUsed s x.region.rcb)

/-- SHARE_PREEMPTION: for a region below its share, the scheduler asks for a task, and its crew, of a region above its own, of
the lowest priority among those (R365). -/
def execSharePreemption (ctx : Nat) (s : State) : Host.Outcome State Fault Refusal :=
  let above := ((s.ctxs.filter (fun (_, x) => x.run != .dormant)).map (·.1)).filter (aboveShare s)
  let low := above.all (fun d => decide ((s.ctx ctx).region.priority ≤ (s.ctx d).region.priority))
  .next (if above.contains ctx && low && starved s ctx then requestCrew s ctx else s)

/-! ### Saved tasks -/

/-- Restore the other members of a crew on the first contexts of a cluster that fit; none where one has no place. -/
def restoreCrew (cl : Nat) : List Saved → State → Option State
  | [], s => some s
  | v :: vs, s => match ((coresOf cl).flatMap ctxsOf).find? (fun c => schedulable s v c) with
    | none => none
    | some c => restoreCrew cl vs (restoreTask s v c)

/-- Start the trap handler of a saved frozen task on another core (R107). -/
def startRemoteHandler (s : State) (v : Saved) (c : Nat) : State :=
  let npc := match savedImage s v with
    | .ok (bs, _) => fieldW bs 0x10
    | .error _ => 0
  let args := [BitVec.ofNat 64 v.num, v.cause.setWidth 64, v.epc, v.tval, npc]
  let s1 := s.updCtx c (fun o => handlerCtx o s.nextId v.region (.remoteHandler v.id) true v.region.trapEntry args)
  { s1 with
    nextId := s.nextId + 1
    saved := s1.saved.map (fun (u : Saved) => if u.id == v.id then { u with handler := some c, needHandler := false } else u) }

/-- SAVED_TASK_RESTORE: the scheduler restores a saved task, in priority order, where it fits (R365), a crew as a whole
(R291); or starts the handler that a saved frozen task needs, on another core (R107). -/
def execSavedTaskRestore (task ctx : Nat) (s : State) : Host.Outcome State Fault Refusal :=
  match s.savedTask task with
  | none => .next s
  | some v =>
    if v.needHandler then
      if ctxValid ctx && (s.ctx ctx).run == .dormant && coreOf ctx != v.core && canStart s (coreOf ctx) 64 0 v.region then
        .next (startRemoteHandler s v ctx)
      else .next s
    else if !restoreTurn s v ctx then .next s
    else
      let s1 := restoreTask s v ctx
      .next ((restoreCrew (clusterOf ctx) ((savedCrew s v).drop 1) s1).getD s)

end Sys2Proof.Machine
end

