-- ==== Sys2Proof/Machine/Frames.lean ====
section
/-! DEFINITION. KV frames: the buddy allocator (R332), extents (R333, R335), copy-on-write (R337, R338), and the addresses of
positions and tree slots (R331, R334, R336). -/

namespace Sys2Proof.Machine

/-! ### The allocator -/

/-- The free list of an order, rising. -/
def freeList (s : State) (o : Nat) : List Nat := Map.get [] s.free o
def setFreeList (s : State) (o : Nat) (l : List Nat) : State := { s with free := Map.set [] s.free o l }

/-- Insert a block into a rising list. -/
def insertBlock (b : Nat) : List Nat → List Nat
  | [] => [b]
  | c :: cs => if b < c then b :: c :: cs else if b = c then c :: cs else c :: insertBlock b cs

/-- Split a block of order o down to order w, keeping the lower half and listing each upper half (R332). Recursion is on the
orders between. -/
def splitDown (b w : Nat) : Nat → State → State
  | 0, s => s
  | n + 1, s => splitDown b w n (setFreeList s (w + n) (insertBlock (b + 2 ^ (w + n)) (freeList s (w + n))))

/-- Allocate order o: the lowest block of the smallest order that has one (R332). -/
def allocBlock (s : State) (o : Nat) : Option (Nat × State) :=
  match ((List.range 11).filter (fun p => o ≤ p)).find? (fun p => !(freeList s p).isEmpty) with
  | none => none
  | some p => match freeList s p with
    | [] => none
    | b :: bs => some (b, splitDown b o (p - o) (setFreeList s p bs))

/-- The buddy of a block. -/
def buddy (b o : Nat) : Nat := if b / 2 ^ o % 2 = 0 then b + 2 ^ o else b - 2 ^ o

/-- List a block and merge it with its buddy while that is free at the same order (R332). Recursion is on the orders left. -/
def mergeUp : Nat → State → Nat → Nat → State
  | 0, s, b, o => setFreeList s o (insertBlock b (freeList s o))
  | n + 1, s, b, o =>
    if (freeList s o).contains (buddy b o) then
      mergeUp n (setFreeList s o ((freeList s o).filter (· != buddy b o))) (min b (buddy b o)) (o + 1)
    else setFreeList s o (insertBlock b (freeList s o))

/-- Free one frame. -/
def freeFrame (s : State) (f : Nat) : State := mergeUp 10 s f 0

def frameOf (s : State) (f : Nat) : Frame := Map.get {} s.frames f
def updFrame (s : State) (f : Nat) (g : Frame → Frame) : State := { s with frames := Map.upd {} s.frames f g }

/-- A frame whose count, bind count and reserved flag are all zero returns to the allocator (R332, R338). -/
def reclaim (s : State) (f : Nat) : State :=
  let x := frameOf s f
  if x.count = 0 && x.bind = 0 && !x.resv then freeFrame (updFrame s f (fun _ => {})) f else s

/-- One use of a frame ends (R338). -/
def dropUse (s : State) (f : Nat) : State := reclaim (updFrame s f (fun x => { x with count := x.count - 1 })) f

/-- A reserved frame is given up. -/
def unreserve (s : State) (f : Nat) : State := reclaim (updFrame s f (fun x => { x with resv := false })) f

/-- Allocate a block of order o with its frames marked reserved. -/
def allocReserved (s : State) (o : Nat) : Option (Nat × State) :=
  (allocBlock s o).map (fun (b, s) =>
    (b, (List.range (2 ^ o)).foldl (fun s i => updFrame s (b + i) (fun x => { x with resv := true })) s))

/-! ### Extents -/

namespace Extent

/-- Frame i of an extent, and all of them (R333). -/
def frame (e : Extent) (i : Nat) : Nat := e.base + i * e.stride
def frames (e : Extent) : List Nat := (List.range e.len).map e.frame
/-- The frames that it reserves. -/
def reserved (e : Extent) : List Nat := (List.range e.reserve).map (fun i => e.base + e.len + i)

/-- The extent's word (R333). -/
def word (e : Extent) : Word := BitVec.ofNat 64 (e.base * 2 ^ 44 + e.len * 2 ^ 24 + e.reserve * 2 ^ 12 + e.stride)

end Extent

/-- A sequence's frames in page order, and the number of pages held (R333). -/
def pageFrames (l : List Extent) : List Nat := l.flatMap Extent.frames
def pagesHeld (l : List Extent) : Nat := (l.map (·.len)).sum
/-- The frame of a page. -/
def pageFrame (l : List Extent) (page : Nat) : Option Nat := (pageFrames l)[page]?

/-- Why the manager cannot go on: its extents or its frames are exhausted (R335, R337), or a copy faults. -/
inductive KvFail
  | extents | frames
  /-- a copy is held by a conversion (R417) -/
  | held
  | fault (cause : BitVec 8) (addr : Word)
  deriving DecidableEq, Repr

/-- log2 of a number, rounded down. -/
def floorLog2 (n : Nat) : Nat := Nat.log2 (max 1 n)

/-- Obtain the next page (R335): the new extents. -/
def obtainPage (s : State) (l : List Extent) : Except KvFail (List Extent × State) :=
  let start := fun (s : State) (f : Nat) =>
    updFrame s f (fun x => { x with count := 1, resv := false, fmt := s.geom.fmt })
  match l.getLast? with
  | some e =>
    if 0 < e.reserve then
      .ok (l.dropLast ++ [{ e with len := e.len + 1, reserve := e.reserve - 1 }], start s (e.base + e.len))
    else more s (some e) start
  | none => more s none start
where
  more (s : State) (last : Option Extent) (start : State → Nat → State) : Except KvFail (List Extent × State) :=
    let o := min 10 (floorLog2 (pagesHeld l))
    let here := ((List.range (o + 1)).reverse).find? (fun p => !(freeList s p).isEmpty)
    let o' := here.getD o
    match allocReserved s o' with
    | none => .error .frames
    | some (b, s) =>
      let new : Extent :=
        { base := b
          len := 1
          reserve := 2 ^ o' - 1
          stride := 1 }
      match last with
      | some e =>
        if e.stride = 1 && e.base + e.len + e.reserve = b then
          .ok (l.dropLast ++ [{ e with len := e.len + 1, reserve := 2 ^ o' - 1 }], start s b)
        else if 16 ≤ l.length then .error .extents
        else .ok (l ++ [new], start s b)
      | none => .ok ([new], start s b)

/-- Put an extent after others, joined to the last of them where it follows on it (R337). -/
def joinExtent (before : List Extent) (e : Extent) : List Extent :=
  match before.getLast? with
  | some p => if p.stride = 1 && p.reserve = 0 && p.base + p.len = e.base then
      before.dropLast ++ [{ p with len := p.len + e.len }] else before ++ [e]
  | none => [e]

/-- Replace the frame of a page by another (R337): the extents, and the reserved frames that the split strands. -/
def replacePage (l : List Extent) (page g : Nat) : List Extent × List Nat := go [] l page
where
  go (done : List Extent) : List Extent → Nat → List Extent × List Nat
    | [], _ => (done, [])
    | e :: es, n =>
      if e.len ≤ n then go (done ++ [e]) es (n - e.len)
      else
        let before := if n = 0 then done else done ++ [{ e with len := n, reserve := 0 }]
        let mid := joinExtent before { base := g, len := 1, reserve := 0, stride := 1 }
        if n + 1 < e.len then
          (mid ++ [{ e with base := e.frame (n + 1), len := e.len - n - 1 }] ++ es, [])
        else (mid ++ es, e.reserved)

/-! ### KV memory -/

/-- The address of a token row: frame, layer and position within the frame, on a die (R331, R336). -/
def rowVa (g : KvGeom) (die f layer pos : Nat) : Nat :=
  (g.pool.getD die 0).toNat + f * g.fb + layer * g.lb + pos * g.tb

/-- The writer of the manager's copies for a context: the compaction engine of a die, with a release at package scope (R337,
R318). -/
def copyWriter (s : State) (c : Nat) (die : Nat) : Writer :=
  ⟨1, engineIdent (.compact die), s.pkg, some (BitVec.ofNat 16 c, (s.ctx c).interval, 3)⟩

/-- Move one token row on a die through a function of its bytes; a copy keeps them. -/
def moveRow (sp : Space) (w : Writer) (die src dst n : Nat) (f : List Byte → List Byte) (s : State) : Except RowStop State :=
  match rowRead s (dieView sp die) (BitVec.ofNat 64 src) n with
  | .error e => .error e
  | .ok (bs, s) => rowWrite s (dieView sp die) w (BitVec.ofNat 64 dst) (f bs)

/-- Move rows in order: every row is a die, a source and a destination. A fault keeps the rows already moved, and is known
with its die. -/
def moveRows (sp : Space) (w : Nat → Writer) (n : Nat) (f : List Byte → List Byte) :
    List (Nat × Nat × Nat) → State → State × Option (Nat × RowStop)
  | [], s => (s, none)
  | (d, a, b) :: l, s => match moveRow sp (w d) d a b n f s with
    | .error e => (s, some (d, e))
    | .ok s => moveRows sp w n f l s

/-- A stopped copy as a failure of the manager. -/
def RowStop.fail : RowStop → KvFail
  | .held => .held
  | .fault c t => .fault c t

/-- The rows of a copy of positions from one frame to another, on every die and for every layer. -/
def frameRows (g : KvGeom) (f h : Nat) (positions : List Nat) : List (Nat × Nat × Nat) :=
  (List.range 8).flatMap (fun d => (List.range g.layers).flatMap (fun l =>
    positions.map (fun j => (d, rowVa g d f l j, rowVa g d h l j))))

/-- One page of KVAPPEND (R337): obtained, copied when it is shared, or left. -/
def appendPage (sp : Space) (ctx c : Nat) (s : State) (l : List Extent) (page : Nat) :
    Except (KvFail × State) (List Extent × State) :=
  match pageFrame l page with
  | none => match obtainPage s l with
    | .error e => .error (e, s)
    | .ok r => .ok r
  | some f =>
    if (frameOf s f).count ≤ 1 then .ok (l, s)
    else match allocBlock s 0 with
      | none => .error (.frames, s)
      | some (g, s) =>
        let rows := frameRows s.geom f g ((List.range 16).filter (fun j => decide (page * 16 + j < c)))
        match moveRows sp (copyWriter s ctx) s.geom.tb id rows s with
        | (s, some (_, e)) => .error (e.fail, s)
        | (s, none) =>
          let (l', stranded) := replacePage l page g
          if 16 < l'.length then .error (.extents, s)
          else
            let fmt := (frameOf s f).fmt
            let s := updFrame s f (fun x => { x with count := x.count - 1 })
            let s := updFrame s g (fun x => { x with count := 1, fmt := fmt })
            .ok (l', stranded.foldl unreserve s)

/-- Every page of a list of pages, in order. -/
def appendPages (sp : Space) (ctx c : Nat) : List Nat → State → List Extent → Except (KvFail × State) (List Extent × State)
  | [], s, l => .ok (l, s)
  | p :: ps, s, l => match appendPage sp ctx c s l p with
    | .error e => .error e
    | .ok (l, s) => appendPages sp ctx c ps s l

/-- What a failure leaves: exhaustion leaves everything as it was, a fault of a copy leaves the rows already copied in the frames
that are free again (R337). -/
def KvFail.undo (e : KvFail) (s t : State) : State :=
  match e with
  | .fault _ _ => { t with frames := s.frames, free := s.free }
  | _ => s

/-- Make positions [c, c + n) writable (R337): the new extents. On a failure every table is as it was. -/
def appendRange (sp : Space) (ctx : Nat) (s : State) (l : List Extent) (c n : Nat) : Except (KvFail × State) (List Extent × State) :=
  let pages := if n = 0 then [] else (List.range ((c + n - 1) / 16 - c / 16 + 1)).map (fun i => c / 16 + i)
  match appendPages sp ctx c pages s l with
  | .error (e, t) => .error (e, e.undo s t)
  | .ok r => .ok r

end Sys2Proof.Machine
end

