-- ==== Sys2Proof/Machine/Seq.lean ====
section
/-! DEFINITION. The sequence manager: creation, fork and release of sequences (R328, R339, R340), trees and acceptance (R341,
R342), pre-emption (R351), cohorts (R348, R349), SQSTAT (R355) and followers (R330). -/

namespace Sys2Proof.Machine

/-! ### Requests and their results -/

/-- What a request lands on k-dst, and the state after it. -/
abbrev Reply := Word × State

/-- The refusal word of R326. -/
def refusal (reason : Nat) : Word := BitVec.ofNat 64 (2 ^ 63 + reason * 2 ^ 56)

/-- A refusal with an outside trap to the issuing context (R326). -/
def refuseTrap (s : State) (c : Nat) (cause : BitVec 8) (tval : Word) : Reply := (refusal 13, trapOutside s c cause tval)

/-- The members of a cohort. -/
def cohortMembers (s : State) (n : Nat) : List Seq := (s.seqs.map (·.2)).filter (fun q => q.cohort == some n)

/-- Whether a cohort is in its check phase: its counter, as it is translated now, is odd (R348). -/
def checkPhase (s : State) (n : Nat) : Bool :=
  match Map.find? s.cohorts n with
  | some k => match translateCounter s (packageView k.region.space) k.ctrVa .counterRead with
    | .ok (pa, s) => s.counter pa % 2 == 1
    | .error _ => false
  | none => false

/-- The condition of R348 is evaluated: the cohort's counter moves when every member that is neither saved nor stopped is in
tree, in a draft phase, or idle, in a check phase. -/
def moveCohort (s : State) (n : Nat) : State :=
  match Map.find? s.cohorts n with
  | none => s
  | some k =>
    let live := (cohortMembers s n).filter (fun q => q.st != 6 && q.st != 7)
    let want := if checkPhase s n then 1 else 2
    if live.isEmpty || !live.all (fun q => q.st == want) then s
    else packageAdd s k.region k.ctrVa 1 none (some (0, 0))

/-- The sequence manager's table. -/
def State.seq? (s : State) (id : Nat) : Option Seq := Map.find? s.seqs id
def putSeq (s : State) (id : Nat) (q : Seq) : State := { s with seqs := Map.put s.seqs id q }

/-- A sequence changes other than by a request on it: its new entry, and its cohort's condition. -/
def settleSeq (s : State) (id : Nat) (q : Seq) : State :=
  match q.cohort with
  | some n => moveCohort (putSeq s id q) n
  | none => putSeq s id q

/-- The cohorts that a request concerns: of the sequence it names and of those it has created (R348). -/
def cohortsOf (s t : State) (id : Option Nat) : List Nat :=
  (t.seqs.filterMap (fun (i, q) => if some i = id || (s.seq? i).isNone then q.cohort else none)).eraseDups

/-- A request leaves its core after a release of every earlier access, and lands k-dst, scoreboarded (R324, R74), now or
once its delivery is acknowledged (R346). The requests on one sequence, `id` among them, are performed one at a time: one
waits while a delivery is in progress on its sequence (R325), and is not ready while a conversion holds it (R417). The
condition of R348 is evaluated after every request on a member. -/
def requestOr (dst : BitVec 5) (id : State → Option Nat) (f : State → Nat → Option (Option Word × State)) : M Unit := do
  let s ← get
  if releasable s s.issue.ctx (s.issue.seq * 8) then flushOwn else notReady
  let s ← get
  if ((id s).map s.seqBusy).getD false then notReady else pure ()
  match f s s.issue.ctx with
  | none => notReady
  | some (w, t) => do
    set ((cohortsOf s t (id s)).foldl moveCohort t)
    pendResult [(fK, dst.toNat)] (w.map (fun w => ([w.setWidth 2048], none)))

/-- A request whose result is known at once. -/
def request (dst : BitVec 5) (id : Option Nat) (f : State → Nat → Reply) : M Unit :=
  requestOr dst (fun _ => id) (fun s c => some (some (f s c).1, (f s c).2))

/-- An operand that is the address of a 64-byte aligned record (R323). -/
def readRecAddr (k : BitVec 5) : M Word := do
  let a ← readK k
  need (a.toNat % 64 == 0) 0x03 a
  pure a

/-- The address space of a context, as the manager uses it (R324). -/
def reqSpace (s : State) (c : Nat) : Space := (s.ctx c).region.space

/-- The sequence with an id, when the issuing region may name it; `k1` is k-src1 (R326). A refusal answers through `up`. -/
def withId {α : Type} (up : Reply → α) (s : State) (c id : Nat) (k1 : Word) (f : Seq → α) : α :=
  if 2 ^ 15 ≤ id then up (refuseTrap s c 0x05 k1)
  else match s.seq? id with
    | none => up (refusal 1, s)
    | some q => if inSubtree q.region (s.ctx c).region then f q else up (refuseTrap s c 0x05 k1)

/-- The sequence that k-src1 names. -/
def withSeq (s : State) (c : Nat) (kid : Word) (f : Nat → Seq → Reply) : Reply :=
  withId (fun r => r) s c kid.toNat kid (f kid.toNat)

/-- The reason with which a request in a state of its sequence is refused: of a follower, where only a home takes it (R330),
or outside the states that accept it (R329). -/
def stateRefusal (q : Seq) (states : List Nat) (home : Bool) : Option Nat :=
  if home && q.follower then some 10
  else if states.contains q.st then none
  else some (if q.st = 7 then 6 else 2)

/-- A request that its sequence's state accepts. -/
def inStates (s : State) (q : Seq) (states : List Nat) (home : Bool) (r : Reply) : Reply :=
  match stateRefusal q states home with
  | some n => (refusal n, s)
  | none => r

/-- A fault of the manager's own access for a context, once a fresh walk has confirmed it (R305), refuses the request with its cause and
address (R324, R326). -/
def refuseFault (s : State) (c : Nat) (cause : BitVec 8) (tval : Word) : Reply :=
  refuseTrap (confirmWalk s (packageView (reqSpace s c)) cause tval.toNat) c cause tval

/-- A read of the manager for a context. -/
def mgrRead (s : State) (c : Nat) (va : Word) (n : Nat) (f : List Byte → State → Reply) : Reply :=
  match readVia s (packageView (reqSpace s c)) va.toNat n with
  | .error (cause, t) => refuseFault s c cause t
  | .ok (bs, s) => f bs s

/-- A write of the manager for a context. -/
def mgrWrite (s0 s : State) (c : Nat) (va : Word) (bs : List Byte) (f : State → Reply) : Reply :=
  match writeVia s (packageView (reqSpace s c)) s.pkgWriter va.toNat bs with
  | .error (cause, t) => refuseFault s0 c cause t
  | .ok s => f s

/-! ### Cohorts (R348, R349) -/

/-- The end of a performed request: its sequence's new entry. -/
def done (s : State) (id : Nat) (q : Seq) (w : Word) : Reply := (w, putSeq s id q)

/-- A sequence leaves its cohort; a cohort without members has no counter. -/
def leaveCohort (s : State) (q : Seq) : State :=
  match q.cohort with
  | none => s
  | some n => if (cohortMembers s n).isEmpty then { s with cohorts := Map.erase s.cohorts n } else moveCohort s n

/-! ### Creation -/

/-- The rules of R328 on a creation record, its pages and its cohort apart. -/
def creationOk (bs : List Byte) : Bool :=
  let id := field bs 0 2
  let rule := bitsAt (field bs 3 1) 0 2
  let cohort := field bs 0xC 2
  (id == 0xFFFF || decide (id < 32768)) && decide (field bs 2 1 < 32) && rule != 3 && decide (field bs 3 1 < 8) &&
    (rule == 2 || zeroField bs 8 4) && (cohort == 0xFFFF || decide (cohort < 64)) && decide (field bs 0xE 1 < 16) &&
    zeroField bs 0xF 1 && (cohort != 0xFFFF || zeroField bs 0x10 8) && zeroField bs 0x1C 4 && field bs 0x40 4 % 64 == 0 &&
    decide (field bs 0x40 4 ≤ 4 * 2 ^ 20) && ringOk (field bs 0x44 4) && field bs 0x48 8 % 8 == 0 && field bs 0x50 8 % 8 == 0 &&
    field bs 0x58 8 % 8 == 0 && field bs 0x60 8 % 64 == 0 && zeroField bs 0x68 24

/-- Whether an address lies in a page of kind 01 that may be written (R301, R328). -/
def hostPage (s : State) (sp : Space) (va : Word) : Option State :=
  let v := packageView sp
  match leafFor s v va.toNat true (kindCheck v 1 false true) with
  | .ok (_, s) => some s
  | .error _ => none

/-- The pages that a creation record names (R328). -/
def creationPages (s : State) (sp : Space) (bs : List Byte) : Option State :=
  (hostPage s sp (fieldW bs 0x48)).bind (fun s => (hostPage s sp (fieldW bs 0x50)).bind (fun s =>
    match translate s (packageView sp) (field bs 0x58 8) .read with
    | .ok (_, _, s) => some s
    | .error _ => none))

/-- The cohort of a creation record: the first member sets its counter, later members name the same one (R348). -/
def joinCohort (s : State) (r : Region) (bs : List Byte) : Option State :=
  let n := field bs 0xC 2
  if n = 0xFFFF then some s
  else match translateCounter s (packageView r.space) (fieldW bs 0x10) .counterAdd with
    | .error _ => none
    | .ok (_, s) => match Map.find? s.cohorts n with
      | none => some { s with cohorts := Map.put s.cohorts n { ctrVa := fieldW bs 0x10, region := r } }
      | some k => if k.ctrVa = fieldW bs 0x10 && (cohortMembers s n).length < 1024 then some s else none

/-- The id that a record asks for, or the lowest free one. -/
def pickId (s : State) (n : Nat) : Option Nat :=
  if n = 0xFFFF then (List.range 32768).find? (fun i => (s.seq? i).isNone)
  else if (s.seq? n).isNone then some n else none

/-- The sequence of a creation record (R328). -/
def seqOf (s : State) (r : Region) (bs : List Byte) (tree : Nat) : Seq :=
  { st := 1
    region := r
    home := field bs 2 1
    follower := field bs 2 1 != s.pkg
    followers := BitVec.ofNat 32 (field bs 4 4)
    rule := bitsAt (field bs 3 1) 0 2
    holdBack := bitAt (field bs 3 1) 2
    theta := BitVec.ofNat 32 (field bs 8 4)
    cohort := if field bs 0xC 2 = 0xFFFF then none else some (field bs 0xC 2)
    priority := field bs 0xE 1
    keyWord := BitVec.ofNat 32 (field bs 0x18 4)
    work := BitVec.ofNat 128 (field bs 0x20 16)
    comm := BitVec.ofNat 128 (field bs 0x20 16)
    stopTab := fieldW bs 0x30
    penalty := fieldW bs 0x38
    penHalf := field bs 0x40 4
    ring := fieldW bs 0x48
    ringSize := field bs 0x44 4
    hostCtr := fieldW bs 0x50
    ack := fieldW bs 0x58
    save := fieldW bs 0x60
    tree := tree }

/-- Create a sequence from a record that has been read: the checks, the id and the tree block (R328, R334, R326). -/
def create (s : State) (c : Nat) (bs : List Byte) (f : Nat → Seq → State → Reply) : Reply :=
  let r := (s.ctx c).region
  if !creationOk bs then (refusal 4, s)
  else match (creationPages s r.space bs).bind (fun t => joinCohort t r bs) with
    | none => (refusal 4, s)
    | some t => match pickId t (field bs 0 2) with
      | none => (refusal 5, s)
      | some id => match allocReserved t 2 with
        | none => refuseTrap s c 0x16 (BitVec.ofNat 64 id)
        | some (b, t) => f id (seqOf t r bs b) t

/-- SQNEW (R328). -/
def execSqnew (dst rec_ : BitVec 5) (s : State) : Host.Outcome State Fault Refusal :=
  runSlot (do
    let a ← readRecAddr rec_
    request dst none (fun s c => mgrRead s c a 128 (fun bs s => create s c bs (fun id q s =>
      done s id q (BitVec.ofNat 64 id))))) s

/-- The penalty block of a child (R339): the bytes of each half. -/
def childHalf (parent : List Byte) (n : Nat) : List Byte := (parent ++ List.replicate n 0).take n

/-- The parent's committed half, as far as a child takes it; a fault refuses the request as from `s0`, without effect (R326). -/
def parentHalf (s0 s : State) (c : Nat) (q : Seq) (n : Nat) (f : List Byte → State → Reply) : Reply :=
  if q.penalty = 0 || n = 0 then f [] s
  else match readVia s (packageView (reqSpace s c)) q.penalty.toNat (min q.penHalf n) with
    | .error (cause, t) => refuseFault s0 c cause t
    | .ok (bs, s) => f bs s

/-- The extents that cover a number of pages, without reserves. -/
def takePages : Nat → List Extent → List Extent
  | _, [] => []
  | n, e :: es => if n = 0 then [] else { e with len := min e.len n, reserve := 0 } :: takePages (n - e.len) es

/-- What a child takes from its parent (R339). -/
def childOf (p child : Seq) (ext : List Extent) : Seq :=
  { child with
    keyWord := p.keyWord
    work := p.comm
    comm := p.comm
    c := p.c
    pendTok := p.pendTok
    extents := ext
    carried := p.carried }

/-- SQFORK (R339). -/
def execSqfork (dst idk rec_ : BitVec 5) (s : State) : Host.Outcome State Fault Refusal :=
  runSlot (do
    let kid ← readK idk
    let a ← readRecAddr rec_
    request dst (some kid.toNat) (fun s0 c => withSeq s0 c kid (fun _ p => mgrRead s0 c a 128 (fun bs s =>
      let ext := takePages ((p.c + 15) / 16) p.extents
      if (pageFrames ext).any (fun f => 65535 ≤ (frameOf s f).count) then (refusal 7, s)
      else create s c bs (fun id q s => parentHalf s0 s c p (if q.penalty = 0 then 0 else q.penHalf) (fun half s =>
        let bytes := if q.penalty = 0 then [] else childHalf half q.penHalf ++ childHalf half q.penHalf
        mgrWrite s0 s c q.penalty bytes (fun s =>
          let s := (pageFrames ext).foldl (fun s f => updFrame s f (fun x => { x with count := x.count + 1 })) s
          done s id (childOf p q ext) (BitVec.ofNat 64 id))))))) ) s

/-- Whether a requantisation of a sequence is in flight. -/
def requanting (s : State) (id : Nat) : Bool := s.kvJobs.any (fun j => j.id == id && j.cmd.form == 0x29)

/-- The frames of a sequence return to the allocator (R338, R340). -/
def dropFrames (s : State) (q : Seq) : State :=
  let s := (pageFrames q.extents).foldl dropUse s
  let s := (q.extents.flatMap Extent.reserved).foldl unreserve s
  (List.range 4).foldl (fun s i => unreserve s (q.tree + i)) s

/-- SQFREE (R340): performed after every request in flight on the sequence, a requantisation among them (R325); a sequence that
is compacting refuses it (R329). -/
def execSqfree (dst idk : BitVec 5) (s : State) : Host.Outcome State Fault Refusal :=
  runSlot (do
    let kid ← readK idk
    let s ← get
    if requanting s kid.toNat then notReady else pure ()
    request dst (some kid.toNat) (fun s c => withSeq s c kid (fun id q => inStates s q [1, 2, 3, 5, 6, 7] false
      (0, leaveCohort { dropFrames s q with seqs := Map.erase s.seqs id } q)))) s

/-! ### Trees -/

/-- Node i of a tree in memory (R341). -/
def nodeOf (bs : List Byte) (i : Nat) : Node :=
  { token := BitVec.ofNat 24 (field bs (16 * i) 4)
    parent := field bs (16 * i + 4) 1
    depth := field bs (16 * i + 5) 1
    given := bitAt (field bs (16 * i + 6) 1) 0
    q := BitVec.ofNat 32 (field bs (16 * i + 8) 4) }

def nodesOf (bs : List Byte) (m : Nat) : List Node := (List.range m).map (nodeOf bs)

/-- The bytes of a node (R341). -/
def Node.bytes (n : Node) : List Byte :=
  leBytes 4 n.token.toNat ++ leBytes 1 n.parent ++ leBytes 1 n.depth ++ leBytes 1 (b2n n.given) ++ leBytes 1 0 ++
    leBytes 4 n.q.toNat ++ leBytes 4 0

/-- The rules of R341 on the nodes of a record, against the pending token. -/
def treeOk (bs : List Byte) (m : Nat) (pend : Option (BitVec 24)) : Bool :=
  let l := nodesOf bs m
  decide (1 ≤ m) && decide (m ≤ 64) &&
    l.zipIdx.all (fun (n, i) => zeroField bs (16 * i + 3) 1 && decide (field bs (16 * i + 6) 1 < 2) && zeroField bs (16 * i + 7) 1 &&
      zeroField bs (16 * i + 12) 4 &&
      (if n.parent = 0xFF then n.depth == 1 else
        decide (n.parent < i) && n.depth == ((l[n.parent]?).map (·.depth)).getD 0 + 1) &&
      (!n.given || (i == 0 && n.parent == 0xFF))) &&
    (match l.head?, pend with
    | some n, some t => n.given && n.token == t
    | some n, none => !n.given
    | none, _ => false)

/-- SQTREE (R341, R348). -/
def execSqtree (dst idk rec_ : BitVec 5) (s : State) : Host.Outcome State Fault Refusal :=
  runSlot (do
    let kid ← readK idk
    let a ← readRecAddr rec_
    request dst (some kid.toNat) (fun s c => withSeq s c kid (fun id q => inStates s q [1, 2, 3] true
      (if (q.cohort.map (checkPhase s)).getD false then (refusal 9, s)
      else mgrRead s c a 16 (fun h s =>
        let m := field h 0 1
        if m = 0 || 64 < m || !zeroField h 1 15 then (refusal 3, s)
        else mgrRead s c (a + 16) (16 * m) (fun bs s =>
          if treeOk bs m q.pendTok then done s id { q with st := 2, nodes := nodesOf bs m, acc := none } 0
          else (refusal 3, s))))))) s

/-! ### Acceptance (R342) -/

/-- The score, and the fallback token, of an entry of an acceptance table. -/
def scoreOf (bs : List Byte) (j : Nat) : FVal := FFmt.fp32.decode (field bs (16 * j) 4)
def fallbackOf (bs : List Byte) (j : Nat) : BitVec 24 := BitVec.ofNat 24 (field bs (16 * j + 4) 4)

/-- Whether a stream word lies below a score times 2^32. -/
def wordBelow (u : Nat) : FVal → Bool
  | .nan _ => false
  | .inf neg => !neg
  | .num true _ _ => false
  | .num false m e => if 0 ≤ e + 32 then decide (u < m * 2 ^ (e + 32).toNat) else decide (u * 2 ^ (-(e + 32)).toNat < m)

/-- The walk of R342 over the children of one context: the child accepted, if any, and the words drawn. -/
def tryChildren (q : Seq) (key : Nat) (bs : List Byte) (ctx : Nat) : List (Node × Nat) → Nat → Option Nat × Nat
  | [], w => (none, w)
  | (n, i) :: l, w =>
    match q.rule with
    | 0 => if n.token = fallbackOf bs ctx then (some i, w) else tryChildren q key bs ctx l w
    | 1 =>
      if wordBelow (streamWord key q.work.toNat w) (scoreOf bs i) then (some i, w + 1)
      else tryChildren q key bs ctx l (w + 1)
    | _ =>
      let th := FFmt.fp32.decode q.theta.toNat
      if !(scoreOf bs i).isNan && !th.isNan && !fLt (scoreOf bs i) th then (some i, w) else tryChildren q key bs ctx l w

/-- The children of a context in node order: 64 is the committed context. -/
def childrenOf (q : Seq) (ctx : Nat) : List (Node × Nat) :=
  q.nodes.zipIdx.filter (fun (n, _) => if ctx = 64 then n.parent == 0xFF else n.parent == ctx)

/-- The walk from a context: path, correction and words drawn. Recursion is on the nodes that can still join the path. -/
def walkTree (q : Seq) (key : Nat) (bs : List Byte) : Nat → Nat → List Nat → Nat → List Nat × BitVec 24 × Nat
  | 0, ctx, path, w => (path, fallbackOf bs ctx, w)
  | fuel + 1, ctx, path, w =>
    match tryChildren q key bs ctx (childrenOf q ctx) w with
    | (none, w) => (path, fallbackOf bs ctx, w)
    | (some i, w) => walkTree q key bs fuel i (path ++ [i]) w

/-- The key of a sequence's stream: its key word and its id (R328). -/
def seqKey (q : Seq) (id : Nat) : Nat := q.keyWord.toNat + id * 2 ^ 32

/-- The result word of SQACC (R342). -/
def accWord (path : List Nat) (corr : BitVec 24) (words : Nat) : Word :=
  BitVec.ofNat 64 (path.length * 2 ^ 48 + corr.toNat * 2 ^ 24 + path.getLast?.getD 0x7F * 2 ^ 16 + words)

/-- The walk of a tree with a table (R342). -/
def acceptWalk (q : Seq) (id : Nat) (bs : List Byte) : List Nat × BitVec 24 × Nat :=
  if (q.nodes.head?.map (·.given)).getD false then walkTree q (seqKey q id) bs 64 0 [0] 0
  else walkTree q (seqKey q id) bs 64 64 [] 0

/-- The other packages of a follower mask. -/
def followerPkgs (s : State) (q : Seq) : List Nat := (List.range 32).filter (fun j => q.followers.getLsbD j && j != s.pkg)

/-- Send a message of a home to its followers (R330). -/
def toFollowers (s : State) (id : Nat) (q : Seq) (m : FollowMsg) : State :=
  { s with followerOut := s.followerOut ++ (followerPkgs s q).map (fun j => (j, id, m)) }

/-- SQACC (R342). -/
def execSqacc (dst idk tab : BitVec 5) (s : State) : Host.Outcome State Fault Refusal :=
  runSlot (do
    let kid ← readK idk
    let a ← readRecAddr tab
    request dst (some kid.toNat) (fun s c => withSeq s c kid (fun id q => inStates s q [2] true
      (if (q.cohort.map (fun n => !checkPhase s n)).getD false then (refusal 9, s)
      else if a = 0 then (refusal 12, s)
      else mgrRead s c a 1040 (fun bs s =>
        let (path, corr, words) := acceptWalk q id bs
        let w := accWord path corr words
        let q := { q with
          st := 3
          work := q.work + BitVec.ofNat 128 ((words + 3) / 4)
          acc := some { path := path, correction := corr, result := w, table := a }
          lastAcc := w }
        done (toFollowers s id q (.accept w path corr q.work)) id q w))))) s

/-! ### Pre-emption (R351) -/

/-- The bytes of the save area, the table apart (R351). -/
def saveHead (q : Seq) : List Byte :=
  let res := match q.acc with | some a => if q.st = 3 then a.result.toNat else 0 | none => 0
  let tab := match q.acc with | some a => if q.st = 3 then a.table.toNat else 0 | none => 0
  leBytes 1 q.st ++ leBytes 1 q.nodes.length ++ leBytes 6 0 ++ leBytes 16 q.work.toNat ++ leBytes 8 res ++ leBytes 8 tab ++
    leBytes 24 0 ++ fixLen 1024 (q.nodes.flatMap Node.bytes)

/-- SQPREEMPT: writes the save area; the tree and the acceptance leave the manager with it (R351). -/
def execSqpreempt (dst idk : BitVec 5) (s : State) : Host.Outcome State Fault Refusal :=
  runSlot (do
    let kid ← readK idk
    request dst (some kid.toNat) (fun s0 c => withSeq s0 c kid (fun id q => inStates s0 q [1, 2, 3] true
      (let put := fun (table : List Byte) (s : State) => mgrWrite s0 s c q.save (saveHead q ++ table) (fun s =>
        done s id { q with st := 6, nodes := [], acc := none } 0)
      match q.acc with
      | some a => if q.st = 3 then mgrRead s0 c a.table 1040 put else put (leBytes 1040 0) s0
      | none => put (leBytes 1040 0) s0)))) s

/-- The path from the root of a tree to a node. Recursion is on the depth left. -/
def pathTo (l : List Node) : Nat → Nat → List Nat
  | 0, i => [i]
  | fuel + 1, i => match l[i]? with
    | some n => if n.parent = 0xFF then [i] else pathTo l fuel n.parent ++ [i]
    | none => [i]

/-- The checks of R351 on a save area. -/
def saveOk (bs : List Byte) (pend : Option (BitVec 24)) : Bool :=
  let st := field bs 0 1
  let m := field bs 1 1
  let w := field bs 0x18 8
  let n := bitsAt w 48 8
  let last := bitsAt w 16 7
  (st == 1 || st == 2 || st == 3) &&
    (if st = 1 then m == 0 else treeOk (bs.drop 0x40) m pend) &&
    (st != 3 || (bitsAt w 56 8 == 0 && bitsAt w 23 1 == 0 && decide (n ≤ m) &&
      (if n = 0 then last == 0x7F else decide (last < m)) && field bs 0x20 8 != 0))

/-- The sequence as a save area restores it (R351); the table now stands at `table`. -/
def resumed (q : Seq) (bs : List Byte) (table : Word) : Seq :=
  let st := field bs 0 1
  let nodes := nodesOf (bs.drop 0x40) (field bs 1 1)
  let w := field bs 0x18 8
  let acc : Accept :=
    { path := if bitsAt w 48 8 = 0 then [] else pathTo nodes 64 (bitsAt w 16 7)
      correction := BitVec.ofNat 24 (bitsAt w 24 24)
      result := BitVec.ofNat 64 w
      table := table }
  { q with
    st := st
    nodes := nodes
    work := BitVec.ofNat 128 (field bs 8 16)
    acc := if st = 3 then some acc else none }

/-- SQRESUME (R351). -/
def execSqresume (dst idk tab : BitVec 5) (s : State) : Host.Outcome State Fault Refusal :=
  runSlot (do
    let kid ← readK idk
    let t ← readRecAddr tab
    request dst (some kid.toNat) (fun s0 c => withSeq s0 c kid (fun id q => inStates s0 q [6] true
      (mgrRead s0 c q.save 2128 (fun bs s =>
        if !saveOk bs q.pendTok then (refusal 3, s)
        else
          let table := if t = 0 then fieldW bs 0x20 else t
          let fin := fun (s : State) => done s id (resumed q bs table) 0
          if table = 0 then fin s else mgrWrite s0 s c table ((bs.drop 0x440).take 1040) fin))))) s

/-! ### SQREWIND and SQSTAT -/

/-- SQREWIND (R347). -/
def execSqrewind (dst idk n : BitVec 5) (s : State) : Host.Outcome State Fault Refusal :=
  runSlot (do
    let kid ← readK idk
    let r ← readK n
    request dst (some kid.toNat) (fun s c => withSeq s c kid (fun id q => inStates s q [1, 7] true
      (mgrRead s c q.ack 8 (fun bs s =>
        let a := leNat bs
        let c' := max (q.c - r.toNat) a
        let low := decide ((q.c : Int) - (r.toNat : Int) < (a : Int))
        done s id { q with
          st := 1
          c := c'
          ackRead := BitVec.ofNat 64 a
          pendTok := none
          carried := [] } (BitVec.ofNat 64 ((if low then 11 * 2 ^ 56 else 0) + c' % 2 ^ 32))))))) s

/-- The value that a selector of SQSTAT names (R355). -/
def statOf (q : Seq) (sel : Nat) : Word :=
  match sel with
  | 0 => BitVec.ofNat 64 (q.st * 2 ^ 61 + q.cohort.getD 0 * 2 ^ 55 + q.priority * 2 ^ 51 + q.home * 2 ^ 46 +
      b2n q.follower * 2 ^ 45 + q.rule * 2 ^ 43 + b2n q.holdBack * 2 ^ 42 + b2n q.cohort.isSome * 2 ^ 41 + pagesHeld q.extents)
  | 1 => BitVec.ofNat 64 q.c
  | 2 => match q.pendTok with | some t => BitVec.ofNat 64 (2 ^ 63 + t.toNat) | none => 0
  | 3 => q.work.setWidth 64
  | 4 => (q.work >>> 64).setWidth 64
  | 5 => q.comm.setWidth 64
  | 6 => (q.comm >>> 64).setWidth 64
  | 7 => q.lastAcc
  | 8 => BitVec.ofNat 64 q.extents.length
  | 9 => BitVec.ofNat 64 q.tree
  | 10 => q.ackRead
  | 11 => BitVec.ofNat 64 q.delivered
  | n => if n < 16 then 0 else ((q.extents[n - 16]?).map Extent.word).getD 0

/-- SQSTAT (R355). -/
def execSqstat (dst idk : BitVec 5) (sel : BitVec 5) (s : State) : Host.Outcome State Fault Refusal :=
  runSlot (do
    let kid ← readK idk
    request dst (some kid.toNat) (fun s c => withSeq s c kid (fun _ q => (statOf q sel.toNat, s)))) s

/-! ### Commits, as a home and its followers make them -/

/-- The copy of the penalty block's working half to its committed half (R344). -/
def commitPenalty (s : State) (sp : Space) (q : Seq) : Except (BitVec 8 × Word) State :=
  if q.penalty = 0 then .ok s
  else match readVia s (packageView sp) (q.penalty.toNat + q.penHalf) q.penHalf with
    | .error e => .error e
    | .ok (bs, s) => writeVia s (packageView sp) s.pkgWriter q.penalty.toNat bs

/-- The sequence after a commit of `n` positions (R344): `acc` in the speculative form. -/
def committed (q : Seq) (n : Nat) (tok : Option (BitVec 24)) (stopped : Bool) (acc : Bool) : Seq :=
  let q := { q with st := if stopped then 7 else 1, c := q.c + n, pendTok := tok.or q.pendTok }
  if acc then { q with comm := q.work, nodes := [], acc := none } else q

/-! ### What a follower has received (R330) -/

/-- A commit on a follower: the transition of the home's, with its own penalty block and no delivery (R330, R344). A fault of
the penalty copy is reported to the region. -/
def followCommit (s : State) (id : Nat) (q : Seq) : State :=
  match commitPenalty s q.region.space q with
  | .ok s => settleSeq s id q
  | .error (c, t) => faultRecord (confirmWalk (settleSeq s id q) (packageView q.region.space) c t.toNat) q.region 2 c 0 0 t

/-- Apply one message of a home, when the follower's state admits it: an acceptance takes the place of SQACC wherever the home
can have accepted again, a commit follows the follower's own compaction, and a direct commit is performed on an idle one (R330,
R342, R344). -/
def followOne (s : State) (id : Nat) (q : Seq) : FollowMsg → Option State
  | .accept w path corr ctr =>
    if [1, 2, 3, 5].contains q.st then
      let a : Accept :=
        { path := path
          correction := corr
          result := w
          table := 0 }
      some (settleSeq s id { q with st := 3, acc := some a, lastAcc := w, work := ctr })
    else none
  | .commit n stopped => match q.acc with
    | some a =>
      if q.st ≠ 5 then none
      else some (followCommit s id
        { committed q a.path.length (some a.correction) stopped true with delivered := (q.delivered + n) % 2 ^ 64 })
    | none => none
  | .commitDirect n tok stopped =>
    if q.st ≠ 1 then none
    else
      let n' := if tok.isSome then 1 else 0
      some (settleSeq s id { committed q n tok stopped false with delivered := (q.delivered + n') % 2 ^ 64 })

/-- Apply what a follower has received, in the home's order, as far as its state admits. Recursion is on the messages. -/
def followAll (id : Nat) : List FollowMsg → State → State
  | [], s => s
  | m :: ms, s => match s.seq? id with
    | none => s
    | some q => match followOne s id { q with inbox := ms } m with
      | none => s
      | some s => followAll id ms s

/-- Apply the inbox of a follower. -/
def follow (s : State) (id : Nat) : State := followAll id (((s.seq? id).map (·.inbox)).getD []) s

end Sys2Proof.Machine
end

