-- ==== Sys2Proof/Machine/Kv.lean ====
section
/-! DEFINITION. The KV forms of the sequence manager (R336, R337, R343, R353, R354) and what ends them: the last die's compaction
copies, and the switch of a requantisation. -/

namespace Sys2Proof.Machine

/-! ### KVMAP -/

/-- A request's answer when its result is known. -/
def now (r : Reply) : Option (Option Word × State) := some (some r.1, r.2)

/-- Only contexts of the geometry's ASID issue KV forms; any other gets the permission fault of R326 (R331). -/
def kvAsid {α : Type} (up : Reply → α) (s : State) (c : Nat) (k1 : Word) (f : α) : α :=
  if (s.ctx c).region.space.asid = s.geom.asid then f else up (refuseTrap s c 0x05 k1)

/-- The frame and the position in it that KVMAP names: of a position of the sequence, or of a tree slot (R334, R336). -/
def kvPlace (g : KvGeom) (q : Seq) (slot : Bool) (x layer : Nat) : Option (Nat × Nat) :=
  if g.layers ≤ layer then none
  else if slot then (if x < 64 then some (q.tree + x / 16, x % 16) else none)
  else (pageFrame q.extents (x / 16)).map (fun f => (f, x % 16))

/-- The result word of KVMAP (R336). -/
def kvWord (s : State) (c f pos layer : Nat) : Word :=
  BitVec.ofNat 64 ((frameOf s f).fmt * 2 ^ 60 + rowVa s.geom (dieOf c) f layer pos % vaTop)

/-- The words of a KVMAP that names no place, and of a bind at the highest count (R336, R353). -/
def noPlace : Word := 0xFFFFFFFFFFFFFF08
def bindFull : Word := 0xFFFFFFFFFFFFFF07

/-- The frame that a bound address lies in (R353). -/
def boundFrame (s : State) (c : Nat) (w : Word) : Option Nat :=
  let a := w.toNat % vaTop
  let pb := (s.geom.pool.getD (dieOf c) 0).toNat
  if s.geom.fb = 0 || a < pb then none
  else
    let f := (a - pb) / s.geom.fb
    if f < s.geom.frames && 0 < (frameOf s f).bind then some f else none

/-- KVMAP and its two forms of binding (R336, R353). -/
def kvmapReply (s : State) (c : Nat) (q : Seq) (slot : Bool) (kb : KvBind) (x : Word) (layer : Nat) : Reply :=
  match kb with
  | .rel => match boundFrame s c x with
    | none => (noPlace, s)
    | some f => (0, reclaim (updFrame s f (fun y => { y with bind := y.bind - 1 })) f)
  | .none => match kvPlace s.geom q slot x.toNat layer with
    | none => (noPlace, s)
    | some (f, pos) => (kvWord s c f pos layer, s)
  | .bind => match kvPlace s.geom q slot x.toNat layer with
    | none => (noPlace, s)
    | some (f, pos) =>
      if (frameOf s f).bind = 255 then (bindFull, s)
      else (kvWord s c f pos layer, updFrame s f (fun y => { y with bind := y.bind + 1 }))

/-- KVMAP (R336, R353). -/
def execKvmap (slot : Bool) (kb : KvBind) (dst idk x : BitVec 5) (layer : BitVec 16) (s : State) :
    Host.Outcome State Fault Refusal :=
  runSlot (do
    let kid ← readK idk
    let v ← readK x
    request dst (some kid.toNat) (fun s c => kvAsid (fun r => r) s c kid (withSeq s c kid (fun _ q =>
      kvmapReply s c q slot kb v layer.toNat)))) s

/-! ### KVAPPEND (R337) -/

/-- How a failure of the manager answers (R326, R337); a held copy is not ready. -/
def failAnswer (s : State) (c id : Nat) : KvFail → Option (Option Word × State)
  | .held => none
  | .frames => now (refuseTrap s c 0x16 (BitVec.ofNat 64 id))
  | .extents => now (refuseTrap s c 0x15 (BitVec.ofNat 64 id))
  | .fault cause a => now (refuseFault s c cause a)

/-- The states that accept KVAPPEND and KVREQUANT: every one but free and compacting (R329). -/
def kvStates : List Nat := [1, 2, 3, 5, 6, 7]

/-- KVAPPEND. -/
def execKvappend (dst idk n : BitVec 5) (s : State) : Host.Outcome State Fault Refusal :=
  runSlot (do
    let kid ← readK idk
    let m ← readK n
    needLegal (decide (1 ≤ m.toNat) && decide (m.toNat ≤ 1024))
    requestOr dst (fun _ => some kid.toNat) (fun s c => kvAsid now s c kid (withId now s c kid.toNat kid (fun q =>
      match stateRefusal q kvStates false with
      | some r => now (refusal r, s)
      | none => match appendRange (reqSpace s c) c s q.extents q.c m.toNat with
        | .error (e, t) => failAnswer t c kid.toNat e
        | .ok (ext, t) =>
          now (done t kid.toNat { q with extents := ext } (BitVec.ofNat 64 ((pageFrame ext (q.c / 16)).getD 0))))))) s

/-! ### KVCOMPACT (R343) -/

/-- A command of the manager's engines, accepted for a context whose interval was `i` at its issue (R324). -/
def kvCmd (s : State) (c form : Nat) (bits : EngBits) (ctr : Word) (amount : Nat) (i : BitVec 16) (bs : List Byte) : Cmd :=
  { form := form
    ctx := c
    tid := (s.ctx c).tid
    seq := s.issue.order
    region := (s.ctx c).region
    cmdRec := bs
    bits := bits
    ctrVa := ctr
    amount := amount
    interval := i
    recorded := if bits.rel then i + 1 else i
    core := some (coreOf c) }

/-- The interval of a context after the issue of a command: advanced by a release (R324). -/
def issueCmd (s : State) (c : Nat) (bits : EngBits) : State :=
  if bits.rel then s.updCtx c (fun x => { x with interval := x.interval + 1 }) else s

/-- A command is accepted: it is counted as sent (R267), and its copies begin. -/
def startJob (s : State) (j : KvJob) : State :=
  countSent { s with kvJobs := s.kvJobs ++ [j] } (coreOf j.cmd.ctx) j.cmd.region.space.asid

/-- KVCOMPACT. What KVAPPEND copies it copies at the context's interval; a release advances that for the command itself (R324, R318). -/
def execKvcompact (bits : EngBits) (dst idk ctr : BitVec 5) (amount : BitVec 30) (s : State) :
    Host.Outcome State Fault Refusal :=
  runSlot (do
    let kid ← readK idk
    let va ← readK ctr
    needLegal (amount != 0)
    cmdCounter va
    requestOr dst (fun _ => some kid.toNat) (fun s c =>
      let i := (s.ctx c).interval
      let cmd := kvCmd s c 0x28 bits va amount.toNat i []
      (kvAsid now s c kid (withId now s c kid.toNat kid (fun q =>
        match stateRefusal q [3] false with
        | some r => now (refusal r, s)
        | none =>
          let path := (q.acc.map (·.path)).getD []
          match appendRange (reqSpace s c) c s q.extents q.c path.length with
          | .error (e, t) => failAnswer t c kid.toNat e
          | .ok (ext, t) =>
            let job : KvJob :=
              { cmd := cmd
                id := kid.toNat
                c := q.c
                path := path }
            now (done (startJob t job) kid.toNat { q with st := 4, extents := ext } 0)))).map (fun (w, t) => (w, issueCmd t c bits)))) s

/-- The rows of a compaction on one die: tree slot path[k] to position c + k, for every layer (R343). -/
def compactRows (g : KvGeom) (q : Seq) (c d : Nat) (path : List Nat) : List (Nat × Nat × Nat) :=
  (List.range g.layers).flatMap (fun l => path.zipIdx.map (fun (n, k) =>
    (d, rowVa g d (q.tree + n / 16) l (n % 16), rowVa g d ((pageFrame q.extents ((c + k) / 16)).getD 0) l ((c + k) % 16))))

/-- The end of a command on an engine of every die: the one that met a fault has its error bit set (R272, R274). -/
def endOnDies (s : State) (e : Nat → EngineId) (bad : Option (Nat × BitVec 8)) : State :=
  (List.range 8).foldl (fun s d => setEngine s (e d) (fun g =>
    g.ended (bad.bind (fun (b, c) => if b = d then some c else none)))) s

/-- A row's address and cause where a job stopped. -/
def stopCause : Option (Nat × RowStop) → Option (Nat × BitVec 8 × Word)
  | some (d, .fault c t) => some (d, c, t)
  | _ => none

/-- The completion add of a job by the engine of one die, with the report of a fault, and the end of the command on every die:
the die that met the fault, or whose add failed, has its error bit and cause set (R272, R277). -/
def finishJob (s : State) (j : KvJob) (e : Nat → EngineId) (bad : Option (Nat × BitVec 8 × Word)) : State :=
  let die := (bad.map (fun (b : Nat × BitVec 8 × Word) => b.1)).getD 0
  let (s, r) := finishCmd s (e die) j.cmd (bad.map (fun (_, c, t) => (c, t))) none
  endOnDies s e (r.map (fun c => (die, c)))

/-! ### The end of a compaction -/

/-- A compaction's copies are performed on every die, and its completion add is made (R343); nothing while it must wait. Its change of
state comes later: a commit that falls in between is refused (R426; DEDUCED, log entry 81). -/
def compactCopies (s : State) (j : KvJob) (q : Seq) : State :=
  let rows := (List.range 8).flatMap (fun d => compactRows s.geom q j.c d j.path)
  match moveRows j.cmd.region.space (fun d => j.cmd.writer s (.compact d)) s.geom.tb (fun b => b) rows s with
  | (_, some (_, .held)) => s
  | (t, r) =>
    let bad := stopCause r
    let t := { t with kvJobs := t.kvJobs.map (fun k => if k == j then { k with copied := some bad.isSome } else k) }
    finishJob t j .compact bad

/-- KVCOMPACT_COPY_DONE: the copies of a sequence's compaction on every die and its completion add, and then the sequence's
state, compacted, or accepted again after a fault (R343). -/
def execKvcompactCopyDone (id : Nat) (s : State) : Host.Outcome State Fault Refusal :=
  match s.kvJobs.find? (fun j => j.id == id && j.cmd.form == 0x28), s.seq? id with
  | some j, some q =>
    .next (match j.copied with
      | none => if cmdReady s j.cmd then compactCopies s j q else s
      | some bad =>
        let t := { s with kvJobs := s.kvJobs.filter (· != j) }
        follow (settleSeq t id { q with st := if bad then 3 else 5 }) id)
  | _, _ => .next s

/-! ### KVREQUANT (R354) -/

/-- The checks of R354 on a command record; the destination format. -/
def requantFmt (bs : List Byte) : Option ElemTy :=
  match recType (field bs 8 1) with
  | some t => if (fmtOf t).isSome && zeroField bs 2 2 && zeroField bs 9 55 then some t else none
  | none => none

/-- The sequence that a command record of KVREQUANT names, as the issuing context reads it. -/
def requantId (a : Word) (s : State) : Option Nat :=
  match readVia s (packageView (reqSpace s s.issue.ctx)) a.toNat 2 with
  | .ok (bs, _) => some (leNat bs)
  | .error _ => none

/-- KVREQUANT: accepted with a page of its own and a new frame. -/
def execKvrequant (bits : EngBits) (dst rec_ ctr : BitVec 5) (amount : BitVec 30) (s : State) :
    Host.Outcome State Fault Refusal :=
  runSlot (do
    let a ← readRecAddr rec_
    let va ← readK ctr
    needLegal (amount != 0)
    cmdCounter va
    requestOr dst (requantId a) (fun s c => now (
      let i := (s.ctx c).interval
      let cmd := fun bs => kvCmd s c 0x29 bits va amount.toNat i bs
      let s := issueCmd s c bits
      kvAsid (fun r => r) s c a (mgrRead s c a 64 (fun bs s =>
        match requantFmt bs with
        | none => refuseTrap s c 0x01 a
        | some t =>
          let id := field bs 0 2
          let page := field bs 4 4
          withId (fun r => r) s c id a (fun q =>
            match stateRefusal q kvStates false, pageFrame q.extents page with
            | some r, _ => (refusal r, s)
            | none, none => (refusal 8, s)
            | none, some f =>
              if (frameOf s f).count ≠ 1 then (refusal 8, s)
              else match allocReserved s 0 with
                | none => refuseTrap s c 0x16 (BitVec.ofNat 64 id)
                | some (g, s) =>
                  let job : KvJob :=
                    { cmd := cmd bs
                      id := id
                      page := page
                      old := f
                      new := g
                      fmt := t.code.toNat }
                  done (startJob s job) id q 0)))))) s

/-- A token row in another format (R354): its elements converted from the row's start, as far as the row goes, then zeros. -/
def requantRow (tb : Nat) (a b : ElemTy) (bs : List Byte) : List Byte :=
  fixLen tb (convBytes a b bs (tb / elemBytes a))

/-- The page switches to its new frame (R354): the state, or the failure of R337. -/
def switchPage (s : State) (j : KvJob) (q : Seq) : Option State :=
  if pageFrame q.extents j.page ≠ some j.old then some (unreserve s j.new)
  else
    let (ext, stranded) := replacePage q.extents j.page j.new
    if 16 < ext.length then none
    else
      let s := updFrame s j.new (fun x => { x with count := 1, resv := false, fmt := j.fmt })
      let s := stranded.foldl unreserve (dropUse s j.old)
      some (settleSeq s j.id { q with extents := ext })

/-- KVREQUANT_SWITCH: the conversion of a page on every die and the switch to its new frame; nothing while a conversion of a
placement holds a row. -/
def execKvrequantSwitch (n : Nat) (s : State) : Host.Outcome State Fault Refusal :=
  match s.kvJobs[n]? with
  | none => .next s
  | some j => match recType (frameOf s j.old).fmt, recType j.fmt, s.seq? j.id with
    | some a, some b, some q =>
      if j.cmd.form ≠ 0x29 || s.seqBusy j.id || !cmdReady s j.cmd then .next s
      else
        let rows := frameRows s.geom j.old j.new (List.range 16)
        match moveRows j.cmd.region.space (fun d => j.cmd.writer s (.requant d)) s.geom.tb (requantRow s.geom.tb a b) rows s with
        | (_, some (_, .held)) => .next s
        | (t, r) =>
          let t := { t with kvJobs := t.kvJobs.eraseIdx n }
          match stopCause r with
          | some bad => .next (finishJob (unreserve t j.new) j .requant (some bad))
          | none => match switchPage t j q with
            | some t => .next (finishJob t j .requant none)
            | none => .next (finishJob (unreserve t j.new) j .requant (some (0, 0x15, BitVec.ofNat 64 j.id)))
    | _, _, _ => .next s

end Sys2Proof.Machine
end

