-- ==== Sys2Proof/Machine/Commit.lean ====
section
/-! DEFINITION. Commit and delivery (R344 to R346): the stop table and the matching of the byte stream, the records to the host,
their acknowledgement and their failure, and what a follower applies (R330). -/

namespace Sys2Proof.Machine

/-! ### The stop table (R345) -/

/-- The strings of a stop table with their numbers' order, unused ones left out. -/
def stopStrings (bs : List Byte) : List (List Byte) :=
  (List.range 8).filterMap (fun j =>
    let n := field bs (16 + 40 * j) 1
    if n = 0 || 32 < n then none else some ((bs.drop (17 + 40 * j)).take n))

/-- The image of a token from the vocabulary table at `vocab` with `size` entries; a token outside it has an empty image. -/
def tokenImage (s : State) (v : View) (vocab : Word) (size : Nat) (t : BitVec 24) :
    Except (BitVec 8 × Word) (List Byte × State) :=
  if size ≤ t.toNat then .ok ([], s)
  else match readVia s v (vocab.toNat + 8 * t.toNat) 8 with
    | .error e => .error e
    | .ok (bs, s) => readVia s v (vocab.toNat + field bs 0 4) (field bs 4 1)

/-- The images of tokens in order. -/
def tokenImages (v : View) (vocab : Word) (size : Nat) : List Tok → State → Except (BitVec 8 × Word) (List Tok × State)
  | [], s => .ok ([], s)
  | t :: ts, s => match tokenImage s v vocab size t.token with
    | .error e => .error e
    | .ok (img, s) => match tokenImages v vocab size ts s with
      | .error e => .error e
      | .ok (rest, s) => .ok ({ t with image := img } :: rest, s)

/-! ### Matching -/

/-- Whether a string ends at byte `e` of a stream. -/
def endsAt (stream str : List Byte) (e : Nat) : Bool :=
  decide (str.length ≤ e) && (stream.drop (e - str.length)).take str.length == str

/-- The earliest occurrence that completes beyond byte `old` of a stream, tested from the lowest string: first byte and end. -/
def firstMatch (strs : List (List Byte)) (stream : List Byte) (old : Nat) : Option (Nat × Nat) :=
  (List.range (stream.length - old)).findSome? (fun i =>
    (strs.find? (fun w => endsAt stream w (old + i + 1))).map (fun w => (old + i + 1 - w.length, old + i + 1)))

/-- The length of s, the longest suffix of a stream that is a proper prefix of some string. -/
def suffixLen (strs : List (List Byte)) (stream : List Byte) : Nat :=
  ((List.range 32).filter (fun n => decide (n ≤ stream.length) &&
    strs.any (fun w => decide (n < w.length) && stream.drop (stream.length - n) == w.take n))).foldl max 0

/-- The number of leading tokens whose bytes all lie before byte `n` of their stream. -/
def tokensBefore : List Tok → Nat → Nat
  | [], _ => 0
  | t :: ts, n => if t.image.length ≤ n then 1 + tokensBefore ts (n - t.image.length) else 0

/-- The number of leading tokens that have no byte at or after byte `n`; all of them where the stream ends there. -/
def tokensClear (l : List Tok) (n : Nat) : Nat :=
  if (l.flatMap (·.image)).length ≤ n then l.length else tokensBefore l n

/-- The token record of R346. -/
def tokenRecord (t : Tok) : Word := BitVec.ofNat 64 (t.pos % 2 ^ 32 * 2 ^ 32 + b2n t.corr * 2 ^ 26 + t.token.toNat)

/-- The stop record: with the completing token, or with the count to retract (R346). -/
def stopRecord (pos : Nat) (retract : Bool) (n : Nat) : Word :=
  BitVec.ofNat 64 (pos % 2 ^ 32 * 2 ^ 32 + b2n retract * 2 ^ 25 + 2 ^ 24 + n % 2 ^ 24)

/-- What matching gives: the records of a commit, the tokens still carried, and whether a string matched. -/
structure Matched where
  records : List Word
  carried : List Tok
  stopped : Bool
  deriving DecidableEq, Repr

/-- The number of tokens with a byte in [a, e) of their stream. -/
def tokensIn (a e : Nat) : List Tok → Nat → Nat
  | [], _ => 0
  | t :: ts, o => (if o < e && a < o + t.image.length && !t.image.isEmpty then 1 else 0) + tokensIn a e ts (o + t.image.length)

/-- Match and deliver the tokens of a commit, in order (R345): `hold` is hold-back. A carried token that has been delivered, or that a
child has from a parent without hold-back, is delivered no more. -/
def matchTokens (hold : Bool) (strs : List (List Byte)) : List Tok → List Tok → List Word → Matched
  | held, [], out => ⟨out, held, false⟩
  | held, t :: ts, out =>
    let all := held ++ [t]
    let stream := all.flatMap (·.image)
    let due := fun (l : List Tok) => (l.filter (fun x => !x.given)).map tokenRecord
    match firstMatch strs stream (held.flatMap (·.image)).length with
    | some (a, e) =>
      if hold then ⟨out ++ due (all.take (tokensClear all a)) ++ [stopRecord t.pos false t.token.toNat], [], true⟩
      else ⟨out ++ due all ++ [stopRecord t.pos true (tokensIn a e all 0)], [], true⟩
    | none =>
      let k := tokensClear all (stream.length - suffixLen strs stream)
      let rest := if hold then all.drop k else (all.drop k).map (fun x => { x with given := true })
      matchTokens hold strs rest ts (out ++ due (if hold then all.take k else all))

/-- The tokens of a commit through the stop table of the sequence: a table that is absent matches nothing. -/
def matchCommit (s : State) (sp : Space) (q : Seq) (toks : List Tok) : Except (BitVec 8 × Word) (Matched × State) :=
  if q.stopTab = 0 then .ok (matchTokens q.holdBack [] q.carried toks [], s)
  else match readVia s (packageView sp) q.stopTab.toNat 336 with
    | .error e => .error e
    | .ok (bs, s) => match tokenImages (packageView sp) (fieldW bs 0) (field bs 8 4) toks s with
      | .error e => .error e
      | .ok (toks, s) => .ok (matchTokens q.holdBack (stopStrings bs) q.carried toks [], s)

/-! ### Delivery (R346, R373) -/

/-- The host area and remote address that a page of kind 01 gives for an address. -/
def hostAddr (s : State) (sp : Space) (va : Word) : Except (BitVec 8 × Word) (Nat × Word × State) :=
  let v := packageView sp
  match leafFor s v va.toNat true (kindCheck v 1 false true) with
  | .error c => .error (c, va)
  | .ok (e, s) =>
    let a := Map.get {} s.areas (leafIndex e)
    .ok (leafIndex e, a.base + BitVec.ofNat 64 (va.toNat % 2 ^ pageShift e.level), s)

/-- Write records from ring slot `n` on: the records written, and whether all of them could be. -/
def writeRecords (sp : Space) (q : Seq) : List Word → Nat → State → Nat × Bool × State
  | [], _, s => (0, true, s)
  | r :: rs, n, s => match hostAddr s sp (q.ring + BitVec.ofNat 64 (8 * (n % max 1 q.ringSize))) with
    | .error _ => (0, false, s)
    | .ok (area, a, s) =>
      let o := writeRecords sp q rs (n + 1) { s with hostOut := s.hostOut ++ [.write area a (leBytes 8 r.toNat)] }
      (o.1 + 1, o.2)

/-- The records of a commit, and the add of their number to the host counter: a page of either that does not translate is an
error, with the number of records written before it. -/
def sendRecords (s : State) (sp : Space) (q : Seq) (rs : List Word) : Except (Nat × State) State :=
  if rs.isEmpty then .ok s
  else match writeRecords sp q rs q.delivered s with
    | (n, false, s) => .error (n, s)
    | (n, true, s) => match hostAddr s sp q.hostCtr with
      | .error _ => .error (n, s)
      | .ok (area, a, s) => .ok { s with hostOut := s.hostOut ++ [.add area a rs.length] }

/-! ### SQCOMMIT (R344) -/

/-- The tokens of a path that are not given. -/
def pathTokens (q : Seq) (path : List Nat) : List (BitVec 24) :=
  path.filterMap (fun i => match q.nodes[i]? with | some n => if n.given then none else some n.token | none => none)

/-- The delivered list: tokens at their positions; `corr` marks the last one a correction (R344, R346). -/
def listToks (c : Nat) (toks : List (BitVec 24)) (corr : Bool) : List Tok :=
  toks.zipIdx.map (fun (t, i) =>
    { token := t
      pos := c + i
      corr := corr && i + 1 == toks.length
      image := [] })

/-- The result word of SQCOMMIT (R344). -/
def commitWord (c records : Nat) (stopped : Bool) : Word :=
  BitVec.ofNat 64 (c % 2 ^ 32 + records % 2 ^ 16 * 2 ^ 32 + b2n stopped * 2 ^ 48)

/-- What a home sends its followers where the delivery fails after `n` records. -/
def failedMsg (n : Nat) : FollowMsg → FollowMsg
  | .accept w path corr ctr => .accept w path corr ctr
  | .commit _ _ => .commit n true
  | .commitDirect k tok _ => .commitDirect k tok true

/-- A delivery that fails (R346): the commit is performed, the sequence is stopped, and the failure is reported to the fault
domain of its region with the host counter's address. -/
def failDelivery (s : State) (id : Nat) (q : Seq) (n : Nat) (msg : FollowMsg) : Option Word × State :=
  let s := faultRecord s q.region 4 0x19 0 0 q.hostCtr
  let q' := { q with st := 7, delivered := (q.delivered + n) % 2 ^ 64 }
  (some (commitWord q.c n true), putSeq (toFollowers s id q (failedMsg n msg)) id q')

/-- A commit's end: delivery, followers, and the result. A delivery leaves the result, and what the followers are sent, for its
acknowledgement or its failure, and holds the sequence until then (R325, R346). -/
def endCommit (s : State) (c id : Nat) (q : Seq) (m : Matched) (msg : FollowMsg) : Option Word × State :=
  let q' := { q with carried := m.carried, delivered := (q.delivered + m.records.length) % 2 ^ 64 }
  let w := commitWord q.c m.records.length m.stopped
  match sendRecords s (reqSpace s c) q m.records with
  | .error (n, s) => failDelivery s id { q with carried := m.carried } n msg
  | .ok s =>
    if m.records.isEmpty then (some w, putSeq (toFollowers s id q msg) id q')
    else
      let d : Delivery :=
        { id := id
          ctx := c
          pend := s.issue.order
          result := w
          msg := msg }
      (none, putSeq { s with deliveries := s.deliveries ++ [d] } id q')

/-- The speculative form. -/
def commitTree (s : State) (c id : Nat) (q : Seq) (a : Accept) : Option Word × State :=
  let stop := fun (e : BitVec 8 × Word) => let r := refuseFault s c e.1 e.2; (some r.1, r.2)
  match matchCommit s (reqSpace s c) q (listToks q.c (pathTokens q a.path ++ [a.correction]) true) with
  | .error e => stop e
  | .ok (m, t) => match commitPenalty t (reqSpace s c) q with
    | .error e => stop e
    | .ok t => endCommit t c id (committed q a.path.length (some a.correction) m.stopped true) m (.commit m.records.length m.stopped)

/-- The direct form; without a token it delivers nothing and reads no stop table (R344). -/
def commitDirect (s : State) (c id : Nat) (q : Seq) (n : Nat) (tok : Option (BitVec 24)) : Option Word × State :=
  if pagesHeld q.extents < (q.c + n + 15) / 16 then (some (refusal 8), s)
  else match (if tok.isNone then .ok (⟨[], q.carried, false⟩, s) else matchCommit s (reqSpace s c) q (listToks q.c tok.toList false)) with
    | .error e => let r := refuseFault s c e.1 e.2; (some r.1, r.2)
    | .ok (m, t) => endCommit t c id (committed q n tok m.stopped false) m (.commitDirect n tok m.stopped)

/-- SQCOMMIT (R344). -/
def execSqcommit (direct : Option (BitVec 5 × Option (BitVec 24))) (dst idk : BitVec 5) (s : State) :
    Host.Outcome State Fault Refusal :=
  runSlot (do
    let kid ← readK idk
    let n ← match direct with
      | some (k, _) => readK k
      | none => pure 0
    requestOr dst (fun _ => some kid.toNat) (fun s c => withId now s c kid.toNat kid (fun q =>
      match stateRefusal q [if direct.isSome then 1 else 5] true, direct, q.acc with
      | some r, _, _ => now (refusal r, s)
      | none, some (_, tok), _ => some (commitDirect s c kid.toNat q n.toNat tok)
      | none, none, some a => some (commitTree s c kid.toNat q a)
      | none, none, none => now (refusal 2, s)))) s

/-! ### Acknowledgement, failure and followers -/

/-- The oldest delivery of a sequence, and the others. -/
def takeDelivery (l : List Delivery) (id : Nat) : Option (Delivery × List Delivery) :=
  (l.find? (fun d => d.id == id)).map (fun d => (d, l.erase d))

/-- A delivery has ended: its followers are sent the commit, and the result of its SQCOMMIT lands (R330, R346). -/
def endDelivery (s : State) (d : Delivery) (q : Seq) (m : FollowMsg) (w : Word) : State :=
  readyPending (toFollowers s d.id q m) d.ctx d.pend [w.setWidth 2048] none

/-- RDMA_ACKNOWLEDGEMENT: the add to the host counter is acknowledged (R346). -/
def execRdmaAcknowledgement (id : Nat) (s : State) : Host.Outcome State Fault Refusal :=
  match takeDelivery s.deliveries id, s.seq? id with
  | some (d, rest), some q => .next (endDelivery { s with deliveries := rest } d q d.msg d.result)
  | _, _ => .next s

/-- DELIVERY_FAILURE: the sequence is stopped and the failure reported with the host counter's address (R346). -/
def execDeliveryFailure (id : Nat) (s : State) : Host.Outcome State Fault Refusal :=
  match takeDelivery s.deliveries id, s.seq? id with
  | some (d, rest), some q =>
    let s := faultRecord { s with deliveries := rest } q.region 4 0x19 0 0 q.hostCtr
    let s := settleSeq s id { q with st := 7 }
    .next (endDelivery s d q (failedMsg (bitsAt d.result.toNat 32 16) d.msg) (d.result ||| BitVec.ofNat 64 (2 ^ 48)))
  | _, _ => .next s

/-- FOLLOWER_APPLY: a message of the home arrives at a follower, and the follower applies what it has received as far as its state
admits (R330). -/
def execFollowerApply (id : Nat) (m : FollowMsg) (s : State) : Host.Outcome State Fault Refusal :=
  match s.seq? id with
  | none => .next s
  | some q => .next (if q.follower then follow (putSeq s id { q with inbox := q.inbox ++ [m] }) id else s)

end Sys2Proof.Machine
end

