-- ==== Sys2Proof/Machine/Fabric.lean ====
section
/-! DEFINITION. The fabric: packets and streams (R384, R387, R391, R392), the remote access forms at their source (R394 to R401),
the operations at the target's ingress (R390, R396 to R398, R417), what comes back, and timeouts (R393). -/

namespace Sys2Proof.Machine

/-! ### Streams and packets -/

/-- The stream between a die and a die of a package, at either end (R392). -/
def streamKey (pkg die : Nat) : Nat := pkg * 8 + die

/-- The lane bundle that carries a die's traffic to another package: its own, or, while that is down, the next die's (R385). -/
def bundleDie (s : State) (d pkg : Nat) : Nat :=
  if (Map.get {} (s.die d).bundles pkg).up then d else (d + 1) % 8

/-- Flit groups that a packet of so many data flits fills (R386), each completed with idle flits. -/
def packetGroups (flits : Nat) : Nat := (flits + 5) / 5

/-- A new key of an outgoing bundle: its group counter starts at 0 (R386). The groups sent under the old key are replayed no
more; the packets' end-to-end timers stand for them. -/
def Bundle.rekeyed (b : Bundle) : Bundle :=
  { b with
    txKey := b.txKey + 1
    txGroup := 0
    txAcked := 0
    txBuf := []
    replaying := false }

/-- `n` more groups on an outgoing bundle, the last of them with a packet and all with the acknowledgement of the other direction
(R386, R391). The key is rotated before the counter would reach 2^48. -/
def Bundle.pushed (b : Bundle) (src n : Nat) (p : Packet) : Bundle :=
  let b := if 2 ^ 48 ≤ b.txGroup + n then b.rekeyed else b
  let gs := (List.range n).map (fun i =>
    { srcPkg := src
      num := b.txGroup + i
      tagOk := true
      packets := if i + 1 = n then [p] else []
      ack := b.rxNext : FlitGroup })
  { b with txGroup := b.txGroup + n, txBuf := (b.txBuf ++ gs).drop ((b.txBuf ++ gs).length - 64) }

/-- A packet enters its bundle's groups, of which the sender keeps the last 64 (R386, R391). -/
def pushGroups (s : State) (d : Nat) (p : Packet) : State :=
  if p.dstPkg = s.pkg then s
  else s.updDie (bundleDie s d p.dstPkg) (fun x => { x with
    bundles := Map.upd {} x.bundles p.dstPkg (fun b => b.pushed s.pkg (packetGroups p.flits) p) })

/-- Whether so many packets of a list are for a die that its stream takes no more (R392). -/
def manyFor (l : List Remote) (pkg die : Nat) : Bool :=
  decide (4096 ≤ (l.filter (fun r => r.pkt.dstPkg == pkg && r.pkt.dstDie == die)).length)

/-- Whether a bundle to another package has no key yet (R375, R386). -/
def unkeyed (s : State) (d pkg : Nat) : Bool := pkg != s.pkg && (Map.get {} (s.die (bundleDie s d pkg)).bundles pkg).txKey == 0

/-- Whether no packet may leave for a die now: its stream holds as many unacknowledged packets as it may (R392), or its bundle has
no key. -/
def sentFull (s : State) (d pkg die : Nat) : Bool := manyFor (s.die d).remotes pkg die || unkeyed s d pkg

/-- Whether no bundle may send to a die now: a packet that waits for its slot counts as well. -/
def streamFull (s : State) (d pkg die : Nat) : Bool := manyFor (s.die d).open pkg die || unkeyed s d pkg

/-- A remote operation leaves its die: it takes its sequence number and is counted as sent (R392, R267). -/
def sendRemote (s : State) (d : Nat) (r : Remote) : State :=
  let key := streamKey r.pkt.dstPkg r.pkt.dstDie
  let p := { r.pkt with seq := Map.get 0 (s.die d).txSeq key }
  let r := { r with pkt := p, time := s.dtimePs }
  let s := s.updDie d (fun x => { x with
    remotes := x.remotes ++ [r]
    txSeq := Map.set 0 x.txSeq key ((p.seq + 1) % 2 ^ 24)
    sent := Map.upd 0 x.sent r.region.space.asid.toNat (· + 1) })
  pushGroups s d p

/-- A packet of an issuing context (R387). -/
def packetFor (s : State) (c op : Nat) (pkg die : Nat) (target flag : Word) (aux : Nat) (data : List Byte) : Packet :=
  let r := (s.ctx c).region
  { jobKey := r.space.key
    asid := r.space.asid
    op := BitVec.ofNat 8 op
    flits := (data.length + 31) / 32
    target := target
    flag := flag
    seq := 0
    srcPkg := s.pkg
    srcDie := dieOf c
    dstPkg := pkg
    dstDie := die
    aux := BitVec.ofNat 8 aux
    srcCtx := BitVec.ofNat 16 c
    data := data }

/-- The remote operation of the issuing bundle that a packet makes. -/
def remoteFor (s : State) (c : Nat) (p : Packet) (va : Word) (pend : Option Nat) (ty : Option ElemTy) : Remote :=
  { pkt := p
    ctx := c
    tid := (s.ctx c).tid
    cseq := s.issue.order
    region := (s.ctx c).region
    va := va
    pend := pend
    ty := ty }

/-! ### The remote access forms (R394, R395) -/

/-- Bytes of an access by its register, and the code by which a request names them (R394). -/
def accSize (ty : ElemTy) (r : RegRef) : Nat :=
  if r.file.isVector then 256 else if r.file.isMask then 32 else elemBytes ty
def sizeCode (n : Nat) : Nat := Nat.log2 n

/-- The bytes of a source register. -/
def srcBytes (ty : ElemTy) (r : RegRef) : M (List Byte) := do
  lVecIndex r
  let v ← readReg r.file.code r.idx.toNat
  pure (leBytes (accSize ty r) v.toNat)

/-- The checks on a peer leaf (R301, R303, R395). -/
def peerCheck (s : State) (v : View) (rd wr : Bool) (e : TlbEntry) : Option (BitVec 8) :=
  let i := leafIndex e
  if pteKind e.pte == 2 && (decide (256 ≤ i) || !s.packages.contains (i % 32)) then some 0x04 else kindCheck v 2 rd wr e

/-- Translate the address of NLD, NST or NAT at issue: the target package and die (R395). -/
def peerLeaf (ea : Word) (size : Nat) (rd wr : Bool) : M (Nat × Nat) := do
  need (ea.toNat % size == 0) 0x03 ea
  need (!(decide (apertureBase ≤ ea.toNat) && decide (ea.toNat < vaTop))) 0x05 ea
  let s ← get
  let v := s.view s.issue.ctx
  match leafFor s v ea.toNat wr (peerCheck s v rd wr) with
  | .error c => condTrap c ea
  | .ok (e, s) => do
    set s
    pure (leafIndex e % 32, leafIndex e / 32)

/-- The bundle is not ready while the stream to a die is full, or its core has no request free (R184, R392). -/
def needStream (pkg die : Nat) : M Unit := do
  needRequests 1
  let s ← get
  if streamFull s (dieOf s.issue.ctx) pkg die then notReady else pure ()

/-- Bytes of a target location that a packet reaches. -/
def targetSize (p : Packet) : Nat :=
  match p.op.toNat with | 1 => 2 ^ p.aux.toNat | 2 => p.data.length | _ => 8

/-- Whether an operation of a context on `n` bytes at a target location left earlier and is not acknowledged (R316). -/
def outstandingAt (s : State) (c pkg die : Nat) (target : Word) (n : Nat) : Bool :=
  (s.die (dieOf c)).remotes.any (fun r => (r.ctx == c || r.tid == (s.ctx c).tid) && r.pkt.dstPkg == pkg && r.pkt.dstDie == die &&
    decide (r.pkt.op.toNat ≤ 3) && overlaps r.pkt.target.toNat (targetSize r.pkt) target.toNat n)

/-- Remote operations of one context on one target location are performed in issue order: a bundle is not ready while an earlier one
is not acknowledged (R316; DEDUCED, log entry 80). -/
def needOrder (pkg die : Nat) (target : Word) (n : Nat) : M Unit := do
  let s ← get
  if outstandingAt s s.issue.ctx pkg die target n then notReady else pure ()

/-- Send a remote operation of the issuing bundle. -/
def issueRemote (op pkg die : Nat) (target flag : Word) (aux : Nat) (data : List Byte) (pend : Option Nat) (ty : Option ElemTy) :
    M Unit := do
  needStream pkg die
  modify (fun s =>
    let c := s.issue.ctx
    sendRemote s (dieOf c) (remoteFor s c (packetFor s c op pkg die target flag aux data) target pend ty))

/-- NLD (R396). -/
def execNld (ty : ElemTy) (dst : RegRef) (base : BitVec 5) (off : Int) (s : State) : Host.Outcome State Fault Refusal :=
  runSlot (do
    lVecIndex dst
    let ea ← eaOff base off
    let (pkg, die) ← peerLeaf ea (accSize ty dst) true false
    needOrder pkg die ea (accSize ty dst)
    needStream pkg die
    let st ← get
    pendResult [(dst.file.code, dst.idx.toNat)] none
    issueRemote 1 pkg die ea 0 (sizeCode (accSize ty dst)) [] (some st.issue.order)
      (if dst.file.isVector || dst.file.isMask then none else some ty)) s

/-- The flag address of a flagged store, and the auxiliary byte that says it has one (R397). -/
def flagAddr (flag : Option (BitVec 5)) : M (Word × Nat) :=
  match flag with
  | some p => do
    let f ← readP p
    pure (f, 1)
  | none => pure (0, 0)

/-- NST (R397). -/
def execNst (ty : ElemTy) (flag : Option (BitVec 5)) (src : RegRef) (base : BitVec 5) (off : Int) (s : State) :
    Host.Outcome State Fault Refusal :=
  runSlot (do
    let bs ← srcBytes ty src
    let ea ← eaOff base off
    let (f, aux) ← flagAddr flag
    let (pkg, die) ← peerLeaf ea (accSize ty src) false true
    needOrder pkg die ea (accSize ty src)
    issueRemote 2 pkg die ea f aux bs none none) s

/-- NAT (R398): its data flit holds the sources and the type. -/
def execNat (op : AtomOp) (ty : ElemTy) (dst : Option RegRef) (src : RegRef) (base : BitVec 5) (off : Int) (s : State) :
    Host.Outcome State Fault Refusal :=
  runSlot (do
    let x ← readScalar src.file.code src.idx.toNat
    let y ← if op = .cas then readScalar src.file.code (src.idx.toNat + 1) else pure 0
    let ea ← eaOff base off
    let (pkg, die) ← peerLeaf ea (elemBytes ty) true true
    needOrder pkg die ea 8
    needStream pkg die
    let st ← get
    let data := leBytes 8 x.toNat ++ leBytes 8 y.toNat ++ leBytes 16 ty.code.toNat
    match dst with
    | some d => do
      pendResult [(d.file.code, d.idx.toNat)] none
      issueRemote 3 pkg die ea 0 (op.code.toNat + 16) data (some st.issue.order) (some ty)
    | none => issueRemote 3 pkg die ea 0 op.code.toNat data none none) s

/-- The owner that p[pb] names (R395). -/
def ownerOf (base : BitVec 5) : M (Nat × Nat) := do
  let w ← readP base
  let s ← get
  needLegal (decide (w.toNat < 256))
  need (s.packages.contains (w.toNat % 32)) 0x05 w
  pure (w.toNat % 32, w.toNat / 32)

/-- The header's flag field of a contribution (R387). -/
def contribField (entry piece : BitVec 6) (slot : Nat) : Word :=
  BitVec.ofNat 64 (entry.toNat + piece.toNat * 2 ^ 8 + slot % 2 ^ 48 * 2 ^ 16)

/-- NCB (R395, R402). -/
def execNcb (ty : ElemTy) (src : RegRef) (entry piece : BitVec 6) (base : BitVec 5) (s : State) :
    Host.Outcome State Fault Refusal :=
  runSlot (do
    let bs ← srcBytes ty src
    let (pkg, die) ← ownerOf base
    issueRemote 4 pkg die 0 (contribField entry piece 0) 0 bs none none) s

/-- The number of the present slot (R400). -/
def curSlot (s : State) : Nat := s.dtimeNs / 64

/-- NTS: it leaves when its slot begins, or at once (R401). -/
def execNts (ty : ElemTy) (src : RegRef) (entry piece : BitVec 6) (slot : BitVec 5) (base : BitVec 5) (s : State) :
    Host.Outcome State Fault Refusal :=
  runSlot (do
    let bs ← srcBytes ty src
    let w ← readP slot
    let (pkg, die) ← ownerOf base
    let n := w.toNat % 2 ^ 48
    let st ← get
    if n ≤ curSlot st then issueRemote 5 pkg die 0 (contribField entry piece n) 0 bs none none
    else do
      needStream pkg die
      modify (fun s =>
        let c := s.issue.ctx
        let r := remoteFor s c (packetFor s c 5 pkg die 0 (contribField entry piece n) 0 bs) 0 none none
        s.updDie (dieOf c) (fun d => { d with heldNts := d.heldNts ++ [(n, r)] }))) s

/-- NTS_SLOT_BEGINS: the slot of a waiting packet of a die has begun, and it leaves once its stream has room (R392, R401). -/
def execNtsSlotBegins (d n : Nat) (s : State) : Host.Outcome State Fault Refusal :=
  match (s.die d).heldNts[n]? with
  | none => .next s
  | some (slot, r) =>
    if curSlot s < slot || sentFull s d r.pkt.dstPkg r.pkt.dstDie then .next s
    else .next (sendRemote (s.updDie d (fun x => { x with heldNts := x.heldNts.eraseIdx n })) d r)

/-! ### Meshes (R407) -/

namespace Mesh

/-- Ranks of a mesh, and its size. -/
def size (m : Mesh) : Nat := m.members.length
def axisSize (m : Mesh) (a : Nat) : Nat := m.sizes.getD a 1
/-- The distance between ranks that differ by one on an axis. -/
def stride (m : Mesh) (a : Nat) : Nat := (m.sizes.take a).foldl (· * ·) 1
/-- A rank's coordinate on an axis. -/
def coord (m : Mesh) (r a : Nat) : Nat := r / m.stride a % max 1 (m.axisSize a)
/-- The ranks of a rank's line along an axis, ascending (R399). -/
def line (m : Mesh) (r a : Nat) : List Nat :=
  (List.range (m.axisSize a)).map (fun c => r - m.coord r a * m.stride a + c * m.stride a)
/-- Package and die of a rank; whether it is present, and present and not marked failed. -/
def pkgOf (m : Mesh) (r : Nat) : Nat := (m.members.getD r 0).toNat % 32
def dieAt (m : Mesh) (r : Nat) : Nat := (m.members.getD r 0).toNat / 32 % 8
def present (m : Mesh) (r : Nat) : Bool := (m.members.getD r 0).getLsbD 8
def alive (m : Mesh) (r : Nat) : Bool := m.present r && !(m.members.getD r 0).getLsbD 9
/-- The rank of a die of a package, when the table names it as a present member. -/
def rankOf (m : Mesh) (pkg die : Nat) : Option Nat :=
  (List.range m.size).find? (fun r => m.present r && m.pkgOf r == pkg && m.dieAt r == die)

end Mesh

/-- This die's rank in its mesh table (R407). -/
def State.rank (s : State) (d : Nat) : Option Nat := (s.die d).mesh.rankOf s.pkg d

/-- NMC: copies leave in ascending rank order; the issuer's own, if any, is a store of its own (R399). -/
def execNmc (ty : ElemTy) (flag : Option (BitVec 5)) (axis : BitVec 2) (self : Bool) (src : RegRef) (base : BitVec 5) (off : Int)
    (s : State) : Host.Outcome State Fault Refusal :=
  runSlot (do
    let bs ← srcBytes ty src
    let ea ← eaOff base off
    let (f, aux) ← flagAddr flag
    need (ea.toNat % accSize ty src == 0) 0x03 ea
    let st ← get
    let c := st.issue.ctx
    let m := (st.die (dieOf c)).mesh
    match st.rank (dieOf c) with
    | none => condTrap 0x05 ea
    | some r => do
      needLegal (decide (axis.toNat < m.axes))
      let targets := (m.line r axis.toNat).filter (fun q => m.present q && (self || q != r))
      needRequests targets.length
      if targets.any (fun q => streamFull st (dieOf c) (m.pkgOf q) (m.dieAt q) ||
          outstandingAt st c (m.pkgOf q) (m.dieAt q) ea (accSize ty src)) then notReady
      else modify (fun s => targets.foldl (fun s q =>
        let e := remoteFor s c (packetFor s c 2 (m.pkgOf q) (m.dieAt q) ea f aux bs) ea none none
        let x := s.ctx c
        sendRemote s (dieOf c) (if q = r then { e with own := some (x.region.space, x.interval) } else e)) s)) s

/-! ### The target's ingress (R390, R392) -/

/-- A packet is dropped at ingress and counted (R387, R390). -/
def dropPacket (s : State) (d : Nat) : State := s.updDie d (fun x => { x with dropped := x.dropped + 1 })

/-- The answer that the target keeps for a packet that it has performed. -/
def answerOf (s : State) (d key seq : Nat) : Option Packet :=
  ((s.die d).rxWindow.find? (fun w => w.key == key && w.req.seq == seq)).map (·.ans)

/-- The answer to a packet leaves for its source, and enters the window of the last 4,096 of its stream (R392). -/
def respond (s : State) (d : Nat) (p : Packet) (op : Nat) (aux : BitVec 8) (target : Word) (data : List Byte) : State :=
  let a : Packet :=
    { p with
      op := BitVec.ofNat 8 op
      flits := (data.length + 31) / 32
      target := target
      flag := 0
      srcPkg := s.pkg
      srcDie := d
      dstPkg := p.srcPkg
      dstDie := p.srcDie
      aux := aux
      data := data }
  let key := streamKey p.srcPkg p.srcDie
  pushGroups (s.updDie d (fun x => { x with rxWindow :=
    ⟨key, p, a⟩ :: (x.rxWindow.filter (fun w => w.key == key)).take 4095 ++ x.rxWindow.filter (fun w => w.key != key) })) d a

def ack (s : State) (d : Nat) (p : Packet) : State := respond s d p 9 0 p.target []
def nak (s : State) (d : Nat) (p : Packet) (cause : BitVec 8) (va : Word) : State := respond s d p 10 cause va []

/-- Whether an operation of the same context on the same location left before this one and has not been performed (R316). -/
def earlierOpen (s : State) (d : Nat) (r : Remote) : List Remote → Bool
  | [] => false
  | q :: qs =>
    if q.pkt = r.pkt then false
    else (q.tid == r.tid && q.pkt.dstPkg == r.pkt.dstPkg && q.pkt.dstDie == r.pkt.dstDie && q.pkt.op.toNat ≤ 3 &&
      overlaps q.pkt.target.toNat (targetSize q.pkt) r.pkt.target.toNat (targetSize r.pkt) &&
      (answerOf s d (streamKey q.pkt.srcPkg q.pkt.srcDie) q.pkt.seq).isNone) || earlierOpen s d r qs

/-- What becomes of a packet at a die (R384, R392, R316): nothing; the answer that it had the first time; or it is performed, with
the operation of this package that it is, if any. -/
inductive Arrival
  | nothing
  | again (a : Packet)
  | perform (r : Option Remote)
  deriving DecidableEq, Repr

/-- The arrival of a packet at a die: it must be addressed to it, and of a kind that the step performs. A duplicate is answered
again. One from this package is an operation that its source die has outstanding, in its order. -/
def arrives (s : State) (d : Nat) (p : Packet) (ops : List Nat) : Arrival :=
  if p.dstPkg ≠ s.pkg || p.dstDie ≠ d || !ops.contains p.op.toNat then .nothing
  else match answerOf s d (streamKey p.srcPkg p.srcDie) p.seq with
    | some a => .again a
    | none =>
      if p.srcPkg ≠ s.pkg then .perform none
      else
        let l := (s.die p.srcDie).remotes
        match l.find? (fun r => r.pkt = p) with
        | some r => if earlierOpen s d r l then .nothing else .perform (some r)
        | none => .nothing

/-- Perform a packet that arrives at a die through `f`; a duplicate is answered again. -/
def onArrival (s : State) (d : Nat) (p : Packet) (ops : List Nat) (f : Option Remote → State) : Host.Outcome State Fault Refusal :=
  .next (match arrives s d p ops with
    | .nothing => s
    | .again a => pushGroups s d a
    | .perform r => f r)

/-- The membership entry that admits a packet (R390). -/
def admission (s : State) (d : Nat) (p : Packet) : Option Member :=
  ((s.die d).members.map (·.2)).find? (fun m => m.valid && m.key == p.jobKey && m.asid == p.asid)

/-- The address space in which the target performs a packet. -/
def Member.space (m : Member) (p : Packet) : Space := { asid := m.asid, root := m.root, key := p.jobKey }

/-- The writer of a remote operation (R318, R143). -/
def remoteWriter (p : Packet) : Writer := outsideWriter 2 p.srcCtx.toNat p.srcPkg

/-- NLD_REQUEST: an ordinary load at the target, whose faults a fresh walk confirms (R396, R305). -/
def execNldRequest (d : Nat) (p : Packet) (s : State) : Host.Outcome State Fault Refusal :=
  onArrival s d p [1] (fun _ => match admission s d p with
    | none => dropPacket s d
    | some m =>
      match translateRange s (dieView (m.space p) d) p.target.toNat (targetSize p) .read with
      | .error (c, t) => nak (confirmWalk s (dieView (m.space p) d) c t.toNat) d p c t
      | .ok (ps, s) =>
        let bad := badSpan s ps
        let (bs, s) := readSpans s ps
        respond s d p 8 ((bad.map (·.1)).getD 0) p.target bs)

/-- The data and then the flag of a store packet are performed, and it is answered; a fault of the ingress MMU is confirmed by a fresh
walk (R397, R399, R418, R305). -/
def performStore (s : State) (d : Nat) (p : Packet) (sp : Space) (w : Writer) : State :=
  match writeVia s (dieView sp d) w p.target.toNat p.data with
  | .error (c, t) => nak (confirmWalk s (dieView sp d) c t.toNat) d p c t
  | .ok s =>
    if p.aux = 0 then ack s d p
    else match addVia s (dieView sp d) (remoteWriter p) p.flag 1 none (some (0, 0)) with
      | .error (c, t) => nak (confirmWalk (countIfBad s c) (dieView sp d) c t.toNat) d p c p.flag
      | .ok s => ack s d p

/-- The address space and the writer of a store packet; none where the packet is not admitted. -/
def storeParty (s : State) (d : Nat) (p : Packet) (r : Option Remote) : Option (Space × Writer) :=
  match r.bind (·.own) with
  | some (sp, i) => some (sp, s.ctxWriter p.srcCtx.toNat i)
  | none => (admission s d p).map (fun m => (m.space p, remoteWriter p))

/-- A descriptor's range that is releasing or converting holds a packet at ingress, in arrival order (R417): the first such
descriptor. -/
def holdIn (s : State) (d : Nat) (sp : Space) (p : Packet) (n : Nat) : List (Nat × Placed) → List (Nat × Placed)
  | [] => []
  | (i, q) :: l =>
    if q.holds s d sp p.target.toNat n then
      (i, if q.heldStores.contains p then q else { q with heldStores := q.heldStores ++ [p] }) :: l
    else (i, q) :: holdIn s d sp p n l

/-- Hold a packet that writes `n` bytes of an address space at its target. -/
def holdPacket (s : State) (d : Nat) (sp : Space) (p : Packet) (n : Nat) : State :=
  s.updDie d (fun x => { x with placed := holdIn s d sp p n x.placed })

/-- Perform a store packet, or hold it (R397, R417). -/
def storeArrived (s : State) (d : Nat) (p : Packet) (r : Option Remote) : State :=
  match storeParty s d p r with
  | none => dropPacket s d
  | some (sp, w) =>
    if heldShard s d sp p.target.toNat p.data.length then holdPacket s d sp p p.data.length
    else performStore s d p sp w

/-- STORE_PACKET (R397). -/
def execStorePacket (d : Nat) (p : Packet) (s : State) : Host.Outcome State Fault Refusal :=
  onArrival s d p [2] (storeArrived s d p)

/-- The operation and type of a NAT packet. -/
def natOp (p : Packet) : Option (AtomOp × ElemTy) :=
  match AtomOp.ofCode (BitVec.ofNat 4 (p.aux.toNat % 16)), ElemTy.ofCode (BitVec.ofNat 4 (field p.data 16 1)) with
  | some o, some t => some (o, t)
  | _, _ => none

/-- Perform a NAT packet at its target's home, or hold it at a location that is held (R398, R417, R449). -/
def natArrived (s : State) (d : Nat) (p : Packet) : State :=
  match natOp p, (admission s d p).filter (·.nat) with
  | some (op, ty), some m =>
    if heldShard s d (m.space p) p.target.toNat (elemBytes ty) then holdPacket s d (m.space p) p (elemBytes ty)
    else match translate s (dieView (m.space p) d) p.target.toNat .atomic with
      | .error c => nak (confirmWalk s (dieView (m.space p) d) c p.target.toNat) d p c p.target
      | .ok (pa, _, s) =>
        let ret := bitAt p.aux.toNat 4
        match s.badAt pa (elemBytes ty) with
        | some c => if ret then respond s d p 8 c p.target (leBytes 32 0) else nak s d p c p.target
        | none =>
          let (s, old) := atomApply s (remoteWriter p) op ty pa (field p.data 0 8) (field p.data 8 8)
          if ret then respond s d p 8 0 p.target (leBytes 32 old) else ack s d p
  | _, _ => dropPacket s d

/-- NAT_PACKET: an ATOM at the target location's home (R398). -/
def execNatPacket (d : Nat) (p : Packet) (s : State) : Host.Outcome State Fault Refusal :=
  onArrival s d p [3] (fun _ => natArrived s d p)

/-! ### What comes back to the source -/

/-- The outstanding operation of a die that an answer concerns; an answer from this package must be the one that its target
gave. -/
def answered (s : State) (d : Nat) (a : Packet) : Option Remote :=
  if a.srcPkg = s.pkg && answerOf s a.srcDie (streamKey s.pkg d) a.seq ≠ some a then none
  else (s.die d).remotes.find? (fun r => r.pkt.seq == a.seq && r.pkt.dstPkg == a.srcPkg && r.pkt.dstDie == a.srcDie)

/-- An operation is over: it is counted as received (R267). -/
def closeRemote (s : State) (d : Nat) (r : Remote) : State :=
  s.updDie d (fun x => { x with
    remotes := x.remotes.erase r
    received := Map.upd 0 x.received r.region.space.asid.toNat (· + 1) })

/-- The value that a response lands (R396). -/
def remoteValue (r : Remote) (data : List Byte) : VecReg :=
  match r.ty with
  | some ty => (extElem ty (leNat (data.take (elemBytes ty)))).setWidth 2048
  | none => BitVec.ofNat 2048 (leNat data)

/-- RESPONSE: the result of a remote load or atomic becomes known, tagged where the target's data were uncorrectable, with a free
value (R396, R398). -/
def execResponse (d : Nat) (a : Packet) (s : State) : Host.Outcome State Fault Refusal :=
  match if a.op = 8 then answered s d a else none with
  | none => .next s
  | some r =>
    let s := closeRemote s d r
    match r.pend with
    | some n =>
      if (s.ctx r.ctx).tid ≠ r.tid then .next s
      else if a.aux = 0 then .next (readyPending s r.ctx n [remoteValue r a.data] none)
      else
        let (w, s) := s.free64
        .next (readyPending s r.ctx n [w.setWidth 2048] (some (a.aux, r.va)))
    | none => .next s

/-- ACKNOWLEDGEMENT of one sequence number or of a range of them, whose further length the auxiliary byte gives (R392). -/
def execAcknowledgement (d : Nat) (a : Packet) (s : State) : Host.Outcome State Fault Refusal :=
  .next (if a.op ≠ 9 then s else (List.range (a.aux.toNat + 1)).foldl (fun s i =>
    let b := { a with seq := (a.seq + i) % 2 ^ 24 }
    let known := if a.srcPkg = s.pkg && a.aux = 0 then answered s d b
      else if a.srcPkg = s.pkg then none
      else answered s d b
    match known with
    | some r => closeRemote s d r
    | none => s) s)

/-- A result that will not land (R396). -/
def dropRemoteResult (s : State) (r : Remote) : State :=
  match r.pend with
  | some n => if (s.ctx r.ctx).tid = r.tid then
      s.updCtx r.ctx (fun x => { x with pending := x.pending.filter (fun p => p.seq != n) }) else s
  | none => s

/-- NEGATIVE_ACKNOWLEDGEMENT: an outside trap at the source, and no landing (R396 to R399). -/
def execNegativeAcknowledgement (d : Nat) (a : Packet) (s : State) : Host.Outcome State Fault Refusal :=
  match if a.op = 10 then answered s d a else none with
  | none => .next s
  | some r =>
    let s := dropRemoteResult (closeRemote s d r) r
    .next (if r.coll then s else outsideTrap s r.tid r.region 2 a.aux a.target)

end Sys2Proof.Machine
end

