-- ==== Sys2Proof/Machine/Combiner.lean ====
section
/-! DEFINITION. The in-port combiner (R402 to R406): folds, contribution pieces, completion, and an entry's timers. -/

namespace Sys2Proof.Machine

/-! ### Folds (R404) -/

/-- The FP32 words of bytes, and back. -/
def fp32Words (n : Nat) (bs : List Byte) : List Nat := (List.range n).map (fun i => field bs (4 * i) 4)

/-- An element of a narrow type widened exactly to FP32, and an FP32 word rounded to the type (R404, R405). -/
def widen32 (f : FFmt) (b : Nat) : Nat := ((f.decode b).res.deliver .fp32 .rne 0 false).1
def narrow32 (f : FFmt) (b : Nat) : Nat := ((v32 b).res.deliver f .rne 0 false).1

/-- Fold AFFINE pairs: the later map after the earlier (R241, R404). -/
def foldAffine : List Nat → List Nat → List Nat
  | ga :: oa :: acc, gx :: ox :: x =>
    let m := (composeA (gx, ox) (ga, oa)).1
    m.1 :: m.2 :: foldAffine acc x
  | acc, _ => acc

/-- The triple of row j in the RESCALE layout of FP32 words (R412). -/
def rescaleRow (l : List Nat) (j : Nat) : Nat × Nat × List Nat :=
  (l.getD (2 * j) 0, l.getD (2 * j + 1) 0, (l.drop (64 + 64 * j)).take 64)

/-- Fold the RESCALE layout of r rows (R245, R412). -/
def foldRescale (acc x : List Nat) : List Nat :=
  let r := (acc.length - 64) / 64
  let rows := (List.range r).map (fun j => rescale (rescaleRow acc j) (rescaleRow x j))
  rows.flatMap (fun (m, s, _) => [m, s]) ++ (acc.drop (2 * r)).take (64 - 2 * r) ++ rows.flatMap (fun (_, _, v) => v)

/-- One fold, the accumulator on the left (R404). Operators are numbered as in R409. -/
def foldOp (op : Nat) (acc x : List Nat) : List Nat :=
  match op with
  | 0 => (acc.zip x).map (fun (a, b) => add32 a b)
  | 1 => (acc.zip x).map (fun (a, b) => max32 a b)
  | 2 => (acc.zip x).map (fun (a, b) => (fMinMax .fp32 false false a b).1)
  | 3 => foldAffine acc x
  | _ => foldRescale acc x

/-- Fold a list of contributions in order; the first is the accumulator. -/
def foldAll (op : Nat) : List (List Nat) → List Nat
  | [] => []
  | a :: l => l.foldl (foldOp op) a

/-- The formats of a contribution (R402). -/
def combFmt (code : Nat) : Option FFmt := (recType code).bind fmtOf

/-! ### Entries -/

def combOf (s : State) (d e : Nat) : Comb := Map.get {} (s.die d).comb e
def setComb (s : State) (d e : Nat) (c : Comb) : State := s.updDie d (fun x => { x with comb := Map.set {} x.comb e c })

/-- The contribution of a key, once all its pieces have arrived (R404). -/
def Comb.whole (c : Comb) (key : Nat) : Option (List Byte) :=
  let n := c.size / 256
  let ps := (List.range n).filterMap (fun i => (c.pieces.find? (fun (k, j, _) => k == key && j == i)).map (fun (_, _, b) => b))
  if ps.length = n then some ps.flatten else none

/-- A contribution's bytes as FP32 words. -/
def Comb.words (c : Comb) (bs : List Byte) : List Nat :=
  let f := (combFmt c.ty).getD .fp32
  let w := f.width / 8
  (List.range (c.size / w)).map (fun i => widen32 f (field bs (i * w) w))

/-- Fold one key's contribution. -/
def Comb.fold (c : Comb) (key : Nat) (bs : List Byte) : Comb :=
  { c with
    acc := some (match c.acc with
      | none => c.words bs
      | some a => foldOp c.op a (c.words bs))
    folded := c.folded ++ [key]
    pieces := c.pieces.filter (fun (k, _, _) => k != key) }

/-- Rank mode: fold while the next rank's contribution is whole (R404). Recursion is on the ranks left. -/
def Comb.foldRanks : Nat → Comb → Comb
  | 0, c => c
  | n + 1, c => match c.whole c.folded.length with
    | some bs => Comb.foldRanks n (c.fold c.folded.length bs)
    | none => c

/-- The contributions that an entry expects (R403). -/
def Comb.goal (c : Comb) (m : Mesh) : Nat := if c.timed then c.expected else m.axisSize c.axis

/-- The domain time at which a slot is folded (R404). -/
def Comb.foldTime (c : Comb) (slot : Nat) : Nat := 64 * (slot + 1) + c.guard

/-- Timed mode: the whole contributions of the slots that are due are folded, by slot and then rank. -/
def Comb.foldDue (c : Comb) (now : Nat) : Comb :=
  let keys := ((c.pieces.map (·.1)).eraseDups).filter (fun k => decide (c.foldTime (k / 256) ≤ now))
  let keys := keys.mergeSort (fun a b => decide (a ≤ b))
  keys.foldl (fun c k => if c.folded.length < c.expected then (match c.whole k with
    | some bs => c.fold k bs
    | none => c) else c) c

/-- The 64-byte status record (R406). -/
def Comb.status64 (c : Comb) (m : Mesh) (ok : Bool) (now : Nat) : List Byte :=
  let missing := if ok || c.timed then 0
    else ((List.range (m.axisSize c.axis)).filter (fun r => !c.folded.contains r && (c.whole r).isNone)).foldl (fun n r => n + 2 ^ r) 0
  leBytes 1 (b2n (!ok)) ++ leBytes 1 (b2n c.dup + b2n c.late * 2) ++ leBytes 2 c.folded.length ++ leBytes 4 0 ++ leBytes 8 now ++
    leBytes 32 missing ++ leBytes 16 0

/-- The result of a complete entry, rounded to its type (R405). -/
def Comb.result (c : Comb) : List Byte :=
  let f := (combFmt c.ty).getD .fp32
  (c.acc.getD []).flatMap (fun w => leBytes (f.width / 8) (narrow32 f w))

/-- Engine writes in order; they stop at a fault, or where a conversion holds a destination (R272, R417). -/
def engineWrites (v : View) (w : Writer) : List (Word × List Byte) → State → State × Option RowStop
  | [], s => (s, none)
  | (a, bs) :: l, s => match rowWrite s v w a bs with
    | .error e => (s, some e)
    | .ok s => engineWrites v w l s

/-- An entry ends: it is free, and its arm completes (R405, R406, R421). -/
def endEntry (s : State) (d e : Nat) (c : Cmd) (err : Option (BitVec 8 × Word)) (errOnly : Option (BitVec 8)) : State :=
  let (s, r) := finishCmd (setComb s d e {}) (.collective d) c err errOnly
  setEngine s (.collective d) (fun g => { g with
    completed := (g.completed + 1) % 2 ^ 32
    err := r.isSome
    cause := r.getD g.cause })

/-- The writes that end an entry: the result or the salvage, and the status record. -/
def entryWrites (c : Comb) (m : Mesh) (ok : Bool) (now : Nat) : List (Word × List Byte) :=
  let data := if ok then [(c.dest, c.result)]
    else match c.acc with
      | some a => if c.salvage = 0 then [] else [(c.salvage, a.flatMap (leBytes 4))]
      | none => []
  data ++ [(c.status, c.status64 m ok now)]

/-- Complete an entry, whole or incomplete (R405, R406); one whose destination is held by a conversion stays as it is. -/
def completeEntry (s : State) (d e : Nat) (ok : Bool) : State :=
  let c := combOf s d e
  match c.cmd with
  | none => s
  | some cmd =>
    match engineWrites (engineView cmd.region.space cmd.ctx) (cmd.writer s (.collective d))
        (entryWrites c (s.die d).mesh ok s.dtimeNs) s with
    | (_, some .held) => s
    | (t, some (.fault cause a)) => endEntry t d e cmd (some (cause, a)) (if ok then none else some 0x1A)
    | (t, none) => endEntry t d e cmd none (if ok then none else some 0x1A)

/-- An entry whose last expected contribution has been folded completes; one that is to end incomplete does so. -/
def settleEntry (s : State) (d e : Nat) : State :=
  let c := combOf s d e
  if !c.armed then s
  else if c.doomed then completeEntry s d e false
  else if c.goal (s.die d).mesh ≤ c.folded.length then completeEntry s d e true
  else s

/-- The slots of a timed entry that are due, and come before its timeout, are folded (R404, R406). -/
def Comb.foldNow (c : Comb) (now : Nat) : Comb :=
  if c.timed then c.foldDue (match c.deadline with | some t => min now t | none => now) else c

/-- An entry is to end incomplete, once what is due has been folded (R404, R406). -/
def doomEntry (s : State) (d e : Nat) : State :=
  settleEntry (setComb s d e { (combOf s d e).foldNow s.dtimeNs with doomed := true }) d e

/-- The contributions of an entry that have arrived whole, folded ones among them. -/
def Comb.arrived (c : Comb) : Nat :=
  c.folded.length + (((c.pieces.map (·.1)).eraseDups).filter (fun k => (c.whole k).isSome)).length

/-- Whether an entry of a die still awaits a contribution of a rank of its mesh (R406): in timed mode, which names no ranks, one of
any rank of the line as long as one is missing (log entry 62). -/
def Comb.awaits (c : Comb) (m : Mesh) (me r : Nat) : Bool :=
  let k := m.coord r c.axis
  c.armed && (m.line me c.axis).contains r &&
    (if c.timed then decide (c.arrived < c.expected) else !c.folded.contains k && (c.whole k).isNone)

/-- An entry that awaits a contribution of a member that is marked failed ends incomplete (R406, R422). -/
def failEntry (r d : Nat) (s : State) (e : Nat) : State :=
  match s.rank d with
  | some me => if (combOf s d e).awaits (s.die d).mesh me r then doomEntry s d e else s
  | none => s

/-- Every such entry of a die. -/
def failEntries (s : State) (d r : Nat) : State := (List.range 56).foldl (failEntry r d) s

/-- The members of a mesh that are marked failed. -/
def Mesh.failed (m : Mesh) : List Nat := (List.range m.size).filter (fun r => m.present r && !m.alive r)

/-- Arm an entry (R402, R421): an entry still armed ends the command with the error bit and cause 0x01. One that awaits a member
marked failed already ends at once (R406). -/
def armEntry (s : State) (d : Nat) (c : Cmd) : State :=
  let bs := c.cmdRec
  let e := field bs 0x2C 1
  if (combOf s d e).armed then
    let (s, r) := finishCmd s (.collective d) c none (some 0x01)
    setEngine s (.collective d) (fun g => g.ended r)
  else
    let x : Comb :=
      { armed := true
        op := field bs 2 1
        ty := field bs 3 1
        size := field bs 4 4
        axis := field bs 1 1
        timed := field bs 0x2D 1 == 1
        expected := field bs 0x2E 2
        guard := field bs 0x30 4
        deadline := if field bs 0x28 4 = 0 then none else some (s.dtimeNs + 1000 * field bs 0x28 4)
        dest := fieldW bs 0x10
        salvage := fieldW bs 0x18
        status := fieldW bs 0x20
        cmd := some c }
    let s := setEngine (setComb s d e x) (.collective d) (fun g => { g with cur := none })
    (s.die d).mesh.failed.foldl (fun s r => failEntry r d s e) s

/-! ### Contributions (R402, R403) -/

/-- Where a piece goes: dropped without a word to its source, not taken yet, dropped and acknowledged, or into its entry under a
key. -/
inductive PieceFate
  | refuse | wait | drop | late | duplicate
  | take (key : Nat)
  deriving DecidableEq, Repr

/-- Whether the reorder area of an entry has room for a piece under a key, within the vault budgets of its region (R403): a piece
whose turn has come takes none. -/
def Comb.roomFor (s : State) (c : Comb) (key n : Nat) : Bool :=
  (!c.timed && key == c.folded.length) || (match c.cmd with
    | some m => bytesInBudget s m.region true n
    | none => true)

/-- The checks of R402 and R403 on a piece. -/
def pieceFate (s : State) (d : Nat) (p : Packet) : PieceFate :=
  let e := bitsAt p.flag.toNat 0 6
  let piece := bitsAt p.flag.toNat 8 6
  let slot := bitsAt p.flag.toNat 16 48
  let c := combOf s d e
  let m := (s.die d).mesh
  if 56 ≤ e then .refuse
  else if !c.armed || c.doomed then .drop
  else match s.rank d, m.rankOf p.srcPkg p.srcDie with
    | some me, some r =>
      if p.data.length ≠ 256 || c.size / 256 ≤ piece || !(m.line me c.axis).contains r then .refuse
      else
        let rank := m.coord r c.axis
        let key := if c.timed then slot * 256 + rank else rank
        if c.timed && c.foldTime slot ≤ s.dtimeNs then .late
        else if c.folded.contains key || (c.whole key).isSome || c.pieces.any (fun (k, j, _) => k == key && j == piece) then .duplicate
        else if !c.roomFor s key p.data.length then .wait
        else .take key
    | _, _ => .refuse

/-- A piece that arrives (R402 to R404, R406). One for which its reorder area has no room yet is not answered, and its source sends
it again (R393). -/
def pieceArrived (s : State) (d : Nat) (p : Packet) : State :=
  let e := bitsAt p.flag.toNat 0 6
  let c := combOf s d e
  match (admission s d p).filter (·.comb) with
  | none => dropPacket s d
  | some _ => match pieceFate s d p with
    | .refuse => dropPacket s d
    | .wait => s
    | .drop => ack (dropPacket s d) d p
    | .late => doomEntry (setComb (ack (dropPacket s d) d p) d e { c with late := true }) d e
    | .duplicate => setComb (ack (dropPacket s d) d p) d e { c with dup := true }
    | .take key =>
      let c := { c with pieces := c.pieces ++ [(key, bitsAt p.flag.toNat 8 6, p.data)] }
      let c := if c.timed then c else c.foldRanks (c.goal (s.die d).mesh)
      settleEntry (setComb (ack s d p) d e c) d e

/-- CONTRIBUTION_PIECE (R402). -/
def execContributionPiece (d : Nat) (p : Packet) (s : State) : Host.Outcome State Fault Refusal :=
  onArrival s d p [4, 5] (fun _ => pieceArrived s d p)

/-- TIMED_SLOT_FOLD: the slots of a timed entry that are due are folded (R404). -/
def execTimedSlotFold (d e : Nat) (s : State) : Host.Outcome State Fault Refusal :=
  let c := combOf s d e
  .next (if c.armed && c.timed && !c.doomed then settleEntry (setComb s d e (c.foldNow s.dtimeNs)) d e else s)

/-- Whether an entry's timeout has passed before its last fold (R406). -/
def Comb.timedOut (c : Comb) (m : Mesh) (now : Nat) : Bool :=
  c.armed && c.deadline.any (fun t => decide (t ≤ now)) && decide (c.folded.length < c.goal m)

/-- COMBINER_TIMEOUT: an entry's timeout has passed before its last fold (R406). -/
def execCombinerTimeout (d e : Nat) (s : State) : Host.Outcome State Fault Refusal :=
  .next (if (combOf s d e).timedOut (s.die d).mesh s.dtimeNs then doomEntry s d e else s)

/-- What is due at the combiner of a die: the folds of slots, and then timeouts (R404, R406). -/
def combinerDue (s : State) (d : Nat) (x : Die) : List Instr :=
  x.comb.flatMap (fun (e, c) =>
    (if c.armed && c.timed && !c.doomed && c.pieces.any (fun (k, _, _) => decide (c.foldTime (k / 256) ≤ s.dtimeNs) && (c.whole k).isSome) then
      [.timedSlotFold d e] else []) ++
    (if c.deadline.any (fun t => decide (t ≤ s.dtimeNs)) && c.armed && !c.doomed then [.combinerTimeout d e] else []))

end Sys2Proof.Machine
end

