-- ==== Sys2Proof/Machine/Placement.lean ====
section
/-! DEFINITION. Distributed tensor descriptors (R408 to R412), their placement tables and generations (R413, R414), conversions
(R415 to R417), and the placement forms (R418 to R420). -/

namespace Sys2Proof.Machine

/-! ### Descriptors -/

/-- Fields of a descriptor record (R408). -/
def dtdDims (bs : List Byte) : Nat := field bs 2 1
def dtdType (bs : List Byte) : ElemTy := (recType (field bs 3 1)).getD .u8
def dtdRescale (bs : List Byte) : Bool := field bs 4 1 == 1
def dtdShape (bs : List Byte) : List Nat := (List.range (dtdDims bs)).map (fun i => field bs (8 + 4 * i) 4)
def dtdCodes (bs : List Byte) : List Nat := (List.range 4).map (fun a => field bs (0x18 + 2 * a) 2)
def dtdBase (bs : List Byte) : Word := fieldW bs 0x20
def dtdCapacity (bs : List Byte) : Nat := field bs 0x28 8
def dtdStaging (bs : List Byte) : Word := fieldW bs 0x30
def dtdCounter (bs : List Byte) : Word := fieldW bs 0x38

/-- A placement on one axis (R409). -/
inductive Place1
  | repl
  | shard (dim : Nat)
  | partial_ (op : Nat)
  deriving DecidableEq, Repr

/-- A placement code, and a demand code of an axis (R409, R411); none where it is reserved. -/
def placeOf (code : Nat) : Option Place1 :=
  if code = 0 then some .repl
  else if bitsAt code 14 2 = 1 && bitsAt code 0 12 = 0 then some (.shard (bitsAt code 12 2))
  else if bitsAt code 14 2 = 2 && bitsAt code 12 2 = 0 && bitsAt code 0 8 = 0 && bitsAt code 8 4 ≤ 4 then
    some (.partial_ (bitsAt code 8 4))
  else none
def demandOf (demand axis : Nat) : Option Place1 :=
  let c := bitsAt demand (3 * axis) 3
  if c = 0 then some .repl else if 4 ≤ c then some (.shard (c - 4)) else none

/-- The four places of a list of codes, and of a demand. -/
def places (codes : List Nat) : List Place1 := codes.map (fun c => (placeOf c).getD .repl)
def demandPlaces (demand : Nat) : List Place1 := (List.range 4).map (fun a => (demandOf demand a).getD .repl)

/-- The codes of a placement. -/
def Place1.code : Place1 → Nat
  | .repl => 0
  | .shard d => 2 ^ 14 + d * 2 ^ 12
  | .partial_ op => 2 ^ 15 + op * 2 ^ 8

/-- The product of the sizes of the axes that shard a dimension (R409). -/
def shardBy (m : Mesh) (l : List Place1) (dim : Nat) : Nat :=
  (l.zipIdx.map (fun (p, a) => if p = .shard dim then m.axisSize a else 1)).foldl (· * ·) 1

/-- The local shape of a global shape under places of the four axes (R410). -/
def localShape (m : Mesh) (shape : List Nat) (l : List Place1) : List Nat :=
  shape.zipIdx.map (fun (n, d) => n / max 1 (shardBy m l d))

/-- Whether every dimension is divisible by what shards it, and no shard names an absent dimension (R409, R411). -/
def divisible (m : Mesh) (shape : List Nat) (l : List Place1) : Bool :=
  l.all (fun p => match p with | .shard d => decide (d < shape.length) | _ => true) &&
    shape.zipIdx.all (fun (n, d) => n % max 1 (shardBy m l d) == 0)

/-- The bytes of a local shard (R410, R412). -/
def shardBytes (m : Mesh) (bs : List Byte) (l : List Place1) : Nat :=
  if dtdRescale bs then 256 + 256 * (dtdShape bs).headD 0
  else (localShape m (dtdShape bs) l).foldl (· * ·) 1 * elemBytes (dtdType bs)

/-- Whether a P placement suits the type, the layout and the local shape (R402, R410, R412). -/
def partialOk (m : Mesh) (bs : List Byte) (l : List Place1) (op : Nat) : Bool :=
  (combFmt (field bs 3 1)).isSome && (op ≤ 2 || field bs 3 1 == 0) && (op != 4 || dtdRescale bs) &&
    (op != 3 || ((localShape m (dtdShape bs) l).getLast?.getD 0) % 2 == 0)

/-- The rules of R408 to R412 on a record. -/
def dtdOk (m : Mesh) (bs : List Byte) : Bool :=
  let l := places (dtdCodes bs)
  let shape := dtdShape bs
  field bs 0 2 == 1 && decide (1 ≤ dtdDims bs) && decide (dtdDims bs ≤ 4) && (recType (field bs 3 1)).isSome &&
    field bs 3 1 != 7 && decide (field bs 4 1 ≤ 1) && zeroField bs 5 3 && shape.all (fun n => n != 0) &&
    ((List.range 4).drop (dtdDims bs)).all (fun i => field bs (8 + 4 * i) 4 == 1) &&
    (dtdCodes bs).all (fun c => (placeOf c).isSome) && ((dtdCodes bs).drop m.axes).all (fun c => c == 0) && divisible m shape l &&
    field bs 0x20 8 % 256 == 0 && dtdCapacity bs % 256 == 0 && field bs 0x30 8 % 256 == 0 && field bs 0x38 8 % 8 == 0 &&
    zeroField bs 0x40 8 && zeroField bs 0x48 1 && zeroField bs 0x49 55 &&
    l.all (fun p => match p with | .partial_ op => partialOk m bs l op | _ => true) &&
    (!dtdRescale bs || (field bs 3 1 == 0 && decide (shape.length = 2) && decide (shape.headD 0 ≤ 32) && shape.getD 1 0 == 64 &&
      l.all (fun p => match p with | .shard _ => false | _ => true)))

/-! ### The placement table -/

/-- The entry of a descriptor on a die (R413). -/
def findPlaced (s : State) (d : Nat) (addr : Word) (asid : BitVec 16) : Option (Nat × Placed) :=
  (s.die d).placed.find? (fun (_, q) => q.addr == addr && q.region.space.asid == asid)

/-- Change the entry of a descriptor on a die. -/
def updPlaced (s : State) (d : Nat) (addr : Word) (asid : BitVec 16) (f : Placed → Placed) : State :=
  s.updDie d (fun x => { x with placed := x.placed.map (fun (i, q) =>
    if q.addr == addr && q.region.space.asid == asid then (i, f q) else (i, q)) })

def Placed.asid (q : Placed) : BitVec 16 := q.region.space.asid
def Placed.now (q : Placed) : List Place1 := places q.placement
/-- Whether the placement of the present generation is what a demand names. -/
def Placed.meets (q : Placed) (demand : Nat) : Bool := q.now == demandPlaces demand

/-- Change the entry of a descriptor on every die of the package. -/
def updEvery (s : State) (addr : Word) (asid : BitVec 16) (f : Placed → Placed) : State :=
  (List.range 8).foldl (fun s d => updPlaced s d addr asid f) s

/-- A PLD that still waits at a descriptor. -/
def stillWaits (s : State) (c : Nat) : Bool :=
  (s.ctx c).run == .blocked && (match (s.ctx c).wait with | some (.placement _ _ _) => true | _ => false)

/-- Entries that were dropped leave the table once they are stable with no PLD waiting (R419). -/
def sweepDrops (s : State) (d : Nat) : State :=
  s.updDie d (fun x => { x with placed := x.placed.filter (fun (_, q) =>
    !(q.drop && q.st == 0 && !q.waiting.any (stillWaits s))) })

/-! ### Messages between members in different packages -/

/-- Kinds of collective transfers that the model's engines exchange (log entry 9). -/
def kDemand : Nat := 0
def kRelease : Nat := 1
def kReleasing : Nat := 2
def kConvert : Nat := 3
def kMet : Nat := 4
def kRemoved : Nat := 5
def kReply : Nat := 6
def kAsk : Nat := 7
/-- The kinds of an input of step 0, and of word that it cannot be had; those of later steps follow. -/
def kInput : Nat := 32
def kBadInput : Nat := 40

/-- A transfer of a die's collective engine to a member of another package (R387, R415); it waits while its stream is full
(R392). -/
def sendColl (s : State) (d rank kind a gen : Nat) (target : Word) (r : Region) (data : List Byte) : State :=
  let m := (s.die d).mesh
  let data := if data.isEmpty then leBytes 32 0 else data
  let p : Packet :=
    { jobKey := r.space.key
      asid := r.space.asid
      op := 6
      flits := (data.length + 31) / 32
      target := target
      flag := BitVec.ofNat 64 (kind + a % 2 ^ 24 * 2 ^ 8 + gen % 2 ^ 32 * 2 ^ 32)
      seq := 0
      srcPkg := s.pkg
      srcDie := d
      dstPkg := m.pkgOf rank
      dstDie := m.dieAt rank
      aux := 0
      srcCtx := BitVec.ofNat 16 (engineIdent (.collective d))
      data := data }
  let e : Remote :=
    { pkt := p
      ctx := 0
      tid := 0
      cseq := 0
      region := r
      va := target
      coll := true }
  if sentFull s d p.dstPkg p.dstDie then s.updDie d (fun x => { x with heldNts := x.heldNts ++ [(0, e)] }) else sendRemote s d e

/-- Send to every present member of another package, one marked failed among them: it learns what becomes of the descriptor. -/
def sendOthers (s : State) (d kind a gen : Nat) (q : Placed) (data : List Byte) : State :=
  let m := (s.die d).mesh
  ((List.range m.size).filter (fun r => m.present r && m.pkgOf r != s.pkg)).foldl (fun s r =>
    sendColl s d r kind a gen q.addr q.region data) s

/-- Bytes in pieces of 256. Recursion is on the pieces left. -/
def piecesOf256 : Nat → List Byte → List (List Byte)
  | 0, _ => []
  | n + 1, bs => if bs.isEmpty then [] else bs.take 256 :: piecesOf256 n (bs.drop 256)

/-! ### What a conversion moves (R415) -/

/-- The axes that shard a dimension, ascending. -/
def shardAxes (l : List Place1) (d : Nat) : List Nat := (List.range 4).filter (fun a => l.getD a .repl == .shard d)

/-- The block of a dimension that a rank holds: cut first by the lowest axis (R409). -/
def blockOf (m : Mesh) (l : List Place1) (d r : Nat) : Nat :=
  (shardAxes l d).foldl (fun b a => b * m.axisSize a + m.coord r a) 0

/-- The coordinate on an axis of the members that hold a block of a dimension. -/
def blockCoord (m : Mesh) (l : List Place1) (d b a : Nat) : Nat :=
  b / (((shardAxes l d).filter (fun e => decide (a < e))).map m.axisSize).prod % max 1 (m.axisSize a)

/-- The member that gives a rank the data of one block of each dimension: on a sharded axis the one that holds the block, on
every other axis the one with the rank's own coordinate (R414, R415). -/
def holderOf (m : Mesh) (l : List Place1) (r : Nat) (blocks : List Nat) : Nat :=
  ((List.range 4).map (fun a => (match l.getD a .repl with
    | .shard d => blockCoord m l d (blocks.getD d 0) a
    | _ => m.coord r a) * m.stride a)).sum

/-- All lists that take one number from each range of a list of starts and lengths; the last one varies fastest. -/
def indexLists : List (Nat × Nat) → List (List Nat)
  | [] => [[]]
  | (b, n) :: rest => (List.range n).flatMap (fun i => (indexLists rest).map ((b + i) :: ·))

/-- The start and the length in each dimension of what a rank holds. -/
def heldRange (m : Mesh) (shape : List Nat) (l : List Place1) (r : Nat) : List (Nat × Nat) :=
  (localShape m shape l).zipIdx.map (fun (n, d) => (blockOf m l d r * n, n))

/-- The members whose values a rank's data under a new placement are taken from. -/
def holders (m : Mesh) (shape : List Nat) (old new : List Place1) (r : Nat) : List Nat :=
  let parts := localShape m shape old
  ((indexLists ((heldRange m shape new r).zipIdx.map (fun ((b, n), d) =>
    let p := max 1 (parts.getD d 1)
    (b / p, (b + n - 1) / p + 1 - b / p)))).map (holderOf m old r)).eraseDups

/-- The place of an index list in the row-major order of a shape (R410). -/
def rowMajor (shape g : List Nat) : Nat := (g.zip shape).foldl (fun n (i, p) => n * p + i % max 1 p) 0

/-- A member's data under a new placement: each element from the member that holds its block (R409, R415). -/
def movedShard (m : Mesh) (shape : List Nat) (old new : List Place1) (inp : Nat → List Nat) (r : Nat) : List Nat :=
  let parts := localShape m shape old
  let have_ := (holders m shape old new r).map (fun h => (h, inp h))
  (indexLists (heldRange m shape new r)).map (fun g =>
    let h := holderOf m old r ((g.zip parts).map (fun (i, p) => i / max 1 p))
    match have_.find? (fun (k, _) => k == h) with
    | some (_, v) => v.getD (rowMajor parts g) 0
    | none => 0)

/-- Part `c` of `n` of a dimension of dense data (R415). -/
def partOf (shape : List Nat) (dim n c : Nat) (l : List Nat) : List Nat :=
  (indexLists (shape.zipIdx.map (fun (k, d) => if d = dim then (c * (k / max 1 n), k / max 1 n) else (0, k)))).map (fun g =>
    l.getD (rowMajor shape g) 0)

/-- One step of a conversion: the change of one axis, between two placements of the tensor (R415). -/
structure ConvStep where
  axis : Nat
  old : List Place1
  new : List Place1
  deriving DecidableEq, Repr

/-- Whether a fold cannot be made part by part: other axes shard the dimension as well, so that the parts are not the blocks of
R409, or the parts would cut the pairs of AFFINE (R410). -/
def foldsWhole (m : Mesh) (shape : List Nat) (new : List Place1) (op d : Nat) : Bool :=
  decide (1 < (shardAxes new d).length) || (op == 3 && ((localShape m shape new).getLast?.getD 0) % 2 == 1)

/-- The steps that bring one axis to its new placement (R415). A fold that cannot be made part by part is made whole, and then
cut. -/
def axisSteps (m : Mesh) (shape : List Nat) (cur : List Place1) (a : Nat) (aim : Place1) : List ConvStep :=
  match cur.getD a .repl, aim with
  | .partial_ op, .shard d =>
    if foldsWhole m shape (cur.set a aim) op d then [⟨a, cur, cur.set a .repl⟩, ⟨a, cur.set a .repl, cur.set a aim⟩]
    else [⟨a, cur, cur.set a aim⟩]
  | p, aim => if p = aim then [] else [⟨a, cur, cur.set a aim⟩]

/-- The steps of a conversion, axis by axis in ascending order (R415). Recursion is on the axes left. -/
def convSteps (m : Mesh) (shape : List Nat) (new : List Place1) : List Nat → List Place1 → List ConvStep
  | [], _ => []
  | a :: as, cur => axisSteps m shape cur a (new.getD a .repl) ++ convSteps m shape new as (cur.set a (new.getD a .repl))

/-- The operator with which a step folds, if it does. -/
def ConvStep.fold (t : ConvStep) : Option Nat := match t.old.getD t.axis .repl with | .partial_ op => some op | _ => none

/-- Whether a member folds in a step: the line's rank-0 member where the result goes to the whole line, every member where each
folds its own part (R415). -/
def ConvStep.folds (t : ConvStep) (m : Mesh) (r : Nat) : Bool :=
  t.fold.isSome && (t.new.getD t.axis .repl != .repl || m.coord r t.axis == 0)

/-- The line's rank-0 member. -/
def lineHead (m : Mesh) (r a : Nat) : Nat := (m.line r a).headD r

/-- The members whose data a member needs in a step: its line's contributions where it folds, else the folded result, or the
holders of its blocks (R414, R415). -/
def ConvStep.needs (t : ConvStep) (m : Mesh) (shape : List Nat) (r : Nat) : List Nat :=
  if t.folds m r then m.line r t.axis
  else if t.fold.isSome then [lineHead m r t.axis]
  else holders m shape t.old t.new r

/-- The members to which a member gives data at the start of a step. -/
def ConvStep.targets (t : ConvStep) (m : Mesh) (shape : List Nat) (r : Nat) : List Nat :=
  (if t.fold.isSome then (m.line r t.axis).filter (t.folds m ·)
    else (List.range m.size).filter (fun k => (holders m shape t.old t.new k).contains r)).filter m.alive

/-- The conversion in progress at a member. -/
def Placed.steps (q : Placed) (m : Mesh) : List ConvStep :=
  convSteps m (dtdShape q.record) (demandPlaces q.demand) (List.range 4) q.now

/-- Whether the data stand as FP32 at a step: a fold has come before (R415). -/
def Placed.wide (q : Placed) (m : Mesh) (i : Nat) : Bool := ((q.steps m).take i).any (fun t => t.fold.isSome)

/-- Bytes of an element at a step, and the elements of a shard under a placement. -/
def Placed.width (q : Placed) (m : Mesh) (i : Nat) : Nat := if q.wide m i then 4 else elemBytes (dtdType q.record)
def Placed.count (q : Placed) (m : Mesh) (l : List Place1) : Nat := shardBytes m q.record l / elemBytes (dtdType q.record)

/-- The bytes of elements. -/
def elemBytesOf (w : Nat) (l : List Nat) : List Byte := l.flatMap (leBytes w)

/-- The key of an input: its step and the rank that it comes from. -/
def inputKey (i r : Nat) : Nat := i * 256 + r

/-- The number of elements, and their width, of what a member receives in a step. -/
def Placed.inputShape (q : Placed) (m : Mesh) (i r : Nat) (t : ConvStep) : Nat × Nat :=
  if t.folds m r then (q.count m (if t.new.getD t.axis .repl = .repl then t.old else t.new), q.width m i)
  else if t.fold.isSome then (q.count m t.new, 4)
  else (q.count m t.old, q.width m i)

/-- An input of a member in a step, once all its pieces have arrived. -/
def Placed.input (q : Placed) (m : Mesh) (i me r : Nat) (t : ConvStep) : Option (List Nat) :=
  let (n, w) := q.inputShape m i me t
  let ps := (List.range ((n * w + 255) / 256)).filterMap (fun j =>
    (q.inputs.find? (fun (k, p, _) => k == inputKey i r && p == j)).map (fun (_, _, b) => b))
  if ps.length = (n * w + 255) / 256 then some (elemsOf w ps.flatten n) else none

/-- Whether an input of a step can come no more: its member is marked failed, or has said so (R414, R422). -/
def Placed.lost (q : Placed) (m : Mesh) (i me : Nat) (t : ConvStep) : Bool :=
  (t.needs m (dtdShape q.record) me).any (fun k => q.badInputs.contains (inputKey i k) || (!m.alive k && (q.input m i me k t).isNone))

/-- One chunk of a fold in a combiner entry: the contributions of a line, each completed to whole pieces, folded in rank order
(R404, R415). -/
def foldChunk (op ty axis w : Nat) (parts : List (List Nat)) : Comb :=
  let bytes := parts.map (elemBytesOf w)
  let size := ((bytes.map List.length).foldl max 0 + 255) / 256 * 256
  let c : Comb :=
    { armed := true
      op := op
      ty := ty
      size := size
      axis := axis
      pieces := bytes.zipIdx.flatMap (fun (b, k) => ((piecesOf256 (size + 1) (b ++ List.replicate (size - b.length) 0)).zipIdx.map
        (fun (x, j) => (k, j, x)))) }
  c.foldRanks parts.length

/-- The chunks of a fold, 16 KiB each, in ascending address order (R415). Recursion is on the chunks left. -/
def foldChunks (op ty axis w : Nat) : Nat → List (List Nat) → List Comb
  | 0, _ => []
  | n + 1, parts => foldChunk op ty axis w (parts.map (·.take (16384 / w))) ::
      foldChunks op ty axis w n (parts.map (·.drop (16384 / w)))

/-- The fold of a step from its contributions: the entries' accumulators in FP32, and the last entry. -/
def foldStep (q : Placed) (m : Mesh) (i : Nat) (t : ConvStep) (parts : List (List Nat)) : List Nat × Comb :=
  let w := q.width m i
  let n := (parts.map List.length).foldl max 0
  let cs := foldChunks (t.fold.getD 0) (if q.wide m i then 0 else field q.record 3 1) t.axis w ((n * w + 16383) / 16384) parts
  ((cs.flatMap (fun c => (c.acc.getD []).take (min n (16384 / w)))).take n, cs.getLast?.getD {})

/-- A reserved combiner entry of a die that is free (R402). -/
def reservedEntry (s : State) (d : Nat) : Option Nat := ((List.range 8).map (· + 56)).find? (fun e => !(combOf s d e).armed)

/-- What a member gives another one at the start of a step. -/
def Placed.giving (q : Placed) (m : Mesh) (t : ConvStep) (k : Nat) (l : List Nat) : List Nat :=
  match t.fold, t.new.getD t.axis .repl with
  | some _, .shard d => partOf (localShape m (dtdShape q.record) t.old) d (m.axisSize t.axis) (m.coord k t.axis) l
  | _, _ => l

/-- Give a member the data of a step, or word that they cannot be had, from rank `me`. -/
def giveTo (s : State) (d me i : Nat) (q : Placed) (k w : Nat) (data : Option (List Nat)) : State :=
  let m := (s.die d).mesh
  match data with
  | none =>
    if m.pkgOf k = s.pkg then
      updPlaced s (m.dieAt k) q.addr q.asid (fun x => { x with badInputs := x.badInputs ++ [inputKey i me] })
    else sendColl s d k (kBadInput + i) 0 q.gen q.addr q.region []
  | some l =>
    let ps := (piecesOf256 (l.length * w + 1) (elemBytesOf w l)).zipIdx
    if m.pkgOf k = s.pkg then
      updPlaced s (m.dieAt k) q.addr q.asid (fun x => { x with inputs := x.inputs ++ ps.map (fun (b, j) => (inputKey i me, j, b)) })
    else ps.foldl (fun s (b, j) => sendColl s d k (kInput + i) j q.gen q.addr q.region b) s

/-- A member gives its data at the start of a step (R415, R416). -/
def supplyStep (s : State) (d me : Nat) (q : Placed) (t : ConvStep) : State :=
  let m := (s.die d).mesh
  (t.targets m (dtdShape q.record) me).foldl (fun s k =>
    giveTo s d me q.step q k (q.width m q.step) (q.cur.map (q.giving m t k)))
    (updPlaced s d q.addr q.asid (fun x => { x with supplied := true }))

/-- The other members of a line, which wait for a fold's result. -/
def listeners (m : Mesh) (t : ConvStep) (me : Nat) : List Nat :=
  if t.new.getD t.axis .repl = .repl && t.folds m me then (m.line me t.axis).filter (fun k => k != me && m.present k) else []

/-- What a failing member can give no more, as the inputs of other members (R414): what it has not given yet in its step, and
all of the steps that follow. -/
def notGiven (q : Placed) (m : Mesh) (me : Nat) : List (Nat × Nat) :=
  (q.steps m).zipIdx.flatMap (fun (t, i) =>
    let first := if i < q.step || (i == q.step && q.supplied) then [] else t.targets m (dtdShape q.record) me
    let later := if i < q.step then [] else listeners m t me
    (first ++ later).map (fun k => (i, k)))

/-! ### The coordinator (R413, R414, R415, R419) -/

/-- The die of this package that coordinates a mesh, if it is here: that of the member of rank 0. -/
def coordinator (s : State) (d : Nat) : Option Nat :=
  let m := (s.die d).mesh
  if m.pkgOf 0 = s.pkg then some (m.dieAt 0) else none

/-- The shard of a member as elements, none where it cannot be read (R416). -/
def readShard (s : State) (d : Nat) (q : Placed) : Option (List Nat) × State :=
  let m := (s.die d).mesh
  match readVia s (dieView q.region.space d) (dtdBase q.record).toNat (shardBytes m q.record q.now) with
  | .error _ => (none, s)
  | .ok (bs, s) => (some (elemsOf (elemBytes (dtdType q.record)) bs (q.count m q.now)), s)

/-- A member enters the conversion that the coordinator begins, for a demand of rank `asker`: its shard is read. One marked failed
enters it too, but gives nothing (R422). -/
def enterConversion (s : State) (d : Nat) (addr : Word) (asid : BitVec 16) (gen demand asker : Nat) (mismatch : Bool) : State :=
  match findPlaced s d addr asid with
  | some (_, q) =>
    if q.gen = gen && (q.st == 0 || q.st == 1) then
      let (cur, s) := readShard s d q
      updPlaced s d addr asid (fun q => { q with
        st := 2
        demand := demand
        asker := asker
        mismatch := mismatch
        step := 0
        cur := cur
        supplied := false
        entry := none })
    else s
  | none => s

/-- A demand leaves the pending demands of the member that has made it; a removed one lets its waiters trap (R415, R417). -/
def clearDemand (demand : Nat) (removed : Bool) (q : Placed) : Placed :=
  { q with
    own := q.own.erase demand
    refused := if removed && q.own.contains demand then q.refused ++ [demand] else q.refused }

/-- A demand of a rank has been met by the placement as it is: the coordinator of a die tells the member (R414). -/
def demandMet (s : State) (d : Nat) (q : Placed) (demand rank : Nat) : State :=
  let m := (s.die d).mesh
  if m.pkgOf rank = s.pkg then updPlaced s (m.dieAt rank) q.addr q.asid (clearDemand demand false)
  else sendColl s d rank kMet demand q.gen q.addr q.region []

/-- The argument of a transfer about a demand of a rank. -/
def demandArg (demand rank : Nat) (flag : Bool) : Nat := demand + b2n flag * 2 ^ 12 + rank * 2 ^ 13

/-- A demand of a rank cannot be served: the descriptor is stable again at a member, and the demand leaves its own ones if it is that
rank's (R415). -/
def demandRemoved (s : State) (d : Nat) (demand rank : Nat) (q : Placed) : Placed :=
  let q := if q.st = 1 then { q with st := 0 } else q
  if s.rank d = some rank then clearDemand demand true q else q

/-- The coordinator goes on as far as it can (R414). Recursion is on the transitions left. -/
def advanceCoord (d : Nat) (addr : Word) (asid : BitVec 16) : Nat → State → State
  | 0, s => s
  | fuel + 1, s => match findPlaced s d addr asid with
    | none => s
    | some (_, q) => match q.demands with
      | [] => s
      | (h, r) :: rest =>
        let m := (s.die d).mesh
        let pop := fun (s : State) => updPlaced s d addr asid (fun x => { x with demands := rest })
        let here := fun (f : Placed → Placed) (s : State) => updEvery s addr asid (fun x => if x.gen = q.gen then f x else x)
        if q.st = 0 then
          if q.meets h then advanceCoord d addr asid fuel (demandMet (pop s) d q h r)
          else
            let s := here (fun x => if x.st = 0 then { x with st := 1 } else x) s
            advanceCoord d addr asid fuel (sendOthers s d kReleasing 0 q.gen q [])
        else if q.st = 1 && (List.range m.size).all (fun r => !m.alive r || q.releases.contains (q.gen, r)) then
          if dtdCapacity q.record < shardBytes m q.record (demandPlaces h) then
            let s := (List.range 8).foldl (fun s k => updPlaced s k addr asid (fun x =>
              if x.gen = q.gen then demandRemoved s k h r x else x)) (pop s)
            advanceCoord d addr asid fuel (sendOthers s d kRemoved (demandArg h r false) q.gen q [])
          else
            let s := sendOthers s d kConvert (demandArg h r q.differs) q.gen q []
            let s := updPlaced s d addr asid (fun x => { x with releases := x.releases.filter (fun (g, _) => decide (q.gen ≤ g)) })
            (List.range 8).foldl (fun s k => enterConversion s k addr asid q.gen h r q.differs) s
        else s

/-- Run the coordinator of a descriptor. -/
def runCoord (s : State) (d : Nat) (addr : Word) (asid : BitVec 16) : State :=
  match findPlaced s d addr asid with
  | some (_, q) => advanceCoord d addr asid (2 * q.demands.length + 2) s
  | none => s

/-- The generation that will satisfy a demand that joins a coordinator's queue (R419). -/
def Placed.satisfiedBy (q : Placed) (demand : Nat) : Nat :=
  ((q.demands.map (·.1) ++ [demand]).foldl (fun ((l, g) : List Place1 × Nat) d => if l == demandPlaces d then (l, g) else (demandPlaces d, g + 1))
    (q.now, q.gen)).2

/-- A demand reaches the coordinator of a die's mesh (R414): the generation that will satisfy it, when it is known here. -/
def queueDemand (s : State) (d : Nat) (q : Placed) (demand : Nat) (ask : Bool) : State × Option Nat :=
  let s := updPlaced s d q.addr q.asid (fun x => { x with own := x.own ++ [demand], refused := x.refused.filter (· != demand) })
  match coordinator s d with
  | none => (sendColl s d 0 (if ask then kAsk else kDemand) demand q.gen q.addr q.region [], none)
  | some k => match findPlaced s k q.addr q.asid with
    | none => (s, none)
    | some (_, co) =>
      let s := updPlaced s k q.addr q.asid (fun x => { x with demands := x.demands ++ [(demand, (s.rank d).getD 0)] })
      (runCoord s k q.addr q.asid, some (co.satisfiedBy demand))

/-- A release reaches a coordinator of this package: it compares the records (R419). -/
def takeRelease (s : State) (k rank gen : Nat) (addr : Word) (asid : BitVec 16) (record : List Byte) : State :=
  let s := updPlaced s k addr asid (fun x => { x with
    releases := if x.releases.contains (gen, rank) then x.releases else x.releases ++ [(gen, rank)]
    differs := x.differs || x.record != record })
  runCoord s k addr asid

/-- A die releases the present generation (R414); a second release of it has no effect. -/
def releaseGen (s : State) (d : Nat) (addr : Word) (asid : BitVec 16) : State :=
  match findPlaced s d addr asid, s.rank d with
  | some (_, q), some r =>
    if q.released then s
    else
      let s := updPlaced s d addr asid (fun x => { x with released := true })
      match coordinator s d with
      | none => sendColl s d 0 kRelease 0 q.gen addr q.region q.record
      | some k => takeRelease s k r q.gen addr asid q.record
  | _, _ => s

/-! ### Ends of a conversion (R416, R417) -/

/-- The stores and atomics that a conversion held are performed in arrival order (R417). -/
def performHeld (s : State) (d : Nat) (l : List Packet) : State :=
  l.foldl (fun s p =>
    if p.op = 3 then natArrived s d p
    else storeArrived s d p (if p.srcPkg = s.pkg then (s.die p.srcDie).remotes.find? (fun r => r.pkt = p) else none)) s

/-- The writer of a conversion (R416). -/
def convWriter (s : State) (d : Nat) : Writer := ⟨1, engineIdent (.collective d), s.pkg, some (0xFFFF, 0, 4)⟩

/-- Free the reserved entry that holds a member's fold. -/
def freeEntry (s : State) (d : Nat) (q : Placed) : State :=
  match q.entry with
  | some e => setComb s d e {}
  | none => s

/-- A member fails: what it can give no more is lost to the others, its counter takes an add with the error bit, and the held
stores are performed (R414, R417). -/
def failMember (s : State) (d me : Nat) (q : Placed) (cause : BitVec 8) : State :=
  let s := (if q.mismatch then [] else notGiven q (s.die d).mesh me).foldl (fun s (i, k) => giveTo s d me i q k 1 none) s
  let s := updPlaced (freeEntry s d q) d q.addr q.asid (fun x => { x with
    st := 3
    heldStores := []
    inputs := []
    badInputs := []
    cur := none
    entry := none })
  let s := match addVia s (dieView q.region.space d) (convWriter s d) (dtdCounter q.record) 1 (some cause) none with
    | .ok s => s
    | .error (c, t) => faultRecord (confirmWalk s (dieView q.region.space d) c t.toNat) q.region 2 c 0 0 t
  performHeld s d q.heldStores

/-- The state in which a member begins its next generation: releasing where the coordinator of this package serves a demand of
that generation already (R414). -/
def nextStage (s : State) (d gen : Nat) (q : Placed) : Nat :=
  match coordinator s d with
  | some k => match findPlaced s k q.addr q.asid with
    | some (_, co) => if co.gen = gen && co.st = 1 then 1 else 0
    | none => 0
  | none => 0

/-- A member begins generation g + 1 (R414, R416): the counter moves, held stores are performed, a pending demand of its own
that the new placement does not satisfy releases it at once, and the coordinator serves its next demand. -/
def beginGeneration (s : State) (d : Nat) (q : Placed) : State :=
  let s := updPlaced s d q.addr q.asid (fun x => { x with
    st := nextStage s d (q.gen + 1) q
    gen := q.gen + 1
    placement := (demandPlaces q.demand).map Place1.code
    released := false
    own := if s.rank d = some q.asker then x.own.erase q.demand else x.own
    inputs := []
    badInputs := []
    cur := none
    heldStores := []
    demands := if coordinator s d = some d then x.demands.drop 1 else x.demands })
  let s := match addVia s (dieView q.region.space d) (convWriter s d) (dtdCounter q.record) 1 none (some (0, 0)) with
    | .ok s => s
    | .error (c, t) => faultRecord (confirmWalk s (dieView q.region.space d) c t.toNat) q.region 2 c 0 0 t
  let s := performHeld s d q.heldStores
  let s := match findPlaced s d q.addr q.asid with
    | some (_, x) => if x.own.all x.meets then s else releaseGen s d q.addr q.asid
    | none => s
  sweepDrops (match coordinator s d with
    | some k => runCoord s k q.addr q.asid
    | none => s) d

/-- Write data to the staging area (R415, R416). -/
def writeStaging (s : State) (d : Nat) (q : Placed) (bs : List Byte) : Except (BitVec 8 × Word) State :=
  writeVia s (dieView q.region.space d) (convWriter s d) (dtdStaging q.record).toNat bs

/-- Write the new shard to staging, and from staging to the local base (R416). -/
def writeShard (s : State) (d : Nat) (q : Placed) (bs : List Byte) : Except (BitVec 8 × Word) State :=
  let v := dieView q.region.space d
  match writeStaging s d q bs with
  | .error e => .error e
  | .ok s => match readVia s v (dtdStaging q.record).toNat bs.length with
    | .error e => .error e
    | .ok (bs, s) => writeVia s v (convWriter s d) (dtdBase q.record).toNat bs

/-- The entry of an index of a die's placement table. -/
def placedAt (s : State) (d n : Nat) : Option Placed := ((s.die d).placed.find? (fun (i, _) => i == n)).map (·.2)

/-- The bytes of a member's data when every step is done: folded data are rounded once to the type (R405, R415). -/
def Placed.newShard (q : Placed) (m : Mesh) : List Byte :=
  let l := q.cur.getD []
  let narrow := narrow32 ((combFmt (field q.record 3 1)).getD .fp32)
  elemBytesOf (elemBytes (dtdType q.record)) (if q.wide m (q.steps m).length then l.map narrow else l)

/-- A member whose write of staging or of its shard faults fails, with a record of the fault (R416). -/
def failWrite (s : State) (d me : Nat) (q : Placed) (e : BitVec 8 × Word) : State :=
  faultRecord (confirmWalk (failMember s d me q 0x1A) (dieView q.region.space d) e.1 e.2.toNat) q.region 2 e.1 0 0 e.2

/-- A member has its data of the next step: intermediate data stand in the staging area, as far as it goes, and those of the last
step become the new shard (R415, R416). -/
def nextStep (s : State) (d me : Nat) (q : Placed) (cur : List Nat) : State :=
  let m := (s.die d).mesh
  let q := { q with step := q.step + 1, cur := some cur, supplied := false, entry := none }
  if q.step < (q.steps m).length then
    match writeStaging s d q ((elemBytesOf (q.width m q.step) cur).take (dtdCapacity q.record)) with
    | .error e => failWrite s d me q e
    | .ok s => updPlaced s d q.addr q.asid (fun x => { x with
        step := q.step
        cur := q.cur
        supplied := false
        entry := none
        inputs := x.inputs.filter (fun (k, _, _) => decide (inputKey q.step 0 ≤ k)) })
  else match writeShard s d q (q.newShard m) with
    | .error e => failWrite s d me q e
    | .ok s => beginGeneration s d q

/-- A step of a member whose inputs have all arrived: it folds in a reserved entry, or takes its data (R404, R415). -/
def takeStep (s : State) (d me : Nat) (q : Placed) (t : ConvStep) (ins : List (Nat × List Nat)) : State :=
  let m := (s.die d).mesh
  let inp := fun k => ((ins.find? (fun (r, _) => r == k)).map (·.2)).getD []
  if t.folds m me then
    match reservedEntry s d with
    | none => s
    | some e =>
      let (l, c) := foldStep q m q.step t (ins.map (·.2))
      updPlaced (setComb s d e c) d q.addr q.asid (fun x => { x with cur := some l, entry := some e })
  else if t.fold.isSome then nextStep s d me q (inp (lineHead m me t.axis))
  else nextStep s d me q (movedShard m (dtdShape q.record) t.old t.new inp me)

/-- A converting member goes on by one transition (R415): it gives its data, folds or moves what has arrived, or sends the result
of its fold to its line. One marked failed gives nothing (R422). -/
def advanceMember (s : State) (d me : Nat) (q : Placed) (t : ConvStep) : State :=
  let m := (s.die d).mesh
  let ins := (t.needs m (dtdShape q.record) me).filterMap (fun k => (q.input m q.step me k t).map (fun l => (k, l)))
  if !q.supplied then
    if m.alive me then supplyStep s d me q t else updPlaced s d q.addr q.asid (fun x => { x with supplied := true })
  else if q.entry.isSome then
    let s := (if m.alive me then listeners m t me else []).foldl (fun s k => giveTo s d me q.step q k 4 q.cur) (freeEntry s d q)
    nextStep s d me q (q.cur.getD [])
  else if ins.length = (t.needs m (dtdShape q.record) me).length then takeStep s d me q t ins
  else s

/-- MEMBER_SHARD_WRITE: a converting member goes on towards its new shard (R414 to R416). -/
def execMemberShardWrite (d n : Nat) (s : State) : Host.Outcome State Fault Refusal :=
  match placedAt s d n, s.rank d with
  | some q, some r =>
    let m := (s.die d).mesh
    .next (match (q.steps m)[q.step]? with
      | some t => if q.st ≠ 2 || q.mismatch || (q.entry.isNone && q.lost m q.step r t) then s else advanceMember s d r q t
      | none => s)
  | _, _ => .next s

/-- MEMBER_CONVERSION_FAILED: an input of a member's step cannot arrive, or the records differ (R414, R417, R419, R422). -/
def execMemberConversionFailed (d n : Nat) (s : State) : Host.Outcome State Fault Refusal :=
  match placedAt s d n, s.rank d with
  | some q, some r =>
    .next (if q.st ≠ 2 then s
      else if q.mismatch then failMember s d r q 0x12
      else match (q.steps (s.die d).mesh)[q.step]? with
        | some t => if q.entry.isNone && q.lost (s.die d).mesh q.step r t then failMember s d r q 0x1A else s
        | none => s)
  | _, _ => .next s

/-- A member is marked failed in every mesh table of the package: entries that await it end incomplete, and coordinators go on
without its release (R422, R414). -/
def markFailed (s : State) (pkg die : Nat) : State :=
  let s := (List.range 8).foldl (fun s d => s.updDie d (fun x => { x with mesh := { x.mesh with
    members := x.mesh.members.map (fun e => if e.getLsbD 8 && e.toNat % 256 = pkg + die * 32 then e ||| 0x200 else e) } })) s
  (List.range 8).foldl (fun s d =>
    let m := (s.die d).mesh
    let s := match m.rankOf pkg die with
      | some r => failEntries s d r
      | none => s
    (s.die d).placed.foldl (fun s (_, q) => if coordinator s d = some d then runCoord s d q.addr q.asid else s) s) s

/-- MARK_MEMBER_FAILED (R422). -/
def execMarkMemberFailed (pkg die : Nat) (s : State) : Host.Outcome State Fault Refusal := .next (markFailed s pkg die)

/-! ### The placement forms (R418 to R420) -/

/-- A descriptor operand: 128-byte aligned and declared on the issuing die (R418). -/
def needDesc (a : Word) : M (Nat × Placed) := do
  need (a.toNat % 128 == 0) 0x03 a
  let s ← get
  match findPlaced s (dieOf s.issue.ctx) a (s.ctx s.issue.ctx).region.space.asid with
  | some e => pure e
  | none => condTrap 0x12 a

/-- The checks of R411 on a demand against a declared descriptor. -/
def checkDemand (q : Placed) (demand : Nat) : M Unit := do
  let s ← get
  let m := (s.die (dieOf s.issue.ctx)).mesh
  needLegal ((List.range 4).all (fun a => (demandOf demand a).isSome && (decide (a < m.axes) || bitsAt demand (3 * a) 3 == 0)))
  let l := demandPlaces demand
  need (divisible m (dtdShape q.record) l && (!dtdRescale q.record || l.all (fun p => p == .repl))) 0x12 q.addr

/-- What a release of a generation waits for: every earlier access of the context is performed at domain scope (R419, R254). -/
def needReleased : M Unit := do
  let s ← get
  if releasable s s.issue.ctx (s.issue.seq * 8) then flushOwn else notReady

/-- The pending demands and releases of a package's members reach a coordinator that declares the descriptor after them. -/
def gatherPending (s : State) (d : Nat) (q : Placed) : State :=
  if coordinator s d ≠ some d then s
  else (List.range 8).foldl (fun s k => match findPlaced s k q.addr q.asid, s.rank k with
    | some (_, x), some r =>
      let s := if x.released then takeRelease s d r x.gen q.addr q.asid x.record else s
      let s := x.own.foldl (fun s h => match findPlaced s d q.addr q.asid with
        | some (_, co) =>
          let g := co.satisfiedBy h
          let s := updPlaced s d q.addr q.asid (fun y => { y with demands := y.demands ++ [(h, r)] })
          let mine := x.asking.filter (fun (_, _, e) => e == h)
          mine.foldl (fun s (c, n, _) => readyPending s c n [BitVec.ofNat 2048 g] none) s
        | none => s) s
      runCoord (updPlaced s k q.addr q.asid (fun y => { y with asking := [] })) d q.addr q.asid
    | _, _ => s) s

/-- PDECL (R419). -/
def execPdecl (dst desc : BitVec 5) (s : State) : Host.Outcome State Fault Refusal :=
  runSlot (do
    let a ← readK desc
    need (a.toNat % 128 == 0) 0x03 a
    let st ← get
    let c := st.issue.ctx
    let d := dieOf c
    let r := (st.ctx c).region
    let land := fun (w : Nat) => pendResult [(fK, dst.toNat)] (some ([BitVec.ofNat 2048 w], none))
    match findPlaced st d a r.space.asid with
    | some (i, _) => land (2 ^ 62 + i)
    | none =>
      if (st.rank d).isNone then land (2 ^ 63 + 4 * 2 ^ 56)
      else do
        flushOwn
        let bs ← loadStrict false 128 a.toNat 128
        if !dtdOk (st.die d).mesh bs then land (2 ^ 63 + 2 * 2 ^ 56)
        else match (List.range 64).find? (fun i => !(st.die d).placed.any (fun (j, _) => j == i)) with
          | none => land (2 ^ 63 + 1 * 2 ^ 56)
          | some i => do
            let q : Placed :=
              { addr := a
                record := bs
                region := r
                placement := dtdCodes bs }
            modify (fun s => gatherPending (s.updDie d (fun x => { x with placed := x.placed ++ [(i, q)] })) d q)
            land i) s

/-- PREL (R419). -/
def execPrel (drop : Bool) (desc : BitVec 5) (s : State) : Host.Outcome State Fault Refusal :=
  runSlot (do
    let a ← readK desc
    let (_, q) ← needDesc a
    needReleased
    modify (fun s =>
      let d := dieOf s.issue.ctx
      let s := releaseGen s d a q.asid
      if drop then sweepDrops (updPlaced s d a q.asid (fun x => { x with drop := true })) d else s)) s

/-- PCONV: it queues its demand, releases g and does not wait (R419). -/
def execPconv (dst desc : BitVec 5) (demand : BitVec 12) (s : State) : Host.Outcome State Fault Refusal :=
  runSlot (do
    let a ← readK desc
    let (_, q) ← needDesc a
    checkDemand q demand.toNat
    needReleased
    let st ← get
    let c := st.issue.ctx
    let (st, g) := queueDemand st (dieOf c) q demand.toNat true
    let st := releaseGen st (dieOf c) a q.asid
    set (if g.isSome then st else updPlaced st (dieOf c) a q.asid (fun x =>
      { x with asking := x.asking ++ [(c, st.issue.order, demand.toNat)] }))
    pendResult [(fK, dst.toNat)] (g.map (fun g => ([BitVec.ofNat 2048 g], none)))) s

/-- The word of PQRY (R419). -/
def queryWord (q : Placed) (sel : Nat) : Nat :=
  match sel with
  | 0 => q.st + b2n q.released * 4 + q.demands.length % 256 * 2 ^ 8 +
      (q.releases.filter (fun (g, _) => g == q.gen)).length % 2 ^ 16 * 2 ^ 16
  | 1 => (q.placement.zipIdx.map (fun (c, a) => c * 2 ^ (16 * a))).sum
  | _ => q.gen

/-- PQRY (R419). -/
def execPqry (dst desc : BitVec 5) (sel : BitVec 2) (s : State) : Host.Outcome State Fault Refusal :=
  runSlot (do
    let a ← readK desc
    let (_, q) ← needDesc a
    pendResult [(fK, dst.toNat)] (some ([BitVec.ofNat 2048 (queryWord q sel.toNat)], none))) s

/-- Whether an access lies within the local shard (R420). -/
def inShard (s : State) (d : Nat) (q : Placed) (ea : Word) (n : Nat) : Bool :=
  let b := (dtdBase q.record).toNat
  decide (b ≤ ea.toNat) && decide (ea.toNat + n ≤ b + shardBytes (s.die d).mesh q.record q.now)

/-- The wait of a PLD: satisfied, or held with its first-wait action (R420, R451); a failed member, or a demand that the
coordinator has removed, traps it (R417). -/
def awaitPlacement (q : Placed) (demand : Nat) : M Unit := do
  let s ← get
  let c := s.issue.ctx
  let d := dieOf c
  let lost := q.st == 3 || ((s.ctx c).waitAct && q.refused.contains demand)
  need (!lost) (if q.st = 3 && q.mismatch then 0x12 else 0x1A) (dtdCounter q.record)
  if q.stands && q.meets demand then pure ()
  else
    let hold := fun (s : State) => waitRetry (updPlaced s d q.addr q.asid (fun x =>
      { x with waiting := if x.waiting.contains c then x.waiting else x.waiting ++ [c] })) c (.placement d q.addr demand)
    if (s.ctx c).waitAct || q.meets demand then throw (.held (hold s))
    else if !releasable s c (s.issue.seq * 8) then notReady
    else
      let s := s.updCtx c (fun x => { x with waitAct := true })
      let s := (queueDemand s d q demand false).1
      throw (.held (hold (releaseGen s d q.addr q.asid)))

/-- PLD (R420). -/
def execPld (ty : ElemTy) (dst : RegRef) (base : BitVec 5) (demand : BitVec 12) (desc : BitVec 5) (off : Int) (s : State) :
    Host.Outcome State Fault Refusal :=
  runSlot (do
    lVecIndex dst
    let a ← readP desc
    let (_, q) ← needDesc a
    checkDemand q demand.toNat
    let ea ← eaOff base off
    let n := accSize ty dst
    let _ ← accessSpans .read n [(ea.toNat, n)]
    awaitPlacement q demand.toNat
    let st ← get
    let c := st.issue.ctx
    let d := dieOf c
    need (inShard st d q ea n) 0x12 a
    let rs := [(ea.toNat, n)]
    if dst.file.isVector || dst.file.isMask then loadInto n rs id (some ea) 0 dst.file.code dst.idx.toNat
    else do
      needRequests (if inAperture rs then 0 else 1)
      let (bs, bad) ← loadBytes true n rs
      deliverLoad (inAperture rs) dst.file.code dst.idx.toNat ((extElem ty (leNat bs)).setWidth 2048) (bad.map (fun e => (e.1, ea)))
    modify (fun s => sweepDrops (updPlaced s d a q.asid (fun x => { x with waiting := x.waiting.filter (· != c) })) d)) s

/-- The operator of an accumulating PST: that of every partial axis, when it is SUM, MAX or MIN (R420). -/
def accumulateOp (l : List Place1) : Option AtomOp :=
  let ops := l.filterMap (fun p => match p with | .partial_ op => some op | _ => none)
  match ops with
  | [] => none
  | op :: rest =>
    if rest.all (· == op) then
      (match op with | 0 => some .fadd | 1 => some .fmax | 2 => some .fmin | _ => none)
    else none

/-- PST (R417, R420). -/
def execPst (ty : ElemTy) (acc : Bool) (src : RegRef) (base desc : BitVec 5) (off : Int) (s : State) :
    Host.Outcome State Fault Refusal :=
  runSlot (do
    let bs ← srcBytes ty src
    let a ← readP desc
    let (_, q) ← needDesc a
    let ea ← eaOff base off
    let n := accSize ty src
    let st ← get
    if !acc then do
      let _ ← accessSpans .write n [(ea.toNat, n)]
      need (inShard st (dieOf st.issue.ctx) q ea n) 0x12 a
      storeRanges n [(ea.toNat, n)] bs
    else do
      need (q.stage != 1 && q.stage != 2) 0x12 a
      needRequests 1
      let ps ← accessSpans .atomic n [(ea.toNat, n)]
      need (inShard st (dieOf st.issue.ctx) q ea n) 0x12 a
      match accumulateOp q.now, ps with
      | some op, p :: _ => do
        let x : Word := BitVec.ofNat 64 (leNat bs)
        let seq := st.issue.order
        let k := (← get).nextId
        modCtx (fun c => { c with posted := c.posted ++ [⟨seq, c.interval, .atom op ty ea p.pa x 0 none, k⟩] })
        modify (fun s => { s with nextId := k + 1 })
      | _, _ => condTrap 0x12 a) s

/-! ### Transfers that arrive (R387, R415) -/

/-- The parts of a transfer's header word (log entry 9). -/
def collKind (p : Packet) : Nat := bitsAt p.flag.toNat 0 8
def collArg (p : Packet) : Nat := bitsAt p.flag.toNat 8 24
def collGen (p : Packet) : Nat := bitsAt p.flag.toNat 32 32

/-- A placement transfer at a die, none where its state does not take it yet. An input from a member marked failed is not taken, and
those that need it fail (R414, R422). -/
def placementTransfer (s : State) (d : Nat) (p : Packet) : Option State :=
  let addr := p.target
  let asid := p.asid
  let a := collArg p
  match findPlaced s d addr asid, (s.die d).mesh.rankOf p.srcPkg p.srcDie with
  | some (_, q), some r =>
    let g := collGen p == q.gen % 2 ^ 32
    match collKind p with
    | 0 | 7 =>
      let s := updPlaced s d addr asid (fun x => { x with demands := x.demands ++ [(a % 2 ^ 12, r)] })
      let s := if collKind p = 7 then sendColl s d r kReply 0 (q.satisfiedBy (a % 2 ^ 12)) addr q.region [] else s
      some (runCoord s d addr asid)
    | 1 => some (takeRelease s d r (collGen p) addr asid (p.data.take 128))
    | 2 => if g && q.st = 0 then some (updPlaced s d addr asid (fun x => { x with st := 1 })) else none
    | 3 => if g && (q.st = 0 || q.st = 1) then some (enterConversion s d addr asid q.gen (a % 2 ^ 12) (bitsAt a 13 8) (bitAt a 12))
      else none
    | 4 => some (updPlaced s d addr asid (clearDemand (a % 2 ^ 12) false))
    | 5 => if g then some (updPlaced s d addr asid (demandRemoved s d (a % 2 ^ 12) (bitsAt a 13 8))) else none
    | 6 => match q.asking with
      | (c, n, _) :: rest =>
        some (readyPending (updPlaced s d addr asid (fun x => { x with asking := rest })) c n [BitVec.ofNat 2048 (collGen p)] none)
      | [] => none
    | n =>
      if !g then none
      else if !(s.die d).mesh.alive r then some s
      else if kInput ≤ n && n < kInput + 8 then
        some (updPlaced s d addr asid (fun x => { x with inputs := x.inputs ++ [(inputKey (n - kInput) r, a, p.data)] }))
      else if kBadInput ≤ n && n < kBadInput + 8 then
        some (updPlaced s d addr asid (fun x => { x with badInputs := x.badInputs ++ [inputKey (n - kBadInput) r] }))
      else none
  | _, _ => none

end Sys2Proof.Machine
end

