-- ==== Sys2Proof/Machine/Collective.lean ====
section
/-! DEFINITION. The collective engine's own commands (R421), the completion of every engine's command (R272), and the transfers
that reach a collective engine (R415). -/

namespace Sys2Proof.Machine

/-! ### ECOLL -/

def kCollArrived : Nat := 16
def kCollInput : Nat := 17
def kCollBad : Nat := 18

/-- The checks of R421 and R273 on a record, on a die with a mesh table. -/
def collOk (m : Mesh) (bs : List Byte) : Bool :=
  let op := field bs 0 1
  let n := field bs 4 4
  let line := m.axisSize (field bs 1 1)
  let folds := decide (field bs 2 1 ≤ 4) && (combFmt (field bs 3 1)).isSome && (decide (field bs 2 1 ≤ 2) || field bs 3 1 == 0)
  let w := match combFmt (field bs 3 1) with | some f => f.width / 8 | none => 1
  decide (op ≤ 4) && decide (field bs 1 1 < m.axes) && zeroField bs 0x34 12 &&
    (match op with
    | 0 => folds && decide (256 ≤ n) && decide (n ≤ 16384) && n % 256 == 0 && decide (field bs 0x2C 1 ≤ 55) &&
        decide (field bs 0x2D 1 ≤ 1) &&
        (field bs 0x2D 1 == 0 || (decide (1 ≤ field bs 0x2E 2) && decide (field bs 0x2E 2 ≤ 256)))
    | 1 => zeroField bs 0x20 8 && folds && n != 0 && n % w == 0
    | 2 => zeroField bs 0x20 8 && folds && field bs 2 1 != 4 && n != 0 && n % (w * line) == 0
    | 3 => zeroField bs 0x20 8 && n != 0
    | _ => zeroField bs 0x20 8 && n != 0 && n % line == 0)

/-- ECOLL (R418, R421). -/
def execEcoll (f : EngArgs) (s : State) : Host.Outcome State Fault Refusal :=
  runSlot (do
    let rec_ ← readK f.cmd
    let ctr ← readK f.ctr
    let bs ← readCmdRec rec_
    let s ← get
    let d := dieOf s.issue.ctx
    needLegal (collOk (s.die d).mesh bs)
    cmdCounter ctr
    acceptCmd (.collective d) (.engine (.collective d)) 0x18 f.bits rec_ bs ctr f.amount.toNat) s

/-- The line of a collective command on a die: its ranks and the die's own. -/
def collLine (s : State) (d : Nat) (c : Cmd) : Option (Nat × List Nat) :=
  (s.rank d).map (fun r => (r, (s.die d).mesh.line r (field c.cmdRec 1 1)))

/-- Tell every member of a line something: those of this package at once, the others by a transfer. -/
def tellLine (s : State) (d : Nat) (c : Cmd) (l : List Nat) (kind a : Nat) (data : List Byte) (f : Die → Die) : State :=
  let m := (s.die d).mesh
  l.foldl (fun s t =>
    if m.pkgOf t = s.pkg then s.updDie (m.dieAt t) f else sendColl s d t kind a 0 c.recVa c.region data) s

/-- The current operation of a collective engine ends: its inputs are given up. -/
def endColl (s : State) (d : Nat) (c : Cmd) (err : Option (BitVec 8 × Word)) (errOnly : Option (BitVec 8)) : State :=
  let s := s.updDie d (fun x => { x with
    collPhase := 0
    collInputs := x.collInputs.filter (fun (a, _, _, _) => a != c.recVa)
    collBad := x.collBad.filter (fun (a, _) => a != c.recVa) })
  let (s, r) := finishCmd s (.collective d) c err errOnly
  setEngine s (.collective d) (fun g => g.ended r)

/-- The operations of a record: all-reduce, whose line's rank-0 member folds and sends the result to the line, and those that
give each member of the line its own part (R415, R421). -/
def allReduces (bs : List Byte) : Bool := field bs 0 1 == 1
def cutsParts (bs : List Byte) : Bool := field bs 0 1 == 2 || field bs 0 1 == 4

/-- Bytes of a member's input that another member of a line of `n` receives, and of the result of an operation. -/
def partBytes (bs : List Byte) (n : Nat) : Nat := if cutsParts bs then field bs 4 4 / max 1 n else field bs 4 4

/-- The members of a line whose data a member needs: every one's, or, of an all-reduce, only the folded result of the line's
rank-0 member, at the others. -/
def collNeeds (bs : List Byte) (me : Nat) (l : List Nat) : List Nat := if allReduces bs && l.head? != some me then l.take 1 else l

/-- Pieces of one member's data to other members of its line. -/
def sendPieces (s : State) (d : Nat) (c : Cmd) (me : Nat) (dests : List Nat) (bs : List Byte) : State :=
  (piecesOf256 (bs.length + 1) bs).zipIdx.foldl (fun s (b, i) =>
    tellLine s d c dests kCollInput i b (fun x => { x with collInputs := x.collInputs ++ [(c.recVa, me, i, b)] })) s

/-- Word to other members of a line that one's data cannot be had. -/
def sendBad (s : State) (d : Nat) (c : Cmd) (me : Nat) (dests : List Nat) : State :=
  tellLine s d c (dests.filter (· != me)) kCollBad 0 [] (fun x => { x with collBad := x.collBad ++ [(c.recVa, me)] })

/-- A member's input goes to its line (R415, R421): whole to the member that folds or to every member, or to each its part. A
source that cannot be read ends the member's own command (R272). -/
def giveInput (s : State) (d : Nat) (c : Cmd) (me : Nat) (l : List Nat) : State :=
  match readVia s (engineView c.region.space c.ctx) (field c.cmdRec 8 8) (field c.cmdRec 4 4) with
  | .error e => endColl (sendBad s d c me l) d c (some e) none
  | .ok (bs, s) =>
    let n := partBytes c.cmdRec l.length
    if allReduces c.cmdRec then sendPieces s d c me (l.take 1) bs
    else if cutsParts c.cmdRec then l.zipIdx.foldl (fun s (k, i) => sendPieces s d c me [k] ((bs.drop (i * n)).take n)) s
    else sendPieces s d c me l bs

/-- Remove one arrival of each rank of a line. -/
def takeArrivals (a : Word) (l : List Nat) (arrived : List (Word × Nat)) : List (Word × Nat) :=
  l.foldl (fun x r => x.erase (a, r)) arrived

/-- ECOLL_MATCH: the collective engine of a die announces its operation to its line, and once every member of the line has
announced the same record, gives its input (R421). -/
def execEcollMatch (d : Nat) (s : State) : Host.Outcome State Fault Refusal :=
  match (s.die d).collective.cur with
  | none => .next s
  | some c => match collLine s d c with
    | none => .next s
    | some (me, l) =>
      if field c.cmdRec 0 1 = 0 || !cmdReady s c then .next s
      else match (s.die d).collPhase with
        | 0 => .next (tellLine (s.updDie d (fun x => { x with
              collPhase := 1
              collInputs := x.collInputs.filter (fun (a, _, _, _) => a != c.recVa)
              collBad := x.collBad.filter (fun (a, _) => a != c.recVa) })) d c l kCollArrived 0 []
            (fun x => { x with collArrived := x.collArrived ++ [(c.recVa, me)] }))
        | 1 =>
          if l.all (fun r => (s.die d).collArrived.contains (c.recVa, r)) then
            .next (giveInput (s.updDie d (fun x =>
              { x with collPhase := 2, collArrived := takeArrivals c.recVa l x.collArrived })) d c me l)
          else .next s
        | _ => .next s

/-- An input that has arrived whole. -/
def collInput (x : Die) (a : Word) (size r : Nat) : Option (List Byte) :=
  let n := (size + 255) / 256
  let ps := (List.range n).filterMap (fun i =>
    (x.collInputs.find? (fun (b, k, j, _) => b == a && k == r && j == i)).map (fun (_, _, _, bs) => bs))
  if ps.length = n then some (ps.flatten.take size) else none

/-- The result of a fold of a line's contributions, of `n` bytes each: folded in rank order in FP32, 16 KiB at a time, and rounded
once to the type (R404, R405, R415). -/
def collFold (bs : List Byte) (n : Nat) (inputs : List (List Byte)) : List Byte :=
  let f := (combFmt (field bs 3 1)).getD .fp32
  let w := f.width / 8
  let cs := foldChunks (field bs 2 1) (field bs 3 1) (field bs 1 1) w ((n + 16383) / 16384) (inputs.map (fun x => elemsOf w x (n / w)))
  ((cs.flatMap (fun c => (c.acc.getD []).take (min (n / w) (16384 / w)))).take (n / w)).flatMap (fun x => leBytes w (narrow32 f x))

/-- The result of an operation: it goes to the members of the line that wait for it, to the staging area, and from there to the
destination (R415, R416, R421). The command waits while a conversion holds a write (R417). -/
def finishColl (s : State) (d : Nat) (c : Cmd) (dests : List Nat) (me : Nat) (out : List Byte) : State :=
  let v := engineView c.region.space c.ctx
  let w := c.writer s (.collective d)
  match engineWrites v w [(fieldW c.cmdRec 0x18, out)] s with
  | (_, some .held) => s
  | (t, some (.fault cause a)) => endColl (sendPieces t d c me dests out) d c (some (cause, a)) none
  | (t, none) => match rowRead t v (fieldW c.cmdRec 0x18) out.length with
    | .error .held => s
    | .error (.fault cause a) => endColl (sendPieces t d c me dests out) d c (some (cause, a)) none
    | .ok (bs, t) => match engineWrites v w [(fieldW c.cmdRec 0x10, bs)] t with
      | (_, some .held) => s
      | (t, some (.fault cause a)) => endColl (sendPieces t d c me dests out) d c (some (cause, a)) none
      | (t, none) => endColl (sendPieces t d c me dests out) d c none none

/-- The collective engine's current command: an arm takes its entry; an operation whose inputs have all arrived writes its
result and completes; one that an input cannot reach completes with the error bit and cause 0x1A (R406, R421, R422). -/
def runCollective (s : State) (d : Nat) : State :=
  match (s.die d).collective.cur with
  | none => s
  | some c =>
    if !cmdReady s c then s
    else if field c.cmdRec 0 1 = 0 then armEntry s d c
    else match collLine s d c with
      | none => endColl s d c none (some 0x1A)
      | some (me, l) =>
        let x := s.die d
        let from_ := collNeeds c.cmdRec me l
        let ins := from_.map (collInput x c.recVa (partBytes c.cmdRec l.length))
        let lost := (from_.zip ins).any (fun (r, i) => x.collBad.contains (c.recVa, r) || (i.isNone && !x.mesh.alive r))
        if lost then endColl (if allReduces c.cmdRec && l.head? = some me then sendBad s d c me l else s) d c none (some 0x1A)
        else if x.collPhase ≠ 2 || ins.any (·.isNone) then s
        else
          let bs := c.cmdRec
          let got := ins.map (·.getD [])
          if (allReduces bs || field bs 0 1 == 2) && from_ == l then
            if (reservedEntry s d).isNone then s
            else finishColl s d c (if allReduces bs then l.filter (· != me) else []) me (collFold bs (partBytes bs l.length) got)
          else finishColl s d c [] me got.flatten

/-- Entries whose end a conversion has held are tried again (R417). -/
def retryEntries (s : State) (d : Nat) : State := (List.range 56).foldl (fun s e => settleEntry s d e) s

/-- ENGINE_COMMAND_COMPLETE: an engine performs its current command and completes it; nothing while the command must wait (R272).
The commands of the requantisation and compaction engines end with their own steps (R343, R354). -/
def execEngineCommandComplete (e : EngineId) (s : State) : Host.Outcome State Fault Refusal :=
  .next (match e with
    | .copy0 _ | .copy1 _ | .gs _ => runCopyEngine s e
    | .loader d => runLoader s d
    | .collective d => runCollective (retryEntries s d) d
    | .requant _ | .compact _ => s)

/-! ### Transfers -/

/-- A transfer reaches the collective engine of a die. One that its state does not take yet is not answered,
and its sender sends it again (R393, R415). -/
def transferArrived (s : State) (d : Nat) (p : Packet) : State :=
  match admission s d p, (s.die d).mesh.rankOf p.srcPkg p.srcDie with
  | some _, some r =>
    let t := match collKind p with
      | 16 => some (s.updDie d (fun x => { x with collArrived := x.collArrived ++ [(p.target, r)] }))
      | 17 => some (s.updDie d (fun x => { x with collInputs := x.collInputs ++ [(p.target, r, collArg p, p.data)] }))
      | 18 => some (s.updDie d (fun x => { x with collBad := x.collBad ++ [(p.target, r)] }))
      | _ => placementTransfer s d p
    match t with
    | some t => ack t d p
    | none => s
  | _, _ => dropPacket s d

/-- COLLECTIVE_TRANSFER (R387). -/
def execCollectiveTransfer (d : Nat) (p : Packet) (s : State) : Host.Outcome State Fault Refusal :=
  onArrival s d p [6] (fun _ => transferArrived s d p)

/-- A transfer of a die's collective engine has failed (R393): the command that it was for fails under R272 with cause 0x19. -/
def failTransfer (s : State) (d : Nat) (p : Packet) : State :=
  match (s.die d).collective.cur with
  | some c =>
    if [kCollArrived, kCollInput, kCollBad].contains (collKind p) && c.recVa == p.target && field c.cmdRec 0 1 != 0 then
      endColl s d c (some (0x19, p.target)) none
    else s
  | none => s

end Sys2Proof.Machine
end

