-- ==== Sys2Proof/Machine/Link.lean ====
section
/-! DEFINITION. Lane bundles and their link layer (R383 to R389, R391), and the end-to-end timer (R393). -/

namespace Sys2Proof.Machine

def bundleOf (s : State) (d pkg : Nat) : Bundle := Map.get {} (s.die d).bundles pkg
def updBundle (s : State) (d pkg : Nat) (f : Bundle → Bundle) : State :=
  s.updDie d (fun x => { x with bundles := Map.upd {} x.bundles pkg f })

/-- The step that a packet of a good group makes at its target die (R387). -/
def packetStep (p : Packet) : Option Instr :=
  match p.op.toNat with
  | 1 => some (.nldRequest p.dstDie p)
  | 2 => some (.storePacket p.dstDie p)
  | 3 => some (.natPacket p.dstDie p)
  | 4 | 5 => some (.contributionPiece p.dstDie p)
  | 6 => some (.collectiveTransfer p.dstDie p)
  | 8 => some (.response p.dstDie p)
  | 9 => some (.acknowledgement p.dstDie p)
  | 10 => some (.negativeAcknowledgement p.dstDie p)
  | _ => none

/-- Skid mode: the data of a store packet are written as its flits arrive, with no other effect (R388). -/
def skidWrite (s : State) (d : Nat) (p : Packet) : State :=
  if p.op ≠ 2 then s
  else match admission s d p with
    | none => s
    | some m =>
      if heldShard s d (m.space p) p.target.toNat p.data.length then s
      else match writeVia s (dieView (m.space p) d) (remoteWriter p) p.target.toNat p.data with
        | .ok s => s
        | .error _ => s

/-- A store packet of a compromised group is reported to the region of its job key, and answered with cause 0x18 (R389). -/
def reportTag (s : State) (p : Packet) : State :=
  if p.op ≠ 2 then s
  else
    let d := p.dstDie
    match admission s d p with
    | none => s
    | some m =>
      let s := match readRegion s (packageView (m.space p)) m.rcb with
        | .ok (r, s) => faultRecord s r 2 0x18 0 0 p.target
        | .error _ => countEvent s .recordLost
      nak s d p 0x18 p.target

/-- A good group is received, with the sender's acknowledgement of the groups of the other direction, whose replay ends once all
of them have arrived (R391). -/
def Bundle.received (b : Bundle) (g : FlitGroup) : Bundle :=
  let acked := if g.ack ≤ b.txGroup then max b.txAcked g.ack else b.txAcked
  { b with rxNext := b.rxNext + 1, rxFails := 0, txAcked := acked, replaying := b.replaying && decide (acked < b.txGroup) }

/-- LINK_GROUP_RECEIVE: a group arrives on a bundle (R386, R388, R389, R391). A group that has arrived before, or that skips a
number, is discarded. A good group's packets are performed next, in order; of a bad one, in skid mode, the store data alone are
written; the third failure of one group takes the incoming bundle down, and its keys are rotated. -/
def execLinkGroupReceive (d : Nat) (g : FlitGroup) (s : State) : Host.Outcome State Fault Refusal :=
  let b := bundleOf s d g.srcPkg
  if !b.rxUp || b.rxKey = 0 || g.num ≠ b.rxNext || !s.packages.contains g.srcPkg || g.srcPkg = s.pkg then .next s
  else if g.tagOk then
    let s := updBundle s d g.srcPkg (fun b => b.received g)
    let known := g.packets.filterMap packetStep
    let lost := (g.packets.filter (fun p => (packetStep p).isNone)).length
    .next { s.updDie d (fun x => { x with dropped := x.dropped + lost }) with agenda := known ++ s.agenda }
  else
    let s := if (s.die d).skid then g.packets.foldl (fun s p => skidWrite s p.dstDie p) s else s
    if b.rxFails < 2 then .next (updBundle s d g.srcPkg (fun b => { b with rxFails := b.rxFails + 1 }))
    else
      let s := g.packets.foldl reportTag s
      .next (updBundle s d g.srcPkg (fun b => { b with
        rxUp := false
        rxKey := b.rxKey + 1
        rxNext := 0
        rxFails := 0 }))

/-- GROUP_REPLAY: the link sends the groups of its buffer again that are not acknowledged; the packets' timers do not run meanwhile
(R391, R393). -/
def execGroupReplay (d pkg : Nat) (s : State) : Host.Outcome State Fault Refusal :=
  .next (updBundle s d pkg (fun b => if b.up && decide (b.txAcked < b.txGroup) then { b with replaying := true } else b))

/-- BUNDLE_DETOUR: an outgoing bundle loses a lane; with fewer than five it is down, and its traffic goes over the next die's
(R385). -/
def execBundleDetour (d pkg : Nat) (s : State) : Host.Outcome State Fault Refusal :=
  .next (updBundle s d pkg (fun b =>
    let n := b.lanes - 1
    { b with
      lanes := n
      up := decide (5 ≤ n)
      replaying := b.replaying && decide (5 ≤ n) }))

/-- LANE_RETURN: a lane returns to its outgoing bundle, which is up again from five lanes on (R385). -/
def execLaneReturn (d pkg : Nat) (s : State) : Host.Outcome State Fault Refusal :=
  .next (updBundle s d pkg (fun b =>
    let n := min 6 (b.lanes + 1)
    { b with lanes := n, up := decide (5 ≤ n) }))

/-- KEY_ROTATION: the root of trust installs a new key of one direction of a bundle, whose group counter starts at 0; an incoming
bundle that was taken down is up again (R386, R389). -/
def execKeyRotation (d : Nat) (k : BundleKey) (s : State) : Host.Outcome State Fault Refusal :=
  .next (updBundle s d k.pkg (fun b =>
    if k.incoming then { b with rxUp := true, rxKey := b.rxKey + 1, rxNext := 0, rxFails := 0 } else b.rekeyed))

/-- The end-to-end timer of a packet: 16 µs in picoseconds (R393). -/
def packetTimer : Nat := 16000000

/-- Whether the bundle of a packet is in link replay, while which its timer does not run (R393). -/
def replaying (s : State) (d : Nat) (r : Remote) : Bool :=
  r.pkt.dstPkg != s.pkg && (bundleOf s (bundleDie s d r.pkt.dstPkg) r.pkt.dstPkg).replaying

/-- The timers of the packets on bundles in link replay stand still for `ps` picoseconds (R393). -/
def holdTimers (s : State) (ps : Nat) : State :=
  s.dies.foldl (fun s (d, x) =>
    if x.remotes.any (replaying s d) then
      s.updDie d (fun y => { y with remotes := y.remotes.map (fun r => if replaying s d r then { r with time := r.time + ps } else r) })
    else s) s

/-- An operation fails after its last resend (R393, R422). -/
def failRemote (s : State) (d : Nat) (r : Remote) : State :=
  let s := dropRemoteResult (closeRemote s d r) r
  let s := if r.coll then failTransfer s d r.pkt else outsideTrap s r.tid r.region 2 0x19 r.pkt.target
  markFailed s r.pkt.dstPkg r.pkt.dstDie

/-- END_TO_END_TIMEOUT: the timer of a die's outstanding operation expires: it is sent again, or fails after seven resends
(R393). -/
def execEndToEndTimeout (d n : Nat) (s : State) : Host.Outcome State Fault Refusal :=
  match (s.die d).remotes[n]? with
  | none => .next s
  | some r =>
    if replaying s d r || s.dtimePs < r.time + packetTimer then .next s
    else if r.resends < 7 then
      let s := s.updDie d (fun x => { x with remotes := x.remotes.set n { r with resends := r.resends + 1, time := s.dtimePs } })
      .next (pushGroups s d r.pkt)
    else .next (failRemote s d r)

/-- The timers of a die's outstanding operations that have expired, the latest operation first (R393). -/
def timersDue (s : State) (d : Nat) (x : Die) : List Instr :=
  ((x.remotes.zipIdx.filter (fun (r, _) => !replaying s d r && decide (r.time + packetTimer ≤ s.dtimePs))).map
    (fun (_, n) => .endToEndTimeout d n)).reverse

end Sys2Proof.Machine
end

