-- ==== Sys2Proof/Machine/Clock.lean ====
section
/-! DEFINITION. The clock cycle: what happens in one, the choice of contexts to issue (R91, R94, R96 to R98, R100, R136, R180, R256,
R259, R400), and where a bundle is placed for a context to fetch. -/

namespace Sys2Proof.Machine

/-! ### Choosing contexts -/

/-- The context that a core saves for a handler that one of its frozen contexts needs (R107). -/
def handlerVictimOn (s : State) (k : Nat) : Option Nat := ((ctxsOf k).find? (handlerBlocked s)).map (handlerVictim s)

/-- Whether a save of a context is due at this bundle boundary: accumulator retirement has come for a pre-emption request not yet
32,768 cycles old, or for the save that R107 makes (R236). -/
def saveDue (s : State) (c : Nat) : Option SaveWhy :=
  if !retired s c then none
  else if handlerVictimOn s (coreOf c) == some c then some .handler
  else if (s.ctx c).preemptAt.any (fun t => s.clock < t + 32768) then some .preempt
  else none

/-- Whether a context may issue in a clock cycle, so far as that shows without its bundle and a save: it is ready, and neither its
end, a trap from outside nor its core's reset holds it back. -/
def inRunning (s : State) (c : Nat) : Bool :=
  let x := s.ctx c
  x.run == .ready && !x.ended && x.outside.isEmpty && !(s.core (coreOf c)).stopping

/-- Insert a context by rank. -/
def insertRank (s : State) (c : Nat) : List Nat → List Nat
  | [] => [c]
  | d :: ds => if lexLt (rank s c) (rank s d) then c :: d :: ds else d :: insertRank s c ds

/-- The contexts of a core that may issue, best first. -/
def ranked (s : State) (k : Nat) : List Nat :=
  ((ctxsOf k).filter (inRunning s)).foldl (fun l c => insertRank s c l) []

/-- ISSUE_SELECTION: a core ranks the contexts that may issue (R96). -/
def execIssueSelection (k : Nat) (s : State) : Host.Outcome State Fault Refusal := .next { s with issuing := s.issuing ++ ranked s k }

/-- The state in which a ready bundle issues in this clock cycle: the first of its core, or a second one whose slot mask is disjoint
from the first's; none where it must wait (R96). What the first one has issued to memory is performed before a second one that
accesses memory issues; while it cannot be, the two are not merged (R94; DEDUCED, log entry 79). -/
def issueTurn (s : State) (b : Bundled) : Option State :=
  match s.issued.filter (fun e => coreOf e.1 == coreOf b.ctx) with
  | [] => some s
  | [(d, mask)] =>
    if b.fetched.header.slots &&& mask != 0 || d == b.ctx then none
    else if !b.slots.any (fun i => i.instr.touches) then some s
    else
      let s := performAll d (postedSize s d) s
      if (nextPosted s d).isNone then some s else none
  | _ => none

/-- A candidate that does not issue waits one more clock cycle (R96). -/
def aged (s : State) (c : Nat) : State := s.updCtx c (fun x => { x with waitCount := x.waitCount + 1 })

/-- One attempt on the best context left: its bundle's fetch and decoding are checked at once (R71); a bundle that is ready issues,
traps, waits for its condition, or ages. -/
def attemptBundle (m : Meaning) (s : State) (c : Nat) : Host.Outcome State Fault Refusal :=
  match takeBundle s c with
  | .error t => .next t
  | .ok (b, s) =>
    if !bundleReady s c b.fetched.header b.slots then .next s
    else match issueTurn s b with
      | some s => (match b.probes m s with
        | .error o => o
        | .ok ps => b.go m s ps)
      | none => (match b.probes m s with
        | .error o => o
        | .ok ps => .next (if ps.any (fun p => p.unready c) then s else aged s c))

/-- The turn of the best context left. At the first bundle boundary at which a save of it is due the save is made (R236, R107); it
waits for what the context has in flight, and where the image has no place the context goes on. -/
def attempt (m : Meaning) (s : State) (c : Nat) (rest : List Nat) : Host.Outcome State Fault Refusal :=
  let s := { s with issuing := rest }
  if !inRunning s c then .next s
  else match saveDue s c with
    | none => attemptBundle m s c
    | some why =>
      if !settled s c then .next s
      else match m (.contextSave c why) s with
        | .next t => if t.saved.length = s.saved.length then attemptBundle m s c else .next t
        | o => o

/-! ### Waits that a clock cycle ends -/

/-- Whether what a blocked context waits for has come, so that its bundle is checked again (R100). A counter's waiters and a drain's
have steps of their own. -/
def waitMet (s : State) (c : Nat) : Wait → Bool
  | .counter => false
  | .drain => false
  | .engine e => (s.engine e).shadow.isNone || !(s.engine e).present
  | .copies cl => (s.cluster cl).copy0.shadow.isNone || (s.cluster cl).copy1.shadow.isNone || !(s.cluster cl).copy0.present ||
    !(s.cluster cl).copy1.present
  | .inbox k => (freeInbox s k c).isSome || !(s.core k).present
  | .swap =>
    let k := s.core (coreOf c)
    let mine := fun (x : Core) => x.swapTokens.any (fun t => t.tid == (s.ctx c).tid)
    !swapPending s (s.ctx c).tid || (mine k && k.shadow.isEmpty && !shadowLoading s (coreOf c))
  | .ring launch consumed size =>
    decide (s.counter launch - s.counter consumed < size) || (s.counterBad launch).isSome || (s.counterBad consumed).isSome
  | .placement die desc demand => match findPlaced s die desc (s.ctx c).region.space.asid with
    | none => true
    | some (_, q) => q.st == 3 || q.refused.contains demand || (q.stands && q.meets demand)

/-- Wake the blocked contexts whose waits are met. -/
def wakeMet (s : State) (c : Nat) : State :=
  match (s.ctx c).run, (s.ctx c).wait with
  | .blocked, some w => if waitMet s c w then wake s c else s
  | _, _ => s

/-! ### The clock -/

/-- The picoseconds of domain time in the clock cycle after cycle `n` (R400). -/
def cyclePs (n mhz : Nat) : Nat := (n + 1) * 1000000 / mhz - n * 1000000 / mhz

/-- The live contexts of the package, and the cores that have one. -/
def liveCtxs (s : State) : List Nat := (s.ctxs.filter (fun (_, x) => x.run != .dormant)).map (·.1)
def liveCores (s : State) : List Nat := ((liveCtxs s).map coreOf).eraseDups

/-- Whether a clock cycle is the last of a period. -/
def lastOf (period clock : Nat) : Bool := clock % period == period - 1

/-- What the spec bounds in time and has come due for a context: the trap from outside at its boundary (R105), the timeout of its
CWAIT (R256), the end of its yield (R136), its promotion (R96), its save or the withdrawal of the request (R236, R107), and its
logical time (R313). -/
def dueOf (s : State) (c : Nat) : List Instr :=
  let x := s.ctx c
  (if x.outside.isEmpty then [] else [.outsideTrap c]) ++
    (if x.waitStart != 0 && decide (x.waitStart - 1 + x.waitLimit + Config.timeoutSlack x.waitStart % 256 ≤ s.clock) then
      [.cwaitTimeout c] else []) ++
    (if x.yielded.isSome then [.yieldExpiry c] else []) ++
    (if threshold s (coreOf c) ≤ x.waitCount && !x.promoted then [.contextPromotion c] else []) ++
    (if x.preemptAt.any (fun t => t + 32768 ≤ s.clock) then [.preemptionWithdrawn c] else []) ++
    (match saveDue s c with | some why => if settled s c then [.contextSave c why] else [] | none => []) ++
    (if lastOf 1024 s.clock then [.logicalTimeAdvance c 1] else [])

/-- What has come due for a core: its monitor entries and sweep waiters are evaluated every 256 cycles at the latest (R259, R260),
its planes flip within 64 of the drain point (R370), and repair takes it (R293, R294). -/
def dueAt (s : State) (k : Nat) (x : Core) : List Instr :=
  (if lastOf 256 s.clock && !x.monitor.isEmpty then ((x.monitor.map (·.pa)).eraseDups).map (.waitSatisfied k) else []) ++
    (if lastOf 256 s.clock && !x.sweep.isEmpty then [.sweepReread k] else []) ++
    (if lastOf 64 s.clock && !x.swapTokens.isEmpty then [.planeFlip k] else []) ++
    (if repairDue s k then [if (s.cluster (k / 16)).spare then .spareSubstitution k else .coreDisable k] else [])

/-- The steps that a clock cycle holds: the header stalls of the cycle before, the fabric's timers that have run out (R393, R404,
R406), what the machine's timing and the outside do, what
has come due, and the choice of each core. Watch hits are reported every 512 cycles at the latest (R322), and a compaction's state
follows its add within 256 (log entry 81). -/
def cycleSteps (s : State) (spent : List Nat) : List Instr :=
  spent.flatMap (fun c => [.stallExpiry c, .fixedLatencyLanding c]) ++
    s.dies.flatMap (fun (d, x) => combinerDue s d x ++ timersDue s d x) ++ Config.environment s.clock ++
    (liveCtxs s).flatMap (dueOf s) ++ s.cores.flatMap (fun (k, x) => dueAt s k x) ++
    (if lastOf 256 s.clock then (s.kvJobs.filter (fun j => j.copied.isSome)).map (fun j => .kvcompactCopyDone j.id) else []) ++
    (if lastOf 512 s.clock then s.watchHits.map (fun _ => .watchpointReport 0) else []) ++ scrubDue s ++
    (liveCores s).map .issueSelection

/-- The contexts that spend the clock cycle now ending on their header's stall: each that has one left and has issued nothing in it
(R56, R91). -/
def stalling (s : State) : List Nat :=
  (liveCtxs s).filter (fun c => (s.ctx c).run == .ready && (s.ctx c).stall != 0 && !s.issued.any (fun e => e.1 == c))

/-- The L port's extra cycles go by (R180). -/
def portCycle (s : State) : State :=
  { s with cores := s.cores.foldl (fun m ((k, x) : Nat × Core) =>
      if x.lBusy = 0 then m else Map.set {} m k { x with lBusy := x.lBusy - 1 }) s.cores }

/-- The next clock cycle begins. -/
def tickClock (s : State) : State :=
  let spent := stalling s
  let ps := cyclePs s.clock s.mhz
  let s := { s with
    clock := s.clock + 1
    dtimePs := s.dtimePs + ps
    issued := [] }
  let s := ringCycle (hostCycle (holdTimers (portCycle s) ps))
  let s := (liveCtxs s).foldl wakeMet s
  let s := (liveCores s).foldl startNeeded s
  let s := s.dies.foldl (fun s (d, x) => if x.placed.any (fun (_, q) => q.drop) then sweepDrops s d else s) s
  { s with agenda := cycleSteps s spent }

/-! ### Placing a bundle -/

/-- The largest number of bytes in a bundle (R49). -/
def maxBundle : Nat := 72

/-- The plane that holds the bytes of a bundle at a context's program counter: the active one where it covers the address,
else one whose code is the 128 KiB around it. -/
def placeInPlane (p : Plane) (pc : Nat) (bytes : List Byte) : Plane :=
  let p := if p.holds pc && p.holds (pc + maxBundle) then p else
    { p with
      cond := .loaded
      codeBase := BitVec.ofNat 64 (pc / 65536 * 65536)
      codeLen := 131072 }
  { p with bytes := putBytes p.bytes (0x3100 + (pc - p.codeBase.toNat)) bytes }

/-- A state whose next step issues the bundle whose words, the first lowest, are the number `w`. -/
def placeBundle (s : State) (nbits w : Nat) : State :=
  let c := s.issuing.headD 0
  let bytes := leBytes maxBundle (w % 2 ^ nbits)
  let s := s.updCtx c (fun x => { x with run := .ready, ended := false, stall := 0, outside := [], waitAct := false, heldWords := [], preemptAt := none })
  let s := s.updCore (coreOf c) (fun k => { k with stopping := false, active := placeInPlane k.active (s.ctx c).pc.toNat bytes })
  { s with agenda := [], issuing := [c], issued := [] }

end Sys2Proof.Machine
end

