-- ==== Sys2Proof/Machine/ScalarFp.lean ====
section
/-! DEFINITION. The floating-point forms of the S slots (R122 to R127). -/

namespace Sys2Proof.Machine

/-- A rounded form with two sources (R123). -/
def fpBin (t : SFmt) (f : SBin) (op : RMode → FVal → FVal → FRes) : M Unit := do
  let a ← readS f.slot f.a
  let b ← readS f.slot f.b
  let x ← curCtx
  landF t f.slot f.dst 4 (fun m => op m (sVal x t a) (sVal x t b))

/-- A rounded form with one source and latency 8 (R123). -/
def fpUn (t : SFmt) (f : SUn) (op : FVal → FRes) : M Unit := do
  let a ← readS f.slot f.a
  let x ← curCtx
  landF t f.slot f.dst 8 (fun _ => op (sVal x t a))

/-- FADD (R123). -/
def execFadd (t : SFmt) (f : SBin) (s : State) : Host.Outcome State Fault Refusal := runSlot (fpBin t f fAdd) s

/-- FSUB (R123). -/
def execFsub (t : SFmt) (f : SBin) (s : State) : Host.Outcome State Fault Refusal :=
  runSlot (fpBin t f (fun m a b => fAdd m a b.neg)) s

/-- FMUL (R123). -/
def execFmul (t : SFmt) (f : SBin) (s : State) : Host.Outcome State Fault Refusal :=
  runSlot (fpBin t f (fun _ a b => fMul a b)) s

/-- FMA: A × B + D, with D the destination before the bundle (R123). -/
def execFma (t : SFmt) (f : SBin) (s : State) : Host.Outcome State Fault Refusal :=
  runSlot (do
    let d ← readDst f.slot f.dst
    let x ← curCtx
    fpBin t f (fun m a b => fFma m a b (sVal x t d))) s

/-- FRCP (R123). -/
def execFrcp (t : SFmt) (f : SUn) (s : State) : Host.Outcome State Fault Refusal := runSlot (fpUn t f fRcp) s

/-- FRSQ (R123). -/
def execFrsq (t : SFmt) (f : SUn) (s : State) : Host.Outcome State Fault Refusal := runSlot (fpUn t f fRsq) s

/-- FEXP2 (R123). -/
def execFexp2 (t : SFmt) (f : SUn) (s : State) : Host.Outcome State Fault Refusal := runSlot (fpUn t f fExp2) s

/-- FLOG2 (R123). -/
def execFlog2 (t : SFmt) (f : SUn) (s : State) : Host.Outcome State Fault Refusal := runSlot (fpUn t f fLog2) s

/-- FMIN and FMAX: an operand unrounded, with no draw (R124). -/
def fpMinMax (t : SFmt) (f : SBin) (max : Bool) : M Unit := do
  let a ← readS f.slot f.a
  let b ← readS f.slot f.b
  let x ← curCtx
  let (bits, fl) := fMinMax (SFmt.fmt t) x.compat max a.toNat b.toNat
  mergeFlags fl
  landS f.slot f.dst (BitVec.ofNat 64 bits) 4

/-- FMIN (R124). -/
def execFmin (t : SFmt) (f : SBin) (s : State) : Host.Outcome State Fault Refusal := runSlot (fpMinMax t f false) s

/-- FMAX (R124). -/
def execFmax (t : SFmt) (f : SBin) (s : State) : Host.Outcome State Fault Refusal := runSlot (fpMinMax t f true) s

/-- FCMP: writes the predicate dst[2:0] (R125). -/
def execFcmp (t : SFmt) (c : FCond) (f : SBin) (s : State) : Host.Outcome State Fault Refusal :=
  runSlot (do
    let a ← readS f.slot f.a
    let b ← readS f.slot f.b
    let x ← curCtx
    let (r, fl) := fCompare c (sVal x t a) (sVal x t b)
    mergeFlags fl
    landG (f.dst.toNat % 8) r 2) s

/-- FCVT (R126): a floating-point or UINT32 result is zero-extended, an INT32 result sign-extended. -/
def execFcvt (src dst : ElemTy) (f : SUn) (s : State) : Host.Outcome State Fault Refusal :=
  runSlot (do
    let a ← readS f.slot f.a
    let x ← curCtx
    let mode := x.rmode
    let u ← drawIf (convDraws x mode src dst) 1
    let (bits, fl) := convertElem x.compat mode (u 0) (!x.compat) false src dst a.toNat
    mergeFlags fl
    landS f.slot f.dst (if dst.signed then BitVec.ofInt 64 (sextNat dst.width bits) else BitVec.ofNat 64 bits) 3) s

/-- RAND: one block of the stream as a 64-bit word, or as an FP32 value in [0, 1) (R127). -/
def execRand (float : Bool) (slot : SSlot) (dst : BitVec 6) (s : State) : Host.Outcome State Fault Refusal :=
  runSlot (do
    let u ← draw 1
    landS slot dst (if float then BitVec.ofNat 64 (FRes.deliver .fp32 .rne 0 false
        (FVal.num false (u 0 / 256) (-24)).res).1
      else BitVec.ofNat 64 (u 1 * 2 ^ 32 + u 0)) 6) s

end Sys2Proof.Machine
end

