-- ==== Sys2Proof/Machine/ScalarInt.lean ====
section
/-! DEFINITION. The integer forms of the S slots, copies between files, and NOP (R58, R117 to R121). -/

namespace Sys2Proof.Machine

/-- Occupies its slot and has no other effect (R58). -/
def execNop (_slot : SlotId) (s : State) : Host.Outcome State Fault Refusal := runSlot (pure ()) s

/-! ### Shared shapes -/

/-- A form with two sources: its w-bit result from the operand words (R113, R114, R116). -/
def intBin (f : SBin) (lat : Nat) (op : Word → Word → Nat) : M Unit := do
  let a ← readS f.slot f.a
  let b ← readS f.slot f.b
  landS f.slot f.dst (deliver f.w f.u (op a b)) lat

/-- A form with one source. -/
def intUn (f : SUn) (lat : Nat) (op : Word → Nat) : M Unit := do
  let a ← readS f.slot f.a
  landS f.slot f.dst (deliver f.w f.u (op a)) lat

/-- An integer result as w bits. -/
def narrowInt (w : Bool) (i : Int) : Nat := wrapInt (opWidth w) i

/-- A shift amount: B mod w. -/
def shiftBy (w : Bool) (b : Word) : Nat := b.toNat % opWidth w

/-- The quotient of R118, rounded toward zero. -/
def divInt (w u : Bool) (a b : Word) : Int :=
  let x := opNum w u a
  let y := opNum w u b
  if y = 0 then -1 else x.tdiv y

/-- The remainder of R118, with the sign of A. -/
def remInt (w u : Bool) (a b : Word) : Int :=
  let x := opNum w u a
  let y := opNum w u b
  if y = 0 then x else x - y * x.tdiv y

/-- Number of one bits among the low n bits. -/
def popCount : Nat → Nat → Nat
  | 0, _ => 0
  | n + 1, x => x % 2 + popCount n (x / 2)

/-- Number of trailing zero bits among n bits. -/
def trailZeros : Nat → Nat → Nat
  | 0, _ => 0
  | n + 1, x => if x % 2 = 1 then 0 else 1 + trailZeros n (x / 2)

/-- Number of leading zero bits of an n-bit number. -/
def leadZeros : Nat → Nat → Nat
  | 0, _ => 0
  | n + 1, x => if x / 2 ^ n % 2 = 1 then 0 else 1 + leadZeros n x

/-! ### The forms -/

/-- ADD: A + B modulo 2^w (R117). -/
def execAdd (f : SBin) (s : State) : Host.Outcome State Fault Refusal :=
  runSlot (intBin f 1 (fun a b => opBits f.w a + opBits f.w b)) s

/-- SUB: A − B modulo 2^w (R117). -/
def execSub (f : SBin) (s : State) : Host.Outcome State Fault Refusal :=
  runSlot (intBin f 1 (fun a b => narrowInt f.w ((opBits f.w a : Int) - opBits f.w b))) s

/-- MUL: the low w bits of the product (R117). -/
def execMul (f : SBin) (s : State) : Host.Outcome State Fault Refusal :=
  runSlot (intBin f 3 (fun a b => opBits f.w a * opBits f.w b)) s

/-- MULH: the high w bits of the 2w-bit product, signed or with .u unsigned (R117). -/
def execMulh (f : SBin) (s : State) : Host.Outcome State Fault Refusal :=
  runSlot (intBin f 3 (fun a b => narrowInt f.w ((opNum f.w f.u a * opNum f.w f.u b) / ((2 ^ opWidth f.w : Nat) : Int)))) s

/-- DIV (R118). -/
def execDiv (f : SBin) (s : State) : Host.Outcome State Fault Refusal :=
  runSlot (intBin f 18 (fun a b => narrowInt f.w (divInt f.w f.u a b))) s

/-- REM (R118). -/
def execRem (f : SBin) (s : State) : Host.Outcome State Fault Refusal :=
  runSlot (intBin f 18 (fun a b => narrowInt f.w (remInt f.w f.u a b))) s

/-- AND (R117). -/
def execAnd (f : SBin) (s : State) : Host.Outcome State Fault Refusal :=
  runSlot (intBin f 1 (fun a b => (a &&& b).toNat)) s

/-- OR (R117). -/
def execOr (f : SBin) (s : State) : Host.Outcome State Fault Refusal :=
  runSlot (intBin f 1 (fun a b => (a ||| b).toNat)) s

/-- XOR (R117). -/
def execXor (f : SBin) (s : State) : Host.Outcome State Fault Refusal :=
  runSlot (intBin f 1 (fun a b => (a ^^^ b).toNat)) s

/-- ANDN: A AND NOT B (R117). -/
def execAndn (f : SBin) (s : State) : Host.Outcome State Fault Refusal :=
  runSlot (intBin f 1 (fun a b => (a &&& ~~~b).toNat)) s

/-- SHL by B mod w (R117). -/
def execShl (f : SBin) (s : State) : Host.Outcome State Fault Refusal :=
  runSlot (intBin f 1 (fun a b => opBits f.w a * 2 ^ shiftBy f.w b)) s

/-- SHR: zeros in (R117). -/
def execShr (f : SBin) (s : State) : Host.Outcome State Fault Refusal :=
  runSlot (intBin f 1 (fun a b => opBits f.w a / 2 ^ shiftBy f.w b)) s

/-- SAR: copies of bit w − 1 in (R117). -/
def execSar (f : SBin) (s : State) : Host.Outcome State Fault Refusal :=
  runSlot (intBin f 1 (fun a b => narrowInt f.w (opNum f.w false a / ((2 ^ shiftBy f.w b : Nat) : Int)))) s

/-- ROT: rotate left by B mod w (R117). -/
def execRot (f : SBin) (s : State) : Host.Outcome State Fault Refusal :=
  runSlot (intBin f 1 (fun a b =>
    let n := shiftBy f.w b
    opBits f.w a * 2 ^ n + opBits f.w a / 2 ^ (opWidth f.w - n))) s

/-- CLZ (R117). -/
def execClz (f : SUn) (s : State) : Host.Outcome State Fault Refusal :=
  runSlot (intUn f 1 (fun a => leadZeros (opWidth f.w) (opBits f.w a))) s

/-- CTZ (R117). -/
def execCtz (f : SUn) (s : State) : Host.Outcome State Fault Refusal :=
  runSlot (intUn f 1 (fun a => trailZeros (opWidth f.w) (opBits f.w a))) s

/-- POPC (R117). -/
def execPopc (f : SUn) (s : State) : Host.Outcome State Fault Refusal :=
  runSlot (intUn f 1 (fun a => popCount (opWidth f.w) (opBits f.w a))) s

/-- MIN: the lesser, signed or with .u unsigned (R117). -/
def execMin (f : SBin) (s : State) : Host.Outcome State Fault Refusal :=
  runSlot (intBin f 1 (fun a b => if opNum f.w f.u a ≤ opNum f.w f.u b then opBits f.w a else opBits f.w b)) s

/-- MAX: the greater (R117). -/
def execMax (f : SBin) (s : State) : Host.Outcome State Fault Refusal :=
  runSlot (intBin f 1 (fun a b => if opNum f.w f.u a ≤ opNum f.w f.u b then opBits f.w b else opBits f.w a)) s

/-- A condition of R119 on two numbers. -/
def iCond (c : ICond) (x y : Int) : Bool :=
  match c with
  | .eq => x == y | .ne => x != y | .lt => decide (x < y) | .le => decide (x ≤ y) | .gt => decide (y < x)
  | .ge => decide (y ≤ x)

/-- CMP: writes the predicate dst[2:0] (R119). -/
def execCmp (c : ICond) (f : SBin) (s : State) : Host.Outcome State Fault Refusal :=
  runSlot (do
    let a ← readS f.slot f.a
    let b ← readS f.slot f.b
    landG (f.dst.toNat % 8) (iCond c (opNum f.w f.u a) (opNum f.w f.u b)) 1) s

/-- SEL: A when the predicate XOR mod[3] is 1, else B (R119). -/
def execSel (g : BitVec 3) (neg : Bool) (f : SBin) (s : State) : Host.Outcome State Fault Refusal :=
  runSlot (do
    let a ← readS f.slot f.a
    let b ← readS f.slot f.b
    let x ← curCtx
    landS f.slot f.dst (if x.pred g.toNat != neg then a else b) 1) s

/-- LI: a literal (R117). -/
def execLi (f : SUn) (s : State) : Host.Outcome State Fault Refusal :=
  runSlot (do landS f.slot f.dst (← readS f.slot f.a) 1) s

/-- MOV: a register or a head (R117). -/
def execMov (f : SUn) (s : State) : Host.Outcome State Fault Refusal :=
  runSlot (do landS f.slot f.dst (← readS f.slot f.a) 1) s

/-- BFX: bits [pos + len − 1 : pos], sign-extended or with .u zero-extended (R120). -/
def execBfx (pos len : BitVec 6) (f : SUn) (s : State) : Host.Outcome State Fault Refusal :=
  runSlot (intUn f 1 (fun a =>
    let n := len.toNat + 1
    let x := bitsAt (opBits f.w a) pos.toNat n
    if f.u then x else narrowInt f.w (sextNat n x))) s

/-- BFI: the destination with bits [pos + len − 1 : pos] replaced by A[len − 1 : 0] (R120). -/
def execBfi (pos len : BitVec 6) (f : SUn) (s : State) : Host.Outcome State Fault Refusal :=
  runSlot (do
    let a ← readS f.slot f.a
    let d ← readDst f.slot f.dst
    let n := len.toNat + 1
    let p := pos.toNat
    let old := opBits f.w d
    let r := old - bitsAt old p n * 2 ^ p + a.toNat % 2 ^ n * 2 ^ p
    landS f.slot f.dst (deliver f.w f.u r) 1) s

/-- ADDR: A + B × 2^sh modulo 2^64 (R117). -/
def execAddr (sh : BitVec 3) (f : SBin) (s : State) : Host.Outcome State Fault Refusal :=
  runSlot (do
    let a ← readS f.slot f.a
    let b ← readS f.slot f.b
    landS f.slot f.dst (a + (b <<< sh.toNat)) 1) s

/-- XFER: A into another slot's file; a vector destination gets zeros above bit 63 (R121). -/
def execXfer (file : XferFile) (f : SUn) (s : State) : Host.Outcome State Fault Refusal :=
  runSlot (do
    let a ← readS f.slot f.a
    let v : VecReg := a.setWidth 2048
    let d := f.dst.toNat
    match file with
    | .other => landAt (SSlot.other f.slot) d v 2
    | .p => landAt fP d v 2
    | .k => landAt fK d v 2
    | .v => landAt fV d v 3
    | .w => landAt fW d v 3) s

end Sys2Proof.Machine
end

