-- ==== Sys2Proof/Machine/VecConv.lean ====
section
/-! DEFINITION. The conversion forms of the V slots: VCVT, OCP MX quantisation, and the CW8 weight code (R164 to R170). -/

namespace Sys2Proof.Machine

/-- How result lanes and source lanes correspond (R164): the source lane of result lane i, none where it keeps its value. -/
def partSource (ns nd h i : Nat) : Option Nat :=
  if ns > nd then some (h * nd + i)
  else if h * ns ≤ i ∧ i < h * ns + ns then some (i - h * ns) else none

/-- Land a conversion: `r` gives each written lane its bits and flags; lanes outside the part, and inactive lanes, keep
their value at issue (R148, R164). -/
def landPart (slot : VSlot) (w ns nd h : Nat) (m : Option (BitVec 3)) (dst : BitVec 10) (lat : Nat)
    (r : Nat → Nat → Nat × Nat) : M Unit := do
  vecIndex dst.toNat
  let active ← readActive slot m
  let old ← if ns < nd || m.isSome then readReg (VSlot.file slot) dst.toNat else pure 0
  let out := (List.range nd).map (fun i =>
    match partSource ns nd h i with
    | some l => if active i then r i l else (laneAt w old i, 0)
    | none => (laneAt w old i, 0))
  mergeFlags (orAll (out.map (·.2)))
  landAt (VSlot.file slot) dst.toNat (ofLanes w (out.map (·.1))) lat

/-- VCVT (R165). -/
def execVcvt (dst : ElemTy) (h : BitVec 2) (sat : Bool) (f : VUn) (s : State) : Host.Outcome State Fault Refusal :=
  runSlot (do
    let a ← readV f.slot f.ty f.a
    let x ← curCtx
    let mode := vMode x f.rnd
    let u ← drawIf (convDraws x mode f.ty dst) (blocks dst.lanes)
    landPart f.slot dst.width f.ty.lanes dst.lanes h.toNat f.mask f.dst 3 (fun i l =>
      convertElem x.compat mode (u i) (!x.compat) sat f.ty dst (laneAt f.ty.width a l))) s

/-- Byte `i` of a scale register. -/
def scaleByte (v : VecReg) (i : Nat) : Nat := laneAt 8 v i

/-- A value times 2^k. -/
def FVal.scale (v : FVal) (k : Int) : FVal := match v with | .num n m e => .num n m (e + k) | v => v

/-- Round to an FP8 format with saturation (R166): a result beyond the largest finite value becomes it, with the
saturate flag; for an infinity it differs from the exact result, so it is inexact too (R41). -/
def quantRound (g : FFmt) (mode : RMode) (u : Nat) (nat : Bool) (v : FVal) : Nat × Nat :=
  match v with
  | .nan sg => (g.nan, if sg then fInvalid else 0)
  | .inf n => (g.signBit n + g.maxBits, fSaturate + fInexact)
  | v =>
    let (b, fl) := v.res.deliver g mode u nat
    if bitAt fl 2 then (g.signBit v.isNeg + g.maxBits, Nat.lor fl fSaturate) else (b, fl)

/-- The scale byte of a block (R166). -/
def blockScale (g : FFmt) (vs : List FVal) : Nat :=
  if vs.any (fun v => match v with | .num _ _ _ => false | _ => true) then 0xFF
  else
    let exps := vs.filterMap (fun v => match v with | .num _ m e => if m = 0 then none else some (e + lg2 m) | _ => none)
    match exps with
    | [] => 0
    | e :: es =>
      let top := es.foldl max e
      (clampInt 0 254 (top - (if g = .e4m3 then 8 else 15) + 127)).1.toNat

/-- VQUANT: quantise, or write the block scales, where a signalling NaN in the block of a written byte is invalid
(R28, R166). -/
def execVquant (scales : Bool) (dst : ElemTy) (h : BitVec 2) (f : VBin) (s : State) : Host.Outcome State Fault Refusal :=
  runSlot (do
    let a ← readV f.slot f.ty f.a
    let x ← curCtx
    let g := fmtD dst
    let ns := f.ty.lanes
    let vals := (List.range ns).map (vVal x f.ty a)
    if scales then do
      vecIndex f.dst.toNat
      let active ← readActive f.slot f.mask
      let old ← readReg (VSlot.file f.slot) f.dst.toNat
      let o := h.toNat * (ns / 32)
      let out := (List.range 256).map (fun i =>
        if o ≤ i && i < o + ns / 32 && active i then
          let vs := (vals.drop (32 * (i - o))).take 32
          (blockScale g vs, if vs.any (fun v => v.sig != 0) then fInvalid else 0)
        else (laneAt 8 old i, 0))
      mergeFlags (orAll (out.map (·.2)))
      landAt (VSlot.file f.slot) f.dst.toNat (ofLanes 8 (out.map (·.1))) 6
    else do
      let b ← readV f.slot f.ty f.b
      let mode := vMode x f.rnd
      let u ← drawIf (drawsFor x mode true) 64
      landPart f.slot 8 ns 256 h.toNat f.mask f.dst 6 (fun i l =>
        let sc := scaleByte b ((h.toNat * ns + l) / 32)
        if sc = 0xFF then (g.nan, (vVal x f.ty a l).sig)
        else quantRound g mode (u i) (!x.compat) ((vVal x f.ty a l).scale (127 - (sc : Int))))) s

/-- VDEQ: x × 2^(s − 127) rounded to the result type (R167). -/
def execVdeq (dst : ElemTy) (h : BitVec 2) (f : VBin) (s : State) : Host.Outcome State Fault Refusal :=
  runSlot (do
    let a ← readV f.slot f.ty f.a
    let b ← readV f.slot f.ty f.b
    let x ← curCtx
    let g := fmtD dst
    let mode := vMode x f.rnd
    let u ← drawIf (drawsFor x mode g.narrow) (blocks dst.lanes)
    landPart f.slot dst.width 256 dst.lanes h.toNat f.mask f.dst 3 (fun i l =>
      let sc := scaleByte b (l / 32)
      if sc = 0xFF then (g.nan, 0)
      else ((vVal x f.ty a l).scale ((sc : Int) - 127)).res.deliver g mode (u i) (!x.compat))) s

/-! ### CW8 -/

/-- The unscaled CW8 magnitudes in units of 2^-6, ascending: sums of a term and a term or nothing (R31). -/
def cwMags : List Nat :=
  let ts := [1, 2, 4, 8, 16, 32, 64]
  (List.range 129).filter (fun n => n == 0 || ts.any (fun p => n == p || ts.any (fun q => n == p + q || n + q == p)))

/-- The neighbour of a magnitude toward zero, and the one away from zero: `n` is its floor in units of 2^-6. -/
def cwBelow (n : Nat) : Nat := cwMags.foldl (fun acc m => if m ≤ n then m else acc) 0
def cwAbove (n : Nat) : Nat := (cwMags.find? (fun m => n < m)).getD 128

/-- The code and flags of one encoded lane (R169): y is the scaled value. -/
def cwEncode (mode : RMode) (u : Nat) (y : FVal) : Nat × Nat :=
  match y with
  | .nan _ => (0x77, fInvalid)
  | .inf n => (if n then 0x88 else 0, Nat.lor fSaturate fInexact)
  | .num neg m e =>
    let (n, r, st) := (⟨m, e, false⟩ : Mag).onGrid (-6)
    let sgn := fun (k : Nat) => cwCanon (if neg then -(k : Int) else k)
    if 128 < n || (n == 128 && (r != 0 || st)) then (if neg then 0x88 else 0, Nat.lor fSaturate fInexact)
    else
      let a := cwBelow n
      if a = n && r = 0 && !st then (sgn n, 0)
      else
        let b := cwAbove n
        -- distance from a, and the whole gap, in units of 2^-70
        let d := (n - a) * 2 ^ 64 + r
        let gap := (b - a) * 2 ^ 64
        let up := match mode with
          | .rne => decide (gap < 2 * d) || (decide (gap = 2 * d) && st)
          | .rz => false
          | .ru => !neg
          | .rd => neg
          | .sr => if st then decide (u * gap ≤ d * 2 ^ 32) else decide (u * gap < d * 2 ^ 32)
        (sgn (if up then b else a), fInexact)

/-- VCWENC (R169). -/
def execVcwenc (h : BitVec 2) (f : VBin) (s : State) : Host.Outcome State Fault Refusal :=
  runSlot (do
    let a ← readV f.slot f.ty f.a
    let b ← readV f.slot f.ty f.b
    let x ← curCtx
    let mode := vMode x f.rnd
    let ns := f.ty.lanes
    let u ← drawIf (mode == .sr) 64
    landPart f.slot 8 ns 256 h.toNat f.mask f.dst 4 (fun i l =>
      let sc := scaleByte b ((h.toNat * ns + l) / 32)
      if sc = 0xFF then (0x77, fInvalid)
      else cwEncode mode (u i) ((vVal x f.ty a l).scale (127 - (sc : Int))))) s

/-- VCWDEC: the value of a view with its scale and offset, rounded (R32, R170). -/
def execVcwdec (dst : ElemTy) (h : BitVec 2) (view : CwView) (o : BitVec 4) (f : VBin) (s : State) :
    Host.Outcome State Fault Refusal :=
  runSlot (do
    let a ← readV f.slot f.ty f.a
    let b ← readV f.slot f.ty f.b
    let x ← curCtx
    let g := fmtD dst
    let mode := vMode x f.rnd
    let u ← drawIf (drawsFor x mode g.narrow) (blocks dst.lanes)
    landPart f.slot dst.width 256 dst.lanes h.toNat f.mask f.dst 4 (fun i l =>
      let sc := scaleByte b (l / 32)
      if sc = 0xFF then (g.nan, 0)
      else
        let v := cwValue view (laneAt 8 a l)
        (FVal.scale (intVal v) ((sc : Int) - 127 + o.toInt - 6)).res.deliver g mode (u i) (!x.compat))) s

end Sys2Proof.Machine
end

