-- ==== Sys2Proof/Machine/VecFp.lean ====
section
/-! DEFINITION. The floating-point forms of the V slots (R150 to R152). -/

namespace Sys2Proof.Machine

/-- A rounded form with one source. -/
def vfUn (f : VUn) (lat : Nat) (op : FVal → FRes) : M Unit := do
  let a ← readV f.slot f.ty f.a
  let x ← curCtx
  landVF f.slot f.ty f.mask f.rnd f.dst lat (fun _ i => op (vVal x f.ty a i))

/-- A rounded form with two sources. -/
def vfBin (f : VBin) (lat : Nat) (op : RMode → FVal → FVal → FRes) : M Unit := do
  let a ← readV f.slot f.ty f.a
  let b ← readV f.slot f.ty f.b
  let x ← curCtx
  landVF f.slot f.ty f.mask f.rnd f.dst lat (fun m i => op m (vVal x f.ty a i) (vVal x f.ty b i))

/-- A fused form with three sources. -/
def vfTer (f : VTer) (op : RMode → FVal → FVal → FVal → FRes) : M Unit := do
  let a ← readV f.slot f.ty f.a
  let b ← readV f.slot f.ty f.b
  let c ← readV f.slot f.ty f.c
  let x ← curCtx
  landVF f.slot f.ty f.mask f.rnd f.dst 4 (fun m i => op m (vVal x f.ty a i) (vVal x f.ty b i) (vVal x f.ty c i))

/-- VADD: A + B (R151). -/
def execVadd (f : VBin) (s : State) : Host.Outcome State Fault Refusal :=
  runSlot (vfBin f 4 fAdd) s

/-- VSUB: A − B (R151). -/
def execVsub (f : VBin) (s : State) : Host.Outcome State Fault Refusal :=
  runSlot (vfBin f 4 (fun m a b => fAdd m a b.neg)) s

/-- VMUL: A × B (R151). -/
def execVmul (f : VBin) (s : State) : Host.Outcome State Fault Refusal :=
  runSlot (vfBin f 4 (fun _ a b => fMul a b)) s

/-- VFMA: A × B + C, the product unrounded (R151). -/
def execVfma (f : VTer) (s : State) : Host.Outcome State Fault Refusal :=
  runSlot (vfTer f fFma) s

/-- VFMS: A × B − C (R151). -/
def execVfms (f : VTer) (s : State) : Host.Outcome State Fault Refusal :=
  runSlot (vfTer f (fun m a b c => fFma m a b c.neg)) s

/-- VFNMA: −(A × B) + C (R151). -/
def execVfnma (f : VTer) (s : State) : Host.Outcome State Fault Refusal :=
  runSlot (vfTer f (fun m a b c => fFma m a.neg b c)) s

/-- VRCP: 1 / A (R151). -/
def execVrcp (f : VUn) (s : State) : Host.Outcome State Fault Refusal :=
  runSlot (vfUn f 8 fRcp) s

/-- VRSQ: 1 / √A (R151). -/
def execVrsq (f : VUn) (s : State) : Host.Outcome State Fault Refusal :=
  runSlot (vfUn f 8 fRsq) s

/-- VSQRT: √A (R151). -/
def execVsqrt (f : VUn) (s : State) : Host.Outcome State Fault Refusal :=
  runSlot (vfUn f 12 fSqrt) s

/-- VEXP2: 2^A (R151). -/
def execVexp2 (f : VUn) (s : State) : Host.Outcome State Fault Refusal :=
  runSlot (vfUn f 8 fExp2) s

/-- VLOG2: log2 A (R151). -/
def execVlog2 (f : VUn) (s : State) : Host.Outcome State Fault Refusal :=
  runSlot (vfUn f 8 fLog2) s

/-- VTANH: tanh A (R151). -/
def execVtanh (f : VUn) (s : State) : Host.Outcome State Fault Refusal :=
  runSlot (vfUn f 10 fTanh) s

/-- VSIGM: 1 / (1 + e^−A) (R151). -/
def execVsigm (f : VUn) (s : State) : Host.Outcome State Fault Refusal :=
  runSlot (vfUn f 10 fSigm) s

/-- VSILU: A / (1 + e^−A) (R151). -/
def execVsilu (f : VUn) (s : State) : Host.Outcome State Fault Refusal :=
  runSlot (vfUn f 10 fSilu) s

/-- VGELU: A × Φ(A) (R151). -/
def execVgelu (f : VUn) (s : State) : Host.Outcome State Fault Refusal :=
  runSlot (vfUn f 10 fGelu) s

/-- VDIV: A / B (R151). -/
def execVdiv (f : VBin) (s : State) : Host.Outcome State Fault Refusal :=
  runSlot (vfBin f 12 (fun _ a b => fDiv a b)) s

/-- VMIN and VMAX deliver an operand unrounded (R152). -/
def vfMinMax (f : VBin) (max : Bool) : M Unit := do
  let a ← readV f.slot f.ty f.a
  let b ← readV f.slot f.ty f.b
  let x ← curCtx
  landVX f.slot f.ty f.mask f.dst 4 (fun i =>
    fMinMax (fmtD f.ty) x.compat max (laneAt f.ty.width a i) (laneAt f.ty.width b i))

/-- VMIN (R152). -/
def execVmin (f : VBin) (s : State) : Host.Outcome State Fault Refusal :=
  runSlot (vfMinMax f false) s

/-- VMAX (R152). -/
def execVmax (f : VBin) (s : State) : Host.Outcome State Fault Refusal :=
  runSlot (vfMinMax f true) s

/-- VABS and VNEG change the sign bit; a NaN becomes canonical; no flag (R152). -/
def vfSign (f : VUn) (neg : Bool) : M Unit := do
  let a ← readV f.slot f.ty f.a
  let g := fmtD f.ty
  landVX f.slot f.ty f.mask f.dst 4 (fun i =>
    let b := laneAt f.ty.width a i
    let mag := b % 2 ^ (g.width - 1)
    (if (g.decode b).isNan then g.nan else mag + g.signBit (neg && !bitAt b (g.width - 1)), 0))

/-- VABS (R152). -/
def execVabs (f : VUn) (s : State) : Host.Outcome State Fault Refusal :=
  runSlot (vfSign f false) s

/-- VNEG (R152). -/
def execVneg (f : VUn) (s : State) : Host.Outcome State Fault Refusal :=
  runSlot (vfSign f true) s

end Sys2Proof.Machine
end

