-- ==== Sys2Proof/Machine/Dispatch.lean ====
section
/-! DEFINITION. One arm for each constructor of `Instr`, in the order of the opcode table: a direct call of the meaning. -/

namespace Sys2Proof.Machine

def exec (i : Instr) (s : State) : Host.Outcome State Fault Refusal :=
  match i with
  | .nop slot => Sys2Proof.Machine.execNop slot s
  | .add f => Sys2Proof.Machine.execAdd f s
  | .sub f => Sys2Proof.Machine.execSub f s
  | .mul f => Sys2Proof.Machine.execMul f s
  | .mulh f => Sys2Proof.Machine.execMulh f s
  | .div f => Sys2Proof.Machine.execDiv f s
  | .rem f => Sys2Proof.Machine.execRem f s
  | .and f => Sys2Proof.Machine.execAnd f s
  | .or f => Sys2Proof.Machine.execOr f s
  | .xor f => Sys2Proof.Machine.execXor f s
  | .andn f => Sys2Proof.Machine.execAndn f s
  | .shl f => Sys2Proof.Machine.execShl f s
  | .shr f => Sys2Proof.Machine.execShr f s
  | .sar f => Sys2Proof.Machine.execSar f s
  | .rot f => Sys2Proof.Machine.execRot f s
  | .clz f => Sys2Proof.Machine.execClz f s
  | .ctz f => Sys2Proof.Machine.execCtz f s
  | .popc f => Sys2Proof.Machine.execPopc f s
  | .min f => Sys2Proof.Machine.execMin f s
  | .max f => Sys2Proof.Machine.execMax f s
  | .cmp c f => Sys2Proof.Machine.execCmp c f s
  | .sel g neg f => Sys2Proof.Machine.execSel g neg f s
  | .li f => Sys2Proof.Machine.execLi f s
  | .mov f => Sys2Proof.Machine.execMov f s
  | .bfx pos len f => Sys2Proof.Machine.execBfx pos len f s
  | .bfi pos len f => Sys2Proof.Machine.execBfi pos len f s
  | .addr sh f => Sys2Proof.Machine.execAddr sh f s
  | .xfer file f => Sys2Proof.Machine.execXfer file f s
  | .fadd fmt f => Sys2Proof.Machine.execFadd fmt f s
  | .fsub fmt f => Sys2Proof.Machine.execFsub fmt f s
  | .fmul fmt f => Sys2Proof.Machine.execFmul fmt f s
  | .fma fmt f => Sys2Proof.Machine.execFma fmt f s
  | .frcp fmt f => Sys2Proof.Machine.execFrcp fmt f s
  | .frsq fmt f => Sys2Proof.Machine.execFrsq fmt f s
  | .fexp2 fmt f => Sys2Proof.Machine.execFexp2 fmt f s
  | .flog2 fmt f => Sys2Proof.Machine.execFlog2 fmt f s
  | .fmin fmt f => Sys2Proof.Machine.execFmin fmt f s
  | .fmax fmt f => Sys2Proof.Machine.execFmax fmt f s
  | .fcmp fmt c f => Sys2Proof.Machine.execFcmp fmt c f s
  | .fcvt src dst f => Sys2Proof.Machine.execFcvt src dst f s
  | .rand float slot dst => Sys2Proof.Machine.execRand float slot dst s
  | .vadd f => Sys2Proof.Machine.execVadd f s
  | .vsub f => Sys2Proof.Machine.execVsub f s
  | .vmul f => Sys2Proof.Machine.execVmul f s
  | .vfma f => Sys2Proof.Machine.execVfma f s
  | .vfms f => Sys2Proof.Machine.execVfms f s
  | .vfnma f => Sys2Proof.Machine.execVfnma f s
  | .vmin f => Sys2Proof.Machine.execVmin f s
  | .vmax f => Sys2Proof.Machine.execVmax f s
  | .vabs f => Sys2Proof.Machine.execVabs f s
  | .vneg f => Sys2Proof.Machine.execVneg f s
  | .vrcp f => Sys2Proof.Machine.execVrcp f s
  | .vrsq f => Sys2Proof.Machine.execVrsq f s
  | .vsqrt f => Sys2Proof.Machine.execVsqrt f s
  | .vdiv f => Sys2Proof.Machine.execVdiv f s
  | .vexp2 f => Sys2Proof.Machine.execVexp2 f s
  | .vlog2 f => Sys2Proof.Machine.execVlog2 f s
  | .vtanh f => Sys2Proof.Machine.execVtanh f s
  | .vsigm f => Sys2Proof.Machine.execVsigm f s
  | .vsilu f => Sys2Proof.Machine.execVsilu f s
  | .vgelu f => Sys2Proof.Machine.execVgelu f s
  | .viadd m f => Sys2Proof.Machine.execViadd m f s
  | .visub m f => Sys2Proof.Machine.execVisub m f s
  | .vimul m f => Sys2Proof.Machine.execVimul m f s
  | .vimad m f => Sys2Proof.Machine.execVimad m f s
  | .vimin f => Sys2Proof.Machine.execVimin f s
  | .vimax f => Sys2Proof.Machine.execVimax f s
  | .vand f => Sys2Proof.Machine.execVand f s
  | .vor f => Sys2Proof.Machine.execVor f s
  | .vxor f => Sys2Proof.Machine.execVxor f s
  | .vshl f => Sys2Proof.Machine.execVshl f s
  | .vshr f => Sys2Proof.Machine.execVshr f s
  | .vsar f => Sys2Proof.Machine.execVsar f s
  | .vcmp c f => Sys2Proof.Machine.execVcmp c f s
  | .vsel f => Sys2Proof.Machine.execVsel f s
  | .vmask op slot dst => Sys2Proof.Machine.execVmask op slot dst s
  | .vmov f => Sys2Proof.Machine.execVmov f s
  | .vperm f => Sys2Proof.Machine.execVperm f s
  | .vbcast j f => Sys2Proof.Machine.execVbcast j f s
  | .vslide n f => Sys2Proof.Machine.execVslide n f s
  | .vcomp f => Sys2Proof.Machine.execVcomp f s
  | .vexpd f => Sys2Proof.Machine.execVexpd f s
  | .vpsum f => Sys2Proof.Machine.execVpsum f s
  | .vred op f => Sys2Proof.Machine.execVred op f s
  | .vfind c f => Sys2Proof.Machine.execVfind c f s
  | .vcnt f => Sys2Proof.Machine.execVcnt f s
  | .viota f => Sys2Proof.Machine.execViota f s
  | .vcvt dst h sat f => Sys2Proof.Machine.execVcvt dst h sat f s
  | .vquant scales dst h f => Sys2Proof.Machine.execVquant scales dst h f s
  | .vdeq dst h f => Sys2Proof.Machine.execVdeq dst h f s
  | .vcwenc h f => Sys2Proof.Machine.execVcwenc h f s
  | .vcwdec dst h view o f => Sys2Proof.Machine.execVcwdec dst h view o f s
  | .vrand f => Sys2Proof.Machine.execVrand f s
  | .vxfer file j f => Sys2Proof.Machine.execVxfer file j f s
  | .vins j f => Sys2Proof.Machine.execVins j f s
  | .vclass f => Sys2Proof.Machine.execVclass f s
  | .lds ty dst base addr => Sys2Proof.Machine.execLds ty dst base addr s
  | .sts ty src base addr => Sys2Proof.Machine.execSts ty src base addr s
  | .vld ty dst base addr => Sys2Proof.Machine.execVld ty dst base addr s
  | .vst ty src base addr => Sys2Proof.Machine.execVst ty src base addr s
  | .vlds ty dst base stride off => Sys2Proof.Machine.execVlds ty dst base stride off s
  | .vsts ty src base stride off => Sys2Proof.Machine.execVsts ty src base stride off s
  | .vgath ty h dst base index off => Sys2Proof.Machine.execVgath ty h dst base index off s
  | .vscat ty h src base index => Sys2Proof.Machine.execVscat ty h src base index s
  | .atom op ty dst src base off => Sys2Proof.Machine.execAtom op ty dst src base off s
  | .pref action base off => Sys2Proof.Machine.execPref action base off s
  | .wset q mem set rec base => Sys2Proof.Machine.execWset q mem set rec base s
  | .wstart q => Sys2Proof.Machine.execWstart q s
  | .wstop drain q => Sys2Proof.Machine.execWstop drain q s
  | .wstat dst q => Sys2Proof.Machine.execWstat dst q s
  | .cbwait dst cb n version => Sys2Proof.Machine.execCbwait dst cb n version s
  | .cbadv cb n version => Sys2Proof.Machine.execCbadv cb n version s
  | .cbset cb base off => Sys2Proof.Machine.execCbset cb base off s
  | .nld ty dst base off => Sys2Proof.Machine.execNld ty dst base off s
  | .nst ty flag src base off => Sys2Proof.Machine.execNst ty flag src base off s
  | .nat op ty dst src base off => Sys2Proof.Machine.execNat op ty dst src base off s
  | .nts ty src entry piece slot base => Sys2Proof.Machine.execNts ty src entry piece slot base s
  | .nmc ty flag axis self src base off => Sys2Proof.Machine.execNmc ty flag axis self src base off s
  | .ncb ty src entry piece base => Sys2Proof.Machine.execNcb ty src entry piece base s
  | .pld ty dst base demand desc off => Sys2Proof.Machine.execPld ty dst base demand desc off s
  | .pst ty acc src base desc off => Sys2Proof.Machine.execPst ty acc src base desc off s
  | .tcfg e dA dB => Sys2Proof.Machine.execTcfg e dA dB s
  | .tdrain e dA => Sys2Proof.Machine.execTdrain e dA s
  | .tzero e t => Sys2Proof.Machine.execTzero e t s
  | .tmma adv e t dA dB k => Sys2Proof.Machine.execTmma adv e t dA dB k s
  | .taff ident off e pair => Sys2Proof.Machine.execTaff ident off e pair s
  | .tscan carry e pair set n => Sys2Proof.Machine.execTscan carry e pair set n s
  | .tcarry op w e t set reg => Sys2Proof.Machine.execTcarry op w e t set reg s
  | .trd retire w e t reg row0 n1 => Sys2Proof.Machine.execTrd retire w e t reg row0 n1 s
  | .twr w e t reg row0 n1 => Sys2Proof.Machine.execTwr w e t reg row0 n1 s
  | .tld e t dA => Sys2Proof.Machine.execTld e t dA s
  | .tst retire e t dA => Sys2Proof.Machine.execTst retire e t dA s
  | .tred op cols w e t reg => Sys2Proof.Machine.execTred op cols w e t reg s
  | .tcomb fold e pair n => Sys2Proof.Machine.execTcomb fold e pair n s
  | .tres hz clr e t dst => Sys2Proof.Machine.execTres hz clr e t dst s
  | .tdesc e dA src => Sys2Proof.Machine.execTdesc e dA src s
  | .br off => Sys2Proof.Machine.execBr off s
  | .brc neg g off => Sys2Proof.Machine.execBrc neg g off s
  | .jmp base off => Sys2Proof.Machine.execJmp base off s
  | .call indirect link base off => Sys2Proof.Machine.execCall indirect link base off s
  | .ret link => Sys2Proof.Machine.execRet link s
  | .loop level count off => Sys2Proof.Machine.execLoop level count off s
  | .end_ => Sys2Proof.Machine.execEnd_ s
  | .yield => Sys2Proof.Machine.execYield s
  | .cadd rel scope ctr amount => Sys2Proof.Machine.execCadd rel scope ctr amount s
  | .cwait acq scope dst ctr tgt timeout => Sys2Proof.Machine.execCwait acq scope dst ctr tgt timeout s
  | .ctest acq scope g ctr tgt => Sys2Proof.Machine.execCtest acq scope g ctr tgt s
  | .cread acq scope status dst ctr => Sys2Proof.Machine.execCread acq scope status dst ctr s
  | .fence scope => Sys2Proof.Machine.execFence scope s
  | .drain scope ctr tgt => Sys2Proof.Machine.execDrain scope ctr tgt s
  | .fork rec arg => Sys2Proof.Machine.execFork rec arg s
  | .join acq scope park ctr tgt => Sys2Proof.Machine.execJoin acq scope park ctr tgt s
  | .launch dst pkt => Sys2Proof.Machine.execLaunch dst pkt s
  | .msend rel len tgt src off => Sys2Proof.Machine.execMsend rel len tgt src off s
  | .ecopy eng f => Sys2Proof.Machine.execEcopy eng f s
  | .egather f => Sys2Proof.Machine.execEgather f s
  | .escatter f => Sys2Proof.Machine.execEscatter f s
  | .efill eng f => Sys2Proof.Machine.execEfill eng f s
  | .econv eng f => Sys2Proof.Machine.execEconv eng f s
  | .ecoll f => Sys2Proof.Machine.execEcoll f s
  | .eplane f => Sys2Proof.Machine.execEplane f s
  | .estat dst e => Sys2Proof.Machine.execEstat dst e s
  | .swap ctr => Sys2Proof.Machine.execSwap ctr s
  | .sqnew dst rec => Sys2Proof.Machine.execSqnew dst rec s
  | .sqfork dst id rec => Sys2Proof.Machine.execSqfork dst id rec s
  | .sqfree dst id => Sys2Proof.Machine.execSqfree dst id s
  | .sqtree dst id rec => Sys2Proof.Machine.execSqtree dst id rec s
  | .sqacc dst id tab => Sys2Proof.Machine.execSqacc dst id tab s
  | .sqcommit direct dst id => Sys2Proof.Machine.execSqcommit direct dst id s
  | .sqrewind dst id n => Sys2Proof.Machine.execSqrewind dst id n s
  | .sqpreempt dst id => Sys2Proof.Machine.execSqpreempt dst id s
  | .sqresume dst id tab => Sys2Proof.Machine.execSqresume dst id tab s
  | .sqstat dst id sel => Sys2Proof.Machine.execSqstat dst id sel s
  | .kvmap slot kb dst id x layer => Sys2Proof.Machine.execKvmap slot kb dst id x layer s
  | .kvappend dst id n => Sys2Proof.Machine.execKvappend dst id n s
  | .kvcompact bits dst id ctr amount => Sys2Proof.Machine.execKvcompact bits dst id ctr amount s
  | .kvrequant bits dst rec ctr amount => Sys2Proof.Machine.execKvrequant bits dst rec ctr amount s
  | .pdecl dst desc => Sys2Proof.Machine.execPdecl dst desc s
  | .prel drop desc => Sys2Proof.Machine.execPrel drop desc s
  | .pconv dst desc demand => Sys2Proof.Machine.execPconv dst desc demand s
  | .pqry dst desc sel => Sys2Proof.Machine.execPqry dst desc sel s
  | .csrr dst num => Sys2Proof.Machine.execCsrr dst num s
  | .csrw op src num => Sys2Proof.Machine.execCsrw op src num s
  | .trap code => Sys2Proof.Machine.execTrap code s
  | .eret dst => Sys2Proof.Machine.execEret dst s
  | .watch arm shut dst base len entry => Sys2Proof.Machine.execWatch arm shut dst base len entry s
  | .snap tag => Sys2Proof.Machine.execSnap tag s
  | .bkpt code => Sys2Proof.Machine.execBkpt code s
  | .creset core ctr => Sys2Proof.Machine.execCreset core ctr s
  | .nldRequest die p => Sys2Proof.Machine.execNldRequest die p s
  | .storePacket die p => Sys2Proof.Machine.execStorePacket die p s
  | .natPacket die p => Sys2Proof.Machine.execNatPacket die p s
  | .contributionPiece die p => Sys2Proof.Machine.execContributionPiece die p s
  | .collectiveTransfer die p => Sys2Proof.Machine.execCollectiveTransfer die p s
  | .response die p => Sys2Proof.Machine.execResponse die p s
  | .acknowledgement die p => Sys2Proof.Machine.execAcknowledgement die p s
  | .negativeAcknowledgement die p => Sys2Proof.Machine.execNegativeAcknowledgement die p s
  | .issueSelection core => Sys2Proof.Machine.execIssueSelection core s
  | .contextPromotion ctx => Sys2Proof.Machine.execContextPromotion ctx s
  | .yieldExpiry ctx => Sys2Proof.Machine.execYieldExpiry ctx s
  | .stallExpiry ctx => Sys2Proof.Machine.execStallExpiry ctx s
  | .fixedLatencyLanding ctx => Sys2Proof.Machine.execFixedLatencyLanding ctx s
  | .variableLatencyLanding ctx n => Sys2Proof.Machine.execVariableLatencyLanding ctx n s
  | .outsideTrap ctx => Sys2Proof.Machine.execOutsideTrap ctx s
  | .contextSave ctx why => Sys2Proof.Machine.execContextSave ctx why s
  | .contextRestore task ctx => Sys2Proof.Machine.execContextRestore task ctx s
  | .preemptionRequest ctx => Sys2Proof.Machine.execPreemptionRequest ctx s
  | .preemptionWithdrawn ctx => Sys2Proof.Machine.execPreemptionWithdrawn ctx s
  | .taskRetire ctx => Sys2Proof.Machine.execTaskRetire ctx s
  | .dequeStart ctx => Sys2Proof.Machine.execDequeStart ctx s
  | .parkedJoinRestore task ctx => Sys2Proof.Machine.execParkedJoinRestore task ctx s
  | .waitSatisfied core ctr => Sys2Proof.Machine.execWaitSatisfied core ctr s
  | .sweepReread core => Sys2Proof.Machine.execSweepReread core s
  | .cwaitTimeout ctx => Sys2Proof.Machine.execCwaitTimeout ctx s
  | .drainSweep ctx => Sys2Proof.Machine.execDrainSweep ctx s
  | .latheFetch ctx q => Sys2Proof.Machine.execLatheFetch ctx q s
  | .tileOperationExecute core e residueFails => Sys2Proof.Machine.execTileOperationExecute core e residueFails s
  | .engineShadowSwap e => Sys2Proof.Machine.execEngineShadowSwap e s
  | .engineCommandComplete e => Sys2Proof.Machine.execEngineCommandComplete e s
  | .atomPerform ctx => Sys2Proof.Machine.execAtomPerform ctx s
  | .messageArrival core n => Sys2Proof.Machine.execMessageArrival core n s
  | .messageHandlerStart ctx => Sys2Proof.Machine.execMessageHandlerStart ctx s
  | .pageWalk ctx va write => Sys2Proof.Machine.execPageWalk ctx va write s
  | .sysTlbinv die rec => Sys2Proof.Machine.execSysTlbinv die rec s
  | .invalidationComplete die n => Sys2Proof.Machine.execInvalidationComplete die n s
  | .watchpointReport n => Sys2Proof.Machine.execWatchpointReport n s
  | .coreReset core n => Sys2Proof.Machine.execCoreReset core n s
  | .packageColdReset => Sys2Proof.Machine.execPackageColdReset s
  | .vaultConfigWrite cl v => Sys2Proof.Machine.execVaultConfigWrite cl v s
  | .divisionChangeComplete cl => Sys2Proof.Machine.execDivisionChangeComplete cl s
  | .reserveRegisterWrite core v => Sys2Proof.Machine.execReserveRegisterWrite core v s
  | .spillOfferWithdrawal core reserve => Sys2Proof.Machine.execSpillOfferWithdrawal core reserve s
  | .spareSubstitution core => Sys2Proof.Machine.execSpareSubstitution core s
  | .coreDisable core => Sys2Proof.Machine.execCoreDisable core s
  | .patrolScrub pa corrected => Sys2Proof.Machine.execPatrolScrub pa corrected s
  | .postPackageRepair pa => Sys2Proof.Machine.execPostPackageRepair pa s
  | .spareChannelMigration die ch => Sys2Proof.Machine.execSpareChannelMigration die ch s
  | .packetRead region => Sys2Proof.Machine.execPacketRead region s
  | .nodeEligible n => Sys2Proof.Machine.execNodeEligible n s
  | .taskPlacement set ctx => Sys2Proof.Machine.execTaskPlacement set ctx s
  | .crewPlacement set cl ctxs window => Sys2Proof.Machine.execCrewPlacement set cl ctxs window s
  | .sharePreemption ctx => Sys2Proof.Machine.execSharePreemption ctx s
  | .savedTaskRestore task ctx => Sys2Proof.Machine.execSavedTaskRestore task ctx s
  | .configLoaderLoad die => Sys2Proof.Machine.execConfigLoaderLoad die s
  | .planeFlip core => Sys2Proof.Machine.execPlaneFlip core s
  | .managementEplane die rec ctr amount => Sys2Proof.Machine.execManagementEplane die rec ctr amount s
  | .managementFlip core => Sys2Proof.Machine.execManagementFlip core s
  | .kvcompactCopyDone id => Sys2Proof.Machine.execKvcompactCopyDone id s
  | .kvrequantSwitch n => Sys2Proof.Machine.execKvrequantSwitch n s
  | .followerApply id m => Sys2Proof.Machine.execFollowerApply id m s
  | .deliveryFailure id => Sys2Proof.Machine.execDeliveryFailure id s
  | .hostRdmaWrite qp va data => Sys2Proof.Machine.execHostRdmaWrite qp va data s
  | .hostRdmaRead qp va len => Sys2Proof.Machine.execHostRdmaRead qp va len s
  | .hostFetchAndAdd qp va v => Sys2Proof.Machine.execHostFetchAndAdd qp va v s
  | .hostCompareAndSwap qp va c v => Sys2Proof.Machine.execHostCompareAndSwap qp va c v s
  | .linkGroupReceive die g => Sys2Proof.Machine.execLinkGroupReceive die g s
  | .groupReplay die pkg => Sys2Proof.Machine.execGroupReplay die pkg s
  | .bundleDetour die pkg => Sys2Proof.Machine.execBundleDetour die pkg s
  | .keyRotation die key => Sys2Proof.Machine.execKeyRotation die key s
  | .endToEndTimeout die n => Sys2Proof.Machine.execEndToEndTimeout die n s
  | .timedSlotFold die entry => Sys2Proof.Machine.execTimedSlotFold die entry s
  | .combinerTimeout die entry => Sys2Proof.Machine.execCombinerTimeout die entry s
  | .ecollMatch die => Sys2Proof.Machine.execEcollMatch die s
  | .memberShardWrite die n => Sys2Proof.Machine.execMemberShardWrite die n s
  | .memberConversionFailed die n => Sys2Proof.Machine.execMemberConversionFailed die n s
  | .markMemberFailed pkg die => Sys2Proof.Machine.execMarkMemberFailed pkg die s
  | .ntsSlotBegins die n => Sys2Proof.Machine.execNtsSlotBegins die n s
  | .shutterFire src tag ctx => Sys2Proof.Machine.execShutterFire src tag ctx s
  | .contactSheetGatherEnd => Sys2Proof.Machine.execContactSheetGatherEnd s
  | .densitometerSample n v => Sys2Proof.Machine.execDensitometerSample n v s
  | .densitometerClear n => Sys2Proof.Machine.execDensitometerClear n s
  | .registerWrite r v => Sys2Proof.Machine.execRegisterWrite r v s
  | .boot ok code => Sys2Proof.Machine.execBoot ok code s
  | .attestationRequest nonce => Sys2Proof.Machine.execAttestationRequest nonce s
  | .clockThrottle mhz => Sys2Proof.Machine.execClockThrottle mhz s
  | .accessPerformed ctx => Sys2Proof.Machine.execAccessPerformed ctx s
  | .uncorrectableError t => Sys2Proof.Machine.execUncorrectableError t s
  | .laneReturn die pkg => Sys2Proof.Machine.execLaneReturn die pkg s
  | .logicalTimeAdvance ctx n => Sys2Proof.Machine.execLogicalTimeAdvance ctx n s
  | .rdmaAcknowledgement id => Sys2Proof.Machine.execRdmaAcknowledgement id s

end Sys2Proof.Machine
end

