-- ==== Sys2Proof/Machine/Step.lean ====
section
/-! DEFINITION. One step: the next thing that this clock cycle holds, or the issue of the next chosen context's bundle, or
the beginning of the next clock cycle. -/

namespace Sys2Proof.Machine

def step (s : State) : Host.Outcome State Fault Refusal :=
  match s.agenda, s.issuing with
  | i :: rest, _ => exec i { s with agenda := rest }
  | [], c :: rest => attempt exec s c rest
  | [], [] => .next (tickClock s)

/-- `s` with a bundle placed where the next step fetches it. -/
def State.withFetchWord (s : State) (nbits w : Nat) : State := placeBundle s nbits w

end Sys2Proof.Machine
end

