-- ==== Sys2Proof/Laws/Encode.lean ====
section
/-! SUPPORT. The five word layouts give back the fields they were packed from, and so does every code of a small field; a word
whose fields name a well-formed instruction that it encodes decodes to that instruction. -/

namespace Sys2Proof.Laws

open Sys2Proof

/-! ### The layouts -/

theorem SWord.pack_lt (f : SWord) : f.pack < 2 ^ 64 := by
  have h0 := f.op.isLt; have h1 := f.mod.isLt; have h2 := f.dst.isLt; have h3 := f.s1.isLt; have h4 := f.s2.isLt
  have h5 := f.imm.isLt
  unfold SWord.pack; omega

theorem SWord.unpack_pack (f : SWord) : SWord.unpack f.pack = f := by
  have h0 := f.op.isLt; have h1 := f.mod.isLt; have h2 := f.dst.isLt; have h3 := f.s1.isLt; have h4 := f.s2.isLt
  have h5 := f.imm.isLt
  unfold SWord.unpack SWord.pack bitsAt
  cases f
  simp only [SWord.mk.injEq]
  refine ⟨?_, ?_, ?_, ?_, ?_, ?_⟩ <;> apply BitVec.eq_of_toNat_eq <;> simp only [BitVec.toNat_ofNat] at * <;> omega

theorem SWord.pack_op (f : SWord) : f.pack / 2 ^ 56 = f.op.toNat := by
  have h1 := f.mod.isLt; have h2 := f.dst.isLt; have h3 := f.s1.isLt; have h4 := f.s2.isLt; have h5 := f.imm.isLt
  unfold SWord.pack; omega

theorem VWord.pack_lt (f : VWord) : f.pack < 2 ^ 64 := by
  have h0 := f.op.isLt; have h1 := f.ty.isLt; have h2 := f.midx.isLt; have h3 := f.men.isLt; have h4 := f.dst.isLt
  have h5 := f.a.isLt; have h6 := f.b.isLt; have h7 := f.c.isLt; have h8 := f.rnd.isLt
  unfold VWord.pack; omega

theorem VWord.unpack_pack (f : VWord) : VWord.unpack f.pack = f := by
  have h0 := f.op.isLt; have h1 := f.ty.isLt; have h2 := f.midx.isLt; have h3 := f.men.isLt; have h4 := f.dst.isLt
  have h5 := f.a.isLt; have h6 := f.b.isLt; have h7 := f.c.isLt; have h8 := f.rnd.isLt
  unfold VWord.unpack VWord.pack bitsAt
  cases f
  simp only [VWord.mk.injEq]
  refine ⟨?_, ?_, ?_, ?_, ?_, ?_, ?_, ?_, ?_⟩ <;> apply BitVec.eq_of_toNat_eq <;> simp only [BitVec.toNat_ofNat] at * <;> omega

theorem VWord.pack_op (f : VWord) : f.pack / 2 ^ 56 = f.op.toNat := by
  have h1 := f.ty.isLt; have h2 := f.midx.isLt; have h3 := f.men.isLt; have h4 := f.dst.isLt
  have h5 := f.a.isLt; have h6 := f.b.isLt; have h7 := f.c.isLt; have h8 := f.rnd.isLt
  unfold VWord.pack; omega

theorem LWord.pack_lt (f : LWord) : f.pack < 2 ^ 64 := by
  have h0 := f.op.isLt; have h1 := f.ty.isLt; have h2 := f.mod.isLt; have h3 := f.dfile.isLt; have h4 := f.dst.isLt
  have h5 := f.base.isLt; have h6 := f.fld.isLt
  unfold LWord.pack; omega

theorem LWord.unpack_pack (f : LWord) : LWord.unpack f.pack = f := by
  have h0 := f.op.isLt; have h1 := f.ty.isLt; have h2 := f.mod.isLt; have h3 := f.dfile.isLt; have h4 := f.dst.isLt
  have h5 := f.base.isLt; have h6 := f.fld.isLt
  unfold LWord.unpack LWord.pack bitsAt
  cases f
  simp only [LWord.mk.injEq]
  refine ⟨?_, ?_, ?_, ?_, ?_, ?_, ?_⟩ <;> apply BitVec.eq_of_toNat_eq <;> simp only [BitVec.toNat_ofNat] at * <;> omega

theorem LWord.pack_op (f : LWord) : f.pack / 2 ^ 56 = f.op.toNat := by
  have h1 := f.ty.isLt; have h2 := f.mod.isLt; have h3 := f.dfile.isLt; have h4 := f.dst.isLt
  have h5 := f.base.isLt; have h6 := f.fld.isLt
  unfold LWord.pack; omega

theorem TWord.pack_lt (f : TWord) : f.pack < 2 ^ 64 := by
  have h0 := f.op.isLt; have h1 := f.mod.isLt; have h2 := f.tile.isLt; have h3 := f.dA.isLt; have h4 := f.dB.isLt
  have h5 := f.dC.isLt; have h6 := f.count.isLt
  unfold TWord.pack; omega

theorem TWord.unpack_pack (f : TWord) : TWord.unpack f.pack = f := by
  have h0 := f.op.isLt; have h1 := f.mod.isLt; have h2 := f.tile.isLt; have h3 := f.dA.isLt; have h4 := f.dB.isLt
  have h5 := f.dC.isLt; have h6 := f.count.isLt
  unfold TWord.unpack TWord.pack bitsAt
  cases f
  simp only [TWord.mk.injEq]
  refine ⟨?_, ?_, ?_, ?_, ?_, ?_, ?_⟩ <;> apply BitVec.eq_of_toNat_eq <;> simp only [BitVec.toNat_ofNat] at * <;> omega

theorem TWord.pack_op (f : TWord) : f.pack / 2 ^ 56 = f.op.toNat := by
  have h1 := f.mod.isLt; have h2 := f.tile.isLt; have h3 := f.dA.isLt; have h4 := f.dB.isLt
  have h5 := f.dC.isLt; have h6 := f.count.isLt
  unfold TWord.pack; omega

theorem XWord.pack_lt (f : XWord) : f.pack < 2 ^ 64 := by
  have h0 := f.op.isLt; have h1 := f.mod.isLt; have h2 := f.kd.isLt; have h3 := f.k1.isLt; have h4 := f.k2.isLt
  have h5 := f.imm.isLt
  unfold XWord.pack; omega

theorem XWord.unpack_pack (f : XWord) : XWord.unpack f.pack = f := by
  have h0 := f.op.isLt; have h1 := f.mod.isLt; have h2 := f.kd.isLt; have h3 := f.k1.isLt; have h4 := f.k2.isLt
  have h5 := f.imm.isLt
  unfold XWord.unpack XWord.pack bitsAt
  cases f
  simp only [XWord.mk.injEq]
  refine ⟨?_, ?_, ?_, ?_, ?_, ?_⟩ <;> apply BitVec.eq_of_toNat_eq <;> simp only [BitVec.toNat_ofNat] at * <;> omega

theorem XWord.pack_op (f : XWord) : f.pack / 2 ^ 56 = f.op.toNat := by
  have h1 := f.mod.isLt; have h2 := f.kd.isLt; have h3 := f.k1.isLt; have h4 := f.k2.isLt; have h5 := f.imm.isLt
  unfold XWord.pack; omega

/-! ### The codes of small fields -/

@[simp] theorem ElemTy.ofCode_code (t : ElemTy) : ElemTy.ofCode t.code = some t := by cases t <;> rfl
@[simp] theorem SFmt.ofCode_code (t : SFmt) : SFmt.ofCode t.code = some t := by cases t <;> rfl
@[simp] theorem VRnd.ofCode_code (t : VRnd) : VRnd.ofCode t.code = t := by cases t <;> rfl
@[simp] theorem VIMode.ofCode_code (t : VIMode) : VIMode.ofCode t.code = some t := by cases t <;> rfl
@[simp] theorem ICond.ofCode_code (t : ICond) : ICond.ofCode t.code = some t := by cases t <;> rfl
@[simp] theorem FCond.ofCode_code (t : FCond) : FCond.ofCode t.code = some t := by cases t <;> rfl
@[simp] theorem XferFile.ofCode_code (t : XferFile) : XferFile.ofCode t.code = some t := by cases t <;> rfl
@[simp] theorem VXferFile.ofCode_code (t : VXferFile) : VXferFile.ofCode t.code = some t := by cases t <;> rfl
@[simp] theorem VRedOp.ofCode_code (t : VRedOp) : VRedOp.ofCode t.code = t := by cases t <;> rfl
@[simp] theorem VFindCond.ofCode_code (t : VFindCond) : VFindCond.ofCode t.code = t := by cases t <;> rfl
@[simp] theorem CwView.ofCode_code (t : CwView) : CwView.ofCode t.code = some t := by cases t <;> rfl
@[simp] theorem RFile.ofCode_code (t : RFile) : RFile.ofCode t.code = t := by cases t <;> rfl
@[simp] theorem AtomOp.ofCode_code (t : AtomOp) : AtomOp.ofCode t.code = some t := by cases t <;> rfl
@[simp] theorem TRedOp.ofCode_code (t : TRedOp) : TRedOp.ofCode t.code = some t := by cases t <;> rfl
@[simp] theorem TCarryOp.ofCode_code (t : TCarryOp) : TCarryOp.ofCode t.code = t := by cases t <;> rfl
@[simp] theorem Scope.ofCode_code (t : Scope) : Scope.ofCode t.code = some t := by cases t <;> rfl
@[simp] theorem CsrOp.ofCode_code (t : CsrOp) : CsrOp.ofCode t.code = some t := by cases t <;> rfl
@[simp] theorem KvBind.ofCode_code (t : KvBind) : KvBind.ofCode t.code = some t := by cases t <;> rfl

theorem SOpnd.ofSpec_spec (o : SOpnd) (imm : BitVec 26) (h : ∀ v, o = .lit v → v = imm) : SOpnd.ofSpec o.spec imm = some o := by
  cases o with
  | reg i =>
    have h0 := i.isLt
    have h1 : i.toNat % 256 = i.toNat := by omega
    have h2 : i.toNat < 64 := h0
    simp [SOpnd.spec, SOpnd.ofSpec, h1, h2]
  | head q =>
    have h0 := q.isLt
    have h1 : (64 + q.toNat) % 256 = 64 + q.toNat := by omega
    have h2 : 64 + q.toNat < 72 := by omega
    simp [SOpnd.spec, SOpnd.ofSpec, h1, h2]
  | lit v => simp [SOpnd.spec, SOpnd.ofSpec, h v rfl]
  | immS => rfl
  | immZ => rfl
  | immHi => rfl

@[simp] theorem VOpnd.ofSpec_spec (o : VOpnd) : VOpnd.ofSpec o.spec = some o := by
  cases o with
  | reg i =>
    have h0 := i.isLt
    have h1 : i.toNat % 4096 = i.toNat := by omega
    have h2 : i.toNat < 1024 := h0
    simp [VOpnd.spec, VOpnd.ofSpec, h1, h2]
  | head q =>
    have h0 := q.isLt
    have h1 : (1024 + q.toNat) % 4096 = 1024 + q.toNat := by omega
    have h2 : 1024 + q.toNat < 1032 := by omega
    simp [VOpnd.spec, VOpnd.ofSpec, h1, h2]
  | bc => rfl
  | imm => rfl

/-! ### The mod byte of an S word -/

theorem smod_toNat (h1 h2 w u : Bool) (sub : BitVec 4) :
    (smod h1 h2 w u sub).toNat = b2n h1 * 128 + b2n h2 * 64 + b2n w * 32 + b2n u * 16 + sub.toNat := by
  have h := sub.isLt
  unfold smod
  rw [BitVec.toNat_ofNat]
  cases h1 <;> cases h2 <;> cases w <;> cases u <;> simp only [b2n] <;> simp <;> omega

theorem b2n_beq (b : Bool) : (b2n b == 1) = b := by cases b <;> rfl

theorem smod_h1 (h1 h2 w u : Bool) (sub : BitVec 4) : bitAt (smod h1 h2 w u sub).toNat 7 = h1 := by
  have h := sub.isLt
  rw [smod_toNat, bitAt, ← b2n_beq h1]
  congr 1
  cases h1 <;> cases h2 <;> cases w <;> cases u <;> simp only [b2n] <;> simp <;> omega
theorem smod_h2 (h1 h2 w u : Bool) (sub : BitVec 4) : bitAt (smod h1 h2 w u sub).toNat 6 = h2 := by
  have h := sub.isLt
  rw [smod_toNat, bitAt, ← b2n_beq h2]
  congr 1
  cases h1 <;> cases h2 <;> cases w <;> cases u <;> simp only [b2n] <;> simp <;> omega
theorem smod_w (h1 h2 w u : Bool) (sub : BitVec 4) : bitAt (smod h1 h2 w u sub).toNat 5 = w := by
  have h := sub.isLt
  rw [smod_toNat, bitAt, ← b2n_beq w]
  congr 1
  cases h1 <;> cases h2 <;> cases w <;> cases u <;> simp only [b2n] <;> simp <;> omega
theorem smod_u (h1 h2 w u : Bool) (sub : BitVec 4) : bitAt (smod h1 h2 w u sub).toNat 4 = u := by
  have h := sub.isLt
  rw [smod_toNat, bitAt, ← b2n_beq u]
  congr 1
  cases h1 <;> cases h2 <;> cases w <;> cases u <;> simp only [b2n] <;> simp <;> omega
theorem smod_sub (h1 h2 w u : Bool) (sub : BitVec 4) : BitVec.ofNat 4 (bitsAt (smod h1 h2 w u sub).toNat 0 4) = sub := by
  have h := sub.isLt
  rw [smod_toNat, bitsAt]
  apply BitVec.eq_of_toNat_eq
  rw [BitVec.toNat_ofNat]
  cases h1 <;> cases h2 <;> cases w <;> cases u <;> simp only [b2n] <;> omega

/-! ### Decoding what was encoded -/

/-- A word within the opcode map whose fields name a well-formed instruction that it encodes decodes to it. -/
theorem decode_of_read {i : Instr} {s : SlotId} {w : Word} (h : encode i = some (s, w)) (ho : w.toNat / 2 ^ 56 ≤ s.opcodes)
    (hr : readFields s w.toNat = some i) (hw : i.wf = true) : decodeSlot s w = .ok i := by
  unfold decodeSlot
  rw [if_neg (by omega), hr]
  simp only [h, ne_eq, not_true, if_false, hw, if_true]

end Sys2Proof.Laws
end

