-- ==== Sys2Proof/Laws/PerInstr.lean ====
section
/-! SUPPORT. The family Encoding: every instruction decodes from its own word. One lemma for each constructor of `Instr`. -/

set_option Elab.async false

namespace Sys2Proof.Laws

open Sys2Proof

/-- Every well-formed instruction decodes from the word that encodes it, in the slot that it belongs to. -/
def Encoding.Statement (i : Instr) : Prop := ∀ s w, encode i = some (s, w) → i.wf = true → decodeSlot s w = .ok i

/-! ### From a word's fields to its decoding -/

theorem enc_s {i : Instr} {slot : SSlot} {f : SWord} (hs : i.sWord = some (slot, f)) (ho : f.op.toNat ≤ 0x28)
    (hr : i.wf = true → f.read slot = some i) : Encoding.Statement i := by
  intro s w h hw
  have e : encode i = some (slot.id, BitVec.ofNat 64 f.pack) := by unfold encode; rw [hs]
  have e' := e.symm.trans h
  simp only [Option.some.injEq, Prod.mk.injEq] at e'
  obtain ⟨rfl, rfl⟩ := e'
  have hn : (BitVec.ofNat 64 f.pack).toNat = f.pack := by
    rw [BitVec.toNat_ofNat]; exact Nat.mod_eq_of_lt (SWord.pack_lt f)
  refine decode_of_read h ?_ ?_ hw
  · rw [hn, SWord.pack_op]; cases slot <;> exact ho
  · rw [hn]; cases slot <;> (simp only [SSlot.id, readFields, SWord.unpack_pack]; exact hr hw)

theorem SBin.bin_word (f : SBin) (op : BitVec 8) (sub : BitVec 4) (h : f.ok = true) : (f.word op sub).bin f.slot = some f := by
  obtain ⟨slot, h1, h2, w, u, dst, a, b⟩ := f
  have ha : SOpnd.ofSpec a.spec (litOf a b) = some a := by
    apply SOpnd.ofSpec_spec; rintro v rfl; rfl
  have hb : SOpnd.ofSpec b.spec (litOf a b) = some b := by
    apply SOpnd.ofSpec_spec
    rintro v rfl
    cases a <;> simp_all [litOf, SBin.ok, SOpnd.sameLit]
  simp [SBin.word, SWord.bin, SWord.h1, SWord.h2, SWord.w, SWord.u, smod_h1, smod_h2, smod_w, smod_u, ha, hb]

theorem SBin.bin_wordImm (f : SBin) (op : BitVec 8) (sub : BitVec 4) (imm : BitVec 26) (ha : f.a.isLit = false) (hb : f.b.isLit = false) :
    (f.wordImm op sub imm).bin f.slot = some f := by
  obtain ⟨slot, h1, h2, w, u, dst, a, b⟩ := f
  have ha : SOpnd.ofSpec a.spec imm = some a := by
    apply SOpnd.ofSpec_spec; rintro v rfl; simp [SOpnd.isLit] at ha
  have hb : SOpnd.ofSpec b.spec imm = some b := by
    apply SOpnd.ofSpec_spec; rintro v rfl; simp [SOpnd.isLit] at hb
  simp [SBin.wordImm, SWord.bin, SWord.h1, SWord.h2, SWord.w, SWord.u, smod_h1, smod_h2, smod_w, smod_u, ha, hb]

theorem SUn.un_word (f : SUn) (op : BitVec 8) (sub : BitVec 4) : (f.word op sub).un f.slot = some f := by
  obtain ⟨slot, h1, w, u, dst, a⟩ := f
  have ha : SOpnd.ofSpec a.spec (litOf a (.reg 0)) = some a := by
    apply SOpnd.ofSpec_spec; rintro v rfl; rfl
  simp [SUn.word, SWord.un, SWord.h1, SWord.w, SWord.u, smod_h1, smod_w, smod_u]
  exact congrArg (fun (o : Option SOpnd) => o.bind fun a => some (SUn.mk slot h1 w u dst a)) ha

theorem SUn.un_wordImm (f : SUn) (op : BitVec 8) (sub : BitVec 4) (imm : BitVec 26) (ha : f.a.isLit = false) :
    (f.wordImm op sub imm).un f.slot = some f := by
  obtain ⟨slot, h1, w, u, dst, a⟩ := f
  have ha : SOpnd.ofSpec a.spec imm = some a := by
    apply SOpnd.ofSpec_spec; rintro v rfl; simp [SOpnd.isLit] at ha
  simp [SUn.wordImm, SWord.un, SWord.h1, SWord.w, SWord.u, smod_h1, smod_w, smod_u, ha]


@[simp] theorem SBin.word_op (f : SBin) (op : BitVec 8) (sub : BitVec 4) : (f.word op sub).op = op := rfl
@[simp] theorem SBin.word_sub (f : SBin) (op : BitVec 8) (sub : BitVec 4) : (f.word op sub).sub = sub := smod_sub _ _ _ _ _
@[simp] theorem SBin.wordImm_op (f : SBin) (op : BitVec 8) (sub : BitVec 4) (imm : BitVec 26) : (f.wordImm op sub imm).op = op := rfl
@[simp] theorem SBin.wordImm_sub (f : SBin) (op : BitVec 8) (sub : BitVec 4) (imm : BitVec 26) : (f.wordImm op sub imm).sub = sub :=
  smod_sub _ _ _ _ _
@[simp] theorem SBin.wordImm_imm (f : SBin) (op : BitVec 8) (sub : BitVec 4) (imm : BitVec 26) : (f.wordImm op sub imm).imm = imm := rfl
@[simp] theorem SUn.word_op (f : SUn) (op : BitVec 8) (sub : BitVec 4) : (f.word op sub).op = op := rfl
@[simp] theorem SUn.word_sub (f : SUn) (op : BitVec 8) (sub : BitVec 4) : (f.word op sub).sub = sub := smod_sub _ _ _ _ _
@[simp] theorem SUn.wordImm_op (f : SUn) (op : BitVec 8) (sub : BitVec 4) (imm : BitVec 26) : (f.wordImm op sub imm).op = op := rfl
@[simp] theorem SUn.wordImm_sub (f : SUn) (op : BitVec 8) (sub : BitVec 4) (imm : BitVec 26) : (f.wordImm op sub imm).sub = sub :=
  smod_sub _ _ _ _ _
@[simp] theorem SUn.wordImm_imm (f : SUn) (op : BitVec 8) (sub : BitVec 4) (imm : BitVec 26) : (f.wordImm op sub imm).imm = imm := rfl


@[simp] theorem ofNat_wide {w v : Nat} (h : w ≤ v) (x : BitVec w) : BitVec.ofNat w (BitVec.ofNat v x.toNat).toNat = x := by
  apply BitVec.eq_of_toNat_eq
  rw [BitVec.toNat_ofNat, BitVec.toNat_ofNat, Nat.mod_eq_of_lt (Nat.lt_of_lt_of_le x.isLt (Nat.pow_le_pow_right (by decide) h))]
  exact Nat.mod_eq_of_lt x.isLt
theorem toNat_wide {w v : Nat} (h : w ≤ v) (x : BitVec w) : (BitVec.ofNat v x.toNat).toNat = x.toNat := by
  rw [BitVec.toNat_ofNat, Nat.mod_eq_of_lt (Nat.lt_of_lt_of_le x.isLt (Nat.pow_le_pow_right (by decide) h))]

theorem enc_v {i : Instr} {slot : VSlot} {f : VWord} (hs : i.vWord = some (slot, f)) (hn : i.sWord = none)
    (ho : f.op.toNat ≤ 0x37) (hr : i.wf = true → f.read slot = some i) : Encoding.Statement i := by
  intro s w h hw
  have e : encode i = some (slot.id, BitVec.ofNat 64 f.pack) := by unfold encode; rw [hn, hs]
  have e' := e.symm.trans h
  simp only [Option.some.injEq, Prod.mk.injEq] at e'
  obtain ⟨rfl, rfl⟩ := e'
  have hn : (BitVec.ofNat 64 f.pack).toNat = f.pack := by
    rw [BitVec.toNat_ofNat]; exact Nat.mod_eq_of_lt (VWord.pack_lt f)
  refine decode_of_read h ?_ ?_ hw
  · rw [hn, VWord.pack_op]; cases slot <;> exact ho
  · rw [hn]; cases slot <;> (simp only [VSlot.id, readFields, VWord.unpack_pack]; exact hr hw)

theorem enc_l {i : Instr} {f : LWord} (hs : i.lWord = some f) (hn : i.sWord = none) (hv : i.vWord = none)
    (ho : f.op.toNat ≤ 0x19) (hr : i.wf = true → f.read = some i) : Encoding.Statement i := by
  intro s w h hw
  have e : encode i = some (.l, BitVec.ofNat 64 f.pack) := by unfold encode; rw [hn, hv, hs]
  have e' := e.symm.trans h
  simp only [Option.some.injEq, Prod.mk.injEq] at e'
  obtain ⟨rfl, rfl⟩ := e'
  have hn : (BitVec.ofNat 64 f.pack).toNat = f.pack := by
    rw [BitVec.toNat_ofNat]; exact Nat.mod_eq_of_lt (LWord.pack_lt f)
  refine decode_of_read h ?_ ?_ hw
  · rw [hn, LWord.pack_op]; exact ho
  · rw [hn]; simp only [readFields, LWord.unpack_pack]; exact hr hw

theorem enc_t {i : Instr} {slot : TSlot} {f : TWord} (hs : i.tWord = some (slot, f)) (hn : i.sWord = none) (hv : i.vWord = none)
    (hl : i.lWord = none) (ho : f.op.toNat ≤ 0x0F) (hr : i.wf = true → f.read slot = some i) : Encoding.Statement i := by
  intro s w h hw
  have e : encode i = some (slot.id, BitVec.ofNat 64 f.pack) := by unfold encode; rw [hn, hv, hl, hs]
  have e' := e.symm.trans h
  simp only [Option.some.injEq, Prod.mk.injEq] at e'
  obtain ⟨rfl, rfl⟩ := e'
  have hn : (BitVec.ofNat 64 f.pack).toNat = f.pack := by
    rw [BitVec.toNat_ofNat]; exact Nat.mod_eq_of_lt (TWord.pack_lt f)
  refine decode_of_read h ?_ ?_ hw
  · rw [hn, TWord.pack_op]; cases slot <;> exact ho
  · rw [hn]; cases slot <;> (simp only [TSlot.id, readFields, TWord.unpack_pack]; exact hr hw)

theorem enc_x {i : Instr} {f : XWord} (hs : i.xWord = some f) (hn : i.sWord = none) (hv : i.vWord = none)
    (hl : i.lWord = none) (ht : i.tWord = none) (ho : f.op.toNat ≤ 0x35) (hr : i.wf = true → f.read = some i) :
    Encoding.Statement i := by
  intro s w h hw
  have e : encode i = some (.x, BitVec.ofNat 64 f.pack) := by unfold encode; rw [hn, hv, hl, ht, hs]
  have e' := e.symm.trans h
  simp only [Option.some.injEq, Prod.mk.injEq] at e'
  obtain ⟨rfl, rfl⟩ := e'
  have hn : (BitVec.ofNat 64 f.pack).toNat = f.pack := by
    rw [BitVec.toNat_ofNat]; exact Nat.mod_eq_of_lt (XWord.pack_lt f)
  refine decode_of_read h ?_ ?_ hw
  · rw [hn, XWord.pack_op]; exact ho
  · rw [hn]; simp only [readFields, XWord.unpack_pack]; exact hr hw

/-- A step of the machine has no word. -/
theorem enc_none {i : Instr} (h : encode i = none) : Encoding.Statement i := fun s w e => by simp [h] at e

theorem VUn.un_word (f : VUn) (op : BitVec 8) (c : BitVec 12) : (f.word op c).un f.slot = some f := by
  obtain ⟨slot, ty, mask, dst, a, rnd⟩ := f
  cases mask <;> simp [VUn.word, vword, VWord.un, VWord.mask, maskEn, maskIdx]
theorem VBin.bin_word (f : VBin) (op : BitVec 8) (c : BitVec 12) : (f.word op c).bin f.slot = some f := by
  obtain ⟨slot, ty, mask, dst, a, b, rnd⟩ := f
  cases mask <;> simp [VBin.word, vword, VWord.bin, VWord.mask, maskEn, maskIdx]
theorem VTer.ter_word (f : VTer) (op : BitVec 8) : (f.word op).ter f.slot = some f := by
  obtain ⟨slot, ty, mask, dst, a, b, c, rnd⟩ := f
  cases mask <;> simp [VTer.word, vword, VWord.ter, VWord.mask, maskEn, maskIdx]
theorem VNul.nul_word (f : VNul) (op : BitVec 8) : (f.word op).nul f.slot = some f := by
  obtain ⟨slot, ty, mask, dst⟩ := f
  cases mask <;> simp [VNul.word, vword, VWord.nul, VWord.mask, maskEn, maskIdx]
theorem VBin.ibin_wordM (f : VBin) (op : BitVec 8) (m : VIMode) (h : f.rnd = .ctx) : (f.wordM op m).ibin f.slot = some f := by
  obtain ⟨slot, ty, mask, dst, a, b, rnd⟩ := f
  subst h
  cases mask <;> simp [VBin.wordM, vword, VWord.ibin, VWord.bin, VWord.mask, maskEn, maskIdx, VRnd.ofCode]
theorem VTer.iter_wordM (f : VTer) (op : BitVec 8) (m : VIMode) (h : f.rnd = .ctx) : (f.wordM op m).iter f.slot = some f := by
  obtain ⟨slot, ty, mask, dst, a, b, c, rnd⟩ := f
  subst h
  cases mask <;> simp [VTer.wordM, vword, VWord.iter, VWord.ter, VWord.mask, maskEn, maskIdx, VRnd.ofCode]
@[simp] theorem VUn.word_op (f : VUn) (op : BitVec 8) (c : BitVec 12) : (f.word op c).op = op := rfl
@[simp] theorem VUn.word_c (f : VUn) (op : BitVec 8) (c : BitVec 12) : (f.word op c).c = c := rfl
@[simp] theorem VBin.word_op (f : VBin) (op : BitVec 8) (c : BitVec 12) : (f.word op c).op = op := rfl
@[simp] theorem VBin.word_c (f : VBin) (op : BitVec 8) (c : BitVec 12) : (f.word op c).c = c := rfl
@[simp] theorem VTer.word_op (f : VTer) (op : BitVec 8) : (f.word op).op = op := rfl
@[simp] theorem VNul.word_op (f : VNul) (op : BitVec 8) : (f.word op).op = op := rfl
@[simp] theorem VBin.wordM_op (f : VBin) (op : BitVec 8) (m : VIMode) : (f.wordM op m).op = op := rfl
@[simp] theorem VBin.wordM_rnd (f : VBin) (op : BitVec 8) (m : VIMode) : (f.wordM op m).rnd = m.code := rfl
@[simp] theorem VTer.wordM_op (f : VTer) (op : BitVec 8) (m : VIMode) : (f.wordM op m).op = op := rfl
@[simp] theorem VTer.wordM_rnd (f : VTer) (op : BitVec 8) (m : VIMode) : (f.wordM op m).rnd = m.code := rfl

theorem c12_toNat {n : Nat} (h : n < 4096) : (c12 n).toNat = n := by
  unfold c12; rw [BitVec.toNat_ofNat]; exact Nat.mod_eq_of_lt h
theorem fcond_lt (c : FCond) : c.code < 8 := by cases c <;> decide
theorem vxfer_lt (c : VXferFile) : c.code < 8 := by cases c <;> decide
theorem cwview_lt (c : CwView) : c.code < 4 := by cases c <;> decide
theorem b2n_lt (b : Bool) : b2n b < 2 := by cases b <;> decide

theorem rfile_lt (f : RFile) : f.code < 8 := by cases f <;> decide
theorem RegRef.code_lt (r : RegRef) : r.code < 2 ^ 13 := by
  have h := rfile_lt r.file; have h2 := r.idx.isLt; unfold RegRef.code; omega
theorem RegRef.ofCode_code (r : RegRef) : RegRef.ofCode r.code = r := by
  have h := rfile_lt r.file; have h2 := r.idx.isLt
  obtain ⟨file, idx⟩ := r
  simp only at h h2
  have e1 : (file.code * 1024 + idx.toNat) / 1024 % 8 = file.code := by omega
  have e2 : BitVec.ofNat 10 ((file.code * 1024 + idx.toNat) % 1024) = idx := by
    apply BitVec.eq_of_toNat_eq; rw [BitVec.toNat_ofNat]; omega
  have e3 : bitsAt (file.code * 1024 + idx.toNat) 10 3 = file.code := e1
  have e4 : BitVec.ofNat 10 (bitsAt (file.code * 1024 + idx.toNat) 0 10) = idx := by
    unfold bitsAt; rw [Nat.pow_zero, Nat.div_one]; exact e2
  simp only [RegRef.ofCode, RegRef.code, e3, e4, RFile.ofCode_code]

/-- A signed field gives back a number that fits it, whatever lies above the field. -/
theorem sext_wrap {n : Nat} {o : Int} (hn : 0 < n) (h : fitsS n o = true) (k : Nat) : sextNat n (k * 2 ^ n + wrapInt n o) = o := by
  unfold fitsS at h
  simp only [Bool.and_eq_true, decide_eq_true_eq] at h
  obtain ⟨m, rfl⟩ : ∃ m, n = m + 1 := ⟨n - 1, by omega⟩
  simp only [Nat.add_sub_cancel] at h
  unfold sextNat wrapInt
  have hp : 2 ^ (m + 1) = 2 * 2 ^ m := by ring
  simp only [Nat.add_sub_cancel]
  rw [hp]
  generalize hq : 2 ^ m = q at *
  have hq0 : 0 < q := by rw [← hq]; positivity
  have e : (k * (2 * q) + (o % ((2 * q : Nat) : Int)).toNat) % (2 * q) = (o % ((2 * q : Nat) : Int)).toNat := by
    rw [Nat.add_comm, Nat.add_mul_mod_self_right]
    apply Nat.mod_eq_of_lt
    have := Int.emod_lt_of_pos o (b := ((2 * q : Nat) : Int)) (by omega)
    have := Int.emod_nonneg o (b := ((2 * q : Nat) : Int)) (by omega)
    omega
  rw [e]
  rcases lt_or_ge o 0 with ho | ho
  · have e2 : o % ((2 * q : Nat) : Int) = o + (2 * q : Nat) := by
      rw [← Int.add_emod_right]; apply Int.emod_eq_of_lt <;> omega
    rw [e2]; split <;> omega
  · have e2 : o % ((2 * q : Nat) : Int) = o := by apply Int.emod_eq_of_lt <;> omega
    rw [e2]; split <;> omega
theorem sext_wrap0 {n : Nat} {o : Int} (hn : 0 < n) (h : fitsS n o = true) : sextNat n (wrapInt n o) = o := by
  simpa using sext_wrap hn h 0
theorem wrapInt_lt {n : Nat} (o : Int) : wrapInt n o < 2 ^ n := by
  unfold wrapInt
  have hp : 0 < 2 ^ n := by positivity
  have := Int.emod_lt_of_pos o (b := ((2 ^ n : Nat) : Int)) (by exact_mod_cast hp)
  have := Int.emod_nonneg o (b := ((2 ^ n : Nat) : Int)) (by positivity)
  omega

theorem ofNat8_toNat {n : Nat} (h : n < 256) : (BitVec.ofNat 8 n).toNat = n := by
  rw [BitVec.toNat_ofNat]; exact Nat.mod_eq_of_lt h
theorem fld_toNat {n : Nat} (h : n < 2 ^ 30) : (BitVec.ofNat 30 n).toNat = n := by
  rw [BitVec.toNat_ofNat]; exact Nat.mod_eq_of_lt h
theorem cnt_toNat {n : Nat} (h : n < 2 ^ 33) : (BitVec.ofNat 33 n).toNat = n := by
  rw [BitVec.toNat_ofNat]; exact Nat.mod_eq_of_lt h
theorem ofNat_eq {w n : Nat} {x : BitVec w} (h : n = x.toNat) : BitVec.ofNat w n = x := by
  subst h; simp
theorem bitAt_b2n {n i : Nat} {b : Bool} (h : n / 2 ^ i % 2 = b2n b) : bitAt n i = b := by
  unfold bitAt; rw [h]; exact b2n_beq b
theorem scope_lt (s : Scope) : s.code < 5 := by cases s <;> decide
theorem kvbind_lt (s : KvBind) : s.code < 3 := by cases s <;> decide
theorem csrop_lt (s : CsrOp) : s.code < 3 := by cases s <;> decide
theorem tredop_lt (s : TRedOp) : s.code < 3 := by cases s <;> decide
theorem tcarryop_lt (s : TCarryOp) : s.code < 4 := by cases s <;> decide
theorem ofCode_of {s : Scope} {n : Nat} (h : n = s.code) : Scope.ofCode n = some s := by subst h; simp
theorem engMod_lt (b : EngBits) {e : Nat} (h : e < 4) : engMod b e < 256 := by
  have := scope_lt b.scope; have := b2n_lt b.acq; have := b2n_lt b.rel; unfold engMod; omega
theorem scopeMod_lt (b : Bool) (s : Scope) : scopeMod b s < 16 := by
  have := scope_lt s; have := b2n_lt b; unfold scopeMod; omega

theorem engine_bits (b : EngBits) {e : Nat} (h : e < 4) :
    bitAt (BitVec.ofNat 8 (engMod b e)).toNat 0 = b.acq ∧ bitAt (BitVec.ofNat 8 (engMod b e)).toNat 4 = b.rel ∧
    Scope.ofCode (bitsAt (BitVec.ofNat 8 (engMod b e)).toNat 1 3) = some b.scope ∧
    bitsAt (BitVec.ofNat 8 (engMod b e)).toNat 5 2 = e := by
  rw [ofNat8_toNat (engMod_lt b h)]
  have h1 := scope_lt b.scope; have h2 := b2n_lt b.acq; have h3 := b2n_lt b.rel
  refine ⟨bitAt_b2n ?_, bitAt_b2n ?_, ofCode_of ?_, ?_⟩ <;> unfold engMod <;> (try unfold bitsAt) <;> omega

theorem scope_bits (b : Bool) (s : Scope) {e : Nat} (h : e < 2) :
    bitAt (BitVec.ofNat 8 (e * 16 + scopeMod b s)).toNat 0 = b ∧
    Scope.ofCode (bitsAt (BitVec.ofNat 8 (e * 16 + scopeMod b s)).toNat 1 3) = some s ∧
    bitAt (BitVec.ofNat 8 (e * 16 + scopeMod b s)).toNat 4 = (e == 1) := by
  have h0 := scopeMod_lt b s
  rw [ofNat8_toNat (by omega)]
  have h1 := scope_lt s; have h2 := b2n_lt b
  refine ⟨bitAt_b2n ?_, ofCode_of ?_, ?_⟩
  · unfold scopeMod; omega
  · unfold scopeMod bitsAt; omega
  · unfold scopeMod bitAt; congr 1; omega
theorem scope_bits0 (b : Bool) (s : Scope) :
    bitAt (BitVec.ofNat 8 (scopeMod b s)).toNat 0 = b ∧
    Scope.ofCode (bitsAt (BitVec.ofNat 8 (scopeMod b s)).toNat 1 3) = some s ∧
    bitAt (BitVec.ofNat 8 (scopeMod b s)).toNat 4 = false := by
  simpa using scope_bits b s (e := 0) (by decide)

@[simp] theorem xword_op (op : BitVec 8) (mod : Nat) (kd k1 k2 : BitVec 5) (imm : Nat) : (xword op mod kd k1 k2 imm).op = op := rfl
@[simp] theorem xword_mod (op : BitVec 8) (mod : Nat) (kd k1 k2 : BitVec 5) (imm : Nat) :
    (xword op mod kd k1 k2 imm).mod = BitVec.ofNat 8 mod := rfl
@[simp] theorem xword_kd (op : BitVec 8) (mod : Nat) (kd k1 k2 : BitVec 5) (imm : Nat) :
    BitVec.ofNat 5 (xword op mod kd k1 k2 imm).kd.toNat = kd := ofNat_wide (by decide) kd
@[simp] theorem xword_k1 (op : BitVec 8) (mod : Nat) (kd k1 k2 : BitVec 5) (imm : Nat) :
    BitVec.ofNat 5 (xword op mod kd k1 k2 imm).k1.toNat = k1 := ofNat_wide (by decide) k1
@[simp] theorem xword_k2 (op : BitVec 8) (mod : Nat) (kd k1 k2 : BitVec 5) (imm : Nat) :
    BitVec.ofNat 5 (xword op mod kd k1 k2 imm).k2.toNat = k2 := ofNat_wide (by decide) k2
@[simp] theorem xword_imm (op : BitVec 8) (mod : Nat) (kd k1 k2 : BitVec 5) (imm : BitVec 30) :
    (xword op mod kd k1 k2 imm.toNat).imm = imm := by simp [xword]
theorem xword_immN (op : BitVec 8) (mod : Nat) (kd k1 k2 : BitVec 5) (imm : Nat) :
    (xword op mod kd k1 k2 imm).imm = BitVec.ofNat 30 imm := rfl

theorem engArgs_read (op : BitVec 8) {e : Nat} (he : e < 4) (f : EngArgs) :
    (do pure (⟨← (do pure (⟨bitAt (engWord op e f).mod.toNat 0, bitAt (engWord op e f).mod.toNat 4,
        ← Scope.ofCode (bitsAt (engWord op e f).mod.toNat 1 3)⟩ : EngBits)),
      BitVec.ofNat 5 (engWord op e f).k1.toNat, BitVec.ofNat 5 (engWord op e f).k2.toNat, (engWord op e f).imm⟩ : EngArgs)) = some f := by
  obtain ⟨h0, h1, h2, -⟩ := engine_bits f.bits he
  simp only [engWord, xword_mod, h0, h1, h2, xword_k1, xword_k2, xword_imm]
  rfl

theorem LAddr.mode_lt (a : LAddr) : a.mode = 0 ∨ a.mode = 8 := by cases a <;> simp [LAddr.mode]
theorem LAddr.fld_lt {n : Nat} (hn : 8 ≤ n) (a : LAddr) : a.fld n < 2 ^ n := by
  cases a with
  | off o => exact wrapInt_lt o
  | idx pi sh =>
    have h1 := pi.isLt
    have h2 := sh.isLt
    have h3 : 2 ^ 8 ≤ 2 ^ n := Nat.pow_le_pow_right (by decide) hn
    simp only [LAddr.fld]; omega
theorem LAddr.read_fld {n : Nat} (hn : 8 ≤ n) (a : LAddr) (h : a.ok n = true) :
    LAddr.read n (BitVec.ofNat 4 a.mode) (a.fld n) = a := by
  cases a with
  | off o =>
    have e : sextNat n (wrapInt n o) = o := sext_wrap0 (by omega) h
    simp [LAddr.read, LAddr.mode, LAddr.fld, bitAt, e]
  | idx pi sh =>
    have h1 := pi.isLt
    have h2 := sh.isLt
    have e1 : BitVec.ofNat 5 (bitsAt (sh.toNat * 32 + pi.toNat) 0 5) = pi := ofNat_eq (by unfold bitsAt; omega)
    have e2 : BitVec.ofNat 3 (bitsAt (sh.toNat * 32 + pi.toNat) 5 3) = sh := ofNat_eq (by unfold bitsAt; omega)
    simp only [LAddr.read, LAddr.mode, LAddr.fld, e1, e2]
    rfl
theorem lwordD_dreg (op : BitVec 8) (ty : ElemTy) (mod : Nat) (d : RegRef) (base : BitVec 5) (fld : Nat) :
    (lwordD op ty mod d base fld).dreg = d := by
  have h := rfile_lt d.file
  obtain ⟨file, idx⟩ := d
  have e : (BitVec.ofNat 3 file.code).toNat = file.code := by
    rw [BitVec.toNat_ofNat]; exact Nat.mod_eq_of_lt h
  simp only [LWord.dreg, lwordD, e, RFile.ofCode_code]
theorem src_back {s : RegRef} {r : Nat} (h : r < 2 ^ 17) : RegRef.ofCode (bitsAt (s.code * 2 ^ 17 + r) 17 13) = s := by
  have hs := RegRef.code_lt s
  have e : bitsAt (s.code * 2 ^ 17 + r) 17 13 = s.code := by unfold bitsAt; omega
  rw [e, RegRef.ofCode_code]
theorem dst_op (op : BitVec 8) (ty : ElemTy) (mod : Nat) (d : RegRef) (base : BitVec 5) (fld : Nat) :
    (lwordD op ty mod d base fld).op = op := rfl
theorem dst_ty (op : BitVec 8) (ty : ElemTy) (mod : Nat) (d : RegRef) (base : BitVec 5) (fld : Nat) :
    (lwordD op ty mod d base fld).ty = ty.code := rfl
theorem dst_mod (op : BitVec 8) (ty : ElemTy) (mod : Nat) (d : RegRef) (base : BitVec 5) (fld : Nat) :
    (lwordD op ty mod d base fld).mod = BitVec.ofNat 4 mod := rfl
theorem dst_base (op : BitVec 8) (ty : ElemTy) (mod : Nat) (d : RegRef) (base : BitVec 5) (fld : Nat) :
    (lwordD op ty mod d base fld).base = base := rfl
theorem dst_fld (op : BitVec 8) (ty : ElemTy) (mod : Nat) (d : RegRef) (base : BitVec 5) {fld : Nat} (h : fld < 2 ^ 30) :
    (lwordD op ty mod d base fld).fld.toNat = fld := fld_toNat h
theorem src_op (op : BitVec 8) (ty : ElemTy) (mod : Nat) (base : BitVec 5) (fld : Nat) : (lwordN op ty mod base fld).op = op := rfl
theorem src_ty (op : BitVec 8) (ty : ElemTy) (mod : Nat) (base : BitVec 5) (fld : Nat) :
    (lwordN op ty mod base fld).ty = ty.code := rfl
theorem src_mod (op : BitVec 8) (ty : ElemTy) (mod : Nat) (base : BitVec 5) (fld : Nat) :
    (lwordN op ty mod base fld).mod = BitVec.ofNat 4 mod := rfl
theorem src_base (op : BitVec 8) (ty : ElemTy) (mod : Nat) (base : BitVec 5) (fld : Nat) :
    (lwordN op ty mod base fld).base = base := rfl
theorem src_fld (op : BitVec 8) (ty : ElemTy) (mod : Nat) (base : BitVec 5) {fld : Nat} (h : fld < 2 ^ 30) :
    (lwordN op ty mod base fld).fld.toNat = fld := fld_toNat h
theorem ofNat4_toNat {n : Nat} (h : n < 16) : (BitVec.ofNat 4 n).toNat = n := by
  rw [BitVec.toNat_ofNat]; exact Nat.mod_eq_of_lt h
theorem flag_back (m : Option (BitVec 5)) : flagRead m.isSome (optFlag m) = m := by
  cases m with
  | none => rfl
  | some p => simp [flagRead, optFlag]
theorem optFlag_lt (m : Option (BitVec 5)) : optFlag m < 32 := by
  cases m with
  | none => decide
  | some p => exact p.isLt
theorem atomOp_lt (op : AtomOp) : op.code.toNat < 16 := op.code.isLt

theorem tile_back (e : TSlot) (t : BitVec 2) : BitVec.ofNat 2 (e.tile t).toNat = t := by
  have := t.isLt
  apply BitVec.eq_of_toNat_eq
  simp only [TSlot.tile, BitVec.toNat_ofNat]
  omega
theorem desc_back (e : TSlot) (t : BitVec 3) : BitVec.ofNat 3 (e.desc t).toNat = t := by
  have := t.isLt
  apply BitVec.eq_of_toNat_eq
  simp only [TSlot.desc, BitVec.toNat_ofNat]
  omega
theorem pair_back (e : TSlot) (t : BitVec 1) : BitVec.ofNat 1 ((e.pairTile t).toNat / 2) = t := by
  have := t.isLt
  apply BitVec.eq_of_toNat_eq
  simp only [TSlot.pairTile, BitVec.toNat_ofNat]
  cases e <;> simp only [TSlot.num] <;> omega
theorem set_back (op : BitVec 8) (mod : Nat) (tile : BitVec 3) (dA dB : BitVec 4) (s : BitVec 1) (count : Nat) :
    BitVec.ofNat 1 (tword op mod tile dA dB s.toNat count).dC.toNat = s := ofNat_wide (by decide) s
theorem tw_op (op : BitVec 8) (mod : Nat) (tile : BitVec 3) (dA dB : BitVec 4) (dC count : Nat) :
    (tword op mod tile dA dB dC count).op = op := rfl
theorem tw_mod (op : BitVec 8) {mod : Nat} (tile : BitVec 3) (dA dB : BitVec 4) (dC count : Nat) (h : mod < 256) :
    (tword op mod tile dA dB dC count).mod.toNat = mod := ofNat8_toNat h
theorem tw_tile (op : BitVec 8) (mod : Nat) (tile : BitVec 3) (dA dB : BitVec 4) (dC count : Nat) :
    (tword op mod tile dA dB dC count).tile = tile := rfl
theorem tw_dA (op : BitVec 8) (mod : Nat) (tile : BitVec 3) (dA dB : BitVec 4) (dC count : Nat) :
    (tword op mod tile dA dB dC count).dA = dA := rfl
theorem tw_dB (op : BitVec 8) (mod : Nat) (tile : BitVec 3) (dA dB : BitVec 4) (dC count : Nat) :
    (tword op mod tile dA dB dC count).dB = dB := rfl
theorem tw_count (op : BitVec 8) (mod : Nat) (tile : BitVec 3) (dA dB : BitVec 4) (dC : Nat) {count : Nat} (h : count < 2 ^ 33) :
    (tword op mod tile dA dB dC count).count.toNat = count := cnt_toNat h
theorem tw_countB (op : BitVec 8) (mod : Nat) (tile : BitVec 3) (dA dB : BitVec 4) (dC : Nat) (count : BitVec 33) :
    (tword op mod tile dA dB dC count.toNat).count = count := by simp [tword]

/-! ### Slot instructions -/

theorem Encoding.nop (slot : SlotId) : Encoding.Statement (.nop slot) := by
  cases slot
  · exact enc_s rfl (by decide) (fun _ => rfl)
  · exact enc_s rfl (by decide) (fun _ => rfl)
  · exact enc_v rfl rfl (by decide) (fun _ => rfl)
  · exact enc_v rfl rfl (by decide) (fun _ => rfl)
  · exact enc_l rfl rfl rfl (by decide) (fun _ => rfl)
  · exact enc_t rfl rfl rfl rfl (by decide) (fun _ => rfl)
  · exact enc_t rfl rfl rfl rfl (by decide) (fun _ => rfl)
  · exact enc_x rfl rfl rfl rfl rfl (by decide) (fun _ => rfl)

theorem Encoding.add (f : SBin) : Encoding.Statement (.add f) :=
  enc_s rfl (by simp) (fun h => by simp [SWord.read, SBin.bin_word f _ _ h])

theorem Encoding.sub (f : SBin) : Encoding.Statement (.sub f) :=
  enc_s rfl (by simp) (fun h => by simp [SWord.read, SBin.bin_word f _ _ h])

theorem Encoding.mul (f : SBin) : Encoding.Statement (.mul f) :=
  enc_s rfl (by simp) (fun h => by simp [SWord.read, SBin.bin_word f _ _ h])

theorem Encoding.mulh (f : SBin) : Encoding.Statement (.mulh f) :=
  enc_s rfl (by simp) (fun h => by simp [SWord.read, SBin.bin_word f _ _ h])

theorem Encoding.div (f : SBin) : Encoding.Statement (.div f) :=
  enc_s rfl (by simp) (fun h => by simp [SWord.read, SBin.bin_word f _ _ h])

theorem Encoding.rem (f : SBin) : Encoding.Statement (.rem f) :=
  enc_s rfl (by simp) (fun h => by simp [SWord.read, SBin.bin_word f _ _ h])

theorem Encoding.and (f : SBin) : Encoding.Statement (.and f) :=
  enc_s rfl (by simp) (fun h => by simp [SWord.read, SBin.bin_word f _ _ h])

theorem Encoding.or (f : SBin) : Encoding.Statement (.or f) :=
  enc_s rfl (by simp) (fun h => by simp [SWord.read, SBin.bin_word f _ _ h])

theorem Encoding.xor (f : SBin) : Encoding.Statement (.xor f) :=
  enc_s rfl (by simp) (fun h => by simp [SWord.read, SBin.bin_word f _ _ h])

theorem Encoding.andn (f : SBin) : Encoding.Statement (.andn f) :=
  enc_s rfl (by simp) (fun h => by simp [SWord.read, SBin.bin_word f _ _ h])

theorem Encoding.shl (f : SBin) : Encoding.Statement (.shl f) :=
  enc_s rfl (by simp) (fun h => by simp [SWord.read, SBin.bin_word f _ _ h])

theorem Encoding.shr (f : SBin) : Encoding.Statement (.shr f) :=
  enc_s rfl (by simp) (fun h => by simp [SWord.read, SBin.bin_word f _ _ h])

theorem Encoding.sar (f : SBin) : Encoding.Statement (.sar f) :=
  enc_s rfl (by simp) (fun h => by simp [SWord.read, SBin.bin_word f _ _ h])

theorem Encoding.rot (f : SBin) : Encoding.Statement (.rot f) :=
  enc_s rfl (by simp) (fun h => by simp [SWord.read, SBin.bin_word f _ _ h])

theorem Encoding.min (f : SBin) : Encoding.Statement (.min f) :=
  enc_s rfl (by simp) (fun h => by simp [SWord.read, SBin.bin_word f _ _ h])

theorem Encoding.max (f : SBin) : Encoding.Statement (.max f) :=
  enc_s rfl (by simp) (fun h => by simp [SWord.read, SBin.bin_word f _ _ h])

theorem Encoding.clz (f : SUn) : Encoding.Statement (.clz f) :=
  enc_s rfl (by simp) (fun _ => by simp [SWord.read, SUn.un_word])

theorem Encoding.ctz (f : SUn) : Encoding.Statement (.ctz f) :=
  enc_s rfl (by simp) (fun _ => by simp [SWord.read, SUn.un_word])

theorem Encoding.popc (f : SUn) : Encoding.Statement (.popc f) :=
  enc_s rfl (by simp) (fun _ => by simp [SWord.read, SUn.un_word])

theorem Encoding.li (f : SUn) : Encoding.Statement (.li f) :=
  enc_s rfl (by simp) (fun _ => by simp [SWord.read, SUn.un_word])

theorem Encoding.mov (f : SUn) : Encoding.Statement (.mov f) :=
  enc_s rfl (by simp) (fun _ => by simp [SWord.read, SUn.un_word])

theorem Encoding.cmp (c : ICond) (f : SBin) : Encoding.Statement (.cmp c f) :=
  enc_s rfl (by simp) (fun h => by
    simp only [Instr.wf, Bool.and_eq_true] at h
    simp [SWord.read, SBin.bin_word f _ _ h.1])

theorem Encoding.sel (g : BitVec 3) (neg : Bool) (f : SBin) : Encoding.Statement (.sel g neg f) :=
  enc_s rfl (by simp) (fun h => by
    simp only [Instr.wf, SBin.plain, Bool.and_eq_true] at h
    have hg := g.isLt
    have hn := b2n_lt neg
    have e : (BitVec.ofNat 4 (b2n neg * 8 + g.toNat)).toNat = b2n neg * 8 + g.toNat := by
      rw [BitVec.toNat_ofNat]; omega
    have e1 : BitVec.ofNat 3 (bitsAt (b2n neg * 8 + g.toNat) 0 3) = g := ofNat_eq (by unfold bitsAt; omega)
    have e2 : bitAt (b2n neg * 8 + g.toNat) 3 = neg := bitAt_b2n (by omega)
    simp only [SWord.read, SBin.word_op, SBin.word_sub, e, e1, e2, SBin.bin_word f _ _ h.1.1]
    rfl)

theorem Encoding.bfx (pos len : BitVec 6) (f : SUn) : Encoding.Statement (.bfx pos len f) :=
  enc_s rfl (by simp) (fun h => by
    simp only [Instr.wf, Bool.and_eq_true, Bool.not_eq_true'] at h
    have hp := pos.isLt
    have hl := len.isLt
    have e : (bfImm pos len).toNat = pos.toNat * 64 + len.toNat := by
      unfold bfImm; rw [BitVec.toNat_ofNat]; omega
    have e1 : bfPos (f.wordImm 0x18 0 (bfImm pos len)) = pos := ofNat_eq (by
      rw [SUn.wordImm_imm, e]; unfold bitsAt; omega)
    have e2 : bfLen (f.wordImm 0x18 0 (bfImm pos len)) = len := ofNat_eq (by
      rw [SUn.wordImm_imm, e]; unfold bitsAt; omega)
    simp only [SWord.read, SUn.wordImm_op, SUn.un_wordImm f _ _ _ h.1.2, e1, e2]
    rfl)

theorem Encoding.bfi (pos len : BitVec 6) (f : SUn) : Encoding.Statement (.bfi pos len f) :=
  enc_s rfl (by simp) (fun h => by
    simp only [Instr.wf, Bool.and_eq_true, Bool.not_eq_true'] at h
    have hp := pos.isLt
    have hl := len.isLt
    have e : (bfImm pos len).toNat = pos.toNat * 64 + len.toNat := by
      unfold bfImm; rw [BitVec.toNat_ofNat]; omega
    have e1 : bfPos (f.wordImm 0x19 0 (bfImm pos len)) = pos := ofNat_eq (by
      rw [SUn.wordImm_imm, e]; unfold bitsAt; omega)
    have e2 : bfLen (f.wordImm 0x19 0 (bfImm pos len)) = len := ofNat_eq (by
      rw [SUn.wordImm_imm, e]; unfold bitsAt; omega)
    simp only [SWord.read, SUn.wordImm_op, SUn.un_wordImm f _ _ _ h.1.2, e1, e2]
    rfl)

theorem Encoding.addr (sh : BitVec 3) (f : SBin) : Encoding.Statement (.addr sh f) :=
  enc_s rfl (by simp) (fun h => by
    simp only [Instr.wf, SBin.plain, Bool.and_eq_true] at h
    have hg := sh.isLt
    have e : (BitVec.ofNat 4 sh.toNat).toNat = sh.toNat := toNat_wide (by decide) sh
    have e1 : BitVec.ofNat 3 (bitsAt sh.toNat 0 3) = sh := ofNat_eq (by unfold bitsAt; omega)
    simp only [SWord.read, SBin.word_op, SBin.word_sub, e, e1, SBin.bin_word f _ _ h.1.1]
    rfl)

theorem Encoding.xfer (file : XferFile) (f : SUn) : Encoding.Statement (.xfer file f) :=
  enc_s rfl (by simp) (fun _ => by simp [SWord.read, SUn.un_word])

theorem Encoding.fadd (fmt : SFmt) (f : SBin) : Encoding.Statement (.fadd fmt f) :=
  enc_s rfl (by simp) (fun h => by
    simp only [Instr.wf, SBin.plain, Bool.and_eq_true] at h
    simp [SWord.read, SBin.bin_word f _ _ h.1.1])

theorem Encoding.fsub (fmt : SFmt) (f : SBin) : Encoding.Statement (.fsub fmt f) :=
  enc_s rfl (by simp) (fun h => by
    simp only [Instr.wf, SBin.plain, Bool.and_eq_true] at h
    simp [SWord.read, SBin.bin_word f _ _ h.1.1])

theorem Encoding.fmul (fmt : SFmt) (f : SBin) : Encoding.Statement (.fmul fmt f) :=
  enc_s rfl (by simp) (fun h => by
    simp only [Instr.wf, SBin.plain, Bool.and_eq_true] at h
    simp [SWord.read, SBin.bin_word f _ _ h.1.1])

theorem Encoding.fma (fmt : SFmt) (f : SBin) : Encoding.Statement (.fma fmt f) :=
  enc_s rfl (by simp) (fun h => by
    simp only [Instr.wf, SBin.plain, Bool.and_eq_true] at h
    simp [SWord.read, SBin.bin_word f _ _ h.1.1])

theorem Encoding.fmin (fmt : SFmt) (f : SBin) : Encoding.Statement (.fmin fmt f) :=
  enc_s rfl (by simp) (fun h => by
    simp only [Instr.wf, SBin.plain, Bool.and_eq_true] at h
    simp [SWord.read, SBin.bin_word f _ _ h.1.1])

theorem Encoding.fmax (fmt : SFmt) (f : SBin) : Encoding.Statement (.fmax fmt f) :=
  enc_s rfl (by simp) (fun h => by
    simp only [Instr.wf, SBin.plain, Bool.and_eq_true] at h
    simp [SWord.read, SBin.bin_word f _ _ h.1.1])

theorem Encoding.frcp (fmt : SFmt) (f : SUn) : Encoding.Statement (.frcp fmt f) :=
  enc_s rfl (by simp) (fun _ => by simp [SWord.read, SUn.un_word])

theorem Encoding.frsq (fmt : SFmt) (f : SUn) : Encoding.Statement (.frsq fmt f) :=
  enc_s rfl (by simp) (fun _ => by simp [SWord.read, SUn.un_word])

theorem Encoding.fexp2 (fmt : SFmt) (f : SUn) : Encoding.Statement (.fexp2 fmt f) :=
  enc_s rfl (by simp) (fun _ => by simp [SWord.read, SUn.un_word])

theorem Encoding.flog2 (fmt : SFmt) (f : SUn) : Encoding.Statement (.flog2 fmt f) :=
  enc_s rfl (by simp) (fun _ => by simp [SWord.read, SUn.un_word])

theorem Encoding.fcmp (fmt : SFmt) (c : FCond) (f : SBin) : Encoding.Statement (.fcmp fmt c f) :=
  enc_s rfl (by simp) (fun h => by
    simp only [Instr.wf, Bool.and_eq_true, Bool.not_eq_true'] at h
    have hc := fcond_lt c
    have e : (BitVec.ofNat 26 c.code).toNat = c.code := by rw [BitVec.toNat_ofNat]; omega
    simp only [SWord.read, SBin.wordImm_op, SBin.wordImm_sub, SBin.wordImm_imm, e, FCond.ofCode_code, SFmt.ofCode_code,
      SBin.bin_wordImm f _ _ _ h.1.2 h.2]
    rfl)

theorem Encoding.fcvt (src dst : ElemTy) (f : SUn) : Encoding.Statement (.fcvt src dst f) :=
  enc_s rfl (by simp) (fun h => by
    simp only [Instr.wf, Bool.and_eq_true, Bool.not_eq_true'] at h
    have hs := src.code.isLt
    have hd := dst.code.isLt
    have e : (BitVec.ofNat 26 (dst.code.toNat * 16 + src.code.toNat)).toNat = dst.code.toNat * 16 + src.code.toNat := by
      rw [BitVec.toNat_ofNat]; omega
    have e1 : BitVec.ofNat 4 (bitsAt (dst.code.toNat * 16 + src.code.toNat) 0 4) = src.code := ofNat_eq (by unfold bitsAt; omega)
    have e2 : BitVec.ofNat 4 (bitsAt (dst.code.toNat * 16 + src.code.toNat) 4 4) = dst.code := ofNat_eq (by unfold bitsAt; omega)
    simp only [SWord.read, SUn.wordImm_op, SUn.wordImm_imm, e, e1, e2, ElemTy.ofCode_code, SUn.un_wordImm f _ _ _ h.1.1.1.2]
    rfl)

theorem Encoding.rand (float : Bool) (slot : SSlot) (dst : BitVec 6) : Encoding.Statement (.rand float slot dst) := by
  refine enc_s rfl (by simp) (fun _ => ?_)
  cases float <;> simp [SWord.read, SWord.sub, smod_sub, b2n, bitAt]

theorem Encoding.vadd (f : VBin) : Encoding.Statement (.vadd f) :=
  enc_v rfl rfl (by simp) (fun _ => by simp [VWord.read, VBin.bin_word])

theorem Encoding.vsub (f : VBin) : Encoding.Statement (.vsub f) :=
  enc_v rfl rfl (by simp) (fun _ => by simp [VWord.read, VBin.bin_word])

theorem Encoding.vmul (f : VBin) : Encoding.Statement (.vmul f) :=
  enc_v rfl rfl (by simp) (fun _ => by simp [VWord.read, VBin.bin_word])

theorem Encoding.vmin (f : VBin) : Encoding.Statement (.vmin f) :=
  enc_v rfl rfl (by simp) (fun _ => by simp [VWord.read, VBin.bin_word])

theorem Encoding.vmax (f : VBin) : Encoding.Statement (.vmax f) :=
  enc_v rfl rfl (by simp) (fun _ => by simp [VWord.read, VBin.bin_word])

theorem Encoding.vdiv (f : VBin) : Encoding.Statement (.vdiv f) :=
  enc_v rfl rfl (by simp) (fun _ => by simp [VWord.read, VBin.bin_word])

theorem Encoding.vand (f : VBin) : Encoding.Statement (.vand f) :=
  enc_v rfl rfl (by simp) (fun _ => by simp [VWord.read, VBin.bin_word])

theorem Encoding.vor (f : VBin) : Encoding.Statement (.vor f) :=
  enc_v rfl rfl (by simp) (fun _ => by simp [VWord.read, VBin.bin_word])

theorem Encoding.vxor (f : VBin) : Encoding.Statement (.vxor f) :=
  enc_v rfl rfl (by simp) (fun _ => by simp [VWord.read, VBin.bin_word])

theorem Encoding.vshl (f : VBin) : Encoding.Statement (.vshl f) :=
  enc_v rfl rfl (by simp) (fun _ => by simp [VWord.read, VBin.bin_word])

theorem Encoding.vshr (f : VBin) : Encoding.Statement (.vshr f) :=
  enc_v rfl rfl (by simp) (fun _ => by simp [VWord.read, VBin.bin_word])

theorem Encoding.vsar (f : VBin) : Encoding.Statement (.vsar f) :=
  enc_v rfl rfl (by simp) (fun _ => by simp [VWord.read, VBin.bin_word])

theorem Encoding.vimin (f : VBin) : Encoding.Statement (.vimin f) :=
  enc_v rfl rfl (by simp) (fun _ => by simp [VWord.read, VBin.bin_word])

theorem Encoding.vimax (f : VBin) : Encoding.Statement (.vimax f) :=
  enc_v rfl rfl (by simp) (fun _ => by simp [VWord.read, VBin.bin_word])

theorem Encoding.vsel (f : VBin) : Encoding.Statement (.vsel f) :=
  enc_v rfl rfl (by simp) (fun _ => by simp [VWord.read, VBin.bin_word])

theorem Encoding.vperm (f : VBin) : Encoding.Statement (.vperm f) :=
  enc_v rfl rfl (by simp) (fun _ => by simp [VWord.read, VBin.bin_word])

theorem Encoding.vfma (f : VTer) : Encoding.Statement (.vfma f) :=
  enc_v rfl rfl (by simp) (fun _ => by simp [VWord.read, VTer.ter_word])

theorem Encoding.vfms (f : VTer) : Encoding.Statement (.vfms f) :=
  enc_v rfl rfl (by simp) (fun _ => by simp [VWord.read, VTer.ter_word])

theorem Encoding.vfnma (f : VTer) : Encoding.Statement (.vfnma f) :=
  enc_v rfl rfl (by simp) (fun _ => by simp [VWord.read, VTer.ter_word])

theorem Encoding.vabs (f : VUn) : Encoding.Statement (.vabs f) :=
  enc_v rfl rfl (by simp) (fun _ => by simp [VWord.read, VUn.un_word])

theorem Encoding.vneg (f : VUn) : Encoding.Statement (.vneg f) :=
  enc_v rfl rfl (by simp) (fun _ => by simp [VWord.read, VUn.un_word])

theorem Encoding.vrcp (f : VUn) : Encoding.Statement (.vrcp f) :=
  enc_v rfl rfl (by simp) (fun _ => by simp [VWord.read, VUn.un_word])

theorem Encoding.vrsq (f : VUn) : Encoding.Statement (.vrsq f) :=
  enc_v rfl rfl (by simp) (fun _ => by simp [VWord.read, VUn.un_word])

theorem Encoding.vsqrt (f : VUn) : Encoding.Statement (.vsqrt f) :=
  enc_v rfl rfl (by simp) (fun _ => by simp [VWord.read, VUn.un_word])

theorem Encoding.vexp2 (f : VUn) : Encoding.Statement (.vexp2 f) :=
  enc_v rfl rfl (by simp) (fun _ => by simp [VWord.read, VUn.un_word])

theorem Encoding.vlog2 (f : VUn) : Encoding.Statement (.vlog2 f) :=
  enc_v rfl rfl (by simp) (fun _ => by simp [VWord.read, VUn.un_word])

theorem Encoding.vtanh (f : VUn) : Encoding.Statement (.vtanh f) :=
  enc_v rfl rfl (by simp) (fun _ => by simp [VWord.read, VUn.un_word])

theorem Encoding.vsigm (f : VUn) : Encoding.Statement (.vsigm f) :=
  enc_v rfl rfl (by simp) (fun _ => by simp [VWord.read, VUn.un_word])

theorem Encoding.vsilu (f : VUn) : Encoding.Statement (.vsilu f) :=
  enc_v rfl rfl (by simp) (fun _ => by simp [VWord.read, VUn.un_word])

theorem Encoding.vgelu (f : VUn) : Encoding.Statement (.vgelu f) :=
  enc_v rfl rfl (by simp) (fun _ => by simp [VWord.read, VUn.un_word])

theorem Encoding.vmov (f : VUn) : Encoding.Statement (.vmov f) :=
  enc_v rfl rfl (by simp) (fun _ => by simp [VWord.read, VUn.un_word])

theorem Encoding.vcomp (f : VUn) : Encoding.Statement (.vcomp f) :=
  enc_v rfl rfl (by simp) (fun _ => by simp [VWord.read, VUn.un_word])

theorem Encoding.vexpd (f : VUn) : Encoding.Statement (.vexpd f) :=
  enc_v rfl rfl (by simp) (fun _ => by simp [VWord.read, VUn.un_word])

theorem Encoding.vpsum (f : VUn) : Encoding.Statement (.vpsum f) :=
  enc_v rfl rfl (by simp) (fun _ => by simp [VWord.read, VUn.un_word])

theorem Encoding.vclass (f : VUn) : Encoding.Statement (.vclass f) :=
  enc_v rfl rfl (by simp) (fun _ => by simp [VWord.read, VUn.un_word])

theorem Encoding.vcnt (f : VNul) : Encoding.Statement (.vcnt f) :=
  enc_v rfl rfl (by simp) (fun _ => by simp [VWord.read, VNul.nul_word])

theorem Encoding.viota (f : VNul) : Encoding.Statement (.viota f) :=
  enc_v rfl rfl (by simp) (fun _ => by simp [VWord.read, VNul.nul_word])

theorem Encoding.vrand (f : VNul) : Encoding.Statement (.vrand f) :=
  enc_v rfl rfl (by simp) (fun _ => by simp [VWord.read, VNul.nul_word])

theorem Encoding.viadd (m : VIMode) (f : VBin) : Encoding.Statement (.viadd m f) :=
  enc_v rfl rfl (by simp) (fun h => by
    simp only [Instr.wf, VBin.plainI, Bool.and_eq_true, beq_iff_eq] at h
    simp [VWord.read, VBin.ibin_wordM f _ _ h.1.1])

theorem Encoding.visub (m : VIMode) (f : VBin) : Encoding.Statement (.visub m f) :=
  enc_v rfl rfl (by simp) (fun h => by
    simp only [Instr.wf, VBin.plainI, Bool.and_eq_true, beq_iff_eq] at h
    simp [VWord.read, VBin.ibin_wordM f _ _ h.1.1])

theorem Encoding.vimul (m : VIMode) (f : VBin) : Encoding.Statement (.vimul m f) :=
  enc_v rfl rfl (by simp) (fun h => by
    simp only [Instr.wf, VBin.plainI, Bool.and_eq_true, beq_iff_eq] at h
    simp [VWord.read, VBin.ibin_wordM f _ _ h.1])

theorem Encoding.vimad (m : VIMode) (f : VTer) : Encoding.Statement (.vimad m f) :=
  enc_v rfl rfl (by simp) (fun h => by
    simp only [Instr.wf, Bool.and_eq_true, beq_iff_eq] at h
    simp [VWord.read, VTer.iter_wordM f _ _ h.1.1])

theorem Encoding.vcmp (c : FCond) (f : VBin) : Encoding.Statement (.vcmp c f) :=
  enc_v rfl rfl (by simp) (fun _ => by
    have hc := fcond_lt c
    have e : (c12 (c.code)).toNat = c.code := c12_toNat (by omega)
    simp only [VWord.read, VBin.word_op, VBin.word_c, VBin.bin_word, e, FCond.ofCode_code]
    rfl)

theorem Encoding.vred (op : VRedOp) (f : VUn) : Encoding.Statement (.vred op f) :=
  enc_v rfl rfl (by simp) (fun _ => by
    have hc : op.code < 4 := by cases op <;> decide
    have e : (c12 (op.code)).toNat = op.code := c12_toNat (by omega)
    simp only [VWord.read, VUn.word_op, VUn.word_c, VUn.un_word, e, VRedOp.ofCode_code]
    rfl)

theorem Encoding.vfind (c : VFindCond) (f : VBin) : Encoding.Statement (.vfind c f) :=
  enc_v rfl rfl (by simp) (fun _ => by
    have hc : c.code < 4 := by cases c <;> decide
    have e : (c12 (c.code)).toNat = c.code := c12_toNat (by omega)
    simp only [VWord.read, VBin.word_op, VBin.word_c, VBin.bin_word, e, VFindCond.ofCode_code]
    rfl)

theorem Encoding.vbcast (j : BitVec 8) (f : VUn) : Encoding.Statement (.vbcast j f) :=
  enc_v rfl rfl (by simp) (fun _ => by
    have hj := j.isLt
    have e : (c12 (j.toNat)).toNat = j.toNat := c12_toNat (by omega)
    have e1 : BitVec.ofNat 8 (bitsAt j.toNat 0 8) = j := ofNat_eq (by unfold bitsAt; omega)
    simp only [VWord.read, VUn.word_op, VUn.word_c, VUn.un_word, e, e1]
    rfl)

theorem Encoding.vins (j : BitVec 8) (f : VUn) : Encoding.Statement (.vins j f) :=
  enc_v rfl rfl (by simp) (fun _ => by
    have hj := j.isLt
    have e : (c12 (j.toNat)).toNat = j.toNat := c12_toNat (by omega)
    have e1 : BitVec.ofNat 8 (bitsAt j.toNat 0 8) = j := ofNat_eq (by unfold bitsAt; omega)
    simp only [VWord.read, VUn.word_op, VUn.word_c, VUn.un_word, e, e1]
    rfl)

theorem Encoding.vslide (n : BitVec 8) (f : VBin) : Encoding.Statement (.vslide n f) :=
  enc_v rfl rfl (by simp) (fun _ => by
    have hj := n.isLt
    have e : (c12 (n.toNat)).toNat = n.toNat := c12_toNat (by omega)
    have e1 : BitVec.ofNat 8 (bitsAt n.toNat 0 8) = n := ofNat_eq (by unfold bitsAt; omega)
    simp only [VWord.read, VBin.word_op, VBin.word_c, VBin.bin_word, e, e1]
    rfl)

theorem Encoding.vxfer (file : VXferFile) (j : BitVec 8) (f : VUn) : Encoding.Statement (.vxfer file j f) :=
  enc_v rfl rfl (by simp) (fun _ => by
    have hj := j.isLt
    have hf := vxfer_lt file
    have e : (c12 (file.code * 512 + j.toNat)).toNat = file.code * 512 + j.toNat := c12_toNat (by omega)
    have e1 : BitVec.ofNat 8 (bitsAt (file.code * 512 + j.toNat) 0 8) = j := ofNat_eq (by unfold bitsAt; omega)
    have e2 : bitsAt (file.code * 512 + j.toNat) 9 3 = file.code := by unfold bitsAt; omega
    simp only [VWord.read, VUn.word_op, VUn.word_c, VUn.un_word, e, e1, e2, VXferFile.ofCode_code]
    rfl)

theorem Encoding.vcvt (d : ElemTy) (h : BitVec 2) (sat : Bool) (f : VUn) : Encoding.Statement (.vcvt d h sat f) :=
  enc_v rfl rfl (by simp) (fun _ => by
    have hs := b2n_lt sat
    have hh := h.isLt
    have hd := d.code.isLt
    have e : (c12 (b2n sat * 64 + h.toNat * 16 + d.code.toNat)).toNat = b2n sat * 64 + h.toNat * 16 + d.code.toNat := c12_toNat (by omega)
    have e1 : BitVec.ofNat 4 (bitsAt (b2n sat * 64 + h.toNat * 16 + d.code.toNat) 0 4) = d.code := ofNat_eq (by unfold bitsAt; omega)
    have e2 : BitVec.ofNat 2 (bitsAt (b2n sat * 64 + h.toNat * 16 + d.code.toNat) 4 2) = h := ofNat_eq (by unfold bitsAt; omega)
    have e3 : bitAt (b2n sat * 64 + h.toNat * 16 + d.code.toNat) 6 = sat := bitAt_b2n (by omega)
    simp only [VWord.read, VUn.word_op, VUn.word_c, VUn.un_word, e, e1, e2, e3, ElemTy.ofCode_code]
    rfl)

theorem Encoding.vquant (sc : Bool) (d : ElemTy) (h : BitVec 2) (f : VBin) : Encoding.Statement (.vquant sc d h f) :=
  enc_v rfl rfl (by simp) (fun _ => by
    have hs := b2n_lt sc
    have hh := h.isLt
    have hd := d.code.isLt
    have e : (c12 (b2n sc * 64 + h.toNat * 16 + d.code.toNat)).toNat = b2n sc * 64 + h.toNat * 16 + d.code.toNat := c12_toNat (by omega)
    have e1 : BitVec.ofNat 4 (bitsAt (b2n sc * 64 + h.toNat * 16 + d.code.toNat) 0 4) = d.code := ofNat_eq (by unfold bitsAt; omega)
    have e2 : BitVec.ofNat 2 (bitsAt (b2n sc * 64 + h.toNat * 16 + d.code.toNat) 4 2) = h := ofNat_eq (by unfold bitsAt; omega)
    have e3 : bitAt (b2n sc * 64 + h.toNat * 16 + d.code.toNat) 6 = sc := bitAt_b2n (by omega)
    simp only [VWord.read, VBin.word_op, VBin.word_c, VBin.bin_word, e, e1, e2, e3, ElemTy.ofCode_code]
    rfl)

theorem Encoding.vdeq (d : ElemTy) (h : BitVec 2) (f : VBin) : Encoding.Statement (.vdeq d h f) :=
  enc_v rfl rfl (by simp) (fun _ => by
    have hh := h.isLt
    have hd := d.code.isLt
    have e : (c12 (h.toNat * 16 + d.code.toNat)).toNat = h.toNat * 16 + d.code.toNat := c12_toNat (by omega)
    have e1 : BitVec.ofNat 4 (bitsAt (h.toNat * 16 + d.code.toNat) 0 4) = d.code := ofNat_eq (by unfold bitsAt; omega)
    have e2 : BitVec.ofNat 2 (bitsAt (h.toNat * 16 + d.code.toNat) 4 2) = h := ofNat_eq (by unfold bitsAt; omega)
    simp only [VWord.read, VBin.word_op, VBin.word_c, VBin.bin_word, e, e1, e2, ElemTy.ofCode_code]
    rfl)

theorem Encoding.vcwenc (h : BitVec 2) (f : VBin) : Encoding.Statement (.vcwenc h f) :=
  enc_v rfl rfl (by simp) (fun _ => by
    have hh := h.isLt
    have e : (c12 (h.toNat * 16)).toNat = h.toNat * 16 := c12_toNat (by omega)
    have e2 : BitVec.ofNat 2 (bitsAt (h.toNat * 16) 4 2) = h := ofNat_eq (by unfold bitsAt; omega)
    simp only [VWord.read, VBin.word_op, VBin.word_c, VBin.bin_word, e, e2]
    rfl)

theorem Encoding.vcwdec (d : ElemTy) (h : BitVec 2) (view : CwView) (o : BitVec 4) (f : VBin) : Encoding.Statement (.vcwdec d h view o f) :=
  enc_v rfl rfl (by simp) (fun _ => by
    have hh := h.isLt
    have hd := d.code.isLt
    have hv := cwview_lt view
    have ho := o.isLt
    have e : (c12 (o.toNat * 256 + view.code * 64 + h.toNat * 16 + d.code.toNat)).toNat = o.toNat * 256 + view.code * 64 + h.toNat * 16 + d.code.toNat := c12_toNat (by omega)
    have e1 : BitVec.ofNat 4 (bitsAt (o.toNat * 256 + view.code * 64 + h.toNat * 16 + d.code.toNat) 0 4) = d.code := ofNat_eq (by unfold bitsAt; omega)
    have e2 : BitVec.ofNat 2 (bitsAt (o.toNat * 256 + view.code * 64 + h.toNat * 16 + d.code.toNat) 4 2) = h := ofNat_eq (by unfold bitsAt; omega)
    have e3 : bitsAt (o.toNat * 256 + view.code * 64 + h.toNat * 16 + d.code.toNat) 6 2 = view.code := by unfold bitsAt; omega
    have e4 : BitVec.ofNat 4 (bitsAt (o.toNat * 256 + view.code * 64 + h.toNat * 16 + d.code.toNat) 8 4) = o := ofNat_eq (by unfold bitsAt; omega)
    simp only [VWord.read, VBin.word_op, VBin.word_c, VBin.bin_word, e, e1, e2, e3, e4, ElemTy.ofCode_code, CwView.ofCode_code]
    rfl)

theorem Encoding.vmask (op : VMaskOp) (slot : VSlot) (dst : BitVec 3) : Encoding.Statement (.vmask op slot dst) := by
  have ho : (op.word dst).op = 0x23 := by cases op <;> rfl
  have hd : BitVec.ofNat 3 (op.word dst).dst.toNat = dst := by
    cases op <;> exact ofNat_wide (by decide) dst
  have hr : VMaskOp.read (op.word dst) = some op := by
    have hx : ∀ x : BitVec 3, BitVec.ofNat 3 (x.toNat % 4096) = x := fun x => ofNat_eq (by have := x.isLt; omega)
    cases op <;> simp [VMaskOp.word, VMaskOp.read, vword, c12, hx]
  refine enc_v (f := op.word dst) rfl rfl (by rw [ho]; decide) (fun _ => ?_)
  simp only [VWord.read, ho, hd, hr]
  rfl

theorem Encoding.lds (ty : ElemTy) (dst : RegRef) (base : BitVec 5) (addr : LAddr) : Encoding.Statement (.lds ty dst base addr) :=
  enc_l rfl rfl rfl (by simp [lwordD]) (fun h => by
    simp only [Instr.wf, Bool.and_eq_true] at h
    have ha := LAddr.fld_lt (n := 30) (by decide) addr
    have hf : addr.fld 30 < 2 ^ 30 := by omega
    simp only [LWord.read, dst_op, dst_ty, dst_mod, dst_base, lwordD_dreg, dst_fld _ _ _ _ _ hf, ElemTy.ofCode_code, LAddr.read_fld (n := 30) (by decide) addr h.2]
    rfl)

theorem Encoding.vld (ty : ElemTy) (dst : RegRef) (base : BitVec 5) (addr : LAddr) : Encoding.Statement (.vld ty dst base addr) :=
  enc_l rfl rfl rfl (by simp [lwordD]) (fun h => by
    simp only [Instr.wf, Bool.and_eq_true] at h
    have ha := LAddr.fld_lt (n := 30) (by decide) addr
    have hf : addr.fld 30 < 2 ^ 30 := by omega
    simp only [LWord.read, dst_op, dst_ty, dst_mod, dst_base, lwordD_dreg, dst_fld _ _ _ _ _ hf, ElemTy.ofCode_code, LAddr.read_fld (n := 30) (by decide) addr h.2]
    rfl)

theorem Encoding.sts (ty : ElemTy) (src : RegRef) (base : BitVec 5) (addr : LAddr) : Encoding.Statement (.sts ty src base addr) :=
  enc_l rfl rfl rfl (by simp [lwordN]) (fun h => by
    simp only [Instr.wf, Bool.and_eq_true] at h
    have hs := RegRef.code_lt src
    have ha := LAddr.fld_lt (n := 17) (by decide) addr
    have hf : src.code * 2 ^ 17 + addr.fld 17 < 2 ^ 30 := by omega
    have e1 : bitsAt (src.code * 2 ^ 17 + addr.fld 17) 0 17 = addr.fld 17 := by unfold bitsAt; omega
    simp only [LWord.read, src_op, src_ty, src_mod, src_base, src_fld _ _ _ _ hf, ElemTy.ofCode_code, src_back ha, e1, LAddr.read_fld (n := 17) (by decide) addr h.2]
    rfl)

theorem Encoding.vst (ty : ElemTy) (src : RegRef) (base : BitVec 5) (addr : LAddr) : Encoding.Statement (.vst ty src base addr) :=
  enc_l rfl rfl rfl (by simp [lwordN]) (fun h => by
    simp only [Instr.wf, Bool.and_eq_true] at h
    have hs := RegRef.code_lt src
    have ha := LAddr.fld_lt (n := 17) (by decide) addr
    have hf : src.code * 2 ^ 17 + addr.fld 17 < 2 ^ 30 := by omega
    have e1 : bitsAt (src.code * 2 ^ 17 + addr.fld 17) 0 17 = addr.fld 17 := by unfold bitsAt; omega
    simp only [LWord.read, src_op, src_ty, src_mod, src_base, src_fld _ _ _ _ hf, ElemTy.ofCode_code, src_back ha, e1, LAddr.read_fld (n := 17) (by decide) addr h.2]
    rfl)

theorem Encoding.vlds (ty : ElemTy) (dst : RegRef) (base stride : BitVec 5) (off : Int) : Encoding.Statement (.vlds ty dst base stride off) :=
  enc_l rfl rfl rfl (by simp [lwordD]) (fun h => by
    simp only [Instr.wf, Bool.and_eq_true] at h
    have hs := stride.isLt
    have ho := wrapInt_lt (n := 25) off
    have hf : stride.toNat * 2 ^ 25 + wrapInt 25 off < 2 ^ 30 := by omega
    have e1 : BitVec.ofNat 5 (bitsAt (stride.toNat * 2 ^ 25 + wrapInt 25 off) 25 5) = stride := ofNat_eq (by unfold bitsAt; omega)
    have e2 : sextNat 25 (stride.toNat * 2 ^ 25 + wrapInt 25 off) = off := sext_wrap (by decide) h.2 _
    simp only [LWord.read, dst_op, dst_ty, dst_mod, dst_base, lwordD_dreg, dst_fld _ _ _ _ _ hf, ElemTy.ofCode_code, e1, e2]
    rfl)

theorem Encoding.vsts (ty : ElemTy) (src : RegRef) (base stride : BitVec 5) (off : Int) : Encoding.Statement (.vsts ty src base stride off) :=
  enc_l rfl rfl rfl (by simp [lwordN]) (fun h => by
    simp only [Instr.wf, Bool.and_eq_true] at h
    have hc := RegRef.code_lt src
    have hs := stride.isLt
    have ho := wrapInt_lt (n := 12) off
    have hf : src.code * 2 ^ 17 + stride.toNat * 2 ^ 12 + wrapInt 12 off < 2 ^ 30 := by omega
    have h17 : stride.toNat * 2 ^ 12 + wrapInt 12 off < 2 ^ 17 := by clear hf hc; omega
    have e1 : BitVec.ofNat 5 (bitsAt (src.code * 2 ^ 17 + stride.toNat * 2 ^ 12 + wrapInt 12 off) 12 5) = stride := ofNat_eq (by unfold bitsAt; omega)
    have e8 : RegRef.ofCode (bitsAt (src.code * 2 ^ 17 + stride.toNat * 2 ^ 12 + wrapInt 12 off) 17 13) = src :=
      (congrArg (fun n => RegRef.ofCode (bitsAt n 17 13)) (show src.code * 2 ^ 17 + stride.toNat * 2 ^ 12 + wrapInt 12 off = src.code * 2 ^ 17 + (stride.toNat * 2 ^ 12 + wrapInt 12 off) by simp only [Nat.add_assoc])).trans
        (src_back (s := src) (r := stride.toNat * 2 ^ 12 + wrapInt 12 off) h17)
    have e9 : sextNat 12 (src.code * 2 ^ 17 + stride.toNat * 2 ^ 12 + wrapInt 12 off) = off := by
      rw [show src.code * 2 ^ 17 + stride.toNat * 2 ^ 12 + wrapInt 12 off = (src.code * 2 ^ 5 + stride.toNat) * 2 ^ 12 + wrapInt 12 off by omega]
      exact sext_wrap (by decide) h.2 _
    simp only [LWord.read, src_op, src_ty, src_mod, src_base, src_fld _ _ _ _ hf, ElemTy.ofCode_code, e1, e8, e9]
    rfl)

theorem Encoding.vgath (ty : ElemTy) (h : BitVec 2) (dst : RegRef) (base : BitVec 5) (index : BitVec 10) (off : Int) : Encoding.Statement (.vgath ty h dst base index off) :=
  enc_l rfl rfl rfl (by simp [lwordD]) (fun hw => by
    simp only [Instr.wf, Bool.and_eq_true] at hw
    have hh := h.isLt
    have hs := index.isLt
    have ho := wrapInt_lt (n := 20) off
    have hf : index.toNat * 2 ^ 20 + wrapInt 20 off < 2 ^ 30 := by omega
    have e1 : BitVec.ofNat 10 (bitsAt (index.toNat * 2 ^ 20 + wrapInt 20 off) 20 10) = index := ofNat_eq (by unfold bitsAt; omega)
    have e2 : sextNat 20 (index.toNat * 2 ^ 20 + wrapInt 20 off) = off := sext_wrap (by decide) hw.1.2 _
    have e3 : BitVec.ofNat 2 (bitsAt (BitVec.ofNat 4 h.toNat).toNat 0 2) = h := ofNat_eq (by
      rw [toNat_wide (by decide)]; unfold bitsAt; omega)
    simp only [LWord.read, dst_op, dst_ty, dst_mod, dst_base, lwordD_dreg, dst_fld _ _ _ _ _ hf, ElemTy.ofCode_code, e1, e2, e3]
    rfl)

theorem Encoding.vscat (ty : ElemTy) (h : BitVec 2) (src : RegRef) (base : BitVec 5) (index : BitVec 10) : Encoding.Statement (.vscat ty h src base index) :=
  enc_l rfl rfl rfl (by simp [lwordN]) (fun hw => by
    simp only [Instr.wf, Bool.and_eq_true] at hw
    have hh := h.isLt
    have hs := index.isLt
    have hc := RegRef.code_lt src
    have hf : src.code * 2 ^ 17 + index.toNat * 2 ^ 7 < 2 ^ 30 := by omega
    have h17 : index.toNat * 2 ^ 7 < 2 ^ 17 := by clear hf hc; omega
    have e1 : BitVec.ofNat 10 (bitsAt (src.code * 2 ^ 17 + index.toNat * 2 ^ 7) 7 10) = index := ofNat_eq (by unfold bitsAt; omega)
    have e8 : RegRef.ofCode (bitsAt (src.code * 2 ^ 17 + index.toNat * 2 ^ 7) 17 13) = src :=
      (congrArg (fun n => RegRef.ofCode (bitsAt n 17 13)) (show src.code * 2 ^ 17 + index.toNat * 2 ^ 7 = src.code * 2 ^ 17 + (index.toNat * 2 ^ 7) by simp only [Nat.add_assoc])).trans
        (src_back (s := src) (r := index.toNat * 2 ^ 7) h17)
    have e3 : BitVec.ofNat 2 (bitsAt (BitVec.ofNat 4 h.toNat).toNat 0 2) = h := ofNat_eq (by
      rw [toNat_wide (by decide)]; unfold bitsAt; omega)
    simp only [LWord.read, src_op, src_ty, src_mod, src_base, src_fld _ _ _ _ hf, ElemTy.ofCode_code, e1, e8, e3]
    rfl)

theorem Encoding.atom (op : AtomOp) (ty : ElemTy) (dst : Option RegRef) (src : RegRef) (base : BitVec 5) (off : Int) :
    Encoding.Statement (.atom op ty dst src base off) := by
  refine enc_l (f := atomWord 0x09 op ty dst src base off) rfl rfl rfl (by cases dst <;> simp [atomWord, lwordD, lwordN])
    (fun h => ?_)
  simp only [Instr.wf, atomOk, Bool.and_eq_true] at h
  have hc := RegRef.code_lt src
  have ho := wrapInt_lt (n := 16) off
  have hm : (BitVec.ofNat 4 op.code.toNat) = op.code := by simp
  cases dst with
  | none =>
    have hf : atomFld src false off < 2 ^ 30 := by simp only [atomFld, b2n]; simp; omega
    have e1 : RegRef.ofCode (bitsAt (atomFld src false off) 17 13) = src := by
      rw [show atomFld src false off = src.code * 2 ^ 17 + wrapInt 16 off by simp [atomFld, b2n]]
      exact src_back (by omega)
    have e2 : bitAt (atomFld src false off) 16 = false := bitAt_b2n (by simp only [atomFld, b2n]; simp; omega)
    have e3 : sextNat 16 (atomFld src false off) = off := by
      rw [show atomFld src false off = (src.code * 2) * 2 ^ 16 + wrapInt 16 off by simp [atomFld, b2n]; omega]
      exact sext_wrap (by decide) h.2 _
    simp only [LWord.read, atomWord, src_op, src_ty, src_mod, src_base, src_fld _ _ _ _ hf, ElemTy.ofCode_code, hm, AtomOp.ofCode_code, e1, e2, e3]
    rfl
  | some d =>
    have hf : atomFld src true off < 2 ^ 30 := by simp only [atomFld, b2n]; simp; omega
    have e1 : RegRef.ofCode (bitsAt (atomFld src true off) 17 13) = src := by
      rw [show atomFld src true off = src.code * 2 ^ 17 + (2 ^ 16 + wrapInt 16 off) by simp [atomFld, b2n]; omega]
      exact src_back (by omega)
    have e2 : bitAt (atomFld src true off) 16 = true := bitAt_b2n (by simp only [atomFld, b2n]; simp; omega)
    have e3 : sextNat 16 (atomFld src true off) = off := by
      rw [show atomFld src true off = (src.code * 2 + 1) * 2 ^ 16 + wrapInt 16 off by simp [atomFld, b2n]; omega]
      exact sext_wrap (by decide) h.2 _
    simp only [LWord.read, atomWord, dst_op, dst_ty, dst_mod, dst_base, lwordD_dreg, dst_fld _ _ _ _ _ hf, ElemTy.ofCode_code, hm, AtomOp.ofCode_code, e1, e2, e3]
    rfl

theorem Encoding.nat (op : AtomOp) (ty : ElemTy) (dst : Option RegRef) (src : RegRef) (base : BitVec 5) (off : Int) :
    Encoding.Statement (.nat op ty dst src base off) := by
  refine enc_l (f := atomWord 0x14 op ty dst src base off) rfl rfl rfl (by cases dst <;> simp [atomWord, lwordD, lwordN])
    (fun h => ?_)
  simp only [Instr.wf, atomOk, Bool.and_eq_true] at h
  have hc := RegRef.code_lt src
  have ho := wrapInt_lt (n := 16) off
  have hm : (BitVec.ofNat 4 op.code.toNat) = op.code := by simp
  cases dst with
  | none =>
    have hf : atomFld src false off < 2 ^ 30 := by simp only [atomFld, b2n]; simp; omega
    have e1 : RegRef.ofCode (bitsAt (atomFld src false off) 17 13) = src := by
      rw [show atomFld src false off = src.code * 2 ^ 17 + wrapInt 16 off by simp [atomFld, b2n]]
      exact src_back (by omega)
    have e2 : bitAt (atomFld src false off) 16 = false := bitAt_b2n (by simp only [atomFld, b2n]; simp; omega)
    have e3 : sextNat 16 (atomFld src false off) = off := by
      rw [show atomFld src false off = (src.code * 2) * 2 ^ 16 + wrapInt 16 off by simp [atomFld, b2n]; omega]
      exact sext_wrap (by decide) h.2 _
    simp only [LWord.read, atomWord, src_op, src_ty, src_mod, src_base, src_fld _ _ _ _ hf, ElemTy.ofCode_code, hm, AtomOp.ofCode_code, e1, e2, e3]
    rfl
  | some d =>
    have hf : atomFld src true off < 2 ^ 30 := by simp only [atomFld, b2n]; simp; omega
    have e1 : RegRef.ofCode (bitsAt (atomFld src true off) 17 13) = src := by
      rw [show atomFld src true off = src.code * 2 ^ 17 + (2 ^ 16 + wrapInt 16 off) by simp [atomFld, b2n]; omega]
      exact src_back (by omega)
    have e2 : bitAt (atomFld src true off) 16 = true := bitAt_b2n (by simp only [atomFld, b2n]; simp; omega)
    have e3 : sextNat 16 (atomFld src true off) = off := by
      rw [show atomFld src true off = (src.code * 2 + 1) * 2 ^ 16 + wrapInt 16 off by simp [atomFld, b2n]; omega]
      exact sext_wrap (by decide) h.2 _
    simp only [LWord.read, atomWord, dst_op, dst_ty, dst_mod, dst_base, lwordD_dreg, dst_fld _ _ _ _ _ hf, ElemTy.ofCode_code, hm, AtomOp.ofCode_code, e1, e2, e3]
    rfl

theorem Encoding.pref (action : BitVec 2) (base : BitVec 5) (off : Int) : Encoding.Statement (.pref action base off) :=
  enc_l rfl rfl rfl (by simp [lwordN]) (fun h => by
    simp only [Instr.wf, Bool.and_eq_true] at h
    have ho := wrapInt_lt (n := 30) off
    have hh := action.isLt
    have hf : wrapInt 30 off < 2 ^ 30 := by omega
    have e1 : sextNat 30 (wrapInt 30 off) = off := sext_wrap0 (by decide) h
    have e3 : BitVec.ofNat 2 (bitsAt (BitVec.ofNat 4 action.toNat).toNat 0 2) = action := ofNat_eq (by
      rw [toNat_wide (by decide)]; unfold bitsAt; omega)
    simp only [LWord.read, src_op, src_ty, src_mod, src_base, src_fld _ _ _ _ hf, ElemTy.ofCode_code, e1, e3]
    rfl)

theorem Encoding.wset (q : BitVec 3) (mem : Bool) (set rec base : BitVec 5) : Encoding.Statement (.wset q mem set rec base) :=
  enc_l rfl rfl rfl (by simp [lwordN]) (fun _ => by
    have hq := q.isLt
    have hs := set.isLt
    have hm := b2n_lt mem
    have hr := rec.isLt
    have hf : q.toNat * 2 ^ 27 + set.toNat * 2 ^ 22 + b2n mem * 2 ^ 21 + rec.toNat * 2 ^ 16 < 2 ^ 30 := by omega
    have e1 : BitVec.ofNat 3 (bitsAt (q.toNat * 2 ^ 27 + set.toNat * 2 ^ 22 + b2n mem * 2 ^ 21 + rec.toNat * 2 ^ 16) 27 3) = q := ofNat_eq (by unfold bitsAt; omega)
    have e2 : BitVec.ofNat 5 (bitsAt (q.toNat * 2 ^ 27 + set.toNat * 2 ^ 22 + b2n mem * 2 ^ 21 + rec.toNat * 2 ^ 16) 22 5) = set := ofNat_eq (by unfold bitsAt; omega)
    have e3 : bitAt (q.toNat * 2 ^ 27 + set.toNat * 2 ^ 22 + b2n mem * 2 ^ 21 + rec.toNat * 2 ^ 16) 21 = mem := bitAt_b2n (by omega)
    have e4 : BitVec.ofNat 5 (bitsAt (q.toNat * 2 ^ 27 + set.toNat * 2 ^ 22 + b2n mem * 2 ^ 21 + rec.toNat * 2 ^ 16) 16 5) = rec := ofNat_eq (by unfold bitsAt; omega)
    simp only [LWord.read, src_op, src_ty, src_mod, src_base, src_fld _ _ _ _ hf, ElemTy.ofCode_code, e1, e2, e3, e4]
    rfl)

theorem Encoding.wstart (q : BitVec 3) : Encoding.Statement (.wstart q) :=
  enc_l rfl rfl rfl (by simp [lwordN]) (fun _ => by
    have hq := q.isLt
    have hf : q.toNat * 2 ^ 27 < 2 ^ 30 := by omega
    have e1 : BitVec.ofNat 3 (bitsAt (q.toNat * 2 ^ 27) 27 3) = q := ofNat_eq (by unfold bitsAt; omega)
    simp only [LWord.read, src_op, src_ty, src_mod, src_base, src_fld _ _ _ _ hf, ElemTy.ofCode_code, e1]
    rfl)

theorem Encoding.wstop (drain : Bool) (q : BitVec 3) : Encoding.Statement (.wstop drain q) :=
  enc_l rfl rfl rfl (by simp [lwordN]) (fun _ => by
    have hq := q.isLt
    have hd := b2n_lt drain
    have hf : q.toNat * 2 ^ 27 < 2 ^ 30 := by omega
    have e1 : BitVec.ofNat 3 (bitsAt (q.toNat * 2 ^ 27) 27 3) = q := ofNat_eq (by unfold bitsAt; omega)
    have e2 : bitAt (BitVec.ofNat 4 (b2n drain)).toNat 0 = drain := bitAt_b2n (by rw [ofNat4_toNat (by omega)]; omega)
    simp only [LWord.read, src_op, src_ty, src_mod, src_base, src_fld _ _ _ _ hf, ElemTy.ofCode_code, e1, e2]
    rfl)

theorem Encoding.wstat (dst : RegRef) (q : BitVec 3) : Encoding.Statement (.wstat dst q) :=
  enc_l rfl rfl rfl (by simp [lwordD]) (fun _ => by
    have hq := q.isLt
    have hf : q.toNat * 2 ^ 27 < 2 ^ 30 := by omega
    have e1 : BitVec.ofNat 3 (bitsAt (q.toNat * 2 ^ 27) 27 3) = q := ofNat_eq (by unfold bitsAt; omega)
    simp only [LWord.read, dst_op, dst_ty, dst_mod, dst_base, lwordD_dreg, dst_fld _ _ _ _ _ hf, ElemTy.ofCode_code, e1]
    rfl)

theorem Encoding.cbwait (dst : RegRef) (cb : BitVec 4) (n : BitVec 10) (version : BitVec 16) : Encoding.Statement (.cbwait dst cb n version) :=
  enc_l rfl rfl rfl (by simp [lwordD]) (fun _ => by
    have hq := cb.isLt
    have hn := n.isLt
    have hv := version.isLt
    have hf : cb.toNat * 2 ^ 26 + n.toNat * 2 ^ 16 + version.toNat < 2 ^ 30 := by omega
    have e1 : BitVec.ofNat 4 (bitsAt (cb.toNat * 2 ^ 26 + n.toNat * 2 ^ 16 + version.toNat) 26 4) = cb := ofNat_eq (by unfold bitsAt; omega)
    have e2 : BitVec.ofNat 10 (bitsAt (cb.toNat * 2 ^ 26 + n.toNat * 2 ^ 16 + version.toNat) 16 10) = n := ofNat_eq (by unfold bitsAt; omega)
    have e3 : BitVec.ofNat 16 (bitsAt (cb.toNat * 2 ^ 26 + n.toNat * 2 ^ 16 + version.toNat) 0 16) = version := ofNat_eq (by unfold bitsAt; omega)
    simp only [LWord.read, dst_op, dst_ty, dst_mod, dst_base, lwordD_dreg, dst_fld _ _ _ _ _ hf, ElemTy.ofCode_code, e1, e2, e3]
    rfl)

theorem Encoding.cbadv (cb : BitVec 4) (n : BitVec 10) (version : BitVec 16) : Encoding.Statement (.cbadv cb n version) :=
  enc_l rfl rfl rfl (by simp [lwordN]) (fun _ => by
    have hq := cb.isLt
    have hn := n.isLt
    have hv := version.isLt
    have hf : cb.toNat * 2 ^ 26 + n.toNat * 2 ^ 16 + version.toNat < 2 ^ 30 := by omega
    have e1 : BitVec.ofNat 4 (bitsAt (cb.toNat * 2 ^ 26 + n.toNat * 2 ^ 16 + version.toNat) 26 4) = cb := ofNat_eq (by unfold bitsAt; omega)
    have e2 : BitVec.ofNat 10 (bitsAt (cb.toNat * 2 ^ 26 + n.toNat * 2 ^ 16 + version.toNat) 16 10) = n := ofNat_eq (by unfold bitsAt; omega)
    have e3 : BitVec.ofNat 16 (bitsAt (cb.toNat * 2 ^ 26 + n.toNat * 2 ^ 16 + version.toNat) 0 16) = version := ofNat_eq (by unfold bitsAt; omega)
    simp only [LWord.read, src_op, src_ty, src_mod, src_base, src_fld _ _ _ _ hf, ElemTy.ofCode_code, e1, e2, e3]
    rfl)

theorem Encoding.cbset (cb : BitVec 4) (base : BitVec 5) (off : Int) : Encoding.Statement (.cbset cb base off) :=
  enc_l rfl rfl rfl (by simp [lwordN]) (fun h => by
    simp only [Instr.wf, Bool.and_eq_true] at h
    have hq := cb.isLt
    have ho := wrapInt_lt (n := 26) off
    have hf : cb.toNat * 2 ^ 26 + wrapInt 26 off < 2 ^ 30 := by omega
    have e1 : BitVec.ofNat 4 (bitsAt (cb.toNat * 2 ^ 26 + wrapInt 26 off) 26 4) = cb := ofNat_eq (by unfold bitsAt; omega)
    have e2 : sextNat 26 (cb.toNat * 2 ^ 26 + wrapInt 26 off) = off := sext_wrap (by decide) h _
    simp only [LWord.read, src_op, src_ty, src_mod, src_base, src_fld _ _ _ _ hf, ElemTy.ofCode_code, e1, e2]
    rfl)

theorem Encoding.nld (ty : ElemTy) (dst : RegRef) (base : BitVec 5) (off : Int) : Encoding.Statement (.nld ty dst base off) :=
  enc_l rfl rfl rfl (by simp [lwordD]) (fun h => by
    simp only [Instr.wf, Bool.and_eq_true] at h
    have ho := wrapInt_lt (n := 30) off
    have hf : wrapInt 30 off < 2 ^ 30 := by omega
    have e1 : sextNat 30 (wrapInt 30 off) = off := sext_wrap0 (by decide) h.2
    simp only [LWord.read, dst_op, dst_ty, dst_mod, dst_base, lwordD_dreg, dst_fld _ _ _ _ _ hf, ElemTy.ofCode_code, e1]
    rfl)

theorem Encoding.nst (ty : ElemTy) (flag : Option (BitVec 5)) (src : RegRef) (base : BitVec 5) (off : Int) : Encoding.Statement (.nst ty flag src base off) :=
  enc_l rfl rfl rfl (by simp [lwordN]) (fun h => by
    simp only [Instr.wf, Bool.and_eq_true] at h
    have hc := RegRef.code_lt src
    have hp := optFlag_lt flag
    have ho := wrapInt_lt (n := 12) off
    have hb := b2n_lt flag.isSome
    have hf : src.code * 2 ^ 17 + optFlag flag * 2 ^ 12 + wrapInt 12 off < 2 ^ 30 := by omega
    have h17 : optFlag flag * 2 ^ 12 + wrapInt 12 off < 2 ^ 17 := by clear hf hc; omega
    have e1 : bitsAt (src.code * 2 ^ 17 + optFlag flag * 2 ^ 12 + wrapInt 12 off) 12 5 = optFlag flag := by unfold bitsAt; omega
    have e8 : RegRef.ofCode (bitsAt (src.code * 2 ^ 17 + optFlag flag * 2 ^ 12 + wrapInt 12 off) 17 13) = src :=
      (congrArg (fun n => RegRef.ofCode (bitsAt n 17 13)) (show src.code * 2 ^ 17 + optFlag flag * 2 ^ 12 + wrapInt 12 off = src.code * 2 ^ 17 + (optFlag flag * 2 ^ 12 + wrapInt 12 off) by simp only [Nat.add_assoc])).trans
        (src_back (s := src) (r := optFlag flag * 2 ^ 12 + wrapInt 12 off) h17)
    have e9 : sextNat 12 (src.code * 2 ^ 17 + optFlag flag * 2 ^ 12 + wrapInt 12 off) = off := by
      rw [show src.code * 2 ^ 17 + optFlag flag * 2 ^ 12 + wrapInt 12 off = (src.code * 2 ^ 5 + optFlag flag) * 2 ^ 12 + wrapInt 12 off by omega]
      exact sext_wrap (by decide) h.2 _
    have e2 : bitAt (BitVec.ofNat 4 (b2n flag.isSome)).toNat 0 = flag.isSome := bitAt_b2n (by rw [ofNat4_toNat (by omega)]; omega)
    simp only [LWord.read, src_op, src_ty, src_mod, src_base, src_fld _ _ _ _ hf, ElemTy.ofCode_code, e1, e2, e8, e9, flag_back]
    rfl)

theorem Encoding.nmc (ty : ElemTy) (flag : Option (BitVec 5)) (axis : BitVec 2) (self : Bool) (src : RegRef) (base : BitVec 5) (off : Int) : Encoding.Statement (.nmc ty flag axis self src base off) :=
  enc_l rfl rfl rfl (by simp [lwordN]) (fun h => by
    simp only [Instr.wf, Bool.and_eq_true] at h
    have hc := RegRef.code_lt src
    have hp := optFlag_lt flag
    have ho := wrapInt_lt (n := 12) off
    have hb := b2n_lt flag.isSome
    have hx := axis.isLt
    have hs := b2n_lt self
    have hf : src.code * 2 ^ 17 + optFlag flag * 2 ^ 12 + wrapInt 12 off < 2 ^ 30 := by omega
    have h17 : optFlag flag * 2 ^ 12 + wrapInt 12 off < 2 ^ 17 := by clear hf hc; omega
    have e1 : bitsAt (src.code * 2 ^ 17 + optFlag flag * 2 ^ 12 + wrapInt 12 off) 12 5 = optFlag flag := by unfold bitsAt; omega
    have e8 : RegRef.ofCode (bitsAt (src.code * 2 ^ 17 + optFlag flag * 2 ^ 12 + wrapInt 12 off) 17 13) = src :=
      (congrArg (fun n => RegRef.ofCode (bitsAt n 17 13)) (show src.code * 2 ^ 17 + optFlag flag * 2 ^ 12 + wrapInt 12 off = src.code * 2 ^ 17 + (optFlag flag * 2 ^ 12 + wrapInt 12 off) by simp only [Nat.add_assoc])).trans
        (src_back (s := src) (r := optFlag flag * 2 ^ 12 + wrapInt 12 off) h17)
    have e9 : sextNat 12 (src.code * 2 ^ 17 + optFlag flag * 2 ^ 12 + wrapInt 12 off) = off := by
      rw [show src.code * 2 ^ 17 + optFlag flag * 2 ^ 12 + wrapInt 12 off = (src.code * 2 ^ 5 + optFlag flag) * 2 ^ 12 + wrapInt 12 off by omega]
      exact sext_wrap (by decide) h.2 _
    have em : (BitVec.ofNat 4 (b2n self * 8 + axis.toNat * 2 + b2n flag.isSome)).toNat = b2n self * 8 + axis.toNat * 2 + b2n flag.isSome := ofNat4_toNat (by omega)
    have e2 : bitAt (b2n self * 8 + axis.toNat * 2 + b2n flag.isSome) 0 = flag.isSome := bitAt_b2n (by omega)
    have e3 : BitVec.ofNat 2 (bitsAt (b2n self * 8 + axis.toNat * 2 + b2n flag.isSome) 1 2) = axis := ofNat_eq (by unfold bitsAt; omega)
    have e4 : bitAt (b2n self * 8 + axis.toNat * 2 + b2n flag.isSome) 3 = self := bitAt_b2n (by omega)
    simp only [LWord.read, src_op, src_ty, src_mod, src_base, src_fld _ _ _ _ hf, ElemTy.ofCode_code, em, e1, e2, e3, e4, e8, e9, flag_back]
    rfl)

theorem Encoding.nts (ty : ElemTy) (src : RegRef) (entry piece : BitVec 6) (slot base : BitVec 5) : Encoding.Statement (.nts ty src entry piece slot base) :=
  enc_l rfl rfl rfl (by simp [lwordN]) (fun _ => by
    have hc := RegRef.code_lt src
    have hen := entry.isLt
    have hp := piece.isLt
    have hs := slot.isLt
    have hf : src.code * 2 ^ 17 + entry.toNat * 2 ^ 11 + piece.toNat * 2 ^ 5 + slot.toNat < 2 ^ 30 := by omega
    have h17 : entry.toNat * 2 ^ 11 + piece.toNat * 2 ^ 5 + slot.toNat < 2 ^ 17 := by clear hf hc; omega
    have e1 : BitVec.ofNat 6 (bitsAt (src.code * 2 ^ 17 + entry.toNat * 2 ^ 11 + piece.toNat * 2 ^ 5 + slot.toNat) 11 6) = entry := ofNat_eq (by unfold bitsAt; omega)
    have e2 : BitVec.ofNat 6 (bitsAt (src.code * 2 ^ 17 + entry.toNat * 2 ^ 11 + piece.toNat * 2 ^ 5 + slot.toNat) 5 6) = piece := ofNat_eq (by unfold bitsAt; omega)
    have e3 : BitVec.ofNat 5 (bitsAt (src.code * 2 ^ 17 + entry.toNat * 2 ^ 11 + piece.toNat * 2 ^ 5 + slot.toNat) 0 5) = slot := ofNat_eq (by unfold bitsAt; omega)
    have e8 : RegRef.ofCode (bitsAt (src.code * 2 ^ 17 + entry.toNat * 2 ^ 11 + piece.toNat * 2 ^ 5 + slot.toNat) 17 13) = src :=
      (congrArg (fun n => RegRef.ofCode (bitsAt n 17 13)) (show src.code * 2 ^ 17 + entry.toNat * 2 ^ 11 + piece.toNat * 2 ^ 5 + slot.toNat = src.code * 2 ^ 17 + (entry.toNat * 2 ^ 11 + piece.toNat * 2 ^ 5 + slot.toNat) by simp only [Nat.add_assoc])).trans
        (src_back (s := src) (r := entry.toNat * 2 ^ 11 + piece.toNat * 2 ^ 5 + slot.toNat) h17)
    simp only [LWord.read, src_op, src_ty, src_mod, src_base, src_fld _ _ _ _ hf, ElemTy.ofCode_code, e1, e2, e3, e8]
    rfl)

theorem Encoding.ncb (ty : ElemTy) (src : RegRef) (entry piece : BitVec 6) (base : BitVec 5) : Encoding.Statement (.ncb ty src entry piece base) :=
  enc_l rfl rfl rfl (by simp [lwordN]) (fun _ => by
    have hc := RegRef.code_lt src
    have hen := entry.isLt
    have hp := piece.isLt
    have hf : src.code * 2 ^ 17 + entry.toNat * 2 ^ 11 + piece.toNat * 2 ^ 5 < 2 ^ 30 := by omega
    have h17 : entry.toNat * 2 ^ 11 + piece.toNat * 2 ^ 5 < 2 ^ 17 := by clear hf hc; omega
    have e1 : BitVec.ofNat 6 (bitsAt (src.code * 2 ^ 17 + entry.toNat * 2 ^ 11 + piece.toNat * 2 ^ 5) 11 6) = entry := ofNat_eq (by unfold bitsAt; omega)
    have e2 : BitVec.ofNat 6 (bitsAt (src.code * 2 ^ 17 + entry.toNat * 2 ^ 11 + piece.toNat * 2 ^ 5) 5 6) = piece := ofNat_eq (by unfold bitsAt; omega)
    have e8 : RegRef.ofCode (bitsAt (src.code * 2 ^ 17 + entry.toNat * 2 ^ 11 + piece.toNat * 2 ^ 5) 17 13) = src :=
      (congrArg (fun n => RegRef.ofCode (bitsAt n 17 13)) (show src.code * 2 ^ 17 + entry.toNat * 2 ^ 11 + piece.toNat * 2 ^ 5 = src.code * 2 ^ 17 + (entry.toNat * 2 ^ 11 + piece.toNat * 2 ^ 5) by simp only [Nat.add_assoc])).trans
        (src_back (s := src) (r := entry.toNat * 2 ^ 11 + piece.toNat * 2 ^ 5) h17)
    simp only [LWord.read, src_op, src_ty, src_mod, src_base, src_fld _ _ _ _ hf, ElemTy.ofCode_code, e1, e2, e8]
    rfl)

theorem Encoding.pld (ty : ElemTy) (dst : RegRef) (base : BitVec 5) (demand : BitVec 12) (desc : BitVec 5) (off : Int) : Encoding.Statement (.pld ty dst base demand desc off) :=
  enc_l rfl rfl rfl (by simp [lwordD]) (fun h => by
    simp only [Instr.wf, Bool.and_eq_true] at h
    have hd := demand.isLt
    have hp := desc.isLt
    have ho := wrapInt_lt (n := 13) off
    have hf : demand.toNat * 2 ^ 18 + desc.toNat * 2 ^ 13 + wrapInt 13 off < 2 ^ 30 := by omega
    have e1 : BitVec.ofNat 12 (bitsAt (demand.toNat * 2 ^ 18 + desc.toNat * 2 ^ 13 + wrapInt 13 off) 18 12) = demand := ofNat_eq (by unfold bitsAt; omega)
    have e2 : BitVec.ofNat 5 (bitsAt (demand.toNat * 2 ^ 18 + desc.toNat * 2 ^ 13 + wrapInt 13 off) 13 5) = desc := ofNat_eq (by unfold bitsAt; omega)
    have e9 : sextNat 13 (demand.toNat * 2 ^ 18 + desc.toNat * 2 ^ 13 + wrapInt 13 off) = off := by
      rw [show demand.toNat * 2 ^ 18 + desc.toNat * 2 ^ 13 + wrapInt 13 off = (demand.toNat * 2 ^ 5 + desc.toNat) * 2 ^ 13 + wrapInt 13 off by omega]
      exact sext_wrap (by decide) h.2 _
    simp only [LWord.read, dst_op, dst_ty, dst_mod, dst_base, lwordD_dreg, dst_fld _ _ _ _ _ hf, ElemTy.ofCode_code, e1, e2, e9]
    rfl)

theorem Encoding.pst (ty : ElemTy) (acc : Bool) (src : RegRef) (base desc : BitVec 5) (off : Int) : Encoding.Statement (.pst ty acc src base desc off) :=
  enc_l rfl rfl rfl (by simp [lwordN]) (fun h => by
    simp only [Instr.wf, Bool.and_eq_true] at h
    have hc := RegRef.code_lt src
    have hp := desc.isLt
    have ho := wrapInt_lt (n := 12) off
    have hb := b2n_lt acc
    have hf : src.code * 2 ^ 17 + desc.toNat * 2 ^ 12 + wrapInt 12 off < 2 ^ 30 := by omega
    have h17 : desc.toNat * 2 ^ 12 + wrapInt 12 off < 2 ^ 17 := by clear hf hc; omega
    have e1 : BitVec.ofNat 5 (bitsAt (src.code * 2 ^ 17 + desc.toNat * 2 ^ 12 + wrapInt 12 off) 12 5) = desc := ofNat_eq (by unfold bitsAt; omega)
    have e2 : bitAt (BitVec.ofNat 4 (b2n acc)).toNat 0 = acc := bitAt_b2n (by rw [ofNat4_toNat (by omega)]; omega)
    have e8 : RegRef.ofCode (bitsAt (src.code * 2 ^ 17 + desc.toNat * 2 ^ 12 + wrapInt 12 off) 17 13) = src :=
      (congrArg (fun n => RegRef.ofCode (bitsAt n 17 13)) (show src.code * 2 ^ 17 + desc.toNat * 2 ^ 12 + wrapInt 12 off = src.code * 2 ^ 17 + (desc.toNat * 2 ^ 12 + wrapInt 12 off) by simp only [Nat.add_assoc])).trans
        (src_back (s := src) (r := desc.toNat * 2 ^ 12 + wrapInt 12 off) h17)
    have e9 : sextNat 12 (src.code * 2 ^ 17 + desc.toNat * 2 ^ 12 + wrapInt 12 off) = off := by
      rw [show src.code * 2 ^ 17 + desc.toNat * 2 ^ 12 + wrapInt 12 off = (src.code * 2 ^ 5 + desc.toNat) * 2 ^ 12 + wrapInt 12 off by omega]
      exact sext_wrap (by decide) h.1.2 _
    simp only [LWord.read, src_op, src_ty, src_mod, src_base, src_fld _ _ _ _ hf, ElemTy.ofCode_code, e1, e2, e8, e9]
    rfl)

theorem Encoding.tcfg (e : TSlot) (dA dB : BitVec 3) : Encoding.Statement (.tcfg e dA dB) :=
  enc_t rfl rfl rfl rfl (by simp [tword]) (fun _ => by
    have hm : 0 < 256 := by omega
    have hf : 0 < 2 ^ 33 := by omega
    simp only [TWord.read, tw_op, tw_tile, tw_dA, tw_dB, tile_back, desc_back, pair_back, set_back, tw_mod _ _ _ _ _ _ hm, tw_count _ _ _ _ _ _ hf]
    rfl)

theorem Encoding.tdrain (e : TSlot) (dA : BitVec 3) : Encoding.Statement (.tdrain e dA) :=
  enc_t rfl rfl rfl rfl (by simp [tword]) (fun _ => by
    have hm : 0 < 256 := by omega
    have hf : 0 < 2 ^ 33 := by omega
    simp only [TWord.read, tw_op, tw_tile, tw_dA, tw_dB, tile_back, desc_back, pair_back, set_back, tw_mod _ _ _ _ _ _ hm, tw_count _ _ _ _ _ _ hf]
    rfl)

theorem Encoding.tzero (e : TSlot) (t : BitVec 2) : Encoding.Statement (.tzero e t) :=
  enc_t rfl rfl rfl rfl (by simp [tword]) (fun _ => by
    have hm : 0 < 256 := by omega
    have hf : 0 < 2 ^ 33 := by omega
    simp only [TWord.read, tw_op, tw_tile, tw_dA, tw_dB, tile_back, desc_back, pair_back, set_back, tw_mod _ _ _ _ _ _ hm, tw_count _ _ _ _ _ _ hf]
    rfl)

theorem Encoding.tmma (adv : Bool) (e : TSlot) (t : BitVec 2) (dA dB : BitVec 3) (k : BitVec 33) : Encoding.Statement (.tmma adv e t dA dB k) :=
  enc_t rfl rfl rfl rfl (by simp [tword]) (fun _ => by
    have ha := b2n_lt adv
    have hk := k.isLt
    have hm : b2n adv < 256 := by omega
    have hf : k.toNat < 2 ^ 33 := by omega
    have e1 : bitAt (b2n adv) 0 = adv := bitAt_b2n (by omega)
    simp only [TWord.read, tw_op, tw_tile, tw_dA, tw_dB, tile_back, desc_back, pair_back, set_back, tw_mod _ _ _ _ _ _ hm, tw_count _ _ _ _ _ _ hf, tw_countB, e1]
    rfl)

theorem Encoding.taff (ident off : Bool) (e : TSlot) (pair : BitVec 1) : Encoding.Statement (.taff ident off e pair) :=
  enc_t rfl rfl rfl rfl (by simp [tword]) (fun _ => by
    have ha := b2n_lt ident
    have hb := b2n_lt off
    have hm : b2n off * 2 + b2n ident < 256 := by omega
    have hf : 0 < 2 ^ 33 := by omega
    have e1 : bitAt (b2n off * 2 + b2n ident) 0 = ident := bitAt_b2n (by omega)
    have e2 : bitAt (b2n off * 2 + b2n ident) 1 = off := bitAt_b2n (by omega)
    simp only [TWord.read, tw_op, tw_tile, tw_dA, tw_dB, tile_back, desc_back, pair_back, set_back, tw_mod _ _ _ _ _ _ hm, tw_count _ _ _ _ _ _ hf, e1, e2]
    rfl)

theorem Encoding.tscan (carry : Bool) (e : TSlot) (pair set : BitVec 1) (n : BitVec 7) : Encoding.Statement (.tscan carry e pair set n) :=
  enc_t rfl rfl rfl rfl (by simp [tword]) (fun _ => by
    have ha := b2n_lt carry
    have hn := n.isLt
    have hm : b2n carry < 256 := by omega
    have hf : n.toNat < 2 ^ 33 := by omega
    have e1 : bitAt (b2n carry) 0 = carry := bitAt_b2n (by omega)
    have e2 : BitVec.ofNat 7 n.toNat = n := ofNat_eq rfl
    simp only [TWord.read, tw_op, tw_tile, tw_dA, tw_dB, tile_back, desc_back, pair_back, set_back, tw_mod _ _ _ _ _ _ hm, tw_count _ _ _ _ _ _ hf, e1, e2]
    rfl)

theorem Encoding.tcarry (op : TCarryOp) (w : Bool) (e : TSlot) (t : BitVec 2) (set : BitVec 1) (reg : BitVec 10) : Encoding.Statement (.tcarry op w e t set reg) :=
  enc_t rfl rfl rfl rfl (by simp [tword]) (fun _ => by
    have ha := b2n_lt w
    have hb := tcarryop_lt op
    have h1 := reg.isLt
    have hm : op.code * 2 + b2n w < 256 := by omega
    have hf : reg.toNat < 2 ^ 33 := by omega
    have e1 : bitAt (op.code * 2 + b2n w) 0 = w := bitAt_b2n (by omega)
    have e2 : bitsAt (op.code * 2 + b2n w) 1 2 = op.code := by unfold bitsAt; omega
    have e5 : BitVec.ofNat 10 (bitsAt reg.toNat 0 10) = reg := ofNat_eq (by unfold bitsAt; omega)
    simp only [TWord.read, tw_op, tw_tile, tw_dA, tw_dB, tile_back, desc_back, pair_back, set_back, tw_mod _ _ _ _ _ _ hm, tw_count _ _ _ _ _ _ hf, e1, e2, e5, TCarryOp.ofCode_code]
    rfl)

theorem Encoding.trd (retire w : Bool) (e : TSlot) (t : BitVec 2) (reg : BitVec 10) (row0 n1 : BitVec 6) : Encoding.Statement (.trd retire w e t reg row0 n1) :=
  enc_t rfl rfl rfl rfl (by simp [tword]) (fun _ => by
    have ha := b2n_lt w
    have hb := b2n_lt retire
    have h1 := reg.isLt
    have h2 := row0.isLt
    have h3 := n1.isLt
    have hm : b2n retire * 128 + b2n w < 256 := by omega
    have hf : regRows reg row0 n1 < 2 ^ 33 := by unfold regRows; omega
    have e5 : BitVec.ofNat 10 (bitsAt (regRows reg row0 n1) 0 10) = reg := ofNat_eq (by unfold bitsAt regRows; omega)
    have e6 : BitVec.ofNat 6 (bitsAt (regRows reg row0 n1) 10 6) = row0 := ofNat_eq (by unfold bitsAt regRows; omega)
    have e7 : BitVec.ofNat 6 (bitsAt (regRows reg row0 n1) 16 6) = n1 := ofNat_eq (by unfold bitsAt regRows; omega)
    have e1 : bitAt (b2n retire * 128 + b2n w) 0 = w := bitAt_b2n (by omega)
    have e2 : bitAt (b2n retire * 128 + b2n w) 7 = retire := bitAt_b2n (by omega)
    simp only [TWord.read, tw_op, tw_tile, tw_dA, tw_dB, tile_back, desc_back, pair_back, set_back, tw_mod _ _ _ _ _ _ hm, tw_count _ _ _ _ _ _ hf, e1, e2, e5, e6, e7]
    rfl)

theorem Encoding.twr (w : Bool) (e : TSlot) (t : BitVec 2) (reg : BitVec 10) (row0 n1 : BitVec 6) : Encoding.Statement (.twr w e t reg row0 n1) :=
  enc_t rfl rfl rfl rfl (by simp [tword]) (fun _ => by
    have ha := b2n_lt w
    have h1 := reg.isLt
    have h2 := row0.isLt
    have h3 := n1.isLt
    have hm : b2n w < 256 := by omega
    have hf : regRows reg row0 n1 < 2 ^ 33 := by unfold regRows; omega
    have e5 : BitVec.ofNat 10 (bitsAt (regRows reg row0 n1) 0 10) = reg := ofNat_eq (by unfold bitsAt regRows; omega)
    have e6 : BitVec.ofNat 6 (bitsAt (regRows reg row0 n1) 10 6) = row0 := ofNat_eq (by unfold bitsAt regRows; omega)
    have e7 : BitVec.ofNat 6 (bitsAt (regRows reg row0 n1) 16 6) = n1 := ofNat_eq (by unfold bitsAt regRows; omega)
    have e1 : bitAt (b2n w) 0 = w := bitAt_b2n (by omega)
    simp only [TWord.read, tw_op, tw_tile, tw_dA, tw_dB, tile_back, desc_back, pair_back, set_back, tw_mod _ _ _ _ _ _ hm, tw_count _ _ _ _ _ _ hf, e1, e5, e6, e7]
    rfl)

theorem Encoding.tld (e : TSlot) (t : BitVec 2) (dA : BitVec 3) : Encoding.Statement (.tld e t dA) :=
  enc_t rfl rfl rfl rfl (by simp [tword]) (fun _ => by
    have hm : 0 < 256 := by omega
    have hf : 0 < 2 ^ 33 := by omega
    simp only [TWord.read, tw_op, tw_tile, tw_dA, tw_dB, tile_back, desc_back, pair_back, set_back, tw_mod _ _ _ _ _ _ hm, tw_count _ _ _ _ _ _ hf]
    rfl)

theorem Encoding.tst (retire : Bool) (e : TSlot) (t : BitVec 2) (dA : BitVec 3) : Encoding.Statement (.tst retire e t dA) :=
  enc_t rfl rfl rfl rfl (by simp [tword]) (fun _ => by
    have ha := b2n_lt retire
    have hm : b2n retire * 128 < 256 := by omega
    have hf : 0 < 2 ^ 33 := by omega
    have e1 : bitAt (b2n retire * 128) 7 = retire := bitAt_b2n (by omega)
    simp only [TWord.read, tw_op, tw_tile, tw_dA, tw_dB, tile_back, desc_back, pair_back, set_back, tw_mod _ _ _ _ _ _ hm, tw_count _ _ _ _ _ _ hf, e1]
    rfl)

theorem Encoding.tred (op : TRedOp) (cols w : Bool) (e : TSlot) (t : BitVec 2) (reg : BitVec 10) : Encoding.Statement (.tred op cols w e t reg) :=
  enc_t rfl rfl rfl rfl (by simp [tword]) (fun _ => by
    have ha := b2n_lt w
    have hb := b2n_lt cols
    have hc := tredop_lt op
    have h1 := reg.isLt
    have hm : b2n cols * 8 + op.code * 2 + b2n w < 256 := by omega
    have hf : reg.toNat < 2 ^ 33 := by omega
    have e1 : bitAt (b2n cols * 8 + op.code * 2 + b2n w) 0 = w := bitAt_b2n (by omega)
    have e2 : bitsAt (b2n cols * 8 + op.code * 2 + b2n w) 1 2 = op.code := by unfold bitsAt; omega
    have e3 : bitAt (b2n cols * 8 + op.code * 2 + b2n w) 3 = cols := bitAt_b2n (by omega)
    have e5 : BitVec.ofNat 10 (bitsAt reg.toNat 0 10) = reg := ofNat_eq (by unfold bitsAt; omega)
    simp only [TWord.read, tw_op, tw_tile, tw_dA, tw_dB, tile_back, desc_back, pair_back, set_back, tw_mod _ _ _ _ _ _ hm, tw_count _ _ _ _ _ _ hf, e1, e2, e3, e5, TRedOp.ofCode_code]
    rfl)

theorem Encoding.tcomb (fold : Bool) (e : TSlot) (pair : BitVec 1) (n : BitVec 7) : Encoding.Statement (.tcomb fold e pair n) :=
  enc_t rfl rfl rfl rfl (by simp [tword]) (fun _ => by
    have ha := b2n_lt fold
    have hn := n.isLt
    have hm : b2n fold < 256 := by omega
    have hf : n.toNat < 2 ^ 33 := by omega
    have e1 : bitAt (b2n fold) 0 = fold := bitAt_b2n (by omega)
    have e2 : BitVec.ofNat 7 n.toNat = n := ofNat_eq rfl
    simp only [TWord.read, tw_op, tw_tile, tw_dA, tw_dB, tile_back, desc_back, pair_back, set_back, tw_mod _ _ _ _ _ _ hm, tw_count _ _ _ _ _ _ hf, e1, e2]
    rfl)

theorem Encoding.tres (hz clr : Bool) (e : TSlot) (t : BitVec 2) (dst : RegRef) : Encoding.Statement (.tres hz clr e t dst) :=
  enc_t rfl rfl rfl rfl (by simp [tword]) (fun _ => by
    have ha := b2n_lt clr
    have hb := b2n_lt hz
    have hc := rfile_lt dst.file
    have h1 := dst.idx.isLt
    have hm : b2n clr * 16 + b2n hz * 8 + dst.file.code < 256 := by omega
    have hf : dst.idx.toNat < 2 ^ 33 := by omega
    have e1 : bitAt (b2n clr * 16 + b2n hz * 8 + dst.file.code) 3 = hz := bitAt_b2n (by omega)
    have e2 : bitAt (b2n clr * 16 + b2n hz * 8 + dst.file.code) 4 = clr := bitAt_b2n (by omega)
    have e3 : bitsAt (b2n clr * 16 + b2n hz * 8 + dst.file.code) 0 3 = dst.file.code := by unfold bitsAt; omega
    have e5 : BitVec.ofNat 10 (bitsAt dst.idx.toNat 0 10) = dst.idx := ofNat_eq (by unfold bitsAt; omega)
    simp only [TWord.read, tw_op, tw_tile, tw_dA, tw_dB, tile_back, desc_back, pair_back, set_back, tw_mod _ _ _ _ _ _ hm, tw_count _ _ _ _ _ _ hf, e1, e2, e3, e5, RFile.ofCode_code]
    rfl)

theorem Encoding.tdesc (e : TSlot) (dA : BitVec 3) (src : TDescSrc) : Encoding.Statement (.tdesc e dA src) := by
  cases src with
  | const off =>
    refine enc_t rfl rfl rfl rfl (by simp [tword]) (fun _ => ?_)
    have h1 := off.isLt
    have hf : off.toNat < 2 ^ 33 := by omega
    have e1 : BitVec.ofNat 13 off.toNat = off := ofNat_eq rfl
    simp only [TWord.read, tw_op, tw_tile, tw_dA, tw_dB, tile_back, desc_back, pair_back, set_back, tw_mod _ _ _ _ _ _ (show 0 < 256 by decide), tw_count _ _ _ _ _ _ hf, e1]
    rfl
  | reg w i =>
    refine enc_t rfl rfl rfl rfl (by simp [tword]) (fun _ => ?_)
    have h1 := i.isLt
    have hw := b2n_lt w
    have hf : i.toNat < 2 ^ 33 := by omega
    have hm : b2n w * 4 + 1 < 256 := by omega
    have e1 : BitVec.ofNat 10 (bitsAt i.toNat 0 10) = i := ofNat_eq (by unfold bitsAt; omega)
    have e2 : bitAt (b2n w * 4 + 1) 0 = true := bitAt_b2n (b := true) (by show _ = 1; omega)
    have e3 : bitAt (b2n w * 4 + 1) 2 = w := bitAt_b2n (by omega)
    simp only [TWord.read, tw_op, tw_tile, tw_dA, tw_dB, tile_back, desc_back, pair_back, set_back, tw_mod _ _ _ _ _ _ hm, tw_count _ _ _ _ _ _ hf, e1, e2, e3]
    rfl

theorem Encoding.br (off : BitVec 30) : Encoding.Statement (.br off) :=
  enc_x rfl rfl rfl rfl rfl (by simp [xword]) (fun _ => by
    simp only [XWord.read, xword_op, xword_mod, xword_kd, xword_k1, xword_k2, xword_imm]
    rfl)

theorem Encoding.brc (neg : Bool) (g : BitVec 3) (off : BitVec 30) : Encoding.Statement (.brc neg g off) :=
  enc_x rfl rfl rfl rfl rfl (by simp [xword]) (fun _ => by
    have hg := g.isLt
    have hn := b2n_lt neg
    have em : (BitVec.ofNat 8 (b2n neg * 8 + g.toNat)).toNat = b2n neg * 8 + g.toNat := ofNat8_toNat (by omega)
    have e1 : bitAt (b2n neg * 8 + g.toNat) 3 = neg := bitAt_b2n (by omega)
    have e2 : BitVec.ofNat 3 (bitsAt (b2n neg * 8 + g.toNat) 0 3) = g := ofNat_eq (by unfold bitsAt; omega)
    simp only [XWord.read, xword_op, xword_mod, xword_kd, xword_k1, xword_k2, xword_imm, em, e1, e2]
    rfl)

theorem Encoding.jmp (base : BitVec 5) (off : BitVec 30) : Encoding.Statement (.jmp base off) :=
  enc_x rfl rfl rfl rfl rfl (by simp [xword]) (fun _ => by
    simp only [XWord.read, xword_op, xword_mod, xword_kd, xword_k1, xword_k2, xword_imm]
    rfl)

theorem Encoding.call (indirect : Bool) (link base : BitVec 5) (off : BitVec 30) : Encoding.Statement (.call indirect link base off) := by
  cases indirect
  · exact enc_x (f := xword 0x04 0 link base 0 off.toNat) rfl rfl rfl rfl rfl (by simp [xword]) (fun _ => by
      simp only [XWord.read, xword_op, xword_mod, xword_kd, xword_k1, xword_k2, xword_imm]
      rfl)
  · exact enc_x (f := xword 0x04 1 link base 0 off.toNat) rfl rfl rfl rfl rfl (by simp [xword]) (fun _ => by
      simp only [XWord.read, xword_op, xword_mod, xword_kd, xword_k1, xword_k2, xword_imm]
      rfl)

theorem Encoding.ret (link : BitVec 5) : Encoding.Statement (.ret link) :=
  enc_x rfl rfl rfl rfl rfl (by simp [xword]) (fun _ => by
    simp only [XWord.read, xword_op, xword_mod, xword_kd, xword_k1, xword_k2, xword_imm]
    rfl)

theorem Encoding.loop (level : BitVec 2) (count : Option (BitVec 5)) (off : BitVec 30) :
    Encoding.Statement (.loop level count off) := by
  have hl := level.isLt
  cases count with
  | none =>
    refine enc_x rfl rfl rfl rfl rfl (by simp [xword]) (fun _ => ?_)
    have em : (BitVec.ofNat 8 (4 + level.toNat)).toNat = 4 + level.toNat := ofNat8_toNat (by omega)
    have e1 : bitAt (4 + level.toNat) 2 = true := bitAt_b2n (b := true) (by show _ = 1; omega)
    have e2 : BitVec.ofNat 2 (bitsAt (4 + level.toNat) 0 2) = level := ofNat_eq (by unfold bitsAt; omega)
    simp only [XWord.read, xword_op, xword_mod, xword_kd, xword_k1, xword_k2, xword_imm, em, e1, e2]
    rfl
  | some k =>
    refine enc_x rfl rfl rfl rfl rfl (by simp [xword]) (fun _ => ?_)
    have em : (BitVec.ofNat 8 level.toNat).toNat = level.toNat := ofNat8_toNat (by omega)
    have e1 : bitAt level.toNat 2 = false := bitAt_b2n (b := false) (by show _ = 0; omega)
    have e2 : BitVec.ofNat 2 (bitsAt level.toNat 0 2) = level := ofNat_eq (by unfold bitsAt; omega)
    simp only [XWord.read, xword_op, xword_mod, xword_kd, xword_k1, xword_k2, xword_imm, em, e1, e2]
    rfl

theorem Encoding.end_ : Encoding.Statement .end_ := enc_x rfl rfl rfl rfl rfl (by decide) (fun _ => rfl)

theorem Encoding.yield : Encoding.Statement .yield := enc_x rfl rfl rfl rfl rfl (by decide) (fun _ => rfl)

theorem Encoding.cadd (rel : Bool) (scope : Scope) (ctr : BitVec 5) (amount : BitVec 5 ⊕ BitVec 30) :
    Encoding.Statement (.cadd rel scope ctr amount) := by
  cases amount with
  | inl k =>
    refine enc_x rfl rfl rfl rfl rfl (by simp [xword]) (fun _ => ?_)
    obtain ⟨e0, e1, e2⟩ := scope_bits0 rel scope
    simp only [XWord.read, xword_op, xword_mod, xword_kd, xword_k1, xword_k2, xword_imm, e0, e1, e2]
    rfl
  | inr i =>
    refine enc_x rfl rfl rfl rfl rfl (by simp [xword]) (fun _ => ?_)
    obtain ⟨e0, e1, e2⟩ := scope_bits rel scope (e := 1) (by decide)
    simp only [Nat.one_mul] at e0 e1 e2
    simp only [XWord.read, xword_op, xword_mod, xword_kd, xword_k1, xword_k2, xword_imm, e0, e1, e2]
    rfl

theorem Encoding.cwait (acq : Bool) (scope : Scope) (dst ctr tgt : BitVec 5) (timeout : BitVec 30) : Encoding.Statement (.cwait acq scope dst ctr tgt timeout) :=
  enc_x rfl rfl rfl rfl rfl (by simp [xword]) (fun _ => by
    obtain ⟨e0, e1, -⟩ := scope_bits0 acq scope
    simp only [XWord.read, xword_op, xword_mod, xword_kd, xword_k1, xword_k2, xword_imm, e0, e1]
    rfl)

theorem Encoding.ctest (acq : Bool) (scope : Scope) (g : BitVec 3) (ctr tgt : BitVec 5) : Encoding.Statement (.ctest acq scope g ctr tgt) :=
  enc_x rfl rfl rfl rfl rfl (by simp [xword]) (fun _ => by
    obtain ⟨e0, e1, -⟩ := scope_bits0 acq scope
    have e2 : BitVec.ofNat 3 (xword 0x0B (scopeMod acq scope) (BitVec.ofNat 5 g.toNat) ctr tgt 0).kd.toNat = g := ofNat_eq (by
      have := g.isLt
      simp only [xword, BitVec.toNat_ofNat]; omega)
    simp only [XWord.read, xword_op, xword_mod, xword_k1, xword_k2, xword_imm, e0, e1, e2]
    rfl)

theorem Encoding.cread (acq : Bool) (scope : Scope) (status : Bool) (dst ctr : BitVec 5) : Encoding.Statement (.cread acq scope status dst ctr) :=
  enc_x rfl rfl rfl rfl rfl (by simp [xword]) (fun _ => by
    obtain ⟨e0, e1, e2⟩ := scope_bits acq scope (b2n_lt status)
    simp only [XWord.read, xword_op, xword_mod, xword_kd, xword_k1, xword_k2, xword_imm, e0, e1, e2, b2n_beq]
    rfl)

theorem Encoding.fence (scope : Scope) : Encoding.Statement (.fence scope) :=
  enc_x rfl rfl rfl rfl rfl (by simp [xword]) (fun _ => by
    obtain ⟨e0, e1, -⟩ := scope_bits0 false scope
    simp only [XWord.read, xword_op, xword_mod, xword_kd, xword_k1, xword_k2, xword_imm, e0, e1]
    rfl)

theorem Encoding.drain (scope : Scope) (ctr tgt : BitVec 5) : Encoding.Statement (.drain scope ctr tgt) :=
  enc_x rfl rfl rfl rfl rfl (by simp [xword]) (fun _ => by
    obtain ⟨e0, e1, -⟩ := scope_bits0 false scope
    simp only [XWord.read, xword_op, xword_mod, xword_kd, xword_k1, xword_k2, xword_imm, e0, e1]
    rfl)

theorem Encoding.fork (rec arg : BitVec 5) : Encoding.Statement (.fork rec arg) :=
  enc_x rfl rfl rfl rfl rfl (by simp [xword]) (fun _ => by
    simp only [XWord.read, xword_op, xword_mod, xword_kd, xword_k1, xword_k2, xword_imm]
    rfl)

theorem Encoding.join (acq : Bool) (scope : Scope) (park : Bool) (ctr tgt : BitVec 5) : Encoding.Statement (.join acq scope park ctr tgt) :=
  enc_x rfl rfl rfl rfl rfl (by simp [xword]) (fun _ => by
    obtain ⟨e0, e1, e2⟩ := scope_bits acq scope (b2n_lt park)
    simp only [XWord.read, xword_op, xword_mod, xword_kd, xword_k1, xword_k2, xword_imm, e0, e1, e2, b2n_beq]
    rfl)

theorem Encoding.launch (dst pkt : BitVec 5) : Encoding.Statement (.launch dst pkt) :=
  enc_x rfl rfl rfl rfl rfl (by simp [xword]) (fun _ => by
    simp only [XWord.read, xword_op, xword_mod, xword_kd, xword_k1, xword_k2, xword_imm]
    rfl)

theorem Encoding.msend (rel : Bool) (len tgt src : BitVec 5) (off : BitVec 30) : Encoding.Statement (.msend rel len tgt src off) :=
  enc_x rfl rfl rfl rfl rfl (by simp [xword]) (fun _ => by
    have hr := b2n_lt rel
    have hl := len.isLt
    have em : (BitVec.ofNat 8 (b2n rel * 32 + len.toNat)).toNat = b2n rel * 32 + len.toNat := ofNat8_toNat (by omega)
    have e1 : bitAt (b2n rel * 32 + len.toNat) 5 = rel := bitAt_b2n (by omega)
    have e2 : BitVec.ofNat 5 (bitsAt (b2n rel * 32 + len.toNat) 0 5) = len := ofNat_eq (by unfold bitsAt; omega)
    simp only [XWord.read, xword_op, xword_mod, xword_kd, xword_k1, xword_k2, xword_imm, em, e1, e2]
    rfl)

theorem Encoding.ecopy (eng : BitVec 2) (f : EngArgs) : Encoding.Statement (.ecopy eng f) :=
  enc_x rfl rfl rfl rfl rfl (by simp [engWord, xword]) (fun _ => by
    obtain ⟨e0, e1, e2, e3⟩ := engine_bits f.bits eng.isLt
    have e4 : BitVec.ofNat 2 eng.toNat = eng := ofNat_eq rfl
    simp only [XWord.read, engWord, xword_op, xword_mod, xword_kd, xword_k1, xword_k2, xword_imm, e0, e1, e2, e3, e4]
    rfl)

theorem Encoding.efill (eng : BitVec 2) (f : EngArgs) : Encoding.Statement (.efill eng f) :=
  enc_x rfl rfl rfl rfl rfl (by simp [engWord, xword]) (fun _ => by
    obtain ⟨e0, e1, e2, e3⟩ := engine_bits f.bits eng.isLt
    have e4 : BitVec.ofNat 2 eng.toNat = eng := ofNat_eq rfl
    simp only [XWord.read, engWord, xword_op, xword_mod, xword_kd, xword_k1, xword_k2, xword_imm, e0, e1, e2, e3, e4]
    rfl)

theorem Encoding.econv (eng : BitVec 2) (f : EngArgs) : Encoding.Statement (.econv eng f) :=
  enc_x rfl rfl rfl rfl rfl (by simp [engWord, xword]) (fun _ => by
    obtain ⟨e0, e1, e2, e3⟩ := engine_bits f.bits eng.isLt
    have e4 : BitVec.ofNat 2 eng.toNat = eng := ofNat_eq rfl
    simp only [XWord.read, engWord, xword_op, xword_mod, xword_kd, xword_k1, xword_k2, xword_imm, e0, e1, e2, e3, e4]
    rfl)

theorem Encoding.egather (f : EngArgs) : Encoding.Statement (.egather f) :=
  enc_x rfl rfl rfl rfl rfl (by simp [engWord, xword]) (fun _ => by
    obtain ⟨e0, e1, e2, -⟩ := engine_bits f.bits (e := 0) (by decide)
    simp only [XWord.read, engWord, xword_op, xword_mod, xword_kd, xword_k1, xword_k2, xword_imm, e0, e1, e2]
    rfl)

theorem Encoding.escatter (f : EngArgs) : Encoding.Statement (.escatter f) :=
  enc_x rfl rfl rfl rfl rfl (by simp [engWord, xword]) (fun _ => by
    obtain ⟨e0, e1, e2, -⟩ := engine_bits f.bits (e := 0) (by decide)
    simp only [XWord.read, engWord, xword_op, xword_mod, xword_kd, xword_k1, xword_k2, xword_imm, e0, e1, e2]
    rfl)

theorem Encoding.ecoll (f : EngArgs) : Encoding.Statement (.ecoll f) :=
  enc_x rfl rfl rfl rfl rfl (by simp [engWord, xword]) (fun _ => by
    obtain ⟨e0, e1, e2, -⟩ := engine_bits f.bits (e := 0) (by decide)
    simp only [XWord.read, engWord, xword_op, xword_mod, xword_kd, xword_k1, xword_k2, xword_imm, e0, e1, e2]
    rfl)

theorem Encoding.eplane (f : EngArgs) : Encoding.Statement (.eplane f) :=
  enc_x rfl rfl rfl rfl rfl (by simp [engWord, xword]) (fun _ => by
    obtain ⟨e0, e1, e2, -⟩ := engine_bits f.bits (e := 0) (by decide)
    simp only [XWord.read, engWord, xword_op, xword_mod, xword_kd, xword_k1, xword_k2, xword_imm, e0, e1, e2]
    rfl)

theorem Encoding.estat (dst : BitVec 5) (e : BitVec 3) : Encoding.Statement (.estat dst e) :=
  enc_x rfl rfl rfl rfl rfl (by simp [xword]) (fun _ => by
    have e1 : BitVec.ofNat 3 (xword 0x1A 0 dst 0 0 e.toNat).imm.toNat = e := ofNat_wide (by decide) e
    simp only [XWord.read, xword_op, xword_mod, xword_kd, xword_k1, xword_k2, xword_imm, e1]
    rfl)

theorem Encoding.swap (ctr : Option (BitVec 5)) : Encoding.Statement (.swap ctr) := by
  cases ctr with
  | none => exact enc_x rfl rfl rfl rfl rfl (by decide) (fun _ => rfl)
  | some c => exact enc_x rfl rfl rfl rfl rfl (by simp [xword]) (fun _ => by
      simp only [XWord.read, xword_op, xword_mod, xword_kd, xword_k1, xword_k2, xword_imm]
      rfl)

theorem Encoding.sqnew (dst rec : BitVec 5) : Encoding.Statement (.sqnew dst rec) :=
  enc_x rfl rfl rfl rfl rfl (by simp [xword]) (fun _ => by
    simp only [XWord.read, xword_op, xword_mod, xword_kd, xword_k1, xword_k2, xword_imm]
    rfl)

theorem Encoding.sqfork (dst id rec : BitVec 5) : Encoding.Statement (.sqfork dst id rec) :=
  enc_x rfl rfl rfl rfl rfl (by simp [xword]) (fun _ => by
    simp only [XWord.read, xword_op, xword_mod, xword_kd, xword_k1, xword_k2, xword_imm]
    rfl)

theorem Encoding.sqfree (dst id : BitVec 5) : Encoding.Statement (.sqfree dst id) :=
  enc_x rfl rfl rfl rfl rfl (by simp [xword]) (fun _ => by
    simp only [XWord.read, xword_op, xword_mod, xword_kd, xword_k1, xword_k2, xword_imm]
    rfl)

theorem Encoding.sqtree (dst id rec : BitVec 5) : Encoding.Statement (.sqtree dst id rec) :=
  enc_x rfl rfl rfl rfl rfl (by simp [xword]) (fun _ => by
    simp only [XWord.read, xword_op, xword_mod, xword_kd, xword_k1, xword_k2, xword_imm]
    rfl)

theorem Encoding.sqacc (dst id tab : BitVec 5) : Encoding.Statement (.sqacc dst id tab) :=
  enc_x rfl rfl rfl rfl rfl (by simp [xword]) (fun _ => by
    simp only [XWord.read, xword_op, xword_mod, xword_kd, xword_k1, xword_k2, xword_imm]
    rfl)

theorem Encoding.sqrewind (dst id n : BitVec 5) : Encoding.Statement (.sqrewind dst id n) :=
  enc_x rfl rfl rfl rfl rfl (by simp [xword]) (fun _ => by
    simp only [XWord.read, xword_op, xword_mod, xword_kd, xword_k1, xword_k2, xword_imm]
    rfl)

theorem Encoding.sqpreempt (dst id : BitVec 5) : Encoding.Statement (.sqpreempt dst id) :=
  enc_x rfl rfl rfl rfl rfl (by simp [xword]) (fun _ => by
    simp only [XWord.read, xword_op, xword_mod, xword_kd, xword_k1, xword_k2, xword_imm]
    rfl)

theorem Encoding.sqresume (dst id tab : BitVec 5) : Encoding.Statement (.sqresume dst id tab) :=
  enc_x rfl rfl rfl rfl rfl (by simp [xword]) (fun _ => by
    simp only [XWord.read, xword_op, xword_mod, xword_kd, xword_k1, xword_k2, xword_imm]
    rfl)

theorem Encoding.kvappend (dst id n : BitVec 5) : Encoding.Statement (.kvappend dst id n) :=
  enc_x rfl rfl rfl rfl rfl (by simp [xword]) (fun _ => by
    simp only [XWord.read, xword_op, xword_mod, xword_kd, xword_k1, xword_k2, xword_imm]
    rfl)

theorem Encoding.pdecl (dst desc : BitVec 5) : Encoding.Statement (.pdecl dst desc) :=
  enc_x rfl rfl rfl rfl rfl (by simp [xword]) (fun _ => by
    simp only [XWord.read, xword_op, xword_mod, xword_kd, xword_k1, xword_k2, xword_imm]
    rfl)

theorem Encoding.sqcommit (direct : Option (BitVec 5 × Option (BitVec 24))) (dst id : BitVec 5) :
    Encoding.Statement (.sqcommit direct dst id) := by
  rcases direct with _ | ⟨n, _ | t⟩
  · exact enc_x rfl rfl rfl rfl rfl (by simp [xword]) (fun _ => by
      simp only [XWord.read, xword_op, xword_mod, xword_kd, xword_k1, xword_k2, xword_imm]
      rfl)
  · exact enc_x rfl rfl rfl rfl rfl (by simp [xword]) (fun _ => by
      have e0 : bitAt (BitVec.ofNat 8 1).toNat 0 = true := by decide
      have e1 : bitAt (BitVec.ofNat 8 1).toNat 1 = false := by decide
      simp only [XWord.read, xword_op, xword_mod, xword_kd, xword_k1, xword_k2, xword_imm, e0, e1]
      rfl)
  · exact enc_x rfl rfl rfl rfl rfl (by simp [xword]) (fun _ => by
      have e1 : BitVec.ofNat 24 (xword 0x21 3 dst id n t.toNat).imm.toNat = t := ofNat_wide (by decide) t
      simp only [XWord.read, xword_op, xword_mod, xword_kd, xword_k1, xword_k2, xword_imm, e1]
      rfl)

theorem Encoding.sqstat (dst id sel : BitVec 5) : Encoding.Statement (.sqstat dst id sel) :=
  enc_x rfl rfl rfl rfl rfl (by simp [xword]) (fun _ => by
    have e1 : BitVec.ofNat 5 (xword 0x25 0 dst id 0 sel.toNat).imm.toNat = sel := ofNat_wide (by decide) sel
    simp only [XWord.read, xword_op, xword_mod, xword_kd, xword_k1, xword_k2, xword_imm, e1]
    rfl)

theorem Encoding.kvmap (slot : Bool) (kb : KvBind) (dst id x : BitVec 5) (layer : BitVec 16) :
    Encoding.Statement (.kvmap slot kb dst id x layer) :=
  enc_x rfl rfl rfl rfl rfl (by simp [xword]) (fun _ => by
    have hk := kvbind_lt kb
    have hs := b2n_lt slot
    have em : (BitVec.ofNat 8 (kb.code * 4 + b2n slot)).toNat = kb.code * 4 + b2n slot := ofNat8_toNat (by omega)
    have e1 : bitAt (kb.code * 4 + b2n slot) 0 = slot := bitAt_b2n (by omega)
    have e2 : bitsAt (kb.code * 4 + b2n slot) 2 2 = kb.code := by unfold bitsAt; omega
    have e3 : BitVec.ofNat 16 (xword 0x26 (kb.code * 4 + b2n slot) dst id x layer.toNat).imm.toNat = layer := ofNat_wide (by decide) layer
    simp only [XWord.read, xword_op, xword_mod, xword_kd, xword_k1, xword_k2, xword_imm, em, e1, e2, e3, KvBind.ofCode_code]
    rfl)

theorem Encoding.kvcompact (bits : EngBits) (dst id ctr : BitVec 5) (amount : BitVec 30) : Encoding.Statement (.kvcompact bits dst id ctr amount) :=
  enc_x rfl rfl rfl rfl rfl (by simp [xword]) (fun _ => by
    obtain ⟨e0, e1, e2, -⟩ := engine_bits bits (e := 0) (by decide)
    simp only [XWord.read, xword_op, xword_mod, xword_kd, xword_k1, xword_k2, xword_imm, e0, e1, e2]
    rfl)

theorem Encoding.kvrequant (bits : EngBits) (dst rec ctr : BitVec 5) (amount : BitVec 30) : Encoding.Statement (.kvrequant bits dst rec ctr amount) :=
  enc_x rfl rfl rfl rfl rfl (by simp [xword]) (fun _ => by
    obtain ⟨e0, e1, e2, -⟩ := engine_bits bits (e := 0) (by decide)
    simp only [XWord.read, xword_op, xword_mod, xword_kd, xword_k1, xword_k2, xword_imm, e0, e1, e2]
    rfl)

theorem Encoding.prel (drop : Bool) (desc : BitVec 5) : Encoding.Statement (.prel drop desc) := by
  cases drop <;> exact enc_x rfl rfl rfl rfl rfl (by simp [xword]) (fun _ => by
      simp only [XWord.read, b2n, xword_op, xword_mod, xword_kd, xword_k1, xword_k2, xword_imm]
      rfl)

theorem Encoding.pconv (dst desc : BitVec 5) (demand : BitVec 12) : Encoding.Statement (.pconv dst desc demand) :=
  enc_x rfl rfl rfl rfl rfl (by simp [xword]) (fun _ => by
    have e1 : BitVec.ofNat 12 (xword 0x2C 0 dst desc 0 demand.toNat).imm.toNat = demand := ofNat_wide (by decide) demand
    simp only [XWord.read, xword_op, xword_mod, xword_kd, xword_k1, xword_k2, xword_imm, e1]
    rfl)

theorem Encoding.pqry (dst desc : BitVec 5) (sel : BitVec 2) : Encoding.Statement (.pqry dst desc sel) :=
  enc_x rfl rfl rfl rfl rfl (by simp [xword]) (fun _ => by
    have e1 : BitVec.ofNat 2 (xword 0x2D 0 dst desc 0 sel.toNat).imm.toNat = sel := ofNat_wide (by decide) sel
    simp only [XWord.read, xword_op, xword_mod, xword_kd, xword_k1, xword_k2, xword_imm, e1]
    rfl)

theorem Encoding.csrr (dst : BitVec 5) (num : BitVec 12) : Encoding.Statement (.csrr dst num) :=
  enc_x rfl rfl rfl rfl rfl (by simp [xword]) (fun _ => by
    have e1 : BitVec.ofNat 12 (xword 0x2E 0 dst 0 0 num.toNat).imm.toNat = num := ofNat_wide (by decide) num
    simp only [XWord.read, xword_op, xword_mod, xword_kd, xword_k1, xword_k2, xword_imm, e1]
    rfl)

theorem Encoding.csrw (op : CsrOp) (src : BitVec 5) (num : BitVec 12) : Encoding.Statement (.csrw op src num) :=
  enc_x rfl rfl rfl rfl rfl (by simp [xword]) (fun _ => by
    have ho := csrop_lt op
    have em : (BitVec.ofNat 8 op.code).toNat = op.code := ofNat8_toNat (by omega)
    have e0 : bitsAt op.code 0 2 = op.code := by unfold bitsAt; omega
    have e1 : BitVec.ofNat 12 (xword 0x2F op.code 0 src 0 num.toNat).imm.toNat = num := ofNat_wide (by decide) num
    simp only [XWord.read, xword_op, xword_mod, xword_kd, xword_k1, xword_k2, xword_imm, em, e0, e1, CsrOp.ofCode_code]
    rfl)

theorem Encoding.trap (code : BitVec 30) : Encoding.Statement (.trap code) :=
  enc_x rfl rfl rfl rfl rfl (by simp [xword]) (fun _ => by
    simp only [XWord.read, xword_op, xword_mod, xword_kd, xword_k1, xword_k2, xword_imm]
    rfl)

theorem Encoding.bkpt (code : BitVec 30) : Encoding.Statement (.bkpt code) :=
  enc_x rfl rfl rfl rfl rfl (by simp [xword]) (fun _ => by
    simp only [XWord.read, xword_op, xword_mod, xword_kd, xword_k1, xword_k2, xword_imm]
    rfl)

theorem Encoding.eret (dest : Option (BitVec 5)) : Encoding.Statement (.eret dest) := by
  cases dest with
  | none => exact enc_x rfl rfl rfl rfl rfl (by decide) (fun _ => rfl)
  | some c => exact enc_x rfl rfl rfl rfl rfl (by simp [xword]) (fun _ => by
      simp only [XWord.read, xword_op, xword_mod, xword_kd, xword_k1, xword_k2, xword_imm]
      rfl)

theorem Encoding.watch (arm shut : Bool) (dst base len : BitVec 5) (entry : BitVec 3) :
    Encoding.Statement (.watch arm shut dst base len entry) :=
  enc_x rfl rfl rfl rfl rfl (by simp [xword]) (fun _ => by
    have ha := b2n_lt arm
    have hs := b2n_lt shut
    have em : (BitVec.ofNat 8 (b2n shut * 4 + b2n arm)).toNat = b2n shut * 4 + b2n arm := ofNat8_toNat (by omega)
    have e1 : bitAt (b2n shut * 4 + b2n arm) 0 = arm := bitAt_b2n (by omega)
    have e2 : bitAt (b2n shut * 4 + b2n arm) 2 = shut := bitAt_b2n (by omega)
    have e3 : BitVec.ofNat 3 (xword 0x32 (b2n shut * 4 + b2n arm) dst base len entry.toNat).imm.toNat = entry := ofNat_wide (by decide) entry
    simp only [XWord.read, xword_op, xword_mod, xword_kd, xword_k1, xword_k2, xword_imm, em, e1, e2, e3]
    rfl)

theorem Encoding.snap (tag : BitVec 16) : Encoding.Statement (.snap tag) :=
  enc_x rfl rfl rfl rfl rfl (by simp [xword]) (fun _ => by
    have e1 : BitVec.ofNat 16 (xword 0x33 0 0 0 0 tag.toNat).imm.toNat = tag := ofNat_wide (by decide) tag
    simp only [XWord.read, xword_op, xword_mod, xword_kd, xword_k1, xword_k2, xword_imm, e1]
    rfl)

theorem Encoding.creset (core ctr : BitVec 5) : Encoding.Statement (.creset core ctr) :=
  enc_x rfl rfl rfl rfl rfl (by simp [xword]) (fun _ => by
    simp only [XWord.read, xword_op, xword_mod, xword_kd, xword_k1, xword_k2, xword_imm]
    rfl)

/-! ### Steps of the machine, which no word names -/

theorem Encoding.nldRequest (die : Nat) (p : Packet) : Encoding.Statement (.nldRequest die p) := enc_none rfl

theorem Encoding.storePacket (die : Nat) (p : Packet) : Encoding.Statement (.storePacket die p) := enc_none rfl

theorem Encoding.natPacket (die : Nat) (p : Packet) : Encoding.Statement (.natPacket die p) := enc_none rfl

theorem Encoding.contributionPiece (die : Nat) (p : Packet) : Encoding.Statement (.contributionPiece die p) := enc_none rfl

theorem Encoding.collectiveTransfer (die : Nat) (p : Packet) : Encoding.Statement (.collectiveTransfer die p) := enc_none rfl

theorem Encoding.response (die : Nat) (p : Packet) : Encoding.Statement (.response die p) := enc_none rfl

theorem Encoding.acknowledgement (die : Nat) (p : Packet) : Encoding.Statement (.acknowledgement die p) := enc_none rfl

theorem Encoding.negativeAcknowledgement (die : Nat) (p : Packet) :
    Encoding.Statement (.negativeAcknowledgement die p) := enc_none rfl

theorem Encoding.issueSelection (core : Nat) : Encoding.Statement (.issueSelection core) := enc_none rfl

theorem Encoding.contextPromotion (ctx : Nat) : Encoding.Statement (.contextPromotion ctx) := enc_none rfl

theorem Encoding.yieldExpiry (ctx : Nat) : Encoding.Statement (.yieldExpiry ctx) := enc_none rfl

theorem Encoding.stallExpiry (ctx : Nat) : Encoding.Statement (.stallExpiry ctx) := enc_none rfl

theorem Encoding.fixedLatencyLanding (ctx : Nat) : Encoding.Statement (.fixedLatencyLanding ctx) := enc_none rfl

theorem Encoding.variableLatencyLanding (ctx n : Nat) : Encoding.Statement (.variableLatencyLanding ctx n) := enc_none rfl

theorem Encoding.outsideTrap (ctx : Nat) : Encoding.Statement (.outsideTrap ctx) := enc_none rfl

theorem Encoding.contextSave (ctx : Nat) (why : SaveWhy) : Encoding.Statement (.contextSave ctx why) := enc_none rfl

theorem Encoding.contextRestore (task ctx : Nat) : Encoding.Statement (.contextRestore task ctx) := enc_none rfl

theorem Encoding.preemptionRequest (ctx : Nat) : Encoding.Statement (.preemptionRequest ctx) := enc_none rfl

theorem Encoding.preemptionWithdrawn (ctx : Nat) : Encoding.Statement (.preemptionWithdrawn ctx) := enc_none rfl

theorem Encoding.taskRetire (ctx : Nat) : Encoding.Statement (.taskRetire ctx) := enc_none rfl

theorem Encoding.dequeStart (ctx : Nat) : Encoding.Statement (.dequeStart ctx) := enc_none rfl

theorem Encoding.parkedJoinRestore (task ctx : Nat) : Encoding.Statement (.parkedJoinRestore task ctx) := enc_none rfl

theorem Encoding.waitSatisfied (core ctr : Nat) : Encoding.Statement (.waitSatisfied core ctr) := enc_none rfl

theorem Encoding.sweepReread (core : Nat) : Encoding.Statement (.sweepReread core) := enc_none rfl

theorem Encoding.cwaitTimeout (ctx : Nat) : Encoding.Statement (.cwaitTimeout ctx) := enc_none rfl

theorem Encoding.drainSweep (ctx : Nat) : Encoding.Statement (.drainSweep ctx) := enc_none rfl

theorem Encoding.latheFetch (ctx q : Nat) : Encoding.Statement (.latheFetch ctx q) := enc_none rfl

theorem Encoding.tileOperationExecute (core : Nat) (e : TSlot) (residueFails : Nat) :
    Encoding.Statement (.tileOperationExecute core e residueFails) := enc_none rfl

theorem Encoding.engineShadowSwap (e : EngineId) : Encoding.Statement (.engineShadowSwap e) := enc_none rfl

theorem Encoding.engineCommandComplete (e : EngineId) : Encoding.Statement (.engineCommandComplete e) := enc_none rfl

theorem Encoding.atomPerform (ctx : Nat) : Encoding.Statement (.atomPerform ctx) := enc_none rfl

theorem Encoding.messageArrival (core n : Nat) : Encoding.Statement (.messageArrival core n) := enc_none rfl

theorem Encoding.messageHandlerStart (ctx : Nat) : Encoding.Statement (.messageHandlerStart ctx) := enc_none rfl

theorem Encoding.pageWalk (ctx : Nat) (va : Word) (write : Bool) : Encoding.Statement (.pageWalk ctx va write) := enc_none rfl

theorem Encoding.sysTlbinv (die : Nat) (rec : Word) : Encoding.Statement (.sysTlbinv die rec) := enc_none rfl

theorem Encoding.invalidationComplete (die n : Nat) : Encoding.Statement (.invalidationComplete die n) := enc_none rfl

theorem Encoding.watchpointReport (n : Nat) : Encoding.Statement (.watchpointReport n) := enc_none rfl

theorem Encoding.coreReset (core : Nat) (n : Nat) : Encoding.Statement (.coreReset core n) := enc_none rfl

theorem Encoding.packageColdReset : Encoding.Statement (.packageColdReset) := enc_none rfl

theorem Encoding.vaultConfigWrite (cl : Nat) (v : Word) : Encoding.Statement (.vaultConfigWrite cl v) := enc_none rfl

theorem Encoding.divisionChangeComplete (cl : Nat) : Encoding.Statement (.divisionChangeComplete cl) := enc_none rfl

theorem Encoding.reserveRegisterWrite (core : Nat) (v : Word) :
    Encoding.Statement (.reserveRegisterWrite core v) := enc_none rfl

theorem Encoding.spillOfferWithdrawal (core : Nat) (reserve : Bool) :
    Encoding.Statement (.spillOfferWithdrawal core reserve) := enc_none rfl

theorem Encoding.spareSubstitution (core : Nat) : Encoding.Statement (.spareSubstitution core) := enc_none rfl

theorem Encoding.coreDisable (core : Nat) : Encoding.Statement (.coreDisable core) := enc_none rfl

theorem Encoding.patrolScrub (pa : Nat) (corrected : Bool) : Encoding.Statement (.patrolScrub pa corrected) := enc_none rfl

theorem Encoding.postPackageRepair (pa : Nat) : Encoding.Statement (.postPackageRepair pa) := enc_none rfl

theorem Encoding.spareChannelMigration (die ch : Nat) : Encoding.Statement (.spareChannelMigration die ch) := enc_none rfl

theorem Encoding.packetRead (region : Nat) : Encoding.Statement (.packetRead region) := enc_none rfl

theorem Encoding.nodeEligible (n : Nat) : Encoding.Statement (.nodeEligible n) := enc_none rfl

theorem Encoding.taskPlacement (set ctx : Nat) : Encoding.Statement (.taskPlacement set ctx) := enc_none rfl

theorem Encoding.crewPlacement (set cl : Nat) (ctxs : List Nat) (window : Nat) :
    Encoding.Statement (.crewPlacement set cl ctxs window) := enc_none rfl

theorem Encoding.sharePreemption (ctx : Nat) : Encoding.Statement (.sharePreemption ctx) := enc_none rfl

theorem Encoding.savedTaskRestore (task ctx : Nat) : Encoding.Statement (.savedTaskRestore task ctx) := enc_none rfl

theorem Encoding.configLoaderLoad (die : Nat) : Encoding.Statement (.configLoaderLoad die) := enc_none rfl

theorem Encoding.planeFlip (core : Nat) : Encoding.Statement (.planeFlip core) := enc_none rfl

theorem Encoding.managementEplane (die : Nat) (rec ctr : Word) (amount : Nat) :
    Encoding.Statement (.managementEplane die rec ctr amount) := enc_none rfl

theorem Encoding.managementFlip (core : Nat) : Encoding.Statement (.managementFlip core) := enc_none rfl

theorem Encoding.kvcompactCopyDone (id : Nat) : Encoding.Statement (.kvcompactCopyDone id) := enc_none rfl

theorem Encoding.kvrequantSwitch (n : Nat) : Encoding.Statement (.kvrequantSwitch n) := enc_none rfl

theorem Encoding.followerApply (id : Nat) (m : FollowMsg) : Encoding.Statement (.followerApply id m) := enc_none rfl

theorem Encoding.deliveryFailure (id : Nat) : Encoding.Statement (.deliveryFailure id) := enc_none rfl

theorem Encoding.hostRdmaWrite (qp : Nat) (va : Word) (data : List Byte) :
    Encoding.Statement (.hostRdmaWrite qp va data) := enc_none rfl

theorem Encoding.hostRdmaRead (qp : Nat) (va : Word) (len : Nat) : Encoding.Statement (.hostRdmaRead qp va len) := enc_none rfl

theorem Encoding.hostFetchAndAdd (qp : Nat) (va : Word) (v : Word) :
    Encoding.Statement (.hostFetchAndAdd qp va v) := enc_none rfl

theorem Encoding.hostCompareAndSwap (qp : Nat) (va : Word) (c v : Word) :
    Encoding.Statement (.hostCompareAndSwap qp va c v) := enc_none rfl

theorem Encoding.linkGroupReceive (die : Nat) (g : FlitGroup) : Encoding.Statement (.linkGroupReceive die g) := enc_none rfl

theorem Encoding.groupReplay (die pkg : Nat) : Encoding.Statement (.groupReplay die pkg) := enc_none rfl

theorem Encoding.bundleDetour (die pkg : Nat) : Encoding.Statement (.bundleDetour die pkg) := enc_none rfl

theorem Encoding.keyRotation (die : Nat) (key : BundleKey) : Encoding.Statement (.keyRotation die key) := enc_none rfl

theorem Encoding.endToEndTimeout (die n : Nat) : Encoding.Statement (.endToEndTimeout die n) := enc_none rfl

theorem Encoding.timedSlotFold (die entry : Nat) : Encoding.Statement (.timedSlotFold die entry) := enc_none rfl

theorem Encoding.combinerTimeout (die entry : Nat) : Encoding.Statement (.combinerTimeout die entry) := enc_none rfl

theorem Encoding.ecollMatch (die : Nat) : Encoding.Statement (.ecollMatch die) := enc_none rfl

theorem Encoding.memberShardWrite (die n : Nat) : Encoding.Statement (.memberShardWrite die n) := enc_none rfl

theorem Encoding.memberConversionFailed (die n : Nat) : Encoding.Statement (.memberConversionFailed die n) := enc_none rfl

theorem Encoding.markMemberFailed (pkg die : Nat) : Encoding.Statement (.markMemberFailed pkg die) := enc_none rfl

theorem Encoding.ntsSlotBegins (die n : Nat) : Encoding.Statement (.ntsSlotBegins die n) := enc_none rfl

theorem Encoding.shutterFire (src : ShutSource) (tag : BitVec 16) (ctx : BitVec 16) :
    Encoding.Statement (.shutterFire src tag ctx) := enc_none rfl

theorem Encoding.contactSheetGatherEnd : Encoding.Statement (.contactSheetGatherEnd) := enc_none rfl

theorem Encoding.densitometerSample (n v : Nat) : Encoding.Statement (.densitometerSample n v) := enc_none rfl

theorem Encoding.densitometerClear (n : Nat) : Encoding.Statement (.densitometerClear n) := enc_none rfl

theorem Encoding.registerWrite (r : MgmtReg) (v : List Word) : Encoding.Statement (.registerWrite r v) := enc_none rfl

theorem Encoding.boot (ok : Bool) (code : Nat) : Encoding.Statement (.boot ok code) := enc_none rfl

theorem Encoding.attestationRequest (nonce : List Byte) : Encoding.Statement (.attestationRequest nonce) := enc_none rfl

theorem Encoding.clockThrottle (mhz : Nat) : Encoding.Statement (.clockThrottle mhz) := enc_none rfl

theorem Encoding.accessPerformed (ctx : Nat) : Encoding.Statement (.accessPerformed ctx) := enc_none rfl

theorem Encoding.uncorrectableError (t : ErrTarget) : Encoding.Statement (.uncorrectableError t) := enc_none rfl

theorem Encoding.laneReturn (die pkg : Nat) : Encoding.Statement (.laneReturn die pkg) := enc_none rfl

theorem Encoding.logicalTimeAdvance (ctx n : Nat) : Encoding.Statement (.logicalTimeAdvance ctx n) := enc_none rfl

theorem Encoding.rdmaAcknowledgement (id : Nat) : Encoding.Statement (.rdmaAcknowledgement id) := enc_none rfl

end Sys2Proof.Laws
end

