-- ==== Sys2Proof/Safety.lean ====
section
/-! DEFINITION. The terms of the statements: the canonical form of memory, runs, what a slot's part of a bundle reads, and what it
leaves to land, to be written at the end of its bundle, or to be performed. -/

namespace Sys2Proof

open Machine

/-- The canonical form of memory: addresses strictly rising, none listed that reads as an unlisted one. -/
abbrev Memory.wf (m : Map Byte) : Bool := Map.wf Config.resetByte m

/-- The registers of a context are held in the canonical form: none listed that reads as zero. -/
def filesCanonical (x : Ctx) : Prop :=
  Map.wf 0 x.a = true ∧ Map.wf 0 x.b = true ∧ Map.wf 0 x.v = true ∧ Map.wf 0 x.w = true ∧ Map.wf 0 x.p = true ∧
    Map.wf 0 x.k = true ∧ Map.wf 0 x.x = true ∧ Map.wf 0 x.y = true

/-- Memory, the contexts with their registers, and the cores are held in their canonical forms. -/
def canonical (s : State) : Prop :=
  Memory.wf s.mem = true ∧ Map.wf {} s.ctxs = true ∧ Map.wf {} s.cores = true ∧ ∀ p ∈ s.ctxs, filesCanonical p.2

/-- Bits in a register of a file (R64, R80). -/
def fileWidth (file : Nat) : Nat :=
  match file with | 2 => 2048 | 3 => 2048 | 6 => 256 | 7 => 256 | 8 => 1 | _ => 64

/-- A run of `n` steps that meets no fault and no refusal. -/
def runSteps : Nat → State → Option State
  | 0, s => some s
  | n + 1, s => match step s with
    | .next t => runSteps n t
    | _ => none

/-! ### What a slot reads -/

/-- A part of a slot's meaning gives `v` in state `s` and goes on in state `t`. -/
def Gives {α : Type} (m : M α) (s : State) (v : α) (t : State) : Prop := m.run s = .ok (v, t)

/-- An operand, or a check, of the slot being executed gives `v` in state `s` and changes nothing. -/
def Reads {α : Type} (m : M α) (s : State) (v : α) : Prop := Gives m s v s

/-- A part of a slot's meaning traps in state `s`. -/
def Traps {α : Type} (m : M α) (s : State) (cause : BitVec 8) (tval : Word) : Prop :=
  m.run s = .error (.trap false cause tval)

/-- The context that issues, and its number. -/
abbrev issuer (s : State) : Ctx := s.ctx s.issue.ctx

/-! ### What a slot leaves -/

/-- `s` with a value on its way to a register of the issuing context (R92): it lands `lat` context cycles later. -/
def landed (s : State) (file idx : Nat) (v : VecReg) (lat : Nat) : State :=
  s.updCtx s.issue.ctx (fun x =>
    { x with landing := x.landing ++ [{ count := lat, seq := s.issue.order, file := file, idx := idx, val := v }] })

/-- The same with a 64-bit value, zeros above it. -/
abbrev landed64 (s : State) (file idx : Nat) (v : Word) (lat : Nat) : State := landed s file idx (v.setWidth 2048) lat

/-- `s` with an action for the end of the bundle being issued. -/
def scheduled (s : State) (a : EndAct) : State := { s with issue := { s.issue with acts := s.issue.acts ++ [a] } }

/-- `s` with a scoreboarded result (R74) for registers of the issuing context, whose values and error tag may be known, and the
requests that it holds (R184). -/
def awaiting (s : State) (dests : List (Nat × Nat)) (vals : Option (List VecReg × Option (BitVec 8 × Word)))
    (lines : Nat := 0) : State :=
  s.updCtx s.issue.ctx (fun x => { x with pending := x.pending ++ [{
    seq := s.issue.order
    dests := dests
    ready := vals.isSome
    vals := match vals with | some (v, _) => v | none => []
    tag := match vals with | some (_, t) => t | none => none
    lines := lines }] })

/-- `s` with a memory access of the issuing context that is still to be performed at its home. -/
def posted (s : State) (p : Posted) : State := s.updCtx s.issue.ctx (fun x => { x with posted := x.posted ++ [p] })

/-- `s` with an atomic of the issuing context still to be performed, in its place among what its core sends (R284). -/
def postedNext (s : State) (seq : Nat) (k : PostKind) : State :=
  { posted s ⟨seq, (issuer s).interval, k, s.nextId⟩ with nextId := s.nextId + 1 }

/-- `s` after the issuing context has drawn `n` blocks of its stream (R38). -/
def drawn (s : State) (n : Nat) : State :=
  s.updCtx s.issue.ctx (fun x => { x with rctr := x.rctr + BitVec.ofNat 128 n })

/-- `s` with floating-point flags merged into sys.fflags of the issuing context (R41). -/
def flagged (s : State) (fl : Nat) : State :=
  if fl = 0 then s else s.updCtx s.issue.ctx (fun x => { x with fflags := x.fflags ||| BitVec.ofNat 64 fl })

/-- `s` with the interval of the issuing context advanced by a release (R254). -/
def released (s : State) : State := s.updCtx s.issue.ctx (fun x => { x with interval := x.interval + 1 })

/-- `s` after a load has given a value for a register (R73, R74): it lands after 8 context cycles when every byte lies in the
local aperture, and otherwise is a scoreboarded result that is known; `tag` is the error that a later use of it meets. -/
def loaded (s : State) (own : Bool) (file idx : Nat) (v : VecReg) (tag : Option (BitVec 8 × Word)) : State :=
  if own then s.updCtx s.issue.ctx (fun x =>
    { x with landing := x.landing ++ [{ count := 8, seq := s.issue.order, file := file, idx := idx, val := v, tag := tag }] })
  else awaiting s [(file, idx)] (some ([v], tag)) 1

/-- The byte that memory holds at a physical address. -/
abbrev byteAt (s : State) (pa : Nat) : Byte := Map.get Config.resetByte s.mem pa

/-- What memory holds once bytes have been written over translated spans, in ascending order. -/
def overSpans : List Span → List Byte → (Nat → Byte) → Nat → Byte
  | [], _, m => m
  | p :: ps, bs, m => overSpans ps (bs.drop p.len) (fun a => if p.pa ≤ a then ((bs.take p.len)[a - p.pa]?).getD (m a) else m a)

/-- The core has `n` outstanding requests free (R184). -/
abbrev requestsFree (s : State) (n : Nat) : Prop := n = 0 ∨ requestsHeld s (coreOf s.issue.ctx) + n ≤ 512

/-- From `t`, where the ranges of an access are translated, a load of several elements is delivered (R181, R185): read at issue
in the own scratchpad, or where it lies in one sector; else posted with its pieces, its requests held by the pending result. -/
def LoadsInto (rs : List (Nat × Nat)) (ps : List Span) (place : Nat → Nat) (rep : Option Word) (old : VecReg) (file idx : Nat)
    (t : State) (after : State → State) (out : Host.Outcome State Fault Refusal) : Prop :=
  let pieces := loadPieces place rep 0 ps
  let n := (sectorSet (pieces.map (·.pa))).length
  let own := inAperture rs
  let r := pieces.foldl (readPiece (t.issuerOf t.issue.ctx)) ((old, none), t)
  (own = true ∨ n ≤ 1 → own = true ∨ requestsFree t 1 →
    out = .next (after (loaded r.2 own file idx r.1.1 (errTag r.1.2)))) ∧
  (own = false → 1 < n → requestsFree t n →
    out = .next (after (posted (awaiting t [(file, idx)] none n)
      ⟨t.issue.order, (issuer t).interval, .load pieces old none t.issue.order, 0⟩)))

/-- `t` is `s` but for logical times: that of the issuing context, and those of the lines (R313). -/
def timesOnly (s t : State) : Prop :=
  t = { s.updCtx s.issue.ctx (fun x => { x with ltime := (t.ctx s.issue.ctx).ltime }) with lineTimes := t.lineTimes }

/-- A core's scratchpad serves the accesses of its contexts plainly: no reduction shadow is live, no granule is bad, and no
TST of the issuing context is unfinished. -/
def plainScratch (s : State) : Prop :=
  s.redShadow = [] ∧ s.bad = [] ∧
    (s.core (coreOf s.issue.ctx)).tq0 = [] ∧ (s.core (coreOf s.issue.ctx)).tq1 = [] ∧
    (s.core (coreOf s.issue.ctx)).held0 = [] ∧ (s.core (coreOf s.issue.ctx)).held1 = []

/-- `n` bytes at offset `o` of the local aperture lie in the scratchpad outside its spill reserve (R177, R178, R285). -/
def inScratch (s : State) (o n : Nat) : Prop :=
  o + n ≤ 2 ^ 20 ∧ ∀ i < n, inReserve s (coreOf s.issue.ctx) (o + i) = false

/-! ### Widths of the S slots -/

/-- A form with .w and .u (R114): on 32 bits the result of the low halves, sign-extended, with .u zero-extended; else on 64. -/
def atWidth (w u : Bool) (g : (n : Nat) → BitVec n → BitVec n → BitVec n) (a b : Word) : Word :=
  if w then
    if u then (g 32 (a.setWidth 32) (b.setWidth 32)).setWidth 64 else (g 32 (a.setWidth 32) (b.setWidth 32)).signExtend 64
  else g 64 a b

/-- An operand as a number: of 32 bits with .w, else of 64; unsigned with .u, else signed. -/
def numAt (w u : Bool) (a : Word) : Int :=
  if w then (if u then ((a.setWidth 32).toNat : Int) else (a.setWidth 32).toInt) else (if u then (a.toNat : Int) else a.toInt)

/-! ### Rounded results -/

/-- A scalar floating-point form ends by rounding `r` once to its format under sys.mode (R122): it draws one block when the
format is narrow outside compat mode, or under SR, and unless it raises an enabled flag it merges its flags and lands. -/
def SRounds (t : SFmt) (slot : SSlot) (dst : BitVec 6) (lat : Nat) (s : State) (r : RMode → FRes)
    (out : Host.Outcome State Fault Refusal) : Prop :=
  let x := issuer s
  let draws := x.rmode == .sr || (t != .fp32 && !x.compat)
  let d := (r x.rmode).deliver (SFmt.fmt t) x.rmode (if draws then streamWord x.rkey.toNat x.rctr.toNat 0 else 0) (!x.compat)
  Nat.land d.2 x.enables = 0 →
    out = .next (landed64 (flagged (if draws then drawn s 1 else s) d.2) (SSlot.file slot) dst.toNat (BitVec.ofNat 64 d.1) lat)

/-! ### Lanes of a vector result -/

/-- The destination of a form with a write mask (R148): its active lanes, and the value whose inactive lanes are kept. -/
def VDest (slot : VSlot) (mask : Option (BitVec 3)) (dst : BitVec 10) (s : State) (active : Nat → Bool) (old : VecReg) : Prop :=
  Reads (readActive slot mask) s active ∧ Reads (vecIndex dst.toNat) s () ∧
    (mask.isSome = true → Reads (readReg (VSlot.file slot) dst.toNat) s old)

/-- From `s`, a vector register lands whose `n` lanes of `w` bits are given, and nothing else happens. -/
def VLands (slot : VSlot) (w n : Nat) (dst : BitVec 10) (lat : Nat) (s : State) (lane : Nat → Nat)
    (out : Host.Outcome State Fault Refusal) : Prop :=
  ∃ v : VecReg, out = .next (landed s (VSlot.file slot) dst.toNat v lat) ∧ ∀ i < n, laneAt w v i = lane i

/-- A result per lane with its flags: unless an active lane raises an enabled flag, the flags of the active lanes are merged,
these lanes get their results and the others keep their value. -/
def VFlags (slot : VSlot) (ty : ElemTy) (dst : BitVec 10) (lat : Nat) (s : State) (active : Nat → Bool) (old : VecReg)
    (r : Nat → Nat × Nat) (out : Host.Outcome State Fault Refusal) : Prop :=
  let fl := orAll ((List.range ty.lanes).map (fun i => if active i then (r i).2 else 0))
  Nat.land fl (issuer s).enables = 0 → VLands slot ty.width ty.lanes dst lat (flagged s fl)
    (fun i => if active i then (r i).1 % 2 ^ ty.width else laneAt ty.width old i) out

/-- A vector form ends by rounding `r` once in every active lane (R35, R38, R150): it draws for every lane of the result when
the format is narrow outside compat mode, or under SR. -/
def VRounds (slot : VSlot) (ty : ElemTy) (rnd : VRnd) (dst : BitVec 10) (lat : Nat) (s : State) (active : Nat → Bool)
    (old : VecReg) (r : RMode → Nat → FRes) (out : Host.Outcome State Fault Refusal) : Prop :=
  let x := issuer s
  let mode := vMode x rnd
  let draws := mode == .sr || (ty != .fp32 && !x.compat)
  VFlags slot ty dst lat (if draws then drawn s (ty.lanes / 4) else s) active old (fun i =>
    (r mode i).deliver (fmtD ty) mode (if draws then streamWord x.rkey.toNat x.rctr.toNat i else 0) (!x.compat)) out

/-- A conversion between `ns` source and `nd` result lanes, part `h` (R164): with fewer result lanes it reads part h of the
source, with more it writes part h of the result; `r i l` is the result of lane i from source lane l. -/
def VPart (slot : VSlot) (w ns nd h : Nat) (dst : BitVec 10) (lat : Nat) (s : State) (active : Nat → Bool) (old : VecReg)
    (r : Nat → Nat → Nat × Nat) (out : Host.Outcome State Fault Refusal) : Prop :=
  let val (i : Nat) : Option (Nat × Nat) :=
    if active i = false then none
    else if nd < ns then some (r i (h * nd + i))
    else if h * ns ≤ i ∧ i < h * ns + ns then some (r i (i - h * ns)) else none
  let fl := orAll ((List.range nd).map (fun i => match val i with | some x => x.2 | none => 0))
  Nat.land fl (issuer s).enables = 0 → VLands slot w nd dst lat (flagged s fl)
    (fun i => match val i with | some x => x.1 % 2 ^ w | none => laneAt w old i) out

/-- From `s`, a mask register lands whose bits are given (R156, R158). -/
def MLands (slot : VSlot) (dst : Nat) (s : State) (bit : Nat → Bool) (out : Host.Outcome State Fault Refusal) : Prop :=
  ∃ m : MaskReg, out = .next (landed s (VSlot.maskFile slot) dst (m.setWidth 2048) 2) ∧ ∀ i < 256, m.getLsbD i = bit i

/-- The number that a lane holds, signed by its type. -/
def laneNum (ty : ElemTy) (v : VecReg) (i : Nat) : Int :=
  if ty.signed then (BitVec.ofNat ty.width (laneAt ty.width v i)).toInt else (laneAt ty.width v i : Int)

/-! ### Matrix engines -/

/-- `s` with an operation of the issuing context at the end of a matrix engine's queue (R215). -/
def queued (s : State) (e : TSlot) (kind : TKind) : State :=
  let c := s.issue.ctx
  let op : TOp :=
    { ctx := c
      tid := (s.ctx c).tid
      seq := s.issue.order
      space := (s.ctx c).region.space
      interval := (s.ctx c).interval
      compat := (s.ctx c).compat
      kind := kind }
  s.updCore (coreOf c) (fun k => k.setQueue e (k.queue e ++ [op]))

/-- The context owns the tiles that an operation names, and the engine has room for it (R215, R219). -/
def mayQueue (s : State) (e : TSlot) (tiles : List Nat) : Prop :=
  (∀ t ∈ tiles, (issuer s).tmask.getLsbD t = true) ∧ (s.core (coreOf s.issue.ctx)).engineFull e = false

/-- `s` with a pair's affine bit, as later operations will find it, set or cleared (R240). -/
def affineAt (s : State) (t : Nat) (on : Bool) : State :=
  s.updCore (coreOf s.issue.ctx) (fun k =>
    let b := BitVec.ofNat 4 (2 ^ (t / 2))
    { k with affineIssue := if on then k.affineIssue ||| b else k.affineIssue &&& ~~~b })

/-! ### Requests of the sequence manager -/

/-- The issuing context has no access still to be performed, of this or an earlier task. -/
abbrev nonePosted (s : State) : Prop := (issuer s).posted = [] ∧ ∀ l ∈ s.loose, l.ctx ≠ s.issue.ctx

/-- Nothing that the issuing context has issued is still to be performed, so a release can be made at once (R254). -/
abbrev quiet (s : State) : Prop := nonePosted s ∧ releasable s s.issue.ctx (s.issue.seq * 8) = true

/-- A request that was performed on `s` and left `t`: the cohorts that it concerns have their condition evaluated (R348), and its
result, if it is known, is on its way to a k register (R324). -/
def resultLands (s t : State) (id : Option Nat) (dst : BitVec 5) (w : Option Word) : State :=
  awaiting ((cohortsOf s t id).foldl moveCohort t) [(fK, dst.toNat)] (w.map (fun w => ([w.setWidth 2048], none)))

/-- The same of a request whose result is known. -/
abbrev replied (s t : State) (id : Option Nat) (dst : BitVec 5) (w : Word) : State := resultLands s t id dst (some w)

/-- A request may name this sequence (R326). -/
def mayName (s : State) (kid : Word) (q : Seq) : Prop :=
  kid.toNat < 2 ^ 15 ∧ Map.find? s.seqs kid.toNat = some q ∧ inSubtree q.region (issuer s).region = true

/-! ### Engine commands -/

/-- `s` with a command of the issuing context in the shadow of an engine (R269): with release its interval advances. -/
def accepted (s : State) (e : EngineId) (form : Nat) (bits : EngBits) (recVa : Word) (bs : List Byte) (ctr : Word)
    (amount : Nat) : State :=
  let c := s.issue.ctx
  let u := if bits.rel then released s else s
  let cmd : Cmd :=
    { form := form
      ctx := c
      tid := (s.ctx c).tid
      seq := s.issue.order
      region := (s.ctx c).region
      cmdRec := bs
      recVa := recVa
      bits := bits
      ctrVa := ctr
      amount := amount
      interval := (s.ctx c).interval
      recorded := (u.ctx c).interval
      core := some (coreOf c)
      order := s.nextId }
  countSent { setEngine u e (fun g => { g with shadow := some cmd }) with nextId := u.nextId + 1 } (coreOf c) (s.ctx c).region.space.asid

end Sys2Proof
end

