-- ==== Sys2Proof/Certificates/Slice0/Obligations.lean ====
section
/-! DEFINITION. The statements about the machine, in the order of the spec's parts: the scalar, vector and memory slots, the matrix
engines, control and tasks, sequences and placements, system registers and traps, the machine as a whole, and the events. -/

open Sys2Proof Sys2Proof.Machine

/-! ### The scalar slots -/

/-- R113: what each S operand specifier reads: a register of the slot's own file, the low half of a queue head, the
sign-extended literal of the word, and the header literal sign-extended, zero-extended and times 2^32 outside a template. -/
def Obligations.ScalarOperands : Prop :=
  ∀ (slot : SSlot) (s : State),
    (∀ i : BitVec 6, (issuer s).regError (SSlot.file slot) i.toNat = none →
      Reads (readS slot (.reg i)) s ((issuer s).scalar (SSlot.file slot) i.toNat)) ∧
    (∀ (i : BitVec 6) (c : BitVec 8) (t : Word), (issuer s).regError (SSlot.file slot) i.toNat = some (c, t) →
      Traps (readS slot (.reg i)) s c t) ∧
    (∀ (q : BitVec 3) (v : VecReg), Reads (readHead q) s v → Reads (readS slot (.head q)) s (v.extractLsb' 0 64)) ∧
    (∀ v : BitVec 26, Reads (readS slot (.lit v)) s (v.signExtend 64)) ∧
    (s.issue.kind ≠ 2 → Reads (readS slot .immS) s (s.issue.imm.signExtend 64) ∧
      Reads (readS slot .immZ) s (s.issue.imm.setWidth 64) ∧
      Reads (readS slot .immHi) s (s.issue.imm ++ (0 : BitVec 32)))

/-- R114, R117: ADD, SUB, MUL, MULH, AND, OR, XOR, ANDN, ADDR, SHL, SHR, SAR and ROT land, at their width and after their
latency, the result of their table on the slot's own file, and nothing else changes. -/
def Obligations.ScalarArithmetic : Prop :=
  (∀ (f : SBin) (s : State) (a b : Word), Reads (readS f.slot f.a) s a → Reads (readS f.slot f.b) s b →
    let out (g : (n : Nat) → BitVec n → BitVec n → BitVec n) (lat : Nat) : Host.Outcome State Fault Refusal :=
      .next (landed64 s (SSlot.file f.slot) f.dst.toNat (atWidth f.w f.u g a b) lat)
    exec (.add f) s = out (fun _ x y => x + y) 1 ∧ exec (.sub f) s = out (fun _ x y => x - y) 1 ∧
    exec (.mul f) s = out (fun _ x y => x * y) 3 ∧ exec (.and f) s = out (fun _ x y => x &&& y) 1 ∧
    exec (.or f) s = out (fun _ x y => x ||| y) 1 ∧ exec (.xor f) s = out (fun _ x y => x ^^^ y) 1 ∧
    exec (.andn f) s = out (fun _ x y => x &&& ~~~y) 1 ∧
    ∀ sh : BitVec 3, exec (.addr sh f) s =
      .next (landed64 s (SSlot.file f.slot) f.dst.toNat (a + b <<< sh.toNat) 1)) ∧
  (∀ (f : SBin) (s : State) (a b : Word), Reads (readS f.slot f.a) s a → Reads (readS f.slot f.b) s b →
    exec (.mulh f) s = .next (landed64 s (SSlot.file f.slot) f.dst.toNat (atWidth f.w f.u (fun n x y =>
      if f.u then BitVec.ofNat n (x.toNat * y.toNat / 2 ^ n) else BitVec.ofInt n (x.toInt * y.toInt / 2 ^ n)) a b) 3)) ∧
  (∀ (f : SBin) (s : State) (a b : Word), Reads (readS f.slot f.a) s a → Reads (readS f.slot f.b) s b →
    let out (g : (n : Nat) → BitVec n → BitVec n → BitVec n) : Host.Outcome State Fault Refusal :=
      .next (landed64 s (SSlot.file f.slot) f.dst.toNat (atWidth f.w f.u g a b) 1)
    exec (.shl f) s = out (fun n x y => x <<< (y.toNat % n)) ∧ exec (.shr f) s = out (fun n x y => x >>> (y.toNat % n)) ∧
    exec (.sar f) s = out (fun n x y => x.sshiftRight (y.toNat % n)) ∧
    exec (.rot f) s = out (fun n x y => x.rotateLeft (y.toNat % n)))

/-- R118: DIV rounds the quotient toward zero; REM returns A − B × DIV(A, B), which carries the sign of A; by zero DIV gives
all w bits one and REM gives A; the most negative number divided by −1 gives itself and remainder 0. The result follows R114. -/
def Obligations.DivideAndRemainder : Prop :=
  ∀ (f : SBin) (s : State) (x y : Word), Reads (readS f.slot f.a) s x → Reads (readS f.slot f.b) s y →
    let w := if f.w then 32 else 64
    let A : Int := numAt f.w f.u x
    let B : Int := numAt f.w f.u y
    let res (v : Int) : Word :=
      if f.w then (if f.u then (BitVec.ofInt 32 v).setWidth 64 else (BitVec.ofInt 32 v).signExtend 64) else BitVec.ofInt 64 v
    let out (v : Int) : Host.Outcome State Fault Refusal := .next (landed64 s (SSlot.file f.slot) f.dst.toNat (res v) 18)
    (B ≠ 0 → ∃ Q R : Int, exec (.div f) s = out Q ∧ exec (.rem f) s = out R ∧ R = A - B * Q ∧ R.natAbs < B.natAbs ∧
      Q.natAbs = A.natAbs / B.natAbs ∧ (0 < A → 0 ≤ R) ∧ (A < 0 → R ≤ 0)) ∧
    (B = 0 → exec (.div f) s = out (if f.u then 2 ^ w - 1 else -1) ∧ exec (.rem f) s = out A) ∧
    (f.u = false → A = -(2 ^ (w - 1)) → B = -1 → exec (.div f) s = out (-(2 ^ (w - 1))) ∧ exec (.rem f) s = out 0)

/-- R117, R119: MIN and MAX land the lesser and the greater operand, CMP a predicate of g, and SEL the operand that a predicate
chooses; nothing else changes. -/
def Obligations.ScalarCompare : Prop :=
  ∀ (f : SBin) (s : State) (a b : Word), Reads (readS f.slot f.a) s a → Reads (readS f.slot f.b) s b →
    let out (g : (n : Nat) → BitVec n → BitVec n → BitVec n) : Host.Outcome State Fault Refusal :=
      .next (landed64 s (SSlot.file f.slot) f.dst.toNat (atWidth f.w f.u g a b) 1)
    let le (n : Nat) (x y : BitVec n) : Bool := if f.u then x.ule y else x.sle y
    exec (.min f) s = out (fun n x y => if le n x y then x else y) ∧
    exec (.max f) s = out (fun n x y => if le n x y then y else x) ∧
    (∀ c : ICond, exec (.cmp c f) s = .next (landed s fG (f.dst.toNat % 8)
      (if (match c with
        | .eq => decide (numAt f.w f.u a = numAt f.w f.u b) | .ne => decide (numAt f.w f.u a ≠ numAt f.w f.u b)
        | .lt => decide (numAt f.w f.u a < numAt f.w f.u b) | .le => decide (numAt f.w f.u a ≤ numAt f.w f.u b)
        | .gt => decide (numAt f.w f.u b < numAt f.w f.u a) | .ge => decide (numAt f.w f.u b ≤ numAt f.w f.u a))
       then 1 else 0) 1)) ∧
    ∀ (g : BitVec 3) (neg : Bool), exec (.sel g neg f) s = .next (landed64 s (SSlot.file f.slot) f.dst.toNat
      (if ((issuer s).g.getLsbD g.toNat ^^ neg) then a else b) 1)

/-- R58, R117, R120, R121, R127: CLZ, CTZ, POPC, BFX and BFI; LI, MOV and XFER to each file; both forms of RAND, which advance
the stream by one block; and NOP of every slot, which changes nothing. -/
def Obligations.ScalarBits : Prop :=
  (∀ (f : SUn) (s : State) (a : Word), Reads (readS f.slot f.a) s a →
    let out (g : (n : Nat) → BitVec n → BitVec n) : Host.Outcome State Fault Refusal :=
      .next (landed64 s (SSlot.file f.slot) f.dst.toNat (atWidth f.w f.u (fun n x _ => g n x) a a) 1)
    exec (.clz f) s = out (fun _ x => x.clz) ∧ exec (.ctz f) s = out (fun _ x => x.ctz) ∧
    exec (.popc f) s = out (fun _ x => x.cpop) ∧
    ∀ pos len : BitVec 6, (Instr.bfx pos len f).wf = true →
      exec (.bfx pos len f) s = out (fun n x =>
        if f.u then (x.extractLsb' pos.toNat (len.toNat + 1)).setWidth n
        else (x.extractLsb' pos.toNat (len.toNat + 1)).signExtend n) ∧
      ∀ d : Word, Reads (readDst f.slot f.dst) s d →
        exec (.bfi pos len f) s = .next (landed64 s (SSlot.file f.slot) f.dst.toNat (atWidth f.w f.u (fun n x y =>
          (y &&& ~~~((BitVec.allOnes (len.toNat + 1)).setWidth n <<< pos.toNat)) |||
          ((x.extractLsb' 0 (len.toNat + 1)).setWidth n <<< pos.toNat)) a d) 1)) ∧
  ((∀ (f : SUn) (s : State) (a : Word), Reads (readS f.slot f.a) s a →
    exec (.li f) s = .next (landed64 s (SSlot.file f.slot) f.dst.toNat a 1) ∧
    exec (.mov f) s = .next (landed64 s (SSlot.file f.slot) f.dst.toNat a 1) ∧
    exec (.xfer .other f) s = .next (landed64 s (match f.slot with | .s0 => 1 | .s1 => 0) f.dst.toNat a 2) ∧
    exec (.xfer .p f) s = .next (landed64 s 4 f.dst.toNat a 2) ∧ exec (.xfer .k f) s = .next (landed64 s 5 f.dst.toNat a 2) ∧
    exec (.xfer .v f) s = .next (landed64 s 2 f.dst.toNat a 3) ∧ exec (.xfer .w f) s = .next (landed64 s 3 f.dst.toNat a 3)) ∧
  (∀ (slot : SlotId) (s : State), exec (.nop slot) s = .next s) ∧
  ∀ (slot : SSlot) (dst : BitVec 6) (s : State),
    let u := streamWord (issuer s).rkey.toNat (issuer s).rctr.toNat
    let n := u 0 / 256
    exec (.rand false slot dst) s = .next (landed64 (drawn s 1) (SSlot.file slot) dst.toNat (BitVec.ofNat 64 (u 1 * 2 ^ 32 + u 0)) 6) ∧
    exec (.rand true slot dst) s = .next (landed64 (drawn s 1) (SSlot.file slot) dst.toNat
      (if n = 0 then 0 else BitVec.ofNat 64 ((103 + Nat.log2 n) * 2 ^ 23 + (n * 2 ^ (23 - Nat.log2 n) - 2 ^ 23))) 6))

/-- R122, R123: FADD, FSUB, FMUL, FMA, FRCP, FRSQ, FEXP2 and FLOG2 round the exact result once under sys.mode, draw where the
format or the mode asks for it, merge their flags and land, unless an enabled flag is raised. -/
def Obligations.ScalarRounded : Prop :=
  (∀ (t : SFmt) (f : SBin) (s : State) (a b : Word), Reads (readS f.slot f.a) s a → Reads (readS f.slot f.b) s b →
    let x := sVal (issuer s) t a
    let y := sVal (issuer s) t b
    SRounds t f.slot f.dst 4 s (fun m => fAdd m x y) (exec (.fadd t f) s) ∧
    SRounds t f.slot f.dst 4 s (fun m => fAdd m x y.neg) (exec (.fsub t f) s) ∧
    SRounds t f.slot f.dst 4 s (fun _ => fMul x y) (exec (.fmul t f) s) ∧
    ∀ d : Word, Reads (readDst f.slot f.dst) s d →
      SRounds t f.slot f.dst 4 s (fun m => fFma m x y (sVal (issuer s) t d)) (exec (.fma t f) s)) ∧
  ∀ (t : SFmt) (f : SUn) (s : State) (a : Word), Reads (readS f.slot f.a) s a →
    let x := sVal (issuer s) t a
    SRounds t f.slot f.dst 8 s (fun _ => fRcp x) (exec (.frcp t f) s) ∧
    SRounds t f.slot f.dst 8 s (fun _ => fRsq x) (exec (.frsq t f) s) ∧
    SRounds t f.slot f.dst 8 s (fun _ => fExp2 x) (exec (.fexp2 t f) s) ∧
    SRounds t f.slot f.dst 8 s (fun _ => fLog2 x) (exec (.flog2 t f) s)

/-- R41, R71, R124 to R126: FMIN, FMAX, FCMP and FCVT land their results and merge their flags; a form that raises an enabled
flag (stated of FADD, FCMP, FMIN) takes the trap of the lowest enabled flag, keeps every flag it raised, and writes nothing
else of the task. -/
def Obligations.ScalarFpOthers : Prop :=
  ((∀ (t : SFmt) (f : SBin) (s : State) (a b : Word), Reads (readS f.slot f.a) s a → Reads (readS f.slot f.b) s b →
    let x := issuer s
    let o := SSlot.file f.slot
    let lo := fMinMax (SFmt.fmt t) x.compat false a.toNat b.toNat
    let hi := fMinMax (SFmt.fmt t) x.compat true a.toNat b.toNat
    (Nat.land lo.2 x.enables = 0 →
      exec (.fmin t f) s = .next (landed64 (flagged s lo.2) o f.dst.toNat (BitVec.ofNat 64 lo.1) 4)) ∧
    (Nat.land hi.2 x.enables = 0 →
      exec (.fmax t f) s = .next (landed64 (flagged s hi.2) o f.dst.toNat (BitVec.ofNat 64 hi.1) 4)) ∧
    ∀ c : FCond, Nat.land (fCompare c (sVal x t a) (sVal x t b)).2 x.enables = 0 →
      exec (.fcmp t c f) s = .next (landed (flagged s (fCompare c (sVal x t a) (sVal x t b)).2) fG (f.dst.toNat % 8)
        (if (fCompare c (sVal x t a) (sVal x t b)).1 then 1 else 0) 2)) ∧
  ∀ (src dst : ElemTy) (f : SUn) (s : State) (a : Word), Reads (readS f.slot f.a) s a →
    let x := issuer s
    let draws := convDraws x x.rmode src dst
    let r := convertElem x.compat x.rmode (if draws then streamWord x.rkey.toNat x.rctr.toNat 0 else 0) (!x.compat) false
      src dst a.toNat
    Nat.land r.2 x.enables = 0 →
      exec (.fcvt src dst f) s = .next (landed64 (flagged (if draws then drawn s 1 else s) r.2) (SSlot.file f.slot) f.dst.toNat
        (if dst.signed then BitVec.ofInt 64 (sextNat dst.width r.1) else BitVec.ofNat 64 r.1) 3)) ∧
  (∀ (t : SFmt) (f : SBin) (s : State) (a b : Word), Reads (readS f.slot f.a) s a → Reads (readS f.slot f.b) s b →
    let x := issuer s
    let trapped (fl : Nat) (o : Host.Outcome State Fault Refusal) : Prop :=
      Nat.land fl x.enables ≠ 0 → ∃ ctr, o = .next (
        let u := s.updCtx s.issue.ctx (fun x => { x with fflags := x.fflags ||| BitVec.ofNat 64 fl })
        let v := takeTrap u s.issue.ctx (BitVec.ofNat 8 (0x20 + lowestFlag (Nat.land fl x.enables)))
          (BitVec.ofNat 64 (Nat.land fl x.enables)) s.issue.addr
        { v with issue := { v.issue with verdict := .fpTrapped (BitVec.ofNat 6 fl) ctr } })
    (∀ c : FCond, trapped (fCompare c (sVal x t a) (sVal x t b)).2 (exec (.fcmp t c f) s)) ∧
    trapped (fMinMax (SFmt.fmt t) x.compat false a.toNat b.toNat).2 (exec (.fmin t f) s) ∧
    (x.rmode ≠ .sr → t = .fp32 →
      trapped ((fAdd x.rmode (sVal x t a) (sVal x t b)).deliver .fp32 x.rmode 0 (!x.compat)).2 (exec (.fadd t f) s)))

/-! ### The vector slots -/

/-- R61, R62, R67, R146, R148: what each V operand specifier and each mask reads, and the trap of an index at or above
sys.vregs. -/
def Obligations.VectorOperands : Prop :=
  ∀ (slot : VSlot) (ty : ElemTy) (s : State),
    (∀ i : BitVec 10, i.toNat < (issuer s).vregs.toNat → (issuer s).regError (VSlot.file slot) i.toNat = none →
      Reads (readV slot ty (.reg i)) s ((issuer s).reg (VSlot.file slot) i.toNat)) ∧
    (∀ i : BitVec 10, (issuer s).vregs.toNat ≤ i.toNat →
      (readV slot ty (.reg i)).run s = .error (.trap true 0x01 (BitVec.ofNat 64 s.issue.word))) ∧
    (∀ (q : BitVec 3) (v : VecReg), Reads (readHead q) s v → Reads (readV slot ty (.head q)) s v) ∧
    (∀ b : Word, s.issue.bc = some b → ∃ v : VecReg, Reads (readV slot ty .bc) s v ∧
      ∀ i < ty.lanes, laneAt ty.width v i = b.toNat % 2 ^ ty.width) ∧
    (s.issue.bc = none → (readV slot ty .bc).run s = .error (.trap true 0x01 (BitVec.ofNat 64 s.issue.word))) ∧
    (s.issue.kind ≠ 2 → ∃ v : VecReg, Reads (readV slot ty .imm) s v ∧ ∀ i < ty.lanes,
      laneAt ty.width v i = (if ty = .i64 then (s.issue.imm.signExtend 64).toNat else s.issue.imm.toNat) % 2 ^ ty.width) ∧
    Reads (readActive slot none) s (fun _ => true) ∧
    ∀ i : BitVec 3, (issuer s).regError (VSlot.maskFile slot) i.toNat = none →
      Reads (readActive slot (some i)) s (fun l => ((issuer s).maskReg (VSlot.maskFile slot) i.toNat).getLsbD l)

/-- R151: VADD, VSUB, VMUL, VDIV, VFMA, VFMS, VFNMA and the functions of one source round every active lane once and land,
keeping the other lanes. -/
def Obligations.VectorRounded : Prop :=
  ((∀ (f : VBin) (s : State) (a b old : VecReg) (active : Nat → Bool), f.ty.isF = true → Reads (readV f.slot f.ty f.a) s a →
    Reads (readV f.slot f.ty f.b) s b → VDest f.slot f.mask f.dst s active old →
    let x i := vVal (issuer s) f.ty a i
    let y i := vVal (issuer s) f.ty b i
    let rounds (lat : Nat) (r : RMode → Nat → FRes) (o : Host.Outcome State Fault Refusal) : Prop :=
      VRounds f.slot f.ty f.rnd f.dst lat s active old r o
    rounds 4 (fun m i => fAdd m (x i) (y i)) (exec (.vadd f) s) ∧
    rounds 4 (fun m i => fAdd m (x i) (y i).neg) (exec (.vsub f) s) ∧
    rounds 4 (fun _ i => fMul (x i) (y i)) (exec (.vmul f) s) ∧
    rounds 12 (fun _ i => fDiv (x i) (y i)) (exec (.vdiv f) s)) ∧
  ∀ (f : VTer) (s : State) (a b c old : VecReg) (active : Nat → Bool), f.ty.isF = true → Reads (readV f.slot f.ty f.a) s a →
    Reads (readV f.slot f.ty f.b) s b → Reads (readV f.slot f.ty f.c) s c → VDest f.slot f.mask f.dst s active old →
    let x i := vVal (issuer s) f.ty a i
    let y i := vVal (issuer s) f.ty b i
    let z i := vVal (issuer s) f.ty c i
    let rounds (r : RMode → Nat → FRes) (o : Host.Outcome State Fault Refusal) : Prop :=
      VRounds f.slot f.ty f.rnd f.dst 4 s active old r o
    rounds (fun m i => fFma m (x i) (y i) (z i)) (exec (.vfma f) s) ∧
    rounds (fun m i => fFma m (x i) (y i) (z i).neg) (exec (.vfms f) s) ∧
    rounds (fun m i => fFma m (x i).neg (y i) (z i)) (exec (.vfnma f) s)) ∧
  (∀ (f : VUn) (s : State) (a old : VecReg) (active : Nat → Bool), f.ty.isF = true → Reads (readV f.slot f.ty f.a) s a →
    VDest f.slot f.mask f.dst s active old →
    let rounds (lat : Nat) (g : FVal → FRes) (o : Host.Outcome State Fault Refusal) : Prop :=
      VRounds f.slot f.ty f.rnd f.dst lat s active old (fun _ i => g (vVal (issuer s) f.ty a i)) o
    rounds 8 fRcp (exec (.vrcp f) s) ∧ rounds 8 fRsq (exec (.vrsq f) s) ∧ rounds 12 fSqrt (exec (.vsqrt f) s) ∧
    rounds 8 fExp2 (exec (.vexp2 f) s) ∧ rounds 8 fLog2 (exec (.vlog2 f) s) ∧ rounds 10 fTanh (exec (.vtanh f) s) ∧
    rounds 10 fSigm (exec (.vsigm f) s) ∧ rounds 10 fSilu (exec (.vsilu f) s) ∧ rounds 10 fGelu (exec (.vgelu f) s))

/-- R152, R155, R171, R172: VMIN, VMAX, VABS, VNEG, VMOV and VCLASS; and VRAND, which draws 16 blocks and gives each lane its word,
or the value (word >> 8) × 2^−24. -/
def Obligations.VectorUnrounded : Prop :=
  (∀ (f : VBin) (s : State) (a b old : VecReg) (active : Nat → Bool), f.ty.isF = true → Reads (readV f.slot f.ty f.a) s a →
    Reads (readV f.slot f.ty f.b) s b → VDest f.slot f.mask f.dst s active old →
    let r (top : Bool) (i : Nat) := fMinMax (fmtD f.ty) (issuer s).compat top (laneAt f.ty.width a i) (laneAt f.ty.width b i)
    VFlags f.slot f.ty f.dst 4 s active old (r false) (exec (.vmin f) s) ∧
    VFlags f.slot f.ty f.dst 4 s active old (r true) (exec (.vmax f) s)) ∧
  (∀ (f : VNul) (s : State) (old : VecReg) (active : Nat → Bool), (f.ty = .u32 ∨ f.ty = .fp32) →
    VDest f.slot f.mask f.dst s active old →
    let u := streamWord (issuer s).rkey.toNat (issuer s).rctr.toNat
    let unit (n : Nat) : Nat := if n = 0 then 0 else (103 + Nat.log2 n) * 2 ^ 23 + (n * 2 ^ (23 - Nat.log2 n) - 2 ^ 23)
    VLands f.slot 32 64 f.dst 6 (drawn s 16) (fun i =>
      if active i then (if f.ty = .u32 then u i else unit (u i / 256)) else laneAt 32 old i) (exec (.vrand f) s)) ∧
  ∀ (f : VUn) (s : State) (a old : VecReg) (active : Nat → Bool), Reads (readV f.slot f.ty f.a) s a →
    VDest f.slot f.mask f.dst s active old →
    let w := f.ty.width
    let lands (lat : Nat) (r : Nat → Nat) (o : Host.Outcome State Fault Refusal) : Prop :=
      VLands f.slot w f.ty.lanes f.dst lat s (fun i => if active i then r (laneAt w a i) else laneAt w old i) o
    lands 2 (fun x => x) (exec (.vmov f) s) ∧
    ((f.ty.isF || f.ty.isF8) = true →
      lands 4 (fun x => if ((fmtD f.ty).decode x).isNan then (fmtD f.ty).nan else x % 2 ^ (w - 1)) (exec (.vabs f) s) ∧
      lands 4 (fun x => if ((fmtD f.ty).decode x).isNan then (fmtD f.ty).nan else (x + 2 ^ (w - 1)) % 2 ^ w) (exec (.vneg f) s) ∧
      lands 2 (fun x => fClass (fmtD f.ty) x % 2 ^ w) (exec (.vclass f) s))

/-- R153, R154: VIADD, VISUB, VIMUL, VIMIN, VIMAX and VIMAD act on the numbers of the active lanes, wrapping, saturating with
the saturate flag, or giving the high half; VAND, VOR, VXOR, VSHL, VSHR and VSAR act on lane bits. -/
def Obligations.VectorInteger : Prop :=
  (let narrow (ty : ElemTy) (m : VIMode) (r : Int) : Nat × Nat :=
    let lo : Int := if ty.signed then -(2 ^ (ty.width - 1)) else 0
    let hi : Int := if ty.signed then 2 ^ (ty.width - 1) - 1 else 2 ^ ty.width - 1
    match m with
    | .wrap => ((BitVec.ofInt ty.width r).toNat, 0)
    | .sat => ((BitVec.ofInt ty.width (max lo (min hi r))).toNat, if r < lo ∨ hi < r then fSaturate else 0)
    | .hi => ((BitVec.ofInt ty.width (r / 2 ^ ty.width)).toNat, 0)
  (∀ (f : VBin) (s : State) (a b old : VecReg) (active : Nat → Bool), f.ty.isI = true → Reads (readV f.slot f.ty f.a) s a →
    Reads (readV f.slot f.ty f.b) s b → VDest f.slot f.mask f.dst s active old →
    let out (m : VIMode) (g : Int → Int → Int) (o : Host.Outcome State Fault Refusal) : Prop :=
      VFlags f.slot f.ty f.dst 2 s active old (fun i => narrow f.ty m (g (laneNum f.ty a i) (laneNum f.ty b i))) o
    (∀ m : VIMode, out m (fun x y => x + y) (exec (.viadd m f) s) ∧ out m (fun x y => x - y) (exec (.visub m f) s) ∧
      out m (fun x y => x * y) (exec (.vimul m f) s)) ∧
    out .wrap min (exec (.vimin f) s) ∧ out .wrap max (exec (.vimax f) s)) ∧
  ∀ (m : VIMode) (f : VTer) (s : State) (a b c old : VecReg) (active : Nat → Bool), f.ty.isI = true →
    Reads (readV f.slot f.ty f.a) s a → Reads (readV f.slot f.ty f.b) s b → Reads (readV f.slot f.ty f.c) s c →
    VDest f.slot f.mask f.dst s active old →
    VFlags f.slot f.ty f.dst 2 s active old (fun i =>
      narrow f.ty m (laneNum f.ty a i * laneNum f.ty b i + laneNum f.ty c i)) (exec (.vimad m f) s)) ∧
  (∀ (f : VBin) (s : State) (a b old : VecReg) (active : Nat → Bool), Reads (readV f.slot f.ty f.a) s a →
    Reads (readV f.slot f.ty f.b) s b → VDest f.slot f.mask f.dst s active old →
    let w := f.ty.width
    let lands (g : BitVec w → BitVec w → BitVec w) (o : Host.Outcome State Fault Refusal) : Prop :=
      VLands f.slot w f.ty.lanes f.dst 2 s (fun i =>
        if active i then (g (BitVec.ofNat w (laneAt w a i)) (BitVec.ofNat w (laneAt w b i))).toNat else laneAt w old i) o
    lands (fun x y => x &&& y) (exec (.vand f) s) ∧ lands (fun x y => x ||| y) (exec (.vor f) s) ∧
    lands (fun x y => x ^^^ y) (exec (.vxor f) s) ∧ lands (fun x y => x <<< (y.toNat % w)) (exec (.vshl f) s) ∧
    lands (fun x y => x >>> (y.toNat % w)) (exec (.vshr f) s) ∧
    lands (fun x y => x.sshiftRight (y.toNat % w)) (exec (.vsar f) s))

/-- R156 to R158, R163: VCMP, VSEL and each VMASK operation; VFIND gives, in every 32-bit element, the lowest searched lane
that satisfies its condition, or the lane count. That vmask.nz finds a BF16 subnormal not zero in compat mode too is the model's
choice (log entry 71). -/
def Obligations.VectorMasks : Prop :=
  ((∀ (c : FCond) (f : VBin) (s : State) (a b : VecReg) (active : Nat → Bool) (old : MaskReg),
    Reads (readV f.slot f.ty f.a) s a → Reads (readV f.slot f.ty f.b) s b → Reads (readActive f.slot f.mask) s active →
    (f.mask.isSome = true → Reads (readMask f.slot (BitVec.ofNat 3 (f.dst.toNat % 8))) s old) →
    let r i := vCond (issuer s) f.ty c (laneAt f.ty.width a i) (laneAt f.ty.width b i)
    let fl := orAll ((List.range f.ty.lanes).map (fun i => if active i then (r i).2 else 0))
    Nat.land fl (issuer s).enables = 0 → MLands f.slot (f.dst.toNat % 8) (flagged s fl)
      (fun i => decide (i < f.ty.lanes) && if active i then (r i).1 else old.getLsbD i) (exec (.vcmp c f) s)) ∧
  (∀ (f : VBin) (s : State) (a b : VecReg) (on : Nat → Bool), Reads (readV f.slot f.ty f.a) s a →
    Reads (readV f.slot f.ty f.b) s b → Reads (readSelector f.slot f.mask) s on → Reads (vecIndex f.dst.toNat) s () →
    VLands f.slot f.ty.width f.ty.lanes f.dst 2 s
      (fun i => if on i then laneAt f.ty.width a i else laneAt f.ty.width b i) (exec (.vsel f) s)) ∧
  (∀ (slot : VSlot) (dst i j : BitVec 3) (s : State) (x y : MaskReg), Reads (readMask slot i) s x → Reads (readMask slot j) s y →
    let lands (bit : Nat → Bool) (o : Host.Outcome State Fault Refusal) : Prop := MLands slot dst.toNat s bit o
    lands (fun l => x.getLsbD l && y.getLsbD l) (exec (.vmask (.and i j) slot dst) s) ∧
    lands (fun l => x.getLsbD l || y.getLsbD l) (exec (.vmask (.or i j) slot dst) s) ∧
    lands (fun l => x.getLsbD l ^^ y.getLsbD l) (exec (.vmask (.xor i j) slot dst) s) ∧
    lands (fun l => x.getLsbD l && !y.getLsbD l) (exec (.vmask (.andn i j) slot dst) s) ∧
    lands (fun l => !x.getLsbD l) (exec (.vmask (.not i) slot dst) s)) ∧
  ∀ (slot : VSlot) (dst : BitVec 3) (ty : ElemTy) (a : VOpnd) (v : VecReg) (s : State),
    let lands (bit : Nat → Bool) (o : Host.Outcome State Fault Refusal) : Prop := MLands slot dst.toNat s bit o
    (Reads (readV slot .fp32 a) s v → lands (fun l => decide (l < laneAt 32 v 0)) (exec (.vmask (.first a) slot dst) s)) ∧
    (Reads (readV slot ty a) s v →
      lands (fun l => decide (l < ty.lanes) && decide ((if ty.isF then laneAt ty.width v l % 2 ^ (ty.width - 1)
        else laneAt ty.width v l) ≠ 0)) (exec (.vmask (.nz ty a) slot dst) s) ∧
      lands (fun l => decide (l < ty.lanes) && decide (2 ^ (ty.width - 1) ≤ laneAt ty.width v l))
        (exec (.vmask (.neg ty a) slot dst) s))) ∧
  (∀ (c : VFindCond) (f : VBin) (s : State) (a b : VecReg) (active : Nat → Bool), Reads (readV f.slot f.ty f.a) s a →
    Reads (readV f.slot f.ty f.b) s b → Reads (readActive f.slot f.mask) s active → Reads (vecIndex f.dst.toNat) s () →
    let cc : FCond := match c with | .gt => .gt | .ge => .ge | .eq => .eq | .ne => .ne
    let hit i := active i && (vCond (issuer s) f.ty cc (laneAt f.ty.width a i) (laneAt f.ty.width b i)).1
    ∃ n ≤ f.ty.lanes, (n < f.ty.lanes → hit n = true) ∧ (∀ i < n, hit i = false) ∧
      VLands f.slot 32 64 f.dst 6 s (fun _ => n) (exec (.vfind c f) s))

/-- R159, R160, R173, R174: VCNT and VIOTA count active lanes; VPERM, VSLIDE, VBCAST, VCOMP, VEXPD and VINS move lanes; VXFER
copies a register to the other vector file or a lane to a scalar file. -/
def Obligations.VectorMoves : Prop :=
  ((∀ (f : VNul) (s : State) (on : Nat → Bool), Reads (readSelector f.slot f.mask) s on → Reads (vecIndex f.dst.toNat) s () →
    VLands f.slot f.ty.width f.ty.lanes f.dst 2 s (fun _ => (List.range f.ty.lanes).countP on % 2 ^ f.ty.width) (exec (.vcnt f) s) ∧
    VLands f.slot f.ty.width f.ty.lanes f.dst 2 s (fun i => (List.range i).countP on % 2 ^ f.ty.width) (exec (.viota f) s)) ∧
  (∀ (f : VBin) (s : State) (a b old : VecReg) (active : Nat → Bool), Reads (readV f.slot f.ty f.a) s a →
    Reads (readV f.slot f.ty f.b) s b → VDest f.slot f.mask f.dst s active old →
    let lane := laneAt f.ty.width
    let n := f.ty.lanes
    VLands f.slot f.ty.width n f.dst 3 s (fun i => if active i then lane a (lane b i % n) else lane old i) (exec (.vperm f) s) ∧
    ∀ j : BitVec 8, (Instr.vslide j f).wf = true → VLands f.slot f.ty.width n f.dst 3 s (fun i => if active i then
      (if i + j.toNat < n then lane a (i + j.toNat) else lane b (i + j.toNat - n)) else lane old i) (exec (.vslide j f) s)) ∧
  ∀ (f : VUn) (s : State) (a old : VecReg) (active : Nat → Bool), Reads (readV f.slot f.ty f.a) s a →
    VDest f.slot f.mask f.dst s active old →
    let lane := laneAt f.ty.width
    let n := f.ty.lanes
    (∀ j : BitVec 8, VLands f.slot f.ty.width n f.dst 3 s (fun i => if active i then lane a j.toNat else lane old i)
      (exec (.vbcast j f) s)) ∧
    (f.mask.isSome = true →
      VLands f.slot f.ty.width n f.dst 4 s (fun i => match ((List.range n).filter active)[i]? with
        | some l => lane a l | none => 0) (exec (.vcomp f) s) ∧
      VLands f.slot f.ty.width n f.dst 4 s (fun i =>
        if active i then lane a ((List.range i).countP active) else lane old i) (exec (.vexpd f) s)) ∧
    ∀ (j : BitVec 8) (d : VecReg), Reads (readReg (VSlot.file f.slot) f.dst.toNat) s d →
      VLands f.slot f.ty.width n f.dst 2 s (fun i => if i = j.toNat then lane a 0 else lane d i) (exec (.vins j f) s)) ∧
  (∀ (j : BitVec 8) (f : VUn) (s : State) (a : VecReg), Reads (readV f.slot f.ty f.a) s a →
    let x := laneAt f.ty.width a j.toNat
    let v : Word := if f.ty.signed then (BitVec.ofNat f.ty.width x).signExtend 64 else BitVec.ofNat 64 x
    (Reads (vecIndex f.dst.toNat) s () → exec (.vxfer .other j f) s =
      .next (landed s (match f.slot with | .v0 => 3 | .v1 => 2) f.dst.toNat a 3)) ∧
    exec (.vxfer .a j f) s = .next (landed64 s 0 f.dst.toNat v 3) ∧ exec (.vxfer .b j f) s = .next (landed64 s 1 f.dst.toNat v 3) ∧
    exec (.vxfer .p j f) s = .next (landed64 s 4 f.dst.toNat v 3) ∧ exec (.vxfer .k j f) s = .next (landed64 s 5 f.dst.toNat v 3))

/-- R45, R46, R161, R162: VPSUM and VRED on integers give the sums and extremes of the active lanes; on floating-point types
they follow their fixed orders, and a sum in a narrow format draws outside compat mode. -/
def Obligations.VectorSums : Prop :=
  ((∀ (f : VUn) (s : State) (a old : VecReg) (active : Nat → Bool), f.ty.isI = true → Reads (readV f.slot f.ty f.a) s a →
    VDest f.slot f.mask f.dst s active old →
    let term i := if active i then laneAt f.ty.width a i else 0
    VLands f.slot f.ty.width f.ty.lanes f.dst 6 s (fun i => if active i then
      ((List.range (i + 1)).map term).sum % 2 ^ f.ty.width else laneAt f.ty.width old i) (exec (.vpsum f) s)) ∧
  ∀ (f : VUn) (s : State) (a : VecReg) (active : Nat → Bool), f.ty.isI = true → Reads (readV f.slot f.ty f.a) s a →
    Reads (readActive f.slot f.mask) s active → Reads (vecIndex f.dst.toNat) s () →
    let w := f.ty.width
    let nums := ((List.range f.ty.lanes).filter active).map (laneNum f.ty a)
    let lo : Int := if f.ty.signed then -(2 ^ (w - 1)) else 0
    let hi : Int := if f.ty.signed then 2 ^ (w - 1) - 1 else 2 ^ w - 1
    let lands (v : Int) (o : Host.Outcome State Fault Refusal) : Prop :=
      VLands f.slot w f.ty.lanes f.dst 6 s (fun _ => (BitVec.ofInt w v).toNat) o
    lands nums.sum (exec (.vred .sum f) s) ∧ lands (nums.foldl max lo) (exec (.vred .max f) s) ∧
    lands (nums.foldl min hi) (exec (.vred .min f) s)) ∧
  (∀ (f : VUn) (s : State) (a : VecReg) (active : Nat → Bool), Reads (readV f.slot f.ty f.a) s a →
    Reads (readActive f.slot f.mask) s active → Reads (vecIndex f.dst.toNat) s () →
    let x := issuer s
    let n := f.ty.lanes
    let lanes (e : Nat) := (List.range n).map (fun i => if active i then laneAt f.ty.width a i else e)
    let t := if (f.ty != .fp32 && !x.compat) = true then drawn s (n / 4) else s
    let whole (s : State) (w : Nat) (r : Nat × Nat) (o : Host.Outcome State Fault Refusal) : Prop :=
      Nat.land r.2 x.enables = 0 → VLands f.slot w (2048 / w) f.dst 6 (flagged s r.2) (fun _ => r.1 % 2 ^ w) o
    (f.ty.isF = true →
      let e := sumLanes f.ty x.compat (lanes 0)
      let y := scanFrom (addRne (fmtD f.ty)) n 8 1 e.1 e.2
      let root := treeReduce (addRne (fmtD f.ty)) 8 e.1
      (∀ old : VecReg, VDest f.slot f.mask f.dst s active old → Nat.land y.2 x.enables = 0 →
        VLands f.slot f.ty.width n f.dst 6 (flagged t y.2)
          (fun i => if active i then at0 y.1 i % 2 ^ f.ty.width else laneAt f.ty.width old i) (exec (.vpsum f) s)) ∧
      whole t f.ty.width (root.1, Nat.lor e.2 root.2) (exec (.vred .sum f) s)) ∧
    ((Instr.vred .sumw f).wf = true →
      let wide := (lanes 0).map (fun v => ((fmtD f.ty).operand x.compat v).res.deliver .fp32 .rne 0 false)
      let r := treeReduce (addRne .fp32) 8 (wide.map (·.1))
      whole s 32 (r.1, Nat.lor r.2 (orAll (wide.map (·.2)))) (exec (.vred .sumw f) s)) ∧
    ((f.ty.isF || f.ty.isF8) = true →
      whole s f.ty.width (treeReduce (extremeNode x f.ty true) 8 (lanes (extremeId f.ty true))) (exec (.vred .max f) s) ∧
      whole s f.ty.width (treeReduce (extremeNode x f.ty false) 8 (lanes (extremeId f.ty false))) (exec (.vred .min f) s)))

/-- R164 to R170: the conversions, part by part. -/
def Obligations.VectorConversions : Prop :=
  (∀ (dst : ElemTy) (h : BitVec 2) (sat : Bool) (f : VUn) (s : State) (a old : VecReg) (active : Nat → Bool),
    (Instr.vcvt dst h sat f).wf = true → Reads (readV f.slot f.ty f.a) s a →
    Reads (readActive f.slot f.mask) s active → Reads (vecIndex f.dst.toNat) s () →
    (f.ty.lanes < dst.lanes ∨ f.mask.isSome = true → Reads (readReg (VSlot.file f.slot) f.dst.toNat) s old) →
    let x := issuer s
    let mode := vMode x f.rnd
    let draws := convDraws x mode f.ty dst
    VPart f.slot dst.width f.ty.lanes dst.lanes h.toNat f.dst 3 (if draws then drawn s (dst.lanes / 4) else s) active old
      (fun i l => convertElem x.compat mode (if draws then streamWord x.rkey.toNat x.rctr.toNat i else 0) (!x.compat) sat f.ty dst
        (laneAt f.ty.width a l)) (exec (.vcvt dst h sat f) s)) ∧
  ∀ (h : BitVec 2) (f : VBin) (s : State) (a b old : VecReg) (active : Nat → Bool), Reads (readV f.slot f.ty f.a) s a →
    Reads (readV f.slot f.ty f.b) s b → VDest f.slot f.mask f.dst s active old →
    let x := issuer s
    let kept := Reads (readReg (VSlot.file f.slot) f.dst.toNat) s old
    let mode := vMode x f.rnd
    let word (b : Bool) (i : Nat) : Nat := if b then streamWord x.rkey.toNat x.rctr.toNat i else 0
    let from_ (b : Bool) (n : Nat) : State := if b then drawn s n else s
    let scale i := laneAt 8 b i
    let dr := mode == .sr || !x.compat
    (∀ dst : ElemTy, (Instr.vquant false dst h f).wf = true → kept →
      VPart f.slot 8 f.ty.lanes 256 h.toNat f.dst 6 (from_ dr 64) active old (fun i l =>
        let sc := scale ((h.toNat * f.ty.lanes + l) / 32)
        if sc = 255 then ((fmtD dst).nan, (vVal x f.ty a l).sig)
        else quantRound (fmtD dst) mode (word dr i) (!x.compat) ((vVal x f.ty a l).scale (127 - (sc : Int))))
        (exec (.vquant false dst h f) s)) ∧
    (∀ dst : ElemTy, (Instr.vquant true dst h f).wf = true → kept →
      VLands f.slot 8 256 f.dst 6 s (fun i =>
        let o := h.toNat * (f.ty.lanes / 32)
        if o ≤ i ∧ i < o + f.ty.lanes / 32 ∧ active i = true then
          blockScale (fmtD dst) ((List.range 32).map (fun j => vVal x f.ty a (32 * (i - o) + j))) % 256
        else laneAt 8 old i) (exec (.vquant true dst h f) s)) ∧
    (∀ dst : ElemTy, (Instr.vdeq dst h f).wf = true →
      let d := mode == .sr || (dst != .fp32 && !x.compat)
      VPart f.slot dst.width 256 dst.lanes h.toNat f.dst 3 (from_ d (dst.lanes / 4)) active old (fun i l =>
        if scale (l / 32) = 255 then ((fmtD dst).nan, 0)
        else ((vVal x f.ty a l).scale ((scale (l / 32) : Int) - 127)).res.deliver (fmtD dst) mode (word d i) (!x.compat))
        (exec (.vdeq dst h f) s)) ∧
    ((Instr.vcwenc h f).wf = true → kept →
      VPart f.slot 8 f.ty.lanes 256 h.toNat f.dst 4 (from_ (mode == .sr) 64) active old (fun i l =>
        let sc := scale ((h.toNat * f.ty.lanes + l) / 32)
        if sc = 255 then (0x77, fInvalid)
        else cwEncode mode (word (mode == .sr) i) ((vVal x f.ty a l).scale (127 - (sc : Int)))) (exec (.vcwenc h f) s)) ∧
    ∀ (dst : ElemTy) (view : CwView) (o : BitVec 4), (Instr.vcwdec dst h view o f).wf = true →
      let d := mode == .sr || (dst != .fp32 && !x.compat)
      VPart f.slot dst.width 256 dst.lanes h.toNat f.dst 4 (from_ d (dst.lanes / 4)) active old (fun i l =>
        if scale (l / 32) = 255 then ((fmtD dst).nan, 0)
        else (FVal.scale (intVal (cwValue view (laneAt 8 a l))) ((scale (l / 32) : Int) - 127 + o.toInt - 6)).res.deliver
          (fmtD dst) mode (word d i) (!x.compat)) (exec (.vcwdec dst h view o f) s)

/-! ### The L slot -/

/-- R187, R208: the effective addresses, and the increment of a lathe template by the innermost active loop counter. -/
def Obligations.EffectiveAddresses : Prop :=
  ∀ (s : State) (base : BitVec 5), (issuer s).regError 4 base.toNat = none →
    let p := (issuer s).pReg base
    (s.issue.kind ≠ 2 →
      (∀ off : Int, Reads (eaOf base (.off off)) s (p + BitVec.ofInt 64 off)) ∧
      ∀ (pi : BitVec 5) (sh : BitVec 3), (issuer s).regError 4 pi.toNat = none →
        Reads (eaOf base (.idx pi sh)) s (p + (issuer s).pReg pi <<< sh.toNat)) ∧
    (s.issue.kind = 2 → ∀ (off : Int) (l : Nat), l < 4 → (issuer s).kReg (BitVec.ofNat 5 (24 + 2 * l)) ≠ 0 →
      (∀ m, l < m → m < 4 → (issuer s).kReg (BitVec.ofNat 5 (24 + 2 * m)) = 0) →
      Reads (eaOf base (.off off)) s
        (p + BitVec.ofInt 64 off + s.issue.imm.signExtend 64 * (issuer s).kReg (BitVec.ofNat 5 (24 + 2 * l))))

/-- R189 to R192, R73, R104, R184: LDS, VLD, VLDS and VGATH deliver the bytes that their access gives, extended or placed by
their form, with the error of uncorrectable data; STS, VST, VSTS and VSCAT store through the one store operation of the L slot. -/
def Obligations.LoadAndStoreForms : Prop :=
  ((∀ (ty : ElemTy) (dst : RegRef) (base : BitVec 5) (addr : LAddr) (s t : State) (ea : Word) (bs : List Byte)
    (bad : Option (BitVec 8 × Word)) (ps : List Span), Reads (eaOf base addr) s ea →
    (Gives (loadBytes true (ty.width / 8) [(ea.toNat, ty.width / 8)]) s (bs, bad) t →
      inAperture [(ea.toNat, ty.width / 8)] = true ∨ requestsFree s 1 →
      exec (.lds ty dst base addr) s = .next (loaded t (inAperture [(ea.toNat, ty.width / 8)]) dst.file.code dst.idx.toNat
        ((if ty.signed then (BitVec.ofNat ty.width (leNat bs)).signExtend 64
          else (BitVec.ofNat ty.width (leNat bs)).setWidth 64).setWidth 2048) (bad.map (fun e => (e.1, ea))))) ∧
    (Reads (lVecIndex dst) s () → Gives (accessSpans .read (vecAlign ty dst) [(ea.toNat, vecBytes dst)]) s ps t →
      LoadsInto [(ea.toNat, vecBytes dst)] ps id (some ea) 0 dst.file.code dst.idx.toNat t id (exec (.vld ty dst base addr) s))) ∧
  ∀ (ty : ElemTy) (dst : RegRef) (base : BitVec 5) (off : Int) (s t : State) (ea : Word) (ps : List Span),
    Reads (lVecIndex dst) s () → Reads (eaOff base off) s ea →
    (∀ (stride : BitVec 5) (st : Word), Reads (readP stride) s st →
      let rs := (List.range ty.lanes).map (fun i => ((ea + BitVec.ofNat 64 i * st).toNat, ty.width / 8))
      Gives (accessSpans .read (ty.width / 8) rs) s ps t →
      LoadsInto rs ps id none 0 dst.file.code dst.idx.toNat t id (exec (.vlds ty dst base stride off) s)) ∧
    ∀ (h : BitVec 2) (index : BitVec 10) (ix old : VecReg), Reads (vecIndex index.toNat) s () →
      Reads (readReg dst.file.code index.toNat) s ix → Reads (readReg dst.file.code dst.idx.toNat) s old →
      let n := ty.width / 8
      let ls := gatherLanes ty h ix ea
      let rs := ls.map (fun (_, a) => (a, n))
      Gives (accessSpans .read n rs) s ps t →
      LoadsInto rs ps (fun o => match ls[o / n]? with | some (j, _) => j * n + o % n | none => 0) none old dst.file.code
        dst.idx.toNat t (fun u => u.updCore (coreOf u.issue.ctx) (fun k => { k with lBusy := if 1 < bankBusy rs then bankBusy rs else 0 }))
        (exec (.vgath ty h dst base index off) s)) ∧
  ((∀ (ty : ElemTy) (src : RegRef) (base : BitVec 5) (addr : LAddr) (s t : State) (ea : Word), Reads (eaOf base addr) s ea →
    (∀ v : Word, Reads (readScalar src.file.code src.idx.toNat) s v →
      Gives (storeRanges (ty.width / 8) [(ea.toNat, ty.width / 8)] (leBytes (ty.width / 8) v.toNat)) s () t →
      exec (.sts ty src base addr) s = .next t) ∧
    ∀ v : VecReg, Reads (lVecIndex src) s () → Reads (readReg src.file.code src.idx.toNat) s v →
      Gives (storeRanges (vecAlign ty src) [(ea.toNat, vecBytes src)] (leBytes (vecBytes src) v.toNat)) s () t →
      exec (.vst ty src base addr) s = .next t) ∧
  ∀ (ty : ElemTy) (src : RegRef) (base : BitVec 5) (off : Int) (s t : State) (ea : Word) (v : VecReg),
    Reads (lVecIndex src) s () → Reads (readReg src.file.code src.idx.toNat) s v →
    (∀ (stride : BitVec 5) (st : Word), Reads (eaOff base off) s ea → Reads (readP stride) s st →
      Gives (storeRanges (ty.width / 8) ((List.range ty.lanes).map (fun i =>
        ((ea + BitVec.ofNat 64 i * st).toNat, ty.width / 8))) (leBytes 256 v.toNat)) s () t →
      exec (.vsts ty src base stride off) s = .next t) ∧
    ∀ (h : BitVec 2) (index : BitVec 10) (ix : VecReg), Reads (eaOff base 0) s ea → Reads (vecIndex index.toNat) s () →
      Reads (readReg src.file.code index.toNat) s ix →
      let ls := gatherLanes ty h ix ea
      let rs := ls.map (fun (_, a) => (a, ty.width / 8))
      Gives (storeRanges (ty.width / 8) rs (ls.flatMap (fun (j, _) => leBytes (ty.width / 8) (laneAt ty.width v j)))) s () t →
      exec (.vscat ty h src base index) s = .next (t.updCore (coreOf t.issue.ctx) (fun k =>
        { k with lBusy := if 1 < bankBusy rs then bankBusy rs else 0 })))

/-- R177, R181, R189 to R192: a load from the core's own scratchpad reads the bytes there, each element little-endian at its
place, and changes nothing but the landing list of its context, logical times, and for VGATH the L port. -/
def Obligations.ScratchpadLoad : Prop :=
  ∀ (ty : ElemTy) (dst : RegRef) (base : BitVec 5) (s : State), plainScratch s → canonical s → coreOf s.issue.ctx < 1024 →
    let byte (o : Nat) : Byte := byteAt s (scratchPa (coreOf s.issue.ctx) o)
    let n := ty.width / 8
    let lands (v : VecReg) (after : State → State) (out : Host.Outcome State Fault Refusal) : Prop :=
      ∃ u, timesOnly s u ∧ out = .next (after (landed u dst.file.code dst.idx.toNat v 8))
    (∀ (addr : LAddr) (o : Nat), Reads (eaOf base addr) s (BitVec.ofNat 64 (apertureBase + o)) →
      (inScratch s o n → o % n = 0 →
        let x := leNat ((List.range n).map (fun i => byte (o + i)))
        lands ((if ty.signed then (BitVec.ofNat ty.width x).signExtend 64 else (BitVec.ofNat ty.width x).setWidth 64).setWidth 2048)
          id (exec (.lds ty dst base addr) s)) ∧
      (Reads (lVecIndex dst) s () → inScratch s o (vecBytes dst) → o % vecAlign ty dst = 0 →
        ∃ v : VecReg, lands v id (exec (.vld ty dst base addr) s) ∧
          ∀ j < 256, laneAt 8 v j = if j < vecBytes dst then (byte (o + j)).toNat else 0)) ∧
    ∀ (off : Int) (ea : Word), Reads (lVecIndex dst) s () → Reads (eaOff base off) s ea →
      (∀ (stride : BitVec 5) (st : Word) (o : Nat → Nat), Reads (readP stride) s st →
        (∀ i < ty.lanes, (ea + BitVec.ofNat 64 i * st).toNat = apertureBase + o i ∧ inScratch s (o i) n ∧ o i % n = 0) →
        ∃ v : VecReg, lands v id (exec (.vlds ty dst base stride off) s) ∧
          ∀ i < ty.lanes, ∀ b < n, laneAt 8 v (i * n + b) = (byte (o i + b)).toNat) ∧
      ∀ (h : BitVec 2) (index : BitVec 10) (ix old : VecReg) (o : Nat → Nat), Reads (vecIndex index.toNat) s () →
        Reads (readReg dst.file.code index.toNat) s ix → Reads (readReg dst.file.code dst.idx.toNat) s old →
        let m := min 64 ty.lanes
        let on (i : Nat) : Prop := i < m ∧ laneAt 32 ix i ≠ 0xFFFFFFFF
        (∀ i, on i → (ea + BitVec.ofNat 64 (laneAt 32 ix i * n)).toNat = apertureBase + o i ∧ inScratch s (o i) n ∧ o i % n = 0) →
        h.toNat * 64 + m ≤ ty.lanes →
        ∃ (v : VecReg) (busy : Nat), lands v (fun u => u.updCore (coreOf u.issue.ctx) (fun k => { k with lBusy := busy }))
            (exec (.vgath ty h dst base index off) s) ∧
          (∀ i, on i → ∀ b < n, laneAt 8 v ((h.toNat * 64 + i) * n + b) = (byte (o i + b)).toNat) ∧
          ∀ j < ty.lanes, (∀ i, on i → j ≠ h.toNat * 64 + i) → ∀ b < n, laneAt 8 v (j * n + b) = laneAt 8 old (j * n + b)

/-- R177, R185, R189, R190: a store to the core's own scratchpad changes exactly its bytes of memory, at once, and no register,
flag or special register; of contexts, only the issuer's logical time. -/
def Obligations.ScratchpadStore : Prop :=
  ∀ (ty : ElemTy) (src : RegRef) (base : BitVec 5) (addr : LAddr) (s : State) (o : Nat), plainScratch s → canonical s →
    coreOf s.issue.ctx < 1024 → Reads (eaOf base addr) s (BitVec.ofNat 64 (apertureBase + o)) →
    let pa := scratchPa (coreOf s.issue.ctx) o
    let stores (n v : Nat) (out : Host.Outcome State Fault Refusal) : Prop :=
      heldShard s (dieOf s.issue.ctx) (issuer s).region.space (apertureBase + o) n = false →
      ∃ t, out = .next t ∧
        t.ctxs = (s.updCtx s.issue.ctx (fun x => { x with ltime := (t.ctx s.issue.ctx).ltime })).ctxs ∧
        t.clusters = s.clusters ∧ t.dies = s.dies ∧ t.race = s.race ∧ t.issue = s.issue ∧
        (∀ i < n, byteAt t (pa + i) = BitVec.ofNat 8 (v / 256 ^ i)) ∧
        ∀ a, a < pa ∨ pa + n ≤ a → byteAt t a = byteAt s a
    (∀ v : Word, Reads (readScalar src.file.code src.idx.toNat) s v → inScratch s o (ty.width / 8) → o % (ty.width / 8) = 0 →
      stores (ty.width / 8) v.toNat (exec (.sts ty src base addr) s)) ∧
    ∀ v : VecReg, Reads (lVecIndex src) s () → Reads (readReg src.file.code src.idx.toNat) s v → inScratch s o (vecBytes src) →
      o % vecAlign ty src = 0 → stores (vecBytes src) v.toNat (exec (.vst ty src base addr) s)

/-- R185, R193, R194, R47, R311: what a posted access does to memory when it is performed: a store writes, sector by sector,
exactly its bytes; an atomic leaves at its address the new element of R194 and returns the old one, and a narrow additive
reduction moves its location's shadow only; a load puts the bytes there at their places of the value; a counter add is one add. -/
def Obligations.PerformedAccesses : Prop :=
  (∀ (s : State) (x : Issuer) (i : BitVec 16) (q : Piece), mgmtOff q.pa = none →
    let u := raceCheck s x true ⟨q.pa, q.va.toNat, q.bytes.length, q.cnt⟩
    Memory.wf u.mem = true → ∀ a, byteAt (performPiece x i s q) a =
      if q.pa ≤ a ∧ a < q.pa + q.bytes.length then q.bytes.getD (a - q.pa) 0 else byteAt u a) ∧
  (∀ (s : State) (x : Issuer) (p : Posted) (q : Piece) (qs : List Piece), canonical s → x.region.race = 0 →
    p.kind = .store (q :: qs) →
    let now := (q :: qs).filter (fun r => r.pa / 64 == q.pa / 64)
    let later := (q :: qs).filter (fun r => r.pa / 64 != q.pa / 64)
    (∀ r ∈ now, mgmtOff r.pa = none ∧ heldShard s (dieOf x.ctx) x.region.space r.va.toNat r.bytes.length = false) →
    ∃ t, performPosted s x p = some (t, if later = [] then none else some { p with kind := .store later }) ∧
      (∀ a, byteAt t a = now.foldl (fun m r => fun a =>
        if r.pa ≤ a ∧ a < r.pa + r.bytes.length then r.bytes.getD (a - r.pa) 0 else m a) (byteAt s) a) ∧
      (∀ c, t.ctx c = { s.ctx c with ltime := (t.ctx c).ltime }) ∧ t.seqs = s.seqs ∧ t.clusters = s.clusters) ∧
  (∀ (s : State) (x : Issuer) (p : Posted) (op : AtomOp) (ty : ElemTy) (va : Word) (pa : Nat) (a b : Word) (ret : Option Nat),
    canonical s → p.kind = .atom op ty va pa a b ret → heldShard s (dieOf x.ctx) x.region.space va.toNat (ty.width / 8) = false →
    atomTurn s x p pa = true → s.badAt pa (ty.width / 8) = none → mgmtOff pa = none → s.redShadow = [] →
    let w := ty.width
    let m := leNat ((List.range (w / 8)).map (fun i => byteAt s (pa + i)))
    let v := a.toNat % 2 ^ w
    let f := fmtD ty
    let small := op = .fadd ∧ f.narrow = true ∧ shadowed s pa = true
    let num (y : Nat) : Int := if ty.signed then (BitVec.ofNat w y).toInt else y
    let new : Nat := match op with
      | .add => (m + v) % 2 ^ w
      | .min => if num m ≤ num v then m else v
      | .max => if num m ≤ num v then v else m
      | .and => Nat.land m v | .or => Nat.lor m v | .xor => Nat.xor m v
      | .swap => v
      | .cas => if m = v then b.toNat % 2 ^ w else m
      | .fadd => ((fAdd .rne (f.decode m) (f.decode v)).deliver f .rne 0 false).1
      | .fmin => (fMinMax f false false m v).1
      | .fmax => (fMinMax f false true m v).1
    let returns (old : Nat) (t : State) : Prop := ∀ c, t.ctx c = { s.ctx c with
      ltime := (t.ctx c).ltime
      pending := match ret with
        | some n => if c = x.ctx then (s.ctx c).pending.map (fun r => if r.seq == n then
            { r with ready := true, vals := [(if ty.signed then (BitVec.ofNat w old).signExtend 64 else BitVec.ofNat 64 old).setWidth 2048],
                     tag := none } else r) else (s.ctx c).pending
        | none => (s.ctx c).pending }
    (¬ small → ∃ t, performPosted s x p = some (t, none) ∧ returns m t ∧
      (∀ i < w / 8, byteAt t (pa + i) = BitVec.ofNat 8 (new / 256 ^ i)) ∧
      ∀ d, d < pa ∨ pa + w / 8 ≤ d → byteAt t d = byteAt s d) ∧
    (small → ∃ t, performPosted s x p = some (t, none) ∧ (∀ d, byteAt t d = byteAt s d) ∧
      let wide := ((f.decode m).res.deliver .fp32 .rne 0 false).1
      returns (roundShadow f wide) t ∧ Map.find? t.redShadow pa = some (ty.code.toNat,
        ((fAdd .rne (FFmt.fp32.decode wide) (f.decode a.toNat)).deliver .fp32 .rne 0 false).1))) ∧
  (∀ (s : State) (x : Issuer) (v : VecReg) (bad : Option (Nat × BitVec 8 × Word)) (q : LoadPiece), x.region.race = 0 →
    mgmtOff q.pa = none → s.redShadow = [] → s.bad = [] → q.pos + q.len ≤ 256 →
    let r := readPiece x ((v, bad), s) q
    r.1.2 = bad ∧ r.2.mem = s.mem ∧ ∀ j < 256, laneAt 8 r.1.1 j =
      if q.pos ≤ j ∧ j < q.pos + q.len then (byteAt s (q.pa + (j - q.pos))).toNat else laneAt 8 v j) ∧
  ∀ (s : State) (x : Issuer) (p : Posted),
    (∀ (qs : List LoadPiece) (v : VecReg) (bad : Option (Nat × BitVec 8 × Word)) (n : Nat), p.kind = .load qs v bad n →
      let r := (firstSector LoadPiece.pa qs).1.foldl (readPiece x) ((v, bad), s)
      let later := (firstSector LoadPiece.pa qs).2
      performPosted s x p = some (if later = [] then (readyPending r.2 x.ctx n [r.1.1] (errTag r.1.2), none)
        else (r.2, some { p with kind := .load later r.1.1 r.1.2 n }))) ∧
    ∀ (va : Word) (pa n : Nat) (rel : Bool) (t : State), p.kind = .add va pa n rel →
      (rel = true → releasableAs s x.ctx x.tid p.seq = true) →
      s.counterAdd (s.ctxWriter x.ctx p.interval) pa n none (if rel then some (BitVec.ofNat 16 x.ctx, p.interval) else none) = .ok t →
      performPosted s x p = some (timeStore t x.ctx pa, none)

/-- R193, R195, R197: ATOM is translated at issue and performed later, after what its context has posted before, with a
scoreboarded result; PREF changes no register, memory or flag and never traps. R181: LDS, STS and ATOM at an address that is no
multiple of the element take the misalignment trap with the address. -/
def Obligations.AtomicAndPrefetch : Prop :=
  ((∀ (op : AtomOp) (ty : ElemTy) (dst : Option RegRef) (src : RegRef) (base : BitVec 5) (off : Int) (s t : State) (ea x y : Word)
    (p : Span) (ps : List Span), Reads (readScalar src.file.code src.idx.toNat) s x →
    (if op = .cas then Reads (readScalar src.file.code (src.idx.toNat + 1)) s y else y = 0) → Reads (eaOff base off) s ea →
    Gives (accessSpans .atomic (ty.width / 8) [(ea.toNat, ty.width / 8)]) s (p :: ps) t →
    requestsFree t 1 →
    exec (.atom op ty dst src base off) s = .next (
      let order := t.issue.order
      let u := match dst with | some d => awaiting t [(d.file.code, d.idx.toNat)] none | none => t
      postedNext u order (.atom op ty ea p.pa x y (if dst.isSome then some order else none)))) ∧
  ∀ (action : BitVec 2) (base : BitVec 5) (off : Int) (s : State) (ea : Word), Reads (eaOff base off) s ea →
    ∃ l, exec (.pref action base off) s = .next { s with retained := l }) ∧
  (∀ (ty : ElemTy) (r : RegRef) (base : BitVec 5) (addr : LAddr) (off : Int) (op : AtomOp) (d : Option RegRef) (s : State) (ea v : Word),
    ea.toNat % (ty.width / 8) ≠ 0 → meetsTst s s.issue.ctx [(ea.toNat, ty.width / 8)] = false → requestsFree s 1 →
    let traps (out : Host.Outcome State Fault Refusal) : Prop := out = .next (stopped s (.trap false 0x03 ea))
    (Reads (eaOf base addr) s ea → traps (exec (.lds ty r base addr) s) ∧
      (Reads (readScalar r.file.code r.idx.toNat) s v → traps (exec (.sts ty r base addr) s))) ∧
    (Reads (eaOff base off) s ea → Reads (readScalar r.file.code r.idx.toNat) s v →
      (op = .cas → ∃ w, Reads (readScalar r.file.code (r.idx.toNat + 1)) s w) → traps (exec (.atom op ty d r base off) s)))

/-- R200 to R203, R207: WSET loads a closed head from a set of the plane or a record in memory, WSTART binds its channel with
the length of the walk, WSTOP stops it, and WSTAT reads it; all at the end of the bundle. That WSTAT counts the vectors without a
pending fault is the model's reading (log entry 30). -/
def Obligations.StreamForms : Prop :=
  (∀ (q : BitVec 3) (set rec base : BitVec 5) (s : State) (b a : Word), (Map.get {} (issuer s).heads q.toNat).cond = .closed →
    Reads (readP base) s b → Reads templateAdd s a → (b + a).toNat % 16 = 0 →
    let h := Map.get {} (issuer s).heads q.toNat
    (∀ l : LatheSet, set.toNat < (s.core (coreOf s.issue.ctx)).active.sets →
      parseSet (planeBytes (s.core (coreOf s.issue.ctx)).active (0x100 + 128 * set.toNat) 128) = some l → l.aligned = true →
      exec (.wset q false set 0 base) s = .next (scheduled s (.wset q.toNat
        { h with loaded := true, mem := false, setNo := set.toNat, recAddr := 0, params := l, base := b + a }))) ∧
    ∀ (addr : Word) (bs : List Byte) (l : LatheSet) (t : State), Reads (readP rec) s addr →
      requestsFree s ((addr.toNat % 64 + 191) / 64) → Gives (loadStrict true 16 addr.toNat 128) s bs t → parseSet bs = some l → l.aligned = true →
      exec (.wset q true 0 rec base) s = .next (scheduled t (.wset q.toNat
        { h with loaded := true, mem := true, setNo := 0, recAddr := addr, params := l, base := b + a }))) ∧
  ∀ (q : BitVec 3) (s : State),
    let h := Map.get {} (issuer s).heads q.toNat
    (∀ n : Nat, h.cond = .closed → h.loaded = true → Reads (walkLength h) s n →
      exec (.wstart q) s = .next (scheduled s (.wstart q.toNat n))) ∧
    (∀ drain : Bool, exec (.wstop drain q) s = .next (scheduled s (.wstop q.toNat drain))) ∧
    ∀ dst : RegRef, exec (.wstat dst q) s = .next (scheduled s (.setReg dst.file.code dst.idx.toNat
      ((BitVec.ofNat 64 (h.pos % 2 ^ 32 * 2 ^ 32 +
        ((if h.cond = .holding ∧ h.fault = none then 1 else 0) + h.ahead.length) * 256 + (if h.loaded then 8 else 0) +
        (if h.cond = .holding ∧ h.fault.isSome then 4 else 0) +
        (match h.cond with | .closed => 0 | .empty => 1 | .holding => 2))).setWidth 2048)))

/-- R210 to R213: CBSET, CBWAIT and CBADV. -/
def Obligations.CircularBuffers : Prop :=
  (∀ (cb : BitVec 4) (base : BitVec 5) (off : Int) (s t : State) (p : Word) (bs : List Byte), Reads (readP base) s p →
    let ea := (p + BitVec.ofInt 64 off).toNat
    requestsFree s 1 → Gives (loadStrict true 32 ea 32) s bs t →
    let h := parseHandle bs 0
    (h.valid = false → exec (.cbset cb base off) s = .next (scheduled t (.setHandle cb.toNat { h with valid := false }))) ∧
    ∀ (pa v : Nat) (u : State), h.valid = true → requestsFree t (if ea / 64 = h.own.toNat / 64 then 1 else 2) →
      Gives (readCounter h.own) t (pa, v) u →
      exec (.cbset cb base off) s = .next (scheduled u (.setHandle cb.toNat { h with pos := v }))) ∧
  ∀ (dst : RegRef) (cb : BitVec 4) (n : BitVec 10) (version : BitVec 16) (s : State),
    let h := Map.get {} (issuer s).handles cb.toNat
    h.valid = true → 1 ≤ n.toNat → n.toNat ≤ h.count →
    (∀ (pa v : Nat) (t u : State), Gives (readCounter h.other) s (pa, v) t →
      (if h.producer then h.pos + n.toNat ≤ v + h.count ∧ u = t ∧ version = 0
        else h.pos + n.toNat ≤ v ∧ Gives (versionsAre h n.toNat version.toNat) t true u) →
      exec (.cbwait dst cb n version) s = .next (scheduled (acquireSide u u.issue.ctx (u.sideStatus pa) h.scope)
        (.setReg dst.file.code dst.idx.toNat ((h.base + BitVec.ofNat 64 (h.pos % h.count * h.size)).setWidth 2048)))) ∧
    ∀ (t u : State) (pa : Nat),
      (if h.producer then Gives (storeRanges 2 ((List.range n.toNat).map (fun i => (versionVa h (h.pos + i), 2)))
          ((List.range n.toNat).flatMap (fun _ => leBytes 2 version.toNat))) s () t else t = s ∧ version = 0) →
      translateCounter t (t.view t.issue.ctx) h.own .counterAdd = .ok (pa, u) →
      exec (.cbadv cb n version) s = .next (
        let v := released u
        scheduled (posted v ⟨v.issue.order, (issuer v).interval, .add h.own pa n.toNat true, 0⟩)
          (.setHandle cb.toNat { h with pos := h.pos + n.toNat }))

/-- R395 to R401, R407: NLD, NST, NAT, NCB and NTS issue their operations to the fabric, with scoreboarded results for NLD and
NAT; NMC sends one store to every present rank of its line, itself only with .self. The auxiliary byte of each packet and the data
flit of NAT are the model's layout (log entry 9), NMC's own copy and the members it leaves out its reading (log entry 63), and so is
that an operation waits for the acknowledgement of an earlier one on the same target (log entry 80). -/
def Obligations.RemoteForms : Prop :=
  ((∀ (ty : ElemTy) (r : RegRef) (base : BitVec 5) (off : Int) (s t : State) (ea : Word) (pkg die : Nat), Reads (eaOff base off) s ea →
    streamFull t (dieOf t.issue.ctx) pkg die = false → requestsFree t 1 →
    let n := if r.file.isVector then 256 else if r.file.isMask then 32 else ty.width / 8
    let send (u : State) (op : Nat) (flag : Word) (aux : Nat) (data : List Byte) (pend : Option Nat) (et : Option ElemTy) : State :=
      sendRemote u (dieOf u.issue.ctx) (remoteFor u u.issue.ctx (packetFor u u.issue.ctx op pkg die ea flag aux data) ea pend et)
    (Reads (lVecIndex r) s () → Gives (peerLeaf ea n true false) s (pkg, die) t →
      outstandingAt t t.issue.ctx pkg die ea n = false → exec (.nld ty r base off) s = .next (send (awaiting t [(r.file.code, r.idx.toNat)] none) 1 0 (Nat.log2 n) []
        (some t.issue.order) (if r.file.isVector ∨ r.file.isMask then none else some ty))) ∧
    (∀ bs : List Byte, Reads (srcBytes ty r) s bs → Gives (peerLeaf ea n false true) s (pkg, die) t →
      outstandingAt t t.issue.ctx pkg die ea n = false → exec (.nst ty none r base off) s = .next (send t 2 0 0 bs none none) ∧
      ∀ (p : BitVec 5) (f : Word), Reads (readP p) s f → exec (.nst ty (some p) r base off) s = .next (send t 2 f 1 bs none none)) ∧
    ∀ (op : AtomOp) (x y : Word), Reads (readScalar r.file.code r.idx.toNat) s x →
      (if op = .cas then Reads (readScalar r.file.code (r.idx.toNat + 1)) s y else y = 0) →
      Gives (peerLeaf ea (ty.width / 8) true true) s (pkg, die) t → outstandingAt t t.issue.ctx pkg die ea 8 = false →
      let data := leBytes 8 x.toNat ++ leBytes 8 y.toNat ++ leBytes 16 ty.code.toNat
      exec (.nat op ty none r base off) s = .next (send t 3 0 op.code.toNat data none none) ∧
      ∀ d : RegRef, exec (.nat op ty (some d) r base off) s = .next (send (awaiting t [(d.file.code, d.idx.toNat)] none) 3 0
        (op.code.toNat + 16) data (some t.issue.order) (some ty))) ∧
  ∀ (ty : ElemTy) (r : RegRef) (entry piece : BitVec 6) (base : BitVec 5) (s : State) (bs : List Byte) (w : Word),
    Reads (srcBytes ty r) s bs → Reads (readP base) s w → w.toNat < 256 → s.packages.contains (w.toNat % 32) = true →
    streamFull s (dieOf s.issue.ctx) (w.toNat % 32) (w.toNat / 32) = false → requestsFree s 1 →
    let c := s.issue.ctx
    let op (k n : Nat) : Remote := remoteFor s c (packetFor s c k (w.toNat % 32) (w.toNat / 32) 0
      (BitVec.ofNat 64 (entry.toNat + piece.toNat * 2 ^ 8 + n % 2 ^ 48 * 2 ^ 16)) 0 bs) 0 none none
    exec (.ncb ty r entry piece base) s = .next (sendRemote s (dieOf c) (op 4 0)) ∧
    ∀ (slot : BitVec 5) (v : Word), Reads (readP slot) s v →
      exec (.nts ty r entry piece slot base) s = .next (
        if v.toNat % 2 ^ 48 ≤ s.dtimeNs / 64 then sendRemote s (dieOf c) (op 5 (v.toNat % 2 ^ 48))
        else s.updDie (dieOf c) (fun d => { d with heldNts := d.heldNts ++ [(v.toNat % 2 ^ 48, op 5 (v.toNat % 2 ^ 48))] }))) ∧
  (∀ (ty : ElemTy) (flag : Option (BitVec 5)) (axis : BitVec 2) (self : Bool) (src : RegRef) (base : BitVec 5) (off : Int) (s : State)
    (bs : List Byte) (ea f : Word) (r : Nat), Reads (srcBytes ty src) s bs → Reads (eaOff base off) s ea →
    Reads (flagAddr flag) s (f, if flag.isSome then 1 else 0) → ea.toNat % accSize ty src = 0 →
    let c := s.issue.ctx
    let m := (s.die (dieOf c)).mesh
    let rcv := (m.line r axis.toNat).filter (fun q => m.present q && (self || q != r))
    s.rank (dieOf c) = some r → axis.toNat < m.axes → requestsFree s rcv.length →
    (∀ q ∈ rcv, streamFull s (dieOf c) (m.pkgOf q) (m.dieAt q) = false ∧
      outstandingAt s c (m.pkgOf q) (m.dieAt q) ea (accSize ty src) = false) →
    exec (.nmc ty flag axis self src base off) s = .next (rcv.foldl (fun s q =>
      let e := remoteFor s c (packetFor s c 2 (m.pkgOf q) (m.dieAt q) ea f (if flag.isSome then 1 else 0) bs) ea none none
      sendRemote s (dieOf c) (if q = r then { e with own := some ((s.ctx c).region.space, (s.ctx c).interval) } else e)) s))

/-- R417, R420: a PLD whose demand the stable placement meets is a load of the local shard; a PST is a store of it, or an
atomic reduction by the operator of the partial axes. The state at a member is the model's reading (log entry 64). -/
def Obligations.PlacedAccess : Prop :=
  ∀ (ty : ElemTy) (r : RegRef) (base desc : BitVec 5) (off : Int) (s t : State) (a ea : Word) (i : Nat) (q : Placed) (ps : List Span),
    Reads (readP desc) s a → Reads (needDesc a) s (i, q) → Reads (eaOff base off) s ea →
    let n := accSize ty r
    (∀ demand : BitVec 12, Reads (lVecIndex r) s () →
      Reads (checkDemand q demand.toNat) s () → Gives (accessSpans .read n [(ea.toNat, n)]) s ps t →
      (q.st = 0 ∨ q.st = 1 ∧ q.released = false) →
      ((t.ctx t.issue.ctx).waitAct && q.refused.contains demand.toNat) = false →
      q.meets demand.toNat = true → inShard t (dieOf t.issue.ctx) q ea n = true →
      let c := t.issue.ctx
      let d := dieOf c
      let settled (u : State) : State :=
        sweepDrops (updPlaced u d a q.asid (fun x => { x with waiting := x.waiting.filter (· != c) })) d
      let rs := [(ea.toNat, n)]
      if r.file.isVector || r.file.isMask then
        ∀ (qs : List Span) (u : State), Gives (accessSpans .read n rs) t qs u →
          LoadsInto rs qs id (some ea) 0 r.file.code r.idx.toNat u settled (exec (.pld ty r base demand desc off) s)
      else ∀ (bs : List Byte) (bad : Option (BitVec 8 × Word)) (u : State), inAperture rs = true ∨ requestsFree t 1 →
        Gives (loadBytes true n rs) t (bs, bad) u → exec (.pld ty r base demand desc off) s = .next (settled (loaded u
          (inAperture rs) r.file.code r.idx.toNat ((extElem ty (leNat bs)).setWidth 2048) (bad.map (fun e => (e.1, ea)))))) ∧
    ∀ bs : List Byte, Reads (srcBytes ty r) s bs → inShard s (dieOf s.issue.ctx) q ea n = true →
      (∀ u : State, Gives (accessSpans .write n [(ea.toNat, n)]) s ps t → Gives (storeRanges n [(ea.toNat, n)] bs) t () u →
        exec (.pst ty false r base desc off) s = .next u) ∧
      ∀ (op : AtomOp) (p : Span), Gives (accessSpans .atomic n [(ea.toNat, n)]) s (p :: ps) t → q.stage ≠ 1 → q.stage ≠ 2 →
        requestsFree s 1 → accumulateOp q.now = some op →
        exec (.pst ty true r base desc off) s = .next (postedNext t s.issue.order
          (.atom op ty ea p.pa (BitVec.ofNat 64 (leNat bs)) 0 none))

/-! ### The matrix engines -/

/-- R215, R219, R223, R224, R231, R232, R240, R242, R246: the tile operations without registers enter their engine's queue, a
TDRAIN goes on once the context's earlier operations on the engine have ended, and freeing, TAFF and TAFF.off set what the pair
will be for later operations. -/
def Obligations.TileOperations : Prop :=
  ∀ (e : TSlot) (s : State),
    let desc (d : BitVec 3) : TileDesc := Map.get {} (issuer s).desc (descNo e d)
    let k := s.core (coreOf s.issue.ctx)
    (∀ dA dB : BitVec 3, mayQueue s e [] → pairOk (desc dA) (desc dB) = true →
      exec (.tcfg e dA dB) s = .next (queued s e (.cfg (desc dA).fmt.toNat (desc dB).fmt.toNat))) ∧
    (∀ dA : BitVec 3, k.engineFull e = false →
      (∀ o ∈ k.queue e ++ k.heldOps e, o.tid = (issuer s).tid → s.issue.order ≤ o.seq) → exec (.tdrain e dA) s = .next s) ∧
    (∀ t : BitVec 2, mayQueue s e [tileNo e t] →
      exec (.tzero e t) s = .next (affineAt (queued s e (.zero (tileNo e t))) (tileNo e t) false) ∧
      ∀ dA : BitVec 3, (desc dA).fmt = 0 ∨ (desc dA).fmt = 1 →
        exec (.tld e t dA) s = .next (queued s e (.ld (tileNo e t) (desc dA))) ∧
        exec (.tst false e t dA) s = .next (queued s e (.st (tileNo e t) (desc dA) false)) ∧
        exec (.tst true e t dA) s = .next (affineAt (queued s e (.st (tileNo e t) (desc dA) true)) (tileNo e t) false)) ∧
    ∀ pair : BitVec 1, mayQueue s e [pairNo e pair, pairNo e pair + 1] →
      (∀ ident off : Bool, exec (.taff ident off e pair) s =
        .next (affineAt (queued s e (.aff (pairNo e pair) ident off)) (pairNo e pair) (!off))) ∧
      (∀ (carry : Bool) (set : BitVec 1) (n : BitVec 7), k.affineIssue.getLsbD (pairNo e pair / 2) = true →
        exec (.tscan carry e pair set n) s = .next (queued s e (.scan (pairNo e pair) carry (carryNo e set) n.toNat))) ∧
      ∀ n : BitVec 7, exec (.tcomb true e pair n) s =
          .next (queued s e (.comb (pairNo e pair) (pairNo e (pair + 1)) true n.toNat)) ∧
        (mayQueue s e [pairNo e (pair + 1), pairNo e (pair + 1) + 1] → exec (.tcomb false e pair n) s =
          .next (queued s e (.comb (pairNo e pair) (pairNo e (pair + 1)) false n.toNat)))

/-- R220, R233, R238, R239, R243: the tile operations with registers read their sources at issue, before the bundle's own
writes, and their results are scoreboarded under the operation's order number. -/
def Obligations.TileRegisters : Prop :=
  ∀ (w : Bool) (e : TSlot) (t : BitVec 2) (reg : BitVec 10) (s : State), mayQueue s e [tileNo e t] →
    let f := if w then fW else fV
    let r := reg.toNat
    let n := s.issue.order
    (∀ set : BitVec 1,
      exec (.tcarry .ident w e t set reg) s = .next (queued s e (.carry .ident (carryNo e set) 0 0 n)) ∧
      (∀ a : VecReg, r < (issuer s).vregs.toNat → Reads (readReg f r) s a →
        exec (.tcarry .h w e t set reg) s = .next (queued s e (.carry .h (carryNo e set) a 0 n))) ∧
      ∀ a b : VecReg, r + 1 < (issuer s).vregs.toNat →
        (Reads (readReg f r) s a → Reads (readReg f (r + 1)) s b →
          exec (.tcarry .wr w e t set reg) s = .next (queued s e (.carry .wr (carryNo e set) a b n))) ∧
        exec (.tcarry .rd w e t set reg) s =
          .next (queued (awaiting s [(f, r), (f, r + 1)] none) e (.carry .rd (carryNo e set) 0 0 n))) ∧
    (∀ row0 n1 : BitVec 6, r + n1.toNat < (issuer s).vregs.toNat →
      let dests := (List.range (n1.toNat + 1)).map (fun i => (f, r + i))
      exec (.trd false w e t reg row0 n1) s =
        .next (queued (awaiting s dests none) e (.rd (tileNo e t) row0.toNat (n1.toNat + 1) false n)) ∧
      exec (.trd true w e t reg row0 n1) s =
        .next (affineAt (queued (awaiting s dests none) e (.rd (tileNo e t) row0.toNat (n1.toNat + 1) true n)) (tileNo e t) false) ∧
      ∀ rows : List VecReg, Reads (readRows f r (n1.toNat + 1)) s rows →
        exec (.twr w e t reg row0 n1) s = .next (queued s e (.wr (tileNo e t) row0.toNat rows))) ∧
    (∀ (op : TRedOp) (cols : Bool), r < (issuer s).vregs.toNat →
      exec (.tred op cols w e t reg) s = .next (queued (awaiting s [(f, r)] none) e (.red (tileNo e t) op cols n))) ∧
    ∀ (hz clr : Bool) (dst : RegRef), exec (.tres hz clr e t dst) s =
      .next (queued (awaiting s [(dst.file.code, dst.idx.toNat)] none) e (.res (tileNo e t) hz clr n))

/-- R226: TMMA checks its pair, then K, then the depth against sys.maxred: a pair that does not fit, and then a K that is 0 or no
multiple of 32, is an illegal encoding, and a depth above the bound is trap 0x2A with K. It captures its descriptors, and TMMA.adv
moves them on by K columns and K rows at the end of the bundle. -/
def Obligations.MatrixMultiply : Prop :=
  ∀ (e : TSlot) (t : BitVec 2) (dA dB : BitVec 3) (k : BitVec 33) (s : State),
    let a := Map.get {} (issuer s).desc (descNo e dA)
    let b := Map.get {} (issuer s).desc (descNo e dB)
    let core := s.core (coreOf s.issue.ctx)
    let n := k.toNat
    let go := queued s e (.mma (tileNo e t) a b n)
    let illegal : Prop := ∀ adv : Bool,
      exec (.tmma adv e t dA dB k) s = .next (stopped s (.trap false 0x01 (BitVec.ofNat 64 s.issue.word)))
    mayQueue s e [tileNo e t] → (pairOk a b = false → illegal) ∧ (pairOk a b = true → n = 0 ∨ n % 32 ≠ 0 → illegal) ∧
    (pairOk a b = true → n ≠ 0 → n % 32 = 0 →
    (issueDepth core e (tileNo e t) + n ≤ (issuer s).maxred.toNat →
      exec (.tmma false e t dA dB k) s = .next go ∧
      (dA ≠ dB → exec (.tmma true e t dA dB k) s =
        .next (scheduled (scheduled go (.setDesc (descNo e dA) (a.advA n))) (.setDesc (descNo e dB) (b.advB n)))) ∧
      (dA = dB → exec (.tmma true e t dA dB k) s =
        .next (scheduled (scheduled go (.setDesc (descNo e dA) (a.advA n))) (.setDesc (descNo e dA) ((a.advA n).advB n))))) ∧
    ((issuer s).maxred.toNat < issueDepth core e (tileNo e t) + n → ∀ adv : Bool,
      exec (.tmma adv e t dA dB k) s = .next (stopped s (.trap false 0x2A (BitVec.ofNat 64 n)))))

/-- R221, R222: TDESC loads a record that keeps the rules into a descriptor register at the end of the bundle; one that breaks
a value rule is illegal, and a base that is not aligned is misaligned. -/
def Obligations.TileDescriptors : Prop :=
  ∀ (e : TSlot) (dA : BitVec 3) (src : TDescSrc) (s : State) (bs : List Byte),
    (s.core (coreOf s.issue.ctx)).engineFull e = false → (match src with
      | .const o => (s.core (coreOf s.issue.ctx)).active.cond = .loaded ∧
          o.toNat + 64 ≤ (s.core (coreOf s.issue.ctx)).active.constLen ∧
          bs = planeBytes (s.core (coreOf s.issue.ctx)).active (0x1100 + o.toNat) 64
      | .reg w i => ∃ v : VecReg, i.toNat < (issuer s).vregs.toNat ∧ Reads (readReg (if w then fW else fV) i.toNat) s v ∧
          bs = leBytes 64 v.toNat) →
    let d := descOf bs
    (d.legal = true → zeroField bs 0x2A 22 = true →
      (d.misaligned = none → exec (.tdesc e dA src) s = .next (scheduled s (.setDesc (descNo e dA) d))) ∧
      ∀ v : Word, d.misaligned = some v → exec (.tdesc e dA src) s = .next (stopped s (.trap false 0x03 v))) ∧
    (d.legal = false ∨ zeroField bs 0x2A 22 = false →
      exec (.tdesc e dA src) s = .next (stopped s (.trap false 0x01 (BitVec.ofNat 64 s.issue.word))))

/-- R215, R217, R228, R229: TILE_OPERATION_EXECUTE performs the oldest operation of an engine's queue, which leaves the queue;
one that meets a fault of memory, and a TMMA whose residue check fails twice, is held, and its context traps. R231, R233, R234,
R239, R243: what the operations that move registers and status do to the tile, and the values that they land. -/
def Obligations.TileExecution : Prop :=
  (∀ (k : Nat) (e : TSlot) (r : Nat) (s : State) (o : TOp) (rest : List TOp), (s.core k).queue e = o :: rest →
    (o.kind.memory = true → ∀ p ∈ (s.ctx o.ctx).posted, o.seq ≤ p.seq) → heldTst s o = false →
    (∀ t : Nat, badTile s k o.kind = some t → exec (.tileOperationExecute k e r) s =
      .next (trapOutside (dropPending (s.updCore k (fun c => c.setQueue e rest)) o.ctx o.seq) o.ctx 0x08
        (BitVec.ofNat 64 (9 * 4096 + t)))) ∧
    (badTile s k o.kind = none →
      (∀ t a b n, 2 ≤ r → o.kind = .mma t a b n → exec (.tileOperationExecute k e r) s =
        .next (holdOps (s.updCore k (fun c => { c with suspect := true })) k e o rest 0x0D (BitVec.ofNat 64 t))) ∧
      (r < 2 → (∀ t, runT s k o e = .done t → exec (.tileOperationExecute k e r) s =
          .next (t.updCore k (fun c => c.setQueue e rest))) ∧
        ∀ t cause tval, runT s k o e = .fault cause tval t → exec (.tileOperationExecute k e r) s =
          .next (holdOps (confirmWalk t (engineView o.space o.ctx) cause tval.toNat) k e o rest cause tval)))) ∧
  (∀ (k : Nat) (e : TSlot) (s : State) (o : TOp) (t row n : Nat),
    let x := tileOf s k t
    let land (s : State) (vs : List VecReg) : State := readyPending s o.ctx n vs none
    let put (s : State) (y : Tile) : State := s.updCore k (fun c => { c with tiles := Map.set {} c.tiles t y })
    let free (s : State) : State := (put s { sat := x.sat, inv := x.inv }).updCore k (fun c =>
      { c with affine := c.affine &&& ~~~(BitVec.ofNat 4 (2 ^ (t / 2))) })
    (o.kind = .zero t → runT s k o e = .done (free s)) ∧
    (∀ (m : Nat) (retire : Bool), o.kind = .rd t row m retire n →
      let u := land s ((List.range m).map (fun i => Map.get 0 x.rows (row + i)))
      runT s k o e = .done (if retire then free u else u)) ∧
    (∀ rows : List VecReg, o.kind = .wr t row rows → ∃ y : Tile, runT s k o e = .done (put s y) ∧
      y.live = true ∧ y.depth = x.depth ∧ y.sat = x.sat ∧ y.inv = x.inv ∧ (∀ p ∈ y.bad, p.1 < row ∨ row + rows.length ≤ p.1) ∧
      y.rows = rows.zipIdx.foldl (fun m (r, i) => Map.set 0 m (row + i) r) x.rows) ∧
    (∀ clr : Bool, o.kind = .res t false clr n →
      let u := land s [(statusWord s k t).setWidth 2048]
      runT s k o e = .done (if clr then put u { x with sat := false, inv := false } else u)) ∧
    (∀ (set : Nat) (a b : VecReg), o.kind = .carry .wr set a b n → runT s k o e = .done (s.updCtx o.ctx (fun y =>
      { y with carryA := Map.set 0 y.carryA set a, carryB := Map.set 0 y.carryB set b }))) ∧
    ∀ (set : Nat) (a b : VecReg), o.kind = .carry .rd set a b n →
      runT s k o e = .done (land s [Map.get 0 (s.ctx o.ctx).carryA set, Map.get 0 (s.ctx o.ctx).carryB set]))

/-! ### Control, counters and tasks -/

/-- R129 to R131, R135, R136: transfers, END and YIELD take place at the end of the bundle; BRC is taken when its predicate,
XOR negate, is 1; the link of CALL is the bundle after the delay bundle. R133: LOOP writes its level's counter and start at the
end of the bundle; with count 0 it also goes past the loop-end bundle, which must stand at its offset. -/
def Obligations.ControlTransfers : Prop :=
  (∀ s : State,
    exec .end_ s = .next (scheduled s .ended) ∧ exec .yield s = .next (scheduled s .yield) ∧
    ((issuer s).delay = false → s.issue.kind ≠ 1 → ∀ off : BitVec 30,
      let rel : Word := s.issue.addr + off.signExtend 64 * 8
      exec (.br off) s = .next (scheduled s (.transfer rel)) ∧
      (∀ (neg : Bool) (g : BitVec 3), (issuer s).regError 8 g.toNat = none → exec (.brc neg g off) s =
        .next (scheduled s (if (issuer s).g.getLsbD g.toNat != neg then .transfer rel else .delayOnly))) ∧
      (∀ (r link : BitVec 5) (b : Word), Reads (readK r) s b →
        let tgt : Word := b + off.signExtend 64 * 8
        let traps (out : Host.Outcome State Fault Refusal) (a : Word) : Prop := out = .next (stopped s (.trap false 0x03 a))
        (tgt.toNat % 8 = 0 → exec (.jmp r off) s = .next (scheduled s (.transfer tgt))) ∧
        (b.toNat % 8 = 0 → exec (.ret r) s = .next (scheduled s (.transfer b))) ∧
        (tgt.toNat % 8 ≠ 0 → traps (exec (.jmp r off) s) tgt ∧ traps (exec (.call true link r off) s) tgt) ∧
        (b.toNat % 8 ≠ 0 → traps (exec (.ret r) s) b)) ∧
      ∀ (ind : Bool) (link r : BitVec 5) (b tgt h : Word) (t : State),
        (if ind then Reads (readK r) s b ∧ tgt = b + off.signExtend 64 * 8 ∧ tgt.toNat % 8 = 0 else tgt = rel) →
        let pl := (s.core (coreOf s.issue.ctx)).active
        let d := s.issue.addr + BitVec.ofNat 64 (8 * s.issue.words)
        (pl.holds s.issue.addr.toNat = true → d.toNat < pl.codeBase.toNat + pl.codeLen) → Gives (fetchCond d) s h t →
        exec (.call ind link r off) s = .next (scheduled (scheduled t (.setReg fK link.toNat
          ((d + BitVec.ofNat 64 (8 * bundleWords (Header.ofWord h).slots)).setWidth 2048))) (.transfer tgt)))) ∧
  (∀ (level : BitVec 2) (count : Option (BitVec 5)) (off : BitVec 30) (s : State) (n : Word), (issuer s).delay = false →
    s.issue.kind ≠ 1 → 0 < off.toInt →
    (match count with | some k => Reads (readK k) s n | none => s.issue.kind ≠ 2 ∧ n = s.issue.imm.setWidth 64) →
    let begun (t : State) : State := scheduled (scheduled t (.setReg fK (24 + 2 * level.toNat) (n.setWidth 2048)))
      (.setReg fK (25 + 2 * level.toNat) ((s.issue.addr + BitVec.ofNat 64 (8 * s.issue.words)).setWidth 2048))
    (n ≠ 0 → exec (.loop level count off) s = .next (begun s)) ∧
    (n = 0 → ∀ (h : Word) (t : State), let e : Word := s.issue.addr + off.signExtend 64 * 8
      Gives (fetchCond e) s h t →
        ((Header.ofWord h).kind = 1 → exec (.loop level count off) s = .next (begun (scheduled t (.goto
          (e + BitVec.ofNat 64 (8 * bundleWords (Header.ofWord h).slots)))))) ∧
        ((Header.ofWord h).kind ≠ 1 → exec (.loop level count off) s =
          .next (stopped s (.trap false 0x01 (BitVec.ofNat 64 s.issue.word))))))

/-- R131, R134, R91: the end of a bundle: where the next one lies. A taken transfer names its target in the resume link and the
bundle that follows is a delay bundle; a delay bundle goes to the link; a loop-end bundle counts its innermost active level
down and goes back to its start while the counter is not zero; any other goes to the next address. -/
def Obligations.NextBundle : Prop :=
  ∀ (x x0 : Ctx) (i : Issue),
    let y := x.advance x0 i
    let next : Word := i.addr + BitVec.ofNat 64 (8 * i.words)
    (∀ t, actTarget i.acts = some t → t.toNat % 8 = 0 → y.pc = next ∧ y.npc = t + 1 ∧ y.delay = true) ∧
    (actTarget i.acts = none → y.npc = 0 ∧ y.delay = i.acts.contains .delayOnly ∧
      (x0.delay = true → x0.npc.getLsbD 0 = true → y.pc = x0.npc &&& ~~~7) ∧
      (x0.delay = false ∨ x0.npc.getLsbD 0 = false → ∀ a, actGoto i.acts = some a → y.pc = a) ∧
      (x0.delay = false ∨ x0.npc.getLsbD 0 = false → actGoto i.acts = none →
        (i.kind ≠ 1 ∨ (∀ l < 4, Map.get 0 x0.k (24 + 2 * l) = 0) → y.pc = next) ∧
        ∀ l < 4, i.kind = 1 → Map.get 0 x0.k (24 + 2 * l) ≠ 0 → (∀ m, l < m → m < 4 → Map.get 0 x0.k (24 + 2 * m) = 0) →
          y.pc = (if Map.get 0 x0.k (24 + 2 * l) = 1 then next else Map.get 0 x0.k (25 + 2 * l)) ∧
          loopBack x0 i.kind = some (l, Map.get 0 x0.k (24 + 2 * l) - 1, Map.get 0 x0.k (25 + 2 * l))))

/-- R255 to R258, R261: CADD, CWAIT, CTEST, CREAD and FENCE. R266, R268: JOIN goes on once its counter has reached its target,
and waits otherwise; DRAIN once its counter has and the last two sweeps have found every item received; it makes its release
and its add when its bundle first waits. -/
def Obligations.CounterForms : Prop :=
  ((∀ (rel : Bool) (scope : Scope) (ctr : BitVec 5) (amount : BitVec 5 ⊕ BitVec 30) (s t : State) (va n : Word) (pa : Nat),
    Reads (readK ctr) s va → (match amount with | .inl k => Reads (readK k) s n | .inr i => n = i.setWidth 64) →
    translateCounter s (s.view s.issue.ctx) va .counterAdd = .ok (pa, t) →
    exec (.cadd rel scope ctr amount) s = .next (
      let u := if rel then released t else t
      posted u ⟨t.issue.order, (issuer u).interval, .add va pa n.toNat rel, 0⟩)) ∧
  (∀ (acq : Bool) (scope : Scope) (dst ctr tgt : BitVec 5) (timeout : BitVec 30) (s t : State) (va n : Word) (pa v : Nat),
    nonePosted s → Reads (readK ctr) s va → Reads (readK tgt) s n → Gives (readCounter va) s (pa, v) t →
    let side := t.sideStatus pa
    let ends (u : State) (late : Nat) : State := scheduled u (.setReg fK dst.toNat ((BitVec.ofNat 64
      ((if side.getLsbD 63 then 2 ^ 63 else 0) + late * 2 ^ 62 + v % 2 ^ 62)).setWidth 2048))
    (n.toNat ≤ v → exec (.cwait acq scope dst ctr tgt timeout) s =
      .next (ends (if acq then acquireSide t t.issue.ctx side scope.code else t) 0)) ∧
    (v < n.toNat → (t.ctx t.issue.ctx).timedOut = true → exec (.cwait acq scope dst ctr tgt timeout) s = .next (ends t 1))) ∧
  (∀ (acq : Bool) (scope : Scope) (dst ctr : BitVec 5) (s t : State) (va : Word) (pa v : Nat), nonePosted s →
    Reads (readK ctr) s va → Gives (readCounter va) s (pa, v) t →
    let side := t.sideStatus pa
    let acquired := acquireSide t t.issue.ctx side scope.code
    (∀ (g : BitVec 3) (tgt : BitVec 5) (n : Word), Reads (readK tgt) s n →
      exec (.ctest acq scope g ctr tgt) s = .next (scheduled (if acq ∧ n.toNat ≤ v then acquired else t)
        (.setPred g.toNat (decide (n.toNat ≤ v))))) ∧
    exec (.cread acq scope false dst ctr) s = .next (awaiting (if acq then acquired else t) [(fK, dst.toNat)]
      (some ([BitVec.ofNat 2048 v], none))) ∧
    exec (.cread acq scope true dst ctr) s = .next (awaiting (if acq then acquired else t) [(fK, dst.toNat)]
      (some ([side.setWidth 2048], none)))) ∧
  ∀ (scope : Scope) (s : State), quiet s → exec (.fence scope) s = .next (released s)) ∧
  (∀ (scope : Scope) (ctr tgt : BitVec 5) (s : State) (va n : Word), Reads (readK ctr) s va → Reads (readK tgt) s n →
    (∀ (acq park : Bool) (t : State) (pa v : Nat), nonePosted s → Gives (readCounter va) s (pa, v) t →
      (n.toNat ≤ v → exec (.join acq scope park ctr tgt) s =
        .next (if acq then acquireSide t t.issue.ctx (t.sideStatus pa) scope.code else t)) ∧
      (v < n.toNat → t.issue.commit = false → park = false → exec (.join acq scope park ctr tgt) s =
        .next (stopped s (.held (waitOn t { ctx := t.issue.ctx, pa := pa, va := va, tgt := n.toNat }))))) ∧
    ∀ (t u : State) (pa pa' v : Nat), translateCounter s (s.view s.issue.ctx) va .counterAdd = .ok (pa', t) →
      Gives (readCounter va) t (pa, v) u →
      let c := s.issue.ctx
      (u.issue.ctx = c → (u.ctx c).waitAct = true → n.toNat ≤ v → sweepsAgree (u.ctx c).drainSums = true →
        exec (.drain scope ctr tgt) s = .next (acquireSide u c (u.sideStatus pa) scope.code)) ∧
      (u.issue.ctx = c → (u.ctx c).waitAct = false → quiet u → ∀ w : State,
        (released u).counterAdd ((released u).ctxWriter c (issuer (released u)).interval) pa 1 none
          (some (BitVec.ofNat 16 c, (issuer (released u)).interval)) = .ok w →
        exec (.drain scope ctr tgt) s = .next (stopped s (.held ((w.updCtx c (fun x => { x with waitAct := true, drainSums := [] })).updCtx c (fun x =>
          { x with
            run := .blocked
            wait := some .drain
            drainPa := pa
            drainTgt := n.toNat
            drainScope := scope }))))))

/-- R248, R250, R255, R277: an add to a counter is one read-modify-write of its eight bytes and its side status; past 2^64 − 1
it is not applied. -/
def Obligations.CounterAdds : Prop :=
  ∀ (s : State) (w : Writer) (pa n : Nat) (err : Option (BitVec 8)) (rel : Option (BitVec 16 × BitVec 16)),
    Memory.wf s.mem = true → s.counterBad pa = none → s.redShadow = [] →
    (s.counter pa + n < 2 ^ 64 → ∃ t, s.counterAdd w pa n err rel = .ok t ∧ t.counter pa = s.counter pa + n ∧
      (∀ a, a < pa ∨ pa + 8 ≤ a → byteAt t a = byteAt s a) ∧
      t.side = Map.upd 0 s.side pa (fun o => sideAfter o err rel)) ∧
    (2 ^ 64 ≤ s.counter pa + n → s.counterAdd w pa n err rel = .error .overflow)

/-- R263, R139: FORK checks its record, releases at package scope, which advances sys.interval (R139 as log entry 44 reads it), and
pushes the record on the head of its core's deque. R367:
LAUNCH writes its packet into the slot of the region's launch ring that its launch counter names, moves the counter with
release at package scope, and lands the packet's number. R286, R287: MSEND reads its payload, takes the lowest free inbox slot
of its target, and sets its message on the way. -/
def Obligations.TaskSubmission : Prop :=
  (∀ (r1 r2 : BitVec 5) (s t u v : State) (at_ a : Word) (bs : List Byte) (sub : Region),
    Reads (readK r1) s at_ → Reads (readK r2) s a → at_.toNat % 64 = 0 → nonePosted s →
    readVia s (s.view s.issue.ctx) at_.toNat 64 = .ok (bs, t) →
    let entry := fieldW bs 0
    let join := fieldW bs 0x10
    let image := fieldW bs 0x20
    let b := field bs 0x28 1
    let bank := field bs 0x29 1
    entry.toNat % 8 = 0 → image.toNat % 256 = 0 → bitsAt b 0 2 ≠ 3 → bitsAt b 2 3 ≤ 4 → bitsAt b 5 3 = 0 →
    zeroField bs 0x2A 22 = true → (if image = 0 then bank ≤ 4 else bank = 0) →
    (if join = 0 then u = t else ∃ pa, translateCounter t (t.view t.issue.ctx) join .counterAdd = .ok (pa, u)) →
    readRegion u (packageView (issuer s).region.space) (fieldW bs 0x18) = .ok (sub, v) → inSubtree sub (issuer s).region = true →
    (v.core (coreOf v.issue.ctx)).deque.length < 256 → quiet v →
    exec (.fork r1 r2) s = .next ((released v).updCore (coreOf s.issue.ctx) (fun k => { k with deque :=
      { entry := entry
        arg := a
        join := join
        image := image
        role := bitsAt b 0 2
        scope := (Scope.ofCode (bitsAt b 2 3)).getD .core
        bank := bank
        region := sub
        from_ := BitVec.ofNat 16 s.issue.ctx
        interval := (issuer (released v)).interval } :: k.deque }))) ∧
  (∀ (dst pkt : BitVec 5) (s t u v w : State) (a : Word) (bs : List Byte) (r : Region) (lpa l cpa done : Nat) (ps : List Span) (x : State),
    Reads (readK pkt) s a → a.toNat % 64 = 0 → nonePosted s → Gives (loadStrict false 64 a.toNat 64) s bs t →
    packetOk bs = true → readRegion t (packageView (t.ctx t.issue.ctx).region.space) (fieldW bs 0x10) = .ok (r, u) →
    inSubtree r (t.ctx t.issue.ctx).region = true → ringUsable u r = true → ringCounters u r = .ok ((lpa, l), (cpa, done), v) →
    translateRange v (packageView r.space) (slotVa r l) 64 .write = .ok (ps, x) → l - done < r.ringSize → quiet v →
    writeVia (released v) (packageView r.space) (v.ctxWriter t.issue.ctx (v.ctx t.issue.ctx).interval) (slotVa r l) bs = .ok w →
    exec (.launch dst pkt) s = .next (awaiting
      (serveRing (packageAdd w r r.launchCtr 1 none (some (BitVec.ofNat 16 t.issue.ctx, (issuer (released v)).interval)))
        r (t.ctx t.issue.ctx).region.space done (l + 1)) [(fK, dst.toNat)] (some ([BitVec.ofNat 2048 l], none)))) ∧
  (∀ (rel : Bool) (len tgt src : BitVec 5) (off : BitVec 30) (s t u : State) (k a : Word) (ps : List Span) (bs : List Byte) (j : Nat)
    (e : Option (BitVec 8 × Word)), Reads (readK tgt) s k → Reads (readK src) s a → k.toNat % 4 = 0 → k.toNat < 4096 → coreValid (k.toNat / 4) = true →
    (s.core (k.toNat / 4)).present = true → a.toNat % 8 = 0 →
    Gives (accessSpans .read 8 [(a.toNat, 8 * (len.toNat + 1))]) s ps t → freeInbox t (k.toNat / 4) t.issue.ctx = some j →
    nonePosted t → badSpan t ps = none →
    readFor t (t.issuerOf t.issue.ctx) false ps = ((bs, e), u) → u.issue = t.issue →
    let v := if rel then released u else u
    exec (.msend rel len tgt src off) s = .next { sendMsg v (k.toNat / 4)
      { slot := j
        sender := t.issue.ctx
        seq := u.issue.order
        interval := (v.ctx t.issue.ctx).interval
        region := (u.ctx t.issue.ctx).region
        handler := u.issue.addr + (off.signExtend 64 <<< 3)
        payload := bs
        rel := rel
        order := u.nextId } with nextId := u.nextId + 1 })

/-- R269 to R274, R368, R421: an engine command is read, checked and accepted into the free shadow of its engine; ESTAT reads
an engine's state word. R370, R451: SWAP locks the shadow plane when it first waits, goes on when its task waits for no flip
any more, and traps on an empty shadow. -/
def Obligations.EngineCommands : Prop :=
  ((∀ (f : EngArgs) (s t u : State) (rec_ ctr : Word) (bs : List Byte) (pa : Nat), Reads (readK f.cmd) s rec_ →
    Reads (readK f.ctr) s ctr → Gives (readCmdRec rec_) s bs t → translateCounter t (t.view t.issue.ctx) ctr .counterAdd = .ok (pa, u) →
    let cl := clusterOf u.issue.ctx
    let takes (e : EngineId) (form : Nat) (out : Host.Outcome State Fault Refusal) : Prop := (u.engine e).shadow = none →
      out = .next (accepted u e form f.bits rec_ bs ctr f.amount.toNat)
    (∀ eng : BitVec 2,
      (Reads (checkRecord 0x13 rec_ bs) t () → takes (pickCopy u cl eng.toNat) 0x13 (exec (.ecopy eng f) s)) ∧
      (Reads (checkRecord 0x16 rec_ bs) t () → takes (pickCopy u cl eng.toNat) 0x16 (exec (.efill eng f) s)) ∧
      (Reads (checkRecord 0x17 rec_ bs) t () → takes (pickCopy u cl eng.toNat) 0x17 (exec (.econv eng f) s))) ∧
    (Reads (checkRecord 0x14 rec_ bs) t () → takes (pickGs u cl) 0x14 (exec (.egather f) s)) ∧
    (Reads (checkRecord 0x15 rec_ bs) t () → takes (pickGs u cl) 0x15 (exec (.escatter f) s)) ∧
    (collOk (t.die (dieOf t.issue.ctx)).mesh bs = true →
      takes (.collective (dieOf t.issue.ctx)) 0x18 (exec (.ecoll f) s)) ∧
    (planeRecOk bs = true → field bs 0 8 % 256 = 0 → takes (.loader (field bs 0xB 1)) 0x19 (exec (.eplane f) s))) ∧
  ∀ (dst : BitVec 5) (n : BitVec 3) (s : State), exec (.estat dst n) s = .next (awaiting s [(fK, dst.toNat)]
    (some ([(statWord s (statEngine s.issue.ctx n.toNat)).setWidth 2048], none)))) ∧
  (∀ (ctr : Option (BitVec 5)) (s t : State) (p : Option Word),
    (match ctr with
      | none => t = s ∧ p = none
      | some k => ∃ va pa, Reads (readK k) s va ∧ p = some va ∧
          translateCounter s (s.view s.issue.ctx) va .counterAdd = .ok (pa, t)) →
    let c := t.issue.ctx
    let k := t.core (coreOf c)
    ((t.ctx c).waitAct = true → swapPending t (t.ctx c).tid = false → exec (.swap ctr) s = .next t) ∧
    ((t.ctx c).waitAct = false → (k.shadow.isEmpty = false ∨ shadowLoading t (coreOf c) = true) →
      exec (.swap ctr) s = .next (stopped s (.held (waitRetry ((swapLocked t c p).updCtx c (fun x => { x with waitAct := true }))
        c .swap)))) ∧
    ((t.ctx c).waitAct = false → k.shadow.isEmpty = true → shadowLoading t (coreOf c) = false →
      exec (.swap ctr) s = .next (stopped s (.trap false 0x01 (BitVec.ofNat 64 t.issue.word)))))

/-! ### Sequences, frames and placements -/

/-- R325, R328, R339, R340, R355: SQNEW makes a sequence with the lowest free id or the one it names, SQFORK a child with the
parent's committed pages, SQFREE ends one, and SQSTAT reads one; a request waits while a delivery of its sequence is open. -/
def Obligations.SequenceLifetimes : Prop :=
  ∀ (dst r1 r2 : BitVec 5) (s : State), quiet s →
    let c := s.issue.ctx
    let sp := (issuer s).region.space
    (∀ (a : Word) (bs : List Byte) (t u v : State) (id b : Nat), Reads (readRecAddr r1) s a →
      readVia s (packageView sp) a.toNat 128 = .ok (bs, t) → creationOk bs = true →
      (creationPages t (t.ctx c).region.space bs).bind (fun x => joinCohort x (t.ctx c).region bs) = some u →
      pickId u (field bs 0 2) = some id → allocReserved u 2 = some (b, v) →
      exec (.sqnew dst r1) s = .next (replied s (putSeq v id (seqOf v (t.ctx c).region bs b)) none dst (BitVec.ofNat 64 id))) ∧
    ∀ (kid : Word) (q : Seq), Reads (readK r1) s kid → mayName s kid q →
      let replies (t : State) (w : Word) (out : Host.Outcome State Fault Refusal) : Prop :=
        out = .next (replied s t (some kid.toNat) dst w)
      (s.seqBusy kid.toNat = false →
        (∀ (a : Word) (bs half : List Byte) (t u v w x : State) (id b : Nat), Reads (readRecAddr r2) s a →
          readVia s (packageView sp) a.toNat 128 = .ok (bs, t) →
          let ext := takePages ((q.c + 15) / 16) q.extents
          (∀ f ∈ pageFrames ext, (frameOf t f).count < 65535) → creationOk bs = true →
          (creationPages t (t.ctx c).region.space bs).bind (fun x => joinCohort x (t.ctx c).region bs) = some u →
          pickId u (field bs 0 2) = some id → allocReserved u 2 = some (b, v) →
          let p := seqOf v (t.ctx c).region bs b
          let n := if p.penalty = 0 then 0 else p.penHalf
          (if q.penalty = 0 ∨ n = 0 then half = [] ∧ w = v else
            readVia v (packageView (v.ctx c).region.space) q.penalty.toNat (min q.penHalf n) = .ok (half, w)) →
          writeVia w (packageView (w.ctx c).region.space) w.pkgWriter p.penalty.toNat
            (if p.penalty = 0 then [] else childHalf half p.penHalf ++ childHalf half p.penHalf) = .ok x →
          replies (putSeq ((pageFrames ext).foldl (fun s f => updFrame s f (fun y => { y with count := y.count + 1 })) x) id
            (childOf q p ext)) (BitVec.ofNat 64 id) (exec (.sqfork dst r1 r2) s)) ∧
        (requanting s kid.toNat = false → q.st ≠ 0 → q.st ≠ 4 → q.st < 8 →
          replies (leaveCohort { dropFrames s q with seqs := Map.erase s.seqs kid.toNat } q) 0 (exec (.sqfree dst r1) s)) ∧
        ∀ sel : BitVec 5, replies s (statOf q sel.toNat) (exec (.sqstat dst r1 sel) s)) ∧
      (s.seqBusy kid.toNat = true → ∀ (sel : BitVec 5) (a : Word), Reads (readRecAddr r2) s a →
        ∀ i ∈ [Instr.sqfree dst r1, .sqstat dst r1 sel, .sqtree dst r1 r2, .sqacc dst r1 r2, .sqcommit none dst r1],
          exec i s = .next (stopped s (.held s)))

/-- R341, R342, R347, R351: SQTREE takes a tree, SQACC accepts a path of it with a table and draws its stream, SQREWIND goes
back to the count that the host has acknowledged at the earliest, and SQPREEMPT and SQRESUME save and restore a sequence. -/
def Obligations.SequenceTrees : Prop :=
  ∀ (dst r1 r2 : BitVec 5) (s : State) (kid : Word) (q : Seq), quiet s → Reads (readK r1) s kid → mayName s kid q →
    q.follower = false → s.seqBusy kid.toNat = false →
    let c := s.issue.ctx
    let id := kid.toNat
    let sp := (issuer s).region.space
    let replies (t : State) (q : Seq) (w : Word) (out : Host.Outcome State Fault Refusal) : Prop :=
      out = .next (replied s (putSeq t id q) (some id) dst w)
    (∀ (a : Word) (h bs : List Byte) (t u : State), Reads (readRecAddr r2) s a → q.st = 1 ∨ q.st = 2 ∨ q.st = 3 →
      (∀ n, q.cohort = some n → checkPhase s n = false) → readVia s (packageView sp) a.toNat 16 = .ok (h, t) →
      let m := field h 0 1
      1 ≤ m → m ≤ 64 → zeroField h 1 15 = true →
      readVia t (packageView (t.ctx c).region.space) (a + 16).toNat (16 * m) = .ok (bs, u) →
      treeOk bs m q.pendTok = true →
      replies u { q with st := 2, nodes := nodesOf bs m, acc := none } 0 (exec (.sqtree dst r1 r2) s)) ∧
    (∀ (a : Word) (bs : List Byte) (t : State), Reads (readRecAddr r2) s a → q.st = 2 →
      (∀ n, q.cohort = some n → checkPhase s n = true) → a ≠ 0 → readVia s (packageView sp) a.toNat 1040 = .ok (bs, t) →
      let r := acceptWalk q id bs
      let w := accWord r.1 r.2.1 r.2.2
      let q' : Seq := { q with
        st := 3
        work := q.work + BitVec.ofNat 128 ((r.2.2 + 3) / 4)
        acc := some { path := r.1, correction := r.2.1, result := w, table := a }
        lastAcc := w }
      replies (toFollowers t id q' (.accept w r.1 r.2.1 q'.work)) q' w (exec (.sqacc dst r1 r2) s)) ∧
    (∀ (n : Word) (bs : List Byte) (t : State), Reads (readK r2) s n → q.st = 1 ∨ q.st = 7 →
      readVia s (packageView sp) q.ack.toNat 8 = .ok (bs, t) →
      let low := leNat bs
      let back : Int := (q.c : Int) - n.toNat
      let c' := (max back low).toNat
      replies t { q with
          st := 1
          c := c'
          ackRead := BitVec.ofNat 64 low
          pendTok := none
          carried := [] }
        (BitVec.ofNat 64 ((if back < low then 11 * 2 ^ 56 else 0) + c' % 2 ^ 32)) (exec (.sqrewind dst r1 r2) s)) ∧
    (∀ (table : List Byte) (t u : State), q.st = 1 ∨ q.st = 2 ∨ q.st = 3 →
      (match q.acc with
        | some a => if q.st = 3 then readVia s (packageView sp) a.table.toNat 1040 = .ok (table, t) else
            t = s ∧ table = leBytes 1040 0
        | none => t = s ∧ table = leBytes 1040 0) →
      writeVia t (packageView (t.ctx c).region.space) t.pkgWriter q.save.toNat (saveHead q ++ table) = .ok u →
      replies u { q with st := 6, nodes := [], acc := none } 0 (exec (.sqpreempt dst r1) s)) ∧
    ∀ (a : Word) (bs : List Byte) (t u : State), Reads (readRecAddr r2) s a → q.st = 6 →
      readVia s (packageView sp) q.save.toNat 2128 = .ok (bs, t) → saveOk bs q.pendTok = true →
      let table := if a = 0 then fieldW bs 0x20 else a
      (if table = 0 then u = t else writeVia t (packageView (t.ctx c).region.space) t.pkgWriter table.toNat
        ((bs.drop 0x440).take 1040) = .ok u) →
      replies u (resumed q bs table) 0 (exec (.sqresume dst r1 r2) s)

/-- R344 to R346: SQCOMMIT adds its tokens to the sequence, copies the penalty block of an accepted path, matches the stop
strings, delivers its records, and lands its result; where there are records, the result and what the followers are sent wait
for their acknowledgement. Where the ring or the host counter cannot be written, the sequence is stopped and the failure
reported with cause 0x19 (that the result lands at once, with the records written and the stop bit, is the model's reading, log
entry 59). -/
def Obligations.SequenceCommits : Prop :=
  ∀ (dst r1 : BitVec 5) (s t u v : State) (kid : Word) (q : Seq) (m : Matched), quiet s → Reads (readK r1) s kid →
    mayName s kid q → q.follower = false → s.seqBusy kid.toNat = false →
    let c := s.issue.ctx
    let id := kid.toNat
    let sp := (issuer s).region.space
    let ends (q1 : Seq) (msg : FollowMsg) (out : Host.Outcome State Fault Refusal) : Prop :=
      let q2 : Seq := { q1 with carried := m.carried, delivered := (q1.delivered + m.records.length) % 2 ^ 64 }
      let w := commitWord q1.c m.records.length m.stopped
      (sendRecords u (u.ctx c).region.space q1 m.records = .ok v →
        out = .next (if m.records = [] then replied s (putSeq (toFollowers v id q1 msg) id q2) (some id) dst w else
          resultLands s (putSeq { v with deliveries := v.deliveries ++
            [{ id := id, ctx := c, pend := v.issue.order, result := w, msg := msg }] } id q2) (some id) dst none)) ∧
      ∀ k : Nat, sendRecords u (u.ctx c).region.space q1 m.records = .error (k, v) →
        let x := faultRecord v q1.region 4 0x19 0 0 q1.hostCtr
        out = .next (replied s (putSeq (toFollowers x id { q1 with carried := m.carried } (failedMsg k msg)) id
          { q1 with st := 7, carried := m.carried, delivered := (q1.delivered + k) % 2 ^ 64 }) (some id) dst
          (commitWord q1.c k true))
    (∀ (k : BitVec 5) (tok : Option (BitVec 24)) (n : Word), Reads (readK k) s n → q.st = 1 →
      (q.c + n.toNat + 15) / 16 ≤ pagesHeld q.extents → u = t →
      (if tok = none then m = ⟨[], q.carried, false⟩ ∧ t = s else
        matchCommit s sp q (listToks q.c tok.toList false) = .ok (m, t)) →
      ends (committed q n.toNat tok m.stopped false) (.commitDirect n.toNat tok m.stopped)
        (exec (.sqcommit (some (k, tok)) dst r1) s)) ∧
    ∀ a : Accept, q.st = 5 → q.acc = some a →
      matchCommit s sp q (listToks q.c (pathTokens q a.path ++ [a.correction]) true) = .ok (m, t) →
      commitPenalty t (t.ctx c).region.space q = .ok u →
      ends (committed q a.path.length (some a.correction) m.stopped true) (.commit m.records.length m.stopped)
        (exec (.sqcommit none dst r1) s)

/-- R331, R336, R337, R343, R353, R354: a map of a position to its address, with the two forms of binding; the pages of new
positions; and the acceptance of a compaction and of a requantisation. R326: a request on an id that no sequence has is refused
with reason 1, one on an id of another region with reason 13 and an outside trap, and one of a follower's with reason 10;
nothing else happens. -/
def Obligations.KvRequests : Prop :=
  (∀ (dst r1 r2 : BitVec 5) (s : State), quiet s → (issuer s).region.space.asid = s.geom.asid →
    (∀ (kid x : Word) (q : Seq), Reads (readK r1) s kid → Reads (readK r2) s x → mayName s kid q → s.seqBusy kid.toNat = false →
      let replies (t : State) (w : Word) (out : Host.Outcome State Fault Refusal) : Prop :=
        out = .next (replied s t (some kid.toNat) dst w)
      (∀ (slot : Bool) (layer : BitVec 16),
        (∀ f pos : Nat, kvPlace s.geom q slot x.toNat layer.toNat = some (f, pos) →
          let w := kvWord s s.issue.ctx f pos layer.toNat
          replies s w (exec (.kvmap slot .none dst r1 r2 layer) s) ∧
          ((frameOf s f).bind ≠ 255 →
            replies (updFrame s f (fun y => { y with bind := y.bind + 1 })) w (exec (.kvmap slot .bind dst r1 r2 layer) s)) ∧
          ((frameOf s f).bind = 255 → replies s 0xFFFFFFFFFFFFFF07 (exec (.kvmap slot .bind dst r1 r2 layer) s))) ∧
        (kvPlace s.geom q slot x.toNat layer.toNat = none → ∀ b : KvBind, b ≠ .rel →
          replies s 0xFFFFFFFFFFFFFF08 (exec (.kvmap slot b dst r1 r2 layer) s)) ∧
        ∀ f : Nat, boundFrame s s.issue.ctx x = some f →
          replies (reclaim (updFrame s f (fun y => { y with bind := y.bind - 1 })) f) 0 (exec (.kvmap slot .rel dst r1 r2 layer) s)) ∧
      ∀ (ext : List Extent) (t : State), 1 ≤ x.toNat → x.toNat ≤ 1024 → q.st ≠ 0 → q.st ≠ 4 → q.st < 8 →
        appendRange (issuer s).region.space s.issue.ctx s q.extents q.c x.toNat = .ok (ext, t) →
        replies (putSeq t kid.toNat { q with extents := ext }) (BitVec.ofNat 64 ((pageFrame ext (q.c / 16)).getD 0))
          (exec (.kvappend dst r1 r2) s)) ∧
    ∀ (bits : EngBits) (amount : BitVec 30) (va : Word) (pa : Nat) (t : State), Reads (readK r2) s va → amount ≠ 0 →
      translateCounter s (s.view s.issue.ctx) va .counterAdd = .ok (pa, t) → quiet t →
      let c := t.issue.ctx
      let i := (t.ctx c).interval
      let u := if bits.rel then t.updCtx c (fun x => { x with interval := x.interval + 1 }) else t
      (t.ctx c).region.space.asid = t.geom.asid →
      (∀ (kid : Word) (q : Seq) (a : Accept) (ext : List Extent) (v : State), Reads (readK r1) s kid → mayName t kid q →
        t.seqBusy kid.toNat = false → q.st = 3 → q.acc = some a →
        appendRange (t.ctx c).region.space c t q.extents q.c a.path.length = .ok (ext, v) →
        exec (.kvcompact bits dst r1 r2 amount) s = .next (replied t (issueCmd (putSeq (startJob v
          { cmd := kvCmd t c 0x28 bits va amount.toNat i [], id := kid.toNat, c := q.c, path := a.path })
          kid.toNat { q with st := 4, extents := ext }) c bits) (some kid.toNat) dst 0)) ∧
      ∀ (a : Word) (q : Seq) (bs : List Byte) (ty : ElemTy) (v w : State) (f g : Nat), Reads (readRecAddr r1) s a →
        readVia u (packageView (u.ctx c).region.space) a.toNat 64 = .ok (bs, v) → requantFmt bs = some ty →
        let id := field bs 0 2
        requantId a t = some id → t.seqBusy id = false →
        mayName v (BitVec.ofNat 64 id) q → v.issue.ctx = c → q.st ≠ 0 → q.st ≠ 4 → q.st < 8 →
        pageFrame q.extents (field bs 4 4) = some f → (frameOf v f).count = 1 → allocReserved v 0 = some (g, w) →
        exec (.kvrequant bits dst r1 r2 amount) s = .next (replied t (putSeq (startJob w
          { cmd := kvCmd t c 0x29 bits va amount.toNat i bs
            id := id
            page := field bs 4 4
            old := f
            new := g
            fmt := ty.code.toNat }) id q) (some id) dst 0)) ∧
  (∀ (dst r1 r2 sel : BitVec 5) (s : State) (kid x : Word), quiet s → Reads (readK r1) s kid → Reads (readK r2) s x →
    Reads (readRecAddr r2) s x → requanting s kid.toNat = false → s.seqBusy kid.toNat = false →
    let forms : List Instr := [.sqfork dst r1 r2, .sqtree dst r1 r2, .sqacc dst r1 r2, .sqrewind dst r1 r2, .sqresume dst r1 r2,
      .sqfree dst r1, .sqpreempt dst r1, .sqstat dst r1 sel, .sqcommit none dst r1]
    let refused (t : State) (n : Nat) (i : Instr) : Prop :=
      exec i s = .next (replied s t (some kid.toNat) dst (BitVec.ofNat 64 (2 ^ 63 + n * 2 ^ 56)))
    (kid.toNat < 2 ^ 15 → Map.find? s.seqs kid.toNat = none → ∀ i ∈ forms, refused s 1 i) ∧
    (2 ^ 15 ≤ kid.toNat ∨ (∃ q, Map.find? s.seqs kid.toNat = some q ∧ inSubtree q.region (issuer s).region = false) →
      ∀ i ∈ forms, refused (trapOutside s s.issue.ctx 0x05 kid) 13 i) ∧
    ∀ q : Seq, mayName s kid q → q.follower = true →
      ∀ i ∈ [Instr.sqtree dst r1 r2, .sqacc dst r1 r2, .sqrewind dst r1 r2, .sqresume dst r1 r2, .sqpreempt dst r1, .sqcommit none dst r1],
        refused s 10 i)

/-- R413, R418, R419: PDECL declares a descriptor in the first free entry, or finds it declared; PREL releases its generation;
PCONV asks for a placement and releases; PQRY reads the entry of its die. The order of PDECL's answers (declared, no mesh,
invalid, full), the lowest free entry and the demands gathered before the declaration are the model's reading (log entry 64). -/
def Obligations.PlacementForms : Prop :=
  ∀ (dst desc : BitVec 5) (s : State) (a : Word), Reads (readK desc) s a → a.toNat % 128 = 0 →
    let c := s.issue.ctx
    let d := dieOf c
    let r := (issuer s).region
    let reply (t : State) (n : Nat) : State := awaiting t [(fK, dst.toNat)] (some ([BitVec.ofNat 2048 n], none))
    (∀ i q, findPlaced s d a r.space.asid = some (i, q) →
      exec (.pdecl dst desc) s = .next (reply s (2 ^ 62 + i)) ∧
      (∀ sel : BitVec 2, exec (.pqry dst desc sel) s = .next (reply s (queryWord q sel.toNat))) ∧
      (quiet s →
        exec (.prel false desc) s = .next (releaseGen s d a q.asid) ∧
        (∀ t, t = releaseGen s d a q.asid → exec (.prel true desc) s =
          .next (sweepDrops (updPlaced t d a q.asid (fun x => { x with drop := true })) d)) ∧
        ∀ (demand : BitVec 12) (t : State) (g : Option Nat), Reads (checkDemand q demand.toNat) s () →
          queueDemand s d q demand.toNat true = (t, g) →
          exec (.pconv dst desc demand) s = .next (
            let u := releaseGen t d a q.asid
            match g with
            | some g => reply u g
            | none => awaiting (updPlaced u d a q.asid (fun x =>
                { x with asking := x.asking ++ [(c, u.issue.order, demand.toNat)] })) [(fK, dst.toNat)] none))) ∧
    (findPlaced s d a r.space.asid = none →
      (s.rank d = none → exec (.pdecl dst desc) s = .next (reply s (2 ^ 63 + 4 * 2 ^ 56))) ∧
      (s.rank d ≠ none →
        ∀ (bs : List Byte) (t : State), nonePosted s → Gives (loadStrict false 128 a.toNat 128) s bs t →
          (dtdOk (s.die d).mesh bs = false → exec (.pdecl dst desc) s = .next (reply t (2 ^ 63 + 2 * 2 ^ 56))) ∧
          (dtdOk (s.die d).mesh bs = true →
            ((∀ i < 64, ∃ e ∈ (s.die d).placed, e.1 = i) →
              exec (.pdecl dst desc) s = .next (reply t (2 ^ 63 + 1 * 2 ^ 56))) ∧
            ∀ i : Nat, i < 64 → (∀ e ∈ (s.die d).placed, e.1 ≠ i) → (∀ j < i, ∃ e ∈ (s.die d).placed, e.1 = j) →
              exec (.pdecl dst desc) s = .next (
                let q : Placed := { addr := a, record := bs, region := r, placement := dtdCodes bs }
                reply (gatherPending (t.updDie d (fun x => { x with placed := x.placed ++ [(i, q)] })) d q) i))))

/-! ### System registers and traps -/

/-- R88, R137 to R139: CSRR lands the value of a system register before the bundle, CSRW changes one at the end of its bundle; an
unassigned number, a reserved bit set and an invalid rounding mode are illegal, and a protected register needs privilege. R307 to
R309: a CSRW to sys.tlbinv of an aligned record of the context's own address space submits an invalidation to its die; one of
another address space, and one without privilege, is a privilege trap. That reserved bits come before the privilege (log entry
31), and the address space of a record before its counter (log entry 32), is the model's reading. -/
def Obligations.SystemRegisters : Prop :=
  ((∀ (dst : BitVec 5) (num : BitVec 12) (s : State),
    ((csrReserved num.toNat).isSome = true → exec (.csrr dst num) s =
      .next (scheduled s (.setReg fK dst.toNat ((csrRead s num.toNat).setWidth 2048)))) ∧
    (csrReserved num.toNat = none →
      exec (.csrr dst num) s = .next (stopped s (.trap true 0x01 (BitVec.ofNat 64 s.issue.word))) ∧
      ∀ op : CsrOp, exec (.csrw op dst num) s = .next (stopped s (.trap true 0x01 (BitVec.ofNat 64 s.issue.word))))) ∧
  ∀ (op : CsrOp) (src : BitVec 5) (num : BitVec 12) (s : State) (v : Word) (rsv : Nat), Reads (readK src) s v →
    csrReserved num.toNat = some rsv → num.toNat ≠ 0x022 →
    let old := (issuer s).mode
    (op = .clr ∨ Nat.land v.toNat rsv = 0 →
      (num.toNat = 0x020 → (issuer s).priv = false → exec (.csrw op src num) s =
        .next (stopped s (.trap false 0x02 0x020))) ∧
      (num.toNat = 0x000 → 5 ≤ (csrApply op old v).toNat % 8 → exec (.csrw op src num) s =
        .next (stopped s (.trap false 0x01 (BitVec.ofNat 64 s.issue.word)))) ∧
      ((num.toNat = 0x020 → (issuer s).priv = true) → (num.toNat = 0x000 → (csrApply op old v).toNat % 8 < 5) →
        exec (.csrw op src num) s = .next (scheduled s (.csr num.toNat op v)))) ∧
    (op ≠ .clr → Nat.land v.toNat rsv ≠ 0 → exec (.csrw op src num) s =
      .next (stopped s (.trap false 0x01 (BitVec.ofNat 64 s.issue.word))))) ∧
  (∀ (src : BitVec 5) (s : State) (v : Word), Reads (readK src) s v →
    ((issuer s).priv = false → exec (.csrw .write src 0x022) s = .next (stopped s (.trap false 0x02 0x022))) ∧
    ((issuer s).priv = true → (s.die (dieOf s.issue.ctx)).invals.length < 16 →
      (v.toNat % 32 ≠ 0 → exec (.csrw .write src 0x022) s = .next (stopped s (.trap false 0x03 v))) ∧
      (v.toNat % 32 = 0 → nonePosted s → ∀ (bs : List Byte) (t : State) (r : InvalRec), Gives (loadStrict false 32 v.toNat 32) s bs t →
        parseInval bs = some r →
        (r.op = 3 ∨ r.asid ≠ (issuer s).region.space.asid →
          exec (.csrw .write src 0x022) s = .next (stopped s (.trap false 0x02 0x022))) ∧
        (r.op ≠ 3 → r.asid = (issuer s).region.space.asid → ∀ (pa : Nat) (u : State),
          translateCounter t (t.view s.issue.ctx) r.ctr .counterAdd = .ok (pa, u) →
          exec (.csrw .write src 0x022) s = .next (u.updDie (dieOf s.issue.ctx) (fun d => { d with invals := d.invals ++ [
            { op := r.op
              scope := r.scope
              asid := r.asid
              va := r.va
              len := r.len
              ctrVa := r.ctr
              ctx := s.issue.ctx
              tid := (issuer s).tid
              seq := t.issue.order
              region := (issuer s).region
              interval := (issuer s).interval }] }))))))

/-- R87, R137, R139: what a CSRW changes at the end of its bundle: the writable fields of its register and nothing else. -/
def Obligations.SystemRegisterWrites : Prop :=
  ∀ (s : State) (c : Nat) (op : CsrOp) (v : Word),
    let x := s.ctx c
    let up (f : Ctx → Ctx) : State := s.updCtx c f
    csrWrite s c 0x000 op v = up (fun x => { x with mode := (x.mode &&& 0x3C00) ||| (csrApply op x.mode v &&& 0x3FF) }) ∧
    csrWrite s c 0x001 op v = up (fun x => { x with fflags := csrApply op x.fflags v &&& 0x3F }) ∧
    csrWrite s c 0x002 op v = up (fun x => { x with rkey := csrApply op x.rkey v }) ∧
    csrWrite s c 0x003 op v = up (fun x => { x with rctr := (x.rctr >>> 64).setWidth 64 ++ csrApply op (x.rctr.setWidth 64) v }) ∧
    csrWrite s c 0x004 op v = up (fun x => { x with rctr := csrApply op ((x.rctr >>> 64).setWidth 64) v ++ x.rctr.setWidth 64 }) ∧
    (∀ n ∈ [0x005, 0x006, 0x007, 0x008, 0x010, 0x011, 0x012, 0x013, 0x030, 0x031], csrWrite s c n op v = s) ∧
    (∀ n, n = csrApply op x.maxred v &&& 0x1FFF →
      csrWrite s c 0x021 op v =
        (if n.toNat % 32 = 0 ∧ 32 ≤ n.toNat ∧ n.toNat ≤ 4096 then up (fun x => { x with maxred := n }) else s)) ∧
    (∀ n, n = csrApply op (s.core (coreOf c)).ageing v &&& 0x1F →
      csrWrite s c 0x020 op v =
        (if 4 ≤ n.toNat ∧ n.toNat ≤ 16 then s.updCore (coreOf c) (fun k => { k with ageing := n }) else s))

/-- R141, R142, R144: BKPT traps at its bundle with its code; TRAP, SNAP and ERET take place after the whole bundle; ERET needs
privilege, and its target must be aligned. R143, R145: WATCH arms an entry that no other context has armed, or disarms it, and
gives its state before; CRESET asks for the reset of a core, with privilege. -/
def Obligations.TrapForms : Prop :=
  (∀ s : State,
    (∀ code : BitVec 30, exec (.bkpt code) s = .next (stopped s (.trap false 0x28 (code.setWidth 64))) ∧
      exec (.trap code) s = .next (scheduled s (.trapAfter (code.setWidth 64)))) ∧
    (∀ tag : BitVec 16, exec (.snap tag) s = .next (scheduled s (.snap tag))) ∧
    ((issuer s).delay = false → s.issue.kind ≠ 1 →
      ((issuer s).priv = false → ∀ k, exec (.eret k) s = .next (stopped s (.trap false 0x02 0x31))) ∧
      ((issuer s).priv = true → exec (.eret none) s = .next (scheduled s (.eret none)) ∧
        ∀ (k : BitVec 5) (t : Word), Reads (readK k) s t →
          (t.toNat % 8 = 0 → exec (.eret (some k)) s = .next (scheduled s (.eret (some t)))) ∧
          (t.toNat % 8 ≠ 0 → exec (.eret (some k)) s = .next (stopped s (.trap false 0x03 t)))))) ∧
  ((∀ (arm shut : Bool) (dst r1 r2 : BitVec 5) (entry : BitVec 3) (s : State) (b n : Word),
    (if arm then Reads (readK r1) s b ∧ Reads (readK r2) s n ∧ n ≠ 0 ∧ n.toNat ≤ 2 ^ 24 else b = 0 ∧ n = 0) →
    let c := s.issue.ctx
    let old := List.find? (fun (x : Nat × WatchEntry) => x.1 == entry.toNat) (s.core (coreOf c)).watch
    let lo := b.toNat / 64 * 64
    let size := (n.toNat + 63) / 64 * 64
    let e : WatchEntry := { owner := c, base := BitVec.ofNat 64 lo, len := size, shut := shut, pages := watchPages s (s.view c) lo size }
    let gives (t : State) (state : Nat) : Prop := exec (.watch arm shut dst r1 r2 entry) s =
      .next (scheduled t (.setReg fK dst.toNat (BitVec.ofNat 2048 state)))
    let put : State := s.updCore (coreOf c) (fun k =>
      let rest := k.watch.filter (fun x => x.1 != entry.toNat)
      { k with watch := if arm then rest ++ [(entry.toNat, e)] else rest })
    (old = none → gives put 0) ∧
    (∀ m x, old = some (m, x) → x.owner = c → gives put 1) ∧
    (∀ m x, old = some (m, x) → x.owner ≠ c → gives s 2)) ∧
  ∀ (r1 r2 : BitVec 5) (s : State),
    ((issuer s).priv = false → exec (.creset r1 r2) s = .next (stopped s (.trap false 0x02 0x35))) ∧
    ((issuer s).priv = true → ∀ (k a : Word) (pa : Nat) (t : State), Reads (readK r1) s k → Reads (readK r2) s a →
      k.toNat % 4 = 0 → k.toNat < 4096 → coreValid (k.toNat / 4) = true →
      (translateCounter s (s.view s.issue.ctx) a .counterAdd = .ok (pa, t) →
        exec (.creset r1 r2) s = .next { t with resets := t.resets ++ [
          { core := k.toNat / 4
            ctx := t.issue.ctx
            tid := (issuer s).tid
            seq := t.issue.order
            region := (issuer s).region
            ctrVa := a }] }) ∧
      ∀ tv : Word, translateCounter s (s.view s.issue.ctx) a .counterAdd = .error (0x05, tv) →
        countable (confirmWalk s (s.view s.issue.ctx) 0x05 a.toNat) (s.view s.issue.ctx) a.toNat = false →
        exec (.creset r1 r2) s = .next (stopped s (.trap false 0x01 (BitVec.ofNat 64 s.issue.word)))))

/-- R105 to R108, R102: taking a trap. The context freezes with its cause, its detail and the address to resume at, keeping its
resume link and its stall; a dormant context of its core becomes its handler: privileged, ready at the region's trap entry,
with a bank of 64 registers and, in a0 to a4, the trapped context's number within the core and its four trap registers. The trapped
context keeps all else but its place in the waiting tables of the cores, which its core's next waiter may take; the other contexts,
memory, the dies, the clusters and the sequences are as they were. -/
def Obligations.TrapEntry : Prop :=
  ∀ (s : State) (c h : Nat) (cause : BitVec 8) (tval epc : Word), canonical s → (s.ctx c).run ≠ .dormant →
    dormantOn s (coreOf c) = some h → bankRoom s (coreOf c) 64 = true → withinBudget s (s.ctx c).region (coreOf c) = true →
    (s.ctx c).region.trapEntry ≠ 0 → (s.ctx c).isTrapHandler = false → s.shutter.causes.contains cause = false →
    let t := takeTrap s c cause tval epc
    (t.ctx c).run = .frozen ∧ (t.ctx c).cause = cause.setWidth 64 ∧ (t.ctx c).tval = tval ∧ (t.ctx c).epc = epc ∧
    (t.ctx c).npc = (s.ctx c).npc ∧ (t.ctx c).stall = (s.ctx c).stall ∧ (t.ctx c).mode = (s.ctx c).mode ∧
    (∀ f i, (t.ctx c).reg f i = (s.ctx c).reg f i) ∧
    t.ctx c = { s.ctx c with
      run := .frozen
      cause := cause.setWidth 64
      tval := tval
      epc := epc
      pc := epc
      wait := none } ∧
    (t.ctx h).run = .ready ∧ (t.ctx h).pc = (s.ctx c).region.trapEntry ∧ (t.ctx h).priv = true ∧ (t.ctx h).role = 3 ∧
    (t.ctx h).vregs = 64 ∧ (t.ctx h).task = .trapHandler c ∧ (t.ctx h).tmask = 0 ∧
    (∀ i < 5, (t.ctx h).reg fA i = [(BitVec.ofNat 64 (c % 4) : Word), cause.setWidth 64, epc, tval, (s.ctx c).npc][i]!.setWidth 2048) ∧
    (∀ d, d ≠ c → d ≠ h → t.ctx d = s.ctx d) ∧
    (∀ k, ∃ monitor sweep queue, t.core k = { s.core k with monitor := monitor, sweep := sweep, inboxQueue := queue }) ∧
    t = { s with ctxs := t.ctxs, cores := t.cores, nextId := s.nextId + 1 }

/-- R108, R142: ERET resumes the frozen context at its saved address with its link and its stall, ERET.to at an address with
neither; its registers, its mode and its landing list are as it left them. -/
def Obligations.TrapReturn : Prop :=
  ∀ (s : State) (h f : Nat) (k : Option Word), canonical s → (s.ctx h).task = .trapHandler f → f ≠ h →
    (s.ctx f).run = .frozen →
    let t := eretFrom s h k
    (t.ctx f).run = .ready ∧ (∀ r i, (t.ctx f).reg r i = (s.ctx f).reg r i) ∧ (t.ctx f).mode = (s.ctx f).mode ∧
    (t.ctx f).landing = (s.ctx f).landing ∧ (t.ctx f).fflags = (s.ctx f).fflags ∧
    (match k with
      | none => (t.ctx f).pc = (s.ctx f).epc ∧ (t.ctx f).npc = (s.ctx f).npc ∧ (t.ctx f).stall = (s.ctx f).stall
      | some a => (t.ctx f).pc = a ∧ (t.ctx f).npc = 0 ∧ (t.ctx f).stall = 0)

/-! ### The machine as a whole -/

/-- R58 to R70: words that the spec writes out in full decode to the instructions that it says they are. -/
def Obligations.WorkedWordsDecode : Prop :=
  decodeSlot .s0 0x1C000C0408000000 = .ok (.fadd .fp32
    { slot := .s0, h1 := false, h2 := false, w := false, u := false, dst := 3, a := .reg 1, b := .reg 2 }) ∧
  decodeSlot .v0 0x0400028011002000 = .ok (.vfma
    { slot := .v0, ty := .fp32, mask := none, dst := 10, a := .reg 4, b := .head 0, c := .bc, rnd := .ctx }) ∧
  decodeSlot .l 0x0310604080000100 = .ok (.vld .bf16 ⟨.w, 8⟩ 2 (.off 256)) ∧
  decodeSlot .t0 0x0401046000000100 = .ok (.tmma true .t0 0 2 3 256) ∧
  decodeSlot .x 0x0600005000000004 = .ok (.loop 0 (some 5) 4) ∧
  decodeSlot .x 0x2604242180000005 = .ok (.kvmap false .bind 9 2 6 5)

/-- R58 to R70: no bit of an encoding is dropped: the decoder reads back every well-formed instruction that the encoder writes,
with every operand at every value that its field admits. -/
def Obligations.RoundTrip : Prop :=
  ∀ i : Instr, Sys2Proof.Laws.Encoding.Statement i

/-- R49 to R71, R96, R236, R451: a step runs what stands at the program counter. The steps that a clock cycle holds are taken in
their order. Then the best context left is saved, where its save is due; else it tries its next bundle, the words it holds while
it waits, else those it fetches: one that cannot be fetched traps with the fault, one whose words do not decode with the
illegal-encoding cause and the index of the first such word, whether or not it is ready; one that is not ready changes nothing;
otherwise the step executes its instruction, or traps with the instruction's own trap, and the bundle ends. -/
def Obligations.StepRunsBundle : Prop :=
  (∀ (s : State) (i : Instr) (rest : List Instr), s.agenda = i :: rest → step s = exec i { s with agenda := rest }) ∧
  ∀ (s : State) (c : Nat) (rest : List Nat), s.agenda = [] → s.issuing = c :: rest →
    let now : State := { s with issuing := rest }
    let m := if (now.ctx c).waitAct && !(now.ctx c).heldWords.isEmpty then now else markFar now c
    (inRunning now c = false → step s = .next now) ∧
    (∀ why, inRunning now c = true → saveDue now c = some why →
      (settled now c = false → step s = .next now) ∧
      (settled now c = true → ∀ t, exec (.contextSave c why) now = .next t → t.saved.length ≠ s.saved.length → step s = .next t)) ∧
    (inRunning now c = true → saveDue now c = none →
      (∀ cause tval, nextBundle m c = .error (cause, tval) →
        step s = .next (takeTrap (confirmWalk m (m.view c) cause tval.toNat) c cause tval (m.ctx c).pc)) ∧
      ∀ (f : Fetched) (u : State), nextBundle m c = .ok (f, u) →
        (∀ w, decodeBundle (u.ctx c) f = .error w → step s = .next (takeTrap u c 0x01 (BitVec.ofNat 64 w) (m.ctx c).pc)) ∧
        ∀ (i : Instr) (slot : SlotId), decodeBundle (u.ctx c) f = .ok [⟨1, slot, i⟩] →
          let s0 := { u with issue := issueOf u c (u.ctx c).pc f.header }
          let probe := atSlot (s0.updCtx c (fun x => { x with rctr := (u.ctx c).rctr })) ⟨1, slot, i⟩
          let fails := (headsFail (u.ctx c) f.header [⟨1, slot, i⟩]).or (headerFails (u.ctx c) f.header)
          (bundleReady u c f.header [⟨1, slot, i⟩] = false → step s = .next u) ∧
          (bundleReady u c f.header [⟨1, slot, i⟩] = true → (∀ e ∈ u.issued, coreOf e.1 ≠ coreOf c) → ∀ p : State,
            exec i probe = .next p →
            (p.issue.verdict = .held → (p.ctx c).run = .ready → step s = .next u) ∧
            (p.issue.verdict ≠ .held → ∀ cause tval, fails = some (cause, tval) →
              step s = .next (takeTrap u c cause tval (u.ctx c).pc)) ∧
            (fails = none →
              (∀ t : State, p.issue.verdict = .ran →
                exec i (atSlot { s0 with issue := { s0.issue with commit := true } } ⟨1, slot, i⟩) = .next t →
                t.issue.verdict = .ran → step s = .next (endBundle t (u.ctx c))) ∧
              ∀ (enc : Bool) (cause : BitVec 8) (tval : Word), p.issue.verdict = .trapped enc cause tval →
                step s = .next (takeTrap u c cause tval (u.ctx c).pc))))

/-- R7, R86 to R97, R216, R274, R280, R371, R379: the values that the spec gives for reset, and the canonical form of reset's
empty memory. -/
def Obligations.ResetState : Prop :=
  canonical State.reset ∧
  (∀ c, (State.reset.ctx c).run = .dormant ∧ (State.reset.ctx c).mode = 0 ∧ (State.reset.ctx c).fflags = 0 ∧
    (State.reset.ctx c).vregs = 256 ∧ (State.reset.ctx c).tmask = 0 ∧ (State.reset.ctx c).interval = 0 ∧
    (State.reset.ctx c).cause = 0 ∧ (State.reset.ctx c).npc = 0 ∧ (State.reset.ctx c).maxred = 4096 ∧
    ∀ q, (Map.get {} (State.reset.ctx c).heads q).cond = .closed ∧ (Map.get {} (State.reset.ctx c).handles q).valid = false) ∧
  (∀ k, (State.reset.core k).ageing = 10 ∧ (State.reset.core k).reserve = 0 ∧ (State.reset.core k).pair0 = none ∧
    (State.reset.core k).pair1 = none ∧ (∀ t, statusWord State.reset k t = 0) ∧
    ∀ p ∈ [(State.reset.core k).active, (State.reset.core k).shadow], p.cond = .empty ∧ p.codeLen = 0 ∧ p.constLen = 0 ∧
      p.sets = 0 ∧ p.hasPairs = false) ∧
  (∀ cl, (State.reset.cluster cl).slice = 4 ∧ (State.reset.cluster cl).busy = false) ∧
  (∀ e, (State.reset.engine e).word = 1) ∧
  ∀ n, (Map.get {} State.reset.dens n).min = 2 ^ 64 - 1 ∧ (Map.get {} State.reset.dens n).max = 0 ∧
    (Map.get {} State.reset.dens n).count = 0

/-- Every step keeps memory, the contexts, their registers and the cores in the canonical form, in which equal contents are
equal data. -/
def Obligations.StateStaysCanonical : Prop :=
  ∀ s t : State, canonical s → step s = .next t → canonical t

/-- R72, R92, R93, R103, R104: a result is written to its register unless one that counts later stands there: of a later bundle,
or, within one bundle, of a later slot where a result of variable latency is concerned; the write replaces the register's error
and its tag, and no other register changes. The precedence within one bundle is the model's reading (log entry 18). -/
def Obligations.RegisterWrites : Prop :=
  ∀ (x : Ctx) (seq file idx : Nat) (v : VecReg) (bad : Bool) (tag : Option (BitVec 8 × Word)) (var : Bool), filesCanonical x →
    file ≤ 8 → (file = 8 → idx < 8) → idx < 1024 →
    let y := x.writeReg seq file idx v bad tag var
    let last := Map.get 0 x.lastSeq (Ctx.regKey file idx) / 2
    let lastVar := Map.get 0 x.lastSeq (Ctx.regKey file idx) % 2 = 1
    let later := seq / 8 < last / 8 ∨ seq / 8 = last / 8 ∧ seq < last ∧ (var = true ∨ lastVar)
    (later → y = x) ∧
    (¬ later →
      y.reg file idx = (v.setWidth (fileWidth file)).setWidth 2048 ∧
      (∀ f i, f ≤ 8 → i < 1024 → (f, i) ≠ (file, idx) → y.reg f i = x.reg f i) ∧
      (bad = true → y.regError file idx = some (0x08, BitVec.ofNat 64 (file * 4096 + idx))) ∧
      (bad = false → y.regError file idx = tag) ∧ y.pc = x.pc ∧ y.mode = x.mode ∧ y.fflags = x.fflags ∧ y.rctr = x.rctr) ∧
    filesCanonical y

/-- R90, R92, R41, R38: the frame of every S and V instruction: when it runs, memory, the other contexts and every core are as
they were, and of its own context only the landing list, which takes results for registers that the instruction names, the
position of the stream and the sticky flags may differ; every register keeps its value until the results land. -/
def Obligations.SlotFrame : Prop :=
  ∀ (i : Instr) (slot : SlotId) (w : Word) (s t : State), canonical s → encode i = some (slot, w) →
    slot = .s0 ∨ slot = .s1 ∨ slot = .v0 ∨ slot = .v1 → s.issue.verdict = .ran → exec i s = .next t → t.issue.verdict = .ran →
    t = { s with ctxs := t.ctxs } ∧ (∀ c, c ≠ s.issue.ctx → t.ctx c = s.ctx c) ∧
    ∃ (new : List Landing) (rc : BitVec 128) (fl : Word),
      t.ctx s.issue.ctx = { issuer s with landing := (issuer s).landing ++ new, rctr := rc, fflags := (issuer s).fflags ||| fl } ∧
      ∀ l ∈ new, l.seq = s.issue.order ∧ (l.file, l.idx) ∈ i.uses.regs

/-- R141: TRAP executes its whole bundle and then freezes its context at the next bundle with cause 0x29, its code in sys.tval
and the bundle's stall remaining; BKPT is a condition of execution, so its bundle has no effect and is the one to resume at,
with cause 0x28. Stated for a context that is no trap handler, whose region has a trap entry, with no shutter cause configured and
no saved image in its core's registers. -/
def Obligations.TrapAndBreakpoint : Prop :=
  ∀ (s : State) (code : BitVec 30), canonical s →
    let c := s.issue.ctx
    (s.ctx c).run = .ready → (s.ctx c).region.trapEntry ≠ 0 → (s.ctx c).isTrapHandler = false → s.shutter.causes = [] →
    (∀ v ∈ s.saved, ∀ bs, v.place ≠ .offer (coreOf c) false bs) → (∃ t, exec (.bkpt code) s = .next t ∧ (t.ctx c).run = .frozen ∧ (t.ctx c).cause = 0x28 ∧
      (t.ctx c).tval = code.setWidth 64 ∧ (t.ctx c).epc = s.issue.addr ∧ (∀ f i, (t.ctx c).reg f i = (s.ctx c).reg f i) ∧
      (t.ctx c).heads = (s.ctx c).heads ∧ (t.ctx c).landing = (s.ctx c).landing ∧ t.mem = s.mem) ∧
    ∃ u, exec (.trap code) s = .next u ∧ (s.issue.acts = [] → ∀ x0 : Ctx,
      let y := (s.ctx c).finish x0 u.issue s.clock
      let t := endBundle u x0
      (t.ctx c).run = .frozen ∧ (t.ctx c).cause = 0x29 ∧ (t.ctx c).tval = code.setWidth 64 ∧ (t.ctx c).epc = y.pc ∧
      (t.ctx c).npc = y.npc ∧ (t.ctx c).stall = s.issue.stall ∧ (∀ q, Map.get {} (t.ctx c).heads q = Map.get {} y.heads q) ∧
      ∀ f i, (t.ctx c).reg f i = y.reg f i)

/-! ### The steps that no instruction makes -/

/-- R92, R93, R96, R105, R136, R193, R204, R205, R256, R259, R260, R268, R286 to R288, R301, R304, R307 to R309, R313, R322: what
the steps of a core that no bundle makes do, and when: selecting contexts, landing results, performing the oldest posted access,
fetching for a head, ending waits, delivering messages, walking pages, completing invalidations and reporting watch hits. That a
lathe fetch reads a whole vector in one step (log entry 68), and what an invalidation waits for and the order of its checks (log
entry 32), are the model's reading. -/
def Obligations.CoreEvents : Prop :=
  (∀ (k : Nat) (s : State), exec (.issueSelection k) s = .next { s with issuing := s.issuing ++ ranked s k } ∧
    (∀ c, c ∈ ranked s k ↔ c ∈ ctxsOf k ∧ inRunning s c = true) ∧
    (ranked s k).Pairwise (fun c d => lexLt (rank s c) (rank s d) = true)) ∧
  (∀ (c : Nat) (s : State),
    exec (.contextPromotion c) s = .next (s.updCtx c (fun x =>
      if threshold s (coreOf c) ≤ x.waitCount ∧ x.run = .ready then { x with promoted := true } else x)) ∧
    exec (.yieldExpiry c) s = .next (s.updCtx c (fun x =>
      if ∃ t ∈ x.yielded, t + threshold s (coreOf c) ≤ s.clock then { x with yielded := none } else x)) ∧
    exec (.stallExpiry c) s = .next (s.updCtx c (fun x =>
      if x.run = .ready ∧ x.stall ≠ 0 then { x.countDown ((x.seq + 1) * 8) with stall := x.stall - 1 } else x)) ∧
    exec (.fixedLatencyLanding c) s = .next (s.updCtx c Ctx.landZero) ∧
    (∀ n, exec (.variableLatencyLanding c n) s = .next (landPending s c n)) ∧
    (∀ n, exec (.logicalTimeAdvance c n) s = .next (s.updCtx c (fun x => { x with ltime := x.ltime + n })))) ∧
  (∀ (c : Nat) (s : State) (t : TrapRec) (rest : List TrapRec), (s.ctx c).outside = t :: rest →
    ((s.ctx c).run = .ready ∨ (s.ctx c).run = .blocked) → exec (.outsideTrap c) s =
      .next (takeTrap (s.updCtx c (fun x => { x with outside := rest })) c t.cause t.tval (s.ctx c).pc)) ∧
  (∀ (k ctr : Nat) (s : State),
    let noted (e : MonEntry) : MonEntry := { e with seen := s.counter e.pa }
    exec (.waitSatisfied k ctr) s = .next (((s.core k).monitor.filter (fun e =>
      decide (e.pa = ctr) && entryRipe s e)).foldl (fun s e => releaseEntry s k e)
        (s.updCore k (fun x => { x with monitor := x.monitor.map (fun e => if e.pa = ctr then noted e else e) }))) ∧
    exec (.sweepReread k) s = .next (((s.core k).sweep.filter (entryRipe s)).foldl (fun s e => releaseEntry s k e)
      (s.updCore k (fun x => { x with sweep := x.sweep.map noted })))) ∧
  (∀ (c : Nat) (s : State), (s.ctx c).run = .blocked → (s.ctx c).wait = some .counter → 0 < (s.ctx c).waitStart →
    (s.ctx c).waitStart - 1 + (s.ctx c).waitLimit ≤ s.clock →
    exec (.cwaitTimeout c) s = .next ((wake s c).updCtx c (fun x => { x with timedOut := true }))) ∧
  (∀ (c : Nat) (s : State), (s.ctx c).wait = some .drain →
    ((s.counterBad (s.ctx c).drainPa).isSome = true → exec (.drainSweep c) s = .next (wake s c)) ∧
    (s.counterBad (s.ctx c).drainPa = none → (s.ctx c).drainTgt ≤ s.counter (s.ctx c).drainPa → ∀ sums, sums = drainSums s c (s.ctx c).drainScope (s.ctx c).region.space.asid :: (s.ctx c).drainSums.take 1 →
    ∀ t, t = s.updCtx c (fun x => { x with drainSums := sums }) →
    exec (.drainSweep c) s = .next (if sweepsAgree sums then wake t c else t))) ∧
  (∀ (c q : Nat) (s t : State) (ps : List Span) (bs : List Byte) (h : Head), (s.ctx c).run ≠ .dormant →
    (s.ctx c).run ≠ .frozen → h = Map.get {} (s.ctx c).heads q →
    requestsHeld s (coreOf c) + ((pointAddr h h.next).toNat % 64 + 319) / 64 ≤ 512 → h.canFetch = true → (∀ p ∈ (s.ctx c).posted, h.start ≤ p.seq) →
    translateRange s (s.view c) (pointAddr h h.next).toNat 256 .read = .ok (ps, t) → badSpan t ps = none →
    (readSpans t ps).1 = bs → exec (.latheFetch c q) s = .next ((readSpans t ps).2.updCtx c (fun x =>
      { x with heads := Map.set {} x.heads q (h.deliver (.ok (BitVec.ofNat 2048 (leNat bs)))) }))) ∧
  (∀ (c : Nat) (s t : State) (p : Posted), performOne s c = some t →
    (match s.loose.find? (fun l => l.ctx == c) with | some l => l.posted = p | none => (s.ctx c).posted.head? = some p) →
    ((∃ op ty va pa x y ret, p.kind = .atom op ty va pa x y ret) → exec (.atomPerform c) s = .next t) ∧
    ((∀ op ty va pa x y ret, p.kind ≠ .atom op ty va pa x y ret) → exec (.accessPerformed c) s = .next t)) ∧
  (∀ (core n : Nat) (s : State) (m : Msg), (s.core core).transit[n]? = some m →
    msgReady s core m = true → exec (.messageArrival core n) s = .next (deliverMsg s core m)) ∧
  (∀ (c : Nat) (s : State) (m : Msg), ctxValid c = true → (s.ctx c).run = .dormant → nextStart (s.core (coreOf c)) = some m →
    canStart s (coreOf c) 64 0 m.region = true →
    let args := [BitVec.ofNat 64 (apertureBase + 0xFF000 + 256 * m.slot), BitVec.ofNat 64 m.sender, BitVec.ofNat 64 m.payload.length]
    let t := s.updCtx c (fun o => { handlerCtx o s.nextId m.region (.message m.slot) false m.handler args with
      acq := [⟨BitVec.ofNat 16 m.sender, m.interval, 3⟩] })
    exec (.messageHandlerStart c) s = .next { t.updCore (coreOf c) (fun x =>
      { x with starts := x.starts.filter (fun b => b.order != m.order) }) with nextId := s.nextId + 1 }) ∧
  (∀ (c : Nat) (va : Word) (write : Bool) (s t : State) (e : TlbEntry), ctxValid c = true → (s.ctx c).run ≠ .dormant →
    va.toNat < apertureBase → walkInstall s (s.view c) va.toNat = some (e, t) → exec (.pageWalk c va write) s =
      .next (if write = true ∧ leafCheck t (s.view c) e va.toNat .write = none then markDirty t (s.view c) e else t)) ∧
  (∀ (die : Nat) (rec_ : Word) (s t u : State) (bs : List Byte) (r : InvalRec) (pa : Nat), stage3Done s = true → die < 8 →
    (s.die die).invals.length < 16 → readVia s (packageView s.mgmtSpace) (rec_.toNat / 32 * 32) 32 = .ok (bs, t) →
    parseInval bs = some r → translateCounter t (packageView s.mgmtSpace) r.ctr .counterAdd = .ok (pa, u) →
    exec (.sysTlbinv die rec_) s = .next (u.updDie die (fun d => { d with invals := d.invals ++ [
      { op := r.op
        scope := r.scope
        asid := r.asid
        va := r.va
        len := r.len
        ctrVa := r.ctr
        ctx := 0
        tid := 0
        seq := 0
        region := { space := u.mgmtSpace }
        interval := 0 }] }))) ∧
  (∀ (die n : Nat) (s t u : State) (e : Inval) (rel : BitVec 16 × BitVec 16), (s.die die).invals[n]? = some e →
    let waits : Prop := invalBusy s die e = true ∨ e.tid ≠ 0 ∧ releasableAs s e.ctx e.tid e.seq = false
    (waits → exec (.invalidationComplete die n) s = .next s) ∧
    (¬ waits →
      t = recheckWaits (dropTranslations (s.updDie die (fun d => { d with invals := d.invals.eraseIdx n })) die e) die e →
      (if e.tid = 0 then ((0, 0), t) else releaseFor t e.ctx e.tid e.interval) = (rel, u) →
      let v := if e.tid = 0 then packageView e.region.space else engineView e.region.space e.ctx
      (∀ w, addVia u v u.pkgWriter e.ctrVa 1 none (some rel) = .ok w → exec (.invalidationComplete die n) s = .next w) ∧
      ∀ cause tval, addVia u v u.pkgWriter e.ctrVa 1 none (some rel) = .error (cause, tval) →
        exec (.invalidationComplete die n) s =
          .next (faultRecord (confirmWalk (countIfBad u cause) v cause tval.toNat) e.region 2 cause 0 0 tval))) ∧
  ∀ (n : Nat) (s : State) (h : WatchHit), s.watchHits[n]? = some h →
    let t := { s with watchHits := s.watchHits.eraseIdx n }
    exec (.watchpointReport n) s = .next (if h.shut then fireShutter t .watch 0 (some (BitVec.ofNat 16 h.owner))
      else t.updCtx h.owner (fun x => { x with outside := x.outside ++ [⟨0x10, h.tval⟩] }))

/-- R107, R110, R135, R145, R236, R264, R266, R290, R291, R360, R361, R363, R365: the steps of the package scheduler and of the
cores' deques: saving and restoring contexts, pre-emption, retiring and starting tasks, reading packets, placing tasks and crews,
and resetting a core. The model's own are the cause 0x05 of a refused reset (log entry 36), the requester that a reset's records
name (log entry 51), the free words of a withdrawal's record (log entry 49), k3 of a crew of one (log entry 40), and the
scheduler's choices (log entry 56). -/
def Obligations.SchedulerEvents : Prop :=
  (∀ (c : Nat) (s t : State), (s.ctx c).run ≠ .dormant → (s.ctx c).ended = false → settled s c = true → queuedWork s c = false →
    ((∃ t ∈ (s.ctx c).preemptAt, s.clock < t + 32768) → retired s c = true → ¬((s.ctx c).run = .frozen ∧ served s c = true) →
      saveContext s c .preempt false = some t → exec (.contextSave c .preempt) s = .next (startNeeded t (coreOf c))) ∧
    ∀ f, (ctxsOf (coreOf c)).find? (handlerBlocked s) = some f → handlerVictim s f = c →
      ((s.ctx c).run = .frozen ∨ retired s c = true) → saveContext s c .handler (decide (c = f)) = some t →
      exec (.contextSave c .handler) s = .next (startNeeded t (coreOf c))) ∧
  (∀ (task c : Nat) (s : State) (v : Saved), s.savedTask task = some v → (savedCrew s v).length = 1 →
    (restoreTurn s v c = true → exec (.contextRestore task c) s = .next (restoreTask s v c)) ∧
    (v.why = .park → v.ripe = true → (ctxsOf v.core).find? (restorable s v) = some c →
      exec (.parkedJoinRestore task c) s = .next (restoreTask s v c))) ∧
  (∀ (c : Nat) (s : State), exec (.preemptionRequest c) s = .next
    (if (∀ d ∈ crewOf s c, askable s d = true) then (crewOf s c).foldl requestPreempt s else s)) ∧
  (∀ (c asked : Nat) (s : State), (s.ctx c).preemptAt = some asked → asked + 32768 ≤ s.clock →
    exec (.preemptionWithdrawn c) s = .next ((crewOf s c).foldl withdrawRequest s) ∧
    withdrawRequest s c = (
      let x := s.ctx c
      let t := s.free64.2.free64.2
      faultRecord (t.updCtx c (fun x => { x with preemptAt := none, askAgain := s.clock + 32768 })) x.region 5
        (s.free64.1.setWidth 8) c x.pc s.free64.2.free64.1)) ∧
  (∀ (c : Nat) (s : State), (s.ctx c).ended = true → (s.ctx c).run ≠ .frozen → (∀ p ∈ (s.ctx c).pending, p.ready = true) → (s.ctx c).posted = [] →
    matrixWork s c = false → remoteWork s (s.ctx c).tid = false →
    (∀ f, (s.ctx c).task = .trapHandler f →
      exec (.taskRetire c) s = .next (becomeDormant (faultContext s f 0 ((s.ctx f).cause.setWidth 8)) c)) ∧
    (∀ id v, (s.ctx c).task = .remoteHandler id → s.savedTask id = some v →
      exec (.taskRetire c) s = .next (becomeDormant (faultSaved s v 0 v.cause) c)) ∧
    (∀ set i crew rel t, (s.ctx c).task = .taskSet set i crew → releaseFor s c (s.ctx c).tid (s.ctx c).interval = (rel, t) →
      exec (.taskRetire c) s = .next (becomeDormant (retireInSet t set none rel) c)) ∧
    (∀ join f rel t, (s.ctx c).task = .forked join f → releaseFor s c (s.ctx c).tid (s.ctx c).interval = (rel, t) →
      exec (.taskRetire c) s = .next (becomeDormant (if join = 0 then t else packageAdd t (s.ctx c).region join 1 none (some rel)) c)) ∧
    (∀ n, (s.ctx c).task = .message n → exec (.taskRetire c) s = .next (becomeDormant s c))) ∧
  (∀ (c : Nat) (s : State) (t : TaskRec), ctxValid c = true → (s.ctx c).run = .dormant → dequeFits s (coreOf c) t = true →
    (∀ rest, (s.core (coreOf c)).deque = t :: rest →
      exec (.dequeStart c) s = .next (startRecord (s.updCore (coreOf c) (fun x => { x with deque := rest })) c t)) ∧
    ∀ j before, (s.core (coreOf c)).deque = [] → (s.core j).deque = before ++ [t] →
      (stealOrder (coreOf c)).find? (fun j => ((s.core j).deque.getLast?).any (dequeFits s (coreOf c))) = some j →
      exec (.dequeStart c) s = .next (startRecord (s.updCore j (fun x => { x with deque := before })) c t)) ∧
  (∀ (region : Nat) (s : State) (x y : RingState), s.rings[region]? = some x → nextRing s = some y → s.bootStage = 4 →
    x.region.rcb = y.region.rcb → exec (.packetRead region) s = .next (readPacket s y)) ∧
  (∀ (n : Nat) (s : State) (d : PendNode), s.nodes[n]? = some d → dependenceMet s d.region d.pkt = true →
    exec (.nodeEligible n) s = .next (launchNode { s with nodes := s.nodes.eraseIdx n } d.region d.pkt d.index)) ∧
  (∀ (set : Nat) (s : State) (t : TaskSet), s.sets.find? (fun t => t.id == set) = some t →
    (∀ c, t.pkt.crew = 1 → t.next < t.pkt.tasks → startFits s c (setStart s t t.next t.next 0 0) = true →
      exec (.taskPlacement set c) s = .next (launchFill (advanceSet s set 1) c (setStart s t t.next t.next 0 0))) ∧
    ∀ (cl : Nat) (ctxs : List Nat) (window n : Nat) (u : State), 2 ≤ t.pkt.crew → n = min t.pkt.crew (t.pkt.tasks - t.next) →
      0 < n → ctxs.length = n → (∀ c ∈ ctxs, clusterOf c = cl) → windowFree s cl window (t.pkt.window * 65536) = true →
      bytesInBudget s (governing s t.region) true (t.pkt.window * 65536) = true →
      startCrew t (t.next / t.pkt.crew) t.next (BitVec.ofNat 64 (vaultPa cl window)) 0 ctxs
        ((advanceSet s set n).updCluster cl (fun x => { x with windows := x.windows ++ [
          { set := t.id
            crew := t.next / t.pkt.crew
            base := vaultPa cl window
            bytes := t.pkt.window * 65536
            live := n }] })) = some u →
      exec (.crewPlacement set cl ctxs window) s = .next u) ∧
  (∀ (c : Nat) (s : State), starved s c = true → aboveShare s c = true → canonical s →
    (∀ d ∈ crewOf s c, askable s d = true) → (∀ d, aboveShare s d = true → (s.ctx c).region.priority ≤ (s.ctx d).region.priority) →
    exec (.sharePreemption c) s = .next ((crewOf s c).foldl requestPreempt s)) ∧
  (∀ (task c : Nat) (s : State) (v : Saved), s.savedTask task = some v →
    (v.needHandler = true → ctxValid c = true → (s.ctx c).run = .dormant → coreOf c ≠ v.core →
      canStart s (coreOf c) 64 0 v.region = true → exec (.savedTaskRestore task c) s = .next (startRemoteHandler s v c)) ∧
    ∀ t, v.needHandler = false → schedulable s v c = true →
      (∀ u ∈ s.saved, v.region.priority < u.region.priority → schedulable s u c = false) →
      restoreCrew (clusterOf c) ((savedCrew s v).drop 1) (restoreTask s v c) = some t →
      exec (.savedTaskRestore task c) s = .next t) ∧
  (∀ (k : Nat) (s : State), coreValid k = true → (s.core k).present = true →
    exec (.coreReset k 0) s = .next (if coreQuiet s k then resetCore s k 0 else s.updCore k (fun x => { x with stopping := true }))) ∧
  ∀ (k m : Nat) (s : State) (r : ResetReq), s.resets[m]? = some r → r.core = k → releasableAs s r.ctx r.tid r.seq = true →
    exec (.coreReset k (m + 1)) s = .next (
      if resetRefused s r then resetAdd (s.updCore k (fun x => { x with stopping := false })) r (some 0x05)
      else if coreQuiet s k then resetAdd (resetCore s k (BitVec.ofNat 64 r.ctx)) r none
      else s.updCore k (fun x => { x with stopping := true }))

/-- R269, R271, R272, R330, R343, R346, R354, R368, R370, R371, R421: the steps of the engines, the configuration loaders and the
planes: what each row of a copy, gather, scatter, fill or conversion reads and writes and how its command ends, and the steps by
which a compaction, a requantisation, a follower and a delivery end. A command's effect in one step (log entry 26), the lock of an
empty shadow (log entry 45), 0x15 and the switch of a requantised page (log entry 58), bit 48 of a failed delivery (log entry 59),
a follower's states and inbox (log entry 60) and the two steps of a compaction (log entry 81) are the model's. -/
def Obligations.EngineEvents : Prop :=
  (∀ (e : EngineId) (s : State), exec (.engineShadowSwap e) s = .next (setEngine s e (fun g => match g.cur with
    | none => { g with cur := g.shadow, shadow := none }
    | some _ => g))) ∧
  -- what a row of a command does
  (∀ (c : Cmd) (v : View) (w : Writer) (i : Nat) (s : State),
    let bs := c.cmdRec
    let len := field bs 0x10 4
    let src (n : Nat) : Word := fieldW bs 0 + BitVec.ofNat 64 n * fieldW bs 0x18
    let dst (n : Nat) : Word := fieldW bs 8 + BitVec.ofNat 64 n * fieldW bs 0x20
    let puts (t : State) (a : Word) (l : List Byte) : Prop := heldShard t v.die v.space a.toNat l.length = false →
      ∀ u, writeVia t v w a.toNat l = .ok u → execRow c v w s i = .ok u
    let moves (t : State) (a b : Word) : Prop := ∀ l u, readVia t v a.toNat len = .ok (l, u) → puts u b l
    (c.form = 0x13 → moves s (src i) (dst i)) ∧
    (c.form = 0x14 ∨ c.form = 0x15 → ∀ l t, readVia s v (fieldW bs 0x30 + BitVec.ofNat 64 (4 * i)).toNat 4 = .ok (l, t) →
      (leNat l = 0xFFFFFFFF → execRow c v w s i = .ok t) ∧
      (leNat l ≠ 0xFFFFFFFF → c.form = 0x14 → moves t (src (leNat l)) (dst i)) ∧
      (leNat l ≠ 0xFFFFFFFF → c.form = 0x15 → moves t (src i) (dst (leNat l)))) ∧
    (c.form = 0x16 → ∀ ty : ElemTy, recType (field bs 0x29 1) = some ty →
      puts s (dst i) ((List.range len).map (fun j => BitVec.ofNat 8 (field bs (0x30 + j % (ty.width / 8)) 1)))) ∧
    (c.form = 0x17 → ∀ (a b : ElemTy) (l : List Byte) (t : State), convType (field bs 0x28 1) = some a →
      convType (field bs 0x29 1) = some b → readVia s v (src i).toNat (len * (a.width / 8)) = .ok (l, t) →
      puts t (dst i) ((List.range len).flatMap (fun j => leBytes (b.width / 8)
        (convertElem false .rne 0 false false a b (field l (j * (a.width / 8)) (a.width / 8))).1)))) ∧
  -- what reading and writing of translated spans do with memory
  (∀ (s : State) (w : Writer) (ps : List Span) (bs : List Byte), (∀ p ∈ ps, mgmtOff p.pa = none) →
    (Memory.wf s.mem = true → ∀ a, byteAt (writeSpans s w ps bs) a = overSpans ps bs (byteAt s) a) ∧
    (s.redShadow = [] → readSpans s ps = (ps.flatMap (fun p => (List.range p.len).map (fun i => byteAt s (p.pa + i))), s))) ∧
  -- how a command ends
  (∀ (e : EngineId) (s : State), (∃ n, e = .copy0 n ∨ e = .copy1 n ∨ e = .gs n) →
    ((s.engine e).cur = none → exec (.engineCommandComplete e) s = .next s) ∧
    ∀ c : Cmd, (s.engine e).cur = some c →
      (cmdReady s c = false → exec (.engineCommandComplete e) s = .next s) ∧
      (cmdReady s c = true → ∀ (m : Nat) (rows : Nat → State), rows 0 = s →
        (∀ i < m, execRow c c.view (c.writer s e) (rows i) i = .ok (rows (i + 1))) →
        let t := countCommand (rows m) e c
        let ends (u : State) (cause : Option (BitVec 8)) : State := setEngine u e (fun g => { g with
          cur := none
          completed := (g.completed + 1) % 2 ^ 32
          err := cause.isSome
          cause := cause.getD g.cause })
        (m = field c.cmdRec 0x14 4 →
          ∀ u, addVia t c.view (c.writer t e) c.ctrVa c.amount none
              (if c.bits.rel then some (BitVec.ofNat 16 c.ctx, c.recorded) else none) = .ok u →
            exec (.engineCommandComplete e) s = .next (ends u none)) ∧
        (m < field c.cmdRec 0x14 4 →
          (execRow c c.view (c.writer s e) (rows m) m = .error .held → exec (.engineCommandComplete e) s = .next s) ∧
          ∀ cause a u, execRow c c.view (c.writer s e) (rows m) m = .error (.fault cause a) →
            addVia t c.view (c.writer t e) c.ctrVa c.amount (some cause) none = .ok u →
            exec (.engineCommandComplete e) s =
              .next (ends (outsideTrap (confirmWalk u c.view cause a.toNat) c.tid c.region 2 cause a) (some cause))))) ∧
  (∀ (n : Nat) (s : State),
    exec (.engineCommandComplete (.loader n)) s = exec (.configLoaderLoad n) s ∧
    exec (.engineCommandComplete (.collective n)) s = .next (runCollective (retryEntries s n) n) ∧
    exec (.engineCommandComplete (.requant n)) s = .next s ∧
    exec (.engineCommandComplete (.compact n)) s = .next s) ∧
  (∀ (d : Nat) (c : Cmd) (s t u : State) (bs : List Byte) (r : Option (BitVec 8)), (s.die d).loader.cur = some c →
    (s.die d).loaderQueue = [] → cmdReady s c = true → lockedOut s c = false →
    readVia s c.view (field c.cmdRec 0 8) planeImageLen = .ok (bs, t) →
    let ks := planeCores c.cmdRec
    let loaded (p : Plane) : State := ks.foldl (fun s k => s.updCore k (fun x => { x with shadow := p })) t
    (∀ k ∈ ks, (s.core k).present = true) →
    (∀ p, planeOf bs = some p → finishCmd (loaded p) (.loader d) c none none = (u, r) →
      exec (.configLoaderLoad d) s = .next (setEngine u (.loader d) (fun g => g.ended r))) ∧
    (planeOf bs = none → finishCmd (loaded {}) (.loader d) c (some (0x01, fieldW c.cmdRec 0)) none = (u, r) →
      exec (.configLoaderLoad d) s = .next (setEngine u (.loader d) (fun g => g.ended r)))) ∧
  (∀ (k : Nat) (s : State), (s.core k).swapLock = true ∨ (s.core k).swapTokens ≠ [] → drainPoint s k = true →
    shadowLoading s k = false →
    ((s.core k).shadow.isEmpty = false → exec (.planeFlip k) s = .next (unlockShadow (exchangePlanes s k) k)) ∧
    ((s.core k).shadow.isEmpty = true → liveOn s k = [] →
      exec (.planeFlip k) s = .next (s.updCore k (fun x => { x with swapLock := false })))) ∧
  (∀ (k : Nat) (s : State), coreValid k = true → (s.core k).present = true → liveOn s k = [] → (s.core k).shadow.isEmpty = false →
    shadowLoading s k = false → (s.core k).swapLock = false → exec (.managementFlip k) s = .next (exchangePlanes s k)) ∧
  (∀ (die : Nat) (rec_ ctr : Word) (amount pa : Nat) (s t u : State) (bs : List Byte), stage3Done s = true → die < 8 → rec_.toNat % 64 = 0 →
    0 < amount → amount < 2 ^ 30 → readVia s (packageView s.mgmtSpace) rec_.toNat 64 = .ok (bs, t) → planeRecOk bs = true →
    field bs 0 8 % 256 = 0 → field bs 0xB 1 = die → translateCounter t (packageView s.mgmtSpace) ctr .counterAdd = .ok (pa, u) →
    let c : Cmd :=
      { form := 0x19
        ctx := 0
        tid := 0
        seq := 0
        region := { space := u.mgmtSpace }
        cmdRec := bs
        bits := { acq := false, rel := false, scope := .package }
        ctrVa := ctr
        amount := amount
        interval := 0
        recorded := 0
        order := u.nextId }
    exec (.managementEplane die rec_ ctr amount) s = .next { u.updDie die (fun x =>
      { x with loaderQueue := x.loaderQueue ++ [c] }) with nextId := u.nextId + 1 }) ∧
  (∀ (id : Nat) (s : State) (j : KvJob) (q : Seq),
    s.kvJobs.find? (fun j => j.id == id && j.cmd.form == 0x28) = some j → s.seq? id = some q →
    (j.copied = none → cmdReady s j.cmd = false → exec (.kvcompactCopyDone id) s = .next s) ∧
    (∀ (t : State) (r : Option (Nat × RowStop)), j.copied = none → cmdReady s j.cmd = true →
      moveRows j.cmd.region.space (fun d => j.cmd.writer s (.compact d)) s.geom.tb (fun b => b)
        ((List.range 8).flatMap (fun d => compactRows s.geom q j.c d j.path)) s = (t, r) →
      ((∃ n, r = some (n, .held)) → exec (.kvcompactCopyDone id) s = .next s) ∧
      ((∀ n, r ≠ some (n, .held)) → exec (.kvcompactCopyDone id) s = .next (finishJob { t with
        kvJobs := t.kvJobs.map (fun k => if k = j then { k with copied := some (stopCause r).isSome } else k) } j .compact (stopCause r)))) ∧
    ∀ bad, j.copied = some bad → exec (.kvcompactCopyDone id) s = .next
      (follow (settleSeq { s with kvJobs := s.kvJobs.filter (fun k => k ≠ j) } id { q with st := if bad then 3 else 5 }) id)) ∧
  (∀ (n : Nat) (s t : State) (j : KvJob) (q : Seq) (a b : ElemTy) (r : Option (Nat × RowStop)), s.kvJobs[n]? = some j →
    recType (frameOf s j.old).fmt = some a → recType j.fmt = some b → s.seq? j.id = some q → j.cmd.form = 0x29 →
    s.seqBusy j.id = false → cmdReady s j.cmd = true →
    moveRows j.cmd.region.space (fun d => j.cmd.writer s (.requant d)) s.geom.tb (requantRow s.geom.tb a b)
      (frameRows s.geom j.old j.new (List.range 16)) s = (t, r) → (∀ n, r ≠ some (n, .held)) →
    ∀ u, u = { t with kvJobs := t.kvJobs.eraseIdx n } →
    (∀ bad, stopCause r = some bad → exec (.kvrequantSwitch n) s = .next (finishJob (unreserve u j.new) j .requant (some bad))) ∧
    (∀ v, stopCause r = none → switchPage u j q = some v → exec (.kvrequantSwitch n) s = .next (finishJob v j .requant none)) ∧
    (stopCause r = none → switchPage u j q = none → exec (.kvrequantSwitch n) s =
      .next (finishJob (unreserve u j.new) j .requant (some (0, 0x15, BitVec.ofNat 64 j.id))))) ∧
  (∀ (id : Nat) (s : State) (q : Seq) (m : FollowMsg), s.seq? id = some q → q.follower = true →
    (q.inbox ≠ [] → followOne (putSeq s id { q with inbox := q.inbox ++ [m] }) id { q with inbox := q.inbox.drop 1 ++ [m] }
        (q.inbox.headD m) = none →
      exec (.followerApply id m) s = .next (putSeq s id { q with inbox := q.inbox ++ [m] })) ∧
    (q.inbox = [] → let t := putSeq s id { q with inbox := [m] }
      (∀ w path corr ctr, m = .accept w path corr ctr →
        (q.st = 1 ∨ q.st = 2 ∨ q.st = 3 ∨ q.st = 5 → exec (.followerApply id m) s = .next (settleSeq t id { q with
          st := 3
          acc := some { path := path, correction := corr, result := w, table := 0 }
          lastAcc := w
          work := ctr })) ∧
        (q.st ≠ 1 → q.st ≠ 2 → q.st ≠ 3 → q.st ≠ 5 → exec (.followerApply id m) s = .next t)) ∧
      (∀ n stopped, m = .commit n stopped →
        (∀ a, q.st = 5 → q.acc = some a → exec (.followerApply id m) s = .next (followCommit t id
          { committed q a.path.length (some a.correction) stopped true with delivered := (q.delivered + n) % 2 ^ 64 })) ∧
        (q.st ≠ 5 → exec (.followerApply id m) s = .next t)) ∧
      ∀ n tok stopped, m = .commitDirect n tok stopped →
        (q.st = 1 → exec (.followerApply id m) s = .next (settleSeq t id { committed q n tok stopped false with
          delivered := (q.delivered + if tok.isSome then 1 else 0) % 2 ^ 64 })) ∧
        (q.st ≠ 1 → exec (.followerApply id m) s = .next t))) ∧
  (∀ (id : Nat) (s : State) (q : Seq) (d : Delivery) (rest : List Delivery), takeDelivery s.deliveries id = some (d, rest) →
    s.seq? id = some q →
    exec (.rdmaAcknowledgement id) s = .next (readyPending (toFollowers { s with deliveries := rest } d.id q d.msg) d.ctx d.pend
      [d.result.setWidth 2048] none) ∧
    exec (.deliveryFailure id) s = .next (readyPending
      (toFollowers (settleSeq (faultRecord { s with deliveries := rest } q.region 4 0x19 0 0 q.hostCtr) id { q with st := 7 }) d.id
        q (failedMsg (bitsAt d.result.toNat 32 16) d.msg))
      d.ctx d.pend [(d.result ||| BitVec.ofNat 64 (2 ^ 48)).setWidth 2048] none)) ∧
  ∀ (d me : Nat) (s : State) (c : Cmd) (l : List Nat), (s.die d).collective.cur = some c → collLine s d c = some (me, l) →
    field c.cmdRec 0 1 ≠ 0 → cmdReady s c = true →
    ((s.die d).collPhase = 0 → exec (.ecollMatch d) s = .next (tellLine (s.updDie d (fun x => { x with
      collPhase := 1
      collInputs := x.collInputs.filter (fun i => i.1 ≠ c.recVa)
      collBad := x.collBad.filter (fun i => i.1 ≠ c.recVa) })) d c l
      kCollArrived 0 [] (fun x => { x with collArrived := x.collArrived ++ [(c.recVa, me)] }))) ∧
    ((s.die d).collPhase = 1 → (∀ r ∈ l, (c.recVa, r) ∈ (s.die d).collArrived) → exec (.ecollMatch d) s =
      .next (giveInput (s.updDie d (fun x => { x with collPhase := 2, collArrived := takeArrivals c.recVa l x.collArrived })) d c me l))

/-- R387, R392, R393, R396 to R399, R402, R403, R415, R417, R449: what a die does with a packet that reaches it: loads, stores and
atomics at the target, contributions and collective transfers, a duplicate, and the answers at the source. The kinds 16 to 18 and
the payloads of transfers (log entry 9), refused, late and duplicate pieces (log entry 62), held packets (log entry 63) and the
duplicates of the window (log entry 80) are the model's. -/
def Obligations.PacketEvents : Prop :=
  (∀ (d : Nat) (p : Packet) (s : State) (r : Option Remote) (m : Member), arrives s d p [1, 2, 3, 4, 5, 6] = .perform r →
    admission s d p = some m →
    (p.op = 1 →
      (∀ ps t bs u, translateRange s (dieView (m.space p) d) p.target.toNat (targetSize p) .read = .ok (ps, t) →
        readSpans t ps = (bs, u) →
        exec (.nldRequest d p) s = .next (respond u d p 8 (((badSpan t ps).map (·.1)).getD 0) p.target bs)) ∧
      ∀ c a, translateRange s (dieView (m.space p) d) p.target.toNat (targetSize p) .read = .error (c, a) →
        exec (.nldRequest d p) s = .next (nak (confirmWalk s (dieView (m.space p) d) c a.toNat) d p c a)) ∧
    (p.op = 2 → ∀ sp w, storeParty s d p r = some (sp, w) →
      (heldShard s d sp p.target.toNat p.data.length = true →
        exec (.storePacket d p) s = .next (holdPacket s d sp p p.data.length)) ∧
      (heldShard s d sp p.target.toNat p.data.length = false →
        (∀ c a, writeVia s (dieView sp d) w p.target.toNat p.data = .error (c, a) →
          exec (.storePacket d p) s = .next (nak (confirmWalk s (dieView sp d) c a.toNat) d p c a)) ∧
        ∀ t, writeVia s (dieView sp d) w p.target.toNat p.data = .ok t →
          (p.aux = 0 → exec (.storePacket d p) s = .next (ack t d p)) ∧
          (p.aux ≠ 0 →
            (∀ u, addVia t (dieView sp d) (remoteWriter p) p.flag 1 none (some (0, 0)) = .ok u →
              exec (.storePacket d p) s = .next (ack u d p)) ∧
            ∀ c a, addVia t (dieView sp d) (remoteWriter p) p.flag 1 none (some (0, 0)) = .error (c, a) →
              exec (.storePacket d p) s =
                .next (nak (confirmWalk (countIfBad t c) (dieView sp d) c a.toNat) d p c p.flag)))) ∧
    (p.op = 3 → ∀ op ty, natOp p = some (op, ty) → m.nat = true →
      (heldShard s d (m.space p) p.target.toNat (elemBytes ty) = true →
        exec (.natPacket d p) s = .next (holdPacket s d (m.space p) p (elemBytes ty))) ∧
      (heldShard s d (m.space p) p.target.toNat (elemBytes ty) = false →
        (∀ c, translate s (dieView (m.space p) d) p.target.toNat .atomic = .error c →
          exec (.natPacket d p) s = .next (nak (confirmWalk s (dieView (m.space p) d) c p.target.toNat) d p c p.target)) ∧
        ∀ pa w t, translate s (dieView (m.space p) d) p.target.toNat .atomic = .ok (pa, w, t) →
          (∀ c, t.badAt pa (elemBytes ty) = some c → exec (.natPacket d p) s = .next (
            if bitAt p.aux.toNat 4 then respond t d p 8 c p.target (leBytes 32 0) else nak t d p c p.target)) ∧
          (t.badAt pa (elemBytes ty) = none →
            let r := atomApply t (remoteWriter p) op ty pa (field p.data 0 8) (field p.data 8 8)
            exec (.natPacket d p) s = .next (
              if bitAt p.aux.toNat 4 then respond r.1 d p 8 0 p.target (leBytes 32 r.2) else ack r.1 d p)))) ∧
    (p.op = 3 → natOp p = none ∨ m.nat = false → exec (.natPacket d p) s = .next (dropPacket s d)) ∧
    (p.op = 4 ∨ p.op = 5 → m.comb = false → exec (.contributionPiece d p) s = .next (dropPacket s d)) ∧
    (p.op = 4 ∨ p.op = 5 → m.comb = true →
      let e := bitsAt p.flag.toNat 0 6
      let c := combOf s d e
      (pieceFate s d p = .refuse → exec (.contributionPiece d p) s = .next (dropPacket s d)) ∧
      (pieceFate s d p = .wait → exec (.contributionPiece d p) s = .next s) ∧
      (pieceFate s d p = .drop → exec (.contributionPiece d p) s = .next (ack (dropPacket s d) d p)) ∧
      (pieceFate s d p = .late → exec (.contributionPiece d p) s =
        .next (doomEntry (setComb (ack (dropPacket s d) d p) d e { c with late := true }) d e)) ∧
      (pieceFate s d p = .duplicate → exec (.contributionPiece d p) s =
        .next (setComb (ack (dropPacket s d) d p) d e { c with dup := true })) ∧
      ∀ key, pieceFate s d p = .take key →
        let c' := { c with pieces := c.pieces ++ [(key, bitsAt p.flag.toNat 8 6, p.data)] }
        exec (.contributionPiece d p) s = .next (settleEntry (setComb (ack s d p) d e
          (if c.timed then c' else c'.foldRanks (c'.goal (s.die d).mesh))) d e)) ∧
    (p.op = 6 → ∀ r, (s.die d).mesh.rankOf p.srcPkg p.srcDie = some r →
      (collKind p = 16 → exec (.collectiveTransfer d p) s = .next (ack (s.updDie d (fun x =>
        { x with collArrived := x.collArrived ++ [(p.target, r)] })) d p)) ∧
      (collKind p = 17 → exec (.collectiveTransfer d p) s = .next (ack (s.updDie d (fun x =>
        { x with collInputs := x.collInputs ++ [(p.target, r, collArg p, p.data)] })) d p)) ∧
      (collKind p = 18 → exec (.collectiveTransfer d p) s = .next (ack (s.updDie d (fun x =>
        { x with collBad := x.collBad ++ [(p.target, r)] })) d p)) ∧
      (collKind p ≠ 16 → collKind p ≠ 17 → collKind p ≠ 18 → exec (.collectiveTransfer d p) s =
        .next (((placementTransfer s d p).map (fun t => ack t d p)).getD s)))) ∧
  (∀ (d : Nat) (p : Packet) (s : State) (r : Option Remote), arrives s d p [1, 2, 3, 4, 5, 6] = .perform r → admission s d p = none →
    (p.op = 1 → exec (.nldRequest d p) s = .next (dropPacket s d)) ∧ (p.op = 3 → exec (.natPacket d p) s = .next (dropPacket s d)) ∧
    (p.op = 2 → r.bind (·.own) = none → exec (.storePacket d p) s = .next (dropPacket s d)) ∧
    (p.op = 4 ∨ p.op = 5 → exec (.contributionPiece d p) s = .next (dropPacket s d)) ∧
    (p.op = 6 → exec (.collectiveTransfer d p) s = .next (dropPacket s d))) ∧
  (∀ (d : Nat) (p a : Packet) (s : State), arrives s d p [1, 2, 3, 4, 5, 6] = .again a →
    (p.op = 1 → exec (.nldRequest d p) s = .next (pushGroups s d a)) ∧
    (p.op = 2 → exec (.storePacket d p) s = .next (pushGroups s d a)) ∧
    (p.op = 3 → exec (.natPacket d p) s = .next (pushGroups s d a)) ∧
    (p.op = 4 ∨ p.op = 5 → exec (.contributionPiece d p) s = .next (pushGroups s d a)) ∧
    (p.op = 6 → exec (.collectiveTransfer d p) s = .next (pushGroups s d a))) ∧
  (∀ (d : Nat) (a : Packet) (s : State) (r : Remote), answered s d a = some r →
    (a.op = 8 → exec (.response d a) s = .next (
      let t := closeRemote s d r
      match r.pend with
      | some n => if (t.ctx r.ctx).tid ≠ r.tid then t
        else if a.aux = 0 then readyPending t r.ctx n [remoteValue r a.data] none
        else readyPending t.free64.2 r.ctx n [t.free64.1.setWidth 2048] (some (a.aux, r.va))
      | none => t)) ∧
    (a.op = 10 → exec (.negativeAcknowledgement d a) s = .next (if r.coll then dropRemoteResult (closeRemote s d r) r
      else outsideTrap (dropRemoteResult (closeRemote s d r) r) r.tid r.region 2 a.aux a.target))) ∧
  (∀ (d : Nat) (a : Packet) (s : State) (r : Remote), a.op = 9 → a.aux = 0 → a.seq < 2 ^ 24 → answered s d a = some r →
    exec (.acknowledgement d a) s = .next (closeRemote s d r)) ∧
  ∀ (d : Nat) (a : Packet) (s : State), a.op = 9 → a.srcPkg ≠ s.pkg → ∀ n, n = a.aux.toNat →
    exec (.acknowledgement d a) s = .next ((List.range (n + 1)).foldl (fun t i =>
      match answered t d { a with seq := (a.seq + i) % 2 ^ 24 } with
      | some r => closeRemote t d r
      | none => t) s)

/-- R317, R373, R385, R386, R388 to R391, R393, R401, R404, R406, R414, R416, R417, R422: the steps of the links, the combiner
entries, the members of a placement, and the requests of the host. Key 0, the packing of groups and the detour of one lane (log
entry 61), the folds and ends of combiner entries (log entry 62), failed members (log entry 63), the steps of a conversion (log
entry 64) and host writes performed sector by sector (log entry 78) are the model's. -/
def Obligations.LinkAndHostEvents : Prop :=
  (∀ (d : Nat) (g : FlitGroup) (s : State), (bundleOf s d g.srcPkg).rxUp = true → (bundleOf s d g.srcPkg).rxKey ≠ 0 →
    g.srcPkg ∈ s.packages → g.srcPkg ≠ s.pkg →
    (g.num ≠ (bundleOf s d g.srcPkg).rxNext → exec (.linkGroupReceive d g) s = .next s) ∧
    (g.num = (bundleOf s d g.srcPkg).rxNext → g.tagOk = true →
      let t := updBundle s d g.srcPkg (fun b =>
        let acked := if g.ack ≤ b.txGroup then max b.txAcked g.ack else b.txAcked
        { b with
          rxNext := b.rxNext + 1
          rxFails := 0
          txAcked := acked
          replaying := b.replaying && decide (acked < b.txGroup) })
      exec (.linkGroupReceive d g) s = .next { t.updDie d (fun x =>
        { x with dropped := x.dropped + (g.packets.filter (fun p => (packetStep p).isNone)).length }) with
          agenda := g.packets.filterMap packetStep ++ s.agenda }) ∧
    (g.num = (bundleOf s d g.srcPkg).rxNext → g.tagOk = false →
      ∀ t, t = (if (s.die d).skid then g.packets.foldl (fun s p => skidWrite s p.dstDie p) s else s) →
      ((bundleOf s d g.srcPkg).rxFails < 2 → exec (.linkGroupReceive d g) s =
        .next (updBundle t d g.srcPkg (fun b => { b with rxFails := b.rxFails + 1 }))) ∧
      (2 ≤ (bundleOf s d g.srcPkg).rxFails → exec (.linkGroupReceive d g) s =
        .next (updBundle (g.packets.foldl reportTag t) d g.srcPkg (fun b => { b with
          rxUp := false
          rxKey := b.rxKey + 1
          rxNext := 0
          rxFails := 0 }))))) ∧
  (∀ (d pkg : Nat) (s : State),
    exec (.groupReplay d pkg) s = .next (updBundle s d pkg (fun b =>
      if b.up = true ∧ b.txAcked < b.txGroup then { b with replaying := true } else b)) ∧
    exec (.bundleDetour d pkg) s = .next (updBundle s d pkg (fun b => { b with
      lanes := b.lanes - 1
      up := decide (5 ≤ b.lanes - 1)
      replaying := b.replaying && decide (5 ≤ b.lanes - 1) })) ∧
    exec (.laneReturn d pkg) s = .next (updBundle s d pkg (fun b => { b with
      lanes := min 6 (b.lanes + 1)
      up := decide (5 ≤ min 6 (b.lanes + 1)) })) ∧
    exec (.keyRotation d ⟨pkg, false⟩) s = .next (updBundle s d pkg (fun b => { b with
      txKey := b.txKey + 1
      txGroup := 0
      txAcked := 0
      txBuf := []
      replaying := false })) ∧
    exec (.keyRotation d ⟨pkg, true⟩) s = .next (updBundle s d pkg (fun b => { b with
      rxUp := true
      rxKey := b.rxKey + 1
      rxNext := 0
      rxFails := 0 })) ∧
    exec (.markMemberFailed pkg d) s = .next (markFailed s pkg d)) ∧
  (∀ (d n : Nat) (s : State) (r : Remote), (s.die d).remotes[n]? = some r →
    ¬(r.pkt.dstPkg ≠ s.pkg ∧ (bundleOf s (bundleDie s d r.pkt.dstPkg) r.pkt.dstPkg).replaying = true) →
    r.time + packetTimer ≤ s.dtimePs →
    (r.resends < 7 → exec (.endToEndTimeout d n) s = .next (pushGroups (s.updDie d (fun x => { x with
      remotes := x.remotes.set n { r with resends := r.resends + 1, time := s.dtimePs } })) d r.pkt)) ∧
    (7 ≤ r.resends → exec (.endToEndTimeout d n) s = .next (failRemote s d r))) ∧
  (∀ (d e : Nat) (s : State), (combOf s d e).armed = true →
    let c := combOf s d e
    let folded (now : Nat) : Comb := c.foldDue (match c.deadline with | some t => min now t | none => now)
    (c.timed = true → c.doomed = false → exec (.timedSlotFold d e) s =
      .next (settleEntry (setComb s d e (folded s.dtimeNs)) d e)) ∧
    ∀ t, c.deadline = some t → t ≤ s.dtimeNs → c.folded.length < c.goal (s.die d).mesh → exec (.combinerTimeout d e) s =
      .next (settleEntry (setComb s d e { (if c.timed then folded s.dtimeNs else c) with doomed := true }) d e)) ∧
  (∀ (d n : Nat) (s : State) (q : Placed) (r : Nat) (t : ConvStep), placedAt s d n = some q → s.rank d = some r → q.st = 2 →
    (q.steps (s.die d).mesh)[q.step]? = some t →
    let m := (s.die d).mesh
    let shape := dtdShape q.record
    (q.mismatch = true → exec (.memberConversionFailed d n) s = .next (failMember s d r q 0x12)) ∧
    (q.mismatch = false → q.entry = none → q.lost m q.step r t = true →
      exec (.memberConversionFailed d n) s = .next (failMember s d r q 0x1A)) ∧
    (q.mismatch = false → m.alive r = false → q.entry = none → q.lost m q.step r t = false → q.supplied = false →
      exec (.memberShardWrite d n) s = .next (updPlaced s d q.addr q.asid (fun x => { x with supplied := true }))) ∧
    (q.mismatch = false → m.alive r = true → q.entry = none → q.lost m q.step r t = false →
      (q.supplied = false → exec (.memberShardWrite d n) s = .next ((t.targets m shape r).foldl (fun s k =>
        giveTo s d r q.step q k (q.width m q.step) (q.cur.map (q.giving m t k)))
        (updPlaced s d q.addr q.asid (fun x => { x with supplied := true })))) ∧
      (q.supplied = true → (∃ k ∈ t.needs m shape r, q.input m q.step r k t = none) → exec (.memberShardWrite d n) s = .next s) ∧
      ∀ inp : Nat → List Nat, q.supplied = true → (∀ k ∈ t.needs m shape r, q.input m q.step r k t = some (inp k)) →
        (t.folds m r = false → t.fold.isSome = true →
          exec (.memberShardWrite d n) s = .next (nextStep s d r q (inp (lineHead m r t.axis)))) ∧
        (t.folds m r = false → t.fold.isSome = false → (∀ k, k ∉ t.needs m shape r → inp k = []) →
          exec (.memberShardWrite d n) s = .next (nextStep s d r q (movedShard m shape t.old t.new inp r))) ∧
        (t.folds m r = true → ∀ e, reservedEntry s d = some e → exec (.memberShardWrite d n) s = .next (
          let (l, c) := foldStep q m q.step t ((t.needs m shape r).map inp)
          updPlaced (setComb s d e c) d q.addr q.asid (fun x => { x with cur := some l, entry := some e })))) ∧
    (∀ e cur, q.mismatch = false → m.alive r = true → q.supplied = true → q.entry = some e → q.cur = some cur →
      exec (.memberShardWrite d n) s = .next (nextStep
        ((listeners m t r).foldl (fun s k => giveTo s d r q.step q k 4 (some cur)) (setComb s d e {})) d r q cur))) ∧
  (∀ (d n slot : Nat) (s : State) (r : Remote), (s.die d).heldNts[n]? = some (slot, r) → slot ≤ curSlot s →
    sentFull s d r.pkt.dstPkg r.pkt.dstDie = false → exec (.ntsSlotBegins d n) s = .next (sendRemote (s.updDie d (fun x => { x with heldNts := x.heldNts.eraseIdx n })) d r)) ∧
  ∀ (qp : Nat) (s : State), stage3Done s = true →
    (∀ va c v, exec (.hostCompareAndSwap qp va c v) s = .next (answer s (.nak qp))) ∧
    (Map.find? s.qps qp = none → ∀ va v len data,
      exec (.hostRdmaWrite qp va data) s = .next (answer s (.nak qp)) ∧
      exec (.hostRdmaRead qp va len) s = .next (answer s (.nak qp)) ∧
      exec (.hostFetchAndAdd qp va v) s = .next (answer s (.nak qp))) ∧
    ∀ (r : Region), Map.find? s.qps qp = some r →
      (∀ va data, (∀ ps t, translateRange s (packageView r.space) va.toNat data.length .write = .ok (ps, t) → data ≠ [] →
          exec (.hostRdmaWrite qp va data) s =
            .next { t with hostWrites := t.hostWrites ++ [{ qp := qp, asid := r.space.asid, pieces := piecesOf ps data }] }) ∧
        (∀ ps t, translateRange s (packageView r.space) va.toNat data.length .write = .ok (ps, t) → data = [] →
          exec (.hostRdmaWrite qp va data) s = .next (answer (flushHost t qp) (.ack qp))) ∧
        ∀ f, translateRange s (packageView r.space) va.toNat data.length .write = .error f →
          exec (.hostRdmaWrite qp va data) s = .next (refuseVerb s qp r f.1 f.2)) ∧
      -- what a queue pair has still to write is written before what follows on it
      ∀ z, z = flushHost s qp →
      (∀ va len, (∀ bs t, readVia z (packageView r.space) va.toNat len = .ok (bs, t) →
          exec (.hostRdmaRead qp va len) s = .next (answer t (.readData qp bs))) ∧
        ∀ f, readVia z (packageView r.space) va.toNat len = .error f →
          exec (.hostRdmaRead qp va len) s = .next (refuseVerb z qp r f.1 f.2)) ∧
      ∀ (va v : Word), (∀ pa t u, translateCounter z (packageView r.space) va .counterAdd = .ok (pa, t) →
          t.counterAdd (hostWriter t qp) pa v.toNat none (some (0, 0)) = .ok u →
          exec (.hostFetchAndAdd qp va v) s = .next (answer u (.oldValue qp (BitVec.ofNat 64 (t.counter pa))))) ∧
        (∀ pa t f, translateCounter z (packageView r.space) va .counterAdd = .ok (pa, t) →
          t.counterAdd (hostWriter t qp) pa v.toNat none (some (0, 0)) = .error f →
          exec (.hostFetchAndAdd qp va v) s = .next (answer (countFailedAdd t f) (.nak qp))) ∧
        ∀ f, translateCounter z (packageView r.space) va .counterAdd = .error f →
          exec (.hostFetchAndAdd qp va v) s = .next (refuseVerb z qp r f.1 f.2)

/-- R103, R217, R274, R280, R281, R285, R289, R292 to R294, R298, R299, R331, R371, R374 to R380, R407, R448: the steps of
management, of the vaults and memories, of spare cores and of the observers. The layouts of the registers written (log entry 8), a
change of division as the next step (log entry 52), the KV geometry only without sequences and the steps of the clock (log entry
55), and the two thresholds and the patrol's rate (log entry 73) are the model's. -/
def Obligations.ManagementEvents : Prop :=
  (∀ (s : State), exec .packageColdReset s = .next { State.reset with pkg := s.pkg, packages := s.packages, freeIdx := s.freeIdx }) ∧
  (∀ (cl : Nat) (v : Word) (s : State), cl < 64 → bitsAt v.toNat 0 4 ≤ 8 → (s.cluster cl).busy = false →
    (s.cluster cl).slice ≠ bitsAt v.toNat 0 4 → exec (.vaultConfigWrite cl v) s = .next { s.updCluster cl (fun x =>
      { x with busy := true, target := bitsAt v.toNat 0 4 }) with agenda := .divisionChangeComplete cl :: s.agenda }) ∧
  (∀ (cl : Nat) (s : State), (s.cluster cl).busy = true →
    let x := s.cluster cl
    let t := (s.shadowLines.filter (fun l => decide (sliceOf l = some cl))).foldl (fun s l => s.flushShadows l 64)
      { s with shadowLines := s.shadowLines.filter (fun l => decide (sliceOf l ≠ some cl)) }
    let u := if x.slice = 0 then s else { t with retained := t.retained.filter (fun l => decide (sliceOf l ≠ some cl)) }
    let lo := min (8 - x.slice) (8 - x.target)
    let hi := max (8 - x.slice) (8 - x.target)
    exec (.divisionChangeComplete cl) s = .next ((loseRange u (vaultPa cl (lo * 2 ^ 24)) (vaultPa cl (hi * 2 ^ 24))).updCluster cl
      (fun x => { x with slice := x.target, busy := false }))) ∧
  (∀ (k : Nat) (v : Word) (s : State), coreValid k = true → bitsAt v.toNat 0 4 ≤ 8 →
    ((s.core k).reserve ≤ bitsAt v.toNat 0 4 →
      exec (.reserveRegisterWrite k v) s = .next (s.updCore k (fun x => { x with reserve := bitsAt v.toNat 0 4 }))) ∧
    ∀ t, bitsAt v.toNat 0 4 < (s.core k).reserve → moveImages s k true = some t →
      exec (.reserveRegisterWrite k v) s = .next (t.updCore k (fun x => { x with reserve := bitsAt v.toNat 0 4 }))) ∧
  (∀ (k : Nat) (s t : State), offerNeeded s k = true → moveImages s k false = some t →
    exec (.spillOfferWithdrawal k false) s = .next t) ∧
  (∀ (k : Nat) (s : State), repairDue s k = true ↔ coreValid k = true ∧ (s.core k).present = true ∧
    ((s.core k).suspect = true ∨ (s.core k).replace = true ∨
      (Map.get 0 s.thresholds 0 ≠ 0 ∧ (Map.get 0 s.thresholds 0).toNat < Map.get 0 s.corrected k))) ∧
  (∀ (k : Nat) (s : State), repairDue s k = true → (s.cluster (k / 16)).spare = true →
    (repairReset s k false = none → exec (.spareSubstitution k) s = .next (s.updCore k (fun x => { x with stopping := true }))) ∧
    ∀ t, repairReset s k false = some t → exec (.spareSubstitution k) s = .next {
      (t.updCore k (fun x => { x with suspect := false, replace := false })).updCluster (k / 16) (fun cl => { cl with spare := false }) with
        corrected := Map.erase t.corrected k }) ∧
  (∀ (k : Nat) (s : State), repairDue s k = true → (s.cluster (k / 16)).spare = false →
    (repairReset s k true = none → exec (.coreDisable k) s = .next (s.updCore k (fun x => { x with stopping := true }))) ∧
    ∀ t u lost, repairReset s k true = some t → lost = (t.core k).transit →
      u = lost.foldl (fun s m => countReceived s k (coreOf m.sender) m.region.space.asid) t →
      exec (.coreDisable k) s = .next ((reportStarts u.free64.2 (u.free64.1.setWidth 8) lost).updCore k (fun x =>
        { x with present := false, suspect := false, replace := false, transit := [], inboxUsed := [] }))) ∧
  (∀ (pa d o : Nat) (z s : State), locOf pa = .hbm d o → o < 60 * 2 ^ 30 → stage3Done z = true →
    -- the patrol goes on where this granule is its next one
    s = (if pa = scrubPa z.scrubs then { z with scrubs := z.scrubs + 1, scrubAt := z.dtimePs + scrubPeriod z.scrubRate } else z) →
    let due (s : State) : Prop := Map.get 0 s.thresholds 1 ≠ 0 ∧
      (Map.get 0 s.thresholds 1).toNat < Map.get 0 s.rowErrors (Config.rowOf pa)
    let t := { s with
      corrected := Map.upd 0 s.corrected (2048 + d) (· + 1)
      rowErrors := Map.upd 0 s.rowErrors (Config.rowOf pa) (· + 1) }
    (∀ b c, s.badAt pa 1 = some c → exec (.patrolScrub pa b) z = .next (countEvent s .scrubbedBad)) ∧
    (s.badAt pa 1 = none → exec (.patrolScrub pa false) z = .next s ∧
      (due t → exec (.patrolScrub pa true) z = .next { t with agenda := .postPackageRepair pa :: t.agenda }) ∧
      (¬ due t → exec (.patrolScrub pa true) z = .next t)) ∧
    (due s → exec (.postPackageRepair pa) s = .next { s with
      repaired := if Config.rowOf pa ∈ s.repaired then s.repaired else s.repaired ++ [Config.rowOf pa]
      rowErrors := Map.erase s.rowErrors (Config.rowOf pa) }) ∧
    (¬ due s → exec (.postPackageRepair pa) s = .next s)) ∧
  (∀ (d ch : Nat) (s : State), d < 8 → ch < 32 → (∀ p ∈ s.spareChannels, p.1 ≠ d) →
    exec (.spareChannelMigration d ch) s = .next { s with spareChannels := s.spareChannels ++ [(d, ch)] }) ∧
  (∀ (src : ShutSource) (tag c : BitVec 16) (s : State),
    (src = .snap ∨ src = .watch → exec (.shutterFire src tag c) s = .next (fireShutter s src tag (some c))) ∧
    (src ≠ .snap → src ≠ .watch → exec (.shutterFire src tag c) s = .next (fireShutter s src tag none))) ∧
  (∀ s : State, s.shutter.gathering = true →
    let sheet := writeVia s (packageView s.mgmtSpace) s.pkgWriter s.shutter.area.toNat (contactSheet s.shutter)
    (∀ t, stage3Done s = true → sheet = .ok t → exec .contactSheetGatherEnd s =
      .next { t with shutter := { causes := t.shutter.causes, area := t.shutter.area } }) ∧
    ∀ e, stage3Done s = false ∨ sheet = .error e → exec .contactSheetGatherEnd s =
      .next { s with shutter := { causes := s.shutter.causes, area := s.shutter.area } }) ∧
  (∀ (n v : Nat) (s : State) (d : Dens), d = Map.get {} s.dens n → d.cfg.getLsbD 0 = true →
    let t := { s with dens := Map.set {} s.dens n (d.sampled v) }
    exec (.densitometerSample n v) s = .next (
      if d.cfg.getLsbD 3 = true ∧ bitsAt d.cfg.toNat 4 4 ≤ bucketOf (v / 2 ^ bitsAt d.cfg.toNat 8 4)
      then fireShutter t .densitometer 0 none else t)) ∧
  (∀ (n : Nat) (s : State), exec (.densitometerClear n) s = .next { s with dens := Map.upd {} s.dens n Dens.cleared }) ∧
  (∀ (s : State), s.bootFail = none →
    (∀ ok code, 4 ≤ s.bootStage → exec (.boot ok code) s = .next s) ∧
    (∀ code, s.bootStage < 3 → exec (.boot true code) s = .next { s with bootStage := s.bootStage + 1 }) ∧
    (∀ ok code, s.bootStage = 3 → exec (.boot ok code) s = .next { installKeys s with bootStage := 4 }) ∧
    ∀ code, s.bootStage ≤ 2 → exec (.boot false code) s = .next { s with bootStage := 1, bootFail := some code }) ∧
  (∀ (nonce : List Byte) (s : State), nonce.length = 32 → exec (.attestationRequest nonce) s =
    .next { s with reports := s.reports ++ [reportBody nonce ++ fixLen 64 (Config.sign (reportBody nonce))] }) ∧
  (∀ (mhz : Nat) (s : State),
    (Config.overLimit s.powerLimit s.clock s.mhz = true → mhz + 100 = s.mhz → 100 ≤ mhz →
      exec (.clockThrottle mhz) s = .next { s with mhz := mhz }) ∧
    (Config.overLimit s.powerLimit s.clock s.mhz = true → mhz + 100 ≠ s.mhz → exec (.clockThrottle mhz) s = .next s) ∧
    ∃ t, exec (.clockThrottle mhz) s = .next t ∧ (t = s ∨ t = { s with mhz := mhz })) ∧
  (∀ (z s : State), s = countEvent z .errorArisen →
    (∀ pa cause, exec (.uncorrectableError (.memory pa cause)) z = .next (markBad s pa cause)) ∧
    (∀ c f i, exec (.uncorrectableError (.register c f i)) z = .next (s.updCtx c (fun x =>
      if x.run = .dormant ∨ (f, i) ∈ x.badRegs then x else { x with badRegs := x.badRegs ++ [(f, i)] }))) ∧
    (∀ c q, exec (.uncorrectableError (.headLatch c q)) z = .next (s.updCtx c (fun x => { x with
      heads := Map.upd {} x.heads q (fun h => if h.cond = .holding then { h with latchErr := true } else h) }))) ∧
    (∀ c n, exec (.uncorrectableError (.landing c n)) z = .next (s.updCtx c (fun x => { x with
      landing := x.landing.zipIdx.map (fun (l, i) => if i = n then { l with err := true } else l) }))) ∧
    (∀ k n r c, exec (.uncorrectableError (.tile k n r c)) z = .next (s.updCore k (fun x => { x with
      tiles := Map.upd {} x.tiles n (fun t => if t.live = true ∧ (r, c) ∉ t.bad then { t with bad := t.bad ++ [(r, c)] } else t) }))) ∧
    (∀ pa cause, exec (.uncorrectableError (.side pa cause)) z = .next (markBadSide s pa cause)) ∧
    (∀ id, exec (.uncorrectableError (.image id)) z = .next { s with saved := s.saved.map (fun v =>
      match v.place with
      | .offer _ _ _ => if v.id = id then { v with imageBad := true } else v
      | .memory _ _ _ => v) }) ∧
    ∀ k t, t = countEvent z (.corrected k) → exec (.uncorrectableError (.corrected k)) z =
      .next { t with corrected := Map.upd 0 t.corrected k (· + 1) }) ∧
  ∀ (s : State) (w : Word) (l : List Word),
    (∀ die, exec (.registerWrite (.ingressMode die) (w :: l)) s = .next (s.updDie die (fun d => { d with skid := w.getLsbD 0 }))) ∧
    (∀ core, exec (.registerWrite (.ageing core) (w :: l)) s = .next (
      if 4 ≤ (w &&& 0x1F).toNat ∧ (w &&& 0x1F).toNat ≤ 16 then s.updCore core (fun x => { x with ageing := w &&& 0x1F }) else s)) ∧
    (∀ die m, meshOf (wordsBytes (w :: l)) = some m →
      exec (.registerWrite (.mesh die) (w :: l)) s = .next { s.updDie die (fun d => { d with mesh := m }) with
        agenda := (newlyFailed (s.die die).mesh m).map (fun f => .markMemberFailed f.1 f.2) ++ s.agenda }) ∧
    (∀ g, geomOf (w :: l) = some g → s.seqs = [] → exec (.registerWrite .kvGeometry (w :: l)) s = .next
      { s with geom := g, frames := [], free := Map.set [] [] 10 (freeBlocks (g.frames / 1024)) }) ∧
    (∀ cl, exec (.registerWrite (.vaultConfig cl) (w :: l)) s = .next { s with agenda := .vaultConfigWrite cl w :: s.agenda }) ∧
    (∀ k, exec (.registerWrite (.reserve k) (w :: l)) s = .next { s with agenda := .reserveRegisterWrite k w :: s.agenda }) ∧
    (∀ k, coreValid k = true → exec (.registerWrite (.replaceCore k) (w :: l)) s =
      .next (s.updCore k (fun x => { x with replace := w.getLsbD 0 }))) ∧
    (∀ i, i < 16384 → exec (.registerWrite (.queuePair i) (w :: l)) s = .next { s with qps := Map.put s.qps i { space :=
      { asid := w.setWidth 16, root := l.getD 0 0, key := (l.getD 1 0).setWidth 32 } } }) ∧
    (∀ e, exec (.registerWrite (.engineDisable e) (w :: l)) s = .next (setEngine s e (fun x => { x with present := !w.getLsbD 0 }))) ∧
    (∀ i, i < 8 → exec (.registerWrite (.shutterCause i) (w :: l)) s = .next { s with shutter := { s.shutter with
      causes := ((s.shutter.causes ++ List.replicate 8 0).take 8).set i (w.setWidth 8) } })
end

