-- ==== Sys2Proof/Laws/Lanes.lean ====
section
/-! SUPPORT. Lanes of a register: a lane of what a list of lanes makes is that list's element. -/

namespace Sys2Proof.Laws

open Sys2Proof Machine

theorem packLanes_lt (w : Nat) (l : List Nat) : packLanes w l < 2 ^ (w * l.length) := by
  induction l with
  | nil => simp [packLanes]
  | cons x l ih =>
    have h : packLanes w (x :: l) = packLanes w l * 2 ^ w + x % 2 ^ w := rfl
    have hx : x % 2 ^ w < 2 ^ w := Nat.mod_lt _ (by positivity)
    rw [h, List.length_cons, Nat.mul_succ, Nat.pow_add]
    nlinarith [Nat.mul_le_mul_right (2 ^ w) (Nat.succ_le_of_lt ih)]

/-- Digit `i` of the number that lanes make. -/
theorem packLanes_digit (w : Nat) (l : List Nat) (i : Nat) (h : i < l.length) :
    packLanes w l / 2 ^ (w * i) % 2 ^ w = l[i] % 2 ^ w := by
  induction l generalizing i with
  | nil => simp at h
  | cons x l ih =>
    have e : packLanes w (x :: l) = packLanes w l * 2 ^ w + x % 2 ^ w := rfl
    have hx : x % 2 ^ w < 2 ^ w := Nat.mod_lt _ (by positivity)
    rw [e]
    cases i with
    | zero => simp [Nat.add_mod, Nat.mul_mod_left]
    | succ i =>
      have hd : (packLanes w l * 2 ^ w + x % 2 ^ w) / 2 ^ w = packLanes w l := by
        rw [Nat.mul_comm, Nat.mul_add_div (by positivity), Nat.div_eq_of_lt hx, Nat.add_zero]
      rw [Nat.mul_succ, Nat.add_comm (w * i) w, Nat.pow_add, ← Nat.div_div_eq_div_mul, hd]
      simpa using ih i (by simpa using h)

/-- A lane of a register made of lanes. -/
theorem laneAt_ofLanes {w : Nat} {l : List Nat} {i : Nat} (hl : w * l.length ≤ 2048) (hi : i < l.length) :
    laneAt w (ofLanes w l) i = l[i] % 2 ^ w := by
  have hlt : packLanes w l < 2 ^ 2048 :=
    lt_of_lt_of_le (packLanes_lt w l) (Nat.pow_le_pow_right (by norm_num) hl)
  unfold laneAt ofLanes
  rw [BitVec.toNat_ofNat, Nat.mod_eq_of_lt hlt, packLanes_digit w l i hi]

/-- A lane of a register made lane by lane. -/
theorem laneAt_ofLanes_map {w n : Nat} (f : Nat → Nat) {i : Nat} (hl : w * n ≤ 2048) (hi : i < n) :
    laneAt w (ofLanes w ((List.range n).map f)) i = f i % 2 ^ w := by
  have h := laneAt_ofLanes (w := w) (l := (List.range n).map f) (i := i) (by simpa using hl) (by simpa using hi)
  simpa using h

/-- Every lane of a splat. -/
theorem laneAt_splat {w x i : Nat} (hi : i < 2048 / w) : laneAt w (splat w x) i = x % 2 ^ w := by
  unfold splat
  have h := laneAt_ofLanes (w := w) (l := List.replicate (2048 / w) x) (i := i)
    (by simpa using Nat.mul_div_le 2048 w) (by simpa using hi)
  simpa using h

/-- A lane is a number of its width. -/
theorem laneAt_lt (w : Nat) (v : VecReg) (i : Nat) : laneAt w v i < 2 ^ w := Nat.mod_lt _ (by positivity)

/-- The lanes of a type fill a register. -/
theorem width_mul_lanes (ty : ElemTy) : ty.width * ty.lanes = 2048 := by cases ty <;> rfl
theorem width_pos (ty : ElemTy) : 0 < ty.width := by cases ty <;> decide

end Sys2Proof.Laws
end

