-- ==== Sys2Proof/Laws/Map.lean ====
section
/-! SUPPORT. The sparse map of Word.lean: what its operations read as, and that each of them keeps the canonical form. -/

namespace Sys2Proof.Map

variable {α : Type} [DecidableEq α] {d : α}

omit [DecidableEq α] in
@[simp] theorem get_nil (k : Nat) : get d ([] : Map α) k = d := rfl
@[simp] theorem wf_nil : wf d ([] : Map α) = true := rfl

theorem wfFrom_cons {n j : Nat} {v : α} {m : Map α} :
    wfFrom d n ((j, v) :: m) = true ↔ n ≤ j ∧ v ≠ d ∧ wfFrom d (j + 1) m = true := by
  simp [wfFrom, and_assoc]

theorem wfFrom_mono {m : Map α} {n n' : Nat} (h : wfFrom d n m = true) (hn : n' ≤ n) : wfFrom d n' m = true := by
  cases m with
  | nil => rfl
  | cons p m =>
    obtain ⟨j, v⟩ := p
    rw [wfFrom_cons] at h ⊢
    exact ⟨by omega, h.2⟩

/-- A key below the first one listed reads as the default. -/
theorem get_of_lt {m : Map α} {n k : Nat} (h : wfFrom d n m = true) (hk : k < n) : get d m k = d := by
  cases m with
  | nil => rfl
  | cons p m =>
    obtain ⟨j, v⟩ := p
    have hj := (wfFrom_cons.mp h).1
    simp only [get]
    rw [if_neg (by omega), if_pos (by omega)]

omit [DecidableEq α] in
theorem get_put_self (m : Map α) (k : Nat) (v : α) : get d (put m k v) k = v := by
  induction m with
  | nil => simp [put, get]
  | cons p m ih =>
    obtain ⟨j, u⟩ := p
    by_cases h1 : k = j
    · simp [put, get, h1]
    · by_cases h2 : k < j
      · simp [put, get, h1, h2]
      · simp [put, get, h1, h2, ih]

omit [DecidableEq α] in
theorem get_put_of_ne (m : Map α) {k i : Nat} (v : α) (hi : i ≠ k) : get d (put m k v) i = get d m i := by
  induction m with
  | nil => by_cases h : i < k <;> simp [put, get, hi]
  | cons p m ih =>
    obtain ⟨j, u⟩ := p
    by_cases h1 : k = j
    · subst h1; simp [put, get, hi]
    · by_cases h2 : k < j
      · simp only [put, h1, h2, if_false, if_true, get, hi]
        by_cases h3 : i < k
        · have : i ≠ j := by omega
          have : i < j := by omega
          simp [*]
        · simp [h3]
      · simp only [put, h1, h2, if_false, get, ih]

theorem get_erase_of_ne {m : Map α} {n k i : Nat} (h : wfFrom d n m = true) (hi : i ≠ k) :
    get d (erase m k) i = get d m i := by
  induction m generalizing n with
  | nil => rfl
  | cons p m ih =>
    obtain ⟨j, u⟩ := p
    obtain ⟨hj, hu, hm⟩ := wfFrom_cons.mp h
    by_cases h1 : k = j
    · subst h1
      simp only [erase, if_true, get, hi, if_false]
      by_cases h3 : i < k
      · simp [h3, get_of_lt hm (show i < k + 1 by omega)]
      · simp [h3]
    · by_cases h2 : k < j
      · simp [erase, h1, h2]
      · simp only [erase, h1, h2, if_false, get, ih hm]

theorem get_erase_self {m : Map α} {n k : Nat} (h : wfFrom d n m = true) : get d (erase m k) k = d := by
  induction m generalizing n with
  | nil => rfl
  | cons p m ih =>
    obtain ⟨j, u⟩ := p
    obtain ⟨hj, hu, hm⟩ := wfFrom_cons.mp h
    by_cases h1 : k = j
    · subst h1; simp [erase, get_of_lt hm (show k < k + 1 by omega)]
    · by_cases h2 : k < j
      · simp [erase, h1, h2, get]
      · simp [erase, h1, h2, get, ih hm]

/-- A read after a write of the same key. -/
theorem get_set_self {m : Map α} (h : wf d m = true) (k : Nat) (v : α) : get d (set d m k v) k = v := by
  unfold set
  split
  · next hv => rw [get_erase_self h, hv]
  · exact get_put_self m k v

/-- A write leaves every other key alone. -/
theorem get_set_of_ne {m : Map α} (h : wf d m = true) {k i : Nat} (v : α) (hi : i ≠ k) :
    get d (set d m k v) i = get d m i := by
  unfold set
  split
  · exact get_erase_of_ne h hi
  · exact get_put_of_ne m v hi

theorem get_upd_self {m : Map α} (h : wf d m = true) (k : Nat) (f : α → α) :
    get d (upd d m k f) k = f (get d m k) := get_set_self h k _

theorem get_upd_of_ne {m : Map α} (h : wf d m = true) {k i : Nat} (f : α → α) (hi : i ≠ k) :
    get d (upd d m k f) i = get d m i := get_set_of_ne h _ hi

theorem wfFrom_erase {m : Map α} {n k : Nat} (h : wfFrom d n m = true) : wfFrom d n (erase m k) = true := by
  induction m generalizing n with
  | nil => rfl
  | cons p m ih =>
    obtain ⟨j, u⟩ := p
    obtain ⟨hj, hu, hm⟩ := wfFrom_cons.mp h
    by_cases h1 : k = j
    · simp only [erase, h1, if_true]; exact wfFrom_mono hm (by omega)
    · by_cases h2 : k < j
      · simpa [erase, h1, h2] using h
      · simp only [erase, h1, h2, if_false]; exact wfFrom_cons.mpr ⟨hj, hu, ih hm⟩

theorem wfFrom_put {m : Map α} {n k : Nat} {v : α} (h : wfFrom d n m = true) (hk : n ≤ k) (hv : v ≠ d) :
    wfFrom d n (put m k v) = true := by
  induction m generalizing n with
  | nil => exact wfFrom_cons.mpr ⟨hk, hv, rfl⟩
  | cons p m ih =>
    obtain ⟨j, u⟩ := p
    obtain ⟨hj, hu, hm⟩ := wfFrom_cons.mp h
    by_cases h1 : k = j
    · subst h1; simp only [put, if_true]; exact wfFrom_cons.mpr ⟨hk, hv, hm⟩
    · by_cases h2 : k < j
      · simp only [put, h1, h2, if_false, if_true]
        exact wfFrom_cons.mpr ⟨hk, hv, wfFrom_cons.mpr ⟨by omega, hu, hm⟩⟩
      · simp only [put, h1, h2, if_false]
        exact wfFrom_cons.mpr ⟨hj, hu, ih hm (by omega)⟩

theorem wf_erase {m : Map α} (h : wf d m = true) (k : Nat) : wf d (erase m k) = true := wfFrom_erase h

/-- Writing keeps the canonical form. -/
theorem wf_set {m : Map α} (h : wf d m = true) (k : Nat) (v : α) : wf d (set d m k v) = true := by
  unfold set
  split
  · exact wfFrom_erase h
  · next hv => exact wfFrom_put h (Nat.zero_le k) hv

theorem wf_upd {m : Map α} (h : wf d m = true) (k : Nat) (f : α → α) : wf d (upd d m k f) = true := wf_set h k _

/-- Dropping entries keeps the canonical form. -/
theorem wfFrom_filter {m : Map α} {n : Nat} (p : Nat × α → Bool) (h : wfFrom d n m = true) :
    wfFrom d n (List.filter p m) = true := by
  induction m generalizing n with
  | nil => rfl
  | cons q m ih =>
    obtain ⟨j, u⟩ := q
    obtain ⟨hj, hu, hm⟩ := wfFrom_cons.mp h
    rw [List.filter_cons]
    split
    · exact wfFrom_cons.mpr ⟨hj, hu, ih hm⟩
    · exact wfFrom_mono (ih hm) (by omega)

theorem wf_filter {m : Map α} (p : Nat × α → Bool) (h : wf d m = true) : wf d (List.filter p m) = true := wfFrom_filter p h

end Sys2Proof.Map
end

