-- ==== Sys2Proof/Laws/State.lean ====
section
/-! SUPPORT. What each update of the state leaves as it was, field by field, and reads after updates of its units. -/

namespace Sys2Proof.Machine.State

/-! ### updCtx -/

@[simp] theorem updCtx_pkg (s : State) (c : Nat) (f : Ctx → Ctx) : (s.updCtx c f).pkg = s.pkg := rfl
@[simp] theorem updCtx_packages (s : State) (c : Nat) (f : Ctx → Ctx) : (s.updCtx c f).packages = s.packages := rfl
@[simp] theorem updCtx_clock (s : State) (c : Nat) (f : Ctx → Ctx) : (s.updCtx c f).clock = s.clock := rfl
@[simp] theorem updCtx_mhz (s : State) (c : Nat) (f : Ctx → Ctx) : (s.updCtx c f).mhz = s.mhz := rfl
@[simp] theorem updCtx_dtimePs (s : State) (c : Nat) (f : Ctx → Ctx) : (s.updCtx c f).dtimePs = s.dtimePs := rfl
@[simp] theorem updCtx_mem (s : State) (c : Nat) (f : Ctx → Ctx) : (s.updCtx c f).mem = s.mem := rfl
@[simp] theorem updCtx_side (s : State) (c : Nat) (f : Ctx → Ctx) : (s.updCtx c f).side = s.side := rfl
@[simp] theorem updCtx_redShadow (s : State) (c : Nat) (f : Ctx → Ctx) : (s.updCtx c f).redShadow = s.redShadow := rfl
@[simp] theorem updCtx_race (s : State) (c : Nat) (f : Ctx → Ctx) : (s.updCtx c f).race = s.race := rfl
@[simp] theorem updCtx_bad (s : State) (c : Nat) (f : Ctx → Ctx) : (s.updCtx c f).bad = s.bad := rfl
@[simp] theorem updCtx_badSide (s : State) (c : Nat) (f : Ctx → Ctx) : (s.updCtx c f).badSide = s.badSide := rfl
@[simp] theorem updCtx_retained (s : State) (c : Nat) (f : Ctx → Ctx) : (s.updCtx c f).retained = s.retained := rfl
@[simp] theorem updCtx_shadowLines (s : State) (c : Nat) (f : Ctx → Ctx) : (s.updCtx c f).shadowLines = s.shadowLines := rfl
@[simp] theorem updCtx_lineTimes (s : State) (c : Nat) (f : Ctx → Ctx) : (s.updCtx c f).lineTimes = s.lineTimes := rfl
@[simp] theorem updCtx_cores (s : State) (c : Nat) (f : Ctx → Ctx) : (s.updCtx c f).cores = s.cores := rfl
@[simp] theorem updCtx_loose (s : State) (c : Nat) (f : Ctx → Ctx) : (s.updCtx c f).loose = s.loose := rfl
@[simp] theorem updCtx_clusters (s : State) (c : Nat) (f : Ctx → Ctx) : (s.updCtx c f).clusters = s.clusters := rfl
@[simp] theorem updCtx_dies (s : State) (c : Nat) (f : Ctx → Ctx) : (s.updCtx c f).dies = s.dies := rfl
@[simp] theorem updCtx_geom (s : State) (c : Nat) (f : Ctx → Ctx) : (s.updCtx c f).geom = s.geom := rfl
@[simp] theorem updCtx_seqs (s : State) (c : Nat) (f : Ctx → Ctx) : (s.updCtx c f).seqs = s.seqs := rfl
@[simp] theorem updCtx_frames (s : State) (c : Nat) (f : Ctx → Ctx) : (s.updCtx c f).frames = s.frames := rfl
@[simp] theorem updCtx_free (s : State) (c : Nat) (f : Ctx → Ctx) : (s.updCtx c f).free = s.free := rfl
@[simp] theorem updCtx_cohorts (s : State) (c : Nat) (f : Ctx → Ctx) : (s.updCtx c f).cohorts = s.cohorts := rfl
@[simp] theorem updCtx_kvJobs (s : State) (c : Nat) (f : Ctx → Ctx) : (s.updCtx c f).kvJobs = s.kvJobs := rfl
@[simp] theorem updCtx_deliveries (s : State) (c : Nat) (f : Ctx → Ctx) : (s.updCtx c f).deliveries = s.deliveries := rfl
@[simp] theorem updCtx_followerOut (s : State) (c : Nat) (f : Ctx → Ctx) : (s.updCtx c f).followerOut = s.followerOut := rfl
@[simp] theorem updCtx_rings (s : State) (c : Nat) (f : Ctx → Ctx) : (s.updCtx c f).rings = s.rings := rfl
@[simp] theorem updCtx_nodes (s : State) (c : Nat) (f : Ctx → Ctx) : (s.updCtx c f).nodes = s.nodes := rfl
@[simp] theorem updCtx_sets (s : State) (c : Nat) (f : Ctx → Ctx) : (s.updCtx c f).sets = s.sets := rfl
@[simp] theorem updCtx_saved (s : State) (c : Nat) (f : Ctx → Ctx) : (s.updCtx c f).saved = s.saved := rfl
@[simp] theorem updCtx_nextId (s : State) (c : Nat) (f : Ctx → Ctx) : (s.updCtx c f).nextId = s.nextId := rfl
@[simp] theorem updCtx_raceLogged (s : State) (c : Nat) (f : Ctx → Ctx) : (s.updCtx c f).raceLogged = s.raceLogged := rfl
@[simp] theorem updCtx_corrected (s : State) (c : Nat) (f : Ctx → Ctx) : (s.updCtx c f).corrected = s.corrected := rfl
@[simp] theorem updCtx_rowErrors (s : State) (c : Nat) (f : Ctx → Ctx) : (s.updCtx c f).rowErrors = s.rowErrors := rfl
@[simp] theorem updCtx_repaired (s : State) (c : Nat) (f : Ctx → Ctx) : (s.updCtx c f).repaired = s.repaired := rfl
@[simp] theorem updCtx_spareChannels (s : State) (c : Nat) (f : Ctx → Ctx) : (s.updCtx c f).spareChannels = s.spareChannels := rfl
@[simp] theorem updCtx_mgmtSpace (s : State) (c : Nat) (f : Ctx → Ctx) : (s.updCtx c f).mgmtSpace = s.mgmtSpace := rfl
@[simp] theorem updCtx_areas (s : State) (c : Nat) (f : Ctx → Ctx) : (s.updCtx c f).areas = s.areas := rfl
@[simp] theorem updCtx_qps (s : State) (c : Nat) (f : Ctx → Ctx) : (s.updCtx c f).qps = s.qps := rfl
@[simp] theorem updCtx_hostWrites (s : State) (c : Nat) (f : Ctx → Ctx) : (s.updCtx c f).hostWrites = s.hostWrites := rfl
@[simp] theorem updCtx_hostOut (s : State) (c : Nat) (f : Ctx → Ctx) : (s.updCtx c f).hostOut = s.hostOut := rfl
@[simp] theorem updCtx_watchHits (s : State) (c : Nat) (f : Ctx → Ctx) : (s.updCtx c f).watchHits = s.watchHits := rfl
@[simp] theorem updCtx_resets (s : State) (c : Nat) (f : Ctx → Ctx) : (s.updCtx c f).resets = s.resets := rfl
@[simp] theorem updCtx_shutter (s : State) (c : Nat) (f : Ctx → Ctx) : (s.updCtx c f).shutter = s.shutter := rfl
@[simp] theorem updCtx_dens (s : State) (c : Nat) (f : Ctx → Ctx) : (s.updCtx c f).dens = s.dens := rfl
@[simp] theorem updCtx_thresholds (s : State) (c : Nat) (f : Ctx → Ctx) : (s.updCtx c f).thresholds = s.thresholds := rfl
@[simp] theorem updCtx_powerLimit (s : State) (c : Nat) (f : Ctx → Ctx) : (s.updCtx c f).powerLimit = s.powerLimit := rfl
@[simp] theorem updCtx_scrubRate (s : State) (c : Nat) (f : Ctx → Ctx) : (s.updCtx c f).scrubRate = s.scrubRate := rfl
@[simp] theorem updCtx_scrubs (s : State) (c : Nat) (f : Ctx → Ctx) : (s.updCtx c f).scrubs = s.scrubs := rfl
@[simp] theorem updCtx_scrubAt (s : State) (c : Nat) (f : Ctx → Ctx) : (s.updCtx c f).scrubAt = s.scrubAt := rfl
@[simp] theorem updCtx_bootStage (s : State) (c : Nat) (f : Ctx → Ctx) : (s.updCtx c f).bootStage = s.bootStage := rfl
@[simp] theorem updCtx_bootFail (s : State) (c : Nat) (f : Ctx → Ctx) : (s.updCtx c f).bootFail = s.bootFail := rfl
@[simp] theorem updCtx_reports (s : State) (c : Nat) (f : Ctx → Ctx) : (s.updCtx c f).reports = s.reports := rfl
@[simp] theorem updCtx_freeIdx (s : State) (c : Nat) (f : Ctx → Ctx) : (s.updCtx c f).freeIdx = s.freeIdx := rfl
@[simp] theorem updCtx_issue (s : State) (c : Nat) (f : Ctx → Ctx) : (s.updCtx c f).issue = s.issue := rfl
@[simp] theorem updCtx_agenda (s : State) (c : Nat) (f : Ctx → Ctx) : (s.updCtx c f).agenda = s.agenda := rfl
@[simp] theorem updCtx_issuing (s : State) (c : Nat) (f : Ctx → Ctx) : (s.updCtx c f).issuing = s.issuing := rfl
@[simp] theorem updCtx_issued (s : State) (c : Nat) (f : Ctx → Ctx) : (s.updCtx c f).issued = s.issued := rfl

/-- A unit reads back what an update of it gives. -/
theorem ctx_updCtx_self (s : State) (c : Nat) (f : Ctx → Ctx) (h : Map.wf {} s.ctxs = true) :
    (s.updCtx c f).ctx c = f (s.ctx c) := Map.get_upd_self h c f

/-- An update leaves every other unit as it was. -/
theorem ctx_updCtx_of_ne (s : State) (c i : Nat) (f : Ctx → Ctx) (h : Map.wf {} s.ctxs = true) (hi : i ≠ c) :
    (s.updCtx c f).ctx i = s.ctx i := Map.get_upd_of_ne h f hi

theorem wf_updCtx (s : State) (c : Nat) (f : Ctx → Ctx) (h : Map.wf {} s.ctxs = true) :
    Map.wf {} (s.updCtx c f).ctxs = true := Map.wf_upd h c f

@[simp] theorem core_updCtx (s : State) (c : Nat) (f : Ctx → Ctx) (i : Nat) : (s.updCtx c f).core i = s.core i := rfl
@[simp] theorem cluster_updCtx (s : State) (c : Nat) (f : Ctx → Ctx) (i : Nat) : (s.updCtx c f).cluster i = s.cluster i := rfl
@[simp] theorem die_updCtx (s : State) (c : Nat) (f : Ctx → Ctx) (i : Nat) : (s.updCtx c f).die i = s.die i := rfl

/-! ### updCore -/

@[simp] theorem updCore_pkg (s : State) (k : Nat) (f : Core → Core) : (s.updCore k f).pkg = s.pkg := rfl
@[simp] theorem updCore_packages (s : State) (k : Nat) (f : Core → Core) : (s.updCore k f).packages = s.packages := rfl
@[simp] theorem updCore_clock (s : State) (k : Nat) (f : Core → Core) : (s.updCore k f).clock = s.clock := rfl
@[simp] theorem updCore_mhz (s : State) (k : Nat) (f : Core → Core) : (s.updCore k f).mhz = s.mhz := rfl
@[simp] theorem updCore_dtimePs (s : State) (k : Nat) (f : Core → Core) : (s.updCore k f).dtimePs = s.dtimePs := rfl
@[simp] theorem updCore_mem (s : State) (k : Nat) (f : Core → Core) : (s.updCore k f).mem = s.mem := rfl
@[simp] theorem updCore_side (s : State) (k : Nat) (f : Core → Core) : (s.updCore k f).side = s.side := rfl
@[simp] theorem updCore_redShadow (s : State) (k : Nat) (f : Core → Core) : (s.updCore k f).redShadow = s.redShadow := rfl
@[simp] theorem updCore_race (s : State) (k : Nat) (f : Core → Core) : (s.updCore k f).race = s.race := rfl
@[simp] theorem updCore_bad (s : State) (k : Nat) (f : Core → Core) : (s.updCore k f).bad = s.bad := rfl
@[simp] theorem updCore_badSide (s : State) (k : Nat) (f : Core → Core) : (s.updCore k f).badSide = s.badSide := rfl
@[simp] theorem updCore_retained (s : State) (k : Nat) (f : Core → Core) : (s.updCore k f).retained = s.retained := rfl
@[simp] theorem updCore_shadowLines (s : State) (k : Nat) (f : Core → Core) : (s.updCore k f).shadowLines = s.shadowLines := rfl
@[simp] theorem updCore_lineTimes (s : State) (k : Nat) (f : Core → Core) : (s.updCore k f).lineTimes = s.lineTimes := rfl
@[simp] theorem updCore_ctxs (s : State) (k : Nat) (f : Core → Core) : (s.updCore k f).ctxs = s.ctxs := rfl
@[simp] theorem updCore_loose (s : State) (k : Nat) (f : Core → Core) : (s.updCore k f).loose = s.loose := rfl
@[simp] theorem updCore_clusters (s : State) (k : Nat) (f : Core → Core) : (s.updCore k f).clusters = s.clusters := rfl
@[simp] theorem updCore_dies (s : State) (k : Nat) (f : Core → Core) : (s.updCore k f).dies = s.dies := rfl
@[simp] theorem updCore_geom (s : State) (k : Nat) (f : Core → Core) : (s.updCore k f).geom = s.geom := rfl
@[simp] theorem updCore_seqs (s : State) (k : Nat) (f : Core → Core) : (s.updCore k f).seqs = s.seqs := rfl
@[simp] theorem updCore_frames (s : State) (k : Nat) (f : Core → Core) : (s.updCore k f).frames = s.frames := rfl
@[simp] theorem updCore_free (s : State) (k : Nat) (f : Core → Core) : (s.updCore k f).free = s.free := rfl
@[simp] theorem updCore_cohorts (s : State) (k : Nat) (f : Core → Core) : (s.updCore k f).cohorts = s.cohorts := rfl
@[simp] theorem updCore_kvJobs (s : State) (k : Nat) (f : Core → Core) : (s.updCore k f).kvJobs = s.kvJobs := rfl
@[simp] theorem updCore_deliveries (s : State) (k : Nat) (f : Core → Core) : (s.updCore k f).deliveries = s.deliveries := rfl
@[simp] theorem updCore_followerOut (s : State) (k : Nat) (f : Core → Core) : (s.updCore k f).followerOut = s.followerOut := rfl
@[simp] theorem updCore_rings (s : State) (k : Nat) (f : Core → Core) : (s.updCore k f).rings = s.rings := rfl
@[simp] theorem updCore_nodes (s : State) (k : Nat) (f : Core → Core) : (s.updCore k f).nodes = s.nodes := rfl
@[simp] theorem updCore_sets (s : State) (k : Nat) (f : Core → Core) : (s.updCore k f).sets = s.sets := rfl
@[simp] theorem updCore_saved (s : State) (k : Nat) (f : Core → Core) : (s.updCore k f).saved = s.saved := rfl
@[simp] theorem updCore_nextId (s : State) (k : Nat) (f : Core → Core) : (s.updCore k f).nextId = s.nextId := rfl
@[simp] theorem updCore_raceLogged (s : State) (k : Nat) (f : Core → Core) : (s.updCore k f).raceLogged = s.raceLogged := rfl
@[simp] theorem updCore_corrected (s : State) (k : Nat) (f : Core → Core) : (s.updCore k f).corrected = s.corrected := rfl
@[simp] theorem updCore_rowErrors (s : State) (k : Nat) (f : Core → Core) : (s.updCore k f).rowErrors = s.rowErrors := rfl
@[simp] theorem updCore_repaired (s : State) (k : Nat) (f : Core → Core) : (s.updCore k f).repaired = s.repaired := rfl
@[simp] theorem updCore_spareChannels (s : State) (k : Nat) (f : Core → Core) : (s.updCore k f).spareChannels = s.spareChannels := rfl
@[simp] theorem updCore_mgmtSpace (s : State) (k : Nat) (f : Core → Core) : (s.updCore k f).mgmtSpace = s.mgmtSpace := rfl
@[simp] theorem updCore_areas (s : State) (k : Nat) (f : Core → Core) : (s.updCore k f).areas = s.areas := rfl
@[simp] theorem updCore_qps (s : State) (k : Nat) (f : Core → Core) : (s.updCore k f).qps = s.qps := rfl
@[simp] theorem updCore_hostWrites (s : State) (k : Nat) (f : Core → Core) : (s.updCore k f).hostWrites = s.hostWrites := rfl
@[simp] theorem updCore_hostOut (s : State) (k : Nat) (f : Core → Core) : (s.updCore k f).hostOut = s.hostOut := rfl
@[simp] theorem updCore_watchHits (s : State) (k : Nat) (f : Core → Core) : (s.updCore k f).watchHits = s.watchHits := rfl
@[simp] theorem updCore_resets (s : State) (k : Nat) (f : Core → Core) : (s.updCore k f).resets = s.resets := rfl
@[simp] theorem updCore_shutter (s : State) (k : Nat) (f : Core → Core) : (s.updCore k f).shutter = s.shutter := rfl
@[simp] theorem updCore_dens (s : State) (k : Nat) (f : Core → Core) : (s.updCore k f).dens = s.dens := rfl
@[simp] theorem updCore_thresholds (s : State) (k : Nat) (f : Core → Core) : (s.updCore k f).thresholds = s.thresholds := rfl
@[simp] theorem updCore_powerLimit (s : State) (k : Nat) (f : Core → Core) : (s.updCore k f).powerLimit = s.powerLimit := rfl
@[simp] theorem updCore_scrubRate (s : State) (k : Nat) (f : Core → Core) : (s.updCore k f).scrubRate = s.scrubRate := rfl
@[simp] theorem updCore_scrubs (s : State) (k : Nat) (f : Core → Core) : (s.updCore k f).scrubs = s.scrubs := rfl
@[simp] theorem updCore_scrubAt (s : State) (k : Nat) (f : Core → Core) : (s.updCore k f).scrubAt = s.scrubAt := rfl
@[simp] theorem updCore_bootStage (s : State) (k : Nat) (f : Core → Core) : (s.updCore k f).bootStage = s.bootStage := rfl
@[simp] theorem updCore_bootFail (s : State) (k : Nat) (f : Core → Core) : (s.updCore k f).bootFail = s.bootFail := rfl
@[simp] theorem updCore_reports (s : State) (k : Nat) (f : Core → Core) : (s.updCore k f).reports = s.reports := rfl
@[simp] theorem updCore_freeIdx (s : State) (k : Nat) (f : Core → Core) : (s.updCore k f).freeIdx = s.freeIdx := rfl
@[simp] theorem updCore_issue (s : State) (k : Nat) (f : Core → Core) : (s.updCore k f).issue = s.issue := rfl
@[simp] theorem updCore_agenda (s : State) (k : Nat) (f : Core → Core) : (s.updCore k f).agenda = s.agenda := rfl
@[simp] theorem updCore_issuing (s : State) (k : Nat) (f : Core → Core) : (s.updCore k f).issuing = s.issuing := rfl
@[simp] theorem updCore_issued (s : State) (k : Nat) (f : Core → Core) : (s.updCore k f).issued = s.issued := rfl

/-- A unit reads back what an update of it gives. -/
theorem core_updCore_self (s : State) (k : Nat) (f : Core → Core) (h : Map.wf {} s.cores = true) :
    (s.updCore k f).core k = f (s.core k) := Map.get_upd_self h k f

/-- An update leaves every other unit as it was. -/
theorem core_updCore_of_ne (s : State) (k i : Nat) (f : Core → Core) (h : Map.wf {} s.cores = true) (hi : i ≠ k) :
    (s.updCore k f).core i = s.core i := Map.get_upd_of_ne h f hi

theorem wf_updCore (s : State) (k : Nat) (f : Core → Core) (h : Map.wf {} s.cores = true) :
    Map.wf {} (s.updCore k f).cores = true := Map.wf_upd h k f

@[simp] theorem ctx_updCore (s : State) (k : Nat) (f : Core → Core) (i : Nat) : (s.updCore k f).ctx i = s.ctx i := rfl
@[simp] theorem cluster_updCore (s : State) (k : Nat) (f : Core → Core) (i : Nat) : (s.updCore k f).cluster i = s.cluster i := rfl
@[simp] theorem die_updCore (s : State) (k : Nat) (f : Core → Core) (i : Nat) : (s.updCore k f).die i = s.die i := rfl

/-! ### updCluster -/

@[simp] theorem updCluster_pkg (s : State) (k : Nat) (f : Cluster → Cluster) : (s.updCluster k f).pkg = s.pkg := rfl
@[simp] theorem updCluster_packages (s : State) (k : Nat) (f : Cluster → Cluster) : (s.updCluster k f).packages = s.packages := rfl
@[simp] theorem updCluster_clock (s : State) (k : Nat) (f : Cluster → Cluster) : (s.updCluster k f).clock = s.clock := rfl
@[simp] theorem updCluster_mhz (s : State) (k : Nat) (f : Cluster → Cluster) : (s.updCluster k f).mhz = s.mhz := rfl
@[simp] theorem updCluster_dtimePs (s : State) (k : Nat) (f : Cluster → Cluster) : (s.updCluster k f).dtimePs = s.dtimePs := rfl
@[simp] theorem updCluster_mem (s : State) (k : Nat) (f : Cluster → Cluster) : (s.updCluster k f).mem = s.mem := rfl
@[simp] theorem updCluster_side (s : State) (k : Nat) (f : Cluster → Cluster) : (s.updCluster k f).side = s.side := rfl
@[simp] theorem updCluster_redShadow (s : State) (k : Nat) (f : Cluster → Cluster) : (s.updCluster k f).redShadow = s.redShadow := rfl
@[simp] theorem updCluster_race (s : State) (k : Nat) (f : Cluster → Cluster) : (s.updCluster k f).race = s.race := rfl
@[simp] theorem updCluster_bad (s : State) (k : Nat) (f : Cluster → Cluster) : (s.updCluster k f).bad = s.bad := rfl
@[simp] theorem updCluster_badSide (s : State) (k : Nat) (f : Cluster → Cluster) : (s.updCluster k f).badSide = s.badSide := rfl
@[simp] theorem updCluster_retained (s : State) (k : Nat) (f : Cluster → Cluster) : (s.updCluster k f).retained = s.retained := rfl
@[simp] theorem updCluster_shadowLines (s : State) (k : Nat) (f : Cluster → Cluster) : (s.updCluster k f).shadowLines = s.shadowLines := rfl
@[simp] theorem updCluster_lineTimes (s : State) (k : Nat) (f : Cluster → Cluster) : (s.updCluster k f).lineTimes = s.lineTimes := rfl
@[simp] theorem updCluster_ctxs (s : State) (k : Nat) (f : Cluster → Cluster) : (s.updCluster k f).ctxs = s.ctxs := rfl
@[simp] theorem updCluster_cores (s : State) (k : Nat) (f : Cluster → Cluster) : (s.updCluster k f).cores = s.cores := rfl
@[simp] theorem updCluster_loose (s : State) (k : Nat) (f : Cluster → Cluster) : (s.updCluster k f).loose = s.loose := rfl
@[simp] theorem updCluster_dies (s : State) (k : Nat) (f : Cluster → Cluster) : (s.updCluster k f).dies = s.dies := rfl
@[simp] theorem updCluster_geom (s : State) (k : Nat) (f : Cluster → Cluster) : (s.updCluster k f).geom = s.geom := rfl
@[simp] theorem updCluster_seqs (s : State) (k : Nat) (f : Cluster → Cluster) : (s.updCluster k f).seqs = s.seqs := rfl
@[simp] theorem updCluster_frames (s : State) (k : Nat) (f : Cluster → Cluster) : (s.updCluster k f).frames = s.frames := rfl
@[simp] theorem updCluster_free (s : State) (k : Nat) (f : Cluster → Cluster) : (s.updCluster k f).free = s.free := rfl
@[simp] theorem updCluster_cohorts (s : State) (k : Nat) (f : Cluster → Cluster) : (s.updCluster k f).cohorts = s.cohorts := rfl
@[simp] theorem updCluster_kvJobs (s : State) (k : Nat) (f : Cluster → Cluster) : (s.updCluster k f).kvJobs = s.kvJobs := rfl
@[simp] theorem updCluster_deliveries (s : State) (k : Nat) (f : Cluster → Cluster) : (s.updCluster k f).deliveries = s.deliveries := rfl
@[simp] theorem updCluster_followerOut (s : State) (k : Nat) (f : Cluster → Cluster) : (s.updCluster k f).followerOut = s.followerOut := rfl
@[simp] theorem updCluster_rings (s : State) (k : Nat) (f : Cluster → Cluster) : (s.updCluster k f).rings = s.rings := rfl
@[simp] theorem updCluster_nodes (s : State) (k : Nat) (f : Cluster → Cluster) : (s.updCluster k f).nodes = s.nodes := rfl
@[simp] theorem updCluster_sets (s : State) (k : Nat) (f : Cluster → Cluster) : (s.updCluster k f).sets = s.sets := rfl
@[simp] theorem updCluster_saved (s : State) (k : Nat) (f : Cluster → Cluster) : (s.updCluster k f).saved = s.saved := rfl
@[simp] theorem updCluster_nextId (s : State) (k : Nat) (f : Cluster → Cluster) : (s.updCluster k f).nextId = s.nextId := rfl
@[simp] theorem updCluster_raceLogged (s : State) (k : Nat) (f : Cluster → Cluster) : (s.updCluster k f).raceLogged = s.raceLogged := rfl
@[simp] theorem updCluster_corrected (s : State) (k : Nat) (f : Cluster → Cluster) : (s.updCluster k f).corrected = s.corrected := rfl
@[simp] theorem updCluster_rowErrors (s : State) (k : Nat) (f : Cluster → Cluster) : (s.updCluster k f).rowErrors = s.rowErrors := rfl
@[simp] theorem updCluster_repaired (s : State) (k : Nat) (f : Cluster → Cluster) : (s.updCluster k f).repaired = s.repaired := rfl
@[simp] theorem updCluster_spareChannels (s : State) (k : Nat) (f : Cluster → Cluster) : (s.updCluster k f).spareChannels = s.spareChannels := rfl
@[simp] theorem updCluster_mgmtSpace (s : State) (k : Nat) (f : Cluster → Cluster) : (s.updCluster k f).mgmtSpace = s.mgmtSpace := rfl
@[simp] theorem updCluster_areas (s : State) (k : Nat) (f : Cluster → Cluster) : (s.updCluster k f).areas = s.areas := rfl
@[simp] theorem updCluster_qps (s : State) (k : Nat) (f : Cluster → Cluster) : (s.updCluster k f).qps = s.qps := rfl
@[simp] theorem updCluster_hostWrites (s : State) (k : Nat) (f : Cluster → Cluster) : (s.updCluster k f).hostWrites = s.hostWrites := rfl
@[simp] theorem updCluster_hostOut (s : State) (k : Nat) (f : Cluster → Cluster) : (s.updCluster k f).hostOut = s.hostOut := rfl
@[simp] theorem updCluster_watchHits (s : State) (k : Nat) (f : Cluster → Cluster) : (s.updCluster k f).watchHits = s.watchHits := rfl
@[simp] theorem updCluster_resets (s : State) (k : Nat) (f : Cluster → Cluster) : (s.updCluster k f).resets = s.resets := rfl
@[simp] theorem updCluster_shutter (s : State) (k : Nat) (f : Cluster → Cluster) : (s.updCluster k f).shutter = s.shutter := rfl
@[simp] theorem updCluster_dens (s : State) (k : Nat) (f : Cluster → Cluster) : (s.updCluster k f).dens = s.dens := rfl
@[simp] theorem updCluster_thresholds (s : State) (k : Nat) (f : Cluster → Cluster) : (s.updCluster k f).thresholds = s.thresholds := rfl
@[simp] theorem updCluster_powerLimit (s : State) (k : Nat) (f : Cluster → Cluster) : (s.updCluster k f).powerLimit = s.powerLimit := rfl
@[simp] theorem updCluster_scrubRate (s : State) (k : Nat) (f : Cluster → Cluster) : (s.updCluster k f).scrubRate = s.scrubRate := rfl
@[simp] theorem updCluster_scrubs (s : State) (k : Nat) (f : Cluster → Cluster) : (s.updCluster k f).scrubs = s.scrubs := rfl
@[simp] theorem updCluster_scrubAt (s : State) (k : Nat) (f : Cluster → Cluster) : (s.updCluster k f).scrubAt = s.scrubAt := rfl
@[simp] theorem updCluster_bootStage (s : State) (k : Nat) (f : Cluster → Cluster) : (s.updCluster k f).bootStage = s.bootStage := rfl
@[simp] theorem updCluster_bootFail (s : State) (k : Nat) (f : Cluster → Cluster) : (s.updCluster k f).bootFail = s.bootFail := rfl
@[simp] theorem updCluster_reports (s : State) (k : Nat) (f : Cluster → Cluster) : (s.updCluster k f).reports = s.reports := rfl
@[simp] theorem updCluster_freeIdx (s : State) (k : Nat) (f : Cluster → Cluster) : (s.updCluster k f).freeIdx = s.freeIdx := rfl
@[simp] theorem updCluster_issue (s : State) (k : Nat) (f : Cluster → Cluster) : (s.updCluster k f).issue = s.issue := rfl
@[simp] theorem updCluster_agenda (s : State) (k : Nat) (f : Cluster → Cluster) : (s.updCluster k f).agenda = s.agenda := rfl
@[simp] theorem updCluster_issuing (s : State) (k : Nat) (f : Cluster → Cluster) : (s.updCluster k f).issuing = s.issuing := rfl
@[simp] theorem updCluster_issued (s : State) (k : Nat) (f : Cluster → Cluster) : (s.updCluster k f).issued = s.issued := rfl

/-- A unit reads back what an update of it gives. -/
theorem cluster_updCluster_self (s : State) (k : Nat) (f : Cluster → Cluster) (h : Map.wf {} s.clusters = true) :
    (s.updCluster k f).cluster k = f (s.cluster k) := Map.get_upd_self h k f

/-- An update leaves every other unit as it was. -/
theorem cluster_updCluster_of_ne (s : State) (k i : Nat) (f : Cluster → Cluster) (h : Map.wf {} s.clusters = true) (hi : i ≠ k) :
    (s.updCluster k f).cluster i = s.cluster i := Map.get_upd_of_ne h f hi

theorem wf_updCluster (s : State) (k : Nat) (f : Cluster → Cluster) (h : Map.wf {} s.clusters = true) :
    Map.wf {} (s.updCluster k f).clusters = true := Map.wf_upd h k f

@[simp] theorem ctx_updCluster (s : State) (k : Nat) (f : Cluster → Cluster) (i : Nat) : (s.updCluster k f).ctx i = s.ctx i := rfl
@[simp] theorem core_updCluster (s : State) (k : Nat) (f : Cluster → Cluster) (i : Nat) : (s.updCluster k f).core i = s.core i := rfl
@[simp] theorem die_updCluster (s : State) (k : Nat) (f : Cluster → Cluster) (i : Nat) : (s.updCluster k f).die i = s.die i := rfl

/-! ### updDie -/

@[simp] theorem updDie_pkg (s : State) (d : Nat) (f : Die → Die) : (s.updDie d f).pkg = s.pkg := rfl
@[simp] theorem updDie_packages (s : State) (d : Nat) (f : Die → Die) : (s.updDie d f).packages = s.packages := rfl
@[simp] theorem updDie_clock (s : State) (d : Nat) (f : Die → Die) : (s.updDie d f).clock = s.clock := rfl
@[simp] theorem updDie_mhz (s : State) (d : Nat) (f : Die → Die) : (s.updDie d f).mhz = s.mhz := rfl
@[simp] theorem updDie_dtimePs (s : State) (d : Nat) (f : Die → Die) : (s.updDie d f).dtimePs = s.dtimePs := rfl
@[simp] theorem updDie_mem (s : State) (d : Nat) (f : Die → Die) : (s.updDie d f).mem = s.mem := rfl
@[simp] theorem updDie_side (s : State) (d : Nat) (f : Die → Die) : (s.updDie d f).side = s.side := rfl
@[simp] theorem updDie_redShadow (s : State) (d : Nat) (f : Die → Die) : (s.updDie d f).redShadow = s.redShadow := rfl
@[simp] theorem updDie_race (s : State) (d : Nat) (f : Die → Die) : (s.updDie d f).race = s.race := rfl
@[simp] theorem updDie_bad (s : State) (d : Nat) (f : Die → Die) : (s.updDie d f).bad = s.bad := rfl
@[simp] theorem updDie_badSide (s : State) (d : Nat) (f : Die → Die) : (s.updDie d f).badSide = s.badSide := rfl
@[simp] theorem updDie_retained (s : State) (d : Nat) (f : Die → Die) : (s.updDie d f).retained = s.retained := rfl
@[simp] theorem updDie_shadowLines (s : State) (d : Nat) (f : Die → Die) : (s.updDie d f).shadowLines = s.shadowLines := rfl
@[simp] theorem updDie_lineTimes (s : State) (d : Nat) (f : Die → Die) : (s.updDie d f).lineTimes = s.lineTimes := rfl
@[simp] theorem updDie_ctxs (s : State) (d : Nat) (f : Die → Die) : (s.updDie d f).ctxs = s.ctxs := rfl
@[simp] theorem updDie_cores (s : State) (d : Nat) (f : Die → Die) : (s.updDie d f).cores = s.cores := rfl
@[simp] theorem updDie_loose (s : State) (d : Nat) (f : Die → Die) : (s.updDie d f).loose = s.loose := rfl
@[simp] theorem updDie_clusters (s : State) (d : Nat) (f : Die → Die) : (s.updDie d f).clusters = s.clusters := rfl
@[simp] theorem updDie_geom (s : State) (d : Nat) (f : Die → Die) : (s.updDie d f).geom = s.geom := rfl
@[simp] theorem updDie_seqs (s : State) (d : Nat) (f : Die → Die) : (s.updDie d f).seqs = s.seqs := rfl
@[simp] theorem updDie_frames (s : State) (d : Nat) (f : Die → Die) : (s.updDie d f).frames = s.frames := rfl
@[simp] theorem updDie_free (s : State) (d : Nat) (f : Die → Die) : (s.updDie d f).free = s.free := rfl
@[simp] theorem updDie_cohorts (s : State) (d : Nat) (f : Die → Die) : (s.updDie d f).cohorts = s.cohorts := rfl
@[simp] theorem updDie_kvJobs (s : State) (d : Nat) (f : Die → Die) : (s.updDie d f).kvJobs = s.kvJobs := rfl
@[simp] theorem updDie_deliveries (s : State) (d : Nat) (f : Die → Die) : (s.updDie d f).deliveries = s.deliveries := rfl
@[simp] theorem updDie_followerOut (s : State) (d : Nat) (f : Die → Die) : (s.updDie d f).followerOut = s.followerOut := rfl
@[simp] theorem updDie_rings (s : State) (d : Nat) (f : Die → Die) : (s.updDie d f).rings = s.rings := rfl
@[simp] theorem updDie_nodes (s : State) (d : Nat) (f : Die → Die) : (s.updDie d f).nodes = s.nodes := rfl
@[simp] theorem updDie_sets (s : State) (d : Nat) (f : Die → Die) : (s.updDie d f).sets = s.sets := rfl
@[simp] theorem updDie_saved (s : State) (d : Nat) (f : Die → Die) : (s.updDie d f).saved = s.saved := rfl
@[simp] theorem updDie_nextId (s : State) (d : Nat) (f : Die → Die) : (s.updDie d f).nextId = s.nextId := rfl
@[simp] theorem updDie_raceLogged (s : State) (d : Nat) (f : Die → Die) : (s.updDie d f).raceLogged = s.raceLogged := rfl
@[simp] theorem updDie_corrected (s : State) (d : Nat) (f : Die → Die) : (s.updDie d f).corrected = s.corrected := rfl
@[simp] theorem updDie_rowErrors (s : State) (d : Nat) (f : Die → Die) : (s.updDie d f).rowErrors = s.rowErrors := rfl
@[simp] theorem updDie_repaired (s : State) (d : Nat) (f : Die → Die) : (s.updDie d f).repaired = s.repaired := rfl
@[simp] theorem updDie_spareChannels (s : State) (d : Nat) (f : Die → Die) : (s.updDie d f).spareChannels = s.spareChannels := rfl
@[simp] theorem updDie_mgmtSpace (s : State) (d : Nat) (f : Die → Die) : (s.updDie d f).mgmtSpace = s.mgmtSpace := rfl
@[simp] theorem updDie_areas (s : State) (d : Nat) (f : Die → Die) : (s.updDie d f).areas = s.areas := rfl
@[simp] theorem updDie_qps (s : State) (d : Nat) (f : Die → Die) : (s.updDie d f).qps = s.qps := rfl
@[simp] theorem updDie_hostWrites (s : State) (d : Nat) (f : Die → Die) : (s.updDie d f).hostWrites = s.hostWrites := rfl
@[simp] theorem updDie_hostOut (s : State) (d : Nat) (f : Die → Die) : (s.updDie d f).hostOut = s.hostOut := rfl
@[simp] theorem updDie_watchHits (s : State) (d : Nat) (f : Die → Die) : (s.updDie d f).watchHits = s.watchHits := rfl
@[simp] theorem updDie_resets (s : State) (d : Nat) (f : Die → Die) : (s.updDie d f).resets = s.resets := rfl
@[simp] theorem updDie_shutter (s : State) (d : Nat) (f : Die → Die) : (s.updDie d f).shutter = s.shutter := rfl
@[simp] theorem updDie_dens (s : State) (d : Nat) (f : Die → Die) : (s.updDie d f).dens = s.dens := rfl
@[simp] theorem updDie_thresholds (s : State) (d : Nat) (f : Die → Die) : (s.updDie d f).thresholds = s.thresholds := rfl
@[simp] theorem updDie_powerLimit (s : State) (d : Nat) (f : Die → Die) : (s.updDie d f).powerLimit = s.powerLimit := rfl
@[simp] theorem updDie_scrubRate (s : State) (d : Nat) (f : Die → Die) : (s.updDie d f).scrubRate = s.scrubRate := rfl
@[simp] theorem updDie_scrubs (s : State) (d : Nat) (f : Die → Die) : (s.updDie d f).scrubs = s.scrubs := rfl
@[simp] theorem updDie_scrubAt (s : State) (d : Nat) (f : Die → Die) : (s.updDie d f).scrubAt = s.scrubAt := rfl
@[simp] theorem updDie_bootStage (s : State) (d : Nat) (f : Die → Die) : (s.updDie d f).bootStage = s.bootStage := rfl
@[simp] theorem updDie_bootFail (s : State) (d : Nat) (f : Die → Die) : (s.updDie d f).bootFail = s.bootFail := rfl
@[simp] theorem updDie_reports (s : State) (d : Nat) (f : Die → Die) : (s.updDie d f).reports = s.reports := rfl
@[simp] theorem updDie_freeIdx (s : State) (d : Nat) (f : Die → Die) : (s.updDie d f).freeIdx = s.freeIdx := rfl
@[simp] theorem updDie_issue (s : State) (d : Nat) (f : Die → Die) : (s.updDie d f).issue = s.issue := rfl
@[simp] theorem updDie_agenda (s : State) (d : Nat) (f : Die → Die) : (s.updDie d f).agenda = s.agenda := rfl
@[simp] theorem updDie_issuing (s : State) (d : Nat) (f : Die → Die) : (s.updDie d f).issuing = s.issuing := rfl
@[simp] theorem updDie_issued (s : State) (d : Nat) (f : Die → Die) : (s.updDie d f).issued = s.issued := rfl

/-- A unit reads back what an update of it gives. -/
theorem die_updDie_self (s : State) (d : Nat) (f : Die → Die) (h : Map.wf {} s.dies = true) :
    (s.updDie d f).die d = f (s.die d) := Map.get_upd_self h d f

/-- An update leaves every other unit as it was. -/
theorem die_updDie_of_ne (s : State) (d i : Nat) (f : Die → Die) (h : Map.wf {} s.dies = true) (hi : i ≠ d) :
    (s.updDie d f).die i = s.die i := Map.get_upd_of_ne h f hi

theorem wf_updDie (s : State) (d : Nat) (f : Die → Die) (h : Map.wf {} s.dies = true) :
    Map.wf {} (s.updDie d f).dies = true := Map.wf_upd h d f

@[simp] theorem ctx_updDie (s : State) (d : Nat) (f : Die → Die) (i : Nat) : (s.updDie d f).ctx i = s.ctx i := rfl
@[simp] theorem core_updDie (s : State) (d : Nat) (f : Die → Die) (i : Nat) : (s.updDie d f).core i = s.core i := rfl
@[simp] theorem cluster_updDie (s : State) (d : Nat) (f : Die → Die) (i : Nat) : (s.updDie d f).cluster i = s.cluster i := rfl

end Sys2Proof.Machine.State
end

