-- ==== Sys2Proof/Laws/Mem.lean ====
section
/-! SUPPORT. Memory: every operation that changes it keeps the canonical form, and what a byte reads as after a write. -/

namespace Sys2Proof.Machine

/-- The canonical form of a state's memory. -/
abbrev MemOk (s : State) : Prop := Map.wf Config.resetByte s.mem = true

theorem wf_putBytes {m : Map Byte} (h : Map.wf Config.resetByte m = true) (pa : Nat) (bs : List Byte) :
    Map.wf Config.resetByte (putBytes m pa bs) = true := by
  induction bs generalizing m pa with
  | nil => exact h
  | cons b bs ih => exact ih (Map.wf_set h pa b) (pa + 1)

/-- A byte outside the written range is unchanged. -/
theorem get_putBytes_outside {m : Map Byte} (h : Map.wf Config.resetByte m = true) (pa : Nat) (bs : List Byte) {a : Nat}
    (ha : a < pa ∨ pa + bs.length ≤ a) :
    Map.get Config.resetByte (putBytes m pa bs) a = Map.get Config.resetByte m a := by
  induction bs generalizing m pa with
  | nil => rfl
  | cons b bs ih =>
    simp only [List.length_cons] at ha
    rw [putBytes, ih (Map.wf_set h pa b) (pa + 1) (by omega), Map.get_set_of_ne h b (by omega)]

/-- A byte inside the written range is the one written there. -/
theorem get_putBytes_inside {m : Map Byte} (h : Map.wf Config.resetByte m = true) (pa : Nat) (bs : List Byte) {i : Nat}
    (hi : i < bs.length) :
    Map.get Config.resetByte (putBytes m pa bs) (pa + i) = bs[i] := by
  induction bs generalizing m pa i with
  | nil => simp at hi
  | cons b bs ih =>
    cases i with
    | zero =>
      rw [putBytes, get_putBytes_outside (Map.wf_set h pa b) (pa + 1) bs (by omega)]
      exact Map.get_set_self h pa b
    | succ i =>
      have := ih (Map.wf_set h pa b) (pa + 1) (i := i) (by simpa using hi)
      rw [putBytes, show pa + (i + 1) = pa + 1 + i by omega, this]
      rfl

/-- Reading back what was written, whole. -/
theorem rawBytes_putBytes {m : Map Byte} (h : Map.wf Config.resetByte m = true) (pa : Nat) (bs : List Byte) :
    rawBytes (putBytes m pa bs) pa bs.length = bs := by
  apply List.ext_getElem
  · simp [rawBytes]
  · intro i h1 h2
    simp only [rawBytes, List.getElem_map, List.getElem_range]
    exact get_putBytes_inside h pa bs h2

theorem leNat_lt (bs : List Byte) : leNat bs < 256 ^ bs.length := by
  induction bs with
  | nil => simp [leNat]
  | cons b bs ih =>
    have := b.isLt
    simp only [leNat, List.length_cons, Nat.pow_succ]
    omega

@[simp] theorem leBytes_length (n x : Nat) : (leBytes n x).length = n := by
  induction n generalizing x with
  | zero => rfl
  | succ n ih => simp [leBytes, ih]

/-- Bytes of a number, read as a number. -/
theorem leNat_leBytes (n x : Nat) : leNat (leBytes n x) = x % 256 ^ n := by
  induction n generalizing x with
  | zero => simp [leBytes, leNat, Nat.mod_one]
  | succ n ih =>
    have h : x % 256 ^ (n + 1) = x % 256 + 256 * (x / 256 % 256 ^ n) := by rw [Nat.pow_succ', Nat.mod_mul]
    rw [leBytes, leNat, ih, BitVec.toNat_ofNat, h]

theorem watchCheck_mem (s : State) (w : Writer) (pa n : Nat) : (s.watchCheck w pa n).mem = s.mem := by
  have : ∀ (l : Map Core) (t : State), (l.foldl (fun s (k, x) =>
      if x.watch.isEmpty then s else
      let (x', hits) := watchCore w pa n k x
      if hits.isEmpty then s else { s.updCore k (fun _ => x') with watchHits := s.watchHits ++ hits }) t).mem = t.mem := by
    intro l
    induction l with
    | nil => intro t; rfl
    | cons p l ih =>
      intro t
      obtain ⟨k, x⟩ := p
      rw [List.foldl_cons, ih]
      dsimp only
      split
      · rfl
      · split <;> rfl
  exact this s.cores s

theorem settle_memOk {s : State} (h : MemOk s) (pa n : Nat) : MemOk (s.settle pa n) := by
  have : ∀ (l : Map (Nat × Nat)) (m : Map Byte), Map.wf Config.resetByte m = true →
      Map.wf Config.resetByte (l.foldl (fun m (k, ty, bits) =>
        let w := (shadowFmt ty).width / 8
        if overlaps k w pa n then putBytes m k (leBytes w (roundShadow (shadowFmt ty) bits)) else m) m) = true := by
    intro l
    induction l with
    | nil => intro m hm; exact hm
    | cons p l ih =>
      intro m hm
      rw [List.foldl_cons]
      apply ih
      dsimp only
      split
      · exact wf_putBytes hm _ _
      · exact hm
  exact this s.redShadow s.mem h

theorem dropShadows_memOk {s : State} (h : MemOk s) (pa n : Nat) : MemOk (s.dropShadows pa n) := h
theorem flushShadows_memOk {s : State} (h : MemOk s) (pa n : Nat) : MemOk (s.flushShadows pa n) := settle_memOk h pa n

theorem readBytes_memOk {s : State} (h : MemOk s) (pa n : Nat) : MemOk (s.readBytes pa n).2 := by
  unfold State.readBytes
  dsimp only
  split
  · exact h
  · exact settle_memOk h pa n

/-- Every write of memory keeps the canonical form. -/
theorem write_memOk {s : State} (h : MemOk s) (w : Writer) (cnt : Bool) (pa : Nat) (bs : List Byte) :
    MemOk (s.write w cnt pa bs) := by
  unfold State.write
  dsimp only
  split
  · exact h
  · unfold MemOk
    rw [watchCheck_mem]
    apply wf_putBytes
    split <;> exact h

theorem mgmtRead_memOk (n : Nat) {s : State} (h : MemOk s) (off : Nat) : MemOk (mgmtRead n off s).2 := by
  induction n generalizing s off with
  | zero => exact h
  | succ n ih =>
    unfold mgmtRead
    apply ih
    unfold mgmtWord
    split <;> exact h

/-- A read of any address keeps the canonical form. -/
theorem readAt_memOk {s : State} (h : MemOk s) (pa n : Nat) : MemOk (s.readAt pa n).2 := by
  unfold State.readAt
  split
  · exact mgmtRead_memOk _ h _
  · exact readBytes_memOk h pa n

/-- A write of any address keeps it: one of the management space changes no memory. -/
theorem storeAt_memOk {s : State} (h : MemOk s) (w : Writer) (cnt : Bool) (pa : Nat) (bs : List Byte) :
    MemOk (s.storeAt w cnt pa bs) := by
  unfold State.storeAt
  split
  · split
    · exact h
    · exact mgmtRead_memOk ((_ + bs.length - 1) / 8 - _ / 8 + 1) h (_ / 8 * 8)
  · exact write_memOk h w cnt pa bs

/-- So does rounding out the shadows of a range, where there are any. -/
theorem unshadowed_memOk {s : State} (h : MemOk s) (pa n : Nat) : MemOk (if s.redShadow.isEmpty then s else s.flushShadows pa n) := by
  split
  · exact h
  · exact flushShadows_memOk h pa n

/-- An add to a counter keeps it. -/
theorem counterAdd_memOk {s t : State} (h : MemOk s) (w : Writer) (pa n : Nat) (err : Option (BitVec 8))
    (rel : Option (BitVec 16 × BitVec 16)) (ht : s.counterAdd w pa n err rel = .ok t) : MemOk t := by
  have hs := unshadowed_memOk h pa 8
  unfold State.counterAdd at ht
  split at ht
  · cases ht
  · dsimp only at ht
    generalize (if s.redShadow.isEmpty = true then s else s.flushShadows pa 8) = u at ht hs
    by_cases hv : 2 ^ 64 ≤ u.peek pa 8 + n
    · rw [if_pos hv] at ht; cases ht
    · rw [if_neg hv] at ht
      cases ht
      unfold MemOk
      rw [watchCheck_mem]
      exact wf_putBytes hs _ _

/-- So does the atomic OR of accessed or dirty. -/
theorem orEntry_memOk {s : State} (h : MemOk s) (pa bits : Nat) : MemOk (orEntry s pa bits) :=
  wf_putBytes (unshadowed_memOk h pa 8) _ _

theorem readSpans_memOk {s : State} (h : MemOk s) (ps : List Span) : MemOk (readSpans s ps).2 := by
  induction ps generalizing s with
  | nil => exact h
  | cons p ps ih => exact ih (readAt_memOk h p.pa p.len)

theorem writeSpans_memOk {s : State} (h : MemOk s) (w : Writer) (ps : List Span) (bs : List Byte) :
    MemOk (writeSpans s w ps bs) := by
  induction ps generalizing s bs with
  | nil => exact h
  | cons p ps ih => exact ih (storeAt_memOk h w p.cnt p.pa _) _

theorem markDirty_memOk {s : State} (h : MemOk s) (v : View) (e : TlbEntry) : MemOk (markDirty s v e) := by
  unfold markDirty
  split
  · exact h
  · dsimp only
    split <;> exact orEntry_memOk h e.pteAddr 0x80

theorem installWalk_mem (s : State) (v : View) (e : TlbEntry) (seen : List (Nat × Word)) :
    (installWalk s v e seen).mem = s.mem := by
  unfold installWalk
  dsimp only
  split <;> rfl

theorem walkInstall_memOk {s t : State} {e : TlbEntry} (h : MemOk s) (v : View) (va : Nat)
    (ht : walkInstall s v va = some (e, t)) : MemOk t := by
  unfold walkInstall at ht
  cases hw : walk s v va with
  | none => rw [hw] at ht; cases ht
  | some r =>
    rw [hw] at ht
    simp only [Option.map_some, Option.some.injEq, Prod.mk.injEq] at ht
    obtain ⟨-, rfl⟩ := ht
    unfold MemOk
    rw [installWalk_mem]
    split
    · exact h
    · exact orEntry_memOk h _ _

theorem translatePage_memOk {s t : State} {pa : Nat} {c : Bool} (h : MemOk s) (v : View) (va : Nat) (acc : Acc)
    (ht : translatePage s v va acc = .ok (pa, c, t)) : MemOk t := by
  have fin : ∀ (e : TlbEntry) (s : State), MemOk s → MemOk (if acc.writes then markDirty s v e else s) := by
    intro e s hs
    split
    · exact markDirty_memOk hs v e
    · exact hs
  have fresh : ∀ r, (match walkInstall s v va with
      | none => Except.error 0x04
      | some (e, s') => match leafCheck s' v e va acc with
        | some c => Except.error c
        | none => Except.ok (pteAddr e.pte + va % 2 ^ pageShift e.level, pteCnt e.pte,
            if acc.writes then markDirty s' v e else s')) = Except.ok (ε := BitVec 8) r → MemOk r.2.2 := by
    intro r hr
    cases hw : walkInstall s v va with
    | none => rw [hw] at hr; cases hr
    | some q =>
      obtain ⟨e, s'⟩ := q
      rw [hw] at hr
      dsimp only at hr
      split at hr
      · cases hr
      · cases hr
        exact fin e s' (walkInstall_memOk h v va hw)
  unfold translatePage at ht
  dsimp only at ht
  split at ht
  · split at ht
    · cases ht
      exact fin _ _ h
    · exact fresh _ ht
  · exact fresh _ ht

/-- Translation keeps the canonical form. -/
theorem translate_memOk {s t : State} {pa : Nat} {c : Bool} (h : MemOk s) (v : View) (va : Nat) (acc : Acc)
    (ht : translate s v va acc = .ok (pa, c, t)) : MemOk t := by
  unfold translate at ht
  split at ht
  · cases ht
  · split at ht
    · split at ht
      · dsimp only at ht
        cases acc <;> dsimp only at ht
        case counterRead | counterAdd | fetch => exact absurd ht nofun
        all_goals
          split at ht
          · exact absurd ht nofun
          · rw [Except.ok.injEq, Prod.mk.injEq, Prod.mk.injEq] at ht
            exact ht.2.2 ▸ h
      · exact translatePage_memOk h v va acc ht
    · split at ht
      · cases ht
      · exact translatePage_memOk h v va acc ht

theorem translateSpans_memOk (v : View) (acc : Acc) (n : Nat) {s t : State} {va len : Nat} {ps : List Span} (h : MemOk s)
    (ht : translateSpans v acc n s va len = .ok (ps, t)) : MemOk t := by
  induction n generalizing s t va len ps with
  | zero => cases ht; exact h
  | succ n ih =>
    unfold translateSpans at ht
    split at ht
    · cases ht; exact h
    · split at ht
      · exact absurd ht nofun
      · next hw =>
        dsimp only at ht
        split at ht
        · exact absurd ht nofun
        · next hr =>
          rw [Except.ok.injEq, Prod.mk.injEq] at ht
          have := ih (translate_memOk h v _ acc hw) hr
          rwa [ht.2] at this

theorem translateRange_memOk {s t : State} {va len : Nat} {ps : List Span} (h : MemOk s) (v : View) (acc : Acc)
    (ht : translateRange s v va len acc = .ok (ps, t)) : MemOk t := by
  unfold translateRange at ht
  split at ht
  · exact absurd ht nofun
  · exact translateSpans_memOk v acc _ h ht

/-- A read of a package block, an engine or a port keeps the canonical form. -/
theorem readVia_memOk {s t : State} {va len : Nat} {bs : List Byte} (h : MemOk s) (v : View)
    (ht : readVia s v va len = .ok (bs, t)) : MemOk t := by
  unfold readVia at ht
  split at ht
  · exact absurd ht nofun
  · next ps u hr =>
    split at ht
    · exact absurd ht nofun
    · have := readSpans_memOk (translateRange_memOk h v .read hr) ps
      rw [Except.ok.injEq] at ht
      rw [ht] at this
      exact this

/-- So does a write. -/
theorem writeVia_memOk {s t : State} {va : Nat} {bs : List Byte} (h : MemOk s) (v : View) (w : Writer)
    (ht : writeVia s v w va bs = .ok t) : MemOk t := by
  unfold writeVia at ht
  split at ht
  · exact absurd ht nofun
  · next ps u hr =>
    rw [Except.ok.injEq] at ht
    exact ht ▸ writeSpans_memOk (translateRange_memOk h v .write hr) w ps bs

theorem reset_memOk : MemOk State.reset := rfl

end Sys2Proof.Machine
end

