-- ==== Sys2Proof/Laws/Ops.lean ====
section
/-! SUPPORT. What each shared operation of a slot's meaning can do, said once: how parts of a meaning run one after another, and
how a meaning that runs, traps or waits ends its slot. -/

namespace Sys2Proof.Laws

open Sys2Proof Machine

/-! ### Parts of a meaning, one after another -/

theorem gives_run {α : Type} {m : M α} {s t : State} {v : α} (h : Gives m s v t) : m.run s = .ok (v, t) := h

theorem gives_bind {α β : Type} {m : M α} {f : α → M β} {s t u : State} {v : α} {w : β} (h : Gives m s v t)
    (k : Gives (f v) t w u) : Gives (m >>= f) s w u := by
  unfold Gives at *
  rw [StateT.run_bind, h]
  exact k

theorem traps_bind_left {α β : Type} {m : M α} {f : α → M β} {s : State} {c : BitVec 8} {t : Word} (h : Traps m s c t) :
    Traps (m >>= f) s c t := by
  unfold Traps at *
  rw [StateT.run_bind, h]
  rfl

theorem traps_bind_right {α β : Type} {m : M α} {f : α → M β} {s u : State} {v : α} {c : BitVec 8} {t : Word}
    (h : Gives m s v u) (k : Traps (f v) u c t) : Traps (m >>= f) s c t := by
  unfold Gives Traps at *
  rw [StateT.run_bind, h]
  exact k

theorem run_bind_of {α β : Type} {m : M α} {f : α → M β} {s t : State} {v : α} (h : Gives m s v t) :
    (m >>= f).run s = (f v).run t := by
  unfold Gives at h
  rw [StateT.run_bind, h]
  rfl

theorem gives_pure {α : Type} (v : α) (s : State) : Gives (pure v) s v s := rfl
theorem gives_get (s : State) : Gives (get : M State) s s s := rfl
theorem gives_set (t s : State) : Gives (set t : M Unit) s () t := rfl
theorem gives_modify (f : State → State) (s : State) : Gives (modify f : M Unit) s () (f s) := rfl
theorem gives_curCtx (s : State) : Gives curCtx s (issuer s) s := rfl
theorem gives_modCtx (f : Ctx → Ctx) (s : State) : Gives (modCtx f) s () (s.updCtx s.issue.ctx f) := rfl
theorem gives_landAt (file idx : Nat) (v : VecReg) (lat : Nat) (s : State) :
    Gives (landAt file idx v lat) s () (landed s file idx v lat) := rfl
theorem gives_act (a : EndAct) (s : State) : Gives (act a) s () (scheduled s a) := rfl
theorem gives_pendResult (d : List (Nat × Nat)) (v : Option (List VecReg × Option (BitVec 8 × Word))) (s : State) :
    Gives (pendResult d v) s () (awaiting s d v) := rfl
theorem gives_need {b : Bool} (h : b = true) (c : BitVec 8) (t : Word) (s : State) : Gives (need b c t) s () s := by
  subst h; rfl
theorem gives_needLegal {b : Bool} (h : b = true) (s : State) : Gives (needLegal b) s () s := by subst h; rfl
theorem gives_needWord {b : Bool} (h : b = true) (s : State) : Gives (needWord b) s () s := by subst h; rfl
theorem traps_need {b : Bool} (h : b = false) (c : BitVec 8) (t : Word) (s : State) : Traps (need b c t) s c t := by
  subst h; rfl
theorem traps_needLegal {b : Bool} (h : b = false) (s : State) :
    Traps (needLegal b) s 0x01 (BitVec.ofNat 64 s.issue.word) := by subst h; rfl

/-- Reading a register gives its value, unless it holds an error (R103, R104). -/
theorem reads_reg {s : State} {file idx : Nat} (h : (issuer s).regError file idx = none) :
    Reads (readReg file idx) s ((issuer s).reg file idx) := by
  unfold Reads Gives
  rw [readReg, run_bind_of (gives_curCtx s), h]
  rfl
theorem traps_reg {s : State} {file idx : Nat} {c : BitVec 8} {t : Word} (h : (issuer s).regError file idx = some (c, t)) :
    Traps (readReg file idx) s c t := by
  unfold Traps
  rw [readReg, run_bind_of (gives_curCtx s), h]
  rfl
theorem reads_scalar {s : State} {file idx : Nat} (h : (issuer s).regError file idx = none) :
    Reads (readScalar file idx) s ((issuer s).scalar file idx) := by
  unfold readScalar
  exact gives_bind (reads_reg h) (gives_pure _ _)

/-! ### Flags and draws -/

/-- Flags none of which is enabled are merged (R41). -/
theorem gives_mergeFlags {s : State} {fl : Nat} (h : Nat.land fl (issuer s).enables = 0) :
    Gives (mergeFlags fl) s () (flagged s fl) := by
  unfold Gives mergeFlags flagged
  rw [run_bind_of (gives_curCtx s), h]
  by_cases k : fl = 0
  · simp only [k, if_true]; rfl
  · simp only [k, if_false]; rfl

theorem gives_draw (n : Nat) (s : State) :
    Gives (draw n) s (streamWord (issuer s).rkey.toNat (issuer s).rctr.toNat) (drawn s n) := rfl

/-! ### The end of a slot's part -/

theorem runSlot_ok {m : M Unit} {s t : State} (h : Gives m s () t) : runSlot m s = .next t := by
  unfold Gives at h
  unfold runSlot
  rw [h]

theorem runSlot_trap {m : M Unit} {s : State} {c : BitVec 8} {t : Word} (h : Traps m s c t) :
    runSlot m s = .next (stopped s (.trap false c t)) := by
  unfold Traps at h
  unfold runSlot
  rw [h]

theorem runSlot_held {m : M Unit} {s t : State} (h : m.run s = .error (.held t)) : runSlot m s = .next (stopped s (.held t)) := by
  unfold runSlot
  rw [h]

/-- Every meaning of a slot instruction ends in a next state. -/
theorem runSlot_next (m : M Unit) (s : State) : ∃ t, runSlot m s = .next t := by
  unfold runSlot
  split
  · exact ⟨_, rfl⟩
  · exact ⟨_, rfl⟩

end Sys2Proof.Laws
end

