-- ==== Sys2Proof/Tests/Slice0.lean ====
section
/-! SUPPORT. Witnesses, decoding tests, ill-formed terms and values. A theorem `met_<Statement>_<clause>` applies a statement to a
concrete state and operands that meet all its hypotheses together. The words of the decoding tests and the values of the last
section are the spec's own. -/

set_option exponentiation.threshold 5000
set_option maxRecDepth 8000
set_option Elab.async false

namespace Sys2Proof.Tests

open Sys2Proof Sys2Proof.Machine

/-- A package whose only live context is number 0, with the given registers. -/
def only (x : Ctx) : State := { State.reset with ctxs := [(0, x)] }

/-- A ready context with a few registers in each file. -/
def regs : Ctx :=
  { run := .ready
    tid := 1
    a := [(1, 7), (2, 2), (3, 0xF30)]
    b := [(1, 9)]
    p := [(2, 0x01FFFFFFFFF00000), (3, 0x1000), (6, 8), (7, 0x40000000), (8, 0x10000), (9, 0x2000), (10, 0x20)]
    k := [(4, 64), (5, 3)]
    v := [(1, 0x3F8000003F800000), (2, 0x4000000040000000), (3, 0x7F7F7F7F)]
    w := [(1, 5)]
    x := [(1, 3), (2, 5)] }

/-- The same with the header of the bundle given: a literal, a broadcast value, and the kind of bundle. -/
def withIssue (i : Issue) (s : State) : State := { s with issue := i }

/-- A head that holds a vector. -/
def holding : Head := { cond := .holding, latch := 0x00070005 }

/-- Leaves of four 512 MiB pages that the die of context 0 has cached, all accessed and dirty: addresses from 0 on are ordinary
memory, from 0x20000000 on counters, from 0x40000000 on memory of
die 1, and from 0x60000000 on host memory. -/
def leaves : List TlbEntry :=
  [{ asid := 0, base := 0, level := 2, pte := 0xDF, pteAddr := 0x100000 },
    { asid := 0, base := 0x20000000, level := 2, pte := 0x200000EF, pteAddr := 0x100008 },
    { asid := 0, base := 0x40000000, level := 2, pte := 0x2002DF, pteAddr := 0x100010 },
    { asid := 0, base := 0x60000000, level := 2, pte := 0x1DF, pteAddr := 0x100018 }]

/-- A package whose context 0 has these leaves cached, with bytes of memory. -/
def mapped (x : Ctx) (mem : Map Byte) : State := { only x with dies := [(0, { tlb := leaves })], mem := mem }

/-! ### Witnesses: each statement applied to concrete operands in a concrete state that meets its hypotheses -/

def sBin : SBin := { slot := .s0, h1 := false, h2 := false, w := false, u := false, dst := 3, a := .reg 1, b := .reg 2 }
def sUn : SUn := { slot := .s0, h1 := false, w := false, u := false, dst := 5, a := .reg 3 }
def badA : Ctx := { regs with badRegs := [(0, 63)] }
def headed : Ctx := { regs with heads := [(7, holding)] }

theorem met_ScalarOperands_reg (h : Obligations.ScalarOperands) : Reads (readS .s0 (.reg 1)) (only regs) 7 :=
  (h .s0 (only regs)).1 1 rfl
theorem met_ScalarOperands_error (h : Obligations.ScalarOperands) :
    Traps (readS .s0 (.reg 63)) (only badA) 0x08 63 := (h .s0 (only badA)).2.1 63 0x08 63 rfl
theorem met_ScalarOperands_head (h : Obligations.ScalarOperands) :
    Reads (readS .s1 (.head 7)) (only headed) 0x00070005 := (h .s1 (only headed)).2.2.1 7 0x00070005 rfl
theorem met_ScalarOperands_header (h : Obligations.ScalarOperands) :
    Reads (readS .s0 .immZ) (withIssue { imm := 0xFFFFFFFF } (only regs)) 0xFFFFFFFF :=
  ((h .s0 (withIssue { imm := 0xFFFFFFFF } (only regs))).2.2.2.2 (by decide)).2.1

theorem met_ScalarArithmetic (h : Obligations.ScalarArithmetic) :
    exec (.add sBin) (only regs) = .next (landed64 (only regs) 0 3 9 1) := (h.1 sBin (only regs) 7 2 rfl rfl).1
theorem met_ScalarArithmetic_mulh (h : Obligations.ScalarArithmetic) :
    exec (.mulh sBin) (only regs) = .next (landed64 (only regs) 0 3 0 3) := h.2.1 sBin (only regs) 7 2 rfl rfl
theorem met_ScalarArithmetic_shl (h : Obligations.ScalarArithmetic) :
    exec (.shl sBin) (only regs) = .next (landed64 (only regs) 0 3 28 1) := (h.2.2 sBin (only regs) 7 2 rfl rfl).1

def byZero : SBin := { sBin with b := .reg 9 }
def lowest : Ctx := { regs with a := [(1, 0x8000000000000000), (2, 0xFFFFFFFFFFFFFFFF)] }
theorem met_DivideAndRemainder (h : Obligations.DivideAndRemainder) :
    ∃ q : Int, ∃ w, exec (.div sBin) (only regs) = .next w ∧ q.natAbs = 3 := by
  obtain ⟨q, r, hd, _, _, _, hq, _⟩ := (h sBin (only regs) 7 2 rfl rfl).1 (by decide)
  exact ⟨q, _, hd, hq⟩
theorem met_DivideAndRemainder_zero (h : Obligations.DivideAndRemainder) :
    exec (.rem byZero) (only regs) = .next (landed64 (only regs) 0 3 7 18) :=
  ((h byZero (only regs) 7 0 rfl rfl).2.1 (by decide)).2
theorem met_DivideAndRemainder_lowest (h : Obligations.DivideAndRemainder) :
    exec (.rem sBin) (only lowest) = .next (landed64 (only lowest) 0 3 0 18) :=
  ((h sBin (only lowest) 0x8000000000000000 0xFFFFFFFFFFFFFFFF rfl rfl).2.2 rfl (by decide) (by decide)).2

theorem met_ScalarCompare (h : Obligations.ScalarCompare) :
    exec (.cmp .gt sBin) (only regs) = .next (landed (only regs) fG 3 1 1) := (h sBin (only regs) 7 2 rfl rfl).2.2.1 .gt

theorem met_ScalarBits (h : Obligations.ScalarBits) : ∃ t, exec (.clz sUn) (only regs) = .next t :=
  ⟨_, (h.1 sUn (only regs) 0xF30 rfl).1⟩
theorem met_ScalarBits_bfx (h : Obligations.ScalarBits) :
    exec (.bfx 4 7 sUn) (only regs) = .next (landed64 (only regs) 0 5 0xFFFFFFFFFFFFFFF3 1) :=
  ((h.1 sUn (only regs) 0xF30 rfl).2.2.2 4 7 rfl).1
theorem met_ScalarBits_bfi (h : Obligations.ScalarBits) : ∃ t, exec (.bfi 0 63 sUn) (only regs) = .next t :=
  ⟨_, ((h.1 sUn (only regs) 0xF30 rfl).2.2.2 0 63 rfl).2 0 rfl⟩
theorem met_ScalarBits_copies (h : Obligations.ScalarBits) :
    exec (.mov sUn) (only regs) = .next (landed64 (only regs) 0 5 0xF30 1) := (h.2.1 sUn (only regs) 0xF30 rfl).2.1

theorem met_ScalarRounded (h : Obligations.ScalarRounded) : ∃ t, exec (.fadd .fp32 sBin) (only regs) = .next t :=
  ⟨_, (h.1 .fp32 sBin (only regs) 7 2 rfl rfl).1 (by decide)⟩
theorem met_ScalarRounded_fma (h : Obligations.ScalarRounded) : ∃ t, exec (.fma .bf16 sBin) (only regs) = .next t :=
  ⟨_, (h.1 .bf16 sBin (only regs) 7 2 rfl rfl).2.2.2 0xF30 rfl (by decide)⟩
theorem met_ScalarRounded_rcp (h : Obligations.ScalarRounded) : ∃ t, exec (.frcp .fp32 sUn) (only regs) = .next t :=
  ⟨_, (h.2 .fp32 sUn (only regs) 0xF30 rfl).1 (by decide)⟩

def nanned : Ctx := { regs with a := [(1, 0x7F800001), (2, 2)], mode := 0x3F0 }
theorem met_ScalarFpOthers (h : Obligations.ScalarFpOthers) : ∃ t, exec (.fmin .fp32 sBin) (only regs) = .next t :=
  ⟨_, (h.1.1 .fp32 sBin (only regs) 7 2 rfl rfl).1 (by decide)⟩
theorem met_ScalarFpOthers_cmp (h : Obligations.ScalarFpOthers) : ∃ t, exec (.fcmp .fp32 .lt sBin) (only regs) = .next t :=
  ⟨_, (h.1.1 .fp32 sBin (only regs) 7 2 rfl rfl).2.2 .lt (by decide)⟩
theorem met_ScalarFpOthers_cvt (h : Obligations.ScalarFpOthers) : ∃ t, exec (.fcvt .u64 .fp32 sUn) (only regs) = .next t :=
  ⟨_, h.1.2 .u64 .fp32 sUn (only regs) 0xF30 rfl (by decide)⟩
theorem met_ScalarFpOthers_trap (h : Obligations.ScalarFpOthers) : ∃ t, exec (.fmin .fp32 sBin) (only nanned) = .next t := by
  obtain ⟨c, hc⟩ := (h.2 .fp32 sBin (only nanned) 0x7F800001 2 rfl rfl).2.1 (by decide)
  exact ⟨_, hc⟩

def vBin : VBin := { slot := .v0, ty := .fp32, mask := none, dst := 4, a := .reg 1, b := .reg 2, rnd := .ctx }
def vUn : VUn := { slot := .v0, ty := .fp32, mask := none, dst := 4, a := .reg 1, rnd := .ctx }
def vTer : VTer := { slot := .v0, ty := .fp32, mask := none, dst := 4, a := .reg 1, b := .reg 2, c := .reg 1, rnd := .ctx }
def one : VecReg := 0x3F8000003F800000
def two : VecReg := 0x4000000040000000
def all : Nat → Bool := fun _ => true
theorem whole (d : BitVec 10) (hd : d = 4) : VDest .v0 none d (only regs) all 0 := by
  subst hd; exact ⟨rfl, rfl, fun h => by cases h⟩
theorem masked : VDest .v0 (some 1) 4 (only regs) (fun l => (3 : MaskReg).getLsbD l) 0 := ⟨rfl, rfl, fun _ => rfl⟩

theorem met_VectorOperands_reg (h : Obligations.VectorOperands) : Reads (readV .v0 .fp32 (.reg 1)) (only regs) one :=
  (h .v0 .fp32 (only regs)).1 1 (by decide) rfl
theorem met_VectorOperands_limit (h : Obligations.VectorOperands) :
    (readV .v0 .fp32 (.reg 256)).run (only regs) = .error (.trap true 0x01 0) :=
  (h .v0 .fp32 (only regs)).2.1 256 (by decide)
theorem met_VectorOperands_head (h : Obligations.VectorOperands) : Reads (readV .v1 .u8 (.head 7)) (only headed) 0x00070005 :=
  (h .v1 .u8 (only headed)).2.2.1 7 0x00070005 rfl
theorem met_VectorOperands_bc (h : Obligations.VectorOperands) :
    ∃ v : VecReg, Reads (readV .v0 .u32 .bc) (withIssue { bc := some 6 } (only regs)) v := by
  obtain ⟨v, hv, _⟩ := (h .v0 .u32 (withIssue { bc := some 6 } (only regs))).2.2.2.1 6 rfl
  exact ⟨v, hv⟩
theorem met_VectorOperands_noBc (h : Obligations.VectorOperands) :
    (readV .v0 .u32 .bc).run (only regs) = .error (.trap true 0x01 0) := (h .v0 .u32 (only regs)).2.2.2.2.1 rfl
theorem met_VectorOperands_imm (h : Obligations.VectorOperands) : ∃ v : VecReg, Reads (readV .v0 .i64 .imm) (only regs) v := by
  obtain ⟨v, hv, _⟩ := (h .v0 .i64 (only regs)).2.2.2.2.2.1 (by decide)
  exact ⟨v, hv⟩
theorem met_VectorOperands_mask (h : Obligations.VectorOperands) :
    Reads (readActive .v0 (some 1)) (only regs) (fun l => (3 : MaskReg).getLsbD l) :=
  (h .v0 .fp32 (only regs)).2.2.2.2.2.2.2 1 rfl

theorem met_VectorRounded (h : Obligations.VectorRounded) : ∃ t, exec (.vadd vBin) (only regs) = .next t := by
  obtain ⟨v, hv, _⟩ := (h.1.1 vBin (only regs) one two 0 all rfl rfl rfl (whole 4 rfl)).1 (by decide +kernel)
  exact ⟨_, hv⟩
theorem met_VectorRounded_fma (h : Obligations.VectorRounded) : ∃ t, exec (.vfma vTer) (only regs) = .next t := by
  obtain ⟨v, hv, _⟩ := (h.1.2 vTer (only regs) one two one 0 all rfl rfl rfl rfl (whole 4 rfl)).1 (by decide +kernel)
  exact ⟨_, hv⟩
theorem met_VectorRounded_sqrt (h : Obligations.VectorRounded) : ∃ t, exec (.vsqrt vUn) (only regs) = .next t := by
  obtain ⟨v, hv, _⟩ := (h.2 vUn (only regs) one 0 all rfl rfl (whole 4 rfl)).2.2.1 (by decide +kernel)
  exact ⟨_, hv⟩

theorem met_VectorUnrounded (h : Obligations.VectorUnrounded) : ∃ t, exec (.vmin vBin) (only regs) = .next t := by
  obtain ⟨v, hv, _⟩ := (h.1 vBin (only regs) one two 0 all rfl rfl rfl (whole 4 rfl)).1 (by decide +kernel)
  exact ⟨_, hv⟩
theorem met_VectorUnrounded_abs (h : Obligations.VectorUnrounded) : ∃ t, exec (.vabs vUn) (only regs) = .next t := by
  obtain ⟨v, hv, _⟩ := ((h.2.2 vUn (only regs) one 0 all rfl (whole 4 rfl)).2 rfl).1
  exact ⟨_, hv⟩

def iBin : VBin := { vBin with ty := .i8 }
def iTer : VTer := { vTer with ty := .i8 }
theorem met_VectorInteger (h : Obligations.VectorInteger) : ∃ t, exec (.viadd .sat iBin) (only regs) = .next t := by
  obtain ⟨v, hv, _⟩ := ((h.1.1 iBin (only regs) one two 0 all rfl rfl rfl (whole 4 rfl)).1 .sat).1 (by decide +kernel)
  exact ⟨_, hv⟩
theorem met_VectorInteger_mad (h : Obligations.VectorInteger) : ∃ t, exec (.vimad .wrap iTer) (only regs) = .next t := by
  obtain ⟨v, hv, _⟩ := h.1.2 .wrap iTer (only regs) one two one 0 all rfl rfl rfl rfl (whole 4 rfl) (by decide +kernel)
  exact ⟨_, hv⟩
theorem met_VectorInteger_logic (h : Obligations.VectorInteger) : ∃ t, exec (.vand iBin) (only regs) = .next t := by
  obtain ⟨v, hv, _⟩ := (h.2 iBin (only regs) one two 0 all rfl rfl (whole 4 rfl)).1
  exact ⟨_, hv⟩

def sel : VBin := { vBin with mask := some 1 }
theorem met_VectorMasks_cmp (h : Obligations.VectorMasks) : ∃ t, exec (.vcmp .lt sel) (only regs) = .next t := by
  obtain ⟨m, hm, _⟩ := h.1.1 .lt sel (only regs) one two (fun l => (3 : MaskReg).getLsbD l) 0 rfl rfl rfl (fun _ => rfl)
    (by decide +kernel)
  exact ⟨_, hm⟩
theorem met_VectorMasks_sel (h : Obligations.VectorMasks) : ∃ t, exec (.vsel sel) (only regs) = .next t := by
  obtain ⟨v, hv, _⟩ := h.1.2.1 sel (only regs) one two (fun l => (3 : MaskReg).getLsbD l) rfl rfl rfl rfl
  exact ⟨_, hv⟩
theorem met_VectorMasks_and (h : Obligations.VectorMasks) : ∃ t, exec (.vmask (.and 1 2) .v0 0) (only regs) = .next t := by
  obtain ⟨m, hm, _⟩ := (h.1.2.2.1 .v0 0 1 2 (only regs) 3 5 rfl rfl).1
  exact ⟨_, hm⟩
theorem met_VectorMasks_first (h : Obligations.VectorMasks) : ∃ t, exec (.vmask (.first (.reg 1)) .v0 0) (only regs) = .next t := by
  obtain ⟨m, hm, _⟩ := (h.1.2.2.2 .v0 0 .u8 (.reg 1) one (only regs)).1 rfl
  exact ⟨_, hm⟩
theorem met_VectorMasks_nz (h : Obligations.VectorMasks) : ∃ t, exec (.vmask (.nz .u8 (.reg 1)) .v0 0) (only regs) = .next t := by
  obtain ⟨m, hm, _⟩ := ((h.1.2.2.2 .v0 0 .u8 (.reg 1) one (only regs)).2 rfl).1
  exact ⟨_, hm⟩
theorem met_VectorMasks_find (h : Obligations.VectorMasks) : ∃ t, exec (.vfind .gt vBin) (only regs) = .next t := by
  obtain ⟨n, _, _, _, v, hv, _⟩ := h.2 .gt vBin (only regs) one two all rfl rfl rfl rfl
  exact ⟨_, hv⟩

def sUnMask : VUn := { vUn with mask := some 1 }
def mNul : VNul := { slot := .v0, ty := .u32, mask := some 1, dst := 4 }
theorem met_VectorMoves_cnt (h : Obligations.VectorMoves) : ∃ t, exec (.vcnt mNul) (only regs) = .next t := by
  obtain ⟨v, hv, _⟩ := (h.1.1 mNul (only regs) (fun l => (3 : MaskReg).getLsbD l) rfl rfl).1
  exact ⟨_, hv⟩
theorem met_VectorMoves_slide (h : Obligations.VectorMoves) : ∃ t, exec (.vslide 63 vBin) (only regs) = .next t := by
  obtain ⟨v, hv, _⟩ := (h.1.2.1 vBin (only regs) one two 0 all rfl rfl (whole 4 rfl)).2 63 rfl
  exact ⟨_, hv⟩
theorem met_VectorMoves_comp (h : Obligations.VectorMoves) : ∃ t, exec (.vcomp sUnMask) (only regs) = .next t := by
  obtain ⟨v, hv, _⟩ := ((h.1.2.2 sUnMask (only regs) one 0 (fun l => (3 : MaskReg).getLsbD l) rfl masked).2.1 rfl).1
  exact ⟨_, hv⟩
theorem met_VectorMoves_ins (h : Obligations.VectorMoves) : ∃ t, exec (.vins 63 vUn) (only regs) = .next t := by
  obtain ⟨v, hv, _⟩ := (h.1.2.2 vUn (only regs) one 0 all rfl (whole 4 rfl)).2.2 63 0 rfl
  exact ⟨_, hv⟩
theorem met_VectorMoves_xfer (h : Obligations.VectorMoves) :
    exec (.vxfer .other 0 vUn) (only regs) = .next (landed (only regs) 3 4 one 3) := (h.2 0 vUn (only regs) one rfl).1 rfl

def iUn : VUn := { vUn with ty := .u32 }
theorem met_VectorSums_int (h : Obligations.VectorSums) : ∃ t, exec (.vpsum iUn) (only regs) = .next t := by
  obtain ⟨v, hv, _⟩ := h.1.1 iUn (only regs) one 0 all rfl rfl (whole 4 rfl)
  exact ⟨_, hv⟩
theorem met_VectorSums_red (h : Obligations.VectorSums) : ∃ t, exec (.vred .max iUn) (only regs) = .next t := by
  obtain ⟨v, hv, _⟩ := (h.1.2 iUn (only regs) one all rfl rfl rfl rfl).2.1
  exact ⟨_, hv⟩
theorem met_VectorSums_psum (h : Obligations.VectorSums) : ∃ t, exec (.vpsum vUn) (only regs) = .next t := by
  obtain ⟨v, hv, _⟩ := ((h.2 vUn (only regs) one all rfl rfl rfl).1 rfl).1 0 (whole 4 rfl) (by decide +kernel)
  exact ⟨_, hv⟩
theorem met_VectorSums_sum (h : Obligations.VectorSums) : ∃ t, exec (.vred .sum vUn) (only regs) = .next t := by
  obtain ⟨v, hv, _⟩ := ((h.2 vUn (only regs) one all rfl rfl rfl).1 rfl).2 (by decide +kernel)
  exact ⟨_, hv⟩
def halfUn : VUn := { vUn with ty := .bf16 }
theorem met_VectorSums_sumw (h : Obligations.VectorSums) : ∃ t, exec (.vred .sumw halfUn) (only regs) = .next t := by
  obtain ⟨v, hv, _⟩ := (h.2 halfUn (only regs) one all rfl rfl rfl).2.1 rfl (by decide +kernel)
  exact ⟨_, hv⟩
theorem met_VectorSums_max (h : Obligations.VectorSums) : ∃ t, exec (.vred .max vUn) (only regs) = .next t := by
  obtain ⟨v, hv, _⟩ := ((h.2 vUn (only regs) one all rfl rfl rfl).2.2 rfl).1 (by decide +kernel)
  exact ⟨_, hv⟩

theorem met_VectorConversions_cvt (h : Obligations.VectorConversions) :
    ∃ t, exec (.vcvt .i8 3 true iUn) (only regs) = .next t := by
  obtain ⟨v, hv, _⟩ := h.1 .i8 3 true iUn (only regs) one 0 all rfl rfl rfl rfl (fun _ => rfl) (by decide +kernel)
  exact ⟨_, hv⟩
theorem met_VectorConversions_quant (h : Obligations.VectorConversions) :
    ∃ t, exec (.vquant false .e4m3 3 vBin) (only regs) = .next t := by
  obtain ⟨v, hv, _⟩ := (h.2 3 vBin (only regs) one two 0 all rfl rfl (whole 4 rfl)).1 .e4m3 rfl rfl (by decide +kernel)
  exact ⟨_, hv⟩
def quBin : VBin := { vBin with b := .reg 0 }
theorem met_VectorConversions_scale (h : Obligations.VectorConversions) :
    ∃ t, exec (.vquant true .e4m3 0 quBin) (only regs) = .next t := by
  obtain ⟨v, hv, _⟩ := (h.2 0 quBin (only regs) one 0 0 all rfl rfl (whole 4 rfl)).2.1 .e4m3 rfl rfl
  exact ⟨_, hv⟩
def deBin : VBin := { vBin with ty := .e4m3 }
theorem met_VectorConversions_deq (h : Obligations.VectorConversions) :
    ∃ t, exec (.vdeq .fp32 0 deBin) (only regs) = .next t := by
  obtain ⟨v, hv, _⟩ := (h.2 0 deBin (only regs) one two 0 all rfl rfl (whole 4 rfl)).2.2.1 .fp32 rfl (by decide +kernel)
  exact ⟨_, hv⟩
theorem met_VectorConversions_cwenc (h : Obligations.VectorConversions) :
    ∃ t, exec (.vcwenc 0 vBin) (only regs) = .next t := by
  obtain ⟨v, hv, _⟩ := (h.2 0 vBin (only regs) one two 0 all rfl rfl (whole 4 rfl)).2.2.2.1 rfl rfl (by decide +kernel)
  exact ⟨_, hv⟩
def cwBin : VBin := { vBin with ty := .cw8 }
theorem met_VectorConversions_cwdec (h : Obligations.VectorConversions) :
    ∃ t, exec (.vcwdec .fp32 0 .cw8 0 cwBin) (only regs) = .next t := by
  obtain ⟨v, hv, _⟩ := (h.2 0 cwBin (only regs) one two 0 all rfl rfl (whole 4 rfl)).2.2.2.2 .fp32 .cw8 0 rfl (by decide +kernel)
  exact ⟨_, hv⟩
theorem met_VectorUnrounded_rand (h : Obligations.VectorUnrounded) : ∃ t, exec (.vrand mNul) (only regs) = .next t := by
  obtain ⟨v, hv, _⟩ := h.2.1 mNul (only regs) 0 (fun l => (3 : MaskReg).getLsbD l) (.inl rfl) masked
  exact ⟨_, hv⟩

theorem met_EffectiveAddresses (h : Obligations.EffectiveAddresses) :
    Reads (eaOf 2 (.off (-1))) (only regs) (0x01FFFFFFFFF00000 + BitVec.ofInt 64 (-1)) := ((h (only regs) 2 rfl).1 (by decide)).1 (-1)
theorem met_EffectiveAddresses_idx (h : Obligations.EffectiveAddresses) :
    Reads (eaOf 2 (.idx 6 7)) (only regs) (0x01FFFFFFFFF00000 + 8 <<< 7) := ((h (only regs) 2 rfl).1 (by decide)).2 6 7 rfl
def inLoop : State := withIssue { kind := 2, imm := 0xFFFFFFFF } (only { regs with k := [(24, 9), (30, 2)] })
theorem met_EffectiveAddresses_template (h : Obligations.EffectiveAddresses) : ∃ v, Reads (eaOf 2 (.off 0)) inLoop v :=
  ⟨_, (h inLoop 2 rfl).2 rfl 0 3 (by decide) (by decide) (fun m h1 h2 => absurd h1 (by omega))⟩

def a5 : RegRef := ⟨.a, 5⟩
def v1 : RegRef := ⟨.v, 1⟩
/-- What a part of a slot's meaning gives in a state, and the state it leaves. -/
def got {α : Type} [Inhabited α] (m : M α) (s : State) : α × State := match m.run s with | .ok p => p | .error _ => (default, s)
theorem gives {α : Type} [Inhabited α] (m : M α) (s : State) (h : (m.run s).toOption.isSome = true) :
    Gives m s (got m s).1 (got m s).2 := by
  unfold got Gives
  cases he : m.run s with
  | ok p => rfl
  | error e => rw [he] at h; cases h
/-- What an operation answers where it answers, else a value given. -/
def was {ε α : Type} (d : α) (e : Except ε α) : α := match e with | .ok a => a | .error _ => d
theorem okOne {ε α : Type} {e : Except ε α} (d : α) (h : e.toOption.isSome = true) : e = .ok (was d e) := by
  cases e with
  | ok a => rfl
  | error x => cases h
theorem okPair {ε α β : Type} {e : Except ε (α × β)} (d : α × β) (h : e.toOption.isSome = true) :
    e = .ok ((was d e).1, (was d e).2) := okOne d h
/-- What an operation fails with, else a value given. -/
def failed {ε α : Type} (d : ε) (e : Except ε α) : ε := match e with | .error x => x | .ok _ => d
theorem failOne {ε α : Type} {e : Except ε α} {x : ε} (d : ε) (h : e.toOption.isNone = true) (hx : failed d e = x) : e = .error x := by
  cases e with
  | ok a => cases h
  | error y => exact congrArg _ hx
theorem failPair {ε β α : Type} {e : Except (ε × β) α} (d : ε × β) (h : e.toOption.isNone = true) :
    e = .error ((failed d e).1, (failed d e).2) := by
  cases e with
  | ok a => cases h
  | error x => rfl
theorem met_Loads_lds (h : Obligations.LoadAndStoreForms) : ∃ t, exec (.lds .u32 a5 2 (.off 4)) (only regs) = .next t :=
  ⟨_, (h.1.1 .u32 a5 2 (.off 4) (only regs) _ 0x01FFFFFFFFF00004 _ _ [] rfl).1 (gives _ _ (by decide +kernel)) (.inl rfl)⟩
abbrev spans1 : M (List Span) := accessSpans .read (vecAlign .u8 v1) [(0x01FFFFFFFFF00000, vecBytes v1)]
theorem met_Loads_vld (h : Obligations.LoadAndStoreForms) : ∃ t, exec (.vld .u8 v1 2 (.off 0)) (only regs) = .next t :=
  ⟨_, ((h.1.1 .u8 v1 2 (.off 0) (only regs) _ 0x01FFFFFFFFF00000 [] none _ rfl).2 rfl (gives spans1 _ (by decide +kernel))).1
    (.inl rfl) (.inl rfl)⟩
/-- The same in memory, with the leaf cached: four sectors, which are read one after another. -/
abbrev spans4 : M (List Span) := accessSpans .read (vecAlign .u8 v1) [(0x1000, vecBytes v1)]
theorem met_Loads_vld_split (h : Obligations.LoadAndStoreForms) : ∃ t, exec (.vld .u8 v1 3 (.off 0)) (mapped regs []) = .next t :=
  ⟨_, ((h.1.1 .u8 v1 3 (.off 0) (mapped regs []) _ 0x1000 [] none _ rfl).2 rfl (gives spans4 _ (by decide +kernel))).2 rfl
    (by decide +kernel) (.inr (by decide +kernel))⟩
theorem met_Loads_vlds (h : Obligations.LoadAndStoreForms) : ∃ t, exec (.vlds .u64 v1 2 6 0) (only regs) = .next t :=
  ⟨_, ((h.1.2 .u64 v1 2 0 (only regs) _ 0x01FFFFFFFFF00000 _ rfl rfl).1 6 8 rfl rfl).1 (.inl rfl) (.inl rfl)⟩
def gIx : State := only { regs with v := [(1, 0xFFFFFFFF00000003)] }
theorem met_Loads_vgath (h : Obligations.LoadAndStoreForms) : ∃ t, exec (.vgath .u32 0 v1 2 1 0) gIx = .next t := by
  exact ⟨_, ((h.1.2 .u32 v1 2 0 gIx _ 0x01FFFFFFFFF00000 _ rfl rfl).2 0 1 0xFFFFFFFF00000003 0xFFFFFFFF00000003 rfl rfl rfl
    rfl).1 (.inl rfl) (.inl rfl)⟩
theorem met_Stores_sts (h : Obligations.LoadAndStoreForms) : ∃ t, exec (.sts .u8 ⟨.a, 1⟩ 3 (.off 1)) (mapped regs []) = .next t :=
  ⟨_, (h.2.1 .u8 ⟨.a, 1⟩ 3 (.off 1) (mapped regs []) _ 0x1001 rfl).1 7 rfl rfl⟩
theorem met_Stores_vst (h : Obligations.LoadAndStoreForms) : ∃ t, exec (.vst .u8 v1 3 (.off 0)) (mapped regs []) = .next t :=
  ⟨_, (h.2.1 .u8 v1 3 (.off 0) (mapped regs []) _ 0x1000 rfl).2 0x3F8000003F800000 rfl rfl rfl⟩
theorem met_Stores_vsts (h : Obligations.LoadAndStoreForms) : ∃ t, exec (.vsts .u64 v1 3 6 0) (mapped regs []) = .next t :=
  ⟨_, (h.2.2 .u64 v1 3 0 (mapped regs []) _ 0x1000 0x3F8000003F800000 rfl rfl).1 6 8 rfl rfl rfl⟩
theorem met_Stores_vscat (h : Obligations.LoadAndStoreForms) : ∃ t, exec (.vscat .u32 0 v1 2 1) gIx = .next t :=
  ⟨_, (h.2.2 .u32 v1 2 0 gIx _ 0x01FFFFFFFFF00000 0xFFFFFFFF00000003 rfl rfl).2 0 1 0xFFFFFFFF00000003 rfl rfl rfl rfl⟩

theorem plain : plainScratch (only regs) := ⟨rfl, rfl, rfl, rfl, rfl, rfl⟩
theorem inForm : canonical (only regs) := by unfold canonical filesCanonical; decide +kernel
theorem inReserve_reset (o : Nat) : inReserve (only regs) 0 o = false := by
  simp only [inReserve, show ((only regs).core 0).reserve = 0 from rfl]
  simp
theorem within (o n : Nat) (h : o + n ≤ 2 ^ 20) : inScratch (only regs) o n := ⟨h, fun _ _ => inReserve_reset _⟩
theorem met_ScratchpadLoad (h : Obligations.ScratchpadLoad) : ∃ t, exec (.lds .u64 a5 2 (.off 0)) (only regs) = .next t := by
  obtain ⟨u, _, hu⟩ := ((h .u64 a5 2 (only regs) plain inForm (by decide)).1 (.off 0) 0 rfl).1 (within 0 8 (by decide)) (by decide)
  exact ⟨_, hu⟩
theorem met_ScratchpadLoad_vector (h : Obligations.ScratchpadLoad) : ∃ t, exec (.vld .u64 v1 2 (.off 256)) (only regs) = .next t := by
  obtain ⟨v, ⟨u, _, hu⟩, _⟩ := ((h .u64 v1 2 (only regs) plain inForm (by decide)).1 (.off 256) 256 rfl).2 rfl
    (within 256 256 (by decide)) (by decide)
  exact ⟨_, hu⟩
theorem met_ScratchpadLoad_strided (h : Obligations.ScratchpadLoad) : ∃ t, exec (.vlds .u64 v1 2 6 0) (only regs) = .next t := by
  obtain ⟨v, ⟨u, _, hu⟩, _⟩ := ((h .u64 v1 2 (only regs) plain inForm (by decide)).2 0 0x01FFFFFFFFF00000 rfl rfl).1 6 8
    (fun i => 8 * i) rfl (fun i hi => by
      replace hi : i < 32 := hi
      refine ⟨?_, within (8 * i) 8 (by omega), by show 8 * i % 8 = 0; omega⟩
      interval_cases i <;> rfl)
  exact ⟨_, hu⟩
/-- Lanes 0 and 1 are active, at the third and the fourth element. -/
def gathers : Ctx := { regs with v := [(1, BitVec.allOnes 2048 <<< 64 ||| 0x0000000300000002)] }
theorem met_ScratchpadLoad_gather (h : Obligations.ScratchpadLoad) :
    ∃ t, exec (.vgath .u32 0 v1 2 1 0) (only gathers) = .next t := by
  obtain ⟨v, busy, ⟨u, _, hu⟩, _⟩ := ((h .u32 v1 2 (only gathers) ⟨rfl, rfl, rfl, rfl, rfl, rfl⟩
    (by unfold canonical filesCanonical; decide +kernel) (by decide)).2 0 0x01FFFFFFFFF00000 rfl rfl).2 0 1 _ _
    (fun i => 8 + 4 * i) rfl rfl rfl (fun i hi => by
      have h2 : i = 0 ∨ i = 1 := by
        obtain ⟨h1, hx⟩ := hi
        by_contra hc
        refine hx ?_
        have h3 : ∀ j < 64, 2 ≤ j → laneAt 32 (BitVec.allOnes 2048 <<< 64 ||| 0x0000000300000002) j = 0xFFFFFFFF := by decide +kernel
        exact h3 i h1 (by omega)
      have hr : ∀ o n, o + n ≤ 2 ^ 20 → inScratch (only gathers) o n := fun o n h => ⟨h, fun _ _ => by
        simp only [inReserve, show ((only gathers).core (coreOf (only gathers).issue.ctx)).reserve = 0 from rfl]; simp⟩
      rcases h2 with rfl | rfl <;> exact ⟨by decide +kernel, hr _ _ (by decide), by decide⟩) (by decide)
  exact ⟨_, hu⟩
theorem met_ScratchpadStore (h : Obligations.ScratchpadStore) : ∃ t, exec (.sts .u64 ⟨.a, 1⟩ 2 (.off 0)) (only regs) = .next t := by
  obtain ⟨t, ht, _⟩ := (h .u64 ⟨.a, 1⟩ 2 (.off 0) (only regs) 0 plain inForm (by decide) rfl).1 7 rfl (within 0 8 (by decide))
    (by decide) rfl
  exact ⟨t, ht⟩
theorem met_ScratchpadStore_vector (h : Obligations.ScratchpadStore) : ∃ t, exec (.vst .u8 v1 2 (.off 0)) (only regs) = .next t := by
  obtain ⟨t, ht, _⟩ := (h .u8 v1 2 (.off 0) (only regs) 0 plain inForm (by decide) rfl).2 0x3F8000003F800000 rfl rfl
    (within 0 256 (by decide)) (by decide) rfl
  exact ⟨t, ht⟩

/-- Two posted stores of a piece each, in two sectors. -/
def twoSectors : Posted := ⟨8, 0, .store [⟨0x1000, 0x1000, false, [7, 8]⟩, ⟨0x1040, 0x1040, false, [9]⟩], 0⟩
def performer : Issuer := (only regs).issuerOf 0
theorem met_PerformedAccesses_piece (h : Obligations.PerformedAccesses) :
    byteAt (performPiece performer 0 (only regs) ⟨0x1000, 0x1000, false, [7, 8]⟩) 0x1001 = 8 :=
  h.1 (only regs) performer 0 ⟨0x1000, 0x1000, false, [7, 8]⟩ (by decide +kernel) (by decide +kernel) 0x1001
theorem met_PerformedAccesses_store (h : Obligations.PerformedAccesses) :
    ∃ t q, performPosted (only regs) performer twoSectors = some (t, some q) ∧ byteAt t 0x1001 = 8 ∧ byteAt t 0x1040 = 0 := by
  obtain ⟨t, ht, hb, _⟩ := h.2.1 (only regs) performer twoSectors ⟨0x1000, 0x1000, false, [7, 8]⟩ [⟨0x1040, 0x1040, false, [9]⟩]
    inForm rfl rfl (by decide +kernel)
  exact ⟨t, _, ht, hb 0x1001, hb 0x1040⟩
def adding (op : AtomOp) (ty : ElemTy) (a : Word) (ret : Option Nat) : Posted := ⟨8, 0, .atom op ty 0x1000 0x1000 a 0 ret, 0⟩
theorem met_PerformedAccesses_atom (h : Obligations.PerformedAccesses) :
    ∃ t, performPosted (only regs) performer (adding .add .u32 5 none) = some (t, none) ∧ byteAt t 0x1000 = 5 := by
  obtain ⟨t, ht, _, hb, _⟩ := (h.2.2.1 (only regs) performer (adding .add .u32 5 none) .add .u32 0x1000 0x1000 5 0 none
    inForm rfl (by decide +kernel) (by decide +kernel) (by decide +kernel) (by decide +kernel) rfl).1 (fun e => by cases e.1)
  exact ⟨t, ht, hb 0 (by decide)⟩
theorem met_PerformedAccesses_shadow (h : Obligations.PerformedAccesses) :
    ∃ t, performPosted (only regs) performer (adding .fadd .bf16 0x3F80 none) = some (t, none) ∧
      Map.find? t.redShadow 0x1000 = some (ElemTy.bf16.code.toNat, 0x3F800000) := by
  obtain ⟨t, ht, _, _, hs⟩ := (h.2.2.1 (only regs) performer (adding .fadd .bf16 0x3F80 none) .fadd .bf16 0x1000 0x1000 0x3F80 0 none
    inForm rfl (by decide +kernel) (by decide +kernel) (by decide +kernel) (by decide +kernel) rfl).2
    ⟨rfl, by decide +kernel, by decide +kernel⟩
  exact ⟨t, ht, hs.trans (by decide +kernel)⟩
theorem met_PerformedAccesses_read (h : Obligations.PerformedAccesses) :
    (readPiece performer ((0, none), only regs) ⟨0x1000, 0x1000, 4, false, 2, none⟩).2.mem = (only regs).mem :=
  (h.2.2.2.1 (only regs) performer 0 none ⟨0x1000, 0x1000, 4, false, 2, none⟩ rfl (by decide +kernel) rfl rfl (by decide)).2.1
def loading : Posted := ⟨8, 0, .load [⟨0x1000, 0x1000, 1, false, 0, none⟩] 0 none 8, 0⟩
theorem met_PerformedAccesses_load (h : Obligations.PerformedAccesses) : ∃ t, performPosted (only regs) performer loading = some (t, none) :=
  ⟨_, (h.2.2.2.2 (only regs) performer loading).1 _ 0 none 8 rfl⟩
def counterAdd : Posted := ⟨8, 0, .add 0x1000 0x1000 5 true, 0⟩
theorem met_PerformedAccesses_add (h : Obligations.PerformedAccesses) :
    ∃ t, performPosted (only regs) performer counterAdd = some (t, none) :=
  ⟨_, (h.2.2.2.2 (only regs) performer counterAdd).2 0x1000 0x1000 5 true _ rfl (fun _ => by decide +kernel) rfl⟩

theorem met_Atomic (h : Obligations.AtomicAndPrefetch) : ∃ t, exec (.atom .add .u32 (some a5) ⟨.a, 1⟩ 3 4) (mapped regs []) = .next t :=
  ⟨_, h.1.1 .add .u32 (some a5) ⟨.a, 1⟩ 3 4 (mapped regs []) _ 0x1004 7 0 _ _ rfl rfl rfl rfl (.inr (by decide))⟩
theorem met_Atomic_cas (h : Obligations.AtomicAndPrefetch) : ∃ t, exec (.atom .cas .u64 none ⟨.a, 1⟩ 3 0) (mapped regs []) = .next t :=
  ⟨_, h.1.1 .cas .u64 none ⟨.a, 1⟩ 3 0 (mapped regs []) _ 0x1000 7 2 _ _ rfl rfl rfl rfl (.inr (by decide))⟩
theorem met_Prefetch (h : Obligations.AtomicAndPrefetch) : ∃ t, exec (.pref 3 3 4) (only regs) = .next t := by
  obtain ⟨l, ht⟩ := h.1.2 3 3 4 (only regs) 0x1004 rfl
  exact ⟨_, ht⟩
theorem met_Misaligned (h : Obligations.AtomicAndPrefetch) :
    exec (.lds .u16 a5 2 (.off 1)) (only regs) = .next (stopped (only regs) (.trap false 0x03 0x01FFFFFFFFF00001)) :=
  ((h.2 .u16 a5 2 (.off 1) 1 .add none (only regs) 0x01FFFFFFFFF00001 0 (by decide) rfl (.inr (by decide))).1 rfl).1
theorem met_Misaligned_atom (h : Obligations.AtomicAndPrefetch) :
    exec (.atom .cas .u16 none ⟨.a, 1⟩ 2 1) (only regs) = .next (stopped (only regs) (.trap false 0x03 0x01FFFFFFFFF00001)) :=
  (h.2 .u16 ⟨.a, 1⟩ 2 (.off 1) 1 .cas none (only regs) 0x01FFFFFFFFF00001 7 (by decide) rfl (.inr (by decide))).2 rfl rfl (fun _ => ⟨2, rfl⟩)

/-- A set of one level with four points at stride 0, as bytes from an address on. -/
def setBytes (a : Nat) : Map Byte := [(a + 1, 1), (a + 0x10, 4)]
def setOf : LatheSet := { ty := 0, counts := [4], strides := [0] }
def setInPlane : State := { only regs with cores := [(0, { active := { sets := 1, bytes := setBytes 0x100 } })] }
theorem met_StreamForms_wset (h : Obligations.StreamForms) : ∃ t, exec (.wset 7 false 0 0 2) setInPlane = .next t :=
  ⟨_, (h.1 7 0 0 2 setInPlane 0x01FFFFFFFFF00000 0 rfl rfl rfl (by decide)).1 setOf (by decide) rfl rfl⟩
def setInMemory : State := mapped regs (setBytes 0x1000)
theorem met_StreamForms_record (h : Obligations.StreamForms) : ∃ t, exec (.wset 7 true 0 3 2) setInMemory = .next t :=
  ⟨_, (h.1 7 0 3 2 setInMemory 0x01FFFFFFFFF00000 0 rfl rfl rfl (by decide)).2 0x1000 _ setOf _ rfl (.inr (by decide +kernel)) rfl rfl rfl⟩
def loadedHead : State := only { regs with heads := [(0, { loaded := true, params := { setOf with lenLevel := some 0, lenReg := 5 } })] }
theorem met_StreamForms_wstart (h : Obligations.StreamForms) : ∃ t, exec (.wstart 0) loadedHead = .next t :=
  ⟨_, (h.2 0 loadedHead).1 3 rfl rfl rfl⟩

theorem met_CircularBuffers_invalid (h : Obligations.CircularBuffers) : ∃ t, exec (.cbset 15 3 0) (mapped regs []) = .next t :=
  ⟨_, (h.1 15 3 0 (mapped regs []) _ 0x1000 _ rfl (.inr (by decide +kernel)) rfl).1 rfl⟩
def ringRec : State := mapped regs [(0x1008, 64), (0x100C, 1), (0x100E, 1), (0x1013, 0x20), (0x20000000, 5)]
theorem met_CircularBuffers_cbset (h : Obligations.CircularBuffers) : ∃ t, exec (.cbset 15 3 0) ringRec = .next t :=
  ⟨_, (h.1 15 3 0 ringRec _ 0x1000 _ rfl (.inr (by decide +kernel)) rfl).2 _ 5 _ rfl (.inr (by decide +kernel)) rfl⟩
def ring (producer : Bool) : Handle := { valid := true, base := 0x1000, size := 64, count := 1, producer := producer, ctl := 0x20000000 }
def ringed (producer : Bool) (mem : Map Byte) : State := mapped { regs with handles := [(15, ring producer)] } mem
theorem met_CircularBuffers_producer (h : Obligations.CircularBuffers) : ∃ t, exec (.cbwait a5 15 1 0) (ringed true []) = .next t :=
  ⟨_, (h.2 a5 15 1 0 (ringed true []) rfl (by decide) (by decide)).1 _ 0 _ _ rfl ⟨by decide, rfl, rfl⟩⟩
theorem met_CircularBuffers_consumer (h : Obligations.CircularBuffers) :
    ∃ t, exec (.cbwait a5 15 1 9) (ringed false [(0x20000000, 1), (0x20000040, 9)]) = .next t :=
  ⟨_, (h.2 a5 15 1 9 (ringed false [(0x20000000, 1), (0x20000040, 9)]) rfl (by decide) (by decide)).1 _ 1 _ _ rfl ⟨by decide, rfl⟩⟩
theorem met_CircularBuffers_cbadv (h : Obligations.CircularBuffers) : ∃ t, exec (.cbadv 15 1 9) (ringed true []) = .next t :=
  ⟨_, (h.2 a5 15 1 9 (ringed true []) rfl (by decide) (by decide)).2 _ _ _ rfl rfl⟩
theorem met_CircularBuffers_free (h : Obligations.CircularBuffers) : ∃ t, exec (.cbadv 15 1 0) (ringed false []) = .next t :=
  ⟨_, (h.2 a5 15 1 0 (ringed false []) rfl (by decide) (by decide)).2 _ _ _ ⟨rfl, rfl⟩ rfl⟩

theorem met_RemoteForms_nld (h : Obligations.RemoteForms) : ∃ t, exec (.nld .u32 a5 7 4) (mapped regs []) = .next t :=
  ⟨_, (h.1.1 .u32 a5 7 4 (mapped regs []) (mapped regs []) 0x40000004 0 1 rfl (by decide +kernel) (.inr (by decide +kernel))).1 rfl rfl (by decide +kernel)⟩
theorem met_RemoteForms_nst (h : Obligations.RemoteForms) : ∃ t, exec (.nst .u32 (some 3) ⟨.a, 1⟩ 7 4) (mapped regs []) = .next t :=
  ⟨_, ((h.1.1 .u32 ⟨.a, 1⟩ 7 4 (mapped regs []) (mapped regs []) 0x40000004 0 1
    rfl (by decide +kernel) (.inr (by decide +kernel))).2.1 _ rfl rfl (by decide +kernel)).2 3 0x1000 rfl⟩
theorem met_RemoteForms_nat (h : Obligations.RemoteForms) : ∃ t, exec (.nat .cas .u64 none ⟨.a, 1⟩ 7 0) (mapped regs []) = .next t :=
  ⟨_, ((h.1.1 .u64 ⟨.a, 1⟩ 7 0 (mapped regs []) (mapped regs []) 0x40000000 0 1
    rfl (by decide +kernel) (.inr (by decide +kernel))).2.2 .cas 7 2 rfl rfl rfl (by decide +kernel)).1⟩
theorem met_RemoteForms_ncb (h : Obligations.RemoteForms) : ∃ t, exec (.ncb .u64 v1 63 63 10) (only regs) = .next t :=
  ⟨_, (h.1.2 .u64 v1 63 63 10 (only regs) _ 0x20 rfl rfl (by decide) (by decide) rfl (.inr (by decide +kernel))).1⟩
theorem met_RemoteForms_nts (h : Obligations.RemoteForms) : ∃ t, exec (.nts .u64 v1 0 0 3 10) (only regs) = .next t :=
  ⟨_, (h.1.2 .u64 v1 0 0 10 (only regs) _ 0x20 rfl rfl (by decide) (by decide) rfl (.inr (by decide +kernel))).2 3 0x1000 rfl⟩
/-- A mesh of one axis over dies 0 and 1 of the package. -/
def twoDies : Mesh := { axes := 1, sizes := [2, 1, 1, 1], members := [0x100, 0x120] }
def meshed (l : List (Nat × Placed)) (mem : Map Byte) : State :=
  { mapped regs mem with dies := [(0, { tlb := leaves, mesh := twoDies, placed := l })] }
theorem met_RemoteForms_nmc (h : Obligations.RemoteForms) :
    ∃ t, exec (.nmc .u64 (some 3) 0 true v1 9 0) (meshed [] []) = .next t :=
  ⟨_, h.2 .u64 (some 3) 0 true v1 9 0 (meshed [] []) _ 0x2000 0x1000 0 rfl rfl rfl (by decide) rfl (by decide) (.inr (by decide +kernel))
    (fun q hq => by
      have : q = 0 ∨ q = 1 := by simpa using (show q ∈ [0, 1] from hq)
      rcases this with rfl | rfl <;> exact ⟨by decide +kernel, by decide +kernel⟩)⟩

/-- A descriptor of 64 FP32 elements at 0x10000, replicated, or partial by SUM on the first axis. -/
def dtd (code : Nat) : Placed :=
  { addr := 0x1000, record := rawBytes [(0, 1), (2, 1), (8, 64), (12, 1), (16, 1), (20, 1), (0x22, 1), (0x29, 1)] 0 128,
    region := {}, placement := [code, 0, 0, 0] }
theorem met_PlacedAccess_pld (h : Obligations.PlacedAccess) : ∃ t, exec (.pld .fp32 a5 8 0 3 4) (meshed [(0, dtd 0)] []) = .next t :=
  ⟨_, (h .fp32 a5 8 3 4 (meshed [(0, dtd 0)] []) _ 0x1000 0x10004 0 (dtd 0) _ rfl rfl rfl).1 0 rfl rfl
    (gives (accessSpans .read 4 [(0x10004, 4)]) _ (by decide +kernel)) (.inl rfl) (by decide +kernel) (by decide +kernel)
    (by decide +kernel) _ _ _ (.inr (by decide +kernel)) (gives (loadBytes true 4 [(0x10004, 4)]) _ (by decide +kernel))⟩
theorem met_PlacedAccess_pst (h : Obligations.PlacedAccess) :
    ∃ t, exec (.pst .fp32 false ⟨.a, 1⟩ 8 3 4) (meshed [(0, dtd 0)] []) = .next t :=
  ⟨_, ((h .fp32 ⟨.a, 1⟩ 8 3 4 (meshed [(0, dtd 0)] []) _ 0x1000 0x10004 0 (dtd 0) _ rfl rfl rfl).2 _ rfl (by decide +kernel)).1 _ rfl rfl⟩
theorem met_PlacedAccess_reduce (h : Obligations.PlacedAccess) :
    ∃ t, exec (.pst .fp32 true ⟨.a, 1⟩ 8 3 4) (meshed [(0, dtd 0x8000)] []) = .next t :=
  ⟨_, ((h .fp32 ⟨.a, 1⟩ 8 3 4 (meshed [(0, dtd 0x8000)] []) _ 0x1000 0x10004 0 (dtd 0x8000) _ rfl rfl rfl).2 _ rfl (by decide +kernel)).2
    .fadd _ rfl (by decide) (by decide) (.inr (by decide +kernel)) rfl⟩

/-- A context that owns every tile, with BF16 descriptors. -/
def tiled : Ctx := { regs with tmask := 0xFF, desc := [(0, { fmt := 1, stride := 128 }), (7, { fmt := 1, stride := 128 })], maxred := 64 }
def T : State := only tiled
def mixed : State := only { tiled with desc := [(0, { fmt := 1, stride := 128 }), (1, { fmt := 7, stride := 128 })] }
theorem met_TileOperations_tcfg (h : Obligations.TileOperations) : ∃ t, exec (.tcfg .t0 0 0) T = .next t :=
  ⟨_, (h .t0 T).1 0 0 ⟨fun _ ht => (nomatch ht), by decide⟩ rfl⟩
theorem met_TileOperations_tdrain (h : Obligations.TileOperations) : exec (.tdrain .t1 0) T = .next T :=
  (h .t1 T).2.1 0 (by decide) (fun _ ho => nomatch ho)
theorem met_TileOperations_tld (h : Obligations.TileOperations) : ∃ t, exec (.tld .t0 3 0) T = .next t :=
  ⟨_, (((h .t0 T).2.2.1 3 ⟨by decide, by decide⟩).2 0 (.inr rfl)).1⟩
def affine : State := { T with cores := [(0, { affineIssue := 0xF })] }
theorem met_TileOperations_tscan (h : Obligations.TileOperations) : ∃ t, exec (.tscan true .t1 1 1 64) affine = .next t :=
  ⟨_, ((h .t1 affine).2.2.2 1 ⟨by decide, by decide⟩).2.1 true 1 64 rfl⟩
theorem met_TileOperations_tcomb (h : Obligations.TileOperations) : ∃ t, exec (.tcomb false .t1 0 64) T = .next t :=
  ⟨_, (((h .t1 T).2.2.2 0 ⟨by decide, by decide⟩).2.2 64).2 ⟨by decide, by decide⟩⟩

theorem met_TileRegisters_carry (h : Obligations.TileRegisters) : ∃ t, exec (.tcarry .wr false .t0 3 1 1) T = .next t :=
  ⟨_, ((((h false .t0 3 1 T ⟨by decide, by decide⟩).1 1).2.2 one two (by decide)).1 rfl rfl)⟩
theorem met_TileRegisters_half (h : Obligations.TileRegisters) : ∃ t, exec (.tcarry .h true .t0 3 1 1) T = .next t :=
  ⟨_, ((h true .t0 3 1 T ⟨by decide, by decide⟩).1 1).2.1 5 (by decide) rfl⟩
theorem met_TileRegisters_rows (h : Obligations.TileRegisters) : ∃ t, exec (.twr false .t1 0 1 63 1) T = .next t :=
  ⟨_, ((h false .t1 0 1 T ⟨by decide, by decide⟩).2.1 63 1 (by decide)).2.2 [one, two] rfl⟩
theorem met_TileRegisters_trd (h : Obligations.TileRegisters) : ∃ t, exec (.trd true false .t1 0 192 0 63) T = .next t :=
  ⟨_, ((h false .t1 0 192 T ⟨by decide, by decide⟩).2.1 0 63 (by decide)).2.1⟩
theorem met_TileRegisters_tred (h : Obligations.TileRegisters) : ∃ t, exec (.tred .max true false .t1 0 255) T = .next t :=
  ⟨_, (h false .t1 0 255 T ⟨by decide, by decide⟩).2.2.1 .max true (by decide)⟩

theorem met_MatrixMultiply (h : Obligations.MatrixMultiply) : ∃ t, exec (.tmma true .t0 0 0 7 64) T = .next t :=
  ⟨_, (((h .t0 0 0 7 64 T ⟨by decide, by decide⟩).2.2 rfl (by decide) (by decide)).1 (by decide)).2.1 (by decide)⟩
theorem met_MatrixMultiply_same (h : Obligations.MatrixMultiply) : ∃ t, exec (.tmma true .t0 0 0 0 32) T = .next t :=
  ⟨_, (((h .t0 0 0 0 32 T ⟨by decide, by decide⟩).2.2 rfl (by decide) (by decide)).1 (by decide)).2.2 rfl⟩
theorem met_MatrixMultiply_depth (h : Obligations.MatrixMultiply) : ∃ t, exec (.tmma false .t0 0 0 7 96) T = .next t :=
  ⟨_, ((h .t0 0 0 7 96 T ⟨by decide, by decide⟩).2.2 rfl (by decide) (by decide)).2 (by decide) false⟩
theorem met_MatrixMultiply_rows (h : Obligations.MatrixMultiply) : ∃ t, exec (.tmma true .t0 0 0 7 33) T = .next t :=
  ⟨_, (h .t0 0 0 7 33 T ⟨by decide, by decide⟩).2.1 rfl (.inr (by decide)) true⟩
theorem met_MatrixMultiply_pair (h : Obligations.MatrixMultiply) : ∃ t, exec (.tmma false .t0 0 0 1 32) mixed = .next t :=
  ⟨_, (h .t0 0 0 1 32 mixed ⟨by decide, by decide⟩).1 (by decide) false⟩

def descInPlane : State :=
  { T with cores := [(0, { active := { cond := .loaded, constLen := 64, bytes := [(0x1120, 128), (0x1128, 1)] } })] }
theorem met_TileDescriptors (h : Obligations.TileDescriptors) : ∃ t, exec (.tdesc .t0 0 (.const 0)) descInPlane = .next t :=
  ⟨_, ((h .t0 0 (.const 0) descInPlane _ (by decide) ⟨rfl, by decide, rfl⟩).1 (by decide) (by decide)).1 (by decide)⟩
theorem met_TileDescriptors_register (h : Obligations.TileDescriptors) : ∃ t, exec (.tdesc .t0 0 (.reg true 1)) T = .next t :=
  ⟨_, ((h .t0 0 (.reg true 1) T _ (by decide) ⟨5, by decide, rfl, rfl⟩).1 (by decide) (by decide)).2 5 (by decide)⟩
def fmt7 : State := only { tiled with v := [(1, 7 <<< 320)] }
theorem met_TileDescriptors_illegal (h : Obligations.TileDescriptors) : ∃ t, exec (.tdesc .t0 0 (.reg false 1)) fmt7 = .next t :=
  ⟨_, (h .t0 0 (.reg false 1) fmt7 _ (by decide) ⟨7 <<< 320, by decide, rfl, rfl⟩).2 (.inl (by decide))⟩

def opOf (kind : TKind) : TOp := { ctx := 0, tid := 1, seq := 8, space := {}, interval := 0, compat := false, kind := kind }
def running (kind : TKind) (x : Tile) : State := { T with cores := [(0, { tq0 := [opOf kind], tiles := [(0, x)] })] }
def bare : Tile := { live := true }
theorem met_TileExecution (h : Obligations.TileExecution) : ∃ t, exec (.tileOperationExecute 0 .t0 1) (running (.zero 0) bare) = .next t :=
  ⟨_, ((h.1 0 .t0 1 (running (.zero 0) bare) _ [] rfl (fun hm => nomatch hm) (by decide)).2 rfl).2 (by decide) |>.1 _ rfl⟩
theorem met_TileExecution_bad (h : Obligations.TileExecution) :
    ∃ t, exec (.tileOperationExecute 0 .t0 0) (running (.rd 0 0 1 false 8) { bare with bad := [(0, 63)] }) = .next t :=
  ⟨_, (h.1 0 .t0 0 (running (.rd 0 0 1 false 8) { bare with bad := [(0, 63)] }) _ [] rfl (fun hm => nomatch hm) (by decide)).1 0 (by decide)⟩
theorem met_TileExecution_residue (h : Obligations.TileExecution) :
    ∃ t, exec (.tileOperationExecute 0 .t0 2) (running (.mma 0 {} {} 32) bare) = .next t :=
  ⟨_, ((h.1 0 .t0 2 (running (.mma 0 {} {} 32) bare) _ [] rfl (fun _ p hp => nomatch hp) (by decide)).2 (by decide)).1 0 {} {} 32 (by decide) rfl⟩
theorem met_TileExecution_fault (h : Obligations.TileExecution) :
    ∃ t, exec (.tileOperationExecute 0 .t0 0) (running (.ld 0 {}) bare) = .next t :=
  ⟨_, ((h.1 0 .t0 0 (running (.ld 0 {}) bare) _ [] rfl (fun _ p hp => nomatch hp) (by decide)).2 (by decide)).2 (by decide) |>.2 _ _ _ rfl⟩
theorem met_TileTransfers (h : Obligations.TileExecution) :
    ∃ t, runT T 0 (opOf (.rd 0 0 1 true 8)) .t0 = .done t := ⟨_, (h.2 0 .t0 T (opOf (.rd 0 0 1 true 8)) 0 0 8).2.1 1 true rfl⟩

/-- A bundle at 0x1000 of two words, in ordinary executable memory. -/
def at1000 (x : Ctx) (mem : Map Byte) : State := withIssue { addr := 0x1000, words := 2, kind := 0, imm := 3, slots := 0x81 } (mapped x mem)
def R0 : State := at1000 regs []
theorem met_ControlTransfers_br (h : Obligations.ControlTransfers) : ∃ t, exec (.br (BitVec.ofInt 30 (-1))) R0 = .next t :=
  ⟨_, ((h.1 R0).2.2 rfl (by decide) (BitVec.ofInt 30 (-1))).1⟩
theorem met_ControlTransfers_brc (h : Obligations.ControlTransfers) : ∃ t, exec (.brc true 7 4) R0 = .next t :=
  ⟨_, ((h.1 R0).2.2 rfl (by decide) 4).2.1 true 7 rfl⟩
theorem met_ControlTransfers_jmp (h : Obligations.ControlTransfers) : ∃ t, exec (.jmp 4 0) R0 = .next t :=
  ⟨_, (((h.1 R0).2.2 rfl (by decide) 0).2.2.1 4 0 64 rfl).1 (by decide)⟩
theorem met_ControlTransfers_ret (h : Obligations.ControlTransfers) : ∃ t, exec (.ret 4) R0 = .next t :=
  ⟨_, (((h.1 R0).2.2 rfl (by decide) 0).2.2.1 4 0 64 rfl).2.1 (by decide)⟩
theorem met_ControlTransfers_misaligned (h : Obligations.ControlTransfers) : ∃ t, exec (.ret 5) R0 = .next t :=
  ⟨_, (((h.1 R0).2.2 rfl (by decide) 0).2.2.1 5 0 3 rfl).2.2.2 (by decide)⟩
theorem met_ControlTransfers_misalignedJump (h : Obligations.ControlTransfers) : ∃ t, exec (.jmp 5 0) R0 = .next t :=
  ⟨_, ((((h.1 R0).2.2 rfl (by decide) 0).2.2.1 5 0 3 rfl).2.2.1 (by decide)).1⟩
theorem met_ControlTransfers_call (h : Obligations.ControlTransfers) : ∃ t, exec (.call true 9 4 0) R0 = .next t :=
  ⟨_, ((h.1 R0).2.2 rfl (by decide) 0).2.2.2 true 9 4 64 64 _ _ ⟨rfl, rfl, by decide⟩ (fun hh => nomatch hh) rfl⟩
theorem met_ControlTransfers_callHere (h : Obligations.ControlTransfers) : ∃ t, exec (.call false 9 4 2) R0 = .next t :=
  ⟨_, ((h.1 R0).2.2 rfl (by decide) 2).2.2.2 false 9 4 0 _ _ _ rfl (fun hh => nomatch hh) rfl⟩
theorem met_LoopBegins (h : Obligations.ControlTransfers) : ∃ t, exec (.loop 3 none 4) R0 = .next t :=
  ⟨_, (h.2 3 none 4 R0 3 rfl (by decide) (by decide) ⟨by decide, rfl⟩).1 (by decide)⟩
theorem met_LoopBegins_zero (h : Obligations.ControlTransfers) :
    ∃ t, exec (.loop 0 (some 9) 4) (at1000 regs [(0x1023, 0x40)]) = .next t :=
  ⟨_, ((h.2 0 (some 9) 4 (at1000 regs [(0x1023, 0x40)]) 0 rfl (by decide) (by decide) rfl).2 rfl _ _ rfl).1 (by decide)⟩
theorem met_LoopBegins_illegal (h : Obligations.ControlTransfers) : ∃ t, exec (.loop 0 (some 9) 4) R0 = .next t :=
  ⟨_, ((h.2 0 (some 9) 4 R0 0 rfl (by decide) (by decide) rfl).2 rfl _ _ rfl).2 (by decide)⟩

def looping : Ctx := { regs with k := [(26, 2), (27, 0x900)] }
def endOf (acts : List EndAct) (kind : Nat) : Issue := { addr := 0x1000, words := 2, kind := kind, acts := acts }
theorem met_NextBundle_transfer (h : Obligations.NextBundle) : (regs.advance regs (endOf [.transfer 0x800] 0)).npc = 0x801 :=
  ((h regs regs (endOf [.transfer 0x800] 0)).1 0x800 rfl (by decide)).2.1
def delayed : Ctx := { regs with delay := true, npc := 0x801 }
theorem met_NextBundle_delay (h : Obligations.NextBundle) : (delayed.advance delayed (endOf [] 0)).pc = 0x801 &&& ~~~7 :=
  ((h delayed delayed (endOf [] 0)).2 rfl).2.2.1 rfl rfl
theorem met_NextBundle_goto (h : Obligations.NextBundle) : (regs.advance regs (endOf [.goto 0x40] 0)).pc = 0x40 :=
  ((h regs regs (endOf [.goto 0x40] 0)).2 rfl).2.2.2.1 (.inl rfl) 0x40 rfl
theorem met_NextBundle_plain (h : Obligations.NextBundle) : (regs.advance regs (endOf [] 0)).pc = 0x1010 :=
  (((h regs regs (endOf [] 0)).2 rfl).2.2.2.2 (.inl rfl) rfl).1 (.inl (by decide))
theorem met_NextBundle_loop (h : Obligations.NextBundle) : (looping.advance looping (endOf [] 1)).pc = 0x900 :=
  ((((h looping looping (endOf [] 1)).2 rfl).2.2.2.2 (.inl rfl) rfl).2 1 (by decide) rfl (by decide)
    (fun m h1 h2 => by obtain rfl | rfl : m = 2 ∨ m = 3 := by omega
                       all_goals decide)).1

def kctr : Ctx := { regs with k := [(4, 0x20000000), (5, 3), (6, 4)] }
def C (mem : Map Byte) : State := mapped kctr mem
def three : State := C [(0x20000000, 3)]
theorem met_CounterForms_cadd (h : Obligations.CounterForms) : ∃ t, exec (.cadd true .package 4 (.inl 5)) (C []) = .next t :=
  ⟨_, h.1.1 true .package 4 (.inl 5) (C []) _ 0x20000000 3 _ rfl rfl rfl⟩
theorem met_CounterForms_cwait (h : Obligations.CounterForms) : ∃ t, exec (.cwait true .domain 8 4 5 0) three = .next t :=
  ⟨_, (h.1.2.1 true .domain 8 4 5 0 three _ 0x20000000 3 _ 3 (by decide +kernel) rfl rfl rfl).1 (by decide)⟩
def late : State := mapped { kctr with timedOut := true } [(0x20000000, 3)]
theorem met_CounterForms_late (h : Obligations.CounterForms) : ∃ t, exec (.cwait true .domain 8 4 6 1) late = .next t :=
  ⟨_, (h.1.2.1 true .domain 8 4 6 1 late _ 0x20000000 4 _ 3 (by decide +kernel) rfl rfl rfl).2 (by decide) rfl⟩
theorem met_CounterForms_ctest (h : Obligations.CounterForms) : ∃ t, exec (.ctest true .core 7 4 6) three = .next t :=
  ⟨_, (h.1.2.2.1 true .core 0 4 three _ 0x20000000 _ 3 (by decide +kernel) rfl rfl).1 7 6 4 rfl⟩
theorem met_CounterForms_fence (h : Obligations.CounterForms) : ∃ t, exec (.fence .domain) three = .next t :=
  ⟨_, h.1.2.2.2 .domain three (by decide +kernel)⟩
theorem met_JoinAndDrain_join (h : Obligations.CounterForms) : ∃ t, exec (.join true .cluster true 4 5) three = .next t :=
  ⟨_, ((h.2 .cluster 4 5 three 0x20000000 3 rfl rfl).1 true true _ _ 3 (by decide +kernel) rfl).1 (by decide)⟩
theorem met_JoinAndDrain_wait (h : Obligations.CounterForms) : ∃ t, exec (.join true .cluster false 4 6) three = .next t :=
  ⟨_, ((h.2 .cluster 4 6 three 0x20000000 4 rfl rfl).1 true false _ _ 3 (by decide +kernel) rfl).2 (by decide) rfl rfl⟩
theorem met_JoinAndDrain_first (h : Obligations.CounterForms) : ∃ t, exec (.drain .package 4 6) three = .next t :=
  ⟨_, ((h.2 .package 4 6 three 0x20000000 4 rfl rfl).2 _ _ _ _ 3 rfl
    (gives (readCounter 0x20000000) _ (by decide +kernel))).2 (by decide +kernel) (by decide +kernel) (by decide +kernel) _ rfl⟩
def swept : State := mapped { kctr with waitAct := true, drainSums := [(5, 5), (5, 5)] } [(0x20000000, 3)]
theorem met_JoinAndDrain_last (h : Obligations.CounterForms) : ∃ t, exec (.drain .package 4 5) swept = .next t :=
  ⟨_, ((h.2 .package 4 5 swept 0x20000000 3 rfl rfl).2 _ _ _ _ 3 rfl rfl).1 rfl rfl (by decide) (by decide)⟩
def pw : Writer := ⟨0, 0, 0, none⟩
theorem met_CounterAdds (h : Obligations.CounterAdds) : ∃ t, three.counterAdd pw 0x20000000 1 none none = .ok t := by
  obtain ⟨t, ht, _⟩ := (h three pw 0x20000000 1 none none rfl rfl rfl).1 (by decide)
  exact ⟨t, ht⟩
theorem met_CounterAdds_overflow (h : Obligations.CounterAdds) :
    three.counterAdd pw 0x20000000 (2 ^ 64 - 3) none none = .error .overflow :=
  (h three pw 0x20000000 (2 ^ 64 - 3) none none rfl rfl rfl).2 (by decide)

/-- A control block at 0x3000: a root with its own fields, a ring of 16 packets at 0x4000 and counters at 0x20000000. -/
def rcb : Map Byte := [(0x3000, 1), (0x300E, 0xFF), (0x300F, 7), (0x3049, 0x40), (0x3050, 16), (0x305B, 0x20), (0x3060, 8), (0x3063, 0x20)]
def own : Region := { rcb := 0x3000, chain := [0x3000] }
def worker : Ctx := { regs with region := own, k := [(4, 0x1000), (5, 0x20000000), (6, 4), (7, 7)] }
def W (mem : Map Byte) : State := mapped worker (mem ++ rcb)
def forkRec : State := W [(0x1019, 0x30)]
def joinRec : State := W [(0x1013, 0x20), (0x1019, 0x30)]
theorem met_TaskSubmission_fork (h : Obligations.TaskSubmission) : ∃ t, exec (.fork 4 7) forkRec = .next t :=
  ⟨_, h.1 4 7 forkRec _ _ _ 0x1000 7 _ _ rfl rfl (by decide) (by decide +kernel) (okPair ([], State.reset) (by decide +kernel))
    (by decide +kernel) (by decide +kernel) (by decide +kernel) (by decide +kernel) (by decide +kernel) (by decide +kernel)
    (by decide +kernel) rfl (okPair ({}, State.reset) (by decide +kernel)) (by decide +kernel) (by decide +kernel) (by decide +kernel)⟩
theorem met_TaskSubmission_join (h : Obligations.TaskSubmission) : ∃ t, exec (.fork 4 7) joinRec = .next t :=
  ⟨_, h.1 4 7 joinRec _ _ _ 0x1000 7 _ _ rfl rfl (by decide) (by decide +kernel) (okPair ([], State.reset) (by decide +kernel))
    (by decide +kernel) (by decide +kernel) (by decide +kernel) (by decide +kernel) (by decide +kernel) (by decide +kernel)
    (by decide +kernel) ⟨_, okPair (0, State.reset) (by decide +kernel)⟩ (okPair ({}, State.reset) (by decide +kernel))
    (by decide +kernel) (by decide +kernel) (by decide +kernel)⟩
def packetRec : State := W [(0x1011, 0x30), (0x1020, 1), (0x1028, 1)]
theorem met_TaskSubmission_launch (h : Obligations.TaskSubmission) : ∃ t, exec (.launch 9 4) packetRec = .next t :=
  ⟨_, h.2.1 9 4 packetRec _ _ _ _ 0x1000 _ _ _ _ _ _ _ _ rfl (by decide) (by decide +kernel) (gives _ _ (by decide +kernel))
    (by decide +kernel) (okPair ({}, State.reset) (by decide +kernel)) (by decide +kernel) (by decide +kernel)
    (by exact okOne ((0, 0), (0, 0), State.reset) (by decide +kernel)) (okPair ([], State.reset) (by decide +kernel))
    (by decide +kernel) (by decide +kernel) (okOne State.reset (by decide +kernel))⟩
theorem met_TaskSubmission_msend (h : Obligations.TaskSubmission) : ∃ t, exec (.msend true 0 6 4 8) (W []) = .next t :=
  ⟨_, h.2.2 true 0 6 4 8 (W []) _ _ 4 0x1000 _ _ 0 _ rfl rfl (by decide) (by decide) (by decide) (by decide) (by decide)
    (gives _ _ (by decide +kernel)) (by decide +kernel) (by decide +kernel) (by decide +kernel) rfl (by decide +kernel)⟩

def cmdRec : State := W [(0x1010, 4), (0x1014, 1)]
def eng : EngArgs := { bits := { acq := true, rel := true, scope := .package }, cmd := 4, ctr := 5, amount := 1 }
theorem met_EngineCommands_copy (h : Obligations.EngineCommands) : ∃ t, exec (.ecopy 3 eng) cmdRec = .next t :=
  ⟨_, ((h.1.1 eng cmdRec _ _ 0x1000 0x20000000 _ _ rfl rfl rfl rfl).1 3).1 rfl rfl⟩
theorem met_EngineCommands_fill (h : Obligations.EngineCommands) : ∃ t, exec (.efill 1 eng) cmdRec = .next t :=
  ⟨_, ((h.1.1 eng cmdRec _ _ 0x1000 0x20000000 _ _ rfl rfl rfl rfl).1 1).2.1 rfl rfl⟩
theorem met_EngineCommands_conv (h : Obligations.EngineCommands) : ∃ t, exec (.econv 2 eng) cmdRec = .next t :=
  ⟨_, ((h.1.1 eng cmdRec _ _ 0x1000 0x20000000 _ _ rfl rfl rfl rfl).1 2).2.2 rfl rfl⟩
theorem met_EngineCommands_gather (h : Obligations.EngineCommands) : ∃ t, exec (.egather eng) cmdRec = .next t :=
  ⟨_, (h.1.1 eng cmdRec _ _ 0x1000 0x20000000 _ _ rfl rfl rfl rfl).2.1 rfl rfl⟩
theorem met_EngineCommands_scatter (h : Obligations.EngineCommands) : ∃ t, exec (.escatter eng) cmdRec = .next t :=
  ⟨_, (h.1.1 eng cmdRec _ _ 0x1000 0x20000000 _ _ rfl rfl rfl rfl).2.2.1 rfl rfl⟩
def collRec : State := { W [(0x1000, 3), (0x1004, 1)] with dies := [(0, { tlb := leaves, mesh := twoDies })] }
theorem met_EngineCommands_coll (h : Obligations.EngineCommands) : ∃ t, exec (.ecoll eng) collRec = .next t :=
  ⟨_, (h.1.1 eng collRec _ _ 0x1000 0x20000000 _ _ rfl rfl rfl rfl).2.2.2.1 (by decide) rfl⟩
theorem met_EngineCommands_plane (h : Obligations.EngineCommands) : ∃ t, exec (.eplane eng) (W []) = .next t :=
  ⟨_, (h.1.1 eng (W []) _ _ 0x1000 0x20000000 _ _ rfl rfl rfl rfl).2.2.2.2 (by decide) (by decide) rfl⟩

def swapping (shadow : Plane) (waited : Bool) : State :=
  { W [] with ctxs := [(0, { worker with waitAct := waited })], cores := [(0, { shadow := shadow })] }
theorem met_SwapWaits_done (h : Obligations.EngineCommands) : ∃ t, exec (.swap (some 5)) (swapping {} true) = .next t :=
  ⟨_, (h.2 (some 5) (swapping {} true) _ (some 0x20000000) ⟨_, _, rfl, rfl, rfl⟩).1 rfl (by decide +kernel)⟩
theorem met_SwapWaits_first (h : Obligations.EngineCommands) : ∃ t, exec (.swap none) (swapping { cond := .loaded } false) = .next t :=
  ⟨_, (h.2 none (swapping { cond := .loaded } false) _ none ⟨rfl, rfl⟩).2.1 rfl (.inl (by decide))⟩
theorem met_SwapWaits_empty (h : Obligations.EngineCommands) : ∃ t, exec (.swap none) (swapping {} false) = .next t :=
  ⟨_, (h.2 none (swapping {} false) _ none ⟨rfl, rfl⟩).2.2 rfl (by decide) (by decide)⟩

def sqCtx : Ctx := { worker with k := [(4, 0x1000), (5, 2), (6, 64), (7, 0x20000000), (8, 0x70040000)] }
def geom : KvGeom := { frames := 1024, fb := 0x10000, lb := 0x800, tb := 64, layers := 1, pool := [0x70000000] }
/-- A sequence numbered 2 of the worker's region, with one page of 16 positions in frame 4. -/
def q0 : Seq := { st := 1, region := own, ack := 0x5000, save := 0x6000, c := 16, extents := [{ base := 4, len := 1, reserve := 0, stride := 1 }] }
def Q (q : Seq) (mem : Map Byte) : State :=
  { mapped sqCtx mem with geom := geom, free := [(10, [1024])], seqs := [(2, q)], frames := [(4, { count := 1 })] }
theorem mine (q : Seq) (mem : Map Byte) (hq : inSubtree q.region own = true) : mayName (Q q mem) 2 q := ⟨by decide, rfl, hq⟩
def newRec : Map Byte := [(0x1000, 7), (0x100C, 0xFF), (0x100D, 0xFF), (0x1044, 16), (0x104B, 0x60), (0x1050, 8),
  (0x1053, 0x60), (0x1059, 0x50), (0x1061, 0x60)]
/-- What an operation gives where it gives something, else a value given. -/
def held {α : Type} (d : α) (o : Option α) : α := o.getD d
theorem heldOne {α : Type} {o : Option α} (d : α) (h : o.isSome = true) : o = some (held d o) := by
  cases o with
  | some a => rfl
  | none => cases h
theorem heldPair {α β : Type} {o : Option (α × β)} (d : α × β) (h : o.isSome = true) :
    o = some ((held d o).1, (held d o).2) := heldOne d h
theorem met_SequenceLifetimes_new (h : Obligations.SequenceLifetimes) : ∃ t, exec (.sqnew 9 4) (Q q0 newRec) = .next t :=
  ⟨_, (h 9 4 5 (Q q0 newRec) (by decide +kernel)).1 0x1000 _ _ _ _ _ _ rfl (okPair ([], State.reset) (by decide +kernel)) (by decide +kernel)
    (heldOne State.reset (by decide +kernel)) (heldOne 0 (by decide +kernel)) (heldPair (0, State.reset) (by decide +kernel))⟩
theorem met_SequenceLifetimes_fork (h : Obligations.SequenceLifetimes) : ∃ t, exec (.sqfork 9 5 4) (Q q0 newRec) = .next t :=
  ⟨_, ((h 9 5 4 (Q q0 newRec) (by decide +kernel)).2 2 q0 rfl (mine q0 newRec rfl)).1 rfl |>.1 0x1000 _ [] _ _ _ _ _ _ _ rfl (okPair ([], State.reset) (by decide +kernel))
    (by decide +kernel) (by decide +kernel) (heldOne State.reset (by decide +kernel)) (heldOne 0 (by decide +kernel))
    (heldPair (0, State.reset) (by decide +kernel)) ⟨rfl, rfl⟩ (okOne State.reset (by decide +kernel))⟩
theorem met_SequenceLifetimes_free (h : Obligations.SequenceLifetimes) : ∃ t, exec (.sqfree 9 5) (Q q0 []) = .next t :=
  ⟨_, ((h 9 5 4 (Q q0 []) (by decide +kernel)).2 2 q0 rfl (mine q0 [] rfl)).1 rfl |>.2.1 rfl (by decide) (by decide) (by decide)⟩
theorem met_SequenceLifetimes_stat (h : Obligations.SequenceLifetimes) : ∃ t, exec (.sqstat 9 5 31) (Q q0 []) = .next t :=
  ⟨_, ((h 9 5 4 (Q q0 []) (by decide +kernel)).2 2 q0 rfl (mine q0 [] rfl)).1 rfl |>.2.2 31⟩
def pendingCommit : State := { Q q0 newRec with deliveries := [⟨2, 0, 9, 7, .commit 0 false⟩] }
theorem met_SequenceLifetimes_held (h : Obligations.SequenceLifetimes) :
    exec (.sqfree 9 5) pendingCommit = .next (stopped pendingCommit (.held pendingCommit)) :=
  ((h 9 5 4 pendingCommit (by decide +kernel)).2 2 q0 rfl ⟨by decide, rfl, rfl⟩).2 rfl 0 0x1000 rfl (.sqfree 9 5) (by decide)

def treeRec : Map Byte := [(0x1000, 1), (0x1014, 0xFF), (0x1015, 1)]
theorem met_SequenceTrees_tree (h : Obligations.SequenceTrees) : ∃ t, exec (.sqtree 9 5 4) (Q q0 treeRec) = .next t :=
  ⟨_, (h 9 5 4 (Q q0 treeRec) 2 q0 (by decide +kernel) rfl (mine q0 treeRec rfl) rfl rfl).1 0x1000 _ _ _ _ rfl (.inl rfl)
    (fun _ hn => nomatch hn) (okPair ([], State.reset) (by decide +kernel)) (by decide +kernel) (by decide +kernel) (by decide +kernel) (okPair ([], State.reset) (by decide +kernel)) (by decide +kernel)⟩
def q2 : Seq := { q0 with st := 2, nodes := [{ token := 5, parent := 0xFF, depth := 1, given := false, q := 0 }] }
theorem met_SequenceTrees_acc (h : Obligations.SequenceTrees) : ∃ t, exec (.sqacc 9 5 4) (Q q2 []) = .next t :=
  ⟨_, (h 9 5 4 (Q q2 []) 2 q2 (by decide +kernel) rfl (mine q2 [] rfl) rfl rfl).2.1 0x1000 _ _ rfl rfl
    (fun _ hn => nomatch hn) (by decide) (okPair ([], State.reset) (by decide +kernel))⟩
theorem met_SequenceTrees_rewind (h : Obligations.SequenceTrees) : ∃ t, exec (.sqrewind 9 5 6) (Q q0 []) = .next t :=
  ⟨_, (h 9 5 6 (Q q0 []) 2 q0 (by decide +kernel) rfl (mine q0 [] rfl) rfl rfl).2.2.1 64 _ _ rfl (.inl rfl) (okPair ([], State.reset) (by decide +kernel))⟩
theorem met_SequenceTrees_preempt (h : Obligations.SequenceTrees) : ∃ t, exec (.sqpreempt 9 5) (Q q0 []) = .next t :=
  ⟨_, (h 9 5 6 (Q q0 []) 2 q0 (by decide +kernel) rfl (mine q0 [] rfl) rfl rfl).2.2.2.1 _ _ _ (.inl rfl) ⟨rfl, rfl⟩
    (okOne State.reset (by decide +kernel))⟩
def q6 : Seq := { q0 with st := 6 }
theorem met_SequenceTrees_resume (h : Obligations.SequenceTrees) : ∃ t, exec (.sqresume 9 5 0) (Q q6 [(0x6000, 1)]) = .next t :=
  ⟨_, (h 9 5 0 (Q q6 [(0x6000, 1)]) 2 q6 (by decide +kernel) rfl (mine q6 _ rfl) rfl rfl).2.2.2.2 0 _ _ _ rfl rfl (okPair ([], State.reset) (by decide +kernel))
    (by decide +kernel) rfl⟩

def q5 : Seq := { q0 with st := 5, nodes := q2.nodes, ring := 0x60000000, ringSize := 16, hostCtr := 0x60000008, acc := some { path := [0], correction := 9, result := 0, table := 0 } }
def q1 : Seq := { q5 with st := 1, acc := none }
theorem met_SequenceCommits_direct (h : Obligations.SequenceCommits) : ∃ t, exec (.sqcommit (some (9, some 5)) 9 5) (Q q1 []) = .next t :=
  ⟨_, ((h 9 5 (Q q1 []) _ _ _ 2 q1 _ (by decide +kernel) rfl (mine q1 [] rfl) rfl rfl).1 9 (some 5) 0 rfl rfl (by decide +kernel) rfl
    (okPair (⟨[], [], false⟩, State.reset) (by decide +kernel))).1 (okOne State.reset (by decide +kernel))⟩
theorem met_SequenceCommits_path (h : Obligations.SequenceCommits) : ∃ t, exec (.sqcommit none 9 5) (Q q5 []) = .next t :=
  ⟨_, ((h 9 5 (Q q5 []) _ _ _ 2 q5 _ (by decide +kernel) rfl (mine q5 [] rfl) rfl rfl).2
    { path := [0], correction := 9, result := 0, table := 0 } rfl rfl (okPair (⟨[], [], false⟩, State.reset) (by decide +kernel))
    (okOne State.reset (by decide +kernel))).1 (okOne State.reset (by decide +kernel))⟩
theorem met_SequenceCommits_plain (h : Obligations.SequenceCommits) : ∃ t, exec (.sqcommit (some (9, none)) 9 5) (Q q1 []) = .next t :=
  ⟨_, ((h 9 5 (Q q1 []) _ _ _ 2 q1 _ (by decide +kernel) rfl (mine q1 [] rfl) rfl rfl).1 9 none 0 rfl rfl (by decide +kernel) rfl
    ⟨rfl, rfl⟩).1 rfl⟩
def qlost : Seq := { q1 with ring := 0 }
theorem met_SequenceCommits_lost (h : Obligations.SequenceCommits) :
    ∃ t, exec (.sqcommit (some (9, some 5)) 9 5) (Q qlost []) = .next t :=
  ⟨_, ((h 9 5 (Q qlost []) _ _ _ 2 qlost _ (by decide +kernel) rfl (mine qlost [] rfl) rfl rfl).1 9 (some 5) 0 rfl rfl (by decide +kernel) rfl
    (okPair (⟨[], [], false⟩, State.reset) (by decide +kernel))).2 _ (failPair (0, State.reset) (by decide +kernel))⟩
def qnoctr : Seq := { q5 with hostCtr := 0 }
theorem met_SequenceCommits_lostPath (h : Obligations.SequenceCommits) : ∃ t, exec (.sqcommit none 9 5) (Q qnoctr []) = .next t :=
  ⟨_, ((h 9 5 (Q qnoctr []) _ _ _ 2 qnoctr _ (by decide +kernel) rfl (mine qnoctr [] rfl) rfl rfl).2
    { path := [0], correction := 9, result := 0, table := 0 } rfl rfl (okPair (⟨[], [], false⟩, State.reset) (by decide +kernel))
    (okOne State.reset (by decide +kernel))).2 _ (failPair (0, State.reset) (by decide +kernel))⟩

theorem met_KvRequests_map (h : Obligations.KvRequests) : ∃ t, exec (.kvmap false .bind 9 5 9 0) (Q q0 []) = .next t :=
  ⟨_, (((h.1 9 5 9 (Q q0 []) (by decide +kernel) rfl).1 2 0 q0 rfl rfl (mine q0 [] rfl) rfl).1 false 0).1 4 0 rfl |>.2.1 (by decide)⟩
def saturated : State := { Q q0 [] with frames := [(4, { count := 1, bind := 255 })] }
theorem met_KvRequests_saturated (h : Obligations.KvRequests) : ∃ t, exec (.kvmap false .bind 9 5 9 0) saturated = .next t :=
  ⟨_, (((h.1 9 5 9 saturated (by decide +kernel) rfl).1 2 0 q0 rfl rfl ⟨by decide, rfl, rfl⟩ rfl).1 false 0).1 4 0 rfl |>.2.2 (by decide)⟩
theorem met_KvRequests_absent (h : Obligations.KvRequests) : ∃ t, exec (.kvmap true .none 9 5 6 0) (Q q0 []) = .next t :=
  ⟨_, (((h.1 9 5 6 (Q q0 []) (by decide +kernel) rfl).1 2 64 q0 rfl rfl (mine q0 [] rfl) rfl).1 true 0).2.1 (by decide) .none (by decide)⟩
theorem met_KvRequests_release (h : Obligations.KvRequests) : ∃ t, exec (.kvmap false .rel 9 5 8 0) saturated = .next t :=
  ⟨_, (((h.1 9 5 8 saturated (by decide +kernel) rfl).1 2 0x70040000 q0 rfl rfl ⟨by decide, rfl, rfl⟩ rfl).1 false 0).2.2 4 rfl⟩
def kone : State := { Q q0 [] with ctxs := [(0, { sqCtx with k := [(5, 2), (6, 1), (7, 0x20000000)] })] }
theorem met_KvRequests_append (h : Obligations.KvRequests) : ∃ t, exec (.kvappend 9 5 6) kone = .next t :=
  ⟨_, ((h.1 9 5 6 kone (by decide +kernel) rfl).1 2 1 q0 rfl rfl ⟨by decide, rfl, rfl⟩ rfl).2 _ _ (by decide) (by decide) (by decide) (by decide)
    (by decide) (okPair ([], State.reset) (by decide +kernel))⟩
def bits : EngBits := { acq := true, rel := true, scope := .package }
def q3 : Seq := { q5 with st := 3 }
theorem met_KvRequests_compact (h : Obligations.KvRequests) : ∃ t, exec (.kvcompact bits 9 5 7 1) (Q q3 []) = .next t :=
  ⟨_, ((h.1 9 5 7 (Q q3 []) (by decide +kernel) rfl).2 bits 1 0x20000000 _ _ rfl (by decide) (okPair (0, State.reset) (by decide +kernel)) (by decide +kernel) (by decide +kernel)).1 2 q3
    { path := [0], correction := 9, result := 0, table := 0 } _ _ rfl (by unfold mayName; decide +kernel) (by decide +kernel) rfl rfl
    (okPair ([], State.reset) (by decide +kernel))⟩
def requant : Map Byte := [(0x1000, 2), (0x1008, 2)]
theorem met_KvRequests_requant (h : Obligations.KvRequests) : ∃ t, exec (.kvrequant bits 9 4 7 1) (Q q0 requant) = .next t :=
  ⟨_, ((h.1 9 4 7 (Q q0 requant) (by decide +kernel) rfl).2 bits 1 0x20000000 _ _ rfl (by decide) (okPair (0, State.reset) (by decide +kernel)) (by decide +kernel) (by decide +kernel)).2 0x1000
    q0 _ _ _ _ 4 _ rfl (okPair ([], State.reset) (by decide +kernel)) (heldOne .bf16 (by decide +kernel)) (by decide +kernel) (by decide +kernel) (by unfold mayName; decide +kernel) (by decide +kernel) (by decide +kernel) (by decide +kernel) (by decide +kernel) (by decide +kernel) (by decide +kernel)
    (heldPair (0, State.reset) (by decide +kernel))⟩
theorem met_RefusedRequests_none (h : Obligations.KvRequests) : ∃ t, exec (.sqfree 9 6) (Q q0 []) = .next t :=
  ⟨_, (h.2 9 6 6 0 (Q q0 []) 64 64 (by decide +kernel) rfl rfl rfl rfl rfl).1 (by decide) rfl (.sqfree 9 6) (by decide)⟩
theorem met_RefusedRequests_outside (h : Obligations.KvRequests) : ∃ t, exec (.sqpreempt 9 7) (Q q0 []) = .next t :=
  ⟨_, (h.2 9 7 7 0 (Q q0 []) 0x20000000 0x20000000 (by decide +kernel) rfl rfl rfl rfl rfl).2.1 (.inl (by decide)) (.sqpreempt 9 7) (by decide)⟩
def foreign : State := Q { q0 with region := {} } []
theorem met_RefusedRequests_foreign (h : Obligations.KvRequests) : ∃ t, exec (.sqstat 9 5 0) foreign = .next t :=
  ⟨_, (h.2 9 5 6 0 foreign 2 64 (by decide +kernel) rfl rfl rfl rfl rfl).2.1 (.inr ⟨_, rfl, rfl⟩) (.sqstat 9 5 0) (by decide)⟩
def abroad : Seq := { q0 with follower := true }
theorem met_RefusedRequests_follower (h : Obligations.KvRequests) : ∃ t, exec (.sqcommit none 9 5) (Q abroad []) = .next t :=
  ⟨_, (h.2 9 5 6 0 (Q abroad []) 2 64 (by decide +kernel) rfl rfl rfl rfl rfl).2.2 abroad (mine abroad [] rfl) rfl (.sqcommit none 9 5) (by decide)⟩

def placer : Ctx := { regs with k := [(4, 0x1000)] }
def P (l : List (Nat × Placed)) (mem : Map Byte) : State := { meshed l mem with ctxs := [(0, placer)] }
theorem met_PlacementForms_declared (h : Obligations.PlacementForms) : ∃ t, exec (.pdecl 9 4) (P [(63, dtd 0)] []) = .next t :=
  ⟨_, ((h 9 4 (P [(63, dtd 0)] []) 0x1000 rfl (by decide)).1 63 (dtd 0) rfl).1⟩
theorem met_PlacementForms_drop (h : Obligations.PlacementForms) : ∃ t, exec (.prel true 4) (P [(0, dtd 0)] []) = .next t :=
  ⟨_, (((h 9 4 (P [(0, dtd 0)] []) 0x1000 rfl (by decide)).1 0 (dtd 0) rfl).2.2 (by decide +kernel)).2.1 _ rfl⟩
theorem met_PlacementForms_conv (h : Obligations.PlacementForms) : ∃ t, exec (.pconv 9 4 4) (P [(0, dtd 0)] []) = .next t :=
  ⟨_, (((h 9 4 (P [(0, dtd 0)] []) 0x1000 rfl (by decide)).1 0 (dtd 0) rfl).2.2 (by decide +kernel)).2.2 4 _ _ rfl rfl⟩
def unmeshed : State := { only placer with dies := [(0, { tlb := leaves })] }
theorem met_PlacementForms_noMesh (h : Obligations.PlacementForms) : ∃ t, exec (.pdecl 9 4) unmeshed = .next t :=
  ⟨_, ((h 9 4 unmeshed 0x1000 rfl (by decide)).2 rfl).1 rfl⟩
def dtdMem : Map Byte := [(0x1000, 1), (0x1002, 1), (0x1008, 64), (0x100C, 1), (0x1010, 1), (0x1014, 1), (0x1022, 1), (0x1029, 1)]
def full : State := P ((List.range 64).map (fun i => (i, { dtd 0 with addr := 0x2000 }))) dtdMem
theorem met_PlacementForms_full (h : Obligations.PlacementForms) : ∃ t, exec (.pdecl 9 4) full = .next t :=
  ⟨_, ((((h 9 4 full 0x1000 rfl (by decide)).2 (by decide)).2 (by decide) _ _ (by decide +kernel) (gives _ _ (by decide +kernel))).2 (by decide +kernel)).1 (fun i hi =>
    ⟨(i, { dtd 0 with addr := 0x2000 }), List.mem_map.2 ⟨i, List.mem_range.2 hi, rfl⟩, rfl⟩)⟩
theorem met_PlacementForms_declares (h : Obligations.PlacementForms) : ∃ t, exec (.pdecl 9 4) (P [] dtdMem) = .next t :=
  ⟨_, ((((h 9 4 (P [] dtdMem) 0x1000 rfl (by decide)).2 rfl).2 (by decide) _ _ (by decide +kernel) (gives _ _ (by decide +kernel))).2 (by decide +kernel)).2 0 (by decide)
    (fun _ he => nomatch he) (fun _ hj => nomatch hj)⟩
theorem met_PlacementForms_invalid (h : Obligations.PlacementForms) : ∃ t, exec (.pdecl 9 4) (P [] []) = .next t :=
  ⟨_, (((h 9 4 (P [] []) 0x1000 rfl (by decide)).2 rfl).2 (by decide) _ _ (by decide +kernel) (gives _ _ (by decide +kernel))).1 (by decide +kernel)⟩


def priv : Ctx := { regs with mode := 0x3800, k := [(4, 0x1000), (5, 3), (6, 4), (7, 0x20000000)], region := own, task := .trapHandler 1 }
def S1 : State := only regs
def PV (mem : Map Byte) : State := mapped priv mem
theorem met_SystemRegisters_read (h : Obligations.SystemRegisters) : ∃ t, exec (.csrr 9 0x031) S1 = .next t :=
  ⟨_, (h.1.1 9 0x031 S1).1 (by decide)⟩
theorem met_SystemRegisters_none (h : Obligations.SystemRegisters) : ∃ t, exec (.csrr 9 0xFFF) S1 = .next t :=
  ⟨_, ((h.1.1 9 0xFFF S1).2 (by decide)).1⟩
theorem met_SystemRegisters_write (h : Obligations.SystemRegisters) : ∃ t, exec (.csrw .write 6 0x000) (PV []) = .next t :=
  ⟨_, ((h.1.2 .write 6 0x000 (PV []) 4 _ rfl rfl (by decide)).1 (.inr (by decide))).2.2 (fun hh => absurd hh (by decide)) (fun _ => by decide)⟩
theorem met_SystemRegisters_ageing (h : Obligations.SystemRegisters) : ∃ t, exec (.csrw .write 6 0x020) (PV []) = .next t :=
  ⟨_, ((h.1.2 .write 6 0x020 (PV []) 4 _ rfl rfl (by decide)).1 (.inr (by decide))).2.2 (fun _ => by decide) (fun hh => absurd hh (by decide))⟩
theorem met_SystemRegisters_user (h : Obligations.SystemRegisters) : ∃ t, exec (.csrw .clr 5 0x020) S1 = .next t :=
  ⟨_, ((h.1.2 .clr 5 0x020 S1 3 _ rfl rfl (by decide)).1 (.inl rfl)).1 (by decide) (by decide)⟩
def kfive : State := only { regs with k := [(5, 5)] }
theorem met_SystemRegisters_mode (h : Obligations.SystemRegisters) : ∃ t, exec (.csrw .set 5 0x000) kfive = .next t :=
  ⟨_, ((h.1.2 .set 5 0x000 kfive 5 _ rfl rfl (by decide)).1 (.inr (by decide))).2.1 (by decide) (by decide)⟩
theorem met_SystemRegisters_reserved (h : Obligations.SystemRegisters) : ∃ t, exec (.csrw .write 4 0x001) S1 = .next t :=
  ⟨_, (h.1.2 .write 4 0x001 S1 64 _ rfl rfl (by decide)).2 (by decide) (by decide)⟩
theorem met_InvalidationSubmits_user (h : Obligations.SystemRegisters) : ∃ t, exec (.csrw .write 4 0x022) S1 = .next t :=
  ⟨_, (h.2 4 S1 64 rfl).1 (by decide)⟩
theorem met_InvalidationSubmits_misaligned (h : Obligations.SystemRegisters) : ∃ t, exec (.csrw .write 5 0x022) (PV []) = .next t :=
  ⟨_, ((h.2 5 (PV []) 3 rfl).2 (by decide) (by decide)).1 (by decide)⟩
def invalRec (op asid : Byte) : Map Byte := [(0x1000, op), (0x1001, 3), (0x1002, asid), (0x101B, 0x20)]
theorem met_InvalidationSubmits (h : Obligations.SystemRegisters) : ∃ t, exec (.csrw .write 4 0x022) (PV (invalRec 0 0)) = .next t :=
  ⟨_, (((h.2 4 (PV (invalRec 0 0)) 0x1000 rfl).2 (by decide) (by decide)).2 (by decide) (by decide +kernel) _ _ _ rfl rfl).2 (by decide) (by decide) _ _ rfl⟩
theorem met_InvalidationSubmits_other (h : Obligations.SystemRegisters) : ∃ t, exec (.csrw .write 4 0x022) (PV (invalRec 0 1)) = .next t :=
  ⟨_, (((h.2 4 (PV (invalRec 0 1)) 0x1000 rfl).2 (by decide) (by decide)).2 (by decide) (by decide +kernel) _ _ _ rfl rfl).1 (.inr (by decide))⟩
theorem met_SystemRegisterWrites (h : Obligations.SystemRegisterWrites) :
    csrWrite S1 0 0x021 .write 64 = S1.updCtx 0 (fun x => { x with maxred := 64 }) := (h S1 0 .write 64).2.2.2.2.2.2.1 64 (by decide)

theorem met_TrapForms_eret (h : Obligations.TrapForms) : ∃ t, exec (.eret none) (PV []) = .next t :=
  ⟨_, (((h.1 (PV [])).2.2 rfl (by decide)).2 (by decide)).1⟩
theorem met_TrapForms_user (h : Obligations.TrapForms) : ∃ t, exec (.eret (some 4)) S1 = .next t :=
  ⟨_, ((h.1 S1).2.2 rfl (by decide)).1 (by decide) (some 4)⟩
theorem met_TrapForms_to (h : Obligations.TrapForms) : ∃ t, exec (.eret (some 4)) (PV []) = .next t :=
  ⟨_, ((((h.1 (PV [])).2.2 rfl (by decide)).2 (by decide)).2 4 0x1000 rfl).1 (by decide)⟩
theorem met_TrapForms_misaligned (h : Obligations.TrapForms) : ∃ t, exec (.eret (some 5)) (PV []) = .next t :=
  ⟨_, ((((h.1 (PV [])).2.2 rfl (by decide)).2 (by decide)).2 5 3 rfl).2 (by decide)⟩
theorem met_WatchAndReset_arm (h : Obligations.TrapForms) : ∃ t, exec (.watch true true 9 4 5 7) (mapped priv []) = .next t :=
  ⟨_, (h.2.1 true true 9 4 5 7 (mapped priv []) 0x1000 3 ⟨rfl, rfl, by decide, by decide⟩).1 rfl⟩
def watching (o : Nat) : State := { mapped priv [] with cores := [(0, { watch := [(7, { owner := o, base := 0x1000, len := 64, shut := false, pages := [] })] })] }
theorem met_WatchAndReset_own (h : Obligations.TrapForms) : ∃ t, exec (.watch false false 9 0 0 7) (watching 0) = .next t :=
  ⟨_, (h.2.1 false false 9 0 0 7 (watching 0) 0 0 ⟨rfl, rfl⟩).2.1 _ _ rfl rfl⟩
theorem met_WatchAndReset_other (h : Obligations.TrapForms) : ∃ t, exec (.watch true false 9 4 5 7) (watching 1) = .next t :=
  ⟨_, (h.2.1 true false 9 4 5 7 (watching 1) 0x1000 3 ⟨rfl, rfl, by decide, by decide⟩).2.2 _ _ rfl (by decide)⟩
theorem met_WatchAndReset_user (h : Obligations.TrapForms) : ∃ t, exec (.creset 6 4) S1 = .next t := ⟨_, (h.2.2 6 4 S1).1 (by decide)⟩
theorem met_WatchAndReset_reset (h : Obligations.TrapForms) : ∃ t, exec (.creset 6 7) (PV []) = .next t :=
  ⟨_, ((h.2.2 6 7 (PV [])).2 (by decide) 4 0x20000000 _ _ rfl rfl (by decide) (by decide) (by decide)).1 (okPair (0, State.reset) (by decide +kernel))⟩
/-- A handler whose page table maps address 0 on to ordinary memory. -/
def ordinary : State := { only priv with dies := [(0, { walks := [(0, 3, 0x100000)] })], mem := [(0x100000, 0x1F)] }
theorem met_WatchAndReset_ordinary (h : Obligations.TrapForms) : ∃ t, exec (.creset 6 4) ordinary = .next t :=
  ⟨_, ((h.2.2 6 4 ordinary).2 (by decide) 4 0x1000 0 State.reset rfl rfl (by decide) (by decide) (by decide)).2 0x1000
    (by decide +kernel) (by decide +kernel)⟩

def trapping : Ctx := { regs with region := { trapEntry := 0x8000 }, stall := 3, npc := 0x901 }
theorem canon : canonical (only trapping) :=
  ⟨rfl, by decide, by decide, fun p hp => by
    obtain rfl : p = (0, trapping) := by simpa [only] using hp
    exact ⟨by decide, by decide, by decide, by decide, by decide, by decide, by decide, by decide⟩⟩
theorem met_TrapEntry (h : Obligations.TrapEntry) : ((takeTrap (only trapping) 0 0x28 5 0x1000).ctx 0).run = .frozen :=
  (h (only trapping) 0 1 0x28 5 0x1000 canon (by decide) (by decide) (by decide) (by decide +kernel) (by decide) (by decide) (by decide)).1
def frozen : State := { State.reset with ctxs := [(0, priv), (1, { trapping with run := .frozen, epc := 0x40 })] }
theorem canon2 : canonical frozen :=
  ⟨rfl, by decide, by decide, fun p hp => by
    obtain rfl | rfl : p = (0, priv) ∨ p = (1, { trapping with run := .frozen, epc := 0x40 }) := by simpa [frozen] using hp
    all_goals exact ⟨by decide, by decide, by decide, by decide, by decide, by decide, by decide, by decide⟩⟩
theorem met_TrapReturn (h : Obligations.TrapReturn) : ((eretFrom frozen 0 none).ctx 1).run = .ready :=
  (h frozen 0 1 none canon2 (by decide) (by decide) (by decide)).1

theorem met_RoundTrip (h : Obligations.RoundTrip) : decodeSlot .x (0x1B01005000000000 : Word) = .ok (.swap (some 5)) :=
  h (.swap (some 5)) .x 0x1B01005000000000 (by decide) (by decide)

def atomOf : Posted := ⟨3, 0, .atom .add .u32 0x1000 0x1000 7 0 none, 0⟩
def storeOf : Posted := ⟨3, 0, .store [⟨0x1000, 0x1000, false, [7, 8]⟩], 0⟩
/-- After reset, with a bundle of one word at the program counter of context 0: ADD a4, a4, 1. -/
def placedAdd : State := State.reset.withFetchWord 128 0x01001012000000010000000000000001
theorem met_StepRunsBundle_agenda (h : Obligations.StepRunsBundle) :
    step { placedAdd with agenda := [.boot true 0] } = exec (.boot true 0) placedAdd :=
  h.1 { placedAdd with agenda := [.boot true 0] } (.boot true 0) [] rfl
def addImm : SBin := { slot := .s0, h1 := false, h2 := false, w := false, u := false, dst := 4, a := .reg 4, b := .lit 1 }
/-- What a step answers as a next state. -/
def nextOf (o : Host.Outcome State Fault Refusal) : Option State := match o with | .next t => some t | _ => none
theorem nextIs {o : Host.Outcome State Fault Refusal} (h : (nextOf o).isSome = true) : o = .next (held State.reset (nextOf o)) := by
  cases o with
  | next t => rfl
  | fault f => cases h
  | refused r => cases h
theorem met_StepRunsBundle_runs (h : Obligations.StepRunsBundle) : ∃ t, step placedAdd = .next t :=
  ⟨_, ((((h.2 placedAdd 0 [] rfl rfl).2.2 (by decide +kernel) (by decide +kernel)).2 _ _ (okPair (⟨0, Header.ofWord 0, []⟩, State.reset) (by decide +kernel))).2 (.add addImm) .s0 (by decide +kernel)).2 (by decide +kernel) (by decide +kernel) _ (nextIs (by decide +kernel)) |>.2.2 (by decide +kernel) |>.1 _
    (by decide +kernel) (nextIs (by decide +kernel)) (by decide +kernel)⟩
/-- A context that is not ready. -/
def idle : State := { only { regs with run := .blocked } with issuing := [0] }
theorem met_StepRunsBundle_skipped (h : Obligations.StepRunsBundle) : step idle = .next { idle with issuing := [] } :=
  (h.2 idle 0 [] rfl rfl).1 (by decide +kernel)
/-- After reset, with BKPT 7 at the program counter of context 0. -/
def placedBkpt : State := State.reset.withFetchWord 128 0x34000000000000070000000000000080
theorem met_StepRunsBundle_traps (h : Obligations.StepRunsBundle) : ∃ t, step placedBkpt = .next t :=
  ⟨_, ((((h.2 placedBkpt 0 [] rfl rfl).2.2 (by decide +kernel) (by decide +kernel)).2 _ _ (okPair (⟨0, Header.ofWord 0, []⟩, State.reset) (by decide +kernel))).2 (.bkpt 7) .x (by decide +kernel)).2 (by decide +kernel) (by decide +kernel) _ (nextIs (by decide +kernel)) |>.2.2 (by decide +kernel) |>.2 false 0x28 7
    (by decide +kernel)⟩
/-- A result for a4 is still to come. -/
def notReady : State := placedAdd.updCtx 0 (fun x => { x with pending := [{ seq := 1, dests := [(0, 4)], ready := false, vals := [], tag := none }] })
theorem met_StepRunsBundle_notReady (h : Obligations.StepRunsBundle) : ∃ t, step notReady = .next t :=
  ⟨_, ((((h.2 notReady 0 [] rfl rfl).2.2 (by decide +kernel) (by decide +kernel)).2 _ _ (okPair (⟨0, Header.ofWord 0, []⟩, State.reset) (by decide +kernel))).2 (.add addImm) .s0 (by decide +kernel)).1 (by decide +kernel)⟩
/-- The first word of a bundle of an instruction, at the program counter of context 0 after reset. -/
def placed1 (i : Instr) (header : Nat) : State := State.reset.withFetchWord 128 (((encode i).map (·.2.toNat)).getD 0 * 2 ^ 64 + header)
/-- FENCE waits for a posted store. -/
def fencing : State := (placed1 (.fence .core) 0x80).updCtx 0 (fun x => { x with posted := [storeOf] })
theorem met_StepRunsBundle_waits (h : Obligations.StepRunsBundle) : ∃ t, step fencing = .next t :=
  ⟨_, (((((h.2 fencing 0 [] rfl rfl).2.2 (by decide +kernel) (by decide +kernel)).2 _ _ (okPair (⟨0, Header.ofWord 0, []⟩, State.reset) (by decide +kernel))).2 (.fence .core) .x (by decide +kernel)).2 (by decide +kernel) (by decide +kernel) _ (nextIs (by decide +kernel))).1 (by decide +kernel) (by decide +kernel)⟩
/-- ADD of a head that is closed. -/
def addHead : SBin := { addImm with a := .head 0 }
theorem met_StepRunsBundle_headFails (h : Obligations.StepRunsBundle) : ∃ t, step (placed1 (.add addHead) 1) = .next t :=
  ⟨_, (((((h.2 (placed1 (.add addHead) 1) 0 [] rfl rfl).2.2 (by decide +kernel) (by decide +kernel)).2 _ _ (okPair (⟨0, Header.ofWord 0, []⟩, State.reset) (by decide +kernel))).2 (.add addHead) .s0 (by decide +kernel)).2 (by decide +kernel) (by decide +kernel) _
    (nextIs (by decide +kernel))).2.1 (by decide +kernel) _ _ (heldPair (0, 0) (by decide +kernel))⟩
/-- A bundle whose word has a reserved opcode. -/
def placedBad : State := State.reset.withFetchWord 128 0xFF000000000000000000000000000001
theorem met_StepRunsBundle_encoding (h : Obligations.StepRunsBundle) : ∃ t, step placedBad = .next t :=
  ⟨_, (((h.2 placedBad 0 [] rfl rfl).2.2 (by decide +kernel) (by decide +kernel)).2 _ _ (okPair (⟨0, Header.ofWord 0, []⟩, State.reset) (by decide +kernel))).1 1 (by decide +kernel)⟩
/-- A context whose program counter is past its plane. -/
def lost : State := { only regs with issuing := [0] }
theorem met_StepRunsBundle_fetch (h : Obligations.StepRunsBundle) : ∃ t, step lost = .next t :=
  ⟨_, ((h.2 lost 0 [] rfl rfl).2.2 (by decide +kernel) (by decide +kernel)).1 _ _ (failPair (0, 0) (by decide +kernel))⟩
/-- A core of the cluster has offered its whole reserve. -/
def offered (x : Ctx) : State := { only x with cores := [(0, {}), (1, { reserve := 8 })] }
/-- A context asked for, with a reserve of the cluster to be saved in. -/
def asked (x : Ctx) : State := { offered { x with vregs := 0, preemptAt := some 0 } with issuing := [0] }
theorem met_StepRunsBundle_saved (h : Obligations.StepRunsBundle) : ∃ t, step (asked regs) = .next t :=
  ⟨_, ((h.2 (asked regs) 0 [] rfl rfl).2.1 .preempt (by decide +kernel) (by decide +kernel)).2 (by decide +kernel) _
    (nextIs (by decide +kernel)) (by decide +kernel)⟩
theorem met_StepRunsBundle_unsettled (h : Obligations.StepRunsBundle) :
    step (asked { regs with posted := [storeOf] }) = .next { asked { regs with posted := [storeOf] } with issuing := [] } :=
  ((h.2 (asked { regs with posted := [storeOf] }) 0 [] rfl rfl).2.1 .preempt (by decide +kernel) (by decide +kernel)).1 (by decide +kernel)
theorem met_StateStaysCanonical (h : Obligations.StateStaysCanonical) :
    ∀ t, step State.reset = .next t → canonical t := fun t => h State.reset t (by unfold canonical filesCanonical; decide +kernel)
/-- A5 was last written by a variable-latency result of the instruction of order number 9. -/
def written5 : Ctx := { regs with lastSeq := [(Ctx.regKey 0 5, 19)] }
theorem met_RegisterWrites_late (h : Obligations.RegisterWrites) : written5.writeReg 8 0 5 77 false none false = written5 :=
  (h written5 8 0 5 77 false none false (by unfold filesCanonical; decide +kernel) (by decide) (by decide) (by decide)).1 (by decide +kernel)
theorem met_RegisterWrites_taken (h : Obligations.RegisterWrites) : (written5.writeReg 9 0 5 77 false none false).reg 0 5 = 77 := by
  have := ((h written5 9 0 5 77 false none false (by unfold filesCanonical; decide +kernel) (by decide) (by decide) (by decide)).2.1 (by decide +kernel)).1
  rw [this]; decide +kernel
theorem met_SlotFrame (h : Obligations.SlotFrame) : ∃ t, exec (.add addImm) (only regs) = .next t ∧
    (∀ c, c ≠ 0 → t.ctx c = (only regs).ctx c) :=
  ⟨_, rfl, (h (.add addImm) .s0 _ (only regs) _ (by unfold canonical filesCanonical; decide +kernel) rfl (.inl rfl) rfl rfl rfl).2.1⟩
def trapper : State := only { regs with region := { trapEntry := 0x4000 } }
theorem met_TrapAndBreakpoint_bkpt (h : Obligations.TrapAndBreakpoint) : ∃ t, exec (.bkpt 7) trapper = .next t :=
  (h trapper 7 (by unfold canonical filesCanonical; decide +kernel) rfl (by decide) rfl rfl (fun _ hv => nomatch (show _ ∈ ([] : List Saved) from hv))).1.imp fun _ p => p.1
theorem met_TrapAndBreakpoint_trap (h : Obligations.TrapAndBreakpoint) : ∃ t, exec (.trap 7) trapper = .next t :=
  (h trapper 7 (by unfold canonical filesCanonical; decide +kernel) rfl (by decide) rfl rfl (fun _ hv => nomatch (show _ ∈ ([] : List Saved) from hv))).2.imp fun _ p => p.1
theorem met_ResetState (h : Obligations.ResetState) : canonical State.reset := h.1
theorem met_WorkedWordsDecode (h : Obligations.WorkedWordsDecode) :
    decodeSlot .x 0x0600005000000004 = .ok (.loop 0 (some 5) 4) := h.2.2.2.2.1
theorem met_CoreEvents_outsideTrap (h : Obligations.CoreEvents) :
    ∃ t, exec (.outsideTrap 0) (only { regs with outside := [⟨0x10, 3⟩] }) = .next t :=
  ⟨_, h.2.2.1 0 (only { regs with outside := [⟨0x10, 3⟩] }) _ _ rfl (.inl rfl)⟩
/-- A wait for a counter that may end at clock 20. -/
def timing : Ctx := { regs with run := .blocked, wait := some .counter, waitStart := 11, waitLimit := 10 }
theorem met_CoreEvents_timeout (h : Obligations.CoreEvents) :
    ∃ t, exec (.cwaitTimeout 0) { only timing with clock := 20 } = .next t :=
  ⟨_, h.2.2.2.2.1 0 { only timing with clock := 20 } rfl rfl (by decide) (by decide)⟩
def draining : Ctx := { regs with run := .blocked, wait := some .drain, drainPa := 0, drainTgt := 0 }
theorem met_CoreEvents_drain (h : Obligations.CoreEvents) : ∃ t, exec (.drainSweep 0) (only draining) = .next t :=
  ⟨_, (h.2.2.2.2.2.1 0 (only draining) rfl).2 (by decide +kernel) (by decide) _ rfl _ rfl⟩
theorem met_CoreEvents_drainBad (h : Obligations.CoreEvents) :
    ∃ t, exec (.drainSweep 0) { only draining with bad := [(0, 9)] } = .next t :=
  ⟨_, (h.2.2.2.2.2.1 0 { only draining with bad := [(0, 9)] } rfl).1 (by decide +kernel)⟩
def started : Head :=
  { cond := .empty, loaded := true, mem := true, params := { setOf with counts := [2], strides := [256] }, base := 0x1000, len := 2 }
def streaming : State := mapped { regs with heads := [(0, started)] } [(0x1000, 9)]
theorem met_CoreEvents_fetch (h : Obligations.CoreEvents) : ∃ t, exec (.latheFetch 0 0) streaming = .next t :=
  ⟨_, h.2.2.2.2.2.2.1 0 0 streaming _ _ _ started (by decide) (by decide) rfl (by decide +kernel) (by decide +kernel) (by decide +kernel) (okPair ([], State.reset) (by decide +kernel)) (by decide +kernel) rfl⟩
theorem met_CoreEvents_atom (h : Obligations.CoreEvents) :
    ∃ t, exec (.atomPerform 0) (mapped { regs with posted := [atomOf] } []) = .next t :=
  ⟨_, (h.2.2.2.2.2.2.2.1 0 (mapped { regs with posted := [atomOf] } []) _ atomOf (heldOne State.reset (by decide +kernel)) rfl).1 ⟨_, _, _, _, _, _, _, rfl⟩⟩
theorem met_CoreEvents_store (h : Obligations.CoreEvents) :
    ∃ t, exec (.accessPerformed 0) (mapped { regs with posted := [storeOf] } []) = .next t :=
  ⟨_, (h.2.2.2.2.2.2.2.1 0 (mapped { regs with posted := [storeOf] } []) _ storeOf (heldOne State.reset (by decide +kernel)) rfl).2 nofun⟩
def note : Msg := { slot := 0, sender := 64, seq := 1, interval := 0, region := {}, handler := 0x2000, payload := [1, 2] }
theorem met_CoreEvents_arrival (h : Obligations.CoreEvents) :
    ∃ t, exec (.messageArrival 0 0) { State.reset with cores := [(0, { transit := [note] })] } = .next t :=
  ⟨_, h.2.2.2.2.2.2.2.2.1 0 0 { State.reset with cores := [(0, { transit := [note] })] } note rfl rfl⟩
set_option maxRecDepth 20000 in
theorem met_CoreEvents_start (h : Obligations.CoreEvents) :
    ∃ t, exec (.messageHandlerStart 0) { State.reset with cores := [(0, { starts := [note], inboxUsed := [0] })] } = .next t :=
  ⟨_, h.2.2.2.2.2.2.2.2.2.1 0 { State.reset with cores := [(0, { starts := [note], inboxUsed := [0] })] } note rfl rfl (by decide +kernel) (by decide +kernel)⟩
/-- A page table whose first leaf is at 0x100000, found through the walk cache. -/
def walking : State := { only regs with dies := [(0, { walks := [(0, 3, 0x100000)] })], mem := [(0x100000, 0x1F)] }
theorem met_CoreEvents_walk (h : Obligations.CoreEvents) : ∃ t, exec (.pageWalk 0 0x1000 true) walking = .next t :=
  ⟨_, h.2.2.2.2.2.2.2.2.2.2.1 0 0x1000 true walking _ _ rfl (by decide) (by decide) rfl⟩
/-- An invalidation of a whole address space, ending at the counter at 0x20000000. -/
def dropAll : State := { mapped regs [(0x1001, 2), (0x101B, 0x20)] with bootStage := 4 }
set_option maxRecDepth 20000 in
theorem met_CoreEvents_tlbinv (h : Obligations.CoreEvents) : ∃ t, exec (.sysTlbinv 0 0x1000) dropAll = .next t :=
  ⟨_, h.2.2.2.2.2.2.2.2.2.2.2.1 0 0x1000 dropAll _ _ _ _ _ (by decide) (by decide) (by decide)
    (okPair ([], State.reset) (by decide +kernel)) (heldOne ⟨0, 0, 0, 0, 0, 0⟩ (by decide +kernel)) (okPair (0, State.reset) (by decide +kernel))⟩
def inval : Inval :=
  { op := 0
    scope := 2
    asid := 0
    va := 0
    len := 0
    ctrVa := 0x20000000
    ctx := 0
    tid := 0
    seq := 0
    region := {}
    interval := 0 }
/-- It drops the leaf of one address, which is not the counter's. -/
def inval1 : Inval := { inval with op := 1, va := 0x60000000 }
def dropping : State := { only regs with dies := [(0, { tlb := leaves, invals := [inval1] })] }
set_option maxRecDepth 20000 in
theorem met_CoreEvents_dropped (h : Obligations.CoreEvents) : ∃ t, exec (.invalidationComplete 0 0) dropping = .next t :=
  ⟨_, ((h.2.2.2.2.2.2.2.2.2.2.2.2.1 0 0 dropping _ _ inval1 _ rfl).2 (by decide +kernel) rfl rfl).1 _ (okOne State.reset (by decide +kernel))⟩
def broken : State := { only regs with dies := [(0, { tlb := leaves, invals := [inval] })], bad := [(0x20000000, 8)] }
set_option maxRecDepth 20000 in
theorem met_CoreEvents_lost (h : Obligations.CoreEvents) : ∃ t, exec (.invalidationComplete 0 0) broken = .next t :=
  ⟨_, ((h.2.2.2.2.2.2.2.2.2.2.2.2.1 0 0 broken _ _ inval _ rfl).2 (by decide +kernel) rfl rfl).2 _ _ (failPair (0, 0) (by decide +kernel))⟩
theorem met_CoreEvents_watch (h : Obligations.CoreEvents) :
    ∃ t, exec (.watchpointReport 0) { only regs with watchHits := [⟨0, 0, false, 5⟩] } = .next t :=
  ⟨_, h.2.2.2.2.2.2.2.2.2.2.2.2.2 0 { only regs with watchHits := [⟨0, 0, false, 5⟩] } ⟨0, 0, false, 5⟩ rfl⟩
theorem met_SchedulerEvents_save (h : Obligations.SchedulerEvents) :
    ∃ t, exec (.contextSave 0 .preempt) (offered { regs with vregs := 0, preemptAt := some 0 }) = .next t := by
  obtain ⟨t, ht⟩ := Option.isSome_iff_exists.mp (show (saveContext (offered { regs with vregs := 0, preemptAt := some 0 }) 0
    .preempt false).isSome = true by decide +kernel)
  exact ⟨_, (h.1 0 (offered { regs with vregs := 0, preemptAt := some 0 }) t (by decide) rfl rfl rfl).1 (by decide) rfl
    (fun p => nomatch p.1) ht⟩
def stuck : Ctx := { run := .frozen, tid := 1, vregs := 0 }
def allFrozen : State :=
  { State.reset with ctxs := [(0, stuck), (1, stuck), (2, stuck), (3, stuck)], cores := [(0, {}), (1, { reserve := 8 })] }
theorem met_SchedulerEvents_handler (h : Obligations.SchedulerEvents) : ∃ t, exec (.contextSave 0 .handler) allFrozen = .next t := by
  obtain ⟨t, ht⟩ := Option.isSome_iff_exists.mp (show (saveContext allFrozen 0 .handler true).isSome = true by decide +kernel)
  exact ⟨_, (h.1 0 allFrozen t (by decide) rfl rfl rfl).2 0 (by decide +kernel) (by decide +kernel) (.inl rfl) ht⟩
def image (why : SaveWhy) : Saved :=
  { id := 5
    tid := 5
    core := 0
    place := .offer 1 true []
    frozen := false
    why := why
    region := own
    task := .none
    bank := 0
    tmask := 0
    ripe := true }
def imaged (v : Saved) : State := { State.reset with saved := [v] }
theorem met_SchedulerEvents_restore (h : Obligations.SchedulerEvents) :
    ∃ t, exec (.contextRestore 5 0) (imaged (image .preempt)) = .next t :=
  ⟨_, (h.2.1 5 0 (imaged (image .preempt)) (image .preempt) rfl (by decide +kernel)).1 (by decide +kernel)⟩
theorem met_SchedulerEvents_parked (h : Obligations.SchedulerEvents) :
    ∃ t, exec (.parkedJoinRestore 5 0) (imaged (image .park)) = .next t :=
  ⟨_, (h.2.1 5 0 (imaged (image .park)) (image .park) rfl (by decide +kernel)).2 rfl rfl (by decide +kernel)⟩
theorem met_SchedulerEvents_withdrawn (h : Obligations.SchedulerEvents) :
    ∃ t, exec (.preemptionWithdrawn 0) { only { regs with preemptAt := some 0 } with clock := 32768 } = .next t :=
  ⟨_, (h.2.2.2.1 0 0 { only { regs with preemptAt := some 0 } with clock := 32768 } rfl (by decide)).1⟩
def ending (k : TaskKind) : State := { only { worker with task := k, ended := true } with saved := [image .preempt] }
theorem met_SchedulerEvents_retireHandler (h : Obligations.SchedulerEvents) :
    ∃ t, exec (.taskRetire 0) (ending (.trapHandler 1)) = .next t :=
  ⟨_, (h.2.2.2.2.1 0 (ending (.trapHandler 1)) rfl (by decide) nofun rfl rfl rfl).1 1 rfl⟩
theorem met_SchedulerEvents_retireRemote (h : Obligations.SchedulerEvents) :
    ∃ t, exec (.taskRetire 0) (ending (.remoteHandler 5)) = .next t :=
  ⟨_, (h.2.2.2.2.1 0 (ending (.remoteHandler 5)) rfl (by decide) nofun rfl rfl rfl).2.1 5 _ rfl rfl⟩
theorem met_SchedulerEvents_retireInSet (h : Obligations.SchedulerEvents) :
    ∃ t, exec (.taskRetire 0) (ending (.taskSet 7 0 0)) = .next t :=
  ⟨_, (h.2.2.2.2.1 0 (ending (.taskSet 7 0 0)) rfl (by decide) nofun rfl rfl rfl).2.2.1 7 0 0 _ _ rfl rfl⟩
theorem met_SchedulerEvents_retireForked (h : Obligations.SchedulerEvents) :
    ∃ t, exec (.taskRetire 0) (ending (.forked 0 .core)) = .next t :=
  ⟨_, (h.2.2.2.2.1 0 (ending (.forked 0 .core)) rfl (by decide) nofun rfl rfl rfl).2.2.2.1 0 .core _ _ rfl rfl⟩
theorem met_SchedulerEvents_retireMessage (h : Obligations.SchedulerEvents) :
    ∃ t, exec (.taskRetire 0) (ending (.message 0)) = .next t :=
  ⟨_, (h.2.2.2.2.1 0 (ending (.message 0)) rfl (by decide) nofun rfl rfl rfl).2.2.2.2 0 rfl⟩
def rec0 : TaskRec :=
  { entry := 0x2000
    arg := 0
    join := 0
    image := 0
    role := 0
    scope := .core
    bank := 0
    region := own
    from_ := 0
    interval := 0 }
def queued (j : Nat) : State := { State.reset with cores := [(j, { deque := [rec0] })] }
theorem met_SchedulerEvents_dequeOwn (h : Obligations.SchedulerEvents) : ∃ t, exec (.dequeStart 0) (queued 0) = .next t :=
  ⟨_, (h.2.2.2.2.2.1 0 (queued 0) rec0 rfl rfl (by decide +kernel)).1 [] rfl⟩
theorem met_SchedulerEvents_dequeSteal (h : Obligations.SchedulerEvents) : ∃ t, exec (.dequeStart 0) (queued 1) = .next t :=
  ⟨_, (h.2.2.2.2.2.1 0 (queued 1) rec0 rfl rfl (by decide +kernel)).2 1 [] rfl rfl (by decide +kernel)⟩
def pkt (crew tasks : Nat) : LaunchPkt :=
  { entry := 0x2000
    image := 0x1000
    rcb := 0x3000
    done := 0
    tasks := tasks
    inc := 1
    crew := crew
    role := 0
    graph := true
    cond := false
    neg := false
    window := 1
    depTgt := 1
    depCtr := 0x20000000
    pred := 0 }
def ringState : RingState := { region := { own with launchCtr := 0x20000000, ring := 0x4000, ringSize := 16 }, space := {} }
def scheduling : State :=
  { mapped {} [(0x20000000, 1)] with
    bootStage := 4
    rings := [ringState]
    nodes := [⟨pkt 1 1, own, 0, 0x3000⟩]
    sets := [{ id := 1, pkt := pkt 1 1, region := own }, { id := 2, pkt := pkt 2 2, region := own }] }
theorem met_SchedulerEvents_packet (h : Obligations.SchedulerEvents) : ∃ t, exec (.packetRead 0) scheduling = .next t :=
  ⟨_, h.2.2.2.2.2.2.1 0 scheduling ringState ringState rfl (by decide +kernel) rfl rfl⟩
theorem met_SchedulerEvents_node (h : Obligations.SchedulerEvents) : ∃ t, exec (.nodeEligible 0) scheduling = .next t :=
  ⟨_, h.2.2.2.2.2.2.2.1 0 scheduling _ rfl (by decide +kernel)⟩
theorem met_SchedulerEvents_task (h : Obligations.SchedulerEvents) : ∃ t, exec (.taskPlacement 1 0) scheduling = .next t :=
  ⟨_, (h.2.2.2.2.2.2.2.2.1 1 scheduling _ rfl).1 0 rfl (by decide) (by decide +kernel)⟩
def crewSet : TaskSet := { id := 2, pkt := pkt 2 2, region := own }
theorem met_SchedulerEvents_crew (h : Obligations.SchedulerEvents) : ∃ t, exec (.crewPlacement 2 0 [0, 4] 0) scheduling = .next t := by
  obtain ⟨u, hu⟩ := Option.isSome_iff_exists.mp (show (startCrew crewSet 0 0 (BitVec.ofNat 64 (vaultPa 0 0)) 0 [0, 4]
    ((advanceSet scheduling 2 2).updCluster 0 (fun x => { x with windows := x.windows ++ [
          { set := 2
            crew := 0
            base := vaultPa 0 0
            bytes := 65536
            live := 2 }] }))).isSome = true by decide +kernel)
  exact ⟨u, (h.2.2.2.2.2.2.2.2.1 2 scheduling crewSet rfl).2 0 [0, 4] 0 2 u (by decide) rfl (by decide) rfl (by decide)
    (by decide +kernel) (by decide +kernel) hu⟩
def sharing : State :=
  { only worker with sets := [{ id := 1, pkt := pkt 1 1, region := { rcb := 0x5000, chain := [0x5000], budgets := [(1, 1, 1, 1)] } }] }
theorem met_SchedulerEvents_share (h : Obligations.SchedulerEvents) : ∃ t, exec (.sharePreemption 0) sharing = .next t :=
  ⟨_, h.2.2.2.2.2.2.2.2.2.1 0 sharing (by decide +kernel) (by decide +kernel) (by unfold canonical filesCanonical; decide +kernel)
    (by decide +kernel) fun _ _ => Nat.zero_le _⟩
theorem met_SchedulerEvents_savedHandler (h : Obligations.SchedulerEvents) :
    ∃ t, exec (.savedTaskRestore 5 4) (imaged { image .preempt with needHandler := true }) = .next t :=
  ⟨_, (h.2.2.2.2.2.2.2.2.2.2.1 5 4 (imaged { image .preempt with needHandler := true }) { image .preempt with needHandler := true }
    rfl).1 rfl rfl rfl (by decide) (by decide +kernel)⟩
theorem met_SchedulerEvents_savedTask (h : Obligations.SchedulerEvents) :
    ∃ t, exec (.savedTaskRestore 5 4) (imaged (image .preempt)) = .next t :=
  ⟨_, (h.2.2.2.2.2.2.2.2.2.2.1 5 4 (imaged (image .preempt)) (image .preempt) rfl).2 _ rfl (by decide +kernel)
    (fun u hu hp => by
      have : u = image .preempt := by simpa [imaged] using hu
      subst this; exact absurd hp (by decide)) rfl⟩
theorem met_SchedulerEvents_reset (h : Obligations.SchedulerEvents) : ∃ t, exec (.coreReset 0 0) (only regs) = .next t :=
  ⟨_, h.2.2.2.2.2.2.2.2.2.2.2.1 0 (only regs) (by decide) rfl⟩
def resetReq : ResetReq := { core := 0, ctx := 0, tid := 1, seq := 1, region := own, ctrVa := 0x20000000 }
theorem met_SchedulerEvents_creset (h : Obligations.SchedulerEvents) :
    ∃ t, exec (.coreReset 0 1) { only regs with resets := [resetReq] } = .next t :=
  ⟨_, h.2.2.2.2.2.2.2.2.2.2.2.2 0 0 { only regs with resets := [resetReq] } resetReq rfl rfl rfl⟩
def jobCmd (form : Nat) (r : List Byte) : Cmd :=
  { form := form
    ctx := 0
    tid := 1
    seq := 1
    region := own
    cmdRec := r
    bits := bits
    ctrVa := 0x20000000
    amount := 1
    interval := 0
    recorded := 1 }
/-- A record of one row of four bytes from 0x1000 to 0x2000, with an index list at 0x1000 and BF16 on both sides. -/
def rowRec : List Byte := rawBytes [(1, 0x10), (9, 0x20), (0x10, 4), (0x14, 1), (0x28, 2), (0x29, 2), (0x31, 0x10)] 0 64
def rowCmd (form : Nat) : Cmd := jobCmd form rowRec
def rowWriter : Writer := ⟨1, 0, 0, none⟩
/-- An index that names no row. -/
def noRow : State := mapped regs [(0x1000, 0xFF), (0x1001, 0xFF), (0x1002, 0xFF), (0x1003, 0xFF)]
theorem met_EngineEvents_rowCopy (h : Obligations.EngineEvents) :
    ∃ u, execRow (rowCmd 0x13) (rowCmd 0x13).view rowWriter (mapped regs []) 0 = .ok u :=
  ⟨_, (h.2.1 (rowCmd 0x13) _ rowWriter 0 (mapped regs [])).1 rfl _ _ (okPair ([], State.reset) (by decide +kernel)) (by decide +kernel) _
    (okOne State.reset (by decide +kernel))⟩
theorem met_EngineEvents_rowGather (h : Obligations.EngineEvents) :
    ∃ u, execRow (rowCmd 0x14) (rowCmd 0x14).view rowWriter (mapped regs []) 0 = .ok u :=
  ⟨_, ((h.2.1 (rowCmd 0x14) _ rowWriter 0 (mapped regs [])).2.1 (.inl rfl) _ _ (okPair ([], State.reset) (by decide +kernel))).2.1
    (by decide +kernel) rfl _ _ (okPair ([], State.reset) (by decide +kernel)) (by decide +kernel) _ (okOne State.reset (by decide +kernel))⟩
theorem met_EngineEvents_rowScatter (h : Obligations.EngineEvents) :
    ∃ u, execRow (rowCmd 0x15) (rowCmd 0x15).view rowWriter (mapped regs []) 0 = .ok u :=
  ⟨_, ((h.2.1 (rowCmd 0x15) _ rowWriter 0 (mapped regs [])).2.1 (.inr rfl) _ _ (okPair ([], State.reset) (by decide +kernel))).2.2
    (by decide +kernel) rfl _ _ (okPair ([], State.reset) (by decide +kernel)) (by decide +kernel) _ (okOne State.reset (by decide +kernel))⟩
theorem met_EngineEvents_rowSkipped (h : Obligations.EngineEvents) :
    ∃ u, execRow (rowCmd 0x15) (rowCmd 0x15).view rowWriter noRow 0 = .ok u :=
  ⟨_, ((h.2.1 (rowCmd 0x15) _ rowWriter 0 noRow).2.1 (.inr rfl) _ _ (okPair ([], State.reset) (by decide +kernel))).1 (by decide +kernel)⟩
theorem met_EngineEvents_rowFill (h : Obligations.EngineEvents) :
    ∃ u, execRow (rowCmd 0x16) (rowCmd 0x16).view rowWriter (mapped regs []) 0 = .ok u :=
  ⟨_, (h.2.1 (rowCmd 0x16) _ rowWriter 0 (mapped regs [])).2.2.1 rfl _ (heldOne .bf16 (by decide +kernel)) (by decide +kernel) _
    (okOne State.reset (by decide +kernel))⟩
theorem met_EngineEvents_rowConvert (h : Obligations.EngineEvents) :
    ∃ u, execRow (rowCmd 0x17) (rowCmd 0x17).view rowWriter (mapped regs []) 0 = .ok u :=
  ⟨_, (h.2.1 (rowCmd 0x17) _ rowWriter 0 (mapped regs [])).2.2.2 rfl _ _ _ _ (heldOne .bf16 (by decide +kernel))
    (heldOne .bf16 (by decide +kernel)) (okPair ([], State.reset) (by decide +kernel)) (by decide +kernel) _ (okOne State.reset (by decide +kernel))⟩
theorem met_EngineEvents_spans (h : Obligations.EngineEvents) :
    byteAt (writeSpans (mapped regs []) rowWriter [⟨0x2000, 0x2000, 2, false⟩] [7, 8]) 0x2001 = 8 :=
  (h.2.2.1 (mapped regs []) rowWriter [⟨0x2000, 0x2000, 2, false⟩] [7, 8] (by decide +kernel)).1 rfl 0x2001
/-- A copy engine with this command, of a task whose posted accesses are given. -/
def copying (form : Nat) (r : List Byte) (l : List Posted) : State :=
  { mapped { regs with posted := l } [] with clusters := [(0, { copy0 := { cur := some (jobCmd form r) } })] }
theorem met_EngineEvents_idle (h : Obligations.EngineEvents) : exec (.engineCommandComplete (.gs 0)) (mapped regs []) = .next (mapped regs []) :=
  (h.2.2.2.1 (.gs 0) (mapped regs []) ⟨0, .inr (.inr rfl)⟩).1 rfl
theorem met_EngineEvents_notReady (h : Obligations.EngineEvents) :
    exec (.engineCommandComplete (.copy0 0)) (copying 0x13 rowRec [{ storeOf with seq := 0 }]) =
      .next (copying 0x13 rowRec [{ storeOf with seq := 0 }]) :=
  ((h.2.2.2.1 (.copy0 0) (copying 0x13 rowRec [{ storeOf with seq := 0 }]) ⟨0, .inl rfl⟩).2 _ rfl).1 (by decide +kernel)
def copied1 : State := was State.reset (execRow (rowCmd 0x13) (rowCmd 0x13).view
  ((rowCmd 0x13).writer (copying 0x13 rowRec []) (.copy0 0)) (copying 0x13 rowRec []) 0)
theorem met_EngineEvents_completes (h : Obligations.EngineEvents) :
    ∃ t, exec (.engineCommandComplete (.copy0 0)) (copying 0x13 rowRec []) = .next t :=
  ⟨_, (((h.2.2.2.1 (.copy0 0) (copying 0x13 rowRec []) ⟨0, .inl rfl⟩).2 _ rfl).2 (by decide +kernel) 1
    (fun i => if i = 0 then copying 0x13 rowRec [] else copied1) rfl
    (fun i hi => by obtain rfl : i = 0 := by omega
                    exact okOne State.reset (by decide +kernel))).1 (by decide +kernel) _ (okOne State.reset (by decide +kernel))⟩
/-- The same row into a shard of which its member has released. -/
def shardHeld : State := { copying 0x13 rowRec [] with
  dies := [(0, { tlb := leaves, placed := [(0, { dtd 0 with record := rawBytes [(0x21, 0x20), (0x29, 1)] 0 128, st := 1, released := true })] })] }
theorem met_EngineEvents_rowHeld (h : Obligations.EngineEvents) :
    exec (.engineCommandComplete (.copy0 0)) shardHeld = .next shardHeld :=
  ((((h.2.2.2.1 (.copy0 0) shardHeld ⟨0, .inl rfl⟩).2 _ rfl).2 (by decide +kernel) 0 (fun _ => shardHeld) rfl
    (fun i hi => absurd hi (by omega))).2 (by decide +kernel)).1 (by rfl)
/-- The fault that ends a row, if one does. -/
def faultIn (e : Except RowStop State) : Option (BitVec 8 × Word) := match e with | .error (.fault c a) => some (c, a) | _ => none
theorem faultOnly {e : Except RowStop State} (h : (faultIn e).isSome = true) :
    e = .error (.fault (held (0, 0) (faultIn e)).1 (held (0, 0) (faultIn e)).2) := by
  match e, h with
  | .error (.fault c a), _ => rfl
/-- The same row from an address that no page maps. -/
def farRec : List Byte := rawBytes [(4, 1), (9, 0x20), (0x10, 4), (0x14, 1)] 0 64
theorem met_EngineEvents_rowFault (h : Obligations.EngineEvents) :
    ∃ t, exec (.engineCommandComplete (.copy0 0)) (copying 0x13 farRec []) = .next t := by
  have hr := faultOnly (e := execRow (jobCmd 0x13 farRec) (jobCmd 0x13 farRec).view
    ((jobCmd 0x13 farRec).writer (copying 0x13 farRec []) (.copy0 0)) (copying 0x13 farRec []) 0) (by decide +kernel)
  exact ⟨_, ((((h.2.2.2.1 (.copy0 0) (copying 0x13 farRec []) ⟨0, .inl rfl⟩).2 _ rfl).2 (by decide +kernel) 0
    (fun _ => copying 0x13 farRec []) rfl (fun i hi => absurd hi (by omega))).2 (by decide +kernel)).2 _ _ _ hr
    (okOne State.reset (by decide +kernel))⟩
/-- A loader with a command for core 0 of its die and an image whose first byte is given. -/
def loadRec : List Byte := rawBytes [(1, 0x10), (8, 1)] 0 64
def loading1 (b : Byte) : State := { mapped regs [(0x1000, b)] with dies := [(0, { tlb := leaves, loader := { cur := some (jobCmd 0x19 loadRec) } })] }
theorem met_EngineEvents_loads (h : Obligations.EngineEvents) : ∃ t, exec (.configLoaderLoad 0) (loading1 1) = .next t :=
  ⟨_, ((h.2.2.2.2.2.1 0 _ (loading1 1) _ _ _ _ rfl rfl (by decide +kernel) (by decide +kernel) (okPair ([], State.reset) (by decide +kernel))
    (by decide +kernel)).1 _ (heldOne {} (by decide +kernel)) Prod.mk.eta.symm)⟩
theorem met_EngineEvents_loadBroken (h : Obligations.EngineEvents) : ∃ t, exec (.configLoaderLoad 0) (loading1 2) = .next t :=
  ⟨_, ((h.2.2.2.2.2.1 0 _ (loading1 2) _ _ _ _ rfl rfl (by decide +kernel) (by decide +kernel) (okPair ([], State.reset) (by decide +kernel))
    (by decide +kernel)).2 (by decide +kernel) Prod.mk.eta.symm)⟩
def flipping (p : Plane) : State := { State.reset with cores := [(0, { swapLock := true, shadow := p })] }
theorem met_EngineEvents_flip (h : Obligations.EngineEvents) : ∃ t, exec (.planeFlip 0) (flipping { cond := .loaded }) = .next t :=
  ⟨_, (h.2.2.2.2.2.2.1 0 (flipping { cond := .loaded }) (.inl rfl) (by decide +kernel) (by decide +kernel)).1 rfl⟩
theorem met_EngineEvents_emptyFlip (h : Obligations.EngineEvents) : ∃ t, exec (.planeFlip 0) (flipping {}) = .next t :=
  ⟨_, (h.2.2.2.2.2.2.1 0 (flipping {}) (.inl rfl) (by decide +kernel) (by decide +kernel)).2 rfl rfl⟩
def shadowed : State := { State.reset with cores := [(0, { shadow := { cond := .loaded } })] }
theorem met_EngineEvents_management (h : Obligations.EngineEvents) : ∃ t, exec (.managementFlip 0) shadowed = .next t :=
  ⟨_, h.2.2.2.2.2.2.2.1 0 shadowed (by decide) rfl rfl rfl rfl rfl⟩
def booted : State := { mapped regs [] with bootStage := 4 }
theorem met_EngineEvents_eplane (h : Obligations.EngineEvents) :
    ∃ t, exec (.managementEplane 0 0x1000 0x20000000 1) booted = .next t :=
  ⟨_, h.2.2.2.2.2.2.2.2.1 0 0x1000 0x20000000 1 _ booted _ _ _ (by decide) (by decide) (by decide) (by decide) (by decide)
    (okPair ([], State.reset) (by decide +kernel)) (by decide +kernel) (by decide +kernel) (by decide +kernel) (okPair (0, State.reset) (by decide +kernel))⟩
def q4 : Seq := { q5 with st := 4 }
def job (form : Nat) : KvJob := { cmd := jobCmd form [], id := 2, old := 4, new := 1024, page := 0 }
def compacting : State := { Q q4 [] with kvJobs := [job 0x28] }
theorem compactRows_free {r : Option (Nat × RowStop)} (h : (match r with | some (_, .held) => true | _ => false) = false) :
    ∀ n, r ≠ some (n, .held) := by
  rintro n rfl; cases h
theorem heldRow {r : Option (Nat × RowStop)} (h : (match r with | some (_, .held) => true | _ => false) = true) : ∃ n, r = some (n, .held) := by
  match r, h with
  | some (n, .held), _ => exact ⟨n, rfl⟩
theorem met_EngineEvents_compact (h : Obligations.EngineEvents) : ∃ t, exec (.kvcompactCopyDone 2) compacting = .next t :=
  ⟨_, ((h.2.2.2.2.2.2.2.2.2.1 2 compacting (job 0x28) q4 rfl rfl).2.1 _ _ rfl (by decide +kernel) Prod.mk.eta.symm).2 (compactRows_free (by decide +kernel))⟩
/-- A compaction of one row into a frame that such a shard covers. -/
def compactHeld : State := { Q q4 [] with
  kvJobs := [{ job 0x28 with path := [0] }]
  geom := { geom with pool := [0x10000000] }
  dies := (List.range 8).map (fun d => (d, { tlb := leaves, placed := [(0, { dtd 0 with
    record := rawBytes [(0x23, 0x10), (0x2B, 1)] 0 128, st := 1, released := true })] })) }
theorem met_EngineEvents_compactHeld (h : Obligations.EngineEvents) : exec (.kvcompactCopyDone 2) compactHeld = .next compactHeld :=
  ((h.2.2.2.2.2.2.2.2.2.1 2 compactHeld { job 0x28 with path := [0] } q4 rfl rfl).2.1 _ _ rfl (by decide +kernel) Prod.mk.eta.symm).1
    (heldRow (by decide +kernel))
def compacted (bad : Bool) : State := { Q q4 [] with kvJobs := [{ job 0x28 with copied := some bad }] }
theorem met_EngineEvents_compactEnds (h : Obligations.EngineEvents) : ∃ t, exec (.kvcompactCopyDone 2) (compacted true) = .next t :=
  ⟨_, (h.2.2.2.2.2.2.2.2.2.1 2 (compacted true) { job 0x28 with copied := some true } q4 rfl rfl).2.2 true rfl⟩
def requanting (layers : Nat) (ext : List Extent) : State :=
  { Q { q0 with extents := ext } [] with kvJobs := [job 0x29], geom := { geom with layers := layers } }
def ext0 : List Extent := [{ base := 4, len := 1, reserve := 0, stride := 1 }]
theorem met_EngineEvents_requantFault (h : Obligations.EngineEvents) : ∃ t, exec (.kvrequantSwitch 0) (requanting 1 ext0) = .next t :=
  ⟨_, (h.2.2.2.2.2.2.2.2.2.2.1 0 (requanting 1 ext0) _ (job 0x29) { q0 with extents := ext0 } _ _ _ rfl rfl rfl rfl rfl rfl (by decide +kernel)
    Prod.mk.eta.symm (compactRows_free (by decide +kernel)) _ rfl).1 _ (heldOne (0, 0, 0) (by decide +kernel))⟩
theorem met_EngineEvents_requant (h : Obligations.EngineEvents) : ∃ t, exec (.kvrequantSwitch 0) (requanting 0 ext0) = .next t :=
  ⟨_, (h.2.2.2.2.2.2.2.2.2.2.1 0 (requanting 0 ext0) _ (job 0x29) { q0 with extents := ext0 } _ _ _ rfl rfl rfl rfl rfl rfl (by decide +kernel)
    Prod.mk.eta.symm (compactRows_free (by decide +kernel)) _ rfl).2.1 _ (by decide +kernel) (heldOne State.reset (by decide +kernel))⟩
def ext16 : List Extent := { base := 3, len := 3, reserve := 0, stride := 1 } ::
  (List.range 15).map (fun i => { base := 10 + 2 * i, len := 1, reserve := 0, stride := 1 })
def splitting : State := { requanting 0 ext16 with kvJobs := [{ job 0x29 with page := 1 }] }
theorem met_EngineEvents_requantFull (h : Obligations.EngineEvents) : ∃ t, exec (.kvrequantSwitch 0) splitting = .next t :=
  ⟨_, (h.2.2.2.2.2.2.2.2.2.2.1 0 splitting _ { job 0x29 with page := 1 } { q0 with extents := ext16 } _ _ _ rfl rfl rfl rfl rfl rfl (by decide +kernel)
    Prod.mk.eta.symm (compactRows_free (by decide +kernel)) _ rfl).2.2 (by decide +kernel) (by decide +kernel)⟩
def followed (q : Seq) (inbox : List FollowMsg) : State := Q { q with follower := true, inbox := inbox } []
theorem met_EngineEvents_accept (h : Obligations.EngineEvents) :
    ∃ t, exec (.followerApply 2 (.accept 3 [0] 9 8)) (followed q2 []) = .next t :=
  ⟨_, ((((h.2.2.2.2.2.2.2.2.2.2.2.1 2 (followed q2 []) { q2 with follower := true } _ rfl rfl).2 rfl).1 3 [0] 9 8 rfl).1 (.inr (.inl rfl)))⟩
theorem met_EngineEvents_commit (h : Obligations.EngineEvents) :
    ∃ t, exec (.followerApply 2 (.commit 1 false)) (followed q5 []) = .next t :=
  ⟨_, ((((h.2.2.2.2.2.2.2.2.2.2.2.1 2 (followed q5 []) { q5 with follower := true } _ rfl rfl).2 rfl).2.1 1 false rfl).1 _ rfl rfl)⟩
theorem met_EngineEvents_direct (h : Obligations.EngineEvents) :
    ∃ t, exec (.followerApply 2 (.commitDirect 1 (some 9) false)) (followed q1 []) = .next t :=
  ⟨_, ((((h.2.2.2.2.2.2.2.2.2.2.2.1 2 (followed q1 []) { q1 with follower := true } _ rfl rfl).2 rfl).2.2 1 (some 9) false rfl).1 rfl)⟩
theorem met_EngineEvents_waits (h : Obligations.EngineEvents) :
    ∃ t, exec (.followerApply 2 (.accept 3 [0] 9 8)) (followed q1 [.commit 1 false]) = .next t :=
  ⟨_, (h.2.2.2.2.2.2.2.2.2.2.2.1 2 (followed q1 [.commit 1 false]) { q1 with follower := true, inbox := [.commit 1 false] } _ rfl rfl).1
    nofun (by decide +kernel)⟩
def delivery : Delivery := ⟨2, 0, 9, 7, .commit 0 false⟩
def delivering : State := { Q q0 [] with deliveries := [delivery] }
theorem met_EngineEvents_ack (h : Obligations.EngineEvents) : ∃ t, exec (.rdmaAcknowledgement 2) delivering = .next t :=
  ⟨_, (h.2.2.2.2.2.2.2.2.2.2.2.2.1 2 delivering q0 delivery [] rfl rfl).1⟩
theorem met_EngineEvents_failure (h : Obligations.EngineEvents) : ∃ t, exec (.deliveryFailure 2) delivering = .next t :=
  ⟨_, (h.2.2.2.2.2.2.2.2.2.2.2.2.1 2 delivering q0 delivery [] rfl rfl).2⟩
def collCmd : Cmd := jobCmd 0x17 (3 :: List.replicate 63 0)
def collecting (phase : Nat) (seen : List (Word × Nat)) : State :=
  { only worker with dies := [(0, { mesh := twoDies, collective := { cur := some collCmd }, collPhase := phase, collArrived := seen })] }
theorem met_EngineEvents_collTell (h : Obligations.EngineEvents) : ∃ t, exec (.ecollMatch 0) (collecting 0 []) = .next t :=
  ⟨_, (h.2.2.2.2.2.2.2.2.2.2.2.2.2 0 0 (collecting 0 []) collCmd [0, 1] rfl (by decide +kernel) (by decide) rfl).1 rfl⟩
theorem met_EngineEvents_collGive (h : Obligations.EngineEvents) : ∃ t, exec (.ecollMatch 0) (collecting 1 [(0, 0), (0, 1)]) = .next t :=
  ⟨_, (h.2.2.2.2.2.2.2.2.2.2.2.2.2 0 0 (collecting 1 [(0, 0), (0, 1)]) collCmd [0, 1] rfl (by decide +kernel) (by decide) rfl).2 rfl
    (by decide)⟩
/-- A packet from die 0 of package 1 to die 0 of package 0. -/
def packet (op : BitVec 8) (aux : BitVec 8) (target flag : Word) (data : List Byte) : Packet :=
  { jobKey := 0
    asid := 0
    op := op
    flits := 2
    target := target
    flag := flag
    seq := 4
    srcPkg := 1
    srcDie := 0
    dstPkg := 0
    dstDie := 0
    aux := aux
    srcCtx := 3
    data := data }
def admitted : Member := { valid := true, nat := true, comb := true }
def mesh2 : Mesh := { axes := 1, sizes := [2, 1, 1, 1], members := [0x100, 0x101] }
def armedEntry : Comb := { armed := true, size := 256, expected := 2 }
def fabric (m : Map Member) (placed : List (Nat × Placed)) : State :=
  { only regs with
    pkg := 0
    packages := [0, 1]
    dies := [(0, { tlb := leaves, members := m, mesh := mesh2, comb := [(1, armedEntry)], placed := placed })] }
def inside : State := fabric [(0, admitted)] []
theorem met_PacketEvents_nld (h : Obligations.PacketEvents) :
    ∃ t, exec (.nldRequest 0 (packet 1 2 0x1000 0 [])) inside = .next t :=
  ⟨_, ((h.1 0 (packet 1 2 0x1000 0 []) inside none admitted (by decide +kernel) rfl).1 rfl).1 _ _ _ _ (okPair ([], State.reset) (by decide +kernel)) Prod.mk.eta.symm⟩
theorem met_PacketEvents_nldFault (h : Obligations.PacketEvents) :
    ∃ t, exec (.nldRequest 0 (packet 1 2 0x80000000 0 [])) inside = .next t :=
  ⟨_, ((h.1 0 (packet 1 2 0x80000000 0 []) inside none admitted (by decide +kernel) rfl).1 rfl).2 _ _ (failPair (0, 0) (by decide +kernel))⟩
theorem met_PacketEvents_store (h : Obligations.PacketEvents) :
    ∃ t, exec (.storePacket 0 (packet 2 0 0x1000 0 [7, 8])) inside = .next t :=
  ⟨_, (((h.1 0 (packet 2 0 0x1000 0 [7, 8]) inside none admitted (by decide +kernel) rfl).2.1 rfl _ _ rfl).2 (by decide +kernel)).2 _ (okOne State.reset (by decide +kernel)) |>.1 rfl⟩
theorem met_PacketEvents_storeFault (h : Obligations.PacketEvents) :
    ∃ t, exec (.storePacket 0 (packet 2 0 0x80000000 0 [7, 8])) inside = .next t :=
  ⟨_, (((h.1 0 (packet 2 0 0x80000000 0 [7, 8]) inside none admitted (by decide +kernel) rfl).2.1 rfl _ _ rfl).2 (by decide +kernel)).1 _ _ (failPair (0, 0) (by decide +kernel))⟩
theorem met_PacketEvents_flag (h : Obligations.PacketEvents) :
    ∃ t, exec (.storePacket 0 (packet 2 1 0x1000 0x20000000 [7, 8])) inside = .next t :=
  ⟨_, ((((h.1 0 (packet 2 1 0x1000 0x20000000 [7, 8]) inside none admitted (by decide +kernel) rfl).2.1 rfl _ _ rfl).2 (by decide +kernel)).2 _ (okOne State.reset (by decide +kernel)) |>.2 (by decide)).1
    _ (okOne State.reset (by decide +kernel))⟩
theorem met_PacketEvents_badFlag (h : Obligations.PacketEvents) :
    ∃ t, exec (.storePacket 0 (packet 2 1 0x1000 0x1000 [7, 8])) inside = .next t :=
  ⟨_, ((((h.1 0 (packet 2 1 0x1000 0x1000 [7, 8]) inside none admitted (by decide +kernel) rfl).2.1 rfl _ _ rfl).2 (by decide +kernel)).2 _ (okOne State.reset (by decide +kernel)) |>.2 (by decide)).2
    _ _ (failPair (0, 0) (by decide +kernel))⟩
def releasing : State := fabric [(0, admitted)] [(0, { dtd 0 with st := 1, released := true, region := own })]
theorem met_PacketEvents_held (h : Obligations.PacketEvents) :
    ∃ t, exec (.storePacket 0 (packet 2 0 0x10000 0 [7, 8])) releasing = .next t :=
  ⟨_, ((h.1 0 (packet 2 0 0x10000 0 [7, 8]) releasing none admitted (by decide +kernel) rfl).2.1 rfl _ _ rfl).1 (by decide +kernel)⟩
def natData : List Byte := [7, 0, 0, 0, 0, 0, 0, 0, 0, 0, 0, 0, 0, 0, 0, 0, 0xA]
theorem met_PacketEvents_nat (h : Obligations.PacketEvents) :
    ∃ t, exec (.natPacket 0 (packet 3 0 0x1000 0 natData)) inside = .next t :=
  ⟨_, ((((h.1 0 (packet 3 0 0x1000 0 natData) inside none admitted (by decide +kernel) rfl).2.2.1 rfl _ _ rfl rfl).2 (by decide +kernel)).2 _ _ _
    (okOne (0, false, State.reset) (by decide +kernel))).2 (by decide +kernel)⟩
theorem met_PacketEvents_natHeld (h : Obligations.PacketEvents) :
    ∃ t, exec (.natPacket 0 (packet 3 0 0x10000 0 natData)) releasing = .next t :=
  ⟨_, ((h.1 0 (packet 3 0 0x10000 0 natData) releasing none admitted (by decide +kernel) rfl).2.2.1 rfl _ _ rfl rfl).1 (by decide +kernel)⟩
theorem met_PacketEvents_natUnknown (h : Obligations.PacketEvents) :
    ∃ t, exec (.natPacket 0 (packet 3 15 0x1000 0 [])) inside = .next t :=
  ⟨_, (h.1 0 (packet 3 15 0x1000 0 []) inside none admitted (by decide +kernel) rfl).2.2.2.1 rfl (.inl (by decide +kernel))⟩
def contribution (flag : Word) : Packet := packet 4 0 0 flag (List.replicate 256 1)
theorem met_PacketEvents_piece (h : Obligations.PacketEvents) : ∃ t, exec (.contributionPiece 0 (contribution 1)) inside = .next t :=
  ⟨_, ((h.1 0 (contribution 1) inside none admitted (by decide +kernel) rfl).2.2.2.2.2.1 (.inl rfl) rfl).2.2.2.2.2 1 (by decide +kernel)⟩
theorem met_PacketEvents_reserved (h : Obligations.PacketEvents) : ∃ t, exec (.contributionPiece 0 (contribution 56)) inside = .next t :=
  ⟨_, ((h.1 0 (contribution 56) inside none admitted (by decide +kernel) rfl).2.2.2.2.2.1 (.inl rfl) rfl).1 (by decide +kernel)⟩
theorem met_PacketEvents_unarmed (h : Obligations.PacketEvents) : ∃ t, exec (.contributionPiece 0 (contribution 2)) inside = .next t :=
  ⟨_, ((h.1 0 (contribution 2) inside none admitted (by decide +kernel) rfl).2.2.2.2.2.1 (.inl rfl) rfl).2.2.1 (by decide +kernel)⟩
theorem met_PacketEvents_noComb (h : Obligations.PacketEvents) :
    ∃ t, exec (.contributionPiece 0 (contribution 1)) (fabric [(0, { admitted with comb := false })] []) = .next t :=
  ⟨_, (h.1 0 (contribution 1) (fabric [(0, { admitted with comb := false })] []) none { admitted with comb := false } (by decide +kernel)
    rfl).2.2.2.2.1 (.inl rfl) rfl⟩
theorem met_PacketEvents_arrived (h : Obligations.PacketEvents) :
    ∃ t, exec (.collectiveTransfer 0 (packet 6 0 0x1000 16 [])) inside = .next t :=
  ⟨_, ((h.1 0 (packet 6 0 0x1000 16 []) inside none admitted (by decide +kernel) rfl).2.2.2.2.2.2 rfl 1 (by decide +kernel)).1 (by decide)⟩
theorem met_PacketEvents_input (h : Obligations.PacketEvents) :
    ∃ t, exec (.collectiveTransfer 0 (packet 6 0 0x1000 17 [])) inside = .next t :=
  ⟨_, ((h.1 0 (packet 6 0 0x1000 17 []) inside none admitted (by decide +kernel) rfl).2.2.2.2.2.2 rfl 1 (by decide +kernel)).2.1 (by decide)⟩
theorem met_PacketEvents_badInput (h : Obligations.PacketEvents) :
    ∃ t, exec (.collectiveTransfer 0 (packet 6 0 0x1000 18 [])) inside = .next t :=
  ⟨_, ((h.1 0 (packet 6 0 0x1000 18 []) inside none admitted (by decide +kernel) rfl).2.2.2.2.2.2 rfl 1 (by decide +kernel)).2.2.1 (by decide)⟩
def stable : State := fabric [(0, admitted)] [(0, dtd 0)]
theorem met_PacketEvents_placement (h : Obligations.PacketEvents) :
    ∃ t, exec (.collectiveTransfer 0 (packet 6 0 0x1000 2 [])) stable = .next t :=
  ⟨_, ((h.1 0 (packet 6 0 0x1000 2 []) stable none admitted (by decide +kernel) rfl).2.2.2.2.2.2 rfl 1 (by decide +kernel)).2.2.2 (by decide) (by decide) (by decide)⟩
theorem met_PacketEvents_dropped (h : Obligations.PacketEvents) :
    ∃ t, exec (.nldRequest 0 (packet 1 2 0x1000 0 [])) (fabric [] []) = .next t :=
  ⟨_, (h.2.1 0 (packet 1 2 0x1000 0 []) (fabric [] []) none (by decide +kernel) rfl).1 rfl⟩
/-- The die has answered this packet already. -/
def seen : State :=
  { inside with dies := [(0, { rxWindow := [⟨streamKey 1 0, packet 1 2 0x1000 0 [], packet 8 0 0x1000 0 [7]⟩] })] }
theorem met_PacketEvents_again (h : Obligations.PacketEvents) :
    ∃ t, exec (.nldRequest 0 (packet 1 2 0x1000 0 [])) seen = .next t :=
  ⟨_, (h.2.2.1 0 (packet 1 2 0x1000 0 []) (packet 8 0 0x1000 0 [7]) seen (by decide +kernel)).1 rfl⟩
def sent : Remote := { pkt := { packet 1 2 0x1000 0 [] with srcPkg := 0, dstPkg := 1 }, ctx := 0, tid := 1, cseq := 1, region := own, va := 0x1000 }
def awaitingAck : State := { only regs with pkg := 0, packages := [0, 1], dies := [(0, { remotes := [sent], bundles := [(1, { txKey := 1 })] })] }
theorem met_PacketEvents_response (h : Obligations.PacketEvents) :
    ∃ t, exec (.response 0 (packet 8 0 0x1000 0 [])) awaitingAck = .next t :=
  ⟨_, (h.2.2.2.1 0 (packet 8 0 0x1000 0 []) awaitingAck sent (by decide +kernel)).1 rfl⟩
theorem met_PacketEvents_nak (h : Obligations.PacketEvents) :
    ∃ t, exec (.negativeAcknowledgement 0 (packet 10 5 0x1000 0 [])) awaitingAck = .next t :=
  ⟨_, (h.2.2.2.1 0 (packet 10 5 0x1000 0 []) awaitingAck sent (by decide +kernel)).2 rfl⟩
theorem met_PacketEvents_ack (h : Obligations.PacketEvents) :
    ∃ t, exec (.acknowledgement 0 (packet 9 0 0 0 [])) awaitingAck = .next t :=
  ⟨_, h.2.2.2.2.1 0 (packet 9 0 0 0 []) awaitingAck sent rfl rfl (by decide) (by decide +kernel)⟩
theorem met_PacketEvents_range (h : Obligations.PacketEvents) :
    ∃ t, exec (.acknowledgement 0 (packet 9 3 0 0 [])) awaitingAck = .next t :=
  ⟨_, h.2.2.2.2.2 0 (packet 9 3 0 0 []) awaitingAck rfl (by decide) 3 rfl⟩
def group (ok : Bool) : FlitGroup := { srcPkg := 1, num := 5, tagOk := ok, packets := [packet 2 0 0x1000 0 [7]] }
def linked (b : Bundle) : State := { only regs with pkg := 0, packages := [0, 1], dies := [(0, { bundles := [(1, b)] })] }
def keyed (next fails : Nat) : State := linked { rxKey := 1, rxNext := next, rxFails := fails }
theorem met_LinkAndHostEvents_group (h : Obligations.LinkAndHostEvents) :
    ∃ t, exec (.linkGroupReceive 0 (group true)) (keyed 5 0) = .next t :=
  ⟨_, (h.1 0 (group true) (keyed 5 0) (by decide +kernel) (by decide +kernel) (by decide) (by decide)).2.1 (by decide +kernel) rfl⟩
theorem met_LinkAndHostEvents_otherNumber (h : Obligations.LinkAndHostEvents) :
    exec (.linkGroupReceive 0 (group true)) (keyed 6 0) = .next (keyed 6 0) :=
  (h.1 0 (group true) (keyed 6 0) (by decide +kernel) (by decide +kernel) (by decide) (by decide)).1 (by decide +kernel)
theorem met_LinkAndHostEvents_tag (h : Obligations.LinkAndHostEvents) :
    ∃ t, exec (.linkGroupReceive 0 (group false)) (keyed 5 1) = .next t :=
  ⟨_, ((h.1 0 (group false) (keyed 5 1) (by decide +kernel) (by decide +kernel) (by decide) (by decide)).2.2 (by decide +kernel) rfl _ rfl).1 (by decide +kernel)⟩
theorem met_LinkAndHostEvents_tag3 (h : Obligations.LinkAndHostEvents) :
    ∃ t, exec (.linkGroupReceive 0 (group false)) (keyed 5 2) = .next t :=
  ⟨_, ((h.1 0 (group false) (keyed 5 2) (by decide +kernel) (by decide +kernel) (by decide) (by decide)).2.2 (by decide +kernel) rfl _ rfl).2 (by decide +kernel)⟩
def late4 (n : Nat) : State :=
  { awaitingAck with dies := [(0, { remotes := [{ sent with resends := n }] })], dtimePs := packetTimer }
theorem met_LinkAndHostEvents_resend (h : Obligations.LinkAndHostEvents) : ∃ t, exec (.endToEndTimeout 0 0) (late4 6) = .next t :=
  ⟨_, (h.2.2.1 0 0 (late4 6) { sent with resends := 6 } rfl (by decide +kernel) (by decide +kernel)).1 (by decide)⟩
theorem met_LinkAndHostEvents_fail (h : Obligations.LinkAndHostEvents) : ∃ t, exec (.endToEndTimeout 0 0) (late4 7) = .next t :=
  ⟨_, (h.2.2.1 0 0 (late4 7) { sent with resends := 7 } rfl (by decide +kernel) (by decide +kernel)).2 (by decide)⟩
def entry (timed : Bool) : State :=
  { inside with dies := [(0, { tlb := leaves, mesh := mesh2, comb := [(1, { armedEntry with timed := timed, deadline := some 0 })] })] }
theorem met_LinkAndHostEvents_fold (h : Obligations.LinkAndHostEvents) : ∃ t, exec (.timedSlotFold 0 1) (entry true) = .next t :=
  ⟨_, (h.2.2.2.1 0 1 (entry true) rfl).1 rfl rfl⟩
theorem met_LinkAndHostEvents_timeout (h : Obligations.LinkAndHostEvents) : ∃ t, exec (.combinerTimeout 0 1) (entry false) = .next t :=
  ⟨_, (h.2.2.2.1 0 1 (entry false) rfl).2 0 rfl (by decide) (by decide +kernel)⟩
/-- A conversion of the die of rank 0, from replicated or partial to sharded on the first dimension or replicated. -/
def converting (code demand : Nat) : Placed := { dtd code with st := 2, demand := demand, cur := some (List.replicate 64 1) }
def full256 (r : Nat) : Nat × Nat × List Byte := (r, 0, List.replicate 256 1)
def conv (q : Placed) : State := { meshed [(0, q)] [] with pkg := 0, packages := [0, 1] }
/-- The step in progress. -/
def stepOf (q : Placed) : ConvStep := held ⟨0, [], []⟩ (q.steps twoDies)[q.step]?
def inp (q : Placed) (r k : Nat) : List Nat :=
  if k ∈ (stepOf q).needs twoDies (dtdShape q.record) r then (q.input twoDies q.step r k (stepOf q)).getD [] else []
def moving : Placed := { converting 0 4 with supplied := true, inputs := [full256 0] }
theorem met_LinkAndHostEvents_mismatch (h : Obligations.LinkAndHostEvents) :
    ∃ t, exec (.memberConversionFailed 0 0) (conv { moving with mismatch := true }) = .next t :=
  ⟨_, (h.2.2.2.2.1 0 0 (conv { moving with mismatch := true }) { moving with mismatch := true } 0 (stepOf moving) rfl (by decide +kernel) rfl
    (by decide +kernel)).1 rfl⟩
theorem met_LinkAndHostEvents_badInput (h : Obligations.LinkAndHostEvents) :
    ∃ t, exec (.memberConversionFailed 0 0) (conv { moving with badInputs := [0] }) = .next t :=
  ⟨_, (h.2.2.2.2.1 0 0 (conv { moving with badInputs := [0] }) { moving with badInputs := [0] } 0 (stepOf moving) rfl (by decide +kernel) rfl
    (by decide +kernel)).2.1 rfl rfl (by decide +kernel)⟩
/-- The same conversion on a die that was marked failed once its input had come. -/
def deadFirst : Mesh := { twoDies with members := [0x300, 0x120] }
def given : Placed := { moving with supplied := false }
def dead : State := { conv given with dies := [(0, { tlb := leaves, mesh := deadFirst, placed := [(0, given)] })] }
theorem met_LinkAndHostEvents_dead (h : Obligations.LinkAndHostEvents) : ∃ t, exec (.memberShardWrite 0 0) dead = .next t :=
  ⟨_, (h.2.2.2.2.1 0 0 dead given 0 (stepOf given) rfl (by decide +kernel) rfl (by decide +kernel)).2.2.1 rfl
    (by decide +kernel) rfl (by decide +kernel) rfl⟩
theorem met_LinkAndHostEvents_supplies (h : Obligations.LinkAndHostEvents) :
    ∃ t, exec (.memberShardWrite 0 0) (conv (converting 0 4)) = .next t :=
  ⟨_, ((h.2.2.2.2.1 0 0 (conv (converting 0 4)) (converting 0 4) 0 (stepOf (converting 0 4)) rfl (by decide +kernel) rfl (by decide +kernel)).2.2.2.1 rfl (by decide +kernel) rfl
    (by decide +kernel)).1 rfl⟩
theorem met_LinkAndHostEvents_waits (h : Obligations.LinkAndHostEvents) :
    ∃ t, exec (.memberShardWrite 0 0) (conv { moving with inputs := [] }) = .next t :=
  ⟨_, ((h.2.2.2.2.1 0 0 (conv { moving with inputs := [] }) { moving with inputs := [] } 0 (stepOf moving) rfl (by decide +kernel) rfl (by decide +kernel)).2.2.2.1
    rfl (by decide +kernel) rfl (by decide +kernel)).2.1 rfl ⟨0, (by decide +kernel), (by decide +kernel)⟩⟩
theorem met_LinkAndHostEvents_moves (h : Obligations.LinkAndHostEvents) : ∃ t, exec (.memberShardWrite 0 0) (conv moving) = .next t :=
  ⟨_, (((h.2.2.2.2.1 0 0 (conv moving) moving 0 (stepOf moving) rfl (by decide +kernel) rfl (by decide +kernel)).2.2.2.1 rfl (by decide +kernel) rfl (by decide +kernel)).2.2 (inp moving 0) rfl
    (by decide +kernel)).2.1 (by decide +kernel) (by decide +kernel) (fun k hk => if_neg hk)⟩
def folding : Placed := { converting 0x8000 0 with supplied := true, inputs := [full256 0, full256 1] }
theorem met_LinkAndHostEvents_folds (h : Obligations.LinkAndHostEvents) : ∃ t, exec (.memberShardWrite 0 0) (conv folding) = .next t :=
  ⟨_, (((h.2.2.2.2.1 0 0 (conv folding) folding 0 (stepOf folding) rfl (by decide +kernel) rfl (by decide +kernel)).2.2.2.1 rfl (by decide +kernel) rfl (by decide +kernel)).2.2 (inp folding 0) rfl
    (by decide +kernel)).2.2 (by decide +kernel) 56 (by decide +kernel)⟩
def folded : Placed := { folding with entry := some 56 }
theorem met_LinkAndHostEvents_multicasts (h : Obligations.LinkAndHostEvents) : ∃ t, exec (.memberShardWrite 0 0) (conv folded) = .next t :=
  ⟨_, (h.2.2.2.2.1 0 0 (conv folded) folded 0 (stepOf folded) rfl (by decide +kernel) rfl (by decide +kernel)).2.2.2.2 56 _ rfl (by decide +kernel) rfl rfl rfl⟩
/-- The same on die 1, of rank 1, which takes the fold of rank 0. -/
def listening : State := { conv folding with dies := [(1, { tlb := leaves, mesh := twoDies, placed := [(0, folding)] })] }
theorem met_LinkAndHostEvents_takesFold (h : Obligations.LinkAndHostEvents) : ∃ t, exec (.memberShardWrite 1 0) listening = .next t :=
  ⟨_, (((h.2.2.2.2.1 1 0 listening folding 1 (stepOf folding) rfl (by decide +kernel) rfl (by decide +kernel)).2.2.2.1 rfl (by decide +kernel) rfl (by decide +kernel)).2.2 (inp folding 1) rfl (by decide +kernel)).1
    (by decide +kernel) (by decide +kernel)⟩
theorem met_LinkAndHostEvents_slot (h : Obligations.LinkAndHostEvents) :
    ∃ t, exec (.ntsSlotBegins 0 0) { awaitingAck with dies := [(0, { heldNts := [(0, sent)], bundles := [(1, { txKey := 1 })] })] } = .next t :=
  ⟨_, h.2.2.2.2.2.1 0 0 0 { awaitingAck with dies := [(0, { heldNts := [(0, sent)], bundles := [(1, { txKey := 1 })] })] } sent rfl
    (by decide) (by decide +kernel)⟩
def unboundHost : State := { mapped regs [] with bootStage := 4 }
theorem met_LinkAndHostEvents_unbound (h : Obligations.LinkAndHostEvents) :
    ∃ t, exec (.hostRdmaRead 3 0x1000 4) unboundHost = .next t :=
  ⟨_, ((h.2.2.2.2.2.2 3 unboundHost rfl).2.1 rfl 0x1000 0 4 []).2.1⟩
/-- A queue pair that is bound, with a write of another still to be performed. -/
def bound : State :=
  { unboundHost with qps := [(3, {})], hostWrites := [⟨4, 0, [⟨0x2000, 0x2000, false, [1]⟩]⟩, ⟨3, 0, [⟨0x2001, 0x2001, false, [2]⟩]⟩] }
theorem met_LinkAndHostEvents_rdmaWrite (h : Obligations.LinkAndHostEvents) :
    ∃ t, exec (.hostRdmaWrite 3 0x1000 [7]) bound = .next t :=
  ⟨_, (((h.2.2.2.2.2.2 3 bound rfl).2.2 {} rfl).1 0x1000 [7]).1 _ _ (okPair ([], State.reset) (by decide +kernel)) (by decide)⟩
theorem met_LinkAndHostEvents_rdmaWriteEmpty (h : Obligations.LinkAndHostEvents) :
    ∃ t, exec (.hostRdmaWrite 3 0x1000 []) bound = .next t :=
  ⟨_, (((h.2.2.2.2.2.2 3 bound rfl).2.2 {} rfl).1 0x1000 []).2.1 _ _ (okPair ([], State.reset) (by decide +kernel)) rfl⟩
theorem met_LinkAndHostEvents_rdmaWriteNak (h : Obligations.LinkAndHostEvents) :
    ∃ t, exec (.hostRdmaWrite 3 0x60000000 [7]) bound = .next t :=
  ⟨_, (((h.2.2.2.2.2.2 3 bound rfl).2.2 {} rfl).1 0x60000000 [7]).2.2 _ (failPair (0, 0) (by decide +kernel))⟩
theorem met_LinkAndHostEvents_rdmaRead (h : Obligations.LinkAndHostEvents) :
    ∃ t, exec (.hostRdmaRead 3 0x1000 4) bound = .next t :=
  ⟨_, ((((h.2.2.2.2.2.2 3 bound rfl).2.2 {} rfl).2 _ rfl).1 0x1000 4).1 _ _ (okPair ([], State.reset) (by decide +kernel))⟩
theorem met_LinkAndHostEvents_rdmaReadNak (h : Obligations.LinkAndHostEvents) :
    ∃ t, exec (.hostRdmaRead 3 0x60000000 4) bound = .next t :=
  ⟨_, ((((h.2.2.2.2.2.2 3 bound rfl).2.2 {} rfl).2 _ rfl).1 0x60000000 4).2 _ (failPair (0, 0) (by decide +kernel))⟩
theorem met_LinkAndHostEvents_fetchAdd (h : Obligations.LinkAndHostEvents) :
    ∃ t, exec (.hostFetchAndAdd 3 0x20000000 4) bound = .next t :=
  ⟨_, ((((h.2.2.2.2.2.2 3 bound rfl).2.2 {} rfl).2 _ rfl).2 0x20000000 4).1 _ _ _ (okPair (0, State.reset) (by decide +kernel)) (okOne State.reset (by decide +kernel))⟩
def badCounter : State := { bound with bad := [(0x20000000, 9)] }
theorem met_LinkAndHostEvents_fetchAddBad (h : Obligations.LinkAndHostEvents) :
    ∃ t, exec (.hostFetchAndAdd 3 0x20000000 4) badCounter = .next t :=
  ⟨_, ((((h.2.2.2.2.2.2 3 badCounter rfl).2.2 {} rfl).2 _ rfl).2 0x20000000 4).2.1 _ _ (.bad 9) (okPair (0, State.reset) (by decide +kernel))
    (by exact failOne .overflow (by decide +kernel) (by decide +kernel))⟩
theorem met_LinkAndHostEvents_fetchAddNak (h : Obligations.LinkAndHostEvents) :
    ∃ t, exec (.hostFetchAndAdd 3 0x1000 4) bound = .next t :=
  ⟨_, ((((h.2.2.2.2.2.2 3 bound rfl).2.2 {} rfl).2 _ rfl).2 0x1000 4).2.2 _ (failPair (0, 0) (by decide +kernel))⟩
theorem met_ManagementEvents_division (h : Obligations.ManagementEvents) :
    ∃ t, exec (.vaultConfigWrite 63 8) State.reset = .next t :=
  ⟨_, h.2.1 63 8 State.reset (by decide) (by decide) rfl (by decide)⟩
def busy : State := { State.reset with clusters := [(63, { busy := true, target := 8 })] }
theorem met_ManagementEvents_change (h : Obligations.ManagementEvents) : ∃ t, exec (.divisionChangeComplete 63) busy = .next t :=
  ⟨_, h.2.2.1 63 busy rfl⟩
theorem met_ManagementEvents_reserve (h : Obligations.ManagementEvents) : ∃ t, exec (.reserveRegisterWrite 0 8) State.reset = .next t :=
  ⟨_, (h.2.2.2.1 0 8 State.reset (by decide) (by decide)).1 (by decide)⟩
def reserved : State := { State.reset with cores := [(0, { reserve := 8 })] }
theorem met_ManagementEvents_withdraw (h : Obligations.ManagementEvents) : ∃ t, exec (.reserveRegisterWrite 0 0) reserved = .next t :=
  ⟨_, (h.2.2.2.1 0 0 reserved (by decide) (by decide)).2 _ (by decide) rfl⟩
/-- Management has ordered the replacement of core 0. -/
def replaced : State := { State.reset with cores := [(0, { replace := true })] }
/-- A core with an arrived message and no bank for its handler while an image of its own offer stands there. -/
def offering : State :=
  { State.reset with
    ctxs := [(1, { run := .ready, vregs := 960 })]
    cores := [(0, { starts := [note], inboxUsed := [0] }), (1, { reserve := 8 })]
    saved := [{ image .preempt with place := .offer 0 false [1], region := { own with hbmSave := 0x8000, hbmSaveSize := 64 } }]
    dies := [(0, { tlb := leaves })] }
theorem met_ManagementEvents_offer (h : Obligations.ManagementEvents) : ∃ t, exec (.spillOfferWithdrawal 0 false) offering = .next t :=
  ⟨_, h.2.2.2.2.1 0 offering _ (by decide +kernel) (heldOne State.reset (by decide +kernel))⟩
theorem met_ManagementEvents_repairDue (h : Obligations.ManagementEvents) : repairDue replaced 0 = true :=
  (h.2.2.2.2.2.1 0 replaced).2 ⟨by decide, rfl, .inr (.inl rfl)⟩
theorem met_ManagementEvents_spare (h : Obligations.ManagementEvents) : ∃ t, exec (.spareSubstitution 0) replaced = .next t :=
  ⟨_, (h.2.2.2.2.2.2.1 0 replaced (by decide +kernel) rfl).2 _ (heldOne State.reset (by decide +kernel))⟩
/-- A suspect core that still has a store to perform. -/
def active (spare : Bool) : State :=
  { only { regs with posted := [storeOf] } with clusters := [(0, { spare := spare })], cores := [(0, { suspect := true })] }
theorem met_ManagementEvents_spareWaits (h : Obligations.ManagementEvents) : ∃ t, exec (.spareSubstitution 0) (active true) = .next t :=
  ⟨_, (h.2.2.2.2.2.2.1 0 (active true) (by decide +kernel) rfl).1 (by decide +kernel)⟩
theorem met_ManagementEvents_disableWaits (h : Obligations.ManagementEvents) : ∃ t, exec (.coreDisable 0) (active false) = .next t :=
  ⟨_, (h.2.2.2.2.2.2.2.1 0 (active false) (by decide +kernel) rfl).1 (by decide +kernel)⟩
def noSpare : State := { replaced with clusters := [(0, { spare := false })] }
theorem met_ManagementEvents_disable (h : Obligations.ManagementEvents) : ∃ t, exec (.coreDisable 0) noSpare = .next t :=
  ⟨_, (h.2.2.2.2.2.2.2.1 0 noSpare (by decide +kernel) rfl).2 _ _ _ (heldOne State.reset (by decide +kernel)) rfl rfl⟩
/-- One corrected error in a row is more than management allows. -/
def upNow : State := { State.reset with bootStage := 4 }
def worn : State := { upNow with thresholds := [(1, 1)], rowErrors := [(Config.rowOf 0x1000, 1)] }
theorem met_ManagementEvents_scrub (h : Obligations.ManagementEvents) : ∃ t, exec (.patrolScrub 0x1000 true) upNow = .next t :=
  ⟨_, ((h.2.2.2.2.2.2.2.2.1 0x1000 _ _ (upNow) (upNow) rfl (by decide) (by decide) (if_neg (by decide +kernel)).symm).2.1 rfl).2.2 (fun hd => hd.1 rfl)⟩
theorem met_ManagementEvents_patrols (h : Obligations.ManagementEvents) : ∃ t, exec (.patrolScrub (scrubPa 0) false) upNow = .next t :=
  ⟨_, ((h.2.2.2.2.2.2.2.2.1 (scrubPa 0) 0 0 upNow _ (by decide +kernel) (by decide) (by decide) (if_pos rfl).symm).2.1 rfl).1⟩
theorem met_ManagementEvents_scrubDue (h : Obligations.ManagementEvents) : ∃ t, exec (.patrolScrub 0x1000 true) worn = .next t :=
  ⟨_, ((h.2.2.2.2.2.2.2.2.1 0x1000 _ _ (worn) (worn) rfl (by decide) (by decide) (if_neg (by decide +kernel)).symm).2.1 rfl).2.1 ⟨by decide, by
    show 1 < Map.get 0 (Map.upd 0 [(Config.rowOf 0x1000, 1)] (Config.rowOf 0x1000) (· + 1)) (Config.rowOf 0x1000)
    simp [Map.get, Map.upd, Map.set, Map.put]⟩⟩
theorem met_ManagementEvents_scrubBad (h : Obligations.ManagementEvents) :
    ∃ t, exec (.patrolScrub 0x1000 true) { upNow with bad := [(0x1000, 9)] } = .next t :=
  ⟨_, (h.2.2.2.2.2.2.2.2.1 0x1000 _ _ ({ upNow with bad := [(0x1000, 9)] }) ({ upNow with bad := [(0x1000, 9)] }) rfl (by decide) (by decide) (if_neg (by decide +kernel)).symm).1 true 9 (by decide +kernel)⟩
theorem met_ManagementEvents_repair (h : Obligations.ManagementEvents) :
    exec (.postPackageRepair 0x1000) upNow = .next upNow :=
  (h.2.2.2.2.2.2.2.2.1 0x1000 _ _ (upNow) (upNow) rfl (by decide) (by decide) (if_neg (by decide +kernel)).symm).2.2.2 (fun hd => hd.1 rfl)
theorem met_ManagementEvents_channel (h : Obligations.ManagementEvents) :
    ∃ t, exec (.spareChannelMigration 7 31) State.reset = .next t :=
  ⟨_, h.2.2.2.2.2.2.2.2.2.1 7 31 State.reset (by decide) (by decide) nofun⟩
theorem met_ManagementEvents_snap (h : Obligations.ManagementEvents) : ∃ t, exec (.shutterFire .snap 1 2) State.reset = .next t :=
  ⟨_, (h.2.2.2.2.2.2.2.2.2.2.1 .snap 1 2 State.reset).1 (.inl rfl)⟩
theorem met_ManagementEvents_fire (h : Obligations.ManagementEvents) : ∃ t, exec (.shutterFire .management 1 2) State.reset = .next t :=
  ⟨_, (h.2.2.2.2.2.2.2.2.2.2.1 .management 1 2 State.reset).2 (by decide) (by decide)⟩
def gathering : State := { booted with shutter := { gathering := true } }
theorem met_ManagementEvents_gather (h : Obligations.ManagementEvents) : ∃ t, exec .contactSheetGatherEnd gathering = .next t := by
  cases hw : writeVia gathering (packageView gathering.mgmtSpace) gathering.pkgWriter gathering.shutter.area.toNat
      (contactSheet gathering.shutter) with
  | ok t => exact ⟨_, (h.2.2.2.2.2.2.2.2.2.2.2.1 gathering rfl).1 t (by decide) hw⟩
  | error e => exact ⟨_, (h.2.2.2.2.2.2.2.2.2.2.2.1 gathering rfl).2 e (.inr hw)⟩
def gathering1 : State := { mapped regs [] with shutter := { gathering := true } }
theorem met_ManagementEvents_gatherEarly (h : Obligations.ManagementEvents) : ∃ t, exec .contactSheetGatherEnd gathering1 = .next t :=
  ⟨_, (h.2.2.2.2.2.2.2.2.2.2.2.1 gathering1 rfl).2 (0, 0) (.inl (by decide))⟩
def sampling : State := { State.reset with dens := [(0, { cfg := 0xF9 })] }
theorem met_ManagementEvents_sample (h : Obligations.ManagementEvents) : ∃ t, exec (.densitometerSample 0 5) sampling = .next t :=
  ⟨_, h.2.2.2.2.2.2.2.2.2.2.2.2.1 0 5 sampling _ rfl rfl⟩
theorem met_ManagementEvents_boot (h : Obligations.ManagementEvents) : ∃ t, exec (.boot true 0) State.reset = .next t :=
  ⟨_, (h.2.2.2.2.2.2.2.2.2.2.2.2.2.2.1 State.reset rfl).2.1 0 (by decide +kernel)⟩
theorem met_ManagementEvents_bootUp (h : Obligations.ManagementEvents) : ∃ t, exec (.boot true 0) { State.reset with bootStage := 3 } = .next t :=
  ⟨_, (h.2.2.2.2.2.2.2.2.2.2.2.2.2.2.1 { State.reset with bootStage := 3 } rfl).2.2.1 true 0 rfl⟩
theorem met_ManagementEvents_bootFails (h : Obligations.ManagementEvents) : ∃ t, exec (.boot false 7) State.reset = .next t :=
  ⟨_, (h.2.2.2.2.2.2.2.2.2.2.2.2.2.2.1 State.reset rfl).2.2.2 7 (by decide +kernel)⟩
theorem met_ManagementEvents_booted (h : Obligations.ManagementEvents) :
    ∃ t, exec (.boot true 7) { State.reset with bootStage := 4 } = .next t :=
  ⟨_, (h.2.2.2.2.2.2.2.2.2.2.2.2.2.2.1 { State.reset with bootStage := 4 } rfl).1 true 7 (by decide)⟩
theorem met_ManagementEvents_clock (h : Obligations.ManagementEvents) (high : Config.overLimit 0 0 2100 = true) :
    ∃ t, exec (.clockThrottle 2000) { State.reset with mhz := 2100 } = .next t :=
  ⟨_, (h.2.2.2.2.2.2.2.2.2.2.2.2.2.2.2.2.1 2000 { State.reset with mhz := 2100 }).1 high rfl (by decide)⟩
theorem met_ManagementEvents_attest (h : Obligations.ManagementEvents) :
    ∃ t, exec (.attestationRequest (List.replicate 32 7)) State.reset = .next t :=
  ⟨_, h.2.2.2.2.2.2.2.2.2.2.2.2.2.2.2.1 (List.replicate 32 7) State.reset rfl⟩
theorem met_ManagementEvents_error (h : Obligations.ManagementEvents) :
    ∃ t, exec (.uncorrectableError (.landing 0 0)) State.reset = .next t :=
  ⟨_, (h.2.2.2.2.2.2.2.2.2.2.2.2.2.2.2.2.2.1 State.reset _ rfl).2.2.2.1 0 0⟩
theorem met_ManagementEvents_mesh (h : Obligations.ManagementEvents) :
    ∃ t, exec (.registerWrite (.mesh 0) [0]) State.reset = .next t :=
  ⟨_, (h.2.2.2.2.2.2.2.2.2.2.2.2.2.2.2.2.2.2 State.reset 0 []).2.2.1 0 {} rfl⟩
theorem met_ManagementEvents_geometry (h : Obligations.ManagementEvents) :
    ∃ t, exec (.registerWrite .kvGeometry [0, 1024, 0x10000, 0x800, 64, 1]) State.reset = .next t :=
  ⟨_, (h.2.2.2.2.2.2.2.2.2.2.2.2.2.2.2.2.2.2 State.reset 0 [1024, 0x10000, 0x800, 64, 1]).2.2.2.1 _ (heldOne geom (by decide +kernel)) rfl⟩
theorem met_ManagementEvents_shutterCause (h : Obligations.ManagementEvents) :
    ∃ t, exec (.registerWrite (.shutterCause 7) [0x12]) State.reset = .next t :=
  ⟨_, (h.2.2.2.2.2.2.2.2.2.2.2.2.2.2.2.2.2.2 State.reset 0x12 []).2.2.2.2.2.2.2.2.2 7 (by decide)⟩
theorem met_ManagementEvents_replaceCore (h : Obligations.ManagementEvents) :
    ∃ t, exec (.registerWrite (.replaceCore 0) [1]) State.reset = .next t :=
  ⟨_, (h.2.2.2.2.2.2.2.2.2.2.2.2.2.2.2.2.2.2 State.reset 1 []).2.2.2.2.2.2.1 0 (by decide)⟩

/-! ### Ill-formed instructions that WellFormed refuses -/

/-- An S word on registers a1 and a2, a V word on v1 and v2, to change in one field. -/
def sb : SBin := { slot := .s0, h1 := false, h2 := false, w := false, u := false, dst := 9, a := .reg 1, b := .reg 2 }
def su : SUn := { slot := .s0, h1 := false, w := false, u := false, dst := 9, a := .reg 1 }
def vb : VBin := { slot := .v0, ty := .fp32, mask := none, dst := 9, a := .reg 1, b := .reg 2, rnd := .ctx }
def vu : VUn := { slot := .v0, ty := .fp32, mask := none, dst := 9, a := .reg 1, rnd := .ctx }
def vn : VNul := { slot := .v0, ty := .u32, mask := none, dst := 9 }
def ea : EngArgs := { bits := { acq := true, rel := true, scope := .package }, cmd := 4, ctr := 5, amount := 0 }

/-- Operand rules of the S slot: holds, the one literal, .w and .u, predicate and register numbers, bit fields, conversions. -/
theorem refuses_scalar : ([.add { sb with h1 := true, a := .lit 1 }, .add { sb with h2 := true, b := .lit 1 },
    .add { sb with a := .lit 1, b := .lit 2 }, .clz { su with h1 := true, a := .lit 1 }, .cmp .eq { sb with dst := 8 },
    .sel 0 false { sb with w := true }, .li su, .mov { su with a := .lit 1 }, .bfx 63 1 su, .bfx 31 1 { su with w := true },
    .bfi 0 0 { su with a := .lit 3 }, .addr 0 { sb with u := true }, .xfer .p { su with dst := 32 }, .fadd .fp32 { sb with u := true },
    .frcp .fp32 { su with w := true }, .fcmp .fp32 .eq { sb with dst := 8 }, .fcmp .fp32 .eq { sb with a := .lit 0 },
    .fcvt .i32 .u32 su, .fcvt .i8 .fp32 su, .fcvt .fp32 .cw8 su] : List Instr).all (fun i => !i.wf) = true := by decide
/-- Types, rounding fields, lane numbers, parts and mask roles of the V slot. -/
theorem refuses_vector : ([.vadd { vb with ty := .i32 }, .vmin { vb with rnd := .rz }, .vabs { vu with ty := .i8 },
    .vrcp { vu with ty := .e4m3 }, .viadd .hi { vb with ty := .i32 }, .vimul .wrap vb, .vshl vb, .vcmp .eq { vb with dst := 8 },
    .vcmp .un { vb with ty := .i32 }, .vsel vb, .vbcast 64 vu, .vslide 64 vb, .vcomp vu, .vpsum { vu with ty := .e4m3 },
    .vred .sumw vu, .vfind .eq { vb with ty := .cw8 }, .vcnt vn, .viota { vn with ty := .fp32, mask := some 1 },
    .vcvt .bf16 2 false vu, .vcvt .bf16 0 true vu, .vquant false .bf16 0 vb, .vquant true .e4m3 0 vb, .vdeq .fp32 0 vb,
    .vcwenc 0 { vb with ty := .fp16 }, .vcwdec .fp32 0 .cw8 1 { vb with ty := .cw8 }, .vrand { vn with ty := .i32 },
    .vxfer .a 64 vu, .vxfer .p 0 { vu with dst := 32 }, .vxfer .other 1 vu, .vins 0 { vu with mask := some 1 },
    .vclass { vu with ty := .i32 }] : List Instr).all (fun i => !i.wf) = true := by decide
/-- Register files and numbers, offsets, types of atomics and of contributions in the L slot. -/
theorem refuses_memory : ([.lds .u32 ⟨.p, 32⟩ 0 (.off 0), .lds .u32 ⟨.v, 1⟩ 0 (.off 0), .lds .u32 ⟨.a, 1⟩ 0 (.off 536870912),
    .sts .u32 ⟨.a, 1⟩ 0 (.off 65536), .vld .u32 ⟨.a, 1⟩ 0 (.off 0), .vst .u32 ⟨.x, 8⟩ 0 (.off 0), .vlds .u32 ⟨.x, 1⟩ 0 0 0,
    .vsts .u32 ⟨.v, 1⟩ 0 0 2048, .vgath .u32 1 ⟨.v, 1⟩ 0 0 0, .vscat .u16 2 ⟨.v, 1⟩ 0 0, .atom .fadd .fp16 none ⟨.a, 1⟩ 0 0,
    .atom .add .u16 none ⟨.a, 1⟩ 0 0, .atom .cas .u32 none ⟨.a, 63⟩ 0 0, .pref 0 0 536870912, .wset 0 true 1 0 0,
    .wset 0 false 0 1 0, .wstat ⟨.v, 1⟩ 0, .cbset 0 0 33554432, .nld .u32 ⟨.a, 64⟩ 0 0, .nst .u32 none ⟨.a, 1⟩ 0 2048,
    .nat .cas .u32 none ⟨.b, 63⟩ 0 0, .nts .u32 ⟨.v, 1⟩ 0 0 0 0, .ncb .cw8 ⟨.v, 1⟩ 0 0 0, .nmc .u32 none 0 true ⟨.a, 1⟩ 0 (-2049),
    .pld .u32 ⟨.a, 1⟩ 0 0 0 4096, .pst .fp16 true ⟨.a, 1⟩ 0 0 0, .pst .fp32 true ⟨.v, 1⟩ 0 0 0] :
    List Instr).all (fun i => !i.wf) = true := by decide
/-- Row numbers, must-be-zero fields and offsets of the T and X slots. -/
theorem refuses_tileAndControl : ([.taff true true .t0 0, .tscan false .t0 0 1 4, .tscan true .t0 0 0 0, .tscan true .t0 0 0 65,
    .tcarry .ident true .t0 0 0 0, .trd false false .t0 0 0 63 1, .trd true false .t0 0 0 0 62, .twr false .t0 0 0 1 63,
    .tcomb false .t0 0 0, .tres false false .t0 0 ⟨.v, 0⟩, .tdesc .t0 0 (.const 32), .call false 1 1 0, .loop 0 none 0,
    .loop 0 none (-1), .ecopy 3 { ea with amount := 1 }, .efill 0 ea, .econv 1 ea, .egather ea, .estat 0 6, .pqry 0 0 3,
    .watch false true 0 0 0 0] : List Instr).all (fun i => !i.wf) = true := by decide

/-! ### Words written out from the encodings decode to the instructions they stand for -/

/-- R59, R60, R117: opcode 0x01, mod 0, dst a4 in 47:42, src1 and src2 kinds and fields, and the literal 1. -/
theorem decodes_add : decodeSlot .s0 0x0100101200000001 = .ok (.add addImm) := by decide +kernel
theorem decodes_fadd : decodeSlot .s0 0x1C000C0408000000 = .ok (.fadd .fp32 { sb with dst := 3 }) := by decide +kernel
theorem decodes_bfx : decodeSlot .s0 0x1810141400000038 = .ok (.bfx 0 0x38 { su with u := true, dst := 5, a := .reg 5 }) := by
  decide +kernel
theorem decodes_xfer : decodeSlot .s0 0x1B02080800000000 = .ok (.xfer .k { su with dst := 2, a := .reg 2 }) := by decide +kernel
/-- R61, R62, R147: V words. -/
theorem decodes_vfma : decodeSlot .v0 0x0400028011002000 =
    .ok (.vfma { slot := .v0, ty := .fp32, mask := none, dst := 10, a := .reg 4, b := .head 0, c := .bc, rnd := .ctx }) := by
  decide +kernel
theorem decodes_vfind : decodeSlot .v0 0x2C00050032000000 =
    .ok (.vfind .gt { vb with dst := 0x14, a := .reg 12, b := .bc }) := by decide +kernel
theorem decodes_vsel : decodeSlot .v0 0x220B006004004000 =
    .ok (.vsel { vb with mask := some 5, dst := 1, a := .imm, b := .reg 1 }) := by decide +kernel
theorem decodes_vmask : decodeSlot .v0 0x2300006000000014 = .ok (.vmask (.first .bc) .v0 1) := by decide +kernel
/-- R65, R66, R187: L words. -/
theorem decodes_vld : decodeSlot .l 0x0310604080000100 = .ok (.vld .bf16 ⟨.w, 8⟩ 2 (.off 256)) := by decide +kernel
theorem decodes_vst : decodeSlot .l 0x04D0000150020000 = .ok (.vst .u32 ⟨.v, 1⟩ 5 (.off 0)) := by decide +kernel
theorem decodes_sts : decodeSlot .l 0x0290000140160000 = .ok (.sts .u8 ⟨.a, 11⟩ 5 (.off 0)) := by decide +kernel
theorem decodes_wset : decodeSlot .l 0x0B00000100000000 = .ok (.wset 0 false 0 0 4) := by decide +kernel
theorem decodes_pld : decodeSlot .l 0x18100020C0012000 = .ok (.pld .bf16 ⟨.a, 4⟩ 3 0 9 0) := by decide +kernel
theorem decodes_nmc : decodeSlot .l 0x1609000190027000 = .ok (.nmc .fp32 (some 7) 0 true ⟨.v, 1⟩ 6 0) := by decide +kernel
/-- R67, R68, R219: T words. -/
theorem decodes_tmma : decodeSlot .t0 0x0401046000000100 = .ok (.tmma true .t0 0 2 3 256) := by decide +kernel
theorem decodes_tscan : decodeSlot .t0 0x0601400000000004 = .ok (.tscan true .t0 1 0 4) := by decide +kernel
theorem decodes_tdesc : decodeSlot .t0 0x0F00000000000000 = .ok (.tdesc .t0 0 (.const 0)) := by decide +kernel
/-- R69, R70: X words. -/
theorem decodes_loop : decodeSlot .x 0x0600005000000004 = .ok (.loop 0 (some 5) 4) := by decide +kernel
theorem decodes_cwait : decodeSlot .x 0x0A07548340000000 = .ok (.cwait true .package 0x15 8 0xD 0) := by decide +kernel
theorem decodes_fork : decodeSlot .x 0x0F00004140000000 = .ok (.fork 4 5) := by decide +kernel
theorem decodes_join : decodeSlot .x 0x1007007200000000 = .ok (.join true .package false 7 8) := by decide +kernel
theorem decodes_ecopy : decodeSlot .x 0x13170020C0000001 = .ok (.ecopy 0
    { bits := { acq := true, rel := true, scope := .package }, cmd := 2, ctr := 3, amount := 1 }) := by decide +kernel
theorem decodes_msend : decodeSlot .x 0x1227004140000004 = .ok (.msend true 7 4 5 4) := by decide +kernel
theorem decodes_kvmap : decodeSlot .x 0x2604242180000005 = .ok (.kvmap false .bind 9 2 6 5) := by decide +kernel
theorem decodes_sqtree : decodeSlot .x 0x1F00502180000000 = .ok (.sqtree 0x14 2 6) := by decide +kernel
/-- R58, R60: a reserved opcode, a reserved mod bit and a non-zero must-be-zero field are refused. -/
theorem refuses_words : (decodeSlot .s0 0xFF00000000000000).toOption = none ∧ (decodeSlot .t0 0x0F00000000000001).toOption = none ∧
    (decodeSlot .x 0x0F00004140000001).toOption = none := by decide +kernel

/-! ### Values that the spec states -/

/-- The register file of context 0 after one instruction and the landing of its result. -/
def landedReg (i : Instr) (s : State) (file idx : Nat) : Option VecReg :=
  match exec i s with
  | .next t => if t.issue.verdict = .ran then
      (match (t.ctx 0).landing with | l :: _ => if (l.file, l.idx) = (file, idx) then some l.val else none | [] => none) else none
  | _ => none
/-- R117: addition is modulo 2^w, and a literal is not sign-extended away. -/
theorem test_add_wraps : landedReg (.add { sb with a := .immS, b := .immS }) (withIssue { imm := -1 } (only regs)) 0 9 =
    some (BitVec.ofNat 2048 (2 ^ 64 - 2)) := by decide +kernel
/-- R118: division by zero gives ones, and the remainder of the smallest number by minus one is 0. -/
theorem test_div_zero : landedReg (.div { sb with b := .lit 0 }) (only regs) 0 9 = some (BitVec.ofNat 2048 (2 ^ 64 - 1)) := by
  decide +kernel
theorem test_rem_corner : landedReg (.rem { sb with w := true, b := .immS })
    (withIssue { imm := -1 } (only { regs with a := [(1, 0x80000000)] })) 0 9 = some 0 := by decide +kernel
/-- The worked value of BFX: the field 0xF3 of 0xF30 as a signed number. -/
theorem test_bfx : landedReg (.bfx 4 7 { su with a := .reg 3 }) (only regs) 0 9 = some (BitVec.ofNat 2048 0xFFFFFFFFFFFFFFF3) := by
  decide +kernel
/-- The worked value of FCVT: 500.0 is beyond E4M3, becomes 448 and raises overflow, inexact and saturate. -/
theorem test_fcvt_saturates : landedReg (.fcvt .fp32 .e4m3 su) (only { regs with a := [(1, 0x43FA0000)] }) 0 9 = some 0x7E := by
  decide +kernel
/-- R32: the weights of the table of worked codes, in units of 1/64. -/
theorem test_cw8_codes : [0x1B, 0x82, 0x57, 0x77, 0x00].map (cwValue .cw8) = [24, -48, 2, 0, 128] := by decide
/-- R301: the worked page table entry. -/
def worked : State :=
  { State.reset with
    dies := [(0, { walks := [(0x31, walkKey 3 0x4000010100, 0x200000)] })]
    mem := putBytes [] 0x200008 (leBytes 8 0x000001009801000F) }
theorem test_page_walk : (translate worked (dieView { asid := 0x31 } 0) 0x4000010100 .read).toOption.map (·.1) =
    some 0x010098010100 := by decide +kernel
/-- R141: a breakpoint saves its own address and code. -/
theorem test_bkpt : (match exec (.bkpt 7) (withIssue { addr := 0x40 } trapper) with
    | .next t => ((t.ctx 0).run, (t.ctx 0).cause, (t.ctx 0).tval, (t.ctx 0).epc) | _ => (.ready, 0, 0, 0)) = (.frozen, 0x28, 7, 0x40) := by
  decide +kernel
/-- A step of the whole machine: the literal 1 is on its way to a4 after the step that issues ADD. -/
theorem test_step_add : (match step placedAdd with | .next t => (t.ctx 0).landing.map (fun l => (l.file, l.idx, l.val)) | _ => []) =
    [(0, 4, 1)] := by decide +kernel
end Sys2Proof.Tests
end

/-! SUPPORT. The state after a package cold reset: every unit reads as the default of its record, since reset lists none, and what
follows of the values that the spec states for reset. -/

namespace Sys2Proof.Proofs

open Sys2Proof Machine

/-! ### Every unit reads as its default -/

@[simp] theorem reset_ctx (c : Nat) : State.reset.ctx c = {} := rfl
@[simp] theorem reset_core (k : Nat) : State.reset.core k = {} := rfl
@[simp] theorem reset_cluster (cl : Nat) : State.reset.cluster cl = {} := rfl
@[simp] theorem reset_die (d : Nat) : State.reset.die d = {} := rfl
@[simp] theorem reset_tile (k t : Nat) : tileOf State.reset k t = {} := rfl
theorem reset_dens (n : Nat) : Map.get {} State.reset.dens n = {} := rfl

/-- Every engine, of a cluster or of a die, is present and idle. -/
@[simp] theorem reset_engine (e : EngineId) : State.reset.engine e = {} := by
  cases e <;> simp [State.engine]

/-! ### The values of the spec -/

/-- R280: a cluster's L2 slice is 64 MiB, half of its vault, and no change of division is in progress. -/
theorem reset_slice (cl : Nat) : (State.reset.cluster cl).slice = 4 ∧ (State.reset.cluster cl).busy = false := by
  simp

/-- R274: the status word of an idle engine has its presence bit alone. -/
theorem reset_engineWord (e : EngineId) : (State.reset.engine e).word = 1 := by
  simp [Engine.word, b2n]

/-- R216: a tile is neither live nor affine, has no horizon and no sticky bit, and its depth is 0. -/
theorem reset_statusWord (k t : Nat) : statusWord State.reset k t = 0 := by
  simp [statusWord, b2n]

/-- R371: no plane of a core holds a program. -/
theorem reset_planes (k : Nat) : ∀ p ∈ [(State.reset.core k).active, (State.reset.core k).shadow],
    p.cond = .empty ∧ p.codeLen = 0 ∧ p.constLen = 0 ∧ p.sets = 0 ∧ p.hasPairs = false := by
  simp

/-- Heads are closed and handles invalid in every context. -/
theorem reset_streams (c q : Nat) : (Map.get {} (State.reset.ctx c).heads q).cond = .closed ∧
    (Map.get {} (State.reset.ctx c).handles q).valid = false := by
  simp

/-- R379: no densitometer has a sample, so its least is the greatest number and its greatest is 0. -/
theorem reset_densitometer (n : Nat) : (Map.get {} State.reset.dens n).min = 2 ^ 64 - 1 ∧
    (Map.get {} State.reset.dens n).max = 0 ∧ (Map.get {} State.reset.dens n).count = 0 := by
  rw [reset_dens]
  exact ⟨rfl, rfl, rfl⟩

/-- Reset lists no byte, no context and no core. -/
theorem canonical_reset : canonical State.reset :=
  ⟨reset_memOk, Map.wf_nil, Map.wf_nil, List.forall_mem_nil _⟩

/-- Settles O50: the units of the machine read as the defaults of their records, which are the values that the spec states. -/
theorem resetState : Obligations.ResetState := by
  unfold Obligations.ResetState
  refine ⟨canonical_reset, fun c => ?_, fun k => ?_, reset_slice, reset_engineWord, reset_densitometer⟩
  · exact ⟨rfl, rfl, rfl, rfl, rfl, rfl, rfl, rfl, rfl, reset_streams c⟩
  · exact ⟨rfl, rfl, rfl, rfl, reset_statusWord k, reset_planes k⟩

end Sys2Proof.Proofs

/-! SUPPORT. The frame of the scalar and vector slots: what running a part of an S or V meaning may change (R38, R41, R90, R92),
shown once for each operation that the forms share and carried through every form. -/

namespace Sys2Proof.Proofs

open Sys2Proof Machine Laws

/-! ### The relation between the states before and after -/

/-- From `s` to `t` nothing has changed but the issuing context, and of it only the landing list, which has taken results of the
slot being executed for registers among `regs`, the position of the stream, and sticky flags that were added. -/
def OnlyLands (regs : List (Nat × Nat)) (s t : State) : Prop :=
  t = { s with ctxs := t.ctxs } ∧ Map.wf {} t.ctxs = true ∧ (∀ c, c ≠ s.issue.ctx → t.ctx c = s.ctx c) ∧
  ∃ (new : List Landing) (rc : BitVec 128) (fl : Word),
    t.ctx s.issue.ctx = { issuer s with landing := (issuer s).landing ++ new, rctr := rc, fflags := (issuer s).fflags ||| fl } ∧
    ∀ l ∈ new, l.seq = s.issue.order ∧ (l.file, l.idx) ∈ regs

/-- A part of a meaning that changes no more than `OnlyLands` says, wherever it runs to its end. -/
def Frames {α : Type} (regs : List (Nat × Nat)) (m : M α) : Prop :=
  ∀ s t v, Map.wf {} s.ctxs = true → Gives m s v t → OnlyLands regs s t

variable {regs : List (Nat × Nat)}

theorem OnlyLands.refl {s : State} (h : Map.wf {} s.ctxs = true) : OnlyLands regs s s :=
  ⟨rfl, h, fun _ _ => rfl, [], (issuer s).rctr, 0, by simp, by simp⟩

theorem OnlyLands.issue_eq {s t : State} (h : OnlyLands regs s t) : t.issue = s.issue := by rw [h.1]

theorem OnlyLands.trans {s t u : State} (h : OnlyLands regs s t) (k : OnlyLands regs t u) : OnlyLands regs s u := by
  have hi := h.issue_eq
  obtain ⟨ht, -, hoth, new, rc, fl, hown, hnew⟩ := h
  obtain ⟨hu, hw, hoth', new', rc', fl', hown', hnew'⟩ := k
  rw [issuer, hi] at hown'
  refine ⟨by rw [hu, ht], hw, fun c hc => ?_, new ++ new', rc', fl ||| fl', ?_, fun l hl => ?_⟩
  · rw [hoth' c (hi ▸ hc), hoth c hc]
  · rw [hown', hown]
    simp [BitVec.or_assoc]
  · rcases List.mem_append.mp hl with hl | hl
    · exact hnew l hl
    · exact hi ▸ hnew' l hl

/-- An update of the issuing context alone, of the three fields in question. -/
theorem onlyLands_updCtx {s : State} {f : Ctx → Ctx} (h : Map.wf {} s.ctxs = true) (new : List Landing) (rc : BitVec 128) (fl : Word)
    (hf : f (issuer s) = { issuer s with landing := (issuer s).landing ++ new, rctr := rc, fflags := (issuer s).fflags ||| fl })
    (hnew : ∀ l ∈ new, l.seq = s.issue.order ∧ (l.file, l.idx) ∈ regs) : OnlyLands regs s (s.updCtx s.issue.ctx f) :=
  ⟨rfl, State.wf_updCtx s _ f h, fun c hc => State.ctx_updCtx_of_ne s _ c f h hc, new, rc, fl,
    (State.ctx_updCtx_self s _ f h).trans hf, hnew⟩

/-! ### Parts of a meaning -/

theorem frames_bind {α β : Type} {m : M α} {f : α → M β} (hm : Frames regs m) (hf : ∀ v, Frames regs (f v)) :
    Frames regs (m >>= f) := by
  intro s u w hs h
  unfold Gives at h
  rw [StateT.run_bind] at h
  cases hr : m.run s with
  | error e => rw [hr] at h; cases h
  | ok r =>
    obtain ⟨v, t⟩ := r
    rw [hr] at h
    have ht := hm s t v hs hr
    exact ht.trans (hf v t u w ht.2.1 h)

/-- A part that ends in the state in which it began. -/
theorem frames_of_eq {α : Type} {m : M α} (h : ∀ s t v, Gives m s v t → t = s) : Frames regs m := by
  intro s t v hs hg
  rw [h s t v hg]
  exact OnlyLands.refl hs

theorem frames_pure {α : Type} (v : α) : Frames regs (pure v) := frames_of_eq (fun _ _ _ h => by cases h; rfl)
theorem frames_get : Frames regs (get : M State) := frames_of_eq (fun _ _ _ h => by cases h; rfl)
theorem frames_curCtx : Frames regs curCtx := frames_of_eq (fun _ _ _ h => by cases h; rfl)
theorem frames_throw {α : Type} (e : Stop) : Frames regs (throw e : M α) := frames_of_eq (fun _ _ _ h => by cases h)
theorem frames_condTrap {α : Type} (c : BitVec 8) (t : Word) : Frames regs (condTrap c t : M α) := frames_throw _
theorem frames_illegal {α : Type} : Frames regs (illegal : M α) := frames_bind frames_get (fun _ => frames_throw _)
theorem frames_illegalWord {α : Type} : Frames regs (illegalWord : M α) := frames_bind frames_get (fun _ => frames_throw _)

theorem frames_ite {α : Type} {c : Prop} [Decidable c] {m n : M α} (hm : Frames regs m) (hn : Frames regs n) :
    Frames regs (if c then m else n) := by
  split
  · exact hm
  · exact hn

/-! ### Operands -/

theorem frames_readReg (file idx : Nat) : Frames regs (readReg file idx) := by
  refine frames_bind frames_curCtx (fun x => ?_)
  cases x.regError file idx with
  | none => exact frames_pure _
  | some e => exact frames_condTrap _ _

theorem frames_readScalar (file idx : Nat) : Frames regs (readScalar file idx) :=
  frames_bind (frames_readReg file idx) (fun _ => frames_pure _)

theorem frames_readHead (q : BitVec 3) : Frames regs (readHead q) := by
  refine frames_bind frames_get (fun s => ?_)
  dsimp only
  split
  · exact frames_illegal
  · exact frames_throw _
  · split
    · exact frames_condTrap _ _
    · exact frames_ite (frames_condTrap _ _) (frames_pure _)

theorem frames_headerImm : Frames regs headerImm :=
  frames_bind frames_get (fun _ => frames_ite frames_illegalWord (frames_pure _))

theorem frames_readS (slot : SSlot) (o : SOpnd) : Frames regs (readS slot o) := by
  cases o with
  | reg i => exact frames_readScalar _ _
  | head q => exact frames_bind (frames_readHead q) (fun _ => frames_pure _)
  | lit v => exact frames_pure _
  | immS | immZ | immHi => exact frames_bind frames_headerImm (fun _ => frames_pure _)

theorem frames_vecIndex (i : Nat) : Frames regs (vecIndex i) :=
  frames_bind frames_curCtx (fun _ => frames_ite (frames_pure _) frames_illegalWord)

theorem frames_readV (slot : VSlot) (ty : ElemTy) (o : VOpnd) : Frames regs (readV slot ty o) := by
  cases o with
  | reg i => exact frames_bind (frames_vecIndex _) (fun _ => frames_readReg _ _)
  | head q => exact frames_readHead q
  | bc =>
    refine frames_bind frames_get (fun s => ?_)
    cases s.issue.bc with
    | none => exact frames_illegalWord
    | some v => exact frames_pure _
  | imm => exact frames_bind frames_headerImm (fun _ => frames_pure _)

theorem frames_readMask (slot : VSlot) (i : BitVec 3) : Frames regs (readMask slot i) :=
  frames_bind (frames_readReg _ _) (fun _ => frames_pure _)

theorem frames_readActive (slot : VSlot) (m : Option (BitVec 3)) : Frames regs (readActive slot m) := by
  cases m with
  | none => exact frames_pure _
  | some i => exact frames_bind (frames_readMask slot i) (fun _ => frames_pure _)

theorem frames_readSelector (slot : VSlot) (m : Option (BitVec 3)) : Frames regs (readSelector slot m) := by
  cases m with
  | none => exact frames_illegalWord
  | some i => exact frames_readActive slot (some i)

theorem frames_readOld (slot : VSlot) (m : Option (BitVec 3)) (dst : BitVec 10) : Frames regs (readOld slot m dst) :=
  frames_bind (frames_vecIndex _) (fun _ => frames_ite (frames_bind (frames_readReg _ _) (fun _ => frames_pure _)) (frames_pure _))

/-! ### Draws and flags -/

theorem onlyLands_drawn {s : State} (h : Map.wf {} s.ctxs = true) (n : Nat) : OnlyLands regs s (drawn s n) :=
  onlyLands_updCtx h [] ((issuer s).rctr + BitVec.ofNat 128 n) 0 (by simp) (by simp)

theorem frames_draw (n : Nat) : Frames regs (draw n) := by
  intro s t v hs h
  cases h
  exact onlyLands_drawn hs n

theorem frames_drawIf (b : Bool) (n : Nat) : Frames regs (drawIf b n) := frames_ite (frames_draw n) (frames_pure _)

theorem frames_mergeFlags (fl : Nat) : Frames regs (mergeFlags fl) := by
  refine frames_bind frames_curCtx (fun x => frames_ite (frames_throw _) (frames_ite (frames_pure _) ?_))
  intro s t v hs h
  cases h
  exact onlyLands_updCtx hs [] (issuer s).rctr (BitVec.ofNat 64 fl) (by simp) (by simp)

/-! ### Landings -/

theorem onlyLands_landed {s : State} (hs : Map.wf {} s.ctxs = true) {file idx : Nat} (h : (file, idx) ∈ regs) (v : VecReg) (lat : Nat) :
    OnlyLands regs s (landed s file idx v lat) := by
  refine onlyLands_updCtx hs [{ count := lat, seq := s.issue.order, file := file, idx := idx, val := v }] (issuer s).rctr 0 (by simp)
    (fun l hl => ?_)
  rw [List.mem_singleton.mp hl]
  exact ⟨rfl, h⟩

theorem frames_landAt {file idx : Nat} (h : (file, idx) ∈ regs) (v : VecReg) (lat : Nat) : Frames regs (landAt file idx v lat) := by
  intro s t u hs hg
  cases hg
  exact onlyLands_landed hs h v lat

theorem frames_landV {slot : VSlot} {dst : BitVec 10} (h : (VSlot.file slot, dst.toNat) ∈ regs) (v : VecReg) (lat : Nat) :
    Frames regs (landV slot dst v lat) :=
  frames_bind (frames_vecIndex _) (fun _ => frames_landAt h v lat)

theorem frames_landLanes {slot : VSlot} {dst : BitVec 10} (h : (VSlot.file slot, dst.toNat) ∈ regs) (w : Nat) (m : Option (BitVec 3))
    (active : Nat → Bool) (l : List Nat) (lat : Nat) : Frames regs (landLanes slot w m active dst l lat) := by
  refine frames_bind (frames_vecIndex _) (fun _ => ?_)
  cases m with
  | none => exact frames_landAt h _ _
  | some i => exact frames_bind (frames_readReg _ _) (fun _ => frames_landAt h _ _)

theorem frames_landVX {slot : VSlot} {dst : BitVec 10} (h : (VSlot.file slot, dst.toNat) ∈ regs) (ty : ElemTy) (m : Option (BitVec 3))
    (lat : Nat) (r : Nat → Nat × Nat) : Frames regs (landVX slot ty m dst lat r) :=
  frames_bind (frames_readActive _ _) (fun _ => frames_bind (frames_readOld _ _ _) (fun _ =>
    frames_bind (frames_mergeFlags _) (fun _ => frames_landLanes h _ _ _ _ _)))

theorem frames_landVF {slot : VSlot} {dst : BitVec 10} (h : (VSlot.file slot, dst.toNat) ∈ regs) (ty : ElemTy) (m : Option (BitVec 3))
    (rnd : VRnd) (lat : Nat) (r : RMode → Nat → FRes) : Frames regs (landVF slot ty m rnd dst lat r) :=
  frames_bind frames_curCtx (fun _ => frames_bind (frames_readActive _ _) (fun _ => frames_bind (frames_drawIf _ _) (fun _ =>
    frames_bind (frames_readOld _ _ _) (fun _ => frames_bind (frames_mergeFlags _) (fun _ => frames_landLanes h _ _ _ _ _)))))

theorem frames_landPart {slot : VSlot} {dst : BitVec 10} (h : (VSlot.file slot, dst.toNat) ∈ regs) (w ns nd part : Nat)
    (m : Option (BitVec 3)) (lat : Nat) (r : Nat → Nat → Nat × Nat) : Frames regs (landPart slot w ns nd part m dst lat r) := by
  refine frames_bind (frames_vecIndex _) (fun _ => frames_bind (frames_readActive _ _) (fun _ => ?_))
  have rest := fun fl (v : VecReg) => frames_bind (frames_mergeFlags fl) (fun _ => frames_landAt h v lat)
  exact frames_ite (frames_bind (frames_readReg _ _) (fun _ => rest _ _)) (frames_bind (frames_pure _) (fun _ => rest _ _))

theorem frames_landF {slot : SSlot} {dst : BitVec 6} (h : (SSlot.file slot, dst.toNat) ∈ regs) (t : SFmt) (lat : Nat)
    (r : RMode → FRes) : Frames regs (landF t slot dst lat r) :=
  frames_bind frames_curCtx (fun _ => frames_bind (frames_drawIf _ _) (fun _ => frames_bind (frames_mergeFlags _) (fun _ =>
    frames_landAt h _ _)))

end Sys2Proof.Proofs

/-! SUPPORT. Every S and V instruction is a meaning that runs within the frame (R90, R92). -/

namespace Sys2Proof

open Machine

/-! ### The registers that a form names -/

theorem Uses.mem_join_left {a b : Uses} {r : Nat × Nat} (h : r ∈ a.regs) : r ∈ (a.join b).regs := List.mem_append_left _ h
theorem Uses.mem_join_right {a b : Uses} {r : Nat × Nat} (h : r ∈ b.regs) : r ∈ (a.join b).regs := List.mem_append_right _ h
theorem Uses.mem_ofReg (file i : Nat) : (file, i) ∈ (Uses.ofReg file i).regs := List.mem_singleton_self _
theorem Uses.mem_ofVec (file i : Nat) : (file, i) ∈ (Uses.ofVec file i).regs := List.mem_singleton_self _

theorem SUn.dst_mem_uses (f : SUn) : (SSlot.file f.slot, f.dst.toNat) ∈ f.uses.regs :=
  Uses.mem_join_right (Uses.mem_ofReg _ _)
theorem SBin.dst_mem_uses (f : SBin) : (SSlot.file f.slot, f.dst.toNat) ∈ f.uses.regs :=
  Uses.mem_join_right (Uses.mem_ofReg _ _)
theorem VUn.dst_mem_uses (f : VUn) : (VSlot.file f.slot, f.dst.toNat) ∈ f.uses.regs :=
  Uses.mem_join_right (Uses.mem_ofVec _ _)
theorem VBin.dst_mem_uses (f : VBin) : (VSlot.file f.slot, f.dst.toNat) ∈ f.uses.regs :=
  Uses.mem_join_right (Uses.mem_ofVec _ _)
theorem VTer.dst_mem_uses (f : VTer) : (VSlot.file f.slot, f.dst.toNat) ∈ f.uses.regs :=
  Uses.mem_join_right (Uses.mem_ofVec _ _)
theorem VNul.dst_mem_uses (f : VNul) : (VSlot.file f.slot, f.dst.toNat) ∈ f.uses.regs :=
  Uses.mem_join_right (Uses.mem_ofVec _ _)

end Sys2Proof

namespace Sys2Proof.Proofs

open Sys2Proof Machine Laws

/-! ### The shapes of the S forms -/

theorem frames_intBin (f : SBin) (lat : Nat) (op : Word → Word → Nat) : Frames f.uses.regs (intBin f lat op) :=
  frames_bind (frames_readS _ _) (fun _ => frames_bind (frames_readS _ _) (fun _ => frames_landAt f.dst_mem_uses _ _))

theorem frames_intUn (f : SUn) (lat : Nat) (op : Word → Nat) : Frames f.uses.regs (intUn f lat op) :=
  frames_bind (frames_readS _ _) (fun _ => frames_landAt f.dst_mem_uses _ _)

theorem frames_fpBin (t : SFmt) (f : SBin) (op : RMode → FVal → FVal → FRes) : Frames f.uses.regs (fpBin t f op) :=
  frames_bind (frames_readS _ _) (fun _ => frames_bind (frames_readS _ _) (fun _ => frames_bind frames_curCtx (fun _ =>
    frames_landF f.dst_mem_uses _ _ _)))

theorem frames_fpUn (t : SFmt) (f : SUn) (op : FVal → FRes) : Frames f.uses.regs (fpUn t f op) :=
  frames_bind (frames_readS _ _) (fun _ => frames_bind frames_curCtx (fun _ => frames_landF f.dst_mem_uses _ _ _))

theorem frames_fpMinMax (t : SFmt) (f : SBin) (max : Bool) : Frames f.uses.regs (fpMinMax t f max) :=
  frames_bind (frames_readS _ _) (fun _ => frames_bind (frames_readS _ _) (fun _ => frames_bind frames_curCtx (fun _ =>
    frames_bind (frames_mergeFlags _) (fun _ => frames_landAt f.dst_mem_uses _ _))))

/-! ### The shapes of the V forms -/

theorem frames_viBin (f : VBin) (op : Int → Int → Nat × Nat) : Frames f.uses.regs (viBin f op) :=
  frames_bind (frames_readV _ _ _) (fun _ => frames_bind (frames_readV _ _ _) (fun _ => frames_landVX f.dst_mem_uses _ _ _ _))

theorem frames_vlBin (f : VBin) (op : Nat → Nat → Nat) : Frames f.uses.regs (vlBin f op) :=
  frames_bind (frames_readV _ _ _) (fun _ => frames_bind (frames_readV _ _ _) (fun _ => frames_landVX f.dst_mem_uses _ _ _ _))

theorem frames_vfUn (f : VUn) (lat : Nat) (op : FVal → FRes) : Frames f.uses.regs (vfUn f lat op) :=
  frames_bind (frames_readV _ _ _) (fun _ => frames_bind frames_curCtx (fun _ => frames_landVF f.dst_mem_uses _ _ _ _ _))

theorem frames_vfBin (f : VBin) (lat : Nat) (op : RMode → FVal → FVal → FRes) : Frames f.uses.regs (vfBin f lat op) :=
  frames_bind (frames_readV _ _ _) (fun _ => frames_bind (frames_readV _ _ _) (fun _ => frames_bind frames_curCtx (fun _ =>
    frames_landVF f.dst_mem_uses _ _ _ _ _)))

theorem frames_vfTer (f : VTer) (op : RMode → FVal → FVal → FVal → FRes) : Frames f.uses.regs (vfTer f op) :=
  frames_bind (frames_readV _ _ _) (fun _ => frames_bind (frames_readV _ _ _) (fun _ => frames_bind (frames_readV _ _ _) (fun _ =>
    frames_bind frames_curCtx (fun _ => frames_landVF f.dst_mem_uses _ _ _ _ _))))

theorem frames_vfMinMax (f : VBin) (max : Bool) : Frames f.uses.regs (vfMinMax f max) :=
  frames_bind (frames_readV _ _ _) (fun _ => frames_bind (frames_readV _ _ _) (fun _ => frames_bind frames_curCtx (fun _ =>
    frames_landVX f.dst_mem_uses _ _ _ _)))

theorem frames_vfSign (f : VUn) (neg : Bool) : Frames f.uses.regs (vfSign f neg) :=
  frames_bind (frames_readV _ _ _) (fun _ => frames_landVX f.dst_mem_uses _ _ _ _)

/-! ### From a meaning to the step -/

/-- An instruction whose step runs a meaning within the frame of the registers that it names. -/
def Framed (i : Instr) : Prop := ∃ m : M Unit, (∀ s, exec i s = runSlot m s) ∧ Frames i.uses.regs m

theorem stopped_not_ran (s : State) (e : Stop) : (stopped s e).issue.verdict ≠ .ran := by
  cases e <;> exact nofun

/-- A meaning that leaves the verdict `ran` has run to its end. -/
theorem gives_of_ran {m : M Unit} {s t : State} (h : runSlot m s = .next t) (hr : t.issue.verdict = .ran) : Gives m s () t := by
  unfold runSlot at h
  split at h
  · next hm => cases h; exact hm
  · cases h; exact absurd hr (stopped_not_ran _ _)

theorem Framed.onlyLands {i : Instr} (hi : Framed i) {s t : State} (hs : Map.wf {} s.ctxs = true) (h : exec i s = .next t)
    (hr : t.issue.verdict = .ran) : OnlyLands i.uses.regs s t := by
  obtain ⟨m, he, hm⟩ := hi
  exact hm s t () hs (gives_of_ran (he s ▸ h) hr)

/-! ### Every form -/

/-- Every instruction of the S slots. -/
theorem framed_of_sWord {i : Instr} (h : i.sWord.isSome = true) : Framed i := by
  cases i with
  | nop => exact ⟨pure (), fun _ => rfl, frames_pure _⟩
  | add | sub | mul | mulh | div | rem | and | or | xor | andn | shl | shr | sar | rot | min | max =>
    exact ⟨_, fun _ => rfl, frames_intBin _ _ _⟩
  | clz | ctz | popc | bfx => exact ⟨_, fun _ => rfl, frames_intUn _ _ _⟩
  | fadd | fsub | fmul => exact ⟨_, fun _ => rfl, frames_fpBin _ _ _⟩
  | frcp | frsq | fexp2 | flog2 => exact ⟨_, fun _ => rfl, frames_fpUn _ _ _⟩
  | fmin | fmax => exact ⟨_, fun _ => rfl, frames_fpMinMax _ _ _⟩
  | li f | mov f => exact ⟨_, fun _ => rfl, frames_bind (frames_readS _ _) (fun _ => frames_landAt f.dst_mem_uses _ _)⟩
  | addr sh f =>
    exact ⟨_, fun _ => rfl, frames_bind (frames_readS _ _) (fun _ => frames_bind (frames_readS _ _) (fun _ =>
      frames_landAt f.dst_mem_uses _ _))⟩
  | sel g neg f =>
    exact ⟨_, fun _ => rfl, frames_bind (frames_readS _ _) (fun _ => frames_bind (frames_readS _ _) (fun _ =>
      frames_bind frames_curCtx (fun _ => frames_landAt (Uses.mem_join_left f.dst_mem_uses) _ _)))⟩
  | cmp c f =>
    exact ⟨_, fun _ => rfl, frames_bind (frames_readS _ _) (fun _ => frames_bind (frames_readS _ _) (fun _ =>
      frames_landAt (Uses.mem_join_right (Uses.mem_ofReg _ _)) _ _))⟩
  | bfi pos len f =>
    exact ⟨_, fun _ => rfl, frames_bind (frames_readS _ _) (fun _ => frames_bind (frames_readScalar _ _) (fun _ =>
      frames_landAt f.dst_mem_uses _ _))⟩
  | xfer file f =>
    refine ⟨_, fun _ => rfl, frames_bind (frames_readS _ _) (fun _ => ?_)⟩
    cases file <;> exact frames_landAt (Uses.mem_join_right (Uses.mem_ofReg _ _)) _ _
  | fma t f =>
    exact ⟨_, fun _ => rfl, frames_bind (frames_readScalar _ _) (fun _ => frames_bind frames_curCtx (fun _ => frames_fpBin _ _ _))⟩
  | fcmp t c f =>
    exact ⟨_, fun _ => rfl, frames_bind (frames_readS _ _) (fun _ => frames_bind (frames_readS _ _) (fun _ =>
      frames_bind frames_curCtx (fun _ => frames_bind (frames_mergeFlags _) (fun _ =>
        frames_landAt (Uses.mem_join_right (Uses.mem_ofReg _ _)) _ _))))⟩
  | fcvt src dst f =>
    exact ⟨_, fun _ => rfl, frames_bind (frames_readS _ _) (fun _ => frames_bind frames_curCtx (fun _ =>
      frames_bind (frames_drawIf _ _) (fun _ => frames_bind (frames_mergeFlags _) (fun _ => frames_landAt f.dst_mem_uses _ _))))⟩
  | rand float slot dst =>
    refine ⟨_, fun s => show execRand float slot dst s = _ from rfl, ?_⟩
    exact frames_bind (frames_draw _) (fun _ => frames_landAt (Uses.mem_ofReg _ _) _ _)
  | _ => cases h

theorem frames_vmask (op : VMaskOp) (slot : VSlot) (dst : BitVec 3) : Framed (.vmask op slot dst) := by
  have land : ∀ m, Frames (Instr.uses (.vmask op slot dst)).regs (landMask slot dst.toNat m) :=
    fun m => frames_landAt (Uses.mem_join_right (Uses.mem_ofReg _ _)) _ _
  refine ⟨_, fun _ => rfl, ?_⟩
  cases op with
  | and a b | or a b | xor a b | andn a b =>
    exact frames_bind (frames_readMask _ _) (fun _ => frames_bind (frames_readMask _ _) (fun _ => land _))
  | not a => exact frames_bind (frames_readMask _ _) (fun _ => land _)
  | first a | nz ty a | neg ty a => exact frames_bind (frames_readV _ _ _) (fun _ => land _)

/-- Every instruction of the V slots. -/
theorem framed_of_vWord {i : Instr} (h : i.vWord.isSome = true) : Framed i := by
  cases i with
  | nop => exact ⟨pure (), fun _ => rfl, frames_pure _⟩
  | vadd | vsub | vmul | vdiv => exact ⟨_, fun _ => rfl, frames_vfBin _ _ _⟩
  | vfma | vfms | vfnma => exact ⟨_, fun _ => rfl, frames_vfTer _ _⟩
  | vmin | vmax => exact ⟨_, fun _ => rfl, frames_vfMinMax _ _⟩
  | vabs | vneg => exact ⟨_, fun _ => rfl, frames_vfSign _ _⟩
  | vrcp | vrsq | vsqrt | vexp2 | vlog2 | vtanh | vsigm | vsilu | vgelu => exact ⟨_, fun _ => rfl, frames_vfUn _ _ _⟩
  | viadd | visub | vimul | vimin | vimax => exact ⟨_, fun _ => rfl, frames_viBin _ _⟩
  | vand | vor | vxor | vshl | vshr | vsar => exact ⟨_, fun _ => rfl, frames_vlBin _ _⟩
  | vimad m f =>
    exact ⟨_, fun _ => rfl, frames_bind (frames_readV _ _ _) (fun _ => frames_bind (frames_readV _ _ _) (fun _ =>
      frames_bind (frames_readV _ _ _) (fun _ => frames_landVX f.dst_mem_uses _ _ _ _)))⟩
  | vcmp c f =>
    refine ⟨_, fun _ => rfl, frames_bind (frames_readV _ _ _) (fun _ => frames_bind (frames_readV _ _ _) (fun _ =>
      frames_bind frames_curCtx (fun _ => frames_bind (frames_readActive _ _) (fun _ => ?_))))⟩
    have rest := fun fl (m : MaskReg) => frames_bind (frames_mergeFlags fl) (fun _ =>
      frames_landAt (regs := (Instr.uses (.vcmp c f)).regs) (Uses.mem_join_right (Uses.mem_ofReg _ _)) (m.setWidth 2048) 2)
    exact frames_ite (frames_bind (frames_readMask _ _) (fun _ => rest _ _)) (frames_bind (frames_pure _) (fun _ => rest _ _))
  | vsel f =>
    exact ⟨_, fun _ => rfl, frames_bind (frames_readV _ _ _) (fun _ => frames_bind (frames_readV _ _ _) (fun _ =>
      frames_bind (frames_readSelector _ _) (fun _ => frames_landV f.dst_mem_uses _ _)))⟩
  | vmask op slot dst => exact frames_vmask op slot dst
  | vmov f | vbcast j f | vclass f =>
    exact ⟨_, fun _ => rfl, frames_bind (frames_readV _ _ _) (fun _ => frames_landVX f.dst_mem_uses _ _ _ _)⟩
  | vperm f | vslide n f =>
    exact ⟨_, fun _ => rfl, frames_bind (frames_readV _ _ _) (fun _ => frames_bind (frames_readV _ _ _) (fun _ =>
      frames_landVX f.dst_mem_uses _ _ _ _))⟩
  | vcomp f =>
    exact ⟨_, fun _ => rfl, frames_bind (frames_readV _ _ _) (fun _ => frames_bind (frames_readSelector _ _) (fun _ =>
      frames_landV f.dst_mem_uses _ _))⟩
  | vexpd f =>
    exact ⟨_, fun _ => rfl, frames_bind (frames_readV _ _ _) (fun _ => frames_bind (frames_readSelector _ _) (fun _ =>
      frames_landLanes f.dst_mem_uses _ _ _ _ _))⟩
  | vpsum f =>
    refine ⟨_, fun _ => rfl, frames_bind (frames_readV _ _ _) (fun _ => frames_bind frames_curCtx (fun _ =>
      frames_bind (frames_readActive _ _) (fun _ => ?_)))⟩
    cases fmtOf f.ty with
    | some g =>
      exact frames_bind (frames_drawIf _ _) (fun _ => frames_bind (frames_readOld _ _ _) (fun _ =>
        frames_bind (frames_mergeFlags _) (fun _ => frames_landLanes f.dst_mem_uses _ _ _ _ _)))
    | none => exact frames_landLanes f.dst_mem_uses _ _ _ _ _
  | vred op f =>
    refine ⟨_, fun _ => rfl, frames_bind (frames_readV _ _ _) (fun _ => frames_bind frames_curCtx (fun _ =>
      frames_bind (frames_readActive _ _) (fun _ => ?_)))⟩
    have rest := fun fl v => frames_bind (frames_mergeFlags fl) (fun _ => frames_landV f.dst_mem_uses v 6)
    cases op with
    | sum =>
      cases fmtOf f.ty with
      | some g => exact frames_bind (frames_drawIf _ _) (fun _ => rest _ _)
      | none => exact frames_landV f.dst_mem_uses _ _
    | sumw | max | min => exact rest _ _
  | vfind c f =>
    exact ⟨_, fun _ => rfl, frames_bind (frames_readV _ _ _) (fun _ => frames_bind (frames_readV _ _ _) (fun _ =>
      frames_bind frames_curCtx (fun _ => frames_bind (frames_readActive _ _) (fun _ => frames_landV f.dst_mem_uses _ _))))⟩
  | vcnt f | viota f =>
    exact ⟨_, fun _ => rfl, frames_bind (frames_readSelector _ _) (fun _ => frames_landV f.dst_mem_uses _ _)⟩
  | vcvt dst h sat f =>
    exact ⟨_, fun _ => rfl, frames_bind (frames_readV _ _ _) (fun _ => frames_bind frames_curCtx (fun _ =>
      frames_bind (frames_drawIf _ _) (fun _ => frames_landPart f.dst_mem_uses _ _ _ _ _ _ _)))⟩
  | vquant scales dst h f =>
    refine ⟨_, fun _ => rfl, frames_bind (frames_readV _ _ _) (fun _ => frames_bind frames_curCtx (fun _ => ?_))⟩
    cases scales with
    | true =>
      exact frames_bind (frames_vecIndex _) (fun _ => frames_bind (frames_readActive _ _) (fun _ =>
        frames_bind (frames_readReg _ _) (fun _ => frames_bind (frames_mergeFlags _) (fun _ =>
          frames_landAt (Uses.mem_join_right (Uses.mem_ofVec _ _)) _ _))))
    | false =>
      exact frames_bind (frames_readV _ _ _) (fun _ => frames_bind (frames_drawIf _ _) (fun _ =>
        frames_landPart f.dst_mem_uses _ _ _ _ _ _ _))
  | vdeq dst h f | vcwdec dst h view o f =>
    exact ⟨_, fun _ => rfl, frames_bind (frames_readV _ _ _) (fun _ => frames_bind (frames_readV _ _ _) (fun _ =>
      frames_bind frames_curCtx (fun _ => frames_bind (frames_drawIf _ _) (fun _ => frames_landPart f.dst_mem_uses _ _ _ _ _ _ _))))⟩
  | vcwenc h f =>
    exact ⟨_, fun _ => rfl, frames_bind (frames_readV _ _ _) (fun _ => frames_bind (frames_readV _ _ _) (fun _ =>
      frames_bind frames_curCtx (fun _ => frames_bind (frames_drawIf _ _) (fun _ => frames_landPart f.dst_mem_uses _ _ _ _ _ _ _))))⟩
  | vrand f => exact ⟨_, fun _ => rfl, frames_bind (frames_draw _) (fun _ => frames_landVX f.dst_mem_uses _ _ _ _)⟩
  | vxfer file j f =>
    refine ⟨_, fun _ => rfl, frames_bind (frames_readV _ _ _) (fun _ => ?_)⟩
    cases file with
    | other => exact frames_bind (frames_vecIndex _) (fun _ => frames_landAt (Uses.mem_join_right (Uses.mem_ofVec _ _)) _ _)
    | a | b | p | k => exact frames_landAt (Uses.mem_join_right (Uses.mem_ofReg _ _)) _ _
  | vins j f =>
    exact ⟨_, fun _ => rfl, frames_bind (frames_readV _ _ _) (fun _ => frames_bind (frames_vecIndex _) (fun _ =>
      frames_bind (frames_readReg _ _) (fun _ => frames_landV f.dst_mem_uses _ _)))⟩
  | _ => cases h

/-- A word of an S or V slot encodes an instruction of that class. -/
theorem encode_scalar_or_vector {i : Instr} {slot : SlotId} {w : Word} (h : encode i = some (slot, w))
    (hs : slot = .s0 ∨ slot = .s1 ∨ slot = .v0 ∨ slot = .v1) : i.sWord.isSome = true ∨ i.vWord.isSome = true := by
  cases hS : i.sWord with
  | some f => exact .inl rfl
  | none =>
    cases hV : i.vWord with
    | some f => exact .inr rfl
    | none =>
      unfold encode at h
      rw [hS, hV] at h
      split at h
      · next e => cases e
      · next e => cases e
      · cases h; simp at hs
      · next e _ _ _ _ _ => cases h; cases e <;> simp [TSlot.id] at hs
      · cases h; simp at hs
      · cases h

/-- Settles O53: each form is built of parts that run within the frame, and a slot that leaves the verdict `ran` has run to its end. -/
theorem slotFrame : Obligations.SlotFrame := by
  unfold Obligations.SlotFrame
  intro i slot w s t hs hw hslot _ h hr
  have hi : Framed i := (encode_scalar_or_vector hw hslot).elim framed_of_sWord framed_of_vWord
  obtain ⟨ht, -, hoth, hown⟩ := hi.onlyLands hs.2.1 h hr
  exact ⟨ht, hoth, hown⟩

end Sys2Proof.Proofs

/-! SUPPORT. A state outside the canonical form, on which the forms that draw read another context after the draw than before it.
Nothing reachable looks like it; the statements on VRAND, VPSUM and VRED do not ask for the canonical form. -/

namespace Sys2Proof.Proofs

open Sys2Proof Machine Laws

/-- What each part of a meaning gave, when the whole gave something. -/
theorem gives_bind_inv {α β : Type} {m : M α} {f : α → M β} {s u : State} {w : β} (h : Gives (m >>= f) s w u) :
    ∃ v t, Gives m s v t ∧ Gives (f v) t w u := by
  unfold Gives at *
  rw [StateT.run_bind] at h
  cases hr : m.run s with
  | error e => rw [hr] at h; cases h
  | ok r =>
    obtain ⟨v, t⟩ := r
    rw [hr] at h
    exact ⟨v, t, rfl, h⟩

/-- A vector register can be named only where sys.vregs lies above it (R67). -/
theorem lt_vregs_of_gives {i : Nat} {s t : State} {v : Unit} (h : Gives (vecIndex i) s v t) : i < (issuer s).vregs.toNat := by
  by_contra hi
  unfold vecIndex at h
  obtain ⟨x, u, hx, h⟩ := gives_bind_inv h
  cases hx
  rw [needWord, decide_eq_false hi] at h
  cases h

@[simp] theorem drawn_issue (s : State) (n : Nat) : (drawn s n).issue = s.issue := rfl
@[simp] theorem flagged_issue (s : State) (fl : Nat) : (flagged s fl).issue = s.issue := by
  unfold flagged
  split <;> rfl
@[simp] theorem landed_issue (s : State) (file idx : Nat) (v : VecReg) (lat : Nat) : (landed s file idx v lat).issue = s.issue := rfl

/-- Context 0 listed twice: first with its stream `n` blocks below position 0 and all else as at reset, then without vector
registers. Once it has drawn `n` blocks the first entry equals the default and is dropped, and reads find the second. -/
def listedTwice (n : Nat) : State :=
  { State.reset with ctxs := [(0, { rctr := -BitVec.ofNat 128 n }), (0, { vregs := 0 })] }

theorem enables_listedTwice (n : Nat) : (issuer (listedTwice n)).enables = 0 := by
  show bitsAt (0#64).toNat 4 6 = 0
  decide
theorem compat_listedTwice (n : Nat) : (issuer (listedTwice n)).compat = false := by
  show (0#64).getLsbD 3 = false
  decide

theorem vregs_drawn_listedTwice (n : Nat) : (issuer (drawn (listedTwice n) n)).vregs = 0 := by
  have h : Map.upd {} (listedTwice n).ctxs 0 (fun x => { x with rctr := x.rctr + BitVec.ofNat 128 n }) = [(0, { vregs := 0 })] := by
    have e : (Map.get {} (listedTwice n).ctxs 0).rctr + BitVec.ofNat 128 n = 0 := BitVec.add_left_neg _
    rw [Map.upd, Map.set, e]
    rfl
  exact congrArg (fun l => (Map.get {} l 0).vregs) h

/-- After the draw no destination can be named. -/
theorem not_gives_readOld_drawn (n : Nat) (slot : VSlot) (m : Option (BitVec 3)) (dst : BitVec 10) (t : State) :
    ¬ Gives (readOld slot m dst) (drawn (listedTwice n) n) () t := by
  intro h
  obtain ⟨v, u, hv, -⟩ := gives_bind_inv h
  have := lt_vregs_of_gives hv
  rw [vregs_drawn_listedTwice] at this
  exact Nat.not_lt_zero _ this

/-- Before it the unmasked destination 0 can. -/
theorem vDest_listedTwice (n : Nat) : VDest .v0 none 0 (listedTwice n) (fun _ => true) 0 := ⟨rfl, rfl, nofun⟩

/-- The header literal as a V operand, outside a template (R62, R208). -/
theorem reads_imm {s : State} (h : s.issue.kind ≠ 2) (slot : VSlot) (ty : ElemTy) :
    Reads (readV slot ty .imm) s (immSplat ty s.issue.imm) := by
  refine gives_bind (v := s.issue.imm) (gives_bind (gives_get s) ?_) (gives_pure _ s)
  rw [if_neg h]
  exact gives_pure _ s

/-- Refutes O10: the statement on VRAND does not ask for a canonical state, and with context 0 listed twice the draw uncovers the
second entry, whose sys.vregs is 0, so that the destination is an illegal one and the form traps. -/
theorem not_vectorUnrounded : ¬ Obligations.VectorUnrounded := by
  unfold Obligations.VectorUnrounded
  rintro ⟨-, hrand, -⟩
  obtain ⟨v, hv, -⟩ := hrand ⟨.v0, .u32, none, 0⟩ (listedTwice 16) 0 _ (.inl rfl) (vDest_listedTwice 16)
  unfold exec execVrand at hv
  obtain ⟨u, t, hu, h⟩ := gives_bind_inv (gives_of_ran hv rfl)
  cases hu
  obtain ⟨active, t, ha, h⟩ := gives_bind_inv h
  cases ha
  obtain ⟨_, t, ho, -⟩ := gives_bind_inv h
  exact not_gives_readOld_drawn 16 _ _ _ _ ho

/-- Refutes O14: the statement on VPSUM and VRED of narrow formats does not ask for a canonical state, and with context 0 listed
twice the draw uncovers the second entry, whose sys.vregs is 0, so that VPSUM on BF16 traps. -/
theorem not_vectorSums : ¬ Obligations.VectorSums := by
  unfold Obligations.VectorSums
  rintro ⟨-, hfp⟩
  obtain ⟨s, hs⟩ : ∃ s, s = listedTwice 32 := ⟨_, rfl⟩
  have hd : VDest .v0 none 0 s (fun _ => true) 0 := hs ▸ vDest_listedTwice 32
  have he : (issuer s).enables = 0 := hs ▸ enables_listedTwice 32
  have hc : (issuer s).compat = false := hs ▸ compat_listedTwice 32
  have ha := reads_imm (s := s) (by rw [hs]; decide) .v0 .bf16
  obtain ⟨hsum, -, -⟩ := hfp ⟨.v0, .bf16, none, 0, .imm, .ctx⟩ s _ (fun _ => true) ha hd.1 hd.2.1
  obtain ⟨hpsum, -⟩ := hsum rfl
  obtain ⟨v, hv, -⟩ := hpsum 0 hd (by rw [he]; exact Nat.and_zero _)
  unfold exec execVpsum at hv
  obtain ⟨a, t, ha, h⟩ := gives_bind_inv (gives_of_ran hv (by rw [landed_issue, flagged_issue, hc, hs]; rfl))
  obtain ⟨x, t, hx, h⟩ := gives_bind_inv h
  obtain ⟨active, u, hact, h⟩ := gives_bind_inv h
  cases ha.symm.trans (reads_imm (by rw [hs]; decide) .v0 .bf16)
  cases hx
  cases hact
  rw [fmtOf] at h
  dsimp only at h
  rw [hc] at h
  obtain ⟨u, t, hu, h⟩ := gives_bind_inv h
  cases hu
  obtain ⟨_, t, ho, -⟩ := gives_bind_inv h
  exact not_gives_readOld_drawn 32 _ _ _ _ (hs ▸ ho)
end Sys2Proof.Proofs

/-! SUPPORT. What the operations of a posted access change: writes of memory, the watch check, logical time, and the results that
become ready (R93, R185, R249, R313, R322). -/

namespace Sys2Proof.Proofs

open Sys2Proof Machine Laws

/-! ### Bytes -/

/-- Every byte of a memory in which a range was written. -/
theorem get_putBytes {m : Map Byte} (h : Memory.wf m = true) (pa : Nat) (bs : List Byte) (a : Nat) :
    Map.get Config.resetByte (putBytes m pa bs) a =
      if pa ≤ a ∧ a < pa + bs.length then bs.getD (a - pa) 0 else Map.get Config.resetByte m a := by
  split
  · next ha =>
    have hi : a - pa < bs.length := by omega
    have := get_putBytes_inside h pa bs hi
    rw [show pa + (a - pa) = a by omega] at this
    rw [this, List.getD_eq_getElem _ _ hi]
  · next ha => exact get_putBytes_outside h pa bs (by omega)

theorem getD_leBytes (n x i : Nat) (h : i < n) : (leBytes n x).getD i 0 = BitVec.ofNat 8 (x / 256 ^ i) := by
  induction n generalizing x i with
  | zero => omega
  | succ n ih =>
    cases i with
    | zero => simp [leBytes]
    | succ i =>
      have := ih (x / 256) i (by omega)
      rw [Nat.div_div_eq_div_mul, ← Nat.pow_succ'] at this
      simpa [leBytes] using this

theorem rawBytes_length (m : Map Byte) (pa n : Nat) : (rawBytes m pa n).length = n := by simp [rawBytes]

/-! ### Writes -/

/-- The watch check changes watch tables and reports hits, and nothing else (R322). -/
theorem watchCheck_eq (s : State) (w : Writer) (pa n : Nat) :
    s.watchCheck w pa n = { s with cores := (s.watchCheck w pa n).cores, watchHits := (s.watchCheck w pa n).watchHits } := by
  have fold : ∀ (l : Map Core) (t : State), let u := l.foldl (fun s (k, x) =>
      if x.watch.isEmpty then s else
      let (x', hits) := watchCore w pa n k x
      if hits.isEmpty then s else { s.updCore k (fun _ => x') with watchHits := s.watchHits ++ hits }) t
      u = { t with cores := u.cores, watchHits := u.watchHits } := by
    intro l
    induction l with
    | nil => intro t; rfl
    | cons p l ih =>
      intro t
      obtain ⟨k, x⟩ := p
      dsimp only [List.foldl_cons]
      rw [ih]
      split
      · rfl
      · split <;> rfl
  exact fold s.cores s

theorem watchCheck_ctxs (s : State) (w : Writer) (pa n : Nat) : (s.watchCheck w pa n).ctxs = s.ctxs := by rw [watchCheck_eq]
theorem watchCheck_redShadow (s : State) (w : Writer) (pa n : Nat) : (s.watchCheck w pa n).redShadow = s.redShadow := by
  rw [watchCheck_eq]

/-- A write changes the bytes of its range and no context, no cluster and no sequence. -/
theorem write_mem (s : State) (w : Writer) (cnt : Bool) (pa : Nat) (bs : List Byte) :
    (s.write w cnt pa bs).mem = putBytes s.mem pa bs := by
  unfold State.write
  dsimp only
  split
  · next h => rw [List.length_eq_zero_iff.mp h]; rfl
  · rw [watchCheck_eq]
    split <;> rfl

theorem write_ctxs (s : State) (w : Writer) (cnt : Bool) (pa : Nat) (bs : List Byte) : (s.write w cnt pa bs).ctxs = s.ctxs := by
  unfold State.write
  dsimp only
  split
  · rfl
  · rw [watchCheck_eq]
    split <;> rfl

theorem write_units (s : State) (w : Writer) (cnt : Bool) (pa : Nat) (bs : List Byte) :
    (s.write w cnt pa bs).seqs = s.seqs ∧ (s.write w cnt pa bs).clusters = s.clusters := by
  unfold State.write
  dsimp only
  split
  · exact ⟨rfl, rfl⟩
  · rw [watchCheck_eq]
    split <;> exact ⟨rfl, rfl⟩

/-- Outside the management space an access reaches memory. -/
theorem storeAt_eq_write {pa : Nat} (h : mgmtOff pa = none) (s : State) (w : Writer) (cnt : Bool) (bs : List Byte) :
    s.storeAt w cnt pa bs = s.write w cnt pa bs := by
  unfold State.storeAt
  rw [h]

/-- Without a live shadow a read leaves the state as it is. -/
theorem readAt_eq_raw {s : State} {pa : Nat} (h : mgmtOff pa = none) (hr : s.redShadow = []) (n : Nat) :
    s.readAt pa n = (rawBytes s.mem pa n, s) := by
  unfold State.readAt
  rw [h]
  simp [State.readBytes, hr]

/-! ### Races and logical time -/

theorem raceCheck_off {x : Issuer} (h : x.region.race = 0) (s : State) (store : Bool) (p : Span) : raceCheck s x store p = s := by
  unfold raceCheck
  simp [h]

/-- From `s` to `t` no context has changed but in its logical time. -/
def TimesMoved (s t : State) : Prop :=
  Map.wf {} t.ctxs = true ∧ ∀ c, t.ctx c = { s.ctx c with ltime := (t.ctx c).ltime }

theorem TimesMoved.refl {s : State} (h : Map.wf {} s.ctxs = true) : TimesMoved s s := ⟨h, fun _ => rfl⟩

theorem TimesMoved.trans {s t u : State} (h : TimesMoved s t) (k : TimesMoved t u) : TimesMoved s u :=
  ⟨k.1, fun c => by rw [k.2 c, h.2 c]⟩

/-- States with the same contexts. -/
theorem TimesMoved.of_ctxs_eq {s t u : State} (h : TimesMoved s t) (hu : u.ctxs = t.ctxs) : TimesMoved s u := by
  have hc : ∀ c, u.ctx c = t.ctx c := fun c => by rw [State.ctx, State.ctx, hu]
  exact ⟨hu ▸ h.1, fun c => by rw [hc c]; exact h.2 c⟩

theorem timeStore_eq (s : State) (c pa : Nat) :
    timeStore s c pa = { s with ctxs := (timeStore s c pa).ctxs, lineTimes := (timeStore s c pa).lineTimes } := rfl

theorem timeStore_mem (s : State) (c pa : Nat) : (timeStore s c pa).mem = s.mem := by rw [timeStore_eq]
theorem timeStore_redShadow (s : State) (c pa : Nat) : (timeStore s c pa).redShadow = s.redShadow := by rw [timeStore_eq]

/-- The time to which a store moves its context: past every earlier write of the line. -/
theorem timeStore_ctxs (s : State) (c pa : Nat) :
    (timeStore s c pa).ctxs = (s.updCtx c (fun x =>
      { x with ltime := max (s.ctx c).ltime (Map.get (0, 0) s.lineTimes (pa / 64)).2 })).ctxs := rfl

theorem timeStore_times {s : State} (h : Map.wf {} s.ctxs = true) (c pa : Nat) : TimesMoved s (timeStore s c pa) := by
  refine TimesMoved.of_ctxs_eq ⟨State.wf_updCtx s c _ h, fun i => ?_⟩ (timeStore_ctxs s c pa)
  by_cases hi : i = c
  · rw [hi, State.ctx_updCtx_self s c _ h]
  · rw [State.ctx_updCtx_of_ne s c i _ h hi]

theorem timeLoad_eq (s : State) (c pa : Nat) :
    timeLoad s c pa = { s with ctxs := (timeLoad s c pa).ctxs, lineTimes := (timeLoad s c pa).lineTimes } := rfl

/-- Reads of lines move times and nothing else. -/
theorem timeSpans_timeLoad_eq (s : State) (c : Nat) (ps : List Span) :
    timeSpans timeLoad s c ps =
      { s with ctxs := (timeSpans timeLoad s c ps).ctxs, lineTimes := (timeSpans timeLoad s c ps).lineTimes } := by
  have fold : ∀ (l : List Nat) (t : State), let u := l.foldl (fun s k => timeLoad s c (64 * k)) t
      u = { t with ctxs := u.ctxs, lineTimes := u.lineTimes } := by
    intro l
    induction l with
    | nil => intro t; rfl
    | cons k l ih =>
      intro t
      have h := ih (timeLoad t c (64 * k))
      rw [timeLoad_eq t] at h
      exact h
  exact fold _ s

/-! ### Results that become ready -/

theorem ctx_readyPending {s : State} (h : Map.wf {} s.ctxs = true) (c seq : Nat) (vals : List VecReg)
    (tag : Option (BitVec 8 × Word)) (i : Nat) :
    (readyPending s c seq vals tag).ctx i = { s.ctx i with
      pending := if i = c then (s.ctx i).pending.map (fun p =>
        if p.seq == seq then { p with ready := true, vals := vals, tag := tag } else p) else (s.ctx i).pending } := by
  unfold readyPending
  by_cases hi : i = c
  · rw [if_pos hi, hi, State.ctx_updCtx_self s c _ h]
  · rw [if_neg hi, State.ctx_updCtx_of_ne s c i _ h hi]

end Sys2Proof.Proofs

/-! SUPPORT. A posted store as it is performed: piece by piece, the sectors of one step together (R185, R313, R320). -/

namespace Sys2Proof.Proofs

open Sys2Proof Machine Laws

/-! ### One piece -/

/-- A piece writes its bytes over what its race check has left. -/
theorem performPiece_mem (x : Issuer) (i : BitVec 16) (s : State) {q : Piece} (h : mgmtOff q.pa = none) :
    (performPiece x i s q).mem =
      putBytes (raceCheck s x true ⟨q.pa, q.va.toNat, q.bytes.length, q.cnt⟩).mem q.pa q.bytes := by
  unfold performPiece
  dsimp only
  rw [timeStore_mem, storeAt_eq_write h, write_mem]

/-- What memory holds after a piece has been written over `m`. -/
def overPiece (m : Nat → Byte) (q : Piece) (a : Nat) : Byte :=
  if q.pa ≤ a ∧ a < q.pa + q.bytes.length then q.bytes.getD (a - q.pa) 0 else m a

/-- From `s` to `t` the bytes of memory have changed as `m` says, and else no context but in its time, no sequence and no cluster. -/
def Performed (s t : State) (m : Nat → Byte) : Prop :=
  (∀ a, byteAt t a = m a) ∧ MemOk t ∧ TimesMoved s t ∧ t.seqs = s.seqs ∧ t.clusters = s.clusters

/-- A piece of a region without a race detector. -/
theorem performPiece_performed {x : Issuer} (hx : x.region.race = 0) (i : BitVec 16) {s : State} (hm : MemOk s)
    (hs : Map.wf {} s.ctxs = true) {q : Piece} (h : mgmtOff q.pa = none) :
    Performed s (performPiece x i s q) (overPiece (byteAt s) q) := by
  have e : performPiece x i s q = timeStore (s.write (s.ctxWriter x.ctx i) q.cnt q.pa q.bytes) x.ctx q.pa := by
    unfold performPiece
    dsimp only
    rw [raceCheck_off hx, storeAt_eq_write h]
  have hc := write_ctxs s (s.ctxWriter x.ctx i) q.cnt q.pa q.bytes
  have hu := write_units s (s.ctxWriter x.ctx i) q.cnt q.pa q.bytes
  have hmem : (performPiece x i s q).mem = putBytes s.mem q.pa q.bytes := by rw [performPiece_mem x i s h, raceCheck_off hx]
  refine ⟨fun a => ?_, ?_, ?_, ?_⟩
  · rw [byteAt, hmem]
    exact get_putBytes hm q.pa q.bytes a
  · rw [MemOk, hmem]
    exact wf_putBytes hm _ _
  · rw [e]
    exact ((TimesMoved.refl hs).of_ctxs_eq hc).trans (timeStore_times (hc ▸ hs) _ _)
  · rw [e]
    exact hu

/-- The pieces of one step, each over what the ones before it left. -/
theorem foldl_performPiece {x : Issuer} (hx : x.region.race = 0) (i : BitVec 16) (l : List Piece) {s : State} (hm : MemOk s)
    (hs : Map.wf {} s.ctxs = true) (h : ∀ r ∈ l, mgmtOff r.pa = none) :
    Performed s (l.foldl (performPiece x i) s) (l.foldl overPiece (byteAt s)) := by
  induction l generalizing s with
  | nil => exact ⟨fun _ => rfl, hm, TimesMoved.refl hs, rfl, rfl⟩
  | cons q l ih =>
    obtain ⟨hb, hm', ht, hq, hcl⟩ := performPiece_performed hx i hm hs (h q List.mem_cons_self)
    obtain ⟨hb', hm'', ht', hq', hcl'⟩ := ih hm' ht.1 (fun r hr => h r (List.mem_cons_of_mem q hr))
    refine ⟨fun a => ?_, hm'', ht.trans ht', hq'.trans hq, hcl'.trans hcl⟩
    rw [show byteAt (performPiece x i s q) = overPiece (byteAt s) q from funext hb] at hb'
    exact hb' a

/-! ### The step -/

/-- Counting a store at its home changes counts of the core or of the die alone (R267). -/
theorem countStored_frame (s : State) (src : Nat) (asid : BitVec 16) (pa : Nat) :
    (countStored s src asid pa).mem = s.mem ∧ (countStored s src asid pa).ctxs = s.ctxs ∧
      (countStored s src asid pa).seqs = s.seqs ∧ (countStored s src asid pa).clusters = s.clusters := by
  unfold countStored
  split <;> exact ⟨rfl, rfl, rfl, rfl⟩

/-- A step of a posted store whose pieces no shard holds back. -/
theorem performPosted_store {s : State} {x : Issuer} {p : Posted} {q : Piece} {qs : List Piece} (hm : MemOk s)
    (hs : Map.wf {} s.ctxs = true) (hx : x.region.race = 0) (hk : p.kind = .store (q :: qs))
    (hnow : ∀ r ∈ (q :: qs).filter (fun r => r.pa / 64 == q.pa / 64),
      mgmtOff r.pa = none ∧ heldShard s (dieOf x.ctx) x.region.space r.va.toNat r.bytes.length = false) :
    let later := (q :: qs).filter (fun r => r.pa / 64 != q.pa / 64)
    ∃ t, performPosted s x p = some (t, if later = [] then none else some { p with kind := .store later }) ∧
      Performed s t (((q :: qs).filter (fun r => r.pa / 64 == q.pa / 64)).foldl overPiece (byteAt s)) := by
  intro later
  have hfree : ((q :: qs).filter (fun r => r.pa / 64 == q.pa / 64)).any
      (fun r => heldShard s (dieOf x.ctx) x.region.space r.va.toNat r.bytes.length) = false :=
    List.any_eq_false.mpr (fun r hr => by rw [(hnow r hr).2]; exact Bool.false_ne_true)
  have hf := foldl_performPiece hx p.interval _ hm hs (fun r hr => (hnow r hr).1)
  unfold performPosted
  rw [hk]
  dsimp only [firstSector]
  rw [hfree]
  change ∃ t, (if later.isEmpty = true then _ else _) = _ ∧ _
  by_cases hl : later = []
  · rw [if_pos hl, if_pos (List.isEmpty_iff.mpr hl)]
    refine ⟨_, rfl, ?_⟩
    obtain ⟨hb, hm', ht, hq, hcl⟩ := hf
    obtain ⟨cm, cc, cq, ccl⟩ := countStored_frame (((q :: qs).filter (fun r => r.pa / 64 == q.pa / 64)).foldl
      (performPiece x p.interval) s) (coreOf x.ctx) x.region.space.asid q.pa
    refine ⟨fun a => ?_, ?_, ht.of_ctxs_eq cc, cq.trans hq, ccl.trans hcl⟩
    · rw [← hb a]; exact congrArg (fun m => Map.get Config.resetByte m a) cm
    · exact (congrArg (Map.wf Config.resetByte) cm).trans hm'
  · rw [if_neg hl, if_neg (by simpa using hl)]
    exact ⟨_, rfl, hf⟩

end Sys2Proof.Proofs

/-! SUPPORT. A posted atomic as it is performed (R47, R193, R194): the element, the shadow of a narrow location, and the result. -/

namespace Sys2Proof.Proofs

open Sys2Proof Machine Laws

/-! ### Elements as numbers -/

theorem two_mul_two_pow_pred {w : Nat} (h : 0 < w) : 2 * 2 ^ (w - 1) = 2 ^ w := by
  rw [← Nat.pow_succ']
  congr 1
  omega

/-- The two's complement value of the low bits of a number. -/
theorem toInt_ofNat_eq_sextNat {w : Nat} (h : 0 < w) (y : Nat) : (BitVec.ofNat w y).toInt = sextNat w y := by
  have hp := two_mul_two_pow_pred h
  rw [BitVec.toInt_eq_toNat_cond, BitVec.toNat_ofNat, sextNat]
  split <;> split <;> omega

/-- An element as a number of its type, signed or not. -/
theorem laneInt_eq (ty : ElemTy) (y : Nat) : laneInt ty y = if ty.signed then (BitVec.ofNat ty.width y).toInt else (y : Int) := by
  rw [laneInt, toInt_ofNat_eq_sextNat (width_pos ty)]

/-- An element as a scalar register takes it (R189). -/
theorem extElem_eq (ty : ElemTy) {y : Nat} (h : y < 2 ^ ty.width) :
    extElem ty y = if ty.signed then (BitVec.ofNat ty.width y).signExtend 64 else BitVec.ofNat 64 y := by
  rw [extElem, Nat.mod_eq_of_lt h, ← toInt_ofNat_eq_sextNat (width_pos ty)]
  rfl

theorem width_eq_bytes (ty : ElemTy) : 8 * elemBytes ty = ty.width := by cases ty <;> rfl

/-- The element that memory holds is a number of its width. -/
theorem leNat_rawBytes_lt (ty : ElemTy) (m : Map Byte) (pa : Nat) : leNat (rawBytes m pa (elemBytes ty)) < 2 ^ ty.width := by
  have := leNat_lt (rawBytes m pa (elemBytes ty))
  rwa [rawBytes_length, show (256 : Nat) = 2 ^ 8 from rfl, ← Nat.pow_mul, width_eq_bytes] at this

/-! ### Delivered results fit their format -/

theorem signBit_add_lt (f : FFmt) (neg : Bool) {x : Nat} (h : x < 2 ^ (f.width - 1)) : f.signBit neg + x < 2 ^ f.width := by
  have hp : 2 * 2 ^ (f.width - 1) = 2 ^ f.width := by cases f <;> rfl
  unfold FFmt.signBit
  split <;> omega

theorem maxBits_lt (f : FFmt) : f.maxBits < 2 ^ (f.width - 1) := by cases f <;> decide
theorem infBits_lt (f : FFmt) : f.infBits < 2 ^ (f.width - 1) := by cases f <;> decide

theorem overflow_lt (f : FFmt) (mode : RMode) (neg : Bool) : (f.overflow mode neg).1 < 2 ^ f.width := by
  have magnitude : ∀ toMax : Bool, (if toMax then f.maxBits else f.infBits) < 2 ^ (f.width - 1) := by
    intro toMax
    split
    · exact maxBits_lt f
    · exact infBits_lt f
  unfold FFmt.overflow
  split
  · exact signBit_add_lt f neg (maxBits_lt f)
  · exact signBit_add_lt f neg (magnitude _)

theorem round_lt (f : FFmt) (mode : RMode) (u : Nat) (nat neg : Bool) (x : Mag) : (f.round mode u nat neg x).1 < 2 ^ f.width := by
  have h1 : 1 < 2 ^ (f.width - 1) := by cases f <;> decide
  have inRange : ∀ bits fl, (if f.maxBits < bits then f.overflow mode neg else (f.signBit neg + bits, fl)).1 < 2 ^ f.width := by
    intro bits fl
    split
    · exact overflow_lt f mode neg
    · next h => exact signBit_add_lt f neg (lt_of_le_of_lt (not_lt.mp h) (maxBits_lt f))
  unfold FFmt.round
  split
  · exact signBit_add_lt f neg (x := 0) (by omega)
  · dsimp only
    split
    · refine signBit_add_lt f neg ?_
      split <;> omega
    · exact inRange _ _

/-- The bits that a result is delivered in (R26, R36). -/
theorem deliver_lt (f : FFmt) (mode : RMode) (u : Nat) (nat : Bool) (r : FRes) : (r.deliver f mode u nat).1 < 2 ^ f.width := by
  cases r with
  | nan fl => show f.nan < 2 ^ f.width; cases f <;> decide
  | inf neg fl => exact signBit_add_lt f neg (infBits_lt f)
  | zero neg => exact signBit_add_lt f neg (x := 0) (by positivity)
  | real neg x => exact round_lt f mode u nat neg x

/-- The format of a type that has one is of the type's width. -/
theorem fmtD_width {ty : ElemTy} : (fmtD ty).narrow = true → (fmtD ty).width = ty.width := by cases ty <;> decide

/-! ### One atomic at its home -/

/-- The two ways of an atomic: an additive reduction of a shadowed narrow location, or a read and a write (R47, R193). -/
theorem atomApply_eq (s : State) (w : Writer) (op : AtomOp) (ty : ElemTy) (pa x y : Nat) :
    atomApply s w op ty pa x y =
      if op = .fadd && (fmtD ty).narrow && shadowed s pa then
        ((shadowAdd s ty pa x).1.watchCheck { w with race := none } pa (elemBytes ty), (shadowAdd s ty pa x).2)
      else
        ((s.readAt pa (elemBytes ty)).2.storeAt { w with race := none } false pa
          (leBytes (elemBytes ty) (atomNew op ty (leNat (s.readAt pa (elemBytes ty)).1) x y)), leNat (s.readAt pa (elemBytes ty)).1) := by
  cases ty <;> rfl

/-- An atomic that reads and writes memory. -/
theorem atomApply_memory {s : State} {op : AtomOp} {ty : ElemTy} {pa : Nat} (hp : mgmtOff pa = none) (hr : s.redShadow = [])
    (h : ¬ (op = .fadd ∧ (fmtD ty).narrow = true ∧ shadowed s pa = true)) (w : Writer) (x y : Nat) :
    atomApply s w op ty pa x y =
      (s.write { w with race := none } false pa
        (leBytes (elemBytes ty) (atomNew op ty (leNat (rawBytes s.mem pa (elemBytes ty))) x y)),
        leNat (rawBytes s.mem pa (elemBytes ty))) := by
  rw [atomApply_eq, if_neg (by simpa [and_assoc] using h), readAt_eq_raw hp hr, storeAt_eq_write hp]

/-- A package without a live shadow has room for one. -/
theorem shadowRoom_first {s : State} (hr : s.redShadow = []) (line : Nat) :
    shadowRoom s line = { s with shadowLines := [line] } := by
  have hl : s.shadowLines.filter (hasShadow s) = [] := by simp [hasShadow, hr]
  unfold shadowRoom
  rw [hl]
  simp [State.inSet]

/-- The first reduction of a narrow location starts its shadow from what memory holds (R47). -/
theorem shadowAdd_first {s : State} (hr : s.redShadow = []) (ty : ElemTy) (pa x : Nat) :
    let f := fmtD ty
    let wide := ((f.decode (leNat (rawBytes s.mem pa (elemBytes ty)))).res.deliver .fp32 .rne 0 false).1
    let t := (shadowAdd s ty pa x).1
    t.mem = s.mem ∧ t.ctxs = s.ctxs ∧
      t.redShadow = [(pa, ty.code.toNat, ((fAdd .rne (FFmt.fp32.decode wide) (f.decode x)).deliver .fp32 .rne 0 false).1)] ∧
      (shadowAdd s ty pa x).2 = roundShadow f wide := by
  unfold shadowAdd
  dsimp only
  rw [hr, shadowRoom_first hr]
  simp [Map.find?, State.flushShadows, State.settle, State.dropShadows, hr, State.peek, Map.put]

/-! ### The step -/

/-- What an atomic's result does to the contexts: times may move, and the result that waits for the old element is ready. -/
def Returned (s t : State) (c : Nat) (ret : Option Nat) (v : Word) : Prop :=
  ∀ i, t.ctx i = { s.ctx i with
    ltime := (t.ctx i).ltime
    pending := match ret with
      | some n => if i = c then (s.ctx i).pending.map (fun r => if r.seq == n then
          { r with ready := true, vals := [v.setWidth 2048], tag := none } else r) else (s.ctx i).pending
      | none => (s.ctx i).pending }

/-- The end of an atomic: the times of its line move, and its result, if it has one, is ready. -/
def atomEnds (s : State) (c pa : Nat) (ret : Option Nat) (v : Word) : State :=
  match ret with
  | some n => readyPending (timeStore s c pa) c n [v.setWidth 2048] none
  | none => timeStore s c pa

theorem atomEnds_frame (s : State) (c pa : Nat) (ret : Option Nat) (v : Word) :
    (atomEnds s c pa ret v).mem = s.mem ∧ (atomEnds s c pa ret v).redShadow = s.redShadow := by
  have h : (timeStore s c pa).mem = s.mem ∧ (timeStore s c pa).redShadow = s.redShadow :=
    ⟨timeStore_mem s c pa, timeStore_redShadow s c pa⟩
  cases ret with
  | none => exact h
  | some n => exact h

theorem atomEnds_returned {s u : State} (hs : Map.wf {} s.ctxs = true) (hu : u.ctxs = s.ctxs) (c pa : Nat) (ret : Option Nat) (v : Word) :
    Returned s (atomEnds u c pa ret v) c ret v := by
  have ht : TimesMoved s (timeStore u c pa) :=
    ((TimesMoved.refl hs).of_ctxs_eq hu).trans (timeStore_times (hu ▸ hs) c pa)
  intro i
  cases ret with
  | none => exact ht.2 i
  | some n =>
    show (readyPending _ c n _ none).ctx i = _
    rw [atomEnds, ctx_readyPending ht.1, ht.2 i]

/-- An atomic whose element is readable is applied, and then ends. -/
theorem performPosted_atom {s : State} {x : Issuer} {p : Posted} {op : AtomOp} {ty : ElemTy} {va : Word} {pa : Nat} {a b : Word}
    {ret : Option Nat} (hk : p.kind = .atom op ty va pa a b ret)
    (hheld : heldShard s (dieOf x.ctx) x.region.space va.toNat (elemBytes ty) = false) (hturn : atomTurn s x p pa = true)
    (hbad : s.badAt pa (elemBytes ty) = none) :
    let r := atomApply s (s.ctxWriter x.ctx p.interval) op ty pa a.toNat b.toNat
    performPosted s x p = some (atomEnds r.1 x.ctx pa ret (extElem ty r.2), none) := by
  unfold performPosted
  rw [hk]
  dsimp only
  rw [hheld, hturn, performAtom, hbad]
  cases ret <;> rfl

section
variable {s : State} {x : Issuer} {p : Posted} {op : AtomOp} {ty : ElemTy} {va : Word} {pa : Nat} {a b : Word} {ret : Option Nat}
  (hs : Map.wf {} s.ctxs = true) (hk : p.kind = .atom op ty va pa a b ret)
  (hheld : heldShard s (dieOf x.ctx) x.region.space va.toNat (elemBytes ty) = false) (hturn : atomTurn s x p pa = true)
  (hbad : s.badAt pa (elemBytes ty) = none) (hr : s.redShadow = [])
include hs hk hheld hturn hbad hr

/-- An atomic that reads and writes memory returns the element that it found, and writes the new one. -/
theorem performPosted_atom_memory (hp : mgmtOff pa = none) (h : ¬ (op = .fadd ∧ (fmtD ty).narrow = true ∧ shadowed s pa = true)) :
    let m := leNat (rawBytes s.mem pa (elemBytes ty))
    ∃ t, performPosted s x p = some (t, none) ∧ Returned s t x.ctx ret (extElem ty m) ∧
      t.mem = putBytes s.mem pa (leBytes (elemBytes ty) (atomNew op ty m a.toNat b.toNat)) := by
  have hperf := performPosted_atom hk hheld hturn hbad
  rw [atomApply_memory hp hr h] at hperf
  refine ⟨_, hperf, atomEnds_returned hs (write_ctxs _ _ _ _ _) _ _ _ _, ?_⟩
  rw [(atomEnds_frame _ _ _ _ _).1, write_mem]

/-- The first additive reduction of a shadowed narrow location returns the element as rounded from its shadow, and adds to the
shadow alone (R47). -/
theorem performPosted_atom_shadow (h : op = .fadd ∧ (fmtD ty).narrow = true ∧ shadowed s pa = true) :
    let f := fmtD ty
    let wide := ((f.decode (leNat (rawBytes s.mem pa (elemBytes ty)))).res.deliver .fp32 .rne 0 false).1
    ∃ t, performPosted s x p = some (t, none) ∧ t.mem = s.mem ∧ Returned s t x.ctx ret (extElem ty (roundShadow f wide)) ∧
      t.redShadow = [(pa, ty.code.toNat, ((fAdd .rne (FFmt.fp32.decode wide) (f.decode a.toNat)).deliver .fp32 .rne 0 false).1)] := by
  intro f wide
  have hperf := performPosted_atom hk hheld hturn hbad
  obtain ⟨hop, hn, hsh⟩ := h
  rw [atomApply_eq, if_pos (by simp [hop, hn, hsh])] at hperf
  obtain ⟨hmem, hctxs, hred, hold⟩ := shadowAdd_first hr ty pa a.toNat
  rw [hold] at hperf
  refine ⟨_, hperf, ?_, atomEnds_returned hs ((watchCheck_ctxs _ _ _ _).trans hctxs) _ _ _ _, ?_⟩
  · exact (atomEnds_frame _ _ _ _ _).1.trans ((watchCheck_mem _ _ _ _).trans hmem)
  · exact (atomEnds_frame _ _ _ _ _).2.trans ((watchCheck_redShadow _ _ _ _).trans hred)

end

end Sys2Proof.Proofs

/-! SUPPORT. A piece of a posted load (R185), and what a posted access does when it is performed. -/

namespace Sys2Proof.Proofs

open Sys2Proof Machine Laws

/-! ### Bytes of a register value -/

theorem laneAt_eq_extract (w : Nat) (v : VecReg) (i : Nat) : laneAt w v i = (v.extractLsb' (w * i) w).toNat := by
  rw [laneAt, BitVec.extractLsb'_toNat, Nat.shiftRight_eq_div_pow]

/-- A bit of the number that bytes make. -/
theorem testBit_leNat (bs : List Byte) (k : Nat) : (leNat bs).testBit k = (bs.getD (k / 8) 0).getLsbD (k % 8) := by
  induction bs generalizing k with
  | nil => simp [leNat]
  | cons b bs ih =>
    have e : leNat (b :: bs) = 2 ^ 8 * leNat bs + b.toNat := by rw [leNat]; omega
    rw [e, Nat.testBit_two_pow_mul_add _ b.isLt]
    by_cases h : k < 8
    · rw [if_pos h, Nat.div_eq_of_lt h, Nat.mod_eq_of_lt h]
      rfl
    · rw [if_neg h, ih, show k / 8 = (k - 8) / 8 + 1 by omega, show (k - 8) % 8 = k % 8 by omega]
      rfl

/-- A bit of a value into which bytes were put. -/
theorem getLsbD_putAt (v : VecReg) (pos : Nat) (bs : List Byte) {i : Nat} (hi : i < 2048) :
    (putAt v pos bs).getLsbD i =
      if 8 * pos ≤ i ∧ i < 8 * (pos + bs.length) then (bs.getD ((i - 8 * pos) / 8) 0).getLsbD ((i - 8 * pos) % 8)
      else v.getLsbD i := by
  have beyond : ∀ k, 8 * bs.length ≤ k → (bs[k / 8]?.getD 0#8).getLsbD (k % 8) = false := by
    intro k hk
    simp [List.getElem?_eq_none (show bs.length ≤ k / 8 by omega)]
  simp only [putAt, BitVec.getLsbD_or, BitVec.getLsbD_and, BitVec.getLsbD_not, BitVec.getLsbD_ofNat, hi, decide_true, Bool.true_and,
    Nat.testBit_mul_two_pow, Nat.testBit_two_pow_sub_one, testBit_leNat]
  by_cases h1 : 8 * pos ≤ i
  · by_cases h2 : i < 8 * (pos + bs.length)
    · simp [h1, h2, show i - 8 * pos < 8 * bs.length by omega]
    · simp [h1, h2, show ¬ i - 8 * pos < 8 * bs.length by omega, beyond (i - 8 * pos) (by omega)]
  · simp [h1]

/-- A byte of a value into which bytes were put. -/
theorem laneAt_putAt (v : VecReg) (pos : Nat) (bs : List Byte) {j : Nat} (hj : j < 256) :
    laneAt 8 (putAt v pos bs) j = if pos ≤ j ∧ j < pos + bs.length then (bs.getD (j - pos) 0).toNat else laneAt 8 v j := by
  have hbit : ∀ k, k < 8 → (putAt v pos bs).getLsbD (8 * j + k) =
      if pos ≤ j ∧ j < pos + bs.length then (bs.getD (j - pos) 0).getLsbD k else v.getLsbD (8 * j + k) := by
    intro k hk
    rw [getLsbD_putAt v pos bs (by omega)]
    by_cases hin : pos ≤ j ∧ j < pos + bs.length
    · rw [if_pos hin, if_pos (by omega), show (8 * j + k - 8 * pos) / 8 = j - pos by omega, show (8 * j + k - 8 * pos) % 8 = k by omega]
    · rw [if_neg hin, if_neg (by omega)]
  rw [laneAt_eq_extract, laneAt_eq_extract, ← apply_ite BitVec.toNat]
  refine congrArg BitVec.toNat (BitVec.eq_of_getLsbD_eq (fun k hk => ?_))
  rw [BitVec.getLsbD_extractLsb', hbit k hk, decide_eq_true hk, Bool.true_and]
  split
  · rfl
  · rw [BitVec.getLsbD_extractLsb', decide_eq_true hk, Bool.true_and]

/-! ### A piece of a load -/

/-- A piece reads its bytes where no shadow is live and no granule is bad. -/
theorem readPiece_eq {s : State} {x : Issuer} (hx : x.region.race = 0) {q : LoadPiece} (hq : mgmtOff q.pa = none)
    (hr : s.redShadow = []) (hb : s.bad = []) (v : VecReg) (bad : Option (Nat × BitVec 8 × Word)) :
    readPiece x ((v, bad), s) q =
      ((putAt v q.pos (rawBytes s.mem q.pa q.len), bad), timeSpans timeLoad s x.ctx [⟨q.pa, q.va.toNat, q.len, q.cnt⟩]) := by
  obtain ⟨t, ht⟩ : ∃ t, t = timeSpans timeLoad s x.ctx [⟨q.pa, q.va.toNat, q.len, q.cnt⟩] := ⟨_, rfl⟩
  have he := timeSpans_timeLoad_eq s x.ctx [⟨q.pa, q.va.toNat, q.len, q.cnt⟩]
  rw [← ht] at he
  have hmem : t.mem = s.mem := by rw [he]
  have hrt : t.redShadow = [] := by rw [he]; exact hr
  have hbt : t.bad = [] := by rw [he]; exact hb
  have hread : readFor s x true [⟨q.pa, q.va.toNat, q.len, q.cnt⟩] = ((rawBytes s.mem q.pa q.len, none), t) := by
    simp [readFor, raceCheck_off hx, ← ht, badSpan, State.badAt, hbt, readSpans, readAt_eq_raw hq hrt, hmem]
  rw [readPiece, hread, ← ht]

/-- Settles O20: a store by `foldl_performPiece`, an atomic by the two ways of `atomApply`, a load by `readPiece_eq`. -/
theorem performedAccesses : Obligations.PerformedAccesses := by
  unfold Obligations.PerformedAccesses
  refine ⟨?piece, ?store, ?atom, ?read, ?rest⟩
  case piece =>
    intro s x i q hq u hu a
    rw [byteAt, performPiece_mem x i s hq]
    exact get_putBytes hu q.pa q.bytes a
  case store =>
    intro s x p q qs hs hx hk now later hnow
    obtain ⟨t, ht, hb, -, ⟨-, hctx⟩, hq, hcl⟩ := performPosted_store hs.1 hs.2.1 hx hk hnow
    exact ⟨t, ht, hb, hctx, hq, hcl⟩
  case atom =>
    intro s x p op ty va pa a b ret hs hk hheld hturn hbad hp hr w m v f small num new returns
    have hnum : ∀ y, laneInt ty y = num y := laneInt_eq ty
    have hnew : atomNew op ty m a.toNat b.toNat = new := by
      cases op with
      | min | max => simp only [new, ← hnum]; simp [atomNew, v, w]
      | _ => rfl
    have hret : ∀ (old : Nat) (t : State), old < 2 ^ w → Returned s t x.ctx ret (extElem ty old) → returns old t := by
      intro old t hold h c
      rw [extElem_eq ty hold] at h
      have := h c
      cases ret with
      | none => exact this
      | some n => exact this
    refine ⟨fun hsmall => ?_, fun hsmall => ?_⟩
    · obtain ⟨t, ht, hctx, hmem⟩ := performPosted_atom_memory hs.2.1 hk hheld hturn hbad hr hp hsmall
      have hbyte : ∀ d, byteAt t d = if pa ≤ d ∧ d < pa + w / 8 then (leBytes (w / 8) new).getD (d - pa) 0 else byteAt s d := by
        intro d
        rw [byteAt, hmem, get_putBytes hs.1, leBytes_length]
        exact congrArg (fun n => if pa ≤ d ∧ d < pa + w / 8 then (leBytes (w / 8) n).getD (d - pa) 0 else byteAt s d) hnew
      refine ⟨t, ht, hret m t (leNat_rawBytes_lt ty s.mem pa) hctx, fun i hi => ?_, fun d hd => ?_⟩
      · rw [hbyte, if_pos (by omega), show pa + i - pa = i by omega, getD_leBytes _ _ _ hi]
      · rw [hbyte, if_neg (by omega)]
    · obtain ⟨t, ht, hmem, hctx, hred⟩ := performPosted_atom_shadow hs.2.1 hk hheld hturn hbad hr hsmall
      refine ⟨t, ht, fun d => by rw [byteAt, hmem], hret _ t ?_ hctx, by rw [hred]; exact if_pos rfl⟩
      rw [show w = f.width from (fmtD_width hsmall.2.1).symm]
      exact deliver_lt f .rne 0 false _
  case read =>
    intro s x v bad q hx hq hr hb hlen r
    have e : r = _ := readPiece_eq hx hq hr hb v bad
    rw [e]
    refine ⟨rfl, by rw [timeSpans_timeLoad_eq], fun j hj => ?_⟩
    rw [laneAt_putAt v _ _ hj, rawBytes_length]
    split
    · next h => simp [rawBytes, show j - q.pos < q.len by omega]
    · rfl
  case rest =>
    intro s x p
    refine ⟨fun qs v bad n hk => ?_, fun va pa n rel t hk hrel ht => ?_⟩
    · unfold performPosted
      rw [hk]
      dsimp only
      by_cases hl : (firstSector LoadPiece.pa qs).2 = []
      · rw [if_pos hl, if_pos (List.isEmpty_iff.mpr hl)]
      · rw [if_neg hl, if_neg (by simpa using hl)]
    · unfold performPosted
      rw [hk]
      dsimp only
      rw [ht, if_neg]
      cases rel with
      | false => simp
      | true => simp [hrel rfl]

end Sys2Proof.Proofs

/-! SUPPORT. The decoder reads back what the encoder writes (R58 to R70). -/

namespace Sys2Proof.Proofs

open Sys2Proof Machine Laws

/-- Settles O48: every slot instruction has its lemma of the family Encoding, and no word encodes a step of the machine. -/
theorem roundTrip : Obligations.RoundTrip := by
  unfold Obligations.RoundTrip
  intro i
  cases i with
  | nop slot => exact Encoding.nop slot
  -- S class
  | add f => exact Encoding.add f | sub f => exact Encoding.sub f | mul f => exact Encoding.mul f
  | mulh f => exact Encoding.mulh f | div f => exact Encoding.div f | rem f => exact Encoding.rem f
  | and f => exact Encoding.and f | or f => exact Encoding.or f | xor f => exact Encoding.xor f
  | andn f => exact Encoding.andn f | shl f => exact Encoding.shl f | shr f => exact Encoding.shr f
  | sar f => exact Encoding.sar f | rot f => exact Encoding.rot f | min f => exact Encoding.min f
  | max f => exact Encoding.max f | clz f => exact Encoding.clz f | ctz f => exact Encoding.ctz f
  | popc f => exact Encoding.popc f | li f => exact Encoding.li f | mov f => exact Encoding.mov f
  | cmp c f => exact Encoding.cmp c f | sel g neg f => exact Encoding.sel g neg f
  | bfx pos len f => exact Encoding.bfx pos len f | bfi pos len f => exact Encoding.bfi pos len f
  | addr sh f => exact Encoding.addr sh f | xfer file f => exact Encoding.xfer file f
  | fadd fmt f => exact Encoding.fadd fmt f | fsub fmt f => exact Encoding.fsub fmt f
  | fmul fmt f => exact Encoding.fmul fmt f | fma fmt f => exact Encoding.fma fmt f | fmin fmt f => exact Encoding.fmin fmt f
  | fmax fmt f => exact Encoding.fmax fmt f | frcp fmt f => exact Encoding.frcp fmt f
  | frsq fmt f => exact Encoding.frsq fmt f | fexp2 fmt f => exact Encoding.fexp2 fmt f
  | flog2 fmt f => exact Encoding.flog2 fmt f | fcmp fmt c f => exact Encoding.fcmp fmt c f
  | fcvt src dst f => exact Encoding.fcvt src dst f | rand float slot dst => exact Encoding.rand float slot dst
  -- V class
  | vadd f => exact Encoding.vadd f | vsub f => exact Encoding.vsub f | vmul f => exact Encoding.vmul f
  | vmin f => exact Encoding.vmin f | vmax f => exact Encoding.vmax f | vdiv f => exact Encoding.vdiv f
  | vand f => exact Encoding.vand f | vor f => exact Encoding.vor f | vxor f => exact Encoding.vxor f
  | vshl f => exact Encoding.vshl f | vshr f => exact Encoding.vshr f | vsar f => exact Encoding.vsar f
  | vimin f => exact Encoding.vimin f | vimax f => exact Encoding.vimax f | vsel f => exact Encoding.vsel f
  | vperm f => exact Encoding.vperm f | vfma f => exact Encoding.vfma f | vfms f => exact Encoding.vfms f
  | vfnma f => exact Encoding.vfnma f | vabs f => exact Encoding.vabs f | vneg f => exact Encoding.vneg f
  | vrcp f => exact Encoding.vrcp f | vrsq f => exact Encoding.vrsq f | vsqrt f => exact Encoding.vsqrt f
  | vexp2 f => exact Encoding.vexp2 f | vlog2 f => exact Encoding.vlog2 f | vtanh f => exact Encoding.vtanh f
  | vsigm f => exact Encoding.vsigm f | vsilu f => exact Encoding.vsilu f | vgelu f => exact Encoding.vgelu f
  | vmov f => exact Encoding.vmov f | vcomp f => exact Encoding.vcomp f | vexpd f => exact Encoding.vexpd f
  | vpsum f => exact Encoding.vpsum f | vclass f => exact Encoding.vclass f | vcnt f => exact Encoding.vcnt f
  | viota f => exact Encoding.viota f | vrand f => exact Encoding.vrand f | viadd m f => exact Encoding.viadd m f
  | visub m f => exact Encoding.visub m f | vimul m f => exact Encoding.vimul m f | vimad m f => exact Encoding.vimad m f
  | vcmp c f => exact Encoding.vcmp c f | vred op f => exact Encoding.vred op f | vfind c f => exact Encoding.vfind c f
  | vbcast j f => exact Encoding.vbcast j f | vins j f => exact Encoding.vins j f | vslide n f => exact Encoding.vslide n f
  | vxfer file j f => exact Encoding.vxfer file j f | vcvt d h sat f => exact Encoding.vcvt d h sat f
  | vquant sc d h f => exact Encoding.vquant sc d h f | vdeq d h f => exact Encoding.vdeq d h f
  | vcwenc h f => exact Encoding.vcwenc h f | vcwdec d h view o f => exact Encoding.vcwdec d h view o f
  | vmask op slot dst => exact Encoding.vmask op slot dst
  -- L class
  | lds ty dst base addr => exact Encoding.lds ty dst base addr | vld ty dst base addr => exact Encoding.vld ty dst base addr
  | sts ty src base addr => exact Encoding.sts ty src base addr | vst ty src base addr => exact Encoding.vst ty src base addr
  | vlds ty dst base stride off => exact Encoding.vlds ty dst base stride off
  | vsts ty src base stride off => exact Encoding.vsts ty src base stride off
  | vgath ty h dst base index off => exact Encoding.vgath ty h dst base index off
  | vscat ty h src base index => exact Encoding.vscat ty h src base index
  | atom op ty dst src base off => exact Encoding.atom op ty dst src base off
  | nat op ty dst src base off => exact Encoding.nat op ty dst src base off
  | pref action base off => exact Encoding.pref action base off
  | wset q mem set rec base => exact Encoding.wset q mem set rec base | wstart q => exact Encoding.wstart q
  | wstop drain q => exact Encoding.wstop drain q | wstat dst q => exact Encoding.wstat dst q
  | cbwait dst cb n version => exact Encoding.cbwait dst cb n version
  | cbadv cb n version => exact Encoding.cbadv cb n version | cbset cb base off => exact Encoding.cbset cb base off
  | nld ty dst base off => exact Encoding.nld ty dst base off
  | nst ty flag src base off => exact Encoding.nst ty flag src base off
  | nmc ty flag axis self src base off => exact Encoding.nmc ty flag axis self src base off
  | nts ty src entry piece slot base => exact Encoding.nts ty src entry piece slot base
  | ncb ty src entry piece base => exact Encoding.ncb ty src entry piece base
  | pld ty dst base demand desc off => exact Encoding.pld ty dst base demand desc off
  | pst ty acc src base desc off => exact Encoding.pst ty acc src base desc off
  -- T class
  | tcfg e dA dB => exact Encoding.tcfg e dA dB | tdrain e dA => exact Encoding.tdrain e dA
  | tzero e t => exact Encoding.tzero e t | tmma adv e t dA dB k => exact Encoding.tmma adv e t dA dB k
  | taff ident off e pair => exact Encoding.taff ident off e pair
  | tscan carry e pair set n => exact Encoding.tscan carry e pair set n
  | tcarry op w e t set reg => exact Encoding.tcarry op w e t set reg
  | trd retire w e t reg row0 n1 => exact Encoding.trd retire w e t reg row0 n1
  | twr w e t reg row0 n1 => exact Encoding.twr w e t reg row0 n1 | tld e t dA => exact Encoding.tld e t dA
  | tst retire e t dA => exact Encoding.tst retire e t dA | tred op cols w e t reg => exact Encoding.tred op cols w e t reg
  | tcomb fold e pair n => exact Encoding.tcomb fold e pair n | tres hz clr e t dst => exact Encoding.tres hz clr e t dst
  | tdesc e dA src => exact Encoding.tdesc e dA src
  -- X class
  | br off => exact Encoding.br off | brc neg g off => exact Encoding.brc neg g off
  | jmp base off => exact Encoding.jmp base off | call indirect link base off => exact Encoding.call indirect link base off
  | ret link => exact Encoding.ret link | loop level count off => exact Encoding.loop level count off
  | end_ => exact Encoding.end_ | yield => exact Encoding.yield
  | cadd rel scope ctr amount => exact Encoding.cadd rel scope ctr amount
  | cwait acq scope dst ctr tgt timeout => exact Encoding.cwait acq scope dst ctr tgt timeout
  | ctest acq scope g ctr tgt => exact Encoding.ctest acq scope g ctr tgt
  | cread acq scope status dst ctr => exact Encoding.cread acq scope status dst ctr
  | fence scope => exact Encoding.fence scope | drain scope ctr tgt => exact Encoding.drain scope ctr tgt
  | fork rec arg => exact Encoding.fork rec arg | join acq scope park ctr tgt => exact Encoding.join acq scope park ctr tgt
  | launch dst pkt => exact Encoding.launch dst pkt | msend rel len tgt src off => exact Encoding.msend rel len tgt src off
  | ecopy eng f => exact Encoding.ecopy eng f | efill eng f => exact Encoding.efill eng f
  | econv eng f => exact Encoding.econv eng f | egather f => exact Encoding.egather f
  | escatter f => exact Encoding.escatter f | ecoll f => exact Encoding.ecoll f | eplane f => exact Encoding.eplane f
  | estat dst e => exact Encoding.estat dst e | swap ctr => exact Encoding.swap ctr
  | sqnew dst rec => exact Encoding.sqnew dst rec | sqfork dst id rec => exact Encoding.sqfork dst id rec
  | sqfree dst id => exact Encoding.sqfree dst id | sqtree dst id rec => exact Encoding.sqtree dst id rec
  | sqacc dst id tab => exact Encoding.sqacc dst id tab | sqrewind dst id n => exact Encoding.sqrewind dst id n
  | sqpreempt dst id => exact Encoding.sqpreempt dst id | sqresume dst id tab => exact Encoding.sqresume dst id tab
  | kvappend dst id n => exact Encoding.kvappend dst id n | pdecl dst desc => exact Encoding.pdecl dst desc
  | sqcommit direct dst id => exact Encoding.sqcommit direct dst id | sqstat dst id sel => exact Encoding.sqstat dst id sel
  | kvmap slot kb dst id x layer => exact Encoding.kvmap slot kb dst id x layer
  | kvcompact bits dst id ctr amount => exact Encoding.kvcompact bits dst id ctr amount
  | kvrequant bits dst rec ctr amount => exact Encoding.kvrequant bits dst rec ctr amount
  | prel drop desc => exact Encoding.prel drop desc | pconv dst desc demand => exact Encoding.pconv dst desc demand
  | pqry dst desc sel => exact Encoding.pqry dst desc sel | csrr dst num => exact Encoding.csrr dst num
  | csrw op src num => exact Encoding.csrw op src num | trap code => exact Encoding.trap code
  | bkpt code => exact Encoding.bkpt code | eret dest => exact Encoding.eret dest
  | watch arm shut dst base len entry => exact Encoding.watch arm shut dst base len entry
  | snap tag => exact Encoding.snap tag | creset core ctr => exact Encoding.creset core ctr
  -- steps of the machine, which no word names
  | _ => exact enc_none rfl

/-- Settles O47: each word is the encoding of its instruction, which is well formed, so it decodes to it. -/
theorem workedWordsDecode : Obligations.WorkedWordsDecode := by
  unfold Obligations.WorkedWordsDecode
  exact ⟨Encoding.fadd _ _ _ _ rfl rfl, Encoding.vfma _ _ _ rfl rfl, Encoding.vld _ _ _ _ _ _ rfl rfl,
    Encoding.tmma _ _ _ _ _ _ _ _ rfl rfl, Encoding.loop _ _ _ _ _ rfl rfl, Encoding.kvmap _ _ _ _ _ _ _ _ rfl rfl⟩

end Sys2Proof.Proofs

/-! SUPPORT. Writes of registers: the files, the order in which results count, and the errors of registers (R72, R92, R93, R103,
R104). -/

namespace Sys2Proof.Proofs

open Sys2Proof Machine Laws

/-! ### A value put into a register file -/

/-- A predicate after a write of one of the eight. -/
theorem getLsbD_putPred (g : BitVec 8) (b : Bool) {idx : Nat} (h : idx < 8) (i : Nat) :
    (if b then g ||| BitVec.ofNat 8 (2 ^ idx) else g &&& ~~~(BitVec.ofNat 8 (2 ^ idx))).getLsbD i =
      if i = idx then b else g.getLsbD i := by
  have one : ∀ j, (BitVec.ofNat 8 (2 ^ idx)).getLsbD j = (decide (j < 8) && decide (idx = j)) := by
    intro j
    rw [BitVec.getLsbD_ofNat, Nat.testBit_two_pow]
  rw [apply_ite (BitVec.getLsbD · i), BitVec.getLsbD_or, BitVec.getLsbD_and, BitVec.getLsbD_not, one]
  by_cases hi : i = idx
  · subst hi
    simp [h]
  · have inside : g.getLsbD i = true → i < 8 := BitVec.lt_of_getLsbD
    simpa [hi, Ne.symm hi] using fun _ => inside

/-- A predicate as a register value is its bit. -/
theorem bit_eq_setWidth (v : VecReg) : (if v.getLsbD 0 then 1 else 0 : VecReg) = (v.setWidth 1).setWidth 2048 := by
  refine BitVec.eq_of_getLsbD_eq (fun j hj => ?_)
  cases h : v.getLsbD 0 <;> cases j <;> simp_all

theorem setWidth_get_set {w : Nat} {m : Map (BitVec w)} (hm : Map.wf 0 m = true) (k i : Nat) (u : BitVec w) :
    (Map.get 0 (Map.set 0 m k u) i).setWidth 2048 = if i = k then u.setWidth 2048 else (Map.get 0 m i).setWidth 2048 := by
  split
  · next h => rw [h, Map.get_set_self hm]
  · next h => rw [Map.get_set_of_ne hm u h]

section
variable {x : Ctx} {file idx : Nat} (v : VecReg)

/-- Within the file that was written, the register reads as the value, cut to the width of the file, and the others keep theirs. -/
theorem reg_putReg_same_file (hx : filesCanonical x) (hf : file ≤ 8) (hg : file = 8 → idx < 8) (i : Nat) :
    (x.putReg file idx v).reg file i = if i = idx then (v.setWidth (fileWidth file)).setWidth 2048 else x.reg file i := by
  obtain ⟨ha, hb, hv, hw, hp, hk, hX, hY⟩ := hx
  interval_cases file
  · exact setWidth_get_set ha idx i _
  · exact setWidth_get_set hb idx i _
  · show Map.get 0 (Map.set 0 x.v idx v) i = if i = idx then (v.setWidth 2048).setWidth 2048 else Map.get 0 x.v i
    simpa only [BitVec.setWidth_eq] using setWidth_get_set hv idx i v
  · show Map.get 0 (Map.set 0 x.w idx v) i = if i = idx then (v.setWidth 2048).setWidth 2048 else Map.get 0 x.w i
    simpa only [BitVec.setWidth_eq] using setWidth_get_set hw idx i v
  · exact setWidth_get_set hp idx i _
  · exact setWidth_get_set hk idx i _
  · exact setWidth_get_set hX idx i _
  · exact setWidth_get_set hY idx i _
  · refine (congrArg (fun b : Bool => if b then (1 : VecReg) else 0) (getLsbD_putPred x.g (v.getLsbD 0) (hg rfl) i)).trans ?_
    split
    · exact bit_eq_setWidth v
    · rfl

/-- The registers of another file keep their values. -/
theorem reg_putReg_of_file_ne (x : Ctx) (hf : file ≤ 8) {f : Nat} (hf' : f ≤ 8) (h : f ≠ file) (i : Nat) :
    (x.putReg file idx v).reg f i = x.reg f i := by
  interval_cases file <;> interval_cases f <;> simp only [Ctx.putReg, Ctx.reg, ne_eq, not_true_eq_false] at h ⊢

theorem filesCanonical_putReg (hx : filesCanonical x) (file idx : Nat) : filesCanonical (x.putReg file idx v) := by
  obtain ⟨ha, hb, hv, hw, hp, hk, hX, hY⟩ := hx
  unfold Ctx.putReg
  split
  · exact ⟨Map.wf_set ha _ _, hb, hv, hw, hp, hk, hX, hY⟩
  · exact ⟨ha, Map.wf_set hb _ _, hv, hw, hp, hk, hX, hY⟩
  · exact ⟨ha, hb, Map.wf_set hv _ _, hw, hp, hk, hX, hY⟩
  · exact ⟨ha, hb, hv, Map.wf_set hw _ _, hp, hk, hX, hY⟩
  · exact ⟨ha, hb, hv, hw, Map.wf_set hp _ _, hk, hX, hY⟩
  · exact ⟨ha, hb, hv, hw, hp, Map.wf_set hk _ _, hX, hY⟩
  · exact ⟨ha, hb, hv, hw, hp, hk, Map.wf_set hX _ _, hY⟩
  · exact ⟨ha, hb, hv, hw, hp, hk, hX, Map.wf_set hY _ _⟩
  · exact ⟨ha, hb, hv, hw, hp, hk, hX, hY⟩

/-- A register file is all that a value is put into. -/
theorem putReg_frame (x : Ctx) (file idx : Nat) :
    x.putReg file idx v = { x with
      a := (x.putReg file idx v).a
      b := (x.putReg file idx v).b
      v := (x.putReg file idx v).v
      w := (x.putReg file idx v).w
      p := (x.putReg file idx v).p
      k := (x.putReg file idx v).k
      x := (x.putReg file idx v).x
      y := (x.putReg file idx v).y
      g := (x.putReg file idx v).g } := by
  unfold Ctx.putReg
  split <;> rfl
end

/-! ### What a write of a register leaves -/

/-- The order that stands in a register, and whether a result of variable latency left it. -/
theorem superseded_iff (x : Ctx) (seq file idx : Nat) (var : Bool) :
    let last := Map.get 0 x.lastSeq (Ctx.regKey file idx) / 2
    let lastVar := Map.get 0 x.lastSeq (Ctx.regKey file idx) % 2 = 1
    x.superseded seq file idx var = true ↔
      seq / 8 < last / 8 ∨ seq / 8 = last / 8 ∧ seq < last ∧ (var = true ∨ lastVar) := by
  intro last lastVar
  cases var with
  | true =>
    have e : x.superseded seq file idx true = decide (seq < last) := rfl
    simp only [e, decide_eq_true_eq, true_or, and_true]
    omega
  | false =>
    have e : x.superseded seq file idx false =
      (decide (seq / 8 < last / 8) ||
        (seq / 8 == last / 8 && Map.get 0 x.lastSeq (Ctx.regKey file idx) % 2 == 1 && decide (seq < last))) := rfl
    simp [e, lastVar, and_assoc, and_comm]

section
variable {x : Ctx} {seq file idx : Nat} (v : VecReg) (bad : Bool) (tag : Option (BitVec 8 × Word)) (var : Bool)

theorem writeReg_of_superseded (h : x.superseded seq file idx var = true) : x.writeReg seq file idx v bad tag var = x := if_pos h

/-- A write that counts puts the value, and gives the register its own error and tag. -/
theorem writeReg_of_not_superseded (h : ¬ x.superseded seq file idx var = true) :
    x.writeReg seq file idx v bad tag var =
      { x.putReg file idx v with
        lastSeq := Map.set 0 x.lastSeq (Ctx.regKey file idx) (2 * seq + b2n var)
        tags := x.tags.filter (fun t => !(t.file == file && t.idx == idx)) ++ (tag.map (fun e => ⟨file, idx, e.1, e.2⟩)).toList
        badRegs := x.badRegs.filter (fun r => !(r.1 == file && r.2 == idx)) ++ (if bad then [(file, idx)] else []) } := by
  rw [Ctx.writeReg, if_neg h, putReg_frame]
  cases bad <;> cases tag <;> simp

/-- The error of a register is the one that it was last given. -/
theorem regError_writeReg (h : ¬ x.superseded seq file idx var = true) :
    (x.writeReg seq file idx v bad tag var).regError file idx = if bad then some (0x08, regTval file idx) else tag := by
  rw [writeReg_of_not_superseded v bad tag var h]
  cases bad with
  | true => simp [Ctx.regError]
  | false =>
    have dropped : (x.tags.filter (fun t => !(t.file == file && t.idx == idx))).find?
        (fun t => t.file == file && t.idx == idx) = none := by
      rw [List.find?_eq_none]
      intro t ht
      rw [Bool.not_eq_true, ← Bool.not_eq_true']
      exact (List.mem_filter.mp ht).2
    simp only [Ctx.regError, List.find?_append, dropped, Option.none_or]
    cases tag <;> simp

/-- The register that was written, and every other one. -/
theorem reg_writeReg (hx : filesCanonical x) (hf : file ≤ 8) (hg : file = 8 → idx < 8)
    (h : ¬ x.superseded seq file idx var = true) {f : Nat} (hf' : f ≤ 8) (i : Nat) :
    (x.writeReg seq file idx v bad tag var).reg f i =
      if (f, i) = (file, idx) then (v.setWidth (fileWidth file)).setWidth 2048 else x.reg f i := by
  rw [writeReg_of_not_superseded v bad tag var h]
  show (x.putReg file idx v).reg f i = _
  by_cases hff : f = file
  · subst hff
    simp [reg_putReg_same_file v hx hf hg]
  · simp [reg_putReg_of_file_ne v x hf hf' hff, hff]

theorem filesCanonical_writeReg (hx : filesCanonical x) : filesCanonical (x.writeReg seq file idx v bad tag var) := by
  by_cases h : x.superseded seq file idx var = true
  · rwa [writeReg_of_superseded v bad tag var h]
  · rw [writeReg_of_not_superseded v bad tag var h]
    exact filesCanonical_putReg v hx file idx

/-- A write leaves the program counter, the mode, the sticky flags and the position of the stream. -/
theorem writeReg_frame : let y := x.writeReg seq file idx v bad tag var
    y.pc = x.pc ∧ y.mode = x.mode ∧ y.fflags = x.fflags ∧ y.rctr = x.rctr := by
  intro y
  by_cases h : x.superseded seq file idx var = true
  · rw [show y = x from writeReg_of_superseded v bad tag var h]
    exact ⟨rfl, rfl, rfl, rfl⟩
  · rw [show y = _ from writeReg_of_not_superseded v bad tag var h, putReg_frame]
    exact ⟨rfl, rfl, rfl, rfl⟩

end

/-- Settles O52: a write that counts puts its value into the file and gives the register its own error and tag; any
other is dropped. -/
theorem registerWrites : Obligations.RegisterWrites := by
  unfold Obligations.RegisterWrites
  intro x seq file idx v bad tag var hx hf hg hi y last lastVar later
  have hs : x.superseded seq file idx var = true ↔ later := superseded_iff x seq file idx var
  refine ⟨fun h => writeReg_of_superseded v bad tag var (hs.mpr h), fun h => ?_, filesCanonical_writeReg v bad tag var hx⟩
  have hn : ¬ x.superseded seq file idx var = true := fun k => h (hs.mp k)
  have hreg {f : Nat} (hf' : f ≤ 8) (i : Nat) := reg_writeReg v bad tag var hx hf hg hn hf' i
  have herr : y.regError file idx = if bad then some (0x08, regTval file idx) else tag := regError_writeReg v bad tag var hn
  exact ⟨(hreg hf idx).trans (if_pos rfl), fun f i hf' _ hne => (hreg hf' i).trans (if_neg hne), fun hb => herr.trans (if_pos hb),
    fun hb => herr.trans (if_neg (ne_true_of_eq_false hb)), writeReg_frame v bad tag var⟩

end Sys2Proof.Proofs

/-! SUPPORT. What the operands and masks of a vector slot read (R61, R62, R67, R146, R148). -/

namespace Sys2Proof.Proofs

open Sys2Proof Machine Laws

/-! ### Vector operands -/

theorem lanes_eq (ty : ElemTy) : ty.lanes = 2048 / ty.width :=
  Nat.eq_div_of_mul_eq_right (width_pos ty).ne' (width_mul_lanes ty)

theorem stops_needWord {b : Bool} (h : b = false) (s : State) :
    (needWord b).run s = .error (.trap true 0x01 (BitVec.ofNat 64 s.issue.word)) := by
  subst h; rfl

theorem gives_vecIndex {s : State} {i : Nat} (h : i < (issuer s).vregs.toNat) : Reads (vecIndex i) s () :=
  gives_bind (gives_curCtx s) (gives_needWord (decide_eq_true h) s)

theorem stops_vecIndex {s : State} {i : Nat} (h : (issuer s).vregs.toNat ≤ i) :
    (vecIndex i).run s = .error (.trap true 0x01 (BitVec.ofNat 64 s.issue.word)) := by
  rw [vecIndex, run_bind_of (gives_curCtx s)]
  exact stops_needWord (decide_eq_false (Nat.not_lt.mpr h)) s

theorem reads_v_bc {s : State} {b : Word} (h : s.issue.bc = some b) (slot : VSlot) (ty : ElemTy) :
    Reads (readV slot ty .bc) s (bcSplat ty b) := by
  refine gives_bind (gives_get s) ?_
  rw [h]
  exact gives_pure _ s

theorem reads_active {s : State} {slot : VSlot} {i : BitVec 3} (h : (issuer s).regError (VSlot.maskFile slot) i.toNat = none) :
    Reads (readActive slot (some i)) s (fun l => ((issuer s).maskReg (VSlot.maskFile slot) i.toNat).getLsbD l) :=
  gives_bind (gives_bind (reads_reg h) (gives_pure _ s)) (gives_pure _ s)

theorem laneAt_bcSplat {ty : ElemTy} (b : Word) {i : Nat} (hi : i < ty.lanes) :
    laneAt ty.width (bcSplat ty b) i = b.toNat % 2 ^ ty.width := by
  rw [bcSplat, laneAt_splat (lanes_eq ty ▸ hi), Nat.mod_mod]

theorem laneAt_immSplat {ty : ElemTy} (v : BitVec 32) {i : Nat} (hi : i < ty.lanes) :
    laneAt ty.width (immSplat ty v) i = (if ty = .i64 then (v.signExtend 64).toNat else v.toNat) % 2 ^ ty.width := by
  by_cases h : ty = .i64
  · subst h
    exact laneAt_splat hi
  · have e : immSplat ty v = splat ty.width (v.toNat % 2 ^ ty.width) := by
      cases ty with
      | i64 => exact absurd rfl h
      | _ => rfl
    rw [e, laneAt_splat (lanes_eq ty ▸ hi), if_neg h, Nat.mod_mod]

/-- Settles O8: an index is checked and then read, a head is read as such, bc and the literal are splats, and a mask is a
register. -/
theorem vectorOperands : Obligations.VectorOperands := by
  unfold Obligations.VectorOperands
  intro slot ty s
  refine ⟨fun i hi he => ?reg, fun i hi => ?limit, fun q v h => h, fun b hb => ?bc, fun hb => ?noBc, fun hk => ?imm,
    gives_pure _ s, fun i h => reads_active h⟩
  case reg => exact gives_bind (gives_vecIndex hi) (reads_reg he)
  case limit => rw [readV, StateT.run_bind, stops_vecIndex hi]; rfl
  case bc => exact ⟨_, reads_v_bc hb slot ty, fun i hi => laneAt_bcSplat b hi⟩
  case noBc => rw [readV, run_bind_of (gives_get s), hb]; rfl
  case imm => exact ⟨_, reads_imm hk slot ty, fun i hi => laneAt_immSplat s.issue.imm hi⟩

end Sys2Proof.Proofs

/-! SUPPORT. The turn of the best context left: its save, its bundle's fetch and decoding, and a bundle of one slot (R49 to R71, R96,
R236). -/

namespace Sys2Proof.Proofs

open Sys2Proof Machine Laws

/-! ### The turn of the best context left -/

section
variable {m : Meaning} {s : State} {c : Nat} {rest : List Nat}

theorem step_of_agenda {i : Instr} {l : List Instr} (h : s.agenda = i :: l) : step s = exec i { s with agenda := l } := by
  rw [step, h]

theorem step_of_issuing (ha : s.agenda = []) (hi : s.issuing = c :: rest) : step s = attempt exec s c rest := by
  rw [step, ha, hi]

theorem attempt_notRunning (h : inRunning { s with issuing := rest } c = false) :
    attempt m s c rest = .next { s with issuing := rest } := by
  rw [attempt, h]
  rfl

section
variable (hr : inRunning { s with issuing := rest } c = true)
include hr

theorem attempt_unsaved (h : saveDue { s with issuing := rest } c = none) :
    attempt m s c rest = attemptBundle m { s with issuing := rest } c := by
  rw [attempt, hr, h]
  rfl

theorem attempt_unsettled {why : SaveWhy} (h : saveDue { s with issuing := rest } c = some why)
    (hs : settled { s with issuing := rest } c = false) : attempt m s c rest = .next { s with issuing := rest } := by
  rw [attempt, hr, h]
  dsimp only
  rw [hs]
  rfl

theorem attempt_saved {why : SaveWhy} (h : saveDue { s with issuing := rest } c = some why)
    (hs : settled { s with issuing := rest } c = true) {t : State}
    (ht : m (.contextSave c why) { s with issuing := rest } = .next t) (hl : t.saved.length ≠ s.saved.length) :
    attempt m s c rest = .next t := by
  rw [attempt, hr, h]
  dsimp only
  rw [hs, ht]
  exact if_neg hl
end

end

/-! ### Fetch and decoding -/

/-- The state from which a context's next bundle is taken: the far bit follows the program counter, unless it holds its words. -/
def marked (s : State) (c : Nat) : State := if (s.ctx c).waitAct && !(s.ctx c).heldWords.isEmpty then s else markFar s c

section
variable {m : Meaning} {s u : State} {c : Nat} {f : Fetched}

theorem takeBundle_unfetched {cause : BitVec 8} {tval : Word} (h : nextBundle (marked s c) c = .error (cause, tval)) :
    takeBundle s c = .error (takeTrap (confirmWalk (marked s c) ((marked s c).view c) cause tval.toNat) c cause tval
      ((marked s c).ctx c).pc) := by
  unfold marked at *
  unfold takeBundle
  dsimp only
  rw [h]

section
variable (hf : nextBundle (marked s c) c = .ok (f, u))
include hf

theorem takeBundle_undecoded {w : Nat} (hw : decodeBundle (u.ctx c) f = .error w) :
    takeBundle s c = .error (takeTrap u c 0x01 (BitVec.ofNat 64 w) ((marked s c).ctx c).pc) := by
  unfold marked at *
  unfold takeBundle
  dsimp only
  rw [hf]
  dsimp only
  rw [hw]

theorem takeBundle_decoded {l : List SlotI} (hl : decodeBundle (u.ctx c) f = .ok l) : takeBundle s c = .ok (⟨c, f, l⟩, u) := by
  unfold marked at hf
  unfold takeBundle
  dsimp only
  rw [hf]
  dsimp only
  rw [hl]
end

theorem attemptBundle_trapped {t : State} (h : takeBundle s c = .error t) : attemptBundle m s c = .next t := by
  rw [attemptBundle, h]

theorem attemptBundle_notReady {l : List SlotI} (h : takeBundle s c = .ok (⟨c, f, l⟩, u))
    (hb : bundleReady u c f.header l = false) : attemptBundle m s c = .next u := by
  rw [attemptBundle, h]
  dsimp only
  rw [hb]
  rfl

/-- The first bundle of its core that issues in a clock cycle goes by the verdicts of its slots. -/
theorem attemptBundle_first {l : List SlotI} (h : takeBundle s c = .ok (⟨c, f, l⟩, u)) (hb : bundleReady u c f.header l = true)
    (hi : ∀ e ∈ u.issued, coreOf e.1 ≠ coreOf c) {ps : List Probe} (hp : Bundled.probes ⟨c, f, l⟩ m u = .ok ps) :
    attemptBundle m s c = Bundled.go ⟨c, f, l⟩ m u ps := by
  have none : u.issued.filter (fun e => coreOf e.1 == coreOf c) = [] := by
    simpa [List.filter_eq_nil_iff] using hi
  have turn : issueTurn u ⟨c, f, l⟩ = some u := by rw [issueTurn, none]
  rw [attemptBundle, h]
  dsimp only
  rw [hb, turn]
  dsimp only
  rw [hp]
  rfl
end

/-! ### A bundle of one slot -/

section
variable {m : Meaning} {u p : State} {c : Nat} {f : Fetched} {i : SlotI}

theorem runOne_next {s t : State} (h : m i.instr (atSlot s i) = .next t) : runOne m s i = .ok t := by
  rw [runOne, h]

theorem probeSlots_sole {s : State} {r : BitVec 128}
    (hp : m i.instr (atSlot (s.updCtx c (fun x => { x with rctr := r })) i) = .next p) :
    probeSlots m s c r [i] = .ok [⟨i, p.issue.verdict, p⟩] := by
  rw [probeSlots, runOne_next hp]
  rfl

theorem commitSlots_sole {s t : State} (ht : m i.instr (atSlot s i) = .next t) (hr : t.issue.verdict = .ran) :
    commitSlots m [i] s = .ok t := by
  rw [commitSlots, runOne_next ht]
  dsimp only
  rw [hr]
  rfl

theorem run_sole {t : State}
    (ht : m i.instr (atSlot { u with issue := { issueOf u c (u.ctx c).pc f.header with commit := true } } i) = .next t)
    (hr : t.issue.verdict = .ran) :
    Bundled.run ⟨c, f, [i]⟩ m u = .next (endBundle t (u.ctx c)) := by
  have h := commitSlots_sole ht hr
  unfold Bundled.run Bundled.begin_
  dsimp only
  rw [h]

theorem go_held (hv : p.issue.verdict = .held) (hr : (p.ctx c).run = .ready) :
    Bundled.go ⟨c, f, [i]⟩ m u [⟨i, p.issue.verdict, p⟩] = .next u := by
  simp [Bundled.go, Probe.unready, hv, hr]

theorem go_fails (hv : p.issue.verdict ≠ .held) {cause : BitVec 8} {tval : Word}
    (hf : (headsFail (u.ctx c) f.header [i]).or (headerFails (u.ctx c) f.header) = some (cause, tval)) :
    Bundled.go ⟨c, f, [i]⟩ m u [⟨i, p.issue.verdict, p⟩] = .next (takeTrap u c cause tval (u.ctx c).pc) := by
  simp [Bundled.go, Probe.unready, hv, hf]

section
variable (hf : (headsFail (u.ctx c) f.header [i]).or (headerFails (u.ctx c) f.header) = none)
include hf

theorem go_trapped {enc : Bool} {cause : BitVec 8} {tval : Word} (hv : p.issue.verdict = .trapped enc cause tval) :
    Bundled.go ⟨c, f, [i]⟩ m u [⟨i, p.issue.verdict, p⟩] = .next (takeTrap u c cause tval (u.ctx c).pc) := by
  simp [Bundled.go, Probe.unready, firstTrap, hv, hf]

theorem go_ran (hv : p.issue.verdict = .ran) :
    Bundled.go ⟨c, f, [i]⟩ m u [⟨i, p.issue.verdict, p⟩] = Bundled.run ⟨c, f, [i]⟩ m u := by
  simp [Bundled.go, Probe.unready, firstTrap, hv, hf]
end
end

/-- Settles O49: a step is the turn of the best context left, which goes by its save, its bundle's fetch and decoding, the bundle's
readiness, and the verdict of its one slot. -/
theorem stepRunsBundle : Obligations.StepRunsBundle := by
  unfold Obligations.StepRunsBundle
  refine ⟨fun s i rest h => step_of_agenda h, fun s c rest ha hi => ?_⟩
  rw [step_of_issuing ha hi]
  intro now m
  refine ⟨fun h => attempt_notRunning h, fun why hr hd => ⟨fun hs => attempt_unsettled hr hd hs,
    fun hs t ht hl => attempt_saved hr hd hs ht hl⟩, fun hr hd => ?_⟩
  rw [attempt_unsaved hr hd]
  refine ⟨fun cause tval h => attemptBundle_trapped (takeBundle_unfetched h), fun f u hf =>
    ⟨fun w hw => attemptBundle_trapped (takeBundle_undecoded hf hw), fun i slot hi => ?_⟩⟩
  intro s0 probe fails
  have taken := takeBundle_decoded hf hi
  refine ⟨fun hb => attemptBundle_notReady taken hb, fun hb hfirst p hp => ?_⟩
  rw [attemptBundle_first taken hb hfirst (probeSlots_sole hp)]
  exact ⟨fun hv hrun => go_held hv hrun, fun hv cause tval hx => go_fails hv hx,
    fun hx => ⟨fun t hv ht hran => (go_ran hx hv).trans (run_sole ht hran), fun enc cause tval hv => go_trapped hx hv⟩⟩

end Sys2Proof.Proofs

/-! SUPPORT. Where the next bundle lies (R91, R131 to R134): the link of a taken transfer, the innermost loop level, and the context
that a bundle's end leaves for each kind of transfer. -/

namespace Sys2Proof.Proofs

open Sys2Proof Machine

/-! ### The link of a transfer -/

/-- An aligned target is kept by the mask of the link, and its bit 0 is free for the link's mark. -/
theorem link_of_aligned {t : Word} (h : t.toNat % 8 = 0) : (t &&& ~~~7) ||| 1 = t + 1 := by
  have low : t &&& 7 = 0 := BitVec.eq_of_toNat_eq (by
    rw [BitVec.toNat_and]
    exact (Nat.and_two_pow_sub_one_eq_mod t.toNat 3).trans h)
  have kept : t &&& ~~~7 = t := by
    apply BitVec.eq_of_getLsbD_eq
    intro i hi
    have bit : (t.getLsbD i && (7 : Word).getLsbD i) = false := by
      rw [← BitVec.getLsbD_and, low]
      exact BitVec.getLsbD_zero
    rw [BitVec.getLsbD_and, BitVec.getLsbD_not, decide_eq_true hi, Bool.true_and]
    cases ht : t.getLsbD i
    · rfl
    · rw [ht, Bool.true_and] at bit
      rw [bit]
      rfl
  have odd : t &&& 1 = 0 := by
    have : (1 : Word) = 7 &&& 1 := rfl
    rw [this, ← BitVec.and_assoc, low]
    rfl
  rw [kept, BitVec.add_eq_or_of_and_eq_zero t 1 odd]

/-! ### The innermost level (R133) -/

/-- The innermost active level is the highest-numbered one whose counter is not zero. -/
theorem innermost_eq_some {x : Ctx} {l : Nat} (hl : l < 4) (h : Map.get 0 x.k (24 + 2 * l) ≠ 0)
    (above : ∀ m, l < m → m < 4 → Map.get 0 x.k (24 + 2 * m) = 0) : innermost x = some l := by
  have active := bne_iff_ne.mpr h
  have idle {m : Nat} (hm : l < m) (hm' : m < 4) : (Map.get 0 x.k (24 + 2 * m) != 0) = false :=
    bne_eq_false_iff_eq.mpr (above m hm hm')
  unfold innermost
  match l, hl with
  | 3, _ => simp only [List.find?, active]
  | 2, _ => simp only [List.find?, idle (m := 3), active, Nat.reduceLT]
  | 1, _ => simp only [List.find?, idle (m := 3), idle (m := 2), active, Nat.reduceLT]
  | 0, _ => simp only [List.find?, idle (m := 3), idle (m := 2), idle (m := 1), active, Nat.reduceLT]

theorem innermost_eq_none {x : Ctx} (h : ∀ l < 4, Map.get 0 x.k (24 + 2 * l) = 0) : innermost x = none := by
  rw [innermost, List.find?_eq_none]
  intro l hl
  have : l < 4 := by
    simp at hl
    omega
  rw [h l this]
  decide

/-! ### The next bundle -/

section
variable {x x0 : Ctx} {i : Issue}

theorem advance_transfer {t : Word} (h : actTarget i.acts = some t) :
    x.advance x0 i = { x with pc := i.next, npc := (t &&& ~~~7) ||| 1, delay := true } := by
  rw [Ctx.advance, h]

/-- Where a bundle that no transfer follows goes on, its place in a delay bundle apart. -/
def fallThrough (x0 : Ctx) (i : Issue) : Word :=
  match loopBack x0 i.kind with
  | some (_, n, start) => if n = 0 then i.next else start
  | none => i.next

section
variable (h : actTarget i.acts = none)
include h

/-- A delay bundle goes where its link says. -/
theorem advance_linked (hd : (x0.delay && x0.npc.getLsbD 0) = true) :
    x.advance x0 i = { x with pc := x0.npc &&& ~~~7, npc := 0, delay := i.acts.contains .delayOnly } := by
  rw [Ctx.advance, h, hd]
  rfl

theorem advance_unlinked (hd : (x0.delay && x0.npc.getLsbD 0) = false) :
    x.advance x0 i =
      { x with pc := (actGoto i.acts).getD (fallThrough x0 i), npc := 0, delay := i.acts.contains .delayOnly } := by
  rw [Ctx.advance, h, hd]
  rfl
end

theorem advance_npc_delay (h : actTarget i.acts = none) :
    (x.advance x0 i).npc = 0 ∧ (x.advance x0 i).delay = i.acts.contains .delayOnly := by
  rw [Ctx.advance, h]
  exact ⟨rfl, rfl⟩

theorem loopBack_inactive (h : i.kind ≠ 1 ∨ ∀ l < 4, Map.get 0 x0.k (24 + 2 * l) = 0) : loopBack x0 i.kind = none := by
  unfold loopBack
  split
  · next hk => rw [innermost_eq_none (h.resolve_left (not_not_intro hk))]; rfl
  · rfl

theorem loopBack_active {l : Nat} (hl : l < 4) (hk : i.kind = 1) (h : Map.get 0 x0.k (24 + 2 * l) ≠ 0)
    (above : ∀ m, l < m → m < 4 → Map.get 0 x0.k (24 + 2 * m) = 0) :
    loopBack x0 i.kind = some (l, Map.get 0 x0.k (24 + 2 * l) - 1, Map.get 0 x0.k (25 + 2 * l)) := by
  rw [loopBack, if_pos hk, innermost_eq_some hl h above]
  rfl

theorem fallThrough_inactive (h : i.kind ≠ 1 ∨ ∀ l < 4, Map.get 0 x0.k (24 + 2 * l) = 0) : fallThrough x0 i = i.next := by
  rw [fallThrough, loopBack_inactive h]

theorem fallThrough_active {l : Nat} (hl : l < 4) (hk : i.kind = 1) (h : Map.get 0 x0.k (24 + 2 * l) ≠ 0)
    (above : ∀ m, l < m → m < 4 → Map.get 0 x0.k (24 + 2 * m) = 0) :
    fallThrough x0 i = if Map.get 0 x0.k (24 + 2 * l) = 1 then i.next else Map.get 0 x0.k (25 + 2 * l) := by
  rw [fallThrough, loopBack_active hl hk h above]
  simp only [sub_eq_zero]
end

/-- Settles O32: a taken transfer goes into the link; otherwise the delay bundle's link, the goto of the bundle and the loop's start
are tried in turn. -/
protected theorem nextBundle : Obligations.NextBundle := by
  unfold Obligations.NextBundle
  intro x x0 i
  refine ⟨fun t ht hal => ?_, fun hn => ?_⟩
  · rw [advance_transfer ht]
    exact ⟨rfl, link_of_aligned hal, rfl⟩
  · obtain ⟨link, mark⟩ := advance_npc_delay (x := x) (x0 := x0) hn
    refine ⟨link, mark, fun hd hb => ?_, fun h a ha => ?_, fun h hg => ?_⟩
    · rw [advance_linked hn (by rw [hd, hb]; rfl)]
    · rw [advance_unlinked hn (Bool.and_eq_false_iff.mpr h), ha, Option.getD_some]
    · rw [advance_unlinked hn (Bool.and_eq_false_iff.mpr h), hg, Option.getD_none]
      exact ⟨fallThrough_inactive, fun l hl hk hc above =>
        ⟨fallThrough_active hl hk hc above, loopBack_active hl hk hc above⟩⟩

end Sys2Proof.Proofs

/-! SUPPORT. What translation and the package's writes leave as it was: the contexts, and the record of the bundle being issued (R249,
R301, R304, R374). -/

namespace Sys2Proof.Proofs

open Sys2Proof Machine

/-- From `s` to `t` no context has changed, and neither has the record of the bundle being issued. -/
def KeepsCtxs (s t : State) : Prop := t.ctxs = s.ctxs ∧ t.issue = s.issue

theorem KeepsCtxs.refl (s : State) : KeepsCtxs s s := ⟨rfl, rfl⟩

theorem KeepsCtxs.trans {s t u : State} (h : KeepsCtxs s t) (k : KeepsCtxs t u) : KeepsCtxs s u :=
  ⟨k.1.trans h.1, k.2.trans h.2⟩

theorem KeepsCtxs.ctx {s t : State} (h : KeepsCtxs s t) (c : Nat) : t.ctx c = s.ctx c := by rw [State.ctx, State.ctx, h.1]

/-! ### Translation -/

theorem orEntry_keepsCtxs (s : State) (pa bits : Nat) : KeepsCtxs s (orEntry s pa bits) := by
  unfold orEntry
  dsimp only
  split <;> exact ⟨rfl, rfl⟩

theorem markDirty_keepsCtxs (s : State) (v : View) (e : TlbEntry) : KeepsCtxs s (markDirty s v e) := by
  unfold markDirty
  split
  · exact KeepsCtxs.refl s
  · refine (orEntry_keepsCtxs s e.pteAddr 0x80).trans ?_
    dsimp only
    split <;> exact ⟨rfl, rfl⟩

theorem installWalk_keepsCtxs (s : State) (v : View) (e : TlbEntry) (seen : List (Nat × Word)) :
    KeepsCtxs s (installWalk s v e seen) := by
  unfold installWalk
  dsimp only
  split <;> exact ⟨rfl, rfl⟩

theorem walkInstall_keepsCtxs {s t : State} {v : View} {va : Nat} {e : TlbEntry} (h : walkInstall s v va = some (e, t)) :
    KeepsCtxs s t := by
  rw [walkInstall, Option.map_eq_some_iff] at h
  obtain ⟨⟨e', seen⟩, -, h⟩ := h
  simp only [Prod.mk.injEq] at h
  obtain ⟨-, rfl⟩ := h
  refine KeepsCtxs.trans ?_ (installWalk_keepsCtxs _ _ _ _)
  split
  · exact KeepsCtxs.refl s
  · exact orEntry_keepsCtxs _ _ _

/-- A translation ends where its cached entry stands or a walk has been installed, and marks the entry dirty for a write. -/
theorem translatePage_state {s t : State} {v : View} {va pa : Nat} {acc : Acc} {cnt : Bool}
    (h : translatePage s v va acc = .ok (pa, cnt, t)) :
    ∃ e u, (u = s ∨ walkInstall s v va = some (e, u)) ∧ t = if acc.writes then markDirty u v e else u := by
  have fresh (h : (match walkInstall s v va with
      | none => Except.error 0x04
      | some (e, s') => match leafCheck s' v e va acc with
        | some c => Except.error c
        | none => Except.ok (ε := BitVec 8) (pteAddr e.pte + va % 2 ^ pageShift e.level, pteCnt e.pte,
            if acc.writes then markDirty s' v e else s')) = .ok (pa, cnt, t)) :
      ∃ e u, (u = s ∨ walkInstall s v va = some (e, u)) ∧ t = if acc.writes then markDirty u v e else u := by
    split at h
    · cases h
    · next e u hw =>
      split at h
      · cases h
      · cases h
        exact ⟨e, u, .inr hw, rfl⟩
  unfold translatePage at h
  dsimp only at h
  split at h
  · next e _ =>
    split at h
    · cases h
      exact ⟨e, s, .inl rfl, rfl⟩
    · exact fresh h
  · exact fresh h

theorem translatePage_keepsCtxs {s t : State} {v : View} {va pa : Nat} {acc : Acc} {cnt : Bool}
    (h : translatePage s v va acc = .ok (pa, cnt, t)) : KeepsCtxs s t := by
  obtain ⟨e, u, hu, rfl⟩ := translatePage_state h
  have hs : KeepsCtxs s u := by
    rcases hu with rfl | hu
    · exact KeepsCtxs.refl _
    · exact walkInstall_keepsCtxs hu
  split
  · exact hs.trans (markDirty_keepsCtxs u v e)
  · exact hs

theorem translate_keepsCtxs {s t : State} {v : View} {va pa : Nat} {acc : Acc} {cnt : Bool}
    (h : Machine.translate s v va acc = .ok (pa, cnt, t)) : KeepsCtxs s t := by
  unfold Machine.translate at h
  split at h
  · cases h
  · split at h
    · split at h
      · cases acc <;> dsimp only at h
        case counterRead | counterAdd | fetch => exact absurd h nofun
        all_goals
          split at h
          · exact absurd h nofun
          · rw [Except.ok.injEq, Prod.mk.injEq, Prod.mk.injEq] at h
            obtain ⟨-, -, h⟩ := h
            exact h ▸ KeepsCtxs.refl s
      · exact translatePage_keepsCtxs h
    · split at h
      · cases h
      · exact translatePage_keepsCtxs h

theorem translateCounter_keepsCtxs {s t : State} {v : View} {va : Word} {pa : Nat} {acc : Acc}
    (h : translateCounter s v va acc = .ok (pa, t)) : KeepsCtxs s t := by
  unfold translateCounter at h
  split at h
  · cases h
  · split at h
    · cases h
    · next ht =>
      cases h
      exact translate_keepsCtxs ht

theorem translateSpans_keepsCtxs {v : View} {acc : Acc} (n : Nat) {s t : State} {va len : Nat} {ps : List Span}
    (h : translateSpans v acc n s va len = .ok (ps, t)) : KeepsCtxs s t := by
  induction n generalizing s va len ps with
  | zero => cases h; exact KeepsCtxs.refl _
  | succ n ih =>
    unfold translateSpans at h
    split at h
    · cases h; exact KeepsCtxs.refl _
    · split at h
      · cases h
      · next hw =>
        dsimp only at h
        split at h
        · cases h
        · next hr =>
          cases h
          exact (translate_keepsCtxs hw).trans (ih hr)

theorem translateRange_keepsCtxs {s t : State} {v : View} {va len : Nat} {acc : Acc} {ps : List Span}
    (h : translateRange s v va len acc = .ok (ps, t)) : KeepsCtxs s t := by
  unfold translateRange at h
  split at h
  · cases h
  · exact translateSpans_keepsCtxs _ h

/-! ### Writes -/

theorem write_keepsCtxs (s : State) (w : Writer) (cnt : Bool) (pa : Nat) (bs : List Byte) : KeepsCtxs s (s.write w cnt pa bs) := by
  refine ⟨write_ctxs s w cnt pa bs, ?_⟩
  unfold State.write
  dsimp only
  split
  · rfl
  · rw [watchCheck_eq]
    split <;> rfl

theorem mgmtRead_keepsCtxs (n off : Nat) (s : State) : KeepsCtxs s (mgmtRead n off s).2 := by
  induction n generalizing off s with
  | zero => exact KeepsCtxs.refl s
  | succ n ih =>
    refine KeepsCtxs.trans ?_ (ih (off + 8) (mgmtWord s off).2)
    unfold mgmtWord
    split <;> exact ⟨rfl, rfl⟩

/-- A write of the management space puts steps on the agenda and reads the words that it does not cover. -/
theorem mgmtWrite_keepsCtxs (s : State) (off : Nat) (bs : List Byte) : KeepsCtxs s (mgmtWrite s off bs) :=
  mgmtRead_keepsCtxs ((off + bs.length - 1) / 8 - off / 8 + 1) (off / 8 * 8) s

theorem storeAt_keepsCtxs (s : State) (w : Writer) (cnt : Bool) (pa : Nat) (bs : List Byte) :
    KeepsCtxs s (s.storeAt w cnt pa bs) := by
  unfold State.storeAt
  split
  · split
    · exact KeepsCtxs.refl s
    · exact mgmtWrite_keepsCtxs s _ bs
  · exact write_keepsCtxs s w cnt pa bs

theorem writeSpans_keepsCtxs (s : State) (w : Writer) (ps : List Span) (bs : List Byte) : KeepsCtxs s (writeSpans s w ps bs) := by
  induction ps generalizing s bs with
  | nil => exact KeepsCtxs.refl s
  | cons p ps ih => exact (storeAt_keepsCtxs s w p.cnt p.pa _).trans (ih _ _)

theorem writeVia_keepsCtxs {s t : State} {v : View} {w : Writer} {va : Nat} {bs : List Byte}
    (h : writeVia s v w va bs = .ok t) : KeepsCtxs s t := by
  unfold writeVia at h
  split at h
  · cases h
  · next hr =>
    cases h
    exact (translateRange_keepsCtxs hr).trans (writeSpans_keepsCtxs _ _ _ _)

/-! ### Images that a core's offer gives up (R279, R292) -/

theorem placeInArea_keepsCtxs {s t : State} {r : Region} {vault : Bool} {bs : List Byte} {p : Place}
    (h : placeInArea s r vault bs = some (p, t)) : KeepsCtxs s t := by
  unfold placeInArea at h
  dsimp only at h
  split at h
  · cases h
  · split at h
    · next hw =>
      cases h
      exact writeVia_keepsCtxs hw
    · cases h

theorem moveImage_keepsCtxs {s t : State} {v : Saved} (h : moveImage s v = some t) : KeepsCtxs s t := by
  unfold moveImage at h
  split at h
  · cases h
    exact KeepsCtxs.refl s
  · dsimp only at h
    rw [Option.map_eq_some_iff] at h
    obtain ⟨⟨place, u⟩, hp, rfl⟩ := h
    suffices hu : KeepsCtxs s u from hu
    split at hp
    · next hv =>
      cases hp
      exact placeInArea_keepsCtxs hv
    · exact placeInArea_keepsCtxs hp

theorem moveAll_keepsCtxs (l : List Saved) {s t : State}
    (h : l.foldl (fun (o : Option State) v => o.bind (fun s => moveImage s v)) (some s) = some t) : KeepsCtxs s t := by
  induction l generalizing s with
  | nil => cases h; exact KeepsCtxs.refl _
  | cons v l ih =>
    rw [List.foldl_cons, Option.bind_some] at h
    cases hm : moveImage s v with
    | none =>
      rw [hm] at h
      have stuck : l.foldl (fun (o : Option State) v => o.bind (fun s => moveImage s v)) none = none := by
        clear ih h
        induction l with
        | nil => rfl
        | cons v l ih => exact ih
      rw [stuck] at h
      cases h
    | some u =>
      rw [hm] at h
      exact (moveImage_keepsCtxs hm).trans (ih h)

theorem roomFor_keepsCtxs {s t : State} {k bank : Nat} (h : roomFor s k bank = some t) : KeepsCtxs s t := by
  unfold roomFor at h
  split at h
  · cases h
    exact KeepsCtxs.refl _
  · split at h
    · exact moveAll_keepsCtxs _ h
    · cases h

end Sys2Proof.Proofs

/-! SUPPORT. Returning from a trap (R108, R142): a context that becomes dormant leaves every other live context as it was, and the
frozen context that a handler serves goes on where it stopped. -/

namespace Sys2Proof.Proofs

open Sys2Proof Machine

/-! ### The other live contexts -/

/-- From `s` to `t` no live context but `h` has changed, and the contexts stay in their canonical form. -/
def KeepsLive (h : Nat) (s t : State) : Prop :=
  Map.wf {} s.ctxs = true → Map.wf {} t.ctxs = true ∧ ∀ c, c ≠ h → (s.ctx c).run ≠ .dormant → t.ctx c = s.ctx c

variable {h : Nat} {s t u : State}

theorem KeepsCtxs.keepsLive (k : KeepsCtxs s t) : KeepsLive h s t := fun hw => ⟨k.1 ▸ hw, fun c _ _ => k.ctx c⟩

theorem KeepsLive.refl (h : Nat) (s : State) : KeepsLive h s s := (KeepsCtxs.refl s).keepsLive

theorem KeepsLive.trans (k : KeepsLive h s t) (l : KeepsLive h t u) : KeepsLive h s u := by
  intro hs
  obtain ⟨ht, hk⟩ := k hs
  obtain ⟨hu, hl⟩ := l ht
  exact ⟨hu, fun c hc hr => (hl c hc (by rwa [hk c hc hr])).trans (hk c hc hr)⟩

theorem keepsLive_updCtx_self (s : State) (h : Nat) (f : Ctx → Ctx) : KeepsLive h s (s.updCtx h f) :=
  fun hs => ⟨State.wf_updCtx s h f hs, fun c hc _ => State.ctx_updCtx_of_ne s h c f hs hc⟩

/-- A dormant context may be given any state. -/
theorem keepsLive_updCtx_dormant {d : Nat} (hd : (s.ctx d).run = .dormant) (f : Ctx → Ctx) : KeepsLive h s (s.updCtx d f) :=
  fun hs => ⟨State.wf_updCtx s d f hs, fun c _ hr => State.ctx_updCtx_of_ne s d c f hs (fun e => hr (e ▸ hd))⟩

theorem keepsLive_foldl {α : Type} {f : State → α → State} (hf : ∀ s a, KeepsLive h s (f s a)) (l : List α) (s : State) :
    KeepsLive h s (l.foldl f s) := by
  induction l generalizing s with
  | nil => exact KeepsLive.refl h s
  | cons a l ih => exact (hf s a).trans (ih (f s a))

/-! ### What a context gives up -/

theorem updCore_keepsCtxs (s : State) (k : Nat) (f : Core → Core) : KeepsCtxs s (s.updCore k f) := ⟨rfl, rfl⟩

theorem deliverHits_keepsLive (s : State) (c : Nat) : KeepsLive c s (deliverHits s c) :=
  keepsLive_updCtx_self { s with watchHits := s.watchHits.filter (fun h => h.shut || h.owner != c) } c _

theorem unwait_keepsLive (s : State) (c : Nat) : KeepsLive c s (unwait s c) := by
  unfold unwait
  exact keepsLive_updCtx_self (s.updCore _ _) c _

theorem leaveInbox_keepsCtxs (s : State) (c : Nat) : KeepsCtxs s (leaveInbox s c) := by
  have fold (l : Map Core) (t : State) : KeepsCtxs t (l.foldl (fun s (k, x) => if x.inboxQueue.contains c then
      s.updCore k (fun x => { x with inboxQueue := x.inboxQueue.filter (· != c) }) else s) t) := by
    induction l generalizing t with
    | nil => exact KeepsCtxs.refl t
    | cons p l ih =>
      refine KeepsCtxs.trans ?_ (ih _)
      dsimp only
      split <;> exact ⟨rfl, rfl⟩
  exact fold s.cores s

theorem loosen_keepsCtxs (s : State) (c : Nat) : KeepsCtxs s (loosen s c) := by
  unfold loosen
  dsimp only
  split <;> exact ⟨rfl, rfl⟩

theorem leaveWindow_keepsCtxs (s : State) (core : Nat) (task : TaskKind) : KeepsCtxs s (leaveWindow s core task) := by
  cases task <;> exact ⟨rfl, rfl⟩

theorem freeTiles_keepsCtxs (s : State) (k : Nat) (mask : BitVec 8) : KeepsCtxs s (freeTiles s k mask) := by
  unfold freeTiles
  split <;> exact ⟨rfl, rfl⟩

theorem dormantOn_dormant {k d : Nat} (hd : dormantOn s k = some d) : (s.ctx d).run = .dormant := by
  simpa using List.find?_some hd

/-- The handler of the frozen context `c`: cleared, ready at the trap entry of the region, with what it needs to know of the trap in
a0 to a4 (R102, R107). -/
def handlerFor (t : State) (c : Nat) (o : Ctx) : Ctx :=
  handlerCtx o t.nextId (t.ctx c).region (.trapHandler c) true (t.ctx c).region.trapEntry
    [BitVec.ofNat 64 (c % 4), (t.ctx c).cause, (t.ctx c).epc, (t.ctx c).tval, (t.ctx c).npc]

/-- `t` with that handler on its context `d`. -/
def withHandler (t : State) (c d : Nat) : State := { t.updCtx d (handlerFor t c) with nextId := t.nextId + 1 }

theorem withHandler_ctxs (t : State) (c d : Nat) : (withHandler t c d).ctxs = (t.updCtx d (handlerFor t c)).ctxs := rfl
theorem withHandler_core (t : State) (c d k : Nat) : (withHandler t c d).core k = t.core k := rfl

theorem withHandler_ctx_self (ht : Map.wf {} t.ctxs = true) (c d : Nat) :
    (withHandler t c d).ctx d = handlerFor t c (t.ctx d) :=
  State.ctx_updCtx_self t d (handlerFor t c) ht

theorem withHandler_ctx_of_ne (ht : Map.wf {} t.ctxs = true) (c : Nat) {d i : Nat} (hi : i ≠ d) :
    (withHandler t c d).ctx i = t.ctx i :=
  State.ctx_updCtx_of_ne t d i (handlerFor t c) ht hi

theorem startTrapHandler_starts {c d : Nat} (hd : dormantOn s (coreOf c) = some d) (ht : roomFor s (coreOf c) 64 = some t)
    (hb : withinBudget s (s.ctx c).region (coreOf c) = true) : startTrapHandler s c = withHandler t c d := by
  unfold startTrapHandler
  dsimp only
  rw [hd, ht]
  dsimp only
  rw [hb]
  rfl

/-- A trap's handler does not start, or it starts on a dormant context once there is room for its bank (R107). -/
theorem startTrapHandler_cases (s : State) (c : Nat) : startTrapHandler s c = s ∨
    ∃ d t, dormantOn s (coreOf c) = some d ∧ roomFor s (coreOf c) 64 = some t ∧ startTrapHandler s c = withHandler t c d := by
  cases hb : withinBudget s (s.ctx c).region (coreOf c) with
  | false =>
    left
    unfold startTrapHandler
    dsimp only
    rw [hb]
    split <;> rfl
  | true =>
    cases hd : dormantOn s (coreOf c) with
    | none =>
      left
      unfold startTrapHandler
      dsimp only
      rw [hd]
    | some d =>
      cases ht : roomFor s (coreOf c) 64 with
      | none =>
        left
        unfold startTrapHandler
        dsimp only
        rw [hd, ht]
      | some t => exact .inr ⟨d, t, rfl, rfl, startTrapHandler_starts hd ht hb⟩

/-- A handler starts on a dormant context, so no live one changes. -/
theorem startTrapHandler_keepsLive (s : State) (c : Nat) : KeepsLive h s (startTrapHandler s c) := by
  rcases startTrapHandler_cases s c with hs | ⟨d, t, hd, ht, hs⟩ <;> rw [hs]
  · exact KeepsLive.refl h s
  · have same := roomFor_keepsCtxs ht
    have dormant : (t.ctx d).run = .dormant := by
      rw [same.ctx]
      exact dormantOn_dormant hd
    exact (same.keepsLive.trans (keepsLive_updCtx_dormant dormant (handlerFor t c))).trans
      (KeepsCtxs.keepsLive ⟨withHandler_ctxs t c d, rfl⟩)

theorem startNeeded_keepsLive (s : State) (k : Nat) : KeepsLive h s (startNeeded s k) := by
  refine keepsLive_foldl (fun s c => ?_) _ s
  split
  · exact startTrapHandler_keepsLive s c
  · exact KeepsLive.refl h s

/-- A context that becomes dormant leaves every other live one as it was (R99). -/
theorem becomeDormant_keepsLive (s : State) (c : Nat) : KeepsLive c s (becomeDormant s c) := by
  unfold becomeDormant
  extract_lets s1 s2 s3 s4
  have left : KeepsLive c s s1 := (((deliverHits_keepsLive s c).trans (unwait_keepsLive _ c)).trans
    (leaveInbox_keepsCtxs _ c).keepsLive).trans (loosen_keepsCtxs _ c).keepsLive
  have freed : KeepsLive c s1 s3 :=
    ((leaveWindow_keepsCtxs s1 (coreOf c) (s1.ctx c).task).trans (freeTiles_keepsCtxs s2 (coreOf c) (s2.ctx c).tmask)).keepsLive
  have quit : KeepsLive c s3 s4 := (updCore_keepsCtxs s3 (coreOf c) _).keepsLive
  exact (((left.trans freed).trans quit).trans (keepsLive_updCtx_self s4 c _)).trans (startNeeded_keepsLive _ _)

/-! ### The context that resumes -/

/-- A frozen context as ERET, or ERET.to an address, lets it go on (R108, R142). -/
def resumed (dst : Option Word) (x : Ctx) : Ctx :=
  let y := { x.refetch with run := .ready }
  match dst with
  | none => { y with pc := y.epc }
  | some a => { y with
      pc := a
      npc := 0
      stall := 0
      waitAct := false
      heldWords := []
      delay := false
      timedOut := false
      waitStart := 0
      drainSums := [] }

theorem resumed_run (dst : Option Word) (x : Ctx) : (resumed dst x).run = .ready := by cases dst <;> rfl

theorem replayHeld_ctxs (s : State) (c : Nat) : (replayHeld s c).ctxs = s.ctxs := rfl

theorem resume_ctxs {f : Nat} (hf : (s.ctx f).run = .frozen) (dst : Option Word) :
    (resume s f dst).ctxs = (s.updCtx f (resumed dst)).ctxs := by
  unfold resume
  rw [hf]
  dsimp only
  split
  · contradiction
  · split <;> cases dst <;> rfl

/-- Settles O46: the context that resumes is live, so the end of its handler leaves it as ERET has made it. -/
theorem trapReturn : Obligations.TrapReturn := by
  unfold Obligations.TrapReturn
  intro s h f k hs ht hne hf
  obtain ⟨-, hw, -, -⟩ := hs
  have now : (resume s f k).ctx f = resumed k (s.ctx f) := by
    rw [State.ctx, resume_ctxs hf]
    exact State.ctx_updCtx_self s f _ hw
  have hw' : Map.wf {} (resume s f k).ctxs = true := by
    rw [resume_ctxs hf]
    exact State.wf_updCtx s f _ hw
  have kept : (eretFrom s h k).ctx f = resumed k (s.ctx f) := by
    have live : ((resume s f k).ctx f).run ≠ .dormant := by
      rw [now, resumed_run]
      decide
    rw [eretFrom, ht]
    exact ((becomeDormant_keepsLive (resume s f k) h hw').2 f hne live).trans now
  dsimp only
  rw [kept]
  cases k with
  | none => exact ⟨rfl, fun _ _ => rfl, rfl, rfl, rfl, rfl, rfl, rfl⟩
  | some a => exact ⟨rfl, fun _ _ => rfl, rfl, rfl, rfl, rfl, rfl, rfl⟩

end Sys2Proof.Proofs

/-! SUPPORT. Taking a trap (R102, R105 to R108): the context leaves its waits and freezes, which leaves every budget and every bank as
it was, and a dormant context of its core becomes the handler. -/

namespace Sys2Proof.Map

variable {α : Type} [DecidableEq α] {d : α}

/-- A listed key keeps its place when its value changes, so what a list shows of keys and values stays where `q` sees no change. -/
theorem map_upd_eq {β : Type} {m : Map α} {k : Nat} {f : α → α} (q : α → β) (hk : get d m k ≠ d) (hf : f (get d m k) ≠ d)
    (hq : q (f (get d m k)) = q (get d m k)) :
    (upd d m k f).map (fun p => (p.1, q p.2)) = m.map (fun p => (p.1, q p.2)) := by
  unfold upd set
  rw [if_neg hf]
  generalize f (get d m k) = v at hq
  clear hf
  induction m with
  | nil => exact absurd rfl hk
  | cons p m ih =>
    obtain ⟨j, u⟩ := p
    by_cases h1 : k = j
    · subst h1
      simp only [get, if_true] at hq
      simp [put, hq]
    · by_cases h2 : k < j
      · simp [get, h1, h2] at hk
      · simp only [get, h1, h2, if_false] at hk hq
        simp only [put, h1, h2, if_false, List.map_cons, ih hk hq]

end Sys2Proof.Map

namespace Sys2Proof.Proofs

open Sys2Proof Machine

/-! ### Budgets and banks see the live contexts, their regions and their banks -/

/-- What a budget sees of a context. -/
def budgeted (x : Ctx) : Bool × Region := (x.run != .dormant, x.region)

/-- What the budgets see of every context listed. -/
def budgetView (s : State) : List (Nat × Bool × Region) := s.ctxs.map (fun p => (p.1, budgeted p.2))

section
variable {s t : State}

theorem occupied_eq (s : State) (rcb : Word) : occupied s rcb =
    ((budgetView s).filter (fun p => p.2.1 && p.2.2.chain.contains rcb)).map (·.1) := by
  simp [occupied, budgetView, budgeted, List.filter_map, Function.comp_def]

theorem clusterUse_eq (s : State) (cl : Nat) : clusterUse s cl =
    (((budgetView s).filter (fun p => clusterOf p.1 == cl && p.2.1)).map (fun p => coreOf p.1)).eraseDups := by
  simp [clusterUse, budgetView, budgeted, List.filter_map, Function.comp_def]

theorem withinBudget_congr (hv : budgetView t = budgetView s) (hp : ∀ k, (t.core k).present = (s.core k).present)
    (hs : t.saved = s.saved) (r : Region) (k : Nat) : withinBudget t r k = withinBudget s r k := by
  have ho (rcb : Word) : occupied t rcb = occupied s rcb := by rw [occupied_eq, occupied_eq, hv]
  have hu (cl : Nat) : clusterUse t cl = clusterUse s cl := by rw [clusterUse_eq, clusterUse_eq, hv]
  have hb (cl : Nat) : clusterBudget t cl = clusterBudget s cl := by simp only [clusterBudget, hp]
  simp only [withinBudget, ho, hu, hb, hs]

variable (hr : ∀ d, (t.ctx d).run = .dormant ↔ (s.ctx d).run = .dormant)
include hr

theorem dormantOn_congr (k : Nat) : dormantOn t k = dormantOn s k := by
  unfold dormantOn
  congr
  funext d
  exact Bool.eq_iff_iff.mpr (by simpa using hr d)

theorem bankRoom_congr (hb : ∀ d, (t.ctx d).vregs = (s.ctx d).vregs) (hs : t.saved = s.saved) (k bank : Nat) :
    bankRoom t k bank = bankRoom s k bank := by
  have use : bankUse t k = bankUse s k :=
    congrArg List.sum (List.map_congr_left (fun d _ => if_congr (hr d) rfl (congrArg BitVec.toNat (hb d))))
  have offers : offerUse t k false = offerUse s k false := by rw [offerUse, offerUse, hs]
  rw [bankRoom, bankRoom, use, offers]
end

/-- A live context that keeps its region and goes on living is seen as it was. -/
theorem budgetView_updCtx {s : State} {c : Nat} {f : Ctx → Ctx} (hl : (s.ctx c).run ≠ .dormant)
    (hf : (f (s.ctx c)).run ≠ .dormant) (hr : (f (s.ctx c)).region = (s.ctx c).region) :
    budgetView (s.updCtx c f) = budgetView s := by
  have live {x : Ctx} (h : x.run ≠ .dormant) : x ≠ {} := fun e => h (by rw [e])
  refine Map.map_upd_eq budgeted (live hl) (live hf) (Prod.ext ?_ hr)
  exact (bne_iff_ne.mpr hf).trans (bne_iff_ne.mpr hl).symm

/-! ### The context leaves its waits -/

/-- From `s` to `t` the waiting tables of the cores have changed, contexts apart: monitor entries, sweep waiters and the queues for
inbox slots. -/
def WaitsMoved (s t : State) : Prop :=
  t = { s with ctxs := t.ctxs, cores := t.cores } ∧ Map.wf {} t.cores = true ∧
    ∀ k, ∃ monitor sweep queue, t.core k = { s.core k with monitor := monitor, sweep := sweep, inboxQueue := queue }

section
variable {s t u : State}

theorem WaitsMoved.refl (h : Map.wf {} s.cores = true) : WaitsMoved s s := ⟨rfl, h, fun _ => ⟨_, _, _, rfl⟩⟩

theorem WaitsMoved.trans (h : WaitsMoved s t) (k : WaitsMoved t u) : WaitsMoved s u := by
  obtain ⟨ht, -, hc⟩ := h
  obtain ⟨hu, hw, hc'⟩ := k
  refine ⟨by rw [hu, ht], hw, fun k => ?_⟩
  obtain ⟨m, w, q, hk⟩ := hc k
  obtain ⟨m', w', q', hk'⟩ := hc' k
  exact ⟨m', w', q', by rw [hk', hk]⟩

theorem WaitsMoved.updCtx (h : WaitsMoved s t) (c : Nat) (f : Ctx → Ctx) : WaitsMoved s (t.updCtx c f) := by
  obtain ⟨ht, hw, hc⟩ := h
  exact ⟨by rw [ht]; rfl, hw, hc⟩

theorem waitsMoved_updCore (h : Map.wf {} s.cores = true) (k : Nat) {f : Core → Core}
    (hf : ∀ x, ∃ monitor sweep queue, f x = { x with monitor := monitor, sweep := sweep, inboxQueue := queue }) :
    WaitsMoved s (s.updCore k f) := by
  refine ⟨rfl, State.wf_updCore s k f h, fun j => ?_⟩
  by_cases hj : j = k
  · rw [hj, State.core_updCore_self s k f h]
    exact hf _
  · rw [State.core_updCore_of_ne s k j f h hj]
    exact ⟨_, _, _, rfl⟩

theorem unwait_waitsMoved (h : Map.wf {} s.cores = true) (c : Nat) : WaitsMoved s (unwait s c) :=
  (waitsMoved_updCore h _ (fun _ => ⟨_, _, _, rfl⟩)).updCtx c _

theorem leaveInbox_waitsMoved (h : Map.wf {} s.cores = true) (c : Nat) : WaitsMoved s (leaveInbox s c) := by
  have fold (l : Map Core) (t : State) (ht : Map.wf {} t.cores = true) :
      WaitsMoved t (l.foldl (fun s (k, x) => if x.inboxQueue.contains c then
        s.updCore k (fun x => { x with inboxQueue := x.inboxQueue.filter (· != c) }) else s) t) := by
    induction l generalizing t with
    | nil => exact WaitsMoved.refl ht
    | cons p l ih =>
      rw [List.foldl_cons]
      dsimp only
      split
      · have now := waitsMoved_updCore ht p.1 (f := fun x => { x with inboxQueue := x.inboxQueue.filter (· != c) })
          (fun _ => ⟨_, _, _, rfl⟩)
        exact now.trans (ih _ now.2.1)
      · exact ih t ht
  exact fold s.cores s h

end

/-! ### The context freezes -/

/-- `s` once context `c` has left its waits and is frozen (R105). -/
def frozenAt (s : State) (c : Nat) (cause : BitVec 8) (tval epc : Word) : State :=
  (leaveInbox (unwait s c) c).updCtx c (fun x => x.freeze cause tval epc)

/-- A context that has left its waits. -/
def unwaited (x : Ctx) : Ctx := { x with wait := none }

section
variable {s : State} {c : Nat} {cause : BitVec 8} {tval epc : Word}

theorem takeTrap_handled (hc : s.shutter.causes.contains cause = false)
    (ht : ((frozenAt s c cause tval epc).ctx c).isTrapHandler = false)
    (he : ((frozenAt s c cause tval epc).ctx c).region.trapEntry ≠ 0) :
    takeTrap s c cause tval epc = startTrapHandler (frozenAt s c cause tval epc) c := by
  unfold takeTrap
  rw [hc]
  unfold Ctx.isTrapHandler at ht
  unfold frozenAt at *
  simp only [Bool.false_eq_true, if_false]
  split at ht
  · cases ht
  · cases ht
  · exact if_neg he

theorem frozenAt_ctxs (s : State) (c : Nat) (cause : BitVec 8) (tval epc : Word) : (frozenAt s c cause tval epc).ctxs =
    ((s.updCtx c unwaited).updCtx c (fun x => x.freeze cause tval epc)).ctxs := by
  have same := (leaveInbox_keepsCtxs (unwait s c) c).1
  unfold frozenAt State.updCtx
  dsimp only
  rw [same]
  rfl

theorem frozenAt_waitsMoved (h : Map.wf {} s.cores = true) (c : Nat) (cause : BitVec 8) (tval epc : Word) :
    WaitsMoved s (frozenAt s c cause tval epc) :=
  have left := unwait_waitsMoved h c
  (left.trans (leaveInbox_waitsMoved left.2.1 c)).updCtx c _

variable (hw : Map.wf {} s.ctxs = true)
include hw

theorem frozenAt_ctx : (frozenAt s c cause tval epc).ctx c =
    { s.ctx c with run := .frozen, cause := cause.setWidth 64, tval := tval, epc := epc, pc := epc, wait := none } := by
  rw [State.ctx, frozenAt_ctxs]
  exact (State.ctx_updCtx_self (s.updCtx c unwaited) c _ (State.wf_updCtx s c _ hw)).trans
    (congrArg (fun x => Ctx.freeze x cause tval epc) (State.ctx_updCtx_self s c unwaited hw))

theorem frozenAt_ctx_of_ne {d : Nat} (hd : d ≠ c) : (frozenAt s c cause tval epc).ctx d = s.ctx d := by
  rw [State.ctx, frozenAt_ctxs]
  exact (State.ctx_updCtx_of_ne (s.updCtx c unwaited) c d _ (State.wf_updCtx s c _ hw) hd).trans (State.ctx_updCtx_of_ne s c d _ hw hd)

theorem frozenAt_wf : Map.wf {} (frozenAt s c cause tval epc).ctxs = true := by
  rw [frozenAt_ctxs]
  exact State.wf_updCtx _ c _ (State.wf_updCtx s c _ hw)

theorem frozenAt_vregs (d : Nat) : ((frozenAt s c cause tval epc).ctx d).vregs = (s.ctx d).vregs := by
  by_cases hd : d = c
  · rw [hd, frozenAt_ctx hw]
  · rw [frozenAt_ctx_of_ne hw hd]

variable (hl : (s.ctx c).run ≠ .dormant)
include hl

theorem frozenAt_dormant (d : Nat) : ((frozenAt s c cause tval epc).ctx d).run = .dormant ↔ (s.ctx d).run = .dormant := by
  by_cases hd : d = c
  · rw [hd, frozenAt_ctx hw]
    exact ⟨nofun, fun h => absurd h hl⟩
  · rw [frozenAt_ctx_of_ne hw hd]

/-- A context that freezes stays live and in its region, so no budget sees a change. -/
theorem frozenAt_budgetView : budgetView (frozenAt s c cause tval epc) = budgetView s := by
  have same : budgetView (frozenAt s c cause tval epc) =
      budgetView ((s.updCtx c unwaited).updCtx c (fun x => x.freeze cause tval epc)) := by
    rw [budgetView, frozenAt_ctxs]
    rfl
  have left : (s.updCtx c unwaited).ctx c = unwaited (s.ctx c) := State.ctx_updCtx_self s c _ hw
  rw [same, budgetView_updCtx (by rw [left]; exact hl) (show RunState.frozen ≠ .dormant by decide) rfl, budgetView_updCtx hl hl rfl]

end

/-! ### The handler -/

/-- Arguments put into registers from number `n` on. -/
theorem get_foldl_args (l : List Word) (n : Nat) {m : Map Word} (hm : Map.wf 0 m = true) (i : Nat) :
    Map.get 0 ((l.zipIdx n).foldl (fun m (v, i) => Map.set 0 m i v) m) i =
      if n ≤ i then (l[i - n]?).getD (Map.get 0 m i) else Map.get 0 m i := by
  induction l generalizing n m with
  | nil => simp
  | cons v l ih =>
    rw [List.zipIdx_cons, List.foldl_cons, ih (n + 1) (Map.wf_set hm n v)]
    by_cases h : i = n
    · subst h
      rw [if_neg (by omega), if_pos (le_refl i), Nat.sub_self, List.getElem?_cons_zero, Option.getD_some, Map.get_set_self hm]
    · rw [Map.get_set_of_ne hm v h]
      by_cases hn : n ≤ i
      · have : i - n = i - (n + 1) + 1 := by omega
        rw [if_pos (show n + 1 ≤ i by omega), if_pos hn, this, List.getElem?_cons_succ]
      · rw [if_neg (show ¬ n + 1 ≤ i by omega), if_neg hn]

theorem handlerCtx_arg (x : Ctx) (tid : Nat) (r : Region) (task : TaskKind) (priv : Bool) (pc : Word) {args : List Word} {i : Nat}
    (hi : i < args.length) : (handlerCtx x tid r task priv pc args).reg fA i = (args[i]!).setWidth 2048 := by
  have h := get_foldl_args args 0 (m := []) rfl i
  rw [if_pos (Nat.zero_le i), Nat.sub_zero, List.getElem?_eq_getElem hi, Option.getD_some] at h
  rw [getElem!_pos args i hi, ← h]
  rfl

/-- Beside a change of waiting tables, a handler's start changes contexts and takes the next identity. -/
theorem withHandler_frame {s t : State} (h : WaitsMoved s t) (c d : Nat) : withHandler t c d =
    { s with ctxs := (withHandler t c d).ctxs, cores := t.cores, nextId := s.nextId + 1 } := by
  obtain ⟨C, K, rfl⟩ : ∃ C K, t = { s with ctxs := C, cores := K } := ⟨_, _, h.1⟩
  rfl

/-- A privileged handler's mode holds the privilege bit and the handler's role (R87). -/
theorem handlerCtx_privileged (x : Ctx) (tid : Nat) (r : Region) (task : TaskKind) (pc : Word) (args : List Word) :
    (handlerCtx x tid r task true pc args).priv = true ∧ (handlerCtx x tid r task true pc args).role = 3 := by
  have mode : (handlerCtx x tid r task true pc args).mode = 0x3800 := rfl
  rw [Ctx.priv, Ctx.role, mode]
  decide

/-- Settles O45: the trapped context freezes within its budgets and beside its bank, so the lowest-numbered dormant context of its core
becomes its handler. -/
theorem trapEntry : Obligations.TrapEntry := by
  unfold Obligations.TrapEntry
  intro s c h cause tval epc hs hl hd hb hw he ht hc
  obtain ⟨-, hctx, hcores, -⟩ := hs
  intro t
  have moved := frozenAt_waitsMoved hcores c cause tval epc
  have ⟨hv, _, hvc⟩ := moved
  have frozen := frozenAt_ctx (c := c) (cause := cause) (tval := tval) (epc := epc) hctx
  have saved : (frozenAt s c cause tval epc).saved = s.saved := by rw [hv]
  have room : roomFor (frozenAt s c cause tval epc) (coreOf c) 64 = some (frozenAt s c cause tval epc) :=
    if_pos ((bankRoom_congr (frozenAt_dormant hctx hl) (frozenAt_vregs hctx) saved _ _).trans hb)
  have budget : withinBudget (frozenAt s c cause tval epc) (s.ctx c).region (coreOf c) = true := by
    refine (withinBudget_congr (frozenAt_budgetView hctx hl) (fun k => ?_) saved _ _).trans hw
    obtain ⟨m, w, q, hk⟩ := hvc k
    rw [hk]
  have run : t = withHandler (frozenAt s c cause tval epc) c h := by
    refine (takeTrap_handled hc (by rw [frozen]; exact ht) (by rw [frozen]; exact he)).trans
      (startTrapHandler_starts ((dormantOn_congr (frozenAt_dormant hctx hl) _).trans hd) room (by rw [frozen]; exact budget))
  have hne : c ≠ h := fun e => hl (e ▸ dormantOn_dormant hd)
  have others (d : Nat) (hd : d ≠ c) := frozenAt_ctx_of_ne (cause := cause) (tval := tval) (epc := epc) hctx hd
  have wf := frozenAt_wf (c := c) (cause := cause) (tval := tval) (epc := epc) hctx
  clear hv saved room budget
  generalize frozenAt s c cause tval epc = v at moved hvc frozen run others wf
  have trapped := withHandler_ctx_of_ne wf c hne
  have handler := withHandler_ctx_self wf c h
  rw [frozen] at trapped
  rw [handlerFor, frozen] at handler
  rw [run, trapped, handler]
  obtain ⟨priv, role⟩ := handlerCtx_privileged (v.ctx h) v.nextId (s.ctx c).region (.trapHandler c) (s.ctx c).region.trapEntry
    [BitVec.ofNat 64 (c % 4), cause.setWidth 64, epc, tval, (s.ctx c).npc]
  refine ⟨rfl, rfl, rfl, rfl, rfl, rfl, rfl, fun _ _ => rfl, rfl, rfl, rfl, priv, role, rfl, rfl, rfl,
    fun i hi => handlerCtx_arg _ _ _ _ _ _ hi, fun d hdc hdh => ?_, fun k => ?_, ?_⟩
  · exact (withHandler_ctx_of_ne wf c hdh).trans (others d hdc)
  · rw [withHandler_core]
    exact hvc k
  · exact withHandler_frame moved c h

end Sys2Proof.Proofs

/-! SUPPORT. System registers (R87, R88, R137 to R139) and the invalidations that a CSRW to sys.tlbinv submits (R307 to R309). -/

namespace Sys2Proof.Proofs

open Sys2Proof Machine Laws

/-! ### Running parts of a meaning -/

theorem runSlot_congr {m n : M Unit} {s : State} (h : m.run s = n.run s) : runSlot m s = runSlot n s := by
  unfold runSlot
  rw [h]

theorem runSlot_error {m : M Unit} {s : State} {e : Stop} (h : m.run s = .error e) : runSlot m s = .next (stopped s e) := by
  unfold runSlot
  rw [h]

/-- Where nothing is posted for the issuing context, nothing is performed before an access of its X slot (R312). -/
theorem gives_flushOwn {s : State} (h : nonePosted s) : Gives flushOwn s () s := by
  obtain ⟨hp, hl⟩ := h
  have none : postedSize s s.issue.ctx = 0 := by
    have loose : s.loose.filter (fun l => l.ctx == s.issue.ctx) = [] := by
      simpa [List.filter_eq_nil_iff] using hl
    rw [postedSize, loose, hp]
    rfl
  have same : (if s.issue.commit then performAll s.issue.ctx (postedSize s s.issue.ctx) s else s) = s := by
    rw [none]
    exact ite_self s
  exact congrArg (fun t => Except.ok (ε := Stop) ((), t)) same

/-! ### CSRR and CSRW -/

section
variable {s : State} {num : BitVec 12} {src : BitVec 5} {v : Word} {rsv : Nat}

theorem csrr_assigned (dst : BitVec 5) (h : (csrReserved num.toNat).isSome = true) : exec (.csrr dst num) s =
    .next (scheduled s (.setReg fK dst.toNat ((csrRead s num.toNat).setWidth 2048))) :=
  runSlot_ok (gives_bind (gives_needWord h s) (gives_bind (gives_get s) (gives_act _ s)))

theorem csrr_unassigned (dst : BitVec 5) (h : csrReserved num.toNat = none) : exec (.csrr dst num) s =
    .next (stopped s (.trap true 0x01 (BitVec.ofNat 64 s.issue.word))) := by
  refine runSlot_error ?_
  rw [StateT.run_bind, stops_needWord (by rw [h]; rfl)]
  rfl

theorem csrw_unassigned (op : CsrOp) (src : BitVec 5) (h : csrReserved num.toNat = none) : exec (.csrw op src num) s =
    .next (stopped s (.trap true 0x01 (BitVec.ofNat 64 s.issue.word))) := by
  refine runSlot_error ?_
  dsimp only
  rw [h]
  rfl

/-- What a CSRW does once its value is read: the reserved bits, the privilege and the rounding mode are checked in this order, and the
write is left for the end of the bundle. -/
def csrwEffect (op : CsrOp) (n rsv : Nat) (v : Word) (x : Ctx) : M Unit := do
  needLegal (op == .clr || Nat.land v.toNat rsv == 0)
  need (n != 0x020 || x.priv) 0x02 0x020
  needLegal (n != 0x000 || decide (bitsAt (csrApply op x.mode v).toNat 0 3 < 5))
  act (.csr n op v)

theorem csrw_effect (op : CsrOp) (hr : csrReserved num.toNat = some rsv) (hn : num.toNat ≠ 0x022) (hv : Reads (readK src) s v) :
    exec (.csrw op src num) s = runSlot (csrwEffect op num.toNat rsv v (issuer s)) s := by
  refine runSlot_congr ?_
  dsimp only
  rw [hr]
  dsimp only
  rw [run_bind_of (gives_needWord (by simp [hn]) s), run_bind_of hv, run_bind_of (gives_curCtx s), if_neg hn]
  rfl

theorem csrw_tlbinv (hv : Reads (readK src) s v) : exec (.csrw .write src 0x022) s = runSlot (submitInval v) s := by
  refine runSlot_congr ?_
  exact (run_bind_of (gives_needWord rfl s)).trans ((run_bind_of hv).trans (run_bind_of (gives_curCtx s)))

end

section
variable {s : State} {op : CsrOp} {n rsv : Nat} {v : Word}

theorem csrwEffect_reserved (ho : op ≠ .clr) (hb : Nat.land v.toNat rsv ≠ 0) :
    runSlot (csrwEffect op n rsv v (issuer s)) s = .next (stopped s (.trap false 0x01 (BitVec.ofNat 64 s.issue.word))) :=
  runSlot_trap (traps_bind_left (traps_needLegal
    (Bool.or_eq_false_iff.mpr ⟨beq_eq_false_iff_ne.mpr ho, beq_eq_false_iff_ne.mpr hb⟩) s))

variable (hb : op = .clr ∨ Nat.land v.toNat rsv = 0)
include hb

theorem gives_unreserved : Gives (needLegal (op == .clr || Nat.land v.toNat rsv == 0)) s () s :=
  gives_needLegal (Bool.or_eq_true_iff.mpr (hb.imp beq_iff_eq.mpr beq_iff_eq.mpr)) s

theorem csrwEffect_unprivileged (hn : n = 0x020) (hp : (issuer s).priv = false) :
    runSlot (csrwEffect op n rsv v (issuer s)) s = .next (stopped s (.trap false 0x02 0x020)) :=
  runSlot_trap (traps_bind_right (gives_unreserved hb) (traps_bind_left (traps_need (by rw [hn, hp]; rfl) _ _ s)))

theorem csrwEffect_badMode (hn : n = 0x000) (hm : 5 ≤ (csrApply op (issuer s).mode v).toNat % 8) :
    runSlot (csrwEffect op n rsv v (issuer s)) s = .next (stopped s (.trap false 0x01 (BitVec.ofNat 64 s.issue.word))) := by
  subst hn
  have bad : decide (bitsAt (csrApply op (issuer s).mode v).toNat 0 3 < 5) = false :=
    decide_eq_false (by rw [bitsAt, Nat.pow_zero, Nat.div_one]; exact Nat.not_lt.mpr hm)
  exact runSlot_trap (traps_bind_right (gives_unreserved hb) (traps_bind_right (gives_need rfl _ _ s)
    (traps_bind_left (traps_needLegal (by rw [bad]; rfl) s))))

theorem csrwEffect_writes (hp : n = 0x020 → (issuer s).priv = true)
    (hm : n = 0x000 → (csrApply op (issuer s).mode v).toNat % 8 < 5) :
    runSlot (csrwEffect op n rsv v (issuer s)) s = .next (scheduled s (.csr n op v)) := by
  have priv : (n != 0x020 || (issuer s).priv) = true := by
    by_cases h : n = 0x020
    · rw [hp h, Bool.or_true]
    · rw [bne_iff_ne.mpr h, Bool.true_or]
  have mode : (n != 0x000 || decide (bitsAt (csrApply op (issuer s).mode v).toNat 0 3 < 5)) = true := by
    by_cases h : n = 0x000
    · rw [bitsAt, Nat.pow_zero, Nat.div_one, decide_eq_true (p := _ % 2 ^ 3 < 5) (hm h), Bool.or_true]
    · rw [bne_iff_ne.mpr h, Bool.true_or]
  exact runSlot_ok (gives_bind (gives_unreserved hb) (gives_bind (gives_need priv _ _ s)
    (gives_bind (gives_needLegal mode s) (gives_act _ s))))
end

/-! ### Invalidations -/

/-- The invalidation that a record asks for, as the issuing context submits it (R307, R308). -/
def submitted (s t : State) (r : InvalRec) : Inval :=
  { op := r.op
    scope := r.scope
    asid := r.asid
    va := r.va
    len := r.len
    ctrVa := r.ctr
    ctx := s.issue.ctx
    tid := (issuer s).tid
    seq := t.issue.order
    region := (issuer s).region
    interval := (issuer s).interval }

/-- The state in which a submission has reached the die of its context. -/
def withSubmitted (s t u : State) (r : InvalRec) : State :=
  u.updDie (dieOf s.issue.ctx) (fun d => { d with invals := d.invals ++ [submitted s t r] })

/-- What becomes of a record that context `s.issue.ctx` has read: its values, its address space and its counter are checked in this
order. -/
def submitRecord (s : State) (bs : List Byte) : M Unit :=
  match parseInval bs with
  | none => illegal
  | some r => do
    need (r.op != 3 && r.asid == (issuer s).region.space.asid) 0x02 0x022
    let t ← get
    let (_, u) ← liftTrap (translateCounter t (t.view s.issue.ctx) r.ctr .counterAdd)
    set u
    modify (fun w => withSubmitted s u w r)

section
variable {s t u : State} {v : Word} {bs : List Byte} {r : InvalRec}

theorem submitInval_unprivileged (hp : (issuer s).priv = false) : Traps (submitInval v) s 0x02 0x022 :=
  traps_bind_right (gives_get s) (traps_bind_left (traps_need hp _ _ s))

section
variable (hp : (issuer s).priv = true) (hl : (s.die (dieOf s.issue.ctx)).invals.length < 16)
include hp hl

/-- A privileged submission with room at its die goes on to the record's address. -/
theorem submitInval_run : (submitInval v).run s = (do
    need (v.toNat % 32 == 0) 0x03 v
    flushOwn
    let bs ← loadStrict false 32 v.toNat 32
    submitRecord s bs).run s := by
  unfold submitInval
  rw [run_bind_of (gives_get s), run_bind_of (gives_need hp _ _ s), if_neg (Nat.not_le.mpr hl)]
  rfl

theorem submitInval_misaligned (ha : v.toNat % 32 ≠ 0) : Traps (submitInval v) s 0x03 v := by
  unfold Traps
  rw [submitInval_run hp hl]
  exact traps_bind_left (traps_need (beq_eq_false_iff_ne.mpr ha) _ _ s)

variable (ha : v.toNat % 32 = 0) (hn : nonePosted s) (hg : Gives (loadStrict false 32 v.toNat 32) s bs t)
include ha hn hg

theorem submitInval_record : (submitInval v).run s = (submitRecord s bs).run t := by
  rw [submitInval_run hp hl, run_bind_of (gives_need (beq_iff_eq.mpr ha) _ _ s), run_bind_of (gives_flushOwn hn), run_bind_of hg]
end

variable (hr : parseInval bs = some r)
include hr

theorem submitRecord_foreign (h : r.op = 3 ∨ r.asid ≠ (issuer s).region.space.asid) : Traps (submitRecord s bs) t 0x02 0x022 := by
  have bad : (r.op != 3 && r.asid == (issuer s).region.space.asid) = false :=
    Bool.and_eq_false_iff.mpr (h.imp (fun e => by rw [e]; rfl) beq_eq_false_iff_ne.mpr)
  unfold submitRecord
  rw [hr]
  exact traps_bind_left (traps_need bad _ _ t)

/-- Translation leaves the record of the bundle alone, so the order of the submission is that of its slot. -/
theorem gives_submitRecord (ho : r.op ≠ 3) (hs : r.asid = (issuer s).region.space.asid) {pa : Nat}
    (hc : translateCounter t (t.view s.issue.ctx) r.ctr .counterAdd = .ok (pa, u)) :
    Gives (submitRecord s bs) t () (withSubmitted s t u r) := by
  have good : (r.op != 3 && r.asid == (issuer s).region.space.asid) = true :=
    Bool.and_eq_true_iff.mpr ⟨bne_iff_ne.mpr ho, beq_iff_eq.mpr hs⟩
  have order : submitted s u r = submitted s t r := by
    rw [submitted, submitted, (translateCounter_keepsCtxs hc).2]
  unfold submitRecord
  rw [hr]
  refine gives_bind (gives_need good _ _ t) (gives_bind (gives_get t) ?_)
  rw [hc]
  refine gives_bind (gives_pure _ t) (gives_bind (gives_set u t) ?_)
  rw [withSubmitted, ← order]
  exact gives_modify _ u
end

/-- Settles O42: CSRR and CSRW by their checks in order, and a CSRW to sys.tlbinv by those of its submission. -/
theorem systemRegisters : Obligations.SystemRegisters := by
  unfold Obligations.SystemRegisters
  refine ⟨⟨fun dst num s => ⟨csrr_assigned dst, fun h => ⟨csrr_unassigned dst h, fun op => csrw_unassigned op dst h⟩⟩,
    fun op src num s v rsv hv hr hn => ?_⟩, fun src s v hv => ?_⟩
  · rw [csrw_effect op hr hn hv]
    exact ⟨fun hb => ⟨csrwEffect_unprivileged hb, csrwEffect_badMode hb, csrwEffect_writes hb⟩, csrwEffect_reserved⟩
  · rw [csrw_tlbinv hv]
    refine ⟨fun hp => runSlot_trap (submitInval_unprivileged hp), fun hp hl =>
      ⟨fun ha => runSlot_trap (submitInval_misaligned hp hl ha), fun ha hn bs t r hg hr =>
        ⟨fun h => ?_, fun ho hs pa u hc => ?_⟩⟩⟩
    · exact runSlot_trap ((submitInval_record hp hl ha hn hg).trans (submitRecord_foreign hr h))
    · exact runSlot_ok ((submitInval_record hp hl ha hn hg).trans (gives_submitRecord hr ho hs hc))

/-! ### What a CSRW changes -/

/-- Settles O43: each register's own case of the write. -/
theorem systemRegisterWrites : Obligations.SystemRegisterWrites := by
  unfold Obligations.SystemRegisterWrites
  intro s c op v
  refine ⟨rfl, rfl, rfl, rfl, rfl, fun n hn => ?_, fun n hn => ?_, fun n hn => ?_⟩
  · fin_cases hn <;> rfl
  · subst hn
    simp only [csrWrite, Bool.and_eq_true, decide_eq_true_eq, and_assoc]
  · subst hn
    simp only [csrWrite, Bool.and_eq_true, decide_eq_true_eq]

end Sys2Proof.Proofs

/-! SUPPORT. The steps of a core that no bundle makes (R92, R93, R96, R136, R193, R205, R256, R259, R260, R268, R286, R309): the order
of the ranks, and the step of each event where its condition holds. -/

namespace Sys2Proof.Proofs

open Sys2Proof Machine

/-! ### The order of the ranks (R96) -/

theorem lexLt_trans {a b c : List Nat} (h : lexLt a b = true) (k : lexLt b c = true) : lexLt a c = true := by
  induction a generalizing b c with
  | nil => cases b <;> cases h
  | cons x a ih =>
    match b, c with
    | [], _ => cases h
    | _ :: _, [] => cases k
    | y :: b, z :: c =>
      simp only [lexLt] at h k ⊢
      split at h
      · next hxy =>
        subst hxy
        split at k
        · next hyz =>
          rw [if_pos hyz]
          exact ih h k
        · next hyz =>
          rw [if_neg hyz]
          exact k
      · next hxy =>
        have hxy := of_decide_eq_true h
        split at k
        · next hyz =>
          subst hyz
          rw [if_neg (by omega)]
          exact h
        · have hyz := of_decide_eq_true k
          rw [if_neg (by omega)]
          exact decide_eq_true (hxy.trans hyz)

/-- Lists of one length that neither precedes are equal. -/
theorem eq_of_not_lexLt {a b : List Nat} (hl : a.length = b.length) (h : lexLt a b = false) (k : lexLt b a = false) : a = b := by
  induction a generalizing b with
  | nil => exact (List.length_eq_zero_iff.mp hl.symm).symm
  | cons x a ih =>
    match b with
    | [] => cases hl
    | y :: b =>
      simp only [lexLt] at h k
      by_cases hxy : x = y
      · subst hxy
        rw [if_pos rfl] at h k
        rw [ih (Nat.succ.inj hl) h k]
      · rw [if_neg hxy] at h
        rw [if_neg (Ne.symm hxy)] at k
        have := of_decide_eq_false h
        have := of_decide_eq_false k
        omega

theorem rank_length (s : State) (c : Nat) : (rank s c).length = 6 := rfl

/-- A rank ends with the number of its context. -/
theorem rank_injective {s : State} {c d : Nat} (h : rank s c = rank s d) : c = d := by
  simp only [rank, List.cons.injEq] at h
  obtain ⟨-, -, -, -, -, h, -⟩ := h
  exact h

theorem lexLt_rank_of_not {s : State} {c d : Nat} (hne : c ≠ d) (h : ¬ lexLt (rank s c) (rank s d) = true) :
    lexLt (rank s d) (rank s c) = true := by
  by_contra k
  exact hne (rank_injective (eq_of_not_lexLt rfl (eq_false_of_ne_true h) (eq_false_of_ne_true k)))

theorem mem_insertRank {s : State} {c d : Nat} {l : List Nat} : d ∈ insertRank s c l ↔ d = c ∨ d ∈ l := by
  induction l with
  | nil => simp [insertRank]
  | cons e l ih =>
    rw [insertRank]
    split
    · simp
    · simp only [List.mem_cons, ih]
      tauto

/-- Contexts in the order of their ranks. -/
abbrev ByRank (s : State) (l : List Nat) : Prop := l.Pairwise (fun c d => lexLt (rank s c) (rank s d) = true)

theorem byRank_insertRank {s : State} {c : Nat} {l : List Nat} (hl : ByRank s l) (hc : c ∉ l) : ByRank s (insertRank s c l) := by
  induction l with
  | nil => exact List.pairwise_singleton _ c
  | cons d l ih =>
    obtain ⟨hd, htl⟩ := List.pairwise_cons.mp hl
    obtain ⟨hne, hcl⟩ := not_or.mp (mt List.mem_cons.mpr hc)
    rw [insertRank]
    split
    · next hlt =>
      refine List.pairwise_cons.mpr ⟨fun e he => ?_, hl⟩
      rcases List.mem_cons.mp he with rfl | he
      · exact hlt
      · exact lexLt_trans hlt (hd e he)
    · next hlt =>
      refine List.pairwise_cons.mpr ⟨fun e he => ?_, ih htl hcl⟩
      rcases mem_insertRank.mp he with rfl | he
      · exact lexLt_rank_of_not hne hlt
      · exact hd e he

/-- Inserting contexts one by one lists all of them, by rank. -/
theorem insertAll {s : State} (l : List Nat) {acc : List Nat} (hn : l.Nodup) (ha : ∀ c ∈ l, c ∉ acc) (hr : ByRank s acc) :
    (∀ c, c ∈ l.foldl (fun l c => insertRank s c l) acc ↔ c ∈ l ∨ c ∈ acc) ∧ ByRank s (l.foldl (fun l c => insertRank s c l) acc) := by
  induction l generalizing acc with
  | nil => exact ⟨fun c => by simp, hr⟩
  | cons d l ih =>
    obtain ⟨hd, hn⟩ := List.nodup_cons.mp hn
    have fresh : ∀ c ∈ l, c ∉ insertRank s d acc := by
      intro c hc hi
      rcases mem_insertRank.mp hi with rfl | hi
      · exact hd hc
      · exact ha c (List.mem_cons_of_mem _ hc) hi
    obtain ⟨hm, hp⟩ := ih hn fresh (byRank_insertRank hr (ha d List.mem_cons_self))
    refine ⟨fun c => ?_, hp⟩
    rw [List.foldl_cons, hm, mem_insertRank, List.mem_cons]
    tauto

theorem ctxsOf_nodup (k : Nat) : (ctxsOf k).Nodup := by
  simp [ctxsOf]

/-- The contexts that may issue, all of them and by rank. -/
theorem ranked_spec (s : State) (k : Nat) :
    (∀ c, c ∈ ranked s k ↔ c ∈ ctxsOf k ∧ inRunning s c = true) ∧ ByRank s (ranked s k) := by
  obtain ⟨hm, hp⟩ := insertAll (s := s) ((ctxsOf k).filter (inRunning s))
    (acc := []) ((ctxsOf_nodup k).filter _) (by simp) List.Pairwise.nil
  refine ⟨fun c => ?_, hp⟩
  rw [ranked, hm, List.mem_filter]
  simp

/-! ### Steps of one context -/

theorem next_updCtx {s : State} {c : Nat} {f g : Ctx → Ctx} (h : ∀ x, f x = g x) :
    (.next (s.updCtx c f) : Host.Outcome State Fault Refusal) = .next (s.updCtx c g) := by
  rw [funext h]

section
variable {s : State} {c : Nat}

theorem exec_contextPromotion (c : Nat) (s : State) : exec (.contextPromotion c) s = .next (s.updCtx c (fun x =>
    if threshold s (coreOf c) ≤ x.waitCount ∧ x.run = .ready then { x with promoted := true } else x)) :=
  next_updCtx (fun x => if_congr (by rw [Bool.and_eq_true, decide_eq_true_iff, beq_iff_eq]) rfl rfl)

theorem exec_yieldExpiry (c : Nat) (s : State) : exec (.yieldExpiry c) s = .next (s.updCtx c (fun x =>
    if ∃ t ∈ x.yielded, t + threshold s (coreOf c) ≤ s.clock then { x with yielded := none } else x)) := by
  refine next_updCtx (fun x => ?_)
  cases hy : x.yielded with
  | none => rw [if_neg nofun]
  | some t => exact if_congr (by simp) rfl rfl

theorem exec_stallExpiry (c : Nat) (s : State) : exec (.stallExpiry c) s = .next (s.updCtx c (fun x =>
    if x.run = .ready ∧ x.stall ≠ 0 then { x.countDown ((x.seq + 1) * 8) with stall := x.stall - 1 } else x)) :=
  next_updCtx (fun x => if_congr (by rw [Bool.and_eq_true, beq_iff_eq, bne_iff_ne]) rfl rfl)

theorem exec_outsideTrap {t : TrapRec} {rest : List TrapRec} (ho : (s.ctx c).outside = t :: rest)
    (hr : (s.ctx c).run = .ready ∨ (s.ctx c).run = .blocked) : exec (.outsideTrap c) s =
      .next (takeTrap (s.updCtx c (fun x => { x with outside := rest })) c t.cause t.tval (s.ctx c).pc) := by
  have live : ((s.ctx c).run == .ready || (s.ctx c).run == .blocked) = true :=
    Bool.or_eq_true_iff.mpr (hr.imp beq_iff_eq.mpr beq_iff_eq.mpr)
  change execOutsideTrap c s = _
  unfold execOutsideTrap
  dsimp only
  rw [ho]
  dsimp only
  rw [if_pos live]

theorem exec_cwaitTimeout (hr : (s.ctx c).run = .blocked) (hw : (s.ctx c).wait = some .counter) (hs : 0 < (s.ctx c).waitStart)
    (hl : (s.ctx c).waitStart - 1 + (s.ctx c).waitLimit ≤ s.clock) :
    exec (.cwaitTimeout c) s = .next ((wake s c).updCtx c (fun x => { x with timedOut := true })) := by
  change execCwaitTimeout c s = _
  unfold execCwaitTimeout
  exact if_neg (by simp [hr, hw, hs.ne', Nat.not_lt.mpr hl])

section
variable (hw : (s.ctx c).wait = some .drain)
include hw

theorem exec_drainSweep_bad (hb : (s.counterBad (s.ctx c).drainPa).isSome = true) : exec (.drainSweep c) s = .next (wake s c) := by
  change execDrainSweep c s = _
  unfold execDrainSweep
  dsimp only
  rw [if_neg (by simp [hw]), if_pos hb]

theorem exec_drainSweep (hb : s.counterBad (s.ctx c).drainPa = none) (ht : (s.ctx c).drainTgt ≤ s.counter (s.ctx c).drainPa)
    {sums : List (Nat × Nat)}
    (hs : sums = drainSums s c (s.ctx c).drainScope (s.ctx c).region.space.asid :: (s.ctx c).drainSums.take 1) {t : State}
    (hu : t = s.updCtx c (fun x => { x with drainSums := sums })) :
    exec (.drainSweep c) s = .next (if sweepsAgree sums then wake t c else t) := by
  subst hu hs
  change execDrainSweep c s = _
  unfold execDrainSweep
  dsimp only
  rw [if_neg (by simp [hw]), if_neg (by simp [hb]), if_neg (Nat.not_lt.mpr ht)]
end

/-- A channel may fetch for a context that is live and not frozen, once its earlier stores are performed and requests are free. -/
theorem exec_latheFetch {q : Nat} {t : State} {ps : List Span} {bs : List Byte} {h : Head} (hd : (s.ctx c).run ≠ .dormant)
    (hf : (s.ctx c).run ≠ .frozen) (hh : h = Map.get {} (s.ctx c).heads q)
    (hq : requestsHeld s (coreOf c) + ((pointAddr h h.next).toNat % 64 + 319) / 64 ≤ 512) (hc : h.canFetch = true)
    (hp : ∀ p ∈ (s.ctx c).posted, h.start ≤ p.seq)
    (ht : translateRange s (s.view c) (pointAddr h h.next).toNat 256 .read = .ok (ps, t)) (hb : badSpan t ps = none)
    (hr : (readSpans t ps).1 = bs) : exec (.latheFetch c q) s = .next ((readSpans t ps).2.updCtx c (fun x =>
      { x with heads := Map.set {} x.heads q (h.deliver (.ok (BitVec.ofNat 2048 (leNat bs)))) })) := by
  have early : (s.ctx c).posted.any (fun p => p.seq < h.start) = false := by
    simpa using hp
  subst hr
  change execLatheFetch c q s = _
  unfold execLatheFetch
  dsimp only
  rw [← hh, if_neg (by simp [hd, hf, hc, early, Nat.not_lt.mpr hq]), ht]
  dsimp only
  rw [hb]

end

/-! ### Counters' waiters -/

theorem exec_waitSatisfied (k ctr : Nat) (s : State) : exec (.waitSatisfied k ctr) s =
    .next (((s.core k).monitor.filter (fun e => decide (e.pa = ctr) && entryRipe s e)).foldl (fun s e => releaseEntry s k e)
      (s.updCore k (fun x => { x with monitor := x.monitor.map (fun e => if e.pa = ctr then e.noted s else e) }))) := by
  change execWaitSatisfied k ctr s = _
  unfold execWaitSatisfied
  simp only [beq_eq_decide, decide_eq_true_eq]

/-! ### Posted accesses -/

section
variable {s t : State} {c : Nat} {p : Posted}

theorem nextPosted_eq (h : match s.loose.find? (fun l => l.ctx == c) with
    | some l => l.posted = p
    | none => (s.ctx c).posted.head? = some p) : nextPosted s c = some p := by
  unfold nextPosted
  cases hl : s.loose.find? (fun l => l.ctx == c) with
  | none =>
    rw [hl] at h
    exact h
  | some l =>
    rw [hl] at h
    exact congrArg some h

theorem isAtom_iff : p.isAtom = true ↔ ∃ op ty va pa x y ret, p.kind = .atom op ty va pa x y ret := by
  unfold Posted.isAtom
  split
  · next h => exact ⟨fun _ => ⟨_, _, _, _, _, _, _, h⟩, fun _ => rfl⟩
  · next h => exact ⟨nofun, fun ⟨op, ty, va, pa, x, y, ret, e⟩ => absurd e (h op ty va pa x y ret)⟩

variable (ht : performOne s c = some t) (hp : nextPosted s c = some p)
include ht hp

theorem exec_atomPerform (h : p.isAtom = true) : exec (.atomPerform c) s = .next t := by
  change execAtomPerform c s = _
  unfold execAtomPerform
  rw [hp, ht]
  exact congrArg Host.Outcome.next (if_pos h)

theorem exec_accessPerformed (h : p.isAtom = false) : exec (.accessPerformed c) s = .next t := by
  change execAccessPerformed c s = _
  unfold execAccessPerformed
  rw [hp, ht]
  exact congrArg Host.Outcome.next (if_pos (show (!p.isAtom) = true by rw [h]; rfl))
end

/-! ### Messages -/

theorem exec_messageArrival {s : State} {core n : Nat} {m : Msg} (hm : (s.core core).transit[n]? = some m)
    (hr : msgReady s core m = true) : exec (.messageArrival core n) s = .next (deliverMsg s core m) := by
  change execMessageArrival core n s = _
  unfold execMessageArrival
  dsimp only
  rw [hm]
  exact if_pos hr

theorem exec_messageHandlerStart {s : State} {c : Nat} {m : Msg} (hv : ctxValid c = true) (hd : (s.ctx c).run = .dormant)
    (hm : nextStart (s.core (coreOf c)) = some m) (hs : canStart s (coreOf c) 64 0 m.region = true) :
    exec (.messageHandlerStart c) s = .next { (s.updCtx c (fun o =>
      { handlerCtx o s.nextId m.region (.message m.slot) false m.handler [BitVec.ofNat 64 (apertureBase + 0xFF000 + 256 * m.slot),
          BitVec.ofNat 64 m.sender, BitVec.ofNat 64 m.payload.length] with
        acq := [⟨BitVec.ofNat 16 m.sender, m.interval, 3⟩] })).updCore (coreOf c) (fun x =>
          { x with starts := x.starts.filter (fun b => b.order != m.order) }) with nextId := s.nextId + 1 } := by
  change execMessageHandlerStart c s = _
  unfold execMessageHandlerStart
  dsimp only
  rw [if_neg (by simp [hv, hd]), hm]
  dsimp only
  rw [hs]
  rfl

/-! ### Translations and their invalidation -/

theorem exec_pageWalk {s t : State} {c : Nat} {va : Word} {write : Bool} {e : TlbEntry} (hv : ctxValid c = true)
    (hd : (s.ctx c).run ≠ .dormant) (ha : va.toNat < apertureBase) (hw : walkInstall s (s.view c) va.toNat = some (e, t)) :
    exec (.pageWalk c va write) s =
      .next (if write = true ∧ leafCheck t (s.view c) e va.toNat .write = none then markDirty t (s.view c) e else t) := by
  change execPageWalk c va write s = _
  unfold execPageWalk
  dsimp only
  rw [if_neg (by simp [hv, hd, ha]), hw]
  exact congrArg Host.Outcome.next (if_congr (by rw [Bool.and_eq_true, Option.isNone_iff_eq_none]) rfl rfl)

theorem exec_sysTlbinv {s t u : State} {die : Nat} {rec_ : Word} {bs : List Byte} {r : InvalRec} {pa : Nat}
    (h3 : stage3Done s = true) (hd : die < 8) (hl : (s.die die).invals.length < 16)
    (hr : readVia s (packageView s.mgmtSpace) (rec_.toNat / 32 * 32) 32 = .ok (bs, t)) (hp : parseInval bs = some r)
    (hc : translateCounter t (packageView s.mgmtSpace) r.ctr .counterAdd = .ok (pa, u)) :
    exec (.sysTlbinv die rec_) s = .next (u.updDie die (fun d => { d with invals := d.invals ++ [
      { op := r.op
        scope := r.scope
        asid := r.asid
        va := r.va
        len := r.len
        ctrVa := r.ctr
        ctx := 0
        tid := 0
        seq := 0
        region := { space := u.mgmtSpace }
        interval := 0 }] })) := by
  change execSysTlbinv die rec_ s = _
  unfold execSysTlbinv
  dsimp only
  rw [if_neg (by simp [h3, hd, hl]), hr]
  dsimp only
  rw [hp]
  dsimp only
  rw [hc]

theorem exec_invalidationComplete_eq (die n : Nat) (s : State) :
    exec (.invalidationComplete die n) s = execInvalidationComplete die n s := rfl

section
variable {s t u w : State} {die n : Nat} {e : Inval} {rel : BitVec 16 × BitVec 16} (he : (s.die die).invals[n]? = some e)
include he

/-- What a pending invalidation waits for (R309). -/
abbrev invalWaits (s : State) (die : Nat) (e : Inval) : Prop :=
  invalBusy s die e = true ∨ e.tid ≠ 0 ∧ releasableAs s e.ctx e.tid e.seq = false

theorem exec_invalidationComplete_waits (h : invalWaits s die e) : exec (.invalidationComplete die n) s = .next s := by
  change execInvalidationComplete die n s = _
  unfold execInvalidationComplete
  rw [he]
  exact if_pos (by simpa using h)

/-- Once nothing holds it up, an invalidation drops its translations and makes its add. -/
theorem exec_invalidationComplete (h : ¬ invalWaits s die e)
    (ht : t = recheckWaits (dropTranslations (s.updDie die (fun d => { d with invals := d.invals.eraseIdx n })) die e) die e)
    (hr : (if e.tid = 0 then ((0, 0), t) else releaseFor t e.ctx e.tid e.interval) = (rel, u)) :
    exec (.invalidationComplete die n) s = .next (packageAddIn u
      (if e.tid = 0 then packageView e.region.space else engineView e.region.space e.ctx) e.region e.ctrVa 1 none (some rel)) := by
  rw [exec_invalidationComplete_eq]
  unfold execInvalidationComplete
  rw [he]
  dsimp only
  rw [if_neg (by simpa using h), ← ht, hr]
end

theorem packageAddIn_ok {s w : State} {v : View} {r : Region} {va : Word} {n : Nat} {err : Option (BitVec 8)}
    {rel : Option (BitVec 16 × BitVec 16)} (h : addVia s v s.pkgWriter va n err rel = .ok w) : packageAddIn s v r va n err rel = w := by
  rw [packageAddIn, h]

theorem packageAddIn_error {s : State} {v : View} {r : Region} {va : Word} {n : Nat} {err : Option (BitVec 8)}
    {rel : Option (BitVec 16 × BitVec 16)} {cause : BitVec 8} {tval : Word}
    (h : addVia s v s.pkgWriter va n err rel = .error (cause, tval)) : packageAddIn s v r va n err rel =
      faultRecord (confirmWalk (countIfBad s cause) v cause tval.toNat) r 2 cause 0 0 tval := by
  rw [packageAddIn, h]

/-! ### Watch hits -/

theorem exec_watchpointReport {s : State} {n : Nat} {h : WatchHit} (hh : s.watchHits[n]? = some h) {t : State}
    (ht : t = { s with watchHits := s.watchHits.eraseIdx n }) : exec (.watchpointReport n) s =
      .next (if h.shut then fireShutter t .watch 0 (some (BitVec.ofNat 16 h.owner))
        else t.updCtx h.owner (fun x => { x with outside := x.outside ++ [⟨0x10, h.tval⟩] })) := by
  subst ht
  change execWatchpointReport n s = _
  unfold execWatchpointReport
  rw [hh]
  dsimp only
  split <;> rfl

/-- Settles O55: each event by the lemma about its step. -/
theorem coreEvents : Obligations.CoreEvents := by
  unfold Obligations.CoreEvents
  refine ⟨fun k s => ⟨rfl, ranked_spec s k⟩, fun c s => ⟨exec_contextPromotion c s, exec_yieldExpiry c s, exec_stallExpiry c s, rfl,
      fun _ => rfl, fun _ => rfl⟩,
    fun c s t rest ho hr => exec_outsideTrap ho hr, fun k ctr s => ⟨exec_waitSatisfied k ctr s, rfl⟩,
    fun c s hr hw hs hl => exec_cwaitTimeout hr hw hs hl,
    fun c s hw => ⟨exec_drainSweep_bad hw, fun hb ht sums hs t hu => exec_drainSweep hw hb ht hs hu⟩,
    fun c q s t ps bs h hd hf hh hq hc hp ht hb hr => exec_latheFetch hd hf hh hq hc hp ht hb hr,
    fun c s t p ht hp => ⟨fun h => ?_, fun h => ?_⟩,
    fun core n s m hm hr => exec_messageArrival hm hr, fun c s m hv hd hm hs => exec_messageHandlerStart hv hd hm hs,
    fun c va write s t e hv hd ha hw => exec_pageWalk hv hd ha hw,
    fun die rec_ s t u bs r pa h3 hd hl hr hp hc => exec_sysTlbinv h3 hd hl hr hp hc,
    fun die n s t u e rel he => ⟨exec_invalidationComplete_waits he, fun hn ht hr => ⟨fun w hw => ?_, fun cause tval hw => ?_⟩⟩,
    fun n s h hh => exec_watchpointReport hh rfl⟩
  · exact exec_atomPerform ht (nextPosted_eq hp) (isAtom_iff.mpr h)
  · refine exec_accessPerformed ht (nextPosted_eq hp) (eq_false_of_ne_true fun ha => ?_)
    obtain ⟨op, ty, va, pa, x, y, ret, e⟩ := isAtom_iff.mp ha
    exact h op ty va pa x y ret e
  · rw [exec_invalidationComplete he hn ht hr, packageAddIn_ok hw]
  · rw [exec_invalidationComplete he hn ht hr, packageAddIn_error hw]

end Sys2Proof.Proofs

/-! SUPPORT. The steps of the package scheduler and of the cores' deques (R107, R135, R145, R236, R264, R266, R290, R291, R360, R361,
R363, R365): the step of each event where its condition holds. -/

namespace Sys2Proof.Proofs

open Sys2Proof Machine

/-! ### Maps -/

/-- Two changes of a map that give one value at their key are one change. -/
theorem upd_congr {α : Type} [DecidableEq α] {d : α} {m : Map α} {k : Nat} {f g : α → α}
    (h : f (Map.get d m k) = g (Map.get d m k)) :
    Map.upd d m k f = Map.upd d m k g := by
  rw [Map.upd, h, Map.upd]

/-- A key that reads other than the default is listed. -/
theorem mem_of_get_ne {α : Type} {d : α} {m : Map α} {k : Nat} (h : Map.get d m k ≠ d) : (k, Map.get d m k) ∈ m := by
  induction m with
  | nil => exact absurd rfl h
  | cons p m ih =>
    obtain ⟨j, v⟩ := p
    rw [Map.get] at h ⊢
    split at h
    · next hk =>
      rw [if_pos hk, hk]
      exact List.mem_cons_self
    · next hk =>
      rw [if_neg hk]
      split at h
      · exact absurd rfl h
      · next hlt =>
        rw [if_neg hlt]
        exact List.mem_cons_of_mem _ (ih h)

/-- A context that is not dormant is one of the machine's running contexts. -/
theorem mem_running {s : State} {c : Nat} (h : (s.ctx c).run ≠ .dormant) :
    c ∈ (s.ctxs.filter (fun (_, x) => x.run != .dormant)).map (·.1) := by
  have hm : (c, s.ctx c) ∈ s.ctxs := mem_of_get_ne fun hd => h (congrArg Ctx.run hd)
  exact List.mem_map.mpr ⟨_, List.mem_filter.mpr ⟨hm, bne_iff_ne.mpr h⟩, rfl⟩

/-! ### Saving (R107, R236) -/

section
variable {s t : State} {c : Nat} (hd : (s.ctx c).run ≠ .dormant) (he : (s.ctx c).ended = false) (hs : settled s c = true)
  (hq : queuedWork s c = false)
include hd he hs hq

theorem exec_contextSave_preempt (ha : ∃ t ∈ (s.ctx c).preemptAt, s.clock < t + 32768) (hr : retired s c = true)
    (hf : ¬((s.ctx c).run = .frozen ∧ served s c = true)) (hsave : saveContext s c .preempt false = some t) :
    exec (.contextSave c .preempt) s = .next (startNeeded t (coreOf c)) := by
  change execContextSave c .preempt s = _
  obtain ⟨asked, hasked, hlt⟩ := ha
  unfold execContextSave
  dsimp only
  rw [if_neg (by simp [hd, he, hs, hq]), if_neg (by simp_all), hsave]

theorem exec_contextSave_handler {f : Nat} (hb : (ctxsOf (coreOf c)).find? (handlerBlocked s) = some f) (hv : handlerVictim s f = c)
    (hr : (s.ctx c).run = .frozen ∨ retired s c = true) (hsave : saveContext s c .handler (decide (c = f)) = some t) :
    exec (.contextSave c .handler) s = .next (startNeeded t (coreOf c)) := by
  change execContextSave c .handler s = _
  unfold execContextSave
  dsimp only
  rw [if_neg (by simp [hd, he, hs, hq]), hb]
  dsimp only
  rw [if_neg (by rw [hv]; simpa [or_iff_not_imp_left] using hr), beq_eq_decide, hsave]
end

/-! ### Restoring (R110, R266, R291) -/

section
variable {s : State} {task c : Nat} {v : Saved} (hv : s.savedTask task = some v)
include hv

theorem exec_contextRestore (hl : (savedCrew s v).length = 1) (ht : restoreTurn s v c = true) :
    exec (.contextRestore task c) s = .next (restoreTask s v c) := by
  change execContextRestore task c s = _
  unfold execContextRestore
  rw [hv]
  exact if_neg (by simp [hl, ht])

theorem exec_parkedJoinRestore (hl : (savedCrew s v).length = 1) (hw : v.why = .park) (hr : v.ripe = true)
    (hf : (ctxsOf v.core).find? (restorable s v) = some c) : exec (.parkedJoinRestore task c) s = .next (restoreTask s v c) := by
  change execParkedJoinRestore task c s = _
  unfold execParkedJoinRestore
  rw [hv]
  exact if_neg (by simp [hl, hw, hr, hf])

theorem exec_savedTaskRestore_handler (hn : v.needHandler = true) (hc : ctxValid c = true) (hd : (s.ctx c).run = .dormant)
    (ho : coreOf c ≠ v.core) (hs : canStart s (coreOf c) 64 0 v.region = true) :
    exec (.savedTaskRestore task c) s = .next (startRemoteHandler s v c) := by
  change execSavedTaskRestore task c s = _
  unfold execSavedTaskRestore
  rw [hv]
  dsimp only
  rw [if_pos hn, hs]
  exact if_pos (by simp [hc, hd, ho])

theorem exec_savedTaskRestore {t : State} (hn : v.needHandler = false) (ht : restoreTurn s v c = true)
    (hr : restoreCrew (clusterOf c) ((savedCrew s v).drop 1) (restoreTask s v c) = some t) :
    exec (.savedTaskRestore task c) s = .next t := by
  change execSavedTaskRestore task c s = _
  unfold execSavedTaskRestore
  rw [hv]
  dsimp only
  rw [if_neg (ne_true_of_eq_false hn), if_neg (by simp [ht]), hr]
  rfl
end

theorem restoreTurn_iff {s : State} {v : Saved} {c : Nat} : restoreTurn s v c = true ↔
    schedulable s v c = true ∧ ∀ u ∈ s.saved, v.region.priority < u.region.priority → schedulable s u c = false := by
  simp [restoreTurn]

/-! ### Pre-emption requests (R236, R291, R365) -/

theorem requestCrew_eq (s : State) (c : Nat) : requestCrew s c =
    if (∀ d ∈ crewOf s c, askable s d = true) then (crewOf s c).foldl requestPreempt s else s :=
  if_congr List.all_eq_true rfl rfl

theorem exec_preemptionWithdrawn {s : State} {c asked : Nat} (ha : (s.ctx c).preemptAt = some asked) (ht : asked + 32768 ≤ s.clock) :
    exec (.preemptionWithdrawn c) s = .next ((crewOf s c).foldl withdrawRequest s) := by
  change execPreemptionWithdrawn c s = _
  rw [execPreemptionWithdrawn, ha]
  exact congrArg Host.Outcome.next (if_pos (decide_eq_true ht))

theorem withdrawRequest_of_some {s : State} {c asked : Nat} (ha : (s.ctx c).preemptAt = some asked) : withdrawRequest s c =
    faultRecord (s.free64.2.free64.2.updCtx c (fun x => { x with preemptAt := none, askAgain := s.clock + 32768 })) (s.ctx c).region 5
      (s.free64.1.setWidth 8) c (s.ctx c).pc s.free64.2.free64.1 := by
  unfold withdrawRequest
  dsimp only
  rw [if_neg (by simp [ha])]
  rfl

theorem exec_sharePreemption {s : State} {c : Nat} (hs : starved s c = true) (ha : aboveShare s c = true)
    (hask : ∀ d ∈ crewOf s c, askable s d = true)
    (hlow : ∀ d, aboveShare s d = true → (s.ctx c).region.priority ≤ (s.ctx d).region.priority) :
    exec (.sharePreemption c) s = .next ((crewOf s c).foldl requestPreempt s) := by
  change execSharePreemption c s = _
  have hr : (s.ctx c).run ≠ .dormant := by
    simp only [aboveShare, Bool.and_eq_true, bne_iff_ne] at ha
    exact ha.1.1.1
  have hmem := List.mem_filter.mpr ⟨mem_running hr, ha⟩
  have hall : ((((s.ctxs.filter (fun (_, x) => x.run != .dormant)).map (·.1)).filter (aboveShare s)).all
      (fun d => decide ((s.ctx c).region.priority ≤ (s.ctx d).region.priority))) = true :=
    List.all_eq_true.mpr fun d hd => decide_eq_true (hlow d (List.mem_filter.mp hd).2)
  unfold execSharePreemption
  dsimp only
  rw [List.contains_iff_mem.mpr hmem, hall, hs, requestCrew_eq, if_pos hask]
  rfl

/-! ### The end of a task (R135, R265, R363) -/

section
variable {s : State} {c : Nat} (he : (s.ctx c).ended = true) (hf : (s.ctx c).run ≠ .frozen)
  (hp : ∀ p ∈ (s.ctx c).pending, p.ready = true) (ho : (s.ctx c).posted = []) (hm : matrixWork s c = false)
  (hr : remoteWork s (s.ctx c).tid = false)

/-- What the end of a context's task does, by the kind of the task. -/
def retireTask (s : State) (c : Nat) : State :=
  match (s.ctx c).task with
  | .trapHandler f => faultContext s f 0 ((s.ctx f).cause.setWidth 8)
  | .remoteHandler id => match s.savedTask id with
    | some v => faultSaved s v 0 v.cause
    | none => s
  | .taskSet set _ _ =>
    let (rel, s) := releaseFor s c (s.ctx c).tid (s.ctx c).interval
    retireInSet s set none (some rel)
  | .forked join _ =>
    let (rel, t) := releaseFor s c (s.ctx c).tid (s.ctx c).interval
    if join = 0 then t else packageAdd t (s.ctx c).region join 1 none (some rel)
  | _ => s

include he hf hp ho hm hr in
theorem exec_taskRetire : exec (.taskRetire c) s = .next (becomeDormant (retireTask s c) c) := by
  change execTaskRetire c s = _
  have hp : (s.ctx c).pending.all (·.ready) = true := List.all_eq_true.mpr hp
  unfold execTaskRetire retireTask
  dsimp only
  rw [if_neg (by simp [he, hf, hp, ho, hm, hr])]
  cases (s.ctx c).task with
  | remoteHandler id =>
    dsimp only
    cases s.savedTask id <;> rfl
  | _ => rfl
end

/-! ### The deques (R264) -/

section
variable {s : State} {c : Nat} {t : TaskRec} (hv : ctxValid c = true) (hd : (s.ctx c).run = .dormant)
include hv hd

theorem exec_dequeStart_own {rest : List TaskRec} (hf : dequeFits s (coreOf c) t = true) (hq : (s.core (coreOf c)).deque = t :: rest) :
    exec (.dequeStart c) s = .next (startRecord (s.updCore (coreOf c) (fun x => { x with deque := rest })) c t) := by
  change execDequeStart c s = _
  unfold execDequeStart
  dsimp only
  rw [if_neg (by simp [hv, hd]), hq]
  exact if_pos hf

theorem exec_dequeStart_steal {j : Nat} {before : List TaskRec} (hq : (s.core (coreOf c)).deque = [])
    (hj : (s.core j).deque = before ++ [t])
    (hs : (stealOrder (coreOf c)).find? (fun j => ((s.core j).deque.getLast?).any (dequeFits s (coreOf c))) = some j) :
    exec (.dequeStart c) s = .next (startRecord (s.updCore j (fun x => { x with deque := before })) c t) := by
  change execDequeStart c s = _
  have hu : s.updCore j (fun x => { x with deque := x.deque.dropLast }) = s.updCore j (fun x => { x with deque := before }) :=
    congrArg (fun m => { s with cores := m }) (upd_congr (by
      change { s.core j with deque := (s.core j).deque.dropLast } = { s.core j with deque := before }
      rw [hj, List.dropLast_concat]))
  unfold execDequeStart
  dsimp only
  rw [if_neg (by simp [hv, hd]), hq]
  dsimp only
  generalize hg : List.find? _ (stealOrder (coreOf c)) = g
  obtain rfl : g = some j := by
    rw [← hg, ← hs]
    congr 1
    funext j
    cases (s.core j).deque.getLast? <;> rfl
  dsimp only
  rw [hj, List.getLast?_concat, ← hu]
end

/-! ### Packets and their tasks (R290, R360, R361, R363) -/

theorem exec_packetRead {s : State} {region : Nat} {x y : RingState} (hx : s.rings[region]? = some x) (hy : nextRing s = some y)
    (hb : s.bootStage = 4) (hr : x.region.rcb = y.region.rcb) : exec (.packetRead region) s = .next (readPacket s y) := by
  change execPacketRead region s = _
  unfold execPacketRead
  rw [hx, hy]
  exact if_pos (by simp [hb, hr])

theorem exec_nodeEligible {s : State} {n : Nat} {d : PendNode} (hd : s.nodes[n]? = some d) (hm : dependenceMet s d.region d.pkt = true) :
    exec (.nodeEligible n) s = .next (launchNode { s with nodes := s.nodes.eraseIdx n } d.region d.pkt d.index) := by
  change execNodeEligible n s = _
  unfold execNodeEligible
  rw [hd]
  exact if_pos hm

theorem exec_taskPlacement {s : State} {set c : Nat} {t : TaskSet} (ht : s.sets.find? (fun t => t.id == set) = some t)
    (hc : t.pkt.crew = 1) (hn : t.next < t.pkt.tasks) (hf : startFits s c (setStart s t t.next t.next 0 0) = true) :
    exec (.taskPlacement set c) s = .next (launchFill (advanceSet s set 1) c (setStart s t t.next t.next 0 0)) := by
  change execTaskPlacement set c s = _
  unfold execTaskPlacement
  rw [ht]
  dsimp only
  rw [hf]
  exact if_neg (by simp [hc, hn])

theorem exec_crewPlacement {s u : State} {set cl window n : Nat} {ctxs : List Nat} {t : TaskSet}
    (ht : s.sets.find? (fun t => t.id == set) = some t) (hc : 2 ≤ t.pkt.crew) (hn : n = min t.pkt.crew (t.pkt.tasks - t.next))
    (hpos : 0 < n) (hl : ctxs.length = n) (hin : ∀ c ∈ ctxs, clusterOf c = cl)
    (hw : windowFree s cl window (t.pkt.window * 65536) = true)
    (hb : bytesInBudget s (governing s t.region) true (t.pkt.window * 65536) = true)
    (hu : startCrew t (t.next / t.pkt.crew) t.next (BitVec.ofNat 64 (vaultPa cl window)) 0 ctxs
      ((advanceSet s set n).updCluster cl (fun x => { x with windows := x.windows ++ [
        { set := t.id
          crew := t.next / t.pkt.crew
          base := vaultPa cl window
          bytes := t.pkt.window * 65536
          live := n }] })) = some u) : exec (.crewPlacement set cl ctxs window) s = .next u := by
  change execCrewPlacement set cl ctxs window s = _
  unfold execCrewPlacement
  rw [ht]
  dsimp only
  rw [← hn, hw, hb, if_neg, hu]
  · rfl
  · simpa [hl, hpos.ne'] using ⟨hc, hin⟩

/-! ### Resetting a core (R145) -/

theorem exec_coreReset_ordered {s : State} {k : Nat} (hv : coreValid k = true) (hp : (s.core k).present = true) :
    exec (.coreReset k 0) s =
      .next (if coreQuiet s k then resetCore s k 0 else s.updCore k (fun x => { x with stopping := true })) := by
  change execCoreReset k 0 s = _
  unfold execCoreReset
  dsimp only
  rw [if_pos (by simp [hv, hp])]
  exact (apply_ite Host.Outcome.next _ _ _).symm

theorem exec_coreReset_asked {s : State} {k m : Nat} {r : ResetReq} (hr : s.resets[m]? = some r) (hk : r.core = k)
    (hrel : releasableAs s r.ctx r.tid r.seq = true) :
    exec (.coreReset k (m + 1)) s = .next (
      if resetRefused s r then resetAdd (s.updCore k (fun x => { x with stopping := false })) r (some 0x05)
      else if coreQuiet s k then resetAdd (resetCore s k (BitVec.ofNat 64 r.ctx)) r none
      else s.updCore k (fun x => { x with stopping := true })) := by
  change execCoreReset k (m + 1) s = _
  unfold execCoreReset
  dsimp only
  rw [hr]
  dsimp only
  rw [if_neg (by simp [hk, hrel]), apply_ite Host.Outcome.next, apply_ite Host.Outcome.next]

/-- Settles O56: each event by the lemma about its step; an ended task by the kind of the task. -/
theorem schedulerEvents : Obligations.SchedulerEvents := by
  unfold Obligations.SchedulerEvents
  refine ⟨fun c s t hd he hs hq => ⟨exec_contextSave_preempt hd he hs hq,
      fun f hb hv hr h => exec_contextSave_handler hd he hs hq hb hv hr h⟩,
    fun task c s v hv hl => ⟨exec_contextRestore hv hl, exec_parkedJoinRestore hv hl⟩,
    fun c s => congrArg Host.Outcome.next (requestCrew_eq s c),
    fun c asked s ha ht => ⟨exec_preemptionWithdrawn ha ht, withdrawRequest_of_some ha⟩,
    fun c s he hf hp ho hm hr => ?_,
    fun c s t hv hd hf => ⟨fun rest => exec_dequeStart_own hv hd hf, fun j before => exec_dequeStart_steal hv hd⟩,
    fun region s x y => exec_packetRead, fun n s d => exec_nodeEligible,
    fun set s t ht => ⟨fun c => exec_taskPlacement ht, fun cl ctxs window n u => exec_crewPlacement ht⟩,
    fun c s hs ha _ => exec_sharePreemption hs ha,
    fun task c s v hv => ⟨exec_savedTaskRestore_handler hv, fun t hn hs hmax =>
      exec_savedTaskRestore hv hn (restoreTurn_iff.mpr ⟨hs, hmax⟩)⟩,
    fun k s => exec_coreReset_ordered, fun k m s r => exec_coreReset_asked⟩
  rw [exec_taskRetire he hf hp ho hm hr, retireTask]
  refine ⟨fun f ht => ?_, fun id v ht hv => ?_, fun set i crew rel t ht hrel => ?_, fun join f rel t ht hrel => ?_, fun n ht => ?_⟩
  · rw [ht]
  · rw [ht]
    dsimp only
    rw [hv]
  · rw [ht]
    dsimp only
    rw [hrel]
  · rw [ht]
    dsimp only
    rw [hrel]
  · rw [ht]

end Sys2Proof.Proofs

/-! SUPPORT. The integer forms of the S slots (R114, R117 to R121, R127): what their numbers are as bit vectors of the operation's width, and a
block of the stream as a word and as a fraction. -/

namespace Sys2Proof.Proofs

open Sys2Proof Machine Laws

/-! ### Operands at the width of the operation -/

theorem opWidth_pos (w : Bool) : 0 < opWidth w := by cases w <;> decide

theorem opWidth_le (w : Bool) : opWidth w ≤ 64 := by cases w <;> decide

theorem opBits_eq (w : Bool) (v : Word) : opBits w v = (v.setWidth (opWidth w)).toNat := by
  cases w
  · exact (BitVec.toNat_setWidth_of_le le_rfl).symm
  · exact (BitVec.toNat_setWidth 32 v).symm

theorem opNum_eq (w u : Bool) (v : Word) :
    opNum w u v = if u then ((v.setWidth (opWidth w)).toNat : Int) else (v.setWidth (opWidth w)).toInt := by
  have signed : (v.setWidth (opWidth w)).toInt = sextNat (opWidth w) (opBits w v) := by
    rw [← toInt_ofNat_eq_sextNat (opWidth_pos w), opBits_eq, BitVec.ofNat_toNat, BitVec.setWidth_eq]
  rw [signed, ← opBits_eq]
  rfl

theorem numAt_eq_opNum (w u : Bool) (v : Word) : numAt w u v = opNum w u v := by
  rw [opNum_eq]
  cases w
  · show (if u then (v.toNat : Int) else v.toInt) = if u then ((v.setWidth 64).toNat : Int) else (v.setWidth 64).toInt
    rw [BitVec.setWidth_eq]
  · rfl

/-- A number cut to w bits. -/
theorem ofNat_narrowInt (w : Bool) (i : Int) : BitVec.ofNat (opWidth w) (narrowInt w i) = BitVec.ofInt (opWidth w) i := by
  apply BitVec.eq_of_toNat_eq
  rw [BitVec.toNat_ofNat, BitVec.toNat_ofInt, narrowInt, wrapInt]
  exact Nat.mod_eq_of_lt (by have := Int.emod_lt_of_pos i (show (0 : Int) < (2 ^ opWidth w : Nat) by positivity)
                             have := Int.emod_nonneg i (show ((2 ^ opWidth w : Nat) : Int) ≠ 0 by positivity)
                             omega)

/-- A shift amount is the same of an operand and of its low bits (R117). -/
theorem shiftBy_eq (w : Bool) (b : Word) : shiftBy w b = (b.setWidth (opWidth w)).toNat % opWidth w := by
  rw [shiftBy, BitVec.toNat_setWidth]
  exact (Nat.mod_mod_of_dvd _ (by cases w <;> decide)).symm

/-- A result of w bits is delivered as R114 says. -/
theorem deliver_eq_atWidth {w u : Bool} {r : Nat} {g : (n : Nat) → BitVec n → BitVec n → BitVec n} {a b : Word}
    (h : BitVec.ofNat (opWidth w) r = g (opWidth w) (a.setWidth (opWidth w)) (b.setWidth (opWidth w))) :
    deliver w u r = atWidth w u g a b := by
  cases w with
  | false =>
    have h : BitVec.ofNat 64 r = g 64 (a.setWidth 64) (b.setWidth 64) := h
    rwa [BitVec.setWidth_eq, BitVec.setWidth_eq] at h
  | true =>
    have h : BitVec.ofNat 32 r = g 32 (a.setWidth 32) (b.setWidth 32) := h
    rw [deliver, h]
    rfl

/-! ### The integer forms -/

theorem gives_landS (slot : SSlot) (dst : BitVec 6) (v : Word) (lat : Nat) (s : State) :
    Gives (landS slot dst v lat) s () (landed64 s (SSlot.file slot) dst.toNat v lat) := rfl
theorem gives_landG (g : Nat) (b : Bool) (lat : Nat) (s : State) :
    Gives (landG g b lat) s () (landed s fG g (if b then 1 else 0) lat) := rfl

section
variable {s : State} {a b : Word} {lat : Nat}

/-- An integer form with two sources lands its result. -/
theorem runSlot_intBin {f : SBin} (ha : Reads (readS f.slot f.a) s a) (hb : Reads (readS f.slot f.b) s b) (op : Word → Word → Nat) :
    runSlot (intBin f lat op) s =
      .next (landed64 s (SSlot.file f.slot) f.dst.toNat (deliver f.w f.u (op a b)) lat) :=
  runSlot_ok (gives_bind ha (gives_bind hb (gives_landS _ _ _ _ _)))

theorem runSlot_intBin_atWidth {f : SBin} (ha : Reads (readS f.slot f.a) s a) (hb : Reads (readS f.slot f.b) s b)
    {op : Word → Word → Nat} {g : (n : Nat) → BitVec n → BitVec n → BitVec n}
    (h : BitVec.ofNat (opWidth f.w) (op a b) = g (opWidth f.w) (a.setWidth (opWidth f.w)) (b.setWidth (opWidth f.w))) :
    runSlot (intBin f lat op) s =
      .next (landed64 s (SSlot.file f.slot) f.dst.toNat (atWidth f.w f.u g a b) lat) := by
  rw [runSlot_intBin ha hb, deliver_eq_atWidth h]

/-- An integer form with one source lands its result. -/
theorem runSlot_intUn_atWidth {f : SUn} (ha : Reads (readS f.slot f.a) s a) {op : Word → Nat}
    {g : (n : Nat) → BitVec n → BitVec n → BitVec n}
    (h : BitVec.ofNat (opWidth f.w) (op a) = g (opWidth f.w) (a.setWidth (opWidth f.w)) (a.setWidth (opWidth f.w))) :
    runSlot (intUn f lat op) s =
      .next (landed64 s (SSlot.file f.slot) f.dst.toNat (atWidth f.w f.u g a a) lat) := by
  rw [← deliver_eq_atWidth h]
  exact runSlot_ok (gives_bind ha (gives_landS _ _ _ _ _))

end

/-! ### What the numbers of the forms are as bit vectors -/

section
variable {n : Nat} (x y : BitVec n)

theorem ofInt_toNat_sub : BitVec.ofInt n ((x.toNat : Int) - y.toNat) = x - y := by
  rw [sub_eq_add_neg, BitVec.ofInt_add, BitVec.ofInt_neg, BitVec.ofInt_natCast, BitVec.ofInt_natCast, BitVec.ofNat_toNat,
    BitVec.ofNat_toNat, BitVec.setWidth_eq, BitVec.setWidth_eq, BitVec.sub_eq_add_neg]

theorem ofNat_toNat_add : BitVec.ofNat n (x.toNat + y.toNat) = x + y := by
  rw [BitVec.ofNat_add, BitVec.ofNat_toNat, BitVec.ofNat_toNat, BitVec.setWidth_eq, BitVec.setWidth_eq]

theorem ofNat_toNat_mul : BitVec.ofNat n (x.toNat * y.toNat) = x * y := by
  rw [BitVec.ofNat_mul, BitVec.ofNat_toNat, BitVec.ofNat_toNat, BitVec.setWidth_eq, BitVec.setWidth_eq]

theorem ofInt_toNat_mulHigh : BitVec.ofInt n ((x.toNat : Int) * y.toNat / (2 ^ n : Nat)) = BitVec.ofNat n (x.toNat * y.toNat / 2 ^ n) := by
  rw [← Int.natCast_mul, ← Int.natCast_ediv, BitVec.ofInt_natCast]

theorem ofNat_toNat_shiftLeft (k : Nat) : BitVec.ofNat n (x.toNat * 2 ^ k) = x <<< k := by
  apply BitVec.eq_of_toNat_eq
  rw [BitVec.toNat_ofNat, BitVec.toNat_shiftLeft, Nat.shiftLeft_eq]

theorem ofNat_toNat_shiftRight (k : Nat) : BitVec.ofNat n (x.toNat / 2 ^ k) = x >>> k := by
  apply BitVec.eq_of_toNat_eq
  rw [BitVec.toNat_ofNat, BitVec.toNat_ushiftRight, Nat.shiftRight_eq_div_pow]
  exact Nat.mod_eq_of_lt (lt_of_le_of_lt (Nat.div_le_self _ _) x.isLt)

/-- An arithmetic shift divides by a power of two, rounding down. -/
theorem ofInt_toInt_div (k : Nat) : BitVec.ofInt n (x.toInt / (2 ^ k : Nat)) = x.sshiftRight k := by
  rw [BitVec.sshiftRight, Int.shiftRight_eq_div_pow]

/-- A rotation brings the bits that leave at the top in at the bottom. -/
theorem ofNat_toNat_rotate {k : Nat} (h : k < n) :
    BitVec.ofNat n (x.toNat * 2 ^ k + x.toNat / 2 ^ (n - k)) = x.rotateLeft k := by
  have top : x.toNat / 2 ^ (n - k) < 2 ^ k := by
    rw [Nat.div_lt_iff_lt_mul (by positivity), ← Nat.pow_add, Nat.add_sub_cancel' h.le]
    exact x.isLt
  have kept : x.toNat <<< k % 2 ^ n = (x.toNat % 2 ^ (n - k)) <<< k := by
    rw [Nat.shiftLeft_eq, Nat.shiftLeft_eq, ← Nat.mul_mod_mul_right, ← Nat.pow_add, Nat.sub_add_cancel h.le]
  have fits : (x.toNat % 2 ^ (n - k)) <<< k + x.toNat / 2 ^ (n - k) < 2 ^ n := by
    have low : x.toNat % 2 ^ (n - k) < 2 ^ (n - k) := Nat.mod_lt _ (by positivity)
    calc (x.toNat % 2 ^ (n - k)) <<< k + x.toNat / 2 ^ (n - k)
        < (x.toNat % 2 ^ (n - k) + 1) * 2 ^ k := by rw [Nat.shiftLeft_eq, Nat.add_mul]; omega
      _ ≤ 2 ^ (n - k) * 2 ^ k := Nat.mul_le_mul_right _ low
      _ = 2 ^ n := by rw [← Nat.pow_add, Nat.sub_add_cancel h.le]
  apply BitVec.eq_of_toNat_eq
  rw [BitVec.toNat_ofNat, BitVec.toNat_rotateLeft, Nat.mod_eq_of_lt h, kept, Nat.shiftRight_eq_div_pow,
    ← Nat.shiftLeft_add_eq_or_of_lt top, ← kept, ← Nat.shiftLeft_eq, ← Nat.mod_add_mod, kept, Nat.mod_eq_of_lt fits]

/-! ### Bit counts -/

/-- A bit as the number that the forms find. -/
theorem getLsbD_iff_div_mod (i : Nat) : x.getLsbD i = true ↔ x.toNat / 2 ^ i % 2 = 1 := by
  rw [BitVec.getLsbD, Nat.testBit_eq_decide_div_mod_eq, decide_eq_true_eq]

/-- The zeros above bit `i`, and those that are counted down from it. -/
theorem clzAuxRec_eq_leadZeros {i : Nat} (h : i < n) :
    x.clzAuxRec i = BitVec.ofNat n (n - (i + 1) + leadZeros (i + 1) x.toNat) := by
  induction i with
  | zero =>
    have bit := getLsbD_iff_div_mod x 0
    rw [BitVec.clzAuxRec_zero, leadZeros, leadZeros]
    by_cases hb : x.getLsbD 0 = true
    · rw [if_pos hb, if_pos (bit.mp hb)]
      rfl
    · rw [if_neg hb, if_neg (bit.not.mp hb)]
      congr 1
      omega
  | succ i ih =>
    have bit := getLsbD_iff_div_mod x (i + 1)
    rw [BitVec.clzAuxRec_succ, leadZeros, ih (by omega)]
    by_cases hb : x.getLsbD (i + 1) = true
    · rw [if_pos hb, if_pos (bit.mp hb)]
      congr 1
      omega
    · rw [if_neg hb, if_neg (bit.not.mp hb)]
      congr 1
      omega

theorem ofNat_leadZeros (h : 0 < n) : BitVec.ofNat n (leadZeros n x.toNat) = x.clz := by
  have := clzAuxRec_eq_leadZeros x (i := n - 1) (by omega)
  rw [BitVec.clz, this, Nat.sub_add_cancel h, Nat.sub_self, Nat.zero_add]

/-- The leading zeros of the reversed bits are the trailing zeros. -/
theorem leadZeros_reverse {i : Nat} (h : i ≤ n) : leadZeros i x.reverse.toNat = trailZeros i (x.toNat / 2 ^ (n - i)) := by
  induction i with
  | zero => rfl
  | succ i ih =>
    have bit : x.reverse.toNat / 2 ^ i % 2 = 1 ↔ x.toNat / 2 ^ (n - (i + 1)) % 2 = 1 := by
      rw [← getLsbD_iff_div_mod, ← getLsbD_iff_div_mod, BitVec.getLsbD_reverse, BitVec.getMsbD]
      simp only [show i < n by omega, decide_true, Bool.true_and, show n - 1 - i = n - (i + 1) by omega]
    have next : x.toNat / 2 ^ (n - (i + 1)) / 2 = x.toNat / 2 ^ (n - i) := by
      rw [Nat.div_div_eq_div_mul, ← Nat.pow_succ, show (n - (i + 1)).succ = n - i by omega]
    rw [leadZeros, trailZeros, ih (by omega), next]
    exact if_congr bit rfl rfl

theorem ofNat_trailZeros (h : 0 < n) : BitVec.ofNat n (trailZeros n x.toNat) = x.ctz := by
  rw [BitVec.ctz, ← ofNat_leadZeros x.reverse h, leadZeros_reverse x le_rfl, Nat.sub_self, Nat.pow_zero, Nat.div_one]

/-- The ones of the low bits, the highest counted last. -/
theorem popCount_succ (i m : Nat) : popCount (i + 1) m = popCount i m + m / 2 ^ i % 2 := by
  induction i generalizing m with
  | zero => simp [popCount]
  | succ i ih =>
    rw [popCount, ih, popCount, Nat.div_div_eq_div_mul, ← Nat.pow_succ', Nat.add_assoc]

theorem cpopNatRec_eq_popCount (i acc : Nat) : x.cpopNatRec i acc = acc + popCount i x.toNat := by
  induction i generalizing acc with
  | zero => rfl
  | succ i ih =>
    have bit : (x.getLsbD i).toNat = x.toNat / 2 ^ i % 2 := by
      have := getLsbD_iff_div_mod x i
      cases hb : x.getLsbD i <;> simp_all
    rw [BitVec.cpopNatRec, ih, popCount_succ, bit]
    omega

theorem ofNat_popCount : BitVec.ofNat n (popCount n x.toNat) = x.cpop := by
  rw [BitVec.cpop, cpopNatRec_eq_popCount, Nat.zero_add]

end

/-- Settles O2: each form lands a number whose w bits are those of its table. -/
theorem scalarArithmetic : Obligations.ScalarArithmetic := by
  unfold Obligations.ScalarArithmetic
  refine ⟨fun f s a b ha hb => ?_, fun f s a b ha hb => ?_, fun f s a b ha hb => ?_⟩
  · refine ⟨runSlot_intBin_atWidth ha hb ?_, runSlot_intBin_atWidth ha hb ?_, runSlot_intBin_atWidth ha hb ?_,
      runSlot_intBin_atWidth ha hb ?_, runSlot_intBin_atWidth ha hb ?_, runSlot_intBin_atWidth ha hb ?_,
      runSlot_intBin_atWidth ha hb ?_,
      fun sh => runSlot_ok (gives_bind ha (gives_bind hb (gives_landS _ _ _ _ _)))⟩
    · rw [opBits_eq, opBits_eq, ofNat_toNat_add]
    · rw [ofNat_narrowInt, opBits_eq, opBits_eq, ofInt_toNat_sub]
    · rw [opBits_eq, opBits_eq, ofNat_toNat_mul]
    · rw [BitVec.ofNat_toNat, BitVec.setWidth_and]
    · rw [BitVec.ofNat_toNat, BitVec.setWidth_or]
    · rw [BitVec.ofNat_toNat, BitVec.setWidth_xor]
    · rw [BitVec.ofNat_toNat, BitVec.setWidth_and, BitVec.setWidth_not (opWidth_le f.w)]
  · refine runSlot_intBin_atWidth ha hb ?_
    rw [ofNat_narrowInt, opNum_eq, opNum_eq]
    cases f.u
    · exact congrArg (BitVec.ofInt _) (by push_cast; rfl)
    · exact ofInt_toNat_mulHigh _ _
  · refine ⟨runSlot_intBin_atWidth ha hb ?_, runSlot_intBin_atWidth ha hb ?_, runSlot_intBin_atWidth ha hb ?_,
      runSlot_intBin_atWidth ha hb ?_⟩
    · rw [opBits_eq, shiftBy_eq, ofNat_toNat_shiftLeft]
    · rw [opBits_eq, shiftBy_eq, ofNat_toNat_shiftRight]
    · rw [ofNat_narrowInt, opNum_eq, shiftBy_eq]
      exact ofInt_toInt_div _ _
    · rw [opBits_eq, shiftBy_eq]
      exact ofNat_toNat_rotate _ (Nat.mod_lt _ (opWidth_pos _))

/-! ### DIV and REM (R118) -/

/-- A result as an integer, delivered at its width. -/
theorem deliver_narrowInt (w u : Bool) (i : Int) : deliver w u (narrowInt w i) =
    if w then (if u then (BitVec.ofInt 32 i).setWidth 64 else (BitVec.ofInt 32 i).signExtend 64) else BitVec.ofInt 64 i := by
  have bits := ofNat_narrowInt w i
  cases w with
  | false => exact bits
  | true =>
    have bits : BitVec.ofNat 32 (narrowInt true i) = BitVec.ofInt 32 i := bits
    rw [deliver, bits]
    rfl

/-- At each width -1 has all bits one, which unsigned is the greatest number. -/
theorem narrowInt_neg_one (w u : Bool) :
    narrowInt w (-1) = narrowInt w (if u then 2 ^ (if w then 32 else 64) - 1 else -1) := by
  cases w <;> cases u <;> decide

/-- At each width the most negative number is its own negative. -/
theorem narrowInt_lowest (w : Bool) :
    narrowInt w (2 ^ ((if w then 32 else 64) - 1)) = narrowInt w (-(2 ^ ((if w then 32 else 64) - 1))) := by
  cases w <;> decide

theorem divInt_eq (w u : Bool) (a b : Word) :
    divInt w u a b = if numAt w u b = 0 then -1 else (numAt w u a).tdiv (numAt w u b) := by
  rw [numAt_eq_opNum, numAt_eq_opNum]
  rfl

/-- The remainder of a division that rounds toward zero; by zero it is the dividend. -/
theorem remInt_eq (w u : Bool) (a b : Word) : remInt w u a b = (numAt w u a).tmod (numAt w u b) := by
  rw [numAt_eq_opNum, numAt_eq_opNum, Int.tmod_def]
  unfold remInt
  dsimp only
  split
  · next h => rw [h, Int.zero_mul, Int.sub_zero]
  · rfl

/-- Settles O3: the quotient and the remainder of the division that rounds toward zero, and its borderline cases at each width. -/
theorem divideAndRemainder : Obligations.DivideAndRemainder := by
  unfold Obligations.DivideAndRemainder
  intro f s x y hx hy w A B res out
  have delivered (v : Int) : out v = .next (landed64 s (SSlot.file f.slot) f.dst.toNat (deliver f.w f.u (narrowInt f.w v)) 18) := by
    rw [deliver_narrowInt]
  have same {v v' : Int} (h : narrowInt f.w v = narrowInt f.w v') : out v = out v' := by rw [delivered, delivered, h]
  have hdiv : exec (.div f) s = out (if B = 0 then -1 else A.tdiv B) := by
    rw [← divInt_eq, delivered]
    exact runSlot_intBin hx hy _
  have hrem : exec (.rem f) s = out (A.tmod B) := by
    rw [← remInt_eq, delivered]
    exact runSlot_intBin hx hy _
  refine ⟨fun hB => ⟨A.tdiv B, A.tmod B, ?_, hrem, Int.tmod_def A B, ?_, Int.natAbs_tdiv A B, fun hA => ?_, fun hA => ?_⟩,
    fun hB => ⟨?_, ?_⟩, fun hu hA hB => ⟨?_, ?_⟩⟩
  · rw [hdiv, if_neg hB]
  · rw [Int.natAbs_tmod]
    exact Nat.mod_lt _ (Int.natAbs_pos.mpr hB)
  · exact Int.tmod_nonneg B hA.le
  · have := Int.tmod_nonneg B (Int.neg_nonneg.mpr hA.le)
    rw [Int.neg_tmod] at this
    omega
  · rw [hdiv, if_pos hB]
    exact same (narrowInt_neg_one f.w f.u)
  · rw [hrem, hB, Int.tmod_zero]
  · rw [hdiv, hB, if_neg (by decide), Int.tdiv_neg, Int.tdiv_one, hA, Int.neg_neg]
    exact same (narrowInt_lowest f.w)
  · rw [hrem, hB, Int.tmod_neg, Int.tmod_one]

/-! ### MIN, MAX, CMP and SEL (R117, R119) -/

theorem ofNat_opBits (w : Bool) (v : Word) : BitVec.ofNat (opWidth w) (opBits w v) = v.setWidth (opWidth w) := by
  rw [opBits_eq, BitVec.ofNat_toNat, BitVec.setWidth_eq]

/-- The order of the numbers is the order of the bit vectors of their width. -/
theorem opNum_le_iff (w u : Bool) (a b : Word) : opNum w u a ≤ opNum w u b ↔
    (if u then (a.setWidth (opWidth w)).ule (b.setWidth (opWidth w))
      else (a.setWidth (opWidth w)).sle (b.setWidth (opWidth w))) = true := by
  rw [opNum_eq, opNum_eq]
  cases u
  · exact BitVec.sle_iff_toInt_le.symm
  · exact Int.ofNat_le.trans decide_eq_true_iff.symm

/-- Settles O4: the order of the operands is that of their bit vectors, and a predicate is a bit of g. -/
theorem scalarCompare : Obligations.ScalarCompare := by
  unfold Obligations.ScalarCompare
  intro f s a b ha hb out le
  have order := opNum_le_iff f.w f.u a b
  refine ⟨runSlot_intBin_atWidth ha hb ?_, runSlot_intBin_atWidth ha hb ?_, fun c => ?_, fun g neg => ?_⟩
  · rw [apply_ite (BitVec.ofNat _), ofNat_opBits, ofNat_opBits]
    exact if_congr order rfl rfl
  · rw [apply_ite (BitVec.ofNat _), ofNat_opBits, ofNat_opBits]
    exact if_congr order rfl rfl
  · refine (runSlot_ok (gives_bind ha (gives_bind hb (gives_landG _ _ _ _)))).trans ?_
    rw [numAt_eq_opNum, numAt_eq_opNum]
    refine congrArg (fun p : Bool => Host.Outcome.next (landed s fG (f.dst.toNat % 8) (if p then 1 else 0) 1)) ?_
    cases c <;> simp [iCond, beq_eq_decide, bne]
  · refine (runSlot_ok (gives_bind ha (gives_bind hb (gives_bind (gives_curCtx s) (gives_landS _ _ _ _ _))))).trans ?_
    rw [← Bool.bne_eq_xor]
    rfl

/-! ### Bit fields (R120) -/

section
variable {n : Nat} (x y : BitVec n)

theorem bitsAt_eq_extract (pos len : Nat) : bitsAt x.toNat pos len = (x.extractLsb' pos len).toNat := by
  rw [BitVec.extractLsb'_toNat, Nat.shiftRight_eq_div_pow, bitsAt]

/-- A field, extended with zeros. -/
theorem ofNat_bitsAt (pos len : Nat) : BitVec.ofNat n (bitsAt x.toNat pos len) = (x.extractLsb' pos len).setWidth n := by
  rw [bitsAt_eq_extract, BitVec.ofNat_toNat]

/-- A field, extended with its own sign. -/
theorem ofInt_sextNat_bitsAt (pos : Nat) {len : Nat} (h : 0 < len) :
    BitVec.ofInt n (sextNat len (bitsAt x.toNat pos len)) = (x.extractLsb' pos len).signExtend n := by
  rw [bitsAt_eq_extract, ← toInt_ofNat_eq_sextNat h, BitVec.ofNat_toNat, BitVec.setWidth_eq]
  rfl

/-- A value that is moved to a field of a word, bit by bit. -/
theorem getLsbD_field {pos len i : Nat} (hi : i < n) (v : BitVec len) :
    (v.setWidth n <<< pos).getLsbD i = (decide (pos ≤ i) && v.getLsbD (i - pos)) := by
  rw [BitVec.getLsbD_shiftLeft, BitVec.getLsbD_setWidth, decide_eq_true hi, decide_eq_true (show i - pos < n by omega), Bool.true_and,
    Bool.true_and]
  by_cases hp : i < pos
  · simp [hp]
  · simp [hp, not_lt.mp hp]

/-- A number with a field replaced: its low bits, the new field, and the bits above. -/
theorem replaceField_eq (m a pos len : Nat) : m - bitsAt m pos len * 2 ^ pos + a % 2 ^ len * 2 ^ pos =
    2 ^ (pos + len) * (m / 2 ^ (pos + len)) + (2 ^ pos * (a % 2 ^ len) + m % 2 ^ pos) := by
  have field : m % 2 ^ (pos + len) = m % 2 ^ pos + 2 ^ pos * bitsAt m pos len := by
    rw [Nat.pow_add, Nat.mod_mul]
    rfl
  have whole := Nat.div_add_mod m (2 ^ (pos + len))
  rw [field] at whole
  rw [Nat.mul_comm (bitsAt m pos len), Nat.mul_comm (a % 2 ^ len)]
  omega

/-- In a word whose field is replaced the bits outside the field stay. -/
theorem ofNat_replaceField {pos len : Nat} (v : BitVec len) :
    BitVec.ofNat n (y.toNat - bitsAt y.toNat pos len * 2 ^ pos + v.toNat * 2 ^ pos) =
      (y &&& ~~~((BitVec.allOnes len).setWidth n <<< pos)) ||| (v.setWidth n <<< pos) := by
  apply BitVec.eq_of_getLsbD_eq
  intro i hi
  have low : y.toNat % 2 ^ pos < 2 ^ pos := Nat.mod_lt _ (by positivity)
  have inner : 2 ^ pos * v.toNat + y.toNat % 2 ^ pos < 2 ^ (pos + len) := by
    rw [Nat.pow_add]
    calc 2 ^ pos * v.toNat + y.toNat % 2 ^ pos < 2 ^ pos * (v.toNat + 1) := by rw [Nat.mul_succ]; omega
      _ ≤ 2 ^ pos * 2 ^ len := Nat.mul_le_mul_left _ v.isLt
  have split := replaceField_eq y.toNat v.toNat pos len
  rw [Nat.mod_eq_of_lt v.isLt] at split
  rw [BitVec.getLsbD_ofNat, decide_eq_true hi, Bool.true_and, split, Nat.testBit_two_pow_mul_add _ inner,
    Nat.testBit_two_pow_mul_add _ low, BitVec.getLsbD_or, BitVec.getLsbD_and, BitVec.getLsbD_not, getLsbD_field hi,
    getLsbD_field hi, BitVec.getLsbD_allOnes, Nat.testBit_mod_two_pow, Nat.testBit_div_two_pow, decide_eq_true hi]
  by_cases h1 : i < pos
  · simp [h1, BitVec.getLsbD, show i < pos + len by omega, show ¬ pos ≤ i by omega]
  · by_cases h2 : i < pos + len
    · simp [h1, h2, BitVec.getLsbD, show pos ≤ i by omega, show i - pos < len by omega]
    · have above : v.toNat.testBit (i - pos) = false := BitVec.getLsbD_of_ge v _ (by omega)
      simp [h2, above, BitVec.getLsbD, show ¬ i - pos < len by omega, show i - (pos + len) + (pos + len) = i by omega]

end

/-- A field within the width of the operation, of an operand's low bits. -/
theorem toNat_lowField {w : Bool} (a : Word) {len : Nat} (h : len ≤ opWidth w) :
    ((a.setWidth (opWidth w)).extractLsb' 0 len).toNat = a.toNat % 2 ^ len := by
  rw [BitVec.extractLsb'_toNat, BitVec.toNat_setWidth, Nat.shiftRight_zero, Nat.mod_mod_of_dvd _ (pow_dvd_pow 2 h)]

/-- BFI's result at its width. -/
theorem deliver_insertField {w u : Bool} (a d : Word) {pos len : Nat} (h : pos + len ≤ opWidth w) :
    deliver w u (opBits w d - bitsAt (opBits w d) pos len * 2 ^ pos + a.toNat % 2 ^ len * 2 ^ pos) =
      atWidth w u (fun n x y => (y &&& ~~~((BitVec.allOnes len).setWidth n <<< pos)) |||
        ((x.extractLsb' 0 len).setWidth n <<< pos)) a d := by
  apply deliver_eq_atWidth
  rw [opBits_eq, ← toNat_lowField (w := w) a (by omega), ofNat_replaceField]

/-- A field that the encoding admits lies within the width of its form. -/
theorem field_le_of_wf {pos len : BitVec 6} {f : SUn} (h : (Instr.bfx pos len f).wf = true) :
    pos.toNat + (len.toNat + 1) ≤ opWidth f.w := by
  simp only [Instr.wf, Bool.and_eq_true, decide_eq_true_eq] at h
  exact h.2

/-! ### A block of the stream (R38) -/

/-- The four words of a Philox state are words. -/
def wordsOk (c : Nat × Nat × Nat × Nat) : Prop := c.1 < 2 ^ 32 ∧ c.2.1 < 2 ^ 32 ∧ c.2.2.1 < 2 ^ 32 ∧ c.2.2.2 < 2 ^ 32

theorem wordsOk_mk {a b c d : Nat} (ha : a < 2 ^ 32) (hb : b < 2 ^ 32) (hc : c < 2 ^ 32) (hd : d < 2 ^ 32) :
    wordsOk (a, b, c, d) := ⟨ha, hb, hc, hd⟩

theorem mul_div_word_lt {a b : Nat} (ha : a < 2 ^ 32) (hb : b < 2 ^ 32) : a * b / 2 ^ 32 < 2 ^ 32 :=
  Nat.div_lt_of_lt_mul (Nat.mul_lt_mul'' ha hb)

theorem natXor_word_lt {a b : Nat} (ha : a < 2 ^ 32) (hb : b < 2 ^ 32) : Nat.xor a b < 2 ^ 32 := Nat.xor_lt_two_pow ha hb

theorem philoxRound_eq (a b c d k0 k1 : Nat) : philoxRound (a, b, c, d) k0 k1 =
    (Nat.xor (Nat.xor (0xCD9E8D57 * c / 2 ^ 32) b) k0, 0xCD9E8D57 * c % 2 ^ 32,
      Nat.xor (Nat.xor (0xD2511F53 * a / 2 ^ 32) d) k1, 0xD2511F53 * a % 2 ^ 32) := rfl

theorem wordsOk_philoxRound {c : Nat × Nat × Nat × Nat} (h : wordsOk c) {k0 k1 : Nat} (h0 : k0 < 2 ^ 32) (h1 : k1 < 2 ^ 32) :
    wordsOk (philoxRound c k0 k1) := by
  obtain ⟨c0, c1, c2, c3⟩ := c
  obtain ⟨w0, w1, w2, w3⟩ : c0 < 2 ^ 32 ∧ c1 < 2 ^ 32 ∧ c2 < 2 ^ 32 ∧ c3 < 2 ^ 32 := h
  have p0 : 0xD2511F53 * c0 / 2 ^ 32 < 2 ^ 32 := mul_div_word_lt (by decide) w0
  have p1 : 0xCD9E8D57 * c2 / 2 ^ 32 < 2 ^ 32 := mul_div_word_lt (by decide) w2
  have m0 : 0xD2511F53 * c0 % 2 ^ 32 < 2 ^ 32 := Nat.mod_lt _ (by decide)
  have m1 : 0xCD9E8D57 * c2 % 2 ^ 32 < 2 ^ 32 := Nat.mod_lt _ (by decide)
  rw [philoxRound_eq]
  exact wordsOk_mk (natXor_word_lt (natXor_word_lt p1 w1) h0) m1 (natXor_word_lt (natXor_word_lt p0 w3) h1) m0

/-- One round and the rest. The kernel does not find this by unfolding both sides alike, which compares a key with its bumped value. -/
theorem philoxRounds_succ (n : Nat) (c : Nat × Nat × Nat × Nat) (k0 k1 : Nat) : philoxRounds (n + 1) c k0 k1 =
    philoxRounds n (philoxRound c k0 k1) ((k0 + 0x9E3779B9) % 2 ^ 32) ((k1 + 0xBB67AE85) % 2 ^ 32) := by
  conv_lhs => delta philoxRounds; whnf
  conv_rhs => delta philoxRounds

theorem wordsOk_philoxRounds (n : Nat) {c : Nat × Nat × Nat × Nat} (h : wordsOk c) {k0 k1 : Nat} (h0 : k0 < 2 ^ 32)
    (h1 : k1 < 2 ^ 32) : wordsOk (philoxRounds n c k0 k1) := by
  induction n generalizing c k0 k1 with
  | zero => exact h
  | succ n ih =>
    rw [philoxRounds_succ]
    exact ih (wordsOk_philoxRound h h0 h1) (Nat.mod_lt _ (by decide)) (Nat.mod_lt _ (by decide))

theorem streamWord_lt (key ctr j : Nat) : streamWord key ctr j < 2 ^ 32 := by
  have cut (x lo : Nat) : bitsAt x lo 32 < 2 ^ 32 := Nat.mod_lt _ (by decide)
  have words (b : Nat) : wordsOk (philoxRounds 10 (bitsAt b 0 32, bitsAt b 32 32, bitsAt b 64 32, bitsAt b 96 32) (bitsAt key 0 32)
    (bitsAt key 32 32)) := wordsOk_philoxRounds 10 ⟨cut _ _, cut _ _, cut _ _, cut _ _⟩ (cut _ _) (cut _ _)
  unfold streamWord philox
  generalize (ctr + j / 4) % 2 ^ 128 = b
  obtain ⟨w0, w1, w2, w3⟩ := words b
  dsimp only
  split
  · exact w0
  · exact w1
  · exact w2
  · exact w3

/-! ### A random fraction in FP32 (R127) -/

theorem log2F_eq {k n : Nat} (h : n < 2 ^ 2 ^ k) : log2F k n = Nat.log2 n := by
  induction k generalizing n with
  | zero =>
    have : n < 2 := h
    interval_cases n <;> decide
  | succ k ih =>
    rw [log2F]
    split
    · interval_cases n <;> decide
    · dsimp only
      have hn : n / 2 ^ 2 ^ k < 2 ^ 2 ^ k := by
        rw [Nat.pow_succ, Nat.mul_two, Nat.pow_add] at h
        exact Nat.div_lt_of_lt_mul h
      split
      · next h0 => exact ih ((Nat.div_eq_zero_iff_lt (by positivity)).mp h0)
      · next h0 =>
        have : 2 ^ k ≤ Nat.log2 n := (Nat.le_log2 (by omega)).mpr (Nat.one_le_div_iff (by positivity) |>.mp (Nat.one_le_iff_ne_zero.mpr h0))
        rw [ih hn, Nat.log2_eq_log_two, Nat.log_div_base_pow, ← Nat.log2_eq_log_two]
        omega

/-- A value that is a multiple of the grid's unit lies on the grid. -/
theorem onGrid_exact (m : Nat) {e q : Int} (h : q ≤ e) : Mag.onGrid ⟨m, e, false⟩ q = (m * 2 ^ (e - q).toNat, 0, false) := by
  have coarse : shl2 m (e - q) = m * 2 ^ (e - q).toNat := if_pos (by omega)
  have fine : shl2 m (e - q + 64) = m * 2 ^ (e - q).toNat * 2 ^ 64 := by
    rw [shl2, if_pos (by omega), show (e - q + 64).toNat = (e - q).toNat + 64 by omega, Nat.pow_add, Nat.mul_assoc]
  unfold Mag.onGrid
  dsimp only
  rw [coarse, fine, Nat.sub_self, decide_eq_true (show e - q + 64 ≥ 0 by omega)]
  rfl

theorem roundUp_exact (mode : RMode) (u : Nat) (neg : Bool) (n : Nat) : roundUp mode u neg n 0 false = false := by
  cases mode <;> simp [roundUp]

/-- A value on its grid and in range is delivered as it is, without a flag (R36). -/
theorem round_exact {f : FFmt} (mode : RMode) (u : Nat) (neg : Bool) {m : Nat} {e q : Int} (hm : m ≠ 0)
    (hq : max (e + lg2 m - f.mb) (f.emin - f.mb) = q) (he : q ≤ e) (hn : m * 2 ^ (e - q).toNat ≠ 2 ^ (f.mb + 1))
    (hmax : f.encodeGrid (m * 2 ^ (e - q).toNat) q ≤ f.maxBits) :
    f.round mode u false neg ⟨m, e, false⟩ = (f.signBit neg + f.encodeGrid (m * 2 ^ (e - q).toNat) q, 0) := by
  unfold FFmt.round
  dsimp only
  rw [hq, onGrid_exact m he]
  simp only [roundUp_exact, hm, hn, not_lt.mpr hmax, decide_false, decide_true, Bool.false_and, Bool.not_false, Bool.and_self,
    Bool.false_eq_true, if_false, if_true]

/-- A number of at most 24 bits, as a fraction of 2^24, is an FP32 value: its leading bit goes into the exponent. -/
theorem deliver_fraction {n : Nat} (h0 : n ≠ 0) (h : n < 2 ^ 24) :
    ((FVal.num false n (-24)).res.deliver .fp32 .rne 0 false).1 =
      (103 + Nat.log2 n) * 2 ^ 23 + (n * 2 ^ (23 - Nat.log2 n) - 2 ^ 23) := by
  have lg : lg2 n = Nat.log2 n := log2F_eq (k := 13) (h.trans_le (Nat.pow_le_pow_right (by norm_num) (by norm_num)))
  have top : Nat.log2 n < 24 := (Nat.log2_lt h0).mpr h
  have least := Nat.log2_self_le h0
  have most := Nat.lt_log2_self (n := n)
  generalize Nat.log2 n = l at *
  have low : 2 ^ 23 ≤ n * 2 ^ (23 - l) := by
    calc 2 ^ 23 = 2 ^ l * 2 ^ (23 - l) := by rw [← Nat.pow_add]; congr 1; omega
      _ ≤ n * 2 ^ (23 - l) := Nat.mul_le_mul_right _ least
  have high : n * 2 ^ (23 - l) < 2 ^ 24 := by
    calc n * 2 ^ (23 - l) < 2 ^ (l + 1) * 2 ^ (23 - l) := Nat.mul_lt_mul_of_pos_right most (by positivity)
      _ = 2 ^ 24 := by rw [← Nat.pow_add]; congr 1; omega
  have grid : (-24 - ((l : Int) - 47)).toNat = 23 - l := by omega
  have bits : FFmt.fp32.encodeGrid (n * 2 ^ (23 - l)) ((l : Int) - 47) = (103 + l) * 2 ^ 23 + (n * 2 ^ (23 - l) - 2 ^ 23) := by
    have ex : ((l : Int) - 47 + (23 : Nat) + (127 : Nat)).toNat = 103 + l := by omega
    rw [FFmt.encodeGrid, FFmt.mb, if_neg (not_lt.mpr low), FFmt.bias, ex, Nat.add_comm]
  have res : (FVal.num false n (-24)).res = .real false ⟨n, -24, false⟩ := if_neg h0
  rw [res]
  show (FFmt.fp32.round .rne 0 false false ⟨n, -24, false⟩).1 = _
  rw [round_exact (q := (l : Int) - 47) .rne 0 false h0 (by rw [lg]; simp only [FFmt.mb, FFmt.emin, FFmt.bias]; omega) (by omega)
    (by rw [grid]; exact high.ne) (by rw [grid, bits]; simp only [FFmt.maxBits]; omega), grid, bits]
  exact Nat.zero_add _

/-- Settles O5: the counts are those of the bit vector's bits, a field is a shift and a mask, XFER's file is the register it names,
and a RAND reads its word or fraction off one block of the stream. -/
theorem scalarBits : Obligations.ScalarBits := by
  unfold Obligations.ScalarBits
  refine ⟨fun f s a ha => ?_, fun f s a ha => ?_, fun slot s => rfl, fun slot dst s => ?_⟩
  · intro out
    have w := opWidth_pos f.w
    refine ⟨runSlot_intUn_atWidth ha ?_, runSlot_intUn_atWidth ha ?_, runSlot_intUn_atWidth ha ?_, fun pos len hwf =>
      ⟨runSlot_intUn_atWidth ha ?_, fun d hd => ?_⟩⟩
    · rw [opBits_eq, ofNat_leadZeros _ w]
    · rw [opBits_eq, ofNat_trailZeros _ w]
    · rw [opBits_eq, ofNat_popCount]
    · rw [opBits_eq, apply_ite (BitVec.ofNat _), ofNat_bitsAt, ofNat_narrowInt, ofInt_sextNat_bitsAt _ _ (Nat.succ_pos _)]
    · rw [← deliver_insertField a d (field_le_of_wf hwf)]
      exact runSlot_ok (gives_bind ha (gives_bind hd (gives_landS _ _ _ _ _)))
  · exact ⟨runSlot_ok (gives_bind ha (gives_landS _ _ _ _ _)), runSlot_ok (gives_bind ha (gives_landS _ _ _ _ _)),
      runSlot_ok (gives_bind ha (gives_landAt _ _ _ _ _)), runSlot_ok (gives_bind ha (gives_landAt _ _ _ _ _)),
      runSlot_ok (gives_bind ha (gives_landAt _ _ _ _ _)), runSlot_ok (gives_bind ha (gives_landAt _ _ _ _ _)),
      runSlot_ok (gives_bind ha (gives_landAt _ _ _ _ _))⟩
  · intro u n
    have run : exec (.rand true slot dst) s = .next (landed64 (drawn s 1) (SSlot.file slot) dst.toNat
        (BitVec.ofNat 64 ((FVal.num false n (-24)).res.deliver .fp32 .rne 0 false).1) 6) := rfl
    have small : n < 2 ^ 24 := Nat.div_lt_of_lt_mul (streamWord_lt _ _ _)
    refine ⟨rfl, run.trans ?_⟩
    by_cases h0 : n = 0
    · rw [if_pos h0, h0]
      rfl
    · rw [if_neg h0, deliver_fraction h0 small]

end Sys2Proof.Proofs

/-! SUPPORT. Scalar operands (R113) and control transfers (R129 to R136): what each reads, and what takes place at the end of the bundle. -/

namespace Sys2Proof.Proofs

open Sys2Proof Machine Laws

/-! ### Scalar operands (R113) -/

/-- The header literal outside a template (R208). -/
theorem reads_headerImm {s : State} (h : s.issue.kind ≠ 2) : Reads headerImm s s.issue.imm := by
  refine gives_bind (gives_get s) ?_
  rw [if_neg h]
  exact gives_pure _ s

/-- A literal times 2^32 has the literal's bits above 32 zeros. -/
theorem setWidth_shiftLeft_eq_append (v : BitVec 32) : v.setWidth 64 <<< 32 = v ++ (0 : BitVec 32) := by
  apply BitVec.eq_of_toNat_eq
  rw [BitVec.toNat_append, BitVec.toNat_shiftLeft, BitVec.toNat_setWidth_of_le (by norm_num)]
  show _ = v.toNat <<< 32 ||| 0
  rw [Nat.or_zero, Nat.shiftLeft_eq]
  exact Nat.mod_eq_of_lt (Nat.mul_lt_mul_of_pos_right v.isLt (by norm_num))

/-- Settles O1: each specifier reads its register, head or literal, and extends what it reads. -/
theorem scalarOperands : Obligations.ScalarOperands := by
  unfold Obligations.ScalarOperands
  intro slot s
  refine ⟨fun i h => reads_scalar h, fun i c t h => traps_bind_left (traps_reg h), fun q v h => ?_, fun v => gives_pure _ s, fun h => ?_⟩
  · rw [← BitVec.setWidth_eq_extractLsb' (by norm_num)]
    exact gives_bind h (gives_pure _ s)
  · have imm := reads_headerImm h
    refine ⟨gives_bind imm (gives_pure _ s), gives_bind imm (gives_pure _ s), ?_⟩
    rw [← setWidth_shiftLeft_eq_append]
    exact gives_bind imm (gives_pure _ s)

/-! ### Transfers (R129 to R132) -/

theorem word_shiftLeft_three (w : Word) : w <<< 3 = w * 8 := by
  rw [BitVec.shiftLeft_eq_mul_twoPow]
  rfl

theorem relTarget_eq (i : Issue) (off : BitVec 30) : relTarget i off = i.addr + off.signExtend 64 * 8 := by
  rw [relTarget, word_shiftLeft_three]

section
variable {s : State}

theorem gives_aligned8 {t : Word} (h : t.toNat % 8 = 0) (s : State) : Gives (aligned8 t) s t s :=
  gives_bind (gives_need (beq_iff_eq.mpr h) _ _ s) (gives_pure t s)

theorem traps_aligned8 {t : Word} (h : t.toNat % 8 ≠ 0) (s : State) : Traps (aligned8 t) s 0x03 t :=
  traps_bind_left (traps_need (beq_eq_false_iff_ne.mpr h) _ _ s)

/-- A predicate that holds no error, read as a register. -/
theorem reads_pred {g : BitVec 3} (h : (issuer s).regError 8 g.toNat = none) :
    Reads (readReg fG g.toNat) s (if (issuer s).g.getLsbD g.toNat then 1 else 0) := reads_reg h

theorem getLsbD_pred (p : Bool) : (if p then 1 else 0 : VecReg).getLsbD 0 = p := by cases p <;> simp

section
variable (hd : (issuer s).delay = false) (hk : s.issue.kind ≠ 1)
include hd hk

/-- A transfer or LOOP may stand in a bundle that is no delay bundle and no loop-end bundle (R131, R134). -/
theorem gives_noTransferHere : Gives noTransferHere s () s := by
  refine gives_bind (gives_get s) (gives_needWord ?_ s)
  rw [hd, bne_iff_ne.mpr hk]
  rfl

theorem exec_br (off : BitVec 30) :
    exec (.br off) s = .next (scheduled s (.transfer (s.issue.addr + off.signExtend 64 * 8))) := by
  rw [← relTarget_eq]
  exact runSlot_ok (gives_bind (gives_noTransferHere hd hk) (gives_bind (gives_get s) (gives_act _ s)))

theorem exec_brc (neg : Bool) {g : BitVec 3} (hg : (issuer s).regError 8 g.toNat = none) (off : BitVec 30) :
    exec (.brc neg g off) s = .next (scheduled s (if (issuer s).g.getLsbD g.toNat != neg then
      .transfer (s.issue.addr + off.signExtend 64 * 8) else .delayOnly)) := by
  rw [← relTarget_eq]
  refine runSlot_ok (gives_bind (gives_noTransferHere hd hk) (gives_bind (reads_pred hg) (gives_bind (gives_get s) ?_)))
  rw [getLsbD_pred]
  split
  · exact gives_act _ s
  · exact gives_act _ s

theorem exec_jmp {r : BitVec 5} {b : Word} (hb : Reads (readK r) s b) (off : BitVec 30)
    (ha : (b + off.signExtend 64 * 8).toNat % 8 = 0) :
    exec (.jmp r off) s = .next (scheduled s (.transfer (b + off.signExtend 64 * 8))) := by
  rw [← word_shiftLeft_three] at *
  exact runSlot_ok (gives_bind (gives_noTransferHere hd hk) (gives_bind hb (gives_bind (gives_aligned8 ha s) (gives_act _ s))))

theorem exec_ret {r : BitVec 5} {b : Word} (hb : Reads (readK r) s b) (ha : b.toNat % 8 = 0) :
    exec (.ret r) s = .next (scheduled s (.transfer b)) :=
  runSlot_ok (gives_bind (gives_noTransferHere hd hk) (gives_bind hb (gives_bind (gives_aligned8 ha s) (gives_act _ s))))

theorem exec_jmp_misaligned {r : BitVec 5} {b : Word} (hb : Reads (readK r) s b) (off : BitVec 30)
    (ha : (b + off.signExtend 64 * 8).toNat % 8 ≠ 0) :
    exec (.jmp r off) s = .next (stopped s (.trap false 0x03 (b + off.signExtend 64 * 8))) := by
  rw [← word_shiftLeft_three] at *
  exact runSlot_trap (traps_bind_right (gives_noTransferHere hd hk) (traps_bind_right hb (traps_bind_left (traps_aligned8 ha s))))

theorem exec_ret_misaligned {r : BitVec 5} {b : Word} (hb : Reads (readK r) s b) (ha : b.toNat % 8 ≠ 0) :
    exec (.ret r) s = .next (stopped s (.trap false 0x03 b)) :=
  runSlot_trap (traps_bind_right (gives_noTransferHere hd hk) (traps_bind_right hb (traps_bind_left (traps_aligned8 ha s))))

theorem exec_call_misaligned (link : BitVec 5) {r : BitVec 5} {b : Word} (hb : Reads (readK r) s b) (off : BitVec 30)
    (ha : (b + off.signExtend 64 * 8).toNat % 8 ≠ 0) :
    exec (.call true link r off) s = .next (stopped s (.trap false 0x03 (b + off.signExtend 64 * 8))) := by
  rw [← word_shiftLeft_three] at *
  exact runSlot_trap (traps_bind_right (gives_noTransferHere hd hk) (traps_bind_right (gives_get s)
    (traps_bind_right hb (traps_bind_left (traps_aligned8 ha s)))))

end

/-! ### The words fetched for a link or a loop's end (R130, R133) -/

theorem readAt_keepsCtxs (s : State) (pa n : Nat) : KeepsCtxs s (s.readAt pa n).2 := by
  unfold State.readAt
  split
  · exact mgmtRead_keepsCtxs _ _ s
  · unfold State.readBytes
    dsimp only
    split <;> exact ⟨rfl, rfl⟩

theorem fetchWord_keepsCtxs {t : State} {c : Nat} {far : Bool} {addr w : Word} (h : fetchWord s c far addr = .ok (w, t)) :
    KeepsCtxs s t := by
  unfold fetchWord at h
  dsimp only at h
  split at h
  · rw [Except.ok.injEq, Prod.mk.injEq] at h
    exact h.2 ▸ KeepsCtxs.refl s
  · split at h
    · exact absurd h nofun
    · next ht =>
      split at h
      · exact absurd h nofun
      · rw [Except.ok.injEq, Prod.mk.injEq] at h
        exact h.2 ▸ (translate_keepsCtxs ht).trans (readAt_keepsCtxs _ _ _)

/-- A fetch as a condition of execution gives the word at the address. -/
theorem gives_fetchCond_inv {t : State} {a h : Word} (hf : Gives (fetchCond a) s h t) : fetchWord s s.issue.ctx false a = .ok (h, t) := by
  unfold fetchCond at hf
  obtain ⟨u, x, hx, hf⟩ := gives_bind_inv hf
  cases hx
  cases hw : fetchWord s s.issue.ctx false a with
  | error e =>
    rw [hw] at hf
    obtain ⟨e1, e2⟩ := e
    cases hf
  | ok r =>
    rw [hw] at hf
    cases hf
    rfl

theorem fetchCond_keepsCtxs {t : State} {a h : Word} (hf : Gives (fetchCond a) s h t) : KeepsCtxs s t :=
  fetchWord_keepsCtxs (gives_fetchCond_inv hf)

/-- What a CALL does once its target is known. -/
def callTo (link : BitVec 5) (st : State) (t : Word) : M Unit := do
  let pl := (st.core (coreOf st.issue.ctx)).active
  let d := st.issue.next
  needLegal (!pl.holds st.issue.addr.toNat || decide (d.toNat < pl.codeBase.toNat + pl.codeLen))
  let h ← fetchCond d
  act (.setReg fK link.toNat ((afterBundle d h).setWidth 2048))
  act (.transfer t)

section
variable (hd : (issuer s).delay = false) (hk : s.issue.kind ≠ 1)
include hd hk

theorem exec_call {ind : Bool} {link r : BitVec 5} {off : BitVec 30} {b tgt h : Word} {t : State}
    (htgt : if ind then Reads (readK r) s b ∧ tgt = b + off.signExtend 64 * 8 ∧ tgt.toNat % 8 = 0
      else tgt = s.issue.addr + off.signExtend 64 * 8)
    (hin : (s.core (coreOf s.issue.ctx)).active.holds s.issue.addr.toNat = true →
      s.issue.next.toNat < (s.core (coreOf s.issue.ctx)).active.codeBase.toNat + (s.core (coreOf s.issue.ctx)).active.codeLen)
    (hf : Gives (fetchCond s.issue.next) s h t) : exec (.call ind link r off) s =
      .next (scheduled (scheduled t (.setReg fK link.toNat ((afterBundle s.issue.next h).setWidth 2048))) (.transfer tgt)) := by
  have legal : (!(s.core (coreOf s.issue.ctx)).active.holds s.issue.addr.toNat || decide (s.issue.next.toNat <
      (s.core (coreOf s.issue.ctx)).active.codeBase.toNat + (s.core (coreOf s.issue.ctx)).active.codeLen)) = true := by
    cases hh : (s.core (coreOf s.issue.ctx)).active.holds s.issue.addr.toNat with
    | false => rfl
    | true => exact decide_eq_true (hin hh)
  have goes : Gives (callTo link s tgt) s () (scheduled (scheduled t
      (.setReg fK link.toNat ((afterBundle s.issue.next h).setWidth 2048))) (.transfer tgt)) :=
    gives_bind (gives_needLegal legal s) (gives_bind hf (gives_bind (gives_act _ t) (gives_act _ _)))
  cases ind with
  | false =>
    have htgt : tgt = s.issue.addr + off.signExtend 64 * 8 := htgt
    rw [← relTarget_eq] at htgt
    subst htgt
    exact runSlot_ok (gives_bind (gives_noTransferHere hd hk) (gives_bind (gives_get s) goes))
  | true =>
    obtain ⟨hb, rfl, ha⟩ : Reads (readK r) s b ∧ tgt = b + off.signExtend 64 * 8 ∧ tgt.toNat % 8 = 0 := htgt
    rw [← word_shiftLeft_three] at *
    exact runSlot_ok (gives_bind (gives_noTransferHere hd hk) (gives_bind (gives_get s) (gives_bind hb
      (gives_bind (gives_aligned8 ha s) goes))))

end

/-! ### LOOP (R133) -/

/-- What a LOOP writes at the end of its bundle: its level's counter and start. -/
def loopBegun (level : BitVec 2) (n : Word) (i : Issue) (t : State) : State :=
  scheduled (scheduled t (.setReg fK (24 + 2 * level.toNat) (n.setWidth 2048))) (.setReg fK (25 + 2 * level.toNat) (i.next.setWidth 2048))

/-- The part of a LOOP that schedules these writes. -/
def loopWrites (level : BitVec 2) (n : Word) (i : Issue) : M Unit := do
  act (.setReg fK (24 + 2 * level.toNat) (n.setWidth 2048))
  act (.setReg fK (25 + 2 * level.toNat) (i.next.setWidth 2048))

theorem gives_loopWrites (level : BitVec 2) (n : Word) (i : Issue) (t : State) :
    Gives (loopWrites level n i) t () (loopBegun level n i t) := gives_bind (gives_act _ t) (gives_act _ _)

/-- A LOOP once its count is known. -/
def loopFrom (level : BitVec 2) (off : BitVec 30) (n : Word) : M Unit := do
  let st ← get
  if n = 0 then
    let h ← fetchCond (relTarget st.issue off)
    needLegal ((Header.ofWord h).kind == 1)
    act (.goto (afterBundle (relTarget st.issue off) h))
    loopWrites level n st.issue
  else loopWrites level n st.issue

section
variable (hd : (issuer s).delay = false) (hk : s.issue.kind ≠ 1) (level : BitVec 2) {off : BitVec 30} (ho : 0 < off.toInt)
include hd hk ho

theorem exec_loop_register {k : BitVec 5} {n : Word} (hn : Reads (readK k) s n) :
    exec (.loop level (some k) off) s = runSlot (loopFrom level off n) s :=
  runSlot_congr ((run_bind_of (gives_noTransferHere hd hk)).trans ((run_bind_of (gives_needWord (decide_eq_true ho) s)).trans
    (run_bind_of hn)))

theorem exec_loop_literal (hi : s.issue.kind ≠ 2) :
    exec (.loop level none off) s = runSlot (loopFrom level off (s.issue.imm.setWidth 64)) s :=
  runSlot_congr ((run_bind_of (gives_noTransferHere hd hk)).trans ((run_bind_of (gives_needWord (decide_eq_true ho) s)).trans
    (run_bind_of (reads_headerImm hi))))

end

section
variable (level : BitVec 2) (off : BitVec 30) {n : Word}

theorem runSlot_loopFrom (hn : n ≠ 0) : runSlot (loopFrom level off n) s = .next (loopBegun level n s.issue s) := by
  refine runSlot_ok (gives_bind (gives_get s) ?_)
  rw [if_neg hn]
  exact gives_loopWrites level n s.issue s

section
variable {h : Word} {t : State} (hf : Gives (fetchCond (relTarget s.issue off)) s h t)
include hf

/-- With count 0 the LOOP goes past its loop-end bundle. -/
theorem runSlot_loopFrom_zero (hk : (Header.ofWord h).kind = 1) : runSlot (loopFrom level off 0) s =
    .next (loopBegun level 0 s.issue (scheduled t (.goto (afterBundle (relTarget s.issue off) h)))) := by
  refine runSlot_ok (gives_bind (gives_get s) ?_)
  rw [if_pos rfl]
  exact gives_bind hf (gives_bind (gives_needLegal (beq_iff_eq.mpr hk) t) (gives_bind (gives_act _ t) (gives_loopWrites _ _ _ _)))

/-- A loop-end bundle must stand at the offset. -/
theorem runSlot_loopFrom_illegal (hk : (Header.ofWord h).kind ≠ 1) : runSlot (loopFrom level off 0) s =
    .next (stopped s (.trap false 0x01 (BitVec.ofNat 64 s.issue.word))) := by
  have legal := traps_needLegal (beq_eq_false_iff_ne.mpr hk) t
  rw [(fetchCond_keepsCtxs hf).2] at legal
  refine runSlot_trap (traps_bind_right (gives_get s) ?_)
  rw [if_pos rfl]
  exact traps_bind_right hf (traps_bind_left legal)

end
end
end

/-- Settles O31: the transfers and LOOP by the lemmas of each; END and YIELD are one action each. -/
theorem controlTransfers : Obligations.ControlTransfers := by
  unfold Obligations.ControlTransfers
  refine ⟨fun s => ⟨runSlot_ok (gives_act _ s), runSlot_ok (gives_act _ s), fun hd hk off => ?_⟩,
    fun level count off s n hd hk ho hn => ?_⟩
  · intro rel
    refine ⟨exec_br hd hk off, fun neg g hg => exec_brc hd hk neg hg off, fun r link b hb => ?_,
      fun ind link r b tgt h t htgt hin hf => exec_call hd hk htgt hin hf⟩
    intro tgt traps
    exact ⟨exec_jmp hd hk hb off, exec_ret hd hk hb,
      fun ha => ⟨exec_jmp_misaligned hd hk hb off ha, exec_call_misaligned hd hk link hb off ha⟩, exec_ret_misaligned hd hk hb⟩
  · intro begun
    have begins : exec (.loop level count off) s = runSlot (loopFrom level off n) s := by
      cases count with
      | some k => exact exec_loop_register hd hk level ho hn
      | none =>
        obtain ⟨hi, rfl⟩ := hn
        exact exec_loop_literal hd hk level ho hi
    refine ⟨fun h0 => begins.trans (runSlot_loopFrom level off h0), fun h0 h t hf => ?_⟩
    subst h0
    rw [← relTarget_eq] at hf ⊢
    exact ⟨fun h1 => begins.trans (runSlot_loopFrom_zero level off hf h1),
      fun h1 => begins.trans (runSlot_loopFrom_illegal level off hf h1)⟩

end Sys2Proof.Proofs

/-! SUPPORT. BKPT, ERET, WATCH and CRESET (R141 to R145): their traps, their end actions and the entry of a watch. -/

namespace Sys2Proof.Proofs

open Sys2Proof Machine Laws

/-! ### BKPT (R141) -/

theorem traps_condTrap (cause : BitVec 8) (tval : Word) (s : State) : Traps (condTrap cause tval : M Unit) s cause tval := rfl

theorem exec_bkpt (s : State) (code : BitVec 30) : exec (.bkpt code) s = .next (stopped s (.trap false 0x28 (code.setWidth 64))) :=
  runSlot_trap (traps_condTrap _ _ s)

/-! ### ERET (R142) -/

section
variable {s : State}

section
variable (hd : (issuer s).delay = false) (hk : s.issue.kind ≠ 1)
include hd hk

theorem exec_eret_unprivileged (hp : (issuer s).priv = false) (k : Option (BitVec 5)) :
    exec (.eret k) s = .next (stopped s (.trap false 0x02 0x31)) :=
  runSlot_trap (traps_bind_right (gives_noTransferHere hd hk) (traps_bind_right (gives_curCtx s)
    (traps_bind_left (traps_need hp _ _ s))))

section
variable (hp : (issuer s).priv = true)
include hp

theorem exec_eret : exec (.eret none) s = .next (scheduled s (.eret none)) :=
  runSlot_ok (gives_bind (gives_noTransferHere hd hk) (gives_bind (gives_curCtx s) (gives_bind (gives_need hp _ _ s) (gives_act _ s))))

theorem exec_eretTo {k : BitVec 5} {t : Word} (ht : Reads (readK k) s t) (ha : t.toNat % 8 = 0) :
    exec (.eret (some k)) s = .next (scheduled s (.eret (some t))) :=
  runSlot_ok (gives_bind (gives_noTransferHere hd hk) (gives_bind (gives_curCtx s) (gives_bind (gives_need hp _ _ s)
    (gives_bind ht (gives_bind (gives_aligned8 ha s) (gives_act _ s))))))

theorem exec_eretTo_misaligned {k : BitVec 5} {t : Word} (ht : Reads (readK k) s t) (ha : t.toNat % 8 ≠ 0) :
    exec (.eret (some k)) s = .next (stopped s (.trap false 0x03 t)) :=
  runSlot_trap (traps_bind_right (gives_noTransferHere hd hk) (traps_bind_right (gives_curCtx s)
    (traps_bind_right (gives_need hp _ _ s) (traps_bind_right ht (traps_bind_left (traps_aligned8 ha s))))))

end
end

/-! ### WATCH (R143) -/

/-- The state of an entry before a WATCH by context `c`: unarmed, armed by it, or armed by another. -/
def watchState (c : Nat) (k : Core) (entry : BitVec 3) : Nat :=
  match List.find? (fun (x : Nat × WatchEntry) => x.1 == entry.toNat) k.watch with
  | none => 0
  | some (_, e) => if e.owner = c then 1 else 2

section
variable {c : Nat} {k : Core} {entry : BitVec 3}

theorem watchState_unarmed (h : List.find? (fun (x : Nat × WatchEntry) => x.1 == entry.toNat) k.watch = none) :
    watchState c k entry = 0 := by
  rw [watchState, h]

theorem watchState_armed {m : Nat} {e : WatchEntry}
    (h : List.find? (fun (x : Nat × WatchEntry) => x.1 == entry.toNat) k.watch = some (m, e)) :
    watchState c k entry = if e.owner = c then 1 else 2 := by
  rw [watchState, h]

end

/-- `s` with an entry of the issuing context's core armed over the lines of a range, or disarmed. -/
def watched (arm shut : Bool) (entry : BitVec 3) (b n : Word) (c : Nat) (s : State) : State :=
  s.updCore (coreOf c) (fun k =>
    let lo := b.toNat / 64 * 64
    let size := (n.toNat + 63) / 64 * 64
    let e : WatchEntry :=
      { owner := c
        base := BitVec.ofNat 64 lo
        len := size
        shut := shut
        pages := watchPages s (s.view c) lo size }
    let rest := k.watch.filter (fun x => x.1 != entry.toNat)
    { k with watch := if arm then rest ++ [(entry.toNat, e)] else rest })

/-- A WATCH once its range is known. -/
def watchRange (arm shut : Bool) (dst : BitVec 5) (entry : BitVec 3) (b n : Word) (c : Nat) (k : Core) : M Unit := do
  needLegal (!arm || (n != 0 && decide (n.toNat ≤ 2 ^ 24)))
  if watchState c k entry = 2 then act (.setReg fK dst.toNat (BitVec.ofNat 2048 (watchState c k entry)))
  else
    modify (watched arm shut entry b n c)
    act (.setReg fK dst.toNat (BitVec.ofNat 2048 (watchState c k entry)))

section
variable (shut : Bool) (dst r1 r2 : BitVec 5) (entry : BitVec 3) {b n : Word}

theorem exec_watch_arm (hb : Reads (readK r1) s b) (hn : Reads (readK r2) s n) : exec (.watch true shut dst r1 r2 entry) s =
    runSlot (watchRange true shut dst entry b n s.issue.ctx (s.core (coreOf s.issue.ctx))) s :=
  runSlot_congr ((run_bind_of (gives_get s)).trans ((run_bind_of (m := curCore) (t := s) rfl).trans ((run_bind_of hb).trans (run_bind_of hn))))

theorem exec_watch_disarm : exec (.watch false shut dst r1 r2 entry) s =
    runSlot (watchRange false shut dst entry 0 0 s.issue.ctx (s.core (coreOf s.issue.ctx))) s := rfl

end

section
variable {arm : Bool} (shut : Bool) (dst : BitVec 5) {entry : BitVec 3} {b n : Word} (c : Nat) {k : Core}
  (hn : arm = true → n ≠ 0 ∧ n.toNat ≤ 2 ^ 24)
include hn

theorem gives_watchLegal : Gives (needLegal (!arm || (n != 0 && decide (n.toNat ≤ 2 ^ 24)))) s () s := by
  refine gives_needLegal ?_ s
  cases arm with
  | false => rfl
  | true =>
    obtain ⟨h0, h1⟩ := hn rfl
    rw [bne_iff_ne.mpr h0, decide_eq_true h1]
    rfl

/-- An entry that another context has armed stays as it is. -/
theorem runSlot_watchRange_other (h : watchState c k entry = 2) : runSlot (watchRange arm shut dst entry b n c k) s =
    .next (scheduled s (.setReg fK dst.toNat (BitVec.ofNat 2048 2))) := by
  refine runSlot_ok (gives_bind (gives_watchLegal hn) ?_)
  rw [h, if_pos rfl]
  exact gives_act _ s

theorem runSlot_watchRange {v : Nat} (h : watchState c k entry = v) (hv : v ≠ 2) : runSlot (watchRange arm shut dst entry b n c k) s =
    .next (scheduled (watched arm shut entry b n c s) (.setReg fK dst.toNat (BitVec.ofNat 2048 v))) := by
  refine runSlot_ok (gives_bind (gives_watchLegal hn) ?_)
  rw [h, if_neg hv]
  exact gives_bind (gives_modify _ s) (gives_act _ _)

end

/-! ### CRESET (R145) -/

theorem exec_creset_unprivileged (r1 r2 : BitVec 5) (hp : (issuer s).priv = false) :
    exec (.creset r1 r2) s = .next (stopped s (.trap false 0x02 0x35)) :=
  runSlot_trap (traps_bind_right (gives_curCtx s) (traps_bind_left (traps_need hp _ _ s)))

section
variable {r1 r2 : BitVec 5} {k a : Word} (hp : (issuer s).priv = true) (hk : Reads (readK r1) s k) (ha : Reads (readK r2) s a)
  (hal : k.toNat % 4 = 0) (hlt : k.toNat < 4096) (hv : coreValid (k.toNat / 4) = true)

section
include hal hlt hv

theorem gives_resetTarget : Gives (needLegal (k.toNat % 4 == 0 && decide (k.toNat < 4096) && coreValid (k.toNat / 4))) s () s := by
  refine gives_needLegal ?_ s
  rw [beq_iff_eq.mpr hal, decide_eq_true hlt, hv]
  rfl

end

theorem gives_resetCounter {pa : Nat} {t : State} (ht : translateCounter s (s.view s.issue.ctx) a .counterAdd = .ok (pa, t)) :
    Gives (resetCounter a) s () t := by
  refine gives_bind (gives_get s) ?_
  dsimp only
  rw [ht]
  exact gives_set t s

/-- A counter operand in no counter-capable page is an illegal encoding. -/
theorem traps_resetCounter {tv : Word} (ht : translateCounter s (s.view s.issue.ctx) a .counterAdd = .error (0x05, tv))
    (hc : countable (confirmWalk s (s.view s.issue.ctx) 0x05 a.toNat) (s.view s.issue.ctx) a.toNat = false) :
    Traps (resetCounter a) s 0x01 (BitVec.ofNat 64 s.issue.word) := by
  refine traps_bind_right (gives_get s) ?_
  dsimp only
  rw [ht]
  dsimp only
  rw [hc]
  exact traps_bind_right (gives_get s) rfl

include hp hk ha hal hlt hv

theorem exec_creset {pa : Nat} {t : State} (ht : translateCounter s (s.view s.issue.ctx) a .counterAdd = .ok (pa, t)) :
    exec (.creset r1 r2) s = .next { t with resets := t.resets ++ [
      { core := k.toNat / 4
        ctx := t.issue.ctx
        tid := (issuer s).tid
        seq := t.issue.order
        region := (issuer s).region
        ctrVa := a }] } :=
  runSlot_ok (gives_bind (gives_curCtx s) (gives_bind (gives_need hp _ _ s) (gives_bind hk (gives_bind ha
    (gives_bind (gives_resetTarget hal hlt hv) (gives_bind (gives_resetCounter ht) (gives_bind (gives_get t) (gives_set _ t))))))))

theorem exec_creset_illegal {tv : Word} (ht : translateCounter s (s.view s.issue.ctx) a .counterAdd = .error (0x05, tv))
    (hc : countable (confirmWalk s (s.view s.issue.ctx) 0x05 a.toNat) (s.view s.issue.ctx) a.toNat = false) :
    exec (.creset r1 r2) s = .next (stopped s (.trap false 0x01 (BitVec.ofNat 64 s.issue.word))) :=
  runSlot_trap (traps_bind_right (gives_curCtx s) (traps_bind_right (gives_need hp _ _ s) (traps_bind_right hk (traps_bind_right ha
    (traps_bind_right (gives_resetTarget hal hlt hv) (traps_bind_left (traps_resetCounter ht hc)))))))

end
end

/-- Settles O44: each form by its lemmas; a WATCH by the state of its entry before. -/
theorem trapForms : Obligations.TrapForms := by
  unfold Obligations.TrapForms
  refine ⟨fun s => ⟨fun code => ⟨exec_bkpt s code, runSlot_ok (gives_act _ s)⟩, fun tag => runSlot_ok (gives_act _ s), fun hd hk =>
    ⟨exec_eret_unprivileged hd hk, fun hp => ⟨exec_eret hd hk hp, fun k t ht =>
      ⟨exec_eretTo hd hk hp ht, exec_eretTo_misaligned hd hk hp ht⟩⟩⟩⟩, fun arm shut dst r1 r2 entry s b n hr => ?_, fun r1 r2 s =>
    ⟨exec_creset_unprivileged r1 r2, fun hp k a pa t hk ha hal hlt hv =>
      ⟨exec_creset hp hk ha hal hlt hv, fun tv => exec_creset_illegal hp hk ha hal hlt hv⟩⟩⟩
  intro c old lo size e gives put
  have run : exec (.watch arm shut dst r1 r2 entry) s =
      runSlot (watchRange arm shut dst entry b n c (s.core (coreOf c))) s := by
    cases arm with
    | true => exact exec_watch_arm shut dst r1 r2 entry hr.1 hr.2.1
    | false =>
      obtain ⟨rfl, rfl⟩ := hr
      exact exec_watch_disarm shut dst r1 r2 entry
  have legal : arm = true → n ≠ 0 ∧ n.toNat ≤ 2 ^ 24 := by
    rintro rfl
    exact hr.2.2
  exact ⟨fun ho => run.trans (runSlot_watchRange shut dst c legal (watchState_unarmed ho) (by decide)),
    fun m x ho hx => run.trans (runSlot_watchRange shut dst c legal ((watchState_armed ho).trans (if_pos hx)) (by decide)),
    fun m x ho hx => run.trans (runSlot_watchRange_other shut dst c legal ((watchState_armed ho).trans (if_neg hx)))⟩

end Sys2Proof.Proofs

/-! SUPPORT. A state outside the canonical form, in which a draw uncovers enabled flags (R38, R41). -/

namespace Sys2Proof.Proofs

open Sys2Proof Machine Laws

/-! ### A draw that uncovers another entry -/

/-- Context 0 listed twice: first with its stream one block below position 0 and all else as at reset, then with every flag enabled.
A draw of one block drops the first entry, and reads find the second. -/
def listedTwiceEnabled : State :=
  { State.reset with ctxs := [(0, { rctr := -1 }), (0, { mode := 0x3F0 })] }

theorem issuer_drawn_listedTwiceEnabled : issuer (drawn listedTwiceEnabled 1) = { mode := 0x3F0 } := by
  have h : Map.upd {} listedTwiceEnabled.ctxs 0 (fun x => { x with rctr := x.rctr + BitVec.ofNat 128 1 }) = [(0, { mode := 0x3F0 })] := by
    have e : (Map.get {} listedTwiceEnabled.ctxs 0).rctr + BitVec.ofNat 128 1 = 0 := by decide
    rw [Map.upd, Map.set, e]
    rfl
  exact congrArg (fun l => Map.get {} l 0) h

theorem enables_listedTwiceEnabled : (issuer listedTwiceEnabled).enables = 0 := by decide

theorem not_gives_mergeFlags {s t : State} {fl : Nat} (h : Nat.land fl (issuer s).enables ≠ 0) : ¬ Gives (mergeFlags fl) s () t := by
  intro hm
  unfold mergeFlags at hm
  obtain ⟨x, u, hx, hm⟩ := gives_bind_inv hm
  cases hx
  rw [if_pos (bne_iff_ne.mpr h)] at hm
  cases hm

/-- After the draw the invalid flag is an enabled one. -/
theorem not_gives_mergeFlags_drawn (t : State) : ¬ Gives (mergeFlags 1) (drawn listedTwiceEnabled 1) () t := by
  apply not_gives_mergeFlags
  rw [issuer_drawn_listedTwiceEnabled]
  decide

/-- FADD on BF16 of a signalling NaN and zero. -/
def addSignalling : SBin := ⟨.s0, false, false, false, false, 0, .lit 0x7FA0, .lit 0⟩

/-- FCVT of a signalling NaN of FP32. -/
def convertSignalling : SUn := ⟨.s0, false, false, false, 0, .lit 0x3BFFFFF⟩

/-- Refutes O6: the statement does not ask for a canonical state (R38, R41). In `listedTwiceEnabled` no flag is enabled, so an
FADD that rounds to BF16 must land; but it draws first, and the flags that its merge finds are then those of the second entry,
which enable the trap of the invalid flag that a signalling NaN raises. No state that a run reaches lists a context twice. -/
theorem not_scalarRounded : ¬ Obligations.ScalarRounded := by
  unfold Obligations.ScalarRounded
  rintro ⟨hbin, -⟩
  obtain ⟨hadd, -⟩ := hbin .bf16 addSignalling listedTwiceEnabled _ _ (gives_pure _ _) (gives_pure _ _)
  have h := hadd (by rw [enables_listedTwiceEnabled]; exact Nat.and_zero _)
  unfold exec execFadd fpBin at h
  have hg := gives_of_ran h (by rw [landed_issue, flagged_issue]; rfl)
  obtain ⟨a, t, ha, hg⟩ := gives_bind_inv hg
  cases ha
  obtain ⟨b, t, hb, hg⟩ := gives_bind_inv hg
  cases hb
  obtain ⟨x, t, hx, hg⟩ := gives_bind_inv hg
  cases hx
  unfold landF at hg
  obtain ⟨x, t, hx, hg⟩ := gives_bind_inv hg
  cases hx
  obtain ⟨u, t, hu, hg⟩ := gives_bind_inv hg
  cases hu
  obtain ⟨_, t, hm, -⟩ := gives_bind_inv hg
  exact not_gives_mergeFlags_drawn t hm

/-- Refutes O7 by its clause on FCVT, which like O6 does not ask for a canonical state: a conversion from FP32 to BF16 draws, and
in `listedTwiceEnabled` the signalling NaN's invalid flag, which was not enabled, then traps. -/
theorem not_scalarFpOthers : ¬ Obligations.ScalarFpOthers := by
  unfold Obligations.ScalarFpOthers
  rintro ⟨⟨-, hcvt⟩, -⟩
  have h := hcvt .fp32 .bf16 convertSignalling listedTwiceEnabled _ (gives_pure _ _)
    (by rw [enables_listedTwiceEnabled]; exact Nat.and_zero _)
  unfold exec execFcvt at h
  have hg := gives_of_ran h (by rw [landed_issue, flagged_issue]; rfl)
  obtain ⟨a, t, ha, hg⟩ := gives_bind_inv hg
  cases ha
  obtain ⟨x, t, hx, hg⟩ := gives_bind_inv hg
  cases hx
  obtain ⟨u, t, hu, hg⟩ := gives_bind_inv hg
  cases hu
  obtain ⟨_, t, hm, -⟩ := gives_bind_inv hg
  exact not_gives_mergeFlags_drawn t hm

end Sys2Proof.Proofs

/-! SUPPORT. TRAP and BKPT (R141): what the trap that a region's handler serves leaves of its context, and how a TRAP's bundle ends. -/

namespace Sys2Proof.Proofs

open Sys2Proof Machine Laws

/-! ### A trap that a handler of the region serves -/

section
variable {s : State} {c : Nat} {cause : BitVec 8} {tval epc : Word}

/-- A trap of no translation's cause is taken without a walk (R305). -/
theorem confirmWalk_of_ne (v : View) (va : Nat) (h : cause ≠ 0x04 ∧ cause ≠ 0x05 ∧ cause ≠ 0x06) : confirmWalk s v cause va = s := by
  obtain ⟨h4, h5, h6⟩ := h
  rw [confirmWalk, beq_eq_false_iff_ne.mpr h4, beq_eq_false_iff_ne.mpr h5, beq_eq_false_iff_ne.mpr h6]
  rfl

/-- What a slot that traps for no translation's cause leaves in contexts and memory is what the trap leaves there. -/
theorem stopped_trap_of_ne (enc : Bool) (h : cause ≠ 0x04 ∧ cause ≠ 0x05 ∧ cause ≠ 0x06) :
    let t := stopped s (.trap enc cause tval)
    let u := takeTrap s s.issue.ctx cause tval s.issue.addr
    t.ctx c = u.ctx c ∧ t.mem = u.mem := by
  unfold stopped State.ctx
  dsimp only
  rw [confirmWalk_of_ne _ _ h]
  exact ⟨rfl, rfl⟩

section
variable (hw : Map.wf {} s.ctxs = true) (hs : s.shutter.causes = []) (ht : (s.ctx c).isTrapHandler = false)
  (he : (s.ctx c).region.trapEntry ≠ 0)
include hw hs ht he

theorem takeTrap_eq : takeTrap s c cause tval epc = startTrapHandler (frozenAt s c cause tval epc) c :=
  takeTrap_handled (by rw [hs]; rfl) (by rw [frozenAt_ctx hw]; exact ht) (by rw [frozenAt_ctx hw]; exact he)

/-- The trapped context freezes, whether or not its handler can start (R105, R107). -/
theorem takeTrap_ctx : (takeTrap s c cause tval epc).ctx c =
    { s.ctx c with run := .frozen, cause := cause.setWidth 64, tval := tval, epc := epc, pc := epc, wait := none } := by
  have frozen := frozenAt_ctx (c := c) (cause := cause) (tval := tval) (epc := epc) hw
  have live : ((frozenAt s c cause tval epc).ctx c).run ≠ .dormant := by
    rw [frozen]
    exact nofun
  rw [takeTrap_eq hw hs ht he]
  exact ((startTrapHandler_keepsLive (h := c + 1) _ c (frozenAt_wf hw)).2 c (Nat.succ_ne_self c).symm live).trans frozen

end

/-- A core without images in its register offer has none to move. -/
theorem moveImages_of_no_offer {k : Nat} (ho : ∀ v ∈ s.saved, ∀ bs, v.place ≠ .offer k false bs) : moveImages s k false = some s := by
  unfold moveImages
  rw [List.filter_eq_nil_iff.mpr]
  · rfl
  · intro v hv
    have hp := ho v hv
    cases h : v.place with
    | offer j r bs =>
      intro hjr
      rw [Bool.and_eq_true, beq_iff_eq, beq_iff_eq] at hjr
      obtain ⟨rfl, rfl⟩ := hjr
      exact hp bs h
    | memory => exact nofun

/-- There room is made by nothing but the bank itself (R292). -/
theorem roomFor_of_no_offer {t : State} {k bank : Nat} (ho : ∀ v ∈ s.saved, ∀ bs, v.place ≠ .offer k false bs)
    (h : roomFor s k bank = some t) : t = s := by
  rw [roomFor, moveImages_of_no_offer ho] at h
  split at h
  · exact (Option.some.inj h).symm
  · split at h
    · exact (Option.some.inj h).symm
    · cases h

theorem takeTrap_mem (hw : Map.wf {} s.ctxs = true) (hc : Map.wf {} s.cores = true) (hs : s.shutter.causes = [])
    (ht : (s.ctx c).isTrapHandler = false) (he : (s.ctx c).region.trapEntry ≠ 0)
    (ho : ∀ v ∈ s.saved, ∀ bs, v.place ≠ .offer (coreOf c) false bs) : (takeTrap s c cause tval epc).mem = s.mem := by
  obtain ⟨frame, -, -⟩ := frozenAt_waitsMoved hc c cause tval epc
  have mem : (frozenAt s c cause tval epc).mem = s.mem := by rw [frame]
  have saved : (frozenAt s c cause tval epc).saved = s.saved := by rw [frame]
  rw [takeTrap_eq hw hs ht he]
  rcases startTrapHandler_cases (frozenAt s c cause tval epc) c with h | ⟨d, t, -, hr, h⟩
  · rw [h, mem]
  · rw [h, roomFor_of_no_offer (by rw [saved]; exact ho) hr]
    exact mem

end

/-! ### The end of a bundle leaves the task of its context -/

/-- From `x` to `y` the task and its region are the same. -/
def SameTask (x y : Ctx) : Prop := y.task = x.task ∧ y.region = x.region

theorem SameTask.refl (x : Ctx) : SameTask x x := ⟨rfl, rfl⟩

theorem SameTask.trans {x y z : Ctx} (h : SameTask x y) (k : SameTask y z) : SameTask x z := ⟨k.1.trans h.1, k.2.trans h.2⟩

theorem SameTask.isTrapHandler {x y : Ctx} (h : SameTask x y) : y.isTrapHandler = x.isTrapHandler := by
  rw [Ctx.isTrapHandler, Ctx.isTrapHandler, h.1]

theorem sameTask_foldl {α : Type} {f : Ctx → α → Ctx} (hf : ∀ x a, SameTask x (f x a)) (l : List α) (x : Ctx) :
    SameTask x (l.foldl f x) := by
  induction l generalizing x with
  | nil => exact SameTask.refl x
  | cons a l ih => exact (hf x a).trans (ih (f x a))

theorem sameTask_writeReg (x : Ctx) (seq file idx : Nat) (v : VecReg) (bad : Bool) (tag : Option (BitVec 8 × Word)) (var : Bool) :
    SameTask x (x.writeReg seq file idx v bad tag var) := by
  by_cases h : x.superseded seq file idx var = true
  · rw [writeReg_of_superseded v bad tag var h]
    exact SameTask.refl x
  · rw [writeReg_of_not_superseded v bad tag var h, putReg_frame]
    exact ⟨rfl, rfl⟩

theorem sameTask_tick (x : Ctx) (cur : Nat) : SameTask x (x.tick cur) :=
  SameTask.trans (y := { x.countDown cur with landing := (x.countDown cur).landing.filter (fun l => l.count != 0) }) ⟨rfl, rfl⟩
    (sameTask_foldl (fun x (l : Landing) => sameTask_writeReg x l.seq l.file l.idx l.val l.err l.tag false) _ _)

theorem sameTask_applyAct (i : Issue) (x : Ctx) (a : EndAct) : SameTask x (x.applyAct i a) := by
  cases a with
  | setReg | setPred => exact sameTask_writeReg _ _ _ _ _ _ _ _
  | _ => exact ⟨rfl, rfl⟩

theorem sameTask_advance (x x0 : Ctx) (i : Issue) : SameTask x (x.advance x0 i) := by
  unfold Ctx.advance
  dsimp only
  split <;> exact ⟨rfl, rfl⟩

theorem sameTask_finish (x x0 : Ctx) (i : Issue) (clock : Nat) : SameTask x (x.finish x0 i clock) := by
  unfold Ctx.finish
  extract_lets x1 x2 x3 x4 x5
  have landed : SameTask x x1 := sameTask_tick x _
  have popped : SameTask x1 x2 := sameTask_foldl (f := fun x q => x.updHead q Head.popped) (fun _ _ => ⟨rfl, rfl⟩) _ _
  have looped : SameTask x2 x3 := by
    show SameTask x2 (match loopBack x0 i.kind with | some (l, n, _) => _ | none => x2)
    split
    · exact sameTask_writeReg _ _ _ _ _ _ _ _
    · exact SameTask.refl _
  have acted : SameTask x3 x4 := sameTask_foldl (sameTask_applyAct i) _ _
  exact ((((landed.trans popped).trans looped).trans acted).trans (sameTask_advance x4 x0 i)).trans ⟨rfl, rfl⟩

/-! ### TRAP at the end of its bundle (R141) -/

/-- The yields of other contexts end, and theirs alone. -/
theorem ctx_foldl_unyield (l : List Nat) {s : State} {c : Nat} (hc : c ∉ l) (hw : Map.wf {} s.ctxs = true) :
    let t := l.foldl (fun s d => s.updCtx d (fun x => { x with yielded := none })) s
    Map.wf {} t.ctxs = true ∧ t.ctx c = s.ctx c ∧ t.shutter = s.shutter := by
  induction l generalizing s with
  | nil => exact ⟨hw, rfl, rfl⟩
  | cons d l ih =>
    rw [List.mem_cons, not_or] at hc
    obtain ⟨hcd, hcl⟩ := hc
    obtain ⟨w, k, e⟩ := ih (s := s.updCtx d (fun x => { x with yielded := none })) hcl (State.wf_updCtx s d _ hw)
    exact ⟨w, k.trans (State.ctx_updCtx_of_ne s d c _ hw hcd), e⟩

/-- A bundle whose one scheduled action is that of a TRAP ends as any bundle does, and then its context freezes. -/
theorem endBundle_trapAfter {s : State} {x0 : Ctx} {code : Word} (hw : Map.wf {} s.ctxs = true) (hs : s.shutter.causes = [])
    (ht : (issuer s).isTrapHandler = false) (he : (issuer s).region.trapEntry ≠ 0) (ha : s.issue.acts = [.trapAfter code]) :
    let y := (issuer s).finish x0 s.issue s.clock
    (endBundle s x0).ctx s.issue.ctx =
      { y with run := .frozen, cause := 0x29, tval := code, epc := y.pc, wait := none } := by
  intro y
  have task : SameTask (issuer s) y := sameTask_finish _ _ _ _
  unfold endBundle
  extract_lets i s1 s2 others s3
  have now : s2.ctx i.ctx = y := State.ctx_updCtx_self s1 i.ctx _ hw
  have away : i.ctx ∉ others := by
    intro h
    have := (List.mem_filter.mp h).2
    simp at this
  obtain ⟨w, same, shut⟩ := ctx_foldl_unyield others away (State.wf_updCtx s1 i.ctx (fun x => x.finish x0 i s1.clock) hw)
  have same : s3.ctx i.ctx = y := same.trans now
  have trap : afterActs s3 i.ctx i.acts = takeTrap s3 i.ctx 0x29 code (s3.ctx i.ctx).pc := by
    rw [ha]
    rfl
  have frozen := takeTrap_ctx (c := i.ctx) (cause := 0x29) (tval := code) (epc := (s3.ctx i.ctx).pc) w
    (show s3.shutter.causes = [] by rw [shut]; exact hs) (by rw [same, task.isTrapHandler]; exact ht)
    (by rw [same, task.2]; exact he)
  show (afterActs s3 i.ctx i.acts).ctx i.ctx = _
  rw [trap, frozen, same]
  rfl

/-- Settles O54: BKPT's trap is taken at once, and TRAP's when the bundle has ended; what is trapped freezes with its registers and heads. -/
theorem trapAndBreakpoint : Obligations.TrapAndBreakpoint := by
  unfold Obligations.TrapAndBreakpoint
  intro s code hcan c _ he ht hs ho
  obtain ⟨-, hctx, hcores, -⟩ := hcan
  refine ⟨?_, ⟨_, runSlot_ok (gives_act (.trapAfter (code.setWidth 64)) s), fun ha x0 => ?_⟩⟩
  · have frozen := takeTrap_ctx (cause := 0x28) (tval := code.setWidth 64) (epc := s.issue.addr) hctx hs ht he
    have mem := takeTrap_mem (cause := 0x28) (tval := code.setWidth 64) (epc := s.issue.addr) hctx hcores hs ht he ho
    obtain ⟨context, memory⟩ := stopped_trap_of_ne (s := s) (c := c) (cause := 0x28) (tval := code.setWidth 64) false (by decide)
    refine ⟨_, exec_bkpt s code, ?_⟩
    rw [context, frozen]
    exact ⟨rfl, rfl, rfl, rfl, fun _ _ => rfl, rfl, rfl, memory.trans mem⟩
  · intro y t
    have frozen := endBundle_trapAfter (s := scheduled s (.trapAfter (code.setWidth 64))) (x0 := x0) hctx hs ht he (by
      show s.issue.acts ++ _ = _
      rw [ha]
      rfl)
    have frozen : t.ctx c = { y with run := .frozen, cause := 0x29, tval := code.setWidth 64, epc := y.pc, wait := none } := frozen
    rw [frozen]
    exact ⟨rfl, rfl, rfl, rfl, rfl, rfl, fun _ => rfl, fun _ _ => rfl⟩

end Sys2Proof.Proofs

/-! SUPPORT. The results of the vector forms (R148 to R150, R156): the lanes and bits of what lists of lanes make, and what the shared
landing operations leave, once for each. -/

namespace Sys2Proof.Proofs

open Sys2Proof Machine Laws

/-! ### Lanes -/

/-- A lane of a register made of a list of lanes, those past its end included. -/
theorem laneAt_ofLanes_at0 {w : Nat} {l : List Nat} (hl : w * l.length ≤ 2048) (i : Nat) :
    laneAt w (ofLanes w l) i = at0 l i % 2 ^ w := by
  by_cases hi : i < l.length
  · rw [laneAt_ofLanes hl hi, at0, List.getElem?_eq_getElem hi, Option.getD_some]
  · have small : (ofLanes w l).toNat < 2 ^ (w * i) := calc
      (ofLanes w l).toNat ≤ packLanes w l := (BitVec.toNat_ofNat _ _).le.trans (Nat.mod_le _ _)
      _ < 2 ^ (w * l.length) := packLanes_lt w l
      _ ≤ 2 ^ (w * i) := Nat.pow_le_pow_right (by norm_num) (Nat.mul_le_mul_left w (not_lt.mp hi))
    rw [laneAt, Nat.div_eq_of_lt small, at0, List.getElem?_eq_none (not_lt.mp hi), Option.getD_none]

/-- A lane is the number of its bits. -/
theorem toNat_ofNat_laneAt (w : Nat) (v : VecReg) (i : Nat) : (BitVec.ofNat w (laneAt w v i)).toNat = laneAt w v i := by
  rw [BitVec.toNat_ofNat, Nat.mod_eq_of_lt (laneAt_lt w v i)]

/-- The bits of a mask made bit by bit are 0 past its lanes. -/
theorem getLsbD_ofNat_packLanes {n i : Nat} (g : Nat → Bool) (hi : i < 256) :
    (BitVec.ofNat 256 (packLanes 1 ((List.range n).map (fun i => b2n (g i))))).getLsbD i = (decide (i < n) && g i) := by
  rw [BitVec.getLsbD_ofNat, decide_eq_true hi, Bool.true_and]
  by_cases hn : i < n
  · have digit := packLanes_digit 1 ((List.range n).map (fun i => b2n (g i))) i (by simpa using hn)
    rw [Nat.one_mul, List.getElem_map, List.getElem_range] at digit
    rw [Nat.testBit_eq_decide_div_mod_eq, show ∀ x : Nat, x % 2 = x % 2 ^ 1 from fun _ => rfl, digit, decide_eq_true hn]
    cases g i <;> rfl
  · have small : packLanes 1 ((List.range n).map (fun i => b2n (g i))) < 2 ^ i :=
      (packLanes_lt 1 _).trans_le (Nat.pow_le_pow_right (by norm_num) (by simpa using hn))
    rw [Nat.testBit_lt_two_pow small, decide_eq_false hn, Bool.false_and]

/-! ### Flags -/

theorem orAll_map_zero {α : Type} (l : List α) : orAll (l.map (fun _ => 0)) = 0 := by
  rw [orAll, List.map_const']
  induction l with
  | nil => rfl
  | cons a l ih => exact ih

/-- Flags of a bounded number of bits are together no wider. -/
theorem orAll_lt {k : Nat} {l : List Nat} (h : ∀ x ∈ l, x < 2 ^ k) : orAll l < 2 ^ k := by
  have fold : ∀ (l : List Nat) (acc : Nat), acc < 2 ^ k → (∀ x ∈ l, x < 2 ^ k) → l.foldl Nat.lor acc < 2 ^ k := by
    intro l
    induction l with
    | nil => exact fun acc ha _ => ha
    | cons x l ih =>
      exact fun acc ha h => ih _ (Nat.or_lt_two_pow ha (h x List.mem_cons_self)) (fun y hy => h y (List.mem_cons_of_mem x hy))
  exact fold l 0 (by positivity) h

/-- Merging flags of the 64-bit register changes nothing else of the issuing context, in a canonical state or not: an entry with a flag
is never the default, so it stays listed. -/
theorem issuer_flagged (s : State) {fl : Nat} (h : fl < 2 ^ 64) :
    issuer (flagged s fl) = { issuer s with fflags := (issuer s).fflags ||| BitVec.ofNat 64 fl } := by
  by_cases h0 : fl = 0
  · subst h0
    rw [flagged, if_pos rfl]
    simp
  · have listed : ({ issuer s with fflags := (issuer s).fflags ||| BitVec.ofNat 64 fl } : Ctx) ≠ {} := by
      intro e
      have zero : BitVec.ofNat 64 fl = 0#64 := (BitVec.or_eq_zero_iff.mp (congrArg Ctx.fflags e)).2
      have := congrArg BitVec.toNat zero
      rw [BitVec.toNat_ofNat, Nat.mod_eq_of_lt h] at this
      exact h0 this
    rw [issuer, flagged_issue, flagged, if_neg h0]
    show Map.get {} (Map.set {} s.ctxs s.issue.ctx { issuer s with fflags := (issuer s).fflags ||| BitVec.ofNat 64 fl }) _ = _
    rw [Map.set, if_neg listed, Map.get_put_self]

/-! ### Reads after a merge of flags -/

theorem reads_reg_iff {s : State} {file idx : Nat} {v : VecReg} :
    Reads (readReg file idx) s v ↔ (issuer s).regError file idx = none ∧ (issuer s).reg file idx = v := by
  constructor
  · intro h
    cases he : (issuer s).regError file idx with
    | none => cases h.symm.trans (reads_reg he); exact ⟨rfl, rfl⟩
    | some e => cases (gives_run h).symm.trans (traps_reg (c := e.1) (t := e.2) he)
  · rintro ⟨he, rfl⟩
    exact reads_reg he

section
variable {s : State} {fl : Nat} (hf : fl < 2 ^ 64)
include hf

theorem reads_reg_flagged {file idx : Nat} {v : VecReg} (h : Reads (readReg file idx) s v) : Reads (readReg file idx) (flagged s fl) v := by
  rw [reads_reg_iff, issuer_flagged s hf]
  exact reads_reg_iff.mp h

theorem reads_vecIndex_flagged {i : Nat} (h : Reads (vecIndex i) s ()) : Reads (vecIndex i) (flagged s fl) () := by
  apply gives_vecIndex
  rw [issuer_flagged s hf]
  exact lt_vregs_of_gives h

end

/-! ### Parts of a form that read -/

/-- A form goes on from what its first part reads. -/
theorem runSlot_bind {α : Type} {m : M α} {f : α → M Unit} {s : State} {v : α} (h : Reads m s v) :
    runSlot (m >>= f) s = runSlot (f v) s := runSlot_congr (run_bind_of h)

theorem readSelector_of_isSome {m : Option (BitVec 3)} (h : m.isSome = true) (slot : VSlot) :
    readSelector slot m = readActive slot m := by
  cases m with
  | none => cases h
  | some i => rfl

/-- Without a mask every lane is active. -/
theorem active_of_unmasked {slot : VSlot} {s : State} {active : Nat → Bool} (h : Reads (readActive slot none) s active) :
    active = fun _ => true := by
  cases h
  rfl

theorem reads_old {slot : VSlot} {m : Option (BitVec 3)} {dst : BitVec 10} {s : State} {active : Nat → Bool} {old : VecReg}
    (h : VDest slot m dst s active old) : Reads (readOld slot m dst) s () := by
  obtain ⟨-, hi, ho⟩ := h
  refine gives_bind hi ?_
  cases m with
  | none => exact gives_pure _ s
  | some i => exact gives_bind (ho rfl) (gives_pure _ s)

/-! ### Landings -/

theorem vLands_congr {slot : VSlot} {w n lat : Nat} {dst : BitVec 10} {s : State} {f g : Nat → Nat}
    {out : Host.Outcome State Fault Refusal} (h : VLands slot w n dst lat s f out) (hfg : ∀ i < n, f i = g i) :
    VLands slot w n dst lat s g out := by
  obtain ⟨v, hv, hl⟩ := h
  exact ⟨v, hv, fun i hi => (hl i hi).trans (hfg i hi)⟩

/-- A whole register lands at a destination that can be named. -/
theorem vLands_landV {slot : VSlot} {dst : BitVec 10} {s : State} (h : Reads (vecIndex dst.toNat) s ()) (w n : Nat) (v : VecReg)
    (lat : Nat) : VLands slot w n dst lat s (laneAt w v) (runSlot (landV slot dst v lat) s) :=
  ⟨v, runSlot_ok (gives_bind h (gives_landAt _ _ _ _ _)), fun _ _ => rfl⟩

theorem vLands_landV_map {slot : VSlot} {dst : BitVec 10} {s : State} (h : Reads (vecIndex dst.toNat) s ()) {w n : Nat}
    (hw : w * n ≤ 2048) (g : Nat → Nat) (lat : Nat) : VLands slot w n dst lat s (fun i => g i % 2 ^ w)
      (runSlot (landV slot dst (ofLanes w ((List.range n).map g)) lat) s) :=
  vLands_congr (vLands_landV h w n _ lat) (fun _ hi => laneAt_ofLanes_map g hw hi)

theorem vLands_landV_splat {slot : VSlot} {dst : BitVec 10} {s : State} (h : Reads (vecIndex dst.toNat) s ()) (w x lat : Nat) :
    VLands slot w (2048 / w) dst lat s (fun _ => x % 2 ^ w) (runSlot (landV slot dst (splat w x) lat) s) :=
  vLands_congr (vLands_landV h w _ _ lat) (fun _ hi => laneAt_splat hi)

theorem zipIdx_map_range (n : Nat) (g : Nat → Nat) (k : Nat → Nat → Nat) :
    (((List.range n).map g).zipIdx.map (fun (x, i) => k i x)) = (List.range n).map (fun i => k i (g i)) :=
  List.ext_getElem (by simp) (by simp)

/-- Lanes under a write mask (R148): the active ones land, the others keep what the destination held. -/
theorem gives_landLanes {slot : VSlot} {m : Option (BitVec 3)} {dst : BitVec 10} {s : State} {active : Nat → Bool} {old : VecReg}
    (hall : m = none → active = fun _ => true) (hi : Reads (vecIndex dst.toNat) s ())
    (ho : m.isSome = true → Reads (readReg (VSlot.file slot) dst.toNat) s old) {w n : Nat} (hw : w * n ≤ 2048) (g : Nat → Nat)
    (lat : Nat) :
    ∃ v, Gives (landLanes slot w m active dst ((List.range n).map g) lat) s () (landed s (VSlot.file slot) dst.toNat v lat) ∧
      ∀ i < n, laneAt w v i = if active i then g i % 2 ^ w else laneAt w old i := by
  cases m with
  | none =>
    refine ⟨_, gives_bind hi (gives_landAt _ _ _ _ _), fun i hin => ?_⟩
    rw [hall rfl, laneAt_ofLanes_map g hw hin, if_pos rfl]
  | some j =>
    refine ⟨_, gives_bind hi (gives_bind (ho rfl) (gives_landAt _ _ _ _ _)), fun i hin => ?_⟩
    rw [zipIdx_map_range n g (fun i x => if active i then x else laneAt w old i), laneAt_ofLanes_map _ hw hin]
    split
    · rfl
    · exact Nat.mod_eq_of_lt (laneAt_lt w old i)

section
variable {slot : VSlot} {ty : ElemTy} {m : Option (BitVec 3)} {dst : BitVec 10} {s : State} {active : Nat → Bool} {old : VecReg}
  (hd : VDest slot m dst s active old)
include hd

/-- A result per lane with its flags, which are flags of the architecture. -/
theorem vFlags_landVX {r : Nat → Nat × Nat} (hr : ∀ i, (r i).2 < 2 ^ 64) (lat : Nat) :
    VFlags slot ty dst lat s active old r (runSlot (landVX slot ty m dst lat r) s) := by
  unfold VFlags
  intro fl hen
  have bound : fl < 2 ^ 64 := orAll_lt (fun x hx => by
    obtain ⟨i, -, rfl⟩ := List.mem_map.mp hx
    split
    · exact hr i
    · positivity)
  have ⟨ha, hi, ho⟩ := hd
  obtain ⟨v, hv, hl⟩ := gives_landLanes (fun e => active_of_unmasked (e ▸ ha)) (reads_vecIndex_flagged bound hi)
    (fun e => reads_reg_flagged bound (ho e)) (width_mul_lanes ty).le (Prod.fst ∘ fun i => if active i then r i else (0, 0)) lat
  have merged : Gives (mergeFlags (orAll (((List.range ty.lanes).map (fun i => if active i then r i else (0, 0))).map (·.2)))) s ()
      (flagged s fl) := by
    rw [List.map_map, List.map_congr_left (g := fun i => if active i then (r i).2 else 0)
      (fun i _ => by cases hi : active i <;> simp [hi])]
    exact gives_mergeFlags hen
  rw [← List.map_map] at hv
  exact ⟨v, runSlot_ok (gives_bind ha (gives_bind (reads_old hd) (gives_bind merged hv))), fun i hin => by
    rw [hl i hin]
    cases hi : active i <;> simp [hi]⟩

/-- A result per lane without flags. -/
theorem vLands_landVX (g : Nat → Nat) (lat : Nat) : VLands slot ty.width ty.lanes dst lat s
    (fun i => if active i then g i % 2 ^ ty.width else laneAt ty.width old i)
    (runSlot (landVX slot ty m dst lat (fun i => (g i, 0))) s) := by
  have h := vFlags_landVX (ty := ty) hd (r := fun i => (g i, 0)) (fun _ => by positivity) lat
  unfold VFlags at h
  simp only [ite_self, orAll_map_zero] at h
  exact h (Nat.zero_and _)

end

end Sys2Proof.Proofs

/-! SUPPORT. The integer and logic forms of the V slots (R29, R153, R154): exact results narrowed, and lane bits as bit vectors. -/

namespace Sys2Proof.Proofs

open Sys2Proof Machine Laws

/-! ### Lanes as numbers, and exact results narrowed -/

theorem laneInt_laneAt (ty : ElemTy) (v : VecReg) (i : Nat) : laneInt ty (laneAt ty.width v i) = laneNum ty v i := laneInt_eq ty _

theorem intBits_eq (ty : ElemTy) (r : Int) : intBits ty r = (BitVec.ofInt ty.width r).toNat := (BitVec.toNat_ofInt r).symm

theorem intBits_mod (ty : ElemTy) (r : Int) : intBits ty r % 2 ^ ty.width = intBits ty r := by
  rw [intBits_eq]
  exact Nat.mod_eq_of_lt (BitVec.isLt _)

theorem clampInt_eq {lo hi : Int} (h : lo ≤ hi) (x : Int) : clampInt lo hi x = (max lo (min hi x), decide (x < lo ∨ hi < x)) := by
  unfold clampInt
  split
  · next hl => rw [min_eq_right (by omega), max_eq_left hl.le, decide_eq_true (.inl hl)]
  · next hl =>
    split
    · next hh => rw [min_eq_left hh.le, max_eq_right h, decide_eq_true (.inr hh)]
    · next hh => rw [min_eq_right (by omega), max_eq_right (by omega), decide_eq_false (by omega)]

theorem intRange_eq (w : Nat) (signed : Bool) :
    intRange w signed = (if signed then -(2 ^ (w - 1)) else 0, if signed then 2 ^ (w - 1) - 1 else 2 ^ w - 1) := by
  cases signed <;> simp [intRange]

theorem intRange_le (w : Nat) (signed : Bool) : (intRange w signed).1 ≤ (intRange w signed).2 := by
  have h : (0 : Int) < 2 ^ (w - 1) := by positivity
  have h' : (0 : Int) < 2 ^ w := by positivity
  rw [intRange_eq]
  cases signed with
  | true => exact Int.le_sub_one_of_lt (by omega)
  | false => exact Int.le_sub_one_of_lt h'

theorem viNarrow_wrap (ty : ElemTy) (r : Int) : viNarrow ty .wrap r = ((BitVec.ofInt ty.width r).toNat, 0) := by
  rw [← intBits_eq]
  rfl

theorem viNarrow_hi (ty : ElemTy) (r : Int) : viNarrow ty .hi r = ((BitVec.ofInt ty.width (r / 2 ^ ty.width)).toNat, 0) := by
  rw [← intBits_eq, ← Nat.cast_ofNat, ← Nat.cast_pow]
  rfl

theorem viNarrow_sat (ty : ElemTy) (r : Int) :
    viNarrow ty .sat r =
      let lo := (intRange ty.width ty.signed).1
      let hi := (intRange ty.width ty.signed).2
      ((BitVec.ofInt ty.width (max lo (min hi r))).toNat, if r < lo ∨ hi < r then fSaturate else 0) := by
  rw [viNarrow]
  dsimp only
  rw [clampInt_eq (intRange_le ty.width ty.signed), intBits_eq]
  simp only [decide_eq_true_eq]

theorem viNarrow_flags_lt (ty : ElemTy) (m : VIMode) (r : Int) : (viNarrow ty m r).2 < 2 ^ 64 := by
  cases m with
  | wrap | hi => exact Nat.two_pow_pos 64
  | sat =>
    rw [viNarrow_sat]
    dsimp only
    split <;> decide

/-! ### The forms -/

section
variable {f : VBin} {s : State} {a b old : VecReg} {active : Nat → Bool} (ha : Reads (readV f.slot f.ty f.a) s a)
  (hb : Reads (readV f.slot f.ty f.b) s b) (hd : VDest f.slot f.mask f.dst s active old)
include ha hb hd

/-- An integer form acts on the numbers of its active lanes. -/
theorem vFlags_viBin {op : Int → Int → Nat × Nat} (h : ∀ x y, (op x y).2 < 2 ^ 64) :
    VFlags f.slot f.ty f.dst 2 s active old (fun i => op (laneNum f.ty a i) (laneNum f.ty b i)) (runSlot (viBin f op) s) := by
  unfold viBin
  rw [runSlot_bind ha, runSlot_bind hb]
  simp only [laneInt_laneAt]
  exact vFlags_landVX hd (fun i => h _ _) 2

/-- A logic or shift form acts on the bits of its active lanes. -/
theorem vLands_vlBin {op : Nat → Nat → Nat} {g : BitVec f.ty.width → BitVec f.ty.width → BitVec f.ty.width}
    (h : ∀ x y : BitVec f.ty.width, BitVec.ofNat f.ty.width (op x.toNat y.toNat) = g x y) :
    VLands f.slot f.ty.width f.ty.lanes f.dst 2 s (fun i => if active i then
      (g (BitVec.ofNat f.ty.width (laneAt f.ty.width a i)) (BitVec.ofNat f.ty.width (laneAt f.ty.width b i))).toNat
        else laneAt f.ty.width old i) (runSlot (vlBin f op) s) := by
  unfold vlBin
  rw [runSlot_bind ha, runSlot_bind hb]
  refine vLands_congr (vLands_landVX hd (fun i => op (laneAt f.ty.width a i) (laneAt f.ty.width b i)) 2) (fun i _ => ?_)
  rw [← h, BitVec.toNat_ofNat, toNat_ofNat_laneAt, toNat_ofNat_laneAt]

end

/-! ### Lane bits -/

section
variable {n : Nat} (x y : BitVec n)

theorem ofNat_land : BitVec.ofNat n (Nat.land x.toNat y.toNat) = x &&& y :=
  BitVec.ofNat_and.trans (by rw [BitVec.ofNat_toNat, BitVec.ofNat_toNat, BitVec.setWidth_eq, BitVec.setWidth_eq])

theorem ofNat_lor : BitVec.ofNat n (Nat.lor x.toNat y.toNat) = x ||| y :=
  BitVec.ofNat_or.trans (by rw [BitVec.ofNat_toNat, BitVec.ofNat_toNat, BitVec.setWidth_eq, BitVec.setWidth_eq])

theorem ofNat_xor : BitVec.ofNat n (Nat.xor x.toNat y.toNat) = x ^^^ y :=
  BitVec.ofNat_xor.trans (by rw [BitVec.ofNat_toNat, BitVec.ofNat_toNat, BitVec.setWidth_eq, BitVec.setWidth_eq])

theorem ofNat_shl (k : Nat) : BitVec.ofNat n (x.toNat * 2 ^ k % 2 ^ n) = x <<< k := by
  rw [← ofNat_toNat_shiftLeft]
  exact BitVec.eq_of_toNat_eq (by rw [BitVec.toNat_ofNat, BitVec.toNat_ofNat, Nat.mod_mod])

/-- The shift that copies the top bit divides the number, rounding down, and wraps. -/
theorem ofNat_sar (h : 0 < n) (k : Nat) : BitVec.ofNat n (wrapInt n (sextNat n x.toNat / (2 ^ k : Nat))) = x.sshiftRight k := by
  rw [wrapInt, ← BitVec.toNat_ofInt, BitVec.ofNat_toNat, BitVec.setWidth_eq, ← toInt_ofNat_eq_sextNat h, BitVec.ofNat_toNat,
    BitVec.setWidth_eq, ofInt_toInt_div]

end

/-- Settles O11: exact results are narrowed to their lanes by the mode, and the bits of lanes are bit vectors of the type's width. -/
theorem vectorInteger : Obligations.VectorInteger := by
  unfold Obligations.VectorInteger
  refine ⟨?numbers, fun f s a b old active ha hb hd => ?bits⟩
  case numbers =>
    intro narrow
    have narrows : ∀ (ty : ElemTy) (m : VIMode) (r : Int), narrow ty m r = viNarrow ty m r := by
      intro ty m r
      cases m with
      | wrap => exact (viNarrow_wrap ty r).symm
      | sat => rw [viNarrow_sat, intRange_eq]
      | hi => exact (viNarrow_hi ty r).symm
    simp only [narrows]
    refine ⟨fun f s a b old active _ ha hb hd => ?_, fun m f s a b c old active _ ha hb hc hd => ?_⟩
    · have lands {op : Int → Int → Nat × Nat} (h : ∀ x y, (op x y).2 < 2 ^ 64) := vFlags_viBin ha hb hd h
      exact ⟨fun m => ⟨lands (fun _ _ => viNarrow_flags_lt _ _ _), lands (fun _ _ => viNarrow_flags_lt _ _ _),
        lands (fun _ _ => viNarrow_flags_lt _ _ _)⟩,
        lands (op := fun x y => viNarrow f.ty .wrap (min x y)) (fun _ _ => Nat.two_pow_pos 64),
        lands (op := fun x y => viNarrow f.ty .wrap (max x y)) (fun _ _ => Nat.two_pow_pos 64)⟩
    · show VFlags _ _ _ _ _ _ _ _ (runSlot _ s)
      rw [runSlot_bind ha, runSlot_bind hb, runSlot_bind hc]
      simp only [laneInt_laneAt]
      exact vFlags_landVX hd (fun i => viNarrow_flags_lt _ _ _) 2
  case bits =>
    have lands {op : Nat → Nat → Nat} {g : BitVec f.ty.width → BitVec f.ty.width → BitVec f.ty.width}
      (h : ∀ x y : BitVec f.ty.width, BitVec.ofNat f.ty.width (op x.toNat y.toNat) = g x y) := vLands_vlBin ha hb hd h
    exact ⟨lands ofNat_land, lands ofNat_lor, lands ofNat_xor,
      lands (g := fun x y => x <<< (y.toNat % f.ty.width)) (fun x y => ofNat_shl x _),
      lands (g := fun x y => x >>> (y.toNat % f.ty.width)) (fun x y => ofNat_toNat_shiftRight x _),
      lands (g := fun x y => x.sshiftRight (y.toNat % f.ty.width)) (fun x y => ofNat_sar x (width_pos f.ty) _)⟩

end Sys2Proof.Proofs

/-! SUPPORT. Compares, selection, masks and search (R156 to R158, R163). -/

namespace Sys2Proof.Proofs

open Sys2Proof Machine Laws

theorem lanes_le (ty : ElemTy) : ty.lanes ≤ 256 := by cases ty <;> decide

/-! ### Masks -/

/-- A mask lands whose bits are known. -/
theorem mLands_landMask (slot : VSlot) (dst : Nat) (s : State) {m : MaskReg} {bit : Nat → Bool} (h : ∀ i < 256, m.getLsbD i = bit i) :
    MLands slot dst s bit (runSlot (landMask slot dst m) s) :=
  ⟨m, runSlot_ok (gives_landAt _ _ _ _ _), h⟩

theorem getLsbD_maskOf (g : Nat → Bool) {i : Nat} (hi : i < 256) : (maskOf g).getLsbD i = g i := by
  rw [maskOf, getLsbD_ofNat_packLanes g hi, decide_eq_true hi, Bool.true_and]

theorem bitAt_top_eq {w x : Nat} (hw : 0 < w) (hx : x < 2 ^ w) : bitAt x (w - 1) = decide (2 ^ (w - 1) ≤ x) := by
  have double := two_mul_two_pow_pred hw
  unfold bitAt
  by_cases h : 2 ^ (w - 1) ≤ x
  · rw [show x / 2 ^ (w - 1) = 1 from Nat.div_eq_of_lt_le (by omega) (by omega), decide_eq_true h]
    rfl
  · rw [Nat.div_eq_of_lt (not_le.mp h), decide_eq_false h]
    rfl

section
variable {slot : VSlot} {i j : BitVec 3} {s : State} {x y : MaskReg} (hx : Reads (readMask slot i) s x) (dst : BitVec 3)
include hx

/-- VMASK's forms of two masks act bit by bit. -/
theorem mLands_two (hy : Reads (readMask slot j) s y) (g : MaskReg → MaskReg → MaskReg) {bit : Nat → Bool}
    (h : ∀ l < 256, (g x y).getLsbD l = bit l) : MLands slot dst.toNat s bit
      (runSlot (do
        let x ← readMask slot i
        let y ← readMask slot j
        landMask slot dst.toNat (g x y)) s) := by
  rw [runSlot_bind hx, runSlot_bind hy]
  exact mLands_landMask slot _ s h

theorem exec_vmask_not : MLands slot dst.toNat s (fun l => !x.getLsbD l) (exec (.vmask (.not i) slot dst) s) := by
  show MLands _ _ _ _ (runSlot _ s)
  rw [runSlot_bind hx]
  exact mLands_landMask slot _ s (fun l hl => by simp [hl])

end

section
variable {slot : VSlot} {ty : ElemTy} {a : VOpnd} {v : VecReg} {s : State} (dst : BitVec 3)

theorem exec_vmask_first (ha : Reads (readV slot .fp32 a) s v) :
    MLands slot dst.toNat s (fun l => decide (l < laneAt 32 v 0)) (exec (.vmask (.first a) slot dst) s) := by
  show MLands _ _ _ _ (runSlot _ s)
  rw [runSlot_bind ha]
  refine mLands_landMask slot _ s (fun l hl => ?_)
  rw [getLsbD_maskOf _ hl]
  exact decide_eq_decide.mpr ⟨fun h => (lt_min_iff.mp h).1, fun h => lt_min h hl⟩

variable (ha : Reads (readV slot ty a) s v)
include ha

theorem exec_vmask_nz : MLands slot dst.toNat s (fun l => decide (l < ty.lanes) && decide ((if ty.isF then
      laneAt ty.width v l % 2 ^ (ty.width - 1) else laneAt ty.width v l) ≠ 0)) (exec (.vmask (.nz ty a) slot dst) s) := by
  show MLands _ _ _ _ (runSlot _ s)
  rw [runSlot_bind ha]
  refine mLands_landMask slot _ s (fun l hl => ?_)
  rw [getLsbD_maskOf _ hl]
  have zero : ∀ n : Nat, (!(n == 0)) = decide (n ≠ 0) := fun n => by rw [decide_not, beq_eq_decide]
  cases ty.isF <;> simp only [if_true, if_false, Bool.false_eq_true, zero]

theorem exec_vmask_neg : MLands slot dst.toNat s (fun l => decide (l < ty.lanes) && decide (2 ^ (ty.width - 1) ≤ laneAt ty.width v l))
    (exec (.vmask (.neg ty a) slot dst) s) := by
  show MLands _ _ _ _ (runSlot _ s)
  rw [runSlot_bind ha]
  refine mLands_landMask slot _ s (fun l hl => ?_)
  rw [getLsbD_maskOf _ hl, bitAt_top_eq (width_pos ty) (laneAt_lt _ v l)]

end

/-! ### Compares, selection and search -/

/-- The first place of a range where a condition holds, or its length. -/
theorem find?_range_getD {n k : Nat} {p : Nat → Bool} (hk : ((List.range n).find? p).getD n = k) :
    k ≤ n ∧ (k < n → p k = true) ∧ ∀ i < k, p i = false := by
  cases h : (List.range n).find? p with
  | none =>
    rw [h, Option.getD_none] at hk
    subst hk
    exact ⟨le_rfl, fun hn => absurd hn (lt_irrefl n), fun i hi => by simpa using List.find?_eq_none.mp h i (List.mem_range.mpr hi)⟩
  | some i =>
    rw [h, Option.getD_some] at hk
    subst hk
    obtain ⟨hp, hm, hlow⟩ := List.find?_range_eq_some.mp h
    exact ⟨(List.mem_range.mp hm).le, fun _ => hp, fun j hj => by simpa using hlow j hj⟩

/-- A condition per lane with its flags, once the bits that inactive lanes keep are known. -/
theorem gives_compared (slot : VSlot) (d n : Nat) {s : State} (active : Nat → Bool) (r : Nat → Bool × Nat) (old : MaskReg) {fl : Nat}
    (hfl : orAll ((List.range n).map (fun i => if active i then (r i).2 else 0)) = fl) (hen : Nat.land fl (issuer s).enables = 0) :
    ∃ m : MaskReg, Gives (do
        let out := (List.range n).map (fun i => if active i then r i else (old.getLsbD i, 0))
        mergeFlags (orAll (out.map (·.2)))
        landMask slot d (BitVec.ofNat 256 (packLanes 1 (out.map (fun r => b2n r.1))))) s ()
        (landed (flagged s fl) (VSlot.maskFile slot) d (m.setWidth 2048) 2) ∧
      ∀ i < 256, m.getLsbD i = (decide (i < n) && if active i then (r i).1 else old.getLsbD i) := by
  have merged : Gives (mergeFlags (orAll (((List.range n).map (fun i => if active i then r i else (old.getLsbD i, 0))).map (·.2)))) s ()
      (flagged s fl) := by
    rw [List.map_map, List.map_congr_left (g := fun i => if active i then (r i).2 else 0)
      (fun i _ => by cases h : active i <;> simp [h]), hfl]
    exact gives_mergeFlags hen
  refine ⟨_, gives_bind merged (gives_landAt _ _ _ _ _), fun i hi => ?_⟩
  rw [List.map_map]
  refine (getLsbD_ofNat_packLanes (fun i => (if active i then r i else (old.getLsbD i, 0)).1) hi).trans ?_
  cases active i <;> rfl

section
variable {f : VBin} {s : State} {a b : VecReg} (ha : Reads (readV f.slot f.ty f.a) s a) (hb : Reads (readV f.slot f.ty f.b) s b)
include ha hb

/-- VCMP: the condition in the active lanes, the old bit in the others, nothing above the lanes. -/
theorem exec_vcmp (c : FCond) {active : Nat → Bool} {old : MaskReg} (hact : Reads (readActive f.slot f.mask) s active)
    (hold : f.mask.isSome = true → Reads (readMask f.slot (BitVec.ofNat 3 (f.dst.toNat % 8))) s old) :
    let r i := vCond (issuer s) f.ty c (laneAt f.ty.width a i) (laneAt f.ty.width b i)
    let fl := orAll ((List.range f.ty.lanes).map (fun i => if active i then (r i).2 else 0))
    Nat.land fl (issuer s).enables = 0 → MLands f.slot (f.dst.toNat % 8) (flagged s fl)
      (fun i => decide (i < f.ty.lanes) && if active i then (r i).1 else old.getLsbD i) (exec (.vcmp c f) s) := by
  intro r fl hen
  have compared (k : MaskReg) := gives_compared f.slot (f.dst.toNat % 8) f.ty.lanes active r k rfl hen
  show MLands _ _ _ _ (runSlot _ s)
  rw [runSlot_bind ha, runSlot_bind hb, runSlot_bind (gives_curCtx s), runSlot_bind hact]
  dsimp only
  cases hm : f.mask with
  | none =>
    have every : active = fun _ => true := active_of_unmasked (by rw [← hm]; exact hact)
    obtain ⟨m, hg, hbits⟩ := compared 0
    exact ⟨m, runSlot_ok (gives_bind (gives_pure _ s) hg), fun i hi => by rw [hbits i hi, every]; rfl⟩
  | some j =>
    obtain ⟨m, hg, hbits⟩ := compared old
    exact ⟨m, runSlot_ok (gives_bind (hold (by rw [hm]; rfl)) hg), hbits⟩

/-- VSEL: every lane from one operand or the other. -/
theorem exec_vsel {on : Nat → Bool} (hon : Reads (readSelector f.slot f.mask) s on) (hi : Reads (vecIndex f.dst.toNat) s ()) :
    VLands f.slot f.ty.width f.ty.lanes f.dst 2 s (fun i => if on i then laneAt f.ty.width a i else laneAt f.ty.width b i)
      (exec (.vsel f) s) := by
  show VLands _ _ _ _ _ _ _ (runSlot _ s)
  rw [runSlot_bind ha, runSlot_bind hb, runSlot_bind hon]
  refine vLands_congr (vLands_landV_map hi (width_mul_lanes f.ty).le _ 2) (fun i _ => ?_)
  rw [Nat.mod_eq_of_lt (laneAt_lt _ _ _)]
  split <;> rfl

/-- The search's own condition as one of VCMP's. -/
def findCond : VFindCond → FCond | .gt => .gt | .ge => .ge | .eq => .eq | .ne => .ne

/-- VFIND: the lowest lane that is searched and satisfies the condition, or the lane count, in every 32-bit element. -/
theorem exec_vfind (c : VFindCond) {active : Nat → Bool} (hact : Reads (readActive f.slot f.mask) s active)
    (hi : Reads (vecIndex f.dst.toNat) s ()) :
    let hit i := active i && (vCond (issuer s) f.ty (findCond c) (laneAt f.ty.width a i) (laneAt f.ty.width b i)).1
    VLands f.slot 32 64 f.dst 6 s (fun _ => ((List.range f.ty.lanes).find? hit).getD f.ty.lanes) (exec (.vfind c f) s) := by
  intro hit
  have form : exec (.vfind c f) s = runSlot (do
      let a ← readV f.slot f.ty f.a
      let b ← readV f.slot f.ty f.b
      let x ← curCtx
      let active ← readActive f.slot f.mask
      let hit := fun i => active i && (vCond x f.ty (findCond c) (laneAt f.ty.width a i) (laneAt f.ty.width b i)).1
      landV f.slot f.dst (splat 32 (((List.range f.ty.lanes).find? hit).getD f.ty.lanes)) 6) s := by cases c <;> rfl
  rw [form, runSlot_bind ha, runSlot_bind hb, runSlot_bind (gives_curCtx s), runSlot_bind hact]
  refine vLands_congr (vLands_landV_splat hi 32 _ 6) (fun _ _ => Nat.mod_eq_of_lt ?_)
  have := lanes_le f.ty
  exact (find?_range_getD rfl).1.trans_lt (by omega)
end

/-- Settles O12: a compare keeps the bits that it masks off, masks act bit by bit, and a search stops at the first lane that it hits. -/
theorem vectorMasks : Obligations.VectorMasks := by
  unfold Obligations.VectorMasks
  refine ⟨⟨fun c f s a b active old ha hb hact hold => exec_vcmp ha hb c hact hold, fun f s a b on ha hb hon hi => exec_vsel ha hb hon hi,
    fun slot dst i j s x y hx hy => ?masks,
    fun slot dst ty a v s => ⟨exec_vmask_first dst, fun ha => ⟨exec_vmask_nz dst ha, exec_vmask_neg dst ha⟩⟩⟩,
    fun c f s a b active ha hb hact hi => ?find⟩
  case masks =>
    have two := mLands_two hx dst hy
    exact ⟨two (· &&& ·) (fun _ _ => BitVec.getLsbD_and), two (· ||| ·) (fun _ _ => BitVec.getLsbD_or),
      two (· ^^^ ·) (fun _ _ => BitVec.getLsbD_xor), two (fun x y => x &&& ~~~y) (fun l hl => by simp [hl]), exec_vmask_not hx dst⟩
  case find =>
    intro cc hit
    have hc : cc = findCond c := by cases c <;> rfl
    obtain ⟨hle, hlast, hbefore⟩ := find?_range_getD (n := f.ty.lanes) (p := hit) rfl
    have lands := exec_vfind ha hb c hact hi
    rw [← hc] at lands
    exact ⟨_, hle, hlast, hbefore, lands⟩

end Sys2Proof.Proofs

/-! SUPPORT. Counts and movements of lanes, and copies to other files (R159, R160, R173, R174). -/

namespace Sys2Proof.Proofs

open Sys2Proof Machine Laws

theorem countBelow_eq (on : Nat → Bool) (n : Nat) : countBelow on n = (List.range n).countP on := List.countP_eq_length_filter.symm

/-- A lane as a scalar register takes it (R173). -/
theorem laneWord_eq (ty : ElemTy) {x : Nat} (h : x < 2 ^ ty.width) :
    laneWord ty x = if ty.signed then (BitVec.ofNat ty.width x).signExtend 64 else BitVec.ofNat 64 x := extElem_eq ty h

/-! ### Counts -/

section
variable {f : VNul} {s : State} {on : Nat → Bool} (hon : Reads (readSelector f.slot f.mask) s on) (hi : Reads (vecIndex f.dst.toNat) s ())
include hon hi

theorem exec_vcnt : VLands f.slot f.ty.width f.ty.lanes f.dst 2 s (fun _ => (List.range f.ty.lanes).countP on % 2 ^ f.ty.width)
    (exec (.vcnt f) s) := by
  show VLands _ _ _ _ _ _ _ (runSlot _ s)
  rw [runSlot_bind hon, countBelow_eq, lanes_eq f.ty]
  exact vLands_landV_splat hi _ _ 2

theorem exec_viota : VLands f.slot f.ty.width f.ty.lanes f.dst 2 s (fun i => (List.range i).countP on % 2 ^ f.ty.width)
    (exec (.viota f) s) := by
  show VLands _ _ _ _ _ _ _ (runSlot _ s)
  rw [runSlot_bind hon]
  exact vLands_congr (vLands_landV_map hi (width_mul_lanes f.ty).le _ 2) (fun i _ => by rw [countBelow_eq])

end

/-! ### Movements -/

/-- Lanes that are moved need no cut to their width. -/
theorem ite_mod_eq {w : Nat} {x y : Nat} (p : Bool) (hx : x < 2 ^ w) : (if p then x % 2 ^ w else y) = if p then x else y := by
  rw [Nat.mod_eq_of_lt hx]

section
variable {f : VBin} {s : State} {a b old : VecReg} {active : Nat → Bool} (ha : Reads (readV f.slot f.ty f.a) s a)
  (hb : Reads (readV f.slot f.ty f.b) s b) (hd : VDest f.slot f.mask f.dst s active old)
include ha hb hd

theorem exec_vperm : VLands f.slot f.ty.width f.ty.lanes f.dst 3 s (fun i => if active i then
      laneAt f.ty.width a (laneAt f.ty.width b i % f.ty.lanes) else laneAt f.ty.width old i) (exec (.vperm f) s) := by
  show VLands _ _ _ _ _ _ _ (runSlot _ s)
  rw [runSlot_bind ha, runSlot_bind hb]
  exact vLands_congr (vLands_landVX hd _ 3) (fun i _ => ite_mod_eq _ (laneAt_lt _ _ _))

theorem exec_vslide (j : BitVec 8) : VLands f.slot f.ty.width f.ty.lanes f.dst 3 s (fun i => if active i then
      (if i + j.toNat < f.ty.lanes then laneAt f.ty.width a (i + j.toNat) else laneAt f.ty.width b (i + j.toNat - f.ty.lanes))
        else laneAt f.ty.width old i) (exec (.vslide j f) s) := by
  show VLands _ _ _ _ _ _ _ (runSlot _ s)
  rw [runSlot_bind ha, runSlot_bind hb]
  refine vLands_congr (vLands_landVX hd _ 3) (fun i _ => ite_mod_eq _ ?_)
  split
  · exact laneAt_lt _ _ _
  · exact laneAt_lt _ _ _

end

section
variable {f : VUn} {s : State} {a old : VecReg} {active : Nat → Bool} (ha : Reads (readV f.slot f.ty f.a) s a)
  (hd : VDest f.slot f.mask f.dst s active old)
include ha hd

theorem exec_vbcast (j : BitVec 8) : VLands f.slot f.ty.width f.ty.lanes f.dst 3 s
    (fun i => if active i then laneAt f.ty.width a j.toNat else laneAt f.ty.width old i) (exec (.vbcast j f) s) := by
  show VLands _ _ _ _ _ _ _ (runSlot _ s)
  rw [runSlot_bind ha]
  exact vLands_congr (vLands_landVX hd _ 3) (fun i _ => ite_mod_eq _ (laneAt_lt _ _ _))

/-- VCOMP: lane i takes the i-th selected lane, and zero once there is none. -/
theorem exec_vcomp (hm : f.mask.isSome = true) : VLands f.slot f.ty.width f.ty.lanes f.dst 4 s
    (fun i => match ((List.range f.ty.lanes).filter active)[i]? with | some l => laneAt f.ty.width a l | none => 0)
    (exec (.vcomp f) s) := by
  obtain ⟨hact, hi, -⟩ := hd
  show VLands _ _ _ _ _ _ _ (runSlot _ s)
  rw [runSlot_bind ha, runSlot_bind (readSelector_of_isSome hm f.slot ▸ hact)]
  have fits : f.ty.width * (((List.range f.ty.lanes).filter active).map (laneAt f.ty.width a)).length ≤ 2048 := by
    rw [← width_mul_lanes f.ty, List.length_map]
    exact Nat.mul_le_mul_left _ ((List.length_filter_le _ _).trans List.length_range.le)
  refine vLands_congr (vLands_landV hi _ _ _ 4) (fun i _ => ?_)
  rw [laneAt_ofLanes_at0 fits, at0, List.getElem?_map]
  cases ((List.range f.ty.lanes).filter active)[i]? with
  | none => exact Nat.zero_mod _
  | some l => exact Nat.mod_eq_of_lt (laneAt_lt _ _ _)

/-- VEXPD: an active lane takes the lane of A whose number is the count of active lanes below it. -/
theorem exec_vexpd (hm : f.mask.isSome = true) : VLands f.slot f.ty.width f.ty.lanes f.dst 4 s
    (fun i => if active i then laneAt f.ty.width a ((List.range i).countP active) else laneAt f.ty.width old i)
    (exec (.vexpd f) s) := by
  obtain ⟨hact, hi, ho⟩ := hd
  show VLands _ _ _ _ _ _ _ (runSlot _ s)
  rw [runSlot_bind ha, runSlot_bind (readSelector_of_isSome hm f.slot ▸ hact)]
  obtain ⟨v, hv, hl⟩ := gives_landLanes (fun e => active_of_unmasked (e ▸ hact)) hi ho (width_mul_lanes f.ty).le
    (fun i => laneAt f.ty.width a (countBelow active i)) 4
  refine ⟨v, runSlot_ok hv, fun i hin => ?_⟩
  rw [hl i hin, ite_mod_eq _ (laneAt_lt _ _ _), countBelow_eq]

/-- VINS: one lane is replaced. -/
theorem exec_vins (j : BitVec 8) {d : VecReg} (hr : Reads (readReg (VSlot.file f.slot) f.dst.toNat) s d) :
    VLands f.slot f.ty.width f.ty.lanes f.dst 2 s (fun i => if i = j.toNat then laneAt f.ty.width a 0 else laneAt f.ty.width d i)
      (exec (.vins j f) s) := by
  obtain ⟨-, hi, -⟩ := hd
  show VLands _ _ _ _ _ _ _ (runSlot _ s)
  rw [runSlot_bind ha, runSlot_bind hi, runSlot_bind hr]
  refine vLands_congr (vLands_landV hi _ _ _ 2) (fun i hin => ?_)
  have len : ((lanesOf f.ty d).set j.toNat (laneAt f.ty.width a 0)).length = f.ty.lanes := by simp [lanesOf, toLanes]
  rw [laneAt_ofLanes (by rw [len]; exact (width_mul_lanes f.ty).le) (len ▸ hin), List.getElem_set]
  split
  · next h => rw [if_pos h.symm, Nat.mod_eq_of_lt (laneAt_lt _ _ _)]
  · next h =>
    rw [if_neg (Ne.symm h), ← Nat.mod_eq_of_lt (laneAt_lt f.ty.width d i)]
    simp [lanesOf, toLanes]

end

/-- VXFER: a register to the other vector file, or a lane to a scalar file. -/
theorem exec_vxfer (j : BitVec 8) {f : VUn} {s : State} {a : VecReg} (ha : Reads (readV f.slot f.ty f.a) s a) :
    let v := laneWord f.ty (laneAt f.ty.width a j.toNat)
    (Reads (vecIndex f.dst.toNat) s () → exec (.vxfer .other j f) s = .next (landed s (VSlot.other f.slot) f.dst.toNat a 3)) ∧
    exec (.vxfer .a j f) s = .next (landed64 s fA f.dst.toNat v 3) ∧ exec (.vxfer .b j f) s = .next (landed64 s fB f.dst.toNat v 3) ∧
    exec (.vxfer .p j f) s = .next (landed64 s fP f.dst.toNat v 3) ∧ exec (.vxfer .k j f) s = .next (landed64 s fK f.dst.toNat v 3) := by
  have scalar {m : VecReg → M Unit} {file : Nat} {w : VecReg} (h : m a = landAt file f.dst.toNat w 3) :
      runSlot (readV f.slot f.ty f.a >>= m) s = .next (landed s file f.dst.toNat w 3) :=
    runSlot_ok (gives_bind ha (h ▸ gives_landAt _ _ _ _ s))
  exact ⟨fun hi => runSlot_ok (gives_bind ha (gives_bind hi (gives_landAt _ _ _ _ _))), scalar rfl, scalar rfl, scalar rfl, scalar rfl⟩

/-- Settles O13: counts are counts of the selector's lanes, movements pick lanes of their sources, and a copy lands in the other file. -/
theorem vectorMoves : Obligations.VectorMoves := by
  unfold Obligations.VectorMoves
  refine ⟨⟨fun f s on hon hi => ⟨exec_vcnt hon hi, exec_viota hon hi⟩,
    fun f s a b old active ha hb hd => ⟨exec_vperm ha hb hd, fun j _ => exec_vslide ha hb hd j⟩,
    fun f s a old active ha hd => ⟨exec_vbcast ha hd, fun hm => ⟨exec_vcomp ha hd hm, exec_vexpd ha hd hm⟩,
      fun j d hr => exec_vins ha hd j hr⟩⟩, fun j f s a ha => ?copies⟩
  intro x v
  have hv : v = laneWord f.ty x := (laneWord_eq f.ty (laneAt_lt _ _ _)).symm
  rw [hv]
  obtain ⟨other, scalars⟩ := exec_vxfer j ha
  exact ⟨fun hi => (other hi).trans (by cases f.slot <;> rfl), scalars⟩

end Sys2Proof.Proofs

/-! SUPPORT. A rounded form outside the canonical form (R38, R151), and VQUANT.scale of a signalling NaN (R28, R166). -/

namespace Sys2Proof.Proofs

open Sys2Proof Machine Laws

/-- What gives a result goes on from what its first part reads. -/
theorem gives_of_bind_reads {α β : Type} {m : M α} {f : α → M β} {s u : State} {v : α} {w : β} (hm : Gives m s v s)
    (h : Gives (m >>= f) s w u) : Gives (f v) s w u := (run_bind_of hm).symm.trans h

/-! ### A rounded form in a state that lists its context twice -/

/-- The second entry enables no flag either. -/
theorem enables_drawn_listedTwice (n : Nat) : (issuer (drawn (listedTwice n) n)).enables = 0 := by
  have uncovered : Map.upd {} (listedTwice n).ctxs 0 (fun x => { x with rctr := x.rctr + BitVec.ofNat 128 n }) = [(0, { vregs := 0 })] := by
    have e : (Map.get {} (listedTwice n).ctxs 0).rctr + BitVec.ofNat 128 n = 0 := BitVec.add_left_neg _
    rw [Map.upd, Map.set, e]
    rfl
  refine (congrArg (fun l => (Map.get {} l 0).enables) uncovered).trans ?_
  show bitsAt (0#64).toNat 4 6 = 0
  decide

/-- Outside compat mode a narrow result is drawn for (R38). -/
theorem drawsFor_narrow {x : Ctx} (h : x.compat = false) (mode : RMode) : drawsFor x mode true = true := by
  rw [drawsFor, h]
  exact Bool.or_true _

/-- A form that rounds to BF16 draws before it names its destination. -/
theorem not_gives_landVF_listedTwice (slot : VSlot) (rnd : VRnd) (dst : BitVec 10) (lat : Nat) (r : RMode → Nat → FRes) (t : State) :
    ¬ Gives (landVF slot .bf16 none rnd dst lat r) (listedTwice 32) () t := by
  intro h
  unfold landVF at h
  replace h := gives_of_bind_reads (gives_curCtx _) h
  replace h := gives_of_bind_reads (gives_pure _ _) h
  obtain ⟨word, u, hu, h⟩ := gives_bind_inv h
  rw [show (fmtD .bf16).narrow = true from rfl, drawIf, drawsFor_narrow (compat_listedTwice 32), if_pos rfl] at hu
  cases hu
  obtain ⟨_, u, ho, -⟩ := gives_bind_inv h
  exact not_gives_readOld_drawn 32 _ _ _ _ ho

/-- Refutes O9: like the statements on VRAND and VRED it does not ask for a canonical state. VADD on BF16 draws 32 blocks, and with
context 0 listed twice the draw uncovers the second entry, whose sys.vregs is 0, so that its destination is an illegal one. No state
that a run reaches lists a context twice. -/
theorem not_vectorRounded : ¬ Obligations.VectorRounded := by
  unfold Obligations.VectorRounded
  rintro ⟨⟨hbin, -⟩, -⟩
  obtain ⟨s, hs⟩ : ∃ s, s = listedTwice 32 := ⟨_, rfl⟩
  have ha := reads_imm (s := s) (by rw [hs]; decide) .v0 .bf16
  obtain ⟨hadd, -⟩ := hbin ⟨.v0, .bf16, none, 0, .imm, .imm, .ctx⟩ s _ _ 0 (fun _ => true) rfl ha ha (hs ▸ vDest_listedTwice 32)
  have draws : (vMode (issuer s) .ctx == .sr || (ElemTy.bf16 != .fp32 && !(issuer s).compat)) = true :=
    drawsFor_narrow (hs ▸ compat_listedTwice 32) _
  unfold VRounds VFlags at hadd
  dsimp only at hadd
  rw [if_pos draws] at hadd
  obtain ⟨v, hv, -⟩ := hadd (by
    rw [show (issuer (drawn s (ElemTy.bf16.lanes / 4))).enables = 0 from hs ▸ enables_drawn_listedTwice 32]
    exact Nat.and_zero _)
  have h := gives_of_ran (m := vfBin ⟨.v0, .bf16, none, 0, .imm, .imm, .ctx⟩ 4 fAdd) hv (by rw [landed_issue, flagged_issue, hs]; rfl)
  unfold vfBin at h
  replace h := gives_of_bind_reads ha h
  replace h := gives_of_bind_reads ha h
  replace h := gives_of_bind_reads (gives_curCtx s) h
  exact not_gives_landVF_listedTwice _ _ _ _ _ _ (hs ▸ h)

/-! ### VQUANT.scale of a signalling NaN -/

/-- Context 0 with the invalid flag enabled and all else as at reset, and a header literal that is a signalling NaN of FP32. -/
def signallingLiteral : State :=
  { State.reset with
    ctxs := [(0, { mode := 0x10 })]
    issue := { State.reset.issue with imm := 0x7F800001 } }

/-- VQUANT.scale of the literal in every lane. -/
def scaleLiteral : VBin := ⟨.v0, .fp32, none, 0, .imm, .reg 0, .ctx⟩

/-- Refutes O15 by its clause on VQUANT.scale, which gives the form no flags: in `signallingLiteral`, a canonical state, every block
holds a signalling NaN, so by R28 and R166 the form raises the invalid flag, whose trap is enabled, and nothing lands. -/
theorem not_vectorConversions : ¬ Obligations.VectorConversions := by
  unfold Obligations.VectorConversions
  rintro ⟨-, hbin⟩
  obtain ⟨s, hs⟩ : ∃ s, s = signallingLiteral := ⟨_, rfl⟩
  have ha := reads_imm (s := s) (by rw [hs]; decide) .v0 .fp32
  have hb : Reads (readV .v0 .fp32 (.reg 0)) s 0 := by rw [hs]; rfl
  have hd : VDest .v0 none 0 s (fun _ => true) 0 := by rw [hs]; exact ⟨rfl, rfl, nofun⟩
  have ho : Reads (readReg (VSlot.file .v0) 0) s 0 := by rw [hs]; rfl
  obtain ⟨-, hscale, -⟩ := hbin 0 scaleLiteral s _ 0 0 (fun _ => true) ha hb hd
  obtain ⟨v, hv, -⟩ := hscale .e4m3 (by decide) ho
  unfold exec execVquant at hv
  have h := gives_of_ran hv (by rw [landed_issue, hs]; rfl)
  replace h := gives_of_bind_reads ha h
  replace h := gives_of_bind_reads (gives_curCtx s) h
  dsimp only at h
  rw [if_pos rfl] at h
  obtain ⟨hact, hi, -⟩ := hd
  replace h := gives_of_bind_reads hi h
  replace h := gives_of_bind_reads hact h
  replace h := gives_of_bind_reads ho h
  obtain ⟨_, t, hm, -⟩ := gives_bind_inv h
  refine not_gives_mergeFlags ?_ hm -- the flags of the two scale bytes, evaluated, are the invalid flag
  subst hs
  decide +kernel

end Sys2Proof.Proofs

/-! SUPPORT. What the forms of the L slot do before they act: their effective addresses (R187, R208), the requests that they need
(R184), and the checks of an access (R181, R230, R303, R417). -/

namespace Sys2Proof.Proofs

open Sys2Proof Machine Laws

/-! ### Effective addresses (R187, R208) -/

section
variable {s : State}

theorem scalar_p (x : Ctx) (i : BitVec 5) : x.scalar fP i.toNat = x.pReg i :=
  (BitVec.setWidth_setWidth_of_le _ (by norm_num)).trans (BitVec.setWidth_eq _)

/-- A pointer register that holds no error. -/
theorem reads_p {i : BitVec 5} (h : (issuer s).regError 4 i.toNat = none) : Reads (readP i) s ((issuer s).pReg i) := by
  rw [← scalar_p]
  exact reads_scalar h

/-- Outside a template nothing is added. -/
theorem reads_templateAdd_zero (h : s.issue.kind ≠ 2) : Reads templateAdd s 0 := by
  refine gives_bind (gives_get s) ?_
  rw [if_neg h]
  exact gives_pure _ s

/-- In a template the innermost active level counts. -/
theorem reads_templateAdd {l : Nat} (h : s.issue.kind = 2) (hl : innermost (issuer s) = some l) :
    Reads templateAdd s (s.issue.imm.signExtend 64 * Map.get 0 (issuer s).k (24 + 2 * l)) := by
  refine gives_bind (gives_get s) ?_
  rw [if_pos h]
  have found : [3, 2, 1, 0].find? (fun l => Map.get 0 (s.ctx s.issue.ctx).k (24 + 2 * l) != 0) = some l := hl
  dsimp only
  rw [found]
  exact gives_pure _ s

theorem reads_eaOff {base : BitVec 5} {p a : Word} (hp : Reads (readP base) s p) (ha : Reads templateAdd s a) (off : Int) :
    Reads (eaOff base off) s (p + BitVec.ofInt 64 off + a) :=
  gives_bind hp (gives_bind ha (gives_pure _ s))

theorem reads_eaOf_idx {base pi : BitVec 5} {p i a : Word} (hp : Reads (readP base) s p) (hi : Reads (readP pi) s i)
    (ha : Reads templateAdd s a) (sh : BitVec 3) : Reads (eaOf base (.idx pi sh)) s (p + i <<< sh.toNat + a) :=
  gives_bind hp (gives_bind hi (gives_bind ha (gives_pure _ s)))

end

/-- Settles O16: outside a template the increment is 0, and within one the innermost level's counter scales it. -/
theorem effectiveAddresses : Obligations.EffectiveAddresses := by
  unfold Obligations.EffectiveAddresses
  intro s base hb p
  have hp := reads_p hb
  refine ⟨fun hk => ?_, fun hk off l hl hon hoff => ?_⟩
  · have ha := reads_templateAdd_zero hk
    refine ⟨fun off => ?_, fun pi sh hi => ?_⟩
    · rw [← BitVec.add_zero (p + BitVec.ofInt 64 off)]
      exact reads_eaOff hp ha off
    · rw [← BitVec.add_zero (p + (issuer s).pReg pi <<< sh.toNat)]
      exact reads_eaOf_idx hp (reads_p hi) ha sh
  · have level : ∀ m < 4, (issuer s).kReg (BitVec.ofNat 5 (24 + 2 * m)) = Map.get 0 (issuer s).k (24 + 2 * m) := by
      intro m hm
      rw [Ctx.kReg, BitVec.toNat_ofNat, Nat.mod_eq_of_lt (by omega)]
    rw [level l hl] at hon ⊢
    have hin := innermost_eq_some hl hon (fun m h1 h2 => level m h2 ▸ hoff m h1 h2)
    exact reads_eaOff hp (reads_templateAdd hk hin) off

/-! ### Branches of a meaning -/

section
variable {α β : Type} {c : Prop} [Decidable c] {f : α → M β} {s t u : State} {v : α}

/-- A part that is one of two, before the rest. -/
theorem gives_ite_bind {m m' : M α} {w : β} (h : Gives (if c then m else m') s v t) (k : Gives (f v) t w u) :
    Gives (if c then m >>= f else m' >>= f) s w u := by
  split
  · next hc => exact gives_bind (by rwa [if_pos hc] at h) k
  · next hc => exact gives_bind (by rwa [if_neg hc] at h) k

theorem traps_ite_bind {m m' : M α} {x : BitVec 8} {w : Word} (h : Gives (if c then m else m') s v t) (k : Traps (f v) t x w) :
    Traps (if c then m >>= f else m' >>= f) s x w := by
  split
  · next hc => exact traps_bind_right (by rwa [if_pos hc] at h) k
  · next hc => exact traps_bind_right (by rwa [if_neg hc] at h) k

/-- A part that is done in one case only, before the rest. -/
theorem gives_ite_skip {m : M Unit} {f : Unit → M β} {w : β} (h : Gives (if c then m else pure ()) s () t)
    (k : Gives (f ()) t w u) : Gives (if c then m >>= f else f ()) s w u := gives_ite_bind (m' := pure ()) h k

end

/-! ### Requests and checks -/

section
variable {s t : State}

/-- A bundle goes on where its core has the requests free that it needs. -/
theorem gives_needRequests {n : Nat} (h : requestsFree s n) : Gives (needRequests n) s () s := by
  refine gives_bind (gives_get s) ?_
  rw [if_neg]
  · exact gives_pure _ s
  · rw [Bool.and_eq_true, bne_iff_ne, decide_eq_true_eq]
    omega

/-- An access within the own aperture needs none. -/
theorem gives_needRequests_unlessOwn {own : Bool} {n : Nat} (h : own = true ∨ requestsFree s n) :
    Gives (needRequests (if own then 0 else n)) s () s := by
  refine gives_needRequests ?_
  cases own with
  | true => exact .inl rfl
  | false => exact h.resolve_left Bool.false_ne_true

theorem gives_liftTrap {α : Type} {r : Except (BitVec 8 × Word) α} {v : α} (h : r = .ok v) : Gives (liftTrap r) s v s := by
  subst h
  rfl

theorem traps_liftTrap {α : Type} {r : Except (BitVec 8 × Word) α} {c : BitVec 8} {w : Word} (h : r = .error (c, w)) :
    Traps (liftTrap r) s c w := by
  subst h
  rfl

variable {acc : Acc} {align : Nat} {rs : List (Nat × Nat)}

/-- An access whose ranges translate, and of which no shard holds a write back. -/
theorem gives_accessSpans {ps : List Span} (hm : meetsTst s s.issue.ctx rs = false)
    (ht : transRanges (s.view s.issue.ctx) acc align rs s = .ok (ps, t))
    (hh : acc = .read ∨ ∀ r ∈ rs, heldShard s (dieOf s.issue.ctx) (issuer s).region.space r.1 r.2 = false) :
    Gives (accessSpans acc align rs) s ps t := by
  refine gives_bind (gives_get s) ?_
  rw [if_neg (by rw [hm]; exact Bool.false_ne_true)]
  refine gives_bind (gives_liftTrap ht) ?_
  dsimp only
  rw [if_neg]
  · exact gives_bind (gives_set t s) (gives_pure ps t)
  · rintro h
    rw [Bool.and_eq_true] at h
    obtain ⟨hacc, hany⟩ := h
    rcases hh with rfl | hh
    · exact absurd hacc (by decide)
    · rw [List.any_eq_true] at hany
      obtain ⟨r, hr, hheld⟩ := hany
      exact absurd (hh r hr) (by rw [hheld]; decide)

/-- The first check of an access is its alignment (R181). -/
theorem traps_accessSpans_misaligned {va len : Nat} (hm : meetsTst s s.issue.ctx [(va, len)] = false) (ha : va % align ≠ 0) :
    Traps (accessSpans acc align [(va, len)]) s 0x03 (BitVec.ofNat 64 va) := by
  refine traps_bind_right (gives_get s) ?_
  rw [if_neg (by rw [hm]; exact Bool.false_ne_true)]
  refine traps_bind_left (traps_liftTrap ?_)
  rw [transRanges, if_pos ha]

end

end Sys2Proof.Proofs

/-! SUPPORT. The load and store forms over the access operations (R73, R104, R184, R189 to R192): what a load delivers at issue, and what
it leaves to be performed. -/

namespace Sys2Proof.Proofs

open Sys2Proof Machine Laws

/-! ### Results and posted accesses -/

/-- An element as LDS extends it (R189). -/
theorem extElem_eq_extend (ty : ElemTy) (x : Nat) : extElem ty x =
    if ty.signed then (BitVec.ofNat ty.width x).signExtend 64 else (BitVec.ofNat ty.width x).setWidth 64 := by
  unfold extElem
  split
  · rw [← toInt_ofNat_eq_sextNat (width_pos ty)]
    rfl
  · exact BitVec.eq_of_toNat_eq (by simp)

/-- Two changes of a context that give one value there are one change. -/
theorem updCtx_congr {s : State} {c : Nat} {f g : Ctx → Ctx} (h : f (s.ctx c) = g (s.ctx c)) : s.updCtx c f = s.updCtx c g :=
  congrArg (fun m => { s with ctxs := m }) (upd_congr h)

/-- A context that no longer reads as the default reads back, in the canonical form or not. -/
theorem ctx_updCtx_listed {s : State} {c : Nat} {f : Ctx → Ctx} (h : f (s.ctx c) ≠ {}) : (s.updCtx c f).ctx c = f (s.ctx c) := by
  show Map.get {} (Map.set {} s.ctxs c (f (s.ctx c))) c = f (s.ctx c)
  rw [Map.set, if_neg h, Map.get_put_self]

section
variable (s : State)

/-- A result that is awaited leaves the interval of its context. -/
theorem interval_awaiting (d : List (Nat × Nat)) (v : Option (List VecReg × Option (BitVec 8 × Word))) (lines : Nat) :
    (issuer (awaiting s d v lines)).interval = (issuer s).interval := by
  show (State.ctx (s.updCtx s.issue.ctx _) s.issue.ctx).interval = _
  rw [ctx_updCtx_listed fun h => List.append_ne_nil_of_right_ne_nil _ (List.cons_ne_nil _ []) (congrArg Ctx.pending h)]

/-- An access is posted in the interval of its context. -/
theorem posted_interval (n : Nat) (k : PostKind) (o : Nat) : posted s ⟨n, (issuer s).interval, k, o⟩ =
    s.updCtx s.issue.ctx (fun x => { x with posted := x.posted ++ [⟨n, x.interval, k, o⟩] }) := updCtx_congr rfl

theorem gives_deliverLoad (own : Bool) (file idx : Nat) (v : VecReg) (tag : Option (BitVec 8 × Word)) :
    Gives (deliverLoad own file idx v tag) s () (loaded s own file idx v tag) := by
  cases own with
  | true => rfl
  | false => rfl

end

/-! ### Loads of several elements -/

section
variable {s t : State} {align : Nat} {rs : List (Nat × Nat)} {ps : List Span} (place : Nat → Nat) (rep : Option Word) (old : VecReg)
  (file idx : Nat) (hps : Gives (accessSpans .read align rs) s ps t)
include hps

/-- A load in the own scratchpad, or within one sector, is performed at issue. -/
theorem gives_loadInto_now (hn : inAperture rs = true ∨ (sectorSet ((loadPieces place rep 0 ps).map (·.pa))).length ≤ 1)
    (hf : inAperture rs = true ∨ requestsFree t 1) :
    let r := (loadPieces place rep 0 ps).foldl (readPiece (t.issuerOf t.issue.ctx)) ((old, none), t)
    Gives (loadInto align rs place rep old file idx) s () (loaded r.2 (inAperture rs) file idx r.1.1 (errTag r.1.2)) := by
  intro r
  refine gives_bind hps (gives_bind (gives_get t) ?_)
  rw [if_pos (by rwa [Bool.or_eq_true, decide_eq_true_eq])]
  have deliver : Gives (do set r.2; deliverLoad (inAperture rs) file idx r.1.1 (errTag r.1.2)) t ()
      (loaded r.2 (inAperture rs) file idx r.1.1 (errTag r.1.2)) :=
    gives_bind (gives_set r.2 t) (gives_deliverLoad r.2 (inAperture rs) file idx r.1.1 (errTag r.1.2))
  dsimp only
  split
  · exact deliver
  · next h => exact gives_bind (gives_needRequests (hf.resolve_left h)) deliver

/-- Any other load is posted. -/
theorem gives_loadInto_posted (hown : inAperture rs = false)
    (hn : 1 < (sectorSet ((loadPieces place rep 0 ps).map (·.pa))).length)
    (hf : requestsFree t (sectorSet ((loadPieces place rep 0 ps).map (·.pa))).length) :
    Gives (loadInto align rs place rep old file idx) s ()
      (posted (awaiting t [(file, idx)] none (sectorSet ((loadPieces place rep 0 ps).map (·.pa))).length)
        ⟨t.issue.order, (issuer t).interval, .load (loadPieces place rep 0 ps) old none t.issue.order, 0⟩) := by
  refine gives_bind hps (gives_bind (gives_get t) ?_)
  rw [if_neg (by rw [hown, Bool.false_or, decide_eq_true_eq]; omega)]
  refine gives_bind (gives_needRequests hf) (gives_bind (gives_modify _ t) ?_)
  rw [← interval_awaiting t [(file, idx)] none (sectorSet ((loadPieces place rep 0 ps).map (·.pa))).length, posted_interval]
  exact gives_modify _ _

/-- A form that goes on `after` its load. -/
theorem loadsInto_of_gives {after : State → State} {out : Host.Outcome State Fault Refusal}
    (hout : ∀ u, Gives (loadInto align rs place rep old file idx) s () u → out = .next (after u)) :
    LoadsInto rs ps place rep old file idx t after out :=
  ⟨fun hn hf => hout _ (gives_loadInto_now place rep old file idx hps hn hf),
    fun hown hn hf => hout _ (gives_loadInto_posted place rep old file idx hps hown hn hf)⟩

end

/-! ### The forms -/

theorem exec_lds {ty : ElemTy} {dst : RegRef} {base : BitVec 5} {addr : LAddr} {s t : State} {ea : Word} {bs : List Byte}
    {bad : Option (BitVec 8 × Word)} (hea : Reads (eaOf base addr) s ea)
    (hload : Gives (loadBytes true (elemBytes ty) [(ea.toNat, elemBytes ty)]) s (bs, bad) t)
    (hf : inAperture [(ea.toNat, elemBytes ty)] = true ∨ requestsFree s 1) :
    exec (.lds ty dst base addr) s = .next (loaded t (inAperture [(ea.toNat, elemBytes ty)]) dst.file.code dst.idx.toNat
      ((extElem ty (leNat bs)).setWidth 2048) (bad.map (fun e => (e.1, ea)))) :=
  runSlot_ok (gives_bind hea (gives_bind (gives_needRequests_unlessOwn hf) (gives_bind hload (gives_deliverLoad t _ _ _ _ _))))

/-- Settles O17: the loads by `exec_lds` and `loadsInto_of_gives`, the stores part by part. -/
theorem loadAndStoreForms : Obligations.LoadAndStoreForms := by
  unfold Obligations.LoadAndStoreForms
  refine ⟨⟨fun ty dst base addr s t ea bs bad ps hea => ⟨fun hload hf => ?lds, fun hi hps => ?vld⟩,
    fun ty dst base off s t ea ps hi hea => ⟨?vlds, ?vgath⟩⟩,
    fun ty src base addr s t ea hea => ⟨fun v hv hst => ?sts, fun v hi hv hst => ?vst⟩,
    fun ty src base off s t ea v hi hv => ⟨?vsts, ?vscat⟩⟩
  case lds =>
    rw [← extElem_eq_extend]
    exact exec_lds hea hload hf
  case vld => exact loadsInto_of_gives _ _ _ _ _ hps (fun u h => runSlot_ok (gives_bind hi (gives_bind hea h)))
  case vlds =>
    intro stride st hst rs hps
    exact loadsInto_of_gives _ _ _ _ _ hps (fun u h => runSlot_ok (gives_bind hi (gives_bind hea (gives_bind hst h))))
  case vgath =>
    intro h index ix old hii hix hold n ls rs hps
    exact loadsInto_of_gives _ _ _ _ _ hps (fun u h => runSlot_ok (gives_bind hi (gives_bind hii (gives_bind hix (gives_bind hold
      (gives_bind hea (gives_bind h (gives_modify _ u))))))))
  case sts => exact runSlot_ok (gives_bind hv (gives_bind hea hst))
  case vst => exact runSlot_ok (gives_bind hi (gives_bind hv (gives_bind hea hst)))
  case vsts =>
    intro stride st hea hstr hst
    exact runSlot_ok (gives_bind hi (gives_bind hv (gives_bind hea (gives_bind hstr hst))))
  case vscat =>
    intro h index ix hea hii hix ls rs hst
    exact runSlot_ok (gives_bind hi (gives_bind hii (gives_bind hix (gives_bind hv (gives_bind hea
      (gives_bind hst (gives_modify _ t)))))))

end Sys2Proof.Proofs

/-! SUPPORT. The core's own scratchpad (R177 to R179, R285): where an access of the aperture lies, what reads and writes of it
give and change, and the logical times that they move (R313). -/

namespace Sys2Proof.Map

variable {α : Type} [DecidableEq α] {d : α}

theorem eq_of_get_from {m m' : Map α} {n : Nat} (h : wfFrom d n m = true) (h' : wfFrom d n m' = true)
    (hg : ∀ k, get d m k = get d m' k) : m = m' := by
  induction m generalizing m' n with
  | nil =>
    cases m' with
    | nil => rfl
    | cons q m' =>
      obtain ⟨-, hv, -⟩ := wfFrom_cons.mp h'
      have := hg q.1
      simp only [get, if_true] at this
      exact absurd this.symm hv
  | cons p m ih =>
    obtain ⟨i, u⟩ := p
    obtain ⟨hi, hu, hm⟩ := wfFrom_cons.mp h
    cases m' with
    | nil =>
      have := hg i
      simp only [get, if_true] at this
      exact absurd this hu
    | cons q m' =>
      obtain ⟨j, v⟩ := q
      obtain ⟨hj, hv, hm'⟩ := wfFrom_cons.mp h'
      have hij : i = j := by
        have hgi := hg i
        have hgj := hg j
        simp only [get, if_true] at hgi hgj
        by_contra hne
        rcases Nat.lt_or_gt_of_ne hne with hlt | hlt
        · rw [if_neg hne, if_pos hlt] at hgi
          exact hu hgi
        · rw [if_neg (Ne.symm hne), if_pos hlt] at hgj
          exact hv hgj.symm
      subst hij
      have huv : u = v := by simpa only [get, if_true] using hg i
      subst huv
      rw [ih hm hm' (fun k => ?_)]
      rcases Nat.lt_or_ge i k with hk | hk
      · have := hg k
        simpa only [get, if_neg (show k ≠ i by omega), if_neg (show ¬ k < i by omega)] using this
      · rw [get_of_lt hm (by omega), get_of_lt hm' (by omega)]

/-- Maps in the canonical form that read alike are equal. -/
theorem eq_of_get {m m' : Map α} (h : wf d m = true) (h' : wf d m' = true) (hg : ∀ k, get d m k = get d m' k) : m = m' :=
  eq_of_get_from h h' hg

end Sys2Proof.Map

namespace Sys2Proof.Proofs

open Sys2Proof Machine Laws

/-! ### Logical times (R313) -/

/-- From `s` to `t` nothing has changed but logical times: that of context `c`, and those of lines. -/
structure OnlyTimes (c : Nat) (s t : State) : Prop where
  wf : Map.wf {} t.ctxs = true
  others : ∀ i, i ≠ c → t.ctx i = s.ctx i
  own : t.ctx c = { s.ctx c with ltime := (t.ctx c).ltime }
  rest : t = { s with ctxs := t.ctxs, lineTimes := t.lineTimes }

section
variable {c : Nat} {s t u : State}

theorem OnlyTimes.refl (h : Map.wf {} s.ctxs = true) (c : Nat) : OnlyTimes c s s := ⟨h, fun _ _ => rfl, rfl, rfl⟩

theorem OnlyTimes.trans (h : OnlyTimes c s t) (k : OnlyTimes c t u) : OnlyTimes c s u := by
  refine ⟨k.wf, fun i hi => (k.others i hi).trans (h.others i hi), by rw [k.own, h.own], k.rest.trans ?_⟩
  exact congrArg (fun t : State => { t with ctxs := u.ctxs, lineTimes := u.lineTimes }) h.rest

theorem OnlyTimes.mem (h : OnlyTimes c s t) : t.mem = s.mem := by rw [h.rest]
theorem OnlyTimes.redShadow (h : OnlyTimes c s t) : t.redShadow = s.redShadow := by rw [h.rest]
theorem OnlyTimes.bad (h : OnlyTimes c s t) : t.bad = s.bad := by rw [h.rest]
theorem OnlyTimes.issue (h : OnlyTimes c s t) : t.issue = s.issue := by rw [h.rest]
theorem OnlyTimes.units (h : OnlyTimes c s t) : t.clusters = s.clusters ∧ t.dies = s.dies ∧ t.race = s.race := by
  rw [h.rest]
  exact ⟨rfl, rfl, rfl⟩

/-- The contexts are as they were but for the one time. -/
theorem OnlyTimes.ctxs (h : OnlyTimes c s t) (hs : Map.wf {} s.ctxs = true) :
    t.ctxs = (s.updCtx c (fun x => { x with ltime := (t.ctx c).ltime })).ctxs := by
  refine Map.eq_of_get h.wf (State.wf_updCtx s c _ hs) (fun i => ?_)
  by_cases hi : i = c
  · subst hi
    exact h.own.trans (State.ctx_updCtx_self s i (fun x => { x with ltime := (t.ctx i).ltime }) hs).symm
  · exact (h.others i hi).trans (State.ctx_updCtx_of_ne s c i _ hs hi).symm

theorem OnlyTimes.timesOnly (h : OnlyTimes s.issue.ctx s t) (hs : Map.wf {} s.ctxs = true) : timesOnly s t :=
  h.rest.trans (congrArg (fun m => { s with ctxs := m, lineTimes := t.lineTimes }) (h.ctxs hs))

/-- A context whose time alone changes. -/
theorem onlyTimes_updCtx (hs : Map.wf {} s.ctxs = true) (n : Nat) (l : Map (Nat × Nat)) :
    OnlyTimes c s { s.updCtx c (fun x => { x with ltime := n }) with lineTimes := l } where
  wf := State.wf_updCtx s c (fun x => { x with ltime := n }) hs
  others i hi := State.ctx_updCtx_of_ne s c i (fun x => { x with ltime := n }) hs hi
  own := by
    have self : (s.updCtx c (fun x => { x with ltime := n })).ctx c = { s.ctx c with ltime := n } := State.ctx_updCtx_self s c _ hs
    show (s.updCtx c (fun x => { x with ltime := n })).ctx c =
      { s.ctx c with ltime := ((s.updCtx c (fun x => { x with ltime := n })).ctx c).ltime }
    rw [self]
  rest := rfl

theorem onlyTimes_timeLoad (hs : Map.wf {} s.ctxs = true) (c pa : Nat) : OnlyTimes c s (timeLoad s c pa) := onlyTimes_updCtx hs _ _
theorem onlyTimes_timeStore (hs : Map.wf {} s.ctxs = true) (c pa : Nat) : OnlyTimes c s (timeStore s c pa) := onlyTimes_updCtx hs _ _

theorem onlyTimes_timeSpans {move : State → Nat → Nat → State}
    (hm : ∀ {s : State}, Map.wf {} s.ctxs = true → ∀ c pa, OnlyTimes c s (move s c pa)) (hs : Map.wf {} s.ctxs = true) (c : Nat)
    (ps : List Span) : OnlyTimes c s (timeSpans move s c ps) := by
  unfold timeSpans
  generalize (ps.flatMap (fun p => sectorsIn p.pa p.len)).eraseDups = l
  induction l generalizing s with
  | nil => exact OnlyTimes.refl hs c
  | cons k l ih =>
    have h := hm hs c (64 * k)
    exact h.trans (ih h.wf)

end

/-! ### Bytes of a scratchpad in the physical map (R295) -/

theorem scratchPa_add (k o i : Nat) : scratchPa k (o + i) = scratchPa k o + i := (Nat.add_assoc _ o i).symm

/-- A physical address in the scratchpad of a core. -/
def InPad (a : Nat) : Prop := ∃ k < 1024, ∃ o < 2 ^ 20, a = scratchPa k o

theorem locOf_scratchPa {k o : Nat} (hk : k < 1024) (ho : o < 2 ^ 20) : locOf (scratchPa k o) = .scratch k o := by
  have e : scratchPa k o = scratchBase + (2 ^ 20 * k + o) := by rw [scratchPa]; ring
  have hlt : 2 ^ 20 * k + o < 2 ^ 30 := by omega
  unfold locOf
  rw [e, if_neg (by unfold scratchBase; omega), if_neg (by unfold scratchBase vaultBase; omega), if_pos ⟨by omega, by omega⟩,
    Nat.add_sub_cancel_left, Nat.mul_add_div (by norm_num), Nat.mul_add_mod, Nat.div_eq_of_lt ho, Nat.mod_eq_of_lt ho, Nat.add_zero]

section
variable {a : Nat} (h : InPad a)
include h

theorem mgmtOff_of_inPad : mgmtOff a = none := by
  obtain ⟨k, hk, o, ho, rfl⟩ := h
  rw [mgmtOff, locOf_scratchPa hk ho]

/-- A scratchpad has no race shadows (R318). -/
theorem shadowable_of_inPad : shadowable a = false := by
  obtain ⟨k, hk, o, ho, rfl⟩ := h
  rw [shadowable, locOf_scratchPa hk ho]

end

/-! ### Translation of the aperture -/

/-- Spans that lie one after another in the scratchpad of core `k`: `n` bytes from offset `o` on. -/
def SpansOver (k : Nat) : Nat → Nat → List Span → Prop
  | _, n, [] => n = 0
  | o, n, p :: ps => p.pa = scratchPa k o ∧ p.cnt = false ∧ p.len ≤ n ∧ o < 2 ^ 20 ∧ SpansOver k (o + p.len) (n - p.len) ps

section
variable {s : State} {v : View} {acc : Acc} {k : Nat} (hv : v.core = some k) (ha : acc = .read ∨ acc = .write)
include hv ha

theorem translate_aperture {o : Nat} (ho : o < 2 ^ 20) (hr : inReserve s k o = false) :
    Machine.translate s v (apertureBase + o) acc = .ok (scratchPa k o, false, s) := by
  unfold Machine.translate
  rw [if_neg (by unfold vaTop apertureBase; omega), hv]
  dsimp only
  rw [if_pos (by omega), Nat.add_sub_cancel_left]
  rcases ha with rfl | rfl
  all_goals
    dsimp only
    rw [if_neg (by rw [hr]; exact Bool.false_ne_true)]

theorem translateSpans_aperture (fuel : Nat) {o n : Nat} (hn : o + n ≤ 2 ^ 20) (hr : ∀ i < n, inReserve s k (o + i) = false)
    (hf : n = 0 ∨ n + o % 65536 ≤ 65536 * fuel) :
    ∃ ps, translateSpans v acc fuel s (apertureBase + o) n = .ok (ps, s) ∧ SpansOver k o n ps := by
  induction fuel generalizing o n with
  | zero => exact ⟨[], rfl, show n = 0 by omega⟩
  | succ fuel ih =>
    rw [translateSpans]
    by_cases h0 : n = 0
    · rw [if_pos h0]
      exact ⟨[], rfl, h0⟩
    · have ho : (apertureBase + o) % 65536 = o % 65536 := by unfold apertureBase; omega
      rw [if_neg h0, translate_aperture hv ha (o := o) (by omega) (hr 0 (by omega)), ho]
      dsimp only
      obtain ⟨m, hm⟩ : ∃ m, m = min n (65536 - o % 65536) := ⟨_, rfl⟩
      rw [← hm]
      obtain ⟨ps, hps, hover⟩ := ih (o := o + m) (n := n - m) (by omega)
        (fun i hi => by rw [Nat.add_assoc]; exact hr (m + i) (by omega)) (by omega)
      rw [Nat.add_assoc, hps]
      exact ⟨_, rfl, rfl, rfl, show m ≤ n by omega, by omega, hover⟩

theorem translateRange_aperture {o n : Nat} (hn : o + n ≤ 2 ^ 20) (hr : ∀ i < n, inReserve s k (o + i) = false) :
    ∃ ps, translateRange s v (apertureBase + o) n acc = .ok (ps, s) ∧ SpansOver k o n ps := by
  obtain ⟨ps, hps, hover⟩ := translateSpans_aperture hv ha (n / 65536 + 2) hn hr (by omega)
  refine ⟨ps, ?_, hover⟩
  have hin : ¬ vaTop < apertureBase + o + n := by unfold vaTop apertureBase; omega
  rw [translateRange, decide_eq_false hin, Bool.and_false, if_neg Bool.false_ne_true, hps]

/-- The span of an element at its place in the scratchpad. -/
def elemSpan (k n o : Nat) : Span := ⟨scratchPa k o, apertureBase + o, n, false⟩

/-- An aligned element lies within one page. -/
theorem translateRange_element {o n : Nat} (hn : o + n ≤ 2 ^ 20) (h0 : 0 < n) (hp : o % 65536 + n ≤ 65536)
    (hr : inReserve s k o = false) : translateRange s v (apertureBase + o) n acc = .ok ([elemSpan k n o], s) := by
  have hin : ¬ vaTop < apertureBase + o + n := by unfold vaTop apertureBase; omega
  have ho : (apertureBase + o) % 65536 = o % 65536 := by unfold apertureBase; omega
  have hm : min n (65536 - o % 65536) = n := by omega
  rw [translateRange, decide_eq_false hin, Bool.and_false, if_neg Bool.false_ne_true, translateSpans, if_neg (by omega),
    translate_aperture hv ha (by omega) hr]
  dsimp only
  rw [ho, hm, Nat.sub_self, translateSpans, if_pos rfl]
  rfl

end

/-! ### Reads -/

section
variable {s : State}

theorem badSpan_of_none (hb : s.bad = []) (ps : List Span) : badSpan s ps = none := by
  simp [badSpan, State.badAt, hb]

variable (hr : s.redShadow = [])
include hr

theorem readSpans_pad {ps : List Span} (hp : ∀ p ∈ ps, InPad p.pa) :
    readSpans s ps = (ps.flatMap (fun p => rawBytes s.mem p.pa p.len), s) := by
  induction ps with
  | nil => rfl
  | cons p ps ih =>
    rw [readSpans, readAt_eq_raw (mgmtOff_of_inPad (hp p List.mem_cons_self)) hr]
    dsimp only
    rw [ih (fun q hq => hp q (List.mem_cons_of_mem p hq))]
    rfl

/-- A read of the scratchpad gives its bytes and moves times. -/
theorem readFor_pad (hb : s.bad = []) (hs : Map.wf {} s.ctxs = true) {ps : List Span} (hp : ∀ p ∈ ps, InPad p.pa) (x : Issuer) :
    ∃ t, OnlyTimes x.ctx s t ∧ readFor s x true ps = ((ps.flatMap (fun p => rawBytes s.mem p.pa p.len), none), t) := by
  have race : ps.foldl (fun s p => raceCheck s x false p) s = s := by
    clear hr hb hs
    induction ps with
    | nil => rfl
    | cons p ps ih =>
      have e : raceCheck s x false p = s := by
        unfold raceCheck
        rw [shadowable_of_inPad (hp p List.mem_cons_self), Bool.not_false, Bool.or_true, if_pos rfl]
      rw [List.foldl_cons, e]
      exact ih (fun q hq => hp q (List.mem_cons_of_mem p hq))
  have ht := onlyTimes_timeSpans onlyTimes_timeLoad hs x.ctx ps
  refine ⟨_, ht, ?_⟩
  unfold readFor
  rw [if_pos rfl, race]
  dsimp only
  rw [badSpan_of_none (ht.bad.trans hb), readSpans_pad (ht.redShadow.trans hr) hp, ht.mem]

end

end Sys2Proof.Proofs

/-! SUPPORT. Loads from the core's own scratchpad (R177, R181, R189 to R192): which byte of memory each piece of a load carries to which
byte of the value. -/

namespace Sys2Proof.Proofs

open Sys2Proof Machine Laws

/-! ### The bytes that pieces carry -/

/-- A piece of the list carries the byte at address `a` to byte `j` of the value. -/
def Carried (qs : List LoadPiece) (a j : Nat) : Prop := ∃ q ∈ qs, ∃ d < q.len, a = q.pa + d ∧ j = q.pos + d

theorem not_carried_nil (a j : Nat) : ¬ Carried [] a j := by
  rintro ⟨q, hq, -⟩
  exact absurd hq List.not_mem_nil

theorem carried_cons {q : LoadPiece} {qs : List LoadPiece} {a j : Nat} :
    Carried (q :: qs) a j ↔ (∃ d < q.len, a = q.pa + d ∧ j = q.pos + d) ∨ Carried qs a j := by
  simp [Carried]

theorem carried_append {qs rs : List LoadPiece} {a j : Nat} : Carried (qs ++ rs) a j ↔ Carried qs a j ∨ Carried rs a j := by
  simp only [Carried, List.mem_append, or_and_right, exists_or]

/-- Cutting a span at sectors loses no byte and moves none. -/
theorem carried_loadCut_from (p : Span) (pos : Nat) (rep : Option Word) (fuel : Nat) {o : Nat} (hf : p.len ≤ o + fuel) (a j : Nat) :
    Carried (loadCut p pos rep fuel o) a j ↔ ∃ d, o ≤ d ∧ d < p.len ∧ a = p.pa + d ∧ j = pos + d := by
  induction fuel generalizing o with
  | zero =>
    refine iff_of_false (not_carried_nil a j) ?_
    rintro ⟨d, h1, h2, -⟩
    omega
  | succ fuel ih =>
    rw [loadCut]
    by_cases h : p.len ≤ o
    · rw [if_pos h]
      refine iff_of_false (not_carried_nil a j) ?_
      rintro ⟨d, h1, h2, -⟩
      omega
    · rw [if_neg h]
      dsimp only
      obtain ⟨n, hn⟩ : ∃ n, n = min (p.len - o) (64 - (p.pa + o) % 64) := ⟨_, rfl⟩
      rw [← hn, carried_cons, ih (by omega)]
      constructor
      · rintro (⟨d, hd, ha, hj⟩ | ⟨d, h1, h2, h3, h4⟩)
        · have hd : d < n := hd
          exact ⟨o + d, by omega, by omega, by rw [ha, Nat.add_assoc], by rw [hj, Nat.add_assoc]⟩
        · exact ⟨d, by omega, h2, h3, h4⟩
      · rintro ⟨d, h1, h2, ha, hj⟩
        by_cases hd : d < o + n
        · exact .inl ⟨d - o, show d - o < n by omega, show a = p.pa + o + (d - o) by omega, show j = pos + o + (d - o) by omega⟩
        · exact .inr ⟨d, by omega, h2, ha, hj⟩

theorem carried_loadCut (p : Span) (pos : Nat) (rep : Option Word) (a j : Nat) :
    Carried (loadCut p pos rep (p.len + 1) 0) a j ↔ ∃ d < p.len, a = p.pa + d ∧ j = pos + d := by
  rw [carried_loadCut_from p pos rep _ (by omega)]
  simp

theorem loadCut_len_pos {p : Span} {pos : Nat} {rep : Option Word} {fuel o : Nat} {q : LoadPiece} (h : q ∈ loadCut p pos rep fuel o) :
    0 < q.len := by
  induction fuel generalizing o with
  | zero => exact absurd h List.not_mem_nil
  | succ fuel ih =>
    rw [loadCut] at h
    split at h
    · exact absurd h List.not_mem_nil
    · rcases List.mem_cons.mp h with rfl | h
      · dsimp only
        omega
      · exact ih h

theorem loadPieces_len_pos {place : Nat → Nat} {rep : Option Word} {b : Nat} {ps : List Span} {q : LoadPiece}
    (h : q ∈ loadPieces place rep b ps) : 0 < q.len := by
  induction ps generalizing b with
  | nil => exact absurd h List.not_mem_nil
  | cons p ps ih =>
    rcases List.mem_append.mp h with h | h
    · exact loadCut_len_pos h
    · exact ih h

/-- A range of the scratchpad goes to the value from its first byte on. -/
theorem carried_spansOver {k o n : Nat} {ps : List Span} (h : SpansOver k o n ps) (rep : Option Word) (b a j : Nat) :
    Carried (loadPieces id rep b ps) a j ↔ ∃ d < n, a = scratchPa k (o + d) ∧ j = b + d := by
  induction ps generalizing o n b with
  | nil =>
    have h : n = 0 := h
    refine iff_of_false (not_carried_nil a j) ?_
    rintro ⟨d, hd, -⟩
    omega
  | cons p ps ih =>
    obtain ⟨hpa, -, hlen, -, hps⟩ := h
    rw [loadPieces, carried_append, carried_loadCut, ih hps, hpa]
    constructor
    · rintro (⟨d, hd, ha, hj⟩ | ⟨d, hd, ha, hj⟩)
      · exact ⟨d, by omega, by rw [ha, scratchPa_add], hj⟩
      · exact ⟨p.len + d, by omega, by rw [ha, Nat.add_assoc], by omega⟩
    · rintro ⟨d, hd, ha, hj⟩
      by_cases hp : d < p.len
      · exact .inl ⟨d, hp, by rw [ha, scratchPa_add], hj⟩
      · exact .inr ⟨d - p.len, by omega, by rw [ha]; congr 1; omega, by omega⟩

/-- Elements go each to its own lane of `n` bytes: the one at offset `off l` of the scratchpad to lane `l`. -/
theorem carried_elements_from {k n : Nat} (ls : List Nat) (off : Nat → Nat) {place : Nat → Nat} (rep : Option Word) {b : Nat}
    (hplace : ∀ i l, ls[i]? = some l → place ((b + i) * n) = l * n) (a j : Nat) :
    Carried (loadPieces place rep (b * n) ((ls.map off).map (elemSpan k n))) a j ↔
      ∃ l ∈ ls, ∃ d < n, a = scratchPa k (off l + d) ∧ j = l * n + d := by
  induction ls generalizing b with
  | nil =>
    refine iff_of_false (not_carried_nil a j) ?_
    rintro ⟨l, hl, -⟩
    exact absurd hl List.not_mem_nil
  | cons l ls ih =>
    have rest := ih (b := b + 1) (fun i l' h => by rw [Nat.add_assoc, Nat.add_comm 1 i]; exact hplace (i + 1) l' h)
    have first : place (b * n) = l * n := hplace 0 l rfl
    rw [List.map_cons, List.map_cons, loadPieces, carried_append, carried_loadCut, first,
      show b * n + (elemSpan k n (off l)).len = (b + 1) * n from (Nat.succ_mul b n).symm, rest]
    simp only [List.mem_cons, or_and_right, exists_or, exists_eq_left, scratchPa_add]
    rfl

theorem carried_elements {k n : Nat} {ls : List Nat} (off : Nat → Nat) {place : Nat → Nat} (rep : Option Word)
    (hplace : ∀ i l, ls[i]? = some l → place (i * n) = l * n) (a j : Nat) :
    Carried (loadPieces place rep 0 ((ls.map off).map (elemSpan k n))) a j ↔
      ∃ l ∈ ls, ∃ d < n, a = scratchPa k (off l + d) ∧ j = l * n + d := by
  have h := carried_elements_from (k := k) ls off rep (b := 0) (fun i l h => by rw [Nat.zero_add]; exact hplace i l h) a j
  rwa [Nat.zero_mul] at h

/-! ### Reading the pieces -/

section
variable {s : State} (hr : s.redShadow = []) (hb : s.bad = []) (hs : Map.wf {} s.ctxs = true)
include hr hb hs

theorem readPiece_pad {q : LoadPiece} (hq : InPad q.pa) (x : Issuer) (v : VecReg) : ∃ t, OnlyTimes x.ctx s t ∧
    readPiece x ((v, none), s) q = ((putAt v q.pos (rawBytes s.mem q.pa q.len), none), t) := by
  obtain ⟨t, ht, he⟩ := readFor_pad hr hb hs (ps := [⟨q.pa, q.va.toNat, q.len, q.cnt⟩])
    (fun p hp => by rw [List.mem_singleton.mp hp]; exact hq) x
  refine ⟨t, ht, ?_⟩
  rw [readPiece, he, List.flatMap_singleton]

/-- The value of a load: the bytes carried to it, over what it was, where `g` says which byte of memory belongs at which place. -/
theorem foldl_readPiece_pad {qs : List LoadPiece} (g : Nat → Byte) (hl : ∀ q ∈ qs, 0 < q.len)
    (hg : ∀ a j, Carried qs a j → InPad a ∧ j < 256 ∧ byteAt s a = g j) (x : Issuer) (v : VecReg) :
    ∃ w t, OnlyTimes x.ctx s t ∧ qs.foldl (readPiece x) ((v, none), s) = ((w, none), t) ∧
      ∀ j < 256, ((∃ a, Carried qs a j) → laneAt 8 w j = (g j).toNat) ∧
        ((∀ a, ¬ Carried qs a j) → laneAt 8 w j = laneAt 8 v j) := by
  induction qs generalizing s v with
  | nil =>
    refine ⟨v, s, OnlyTimes.refl hs _, rfl, fun j _ => ⟨?_, fun _ => rfl⟩⟩
    rintro ⟨a, h⟩
    exact absurd h (not_carried_nil a j)
  | cons q qs ih =>
    have first : ∀ d < q.len, Carried (q :: qs) (q.pa + d) (q.pos + d) := fun d hd => carried_cons.mpr (.inl ⟨d, hd, rfl, rfl⟩)
    obtain ⟨hin, -⟩ := hg _ _ (first 0 (hl q List.mem_cons_self))
    obtain ⟨t, ht, he⟩ := readPiece_pad hr hb hs hin x v
    obtain ⟨w, u, hu, hw, hlane⟩ := ih (ht.redShadow.trans hr) (ht.bad.trans hb) ht.wf
      (fun q' h => hl q' (List.mem_cons_of_mem q h))
      (fun a j h => by
        have := hg a j (carried_cons.mpr (.inr h))
        rwa [byteAt, ← ht.mem] at this)
      (putAt v q.pos (rawBytes s.mem q.pa q.len))
    refine ⟨w, u, ht.trans hu, by rw [List.foldl_cons, he, hw], fun j hj => ?_⟩
    obtain ⟨hyes, hno⟩ := hlane j hj
    have here := laneAt_putAt v q.pos (rawBytes s.mem q.pa q.len) hj
    rw [rawBytes_length] at here
    constructor
    · rintro ⟨a, ha⟩
      by_cases hc : ∃ a, Carried qs a j
      · exact hyes hc
      · obtain ⟨d, hd, -, hjd⟩ := (carried_cons.mp ha).resolve_right (fun h => hc ⟨a, h⟩)
        obtain ⟨-, -, hgd⟩ := hg _ _ (first d hd)
        rw [hno (fun a h => hc ⟨a, h⟩), here, if_pos (by omega), hjd, ← hgd, Nat.add_sub_cancel_left]
        simp [rawBytes, hd]
    · intro hc
      have hout : ¬ (q.pos ≤ j ∧ j < q.pos + q.len) := by
        rintro ⟨h1, h2⟩
        refine hc (q.pa + (j - q.pos)) (carried_cons.mpr (.inl ⟨j - q.pos, by omega, rfl, by omega⟩))
      rw [hno (fun a h => hc a (carried_cons.mpr (.inr h))), here, if_neg hout]

end

end Sys2Proof.Proofs

/-! SUPPORT. The load forms in the core's own scratchpad (R189 to R192): their ranges, the value that they land, and what else they
change. -/

namespace Sys2Proof.Proofs

open Sys2Proof Machine Laws

/-! ### Elements -/

theorem elemBytes_dvd (ty : ElemTy) : elemBytes ty ∣ 8 := by cases ty <;> decide
theorem lanes_mul_elemBytes (ty : ElemTy) : ty.lanes * elemBytes ty = 256 := by cases ty <;> rfl

theorem vecAlign_dvd (ty : ElemTy) (r : RegRef) : vecAlign ty r ∣ 32 := by
  unfold vecAlign
  split
  · exact Nat.dvd_refl 32
  · exact (elemBytes_dvd ty).trans (by decide)

theorem vecBytes_le (r : RegRef) : vecBytes r ≤ 256 := by unfold vecBytes; split <;> omega
theorem vecBytes_pos (r : RegRef) : 0 < vecBytes r := by unfold vecBytes; split <;> omega

theorem laneAt_zero (w i : Nat) : laneAt w 0 i = 0 := by
  rw [laneAt, BitVec.ofNat_eq_ofNat, BitVec.toNat_zero, Nat.zero_div, Nat.zero_mod]

/-! ### Addresses in the aperture -/

theorem toNat_aperture {o : Nat} (ho : o ≤ 2 ^ 20) : (BitVec.ofNat 64 (apertureBase + o)).toNat = apertureBase + o := by
  rw [BitVec.toNat_ofNat, Nat.mod_eq_of_lt (by unfold apertureBase; omega)]

theorem aperture_aligned {o align : Nat} (ha : align ∣ 32) (ho : o % align = 0) : (apertureBase + o) % align = 0 :=
  Nat.mod_eq_zero_of_dvd ((ha.trans (by decide)).add (Nat.dvd_of_mod_eq_zero ho))

/-- Ranges of the aperture, by their offsets. -/
def padRanges (n : Nat) (os : List Nat) : List (Nat × Nat) := os.map (fun o => (apertureBase + o, n))

theorem inAperture_padRanges {n : Nat} {os : List Nat} (h : ∀ o ∈ os, o < 2 ^ 20) : inAperture (padRanges n os) = true := by
  rw [inAperture, List.all_eq_true]
  intro r hr
  obtain ⟨o, ho, rfl⟩ := List.mem_map.mp hr
  have := h o ho
  rw [Bool.and_eq_true, decide_eq_true_eq, decide_eq_true_eq]
  unfold vaTop apertureBase
  omega

section
variable {s : State} (hp : plainScratch s)
include hp

theorem meetsTst_plain (rs : List (Nat × Nat)) : meetsTst s s.issue.ctx rs = false := by
  obtain ⟨-, -, h0, h1, h2, h3⟩ := hp
  simp [meetsTst, Core.ops, h0, h1, h2, h3]

/-- An access of one range of the own scratchpad. -/
theorem gives_accessSpans_pad {acc : Acc} (ha : acc = .read ∨ acc = .write) {align o n : Nat} (hin : inScratch s o n)
    (hd : align ∣ 32) (ho : o % align = 0)
    (hh : acc = .read ∨ heldShard s (dieOf s.issue.ctx) (issuer s).region.space (apertureBase + o) n = false) :
    ∃ ps, Gives (accessSpans acc align [(apertureBase + o, n)]) s ps s ∧ SpansOver (coreOf s.issue.ctx) o n ps := by
  obtain ⟨hn, hr⟩ := hin
  obtain ⟨ps, hps, hover⟩ := translateRange_aperture (s := s) (v := s.view s.issue.ctx) rfl ha hn hr
  refine ⟨ps, gives_accessSpans (meetsTst_plain hp _) ?_ (hh.imp_right fun h r hr => List.mem_singleton.mp hr ▸ h), hover⟩
  rw [transRanges, if_neg (not_not.mpr (aperture_aligned hd ho)), hps]
  simp [transRanges]

/-- A read of elements of the own scratchpad. -/
theorem gives_accessSpans_elements {n : Nat} (hn : n ∣ 8) {os : List Nat} (h : ∀ o ∈ os, inScratch s o n ∧ o % n = 0) :
    Gives (accessSpans .read n (padRanges n os)) s (os.map (elemSpan (coreOf s.issue.ctx) n)) s := by
  refine gives_accessSpans (meetsTst_plain hp _) ?_ (.inl rfl)
  have h0 : 0 < n := Nat.pos_of_dvd_of_pos hn (by norm_num)
  induction os with
  | nil => rfl
  | cons o os ih =>
    obtain ⟨⟨hlen, hr⟩, hal⟩ := h o List.mem_cons_self
    have page : o % 65536 + n ≤ 65536 := by
      have hd : n ∣ 65536 - o % 65536 := Nat.dvd_sub (hn.trans (by decide))
        ((Nat.dvd_mod_iff (hn.trans (by decide))).mpr (Nat.dvd_of_mod_eq_zero hal))
      have := Nat.le_of_dvd (by omega) hd
      omega
    have first := translateRange_element (s := s) (v := s.view s.issue.ctx) rfl (.inl rfl) hlen h0 page (hr 0 h0)
    rw [padRanges, List.map_cons, transRanges, if_neg (not_not.mpr (aperture_aligned (hn.trans (by decide)) hal)), first]
    dsimp only
    rw [← padRanges, ih (fun o' ho' => h o' (List.mem_cons_of_mem o ho'))]
    rfl

end

/-! ### The loads -/

section
variable {s : State} (hp : plainScratch s) (hc : canonical s)
include hp hc

/-- A load of several elements from the own scratchpad. -/
theorem gives_loadInto_pad {align : Nat} {rs : List (Nat × Nat)} {ps : List Span} {place : Nat → Nat} {rep : Option Word}
    {old : VecReg} {file idx : Nat} (hps : Gives (accessSpans .read align rs) s ps s) (hown : inAperture rs = true) (g : Nat → Byte)
    (hg : ∀ a j, Carried (loadPieces place rep 0 ps) a j → InPad a ∧ j < 256 ∧ byteAt s a = g j) :
    ∃ w u, timesOnly s u ∧ Gives (loadInto align rs place rep old file idx) s () (landed u file idx w 8) ∧
      ∀ j < 256, ((∃ a, Carried (loadPieces place rep 0 ps) a j) → laneAt 8 w j = (g j).toNat) ∧
        ((∀ a, ¬ Carried (loadPieces place rep 0 ps) a j) → laneAt 8 w j = laneAt 8 old j) := by
  obtain ⟨hr, hb, -⟩ := hp
  obtain ⟨-, hs, -⟩ := hc
  obtain ⟨w, u, hu, hw, hlane⟩ := foldl_readPiece_pad hr hb hs g (fun q h => loadPieces_len_pos h) hg (s.issuerOf s.issue.ctx) old
  have h := gives_loadInto_now place rep old file idx hps (.inl hown) (.inl hown)
  rw [hw, hown] at h
  exact ⟨w, u, hu.timesOnly hs, h, hlane⟩

theorem gives_loadBytes_element (hk : coreOf s.issue.ctx < 1024) {n o : Nat} (hn : n ∣ 8) (hin : inScratch s o n) (ho : o % n = 0) :
    ∃ u, timesOnly s u ∧
      Gives (loadBytes true n [(apertureBase + o, n)]) s (rawBytes s.mem (scratchPa (coreOf s.issue.ctx) o) n, none) u := by
  have hps := gives_accessSpans_elements hp hn (os := [o]) (fun o' h => by rw [List.mem_singleton.mp h]; exact ⟨hin, ho⟩)
  obtain ⟨hr, hb, -⟩ := hp
  obtain ⟨-, hs, -⟩ := hc
  have h0 : 0 < n := Nat.pos_of_dvd_of_pos hn (by norm_num)
  have pad : InPad (scratchPa (coreOf s.issue.ctx) o) := ⟨_, hk, o, by have := hin.1; omega, rfl⟩
  obtain ⟨u, hu, he⟩ := readFor_pad hr hb hs (ps := [elemSpan (coreOf s.issue.ctx) n o])
    (fun p h => by rw [List.mem_singleton.mp h]; exact pad) (s.issuerOf s.issue.ctx)
  refine ⟨u, hu.timesOnly hs, gives_bind hps (gives_bind (gives_get s) ?_)⟩
  rw [List.map_singleton, he, List.flatMap_singleton]
  exact gives_bind (gives_set u s) (gives_pure _ u)

variable (hk : coreOf s.issue.ctx < 1024)
include hk

theorem exec_lds_pad {ty : ElemTy} {dst : RegRef} {base : BitVec 5} {addr : LAddr} {o : Nat}
    (hea : Reads (eaOf base addr) s (BitVec.ofNat 64 (apertureBase + o))) (hin : inScratch s o (elemBytes ty))
    (ho : o % elemBytes ty = 0) : ∃ u, timesOnly s u ∧ exec (.lds ty dst base addr) s =
      .next (landed u dst.file.code dst.idx.toNat
        ((extElem ty (leNat (rawBytes s.mem (scratchPa (coreOf s.issue.ctx) o) (elemBytes ty)))).setWidth 2048) 8) := by
  have h0 : 0 < elemBytes ty := Nat.pos_of_dvd_of_pos (elemBytes_dvd ty) (by norm_num)
  have hlt : o < 2 ^ 20 := by have := hin.1; omega
  obtain ⟨u, hu, hload⟩ := gives_loadBytes_element hp hc hk (elemBytes_dvd ty) hin ho
  have hown : inAperture [(apertureBase + o, elemBytes ty)] = true :=
    inAperture_padRanges (os := [o]) (fun o' h => by rw [List.mem_singleton.mp h]; exact hlt)
  rw [← toNat_aperture hlt.le] at hown hload
  have h := exec_lds (dst := dst) hea hload (.inl hown)
  rw [hown] at h
  exact ⟨u, hu, h⟩

theorem exec_vld_pad {ty : ElemTy} {dst : RegRef} {base : BitVec 5} {addr : LAddr} {o : Nat}
    (hea : Reads (eaOf base addr) s (BitVec.ofNat 64 (apertureBase + o))) (hi : Reads (lVecIndex dst) s ())
    (hin : inScratch s o (vecBytes dst)) (ho : o % vecAlign ty dst = 0) :
    ∃ w u, timesOnly s u ∧ exec (.vld ty dst base addr) s = .next (landed u dst.file.code dst.idx.toNat w 8) ∧
      ∀ j < 256, laneAt 8 w j =
        if j < vecBytes dst then (byteAt s (scratchPa (coreOf s.issue.ctx) (o + j))).toNat else 0 := by
  have hlen := hin.1
  have h0 := vecBytes_pos dst
  have h256 := vecBytes_le dst
  obtain ⟨ps, hps, hover⟩ := gives_accessSpans_pad hp (.inl rfl) hin (vecAlign_dvd ty dst) ho (.inl rfl)
  have carried (j : Nat) (a : Nat) := carried_spansOver hover (some (BitVec.ofNat 64 (apertureBase + o))) 0 a j
  obtain ⟨w, u, hu, hload, hlane⟩ := gives_loadInto_pad hp hc hps
    (inAperture_padRanges (os := [o]) (fun o' h => by rw [List.mem_singleton.mp h]; omega))
    (rep := some (BitVec.ofNat 64 (apertureBase + o))) (old := 0) (file := dst.file.code) (idx := dst.idx.toNat)
    (fun j => byteAt s (scratchPa (coreOf s.issue.ctx) (o + j)))
    (fun a j h => by
      obtain ⟨d, hd, rfl, rfl⟩ := (carried j a).mp h
      rw [Nat.zero_add]
      exact ⟨⟨_, hk, o + d, by omega, rfl⟩, by omega, rfl⟩)
  refine ⟨w, u, hu, runSlot_ok (gives_bind hi (gives_bind hea ?_)), fun j hj => ?_⟩
  · rw [toNat_aperture (by omega)]
    exact hload
  · obtain ⟨hyes, hno⟩ := hlane j hj
    split
    · next h => exact hyes ⟨_, (carried j _).mpr ⟨j, h, rfl, (Nat.zero_add j).symm⟩⟩
    · next h =>
      rw [hno (fun a ha => by
        obtain ⟨d, hd, -, rfl⟩ := (carried j a).mp ha
        omega)]
      exact laneAt_zero 8 j

/-- A load of elements from the own scratchpad, that at offset `off l` into lane `l` for the lanes listed: the other lanes keep what
the register held. -/
theorem gives_loadInto_elements {n : Nat} (hn : n ∣ 8) {ls : List Nat} {off place : Nat → Nat} {rep : Option Word} {old : VecReg}
    {file idx : Nat} (hls : ∀ l ∈ ls, inScratch s (off l) n ∧ off l % n = 0 ∧ (l + 1) * n ≤ 256)
    (hplace : ∀ i l, ls[i]? = some l → place (i * n) = l * n) :
    ∃ w u, timesOnly s u ∧
      Gives (loadInto n (padRanges n (ls.map off)) place rep old file idx) s () (landed u file idx w 8) ∧
      ∀ l b, (l + 1) * n ≤ 256 → b < n → laneAt 8 w (l * n + b) =
        if l ∈ ls then (byteAt s (scratchPa (coreOf s.issue.ctx) (off l + b))).toNat else laneAt 8 old (l * n + b) := by
  have h0 : 0 < n := Nat.pos_of_dvd_of_pos hn (by norm_num)
  have divMod : ∀ l d, d < n → (l * n + d) / n = l ∧ (l * n + d) % n = d := fun l d hd => by
    rw [Nat.mul_comm, Nat.mul_add_div h0, Nat.mul_add_mod, Nat.div_eq_of_lt hd, Nat.mod_eq_of_lt hd]
    exact ⟨rfl, rfl⟩
  have fits : ∀ l d, (l + 1) * n ≤ 256 → d < n → l * n + d < 256 := fun l d hl hd => by
    rw [Nat.succ_mul] at hl
    omega
  have mem : ∀ o ∈ ls.map off, inScratch s o n ∧ o % n = 0 := fun o h => by
    obtain ⟨l, hl, rfl⟩ := List.mem_map.mp h
    exact ⟨(hls l hl).1, (hls l hl).2.1⟩
  have carried := carried_elements (k := coreOf s.issue.ctx) off rep hplace
  obtain ⟨w, u, hu, hload, hlane⟩ := gives_loadInto_pad hp hc (gives_accessSpans_elements hp hn mem)
    (inAperture_padRanges (fun o h => by have := (mem o h).1.1; omega)) (place := place) (rep := rep) (old := old) (file := file)
    (idx := idx) (fun j => byteAt s (scratchPa (coreOf s.issue.ctx) (off (j / n) + j % n)))
    (fun a j h => by
      obtain ⟨l, hl, d, hd, rfl, rfl⟩ := (carried a j).mp h
      obtain ⟨⟨hlen, -⟩, -, hle⟩ := hls l hl
      rw [(divMod l d hd).1, (divMod l d hd).2]
      exact ⟨⟨_, hk, off l + d, by omega, rfl⟩, fits l d hle hd, rfl⟩)
  refine ⟨w, u, hu, hload, fun l b hl hb => ?_⟩
  obtain ⟨hyes, hno⟩ := hlane _ (fits l b hl hb)
  split
  · next h =>
    rw [hyes ⟨_, (carried _ _).mpr ⟨l, h, b, hb, rfl, rfl⟩⟩, (divMod l b hb).1, (divMod l b hb).2]
  · next h =>
    refine hno (fun a ha => h ?_)
    obtain ⟨l', hl', d, hd, -, he⟩ := (carried a _).mp ha
    rwa [← (divMod l b hb).1, he, (divMod l' d hd).1]

theorem exec_vlds_pad {ty : ElemTy} {dst : RegRef} {base stride : BitVec 5} {off : Int} {ea st : Word} {o : Nat → Nat}
    (hi : Reads (lVecIndex dst) s ()) (hea : Reads (eaOff base off) s ea) (hst : Reads (readP stride) s st)
    (ho : ∀ i < ty.lanes, (ea + BitVec.ofNat 64 i * st).toNat = apertureBase + o i ∧ inScratch s (o i) (elemBytes ty) ∧
      o i % elemBytes ty = 0) :
    ∃ w u, timesOnly s u ∧ exec (.vlds ty dst base stride off) s = .next (landed u dst.file.code dst.idx.toNat w 8) ∧
      ∀ i < ty.lanes, ∀ b < elemBytes ty,
        laneAt 8 w (i * elemBytes ty + b) = (byteAt s (scratchPa (coreOf s.issue.ctx) (o i + b))).toNat := by
  have fits : ∀ i < ty.lanes, (i + 1) * elemBytes ty ≤ 256 := fun i h => by
    rw [← lanes_mul_elemBytes ty]
    exact Nat.mul_le_mul_right _ h
  have hrs : strideRanges ty ea st = padRanges (elemBytes ty) ((List.range ty.lanes).map o) := by
    rw [strideRanges, padRanges, List.map_map]
    exact List.map_congr_left (fun i hi => congrArg (·, elemBytes ty) (ho i (List.mem_range.mp hi)).1)
  obtain ⟨w, u, hu, hload, hlane⟩ := gives_loadInto_elements hp hc hk (elemBytes_dvd ty) (ls := List.range ty.lanes) (off := o)
    (place := id) (rep := none) (old := 0) (file := dst.file.code) (idx := dst.idx.toNat)
    (fun l hl => by
      rw [List.mem_range] at hl
      exact ⟨(ho l hl).2.1, (ho l hl).2.2, fits l hl⟩)
    (fun i l h => by
      rw [List.getElem?_eq_some_iff] at h
      obtain ⟨-, rfl⟩ := h
      rw [List.getElem_range]
      rfl)
  rw [← hrs] at hload
  refine ⟨w, u, hu, runSlot_ok (gives_bind hi (gives_bind hea (gives_bind hst hload))), fun i h b hb => ?_⟩
  rw [hlane i b (fits i h) hb, if_pos (List.mem_range.mpr h)]

/-- The active lanes of a gather or scatter, within its part (R192). -/
def activeLanes (ty : ElemTy) (ix : VecReg) : List Nat := (List.range (min 64 ty.lanes)).filter (fun i => laneAt 32 ix i != 0xFFFFFFFF)

end

theorem mem_activeLanes {ty : ElemTy} {ix : VecReg} {i : Nat} :
    i ∈ activeLanes ty ix ↔ i < min 64 ty.lanes ∧ laneAt 32 ix i ≠ 0xFFFFFFFF := by
  rw [activeLanes, List.mem_filter, List.mem_range, bne_iff_ne]

theorem gatherLanes_eq (ty : ElemTy) (h : BitVec 2) (ix : VecReg) (ea : Word) : gatherLanes ty h ix ea =
    (activeLanes ty ix).map (fun i => (h.toNat * 64 + i, (ea + BitVec.ofNat 64 (laneAt 32 ix i * elemBytes ty)).toNat)) := by
  unfold gatherLanes activeLanes
  dsimp only
  induction List.range (min 64 ty.lanes) with
  | nil => rfl
  | cons i l ih =>
    rw [List.filterMap_cons, List.filter_cons]
    by_cases hx : laneAt 32 ix i = 0xFFFFFFFF
    · simp only [hx, if_true, ih, bne_self_eq_false, Bool.false_eq_true, if_false]
    · simp only [hx, if_false, ih, bne_iff_ne.mpr hx, if_true, List.map_cons]

section
variable {s : State} (hp : plainScratch s) (hc : canonical s) (hk : coreOf s.issue.ctx < 1024)
include hp hc hk

theorem exec_vgath_pad {ty : ElemTy} {h : BitVec 2} {dst : RegRef} {base : BitVec 5} {index : BitVec 10} {off : Int} {ea : Word}
    {ix old : VecReg} {o : Nat → Nat} (hi : Reads (lVecIndex dst) s ()) (hea : Reads (eaOff base off) s ea)
    (hii : Reads (vecIndex index.toNat) s ()) (hix : Reads (readReg dst.file.code index.toNat) s ix)
    (hold : Reads (readReg dst.file.code dst.idx.toNat) s old)
    (ho : ∀ i ∈ activeLanes ty ix, (ea + BitVec.ofNat 64 (laneAt 32 ix i * elemBytes ty)).toNat = apertureBase + o i ∧
      inScratch s (o i) (elemBytes ty) ∧ o i % elemBytes ty = 0)
    (hpart : h.toNat * 64 + min 64 ty.lanes ≤ ty.lanes) :
    ∃ w busy u, timesOnly s u ∧
      exec (.vgath ty h dst base index off) s = .next ((landed u dst.file.code dst.idx.toNat w 8).updCore
        (coreOf (landed u dst.file.code dst.idx.toNat w 8).issue.ctx) (fun k => { k with lBusy := busy })) ∧
      ∀ l < ty.lanes, ∀ b < elemBytes ty, laneAt 8 w (l * elemBytes ty + b) =
        if l ∈ (activeLanes ty ix).map (h.toNat * 64 + ·) then
          (byteAt s (scratchPa (coreOf s.issue.ctx) (o (l - h.toNat * 64) + b))).toNat else laneAt 8 old (l * elemBytes ty + b) := by
  have fits : ∀ i < ty.lanes, (i + 1) * elemBytes ty ≤ 256 := fun i h => by
    rw [← lanes_mul_elemBytes ty]
    exact Nat.mul_le_mul_right _ h
  have hrs : (gatherLanes ty h ix ea).map (fun (_, a) => (a, elemBytes ty)) =
      padRanges (elemBytes ty) (((activeLanes ty ix).map (h.toNat * 64 + ·)).map (fun l => o (l - h.toNat * 64))) := by
    rw [gatherLanes_eq, padRanges, List.map_map, List.map_map, List.map_map]
    refine List.map_congr_left (fun i hi => ?_)
    simp only [Function.comp_apply, Nat.add_sub_cancel_left]
    exact congrArg (·, elemBytes ty) (ho i hi).1
  have h0 : 0 < elemBytes ty := Nat.pos_of_dvd_of_pos (elemBytes_dvd ty) (by norm_num)
  obtain ⟨w, u, hu, hload, hlane⟩ := gives_loadInto_elements hp hc hk (elemBytes_dvd ty)
    (ls := (activeLanes ty ix).map (h.toNat * 64 + ·)) (off := fun l => o (l - h.toNat * 64))
    (place := fun p => match (gatherLanes ty h ix ea)[p / elemBytes ty]? with
      | some (j, _) => j * elemBytes ty + p % elemBytes ty
      | none => 0)
    (rep := none) (old := old) (file := dst.file.code) (idx := dst.idx.toNat)
    (fun l hl => by
      obtain ⟨i, hi, rfl⟩ := List.mem_map.mp hl
      have := (mem_activeLanes.mp hi).1
      rw [Nat.add_sub_cancel_left]
      exact ⟨(ho i hi).2.1, (ho i hi).2.2, fits _ (by omega)⟩)
    (fun i l hl => by
      rw [List.getElem?_map, Option.map_eq_some_iff] at hl
      obtain ⟨a, ha, rfl⟩ := hl
      rw [Nat.mul_div_cancel _ h0, Nat.mul_mod_left, gatherLanes_eq, List.getElem?_map, ha]
      rfl)
  rw [← hrs] at hload
  refine ⟨w, _, u, hu, runSlot_ok (gives_bind hi (gives_bind hii (gives_bind hix (gives_bind hold (gives_bind hea
    (gives_bind hload (gives_modify _ _))))))), fun l hl b hb => hlane l b (fits l hl) hb⟩

end

theorem rawBytes_pad (s : State) (k o n : Nat) :
    rawBytes s.mem (scratchPa k o) n = (List.range n).map (fun i => byteAt s (scratchPa k (o + i))) :=
  List.map_congr_left (fun i _ => by rw [byteAt, scratchPa_add])

/-- Settles O18: each form by the bytes that its pieces carry. -/
theorem scratchpadLoad : Obligations.ScratchpadLoad := by
  unfold Obligations.ScratchpadLoad
  intro ty dst base s hp hc hk byte n lands
  refine ⟨fun addr o hea => ⟨?lds, fun hi hin ho => ?vld⟩, fun off ea hi hea => ⟨fun stride st o hst ho => ?vlds, ?vgath⟩⟩
  case lds =>
    intro hin ho x
    obtain ⟨u, hu, he⟩ := exec_lds_pad hp hc hk hea hin ho
    rw [rawBytes_pad, extElem_eq_extend] at he
    exact ⟨u, hu, he⟩
  case vld =>
    obtain ⟨w, u, hu, he, hlane⟩ := exec_vld_pad hp hc hk hea hi hin ho
    exact ⟨w, ⟨u, hu, he⟩, hlane⟩
  case vlds =>
    obtain ⟨w, u, hu, he, hlane⟩ := exec_vlds_pad hp hc hk hi hea hst ho
    exact ⟨w, ⟨u, hu, he⟩, hlane⟩
  case vgath =>
    intro h index ix old o hii hix hold m on ho hpart
    obtain ⟨w, busy, u, hu, he, hlane⟩ := exec_vgath_pad hp hc hk hi hea hii hix hold
      (fun i hi => ho i (mem_activeLanes.mp hi)) hpart
    refine ⟨w, busy, ⟨u, hu, he⟩, fun i hon b hb => ?_, fun j hj hoff b hb => ?_⟩
    · have hlt : h.toNat * 64 + i < ty.lanes := lt_of_lt_of_le (Nat.add_lt_add_left hon.1 _) hpart
      have here := hlane _ hlt b hb
      rw [if_pos (List.mem_map.mpr ⟨i, mem_activeLanes.mpr hon, rfl⟩), Nat.add_sub_cancel_left] at here
      exact here
    · refine (hlane j hj b hb).trans (if_neg fun hmem => ?_)
      obtain ⟨i, hi, rfl⟩ := List.mem_map.mp hmem
      exact hoff i (mem_activeLanes.mp hi) rfl

end Sys2Proof.Proofs

/-! SUPPORT. Stores to the core's own scratchpad (R177, R185, R189, R190): the bytes that they write, and what else they change. -/

namespace Sys2Proof.Proofs

open Sys2Proof Machine Laws

theorem putBytes_append (m : Map Byte) (pa : Nat) (as bs : List Byte) :
    putBytes m pa (as ++ bs) = putBytes (putBytes m pa as) (pa + as.length) bs := by
  induction as generalizing m pa with
  | nil => rfl
  | cons b as ih => rw [List.cons_append, putBytes, ih, putBytes, List.length_cons, Nat.add_assoc, Nat.add_comm 1]

/-- From `s` to `t` no context, cluster or die has changed, no race shadow, and not the record of the bundle being issued. -/
def KeepsUnits (s t : State) : Prop := KeepsCtxs s t ∧ t.clusters = s.clusters ∧ t.dies = s.dies ∧ t.race = s.race

theorem KeepsUnits.trans {s t u : State} (h : KeepsUnits s t) (k : KeepsUnits t u) : KeepsUnits s u := by
  obtain ⟨h1, h2, h3, h4⟩ := h
  obtain ⟨k1, k2, k3, k4⟩ := k
  exact ⟨h1.trans k1, k2.trans h2, k3.trans h3, k4.trans h4⟩

/-- A write outside HBM4E and the vaults records no race (R318). -/
theorem raceAfter_of_inPad {pa : Nat} (h : InPad pa) (r : Map (BitVec 35)) (w : Writer) (cnt : Bool) (n : Nat) :
    raceAfter r w cnt pa n = r := by
  unfold raceAfter
  split
  · rw [shadowable_of_inPad h, Bool.not_false, Bool.or_true, if_pos rfl]
  · rfl

theorem write_keepsUnits {pa : Nat} (h : InPad pa) (s : State) (w : Writer) (cnt : Bool) (bs : List Byte) :
    KeepsUnits s (s.write w cnt pa bs) := by
  refine ⟨write_keepsCtxs s w cnt pa bs, (write_units s w cnt pa bs).2, ?_⟩
  unfold State.write
  dsimp only
  split
  · exact ⟨rfl, rfl⟩
  · rw [watchCheck_eq]
    split <;> exact ⟨rfl, raceAfter_of_inPad h _ _ _ _⟩

/-- Bytes written over the spans of a scratchpad's range. -/
theorem writeSpans_pad {k : Nat} (hk : k < 1024) (w : Writer) {s : State} {o n : Nat} {ps : List Span} (h : SpansOver k o n ps)
    {bs : List Byte} (hb : bs.length = n) :
    KeepsUnits s (writeSpans s w ps bs) ∧ (writeSpans s w ps bs).mem = putBytes s.mem (scratchPa k o) bs := by
  induction ps generalizing s o n bs with
  | nil =>
    have h : n = 0 := h
    rw [List.length_eq_zero_iff.mp (hb.trans h)]
    exact ⟨⟨KeepsCtxs.refl s, rfl, rfl, rfl⟩, rfl⟩
  | cons p ps ih =>
    obtain ⟨hpa, hcnt, hlen, ho, hps⟩ := h
    have pad : InPad p.pa := ⟨k, hk, o, ho, hpa⟩
    obtain ⟨hu, hm⟩ := ih (s := s.write w p.cnt p.pa (bs.take p.len)) (bs := bs.drop p.len) hps (by rw [List.length_drop, hb])
    rw [writeSpans, storeAt_eq_write (mgmtOff_of_inPad pad)]
    refine ⟨(write_keepsUnits pad s w p.cnt _).trans hu, ?_⟩
    have e : scratchPa k (o + p.len) = scratchPa k o + (bs.take p.len).length := by
      rw [scratchPa_add, List.length_take, hb, Nat.min_eq_left hlen]
    rw [hm, write_mem, e, hpa, ← putBytes_append, List.take_append_drop]

/-- What a store of bytes to an offset of the own scratchpad leaves: the bytes in their place, and else but the logical time of
the issuing context nothing that a program sees. -/
def Stored (s : State) (o : Nat) (bs : List Byte) (t : State) : Prop :=
  t.ctxs = (s.updCtx s.issue.ctx (fun x => { x with ltime := (t.ctx s.issue.ctx).ltime })).ctxs ∧ t.clusters = s.clusters ∧
    t.dies = s.dies ∧ t.race = s.race ∧ t.issue = s.issue ∧
    ∀ a, byteAt t a = if scratchPa (coreOf s.issue.ctx) o ≤ a ∧ a < scratchPa (coreOf s.issue.ctx) o + bs.length then
      bs.getD (a - scratchPa (coreOf s.issue.ctx) o) 0 else byteAt s a

theorem gives_storeRanges_pad {s : State} (hp : plainScratch s) (hc : canonical s) (hk : coreOf s.issue.ctx < 1024) {align o n : Nat}
    {bs : List Byte} (hb : bs.length = n) (h0 : 0 < n) (hin : inScratch s o n) (hd : align ∣ 32) (ho : o % align = 0)
    (hh : heldShard s (dieOf s.issue.ctx) (issuer s).region.space (apertureBase + o) n = false) :
    ∃ t, Gives (storeRanges align [(apertureBase + o, n)] bs) s () t ∧ Stored s o bs t := by
  obtain ⟨ps, hps, hover⟩ := gives_accessSpans_pad hp (.inr rfl) hin hd ho (.inr hh)
  obtain ⟨hm, hs, -⟩ := hc
  have hown : inAperture [(apertureBase + o, n)] = true :=
    inAperture_padRanges (os := [o]) (fun o' h => by rw [List.mem_singleton.mp h]; have := hin.1; omega)
  obtain ⟨⟨hkeep, hcl, hdi, hra⟩, hmem⟩ :=
    writeSpans_pad hk (s.ctxWriter s.issue.ctx (issuer s).interval) (s := s) hover hb
  obtain ⟨v, hv⟩ : ∃ v, v = writeSpans s (s.ctxWriter s.issue.ctx (issuer s).interval) ps bs := ⟨_, rfl⟩
  rw [← hv] at hkeep hcl hdi hra hmem
  have hw : Map.wf {} v.ctxs = true := hkeep.1 ▸ hs
  have ht := onlyTimes_timeSpans onlyTimes_timeStore hw s.issue.ctx ps
  obtain ⟨tcl, tdi, tra⟩ := ht.units
  refine ⟨timeSpans timeStore v s.issue.ctx ps, ?_, ?_, tcl.trans hcl, tdi.trans hdi, tra.trans hra, ht.issue.trans hkeep.2,
    fun a => ?_⟩
  · refine gives_bind hps (gives_bind (gives_needRequests ?_) ?_)
    · rw [if_pos hown]
      exact .inl rfl
    · have h := gives_modify (fun s : State => timeSpans timeStore
        (writeSpans s (s.ctxWriter s.issue.ctx (issuer s).interval) ps bs) s.issue.ctx ps) s
      rw [hv]
      simpa only [hown, if_true] using h
  · have := ht.ctxs hw
    rw [State.updCtx, hkeep.1] at this
    exact this
  · rw [byteAt, ht.mem, hmem]
    exact get_putBytes hm _ bs a

/-- Settles O19: both forms by what `storeRanges` leaves in the own scratchpad. -/
theorem scratchpadStore : Obligations.ScratchpadStore := by
  unfold Obligations.ScratchpadStore
  intro ty src base addr s o hp hc hk hea pa stores
  have outcome : ∀ {n v align : Nat} {out : Host.Outcome State Fault Refusal}, 0 < n → inScratch s o n → align ∣ 32 →
      o % align = 0 →
      (∀ t, Gives (storeRanges align [((BitVec.ofNat 64 (apertureBase + o)).toNat, n)] (leBytes n v)) s () t → out = .next t) →
      stores n v out := by
    intro n v align out h0 hin hd ho hout hh
    obtain ⟨t, ht, hctx, hcl, hdi, hra, hi, hbyte⟩ := gives_storeRanges_pad hp hc hk (leBytes_length n v) h0 hin hd ho hh
    rw [leBytes_length] at hbyte
    refine ⟨t, hout t ?_, hctx, hcl, hdi, hra, hi, fun i h => ?_, fun a ha => ?_⟩
    · rwa [toNat_aperture (by have := hin.1; omega)]
    · rw [hbyte, if_pos ⟨by omega, by omega⟩, Nat.add_sub_cancel_left, getD_leBytes _ _ _ h]
    · rw [hbyte, if_neg (by omega)]
  refine ⟨fun v hv hin ho => ?sts, fun v hi hv hin ho => ?vst⟩
  case sts =>
    exact outcome (Nat.pos_of_dvd_of_pos (elemBytes_dvd ty) (by norm_num)) hin ((elemBytes_dvd ty).trans (by decide)) ho
      (fun t ht => runSlot_ok (gives_bind hv (gives_bind hea ht)))
  case vst =>
    exact outcome (vecBytes_pos src) hin (vecAlign_dvd ty src) ho
      (fun t ht => runSlot_ok (gives_bind hi (gives_bind hv (gives_bind hea ht))))

end Sys2Proof.Proofs

/-! SUPPORT. ATOM and PREF (R193, R195, R197), and the misalignment trap of an access (R181). -/

namespace Sys2Proof.Proofs

open Sys2Proof Machine Laws

/-! ### ATOM (R193, R195) -/

theorem postedNext_interval (s : State) (n : Nat) (k : PostKind) : postedNext s n k =
    { s.updCtx s.issue.ctx (fun x => { x with posted := x.posted ++ [⟨n, x.interval, k, s.nextId⟩] }) with
      nextId := s.nextId + 1 } := by
  rw [postedNext, posted_interval]

section
variable {s : State} {src : RegRef} {x y ea : Word} {op : AtomOp}

/-- The second source of cas. -/
theorem reads_second (hy : if op = .cas then Reads (readScalar src.file.code (src.idx.toNat + 1)) s y else y = 0) :
    Reads (if op = .cas then readScalar src.file.code (src.idx.toNat + 1) else pure 0) s y := by
  split
  · next h => rwa [if_pos h] at hy
  · next h =>
    rw [if_neg h] at hy
    exact hy ▸ gives_pure _ s

variable {ty : ElemTy} {base : BitVec 5} {off : Int} (hx : Reads (readScalar src.file.code src.idx.toNat) s x)
  (hea : Reads (eaOff base off) s ea)
include hx hea

theorem exec_atom {t : State} {p : Span} {ps : List Span} (dst : Option RegRef)
    (hy : if op = .cas then Reads (readScalar src.file.code (src.idx.toNat + 1)) s y else y = 0)
    (hps : Gives (accessSpans .atomic (elemBytes ty) [(ea.toNat, elemBytes ty)]) s (p :: ps) t) (hf : requestsFree t 1) :
    exec (.atom op ty dst src base off) s = .next (postedNext
      (match dst with | some d => awaiting t [(d.file.code, d.idx.toNat)] none | none => t) t.issue.order
      (.atom op ty ea p.pa x y (if dst.isSome then some t.issue.order else none))) := by
  rw [postedNext_interval]
  refine runSlot_ok (gives_bind hx (gives_ite_bind (reads_second hy) (gives_bind hea (gives_bind hps
    (gives_bind (gives_needRequests hf) (gives_bind (gives_get t) ?_))))))
  cases dst with
  | some d => exact gives_bind (gives_pendResult _ _ t) (gives_bind (gives_modCtx _ _) (gives_modify _ _))
  | none => exact gives_bind (gives_modCtx _ t) (gives_modify _ _)

end

/-! ### PREF (R197) -/

theorem foldl_retain (l : List Nat) (s : State) : ∃ r, l.foldl retain s = { s with retained := r } := by
  induction l generalizing s with
  | nil => exact ⟨s.retained, rfl⟩
  | cons a l ih =>
    obtain ⟨r, hr⟩ := ih (retain s a)
    exact ⟨r, hr⟩

theorem exec_pref {action : BitVec 2} {base : BitVec 5} {off : Int} {s : State} {ea : Word} (hea : Reads (eaOff base off) s ea) :
    ∃ r, exec (.pref action base off) s = .next { s with retained := r } := by
  show ∃ r, execPref action base off s = .next { s with retained := r }
  unfold execPref
  rw [runSlot_bind hea, runSlot_bind (gives_get s)]
  dsimp only
  split
  · exact ⟨s.retained, runSlot_ok (gives_pure () s)⟩
  · split
    · exact ⟨s.retained, runSlot_ok (gives_pure () s)⟩
    · split
      · obtain ⟨r, hr⟩ := foldl_retain _ s
        exact ⟨r, runSlot_ok (hr ▸ gives_set _ s)⟩
      · exact ⟨_, runSlot_ok (gives_set _ s)⟩
      · exact ⟨s.retained, runSlot_ok (gives_pure () s)⟩

/-! ### Misalignment (R181) -/

theorem traps_misaligned {acc : Acc} {s : State} {align len : Nat} {ea : Word}
    (hm : meetsTst s s.issue.ctx [(ea.toNat, len)] = false) (ha : ea.toNat % align ≠ 0) :
    Traps (accessSpans acc align [(ea.toNat, len)]) s 0x03 ea := by
  have h := traps_accessSpans_misaligned (acc := acc) hm ha
  rwa [BitVec.ofNat_toNat, BitVec.setWidth_eq] at h

/-- Settles O21: an atomic by `exec_atom`, a prefetch by `exec_pref`, and misalignment as the first check of an access. -/
theorem atomicAndPrefetch : Obligations.AtomicAndPrefetch := by
  unfold Obligations.AtomicAndPrefetch
  refine ⟨⟨fun op ty dst src base off s t ea x y p ps hx hy hea hps hf => exec_atom hx hea dst hy hps hf,
    fun action base off s ea hea => exec_pref hea⟩, ?_⟩
  intro ty r base addr off op d s ea v ha hm hf traps
  refine ⟨fun hea => ⟨?lds, fun hv => ?sts⟩, fun hea hv hcas => ?atom⟩
  case lds =>
    exact runSlot_trap (traps_bind_right hea (traps_bind_right (gives_needRequests_unlessOwn (.inr hf))
      (traps_bind_left (traps_bind_left (traps_misaligned hm ha)))))
  case sts => exact runSlot_trap (traps_bind_right hv (traps_bind_right hea (traps_bind_left (traps_misaligned hm ha))))
  case atom =>
    obtain ⟨y, hy⟩ : ∃ y, if op = .cas then Reads (readScalar r.file.code (r.idx.toNat + 1)) s y else y = 0 := by
      split
      · next h => exact hcas h
      · exact ⟨0, rfl⟩
    exact runSlot_trap (traps_bind_right hv (traps_ite_bind (reads_second hy) (traps_bind_right hea
      (traps_bind_left (traps_misaligned hm ha)))))

end Sys2Proof.Proofs

/-! SUPPORT. The lathe's forms (R200 to R203, R207) and circular buffers (R210 to R213). -/

namespace Sys2Proof.Proofs

open Sys2Proof Machine Laws

/-! ### WSET (R201) -/

section
variable {s : State} {q : BitVec 3} {base : BitVec 5} {b a : Word} {l : LatheSet}

theorem reads_headOf (q : BitVec 3) (s : State) : Reads (headOf q) s (Map.get {} (issuer s).heads q.toNat) :=
  gives_bind (gives_curCtx s) (gives_pure _ s)

/-- The walk of a parameter set may begin at its base (R201). -/
theorem gives_walkAligned (hb : (b + a).toNat % 16 = 0) (hl : l.aligned = true) (t : State) :
    Gives (need ((b + a).toNat % 16 == 0 && l.aligned) 0x03 (b + a)) t () t :=
  gives_need (by rw [hl, Bool.and_true, beq_iff_eq]; exact hb) _ _ t

variable (hc : (Map.get {} (issuer s).heads q.toNat).cond = .closed) (hb : Reads (readP base) s b) (ha : Reads templateAdd s a)
  (hal : (b + a).toNat % 16 = 0) (hl : l.aligned = true)
include hc hb ha hal hl

theorem exec_wset_plane {set : BitVec 5} (hs : set.toNat < (s.core (coreOf s.issue.ctx)).active.sets)
    (hp : parseSet (planeBytes (s.core (coreOf s.issue.ctx)).active (0x100 + 128 * set.toNat) 128) = some l) :
    exec (.wset q false set 0 base) s = .next (scheduled s (.wset q.toNat { Map.get {} (issuer s).heads q.toNat with
      loaded := true, mem := false, setNo := set.toNat, recAddr := 0, params := l, base := b + a })) := by
  refine runSlot_ok (gives_bind (reads_headOf q s) (gives_bind (gives_needLegal (beq_iff_eq.mpr hc) s) (gives_bind (gives_get s)
    (gives_bind hb (gives_bind ha (gives_bind (gives_pure (0 : Word) s) ?_))))))
  dsimp only
  rw [if_neg Bool.false_ne_true]
  refine gives_bind (gives_needLegal (decide_eq_true hs) s) ?_
  rw [hp]
  exact gives_bind (gives_pure l s) (gives_bind (gives_walkAligned hal hl s) (gives_act _ s))

theorem exec_wset_memory {rec : BitVec 5} {addr : Word} {bs : List Byte} {t : State} (hr : Reads (readP rec) s addr)
    (hf : requestsFree s ((addr.toNat % 64 + 191) / 64)) (hload : Gives (loadStrict true 16 addr.toNat 128) s bs t)
    (hp : parseSet bs = some l) :
    exec (.wset q true 0 rec base) s = .next (scheduled t (.wset q.toNat { Map.get {} (issuer s).heads q.toNat with
      loaded := true, mem := true, setNo := 0, recAddr := addr, params := l, base := b + a })) := by
  refine runSlot_ok (gives_bind (reads_headOf q s) (gives_bind (gives_needLegal (beq_iff_eq.mpr hc) s) (gives_bind (gives_get s)
    (gives_bind hb (gives_bind ha (gives_bind hr ?_))))))
  dsimp only
  rw [if_pos rfl]
  refine gives_bind (gives_needRequests hf) (gives_bind hload ?_)
  rw [hp]
  exact gives_bind (gives_pure l t) (gives_bind (gives_walkAligned hal hl t) (gives_act _ t))

end

/-! ### WSTAT (R207) -/

/-- A head's condition, as WSTAT gives it. -/
def condCode : HeadCond → Nat
  | .closed => 0
  | .empty => 1
  | .holding => 2

/-- The word of WSTAT, field by field. -/
theorem headWord_eq (h : Head) : headWord h = BitVec.ofNat 64 (h.pos % 2 ^ 32 * 2 ^ 32 +
    ((if h.cond = .holding ∧ h.fault = none then 1 else 0) + h.ahead.length) * 256 + (if h.loaded then 8 else 0) +
    (if h.cond = .holding ∧ h.fault.isSome then 4 else 0) + condCode h.cond) := by
  have word : headWord h = BitVec.ofNat 64 (h.pos % 2 ^ 32 * 2 ^ 32 +
    (if (h.cond == .holding && h.fault.isNone) = true then h.ahead.length + 1 else h.ahead.length) * 256 + b2n h.loaded * 8 +
    b2n (h.cond == .holding && h.fault.isSome) * 4 + condCode h.cond) := rfl
  have ahead : (if (h.cond == .holding && h.fault.isNone) = true then h.ahead.length + 1 else h.ahead.length) =
      (if h.cond = .holding ∧ h.fault = none then 1 else 0) + h.ahead.length := by
    simp only [Bool.and_eq_true, beq_iff_eq, Option.isNone_iff_eq_none]
    split <;> omega
  have loaded : b2n h.loaded * 8 = if h.loaded then 8 else 0 := by cases h.loaded <;> rfl
  have fault : b2n (h.cond == .holding && h.fault.isSome) * 4 = if h.cond = .holding ∧ h.fault.isSome then 4 else 0 := by
    simp only [b2n, Bool.and_eq_true, beq_iff_eq]
    split <;> rfl
  rw [word, ahead, loaded, fault]

theorem exec_wstat (dst : RegRef) (q : BitVec 3) (s : State) : exec (.wstat dst q) s =
    .next (scheduled s (.setReg dst.file.code dst.idx.toNat ((headWord (Map.get {} (issuer s).heads q.toNat)).setWidth 2048))) := by
  show execWstat dst q s = _
  exact runSlot_ok (gives_bind (reads_headOf q s) (gives_act _ s))

/-- Settles O22: WSET by its two sources of parameters, the other forms part by part. -/
theorem streamForms : Obligations.StreamForms := by
  unfold Obligations.StreamForms
  constructor
  · intro q set rec base s b a hc hb ha hal h
    exact ⟨fun l hs hp hl => exec_wset_plane hc hb ha hal hl hs hp,
      fun addr bs l t hr hf hload hp hl => exec_wset_memory hc hb ha hal hl hr hf hload hp⟩
  intro q s h
  refine ⟨fun n hc hl hn => ?wstart, fun drain => runSlot_ok (gives_act _ s), fun dst => ?wstat⟩
  case wstart =>
    refine runSlot_ok (gives_bind (reads_headOf q s) (gives_bind (gives_needLegal ?_ s) (gives_bind hn (gives_act _ s))))
    rw [Bool.and_eq_true, beq_iff_eq]
    exact ⟨hc, hl⟩
  case wstat =>
    have e := exec_wstat dst q s
    rw [headWord_eq] at e
    exact e

end Sys2Proof.Proofs

/-! SUPPORT. Circular buffers (R210 to R213). -/

namespace Sys2Proof.Proofs

open Sys2Proof Machine Laws

section
variable {s t : State} {cb : BitVec 4}

/-! ### CBSET (R211) -/

section
variable {base : BitVec 5} {off : Int} {p : Word} {bs : List Byte} (hp : Reads (readP base) s p) (hf : requestsFree s 1)
  (hload : Gives (loadStrict true 32 (p + BitVec.ofInt 64 off).toNat 32) s bs t)
include hp hf hload

theorem exec_cbset_invalid (hv : (parseHandle bs 0).valid = false) : exec (.cbset cb base off) s =
    .next (scheduled t (.setHandle cb.toNat { parseHandle bs 0 with valid := false })) := by
  refine runSlot_ok (gives_bind hp (gives_bind (gives_needRequests hf) (gives_bind hload ?_)))
  rw [if_neg (by rw [hv]; exact Bool.false_ne_true)]
  exact gives_act _ t

/-- The position of a valid handle is what its own counter holds. -/
theorem exec_cbset {pa v : Nat} {u : State} (hv : (parseHandle bs 0).valid = true)
    (hf' : requestsFree t (if (p + BitVec.ofInt 64 off).toNat / 64 = (parseHandle bs 0).own.toNat / 64 then 1 else 2))
    (hc : Gives (readCounter (parseHandle bs 0).own) t (pa, v) u) : exec (.cbset cb base off) s =
    .next (scheduled u (.setHandle cb.toNat { parseHandle bs 0 with pos := v })) := by
  refine runSlot_ok (gives_bind hp (gives_bind (gives_needRequests hf) (gives_bind hload ?_)))
  rw [if_pos hv]
  exact gives_bind (gives_needRequests hf') (gives_bind hc (gives_act _ u))

end

/-! ### CBWAIT and CBADV (R212, R213) -/

section
variable {n : BitVec 10} {h : Handle} (hh : Map.get {} (issuer s).handles cb.toNat = h) (hv : h.valid = true) (h1 : 1 ≤ n.toNat)
  (hn : n.toNat ≤ h.count)
include hh hv h1 hn

/-- A valid handle, and a count within its slots. -/
theorem reads_handleOf : Reads (handleOf cb n) s h := by
  subst hh
  refine gives_bind (gives_curCtx s) (gives_bind (gives_needLegal ?_ s) (gives_pure _ s))
  rw [hv, decide_eq_true h1, decide_eq_true hn]
  rfl

/-- The wait is over when the other side's counter has reached the slots and, for a consumer, their versions are there. -/
theorem exec_cbwait {version : BitVec 16} {pa v : Nat} {u : State} (hc : Gives (readCounter h.other) s (pa, v) t)
    (hw : if h.producer then h.pos + n.toNat ≤ v + h.count ∧ u = t ∧ version = 0
      else h.pos + n.toNat ≤ v ∧ Gives (versionsAre h n.toNat version.toNat) t true u) (dst : RegRef) :
    exec (.cbwait dst cb n version) s = .next (scheduled (acquireSide u u.issue.ctx (u.sideStatus pa) h.scope)
      (.setReg dst.file.code dst.idx.toNat ((h.base + BitVec.ofNat 64 (h.pos % h.count * h.size)).setWidth 2048))) := by
  have legal : (!h.producer || version == 0) = true := by
    cases hp : h.producer with
    | true =>
      rw [hp] at hw
      obtain ⟨-, -, rfl⟩ := hw
      rfl
    | false => rfl
  have ready : Gives (if (if h.producer then h.pos + n.toNat - h.count else h.pos + n.toNat) ≤ v then
      (if h.producer then pure true else versionsAre h n.toNat version.toNat) else pure false) t true u := by
    cases hp : h.producer with
    | true =>
      rw [hp] at hw
      obtain ⟨hle, rfl, -⟩ := hw
      rw [if_pos rfl, if_pos (by omega), if_pos rfl]
      exact gives_pure true u
    | false =>
      rw [hp] at hw
      obtain ⟨hle, hver⟩ := hw
      rw [if_neg Bool.false_ne_true, if_pos hle, if_neg Bool.false_ne_true]
      exact hver
  refine runSlot_ok (gives_bind (reads_handleOf hh hv h1 hn) (gives_bind (gives_needLegal legal s) (gives_bind hc
    (gives_ite_bind ready (gives_bind (gives_get u) ?_)))))
  rw [if_pos rfl]
  exact gives_bind (gives_modify _ u) (gives_act _ _)

/-- A producer's versions come before the add that lets the other side see its slots. -/
theorem exec_cbadv {version : BitVec 16} {pa : Nat} {u : State}
    (hw : if h.producer then Gives (storeRanges 2 ((List.range n.toNat).map (fun i => (versionVa h (h.pos + i), 2)))
        ((List.range n.toNat).flatMap (fun _ => leBytes 2 version.toNat))) s () t else t = s ∧ version = 0)
    (ht : translateCounter t (t.view t.issue.ctx) h.own .counterAdd = .ok (pa, u)) :
    exec (.cbadv cb n version) s = .next (scheduled (posted (released u)
      ⟨(released u).issue.order, (issuer (released u)).interval, .add h.own pa n.toNat true, 0⟩)
      (.setHandle cb.toNat { h with pos := h.pos + n.toNat })) := by
  have issue : t.issue.order = (released u).issue.order := congrArg Issue.order (translateCounter_keepsCtxs ht).2.symm
  have legal : (h.producer || version == 0) = true := by
    cases hp : h.producer with
    | true => rfl
    | false =>
      rw [hp] at hw
      obtain ⟨-, rfl⟩ := hw
      rfl
  have versions : Gives (if h.producer then
      storeRanges 2 ((List.range n.toNat).map (fun i => (versionVa h (h.pos + i), 2)))
        ((List.range n.toNat).flatMap (fun _ => leBytes 2 version.toNat))
      else pure ()) s () t := by
    split
    · next hp => rwa [if_pos hp] at hw
    · next hp =>
      rw [if_neg hp] at hw
      exact hw.1 ▸ gives_pure () t
  have interval : Gives advanceInterval u (issuer (released u)).interval (released u) :=
    gives_bind (gives_modCtx _ u) (gives_bind (gives_curCtx _) (gives_pure _ _))
  rw [← issue]
  exact runSlot_ok (gives_bind (reads_handleOf hh hv h1 hn) (gives_bind (gives_needLegal legal s) (gives_ite_skip versions
    (gives_bind (gives_get t) (gives_bind (gives_liftTrap ht) (gives_bind (gives_set u t) (gives_bind interval
    (gives_bind (gives_modCtx _ _) (gives_act _ _)))))))))

end

end

/-- Settles O23: each form by its lemma. -/
theorem circularBuffers : Obligations.CircularBuffers := by
  unfold Obligations.CircularBuffers
  constructor
  · intro cb base off s t p bs hp ea hf hload h
    exact ⟨exec_cbset_invalid hp hf hload, fun pa v u hv hf' hc => exec_cbset hp hf hload hv hf' hc⟩
  · intro dst cb n version s h hv h1 hn
    exact ⟨fun pa v t u hc hw => exec_cbwait rfl hv h1 hn hc hw dst, fun t u pa hw ht => exec_cbadv rfl hv h1 hn hw ht⟩

end Sys2Proof.Proofs

/-! SUPPORT. The T-slot forms at issue (R215, R219 to R226, R231 to R246): what their checks of ownership and room need, and what an
operation leaves in its engine's queue. -/

namespace Sys2Proof.Proofs

open Sys2Proof Machine Laws

section
variable {s : State} {e : TSlot}

/-! ### Ownership and room (R215, R219) -/

theorem reads_ownTile {t : Nat} (h : (issuer s).tmask.getLsbD t = true) : Reads (ownTile t) s () :=
  gives_bind (gives_curCtx s) (gives_needWord h s)

theorem reads_ownPair {t : Nat} (h : mayQueue s e [t, t + 1]) : Reads (ownPair t) s () :=
  gives_bind (reads_ownTile (h.1 t (by simp))) (reads_ownTile (h.1 (t + 1) (by simp)))

theorem reads_curCore (s : State) : Reads curCore s (s.core (coreOf s.issue.ctx)) := rfl

theorem reads_engineRoom (h : (s.core (coreOf s.issue.ctx)).engineFull e = false) : Reads (engineRoom e) s () := by
  refine gives_bind (reads_curCore s) ?_
  rw [if_neg (by rw [h]; exact Bool.false_ne_true)]
  exact gives_pure () s

/-- The registers `reg` to `reg + n` are there. -/
theorem reads_ownRegs {reg n : Nat} (h : reg + n < (issuer s).vregs.toNat) : Reads (ownRegs reg (n + 1)) s () := gives_vecIndex h

/-! ### What a form captures, and what it leaves -/

/-- A descriptor register of the issuing context, as a form captures it. -/
abbrev descAt (s : State) (e : TSlot) (d : BitVec 3) : TileDesc := Map.get {} (issuer s).desc (descNo e d)

theorem reads_desc (e : TSlot) (d : BitVec 3) (s : State) : Reads (readDesc e d) s (descAt s e d) := rfl

theorem gives_issueT (e : TSlot) (kind : TKind) (s : State) : Gives (issueT e kind) s () (queued s e kind) := rfl

theorem gives_issueAffine (t : Nat) (on : Bool) (s : State) : Gives (issueAffine t on) s () (affineAt s t on) := rfl

/-- A retiring form clears its pair's affine bit for later operations (R234, R240). -/
theorem gives_retireAffine (retire : Bool) (t : Nat) (s : State) :
    Gives (if retire then issueAffine t false else pure ()) s () (if retire then affineAt s t false else s) := by
  cases retire with
  | true => exact gives_issueAffine t false s
  | false => exact gives_pure () s

/-! ### The checks of a form's tiles, once for each shape -/

/-- A form of one tile goes on where the tile is its own and the engine has room. -/
theorem runSlot_ofTile {t : Nat} (h : mayQueue s e [t]) (m : M Unit) :
    runSlot (do ownTile t; engineRoom e; m) s = runSlot m s :=
  (runSlot_bind (reads_ownTile (h.1 t (by simp)))).trans (runSlot_bind (reads_engineRoom h.2))

/-- The same where the form names registers too. -/
theorem runSlot_ofTileRegs {t reg n : Nat} (h : mayQueue s e [t]) (hr : reg + n < (issuer s).vregs.toNat) (m : M Unit) :
    runSlot (do ownTile t; ownRegs reg (n + 1); engineRoom e; m) s = runSlot m s :=
  (runSlot_bind (reads_ownTile (h.1 t (by simp)))).trans
    ((runSlot_bind (reads_ownRegs hr)).trans (runSlot_bind (reads_engineRoom h.2)))

/-- The same of a form of one pair. -/
theorem runSlot_ofPair {t : Nat} (h : mayQueue s e [t, t + 1]) (m : M Unit) :
    runSlot (do ownPair t; engineRoom e; m) s = runSlot m s :=
  (runSlot_bind (reads_ownPair h)).trans (runSlot_bind (reads_engineRoom h.2))

/-! ### The forms without registers (R223, R224, R231, R232, R240, R242, R246) -/

theorem exec_tcfg {dA dB : BitVec 3} (h : mayQueue s e [])
    (hp : pairOk (descAt s e dA) (descAt s e dB) = true) :
    exec (.tcfg e dA dB) s = .next (queued s e (.cfg (descAt s e dA).fmt.toNat (descAt s e dB).fmt.toNat)) :=
  runSlot_ok (gives_bind (reads_engineRoom h.2) (gives_bind (reads_desc e dA s) (gives_bind (reads_desc e dB s)
    (gives_bind (gives_needLegal hp s) (gives_issueT e _ s)))))

/-- TDRAIN goes on where none of the context's operations on the engine is earlier. -/
theorem exec_tdrain (dA : BitVec 3) (h : (s.core (coreOf s.issue.ctx)).engineFull e = false)
    (ho : ∀ o ∈ (s.core (coreOf s.issue.ctx)).queue e ++ (s.core (coreOf s.issue.ctx)).heldOps e,
      o.tid = (issuer s).tid → s.issue.order ≤ o.seq) : exec (.tdrain e dA) s = .next s := by
  refine runSlot_ok (gives_bind (reads_engineRoom h) (gives_bind (gives_get s) (gives_bind (reads_curCore s) ?_)))
  rw [if_neg]
  · exact gives_pure () s
  · rw [List.any_eq_true]
    rintro ⟨o, hm, hc⟩
    rw [Bool.and_eq_true, beq_iff_eq, decide_eq_true_eq] at hc
    exact absurd (ho o hm hc.1) (Nat.not_le.mpr hc.2)

section
variable {t : BitVec 2} (h : mayQueue s e [tileNo e t])
include h

theorem exec_tzero : exec (.tzero e t) s = .next (affineAt (queued s e (.zero (tileNo e t))) (tileNo e t) false) :=
  (runSlot_ofTile h _).trans (runSlot_ok (gives_bind (gives_issueT e _ s) (gives_issueAffine _ false _)))

variable {dA : BitVec 3} (hd : (descAt s e dA).moves = true)
include hd

theorem exec_tld : exec (.tld e t dA) s = .next (queued s e (.ld (tileNo e t) (descAt s e dA))) :=
  (runSlot_ofTile h _).trans (runSlot_ok (gives_bind (reads_desc e dA s) (gives_bind (gives_needLegal hd s) (gives_issueT e _ s))))

theorem exec_tst (retire : Bool) :
    let u := queued s e (.st (tileNo e t) (descAt s e dA) retire)
    exec (.tst retire e t dA) s = .next (if retire then affineAt u (tileNo e t) false else u) :=
  (runSlot_ofTile h _).trans (runSlot_ok (gives_bind (reads_desc e dA s) (gives_bind (gives_needLegal hd s)
    (gives_bind (gives_issueT e _ s) (gives_retireAffine retire _ _)))))

end

section
variable {pair : BitVec 1} (h : mayQueue s e [pairNo e pair, pairNo e pair + 1])
include h

theorem exec_taff (ident off : Bool) : exec (.taff ident off e pair) s =
    .next (affineAt (queued s e (.aff (pairNo e pair) ident off)) (pairNo e pair) (!off)) :=
  (runSlot_ofPair h _).trans (runSlot_ok (gives_bind (gives_issueT e _ s) (gives_issueAffine _ _ _)))

theorem exec_tscan (carry : Bool) (set : BitVec 1) (n : BitVec 7)
    (ha : (s.core (coreOf s.issue.ctx)).affineIssue.getLsbD (pairNo e pair / 2) = true) :
    exec (.tscan carry e pair set n) s = .next (queued s e (.scan (pairNo e pair) carry (carryNo e set) n.toNat)) :=
  (runSlot_ofPair h _).trans (runSlot_ok (gives_bind (reads_curCore s) (gives_bind (gives_needLegal ha s) (gives_issueT e _ s))))

/-- TCOMB needs the engine's other pair as well, unless it folds. -/
theorem exec_tcomb {fold : Bool} (n : BitVec 7)
    (h' : fold = false → mayQueue s e [pairNo e (pair + 1), pairNo e (pair + 1) + 1]) :
    exec (.tcomb fold e pair n) s = .next (queued s e (.comb (pairNo e pair) (pairNo e (pair + 1)) fold n.toNat)) := by
  have others : Reads (if fold then pure () else ownPair (pairNo e (pair + 1))) s () := by
    cases fold with
    | true => exact gives_pure () s
    | false => exact reads_ownPair (h' rfl)
  exact runSlot_ok (gives_bind (reads_ownPair h) (gives_ite_bind (m := pure ()) others
    (gives_bind (reads_engineRoom h.2) (gives_issueT e _ s))))

end

end

/-- A format that TLD and TST move (R232). -/
theorem moves_of_fmt {d : TileDesc} (h : d.fmt = 0 ∨ d.fmt = 1) : d.moves = true := by
  rw [TileDesc.moves, Bool.or_eq_true, beq_iff_eq, beq_iff_eq]
  exact h

/-- Settles O26: each form by its lemma. -/
theorem tileOperations : Obligations.TileOperations := by
  unfold Obligations.TileOperations
  intro e s desc k
  refine ⟨fun dA dB => exec_tcfg, fun dA => exec_tdrain dA, fun t h => ⟨exec_tzero h, fun dA hd => ?_⟩, fun pair h => ?_⟩
  · have hm := moves_of_fmt hd
    exact ⟨exec_tld h hm, exec_tst h hm false, exec_tst h hm true⟩
  · exact ⟨exec_taff h, fun carry set n => exec_tscan h carry set n, fun n =>
      ⟨exec_tcomb h n (fun hf => nomatch hf), fun h' => exec_tcomb h n (fun _ => h')⟩⟩

/-! ### The forms with registers (R220, R233, R238, R239, R243) -/

section
variable {s : State} {e : TSlot} {t : BitVec 2} {w : Bool} {reg : BitVec 10} (h : mayQueue s e [tileNo e t])
include h

theorem exec_tcarry_ident (set : BitVec 1) :
    exec (.tcarry .ident w e t set reg) s = .next (queued s e (.carry .ident (carryNo e set) 0 0 s.issue.order)) :=
  (runSlot_ofTile h _).trans (runSlot_ok (gives_bind (gives_get s) (gives_issueT e _ s)))

theorem exec_tcarry_h (set : BitVec 1) {a : VecReg} (hr : reg.toNat < (issuer s).vregs.toNat)
    (ha : Reads (readReg (tFile w) reg.toNat) s a) :
    exec (.tcarry .h w e t set reg) s = .next (queued s e (.carry .h (carryNo e set) a 0 s.issue.order)) :=
  (runSlot_ofTileRegs h (n := 0) hr _).trans (runSlot_ok (gives_bind (gives_get s) (gives_bind ha (gives_issueT e _ s))))

section
variable (set : BitVec 1) (hr : reg.toNat + 1 < (issuer s).vregs.toNat)
include hr

theorem exec_tcarry_wr {a b : VecReg} (ha : Reads (readReg (tFile w) reg.toNat) s a)
    (hb : Reads (readReg (tFile w) (reg.toNat + 1)) s b) :
    exec (.tcarry .wr w e t set reg) s = .next (queued s e (.carry .wr (carryNo e set) a b s.issue.order)) :=
  (runSlot_ofTileRegs h hr _).trans (runSlot_ok (gives_bind (gives_get s) (gives_bind ha (gives_bind hb (gives_issueT e _ s)))))

theorem exec_tcarry_rd : exec (.tcarry .rd w e t set reg) s =
    .next (queued (awaiting s [(tFile w, reg.toNat), (tFile w, reg.toNat + 1)] none) e
      (.carry .rd (carryNo e set) 0 0 s.issue.order)) :=
  (runSlot_ofTileRegs h hr _).trans (runSlot_ok (gives_bind (gives_get s) (gives_bind (gives_pendResult _ none s)
    (gives_issueT e _ _))))

end

section
variable {n1 : BitVec 6} (row0 : BitVec 6) (hr : reg.toNat + n1.toNat < (issuer s).vregs.toNat)
include hr

theorem exec_trd (retire : Bool) :
    let u := queued (awaiting s ((List.range (n1.toNat + 1)).map (fun i => (tFile w, reg.toNat + i))) none) e
      (.rd (tileNo e t) row0.toNat (n1.toNat + 1) retire s.issue.order)
    exec (.trd retire w e t reg row0 n1) s = .next (if retire then affineAt u (tileNo e t) false else u) :=
  (runSlot_ofTileRegs h hr _).trans (runSlot_ok (gives_bind (gives_get s) (gives_bind (gives_pendResult _ none s)
    (gives_bind (gives_issueT e _ _) (gives_retireAffine retire _ _)))))

theorem exec_twr {rows : List VecReg} (hrows : Reads (readRows (tFile w) reg.toNat (n1.toNat + 1)) s rows) :
    exec (.twr w e t reg row0 n1) s = .next (queued s e (.wr (tileNo e t) row0.toNat rows)) :=
  (runSlot_ofTileRegs h hr _).trans (runSlot_ok (gives_bind hrows (gives_issueT e _ s)))

end

theorem exec_tred (op : TRedOp) (cols : Bool) (hr : reg.toNat < (issuer s).vregs.toNat) : exec (.tred op cols w e t reg) s =
    .next (queued (awaiting s [(tFile w, reg.toNat)] none) e (.red (tileNo e t) op cols s.issue.order)) :=
  (runSlot_ofTileRegs h (n := 0) hr _).trans (runSlot_ok (gives_bind (gives_get s) (gives_bind (gives_pendResult _ none s)
    (gives_issueT e _ _))))

theorem exec_tres (hz clr : Bool) (dst : RegRef) : exec (.tres hz clr e t dst) s =
    .next (queued (awaiting s [(dst.file.code, dst.idx.toNat)] none) e (.res (tileNo e t) hz clr s.issue.order)) :=
  (runSlot_ofTile h _).trans (runSlot_ok (gives_bind (gives_get s) (gives_bind (gives_pendResult _ none s) (gives_issueT e _ _))))

end

/-- Settles O27: each form by its lemma. -/
theorem tileRegisters : Obligations.TileRegisters := by
  unfold Obligations.TileRegisters
  intro w e t reg s h f r n
  refine ⟨fun set => ⟨exec_tcarry_ident h set, fun a hr ha => exec_tcarry_h h set hr ha, fun a b hr => ?carries⟩,
    fun row0 n1 hr => ?rows, fun op cols hr => exec_tred h op cols hr, exec_tres h⟩
  case carries => exact ⟨fun ha hb => exec_tcarry_wr h set hr ha hb, exec_tcarry_rd h set hr⟩
  case rows => exact ⟨exec_trd h row0 hr false, exec_trd h row0 hr true, fun rows hrows => exec_twr h row0 hr hrows⟩

end Sys2Proof.Proofs

/-! SUPPORT. TMMA and TDESC at issue (R221, R222, R226): their checks in order, and the descriptors that they write. -/

namespace Sys2Proof.Proofs

open Sys2Proof Machine Laws

/-! ### TMMA (R226) -/

section
variable {s : State} {e : TSlot} {t : BitVec 2} {dA dB : BitVec 3} {k : BitVec 33}

/-- What TMMA captures before its checks: its two descriptors, its context and its core. -/
theorem runSlot_captures (m : TileDesc → TileDesc → Ctx → Core → M Unit) :
    runSlot (do
      let a ← readDesc e dA
      let b ← readDesc e dB
      let x ← curCtx
      let c ← curCore
      m a b x c) s =
        runSlot (m (descAt s e dA) (descAt s e dB) (issuer s) (s.core (coreOf s.issue.ctx))) s :=
  (runSlot_bind (reads_desc e dA s)).trans ((runSlot_bind (reads_desc e dB s)).trans
    ((runSlot_bind (gives_curCtx s)).trans (runSlot_bind (reads_curCore s))))

/-- K is a multiple of 32 that is not 0. -/
theorem legalK_iff {n : Nat} : (n != 0 && n % 32 == 0) = true ↔ n ≠ 0 ∧ n % 32 = 0 := by
  rw [Bool.and_eq_true, bne_iff_ne, beq_iff_eq]

/-- What follows the checks: the operation is queued, and TMMA.adv advances both descriptors, one after the other where they are
one register. -/
theorem gives_mmaIssued (a b : TileDesc) (n : Nat) (adv : Bool) :
    let go := queued s e (.mma (tileNo e t) a b n)
    Gives (do
      issueT e (.mma (tileNo e t) a b n)
      if adv then do
        act (.setDesc (descNo e dA) (a.advA n))
        act (.setDesc (descNo e dB) ((if dA = dB then a.advA n else b).advB n))
      else pure ()) s () (if adv then scheduled (scheduled go (.setDesc (descNo e dA) (a.advA n)))
        (.setDesc (descNo e dB) ((if dA = dB then a.advA n else b).advB n)) else go) := by
  refine gives_bind (gives_issueT e _ s) ?_
  cases adv with
  | true => exact gives_bind (gives_act _ _) (gives_act _ _)
  | false => exact gives_pure () _

variable (h : mayQueue s e [tileNo e t])
include h

theorem exec_tmma_illegalPair (adv : Bool)
    (hp : pairOk (descAt s e dA) (descAt s e dB) = false) :
    exec (.tmma adv e t dA dB k) s = .next (stopped s (.trap false 0x01 (BitVec.ofNat 64 s.issue.word))) :=
  (runSlot_ofTile h _).trans ((runSlot_captures _).trans (runSlot_trap (traps_bind_left (traps_needLegal hp s))))

variable (hp : pairOk (descAt s e dA) (descAt s e dB) = true)
include hp

theorem exec_tmma_illegalK (adv : Bool) (hk : k.toNat = 0 ∨ k.toNat % 32 ≠ 0) :
    exec (.tmma adv e t dA dB k) s = .next (stopped s (.trap false 0x01 (BitVec.ofNat 64 s.issue.word))) := by
  have bad : (k.toNat != 0 && k.toNat % 32 == 0) = false := by
    rw [Bool.eq_false_iff, Ne, legalK_iff]
    tauto
  exact (runSlot_ofTile h _).trans ((runSlot_captures _).trans (runSlot_trap (traps_bind_right (gives_needLegal hp s)
    (traps_bind_left (traps_needLegal bad s)))))

variable (h0 : k.toNat ≠ 0) (h32 : k.toNat % 32 = 0)
include h0 h32

theorem exec_tmma_tooDeep (adv : Bool)
    (hd : (issuer s).maxred.toNat < issueDepth (s.core (coreOf s.issue.ctx)) e (tileNo e t) + k.toNat) :
    exec (.tmma adv e t dA dB k) s = .next (stopped s (.trap false 0x2A (BitVec.ofNat 64 k.toNat))) :=
  (runSlot_ofTile h _).trans ((runSlot_captures _).trans (runSlot_trap (traps_bind_right (gives_needLegal hp s)
    (traps_bind_right (gives_needLegal (legalK_iff.mpr ⟨h0, h32⟩) s)
      (traps_bind_left (traps_need (decide_eq_false (Nat.not_le.mpr hd)) 0x2A _ s))))))

theorem exec_tmma (adv : Bool)
    (hd : issueDepth (s.core (coreOf s.issue.ctx)) e (tileNo e t) + k.toNat ≤ (issuer s).maxred.toNat) :
    let go := queued s e (.mma (tileNo e t) (descAt s e dA) (descAt s e dB) k.toNat)
    let a := (descAt s e dA).advA k.toNat
    exec (.tmma adv e t dA dB k) s = .next (if adv then scheduled (scheduled go (.setDesc (descNo e dA) a))
      (.setDesc (descNo e dB) ((if dA = dB then a else descAt s e dB).advB k.toNat)) else go) :=
  (runSlot_ofTile h _).trans ((runSlot_captures _).trans (runSlot_ok (gives_bind (gives_needLegal hp s)
    (gives_bind (gives_needLegal (legalK_iff.mpr ⟨h0, h32⟩) s)
      (gives_bind (gives_need (decide_eq_true hd) 0x2A _ s) (gives_mmaIssued _ _ _ adv))))))

end

/-- Settles O28: the checks one after another, then the two forms. -/
theorem matrixMultiply : Obligations.MatrixMultiply := by
  unfold Obligations.MatrixMultiply
  intro e t dA dB k s a b core n go illegal h
  refine ⟨fun hp adv => exec_tmma_illegalPair h adv hp, fun hp hk adv => exec_tmma_illegalK h hp adv hk, fun hp h0 h32 =>
    ⟨fun hd => ⟨exec_tmma h hp h0 h32 false hd, fun hne => ?apart, fun he => ?same⟩, fun hd adv => exec_tmma_tooDeep h hp h0 h32 adv hd⟩⟩
  case apart =>
    refine (exec_tmma h hp h0 h32 true hd).trans ?_
    rw [if_neg hne]
    rfl
  case same =>
    subst he
    refine (exec_tmma h hp h0 h32 true hd).trans ?_
    rw [if_pos (rfl : dA = dA)]
    rfl

/-! ### TDESC (R221, R222) -/

/-- The record of TDESC is there: 64 bytes of the constants of the loaded plane, or the low half of a vector register. -/
def descRecord (s : State) (bs : List Byte) : TDescSrc → Prop
  | .const o => (s.core (coreOf s.issue.ctx)).active.cond = .loaded ∧
      o.toNat + 64 ≤ (s.core (coreOf s.issue.ctx)).active.constLen ∧
      bs = planeBytes (s.core (coreOf s.issue.ctx)).active (0x1100 + o.toNat) 64
  | .reg w i => ∃ v : VecReg, i.toNat < (issuer s).vregs.toNat ∧ Reads (readReg (tFile w) i.toNat) s v ∧ bs = leBytes 64 v.toNat

section
variable {s : State} {e : TSlot} {src : TDescSrc} {bs : List Byte}

theorem parseDesc_ok (v : Word) (hl : (descOf bs).legal = true) (hz : zeroField bs 0x2A 22 = true)
    (hm : (descOf bs).misaligned = none) : parseDesc bs v = .ok (descOf bs) := by
  simp [parseDesc, hl, hz, hm]

theorem parseDesc_misaligned {a : Word} (v : Word) (hl : (descOf bs).legal = true) (hz : zeroField bs 0x2A 22 = true)
    (hm : (descOf bs).misaligned = some a) : parseDesc bs v = .error (0x03, a) := by
  simp [parseDesc, hl, hz, hm]

theorem parseDesc_illegal (v : Word) (h : (descOf bs).legal = false ∨ zeroField bs 0x2A 22 = false) :
    parseDesc bs v = .error (0x01, v) := by
  rcases h with h | h <;> simp [parseDesc, h]

variable (dA : BitVec 3) (h : (s.core (coreOf s.issue.ctx)).engineFull e = false) (hr : descRecord s bs src)
include h hr

/-- TDESC comes to the check of its record. -/
theorem exec_tdesc_checks : exec (.tdesc e dA src) s = runSlot (do
    let d ← liftTrap (parseDesc bs (BitVec.ofNat 64 s.issue.word))
    act (.setDesc (descNo e dA) d)) s := by
  refine (runSlot_bind (reads_engineRoom h)).trans ?_
  cases src with
  | const o =>
    obtain ⟨hc, hl, rfl⟩ := hr
    have there : ((s.core (coreOf s.issue.ctx)).active.cond == .loaded &&
        decide (o.toNat + 64 ≤ (s.core (coreOf s.issue.ctx)).active.constLen)) = true := by
      rw [Bool.and_eq_true, beq_iff_eq, decide_eq_true_eq]
      exact ⟨hc, hl⟩
    exact (runSlot_bind (reads_curCore s)).trans ((runSlot_bind (gives_needLegal there s)).trans
      ((runSlot_bind (gives_pure _ s)).trans (runSlot_bind (gives_get s))))
  | reg w i =>
    obtain ⟨v, hi, hv, rfl⟩ := hr
    exact (runSlot_bind (gives_vecIndex hi)).trans ((runSlot_bind hv).trans
      ((runSlot_bind (gives_pure _ s)).trans (runSlot_bind (gives_get s))))

theorem exec_tdesc {d : TileDesc} (hd : parseDesc bs (BitVec.ofNat 64 s.issue.word) = .ok d) :
    exec (.tdesc e dA src) s = .next (scheduled s (.setDesc (descNo e dA) d)) :=
  (exec_tdesc_checks dA h hr).trans (runSlot_ok (gives_bind (gives_liftTrap hd) (gives_act _ s)))

theorem exec_tdesc_trap {c : BitVec 8} {v : Word} (hd : parseDesc bs (BitVec.ofNat 64 s.issue.word) = .error (c, v)) :
    exec (.tdesc e dA src) s = .next (stopped s (.trap false c v)) :=
  (exec_tdesc_checks dA h hr).trans (runSlot_trap (traps_bind_left (traps_liftTrap hd)))

end

/-- Settles O29: what the check of the record gives is what TDESC does. -/
theorem tileDescriptors : Obligations.TileDescriptors := by
  unfold Obligations.TileDescriptors
  intro e dA src s bs h hsrc d
  have hr : descRecord s bs src := by
    cases src with
    | const o => exact hsrc
    | reg w i => exact hsrc
  exact ⟨fun hl hz => ⟨fun hm => exec_tdesc dA h hr (parseDesc_ok _ hl hz hm), fun v hm => exec_tdesc_trap dA h hr
    (parseDesc_misaligned _ hl hz hm)⟩, fun hbad => exec_tdesc_trap dA h hr (parseDesc_illegal _ hbad)⟩

end Sys2Proof.Proofs

/-! SUPPORT. TILE_OPERATION_EXECUTE (R215, R217, R228 to R231, R233, R234, R239, R243): the fate of the oldest operation of a queue,
and what the operations that move registers and status do. -/

namespace Sys2Proof.Proofs

open Sys2Proof Machine Laws

/-! ### The oldest operation of a queue (R215, R217, R228, R229) -/

section
variable {k r : Nat} {e : TSlot} {s : State} {o : TOp} {rest : List TOp} (hq : (s.core k).queue e = o :: rest)
  (hp : o.kind.memory = true → ∀ p ∈ (s.ctx o.ctx).posted, o.seq ≤ p.seq) (hh : heldTst s o = false)

include hp hh in
/-- It has no earlier store of its context to wait for (R230), and no shard to be held for (R417). -/
theorem head_goesOn : ((o.kind.memory && (s.ctx o.ctx).posted.any (fun p => p.seq < o.seq)) || heldTst s o) = false := by
  rw [hh, Bool.or_false, Bool.and_eq_false_imp]
  intro hm
  rw [List.any_eq_false]
  intro p hmem
  simpa using hp hm p hmem

include hq hp hh

theorem exec_head_badTile {t : Nat} (hb : badTile s k o.kind = some t) : exec (.tileOperationExecute k e r) s =
    .next (trapOutside (dropPending (s.updCore k (fun c => c.setQueue e rest)) o.ctx o.seq) o.ctx 0x08
      (BitVec.ofNat 64 (9 * 4096 + t))) := by
  show execTileOperationExecute k e r s = _
  simp only [execTileOperationExecute, hq, head_goesOn hp hh, hb, Bool.false_eq_true, if_false]

variable (hb : badTile s k o.kind = none)
include hb

theorem exec_head_residueFails {t n : Nat} {a b : TileDesc} (hr : 2 ≤ r) (hk : o.kind = .mma t a b n) :
    exec (.tileOperationExecute k e r) s =
      .next (holdOps (s.updCore k (fun c => { c with suspect := true })) k e o rest 0x0D (BitVec.ofNat 64 t)) := by
  show execTileOperationExecute k e r s = _
  simp only [execTileOperationExecute, hq, head_goesOn hp hh, hb, decide_eq_true hr, Bool.false_eq_true, if_false]
  rw [hk]

variable (hr : r < 2)
include hr

theorem exec_head_done {t : State} (hd : runT s k o e = .done t) :
    exec (.tileOperationExecute k e r) s = .next (t.updCore k (fun c => c.setQueue e rest)) := by
  show execTileOperationExecute k e r s = _
  simp only [execTileOperationExecute, hq, head_goesOn hp hh, hb, hd, decide_eq_false (Nat.not_le.mpr hr), Bool.false_eq_true, if_false]
  split
  · contradiction
  · rfl

theorem exec_head_fault {t : State} {cause : BitVec 8} {tval : Word} (hd : runT s k o e = .fault cause tval t) :
    exec (.tileOperationExecute k e r) s =
      .next (holdOps (confirmWalk t (engineView o.space o.ctx) cause tval.toNat) k e o rest cause tval) := by
  show execTileOperationExecute k e r s = _
  simp only [execTileOperationExecute, hq, head_goesOn hp hh, hb, hd, decide_eq_false (Nat.not_le.mpr hr), Bool.false_eq_true, if_false]
  split
  · contradiction
  · rfl

end

/-! ### Operations that move registers and status (R231, R233, R234, R239, R243) -/

/-- A tile after TWR has written rows from `row` on: live, its uncorrectable elements of these rows corrected, all else kept. -/
def writtenRows (x : Tile) (row : Nat) (rows : List VecReg) : Tile :=
  { x with
    live := true
    rows := rows.zipIdx.foldl (fun m (r, i) => Map.set 0 m (row + i) r) x.rows
    bad := x.bad.filter (fun (i, _) => !(decide (row ≤ i) && decide (i < row + rows.length))) }

/-- Writing rows one after another changes the rows of a tile alone. -/
theorem foldl_setRow (row : Nat) (l : List (VecReg × Nat)) (x : Tile) :
    l.foldl (fun (x : Tile) (r, i) => { x with rows := Map.set 0 x.rows (row + i) r }) x =
      { x with rows := l.foldl (fun m (r, i) => Map.set 0 m (row + i) r) x.rows } := by
  induction l generalizing x with
  | nil => rfl
  | cons p l ih => exact ih _

theorem writtenRows_bad {x : Tile} {row : Nat} {rows : List VecReg} :
    ∀ p ∈ (writtenRows x row rows).bad, p.1 < row ∨ row + rows.length ≤ p.1 := by
  intro p hp
  have hout := (List.mem_filter.mp hp).2
  rw [Bool.not_eq_true', Bool.and_eq_false_iff, decide_eq_false_iff_not, decide_eq_false_iff_not, not_le, not_lt] at hout
  exact hout

section
variable {s : State} {k : Nat} {o : TOp} {e : TSlot} {t row n : Nat}

theorem runT_zero (h : o.kind = .zero t) : runT s k o e = .done (retireTile s k t) := by
  unfold runT
  rw [h]

theorem runT_rd {m : Nat} {retire : Bool} (h : o.kind = .rd t row m retire n) :
    let u := readyPending s o.ctx n ((List.range m).map (fun i => Map.get 0 (tileOf s k t).rows (row + i))) none
    runT s k o e = .done (if retire then retireTile u k t else u) := by
  unfold runT
  rw [h]

theorem runT_wr {rows : List VecReg} (h : o.kind = .wr t row rows) :
    runT s k o e = .done (setTile s k t (writtenRows (tileOf s k t) row rows)) := by
  unfold runT
  rw [h]
  exact congrArg (fun y : Tile => TDone.done (setTile s k t { y with
    live := true
    bad := (writtenRows (tileOf s k t) row rows).bad })) (foldl_setRow row rows.zipIdx (tileOf s k t))

theorem runT_res {clr : Bool} (h : o.kind = .res t false clr n) :
    let u := readyPending s o.ctx n [(statusWord s k t).setWidth 2048] none
    runT s k o e = .done (if clr then setTile u k t { tileOf s k t with sat := false, inv := false } else u) := by
  unfold runT
  rw [h]
  cases clr <;> rfl

theorem runT_carry_wr {set : Nat} {a b : VecReg} (h : o.kind = .carry .wr set a b n) :
    runT s k o e = .done (setCarry s o.ctx set a b) := by
  unfold runT
  rw [h]

theorem runT_carry_rd {set : Nat} {a b : VecReg} (h : o.kind = .carry .rd set a b n) : runT s k o e =
    .done (readyPending s o.ctx n [Map.get 0 (s.ctx o.ctx).carryA set, Map.get 0 (s.ctx o.ctx).carryB set] none) := by
  unfold runT
  rw [h]

end

/-- Settles O30: the four fates of the oldest operation, and each operation's effect by its equation. -/
theorem tileExecution : Obligations.TileExecution := by
  unfold Obligations.TileExecution
  constructor
  · intro k e r s o rest hq hp hh
    exact ⟨fun t hb => exec_head_badTile hq hp hh hb, fun hb => ⟨fun t a b n hr hk => exec_head_residueFails hq hp hh hb hr hk,
      fun hr => ⟨fun t hd => exec_head_done hq hp hh hb hr hd, fun t cause tval hd => exec_head_fault hq hp hh hb hr hd⟩⟩⟩
  · intro k e s o t row n x land put free
    refine ⟨fun h => runT_zero h, fun m retire h => runT_rd h, fun rows h => ?wr, fun clr h => runT_res h,
      fun set a b h => runT_carry_wr h, fun set a b h => runT_carry_rd h⟩
    case wr => exact ⟨_, runT_wr h, rfl, rfl, rfl, rfl, writtenRows_bad, rfl⟩

end Sys2Proof.Proofs

/-! SUPPORT. Counters (R248, R250, R277): an add as one read-modify-write of the eight bytes and the side status. -/

namespace Sys2Proof.Proofs

open Sys2Proof Machine Laws

/-! ### The add to a counter (R248, R250, R277) -/

section
variable {s : State} {pa : Nat}

/-- Where no shadow is live, a counter is read from memory as it stands. -/
theorem counter_eq_peek (hr : s.redShadow = []) : s.counter pa = s.peek pa 8 := by
  rw [State.counter, State.readNat, State.readBytes, hr]
  rfl

/-- Eight bytes that hold a number of 64 bits give it back. -/
theorem peek_of_putBytes {m : Map Byte} (hm : Memory.wf m = true) {v : Nat} (hv : v < 2 ^ 64)
    (h : s.mem = putBytes m pa (leBytes 8 v)) : s.peek pa 8 = v := by
  have raw := rawBytes_putBytes hm pa (leBytes 8 v)
  rw [leBytes_length] at raw
  rw [State.peek, h, raw, leNat_leBytes]
  exact Nat.mod_eq_of_lt hv

variable (s pa) in
/-- The state in which a counter holds `v`, its side status has taken the add, and its line's time has moved (R248, R313); the watch
check is still to be made. -/
def withCount (v : Nat) (err : Option (BitVec 8)) (rel : Option (BitVec 16 × BitVec 16)) : State :=
  { s with
    mem := putBytes s.mem pa (leBytes 8 v)
    side := Map.upd 0 s.side pa (fun o => sideAfter o err rel)
    lineTimes := timesAfter s.lineTimes pa 8 }

/-- An add to a counter whose word and side status can be corrected is applied unless it passes 2^64 - 1. -/
theorem counterAdd_eq (hb : s.counterBad pa = none) (hr : s.redShadow = []) (w : Writer) (n : Nat) (err : Option (BitVec 8))
    (rel : Option (BitVec 16 × BitVec 16)) : s.counterAdd w pa n err rel =
      if 2 ^ 64 ≤ s.counter pa + n then .error .overflow
      else .ok ((withCount s pa (s.counter pa + n) err rel).watchCheck { w with race := none } pa 8) := by
  rw [counter_eq_peek hr]
  unfold State.counterAdd
  rw [hb, hr]
  rfl

end

/-- Settles O34: the eight bytes and the side status change together, and the watch check after them changes neither. -/
theorem counterAdds : Obligations.CounterAdds := by
  unfold Obligations.CounterAdds
  intro s w pa n err rel hm hb hr
  rw [counterAdd_eq hb hr]
  refine ⟨fun hv => ?_, fun hv => if_pos hv⟩
  generalize hu : withCount s pa (s.counter pa + n) err rel = u
  have mem : (u.watchCheck { w with race := none } pa 8).mem = putBytes s.mem pa (leBytes 8 (s.counter pa + n)) := by
    rw [watchCheck_mem, ← hu]
    rfl
  have shadow : (u.watchCheck { w with race := none } pa 8).redShadow = [] := by
    rw [watchCheck_redShadow, ← hu]
    exact hr
  refine ⟨_, if_neg (Nat.not_le.mpr hv), ?count, fun a ha => ?frame, ?side⟩
  case count => rw [counter_eq_peek shadow, peek_of_putBytes hm hv mem]
  case frame =>
    rw [byteAt, mem]
    exact get_putBytes_outside hm pa _ (by rwa [leBytes_length])
  case side =>
    rw [watchCheck_eq, ← hu]
    rfl

end Sys2Proof.Proofs

/-! SUPPORT. The X-slot forms that add to a counter, read it, or wait for it, and releases at issue (R254 to R258, R261, R266, R268). -/

namespace Sys2Proof.Proofs

open Sys2Proof Machine Laws

/-! ### Releases at issue (R254, R261) -/

theorem gives_advanceInterval (s : State) : Gives advanceInterval s (issuer (released s)).interval (released s) :=
  gives_bind (gives_modCtx _ s) (gives_bind (gives_curCtx _) (gives_pure _ _))

/-- A form of a context that may ask for a release goes on in the interval after it, or in that in which its context stands. -/
theorem gives_intervalOf {c : Nat} {s : State} (hc : s.issue.ctx = c) (rel : Bool) :
    Gives (if rel = true then advanceInterval else pure (s.ctx c).interval) s
      ((if rel then released s else s).ctx c).interval (if rel then released s else s) := by
  subst hc
  cases rel with
  | true => exact gives_advanceInterval s
  | false => exact gives_pure _ s

/-- A context that waits for nothing it has issued releases at once. -/
theorem gives_releaseNow {s : State} (h : quiet s) : Gives releaseNow s (issuer (released s)).interval (released s) := by
  obtain ⟨hn, hr⟩ := h
  refine gives_bind (gives_get s) ?_
  rw [if_pos hr]
  exact gives_bind (gives_flushOwn hn) (gives_advanceInterval s)

/-- A change of state made in one case only. -/
theorem gives_modifyIf {c : Prop} [Decidable c] (f : State → State) (s : State) :
    Gives (if c then modify f else pure () : M Unit) s () (if c then f s else s) := by
  split
  · exact gives_modify f s
  · exact gives_pure () s

/-! ### CADD (R255) -/

section
variable {rel : Bool} {scope : Scope} {ctr : BitVec 5} {s t : State} {va n : Word} {pa : Nat}

/-- The amount of a CADD: of a register, or an immediate. -/
def caddAmount : BitVec 5 ⊕ BitVec 30 → M Word
  | .inl k => readK k
  | .inr i => pure (i.setWidth 64)

/-- What a CADD does once its operands are read: its counter is translated, and the add is posted. -/
def postAdd (rel : Bool) (va n : Word) : M Unit := do
  let st ← get
  let (pa, st) ← liftTrap (translateCounter st (st.view st.issue.ctx) va .counterAdd)
  set st
  let i ← if rel then advanceInterval else pure (st.ctx st.issue.ctx).interval
  modCtx (fun x => { x with posted := x.posted ++ [⟨st.issue.order, i, .add va pa n.toNat rel, 0⟩] })

theorem gives_postAdd (ht : translateCounter s (s.view s.issue.ctx) va .counterAdd = .ok (pa, t)) (n : Word) :
    Gives (postAdd rel va n) s () (posted (if rel then released t else t)
      ⟨t.issue.order, ((if rel then released t else t).ctx t.issue.ctx).interval, .add va pa n.toNat rel, 0⟩) :=
  gives_bind (gives_get s) (gives_bind (gives_liftTrap ht) (gives_bind (gives_set t s)
    (gives_ite_bind (gives_intervalOf rfl rel) (gives_modCtx _ _))))

theorem exec_cadd {amount : BitVec 5 ⊕ BitVec 30} (hva : Reads (readK ctr) s va) (hn : Reads (caddAmount amount) s n)
    (ht : translateCounter s (s.view s.issue.ctx) va .counterAdd = .ok (pa, t)) :
    exec (.cadd rel scope ctr amount) s = .next (posted (if rel then released t else t)
      ⟨t.issue.order, ((if rel then released t else t).ctx t.issue.ctx).interval, .add va pa n.toNat rel, 0⟩) := by
  cases amount with
  | inl k => exact runSlot_ok (gives_bind hva (gives_bind hn (gives_postAdd ht n)))
  | inr i => exact runSlot_ok (gives_bind hva (gives_bind hn (gives_postAdd ht n)))

end

/-! ### Forms that read a counter (R256 to R258, R266) -/

/-- The word of CWAIT by its parts: the error bit of the side status, the timeout, and the value. -/
theorem cwaitWord_eq (side : Word) (late : Bool) (v : Nat) : cwaitWord side late v =
    BitVec.ofNat 64 ((if side.getLsbD 63 then 2 ^ 63 else 0) + b2n late * 2 ^ 62 + v % 2 ^ 62) := by
  unfold cwaitWord
  cases side.getLsbD 63 <;> rfl

section
variable {acq : Bool} {scope : Scope} {dst ctr tgt : BitVec 5} {s t : State} {va n : Word} {pa v : Nat} (hn : nonePosted s)
  (hva : Reads (readK ctr) s va) (hc : Gives (readCounter va) s (pa, v) t)
include hn hva hc

theorem exec_cread (status : Bool) : exec (.cread acq scope status dst ctr) s =
    .next (awaiting (if acq then acquireSide t t.issue.ctx (t.sideStatus pa) scope.code else t) [(fK, dst.toNat)]
      (some ([if status then (t.sideStatus pa).setWidth 2048 else BitVec.ofNat 2048 v], none))) :=
  runSlot_ok (gives_bind hva (gives_bind (gives_flushOwn hn) (gives_bind hc (gives_bind (gives_get t)
    (gives_ite_skip (gives_modifyIf _ t) (gives_pendResult _ _ _))))))

variable (htgt : Reads (readK tgt) s n)
include htgt

theorem exec_cwait_met {timeout : BitVec 30} (hv : n.toNat ≤ v) : exec (.cwait acq scope dst ctr tgt timeout) s =
    .next (scheduled (if acq then acquireSide t t.issue.ctx (t.sideStatus pa) scope.code else t)
      (.setReg fK dst.toNat ((cwaitWord (t.sideStatus pa) false v).setWidth 2048))) := by
  refine runSlot_ok (gives_bind hva (gives_bind htgt (gives_bind (gives_flushOwn hn) (gives_bind hc (gives_bind (gives_get t) ?_)))))
  rw [if_pos (by rw [decide_eq_true hv, Bool.true_or])]
  exact gives_ite_skip (gives_modifyIf _ t) (gives_act _ _)

theorem exec_cwait_late {timeout : BitVec 30} (hv : v < n.toNat) (hl : (t.ctx t.issue.ctx).timedOut = true) :
    exec (.cwait acq scope dst ctr tgt timeout) s =
      .next (scheduled t (.setReg fK dst.toNat ((cwaitWord (t.sideStatus pa) true v).setWidth 2048))) := by
  refine runSlot_ok (gives_bind hva (gives_bind htgt (gives_bind (gives_flushOwn hn) (gives_bind hc (gives_bind (gives_get t) ?_)))))
  rw [if_neg (by rw [decide_eq_false (Nat.not_le.mpr hv), hl, Bool.not_true, Bool.and_false]; exact Bool.false_ne_true), if_pos hl]
  exact gives_act _ t

theorem exec_ctest (g : BitVec 3) : exec (.ctest acq scope g ctr tgt) s =
    .next (scheduled (if acq ∧ n.toNat ≤ v then acquireSide t t.issue.ctx (t.sideStatus pa) scope.code else t)
      (.setPred g.toNat (decide (n.toNat ≤ v)))) := by
  refine runSlot_ok (gives_bind hva (gives_bind htgt (gives_bind (gives_flushOwn hn) (gives_bind hc ?_))))
  have acquired := gives_modifyIf (c := (acq && decide (n.toNat ≤ v)) = true)
    (fun s => acquireSide s s.issue.ctx (s.sideStatus pa) scope.code) t
  simp only [Bool.and_eq_true, decide_eq_true_eq] at acquired ⊢
  exact gives_ite_skip acquired (gives_act _ _)

theorem exec_join_met {park : Bool} (hv : n.toNat ≤ v) : exec (.join acq scope park ctr tgt) s =
    .next (if acq then acquireSide t t.issue.ctx (t.sideStatus pa) scope.code else t) := by
  refine runSlot_ok (gives_bind hva (gives_bind htgt (gives_bind (gives_flushOwn hn) (gives_bind hc (gives_bind (gives_get t) ?_)))))
  rw [if_pos (by rw [decide_eq_true hv, Bool.true_or])]
  exact gives_modifyIf _ t

theorem exec_join_waits (hv : v < n.toNat) (hf : t.issue.commit = false) : exec (.join acq scope false ctr tgt) s =
    .next (stopped s (.held (waitOn t { ctx := t.issue.ctx, pa := pa, va := va, tgt := n.toNat }))) := by
  refine runSlot_held ?_
  rw [run_bind_of hva, run_bind_of htgt, run_bind_of (gives_flushOwn hn), run_bind_of hc, run_bind_of (gives_get t),
    if_neg (by rw [decide_eq_false (Nat.not_le.mpr hv), hf]; exact Bool.false_ne_true)]
  rfl

end

/-! ### DRAIN (R268) -/

/-- A context that waits at a DRAIN until its counter has reached the target and two sweeps agree. -/
def draining (s : State) (c pa tgt : Nat) (scope : Scope) : State :=
  s.updCtx c (fun x => { x with
    run := .blocked
    wait := some .drain
    drainPa := pa
    drainTgt := tgt
    drainScope := scope })

section
variable {scope : Scope} {ctr tgt : BitVec 5} {s t u : State} {va n : Word} {pa pa' v : Nat} (hva : Reads (readK ctr) s va)
  (htgt : Reads (readK tgt) s n) (ht : translateCounter s (s.view s.issue.ctx) va .counterAdd = .ok (pa', t))
  (hc : Gives (readCounter va) t (pa, v) u) (hi : u.issue.ctx = s.issue.ctx)
include hva htgt ht hc hi

theorem exec_drain_over (hw : (u.ctx s.issue.ctx).waitAct = true) (hv : n.toNat ≤ v)
    (hs : sweepsAgree (u.ctx s.issue.ctx).drainSums = true) :
    exec (.drain scope ctr tgt) s = .next (acquireSide u s.issue.ctx (u.sideStatus pa) scope.code) := by
  rw [← hi] at hw hs
  refine runSlot_ok (gives_bind hva (gives_bind htgt (gives_bind (gives_get s) (gives_bind (gives_liftTrap ht)
    (gives_bind (gives_set t s) (gives_bind hc (gives_bind (gives_curCtx u) ?_)))))))
  rw [if_pos hw, if_pos (by rw [decide_eq_true hv, hs]; rfl)]
  exact gives_modify _ u

theorem exec_drain_begins (hw : (u.ctx s.issue.ctx).waitAct = false) (hq : quiet u) {w : State}
    (hadd : (released u).counterAdd ((released u).ctxWriter s.issue.ctx (issuer (released u)).interval) pa 1 none
      (some (BitVec.ofNat 16 s.issue.ctx, (issuer (released u)).interval)) = .ok w) :
    exec (.drain scope ctr tgt) s = .next (stopped s (.held (draining
      (w.updCtx s.issue.ctx (fun x => { x with waitAct := true, drainSums := [] })) s.issue.ctx pa n.toNat scope))) := by
  rw [← hi] at hw
  refine runSlot_held ?_
  rw [run_bind_of hva, run_bind_of htgt, run_bind_of (gives_get s), run_bind_of (gives_liftTrap ht), run_bind_of (gives_set t s),
    run_bind_of hc, run_bind_of (gives_curCtx u), if_neg (by rw [hw]; exact Bool.false_ne_true),
    run_bind_of (gives_releaseNow hq), run_bind_of (gives_get (released u)), hadd]
  rfl

end

/-- Settles O33: each form by its lemma. -/
theorem counterForms : Obligations.CounterForms := by
  unfold Obligations.CounterForms
  refine ⟨⟨?cadd, ?cwait, ?reads, ?fence⟩, fun scope ctr tgt s va n hva htgt => ⟨?join, ?drain⟩⟩
  case cadd =>
    intro rel scope ctr amount s t va n pa hva hn ht
    have hn : Reads (caddAmount amount) s n := by
      cases amount with
      | inl k => exact hn
      | inr i => exact hn ▸ gives_pure _ s
    cases rel <;> exact exec_cadd hva hn ht
  case cwait =>
    intro acq scope dst ctr tgt timeout s t va n pa v hn hva htgt hc side ends
    exact ⟨fun hv => (exec_cwait_met hn hva hc htgt hv).trans (by rw [cwaitWord_eq]; rfl),
      fun hv hl => (exec_cwait_late hn hva hc htgt hv hl).trans (by rw [cwaitWord_eq]; rfl)⟩
  case reads =>
    intro acq scope dst ctr s t va pa v hn hva hc
    exact ⟨fun g tgt n htgt => exec_ctest hn hva hc htgt g, exec_cread hn hva hc false, exec_cread hn hva hc true⟩
  case fence =>
    intro scope s hq
    exact runSlot_ok (gives_bind (gives_releaseNow hq) (gives_pure _ _))
  case join =>
    intro acq park t pa v hn hc
    exact ⟨fun hv => exec_join_met hn hva hc htgt hv, fun hv hf hp => hp ▸ exec_join_waits hn hva hc htgt hv hf⟩
  case drain =>
    intro t u pa pa' v ht hc
    exact ⟨exec_drain_over hva htgt ht hc, fun hi hw hq w hadd => exec_drain_begins hva htgt ht hc hi hw hq hadd⟩

end Sys2Proof.Proofs

/-! SUPPORT. FORK, LAUNCH and MSEND (R263, R286, R287, R367). -/

namespace Sys2Proof.Proofs

open Sys2Proof Machine Laws

/-! ### Reads leave the bundle's record (R301, R304) -/

theorem readSpans_keepsCtxs (s : State) (ps : List Span) : KeepsCtxs s (readSpans s ps).2 := by
  induction ps generalizing s with
  | nil => exact KeepsCtxs.refl s
  | cons p ps ih => exact (readAt_keepsCtxs s p.pa p.len).trans (ih _)

theorem readVia_keepsCtxs {s t : State} {v : View} {va len : Nat} {bs : List Byte} (h : readVia s v va len = .ok (bs, t)) :
    KeepsCtxs s t := by
  unfold readVia at h
  split at h
  · cases h
  · next ps u hr =>
    split at h
    · cases h
    · rw [Except.ok.injEq] at h
      have hs := readSpans_keepsCtxs u ps
      rw [h] at hs
      exact (translateRange_keepsCtxs hr).trans hs

theorem transRanges_keepsCtxs {v : View} {acc : Acc} {align : Nat} (rs : List (Nat × Nat)) {s t : State} {ps : List Span}
    (h : transRanges v acc align rs s = .ok (ps, t)) : KeepsCtxs s t := by
  induction rs generalizing s ps with
  | nil => cases h; exact KeepsCtxs.refl _
  | cons r rs ih =>
    unfold transRanges at h
    split at h
    · cases h
    · split at h
      · cases h
      · next hr =>
        split at h
        · cases h
        · next hrs =>
          cases h
          exact (translateRange_keepsCtxs hr).trans (ih hrs)

/-- The translation of an access leaves the contexts and the record of the bundle. -/
theorem accessSpans_keepsCtxs {acc : Acc} {align : Nat} {rs : List (Nat × Nat)} {s t : State} {ps : List Span}
    (h : Gives (accessSpans acc align rs) s ps t) : KeepsCtxs s t := by
  unfold accessSpans at h
  obtain ⟨u, x, hx, h⟩ := gives_bind_inv h
  cases hx
  split at h
  · cases h
  · obtain ⟨⟨qs, w⟩, y, hy, h⟩ := gives_bind_inv h
    cases hr : transRanges (s.view s.issue.ctx) acc align rs s with
    | error e =>
      rw [hr] at hy
      cases hy
    | ok r =>
      rw [hr] at hy
      cases hy
      dsimp only at h
      split at h
      · cases h
      · cases h
        exact transRanges_keepsCtxs rs hr

/-! ### FORK (R263) -/

theorem gives_curCore (s : State) : Gives curCore s (s.core (coreOf s.issue.ctx)) s := rfl

/-- What FORK asks of its record's fields, the addresses in it apart. -/
def forkFields (bs : List Byte) : Prop :=
  bitsAt (field bs 0x28 1) 0 2 ≠ 3 ∧ bitsAt (field bs 0x28 1) 2 3 ≤ 4 ∧ bitsAt (field bs 0x28 1) 5 3 = 0 ∧
    zeroField bs 0x2A 22 = true ∧ if fieldW bs 0x20 = 0 then field bs 0x29 1 ≤ 4 else field bs 0x29 1 = 0

/-- The task that context `c` forks with a record, an argument and a region, having released into interval `i`. -/
def forkTask (c : Nat) (a : Word) (bs : List Byte) (sub : Region) (i : BitVec 16) : TaskRec :=
  { entry := fieldW bs 0
    arg := a
    join := fieldW bs 0x10
    image := fieldW bs 0x20
    role := bitsAt (field bs 0x28 1) 0 2
    scope := (Scope.ofCode (bitsAt (field bs 0x28 1) 2 3)).getD .core
    bank := field bs 0x29 1
    region := sub
    from_ := BitVec.ofNat 16 c
    interval := i }

/-- What a FORK by context `c` of region `r` does once its record's fields and its join counter are checked. -/
def forkInto (c : Nat) (r : Region) (at_ a : Word) (bs : List Byte) : M Unit := do
  let st ← get
  let sub ← match readRegion st (packageView r.space) (fieldW bs 0x18) with
    | .ok (q, s) => do
      set s
      pure q
    | .error _ => condTrap 0x05 at_
  need (inSubtree sub r) 0x05 at_
  let k ← curCore
  need (decide (k.deque.length < 256)) 0x14 0
  let i ← releaseNow
  modify (fun s => s.updCore (coreOf c) (fun k => { k with deque := forkTask c a bs sub i :: k.deque }))

section
variable {u v : State} {sub r : Region} {bs : List Byte}
  (hs : readRegion u (packageView r.space) (fieldW bs 0x18) = .ok (sub, v)) (hr : inSubtree sub r = true)
  (hd : (v.core (coreOf v.issue.ctx)).deque.length < 256) (hq : quiet v)
include hs hr hd hq

theorem gives_forkInto (c : Nat) (at_ a : Word) : Gives (forkInto c r at_ a bs) u () ((released v).updCore (coreOf c)
    (fun k => { k with deque := forkTask c a bs sub (issuer (released v)).interval :: k.deque })) := by
  refine gives_bind (gives_get u) ?_
  rw [hs]
  exact gives_bind (gives_set v u) (gives_bind (gives_pure sub v) (gives_bind (gives_need hr _ _ v) (gives_bind (gives_curCore v)
    (gives_bind (gives_need (decide_eq_true hd) _ _ v) (gives_bind (gives_releaseNow hq) (gives_modify _ _))))))

theorem exec_fork {r1 r2 : BitVec 5} {s t : State} {at_ a : Word} (hat : Reads (readK r1) s at_) (ha : Reads (readK r2) s a)
    (h64 : at_.toNat % 64 = 0) (hn : nonePosted s) (hread : readVia s (s.view s.issue.ctx) at_.toNat 64 = .ok (bs, t))
    (hentry : (fieldW bs 0).toNat % 8 = 0) (himage : (fieldW bs 0x20).toNat % 256 = 0) (hf : forkFields bs)
    (hj : if fieldW bs 0x10 = 0 then u = t
      else ∃ pa, translateCounter t (t.view t.issue.ctx) (fieldW bs 0x10) .counterAdd = .ok (pa, u))
    (hreg : (issuer s).region = r) :
    exec (.fork r1 r2) s = .next ((released v).updCore (coreOf s.issue.ctx)
      (fun k => { k with deque := forkTask s.issue.ctx a bs sub (issuer (released v)).interval :: k.deque })) := by
  obtain ⟨hrole, hscope, hzero, hpad, hbank⟩ := hf
  have fields : (bitsAt (field bs 0x28 1) 0 2 != 3 && decide (bitsAt (field bs 0x28 1) 2 3 ≤ 4) &&
      bitsAt (field bs 0x28 1) 5 3 == 0 && zeroField bs 0x2A 22 &&
      (if fieldW bs 0x20 = 0 then decide (field bs 0x29 1 ≤ 4) else field bs 0x29 1 == 0)) = true := by
    have bank : (if fieldW bs 0x20 = 0 then decide (field bs 0x29 1 ≤ 4) else field bs 0x29 1 == 0) = true := by
      split
      · next h0 => exact decide_eq_true (by rwa [if_pos h0] at hbank)
      · next h0 => exact beq_iff_eq.mpr (by rwa [if_neg h0] at hbank)
    rw [bne_iff_ne.mpr hrole, decide_eq_true hscope, beq_iff_eq.mpr hzero, hpad, bank]
    rfl
  have push := gives_forkInto hs hr hd hq s.issue.ctx at_ a
  subst hreg
  refine runSlot_ok (gives_bind hat (gives_bind ha (gives_bind (gives_need (beq_iff_eq.mpr h64) _ _ s)
    (gives_bind (gives_flushOwn hn) (gives_bind (gives_get s) ?_)))))
  dsimp only
  rw [hread]
  refine gives_bind (gives_pure _ s) (gives_bind (gives_set t s) (gives_bind (gives_need (beq_iff_eq.mpr hentry) _ _ t)
    (gives_bind (gives_need (beq_iff_eq.mpr himage) _ _ t) (gives_bind (gives_needLegal fields t) ?_))))
  split at hj
  · next h0 =>
    subst hj
    exact (congrArg (fun m : M Unit => Gives m u () _) (if_pos h0)).mpr push
  · next h0 =>
    obtain ⟨pa, hc⟩ := hj
    rw [(readVia_keepsCtxs hread).2] at hc
    refine (congrArg (fun m : M Unit => Gives m t () _) (if_neg h0)).mpr ?_
    exact gives_bind (gives_get t) (gives_bind (gives_liftTrap hc) (gives_bind (gives_set u t) push))

end

/-! ### LAUNCH (R367) -/

/-- The state after a write that is given up where it faults. -/
def writtenOr (s : State) (v : View) (w : Writer) (va : Nat) (bs : List Byte) : State :=
  match writeVia s v w va bs with
  | .ok t => t
  | .error _ => s

theorem writtenOr_ok {s t : State} {v : View} {w : Writer} {va : Nat} {bs : List Byte} (h : writeVia s v w va bs = .ok t) :
    writtenOr s v w va bs = t := by
  rw [writtenOr, h]

/-- What a LAUNCH leaves that writes packet `l` into the ring of region `r` for a context of region `mine`, which has released
into interval `i`: the launch counter moves by a releasing add, and the ring is served from now on. -/
def launched (w : State) (c : Nat) (i : BitVec 16) (r mine : Region) (l done : Nat) : State :=
  serveRing (packageAdd w r r.launchCtr 1 none (some (BitVec.ofNat 16 c, i))) r mine.space done (l + 1)

theorem exec_launch {dst pkt : BitVec 5} {s t u v w x : State} {a : Word} {bs : List Byte} {r : Region} {lpa l cpa done : Nat}
    {ps : List Span} (ha : Reads (readK pkt) s a) (h64 : a.toNat % 64 = 0) (hn : nonePosted s)
    (hload : Gives (loadStrict false 64 a.toNat 64) s bs t) (hp : packetOk bs = true)
    (hreg : readRegion t (packageView (issuer t).region.space) (fieldW bs 0x10) = .ok (r, u))
    (hsub : inSubtree r (issuer t).region = true) (huse : ringUsable u r = true)
    (hctr : ringCounters u r = .ok ((lpa, l), (cpa, done), v))
    (hslot : translateRange v (packageView r.space) (slotVa r l) 64 .write = .ok (ps, x)) (hroom : l - done < r.ringSize)
    (hq : quiet v)
    (hw : writeVia (released v) (packageView r.space) (v.ctxWriter t.issue.ctx (v.ctx t.issue.ctx).interval) (slotVa r l) bs = .ok w) :
    exec (.launch dst pkt) s = .next (awaiting (launched w t.issue.ctx (issuer (released v)).interval r (issuer t).region l done)
      [(fK, dst.toNat)] (some ([BitVec.ofNat 2048 l], none))) := by
  rw [← writtenOr_ok hw]
  refine runSlot_ok (gives_bind ha (gives_bind (gives_need (beq_iff_eq.mpr h64) _ _ s) (gives_bind (gives_flushOwn hn)
    (gives_bind hload (gives_bind (gives_needLegal hp t) (gives_bind (gives_get t) ?_))))))
  dsimp only
  rw [hreg]
  refine gives_bind (gives_set u t) (gives_bind (gives_pure r u) (gives_bind (gives_need hsub _ _ u) (gives_bind (gives_get u)
    (gives_bind (gives_need huse _ _ u) ?_))))
  rw [hctr]
  refine gives_bind (gives_pure _ u) (gives_bind (gives_set v u) ?_)
  dsimp only
  rw [hslot]
  dsimp only
  rw [if_neg (Nat.not_le.mpr hroom)]
  exact gives_bind (gives_releaseNow hq) (gives_bind (gives_modify _ _) (gives_pendResult _ _ _))

/-! ### MSEND (R286, R287) -/

/-- The message that context `c` sends from `u` into slot `j` with its payload; `v` is the state after its release, if it makes one. -/
def message (u v : State) (c j : Nat) (off : BitVec 30) (bs : List Byte) (rel : Bool) : Msg :=
  { slot := j
    sender := c
    seq := u.issue.order
    interval := (v.ctx c).interval
    region := (u.ctx c).region
    handler := u.issue.addr + (off.signExtend 64 <<< 3)
    payload := bs
    rel := rel
    order := u.nextId }

theorem exec_msend {rel : Bool} {len tgt src : BitVec 5} {off : BitVec 30} {s t u : State} {k a : Word} {ps : List Span}
    {bs : List Byte} {j : Nat} {e : Option (BitVec 8 × Word)} (hk : Reads (readK tgt) s k) (ha : Reads (readK src) s a)
    (h4 : k.toNat % 4 = 0) (hlt : k.toNat < 4096) (hv : coreValid (k.toNat / 4) = true) (hp : (s.core (k.toNat / 4)).present = true)
    (h8 : a.toNat % 8 = 0) (hps : Gives (accessSpans .read 8 [(a.toNat, 8 * (len.toNat + 1))]) s ps t)
    (hj : freeInbox t (k.toNat / 4) s.issue.ctx = some j) (hn : nonePosted t) (hb : badSpan t ps = none)
    (hr : readFor t (t.issuerOf s.issue.ctx) false ps = ((bs, e), u)) (hu : u.issue = s.issue) :
    exec (.msend rel len tgt src off) s = .next { sendMsg (if rel then released u else u) (k.toNat / 4)
      (message u (if rel then released u else u) s.issue.ctx j off bs rel) with nextId := u.nextId + 1 } := by
  have target : (k.toNat % 4 == 0 && decide (k.toNat < 4096)) = true := by rw [beq_iff_eq.mpr h4, decide_eq_true hlt]; rfl
  have here : (coreValid (k.toNat / 4) && (s.core (k.toNat / 4)).present) = true := by rw [hv, hp]; rfl
  refine runSlot_ok (gives_bind hk (gives_bind ha (gives_bind (gives_needLegal target s) (gives_bind (gives_get s)
    (gives_bind (gives_need here _ _ s) (gives_bind (gives_need (beq_iff_eq.mpr h8) _ _ s) (gives_bind hps
    (gives_bind (gives_get t) ?_))))))))
  dsimp only
  rw [hj]
  refine gives_bind (gives_flushOwn hn) (gives_bind (gives_get t) ?_)
  rw [hb, hr]
  exact gives_bind (gives_set u t) (gives_ite_bind (gives_intervalOf (congrArg Issue.ctx hu) rel) (gives_modify _ _))

/-- Settles O35: each form by its lemma. -/
theorem taskSubmission : Obligations.TaskSubmission := by
  unfold Obligations.TaskSubmission
  refine ⟨?fork, ?launch, ?msend⟩
  case fork =>
    intro r1 r2 s t u v at_ a bs sub hat ha h64 hn hread entry join image b bank hentry himage hrole hscope hzero hpad hbank hj hs hr
      hd hq
    exact exec_fork hs hr hd hq hat ha h64 hn hread hentry himage ⟨hrole, hscope, hzero, hpad, hbank⟩ hj rfl
  case launch =>
    intro dst pkt s t u v w a bs r lpa l cpa done ps x ha h64 hn hload hp hreg hsub huse hctr hslot hroom hq hw
    exact exec_launch ha h64 hn hload hp hreg hsub huse hctr hslot hroom hq hw
  case msend =>
    intro rel len tgt src off s t u k a ps bs j e hk ha h4 hlt hv hp h8 hps hj hn hb hr hu
    have ht : t.issue = s.issue := (accessSpans_keepsCtxs hps).2
    rw [ht] at hj hr
    dsimp only
    rw [ht]
    exact exec_msend hk ha h4 hlt hv hp h8 hps hj hn hb hr (hu.trans ht)

end Sys2Proof.Proofs

/-! SUPPORT. Engine commands, ESTAT and SWAP (R269 to R274, R368, R370, R421, R451). -/

namespace Sys2Proof.Proofs

open Sys2Proof Machine Laws

/-! ### Commands (R269, R273) -/

section
variable {s t u : State} {ctr rec_ : Word} {pa : Nat} {bs : List Byte} {f : EngArgs}

theorem gives_cmdCounter (hc : translateCounter t (t.view t.issue.ctx) ctr .counterAdd = .ok (pa, u)) :
    Gives (cmdCounter ctr) t () u :=
  gives_bind (gives_get t) (gives_bind (gives_liftTrap hc) (gives_set u t))

/-- A command enters a free shadow. -/
theorem gives_acceptCmd {e : EngineId} (hs : (u.engine e).shadow = none) (wait : Wait) (form : Nat) (bits : EngBits) (rec_ : Word)
    (bs : List Byte) (ctr : Word) (amount : Nat) :
    Gives (acceptCmd e wait form bits rec_ bs ctr amount) u () (accepted u e form bits rec_ bs ctr amount) := by
  refine gives_bind (gives_get u) ?_
  dsimp only
  rw [if_neg (by rw [hs]; exact Bool.false_ne_true)]
  exact gives_bind (gives_curCtx u) (gives_ite_bind (gives_intervalOf rfl bits.rel) (gives_modify _ _))

variable (hrec : Reads (readK f.cmd) s rec_) (hctr : Reads (readK f.ctr) s ctr) (hread : Gives (readCmdRec rec_) s bs t)
  (hc : translateCounter t (t.view t.issue.ctx) ctr .counterAdd = .ok (pa, u))
include hrec hctr hread hc

/-- The commands of a cluster's engines. -/
theorem runSlot_issueEngine {form sel : Nat} {pick : State → Nat → EngineId} (hk : Reads (checkRecord form rec_ bs) t ())
    (hs : (u.engine (pick u (clusterOf u.issue.ctx))).shadow = none) : runSlot (issueEngine form pick sel f) s =
      .next (accepted u (pick u (clusterOf u.issue.ctx)) form f.bits rec_ bs ctr f.amount.toNat) :=
  runSlot_ok (gives_bind hrec (gives_bind hctr (gives_bind hread (gives_bind hk (gives_bind (gives_cmdCounter hc)
    (gives_bind (gives_get u) (gives_acceptCmd hs _ form f.bits rec_ bs ctr f.amount.toNat)))))))

theorem exec_ecoll (hk : collOk (t.die (dieOf t.issue.ctx)).mesh bs = true)
    (hs : (u.engine (.collective (dieOf t.issue.ctx))).shadow = none) : exec (.ecoll f) s =
      .next (accepted u (.collective (dieOf t.issue.ctx)) 0x18 f.bits rec_ bs ctr f.amount.toNat) :=
  runSlot_ok (gives_bind hrec (gives_bind hctr (gives_bind hread (gives_bind (gives_get t) (gives_bind (gives_needLegal hk t)
    (gives_bind (gives_cmdCounter hc) (gives_acceptCmd hs _ 0x18 f.bits rec_ bs ctr f.amount.toNat)))))))

theorem exec_eplane (hk : planeRecOk bs = true) (ha : field bs 0 8 % 256 = 0)
    (hs : (u.engine (.loader (field bs 0xB 1))).shadow = none) : exec (.eplane f) s =
      .next (accepted u (.loader (field bs 0xB 1)) 0x19 f.bits rec_ bs ctr f.amount.toNat) :=
  runSlot_ok (gives_bind hrec (gives_bind hctr (gives_bind hread (gives_bind (gives_needLegal hk t)
    (gives_bind (gives_need (beq_iff_eq.mpr ha) _ _ t) (gives_bind (gives_cmdCounter hc)
      (gives_acceptCmd hs _ 0x19 f.bits rec_ bs ctr f.amount.toNat)))))))

end

theorem exec_estat (dst : BitVec 5) (n : BitVec 3) (s : State) : exec (.estat dst n) s = .next (awaiting s [(fK, dst.toNat)]
    (some ([(statWord s (statEngine s.issue.ctx n.toNat)).setWidth 2048], none))) := by
  change execEstat dst n s = _
  refine runSlot_ok (gives_bind (gives_get s) ?_)
  exact gives_pendResult _ _ s

/-! ### SWAP (R370, R451) -/

/-- What a SWAP does once the counter that it names, if it names one, is checked. -/
def swapWait (target : Option Word) : M Unit := do
  let st ← get
  let c := st.issue.ctx
  let x ← curCtx
  let k ← curCore
  let empty := k.shadow.isEmpty && !shadowLoading st (coreOf c)
  if x.waitAct then
    if swapPending st x.tid then do
      needLegal (!(empty && k.swapTokens.any (fun t => t.tid == x.tid)))
      throw (.held (waitRetry st c .swap))
    else pure ()
  else do
    needLegal (!empty)
    let st := (swapLocked st c target).updCtx c (fun x => { x with waitAct := true })
    throw (.held (waitRetry st c .swap))

/-- A SWAP checks its counter, which takes it from `s` to `t` with the address `p`, and then waits, goes on or traps. -/
theorem exec_swap {ctr : Option (BitVec 5)} {s t : State} {p : Option Word} (h : match ctr with
    | none => t = s ∧ p = none
    | some k => ∃ va pa, Reads (readK k) s va ∧ p = some va ∧
        translateCounter s (s.view s.issue.ctx) va .counterAdd = .ok (pa, t)) :
    ∃ m : M Unit, exec (.swap ctr) s = runSlot m s ∧ m.run s = (swapWait p).run t := by
  cases ctr with
  | none =>
    obtain ⟨rfl, rfl⟩ := h
    exact ⟨_, rfl, rfl⟩
  | some k =>
    obtain ⟨va, pa, hva, rfl, hc⟩ := h
    exact ⟨_, rfl, (run_bind_of hva).trans (run_bind_of (gives_cmdCounter hc))⟩

section
variable {t : State} {c : Nat} (hc : t.issue.ctx = c) {p : Option Word}
include hc

theorem gives_swapWait_over (hw : (t.ctx c).waitAct = true) (hp : swapPending t (t.ctx c).tid = false) :
    Gives (swapWait p) t () t := by
  subst hc
  refine gives_bind (gives_get t) (gives_bind (gives_curCtx t) (gives_bind (gives_curCore t) ?_))
  rw [if_pos hw, if_neg (by rw [hp]; exact Bool.false_ne_true)]
  exact gives_pure () t

variable (hw : (t.ctx c).waitAct = false)
include hw

/-- Until it has locked its shadow a SWAP asks for one that is loaded or loading. -/
theorem run_swapWait_first : (swapWait p).run t = (do
    needLegal (!((t.core (coreOf c)).shadow.isEmpty && !shadowLoading t (coreOf c)))
    throw (.held (waitRetry ((swapLocked t c p).updCtx c (fun x => { x with waitAct := true })) c .swap)) : M Unit).run t := by
  subst hc
  unfold swapWait
  rw [run_bind_of (gives_get t), run_bind_of (gives_curCtx t), run_bind_of (gives_curCore t),
    if_neg (by rw [hw]; exact Bool.false_ne_true)]

theorem run_swapWait_locks (h : (t.core (coreOf c)).shadow.isEmpty = false ∨ shadowLoading t (coreOf c) = true) :
    (swapWait p).run t =
      .error (.held (waitRetry ((swapLocked t c p).updCtx c (fun x => { x with waitAct := true })) c .swap)) := by
  have full : (!((t.core (coreOf c)).shadow.isEmpty && !shadowLoading t (coreOf c))) = true := by
    rw [Bool.not_eq_true', Bool.and_eq_false_iff, Bool.not_eq_false']
    exact h
  rw [run_swapWait_first hc hw, run_bind_of (gives_needLegal full t)]
  rfl

theorem traps_swapWait_empty (he : (t.core (coreOf c)).shadow.isEmpty = true) (hl : shadowLoading t (coreOf c) = false) :
    Traps (swapWait p) t 0x01 (BitVec.ofNat 64 t.issue.word) := by
  unfold Traps
  rw [run_swapWait_first hc hw]
  exact traps_bind_left (traps_needLegal (by rw [he, hl]; rfl) t)

end

/-- Settles O36: each form by its lemma. -/
theorem engineCommands : Obligations.EngineCommands := by
  unfold Obligations.EngineCommands
  refine ⟨⟨?commands, fun dst n s => ?estat⟩, ?swap⟩
  case commands =>
    intro f s t u rec_ ctr bs pa hrec hctr hread hc cl takes
    refine ⟨fun eng => ⟨fun hk => ?copy, fun hk => ?fill, fun hk => ?conv⟩, fun hk => ?gather, fun hk => ?scatter, fun hk => ?coll,
      fun hk ha => ?plane⟩
    case coll => exact exec_ecoll hrec hctr hread hc hk
    case plane => exact exec_eplane hrec hctr hread hc hk ha
    case copy | fill | conv =>
      exact runSlot_issueEngine (pick := fun s cl => pickCopy s cl eng.toNat) (sel := eng.toNat) hrec hctr hread hc hk
    case gather | scatter => exact runSlot_issueEngine hrec hctr hread hc hk
  case estat => exact exec_estat dst n s
  case swap =>
    intro ctr s t p h c k
    obtain ⟨m, he, hm⟩ := exec_swap h
    rw [he]
    exact ⟨fun hw hp => runSlot_ok (hm.trans (gives_swapWait_over rfl hw hp)),
      fun hw hf => runSlot_held (hm.trans (run_swapWait_locks rfl hw hf)),
      fun hw he hl => runSlot_trap (hm.trans (traps_swapWait_empty rfl hw he hl))⟩

end Sys2Proof.Proofs

/-! SUPPORT. What the rows of an engine's command do (R271), and what reads and writes of translated spans do with memory. -/

namespace Sys2Proof.Proofs

open Sys2Proof Machine Laws

/-! ### Rows (R271) -/

/-- Row `n` of the stretch whose base and stride stand at two offsets of a command's record. -/
def rowAt (c : Cmd) (base stride n : Nat) : Word := fieldW c.cmdRec base + BitVec.ofNat 64 n * fieldW c.cmdRec stride

section
variable {c : Cmd} {v : View} {w : Writer} {s t u : State} {a b : Word} {l : List Byte} {n i : Nat}

theorem rowRead_ok (h : readVia s v a.toNat n = .ok (l, t)) : rowRead s v a n = .ok (l, t) := by
  rw [rowRead, h]

theorem rowWrite_ok (hh : heldShard s v.die v.space a.toNat l.length = false) (h : writeVia s v w a.toNat l = .ok u) :
    rowWrite s v w a l = .ok u := by
  rw [rowWrite, if_neg (by rw [hh]; exact Bool.false_ne_true), h]

variable (c v w) in
/-- A row of a command's length is read at `a` and written at `b`. -/
def copyRow (s : State) (a b : Word) : Except RowStop State :=
  match rowRead s v a (field c.cmdRec 0x10 4) with
  | .error e => .error e
  | .ok (d, s) => rowWrite s v w b d

theorem copyRow_ok (hr : readVia s v a.toNat (field c.cmdRec 0x10 4) = .ok (l, t))
    (hh : heldShard t v.die v.space b.toNat l.length = false) (hw : writeVia t v w b.toNat l = .ok u) : copyRow c v w s a b = .ok u := by
  rw [copyRow, rowRead_ok hr]
  exact rowWrite_ok hh hw

theorem execRow_copy (h : c.form = 0x13) : execRow c v w s i = copyRow c v w s (rowAt c 0 0x18 i) (rowAt c 8 0x20 i) := by
  unfold execRow
  rw [h]
  rfl

section
variable (hidx : readVia s v (fieldW c.cmdRec 0x30 + BitVec.ofNat 64 (4 * i)).toNat 4 = .ok (l, t))
include hidx

/-- An index of all ones stands for no row. -/
theorem execRow_skips (h : c.form = 0x14 ∨ c.form = 0x15) (hl : leNat l = 0xFFFFFFFF) : execRow c v w s i = .ok t := by
  unfold execRow
  rcases h with h | h <;>
  · rw [h]
    dsimp only
    rw [rowRead_ok hidx]
    exact if_pos hl

theorem execRow_gather (h : c.form = 0x14) (hl : leNat l ≠ 0xFFFFFFFF) :
    execRow c v w s i = copyRow c v w t (rowAt c 0 0x18 (leNat l)) (rowAt c 8 0x20 i) := by
  unfold execRow
  rw [h]
  dsimp only
  rw [rowRead_ok hidx]
  exact if_neg hl

theorem execRow_scatter (h : c.form = 0x15) (hl : leNat l ≠ 0xFFFFFFFF) :
    execRow c v w s i = copyRow c v w t (rowAt c 0 0x18 i) (rowAt c 8 0x20 (leNat l)) := by
  unfold execRow
  rw [h]
  dsimp only
  rw [rowRead_ok hidx]
  exact if_neg hl

end

theorem fillBytes_eq {bs : List Byte} {ty : ElemTy} (h : recType (field bs 0x29 1) = some ty) (len : Nat) :
    fillBytes bs len = (List.range len).map (fun j => BitVec.ofNat 8 (field bs (0x30 + j % (ty.width / 8)) 1)) := by
  unfold fillBytes
  rw [h]
  rfl

theorem execRow_fill (h : c.form = 0x16) :
    execRow c v w s i = rowWrite s v w (rowAt c 8 0x20 i) (fillBytes c.cmdRec (field c.cmdRec 0x10 4)) := by
  unfold execRow
  rw [h]
  rfl

theorem execRow_convert (h : c.form = 0x17) {x y : ElemTy} (hx : convType (field c.cmdRec 0x28 1) = some x)
    (hy : convType (field c.cmdRec 0x29 1) = some y)
    (hr : readVia s v (rowAt c 0 0x18 i).toNat (field c.cmdRec 0x10 4 * (x.width / 8)) = .ok (l, t)) :
    execRow c v w s i = rowWrite t v w (rowAt c 8 0x20 i) (convBytes x y l (field c.cmdRec 0x10 4)) := by
  have read : rowRead s v (rowAt c 0 0x18 i) (field c.cmdRec 0x10 4 * elemBytes x) = .ok (l, t) := rowRead_ok hr
  unfold execRow
  rw [h]
  dsimp only
  rw [hx, hy]
  dsimp only
  rw [rowAt] at read
  rw [read]
  rfl

end

/-! ### Translated spans and memory (R249, R295) -/

section
variable {s : State} {ps : List Span} (hp : ∀ p ∈ ps, mgmtOff p.pa = none)
include hp

/-- A write over spans outside the management space changes the bytes that the spans and the bytes at hand cover. -/
theorem byteAt_writeSpans (hm : Memory.wf s.mem = true) (w : Writer) (bs : List Byte) (a : Nat) :
    byteAt (writeSpans s w ps bs) a = overSpans ps bs (byteAt s) a := by
  induction ps generalizing s bs with
  | nil => rfl
  | cons p ps ih =>
    have first : byteAt (s.storeAt w p.cnt p.pa (bs.take p.len)) =
        fun a => if p.pa ≤ a then ((bs.take p.len)[a - p.pa]?).getD (byteAt s a) else byteAt s a := by
      funext a
      rw [byteAt, storeAt_eq_write (hp p List.mem_cons_self), write_mem, get_putBytes hm]
      by_cases h : p.pa ≤ a
      · rw [if_pos h]
        by_cases hl : a - p.pa < (bs.take p.len).length
        · rw [if_pos ⟨h, by omega⟩, List.getD_eq_getElem?_getD, List.getElem?_eq_getElem hl]
          rfl
        · rw [if_neg (fun k => hl (by omega)), List.getElem?_eq_none (Nat.not_lt.mp hl)]
          rfl
      · rw [if_neg h, if_neg (fun k => h k.1)]
    rw [writeSpans, ih (fun q hq => hp q (List.mem_cons_of_mem p hq)) (storeAt_memOk hm w p.cnt p.pa _), first]
    rfl

/-- Without a live shadow a read of such spans gives the bytes that memory holds. -/
theorem readSpans_eq_bytes (hr : s.redShadow = []) :
    readSpans s ps = (ps.flatMap (fun p => (List.range p.len).map (fun i => byteAt s (p.pa + i))), s) := by
  induction ps with
  | nil => rfl
  | cons p ps ih =>
    rw [readSpans, readAt_eq_raw (hp p List.mem_cons_self) hr]
    dsimp only
    rw [ih (fun q hq => hp q (List.mem_cons_of_mem p hq))]
    rfl

end

end Sys2Proof.Proofs

/-! SUPPORT. How the commands of the cluster engines end, and the steps of the configuration loaders and the planes (R269, R272, R368,
R370, R371). -/

namespace Sys2Proof.Proofs

open Sys2Proof Machine Laws

/-! ### The completion of a command (R272) -/

section
variable {s u : State} {e : EngineId} {c : Cmd}

theorem finishCmd_ok (h : addVia (countCommand s e c) c.view (c.writer (countCommand s e c) e) c.ctrVa c.amount none
      (if c.bits.rel then some (BitVec.ofNat 16 c.ctx, c.recorded) else none) = .ok u) :
    finishCmd s e c none none = (u, none) := by
  have add : addVia (countCommand s e c) c.view (c.writer (countCommand s e c) e) c.ctrVa c.amount none
      (if (true && c.bits.rel) = true then some (BitVec.ofNat 16 c.ctx, c.recorded) else none) = .ok u := h
  unfold finishCmd
  dsimp only [Option.map_none, Option.none_or, Option.isNone_none]
  rw [add]

theorem finishCmd_fault {cause : BitVec 8} {a : Word} (h : addVia (countCommand s e c) c.view (c.writer (countCommand s e c) e) c.ctrVa
      c.amount (some cause) none = .ok u) : finishCmd s e c (some (cause, a)) none =
    (outsideTrap (confirmWalk u c.view cause a.toNat) c.tid c.region 2 cause a, some cause) := by
  have add : addVia (countCommand s e c) c.view (c.writer (countCommand s e c) e) c.ctrVa c.amount (some cause)
      (if (false && c.bits.rel) = true then some (BitVec.ofNat 16 c.ctx, c.recorded) else none) = .ok u := h
  unfold finishCmd
  dsimp only [Option.map_some, Option.some_or, Option.isNone_some]
  rw [add]

/-- The rows before row `m` take the state from `rows 0` to `rows m`. -/
theorem execRows_add {v : View} {w : Writer} {rows : Nat → State} (n : Nat) {m j : Nat}
    (h : ∀ i < m, execRow c v w (rows (j + i)) (j + i) = .ok (rows (j + i + 1))) :
    execRows c v w (m + n) j (rows j) = execRows c v w n (j + m) (rows (j + m)) := by
  induction m generalizing j with
  | zero => rw [Nat.zero_add, Nat.add_zero]
  | succ m ih =>
    have rest : execRows c v w (m + n) (j + 1) (rows (j + 1)) = execRows c v w n (j + 1 + m) (rows (j + 1 + m)) :=
      ih fun i hi => by
        have := h (i + 1) (Nat.succ_lt_succ hi)
        rwa [show j + (i + 1) = j + 1 + i by omega] at this
    rw [show m + 1 + n = m + n + 1 by omega, execRows, show execRow c v w (rows j) j = .ok (rows (j + 1)) from h 0 (Nat.succ_pos m)]
    dsimp only
    rw [rest, show j + 1 + m = j + (m + 1) by omega]

section
variable {v : View} {w : Writer} {rows : Nat → State} {m n : Nat} (h0 : rows 0 = s)
  (hrows : ∀ i < m, execRow c v w (rows i) i = .ok (rows (i + 1)))
include h0 hrows

theorem execRows_from : execRows c v w (m + n) 0 s = execRows c v w n m (rows m) := by
  have := execRows_add (c := c) (v := v) (w := w) (rows := rows) n (m := m) (j := 0)
    (fun i hi => by rw [Nat.zero_add]; exact hrows i hi)
  rwa [h0, Nat.zero_add] at this

theorem execRows_all (hm : m = n) : execRows c v w n 0 s = (rows m, none) := by
  rw [← hm]
  exact execRows_from (n := 0) h0 hrows

/-- A row that does not take place is the last one. -/
theorem execRows_stops (hm : m < n) {stop : RowStop} (h : execRow c v w (rows m) m = .error stop) :
    execRows c v w n 0 s = (rows m, some stop) := by
  rw [show n = m + (n - m - 1 + 1) by omega, execRows_from h0 hrows, execRows, h]

end

end

/-- What a command leaves of `s` whose rows have come to `r`: nothing is done where a row is held, and else the completion add is made
and the command ends. -/
def endRows (s : State) (e : EngineId) (c : Cmd) (r : State × Option RowStop) : State :=
  let ended (r : State × Option (BitVec 8)) : State := setEngine r.1 e (fun g => g.ended r.2)
  match r with
  | (_, some .held) => s
  | (t, some (.fault cause a)) => ended (finishCmd t e c (some (cause, a)) none)
  | (t, none) => ended (finishCmd t e c none none)

/-- The engines of a cluster. -/
def clusterEngine (e : EngineId) : Prop := ∃ n, e = .copy0 n ∨ e = .copy1 n ∨ e = .gs n

theorem exec_engineCommandComplete_cluster {e : EngineId} (he : clusterEngine e) (s : State) :
    exec (.engineCommandComplete e) s = .next (runCopyEngine s e) := by
  obtain ⟨n, rfl | rfl | rfl⟩ := he <;> rfl

section
variable {s : State} {e : EngineId}

theorem runCopyEngine_idle (h : (s.engine e).cur = none) : runCopyEngine s e = s := by
  rw [runCopyEngine, h]

variable {c : Cmd} (hc : (s.engine e).cur = some c)
include hc

theorem runCopyEngine_notReady (hr : cmdReady s c = false) : runCopyEngine s e = s := by
  rw [runCopyEngine, hc]
  exact if_pos (by rw [hr]; rfl)

variable (hr : cmdReady s c = true)
include hr

/-- A command that is ready performs its rows and ends by what they have come to. -/
theorem runCopyEngine_ready :
    runCopyEngine s e = endRows s e c (execRows c c.view (c.writer s e) (field c.cmdRec 0x14 4) 0 s) := by
  rw [runCopyEngine, hc]
  dsimp only
  exact if_neg (by rw [hr]; exact Bool.false_ne_true)

variable {rows : Nat → State} {m : Nat} (h0 : rows 0 = s)
  (hrows : ∀ i < m, execRow c c.view (c.writer s e) (rows i) i = .ok (rows (i + 1)))
include h0 hrows

theorem runCopyEngine_completes (hm : m = field c.cmdRec 0x14 4) {u : State} (h : addVia (countCommand (rows m) e c) c.view
      (c.writer (countCommand (rows m) e c) e) c.ctrVa c.amount none
      (if c.bits.rel then some (BitVec.ofNat 16 c.ctx, c.recorded) else none) = .ok u) :
    runCopyEngine s e = setEngine u e (fun g => g.ended none) := by
  rw [runCopyEngine_ready hc hr, execRows_all h0 hrows hm, endRows]
  dsimp only
  rw [finishCmd_ok h]

section
variable (hm : m < field c.cmdRec 0x14 4)
include hm

theorem runCopyEngine_held (h : execRow c c.view (c.writer s e) (rows m) m = .error .held) : runCopyEngine s e = s := by
  rw [runCopyEngine_ready hc hr, execRows_stops h0 hrows hm h, endRows]

theorem runCopyEngine_fault {cause : BitVec 8} {a : Word} {u : State}
    (h : execRow c c.view (c.writer s e) (rows m) m = .error (.fault cause a))
    (hadd : addVia (countCommand (rows m) e c) c.view (c.writer (countCommand (rows m) e c) e) c.ctrVa c.amount (some cause) none = .ok u) :
    runCopyEngine s e = setEngine (outsideTrap (confirmWalk u c.view cause a.toNat) c.tid c.region 2 cause a) e
      (fun g => g.ended (some cause)) := by
  rw [runCopyEngine_ready hc hr, execRows_stops h0 hrows hm h, endRows]
  dsimp only
  rw [finishCmd_fault hadd]

end

end

/-! ### The loaders (R368) -/

section
variable {d : Nat} {c : Cmd} {s t : State}

/-- A loader without commands of management performs its own. -/
theorem exec_configLoaderLoad (hcur : (s.die d).loader.cur = some c) (hq : (s.die d).loaderQueue = []) (hr : cmdReady s c = true)
    (hl : lockedOut s c = false) : exec (.configLoaderLoad d) s =
      .next (setEngine (loadPlane s d c).1 (.loader d) (fun g => g.ended (loadPlane s d c).2)) := by
  change Host.Outcome.next (runLoader s d) = _
  unfold runLoader
  dsimp only
  rw [hcur, hq]
  dsimp only
  rw [if_neg (by rw [hr, hl]; exact Bool.false_ne_true)]

variable {bs : List Byte} (hread : readVia s c.view (field c.cmdRec 0 8) planeImageLen = .ok (bs, t))
  (hp : ∀ k ∈ planeCores c.cmdRec, (s.core k).present = true)
include hread hp

theorem loadPlane_image {p : Plane} (h : planeOf bs = some p) :
    loadPlane s d c = finishCmd (setShadows t (planeCores c.cmdRec) p) (.loader d) c none none := by
  unfold loadPlane
  dsimp only
  rw [List.filter_eq_self.mpr hp, hread]
  dsimp only
  rw [h]
  dsimp only
  rw [if_pos rfl]

theorem loadPlane_broken (h : planeOf bs = none) : loadPlane s d c =
    finishCmd (setShadows t (planeCores c.cmdRec) {}) (.loader d) c (some (0x01, fieldW c.cmdRec 0)) none := by
  unfold loadPlane
  dsimp only
  rw [List.filter_eq_self.mpr hp, hread]
  dsimp only
  rw [h]

end

/-! ### The planes (R370, R371) -/

section
variable {s : State} {k : Nat}

section
variable (hw : (s.core k).swapLock = true ∨ (s.core k).swapTokens ≠ []) (hd : drainPoint s k = true) (hl : shadowLoading s k = false)
include hw hd hl

/-- At the drain point of a core that waits for a flip, its shadow decides. -/
theorem exec_planeFlip_drained : exec (.planeFlip k) s = if (s.core k).shadow.isEmpty then
    .next (if (liveOn s k).isEmpty then s.updCore k (fun x => { x with swapLock := false }) else s)
    else .next (unlockShadow (exchangePlanes s k) k) := by
  change execPlaneFlip k s = _
  unfold execPlaneFlip
  refine if_neg ?_
  rw [hd, hl]
  rcases hw with h | h
  · rw [h]
    exact Bool.false_ne_true
  · rw [show (s.core k).swapTokens.isEmpty = false from List.isEmpty_eq_false_iff.mpr h, Bool.and_false]
    exact Bool.false_ne_true

theorem exec_planeFlip (h : (s.core k).shadow.isEmpty = false) :
    exec (.planeFlip k) s = .next (unlockShadow (exchangePlanes s k) k) := by
  rw [exec_planeFlip_drained hw hd hl, if_neg (by rw [h]; exact Bool.false_ne_true)]

theorem exec_planeFlip_empty (h : (s.core k).shadow.isEmpty = true) (hn : liveOn s k = []) :
    exec (.planeFlip k) s = .next (s.updCore k (fun x => { x with swapLock := false })) := by
  rw [exec_planeFlip_drained hw hd hl, if_pos h, hn]
  rfl

end

theorem exec_managementFlip (hv : coreValid k = true) (hp : (s.core k).present = true) (hn : liveOn s k = [])
    (he : (s.core k).shadow.isEmpty = false) (hl : shadowLoading s k = false) (hs : (s.core k).swapLock = false) :
    exec (.managementFlip k) s = .next (exchangePlanes s k) := by
  change execManagementFlip k s = _
  unfold execManagementFlip
  refine if_neg ?_
  rw [hv, hp, hn, he, hl, hs]
  exact Bool.false_ne_true

/-- The command that management gives a loader with a record and a counter, from state `u`. -/
def managementCmd (u : State) (bs : List Byte) (ctr : Word) (amount : Nat) : Cmd :=
  { form := 0x19
    ctx := 0
    tid := 0
    seq := 0
    region := { space := u.mgmtSpace }
    cmdRec := bs
    bits := { acq := false, rel := false, scope := .package }
    ctrVa := ctr
    amount := amount
    interval := 0
    recorded := 0
    order := u.nextId }

theorem exec_managementEplane {die amount pa : Nat} {rec_ ctr : Word} {t u : State} {bs : List Byte} (h3 : stage3Done s = true)
    (hd : die < 8) (h64 : rec_.toNat % 64 = 0) (h0 : 0 < amount) (hlt : amount < 2 ^ 30)
    (hread : readVia s (packageView s.mgmtSpace) rec_.toNat 64 = .ok (bs, t)) (hk : planeRecOk bs = true)
    (ha : field bs 0 8 % 256 = 0) (hb : field bs 0xB 1 = die)
    (hc : translateCounter t (packageView s.mgmtSpace) ctr .counterAdd = .ok (pa, u)) :
    exec (.managementEplane die rec_ ctr amount) s = .next { u.updDie die (fun x =>
      { x with loaderQueue := x.loaderQueue ++ [managementCmd u bs ctr amount] }) with nextId := u.nextId + 1 } := by
  change execManagementEplane die rec_ ctr amount s = _
  unfold execManagementEplane
  dsimp only
  rw [if_neg (by simp only [h3, h64, Bool.not_true, Bool.false_or, Bool.or_eq_true, decide_eq_true_eq]; omega), hread]
  dsimp only
  rw [if_neg (by simp [hk, ha, hb]), hc]
  rfl

end

end Sys2Proof.Proofs

/-! SUPPORT. The steps that end compactions, requantisations and deliveries, the messages that a follower applies, and the match of a
collective command (R330, R343, R346, R354, R421); the steps of the engines, loaders, planes and the sequence manager together. -/

namespace Sys2Proof.Map

/-- An entry that is listed is found, whatever else the map lists. -/
theorem find?_put_self {α : Type} (m : Map α) (k : Nat) (v : α) : find? (put m k v) k = some v := by
  induction m with
  | nil => exact if_pos rfl
  | cons p m ih =>
    obtain ⟨j, u⟩ := p
    unfold put
    split
    · exact if_pos rfl
    · next hne =>
      split
      · exact if_pos rfl
      · next hlt =>
        rw [find?, if_neg hne, if_neg hlt]
        exact ih

end Sys2Proof.Map

namespace Sys2Proof.Proofs

open Sys2Proof Machine Laws

/-! ### Compaction (R343) -/

section
variable {id : Nat} {s t : State} {j : KvJob} {q : Seq} (hj : s.kvJobs.find? (fun j => j.id == id && j.cmd.form == 0x28) = some j)
  (hq : s.seq? id = some q)
include hj hq

theorem exec_kvcompactCopyDone_first (hc : j.copied = none) :
    exec (.kvcompactCopyDone id) s = .next (if cmdReady s j.cmd then compactCopies s j q else s) := by
  change execKvcompactCopyDone id s = _
  unfold execKvcompactCopyDone
  rw [hj, hq]
  dsimp only
  rw [hc]

/-- The second step of a compaction, in which its sequence changes state. -/
theorem exec_kvcompactCopyDone_second {bad : Bool} (hc : j.copied = some bad) : exec (.kvcompactCopyDone id) s =
    .next (follow (settleSeq { s with kvJobs := s.kvJobs.filter (fun k => k ≠ j) } id { q with st := if bad then 3 else 5 }) id) := by
  have others : s.kvJobs.filter (fun k => k ≠ j) = s.kvJobs.filter (· != j) :=
    List.filter_congr fun k _ => Bool.eq_iff_iff.mpr (by rw [bne_iff_ne, decide_eq_true_eq])
  change execKvcompactCopyDone id s = _
  unfold execKvcompactCopyDone
  rw [others, hj, hq]
  dsimp only
  rw [hc]

end

section
variable {s t : State} {j : KvJob} {q : Seq} {r : Option (Nat × RowStop)}
  (hm : moveRows j.cmd.region.space (fun d => j.cmd.writer s (.compact d)) s.geom.tb (fun b => b)
    ((List.range 8).flatMap (fun d => compactRows s.geom q j.c d j.path)) s = (t, r))
include hm

/-- The copies of a compaction wait with the first row that a conversion holds. -/
theorem compactCopies_held (hh : ∃ n, r = some (n, .held)) : compactCopies s j q = s := by
  obtain ⟨n, rfl⟩ := hh
  unfold compactCopies
  dsimp only
  rw [hm]

theorem compactCopies_ends (hh : ∀ n, r ≠ some (n, .held)) : compactCopies s j q = finishJob { t with
    kvJobs := t.kvJobs.map (fun k => if k = j then { k with copied := some (stopCause r).isSome } else k) } j .compact
    (stopCause r) := by
  have copied : (fun k => if k = j then { k with copied := some (stopCause r).isSome } else k) =
      fun k => if k == j then { k with copied := some (stopCause r).isSome } else k :=
    funext fun k => if_congr beq_iff_eq.symm rfl rfl
  unfold compactCopies
  rw [copied]
  dsimp only
  rw [hm]
  split
  · next n h => exact absurd (congrArg Prod.snd h) (hh n)
  · next h => cases h; rfl

end

/-! ### Requantisation (R354) -/

/-- The end of a requantisation whose rows have come to `r` in state `u`: by its first fault, or by the switch of its page. -/
def endRequant (u : State) (j : KvJob) (q : Seq) (r : Option (Nat × RowStop)) : State :=
  match stopCause r with
  | some bad => finishJob (unreserve u j.new) j .requant (some bad)
  | none => match switchPage u j q with
    | some v => finishJob v j .requant none
    | none => finishJob (unreserve u j.new) j .requant (some (0, 0x15, BitVec.ofNat 64 j.id))

section
variable {n : Nat} {s t : State} {j : KvJob} {q : Seq} {a b : ElemTy} {r : Option (Nat × RowStop)} (hj : s.kvJobs[n]? = some j)
  (ha : recType (frameOf s j.old).fmt = some a) (hb : recType j.fmt = some b) (hq : s.seq? j.id = some q) (hf : j.cmd.form = 0x29)
  (hd : s.seqBusy j.id = false) (hr : cmdReady s j.cmd = true)
  (hm : moveRows j.cmd.region.space (fun d => j.cmd.writer s (.requant d)) s.geom.tb (requantRow s.geom.tb a b)
    (frameRows s.geom j.old j.new (List.range 16)) s = (t, r)) (hh : ∀ n, r ≠ some (n, .held))
include hj ha hb hq hf hd hr hm hh

/-- Once its rows are converted a requantisation ends by what they have come to. -/
theorem exec_kvrequantSwitch : exec (.kvrequantSwitch n) s = .next (endRequant { t with kvJobs := t.kvJobs.eraseIdx n } j q r) := by
  change execKvrequantSwitch n s = _
  unfold execKvrequantSwitch
  rw [hj]
  dsimp only
  rw [ha, hb, hq]
  dsimp only
  rw [if_neg (by simp [hf, hd, hr]), hm]
  split
  · next m h => exact absurd (congrArg Prod.snd h) (hh m)
  · next h =>
    cases h
    unfold endRequant
    cases stopCause r with
    | some bad => rfl
    | none => cases switchPage { t with kvJobs := t.kvJobs.eraseIdx n } j q <;> rfl

end

/-! ### Followers (R330) -/

section
variable {s : State} {id : Nat} {q : Seq} {m : FollowMsg}

theorem seq?_putSeq (s : State) (id : Nat) (q : Seq) : (putSeq s id q).seq? id = some q := Map.find?_put_self _ _ _

/-- The oldest message that a follower has received is tried first, and the others after it. -/
theorem follow_putSeq {ms : List FollowMsg} (h : q.inbox = m :: ms) : follow (putSeq s id q) id =
    ((followOne (putSeq s id q) id { q with inbox := ms } m).map (followAll id ms)).getD (putSeq s id q) := by
  rw [follow, seq?_putSeq, show ((some q).map (·.inbox)).getD [] = m :: ms from h, followAll, seq?_putSeq]
  dsimp only
  cases followOne (putSeq s id q) id { q with inbox := ms } m <;> rfl

theorem exec_followerApply (hq : s.seq? id = some q) (hf : q.follower = true) : exec (.followerApply id m) s =
    .next (follow (putSeq s id { q with inbox := q.inbox ++ [m] }) id) := by
  change execFollowerApply id m s = _
  unfold execFollowerApply
  rw [hq]
  exact congrArg Host.Outcome.next (if_pos hf)

variable (hq : s.seq? id = some q) (hf : q.follower = true)
include hq hf

/-- A message waits behind an older one that the follower's state does not take. -/
theorem exec_followerApply_waits (hi : q.inbox ≠ []) (h : followOne (putSeq s id { q with inbox := q.inbox ++ [m] }) id
      { q with inbox := q.inbox.drop 1 ++ [m] } (q.inbox.headD m) = none) :
    exec (.followerApply id m) s = .next (putSeq s id { q with inbox := q.inbox ++ [m] }) := by
  obtain ⟨o, os, ho⟩ := List.exists_cons_of_ne_nil hi
  have head : q.inbox.headD m = o := by rw [ho]; rfl
  have tail : q.inbox.drop 1 = os := by rw [ho]; rfl
  rw [head, tail] at h
  rw [exec_followerApply hq hf, follow_putSeq (m := o) (ms := os ++ [m]) (by rw [ho]; rfl), h]
  rfl

/-- A message that finds no other is tried at once. -/
theorem exec_followerApply_empty (hi : q.inbox = []) : exec (.followerApply id m) s =
    .next ((followOne (putSeq s id { q with inbox := [m] }) id q m).getD (putSeq s id { q with inbox := [m] })) := by
  have same : { q with inbox := [] } = q := by rw [← hi]
  rw [exec_followerApply hq hf, hi, List.nil_append, follow_putSeq (m := m) (ms := []) rfl]
  show Host.Outcome.next (((followOne _ id { q with inbox := [] } m).map (followAll id [])).getD _) = _
  rw [same]
  cases followOne (putSeq s id { q with inbox := [m] }) id q m <;> rfl

end

section
variable {s : State} {id : Nat} {q : Seq}

/-- An acceptance takes the place of SQACC where the home can have accepted. -/
theorem followOne_accept {w : Word} {path : List Nat} {corr : BitVec 24} {ctr : BitVec 128}
    (h : q.st = 1 ∨ q.st = 2 ∨ q.st = 3 ∨ q.st = 5) :
    followOne s id q (.accept w path corr ctr) = some (settleSeq s id { q with
      st := 3
      acc := some { path := path, correction := corr, result := w, table := 0 }
      lastAcc := w
      work := ctr }) := by
  refine if_pos ?_
  rcases h with h | h | h | h <;>
  · rw [h]
    rfl

theorem followOne_accept_refused {w : Word} {path : List Nat} {corr : BitVec 24} {ctr : BitVec 128} (h1 : q.st ≠ 1) (h2 : q.st ≠ 2)
    (h3 : q.st ≠ 3) (h5 : q.st ≠ 5) : followOne s id q (.accept w path corr ctr) = none :=
  if_neg (by simp [h1, h2, h3, h5])

/-- A commit is applied to a sequence that is compacted. -/
theorem followOne_commit {n : Nat} {stopped : Bool} {a : Accept} (h : q.st = 5) (ha : q.acc = some a) :
    followOne s id q (.commit n stopped) = some (followCommit s id
      { committed q a.path.length (some a.correction) stopped true with delivered := (q.delivered + n) % 2 ^ 64 }) := by
  rw [followOne, ha]
  exact if_neg (not_not.mpr h)

theorem followOne_commit_refused {n : Nat} {stopped : Bool} (h : q.st ≠ 5) : followOne s id q (.commit n stopped) = none := by
  rw [followOne]
  split
  · exact if_pos h
  · rfl

/-- A direct commit is applied to an idle sequence. -/
theorem followOne_commitDirect {n : Nat} {tok : Option (BitVec 24)} {stopped : Bool} (h : q.st = 1) :
    followOne s id q (.commitDirect n tok stopped) = some (settleSeq s id { committed q n tok stopped false with
      delivered := (q.delivered + if tok.isSome then 1 else 0) % 2 ^ 64 }) := if_neg (not_not.mpr h)

theorem followOne_commitDirect_refused {n : Nat} {tok : Option (BitVec 24)} {stopped : Bool} (h : q.st ≠ 1) :
    followOne s id q (.commitDirect n tok stopped) = none := if_pos h

end

/-! ### Deliveries (R346) -/

section
variable {id : Nat} {s : State} {q : Seq} {d : Delivery} {rest : List Delivery} (hd : takeDelivery s.deliveries id = some (d, rest))
  (hq : s.seq? id = some q)
include hd hq

theorem exec_rdmaAcknowledgement : exec (.rdmaAcknowledgement id) s =
    .next (endDelivery { s with deliveries := rest } d q d.msg d.result) := by
  change execRdmaAcknowledgement id s = _
  unfold execRdmaAcknowledgement
  rw [hd, hq]

theorem exec_deliveryFailure : exec (.deliveryFailure id) s = .next (endDelivery
    (settleSeq (faultRecord { s with deliveries := rest } q.region 4 0x19 0 0 q.hostCtr) id { q with st := 7 }) d q
    (failedMsg (bitsAt d.result.toNat 32 16) d.msg) (d.result ||| BitVec.ofNat 64 (2 ^ 48))) := by
  change execDeliveryFailure id s = _
  unfold execDeliveryFailure
  rw [hd, hq]

end

/-! ### Collective commands (R421) -/

theorem filter_ne_key {α β : Type} [DecidableEq α] (m : List (α × β)) (k : α) :
    m.filter (fun i => i.1 ≠ k) = m.filter (fun i => i.1 != k) :=
  List.filter_congr fun i _ => Bool.eq_iff_iff.mpr (by rw [bne_iff_ne, decide_eq_true_eq])

section
variable {d me : Nat} {s : State} {c : Cmd} {l : List Nat} (hc : (s.die d).collective.cur = some c)
  (hl : collLine s d c = some (me, l)) (hf : field c.cmdRec 0 1 ≠ 0) (hr : cmdReady s c = true)
include hc hl hf hr

/-- An operation is announced to the line of its die. -/
theorem exec_ecollMatch_announces (hp : (s.die d).collPhase = 0) : exec (.ecollMatch d) s = .next (tellLine
    (s.updDie d (fun x => { x with
      collPhase := 1
      collInputs := x.collInputs.filter (fun i => i.1 ≠ c.recVa)
      collBad := x.collBad.filter (fun i => i.1 ≠ c.recVa) })) d c l kCollArrived 0 []
    (fun x => { x with collArrived := x.collArrived ++ [(c.recVa, me)] })) := by
  change execEcollMatch d s = _
  unfold execEcollMatch
  simp only [filter_ne_key]
  rw [hc]
  dsimp only
  rw [hl]
  dsimp only
  rw [if_neg (by simp [hf, hr]), hp]
  rfl

/-- Once the whole line has announced its record, a member gives its input. -/
theorem exec_ecollMatch_gives (hp : (s.die d).collPhase = 1) (ha : ∀ r ∈ l, (c.recVa, r) ∈ (s.die d).collArrived) :
    exec (.ecollMatch d) s = .next (giveInput (s.updDie d (fun x =>
      { x with collPhase := 2, collArrived := takeArrivals c.recVa l x.collArrived })) d c me l) := by
  change execEcollMatch d s = _
  unfold execEcollMatch
  rw [hc]
  dsimp only
  rw [hl]
  dsimp only
  rw [if_neg (by simp [hf, hr]), hp]
  exact if_pos (List.all_eq_true.mpr fun r hr => List.contains_iff_mem.mpr (ha r hr))

end

/-- Settles O57: each step by the lemma about it. -/
theorem engineEvents : Obligations.EngineEvents := by
  unfold Obligations.EngineEvents
  refine ⟨fun e s => rfl, ?rows, ?spans, ?ends, fun n s => ⟨rfl, rfl, rfl, rfl⟩, ?loads, ?flip, ?management, ?eplane, ?compact,
    ?requant, ?follower, ?delivery, ?collective⟩
  case rows =>
    intro c v w i s bs len src dst puts moves
    refine ⟨fun h l u hr hh u' hw => ?copy, fun hf l t hidx => ⟨execRow_skips hidx hf, fun hl h m u hr hh u' hw => ?gather,
      fun hl h m u hr hh u' hw => ?scatter⟩, fun h ty ht hh u' hw => ?fill, fun h a b l t ha hb hr hh u' hw => ?convert⟩
    case copy => exact (execRow_copy h).trans (copyRow_ok hr hh hw)
    case gather => exact (execRow_gather hidx h hl).trans (copyRow_ok hr hh hw)
    case scatter => exact (execRow_scatter hidx h hl).trans (copyRow_ok hr hh hw)
    case fill =>
      rw [← fillBytes_eq ht] at hh hw
      exact (execRow_fill h).trans (rowWrite_ok hh hw)
    case convert => exact (execRow_convert h ha hb hr).trans (rowWrite_ok hh hw)
  case spans =>
    intro s w ps bs hp
    exact ⟨fun hm => byteAt_writeSpans hp hm w bs, readSpans_eq_bytes hp⟩
  case ends =>
    intro e s he
    rw [exec_engineCommandComplete_cluster he]
    refine ⟨fun h => congrArg _ (runCopyEngine_idle h), fun c hc => ⟨fun hr => congrArg _ (runCopyEngine_notReady hc hr),
      fun hr m rows h0 hrows => ⟨fun hm u hu => ?completes, fun hm => ⟨fun h => ?held, fun cause a u h hu => ?fault⟩⟩⟩⟩
    case completes => exact congrArg _ (runCopyEngine_completes hc hr h0 hrows hm hu)
    case held => exact congrArg _ (runCopyEngine_held hc hr h0 hrows hm h)
    case fault => exact congrArg _ (runCopyEngine_fault hc hr h0 hrows hm h hu)
  case loads =>
    intro d c s t u bs r hcur hq hr hl hread ks loaded hp
    refine ⟨fun p hi hu => ?image, fun hi hu => ?broken⟩
    all_goals rw [exec_configLoaderLoad hcur hq hr hl]
    case image => rw [loadPlane_image hread hp hi, show finishCmd (setShadows t _ p) _ c none none = (u, r) from hu]
    case broken => rw [loadPlane_broken hread hp hi, show finishCmd (setShadows t _ {}) _ c _ none = (u, r) from hu]
  case flip =>
    intro k s hw hd hl
    exact ⟨exec_planeFlip hw hd hl, exec_planeFlip_empty hw hd hl⟩
  case management =>
    intro k s hv hp hn he hl hs
    exact exec_managementFlip hv hp hn he hl hs
  case eplane =>
    intro die rec_ ctr amount pa s t u bs h3 hd h64 h0 hlt hread hk ha hb hc
    exact exec_managementEplane h3 hd h64 h0 hlt hread hk ha hb hc
  case compact =>
    intro id s j q hj hq
    refine ⟨fun hc hr => ?notReady, fun t r hc hr hm => ⟨fun hh => ?held, fun hh => ?copied⟩,
      fun bad hc => exec_kvcompactCopyDone_second hj hq hc⟩
    all_goals rw [exec_kvcompactCopyDone_first hj hq hc, hr]
    case notReady => rfl
    case held => exact congrArg _ (compactCopies_held hm hh)
    case copied => exact congrArg _ (compactCopies_ends hm hh)
  case requant =>
    intro n s t j q a b r hj ha hb hq hf hd hr hm hh u hu
    subst hu
    rw [exec_kvrequantSwitch hj ha hb hq hf hd hr hm hh, endRequant]
    refine ⟨fun bad h => ?fault, fun v h hs => ?switched, fun h hs => ?full⟩
    case fault => rw [h]
    case switched => rw [h, hs]
    case full => rw [h, hs]
  case follower =>
    intro id s q m hq hf
    refine ⟨exec_followerApply_waits hq hf, fun hi => ?_⟩
    rw [exec_followerApply_empty hq hf hi]
    refine ⟨?accept, ?commit, ?direct⟩
    case accept =>
      rintro w path corr ctr rfl
      exact ⟨fun h => by rw [followOne_accept h]; rfl, fun h1 h2 h3 h5 => by rw [followOne_accept_refused h1 h2 h3 h5]; rfl⟩
    case commit =>
      rintro n stopped rfl
      exact ⟨fun a h ha => by rw [followOne_commit h ha]; rfl, fun h => by rw [followOne_commit_refused h]; rfl⟩
    case direct =>
      rintro n tok stopped rfl
      exact ⟨fun h => by rw [followOne_commitDirect h]; rfl, fun h => by rw [followOne_commitDirect_refused h]; rfl⟩
  case delivery =>
    intro id s q d rest hd hq
    exact ⟨exec_rdmaAcknowledgement hd hq, exec_deliveryFailure hd hq⟩
  case collective =>
    intro d me s c l hc hl hf hr
    exact ⟨exec_ecollMatch_announces hc hl hf hr, exec_ecollMatch_gives hc hl hf hr⟩

end Sys2Proof.Proofs

/-! SUPPORT. The steps of management, of the vaults and memories, of spare cores and of the observers (R103, R217, R274, R280, R281, R285,
R289, R292 to R294, R298, R299, R331, R371, R374 to R380, R407, R448): the step of each event where its condition holds. -/

namespace Sys2Proof.Proofs

open Sys2Proof Machine

/-! ### The division of a vault (R280, R281) -/

theorem exec_vaultConfigWrite {s : State} {cl : Nat} {v : Word} (hcl : cl < 64) (hn : bitsAt v.toNat 0 4 ≤ 8)
    (hb : (s.cluster cl).busy = false) (hs : (s.cluster cl).slice ≠ bitsAt v.toNat 0 4) :
    exec (.vaultConfigWrite cl v) s = .next { s.updCluster cl (fun x => { x with busy := true, target := bitsAt v.toNat 0 4 }) with
      agenda := .divisionChangeComplete cl :: s.agenda } := by
  change execVaultConfigWrite cl v s = _
  exact if_neg (by simp [hcl, hn, hb, hs])

/-- The lines that a slice writes back keep their retained marks until the marks are dropped. -/
theorem flushSlice_retained (s : State) (cl : Nat) : (s.flushSlice cl).retained = s.retained := by
  unfold State.flushSlice
  exact List.foldlRecOn (motive := fun (t : State) => t.retained = s.retained) _ _ rfl fun t h _ _ => h

theorem exec_divisionChangeComplete {s : State} {cl : Nat} (hb : (s.cluster cl).busy = true) :
    let x := s.cluster cl
    let t := s.flushSlice cl
    let u := if x.slice = 0 then s else { t with retained := t.retained.filter (fun l => decide (sliceOf l ≠ some cl)) }
    exec (.divisionChangeComplete cl) s = .next ((loseRange u (vaultPa cl (min (8 - x.slice) (8 - x.target) * 2 ^ 24))
      (vaultPa cl (max (8 - x.slice) (8 - x.target) * 2 ^ 24))).updCluster cl
      (fun x => { x with slice := x.target, busy := false })) := by
  dsimp only
  rw [flushSlice_retained]
  change execDivisionChangeComplete cl s = _
  exact if_neg (by simp [hb])

/-! ### Reserves and offers (R285, R292) -/

section
variable {s : State} {k : Nat} {v : Word} (hk : coreValid k = true) (hn : bitsAt v.toNat 0 4 ≤ 8)
include hk hn

theorem exec_reserveRegisterWrite : exec (.reserveRegisterWrite k v) s = .next
    (match if bitsAt v.toNat 0 4 < (s.core k).reserve then moveImages s k true else some s with
      | some t => t.updCore k (fun x => { x with reserve := bitsAt v.toNat 0 4 })
      | none => s) := by
  change execReserveRegisterWrite k v s = _
  exact if_neg (by simp [hk, hn])

theorem exec_reserveRegisterWrite_kept (h : (s.core k).reserve ≤ bitsAt v.toNat 0 4) :
    exec (.reserveRegisterWrite k v) s = .next (s.updCore k (fun x => { x with reserve := bitsAt v.toNat 0 4 })) := by
  rw [exec_reserveRegisterWrite hk hn, if_neg h.not_gt]

/-- A reserve shrinks once the images that stand in it have moved. -/
theorem exec_reserveRegisterWrite_lowered {t : State} (h : bitsAt v.toNat 0 4 < (s.core k).reserve)
    (ht : moveImages s k true = some t) :
    exec (.reserveRegisterWrite k v) s = .next (t.updCore k (fun x => { x with reserve := bitsAt v.toNat 0 4 })) := by
  rw [exec_reserveRegisterWrite hk hn, if_pos h, ht]

end

theorem exec_spillOfferWithdrawal {s t : State} {k : Nat} (ho : offerNeeded s k = true) (ht : moveImages s k false = some t) :
    exec (.spillOfferWithdrawal k false) s = .next t := by
  change execSpillOfferWithdrawal k false s = _
  unfold execSpillOfferWithdrawal
  rw [ho, ht]
  rfl

/-! ### The spare core (R293, R294) -/

/-- A threshold of 0 is none. -/
theorem overThreshold_iff {s : State} {kind n : Nat} :
    overThreshold s kind n = true ↔ Map.get 0 s.thresholds kind ≠ 0 ∧ (Map.get 0 s.thresholds kind).toNat < n := by
  unfold overThreshold
  rw [Bool.and_eq_true, bne_iff_ne, decide_eq_true_eq, ne_eq, ne_eq, BitVec.toNat_eq]
  rfl

theorem repairDue_iff {s : State} {k : Nat} : repairDue s k = true ↔ coreValid k = true ∧ (s.core k).present = true ∧
    ((s.core k).suspect = true ∨ (s.core k).replace = true ∨
      (Map.get 0 s.thresholds 0 ≠ 0 ∧ (Map.get 0 s.thresholds 0).toNat < Map.get 0 s.corrected k)) := by
  unfold repairDue
  simp only [Bool.and_eq_true, Bool.or_eq_true, overThreshold_iff, and_assoc, or_assoc]

section
variable {s : State} {k : Nat} (hr : repairDue s k = true)
include hr

section
variable (hsp : (s.cluster (k / 16)).spare = true)
include hsp

theorem exec_spareSubstitution_waits (h : repairReset s k false = none) :
    exec (.spareSubstitution k) s = .next (s.updCore k (fun x => { x with stopping := true })) := by
  change execSpareSubstitution k s = _
  unfold execSpareSubstitution
  rw [if_neg (by simp [hr, hsp]), h]

theorem exec_spareSubstitution {t : State} (h : repairReset s k false = some t) : exec (.spareSubstitution k) s = .next {
    (t.updCore k (fun x => { x with suspect := false, replace := false })).updCluster (k / 16) (fun cl => { cl with spare := false }) with
      corrected := Map.erase t.corrected k } := by
  change execSpareSubstitution k s = _
  unfold execSpareSubstitution
  rw [if_neg (by simp [hr, hsp]), h]
  rfl

end

variable (hsp : (s.cluster (k / 16)).spare = false)
include hsp

theorem exec_coreDisable_waits (h : repairReset s k true = none) :
    exec (.coreDisable k) s = .next (s.updCore k (fun x => { x with stopping := true })) := by
  change execCoreDisable k s = _
  unfold execCoreDisable
  rw [if_neg (by simp [hr, hsp]), h]

/-- The messages on their way to a disabled core are received and reported as lost. -/
theorem exec_coreDisable {t u : State} {lost : List Msg} (h : repairReset s k true = some t) (hl : lost = (t.core k).transit)
    (hu : u = lost.foldl (fun s m => countReceived s k (coreOf m.sender) m.region.space.asid) t) :
    exec (.coreDisable k) s = .next ((reportStarts u.free64.2 (u.free64.1.setWidth 8) lost).updCore k (fun x =>
      { x with present := false, suspect := false, replace := false, transit := [], inboxUsed := [] })) := by
  subst hl hu
  change execCoreDisable k s = _
  unfold execCoreDisable
  rw [if_neg (by simp [hr, hsp]), h]

end

/-! ### The patrol and the repair of HBM4E (R298, R299) -/

/-- The state after a corrected error of stack `d` in the row of an address. -/
def countCorrected (s : State) (pa d : Nat) : State :=
  { s with
    corrected := Map.upd 0 s.corrected (2048 + d) (· + 1)
    rowErrors := Map.upd 0 s.rowErrors (Config.rowOf pa) (· + 1) }

section
variable {pa d o : Nat} {s : State} (hl : locOf pa = .hbm d o) (ho : o < 60 * 2 ^ 30)
include hl ho

theorem rowDue_iff : rowDue s pa = true ↔ Map.get 0 s.thresholds 1 ≠ 0 ∧
    (Map.get 0 s.thresholds 1).toNat < Map.get 0 s.rowErrors (Config.rowOf pa) := by
  unfold rowDue
  rw [hl]
  dsimp only
  rw [decide_eq_true ho, Bool.true_and, overThreshold_iff]

section
variable {z : State} (hup : stage3Done z = true)
include hup

/-- What a patrol's read of a populated granule does, once the patrol has gone on. -/
theorem exec_patrolScrub (b : Bool) : exec (.patrolScrub pa b) z = .next (
    if ((scrubbed z pa).badAt pa 1).isSome then countEvent (scrubbed z pa) .scrubbedBad
    else if b then
      let t := countCorrected (scrubbed z pa) pa d
      if rowDue t pa then { t with agenda := .postPackageRepair pa :: t.agenda } else t
    else scrubbed z pa) := by
  change execPatrolScrub pa b z = _
  unfold execPatrolScrub
  rw [if_neg (by simp [hup]), hl]
  dsimp only
  rw [if_neg ho.not_ge]
  cases b <;> exact (apply_ite Host.Outcome.next _ _ _).symm

theorem exec_patrolScrub_bad (b : Bool) {c : BitVec 8} (h : (scrubbed z pa).badAt pa 1 = some c) :
    exec (.patrolScrub pa b) z = .next (countEvent (scrubbed z pa) .scrubbedBad) := by
  rw [exec_patrolScrub hl ho hup, h]
  rfl

variable (hg : (scrubbed z pa).badAt pa 1 = none)
include hg

theorem exec_patrolScrub_clean : exec (.patrolScrub pa false) z = .next (scrubbed z pa) := by
  rw [exec_patrolScrub hl ho hup, hg]
  rfl

theorem exec_patrolScrub_due (h : rowDue (countCorrected (scrubbed z pa) pa d) pa = true) :
    exec (.patrolScrub pa true) z = .next { countCorrected (scrubbed z pa) pa d with
      agenda := .postPackageRepair pa :: (countCorrected (scrubbed z pa) pa d).agenda } := by
  rw [exec_patrolScrub hl ho hup, hg]
  exact congrArg _ (if_pos h)

theorem exec_patrolScrub_notDue (h : ¬ rowDue (countCorrected (scrubbed z pa) pa d) pa = true) :
    exec (.patrolScrub pa true) z = .next (countCorrected (scrubbed z pa) pa d) := by
  rw [exec_patrolScrub hl ho hup, hg]
  exact congrArg _ (if_neg h)

end

end

section
variable {pa : Nat} {s : State}

theorem exec_postPackageRepair_due (h : rowDue s pa = true) : exec (.postPackageRepair pa) s = .next { s with
    repaired := if Config.rowOf pa ∈ s.repaired then s.repaired else s.repaired ++ [Config.rowOf pa]
    rowErrors := Map.erase s.rowErrors (Config.rowOf pa) } := by
  rw [← if_congr (List.contains_iff_mem (as := s.repaired)) rfl rfl]
  exact congrArg Host.Outcome.next (if_pos h)

theorem exec_postPackageRepair_notDue (h : ¬ rowDue s pa = true) : exec (.postPackageRepair pa) s = .next s :=
  congrArg Host.Outcome.next (if_neg h)

end

theorem exec_spareChannelMigration {s : State} {d ch : Nat} (hd : d < 8) (hc : ch < 32) (hn : ∀ p ∈ s.spareChannels, p.1 ≠ d) :
    exec (.spareChannelMigration d ch) s = .next { s with spareChannels := s.spareChannels ++ [(d, ch)] } := by
  have unused : s.spareChannels.any (fun p => p.1 == d) = false := List.any_eq_false.mpr fun p hp => by simpa using hn p hp
  change execSpareChannelMigration d ch s = _
  exact if_neg (by rw [unused]; simp [hd, hc])

/-! ### The shutter and the densitometers (R377 to R379) -/

theorem exec_shutterFire_context {src : ShutSource} (s : State) (tag c : BitVec 16) (h : src = .snap ∨ src = .watch) :
    exec (.shutterFire src tag c) s = .next (fireShutter s src tag (some c)) := by
  obtain rfl | rfl := h <;> rfl

theorem exec_shutterFire_block {src : ShutSource} (s : State) (tag c : BitVec 16) (hs : src ≠ .snap) (hw : src ≠ .watch) :
    exec (.shutterFire src tag c) s = .next (fireShutter s src tag none) := by
  cases src with
  | snap => exact absurd rfl hs
  | watch => exact absurd rfl hw
  | cause => rfl
  | densitometer => rfl
  | management => rfl

section
variable {s : State} (hg : s.shutter.gathering = true)
include hg

theorem exec_contactSheetGatherEnd_written {t : State} (hup : stage3Done s = true)
    (h : writeVia s (packageView s.mgmtSpace) s.pkgWriter s.shutter.area.toNat (contactSheet s.shutter) = .ok t) :
    exec .contactSheetGatherEnd s = .next { t with shutter := { causes := t.shutter.causes, area := t.shutter.area } } := by
  change execContactSheetGatherEnd s = _
  unfold execContactSheetGatherEnd
  rw [if_neg (by simp [hg]), if_neg (by simp [hup]), h]

/-- A sheet that finds no memory is lost, and the shutter re-arms all the same. -/
theorem exec_contactSheetGatherEnd_lost {e : BitVec 8 × Word} (h : stage3Done s = false ∨
      writeVia s (packageView s.mgmtSpace) s.pkgWriter s.shutter.area.toNat (contactSheet s.shutter) = .error e) :
    exec .contactSheetGatherEnd s = .next { s with shutter := { causes := s.shutter.causes, area := s.shutter.area } } := by
  change execContactSheetGatherEnd s = _
  unfold execContactSheetGatherEnd
  rw [if_neg (by simp [hg])]
  cases hup : stage3Done s with
  | false => rfl
  | true => rw [h.resolve_left (by simp [hup])]; rfl

end

theorem exec_densitometerSample {s : State} {n v : Nat} {d : Dens} (hd : d = Map.get {} s.dens n) (he : d.cfg.getLsbD 0 = true) :
    let t := { s with dens := Map.set {} s.dens n (d.sampled v) }
    exec (.densitometerSample n v) s = .next (
      if d.cfg.getLsbD 3 = true ∧ bitsAt d.cfg.toNat 4 4 ≤ bucketOf (v / 2 ^ bitsAt d.cfg.toNat 8 4)
      then fireShutter t .densitometer 0 none else t) := by
  subst hd
  change Host.Outcome.next (sampleDens s n v) = _
  unfold sampleDens
  dsimp only
  rw [if_neg (by rw [he]; exact Bool.false_ne_true)]
  exact congrArg _ (if_congr (by rw [Bool.and_eq_true, decide_eq_true_eq]) rfl rfl)

/-! ### Boot, attestation and the clock (R375, R376, R380) -/

/-- The keys of the links do not enter a stage of the boot. -/
theorem installKeys_bootStage (s : State) : (installKeys s).bootStage = s.bootStage := by
  unfold installKeys
  exact List.foldlRecOn (motive := fun (t : State) => t.bootStage = s.bootStage) _ _ rfl fun t h _ _ => h

theorem exec_boot_booted {s : State} (ok : Bool) (code : Nat) (h : 4 ≤ s.bootStage) : exec (.boot ok code) s = .next s := by
  change execBoot ok code s = _
  exact if_pos (by simp [h])

section
variable {s : State} (hf : s.bootFail = none)
include hf

theorem exec_boot_fails (code : Nat) (h : s.bootStage ≤ 2) :
    exec (.boot false code) s = .next { s with bootStage := 1, bootFail := some code } := by
  change execBoot false code s = _
  unfold execBoot
  rw [if_neg (by simp [hf]; omega)]
  exact if_pos (by simp [h])

/-- Stage 3 does not verify; a stage before it is entered when its check holds. -/
theorem exec_boot_next {ok : Bool} (code : Nat) (h : s.bootStage < 4) (hok : ok = true ∨ s.bootStage = 3) :
    exec (.boot ok code) s =
      .next { (if s.bootStage = 3 then installKeys s else s) with bootStage := s.bootStage + 1 } := by
  have enters : ¬ (!ok && decide (s.bootStage ≤ 2)) = true := by obtain rfl | h3 := hok <;> simp [*]
  have keeps : (if s.bootStage = 3 then installKeys s else s).bootStage = s.bootStage := by
    split
    · exact installKeys_bootStage s
    · rfl
  change execBoot ok code s = _
  unfold execBoot
  rw [if_neg (by simp [hf, h]), if_neg enters]
  dsimp only
  rw [keeps]

theorem exec_boot_verified (code : Nat) (h : s.bootStage < 3) :
    exec (.boot true code) s = .next { s with bootStage := s.bootStage + 1 } := by
  rw [exec_boot_next hf code (by omega) (.inl rfl), if_neg h.ne]

theorem exec_boot_up (ok : Bool) (code : Nat) (h : s.bootStage = 3) :
    exec (.boot ok code) s = .next { installKeys s with bootStage := 4 } := by
  rw [exec_boot_next hf code (by omega) (.inr h), if_pos h, h]

end

theorem exec_attestationRequest {nonce : List Byte} (s : State) (hn : nonce.length = 32) : exec (.attestationRequest nonce) s =
    .next { s with reports := s.reports ++ [reportBody nonce ++ fixLen 64 (Config.sign (reportBody nonce))] } := by
  change execAttestationRequest nonce s = _
  exact if_neg (not_not.mpr hn)

section
variable {s : State} {mhz : Nat}

theorem exec_clockThrottle_lowers (ha : Config.overLimit s.powerLimit s.clock s.mhz = true) (hm : mhz + 100 = s.mhz) (hl : 100 ≤ mhz) :
    exec (.clockThrottle mhz) s = .next { s with mhz := mhz } := by
  change execClockThrottle mhz s = _
  exact congrArg Host.Outcome.next (if_pos (by simp [ha, hm, hl]))

theorem exec_clockThrottle_stays (ha : Config.overLimit s.powerLimit s.clock s.mhz = true) (hm : mhz + 100 ≠ s.mhz) :
    exec (.clockThrottle mhz) s = .next s := by
  change execClockThrottle mhz s = _
  unfold execClockThrottle
  dsimp only
  rw [if_neg (by simp [hm]), if_neg (by simp [ha])]

/-- A step of the clock changes the clock alone. -/
theorem exec_clockThrottle_cases (s : State) (mhz : Nat) :
    ∃ t, exec (.clockThrottle mhz) s = .next t ∧ (t = s ∨ t = { s with mhz := mhz }) := by
  refine ⟨_, rfl, ?_⟩
  split
  · exact .inr rfl
  split
  · exact .inr rfl
  · exact .inl rfl

end

/-! ### Errors that arise (R103, R217, R277, R292, R448) -/

/-- A register of a live context takes an error once. -/
theorem exec_uncorrectableError_register (z : State) (c f i : Nat) : exec (.uncorrectableError (.register c f i)) z =
    .next ((countEvent z .errorArisen).updCtx c (fun x =>
      if x.run = .dormant ∨ (f, i) ∈ x.badRegs then x else { x with badRegs := x.badRegs ++ [(f, i)] })) := by
  refine congrArg (fun g => Host.Outcome.next ((countEvent z .errorArisen).updCtx c g)) (funext fun x => if_congr ?_ rfl rfl)
  rw [Bool.or_eq_true, beq_iff_eq, List.contains_iff_mem]

/-- A holding head's latch takes an error. -/
theorem exec_uncorrectableError_headLatch (z : State) (c q : Nat) : exec (.uncorrectableError (.headLatch c q)) z =
    .next ((countEvent z .errorArisen).updCtx c (fun x => { x with
      heads := Map.upd {} x.heads q (fun h => if h.cond = .holding then { h with latchErr := true } else h) })) :=
  congrArg (fun g => Host.Outcome.next ((countEvent z .errorArisen).updCtx c
    (fun x => { x with heads := Map.upd {} x.heads q g }))) (funext fun _ => if_congr beq_iff_eq rfl rfl)

/-- An element of a live tile takes an error once. -/
theorem exec_uncorrectableError_tile (z : State) (k n r c : Nat) : exec (.uncorrectableError (.tile k n r c)) z =
    .next ((countEvent z .errorArisen).updCore k (fun x => { x with tiles := Map.upd {} x.tiles n (fun t =>
      if t.live = true ∧ (r, c) ∉ t.bad then { t with bad := t.bad ++ [(r, c)] } else t) })) := by
  refine congrArg (fun g => Host.Outcome.next ((countEvent z .errorArisen).updCore k
    (fun x => { x with tiles := Map.upd {} x.tiles n g }))) (funext fun t => if_congr ?_ rfl rfl)
  rw [Bool.and_eq_true, Bool.not_eq_true', ← Bool.not_eq_true, List.contains_iff_mem]

/-- An image takes an error where it stands in an offer. -/
theorem exec_uncorrectableError_image (z : State) (id : Nat) : exec (.uncorrectableError (.image id)) z =
    .next { countEvent z .errorArisen with saved := (countEvent z .errorArisen).saved.map (fun v =>
      match v.place with
      | .offer _ _ _ => if v.id = id then { v with imageBad := true } else v
      | .memory _ _ _ => v) } := by
  refine congrArg (fun g => Host.Outcome.next { countEvent z .errorArisen with
    saved := (countEvent z .errorArisen).saved.map g }) (funext fun v => ?_)
  cases v.place with
  | offer core reserve bytes => exact if_congr beq_iff_eq rfl rfl
  | memory va len vault => rfl

/-! ### Registers that management writes (R331, R374, R407) -/

section
variable {s : State} {v : List Word}

theorem exec_registerWrite_mesh {die : Nat} {m : Mesh} (hm : meshOf (wordsBytes v) = some m) :
    exec (.registerWrite (.mesh die) v) s = .next { s.updDie die (fun d => { d with mesh := m }) with
      agenda := (newlyFailed (s.die die).mesh m).map (fun f => .markMemberFailed f.1 f.2) ++ s.agenda } := by
  change execRegisterWrite (.mesh die) v s = _
  unfold execRegisterWrite
  dsimp only
  rw [hm]

/-- An ageing increment is 4 to 16; another value is not taken. -/
theorem exec_registerWrite_ageing (s : State) (w : Word) (l : List Word) (k : Nat) :
    exec (.registerWrite (.ageing k) (w :: l)) s = .next (if 4 ≤ (w &&& 0x1F).toNat ∧ (w &&& 0x1F).toNat ≤ 16
      then s.updCore k (fun x => { x with ageing := w &&& 0x1F }) else s) :=
  congrArg Host.Outcome.next (if_congr (by rw [List.headD_cons, Bool.and_eq_true, decide_eq_true_eq, decide_eq_true_eq]) rfl rfl)

/-- The geometry changes, and every frame is free, when no sequence lives. -/
theorem exec_registerWrite_kvGeometry {g : KvGeom} (hg : geomOf v = some g) (hs : s.seqs = []) :
    exec (.registerWrite .kvGeometry v) s = .next
      { s with geom := g, frames := [], free := Map.set [] [] 10 (freeBlocks (g.frames / 1024)) } := by
  change execRegisterWrite .kvGeometry v s = _
  unfold execRegisterWrite
  dsimp only
  rw [hg]
  exact congrArg _ (if_pos (by rw [hs]; rfl))

end

/-- Settles O60: each step by the lemma about it. -/
theorem managementEvents : Obligations.ManagementEvents := by
  unfold Obligations.ManagementEvents
  refine ⟨fun s => rfl, fun cl v s => exec_vaultConfigWrite, fun cl s => exec_divisionChangeComplete,
    fun k v s hk hn => ⟨exec_reserveRegisterWrite_kept hk hn, fun t => exec_reserveRegisterWrite_lowered hk hn⟩,
    fun k s t => exec_spillOfferWithdrawal, fun k s => repairDue_iff,
    fun k s hr hsp => ⟨exec_spareSubstitution_waits hr hsp, fun t => exec_spareSubstitution hr hsp⟩,
    fun k s hr hsp => ⟨exec_coreDisable_waits hr hsp, fun t u lost => exec_coreDisable hr hsp⟩, ?patrol,
    fun d ch s => exec_spareChannelMigration,
    fun src tag c s => ⟨exec_shutterFire_context s tag c, exec_shutterFire_block s tag c⟩,
    fun s hg => ⟨fun t => exec_contactSheetGatherEnd_written hg, fun e => exec_contactSheetGatherEnd_lost hg⟩,
    fun n v s d => exec_densitometerSample, fun n s => rfl,
    fun s hf => ⟨exec_boot_booted, exec_boot_verified hf, exec_boot_up hf, exec_boot_fails hf⟩,
    fun nonce s => exec_attestationRequest s,
    fun mhz s => ⟨exec_clockThrottle_lowers, exec_clockThrottle_stays, exec_clockThrottle_cases s mhz⟩, ?errors, ?registers⟩
  case patrol =>
    intro pa d o z s hl ho hup hs
    change s = scrubbed z pa at hs
    subst hs
    exact ⟨fun b c => exec_patrolScrub_bad hl ho hup b,
      fun hg => ⟨exec_patrolScrub_clean hl ho hup hg,
        fun due => exec_patrolScrub_due hl ho hup hg ((rowDue_iff hl ho).mpr due),
        fun due => exec_patrolScrub_notDue hl ho hup hg (mt (rowDue_iff hl ho).mp due)⟩,
      fun due => exec_postPackageRepair_due ((rowDue_iff hl ho).mpr due),
      fun due => exec_postPackageRepair_notDue (mt (rowDue_iff hl ho).mp due)⟩
  case errors =>
    rintro z s rfl
    refine ⟨fun pa cause => rfl, exec_uncorrectableError_register z, exec_uncorrectableError_headLatch z, fun c n => rfl,
      exec_uncorrectableError_tile z, fun pa cause => rfl, exec_uncorrectableError_image z, ?corrected⟩
    rintro k t rfl
    rfl
  case registers =>
    intro s w l
    exact ⟨fun die => rfl, exec_registerWrite_ageing s w l, fun die m => exec_registerWrite_mesh, fun g => exec_registerWrite_kvGeometry,
      fun cl => rfl, fun k => rfl, fun k hk => congrArg _ (if_pos hk), fun i hi => congrArg _ (if_pos hi), fun e => rfl,
      fun i hi => congrArg _ (if_pos hi)⟩

end Sys2Proof.Proofs

/-! SUPPORT. The steps of the links, the combiner entries, the members of a placement and the requests of the host (R317, R373, R385,
R386, R388 to R391, R393, R401, R404, R406, R414 to R417, R422): the step of each event where its condition holds. -/

namespace Sys2Proof.Proofs

open Sys2Proof Machine

/-! ### Links (R386, R388, R389, R391) -/

section
variable {d : Nat} {g : FlitGroup} {s : State} (hup : (bundleOf s d g.srcPkg).rxUp = true) (hk : (bundleOf s d g.srcPkg).rxKey ≠ 0)
  (hp : g.srcPkg ∈ s.packages) (hs : g.srcPkg ≠ s.pkg)

/-- A group that was received before, or that skips a number. -/
theorem exec_linkGroupReceive_otherNumber (hn : g.num ≠ (bundleOf s d g.srcPkg).rxNext) :
    exec (.linkGroupReceive d g) s = .next s := by
  change execLinkGroupReceive d g s = _
  exact if_pos (by simp [hn])

include hup hk hp hs

section
variable (hn : g.num = (bundleOf s d g.srcPkg).rxNext)
include hn

/-- A group of an incoming bundle that is up, has a key and expects the group's number is judged by its tag. -/
theorem exec_linkGroupReceive : exec (.linkGroupReceive d g) s =
    if g.tagOk then
      let t := updBundle s d g.srcPkg (fun b => b.received g)
      .next { t.updDie d (fun x => { x with dropped := x.dropped + (g.packets.filter (fun p => (packetStep p).isNone)).length }) with
        agenda := g.packets.filterMap packetStep ++ t.agenda }
    else
      let t := if (s.die d).skid then g.packets.foldl (fun s p => skidWrite s p.dstDie p) s else s
      if (bundleOf s d g.srcPkg).rxFails < 2 then .next (updBundle t d g.srcPkg (fun b => { b with rxFails := b.rxFails + 1 }))
      else .next (updBundle (g.packets.foldl reportTag t) d g.srcPkg (fun b => { b with
        rxUp := false
        rxKey := b.rxKey + 1
        rxNext := 0
        rxFails := 0 })) := by
  change execLinkGroupReceive d g s = _
  exact if_neg (by simp [hup, hk, hp, hs, hn])

theorem exec_linkGroupReceive_good (ht : g.tagOk = true) : exec (.linkGroupReceive d g) s =
    .next { (updBundle s d g.srcPkg (fun b => b.received g)).updDie d (fun x =>
      { x with dropped := x.dropped + (g.packets.filter (fun p => (packetStep p).isNone)).length }) with
        agenda := g.packets.filterMap packetStep ++ s.agenda } :=
  (exec_linkGroupReceive hup hk hp hs hn).trans (if_pos ht)

section
variable {t : State} (ht : g.tagOk = false)
  (hskid : t = if (s.die d).skid then g.packets.foldl (fun s p => skidWrite s p.dstDie p) s else s)
include ht hskid

/-- The first two failures of a group are counted. -/
theorem exec_linkGroupReceive_bad (hf : (bundleOf s d g.srcPkg).rxFails < 2) : exec (.linkGroupReceive d g) s =
    .next (updBundle t d g.srcPkg (fun b => { b with rxFails := b.rxFails + 1 })) := by
  subst hskid
  exact (exec_linkGroupReceive hup hk hp hs hn).trans ((if_neg (ne_true_of_eq_false ht)).trans (if_pos hf))

/-- The third failure takes the incoming bundle down. -/
theorem exec_linkGroupReceive_down (hf : 2 ≤ (bundleOf s d g.srcPkg).rxFails) : exec (.linkGroupReceive d g) s =
    .next (updBundle (g.packets.foldl reportTag t) d g.srcPkg (fun b => { b with
      rxUp := false
      rxKey := b.rxKey + 1
      rxNext := 0
      rxFails := 0 })) := by
  subst hskid
  exact (exec_linkGroupReceive hup hk hp hs hn).trans ((if_neg (ne_true_of_eq_false ht)).trans (if_neg hf.not_gt))

end

end

end

/-- A bundle that is up and has groups without an acknowledgement sends them again. -/
theorem exec_groupReplay (d pkg : Nat) (s : State) : exec (.groupReplay d pkg) s = .next (updBundle s d pkg (fun b =>
    if b.up = true ∧ b.txAcked < b.txGroup then { b with replaying := true } else b)) :=
  congrArg (fun f => Host.Outcome.next (updBundle s d pkg f)) (funext fun _ => if_congr (by
    rw [Bool.and_eq_true, decide_eq_true_eq]) rfl rfl)

/-! ### The end-to-end timer (R393) -/

section
variable {d n : Nat} {s : State} {r : Remote} (hr : (s.die d).remotes[n]? = some r)
  (hl : ¬(r.pkt.dstPkg ≠ s.pkg ∧ (bundleOf s (bundleDie s d r.pkt.dstPkg) r.pkt.dstPkg).replaying = true))
  (ht : r.time + packetTimer ≤ s.dtimePs)
include hr hl ht

/-- A timer that has expired outside link replay ends by the resends that its operation has had. -/
theorem exec_endToEndTimeout : exec (.endToEndTimeout d n) s = if r.resends < 7 then
      .next (pushGroups (s.updDie d (fun x =>
        { x with remotes := x.remotes.set n { r with resends := r.resends + 1, time := s.dtimePs } })) d r.pkt)
    else .next (failRemote s d r) := by
  have runs : replaying s d r = false := by
    rw [← Bool.not_eq_true, replaying, Bool.and_eq_true, bne_iff_ne]
    exact hl
  change execEndToEndTimeout d n s = _
  unfold execEndToEndTimeout
  rw [hr]
  exact if_neg (by simp [runs, ht])

theorem exec_endToEndTimeout_resends (h : r.resends < 7) : exec (.endToEndTimeout d n) s =
    .next (pushGroups (s.updDie d (fun x =>
      { x with remotes := x.remotes.set n { r with resends := r.resends + 1, time := s.dtimePs } })) d r.pkt) :=
  (exec_endToEndTimeout hr hl ht).trans (if_pos h)

theorem exec_endToEndTimeout_fails (h : 7 ≤ r.resends) : exec (.endToEndTimeout d n) s = .next (failRemote s d r) :=
  (exec_endToEndTimeout hr hl ht).trans (if_neg h.not_gt)

end

/-! ### Combiner entries (R404, R406) -/

section
variable {d e : Nat} {s : State} (ha : (combOf s d e).armed = true)
include ha

theorem exec_timedSlotFold (ht : (combOf s d e).timed = true) (hd : (combOf s d e).doomed = false) :
    exec (.timedSlotFold d e) s = .next (settleEntry (setComb s d e ((combOf s d e).foldNow s.dtimeNs)) d e) :=
  congrArg Host.Outcome.next (if_pos (by rw [ha, ht, hd]; rfl))

theorem exec_combinerTimeout {t : Nat} (hd : (combOf s d e).deadline = some t) (ht : t ≤ s.dtimeNs)
    (hg : (combOf s d e).folded.length < (combOf s d e).goal (s.die d).mesh) :
    exec (.combinerTimeout d e) s = .next (doomEntry s d e) :=
  congrArg Host.Outcome.next (if_pos (by simp [Comb.timedOut, ha, hd, ht, hg]))

end

/-! ### Members of a placement (R414 to R417, R422) -/

/-- The inputs of a step that have arrived whole, with the ranks that they come from. -/
def arrivedInputs (q : Placed) (m : Mesh) (r : Nat) (t : ConvStep) : List (Nat × List Nat) :=
  (t.needs m (dtdShape q.record) r).filterMap (fun k => (q.input m q.step r k t).map (fun l => (k, l)))

section
variable {q : Placed} {m : Mesh} {r : Nat} {t : ConvStep}

/-- A step with an input still to come has fewer inputs than it needs. -/
theorem arrivedInputs_length_ne (h : ∃ k ∈ t.needs m (dtdShape q.record) r, q.input m q.step r k t = none) :
    (arrivedInputs q m r t).length ≠ (t.needs m (dtdShape q.record) r).length := by
  obtain ⟨k, hk, hn⟩ := h
  rw [arrivedInputs, ne_eq, List.filterMap_length_eq_length]
  intro all
  have := all k hk
  rw [hn] at this
  cases this

variable {inp : Nat → List Nat} (hi : ∀ k ∈ t.needs m (dtdShape q.record) r, q.input m q.step r k t = some (inp k))
include hi

theorem arrivedInputs_all : arrivedInputs q m r t = (t.needs m (dtdShape q.record) r).map (fun k => (k, inp k)) := by
  rw [arrivedInputs, ← List.filterMap_eq_map]
  exact List.filterMap_congr fun k hk => by rw [hi k hk]; rfl

theorem arrivedInputs_snd : (arrivedInputs q m r t).map (·.2) = (t.needs m (dtdShape q.record) r).map inp := by
  rw [arrivedInputs_all hi, List.map_map]
  rfl

end

/-- The data from a rank among inputs that are listed by their ranks. -/
def inputFrom (ins : List (Nat × List Nat)) (k : Nat) : List Nat := ((ins.find? (fun i => i.1 == k)).map (·.2)).getD []

theorem inputFrom_map {l : List Nat} {inp : Nat → List Nat} {k : Nat} (hk : k ∈ l) :
    inputFrom (l.map (fun k => (k, inp k))) k = inp k := by
  induction l with
  | nil => cases hk
  | cons j l ih =>
    by_cases h : j = k
    · subst h
      simp [inputFrom]
    · have hl : k ∈ l := (List.mem_cons.mp hk).resolve_left (Ne.symm h)
      rw [← ih hl]
      simp [inputFrom, h]

theorem inputFrom_map_of_notMem {l : List Nat} {inp : Nat → List Nat} {k : Nat} (hk : k ∉ l) :
    inputFrom (l.map (fun k => (k, inp k))) k = [] := by
  have none : (l.map (fun k => (k, inp k))).find? (fun i => i.1 == k) = none := by
    rw [List.find?_eq_none]
    intro i hi
    obtain ⟨j, hj, rfl⟩ := List.mem_map.mp hi
    exact fun h => hk (beq_iff_eq.mp h ▸ hj)
  rw [inputFrom, none]
  rfl

section
variable {d n : Nat} {s : State} {q : Placed} {r : Nat} {t : ConvStep} (hq : placedAt s d n = some q) (hr : s.rank d = some r)
  (hst : q.st = 2)
include hq hr hst

theorem exec_memberConversionFailed_mismatch (hm : q.mismatch = true) :
    exec (.memberConversionFailed d n) s = .next (failMember s d r q 0x12) := by
  change execMemberConversionFailed d n s = _
  unfold execMemberConversionFailed
  rw [hq, hr]
  exact congrArg Host.Outcome.next ((if_neg (not_not.mpr hst)).trans (if_pos hm))

variable (ht : (q.steps (s.die d).mesh)[q.step]? = some t) (hm : q.mismatch = false)
include ht hm

/-- A member that lacks an input of its step which can come no more. -/
theorem exec_memberConversionFailed_lost (he : q.entry = none) (hl : q.lost (s.die d).mesh q.step r t = true) :
    exec (.memberConversionFailed d n) s = .next (failMember s d r q 0x1A) := by
  change execMemberConversionFailed d n s = _
  unfold execMemberConversionFailed
  rw [hq, hr]
  dsimp only
  rw [if_neg (not_not.mpr hst), if_neg (ne_true_of_eq_false hm), ht]
  exact congrArg Host.Outcome.next (if_pos (by rw [he, hl]; rfl))

/-- A converting member of which nothing is lost goes on. -/
theorem exec_memberShardWrite (hl : q.entry = none → q.lost (s.die d).mesh q.step r t = false) :
    exec (.memberShardWrite d n) s = .next (advanceMember s d r q t) := by
  have goes : (q.entry.isNone && q.lost (s.die d).mesh q.step r t) = false := by
    cases h : q.entry with
    | none => exact hl h
    | some e => rfl
  change execMemberShardWrite d n s = _
  unfold execMemberShardWrite
  rw [hq, hr]
  dsimp only
  rw [ht]
  exact congrArg Host.Outcome.next (if_neg (by simp [hst, hm, goes]))

end

section
variable {s : State} {d r : Nat} {q : Placed} {t : ConvStep}

/-- A member marked failed gives nothing. -/
theorem advanceMember_dead (ha : (s.die d).mesh.alive r = false) (hs : q.supplied = false) :
    advanceMember s d r q t = updPlaced s d q.addr q.asid (fun x => { x with supplied := true }) := by
  unfold advanceMember
  dsimp only
  rw [hs, ha]
  rfl

theorem advanceMember_supplies (ha : (s.die d).mesh.alive r = true) (hs : q.supplied = false) :
    advanceMember s d r q t = supplyStep s d r q t := by
  unfold advanceMember
  dsimp only
  rw [hs, ha]
  rfl

variable (hs : q.supplied = true)
include hs

/-- The result of a fold goes to the line, and the member has its data of the next step. -/
theorem advanceMember_multicasts {e : Nat} {cur : List Nat} (ha : (s.die d).mesh.alive r = true) (he : q.entry = some e)
    (hc : q.cur = some cur) : advanceMember s d r q t = nextStep
      ((listeners (s.die d).mesh t r).foldl (fun s k => giveTo s d r q.step q k 4 (some cur)) (setComb s d e {})) d r q cur := by
  unfold advanceMember freeEntry
  dsimp only
  rw [hs, ha, he, hc]
  rfl

variable (he : q.entry = none)
include he

theorem advanceMember_fetched : advanceMember s d r q t =
    if (arrivedInputs q (s.die d).mesh r t).length = (t.needs (s.die d).mesh (dtdShape q.record) r).length then
      takeStep s d r q t (arrivedInputs q (s.die d).mesh r t)
    else s := by
  unfold advanceMember
  dsimp only
  rw [hs, he]
  rfl

theorem advanceMember_waits (h : ∃ k ∈ t.needs (s.die d).mesh (dtdShape q.record) r, q.input (s.die d).mesh q.step r k t = none) :
    advanceMember s d r q t = s :=
  (advanceMember_fetched hs he).trans (if_neg (arrivedInputs_length_ne h))

variable {inp : Nat → List Nat}
  (hi : ∀ k ∈ t.needs (s.die d).mesh (dtdShape q.record) r, q.input (s.die d).mesh q.step r k t = some (inp k))
include hi

/-- A member with all its inputs takes its step. -/
theorem advanceMember_takes : advanceMember s d r q t = takeStep s d r q t (arrivedInputs q (s.die d).mesh r t) :=
  (advanceMember_fetched hs he).trans (if_pos (by rw [arrivedInputs_all hi, List.length_map]))

theorem advanceMember_folds {e : Nat} (hf : t.folds (s.die d).mesh r = true) (hfree : reservedEntry s d = some e) :
    advanceMember s d r q t =
      (let (l, c) := foldStep q (s.die d).mesh q.step t ((t.needs (s.die d).mesh (dtdShape q.record) r).map inp)
      updPlaced (setComb s d e c) d q.addr q.asid (fun x => { x with cur := some l, entry := some e })) := by
  rw [advanceMember_takes hs he hi, ← arrivedInputs_snd hi]
  unfold takeStep
  dsimp only
  rw [if_pos hf, hfree]

/-- A member that does not fold needs the result of its line's rank-0 member alone. -/
theorem advanceMember_takesFold (hf : t.folds (s.die d).mesh r = false) (ho : t.fold.isSome = true) :
    advanceMember s d r q t = nextStep s d r q (inp (lineHead (s.die d).mesh r t.axis)) := by
  have head : t.needs (s.die d).mesh (dtdShape q.record) r = [lineHead (s.die d).mesh r t.axis] :=
    (if_neg (ne_true_of_eq_false hf)).trans (if_pos ho)
  have result : inputFrom (arrivedInputs q (s.die d).mesh r t) (lineHead (s.die d).mesh r t.axis) =
      inp (lineHead (s.die d).mesh r t.axis) := by
    rw [arrivedInputs_all hi, head]
    exact inputFrom_map (List.mem_singleton.mpr rfl)
  rw [advanceMember_takes hs he hi, ← result]
  exact (if_neg (ne_true_of_eq_false hf)).trans (if_pos ho)

/-- A step that does not fold moves each element from the member that holds it. -/
theorem advanceMember_moves (hf : t.folds (s.die d).mesh r = false) (ho : t.fold.isSome = false)
    (hz : ∀ k, k ∉ t.needs (s.die d).mesh (dtdShape q.record) r → inp k = []) :
    advanceMember s d r q t = nextStep s d r q (movedShard (s.die d).mesh (dtdShape q.record) t.old t.new inp r) := by
  have data : inputFrom (arrivedInputs q (s.die d).mesh r t) = inp := by
    rw [arrivedInputs_all hi]
    funext k
    by_cases hk : k ∈ t.needs (s.die d).mesh (dtdShape q.record) r
    · exact inputFrom_map hk
    · rw [inputFrom_map_of_notMem hk, hz k hk]
  rw [advanceMember_takes hs he hi, ← data]
  exact (if_neg (ne_true_of_eq_false hf)).trans (if_neg (ne_true_of_eq_false ho))

end

/-! ### Packets that wait for their slot (R392, R401) -/

theorem exec_ntsSlotBegins {d n slot : Nat} {s : State} {r : Remote} (hh : (s.die d).heldNts[n]? = some (slot, r))
    (hb : slot ≤ curSlot s) (hf : sentFull s d r.pkt.dstPkg r.pkt.dstDie = false) : exec (.ntsSlotBegins d n) s =
      .next (sendRemote (s.updDie d (fun x => { x with heldNts := x.heldNts.eraseIdx n })) d r) := by
  change execNtsSlotBegins d n s = _
  unfold execNtsSlotBegins
  rw [hh]
  exact if_neg (by simp [hb, hf])

/-! ### The host (R317, R373) -/

section
variable {qp : Nat} {s : State} (hup : stage3Done s = true)
include hup

theorem exec_hostCompareAndSwap (va c v : Word) : exec (.hostCompareAndSwap qp va c v) s = .next (answer s (.nak qp)) :=
  congrArg Host.Outcome.next (if_pos hup)

/-- Verbs of a queue pair that no region is bound to. -/
theorem exec_host_unbound (hq : Map.find? s.qps qp = none) (va v : Word) (len : Nat) (data : List Byte) :
    exec (.hostRdmaWrite qp va data) s = .next (answer s (.nak qp)) ∧
    exec (.hostRdmaRead qp va len) s = .next (answer s (.nak qp)) ∧
    exec (.hostFetchAndAdd qp va v) s = .next (answer s (.nak qp)) := by
  refine ⟨?_, ?_, ?_⟩
  · change execHostRdmaWrite qp va data s = _
    rw [execHostRdmaWrite, hup, hq]
    rfl
  · change execHostRdmaRead qp va len s = _
    rw [execHostRdmaRead, hup, hq]
    rfl
  · change execHostFetchAndAdd qp va v s = _
    rw [execHostFetchAndAdd, hup, hq]
    rfl

variable {r : Region} (hq : Map.find? s.qps qp = some r)
include hq

section
variable {va : Word} {data : List Byte}

/-- The verdict on a write is that of its translation alone. -/
theorem exec_hostRdmaWrite : exec (.hostRdmaWrite qp va data) s =
    match translateRange s (packageView r.space) va.toNat data.length .write with
    | .error (c, a) => .next (refuseVerb s qp r c a)
    | .ok (ps, t) => if data.isEmpty then .next (answer (flushHost t qp) (.ack qp))
      else .next { t with hostWrites := t.hostWrites ++ [{ qp := qp, asid := r.space.asid, pieces := piecesOf ps data }] } := by
  change execHostRdmaWrite qp va data s = _
  rw [execHostRdmaWrite, hup, hq]
  rfl

section
variable {ps : List Span} {t : State} (h : translateRange s (packageView r.space) va.toNat data.length .write = .ok (ps, t))
include h

/-- A write waits for its sectors. -/
theorem exec_hostRdmaWrite_waits (hd : data ≠ []) : exec (.hostRdmaWrite qp va data) s =
    .next { t with hostWrites := t.hostWrites ++ [{ qp := qp, asid := r.space.asid, pieces := piecesOf ps data }] } := by
  rw [exec_hostRdmaWrite hup hq, h]
  exact if_neg (mt List.isEmpty_iff.mp hd)

theorem exec_hostRdmaWrite_empty (hd : data = []) :
    exec (.hostRdmaWrite qp va data) s = .next (answer (flushHost t qp) (.ack qp)) := by
  rw [exec_hostRdmaWrite hup hq, h]
  exact if_pos (List.isEmpty_iff.mpr hd)

end

theorem exec_hostRdmaWrite_fault {f : BitVec 8 × Word}
    (h : translateRange s (packageView r.space) va.toNat data.length .write = .error f) :
    exec (.hostRdmaWrite qp va data) s = .next (refuseVerb s qp r f.1 f.2) := by
  rw [exec_hostRdmaWrite hup hq, h]

end

variable {z : State} (hz : z = flushHost s qp)
include hz

section
variable {va : Word} {len : Nat}

/-- A read is made behind the writes of its queue pair. -/
theorem exec_hostRdmaRead : exec (.hostRdmaRead qp va len) s = match readVia z (packageView r.space) va.toNat len with
    | .ok (bs, t) => .next (answer t (.readData qp bs))
    | .error (c, a) => .next (refuseVerb z qp r c a) := by
  subst hz
  change execHostRdmaRead qp va len s = _
  rw [execHostRdmaRead, hup, hq]
  rfl

theorem exec_hostRdmaRead_ok {bs : List Byte} {t : State} (h : readVia z (packageView r.space) va.toNat len = .ok (bs, t)) :
    exec (.hostRdmaRead qp va len) s = .next (answer t (.readData qp bs)) := by
  rw [exec_hostRdmaRead hup hq hz, h]

theorem exec_hostRdmaRead_fault {f : BitVec 8 × Word} (h : readVia z (packageView r.space) va.toNat len = .error f) :
    exec (.hostRdmaRead qp va len) s = .next (refuseVerb z qp r f.1 f.2) := by
  rw [exec_hostRdmaRead hup hq hz, h]

end

section
variable {va v : Word}

/-- An add is made behind the writes of its queue pair, to a word that translates as a counter. -/
theorem exec_hostFetchAndAdd : exec (.hostFetchAndAdd qp va v) s =
    match translateCounter z (packageView r.space) va .counterAdd with
    | .error (c, a) => .next (refuseVerb z qp r c a)
    | .ok (pa, t) => match t.counterAdd (hostWriter t qp) pa v.toNat none (some (0, 0)) with
      | .ok u => .next (answer u (.oldValue qp (BitVec.ofNat 64 (t.counter pa))))
      | .error f => .next (answer (countFailedAdd t f) (.nak qp)) := by
  subst hz
  change execHostFetchAndAdd qp va v s = _
  rw [execHostFetchAndAdd, hup, hq]
  rfl

section
variable {pa : Nat} {t : State} (h : translateCounter z (packageView r.space) va .counterAdd = .ok (pa, t))
include h

theorem exec_hostFetchAndAdd_adds {u : State} (ha : t.counterAdd (hostWriter t qp) pa v.toNat none (some (0, 0)) = .ok u) :
    exec (.hostFetchAndAdd qp va v) s = .next (answer u (.oldValue qp (BitVec.ofNat 64 (t.counter pa)))) := by
  rw [exec_hostFetchAndAdd hup hq hz, h]
  dsimp only
  rw [ha]

/-- An add that overflows or meets an uncorrectable error. -/
theorem exec_hostFetchAndAdd_stops {f : AddFail}
    (ha : t.counterAdd (hostWriter t qp) pa v.toNat none (some (0, 0)) = .error f) :
    exec (.hostFetchAndAdd qp va v) s = .next (answer (countFailedAdd t f) (.nak qp)) := by
  rw [exec_hostFetchAndAdd hup hq hz, h]
  dsimp only
  rw [ha]

end

theorem exec_hostFetchAndAdd_fault {f : BitVec 8 × Word}
    (h : translateCounter z (packageView r.space) va .counterAdd = .error f) :
    exec (.hostFetchAndAdd qp va v) s = .next (refuseVerb z qp r f.1 f.2) := by
  rw [exec_hostFetchAndAdd hup hq hz, h]

end

end

/-- Settles O59: each step by the lemma about it. -/
theorem linkAndHostEvents : Obligations.LinkAndHostEvents := by
  unfold Obligations.LinkAndHostEvents
  refine ⟨?groups, fun d pkg s => ⟨exec_groupReplay d pkg s, rfl, rfl, rfl, rfl, rfl⟩, ?timer, ?combiner, ?member,
    fun d n slot s r => exec_ntsSlotBegins, ?host⟩
  case groups =>
    intro d g s hup hk hp hs
    exact ⟨exec_linkGroupReceive_otherNumber, exec_linkGroupReceive_good hup hk hp hs,
      fun hn ht t hskid => ⟨exec_linkGroupReceive_bad hup hk hp hs hn ht hskid, exec_linkGroupReceive_down hup hk hp hs hn ht hskid⟩⟩
  case timer =>
    intro d n s r hr hl ht
    exact ⟨exec_endToEndTimeout_resends hr hl ht, exec_endToEndTimeout_fails hr hl ht⟩
  case combiner =>
    intro d e s ha
    refine ⟨fun ht hd => ?fold, fun t => exec_combinerTimeout ha⟩
    case fold =>
      rw [exec_timedSlotFold ha ht hd]
      exact congrArg (fun c => Host.Outcome.next (settleEntry (setComb s d e c) d e)) (if_pos ht)
  case member =>
    intro d n s q r t hq hr hst ht
    refine ⟨exec_memberConversionFailed_mismatch hq hr hst, exec_memberConversionFailed_lost hq hr hst ht,
      fun hm ha he hl hs => ?dead, fun hm ha he hl => ?gives, fun e cur hm ha hs he hc => ?multicasts⟩
    case multicasts =>
      have goes := exec_memberShardWrite hq hr hst ht hm fun h => absurd (he.symm.trans h) (Option.some_ne_none e)
      exact goes.trans (congrArg _ (advanceMember_multicasts hs ha he hc))
    all_goals rw [exec_memberShardWrite hq hr hst ht hm fun _ => hl]
    case dead => exact congrArg _ (advanceMember_dead ha hs)
    case gives =>
      refine ⟨fun hs => congrArg _ (advanceMember_supplies ha hs), fun hs h => congrArg _ (advanceMember_waits hs he h),
        fun inp hs hi => ⟨fun hf ho => ?takesFold, fun hf ho hz => ?moves, fun hf e hfree => ?folds⟩⟩
      case takesFold => exact congrArg _ (advanceMember_takesFold hs he hi hf ho)
      case moves => exact congrArg _ (advanceMember_moves hs he hi hf ho hz)
      case folds => exact congrArg _ (advanceMember_folds hs he hi hf hfree)
  case host =>
    intro qp s hup
    refine ⟨exec_hostCompareAndSwap hup, fun hq va v len data => exec_host_unbound hup hq va v len data,
      fun r hq => ⟨fun va data => ?writes, fun z hz => ⟨fun va len => ?reads, fun va v => ?adds⟩⟩⟩
    case writes =>
      exact ⟨fun ps t => exec_hostRdmaWrite_waits hup hq, fun ps t => exec_hostRdmaWrite_empty hup hq,
        fun f => exec_hostRdmaWrite_fault hup hq⟩
    case reads => exact ⟨fun bs t => exec_hostRdmaRead_ok hup hq hz, fun f => exec_hostRdmaRead_fault hup hq hz⟩
    case adds =>
      exact ⟨fun pa t u h => exec_hostFetchAndAdd_adds hup hq hz h, fun pa t f h => exec_hostFetchAndAdd_stops hup hq hz h,
        fun f => exec_hostFetchAndAdd_fault hup hq hz⟩

end Sys2Proof.Proofs

/-! SUPPORT. The canonical form of a state by its parts, and the updates that keep it. A function of the model that gives a state has
its lemma under its own name, `canonical.f`: from a canonical state it gives a canonical one. -/

namespace Sys2Proof

open Machine

namespace Map

variable {α : Type} [DecidableEq α] {d : α}

/-- What a canonical map lists at a key reads back there. -/
theorem get_of_mem {m : Map α} {n k : Nat} {v : α} (h : wfFrom d n m = true) (hm : (k, v) ∈ m) : n ≤ k ∧ get d m k = v := by
  induction m generalizing n with
  | nil => cases hm
  | cons p m ih =>
    obtain ⟨j, u⟩ := p
    obtain ⟨hj, -, hw⟩ := wfFrom_cons.mp h
    rcases List.mem_cons.mp hm with he | hm
    · cases he
      exact ⟨hj, by simp [get]⟩
    · obtain ⟨hk, hv⟩ := ih hw hm
      refine ⟨by omega, ?_⟩
      rw [get, if_neg (by omega), if_neg (by omega), hv]

omit [DecidableEq α] in
/-- A key reads as the default, or as what the map lists there. -/
theorem get_eq_default_or_mem (m : Map α) (k : Nat) : get d m k = d ∨ (k, get d m k) ∈ m := by
  induction m with
  | nil => exact .inl rfl
  | cons p m ih =>
    obtain ⟨j, u⟩ := p
    by_cases h1 : k = j
    · subst h1; simp [get]
    · by_cases h2 : k < j
      · simp [get, h1, h2]
      · simpa [get, h1, h2] using ih

end Map

theorem filesCanonical_default : filesCanonical {} := ⟨rfl, rfl, rfl, rfl, rfl, rfl, rfl, rfl⟩

/-- The canonical form by its parts, the contexts' registers as they read. -/
theorem canonical_iff {s : State} : canonical s ↔ Memory.wf s.mem = true ∧ Map.wf {} s.ctxs = true ∧ Map.wf {} s.cores = true ∧
    ∀ c, filesCanonical (s.ctx c) := by
  refine ⟨fun ⟨hm, hx, hk, hf⟩ => ⟨hm, hx, hk, fun c => ?_⟩, fun ⟨hm, hx, hk, hf⟩ => ⟨hm, hx, hk, fun p hp => ?_⟩⟩
  · rcases Map.get_eq_default_or_mem (d := ({} : Ctx)) s.ctxs c with h | h
    · rw [State.ctx, h]; exact filesCanonical_default
    · exact hf _ h
  · exact (Map.get_of_mem hx hp).2 ▸ hf p.1

namespace canonical

variable {s t : State}

theorem mem (h : canonical s) : Memory.wf s.mem = true := h.1
theorem ctxs (h : canonical s) : Map.wf {} s.ctxs = true := h.2.1
theorem cores (h : canonical s) : Map.wf {} s.cores = true := h.2.2.1
theorem files (h : canonical s) (c : Nat) : filesCanonical (s.ctx c) := (canonical_iff.mp h).2.2.2 c

/-- Besides memory, the contexts and the cores nothing matters. -/
theorem withMem
    {pkg packages clock mhz dtimePs side redShadow race bad badSide retained shadowLines lineTimes loose clusters dies
    geom seqs frames free cohorts kvJobs deliveries followerOut rings nodes sets saved nextId raceLogged corrected
    rowErrors repaired spareChannels mgmtSpace areas qps hostWrites hostOut watchHits resets shutter dens thresholds
    powerLimit scrubRate scrubs scrubAt bootStage bootFail reports freeIdx issue agenda issuing issued : _}
    {mem : Map Byte} (h : canonical s) (hm : Memory.wf mem = true) :
    canonical { s with
      mem := mem,
      pkg := pkg, packages := packages, clock := clock, mhz := mhz, dtimePs := dtimePs, side := side,
      redShadow := redShadow, race := race, bad := bad, badSide := badSide, retained := retained,
      shadowLines := shadowLines, lineTimes := lineTimes, loose := loose, clusters := clusters, dies := dies,
      geom := geom, seqs := seqs, frames := frames, free := free, cohorts := cohorts, kvJobs := kvJobs,
      deliveries := deliveries, followerOut := followerOut, rings := rings, nodes := nodes, sets := sets, saved := saved,
      nextId := nextId, raceLogged := raceLogged, corrected := corrected, rowErrors := rowErrors, repaired := repaired,
      spareChannels := spareChannels, mgmtSpace := mgmtSpace, areas := areas, qps := qps, hostWrites := hostWrites,
      hostOut := hostOut, watchHits := watchHits, resets := resets, shutter := shutter, dens := dens,
      thresholds := thresholds, powerLimit := powerLimit, scrubRate := scrubRate, scrubs := scrubs, scrubAt := scrubAt,
      bootStage := bootStage, bootFail := bootFail, reports := reports, freeIdx := freeIdx, issue := issue,
      agenda := agenda, issuing := issuing, issued := issued } := ⟨hm, h.2⟩

theorem same
    {pkg packages clock mhz dtimePs side redShadow race bad badSide retained shadowLines lineTimes loose clusters dies
    geom seqs frames free cohorts kvJobs deliveries followerOut rings nodes sets saved nextId raceLogged corrected
    rowErrors repaired spareChannels mgmtSpace areas qps hostWrites hostOut watchHits resets shutter dens thresholds
    powerLimit scrubRate scrubs scrubAt bootStage bootFail reports freeIdx issue agenda issuing issued : _}
    (h : canonical s) : canonical { s with
      pkg := pkg, packages := packages, clock := clock, mhz := mhz, dtimePs := dtimePs, side := side,
      redShadow := redShadow, race := race, bad := bad, badSide := badSide, retained := retained,
      shadowLines := shadowLines, lineTimes := lineTimes, loose := loose, clusters := clusters, dies := dies,
      geom := geom, seqs := seqs, frames := frames, free := free, cohorts := cohorts, kvJobs := kvJobs,
      deliveries := deliveries, followerOut := followerOut, rings := rings, nodes := nodes, sets := sets, saved := saved,
      nextId := nextId, raceLogged := raceLogged, corrected := corrected, rowErrors := rowErrors, repaired := repaired,
      spareChannels := spareChannels, mgmtSpace := mgmtSpace, areas := areas, qps := qps, hostWrites := hostWrites,
      hostOut := hostOut, watchHits := watchHits, resets := resets, shutter := shutter, dens := dens,
      thresholds := thresholds, powerLimit := powerLimit, scrubRate := scrubRate, scrubs := scrubs, scrubAt := scrubAt,
      bootStage := bootStage, bootFail := bootFail, reports := reports, freeIdx := freeIdx, issue := issue,
      agenda := agenda, issuing := issuing, issued := issued } := h

theorem putBytes {pa : Nat} {bs : List Byte} (h : canonical s) : Memory.wf (putBytes s.mem pa bs) = true := wf_putBytes h.mem pa bs

theorem withCores (h : canonical s) {m : Map Core} (hm : Map.wf {} m = true) : canonical { s with cores := m } :=
  ⟨h.1, h.2.1, hm, h.2.2.2⟩

theorem updCore {k : Nat} {f : Core → Core} (h : canonical s) : canonical (s.updCore k f) := h.withCores (Map.wf_upd h.cores k f)
theorem updCluster {k : Nat} {f : Cluster → Cluster} (h : canonical s) : canonical (s.updCluster k f) := h
theorem updDie {d : Nat} {f : Die → Die} (h : canonical s) : canonical (s.updDie d f) := h

theorem updCtx {c : Nat} {f : Ctx → Ctx} (h : canonical s) (hf : filesCanonical (s.ctx c) → filesCanonical (f (s.ctx c))) :
    canonical (s.updCtx c f) := by
  refine canonical_iff.mpr ⟨h.mem, State.wf_updCtx s c f h.ctxs, h.cores, fun i => ?_⟩
  by_cases hi : i = c
  · subst hi
    rw [State.ctx_updCtx_self s i f h.ctxs]
    exact hf (h.files i)
  · rw [State.ctx_updCtx_of_ne s c i f h.ctxs hi]
    exact h.files i

/-- An update of a context that leaves its registers alone. -/
theorem updCtx' {c : Nat} {f : Ctx → Ctx} (h : canonical s) (hf : ∀ x, filesCanonical x → filesCanonical (f x)) :
    canonical (s.updCtx c f) := h.updCtx (hf _)

theorem ite {p : Prop} [Decidable p] (hs : canonical s) (ht : canonical t) : canonical (if p then s else t) := by
  split
  · exact hs
  · exact ht

theorem foldl {α : Type} {f : State → α → State} {l : List α} (h : canonical s) (hf : ∀ s a, canonical s → canonical (f s a)) :
    canonical (l.foldl f s) := by
  induction l generalizing s with
  | nil => exact h
  | cons a l ih => exact ih (hf s a h)

theorem foldl_snd {α β : Type} {f : β × State → α → β × State} {l : List α} {b : β} (h : canonical s)
    (hf : ∀ b s a, canonical s → canonical (f (b, s) a).2) : canonical (l.foldl f (b, s)).2 := by
  induction l generalizing b s with
  | nil => exact h
  | cons a l ih => exact ih (b := (f (b, s) a).1) (hf b s a h)

theorem snd {α : Type} {p : α × State} {a : α} (h : canonical p.2) (hp : p = (a, t)) : canonical t := by
  rw [hp] at h
  exact h

theorem fst {α : Type} {p : State × α} {a : α} (h : canonical p.1) (hp : p = (t, a)) : canonical t := by
  rw [hp] at h
  exact h

theorem getD {o : Option State} (h : canonical s) (ho : ∀ t, o = some t → canonical t) : canonical (o.getD s) := by
  cases o with
  | none => exact h
  | some t => exact ho t rfl

end canonical

/-- A part of a slot's meaning, run in a canonical state, ends or waits in a canonical state, and what it gives satisfies `P`. -/
def Keeps {α : Type} (m : M α) (P : α → Prop := fun _ => True) : Prop :=
  ∀ s, canonical s → (∀ v t, m.run s = .ok (v, t) → canonical t ∧ P v) ∧ ∀ t, m.run s = .error (.held t) → canonical t

section

variable {α β : Type} {P : α → Prop} {Q : β → Prop} {m : M α}

theorem Keeps.bind {f : α → M β} (hm : Keeps m P) (hf : ∀ v, P v → Keeps (f v) Q) : Keeps (m >>= f) Q := by
  intro s hs
  obtain ⟨hok, hheld⟩ := hm s hs
  rw [StateT.run_bind]
  cases hr : m.run s with
  | error e => exact ⟨fun _ _ h => (by cases h), fun t ht => hheld t (by cases ht; exact hr)⟩
  | ok r =>
    obtain ⟨ht, hv⟩ := hok r.1 r.2 hr
    exact hf r.1 hv r.2 ht

theorem Keeps.weaken (hm : Keeps m P) : Keeps m := fun s hs => ⟨fun v t h => ⟨((hm s hs).1 v t h).1, trivial⟩, (hm s hs).2⟩

theorem Keeps.ite {p : Prop} [Decidable p] {n : M α} (hm : Keeps m P) (hn : Keeps n P) : Keeps (if p then m else n) P := by
  split
  · exact hm
  · exact hn

/-- A part that runs to its end whatever the state. -/
theorem Keeps.of_ok {g : State → α × State} (hr : ∀ s, m.run s = .ok (g s)) (h : ∀ s, canonical s → canonical (g s).2 ∧ P (g s).1) :
    Keeps m P := by
  intro s hs
  rw [hr s]
  refine ⟨fun v t he => ?_, fun t he => by cases he⟩
  have hg : g s = (v, t) := Except.ok.inj he
  have hs := h s hs
  rwa [hg] at hs

/-- A part that stops whatever the state. -/
theorem Keeps.of_error {e : Stop} (hr : ∀ s, m.run s = .error e) (he : ∀ t, e = .held t → canonical t) : Keeps m P := by
  intro s _
  rw [hr s]
  exact ⟨fun _ _ h => (by cases h), fun t h => he t (Except.error.inj h)⟩

theorem keeps_pure_of {v : α} (hv : P v) : Keeps (pure v) P := .of_ok (fun _ => rfl) fun _ hs => ⟨hs, hv⟩
theorem keeps_pure {v : α} : Keeps (pure v) := keeps_pure_of trivial
theorem keeps_get : Keeps (get : M State) canonical := .of_ok (fun _ => rfl) fun _ hs => ⟨hs, hs⟩
theorem keeps_set {t : State} (ht : canonical t) : Keeps (set t : M PUnit) := .of_ok (fun _ => rfl) fun _ _ => ⟨ht, trivial⟩
theorem keeps_modify {f : State → State} (hf : ∀ s, canonical s → canonical (f s)) : Keeps (modify f : M PUnit) :=
  .of_ok (fun _ => rfl) fun s hs => ⟨hf s hs, trivial⟩
theorem keeps_trap {enc : Bool} {c : BitVec 8} {t : Word} : Keeps (throw (.trap enc c t) : M α) P :=
  .of_error (fun _ => rfl) fun _ h => nomatch h
theorem keeps_fp {n : Nat} {c : BitVec 128} : Keeps (throw (.fp n c) : M α) P := .of_error (fun _ => rfl) fun _ h => nomatch h
theorem keeps_held {t : State} (ht : canonical t) : Keeps (throw (.held t) : M α) P :=
  .of_error (fun _ => rfl) fun _ h => by cases h; exact ht
theorem keeps_condTrap {c : BitVec 8} {t : Word} : Keeps (condTrap c t : M α) P := keeps_trap
theorem keeps_illegal : Keeps (illegal : M α) P := keeps_get.bind fun _ _ => keeps_trap
theorem keeps_illegalWord : Keeps (illegalWord : M α) P := keeps_get.bind fun _ _ => keeps_trap

theorem keeps_liftTrap {r : Except (BitVec 8 × Word) α} (h : ∀ a, r = .ok a → P a) : Keeps (liftTrap r) P := by
  cases r with
  | error e => exact keeps_condTrap
  | ok a => exact keeps_pure_of (h a rfl)

end

theorem keeps_need {b : Bool} {c : BitVec 8} {t : Word} : Keeps (need b c t) := keeps_pure.ite keeps_condTrap
theorem keeps_needWord {b : Bool} : Keeps (needWord b) := keeps_pure.ite keeps_illegalWord
theorem keeps_needLegal {b : Bool} : Keeps (needLegal b) := keeps_pure.ite keeps_illegal
theorem keeps_curCtx : Keeps curCtx := keeps_get.bind fun _ _ => keeps_pure
theorem keeps_modCtx {f : Ctx → Ctx} (hf : ∀ x, filesCanonical x → filesCanonical (f x)) :
    Keeps (modCtx f) := keeps_modify fun _ h => h.updCtx' hf

end Sys2Proof

/-! SUPPORT. The canonical form through memory, translation, budgets and the counters of events: every operation keeps it. -/

namespace Sys2Proof

open Machine

namespace canonical

variable {s t : State}

/-! ### Bytes and writes -/

theorem setEngine {e : EngineId} {f : Engine → Engine} (h : canonical s) : canonical (setEngine s e f) := by
  cases e with
  | copy0 | copy1 | gs => exact h.updCluster
  | collective | requant | compact | loader => exact h.updDie

theorem settle {pa n : Nat} (h : canonical s) : canonical (s.settle pa n) := h.withMem (settle_memOk h.mem pa n)
theorem dropShadows {pa n : Nat} (h : canonical s) : canonical (s.dropShadows pa n) := .same h
theorem flushShadows {pa n : Nat} (h : canonical s) : canonical (s.flushShadows pa n) := h.settle.dropShadows
theorem flushSlice {cl : Nat} (h : canonical s) : canonical (s.flushSlice cl) := .foldl (.same h) fun _ _ h => h.flushShadows
theorem readBytes {pa n : Nat} (h : canonical s) : canonical (s.readBytes pa n).2 := .ite h h.settle

theorem watchCheck {w : Writer} {pa n : Nat} (h : canonical s) : canonical (s.watchCheck w pa n) := by
  refine h.foldl fun t p ht => ?_
  exact .ite ht (.ite ht (.same (ht.updCore (k := p.1) (f := fun _ => (watchCore w pa n p.1 p.2).1))))

theorem write {w : Writer} {cnt : Bool} {pa : Nat} {bs : List Byte} (h : canonical s) : canonical (s.write w cnt pa bs) := by
  have hd : canonical (if s.redShadow.isEmpty then s else s.dropShadows pa bs.length) := .ite h h.dropShadows
  exact .ite h (.watchCheck (hd.withMem hd.putBytes))

theorem unshadowed {pa n : Nat} (h : canonical s) : canonical (if s.redShadow.isEmpty then s else s.flushShadows pa n) :=
  .ite h h.flushShadows

theorem counterAdd {w : Writer} {pa n : Nat} {err : Option (BitVec 8)} {rel : Option (BitVec 16 × BitVec 16)} (h : canonical s)
    (hr : s.counterAdd w pa n err rel = .ok t) : canonical t := by
  have hf := h.unshadowed (pa := pa) (n := 8)
  unfold State.counterAdd at hr
  split at hr
  · cases hr
  · generalize (if s.redShadow.isEmpty then s else s.flushShadows pa 8) = u at hf hr
    dsimp only at hr
    split at hr
    · cases hr
    · cases hr
      exact .watchCheck (hf.withMem hf.putBytes)

theorem free64 (h : canonical s) : canonical s.free64.2 := .same h
theorem freeNat (h : canonical s) : canonical s.freeNat.2 := .same h

theorem mgmtWord {off : Nat} (h : canonical s) : canonical (mgmtWord s off).2 := by
  unfold Machine.mgmtWord
  split
  · exact h
  · exact h.free64

theorem mgmtRead {n off : Nat} (h : canonical s) : canonical (mgmtRead n off s).2 := by
  induction n generalizing off s with
  | zero => exact h
  | succ n ih => exact ih h.mgmtWord

theorem mgmtWrite {off : Nat} {bs : List Byte} (h : canonical s) : canonical (mgmtWrite s off bs) := by
  unfold Machine.mgmtWrite
  dsimp only
  exact .same h.mgmtRead

theorem readAt {pa n : Nat} (h : canonical s) : canonical (s.readAt pa n).2 := by
  unfold State.readAt
  split
  · exact h.mgmtRead
  · exact h.readBytes

theorem storeAt {w : Writer} {cnt : Bool} {pa : Nat} {bs : List Byte} (h : canonical s) : canonical (s.storeAt w cnt pa bs) := by
  unfold State.storeAt
  split
  · exact .ite h h.mgmtWrite
  · exact h.write

/-! ### The shutter and the densitometers -/

theorem fireShutter {src : ShutSource} {tag : BitVec 16} {c : Option (BitVec 16)} (h : canonical s) :
    canonical (fireShutter s src tag c) := .ite (.same h) (.same h)
theorem sampleDens {n v : Nat} (h : canonical s) : canonical (sampleDens s n v) := .ite h (.ite (.fireShutter (.same h)) (.same h))
theorem countEvent {e : DensEvent} (h : canonical s) : canonical (countEvent s e) :=
  h.foldl fun _ _ h => .ite (.sampleDens (.same h)) h

theorem countFailedAdd {f : AddFail} (h : canonical s) : canonical (countFailedAdd s f) := by
  cases f with
  | overflow => exact h
  | bad c => exact h.countEvent

/-! ### Translation -/

theorem installWalk {v : View} {e : TlbEntry} {seen : List (Nat × Word)} (h : canonical s) : canonical (installWalk s v e seen) := by
  unfold Machine.installWalk
  dsimp only
  split
  · exact .same (.updCore h.updDie)
  · exact .same h.updDie

theorem orEntry {pa bits : Nat} (h : canonical s) : canonical (orEntry s pa bits) := by
  unfold Machine.orEntry
  dsimp only
  exact h.unshadowed.withMem h.unshadowed.putBytes

theorem walkInstall {v : View} {va : Nat} {e : TlbEntry} (h : canonical s) (hr : walkInstall s v va = some (e, t)) : canonical t := by
  rw [Machine.walkInstall, Option.map_eq_some_iff] at hr
  obtain ⟨q, -, hq⟩ := hr
  cases hq
  exact .installWalk (.ite h h.orEntry)

theorem markDirty {v : View} {e : TlbEntry} (h : canonical s) : canonical (markDirty s v e) := by
  unfold Machine.markDirty
  split
  · exact h
  · dsimp only
    split
    · exact h.orEntry.updDie.updCore
    · exact h.orEntry.updDie

theorem translatePage {v : View} {va : Nat} {acc : Acc} {pa : Nat} {cnt : Bool} (h : canonical s)
    (hr : translatePage s v va acc = .ok (pa, cnt, t)) : canonical t := by
  obtain ⟨e, u, hu, ht⟩ := Proofs.translatePage_state hr
  have hu : canonical u := by
    rcases hu with rfl | hu
    · exact h
    · exact h.walkInstall hu
  rw [ht]
  exact .ite hu.markDirty hu

theorem confirmWalk {v : View} {cause : BitVec 8} {va : Nat} (h : canonical s) : canonical (confirmWalk s v cause va) := by
  unfold Machine.confirmWalk
  split
  · dsimp only
    have hd : ∀ {f : Die → Die}, canonical (match v.l1core with
        | some k => (s.updDie v.die f).updCore k fun x => { x with l1tlb := x.l1tlb.filter fun e => !e.covers v.space.asid va }
        | none => s.updDie v.die f) := by
      intro f
      split
      · exact h.updDie.updCore
      · exact h.updDie
    split
    · next hw => exact hd.walkInstall hw
    · exact hd
  · exact h

end canonical
end Sys2Proof

namespace Sys2Proof
open Machine
namespace canonical
variable {s t : State}

theorem translate {v : View} {va : Nat} {acc : Acc} {pa : Nat} {cnt : Bool} (h : canonical s)
    (hr : Machine.translate s v va acc = .ok (pa, cnt, t)) : canonical t := by
  unfold Machine.translate at hr
  split at hr
  · cases hr
  · split at hr
    · split at hr
      · cases acc <;> dsimp only at hr
        case counterRead | counterAdd | fetch => exact absurd hr nofun
        all_goals
          split at hr
          · exact absurd hr nofun
          · rw [Except.ok.injEq, Prod.mk.injEq, Prod.mk.injEq] at hr
            exact hr.2.2 ▸ h
      · exact h.translatePage hr
    · split at hr
      · cases hr
      · exact h.translatePage hr

theorem translateSpans {v : View} {acc : Acc} {n va len : Nat} {ps : List Span} (h : canonical s)
    (hr : translateSpans v acc n s va len = .ok (ps, t)) : canonical t := by
  induction n generalizing s va len ps with
  | zero => cases hr; exact h
  | succ n ih =>
    unfold Machine.translateSpans at hr
    split at hr
    · cases hr
      exact h
    · split at hr
      · cases hr
      · next hx =>
        dsimp only at hr
        split at hr
        · cases hr
        · next hy =>
          cases hr
          exact ih (h.translate hx) hy

theorem translateRange {v : View} {va len : Nat} {acc : Acc} {ps : List Span} (h : canonical s)
    (hr : translateRange s v va len acc = .ok (ps, t)) : canonical t := by
  unfold Machine.translateRange at hr
  split at hr
  · cases hr
  · exact h.translateSpans hr

theorem translateCounter {v : View} {va : Word} {acc : Acc} {pa : Nat} (h : canonical s)
    (hr : translateCounter s v va acc = .ok (pa, t)) : canonical t := by
  unfold Machine.translateCounter at hr
  split at hr
  · cases hr
  · split at hr
    · cases hr
    · next hx =>
      cases hr
      exact h.translate hx

theorem readSpans {ps : List Span} (h : canonical s) : canonical (readSpans s ps).2 := by
  induction ps generalizing s with
  | nil => exact h
  | cons p ps ih => exact ih h.readAt

theorem writeSpans {w : Writer} {ps : List Span} {bs : List Byte} (h : canonical s) : canonical (writeSpans s w ps bs) := by
  induction ps generalizing s bs with
  | nil => exact h
  | cons p ps ih => exact ih h.storeAt

theorem readVia {v : View} {va len : Nat} {bs : List Byte} (h : canonical s) (hr : readVia s v va len = .ok (bs, t)) :
    canonical t := by
  unfold Machine.readVia at hr
  split at hr
  · cases hr
  · next hx =>
    split at hr
    · cases hr
    · simp only [Except.ok.injEq] at hr
      exact (h.translateRange hx).readSpans.snd hr

theorem writeVia {v : View} {w : Writer} {va : Nat} {bs : List Byte} (h : canonical s) (hr : writeVia s v w va bs = .ok t) :
    canonical t := by
  unfold Machine.writeVia at hr
  split at hr
  · cases hr
  · next hx =>
    cases hr
    exact (h.translateRange hx).writeSpans

theorem leafFor {v : View} {va : Nat} {wr : Bool} {check : TlbEntry → Option (BitVec 8)} {e : TlbEntry} (h : canonical s)
    (hr : leafFor s v va wr check = .ok (e, t)) : canonical t := by
  have mark : ∀ {e u}, canonical u → canonical (if wr then Machine.markDirty u v e else u) := fun h => .ite h.markDirty h
  have fresh : ∀ {e t}, (match Machine.walkInstall s v va with
      | none => Except.error (0x04 : BitVec 8)
      | some (e, u) => match check e with
        | some c => Except.error c
        | none => Except.ok (e, if wr then Machine.markDirty u v e else u)) = .ok (e, t) → canonical t := by
    intro e t hr
    split at hr
    · cases hr
    · next hw =>
      split at hr
      · cases hr
      · cases hr
        exact mark (h.walkInstall hw)
  unfold Machine.leafFor at hr
  dsimp only at hr
  split at hr
  · cases hr
  · split at hr
    · split at hr
      · cases hr
        exact mark h
      · exact fresh hr
    · exact fresh hr

/-! ### Images moved to save areas -/

theorem placeInArea {r : Region} {vault : Bool} {bs : List Byte} {p : Place} (h : canonical s)
    (hr : placeInArea s r vault bs = some (p, t)) : canonical t := by
  unfold Machine.placeInArea at hr
  dsimp only at hr
  split at hr
  · cases hr
  · split at hr
    · next hx =>
      cases hr
      exact h.writeVia hx
    · cases hr

theorem moveImage {v : Saved} (h : canonical s) (hr : moveImage s v = some t) : canonical t := by
  unfold Machine.moveImage at hr
  split at hr
  · cases hr
    exact h
  · rw [Option.map_eq_some_iff] at hr
    obtain ⟨⟨p, u⟩, hp, rfl⟩ := hr
    have hu : canonical u := by
      split at hp
      · next hx =>
        cases hp
        exact h.placeInArea hx
      · exact h.placeInArea hp
    exact .same hu

/-- A step that may fail, taken for every element of a list. -/
theorem foldl_bind {α : Type} {f : State → α → Option State} {l : List α} (h : canonical s)
    (hf : ∀ {s a t}, canonical s → f s a = some t → canonical t)
    (hr : l.foldl (fun (o : Option State) a => o.bind (f · a)) (some s) = some t) : canonical t := by
  induction l generalizing s with
  | nil => cases hr; exact h
  | cons a l ih =>
    rw [List.foldl_cons, Option.bind_some] at hr
    cases ha : f s a with
    | none =>
      rw [ha] at hr
      have hn : l.foldl (fun (o : Option State) a => o.bind (f · a)) none = none := by
        clear ih hr
        induction l with
        | nil => rfl
        | cons b l ih => exact ih
      rw [hn] at hr
      cases hr
    | some u =>
      rw [ha] at hr
      exact ih (hf h ha) hr

theorem moveImages {k : Nat} {reserve : Bool} (h : canonical s) (hr : moveImages s k reserve = some t) : canonical t :=
  h.foldl_bind (fun h => h.moveImage) hr

theorem roomFor {k bank : Nat} (h : canonical s) (hr : roomFor s k bank = some t) : canonical t := by
  unfold Machine.roomFor at hr
  split at hr
  · cases hr
    exact h
  · split at hr
    · exact h.moveImages hr
    · cases hr

end canonical
end Sys2Proof

/-! SUPPORT. The canonical form through faults, traps, the ends of tasks, and what stops a slot's part of a bundle. -/

namespace Sys2Proof

open Machine

/-! ### Registers of a context -/

theorem filesCanonical.putReg {x : Ctx} {file idx : Nat} {v : VecReg} (h : filesCanonical x) :
    filesCanonical (x.putReg file idx v) := by
  obtain ⟨ha, hb, hv, hw, hp, hk, hx, hy⟩ := h
  unfold Ctx.putReg
  split
  · exact ⟨Map.wf_set ha _ _, hb, hv, hw, hp, hk, hx, hy⟩
  · exact ⟨ha, Map.wf_set hb _ _, hv, hw, hp, hk, hx, hy⟩
  · exact ⟨ha, hb, Map.wf_set hv _ _, hw, hp, hk, hx, hy⟩
  · exact ⟨ha, hb, hv, Map.wf_set hw _ _, hp, hk, hx, hy⟩
  · exact ⟨ha, hb, hv, hw, Map.wf_set hp _ _, hk, hx, hy⟩
  · exact ⟨ha, hb, hv, hw, hp, Map.wf_set hk _ _, hx, hy⟩
  · exact ⟨ha, hb, hv, hw, hp, hk, Map.wf_set hx _ _, hy⟩
  · exact ⟨ha, hb, hv, hw, hp, hk, hx, Map.wf_set hy _ _⟩
  · exact ⟨ha, hb, hv, hw, hp, hk, hx, hy⟩

theorem filesCanonical.writeReg {x : Ctx} {seq file idx : Nat} {v : VecReg} {err : Bool} {tag : Option (BitVec 8 × Word)} {var : Bool}
    (h : filesCanonical x) : filesCanonical (x.writeReg seq file idx v err tag var) := by
  unfold Ctx.writeReg
  split
  · exact h
  · exact h.putReg

theorem filesCanonical.writeRegs {x : Ctx} {seq : Nat} {tag : Option (BitVec 8 × Word)} {dests : List (Nat × Nat)} {vs : List VecReg}
    (h : filesCanonical x) : filesCanonical (x.writeRegs seq tag dests vs) := by
  induction dests generalizing x vs with
  | nil => exact h
  | cons d dests ih =>
    cases vs with
    | nil => exact h
    | cons v vs => exact ih h.writeReg

/-- A map that is set key by key from the empty one is canonical. -/
theorem Map.wf_foldl_set {α β : Type} [DecidableEq α] {d : α} {f : β → Nat × α} {l : List β} {m : Map α} (h : Map.wf d m = true) :
    Map.wf d (l.foldl (fun m b => Map.set d m (f b).1 (f b).2) m) = true := by
  induction l generalizing m with
  | nil => exact h
  | cons b l ih => exact ih (Map.wf_set h _ _)

theorem filesCanonical_handlerCtx {x : Ctx} {tid : Nat} {r : Region} {task : TaskKind} {priv : Bool} {pc : Word} {args : List Word} :
    filesCanonical (handlerCtx x tid r task priv pc args) :=
  ⟨Map.wf_foldl_set (f := fun p : Word × Nat => (p.2, p.1)) rfl, rfl, rfl, rfl, rfl, rfl, rfl, rfl⟩

theorem canonical.addVia {s : State} {v : View} {w : Machine.Writer} {va : Word} {amount : Nat} {err : Option (BitVec 8)}
    {rel : Option (BitVec 16 × BitVec 16)} {t : State} (h : canonical s) (hr : addVia s v w va amount err rel = .ok t) :
    canonical t := by
  unfold Machine.addVia at hr
  split at hr
  · cases hr
  · next hx =>
    split at hr
    · next hy =>
      cases hr
      exact (h.translateCounter hx).counterAdd hy
    · cases hr

theorem canonical.counterAt {s : State} {v : View} {va : Word} {r r' : Nat} {t : State} (h : canonical s)
    (hr : counterAt s v va = .ok (r, r', t)) : canonical t := by
  unfold Machine.counterAt at hr
  split at hr
  · cases hr
  · next hx =>
    split at hr
    · cases hr
    · split at hr
      · next hy =>
        cases hr
        exact (h.translateCounter hx).readBytes.snd hy

theorem canonical.counterVia {s : State} {v : View} {va : Word} {r : Nat} {t : State} (h : canonical s)
    (hr : counterVia s v va = .ok (r, t)) : canonical t := by
  unfold Machine.counterVia at hr
  split at hr
  · cases hr
  · next hx =>
    cases hr
    exact h.counterAt hx

theorem canonical.countIfBad {s : State} {cause : BitVec 8} (h : canonical s) : canonical (countIfBad s cause) :=
  .ite h.countEvent h

theorem canonical.faultRecord {s : State} {r : Region} {kind : Nat} {cause : BitVec 8} {ctxid : Nat} {epc tval : Word}
    (h : canonical s) : canonical (faultRecord s r kind cause ctxid epc tval) := by
  unfold Machine.faultRecord
  dsimp only
  split
  · next hx =>
    refine .addVia ?_ hx
    split
    · exact h.countEvent
    · next hy =>
      split
      · exact (h.counterVia hy).countEvent
      · split
        · next hz => exact (h.counterVia hy).writeVia hz
        · exact (h.counterVia hy).countEvent
  · refine .confirmWalk (.countIfBad ?_)
    split
    · exact h.countEvent
    · next hy =>
      split
      · exact (h.counterVia hy).countEvent
      · split
        · next hz => exact (h.counterVia hy).writeVia hz
        · exact (h.counterVia hy).countEvent

theorem canonical.packageAddIn {s : State} {v : View} {r : Region} {va : Word} {amount : Nat} {err : Option (BitVec 8)}
    {rel : Option (BitVec 16 × BitVec 16)} (h : canonical s) : canonical (packageAddIn s v r va amount err rel) := by
  unfold Machine.packageAddIn
  split
  · next hx => exact h.addVia hx
  · exact h.countIfBad.confirmWalk.faultRecord

theorem canonical.packageAdd {s : State} {r : Region} {va : Word} {amount : Nat} {err : Option (BitVec 8)}
    {rel : Option (BitVec 16 × BitVec 16)} (h : canonical s) : canonical (packageAdd s r va amount err rel) :=
  h.packageAddIn

theorem canonical.outsideTrap {s : State} {tid : Nat} {r : Region} {kind : Nat} {cause : BitVec 8} {tval : Word}
    (h : canonical s) : canonical (outsideTrap s tid r kind cause tval) := by
  unfold Machine.outsideTrap
  split
  · exact h.updCtx' fun _ h => h
  · exact .ite (.same h) h.faultRecord

theorem canonical.deliverHits {s : State} {c : Nat} (h : canonical s) : canonical (deliverHits s c) :=
  .updCtx' (.same h) fun _ h => h

theorem canonical.retireInSet {s : State} {id : Nat} {fault : Option (BitVec 8)} {rel : Option (BitVec 16 × BitVec 16)}
    (h : canonical s) : canonical (retireInSet s id fault rel) := by
  unfold Machine.retireInSet
  split
  · exact h
  · exact .ite (.same h) (.ite (.same h) (.packageAdd (.same h)))

theorem canonical.leaveWindow {s : State} {core : Nat} {task : TaskKind} (h : canonical s) :
    canonical (leaveWindow s core task) := by
  unfold Machine.leaveWindow
  split
  · exact h.updCluster
  · exact h

theorem canonical.leaveInbox {s : State} {c : Nat} (h : canonical s) : canonical (leaveInbox s c) :=
  h.foldl fun _ _ h => .ite h.updCore h

theorem canonical.faultTask {s : State} {core : Nat} {task : TaskKind} {r : Region} {kind : Nat} {cause : BitVec 8}
    {ctxid : Nat} {epc tval : Word} (h : canonical s) : canonical (faultTask s core task r kind cause ctxid epc tval) := by
  unfold Machine.faultTask
  dsimp only
  split
  · exact h.faultRecord.retireInSet
  · exact .ite h.faultRecord h.faultRecord.packageAdd
  · exact h.faultRecord.updCore
  · exact h.faultRecord

theorem canonical.readyPending {s : State} {c seq : Nat} {vals : List VecReg} {tag : Option (BitVec 8 × Word)}
    (h : canonical s) : canonical (readyPending s c seq vals tag) :=
  h.updCtx' fun _ h => h

theorem canonical.landPending {s : State} {c seq : Nat} (h : canonical s) : canonical (landPending s c seq) := by
  unfold Machine.landPending
  refine h.updCtx' fun x hx => ?_
  split
  · exact hx
  · exact filesCanonical.writeRegs (x := { x with pending := _ }) hx

theorem canonical.freeTiles {s : State} {k : Nat} {mask : BitVec 8} (h : canonical s) : canonical (freeTiles s k mask) :=
  .ite h h.updCore

theorem canonical.unwait {s : State} {c : Nat} (h : canonical s) : canonical (unwait s c) :=
  h.updCore.updCtx' fun _ h => h

theorem canonical.waitOn {s : State} {e : MonEntry} (h : canonical s) : canonical (waitOn s e) :=
  h.updCore.updCtx' fun _ h => h

theorem canonical.waitRetry {s : State} {c : Nat} {w : Wait} (h : canonical s) : canonical (waitRetry s c w) :=
  h.updCtx' fun _ h => h

theorem canonical.wake {s : State} {c : Nat} (h : canonical s) : canonical (wake s c) :=
  h.unwait.updCtx' fun _ h => h

theorem canonical.startTrapHandler {s : State} {c : Nat} (h : canonical s) : canonical (startTrapHandler s c) := by
  unfold Machine.startTrapHandler
  dsimp only
  split
  · next hx =>
    split
    · exact h
    · exact .same ((h.roomFor hx).updCtx' fun _ _ => filesCanonical_handlerCtx)
  · exact h

theorem canonical.startNeeded {s : State} {k : Nat} (h : canonical s) : canonical (startNeeded s k) :=
  h.foldl fun _ _ h => .ite h.startTrapHandler h

theorem canonical.loosen {s : State} {c : Nat} (h : canonical s) : canonical (loosen s c) :=
  .ite h (.same h)

theorem canonical.becomeDormant {s : State} {c : Nat} (h : canonical s) : canonical (becomeDormant s c) :=
  .startNeeded (.updCtx' h.deliverHits.unwait.leaveInbox.loosen.leaveWindow.freeTiles.updCore fun _ _ => filesCanonical_default)

theorem canonical.faultContext {s : State} {c kind : Nat} {cause : BitVec 8} (h : canonical s) :
    canonical (faultContext s c kind cause) :=
  h.faultTask.becomeDormant

theorem canonical.dropHeldTiles {s : State} {k id tid : Nat} (h : canonical s) : canonical (dropHeldTiles s k id tid) := by
  unfold Machine.dropHeldTiles
  split
  · exact h
  · exact h.freeTiles.updCore

theorem canonical.faultSaved {s : State} {v : Saved} {kind : Nat} {cause : BitVec 8} (h : canonical s) :
    canonical (faultSaved s v kind cause) :=
  .dropHeldTiles (.leaveWindow (.faultTask (.same h)))

theorem canonical.takeTrap {s : State} {c : Nat} {cause : BitVec 8} {tval epc : Word} (h : canonical s) :
    canonical (takeTrap s c cause tval epc) := by
  unfold Machine.takeTrap
  dsimp only
  have hs : canonical (if s.shutter.causes.contains cause then Machine.fireShutter s .cause 0 none else s) := .ite h.fireShutter h
  generalize (if s.shutter.causes.contains cause then Machine.fireShutter s .cause 0 none else s) = s at hs
  split
  · exact (hs.unwait.leaveInbox.updCtx' fun _ h => by exact h).faultContext.faultContext
  · refine .faultContext ?_
    split
    · exact (hs.unwait.leaveInbox.updCtx' fun _ h => by exact h).faultSaved
    · exact hs.unwait.leaveInbox.updCtx' fun _ h => h
  · exact .ite (hs.unwait.leaveInbox.updCtx' fun _ h => by exact h).faultContext
      (hs.unwait.leaveInbox.updCtx' fun _ h => by exact h).startTrapHandler

theorem canonical.replayHeld {s : State} {c : Nat} (h : canonical s) : canonical (replayHeld s c) :=
  h.updCore

theorem canonical.resume {s : State} {f : Nat} {dst : Option Word} (h : canonical s) : canonical (resume s f dst) := by
  unfold Machine.resume
  split
  · exact h
  · refine .updCtx' (.ite h.replayHeld h) fun _ h => ?_
    split
    · exact h
    · exact h

theorem canonical.patchImage {s : State} {id off : Nat} {bs : List Byte} (h : canonical s) :
    canonical (patchImage s id off bs) := by
  unfold Machine.patchImage
  split
  · exact h
  · split
    · exact .same h
    · split
      · next hx => exact h.writeVia hx
      · exact h

theorem canonical.eretSaved {s : State} {id : Nat} {dst : Option Word} (h : canonical s) : canonical (eretSaved s id dst) := by
  unfold Machine.eretSaved
  dsimp only
  split
  · exact .same h.patchImage
  · exact .same h.patchImage.patchImage.patchImage.patchImage.patchImage

theorem canonical.eretFrom {s : State} {h' : Nat} {dst : Option Word} (h : canonical s) : canonical (eretFrom s h' dst) := by
  unfold Machine.eretFrom
  split
  · exact h.resume.becomeDormant
  · exact h.eretSaved.becomeDormant
  · exact h

theorem canonical.takeFpTrap {s : State} {c flags : Nat} {epc : Word} (h : canonical s) : canonical (takeFpTrap s c flags epc) :=
  (h.updCtx' fun _ h => by exact h).takeTrap

theorem canonical.stopped {s : State} {st : Stop} (h : canonical s) (hst : ∀ t, st = .held t → canonical t) :
    canonical (stopped s st) := by
  cases st with
  | trap enc cause tval => exact .same h.confirmWalk.takeTrap
  | fp flags rctr => exact .same h.takeFpTrap
  | held t => exact .same (hst t rfl)

theorem canonical.runSlot {m : M Unit} {s t : State} (h : canonical s) (hm : Keeps m) (hr : runSlot m s = .next t) : canonical t := by
  unfold Machine.runSlot at hr
  split at hr
  · next hx =>
    cases hr
    exact ((hm s h).1 _ _ hx).1
  · next hx =>
    cases hr
    exact h.stopped fun u hu => (hm s h).2 u (hu ▸ hx)

theorem keeps_readReg {file idx : Nat} : Keeps (readReg file idx) := by
  unfold Machine.readReg
  refine keeps_curCtx.bind fun _ _ => ?_
  split
  · exact keeps_condTrap
  · exact keeps_pure

theorem keeps_readScalar {file idx : Nat} : Keeps (readScalar file idx) :=
  keeps_readReg.bind fun _ _ => keeps_pure

theorem keeps_readK {i : BitVec 5} : Keeps (readK i) :=
  keeps_readScalar

theorem keeps_readP {i : BitVec 5} : Keeps (readP i) :=
  keeps_readScalar

theorem keeps_readHead {q : BitVec 3} : Keeps (readHead q) := by
  unfold Machine.readHead
  refine keeps_get.bind fun w hs => ?_
  dsimp only
  split
  · exact keeps_illegal
  · exact keeps_held hs
  · split
    · exact keeps_condTrap
    · exact .ite keeps_condTrap keeps_pure

theorem keeps_landAt {file idx : Nat} {v : VecReg} {lat : Nat} : Keeps (landAt file idx v lat) :=
  keeps_modify fun _ h => h.updCtx' fun _ h => h

theorem keeps_act {a : EndAct} : Keeps (act a) :=
  keeps_modify fun _ h => .same h

theorem keeps_pendResult {dests : List (Nat × Nat)} {vals : Option (List VecReg × Option (BitVec 8 × Word))}
    {lines : optParam Nat 0} : Keeps (pendResult dests vals lines) :=
  keeps_modify fun _ h => h.updCtx' fun _ h => h

end Sys2Proof

/-! SUPPORT. The canonical form through the forms of the S and L slots: reads, landings, loads and stores, matrix and transfers. -/

namespace Sys2Proof

open Machine

/-- `Keeps.bind` where nothing is known of what the first part gives. -/
theorem Keeps.then {α β : Type} {Q : β → Prop} {m : M α} {f : α → M β} (hm : Keeps m) (hf : ∀ v, Keeps (f v) Q) : Keeps (m >>= f) Q :=
  hm.bind fun v _ => hf v

theorem keeps_notReady {α : Type} {P : α → Prop} : Keeps (notReady : M α) P := keeps_get.bind fun _ hs => keeps_held hs

theorem canonical.timeLoad {s : State} {c pa : Nat} (h : canonical s) : canonical (timeLoad s c pa) := .same (h.updCtx' fun _ h => h)

theorem canonical.timeStore {s : State} {c pa : Nat} (h : canonical s) : canonical (timeStore s c pa) := .same (h.updCtx' fun _ h => h)

theorem canonical.timeSpans {move : State → Nat → Nat → State} {s : State} {c : Nat} {ps : List Span} (h : canonical s)
    (hm : ∀ {s c pa}, canonical s → canonical (move s c pa)) : canonical (timeSpans move s c ps) :=
  h.foldl fun _ _ h => hm h

theorem canonical.transRanges {v : View} {acc : Acc} {align : Nat} {rs : List (Nat × Nat)} {s t : State} {ps : List Span}
    (h : canonical s) (hr : transRanges v acc align rs s = .ok (ps, t)) : canonical t := by
  induction rs generalizing s ps with
  | nil => cases hr; exact h
  | cons r rs ih =>
    unfold Machine.transRanges at hr
    split at hr
    · cases hr
    · split at hr
      · cases hr
      · next hx =>
        split at hr
        · cases hr
        · next hy =>
          cases hr
          exact ih (h.translateRange hx) hy

theorem keeps_headerImm : Keeps headerImm :=
  keeps_get.bind fun _ _ => .ite keeps_illegalWord keeps_pure

theorem keeps_readS {slot : SSlot} {n : SOpnd} : Keeps (readS slot n) := by
  unfold Machine.readS
  split
  · exact keeps_readScalar
  · exact keeps_readHead.bind fun _ _ => keeps_pure
  · exact keeps_pure
  · exact keeps_headerImm.bind fun _ _ => keeps_pure
  · exact keeps_headerImm.bind fun _ _ => keeps_pure
  · exact keeps_headerImm.bind fun _ _ => keeps_pure

theorem keeps_readDst {slot : SSlot} {i : BitVec 6} : Keeps (readDst slot i) :=
  keeps_readScalar

theorem keeps_landS {slot : SSlot} {dst : BitVec 6} {v : Word} {lat : Nat} : Keeps (landS slot dst v lat) :=
  keeps_landAt

theorem keeps_landG {g : Nat} {b : Bool} {lat : Nat} : Keeps (landG g b lat) :=
  keeps_landAt

theorem keeps_vecIndex {i : Nat} : Keeps (vecIndex i) :=
  keeps_curCtx.bind fun _ _ => keeps_needWord

theorem keeps_readV {slot : VSlot} {ty : ElemTy} {n : VOpnd} : Keeps (readV slot ty n) := by
  unfold Machine.readV
  split
  · exact keeps_vecIndex.bind fun _ _ => keeps_readReg
  · exact keeps_readHead
  · refine keeps_get.bind fun _ _ => ?_
    split
    · exact keeps_pure
    · exact keeps_illegalWord
  · exact keeps_headerImm.bind fun _ _ => keeps_pure

theorem keeps_readMask {slot : VSlot} {i : BitVec 3} : Keeps (readMask slot i) :=
  keeps_readReg.bind fun _ _ => keeps_pure

theorem keeps_readActive {slot : VSlot} {m : Option (BitVec 3)} : Keeps (readActive slot m) := by
  unfold Machine.readActive
  split
  · exact keeps_pure
  · exact keeps_readMask.bind fun _ _ => keeps_pure

theorem keeps_readSelector {slot : VSlot} {m : Option (BitVec 3)} : Keeps (readSelector slot m) := by
  unfold Machine.readSelector
  split
  · exact keeps_illegalWord
  · exact keeps_readActive

theorem keeps_landV {slot : VSlot} {dst : BitVec 10} {v : VecReg} {lat : Nat} : Keeps (landV slot dst v lat) :=
  keeps_vecIndex.bind fun _ _ => keeps_landAt

theorem keeps_landLanes {slot : VSlot} {w : Nat} {m : Option (BitVec 3)} {active : Nat → Bool} {dst : BitVec 10}
    {l : List Nat} {lat : Nat} : Keeps (landLanes slot w m active dst l lat) := by
  unfold Machine.landLanes
  refine keeps_vecIndex.bind fun _ _ => ?_
  split
  · exact keeps_landAt
  · exact keeps_readReg.bind fun _ _ => keeps_landAt

theorem keeps_templateAdd : Keeps templateAdd :=
  keeps_get.bind fun _ _ => .ite keeps_pure keeps_pure

theorem keeps_eaOff {base : BitVec 5} {off : Int} : Keeps (eaOff base off) :=
  keeps_readP.bind fun _ _ => keeps_templateAdd.bind fun _ _ => keeps_pure

theorem keeps_eaOf {base : BitVec 5} {n : LAddr} : Keeps (eaOf base n) := by
  unfold Machine.eaOf
  split
  · exact keeps_eaOff
  · exact keeps_readP.bind fun _ _ => keeps_readP.bind fun _ _ => keeps_templateAdd.bind fun _ _ => keeps_pure

theorem keeps_draw {n : Nat} : Keeps (draw n) :=
  keeps_curCtx.bind fun _ _ => .bind (keeps_modCtx fun _ h => h) fun _ _ => keeps_pure

theorem keeps_drawIf {b : Bool} {n : Nat} : Keeps (drawIf b n) :=
  .ite keeps_draw keeps_pure

theorem keeps_mergeFlags {fl : Nat} : Keeps (mergeFlags fl) :=
  keeps_curCtx.bind fun _ _ => .ite keeps_fp (.ite keeps_pure (keeps_modCtx fun _ h => h))

theorem keeps_landF {t : SFmt} {slot : SSlot} {dst : BitVec 6} {lat : Nat} {r : RMode → FRes} : Keeps
    (landF t slot dst lat r) :=
  keeps_curCtx.bind fun _ _ => keeps_drawIf.bind fun _ _ => keeps_mergeFlags.bind fun _ _ => keeps_landS

theorem keeps_readOld {slot : VSlot} {m : Option (BitVec 3)} {dst : BitVec 10} : Keeps (readOld slot m dst) :=
  keeps_vecIndex.bind fun _ _ => .ite (keeps_readReg.bind fun _ _ => keeps_pure) keeps_pure

theorem keeps_landVF {slot : VSlot} {ty : ElemTy} {m : Option (BitVec 3)} {rnd : VRnd} {dst : BitVec 10} {lat : Nat}
    {r : RMode → Nat → FRes} : Keeps (landVF slot ty m rnd dst lat r) :=
  keeps_curCtx.bind fun _ _ => keeps_readActive.bind fun _ _ => keeps_drawIf.bind fun _ _ => keeps_readOld.bind fun _ _ =>
    keeps_mergeFlags.bind fun _ _ => keeps_landLanes

theorem keeps_landVX {slot : VSlot} {ty : ElemTy} {m : Option (BitVec 3)} {dst : BitVec 10} {lat : Nat} {r : Nat → Nat × Nat} :
    Keeps (landVX slot ty m dst lat r) :=
  keeps_readActive.bind fun _ _ => keeps_readOld.bind fun _ _ => keeps_mergeFlags.bind fun _ _ => keeps_landLanes

theorem canonical.raceLog {s : State} {c : Nat} {r : Region} {sector : Word} {w i : BitVec 16} {conflict store : Bool}
    (h : canonical s) : canonical (raceLog s c r sector w i conflict store) := by
  unfold Machine.raceLog
  dsimp only
  split
  · exact h.countEvent
  · split
    · next hx => exact .same (h.writeVia hx)
    · exact h.countEvent

theorem canonical.raceSector {s : State} {x : Issuer} {store : Bool} {sector va : Nat} (h : canonical s) :
    canonical (raceSector s x store sector va) := by
  unfold Machine.raceSector
  dsimp only
  split
  · exact h
  · split
    · exact h.raceLog
    · exact .ite h (.ite h.raceLog h.outsideTrap)

theorem canonical.raceCheck {s : State} {x : Issuer} {store : Bool} {p : Span} (h : canonical s) :
    canonical (raceCheck s x store p) :=
  .ite h (h.foldl fun _ _ h => h.raceSector)

theorem canonical.acquireSide {s : State} {c : Nat} {side : Word} {scope : Nat} (h : canonical s) :
    canonical (acquireSide s c side scope) :=
  .ite h (h.updCtx' fun _ h => h)

theorem keeps_advanceInterval : Keeps advanceInterval :=
  .bind (keeps_modCtx fun _ h => h) fun _ _ => keeps_curCtx.bind fun _ _ => keeps_pure

theorem keeps_needRequests {n : Nat} : Keeps (needRequests n) :=
  keeps_get.bind fun _ _ => .ite keeps_notReady keeps_pure

theorem keeps_accessSpans {acc : Machine.Acc} {align : Nat} {rs : List (Nat × Nat)} : Keeps (accessSpans acc align rs) := by
  unfold Machine.accessSpans
  refine keeps_get.bind fun t ht => ?_
  split
  · exact keeps_notReady
  · exact (keeps_liftTrap fun _ hx => ht.transRanges hx).bind fun v hr => .ite keeps_notReady ((keeps_set hr).bind fun _ _ =>
      keeps_pure)

theorem canonical.readFor {s : State} {x : Issuer} {race : Bool} {ps : List Span} (h : canonical s) :
    canonical (readFor s x race ps).2 :=
  .readSpans (.timeSpans (.ite (h.foldl fun _ _ h => h.raceCheck) h) fun h => h.timeLoad)

theorem canonical.readPiece {x : Issuer} {acc : (VecReg × Option (Nat × BitVec 8 × Word)) × State} {q : LoadPiece}
    (h : canonical acc.2) : canonical (Machine.readPiece x acc q).2 := by
  unfold Machine.readPiece
  split
  dsimp only
  exact .readFor h

theorem keeps_loadBytes {race : Bool} {align : Nat} {rs : List (Nat × Nat)} : Keeps (loadBytes race align rs) :=
  keeps_accessSpans.bind fun _ _ => keeps_get.bind fun t ht => (keeps_set ht.readFor).bind fun _ _ => keeps_pure

theorem keeps_loadStrict {race : Bool} {align va len : Nat} : Keeps (loadStrict race align va len) := by
  unfold Machine.loadStrict
  refine keeps_loadBytes.bind fun _ _ => ?_
  split
  · split
    · exact keeps_condTrap
    · exact keeps_pure

theorem keeps_deliverLoad {own : Bool} {file idx : Nat} {v : VecReg} {tag : Option (BitVec 8 × Word)} : Keeps
    (deliverLoad own file idx v tag) :=
  .ite (keeps_modify fun _ h => h.updCtx' fun _ h => h) keeps_pendResult

theorem keeps_loadInto {align : Nat} {rs : List (Nat × Nat)} {place : Nat → Nat} {rep : Option Word} {old : VecReg} {file idx : Nat} :
    Keeps (loadInto align rs place rep old file idx) := by
  unfold Machine.loadInto
  refine keeps_accessSpans.bind fun ps _ => keeps_get.bind fun s hs => ?_
  have hload : canonical ((loadPieces place rep 0 ps).foldl (Machine.readPiece (s.issuerOf s.issue.ctx)) ((old, none), s)).2 :=
    hs.foldl_snd fun _ _ _ h => .readPiece h
  refine .ite ?_ (keeps_needRequests.bind fun _ _ => keeps_pendResult.bind fun _ _ => keeps_modify fun _ h => h.updCtx' fun _ h => h)
  extract_lets own rest
  have hrest : ∀ u, Keeps (rest u) := fun _ => (keeps_set hload).bind fun _ _ => keeps_deliverLoad
  clear_value rest
  exact .ite (hrest _) (keeps_needRequests.bind fun _ _ => hrest _)

theorem keeps_storeRanges {align : Nat} {rs : List (Nat × Nat)} {bs : List Byte} : Keeps (storeRanges align rs bs) :=
  keeps_accessSpans.bind fun _ _ => keeps_needRequests.bind fun _ _ => keeps_modify fun _ h =>
    .ite (h.writeSpans.timeSpans fun h => h.timeStore) (.ite h (h.updCtx' fun _ h => by exact h).updCore)

theorem canonical.shadowRoom {s : State} {line : Nat} (h : canonical s) : canonical (shadowRoom s line) := by
  unfold Machine.shadowRoom
  dsimp only
  split
  · exact .same h
  · split
    · exact .countEvent (.same h.flushShadows)
    · exact h

theorem canonical.shadowAdd {s : State} {ty : ElemTy} {pa x : Nat} (h : canonical s) : canonical (shadowAdd s ty pa x).1 :=
  .same (.ite h.shadowRoom h.shadowRoom.flushShadows)

theorem canonical.atomApply {s : State} {w : Machine.Writer} {op : AtomOp} {ty : ElemTy} {pa x y : Nat} (h : canonical s) :
    canonical (atomApply s w op ty pa x y).1 := by
  unfold Machine.atomApply
  split
  · split
    · next hx =>
      split
      · next hy =>
        dsimp only
        split
        · exact (h.shadowAdd.fst hx).watchCheck
        · exact (h.readAt.snd hy).storeAt
  · split
    · next hx =>
      split
      · next hy =>
        dsimp only
        split
        · exact (h.shadowAdd.fst hx).watchCheck
        · exact (h.readAt.snd hy).storeAt

theorem keeps_headOf {q : BitVec 3} : Keeps (headOf q) :=
  keeps_curCtx.bind fun _ _ => keeps_pure

theorem canonical.execWset {q : BitVec 3} {mem : Bool} {setNo rec_ base : BitVec 5} {s t : State} (h : canonical s)
    (hr : execWset q mem setNo rec_ base s = .next t) : canonical t := by
  refine h.runSlot (keeps_headOf.bind fun _ _ => keeps_needLegal.bind fun _ _ => keeps_get.bind fun _ _ => keeps_readP.bind fun _ _ =>
    keeps_templateAdd.bind fun _ _ => ?_) hr
  extract_lets pl withAddr
  have hwith : ∀ addr, Keeps (withAddr addr) := fun addr => by
    unfold withAddr
    extract_lets withParams
    have hwith : ∀ params, Keeps (withParams params) := fun _ => keeps_need.bind fun _ _ => keeps_act
    clear_value withParams
    refine .ite (keeps_needRequests.bind fun _ _ => keeps_loadStrict.bind fun _ _ => ?_) 
      (keeps_needLegal.bind fun _ _ => ?_)
    · split
      · exact hwith _
      · exact (keeps_illegal (P := fun _ => True)).bind fun _ _ => hwith _
    · split
      · exact hwith _
      · exact (keeps_illegal (P := fun _ => True)).bind fun _ _ => hwith _
  clear_value withAddr
  exact .ite (keeps_readP.bind fun _ _ => hwith _) (hwith _)

theorem keeps_walkLength {h : Head} : Keeps (walkLength h) := by
  unfold Machine.walkLength
  split
  · exact keeps_pure
  · refine keeps_readScalar.bind fun _ _ => .ite (keeps_get.bind fun _ _ => keeps_need.bind fun _ _ =>
      ?_) (keeps_needLegal.bind fun _ _ => keeps_pure)
    extract_lets q rest
    have hrest : ∀ u, Keeps (rest u) := fun _ => .ite keeps_pure (keeps_need.bind fun _ _ => keeps_pure)
    clear_value rest
    exact .ite ((keeps_notReady (P := fun _ => True)).bind fun _ _ => hrest _) (hrest _)

theorem canonical.execWstart {q : BitVec 3} {s t : State} (h : canonical s) (hr : execWstart q s = .next t) : canonical t :=
  h.runSlot (keeps_headOf.bind fun _ _ => keeps_needLegal.bind fun _ _ => keeps_walkLength.bind fun _ _ => keeps_act) hr

theorem canonical.execWstop {drain : Bool} {q : BitVec 3} {s t : State} (h : canonical s)
    (hr : execWstop drain q s = .next t) : canonical t :=
  h.runSlot keeps_act hr

theorem canonical.execWstat {dst : RegRef} {q : BitVec 3} {s t : State} (h : canonical s)
    (hr : execWstat dst q s = .next t) : canonical t :=
  h.runSlot (keeps_headOf.bind fun _ _ => keeps_act) hr

theorem canonical.execLatheFetch {c q : Nat} {s t : State} (h : canonical s) (hr : execLatheFetch c q s = .next t) :
    canonical t := by
  unfold Machine.execLatheFetch at hr
  dsimp only at hr
  split at hr
  · cases hr
    exact h
  · split at hr
    · cases hr
      exact h.confirmWalk.updCtx' fun _ h => h
    · next hx =>
      split at hr
      · cases hr
        exact (h.translateRange hx).updCtx' fun _ h => h
      · cases hr
        exact (h.translateRange hx).readSpans.updCtx' fun _ h => h

theorem keeps_ownTile {t : Nat} : Keeps (ownTile t) :=
  keeps_curCtx.bind fun _ _ => keeps_needWord

theorem keeps_ownPair {t : Nat} : Keeps (ownPair t) :=
  keeps_ownTile.bind fun _ _ => keeps_ownTile

theorem keeps_ownRegs {reg n : Nat} : Keeps (ownRegs reg n) :=
  keeps_vecIndex

theorem keeps_curCore : Keeps curCore :=
  keeps_get.bind fun _ _ => keeps_pure

theorem keeps_engineRoom {e : TSlot} : Keeps (engineRoom e) :=
  keeps_curCore.bind fun _ _ => .ite keeps_notReady keeps_pure

theorem keeps_issueT {e : TSlot} {kind : TKind} : Keeps (issueT e kind) :=
  keeps_modify fun _ h => h.updCore

theorem keeps_readDesc {e : TSlot} {d : BitVec 3} : Keeps (readDesc e d) :=
  keeps_curCtx.bind fun _ _ => keeps_pure

theorem keeps_issueAffine {t : Nat} {on : Bool} : Keeps (issueAffine t on) :=
  keeps_modify fun _ h => h.updCore

theorem canonical.execTcfg {e : TSlot} {dA dB : BitVec 3} {s t : State} (h : canonical s)
    (hr : execTcfg e dA dB s = .next t) : canonical t :=
  h.runSlot (keeps_engineRoom.bind fun _ _ => keeps_readDesc.bind fun _ _ => keeps_readDesc.bind fun _ _ =>
    keeps_needLegal.bind fun _ _ => keeps_issueT) hr

theorem canonical.execTdrain {e : TSlot} {_dA : BitVec 3} {s t : State} (h : canonical s)
    (hr : execTdrain e _dA s = .next t) : canonical t :=
  h.runSlot (keeps_engineRoom.bind fun _ _ => keeps_get.bind fun _ _ => keeps_curCore.bind fun _ _ =>
    .ite keeps_notReady keeps_pure) hr

theorem canonical.execTzero {e : TSlot} {t : BitVec 2} {s u : State} (h : canonical s)
    (hr : execTzero e t s = .next u) : canonical u :=
  h.runSlot (keeps_ownTile.bind fun _ _ => keeps_engineRoom.bind fun _ _ => keeps_issueT.bind fun _ _ => keeps_issueAffine) hr

theorem canonical.execTmma {adv : Bool} {e : TSlot} {t : BitVec 2} {dA dB : BitVec 3} {k : BitVec 33} {s u : State}
    (h : canonical s) (hr : execTmma adv e t dA dB k s = .next u) : canonical u :=
  h.runSlot (keeps_ownTile.bind fun _ _ => keeps_engineRoom.bind fun _ _ => keeps_readDesc.bind fun _ _ =>
    keeps_readDesc.bind fun _ _ => keeps_curCtx.bind fun _ _ => keeps_curCore.bind fun _ _ => keeps_needLegal.bind fun _ _ =>
    keeps_needLegal.bind fun _ _ => keeps_need.bind fun _ _ => keeps_issueT.bind fun _ _ => .ite (keeps_act.bind fun _ _ =>
    keeps_act) keeps_pure) hr

theorem canonical.execTaff {ident off : Bool} {e : TSlot} {pair : BitVec 1} {s t : State} (h : canonical s)
    (hr : execTaff ident off e pair s = .next t) : canonical t :=
  h.runSlot (keeps_ownPair.bind fun _ _ => keeps_engineRoom.bind fun _ _ => keeps_issueT.bind fun _ _ => keeps_issueAffine) hr

theorem canonical.execTscan {carry : Bool} {e : TSlot} {pair set : BitVec 1} {n : BitVec 7} {s t : State}
    (h : canonical s) (hr : execTscan carry e pair set n s = .next t) : canonical t :=
  h.runSlot (keeps_ownPair.bind fun _ _ => keeps_engineRoom.bind fun _ _ => keeps_curCore.bind fun _ _ =>
    keeps_needLegal.bind fun _ _ => keeps_issueT) hr

theorem canonical.execTcarry {op : TCarryOp} {w : Bool} {e : TSlot} {t : BitVec 2} {set : BitVec 1} {reg : BitVec 10}
    {s u : State} (h : canonical s) (hr : execTcarry op w e t set reg s = .next u) : canonical u := by
  refine h.runSlot (keeps_ownTile.bind fun _ _ => ?_) hr
  dsimp only
  split
  · exact keeps_engineRoom.bind fun _ _ => keeps_get.bind fun w hw => keeps_issueT
  · exact keeps_ownRegs.bind fun _ _ => keeps_engineRoom.bind fun _ _ => keeps_get.bind fun w hw =>
      keeps_readReg.bind fun _ _ => keeps_issueT
  · refine keeps_ownRegs.bind fun _ _ => keeps_engineRoom.bind fun _ _ => keeps_get.bind fun _ _ => ?_
    split
    · exact keeps_issueT
    · exact keeps_readReg.bind fun _ _ => keeps_issueT
    · exact keeps_readReg.bind fun _ _ => keeps_readReg.bind fun _ _ => keeps_issueT
    · exact keeps_pendResult.bind fun _ _ => keeps_issueT

theorem canonical.execTrd {retire w : Bool} {e : TSlot} {t : BitVec 2} {reg : BitVec 10} {row0 n1 : BitVec 6} {s : State}
    {u : State} (h : canonical s) (hr : execTrd retire w e t reg row0 n1 s = .next u) : canonical u :=
  h.runSlot (keeps_ownTile.bind fun _ _ => keeps_ownRegs.bind fun _ _ => keeps_engineRoom.bind fun _ _ =>
    keeps_get.bind fun _ _ => keeps_pendResult.bind fun _ _ => keeps_issueT.bind fun _ _ =>
    .ite keeps_issueAffine keeps_pure) hr

theorem keeps_readRows {file reg n : Nat} : Keeps (readRows file reg n) := by
  induction n generalizing reg with
  | zero => exact keeps_pure
  | succ n ih => exact keeps_readReg.bind fun _ _ => ih.bind fun _ _ => keeps_pure

theorem canonical.execTwr {w : Bool} {e : TSlot} {t : BitVec 2} {reg : BitVec 10} {row0 n1 : BitVec 6} {s u : State}
    (h : canonical s) (hr : execTwr w e t reg row0 n1 s = .next u) : canonical u :=
  h.runSlot (keeps_ownTile.bind fun _ _ => keeps_ownRegs.bind fun _ _ => keeps_engineRoom.bind fun _ _ =>
    keeps_readRows.bind fun _ _ => keeps_issueT) hr

theorem canonical.execTld {e : TSlot} {t : BitVec 2} {dA : BitVec 3} {s u : State} (h : canonical s)
    (hr : execTld e t dA s = .next u) : canonical u :=
  h.runSlot (keeps_ownTile.bind fun _ _ => keeps_engineRoom.bind fun _ _ => keeps_readDesc.bind fun _ _ =>
    keeps_needLegal.bind fun _ _ => keeps_issueT) hr

theorem canonical.execTst {retire : Bool} {e : TSlot} {t : BitVec 2} {dA : BitVec 3} {s u : State} (h : canonical s)
    (hr : execTst retire e t dA s = .next u) : canonical u :=
  h.runSlot (keeps_ownTile.bind fun _ _ => keeps_engineRoom.bind fun _ _ => keeps_readDesc.bind fun _ _ =>
    keeps_needLegal.bind fun _ _ => keeps_issueT.bind fun _ _ => .ite keeps_issueAffine keeps_pure) hr

theorem canonical.execTred {op : TRedOp} {cols w : Bool} {e : TSlot} {t : BitVec 2} {reg : BitVec 10} {s u : State}
    (h : canonical s) (hr : execTred op cols w e t reg s = .next u) : canonical u :=
  h.runSlot (keeps_ownTile.bind fun _ _ => keeps_ownRegs.bind fun _ _ => keeps_engineRoom.bind fun _ _ =>
    keeps_get.bind fun _ _ => keeps_pendResult.bind fun _ _ => keeps_issueT) hr

theorem canonical.execTcomb {fold : Bool} {e : TSlot} {pair : BitVec 1} {n : BitVec 7} {s t : State}
    (h : canonical s) (hr : execTcomb fold e pair n s = .next t) : canonical t := by
  refine h.runSlot (keeps_ownPair.bind fun _ _ => ?_) hr
  dsimp only
  split
  · exact keeps_engineRoom.bind fun _ _ => keeps_issueT
  · exact keeps_ownPair.bind fun _ _ => keeps_engineRoom.bind fun _ _ => keeps_issueT

theorem canonical.execTres {hz clr : Bool} {e : TSlot} {t : BitVec 2} {dst : RegRef} {s u : State} (h : canonical s)
    (hr : execTres hz clr e t dst s = .next u) : canonical u :=
  h.runSlot (keeps_ownTile.bind fun _ _ => keeps_engineRoom.bind fun _ _ => keeps_get.bind fun _ _ =>
    keeps_pendResult.bind fun _ _ => keeps_issueT) hr

theorem canonical.execTdesc {e : TSlot} {dA : BitVec 3} {src : TDescSrc} {s t : State} (h : canonical s)
    (hr : execTdesc e dA src s = .next t) : canonical t := by
  refine h.runSlot (keeps_engineRoom.bind fun _ _ => ?_) hr
  dsimp only
  split
  · exact keeps_curCore.bind fun _ _ => keeps_needLegal.bind fun _ _ => keeps_pure.bind fun _ _ => keeps_get.bind fun u hu =>
      (keeps_liftTrap fun _ _ => trivial).bind fun _ _ => keeps_act
  · exact keeps_vecIndex.bind fun _ _ => keeps_readReg.bind fun _ _ => keeps_pure.bind fun _ _ => keeps_get.bind fun _ _ =>
      (keeps_liftTrap fun _ _ => trivial).bind fun _ _ => keeps_act

theorem canonical.fetchWord {s t : State} {c : Nat} {far : Bool} {addr r : Word} (h : canonical s)
    (hr : fetchWord s c far addr = .ok (r, t)) : canonical t := by
  unfold Machine.fetchWord at hr
  dsimp only at hr
  split at hr
  · obtain ⟨-, rfl⟩ := Prod.mk.inj (Except.ok.inj hr)
    exact h
  · split at hr
    · cases hr
    · next hx =>
      split at hr
      · cases hr
      · cases hr
        exact (h.translate hx).readAt

theorem keeps_fetchCond {addr : Word} : Keeps (fetchCond addr) :=
  keeps_get.bind fun t ht => (keeps_liftTrap fun _ hx => ht.fetchWord hx).bind fun v hr => (keeps_set hr).bind fun _ _ =>
    keeps_pure

theorem keeps_noTransferHere : Keeps noTransferHere :=
  keeps_get.bind fun _ _ => keeps_needWord

theorem keeps_aligned8 {t : Word} : Keeps (aligned8 t) :=
  keeps_need.bind fun _ _ => keeps_pure

theorem canonical.execBr {off : BitVec 30} {s t : State} (h : canonical s) (hr : execBr off s = .next t) :
    canonical t :=
  h.runSlot (keeps_noTransferHere.bind fun _ _ => keeps_get.bind fun _ _ => keeps_act) hr

theorem canonical.execBrc {neg : Bool} {g : BitVec 3} {off : BitVec 30} {s t : State} (h : canonical s)
    (hr : execBrc neg g off s = .next t) : canonical t :=
  h.runSlot (keeps_noTransferHere.bind fun _ _ => keeps_readReg.bind fun _ _ => keeps_get.bind fun _ _ =>
    .ite keeps_act keeps_act) hr

theorem canonical.execJmp {base : BitVec 5} {off : BitVec 30} {s t : State} (h : canonical s)
    (hr : execJmp base off s = .next t) : canonical t :=
  h.runSlot (keeps_noTransferHere.bind fun _ _ => keeps_readK.bind fun _ _ => keeps_aligned8.bind fun _ _ => keeps_act) hr

theorem canonical.execCall {indirect : Bool} {link base : BitVec 5} {off : BitVec 30} {s t : State}
    (h : canonical s) (hr : execCall indirect link base off s = .next t) : canonical t := by
  refine h.runSlot (keeps_noTransferHere.bind fun _ _ => keeps_get.bind fun _ _ => ?_) hr
  dsimp only
  split
  · exact keeps_readK.bind fun _ _ => keeps_aligned8.bind fun _ _ => keeps_needLegal.bind fun _ _ =>
      keeps_fetchCond.bind fun _ _ => keeps_act.bind fun _ _ => keeps_act
  · exact keeps_pure.bind fun _ _ => keeps_needLegal.bind fun _ _ => keeps_fetchCond.bind fun _ _ => keeps_act.bind fun _ _ =>
      keeps_act

theorem canonical.execRet {link : BitVec 5} {s t : State} (h : canonical s) (hr : execRet link s = .next t) :
    canonical t :=
  h.runSlot (keeps_noTransferHere.bind fun _ _ => keeps_readK.bind fun _ _ => keeps_aligned8.bind fun _ _ => keeps_act) hr

theorem canonical.execLoop {level : BitVec 2} {count : Option (BitVec 5)} {off : BitVec 30} {s t : State}
    (h : canonical s) (hr : execLoop level count off s = .next t) : canonical t := by
  refine h.runSlot (keeps_noTransferHere.bind fun _ _ => keeps_needWord.bind fun _ _ => ?_) hr
  dsimp only
  split
  · refine keeps_readK.bind fun _ _ => keeps_get.bind fun u hu => ?_
    split
    · exact keeps_fetchCond.bind fun _ _ => keeps_needLegal.bind fun _ _ => keeps_act.bind fun _ _ => keeps_act.bind fun _ _ =>
        keeps_act
    · exact keeps_act.bind fun _ _ => keeps_act
  · refine keeps_headerImm.bind fun _ _ => keeps_pure.bind fun _ _ => keeps_get.bind fun _ _ => ?_
    split
    · exact keeps_fetchCond.bind fun _ _ => keeps_needLegal.bind fun _ _ => keeps_act.bind fun _ _ => keeps_act.bind fun _ _ =>
        keeps_act
    · exact keeps_act.bind fun _ _ => keeps_act

theorem canonical.execEnd_ {s t : State} (h : canonical s) (hr : execEnd_ s = .next t) : canonical t :=
  h.runSlot keeps_act hr

theorem canonical.execYield {s t : State} (h : canonical s) (hr : execYield s = .next t) : canonical t :=
  h.runSlot keeps_act hr

theorem keeps_readCounter {va : Word} : Keeps (readCounter va) :=
  keeps_get.bind fun t ht => (keeps_liftTrap fun _ hx => ht.counterAt hx).bind fun v hr => (keeps_set hr).bind fun _ _ =>
    keeps_pure

theorem canonical.execCbset {cb : BitVec 4} {base : BitVec 5} {off : Int} {s t : State} (h : canonical s)
    (hr : execCbset cb base off s = .next t) : canonical t := by
  refine h.runSlot (keeps_readP.bind fun _ _ => keeps_needRequests.bind fun _ _ => keeps_loadStrict.bind fun _ _ => ?_) hr
  dsimp only
  split
  · exact keeps_needRequests.bind fun _ _ => keeps_readCounter.bind fun _ _ => keeps_act
  · exact keeps_act

theorem keeps_handleOf {cb : BitVec 4} {n : BitVec 10} : Keeps (handleOf cb n) :=
  keeps_curCtx.bind fun _ _ => keeps_needLegal.bind fun _ _ => keeps_pure

theorem keeps_versionsAre {h' : Handle} {n v : Nat} : Keeps (versionsAre h' n v) := by
  unfold Machine.versionsAre
  refine keeps_loadBytes.bind fun _ _ => ?_
  split
  · split
    · exact keeps_condTrap
    · exact keeps_pure

theorem canonical.execCbwait {dst : RegRef} {cb : BitVec 4} {n : BitVec 10} {version : BitVec 16} {s t : State}
    (h : canonical s) (hr : execCbwait dst cb n version s = .next t) : canonical t := by
  refine h.runSlot (keeps_handleOf.bind fun _ _ => keeps_needLegal.bind fun _ _ => keeps_readCounter.bind fun _ _ => ?_) hr
  split
  · dsimp only
    split
    · split
      · exact keeps_pure.bind fun _ _ => keeps_get.bind fun u hu => .ite (.bind (keeps_modify fun _ h =>
          h.acquireSide) fun _ _ => keeps_act) (keeps_held hu.waitOn)
      · exact keeps_pure.bind fun _ _ => keeps_get.bind fun u hu => .ite (.bind (keeps_modify fun _ h =>
          h.acquireSide) fun _ _ => keeps_act) (keeps_held hu.waitOn)
    · split
      · exact keeps_versionsAre.bind fun _ _ => keeps_get.bind fun u hu => .ite (.bind (keeps_modify fun _ h =>
          h.acquireSide) fun _ _ => keeps_act) (keeps_held hu.waitOn)
      · exact keeps_pure.bind fun _ _ => keeps_get.bind fun u hu => .ite (.bind (keeps_modify fun _ h =>
          h.acquireSide) fun _ _ => keeps_act) (keeps_held hu.waitOn)

theorem canonical.execCbadv {cb : BitVec 4} {n : BitVec 10} {version : BitVec 16} {s t : State} (h : canonical s)
    (hr : execCbadv cb n version s = .next t) : canonical t := by
  refine h.runSlot (keeps_handleOf.bind fun _ _ => keeps_needLegal.bind fun _ _ => ?_) hr
  dsimp only
  split
  · exact keeps_storeRanges.bind fun _ _ => keeps_get.bind fun u hu => (keeps_liftTrap fun _ hx =>
      hu.translateCounter hx).bind fun v hr => (keeps_set hr).bind fun _ _ => keeps_advanceInterval.bind fun _ _ =>
      .bind (keeps_modCtx fun _ h => h) fun _ _ => keeps_act
  · exact keeps_get.bind fun u hu => (keeps_liftTrap fun _ hx => hu.translateCounter hx).bind fun v hr =>
      (keeps_set hr).bind fun _ _ => keeps_advanceInterval.bind fun _ _ => .bind (keeps_modCtx fun _ h => h) fun _ _ => keeps_act

theorem canonical.execLds {ty : ElemTy} {dst : RegRef} {base : BitVec 5} {addr : LAddr} {s t : State}
    (h : canonical s) (hr : execLds ty dst base addr s = .next t) : canonical t :=
  h.runSlot (keeps_eaOf.bind fun _ _ => keeps_needRequests.bind fun _ _ => keeps_loadBytes.bind fun _ _ => keeps_deliverLoad) hr

theorem canonical.execSts {ty : ElemTy} {src : RegRef} {base : BitVec 5} {addr : LAddr} {s t : State}
    (h : canonical s) (hr : execSts ty src base addr s = .next t) : canonical t :=
  h.runSlot (keeps_readScalar.bind fun _ _ => keeps_eaOf.bind fun _ _ => keeps_storeRanges) hr

theorem keeps_lVecIndex {r : RegRef} : Keeps (lVecIndex r) :=
  .ite keeps_vecIndex keeps_pure

theorem canonical.execVst {ty : ElemTy} {src : RegRef} {base : BitVec 5} {addr : LAddr} {s t : State}
    (h : canonical s) (hr : execVst ty src base addr s = .next t) : canonical t :=
  h.runSlot (keeps_lVecIndex.bind fun _ _ => keeps_readReg.bind fun _ _ => keeps_eaOf.bind fun _ _ => keeps_storeRanges) hr

theorem canonical.execVsts {ty : ElemTy} {src : RegRef} {base stride : BitVec 5} {off : Int} {s t : State}
    (h : canonical s) (hr : execVsts ty src base stride off s = .next t) : canonical t :=
  h.runSlot (keeps_lVecIndex.bind fun _ _ => keeps_readReg.bind fun _ _ => keeps_eaOff.bind fun _ _ =>
    keeps_readP.bind fun _ _ => keeps_storeRanges) hr

theorem keeps_holdPort {rs : List (Nat × Nat)} : Keeps (holdPort rs) :=
  keeps_modify fun _ h => h.updCore

theorem canonical.execVscat {ty : ElemTy} {h' : BitVec 2} {src : RegRef} {base : BitVec 5} {index : BitVec 10} {s : State}
    {t : State} (h : canonical s) (hr : execVscat ty h' src base index s = .next t) : canonical t :=
  h.runSlot (keeps_lVecIndex.bind fun _ _ => keeps_vecIndex.bind fun _ _ => keeps_readReg.bind fun _ _ =>
    keeps_readReg.bind fun _ _ => keeps_eaOff.bind fun _ _ => keeps_storeRanges.bind fun _ _ => keeps_holdPort) hr

theorem canonical.execAtom {op : AtomOp} {ty : ElemTy} {dst : Option RegRef} {src : RegRef} {base : BitVec 5} {off : Int}
    {s t : State} (h : canonical s) (hr : execAtom op ty dst src base off s = .next t) : canonical t := by
  refine h.runSlot (keeps_readScalar.bind fun _ _ => ?_) hr
  dsimp only
  split
  · refine keeps_readScalar.bind fun _ _ => keeps_eaOff.bind fun _ _ => keeps_accessSpans.bind fun _ _ =>
      keeps_needRequests.bind fun _ _ => ?_
    split
    · refine keeps_get.bind fun u hu => ?_
      split
      · exact keeps_pendResult.bind fun _ _ => .bind (keeps_modCtx fun _ h => h) fun _ _ => keeps_modify fun _ h => .same h
      · exact .bind (keeps_modCtx fun _ h => h) fun _ _ => keeps_modify fun _ h => .same h
    · exact keeps_pure
  · refine keeps_pure.bind fun _ _ => keeps_eaOff.bind fun _ _ => keeps_accessSpans.bind fun _ _ =>
      keeps_needRequests.bind fun _ _ => ?_
    split
    · refine keeps_get.bind fun _ _ => ?_
      split
      · exact keeps_pendResult.bind fun _ _ => .bind (keeps_modCtx fun _ h => h) fun _ _ => keeps_modify fun _ h => .same h
      · exact .bind (keeps_modCtx fun _ h => h) fun _ _ => keeps_modify fun _ h => .same h
    · exact keeps_pure

theorem canonical.retain {s : State} {line : Nat} (h : canonical s) : canonical (retain s line) :=
  .same h

theorem canonical.execPref {action : BitVec 2} {base : BitVec 5} {off : Int} {s t : State} (h : canonical s)
    (hr : execPref action base off s = .next t) : canonical t := by
  refine h.runSlot (keeps_eaOff.bind fun _ _ => keeps_get.bind fun u hu => ?_) hr
  dsimp only
  split
  · exact keeps_pure
  · split
    · exact keeps_pure
    · split
      · exact keeps_set (hu.foldl fun _ _ h => h.retain)
      · exact keeps_set (.same hu)
      · exact keeps_pure

end Sys2Proof

/-! SUPPORT. The canonical form through the vector forms, the tile operations, traps' returns, and the saving and restoring of
contexts. -/

namespace Sys2Proof

open Machine

/-! ### What a function answers -/

theorem canonical.ofNext {s t : State} (h : canonical s) (hr : (.next s : Host.Outcome State Fault Refusal) = .next t) : canonical t :=
  Host.Outcome.next.inj hr ▸ h

theorem canonical.ofOk {ε : Type} {s t : State} (h : canonical s) (hr : (.ok s : Except ε State) = .ok t) : canonical t :=
  Except.ok.inj hr ▸ h

theorem canonical.ofOk2 {ε α : Type} {s t : State} {a b : α} (h : canonical s) 
    (hr : (.ok (a, s) : Except ε (α × State)) = .ok (b, t)) :
    canonical t := (Prod.mk.inj (Except.ok.inj hr)).2 ▸ h

theorem canonical.ofOk3 {ε α β : Type} {s t : State} {a a' : α} {b b' : β} (h : canonical s)
    (hr : (.ok (a, b, s) : Except ε (α × β × State)) = .ok (a', b', t)) : canonical t :=
  (Prod.mk.inj (Prod.mk.inj (Except.ok.inj hr)).2).2 ▸ h

theorem canonical.ofSome {s t : State} (h : canonical s) (hr : some s = some t) : canonical t := Option.some.inj hr ▸ h

theorem canonical.ofSome2 {α : Type} {s t : State} {a b : α} (h : canonical s) (hr : some (a, s) = some (b, t)) : canonical t :=
  (Prod.mk.inj (Option.some.inj hr)).2 ▸ h

theorem Except.bind_eq_ok {ε α β : Type} {m : Except ε α} {f : α → Except ε β} {b : β} :
    (m >>= f) = .ok b ↔ ∃ a, m = .ok a ∧ f a = .ok b := by
  cases m with
  | error e => exact ⟨fun h => (by cases h), fun ⟨_, h, _⟩ => (by cases h)⟩
  | ok a => exact ⟨fun h => ⟨a, rfl, h⟩, fun ⟨_, h, hf⟩ => (by cases h; exact hf)⟩

theorem canonical.execVld {ty : ElemTy} {dst : RegRef} {base : BitVec 5} {addr : LAddr} {s t : State}
    (h : canonical s) (hr : execVld ty dst base addr s = .next t) : canonical t :=
  h.runSlot (keeps_lVecIndex.bind fun _ _ => keeps_eaOf.bind fun _ _ => keeps_loadInto) hr

theorem canonical.execVlds {ty : ElemTy} {dst : RegRef} {base stride : BitVec 5} {off : Int} {s t : State}
    (h : canonical s) (hr : execVlds ty dst base stride off s = .next t) : canonical t :=
  h.runSlot (keeps_lVecIndex.bind fun _ _ => keeps_eaOff.bind fun _ _ => keeps_readP.bind fun _ _ => keeps_loadInto) hr

theorem canonical.execVgath {ty : ElemTy} {h' : BitVec 2} {dst : RegRef} {base : BitVec 5} {index : BitVec 10} {off : Int}
    {s t : State} (h : canonical s) (hr : execVgath ty h' dst base index off s = .next t) : canonical t :=
  h.runSlot (keeps_lVecIndex.bind fun _ _ => keeps_vecIndex.bind fun _ _ => keeps_readReg.bind fun _ _ =>
    keeps_readReg.bind fun _ _ => keeps_eaOff.bind fun _ _ => keeps_loadInto.bind fun _ _ => keeps_holdPort) hr

theorem keeps_viBin {f : VBin} {op : Int → Int → Nat × Nat} : Keeps (viBin f op) :=
  keeps_readV.bind fun _ _ => keeps_readV.bind fun _ _ => keeps_landVX

theorem keeps_vlBin {f : VBin} {op : Nat → Nat → Nat} : Keeps (vlBin f op) :=
  keeps_readV.bind fun _ _ => keeps_readV.bind fun _ _ => keeps_landVX

theorem canonical.execViadd {m : VIMode} {f : VBin} {s t : State} (h : canonical s) (hr : execViadd m f s = .next t) :
    canonical t :=
  h.runSlot keeps_viBin hr

theorem canonical.execVisub {m : VIMode} {f : VBin} {s t : State} (h : canonical s) (hr : execVisub m f s = .next t) :
    canonical t :=
  h.runSlot keeps_viBin hr

theorem canonical.execVimul {m : VIMode} {f : VBin} {s t : State} (h : canonical s) (hr : execVimul m f s = .next t) :
    canonical t :=
  h.runSlot keeps_viBin hr

theorem canonical.execVimad {m : VIMode} {f : VTer} {s t : State} (h : canonical s) (hr : execVimad m f s = .next t) :
    canonical t :=
  h.runSlot (keeps_readV.bind fun _ _ => keeps_readV.bind fun _ _ => keeps_readV.bind fun _ _ => keeps_landVX) hr

theorem canonical.execVimin {f : VBin} {s t : State} (h : canonical s) (hr : execVimin f s = .next t) :
    canonical t :=
  h.runSlot keeps_viBin hr

theorem canonical.execVimax {f : VBin} {s t : State} (h : canonical s) (hr : execVimax f s = .next t) :
    canonical t :=
  h.runSlot keeps_viBin hr

theorem canonical.execVand {f : VBin} {s t : State} (h : canonical s) (hr : execVand f s = .next t) : canonical t :=
  h.runSlot keeps_vlBin hr

theorem canonical.execVor {f : VBin} {s t : State} (h : canonical s) (hr : execVor f s = .next t) : canonical t :=
  h.runSlot keeps_vlBin hr

theorem canonical.execVxor {f : VBin} {s t : State} (h : canonical s) (hr : execVxor f s = .next t) : canonical t :=
  h.runSlot keeps_vlBin hr

theorem canonical.execVshl {f : VBin} {s t : State} (h : canonical s) (hr : execVshl f s = .next t) : canonical t :=
  h.runSlot keeps_vlBin hr

theorem canonical.execVshr {f : VBin} {s t : State} (h : canonical s) (hr : execVshr f s = .next t) : canonical t :=
  h.runSlot keeps_vlBin hr

theorem canonical.execVsar {f : VBin} {s t : State} (h : canonical s) (hr : execVsar f s = .next t) : canonical t :=
  h.runSlot keeps_vlBin hr

theorem keeps_landMask {slot : VSlot} {dst : Nat} {m : MaskReg} : Keeps (landMask slot dst m) :=
  keeps_landAt

theorem canonical.execVcmp {c : FCond} {f : VBin} {s t : State} (h : canonical s) (hr : execVcmp c f s = .next t) :
    canonical t := by
  refine h.runSlot (keeps_readV.bind fun _ _ => keeps_readV.bind fun _ _ => keeps_curCtx.bind fun _ _ =>
    keeps_readActive.bind fun _ _ => ?_) hr
  extract_lets d rest
  have hrest : ∀ x0, Keeps (rest x0) := fun _ => keeps_mergeFlags.bind fun _ _ => keeps_landMask
  clear_value rest
  exact .ite (keeps_readMask.bind fun _ _ => hrest _) (keeps_pure.bind fun _ _ => hrest _)

theorem canonical.execVsel {f : VBin} {s t : State} (h : canonical s) (hr : execVsel f s = .next t) : canonical t :=
  h.runSlot (keeps_readV.bind fun _ _ => keeps_readV.bind fun _ _ => keeps_readSelector.bind fun _ _ => keeps_landV) hr

theorem canonical.execVmask {op : VMaskOp} {slot : VSlot} {dst : BitVec 3} {s t : State} (h : canonical s)
    (hr : execVmask op slot dst s = .next t) : canonical t := by
  refine h.runSlot ?_ hr
  extract_lets rest
  have hrest : ∀ x0 x1 x2, Keeps (rest x0 x1 x2) := fun _ _ _ => by
    unfold rest
    exact keeps_readMask.bind fun _ _ => keeps_readMask.bind fun _ _ => keeps_landMask
  clear_value rest
  split
  · exact hrest _ _ _
  · exact hrest _ _ _
  · exact hrest _ _ _
  · exact hrest _ _ _
  · exact keeps_readMask.bind fun _ _ => keeps_landMask
  · exact keeps_readV.bind fun _ _ => keeps_landMask
  · exact keeps_readV.bind fun _ _ => keeps_landMask
  · exact keeps_readV.bind fun _ _ => keeps_landMask

theorem canonical.execVmov {f : VUn} {s t : State} (h : canonical s) (hr : execVmov f s = .next t) : canonical t :=
  h.runSlot (keeps_readV.bind fun _ _ => keeps_landVX) hr

theorem canonical.execVcnt {f : VNul} {s t : State} (h : canonical s) (hr : execVcnt f s = .next t) : canonical t :=
  h.runSlot (keeps_readSelector.bind fun _ _ => keeps_landV) hr

theorem canonical.execViota {f : VNul} {s t : State} (h : canonical s) (hr : execViota f s = .next t) :
    canonical t :=
  h.runSlot (keeps_readSelector.bind fun _ _ => keeps_landV) hr

theorem canonical.execVperm {f : VBin} {s t : State} (h : canonical s) (hr : execVperm f s = .next t) :
    canonical t :=
  h.runSlot (keeps_readV.bind fun _ _ => keeps_readV.bind fun _ _ => keeps_landVX) hr

theorem canonical.execVbcast {j : BitVec 8} {f : VUn} {s t : State} (h : canonical s)
    (hr : execVbcast j f s = .next t) : canonical t :=
  h.runSlot (keeps_readV.bind fun _ _ => keeps_landVX) hr

theorem canonical.execVslide {n : BitVec 8} {f : VBin} {s t : State} (h : canonical s)
    (hr : execVslide n f s = .next t) : canonical t :=
  h.runSlot (keeps_readV.bind fun _ _ => keeps_readV.bind fun _ _ => keeps_landVX) hr

theorem canonical.execVcomp {f : VUn} {s t : State} (h : canonical s) (hr : execVcomp f s = .next t) : canonical t :=
  h.runSlot (keeps_readV.bind fun _ _ => keeps_readSelector.bind fun _ _ => keeps_landV) hr

theorem canonical.execVexpd {f : VUn} {s t : State} (h : canonical s) (hr : execVexpd f s = .next t) : canonical t :=
  h.runSlot (keeps_readV.bind fun _ _ => keeps_readSelector.bind fun _ _ => keeps_landLanes) hr

theorem canonical.execVpsum {f : VUn} {s t : State} (h : canonical s) (hr : execVpsum f s = .next t) : canonical t := by
  refine h.runSlot (keeps_readV.bind fun _ _ => keeps_curCtx.bind fun _ _ => keeps_readActive.bind fun _ _ => ?_) hr
  dsimp only
  split
  · exact keeps_drawIf.bind fun _ _ => keeps_readOld.bind fun _ _ => keeps_mergeFlags.bind fun _ _ => keeps_landLanes
  · exact keeps_landLanes

theorem canonical.execVred {op : VRedOp} {f : VUn} {s t : State} (h : canonical s) (hr : execVred op f s = .next t) :
    canonical t := by
  refine h.runSlot (keeps_readV.bind fun _ _ => keeps_curCtx.bind fun _ _ => keeps_readActive.bind fun _ _ => ?_) hr
  dsimp only
  split
  · exact keeps_drawIf.bind fun _ _ => keeps_mergeFlags.bind fun _ _ => keeps_landV
  · exact keeps_landV
  · exact keeps_mergeFlags.bind fun _ _ => keeps_landV
  · exact keeps_mergeFlags.bind fun _ _ => keeps_landV
  · exact keeps_mergeFlags.bind fun _ _ => keeps_landV

theorem canonical.execVfind {c : VFindCond} {f : VBin} {s t : State} (h : canonical s)
    (hr : execVfind c f s = .next t) : canonical t :=
  h.runSlot (keeps_readV.bind fun _ _ => keeps_readV.bind fun _ _ => keeps_curCtx.bind fun _ _ =>
    keeps_readActive.bind fun _ _ => keeps_landV) hr

theorem canonical.execVrand {f : VNul} {s t : State} (h : canonical s) (hr : execVrand f s = .next t) :
    canonical t :=
  h.runSlot (keeps_draw.bind fun _ _ => keeps_landVX) hr

theorem canonical.execVclass {f : VUn} {s t : State} (h : canonical s) (hr : execVclass f s = .next t) :
    canonical t :=
  h.runSlot (keeps_readV.bind fun _ _ => keeps_landVX) hr

theorem canonical.execVxfer {file : VXferFile} {j : BitVec 8} {f : VUn} {s t : State} (h : canonical s)
    (hr : execVxfer file j f s = .next t) : canonical t := by
  refine h.runSlot (keeps_readV.bind fun _ _ => ?_) hr
  dsimp only
  split
  · exact keeps_vecIndex.bind fun _ _ => keeps_landAt
  · exact keeps_landAt
  · exact keeps_landAt
  · exact keeps_landAt
  · exact keeps_landAt

theorem canonical.execVins {j : BitVec 8} {f : VUn} {s t : State} (h : canonical s) (hr : execVins j f s = .next t) :
    canonical t :=
  h.runSlot (keeps_readV.bind fun _ _ => keeps_vecIndex.bind fun _ _ => keeps_readReg.bind fun _ _ => keeps_landV) hr

theorem canonical.fetchAt {v : View} {s : State} {va len : Nat} {r : List Byte} {t : State} (h : canonical s)
    (hr : fetchAt v s va len = .ok (r, t)) : canonical t := by
  unfold Machine.fetchAt at hr
  exact h.readVia hr

theorem canonical.fetchRows {v : View} {len : Nat} {as : List Nat} {s t : State} {r : List (List Byte)} (h : canonical s)
    (hr : fetchRows v len as s = .ok (r, t)) : canonical t := by
  induction as generalizing s r t with
  | nil => exact h.ofOk2 hr
  | cons a as ih =>
    unfold Machine.fetchRows at hr
    split at hr
    · cases hr
    · next hx =>
      split at hr
      · cases hr
      · next hy =>
        have hs := ih (h.fetchAt hx) hy
        exact hs.ofOk2 hr

theorem canonical.fetchA {v : View} {d : TileDesc} {kb : Nat} {s t : State} {r : List (List Nat)} {r' : List Nat} (h : canonical s)
    (hr : fetchA v d kb s = .ok (r, r', t)) : canonical t := by
  obtain ⟨⟨rows, u⟩, hrows, hr⟩ := Except.bind_eq_ok.mp hr
  have hu := h.fetchRows hrows
  dsimp only at hr
  split at hr
  · obtain ⟨⟨scs, w⟩, hscs, hr⟩ := Except.bind_eq_ok.mp hr
    exact (hu.fetchRows hscs).ofOk3 hr
  · exact hu.ofOk3 hr

theorem canonical.fetchB {v : View} {d : TileDesc} {kb : Nat} {s t : State} {r : List (List Nat)} {r' : List Nat} (h : canonical s)
    (hr : fetchB v d kb s = .ok (r, r', t)) : canonical t := by
  unfold Machine.fetchB at hr
  split at hr
  · obtain ⟨⟨hi, u⟩, hhi, hr⟩ := Except.bind_eq_ok.mp hr
    have hu := h.fetchAt hhi
    dsimp only at hr
    split at hr
    · obtain ⟨⟨mid, u⟩, hmid, hr⟩ := Except.bind_eq_ok.mp hr
      have hu := hu.ofOk2 hmid
      dsimp only at hr
      split at hr
      · obtain ⟨⟨lo, u⟩, hlo, hr⟩ := Except.bind_eq_ok.mp hr
        obtain ⟨⟨sc, u⟩, hsc, hr⟩ := Except.bind_eq_ok.mp hr
        exact ((hu.fetchAt hlo).fetchAt hsc).ofOk3 hr
      · obtain ⟨⟨lo, u⟩, hlo, hr⟩ := Except.bind_eq_ok.mp hr
        obtain ⟨⟨sc, u⟩, hsc, hr⟩ := Except.bind_eq_ok.mp hr
        exact ((hu.ofOk2 hlo).fetchAt hsc).ofOk3 hr
    · obtain ⟨⟨mid, u⟩, hmid, hr⟩ := Except.bind_eq_ok.mp hr
      have hu := hu.fetchAt hmid
      dsimp only at hr
      split at hr
      · obtain ⟨⟨lo, u⟩, hlo, hr⟩ := Except.bind_eq_ok.mp hr
        obtain ⟨⟨sc, u⟩, hsc, hr⟩ := Except.bind_eq_ok.mp hr
        exact ((hu.fetchAt hlo).fetchAt hsc).ofOk3 hr
      · obtain ⟨⟨lo, u⟩, hlo, hr⟩ := Except.bind_eq_ok.mp hr
        obtain ⟨⟨sc, u⟩, hsc, hr⟩ := Except.bind_eq_ok.mp hr
        exact ((hu.ofOk2 hlo).fetchAt hsc).ofOk3 hr
  · obtain ⟨⟨rows, u⟩, hrows, hr⟩ := Except.bind_eq_ok.mp hr
    have hu := h.fetchRows hrows
    dsimp only at hr
    split at hr
    · obtain ⟨⟨sc, w⟩, hsc, hr⟩ := Except.bind_eq_ok.mp hr
      exact (hu.fetchAt hsc).ofOk3 hr
    · exact hu.ofOk3 hr

theorem canonical.mmaBlocks {v : View} {a b : TileDesc} {compat : Bool} {n kb : Nat} {acc r : List (List Nat)} {st r' : Bool × Bool}
    {s t : State} (h : canonical s) (hr : mmaBlocks v a b compat n kb acc st s = .ok (r, r', t)) : canonical t := by
  induction n generalizing kb acc st s with
  | zero => exact h.ofOk3 hr
  | succ n ih =>
    obtain ⟨⟨ra, ea, u⟩, ha, hr⟩ := Except.bind_eq_ok.mp hr
    obtain ⟨⟨rb, ew, w⟩, hb, hr⟩ := Except.bind_eq_ok.mp hr
    exact ih ((h.fetchA ha).fetchB hb) hr

theorem canonical.retainRange {s : State} {v : View} {d : TileDesc} {ranges : List (Nat × Nat)} (h : canonical s) :
    canonical (retainRange s v d ranges) := by
  unfold Machine.retainRange
  split
  · exact h
  · refine .foldl h fun _ _ h => ?_
    split
    · split
      · exact h
      · refine .foldl h fun _ _ h => ?_
        split
        · exact h.foldl fun _ _ h => h.retain
        · exact h

theorem canonical.setTile {s : State} {k t : Nat} {x : Tile} (h : canonical s) : canonical (setTile s k t x) :=
  h.updCore

theorem canonical.retireTile {s : State} {k t : Nat} (h : canonical s) : canonical (retireTile s k t) :=
  h.setTile.updCore

theorem canonical.loadRows {v : View} {d : TileDesc} {compat : Bool} {s t : State} {r : List (List Nat)} (h : canonical s)
    (hr : loadRows v d compat s = .ok (r, t)) : canonical t := by
  obtain ⟨⟨rows, u⟩, hrows, hr⟩ := Except.bind_eq_ok.mp hr
  exact (h.fetchRows hrows).ofOk2 hr

theorem canonical.storeRows {v : View} {w : Machine.Writer} {d : TileDesc} {rs : List (List Nat)} {m : Nat} {s : State}
    (h : canonical s) :
    canonical (storeRows v w d rs m s).1 := by
  induction rs generalizing m s with
  | nil => exact h
  | cons r rs ih =>
    unfold Machine.storeRows
    dsimp only
    split
    · exact h
    · next hx => exact ih (h.writeVia hx)

theorem canonical.setTriple {s : State} {k t r : Nat} {x : Nat × Nat × List Nat} (h : canonical s) :
    canonical (setTriple s k t r x) :=
  h.setTile.setTile

theorem canonical.setCarry {s : State} {c set : Nat} {a b : VecReg} (h : canonical s) : canonical (setCarry s c set a b) :=
  h.updCtx' fun _ h => h

theorem canonical.runScan {s : State} {k c t : Nat} {carry : Bool} {set n : Nat} (h : canonical s) :
    canonical (runScan s k c t carry set n) :=
  .ite h.setTile.setTile.updCore.setCarry h.setTile.setTile.updCore

theorem canonical.trapOutside {s : State} {c : Nat} {cause : BitVec 8} {tval : Word} (h : canonical s) :
    canonical (trapOutside s c cause tval) :=
  h.updCtx' fun _ h => h

theorem canonical.holdOps {s : State} {k : Nat} {e : TSlot} {o : TOp} {rest : List TOp} {cause : BitVec 8} {tval : Word}
    (h : canonical s) : canonical (holdOps s k e o rest cause tval) :=
  h.updCore.trapOutside

/-- What a tile operation leaves, done or stopped by a fault. -/
def Machine.TDone.state : TDone → State
  | .done s => s
  | .fault _ _ s => s

theorem canonical.runT {s : State} {k : Nat} {o : TOp} {e : TSlot} (h : canonical s) : canonical (runT s k o e).state := by
  unfold Machine.runT
  cases o.kind with
  | cfg a w => exact h.updCore
  | zero t => exact h.retireTile
  | mma t a b n =>
    dsimp only
    split
    · exact h.updCore
    · next hx => exact (h.updCore.mmaBlocks hx).retainRange.retainRange.setTile
  | aff t ident off =>
    dsimp only
    split
    · exact h.updCore
    · exact h.updCore.setTile.setTile
  | scan t carry set n => exact h.runScan
  | carry op set r0 r1 seq =>
    cases op with
    | ident => exact h.setCarry
    | h => exact h.setCarry
    | wr => exact h.setCarry
    | rd => exact h.readyPending
  | rd t row0 n retire seq => exact .ite h.readyPending.retireTile h.readyPending
  | wr t row0 rows => exact h.setTile
  | ld t d =>
    dsimp only
    split
    · exact h
    · next hx => exact (h.loadRows hx).retainRange.setTile
  | st t d retire =>
    dsimp only
    split
    · next hx => exact h.storeRows.fst hx
    · next hx => exact .ite (h.storeRows.fst hx).retireTile (h.storeRows.fst hx)
  | red t op cols seq => exact .ite h.readyPending.setTile h.readyPending
  | comb t t2 fold n =>
    dsimp only
    split
    · exact h.setTile.setTile.setTriple
    · exact h.setTile.setTile.foldl fun _ _ h => h.setTriple
  | res t hz clr seq =>
    dsimp only
    split
    · exact h.readyPending
    · split
      · exact h.readyPending.updCore
      · exact h.readyPending.setTile

theorem canonical.dropPending {s : State} {c seq : Nat} (h : canonical s) : canonical (dropPending s c seq) :=
  h.updCtx' fun _ h => h

theorem canonical.execTileOperationExecute {k : Nat} {e : TSlot} {residueFails : Nat} {s t : State} (h : canonical s)
    (hr : execTileOperationExecute k e residueFails s = .next t) : canonical t := by
  unfold Machine.execTileOperationExecute at hr
  split at hr
  · exact h.ofNext hr
  · next o rest _ =>
    split at hr
    · exact h.ofNext hr
    · split at hr
      · exact h.updCore.dropPending.trapOutside.ofNext hr
      · split at hr
        · exact h.updCore.holdOps.ofNext hr
        · have hrun := h.runT (k := k) (o := o) (e := e)
          split at hr
          · next hx =>
            rw [hx] at hrun
            exact hrun.updCore.ofNext hr
          · next hx =>
            rw [hx] at hrun
            exact hrun.confirmWalk.holdOps.ofNext hr

theorem canonical.execCsrr {dst : BitVec 5} {num : BitVec 12} {s t : State} (h : canonical s)
    (hr : execCsrr dst num s = .next t) : canonical t :=
  h.runSlot (keeps_needWord.bind fun _ _ => keeps_get.bind fun _ _ => keeps_act) hr

theorem canonical.csrWrite {s : State} {c num : Nat} {op : CsrOp} {v : Word} (h : canonical s) :
    canonical (csrWrite s c num op v) := by
  unfold Machine.csrWrite
  dsimp only
  split
  · exact h.updCtx' fun _ h => h
  · exact h.updCtx' fun _ h => h
  · exact h.updCtx' fun _ h => h
  · exact h.updCtx' fun _ h => h
  · exact h.updCtx' fun _ h => h
  · exact .ite h.updCore h
  · exact .ite (h.updCtx' fun _ h => h) h
  · exact h

theorem canonical.execTrap {code : BitVec 30} {s t : State} (h : canonical s) (hr : execTrap code s = .next t) :
    canonical t :=
  h.runSlot keeps_act hr

theorem canonical.execBkpt {code : BitVec 30} {s t : State} (h : canonical s) (hr : execBkpt code s = .next t) :
    canonical t :=
  h.runSlot keeps_condTrap hr

theorem canonical.execEret {dst : Option (BitVec 5)} {s t : State} (h : canonical s) (hr : execEret dst s = .next t) :
    canonical t := by
  refine h.runSlot (keeps_noTransferHere.bind fun _ _ => keeps_curCtx.bind fun _ _ => keeps_need.bind fun _ _ => ?_) hr
  split
  · exact keeps_act
  · exact keeps_readK.bind fun _ _ => keeps_aligned8.bind fun _ _ => keeps_act

theorem canonical.execWatch {arm shut : Bool} {dst base len : BitVec 5} {entry : BitVec 3} {s t : State} (h : canonical s)
    (hr : execWatch arm shut dst base len entry s = .next t) : canonical t := by
  refine h.runSlot (keeps_get.bind fun _ _ => keeps_curCore.bind fun _ _ => ?_) hr
  extract_lets old state rest withBase
  have hrest : ∀ u, Keeps (rest u) := fun _ => keeps_act
  clear_value rest
  have hbase : ∀ b, Keeps (withBase b) := fun b => by
    unfold withBase
    extract_lets lo withLen
    have hlen : ∀ n, Keeps (withLen n) := fun n =>
      keeps_needLegal.bind fun _ _ => .ite (hrest _) ((keeps_modify fun _ h => h.updCore).bind fun _ _ => hrest _)
    clear_value withLen
    exact .ite (keeps_readK.bind fun _ _ => hlen _) (keeps_pure.bind fun _ _ => hlen _)
  clear_value withBase
  exact .ite (keeps_readK.bind fun _ _ => hbase _) (keeps_pure.bind fun _ _ => hbase _)

theorem canonical.execSnap {tag : BitVec 16} {s t : State} (h : canonical s) (hr : execSnap tag s = .next t) :
    canonical t :=
  h.runSlot keeps_act hr

theorem keeps_resetCounter {a : Word} : Keeps (resetCounter a) := by
  unfold Machine.resetCounter
  refine keeps_get.bind fun t ht => ?_
  dsimp only
  split
  · next hx => exact keeps_set (ht.translateCounter hx)
  · exact .ite keeps_illegal keeps_condTrap

theorem canonical.execCreset {core ctr : BitVec 5} {s t : State} (h : canonical s)
    (hr : execCreset core ctr s = .next t) : canonical t :=
  h.runSlot (keeps_curCtx.bind fun _ _ => keeps_need.bind fun _ _ => keeps_readK.bind fun _ _ => keeps_readK.bind fun _ _ =>
    keeps_needLegal.bind fun _ _ => keeps_resetCounter.bind fun _ _ => keeps_get.bind fun u hu => keeps_set (.same hu)) hr

theorem canonical.readRcb {v : View} {fuel : Nat} {s t : State} {addr : Word} {r : Region} (h : canonical s)
    (hr : readRcb v fuel s addr = .ok (r, t)) : canonical t := by
  induction fuel generalizing s addr r t with
  | zero => cases hr
  | succ fuel ih =>
    unfold Machine.readRcb at hr
    split at hr
    · cases hr
    · split at hr
      · cases hr
      · next hx =>
        have hs := h.readVia hx
        split at hr
        · cases hr
        · dsimp only at hr
          split at hr
          · exact hs.ofOk2 hr
          · split at hr
            · cases hr
            · next hy =>
              split at hr
              · have hp := ih hs hy
                exact hp.ofOk2 hr
              · cases hr

theorem canonical.readRegion {s : State} {v : View} {addr : Word} {r : Region} {t : State} (h : canonical s)
    (hr : readRegion s v addr = .ok (r, t)) : canonical t := by
  unfold Machine.readRegion at hr
  exact h.readRcb hr

theorem canonical.schedRegion {s : State} {v : View} {addr : Word} {r : Region} {t : State} (h : canonical s)
    (hr : schedRegion s v addr = .ok (r, t)) : canonical t := by
  unfold Machine.schedRegion at hr
  split at hr
  · cases hr
  · next hx =>
    split at hr
    · exact (h.readRegion hx).ofOk2 hr
    · cases hr

theorem canonical.releaseFor {s : State} {c tid : Nat} {old : BitVec 16} (h : canonical s) :
    canonical (releaseFor s c tid old).2 := by
  unfold Machine.releaseFor
  split
  · exact h.updCtx' fun _ h => h
  · exact h

theorem canonical.startNeeds {s : State} {st : Start} {r : Nat} {r' : BitVec 8} {t : State} (h : canonical s)
    (hr : startNeeds s st = .ok (r, r', t)) : canonical t := by
  unfold Machine.startNeeds at hr
  split at hr
  · exact h.ofOk3 hr
  · split at hr
    · cases hr
    · next hx => exact (h.readVia hx).ofOk3 hr

theorem canonical.readSections {v : View} {present : Nat} {l : List (Option Nat × Nat)} {va : Nat} {s t : State} {r : List Byte}
    (h : canonical s) (hr : readSections v present l va s = .ok (r, t)) : canonical t := by
  induction l generalizing va s r t with
  | nil => exact h.ofOk2 hr
  | cons p l ih =>
    obtain ⟨bit, n⟩ := p
    unfold Machine.readSections at hr
    dsimp only at hr
    split at hr
    · cases hr
    · next bs u hu =>
      have hcu : canonical u := by
        split at hu
        · split at hu
          · split at hu
            · cases hu
            · next hx =>
              cases hu
              exact h.readVia hx
          · exact h.ofOk2 hu
        · exact h.ofOk2 hu
      split at hr
      · cases hr
      · next hy =>
        have hs := ih hcu hy
        exact hs.ofOk2 hr

theorem filesCanonical_loadSections {x : Ctx} {bs : List Byte} {desc : Map TileDesc} : filesCanonical (loadSections x bs desc) := by
  have hpart : ∀ {α : Type} [DecidableEq α] {d : α} {m : Map α} {b : Bool}, Map.wf d m = true →
      Map.wf d (if b then m else []) = true :=
    fun {_ _ _ _ b} hm => by
      cases b with
      | true => exact hm
      | false => rfl
  have hregs : ∀ {off n}, Map.wf 0 (readRegs bs off n) = true := Map.wf_foldl_set (f := fun i => (i, _)) rfl
  have hvecs : ∀ {off n}, Map.wf 0 (readVecs bs off n) = true := Map.wf_foldl_set (f := fun i => (i, _)) rfl
  have hmasks : ∀ {off}, Map.wf 0 (readMasks bs off) = true := Map.wf_foldl_set (f := fun i => (i, _)) rfl
  exact ⟨hpart hregs, hpart hregs, hpart hvecs, hpart hvecs, hpart hregs, hpart hregs, hpart hmasks, hpart hmasks⟩

theorem filesCanonical.putRegs {x : Ctx} {l : List (Nat × Nat × Word)} (h : filesCanonical x) :
    filesCanonical (l.foldl (fun x (f, i, v) => x.putReg f i (v.setWidth 2048)) x) := by
  induction l generalizing x with
  | nil => exact h
  | cons p l ih => exact ih h.putReg

theorem filesCanonical_cleared {x : Ctx} {tid : Nat} : filesCanonical (x.cleared tid) := filesCanonical_default

theorem canonical.startImage {s : State} {st : Start} {r : List Byte} {t : State} (h : canonical s)
    (hr : startImage s st = .ok (r, t)) : canonical t := by
  unfold Machine.startImage at hr
  split at hr
  · exact h.ofOk2 hr
  · dsimp only at hr
    split at hr
    · cases hr
    · next hx =>
      split at hr
      · cases hr
      · split at hr
        · cases hr
        · next hy => exact ((h.readVia hx).readSections hy).ofOk2 hr

theorem canonical.launchFill {s : State} {c : Nat} {st : Start} (h : canonical s) : canonical (launchFill s c st) := by
  unfold Machine.launchFill
  dsimp only
  split
  · exact .faultContext (.updCtx' (.same h) fun _ _ => filesCanonical_default)
  · next bs u hx =>
    split
    · exact .faultContext (.updCtx' (.startImage (.same h) hx) fun _ _ => filesCanonical_default)
    · next d _ =>
      have hfiles := filesCanonical_loadSections (x := (u.ctx c).cleared s.nextId) (bs := bs) (desc := d)
      exact .freeTiles (.updCtx' (.startImage (.same h) hx) fun _ _ => .putRegs hfiles)

theorem canonical.placeImage {s : State} {r : Region} {core : Nat} {bs : List Byte} {r' : Place} {t : State} (h : canonical s)
    (hr : placeImage s r core bs = some (r', t)) : canonical t := by
  unfold Machine.placeImage at hr
  split at hr
  · exact h.ofSome2 hr
  · split at hr
    · next hx =>
      cases hr
      exact h.placeInArea hx
    · exact h.placeInArea hr

theorem canonical.landAll {s : State} {c : Nat} (h : canonical s) : canonical (landAll s c) :=
  h.foldl fun _ _ h => h.landPending

theorem canonical.vacate {s : State} {c : Nat} (h : canonical s) : canonical (vacate s c) :=
  .updCtx' h.unwait.leaveInbox.updCore fun _ _ => filesCanonical_cleared

theorem canonical.saveContext {s : State} {c : Nat} {why : SaveWhy} {needHandler : Bool} {t : State} (h : canonical s)
    (hr : saveContext s c why needHandler = some t) : canonical t := by
  unfold Machine.saveContext at hr
  dsimp only at hr
  split at hr
  · cases hr
  · next hx => exact .ofSome (.vacate (.ite (.updCore (.same (h.deliverHits.landAll.placeImage hx))) (.same
    (h.deliverHits.landAll.placeImage hx)))) hr

theorem canonical.execContextSave {c : Nat} {why : SaveWhy} {s t : State} (h : canonical s)
    (hr : execContextSave c why s = .next t) : canonical t := by
  unfold Machine.execContextSave at hr
  dsimp only at hr
  split at hr
  · exact h.ofNext hr
  · split at hr
    · exact h.ofNext hr
    · split at hr
      · exact h.ofNext hr
      · split at hr
        · next hx => exact (h.saveContext hx).startNeeded.ofNext hr
        · exact h.ofNext hr
    · split at hr
      · exact h.ofNext hr
      · split at hr
        · exact h.ofNext hr
        · split at hr
          · next hx => exact (h.saveContext hx).startNeeded.ofNext hr
          · exact h.ofNext hr

theorem canonical.savedImage {s : State} {v : Saved} {r : List Byte} {t : State} (h : canonical s)
    (hr : savedImage s v = .ok (r, t)) : canonical t := by
  unfold Machine.savedImage at hr
  split at hr
  · cases hr
  · split at hr
    · exact h.ofOk2 hr
    · split at hr
      · next hx =>
        cases hr
        exact h.readVia hx
      · cases hr

theorem filesCanonical_restoredCtx {s : State} {v : Saved} {c : Nat} {bs : List Byte} : filesCanonical (restoredCtx s v c bs) :=
  filesCanonical_loadSections (x := (s.ctx c).cleared v.tid) (bs := bs) (desc := (readDescs bs).getD [])

theorem canonical.restoreInto {s : State} {v : Saved} {c : Nat} (h : canonical s) : canonical (restoreInto s v c) := by
  unfold Machine.restoreInto
  split
  · exact h.faultSaved
  · next bs u hx =>
    have hs := h.savedImage hx
    have hx := filesCanonical_restoredCtx (s := u) (v := v) (c := c) (bs := bs)
    dsimp only
    split
    · exact .ite (.replayHeld (.updCore (.updCtx' (.same hs) fun _ _ => hx)))
        (.updCore (.updCtx' (.same hs) fun _ _ => hx))
    · exact .freeTiles (.updCtx' (.same hs) fun _ _ => hx)

theorem canonical.restoreTask {s : State} {v : Saved} {c : Nat} (h : canonical s) : canonical (restoreTask s v c) :=
  h.restoreInto.startNeeded

theorem canonical.execContextRestore {task c : Nat} {s t : State} (h : canonical s)
    (hr : execContextRestore task c s = .next t) : canonical t := by
  unfold Machine.execContextRestore at hr
  split at hr
  · exact h.ofNext hr
  · split at hr
    · exact h.ofNext hr
    · exact h.restoreTask.ofNext hr

end Sys2Proof

/-! SUPPORT. The canonical form through the performing of accesses, counters, waiting, and the tasks of a core. -/

namespace Sys2Proof

open Machine

theorem canonical.execParkedJoinRestore {task c : Nat} {s t : State} (h : canonical s)
    (hr : execParkedJoinRestore task c s = .next t) : canonical t := by
  unfold Machine.execParkedJoinRestore at hr
  split at hr
  · exact h.ofNext hr
  · split at hr
    · exact h.ofNext hr
    · exact h.restoreTask.ofNext hr

theorem canonical.requestPreempt {s : State} {c : Nat} (h : canonical s) : canonical (requestPreempt s c) := by
  unfold Machine.requestPreempt
  refine .updCtx' h fun _ h => ?_
  split
  · exact h
  · exact h

theorem canonical.requestCrew {s : State} {c : Nat} (h : canonical s) : canonical (requestCrew s c) :=
  .ite (h.foldl fun _ _ h => h.requestPreempt) h

theorem canonical.execPreemptionRequest {c : Nat} {s t : State} (h : canonical s)
    (hr : execPreemptionRequest c s = .next t) : canonical t := by
  unfold Machine.execPreemptionRequest at hr
  exact h.requestCrew.ofNext hr

theorem canonical.withdrawRequest {s : State} {c : Nat} (h : canonical s) : canonical (withdrawRequest s c) :=
  .ite h (h.free64.free64.updCtx' fun _ h => by exact h).faultRecord

theorem canonical.execPreemptionWithdrawn {c : Nat} {s t : State} (h : canonical s)
    (hr : execPreemptionWithdrawn c s = .next t) : canonical t := by
  unfold Machine.execPreemptionWithdrawn at hr
  exact .ofNext (.ite (h.foldl fun _ _ h => h.withdrawRequest) h) hr

theorem canonical.execTaskRetire {c : Nat} {s t : State} (h : canonical s) (hr : execTaskRetire c s = .next t) :
    canonical t := by
  unfold Machine.execTaskRetire at hr
  dsimp only at hr
  split at hr
  · exact h.ofNext hr
  · split at hr
    · exact h.faultContext.becomeDormant.ofNext hr
    · split at hr
      · exact h.faultSaved.becomeDormant.ofNext hr
      · exact h.becomeDormant.ofNext hr
    · exact h.releaseFor.retireInSet.becomeDormant.ofNext hr
    · exact .ofNext (.becomeDormant (.ite h.releaseFor h.releaseFor.packageAdd)) hr
    · exact h.becomeDormant.ofNext hr

theorem canonical.countReceived {s : State} {k src : Nat} {asid : BitVec 16} (h : canonical s) :
    canonical (countReceived s k src asid) :=
  h.updCore

theorem canonical.countStored {s : State} {src : Nat} {asid : BitVec 16} {pa : Nat} (h : canonical s) :
    canonical (countStored s src asid pa) := by
  unfold Machine.countStored
  split
  · exact h.countReceived
  · exact h.updDie

theorem canonical.countSent {s : State} {k : Nat} {asid : BitVec 16} (h : canonical s) : canonical (countSent s k asid) :=
  h.updCore

theorem canonical.performAtom {s : State} {x : Issuer} {p : Posted} {op : AtomOp} {ty : ElemTy} {va : Word} {pa : Nat}
    {a b : Word} {ret : Option Nat} (h : canonical s) : canonical (performAtom s x p op ty va pa a b ret) := by
  unfold Machine.performAtom
  split
  · split
    · exact h.free64.readyPending
    · exact h.outsideTrap
  · split
    · next hx =>
      dsimp only
      split
      · exact (h.atomApply.fst hx).timeStore.readyPending
      · exact (h.atomApply.fst hx).timeStore

theorem canonical.performPiece {x : Issuer} {i : BitVec 16} {s : State} {q : Piece} (h : canonical s) :
    canonical (performPiece x i s q) :=
  h.raceCheck.storeAt.timeStore

theorem canonical.performPosted {s : State} {x : Issuer} {p : Posted} {r : Option Posted} {t : State} (h : canonical s)
    (hr : performPosted s x p = some (t, r)) : canonical t := by
  unfold Machine.performPosted at hr
  dsimp only at hr
  split at hr
  · split at hr
    · cases hr
      exact .readyPending (.foldl_snd h fun _ _ _ h => h.readPiece)
    · cases hr
      exact .foldl_snd h fun _ _ _ h => h.readPiece
  · split at hr
    · cases hr
    · split at hr
      · cases hr
        exact (h.foldl fun _ _ h => h.performPiece).countStored
      · cases hr
        exact h.foldl fun _ _ h => h.performPiece
  · split at hr
    · cases hr
    · cases hr
      exact h.performAtom
  · split at hr
    · cases hr
    · split at hr
      · next hx =>
        cases hr
        exact (h.counterAdd hx).timeStore
      · cases hr
        exact h.countFailedAdd.outsideTrap

theorem canonical.performOne {s : State} {c : Nat} {t : State} (h : canonical s) (hr : performOne s c = some t) :
    canonical t := by
  unfold Machine.performOne at hr
  split at hr
  · obtain ⟨⟨u, left⟩, hx, rfl⟩ := Option.map_eq_some_iff.mp hr
    exact .same (h.performPosted hx)
  · split at hr
    · cases hr
    · obtain ⟨⟨u, left⟩, hx, rfl⟩ := Option.map_eq_some_iff.mp hr
      exact (h.performPosted hx).updCtx' fun _ h => h

theorem canonical.performAll {c n : Nat} {s : State} (h : canonical s) : canonical (performAll c n s) := by
  induction n generalizing s with
  | zero => exact h
  | succ n ih =>
    unfold Machine.performAll
    split
    · next hx => exact ih (h.performOne hx)
    · exact h

theorem keeps_flushOwn : Keeps flushOwn :=
  keeps_modify fun _ h => .ite h.performAll h

theorem keeps_releaseNow : Keeps releaseNow :=
  keeps_get.bind fun _ _ => .ite (keeps_flushOwn.bind fun _ _ => keeps_advanceInterval) keeps_notReady

theorem canonical.execAccessPerformed {c : Nat} {s t : State} (h : canonical s)
    (hr : execAccessPerformed c s = .next t) : canonical t := by
  unfold Machine.execAccessPerformed at hr
  exact .ofNext (.ite (h.getD fun _ hx => h.performOne hx) h) hr

theorem canonical.execAtomPerform {c : Nat} {s t : State} (h : canonical s) (hr : execAtomPerform c s = .next t) :
    canonical t := by
  unfold Machine.execAtomPerform at hr
  exact .ofNext (.ite (h.getD fun _ hx => h.performOne hx) h) hr

theorem canonical.execLogicalTimeAdvance {c n : Nat} {s t : State} (h : canonical s)
    (hr : execLogicalTimeAdvance c n s = .next t) : canonical t := by
  unfold Machine.execLogicalTimeAdvance at hr
  exact (h.updCtx' fun _ h => by exact h).ofNext hr

theorem canonical.execVariableLatencyLanding {c n : Nat} {s t : State} (h : canonical s)
    (hr : execVariableLatencyLanding c n s = .next t) : canonical t := by
  unfold Machine.execVariableLatencyLanding at hr
  exact h.landPending.ofNext hr

theorem filesCanonical.landZero {x : Ctx} (h : filesCanonical x) : filesCanonical (Ctx.landZero x) := by
  have hfold : ∀ (ls : List Landing) {y : Ctx}, filesCanonical y →
      filesCanonical (ls.foldl (fun x l => x.writeReg l.seq l.file l.idx l.val l.err l.tag) y) := by
    intro ls
    induction ls with
    | nil => exact fun hy => hy
    | cons l ls ih => exact fun hy => ih hy.writeReg
  exact hfold _ h

theorem canonical.execStallExpiry {c : Nat} {s t : State} (h : canonical s) (hr : execStallExpiry c s = .next t) :
    canonical t := by
  unfold Machine.execStallExpiry at hr
  refine .ofNext (.updCtx' h fun _ h => ?_) hr
  split
  · exact h
  · exact h

theorem canonical.execFixedLatencyLanding {c : Nat} {s t : State} (h : canonical s)
    (hr : execFixedLatencyLanding c s = .next t) : canonical t :=
  .ofNext (.updCtx' h fun _ hx => .landZero hx) hr

theorem canonical.execCadd {rel : Bool} {_scope : Scope} {ctr : BitVec 5} {amount : BitVec 5 ⊕ BitVec 30} {s : State}
    {t : State} (h : canonical s) (hr : execCadd rel _scope ctr amount s = .next t) : canonical t := by
  refine h.runSlot (keeps_readK.bind fun _ _ => ?_) hr
  extract_lets rest
  have hrest : ∀ x0, Keeps (rest x0) := fun _ => by
    unfold rest
    refine keeps_get.bind fun u hu => (keeps_liftTrap fun _ hx => hu.translateCounter hx).bind fun v hr =>
      (keeps_set hr).bind fun _ _ => ?_
    extract_lets rest'
    have hrest' : ∀ x0, Keeps (rest' x0) := fun _ => (keeps_modCtx fun _ h => h)
    clear_value rest'
    exact .ite (keeps_advanceInterval.bind fun _ _ => hrest' _) (keeps_pure.bind fun _ _ => hrest' _)
  clear_value rest
  split
  · exact keeps_readK.bind fun _ _ => hrest _
  · exact keeps_pure.bind fun _ _ => hrest _

theorem canonical.execCwait {acq : Bool} {scope : Scope} {dst ctr tgt : BitVec 5} {timeout : BitVec 30} {s : State}
    {t : State} (h : canonical s) (hr : execCwait acq scope dst ctr tgt timeout s = .next t) : canonical t := by
  refine h.runSlot (keeps_readK.bind fun _ _ => keeps_readK.bind fun _ _ => keeps_flushOwn.bind fun _ _ =>
    keeps_readCounter.bind fun _ _ => keeps_get.bind fun u hu => ?_) hr
  dsimp only
  exact .ite (.ite (.bind (keeps_modify fun _ h => h.acquireSide) fun _ _ => keeps_act) keeps_act) (.ite keeps_act (keeps_held
    (.ite hu.waitOn (hu.waitOn.updCtx' fun _ h => h))))

theorem canonical.execCtest {acq : Bool} {scope : Scope} {g : BitVec 3} {ctr tgt : BitVec 5} {s t : State}
    (h : canonical s) (hr : execCtest acq scope g ctr tgt s = .next t) : canonical t :=
  h.runSlot (keeps_readK.bind fun _ _ => keeps_readK.bind fun _ _ => keeps_flushOwn.bind fun _ _ =>
    keeps_readCounter.bind fun _ _ => .ite (.bind (keeps_modify fun _ h => h.acquireSide) fun _ _ => keeps_act) keeps_act) hr

theorem canonical.execCread {acq : Bool} {scope : Scope} {status : Bool} {dst ctr : BitVec 5} {s t : State}
    (h : canonical s) (hr : execCread acq scope status dst ctr s = .next t) : canonical t := by
  refine h.runSlot (keeps_readK.bind fun _ _ => keeps_flushOwn.bind fun _ _ => keeps_readCounter.bind fun _ _ =>
    keeps_get.bind fun _ _ => ?_) hr
  extract_lets side rest
  have hrest : ∀ x0, Keeps (rest x0) := fun _ => keeps_pendResult
  clear_value rest
  exact .ite (.bind (keeps_modify fun _ h => h.acquireSide) fun _ _ => hrest _) (hrest _)

theorem canonical.execFence {_scope : Scope} {s t : State} (h : canonical s) (hr : execFence _scope s = .next t) :
    canonical t :=
  h.runSlot (keeps_releaseNow.bind fun _ _ => keeps_pure) hr

theorem keeps_submitInval {v : Word} : Keeps (submitInval v) := by
  unfold Machine.submitInval
  refine keeps_get.bind fun _ _ => keeps_need.bind fun _ _ => ?_
  extract_lets rest
  have hrest : ∀ x0, Keeps (rest x0) := fun _ => by
    unfold rest
    refine keeps_need.bind fun _ _ => keeps_flushOwn.bind fun _ _ => keeps_loadStrict.bind fun _ _ => ?_
    split
    · exact keeps_illegal
    · exact keeps_need.bind fun _ _ => keeps_get.bind fun u hu => (keeps_liftTrap fun _ hx =>
        hu.translateCounter hx).bind fun v_1 hr => (keeps_set hr).bind fun _ _ => keeps_modify fun _ h => h.updDie
  clear_value rest
  exact .ite (keeps_notReady.then fun _ => hrest _) (hrest _)

theorem canonical.execCsrw {op : CsrOp} {src : BitVec 5} {num : BitVec 12} {s t : State} (h : canonical s)
    (hr : execCsrw op src num s = .next t) : canonical t := by
  refine h.runSlot ?_ hr
  dsimp only
  split
  · exact keeps_illegalWord
  · refine keeps_needWord.bind fun _ _ => keeps_readK.bind fun _ _ => keeps_curCtx.bind fun _ _ => ?_
    split
    · exact keeps_submitInval
    · exact keeps_needLegal.bind fun _ _ => keeps_need.bind fun _ _ => keeps_needLegal.bind fun _ _ => keeps_act

theorem canonical.execDrain {scope : Scope} {ctr tgt : BitVec 5} {s t : State} (h : canonical s)
    (hr : execDrain scope ctr tgt s = .next t) : canonical t := by
  refine h.runSlot (keeps_readK.bind fun _ _ => keeps_readK.bind fun _ _ => keeps_get.bind fun u hu =>
    (keeps_liftTrap fun _ hx => hu.translateCounter hx).bind fun v hr => (keeps_set hr).bind fun _ _ =>
    keeps_readCounter.bind fun _ _ => keeps_curCtx.bind fun _ _ => ?_) hr
  dsimp only
  split
  · split
    · exact keeps_modify fun _ h => h.acquireSide
    · exact keeps_get.bind fun w hw => keeps_held (hw.updCtx' fun _ h => h)
  · refine keeps_releaseNow.bind fun _ _ => keeps_get.bind fun w hw => keeps_held (.updCtx' (.updCtx' ?_ fun _ h => h) fun _ h => h)
    split
    · next hx => exact hw.counterAdd hx
    · exact hw.countFailedAdd.trapOutside

theorem canonical.execDrainSweep {c : Nat} {s t : State} (h : canonical s) (hr : execDrainSweep c s = .next t) :
    canonical t := by
  unfold Machine.execDrainSweep at hr
  dsimp only at hr
  split at hr
  · exact h.ofNext hr
  · split at hr
    · exact h.wake.ofNext hr
    · split at hr
      · exact h.ofNext hr
      · exact .ofNext (.ite (h.updCtx' fun _ h => by exact h).wake (h.updCtx' fun _ h => by exact h)) hr

theorem canonical.parkAt {s : State} {c : Nat} {e : MonEntry} {t : State} (h : canonical s) (hr : parkAt s c e = some t) :
    canonical t := by
  unfold Machine.parkAt at hr
  dsimp only at hr
  obtain ⟨u, hx, rfl⟩ := Option.map_eq_some_iff.mp hr
  exact (h.saveContext hx).updCore.startNeeded

theorem canonical.execJoin {acq : Bool} {scope : Scope} {park : Bool} {ctr tgt : BitVec 5} {s t : State}
    (h : canonical s) (hr : execJoin acq scope park ctr tgt s = .next t) : canonical t := by
  refine h.runSlot (keeps_readK.bind fun _ _ => keeps_readK.bind fun _ _ => keeps_flushOwn.bind fun _ _ =>
    keeps_readCounter.bind fun _ _ => keeps_get.bind fun u hu => ?_) hr
  exact .ite (.ite (keeps_modify fun _ h => h.acquireSide) keeps_pure) (.ite (.ite keeps_notReady (keeps_held
    (hu.waitOn.getD fun _ hx => hu.parkAt hx))) (keeps_held hu.waitOn))

theorem canonical.releaseEntry {s : State} {k : Nat} {e : MonEntry} (h : canonical s) : canonical (releaseEntry s k e) := by
  unfold Machine.releaseEntry
  split
  · exact h.wake
  · exact .updCore (.same h)

theorem canonical.execWaitSatisfied {k ctr : Nat} {s t : State} (h : canonical s)
    (hr : execWaitSatisfied k ctr s = .next t) : canonical t := by
  unfold Machine.execWaitSatisfied at hr
  dsimp only at hr
  exact (h.updCore.foldl fun _ _ h => h.releaseEntry).ofNext hr

theorem canonical.execSweepReread {k : Nat} {s t : State} (h : canonical s) (hr : execSweepReread k s = .next t) :
    canonical t := by
  unfold Machine.execSweepReread at hr
  dsimp only at hr
  exact (h.updCore.foldl fun _ _ h => h.releaseEntry).ofNext hr

theorem canonical.execCwaitTimeout {c : Nat} {s t : State} (h : canonical s) (hr : execCwaitTimeout c s = .next t) :
    canonical t := by
  unfold Machine.execCwaitTimeout at hr
  dsimp only at hr
  split at hr
  · exact h.ofNext hr
  · exact (h.wake.updCtx' fun _ h => by exact h).ofNext hr

theorem canonical.execFork {rec_ arg : BitVec 5} {s t : State} (h : canonical s) (hr : execFork rec_ arg s = .next t) :
    canonical t := by
  refine h.runSlot (keeps_readK.bind fun _ _ => keeps_readK.bind fun _ _ => keeps_need.bind fun _ _ =>
    keeps_flushOwn.bind fun _ _ =>
    keeps_get.bind fun st hst => ?_) hr
  clear hr
  extract_lets c r withRecord
  have hrec : ∀ p, canonical p.2 → Keeps (withRecord p) := fun p hp => by
    refine (keeps_set hp).bind fun _ _ => ?_
    extract_lets entry join image b bank withRegion rest
    have hregion : ∀ q, Keeps (withRegion q) := fun _ => keeps_need.bind fun _ _ => keeps_curCore.bind fun _ _ =>
      keeps_need.bind fun _ _ => keeps_releaseNow.bind fun _ _ => keeps_modify fun _ h => h.updCore
    clear_value withRegion
    have hrest : ∀ u, Keeps (rest u) := fun _ => by
      refine keeps_get.bind fun st hst => ?_
      split
      · next hx => exact (keeps_set (hst.readRegion hx)).bind fun _ _ => keeps_pure.bind fun _ _ => hregion _
      · exact keeps_condTrap.then fun _ => hregion _
    clear_value rest
    refine keeps_need.bind fun _ _ => keeps_need.bind fun _ _ => keeps_needLegal.bind fun _ _ => ?_
    exact .ite (hrest _) (keeps_get.bind fun st hst => (keeps_liftTrap fun _ hx => hst.translateCounter hx).bind fun _ hp =>
      (keeps_set hp).bind fun _ _ => hrest _)
  clear_value withRecord
  split
  · next hx => exact hrec _ (hst.readVia hx)
  · exact (keeps_condTrap (P := fun p => canonical p.2)).bind fun _ hp => hrec _ hp

theorem canonical.startRecord {s : State} {c : Nat} {t : TaskRec} (h : canonical s) : canonical (startRecord s c t) :=
  .ite (h.launchFill.updCtx' fun _ h => h) h.launchFill

theorem canonical.execDequeStart {c : Nat} {s t : State} (h : canonical s) (hr : execDequeStart c s = .next t) :
    canonical t := by
  unfold Machine.execDequeStart at hr
  dsimp only at hr
  split at hr
  · exact h.ofNext hr
  · split at hr
    · split at hr
      · exact h.updCore.startRecord.ofNext hr
      · exact h.ofNext hr
    · split at hr
      · exact h.ofNext hr
      · split at hr
        · exact h.ofNext hr
        · exact h.updCore.startRecord.ofNext hr

theorem canonical.execContextPromotion {c : Nat} {s t : State} (h : canonical s)
    (hr : execContextPromotion c s = .next t) : canonical t := by
  unfold Machine.execContextPromotion at hr
  refine .ofNext (.updCtx' h fun _ h => ?_) hr
  split
  · exact h
  · exact h

theorem canonical.execYieldExpiry {c : Nat} {s t : State} (h : canonical s) (hr : execYieldExpiry c s = .next t) :
    canonical t := by
  unfold Machine.execYieldExpiry at hr
  refine .ofNext (.updCtx' h fun _ h => ?_) hr
  split
  · split
    · exact h
    · exact h
  · exact h

theorem canonical.execOutsideTrap {c : Nat} {s t : State} (h : canonical s) (hr : execOutsideTrap c s = .next t) :
    canonical t := by
  unfold Machine.execOutsideTrap at hr
  dsimp only at hr
  split at hr
  · exact h.ofNext hr
  · split at hr
    · exact (h.updCtx' fun _ h => by exact h).takeTrap.ofNext hr
    · exact h.ofNext hr

end Sys2Proof

/-! SUPPORT. The canonical form through the bundles of a context: fetching, checking, waiting, taking effect, and its end. The meaning of
the instructions is a hypothesis here. -/

namespace Sys2Proof

open Machine

theorem canonical.fetchRest {c n : Nat} {far : Bool} {addr : Word} {s t : State} {r : List Word} (h : canonical s)
    (hr : fetchRest c far n addr s = .ok (r, t)) : canonical t := by
  induction n generalizing addr s r t with
  | zero => exact h.ofOk2 hr
  | succ n ih =>
    unfold Machine.fetchRest at hr
    split at hr
    · cases hr
    · next hx =>
      split at hr
      · cases hr
      · next hy =>
        have hs := ih (h.fetchWord hx) hy
        exact hs.ofOk2 hr

theorem canonical.fetchBundle {s : State} {c : Nat} {addr : Word} {r : Fetched} {t : State} (h : canonical s)
    (hr : fetchBundle s c addr = .ok (r, t)) : canonical t := by
  unfold Machine.fetchBundle at hr
  dsimp only at hr
  split at hr
  · cases hr
  · next hx =>
    split at hr
    · cases hr
    · split at hr
      · cases hr
      · split at hr
        · cases hr
        · next hy => exact ((h.fetchWord hx).fetchRest hy).ofOk2 hr

theorem canonical.nextBundle {s : State} {c : Nat} {r : Fetched} {t : State} (h : canonical s)
    (hr : nextBundle s c = .ok (r, t)) : canonical t := by
  unfold Machine.nextBundle at hr
  dsimp only at hr
  split at hr
  · exact h.ofOk2 hr
  · exact h.fetchBundle hr

theorem canonical.atSlot {s : State} {i : SlotI} (h : canonical s) : canonical (atSlot s i) :=
  .same h

theorem canonical.afterActs {s : State} {c : Nat} {acts : List EndAct} (h : canonical s) : canonical (afterActs s c acts) := by
  induction acts generalizing s with
  | nil => exact h
  | cons a acts ih =>
    refine ih ?_
    cases a with
    | csr n op v => exact h.csrWrite
    | snap tag => exact h.fireShutter
    | trapAfter code => exact h.takeTrap
    | eret dst => exact h.eretFrom
    | _ => exact h

/-! ### A context at the end of its bundle -/

theorem filesCanonical.tick {x : Ctx} {cur : Nat} (h : filesCanonical x) : filesCanonical (x.tick cur) :=
  filesCanonical.landZero (x := x.countDown cur) h

theorem filesCanonical.applyAct {x : Ctx} {i : Issue} {a : EndAct} (h : filesCanonical x) : filesCanonical (x.applyAct i a) := by
  cases a with
  | setReg f n v => exact h.writeReg
  | setPred g v => exact h.writeReg
  | _ => exact h

theorem filesCanonical.advance {x x0 : Ctx} {i : Issue} (h : filesCanonical x) : filesCanonical (x.advance x0 i) := by
  unfold Ctx.advance
  dsimp only
  split
  · exact h
  · exact h

/-- An update step by step that keeps the registers' form. -/
theorem filesCanonical.foldl {α : Type} {f : Ctx → α → Ctx} {l : List α} {x : Ctx} (h : filesCanonical x)
    (hf : ∀ x a, filesCanonical x → filesCanonical (f x a)) : filesCanonical (l.foldl f x) := by
  induction l generalizing x with
  | nil => exact h
  | cons a l ih => exact ih (hf x a h)

theorem filesCanonical.finish {x x0 : Ctx} {i : Issue} {clock : Nat} (h : filesCanonical x) :
    filesCanonical (x.finish x0 i clock) := by
  have hpop := (h.tick (cur := i.seq * 8)).foldl (l := popHeads i.pop) (f := fun x q => x.updHead q Head.popped) fun _ _ hx => hx
  have hacts : ∀ {y : Ctx}, filesCanonical y → filesCanonical ((i.acts.foldl (fun x a => x.applyAct i a) y).advance x0 i) :=
    fun hy => (hy.foldl fun _ _ hx => hx.applyAct).advance
  unfold Ctx.finish
  dsimp only
  split
  · exact hacts hpop.writeReg
  · exact hacts hpop

theorem canonical.endBundle {s : State} {x0 : Ctx} (h : canonical s) : canonical (endBundle s x0) :=
  .same (.afterActs ((canonical.updCtx' (.same h) fun _ hx => hx.finish).foldl fun _ _ h => h.updCtx' fun _ h => h))

theorem canonical.Bundled.begin_ {b : Bundled} {s : State} (h : canonical s) : canonical (Bundled.begin_ b s) :=
  .same h

theorem canonical.markFar {s : State} {c : Nat} (h : canonical s) : canonical (markFar s c) :=
  .ite h (h.updCtx' fun _ h => h)

theorem canonical.takeBundle_error {s t : State} {c : Nat} (h : canonical s) (hr : takeBundle s c = .error t) : canonical t := by
  unfold Machine.takeBundle at hr
  dsimp only at hr
  have hs : canonical (if (s.ctx c).waitAct && !(s.ctx c).heldWords.isEmpty then s else Machine.markFar s c) := .ite h h.markFar
  split at hr
  · cases hr
    exact hs.confirmWalk.takeTrap
  · next hx =>
    split at hr
    · cases hr
      exact (hs.nextBundle hx).takeTrap
    · cases hr

theorem canonical.takeBundle {s : State} {c : Nat} {r : Bundled} {t : State} (h : canonical s)
    (hr : takeBundle s c = .ok (r, t)) : canonical t := by
  unfold Machine.takeBundle at hr
  dsimp only at hr
  split at hr
  · cases hr
  · next hx =>
    split at hr
    · cases hr
    · exact .ofOk2 (.nextBundle (.ite h h.markFar) hx) hr

/-! ### The slots of a bundle -/

/-- A meaning of the instructions that keeps the canonical form. -/
def KeepsCanonical (m : Meaning) : Prop := ∀ {i s t}, canonical s → m i s = .next t → canonical t

theorem canonical.runOne {m : Meaning} {i : SlotI} {s t : State} (h : canonical s) (hm : KeepsCanonical m)
    (hr : runOne m s i = .ok t) : canonical t := by
  unfold Machine.runOne at hr
  split at hr
  · next hx => exact (hm h.atSlot hx).ofOk hr
  · cases hr

theorem runOne_error_ne_next {m : Meaning} {i : SlotI} {s t : State} : runOne m s i ≠ .error (.next t) := by
  unfold runOne
  split
  · exact fun h => by cases h
  · next hx => exact fun h => hx t (Except.error.inj h)

theorem canonical.waitFrom {m : Meaning} {s t u : State} {c : Nat} {first : Bool} {l : List SlotI} (ht : canonical t)
    (hm : KeepsCanonical m) (hr : waitFrom m s c first l t = .ok u) : canonical u := by
  induction l generalizing t with
  | nil => exact ht.ofOk hr
  | cons i l ih =>
    unfold Machine.waitFrom at hr
    dsimp only at hr
    split at hr
    · cases hr
    · next hx => exact ih ((canonical.runOne (.same (.ite (ht.updCtx' fun _ h => by exact h)
      (ht.updCtx' fun _ h => by exact h))) hm hx).updCtx' fun _ h => by exact h) hr

theorem waitFrom_error_ne_next {m : Meaning} {s t u : State} {c : Nat} {first : Bool} {l : List SlotI} :
    waitFrom m s c first l t ≠ .error (.next u) := by
  induction l generalizing t with
  | nil => exact fun h => by cases h
  | cons i l ih =>
    unfold waitFrom
    dsimp only
    split
    · next hx => exact fun h => runOne_error_ne_next (hx.trans h)
    · exact ih

theorem canonical.commitSlots {m : Meaning} {s t : State} {l : List SlotI} (h : canonical s) (hm : KeepsCanonical m)
    (hr : commitSlots m l s = .ok t) : canonical t := by
  induction l generalizing s with
  | nil => exact h.ofOk hr
  | cons i l ih =>
    unfold Machine.commitSlots at hr
    split at hr
    · cases hr
    · next hx => exact ih (.ite (h.runOne hm hx) h) hr

theorem commitSlots_error_ne_next {m : Meaning} {s t : State} {l : List SlotI} : commitSlots m l s ≠ .error (.next t) := by
  induction l generalizing s with
  | nil => exact fun h => by cases h
  | cons i l ih =>
    unfold commitSlots
    split
    · next hx => exact fun h => runOne_error_ne_next (hx.trans h)
    · exact ih

theorem canonical.Bundled.wait {b : Bundled} {m : Meaning} {s t : State} {waits : List SlotI} (h : canonical s) (hm : KeepsCanonical m)
    (hr : b.wait m s waits = .next t) : canonical t := by
  unfold Machine.Bundled.wait at hr
  dsimp only at hr
  split at hr
  · next hx => exact absurd (hx.trans (congrArg _ hr)) waitFrom_error_ne_next
  · next hx => exact canonical.ofNext (.same (((canonical.Bundled.begin_ h).waitFrom hm hx).updCtx' fun _ h => by exact h)) hr

theorem canonical.Bundled.run {b : Bundled} {m : Meaning} {s t : State} (h : canonical s) (hm : KeepsCanonical m)
    (hr : b.run m s = .next t) : canonical t := by
  unfold Machine.Bundled.run at hr
  dsimp only at hr
  split at hr
  · next hx => exact absurd (hx.trans (congrArg _ hr)) commitSlots_error_ne_next
  · next hx => exact canonical.ofNext (canonical.commitSlots (.same h) hm hx).endBundle hr

theorem canonical.Bundled.go {b : Bundled} {m : Meaning} {s t : State} {ps : List Probe} (h : canonical s) (hm : KeepsCanonical m)
    (hr : b.go m s ps = .next t) : canonical t := by
  unfold Machine.Bundled.go at hr
  dsimp only at hr
  split at hr
  · exact h.ofNext hr
  · split at hr
    · exact h.takeTrap.ofNext hr
    · split at hr
      · exact h.takeTrap.ofNext hr
      · exact h.takeFpTrap.ofNext hr
      · split at hr
        · exact canonical.Bundled.run h hm hr
        · exact canonical.Bundled.wait h hm hr

end Sys2Proof

/-! SUPPORT. The canonical form through messages, resets and repairs, the vault, faults of memory, the host, and the copy engines. -/

namespace Sys2Proof

open Machine

theorem canonical.askInbox {s : State} {k c : Nat} (h : canonical s) : canonical (askInbox s k c) :=
  h.updCore

theorem canonical.sendMsg {s : State} {k : Nat} {m : Msg} (h : canonical s) : canonical (sendMsg s k m) :=
  h.countSent.updCore

theorem canonical.execMsend {rel : Bool} {len tgt src : BitVec 5} {off : BitVec 30} {s t : State} (h : canonical s)
    (hr : execMsend rel len tgt src off s = .next t) : canonical t := by
  refine h.runSlot (keeps_readK.bind fun _ _ => keeps_readK.bind fun _ _ => keeps_needLegal.bind fun _ _ =>
    keeps_get.bind fun _ _ => keeps_need.bind fun _ _ => keeps_need.bind fun _ _ => keeps_accessSpans.bind fun _ _ =>
    keeps_get.bind fun w hw => ?_) hr
  split
  · exact keeps_held hw.askInbox.waitRetry
  · refine keeps_flushOwn.bind fun _ _ => keeps_get.bind fun s_2 hs_2 => ?_
    split
    · exact keeps_condTrap
    · refine (keeps_set hs_2.readFor).bind fun _ _ => ?_
      extract_lets rest
      have hrest : ∀ x0, Keeps (rest x0) := fun _ => keeps_modify fun _ h => .same h.sendMsg
      clear_value rest
      exact .ite (keeps_advanceInterval.bind fun _ _ => hrest _) (keeps_pure.bind fun _ _ => hrest _)

theorem canonical.deliverMsg {s : State} {k : Nat} {m : Msg} (h : canonical s) : canonical (deliverMsg s k m) :=
  h.write.countReceived.updCore

theorem canonical.execMessageArrival {core n : Nat} {s t : State} (h : canonical s)
    (hr : execMessageArrival core n s = .next t) : canonical t := by
  unfold Machine.execMessageArrival at hr
  dsimp only at hr
  split at hr
  · exact h.ofNext hr
  · split at hr
    · exact h.deliverMsg.ofNext hr
    · exact h.ofNext hr

theorem canonical.execMessageHandlerStart {c : Nat} {s t : State} (h : canonical s) (hr : execMessageHandlerStart c s = .next t) :
    canonical t := by
  unfold Machine.execMessageHandlerStart at hr
  dsimp only at hr
  split at hr
  · exact h.ofNext hr
  · split at hr
    · exact h.ofNext hr
    · next m _ =>
      split at hr
      · exact h.ofNext hr
      · refine .ofNext ?_ hr
        have hfiles : ∀ x, filesCanonical (handlerCtx x s.nextId m.region (.message m.slot) false m.handler
            [BitVec.ofNat 64 (apertureBase + 0xFF000 + 256 * m.slot), BitVec.ofNat 64 m.sender, BitVec.ofNat 64 m.payload.length]) :=
          fun _ => filesCanonical_handlerCtx
        exact .same (.updCore (.updCtx' h fun x _ => hfiles x))

theorem canonical.execReserveRegisterWrite {core : Nat} {v : Word} {s t : State} (h : canonical s)
    (hr : execReserveRegisterWrite core v s = .next t) : canonical t := by
  unfold Machine.execReserveRegisterWrite at hr
  dsimp only at hr
  split at hr
  · exact h.ofNext hr
  · refine .ofNext ?_ hr
    split
    · next hx =>
      split at hx
      · exact (h.moveImages hx).updCore
      · exact (h.ofSome hx).updCore
    · exact h

theorem canonical.resetContext {cause : BitVec 8} {origin : Word} {s : State} {c : Nat} (h : canonical s) :
    canonical (resetContext cause origin s c) := by
  unfold Machine.resetContext
  split
  · exact h
  · refine .faultContext (.updCtx' ?_ fun _ h => h)
    split
    · exact .same h
    · exact h

theorem canonical.reportStarts {s : State} {cause : BitVec 8} {l : List Msg} (h : canonical s) :
    canonical (reportStarts s cause l) :=
  h.foldl fun _ _ h => h.faultRecord

theorem canonical.resetCore {s : State} {k : Nat} {origin : Word} (h : canonical s) : canonical (resetCore s k origin) := by
  unfold Machine.resetCore
  refine .updCore (.same (.updCore (.reportStarts (.foldl (.foldl (h.free64.foldl fun _ _ h => h.countReceived) fun _ _ h => ?_)
    fun _ _ h => h.resetContext))))
  refine h.updCtx' fun _ hx => ?_
  split
  · exact hx
  · exact hx

theorem canonical.resetAdd {s : State} {r : ResetReq} {err : Option (BitVec 8)} (h : canonical s) :
    canonical (resetAdd s r err) :=
  .packageAddIn (.same h)

theorem canonical.execCoreReset {core n : Nat} {s t : State} (h : canonical s) (hr : execCoreReset core n s = .next t) :
    canonical t := by
  unfold Machine.execCoreReset at hr
  dsimp only at hr
  split at hr
  · split at hr
    · split at hr
      · exact h.resetCore.ofNext hr
      · exact h.updCore.ofNext hr
    · exact h.ofNext hr
  · split at hr
    · exact h.ofNext hr
    · split at hr
      · exact h.ofNext hr
      · split at hr
        · exact h.updCore.resetAdd.ofNext hr
        · split at hr
          · exact h.resetCore.resetAdd.ofNext hr
          · exact h.updCore.ofNext hr

theorem canonical.repairReset {s t : State} {k : Nat} {also : Bool} (h : canonical s) (hr : repairReset s k also = some t) :
    canonical t := by
  obtain ⟨u, hu, hr⟩ := Option.bind_eq_some_iff.mp hr
  obtain ⟨w, hw, hr⟩ := Option.bind_eq_some_iff.mp hr
  have hcu := h.moveImages hu
  have hcw : canonical w := by
    split at hw
    · exact hcu.moveImages hw
    · exact hcu.ofSome hw
  split at hr
  · exact hcw.resetCore.ofSome hr
  · cases hr

theorem canonical.execSpareSubstitution {core : Nat} {s t : State} (h : canonical s)
    (hr : execSpareSubstitution core s = .next t) : canonical t := by
  unfold Machine.execSpareSubstitution at hr
  split at hr
  · exact h.ofNext hr
  · split at hr
    · exact h.updCore.ofNext hr
    · next hx =>
      dsimp only at hr
      exact .ofNext (.same (h.repairReset hx).updCore.updCluster) hr

theorem canonical.execCoreDisable {core : Nat} {s t : State} (h : canonical s)
    (hr : execCoreDisable core s = .next t) : canonical t := by
  unfold Machine.execCoreDisable at hr
  split at hr
  · exact h.ofNext hr
  · split at hr
    · exact h.updCore.ofNext hr
    · next hx =>
      dsimp only at hr
      exact ((h.repairReset hx).foldl fun _ _ h => h.countReceived).free64.reportStarts.updCore.ofNext hr

theorem canonical.execPackageColdReset {s t : State} (hr : execPackageColdReset s = .next t) : canonical t := by
  unfold Machine.execPackageColdReset at hr
  have hsame : ∀ r, canonical r → canonical { r with pkg := s.pkg, packages := s.packages, freeIdx := s.freeIdx } := fun _ h => .same h
  exact (hsame State.reset Proofs.canonical_reset).ofNext hr

theorem canonical.execVaultConfigWrite {cl : Nat} {v : Word} {s t : State} (h : canonical s)
    (hr : execVaultConfigWrite cl v s = .next t) : canonical t := by
  unfold Machine.execVaultConfigWrite at hr
  dsimp only at hr
  split at hr
  · exact h.ofNext hr
  · exact .ofNext (.same h.updCluster) hr

theorem canonical.loseRange {s : State} {lo hi : Nat} (h : canonical s) : canonical (loseRange s lo hi) :=
  .withMem h (Map.wf_filter _ h.mem)

theorem canonical.execDivisionChangeComplete {cl : Nat} {s t : State} (h : canonical s)
    (hr : execDivisionChangeComplete cl s = .next t) : canonical t := by
  unfold Machine.execDivisionChangeComplete at hr
  dsimp only at hr
  split at hr
  · exact h.ofNext hr
  · exact .ofNext (.updCluster (.loseRange (.ite h (.same h.flushSlice)))) hr

theorem canonical.execPageWalk {c : Nat} {va : Word} {write : Bool} {s t : State} (h : canonical s)
    (hr : execPageWalk c va write s = .next t) : canonical t := by
  unfold Machine.execPageWalk at hr
  dsimp only at hr
  split at hr
  · exact h.ofNext hr
  · split at hr
    · exact h.ofNext hr
    · next hx => exact .ofNext (.ite (h.walkInstall hx).markDirty (h.walkInstall hx)) hr

theorem canonical.execSysTlbinv {die : Nat} {rec_ : Word} {s t : State} (h : canonical s)
    (hr : execSysTlbinv die rec_ s = .next t) : canonical t := by
  unfold Machine.execSysTlbinv at hr
  dsimp only at hr
  split at hr
  · exact h.ofNext hr
  · split at hr
    · exact h.ofNext hr
    · next hx =>
      split at hr
      · exact (h.readVia hx).ofNext hr
      · split at hr
        · exact (h.readVia hx).ofNext hr
        · next hy => exact ((h.readVia hx).translateCounter hy).updDie.ofNext hr

theorem canonical.dropTranslations {s : State} {die : Nat} {e : Inval} (h : canonical s) : canonical (dropTranslations s die e) :=
  (h.foldl fun _ _ h => .ite h.updDie h).foldl fun _ _ h => .ite h.updCore h

theorem canonical.recheckWaits {s : State} {die : Nat} {e : Inval} (h : canonical s) : canonical (recheckWaits s die e) :=
  (h.foldl fun _ _ h => .ite h.wake h).foldl fun _ _ h => .ite (h.foldl fun _ _ h => h.releaseEntry) h

theorem canonical.execInvalidationComplete {die n : Nat} {s t : State} (h : canonical s)
    (hr : execInvalidationComplete die n s = .next t) : canonical t := by
  unfold Machine.execInvalidationComplete at hr
  split at hr
  · exact h.ofNext hr
  · split at hr
    · exact h.ofNext hr
    · dsimp only at hr
      refine .ofNext (.packageAddIn ?_) hr
      split
      · dsimp only
        exact h.updDie.dropTranslations.recheckWaits
      · exact h.updDie.dropTranslations.recheckWaits.releaseFor

theorem canonical.execWatchpointReport {n : Nat} {s t : State} (h : canonical s)
    (hr : execWatchpointReport n s = .next t) : canonical t := by
  unfold Machine.execWatchpointReport at hr
  split at hr
  · exact h.ofNext hr
  · dsimp only at hr
    split at hr
    · exact .ofNext (.fireShutter (.same h)) hr
    · exact .ofNext (.updCtx' (.same h) fun _ h => by exact h) hr

theorem canonical.markBad {s : State} {pa : Nat} {cause : BitVec 8} (h : canonical s) : canonical (markBad s pa cause) := by
  unfold Machine.markBad
  dsimp only
  split
  · exact .ite (.ite h (.same h)) h
  · exact .ite (.ite h (.same h)) h
  · exact .ite h (.ite (.same h) (.ite h (.same h)))
  · exact h

theorem canonical.markBadSide {s : State} {pa : Nat} {cause : BitVec 8} (h : canonical s) :
    canonical (markBadSide s pa cause) := by
  unfold Machine.markBadSide
  dsimp only
  split
  · exact .ite (.ite h (.same h)) h
  · exact .ite (.ite h (.same h)) h
  · exact h

theorem canonical.execUncorrectableError {t : ErrTarget} {s u : State} (h : canonical s)
    (hr : execUncorrectableError t s = .next u) : canonical u := by
  unfold Machine.execUncorrectableError at hr
  dsimp only at hr
  refine .ofNext ?_ hr
  split
  · exact h.countEvent.markBad
  · exact h.countEvent.markBadSide
  · exact .same h.countEvent
  · refine .updCtx' h.countEvent fun _ h => ?_
    split
    · exact h
    · exact h
  · exact h.countEvent.updCtx' fun _ h => h
  · exact h.countEvent.updCtx' fun _ h => h
  · exact h.countEvent.updCore
  · exact .same h.countEvent

theorem canonical.scrubbed {s : State} {pa : Nat} (h : canonical s) : canonical (scrubbed s pa) :=
  .ite (.same h) h

theorem canonical.execPatrolScrub {pa : Nat} {corrected : Bool} {s t : State} (h : canonical s)
    (hr : execPatrolScrub pa corrected s = .next t) : canonical t := by
  unfold Machine.execPatrolScrub at hr
  split at hr
  · exact h.ofNext hr
  · dsimp only at hr
    split at hr
    · split at hr
      · exact h.scrubbed.ofNext hr
      · split at hr
        · exact h.scrubbed.countEvent.ofNext hr
        · split at hr
          · exact .ofNext (.ite (.same h.scrubbed) (.same h.scrubbed)) hr
          · exact h.scrubbed.ofNext hr
    · exact h.scrubbed.ofNext hr

theorem canonical.execPostPackageRepair {pa : Nat} {s t : State} (h : canonical s)
    (hr : execPostPackageRepair pa s = .next t) : canonical t := by
  unfold Machine.execPostPackageRepair at hr
  exact .ofNext (.ite (.same h) h) hr

theorem canonical.execSpareChannelMigration {die ch : Nat} {s t : State} (h : canonical s)
    (hr : execSpareChannelMigration die ch s = .next t) : canonical t := by
  unfold Machine.execSpareChannelMigration at hr
  split at hr
  · exact h.ofNext hr
  · exact .ofNext (.same h) hr

theorem canonical.answer {s : State} {h' : HostOut} (h : canonical s) : canonical (answer s h') :=
  .same h

theorem canonical.hostSector {s : State} (h : canonical s) : canonical (hostSector s) := by
  unfold Machine.hostSector
  split
  · exact h
  · exact .ite (.answer (.same (h.foldl fun _ _ h => h.storeAt))) (.same (h.foldl fun _ _ h => h.storeAt))

theorem canonical.hostSectors {n : Nat} {s : State} (h : canonical s) : canonical (hostSectors n s) := by
  induction n generalizing s with
  | zero => exact h
  | succ n ih => exact ih h.hostSector

theorem canonical.flushHost {s : State} {qp : Nat} (h : canonical s) : canonical (flushHost s qp) :=
  h.hostSectors

theorem canonical.hostCycle {s : State} (h : canonical s) : canonical (hostCycle s) :=
  .ite h h.freeNat.hostSectors

theorem canonical.refuseVerb {s : State} {qp : Nat} {r : Region} {cause : BitVec 8} {tval : Word} (h : canonical s) :
    canonical (refuseVerb s qp r cause tval) :=
  h.confirmWalk.answer

theorem canonical.execHostRdmaWrite {qp : Nat} {va : Word} {data : List Byte} {s t : State} (h : canonical s)
    (hr : execHostRdmaWrite qp va data s = .next t) : canonical t := by
  unfold Machine.execHostRdmaWrite at hr
  split at hr
  · exact h.ofNext hr
  · split at hr
    · exact h.answer.ofNext hr
    · split at hr
      · exact h.refuseVerb.ofNext hr
      · next hx =>
        split at hr
        · exact (h.translateRange hx).flushHost.answer.ofNext hr
        · exact .ofNext (.same (h.translateRange hx)) hr

theorem canonical.execHostRdmaRead {qp : Nat} {va : Word} {len : Nat} {s t : State} (h : canonical s)
    (hr : execHostRdmaRead qp va len s = .next t) : canonical t := by
  unfold Machine.execHostRdmaRead at hr
  split at hr
  · exact h.ofNext hr
  · split at hr
    · exact h.answer.ofNext hr
    · dsimp only at hr
      split at hr
      · next hx => exact (h.flushHost.readVia hx).answer.ofNext hr
      · exact h.flushHost.refuseVerb.ofNext hr

theorem canonical.execHostFetchAndAdd {qp : Nat} {va v : Word} {s t : State} (h : canonical s)
    (hr : execHostFetchAndAdd qp va v s = .next t) : canonical t := by
  unfold Machine.execHostFetchAndAdd at hr
  split at hr
  · exact h.ofNext hr
  · split at hr
    · exact h.answer.ofNext hr
    · dsimp only at hr
      split at hr
      · exact h.flushHost.refuseVerb.ofNext hr
      · next hx =>
        split at hr
        · next hy => exact ((h.flushHost.translateCounter hx).counterAdd hy).answer.ofNext hr
        · exact (h.flushHost.translateCounter hx).countFailedAdd.answer.ofNext hr

theorem canonical.execHostCompareAndSwap {qp : Nat} {_va _c _v : Word} {s t : State} (h : canonical s)
    (hr : execHostCompareAndSwap qp _va _c _v s = .next t) : canonical t := by
  unfold Machine.execHostCompareAndSwap at hr
  exact .ofNext (.ite h.answer h) hr

theorem canonical.execShutterFire {src : ShutSource} {tag ctx : BitVec 16} {s t : State} (h : canonical s)
    (hr : execShutterFire src tag ctx s = .next t) : canonical t := by
  unfold Machine.execShutterFire at hr
  exact h.fireShutter.ofNext hr

theorem canonical.execContactSheetGatherEnd {s t : State} (h : canonical s)
    (hr : execContactSheetGatherEnd s = .next t) : canonical t := by
  unfold Machine.execContactSheetGatherEnd at hr
  split at hr
  · exact h.ofNext hr
  · dsimp only at hr
    refine .ofNext ?_ hr
    split
    · exact .same h
    · split
      · next hx => exact .same (h.writeVia hx)
      · exact .same h

theorem canonical.execDensitometerSample {n v : Nat} {s t : State} (h : canonical s)
    (hr : execDensitometerSample n v s = .next t) : canonical t := by
  unfold Machine.execDensitometerSample at hr
  exact h.sampleDens.ofNext hr

theorem canonical.execDensitometerClear {n : Nat} {s t : State} (h : canonical s)
    (hr : execDensitometerClear n s = .next t) : canonical t := by
  unfold Machine.execDensitometerClear at hr
  exact .ofNext (.same h) hr

theorem canonical.nameRing {s : State} {rcb : Word} {sp : Space} (h : canonical s) : canonical (nameRing s rcb sp) := by
  unfold Machine.nameRing
  dsimp only
  split
  · next hx => exact .same (h.schedRegion hx)
  · split
    · next hy => exact .same (h.readVia hy)
    · exact .same h

theorem canonical.execRegisterWrite {r : MgmtReg} {v : List Word} {s t : State} (h : canonical s)
    (hr : execRegisterWrite r v s = .next t) : canonical t := by
  unfold Machine.execRegisterWrite at hr
  dsimp only at hr
  refine .ofNext ?_ hr
  split
  · split
    · exact .ite (.same h) h
    · exact h
  · exact .ite h.updDie h
  · split
    · exact .same h.updDie
    · exact h
  · exact .ite (.same h) h
  · exact .ite (.same h) h
  · exact h.updDie
  · exact .ite h.updCore h
  · exact .same h
  · exact .ite (.same h) h
  · exact .same h
  · exact .ite h.nameRing h
  · exact .same h
  · exact .same h
  · exact .same h
  · exact .same h
  · exact h.setEngine
  · exact .ite h.updCore h
  · exact h
  · exact h
  · exact h
  · exact .same h
  · exact .same h
  · exact .same h
  · exact .same h
  · exact .same h
  · exact .same h
  · exact .same h

theorem canonical.installKeys {s : State} (h : canonical s) : canonical (installKeys s) :=
  h.foldl fun _ _ h => h.updDie

theorem canonical.execBoot {ok : Bool} {code : Nat} {s t : State} (h : canonical s)
    (hr : execBoot ok code s = .next t) : canonical t := by
  unfold Machine.execBoot at hr
  split at hr
  · exact h.ofNext hr
  · split at hr
    · exact .ofNext (.same h) hr
    · dsimp only at hr
      exact .ofNext (.same (.ite h.installKeys h)) hr

theorem canonical.execAttestationRequest {nonce : List Byte} {s t : State} (h : canonical s)
    (hr : execAttestationRequest nonce s = .next t) : canonical t := by
  unfold Machine.execAttestationRequest at hr
  split at hr
  · exact h.ofNext hr
  · dsimp only at hr
    exact .ofNext (.same h) hr

theorem canonical.execClockThrottle {mhz : Nat} {s t : State} (h : canonical s)
    (hr : execClockThrottle mhz s = .next t) : canonical t := by
  unfold Machine.execClockThrottle at hr
  dsimp only at hr
  exact .ofNext (.ite (.same h) (.ite (.same h) h)) hr

theorem keeps_readCmdRec {va : Word} : Keeps (readCmdRec va) :=
  keeps_need.bind fun _ _ => keeps_flushOwn.bind fun _ _ => keeps_loadStrict

theorem keeps_cmdCounter {va : Word} : Keeps (cmdCounter va) :=
  keeps_get.bind fun t ht => (keeps_liftTrap fun _ hx => ht.translateCounter hx).bind fun v hr => keeps_set hr

theorem keeps_acceptCmd {e : EngineId} {wait : Wait} {form : Nat} {bits : EngBits} {recVa : Word} {bs : List Byte}
    {ctr : Word} {amount : Nat} : Keeps (acceptCmd e wait form bits recVa bs ctr amount) := by
  unfold Machine.acceptCmd
  refine keeps_get.bind fun t ht => ?_
  extract_lets c rest
  have hrest : ∀ x0, Keeps (rest x0) := fun _ => by
    unfold rest
    refine keeps_curCtx.bind fun _ _ => ?_
    extract_lets rest'
    have hrest' : ∀ x0, Keeps (rest' x0) := fun _ => keeps_modify fun _ h => .countSent (.same h.setEngine)
    clear_value rest'
    exact .ite (keeps_advanceInterval.bind fun _ _ => hrest' _) (keeps_pure.bind fun _ _ => hrest' _)
  clear_value rest
  exact .ite ((keeps_held ht.waitRetry).then fun _ => hrest _) (hrest _)

theorem keeps_needAligned {rec_ addr stride : Word} {w : Nat} : Keeps (needAligned rec_ addr stride w) :=
  keeps_need.bind fun _ _ => keeps_need

theorem keeps_checkRecord {form : Nat} {rec_ : Word} {bs : List Byte} : Keeps (checkRecord form rec_ bs) := by
  unfold Machine.checkRecord
  refine keeps_needLegal.bind fun _ _ => ?_
  split
  · split
    · exact keeps_illegal
    · exact keeps_needLegal.bind fun _ _ => keeps_needAligned.bind fun _ _ => keeps_needAligned
  · split
    · exact keeps_needAligned.bind fun _ _ => keeps_needAligned
    · exact keeps_illegal
  · exact keeps_need
  · exact keeps_need
  · exact keeps_pure

theorem keeps_issueEngine {form : Nat} {pick : State → Nat → EngineId} {sel : Nat} {f : EngArgs} : Keeps
    (issueEngine form pick sel f) :=
  keeps_readK.bind fun _ _ => keeps_readK.bind fun _ _ => keeps_readCmdRec.bind fun _ _ => keeps_checkRecord.bind fun _ _ =>
    keeps_cmdCounter.bind fun _ _ => keeps_get.bind fun _ _ => keeps_acceptCmd

theorem canonical.execEcopy {eng : BitVec 2} {f : EngArgs} {s t : State} (h : canonical s)
    (hr : execEcopy eng f s = .next t) : canonical t :=
  h.runSlot keeps_issueEngine hr

theorem canonical.execEgather {f : EngArgs} {s t : State} (h : canonical s) (hr : execEgather f s = .next t) :
    canonical t :=
  h.runSlot keeps_issueEngine hr

theorem canonical.execEscatter {f : EngArgs} {s t : State} (h : canonical s) (hr : execEscatter f s = .next t) :
    canonical t :=
  h.runSlot keeps_issueEngine hr

theorem canonical.execEfill {eng : BitVec 2} {f : EngArgs} {s t : State} (h : canonical s)
    (hr : execEfill eng f s = .next t) : canonical t :=
  h.runSlot keeps_issueEngine hr

theorem canonical.execEconv {eng : BitVec 2} {f : EngArgs} {s t : State} (h : canonical s)
    (hr : execEconv eng f s = .next t) : canonical t :=
  h.runSlot keeps_issueEngine hr

theorem canonical.execEstat {dst : BitVec 5} {e : BitVec 3} {s t : State} (h : canonical s)
    (hr : execEstat dst e s = .next t) : canonical t :=
  h.runSlot (keeps_get.bind fun _ _ => keeps_pendResult) hr

theorem canonical.rowRead {s : State} {v : View} {va : Word} {n : Nat} {r : List Byte} {t : State} (h : canonical s)
    (hr : rowRead s v va n = .ok (r, t)) : canonical t := by
  unfold Machine.rowRead at hr
  split at hr
  · cases hr
  · next hx =>
    cases hr
    exact h.readVia hx

theorem canonical.rowWrite {s : State} {v : View} {w : Machine.Writer} {va : Word} {bs : List Byte} {t : State}
    (h : canonical s) (hr : rowWrite s v w va bs = .ok t) : canonical t := by
  unfold Machine.rowWrite at hr
  split at hr
  · cases hr
  · split at hr
    · cases hr
    · next hx => exact (h.writeVia hx).ofOk hr

theorem canonical.execRow {c : Cmd} {v : View} {w : Machine.Writer} {s : State} {i : Nat} {t : State} (h : canonical s)
    (hr : execRow c v w s i = .ok t) : canonical t := by
  unfold Machine.execRow at hr
  dsimp only at hr
  split at hr
  · split at hr
    · cases hr
    · next hx =>
      split at hr
      · exact (h.rowRead hx).ofOk hr
      · split at hr
        · cases hr
        · next hy => exact ((h.rowRead hx).rowRead hy).rowWrite hr
  · split at hr
    · cases hr
    · next hx =>
      split at hr
      · exact (h.rowRead hx).ofOk hr
      · split at hr
        · cases hr
        · next hy => exact ((h.rowRead hx).rowRead hy).rowWrite hr
  · exact h.rowWrite hr
  · split at hr
    · split at hr
      · cases hr
      · next hx => exact (h.rowRead hx).rowWrite hr
    · exact h.ofOk hr
  · split at hr
    · cases hr
    · next hx => exact (h.rowRead hx).rowWrite hr

theorem canonical.execRows {c : Cmd} {v : View} {w : Machine.Writer} {n i : Nat} {s : State} (h : canonical s) :
    canonical (execRows c v w n i s).1 := by
  induction n generalizing i s with
  | zero => exact h
  | succ n ih =>
    unfold Machine.execRows
    split
    · exact h
    · next hx => exact ih (h.execRow hx)

theorem canonical.countCommand {s : State} {e : EngineId} {c : Cmd} (h : canonical s) : canonical (countCommand s e c) := by
  unfold Machine.countCommand
  split
  · exact h.setEngine
  · exact h

theorem canonical.finishCmd {s : State} {e : EngineId} {c : Cmd} {err : Option (BitVec 8 × Word)}
    {errOnly : Option (BitVec 8)} (h : canonical s) : canonical (finishCmd s e c err errOnly).1 := by
  unfold Machine.finishCmd
  split
  · dsimp only
    split
    · next hx => exact h.countCommand.addVia hx
    · exact h.countCommand.countIfBad.confirmWalk.outsideTrap
  · refine .outsideTrap (.confirmWalk ?_)
    split
    · next hx => exact h.countCommand.addVia hx
    · exact h.countCommand.countIfBad.confirmWalk.outsideTrap

theorem canonical.execEngineShadowSwap {e : EngineId} {s t : State} (h : canonical s)
    (hr : execEngineShadowSwap e s = .next t) : canonical t := by
  unfold Machine.execEngineShadowSwap at hr
  exact h.setEngine.ofNext hr

theorem canonical.runCopyEngine {s : State} {e : EngineId} (h : canonical s) : canonical (runCopyEngine s e) := by
  unfold Machine.runCopyEngine
  split
  · exact h
  · split
    · exact h
    · split
      · exact h
      · next hx =>
        dsimp only
        exact (h.execRows.fst hx).finishCmd.setEngine
      · next hx =>
        dsimp only
        exact (h.execRows.fst hx).finishCmd.setEngine

theorem canonical.execEplane {f : EngArgs} {s t : State} (h : canonical s) (hr : execEplane f s = .next t) :
    canonical t :=
  h.runSlot (keeps_readK.bind fun _ _ => keeps_readK.bind fun _ _ => keeps_readCmdRec.bind fun _ _ =>
    keeps_needLegal.bind fun _ _ => keeps_need.bind fun _ _ => keeps_cmdCounter.bind fun _ _ => keeps_acceptCmd) hr

theorem canonical.setShadows {s : State} {ks : List Nat} {p : Plane} (h : canonical s) : canonical (setShadows s ks p) :=
  h.foldl fun _ _ h => h.updCore

theorem canonical.loadPlane {s : State} {d : Nat} {c : Cmd} (h : canonical s) : canonical (loadPlane s d c).1 := by
  unfold Machine.loadPlane
  split
  · exact h.setShadows.finishCmd
  · next hx =>
    split
    · exact (h.readVia hx).setShadows.finishCmd
    · exact (h.readVia hx).setShadows.finishCmd

theorem canonical.runLoader {s : State} {d : Nat} (h : canonical s) : canonical (runLoader s d) := by
  unfold Machine.runLoader
  dsimp only
  split
  · exact h
  · exact .ite h h.loadPlane.setEngine
  · exact .ite h (.ite h h.loadPlane.setEngine.updDie)
  · exact .ite (.ite h h.loadPlane.setEngine) (.ite h h.loadPlane.setEngine.updDie)

theorem canonical.execConfigLoaderLoad {die : Nat} {s t : State} (h : canonical s)
    (hr : execConfigLoaderLoad die s = .next t) : canonical t := by
  unfold Machine.execConfigLoaderLoad at hr
  exact h.runLoader.ofNext hr

theorem canonical.execManagementEplane {die : Nat} {rec_ ctr : Word} {amount : Nat} {s t : State} (h : canonical s)
    (hr : execManagementEplane die rec_ ctr amount s = .next t) : canonical t := by
  unfold Machine.execManagementEplane at hr
  dsimp only at hr
  split at hr
  · exact h.ofNext hr
  · split at hr
    · exact h.ofNext hr
    · next hx =>
      split at hr
      · exact (h.readVia hx).ofNext hr
      · split at hr
        · exact (h.readVia hx).ofNext hr
        · next hy => exact .ofNext (.same ((h.readVia hx).translateCounter hy).updDie) hr

end Sys2Proof

/-! SUPPORT. The canonical form through the exchange of planes, the rings and their launches, and the placement of tasks. -/

namespace Sys2Proof

open Machine

theorem canonical.swapLocked {s : State} {c : Nat} {ctr : Option Word} (h : canonical s) : canonical (swapLocked s c ctr) :=
  .updCore (.same h.countSent)

theorem canonical.execSwap {ctr : Option (BitVec 5)} {s t : State} (h : canonical s) (hr : execSwap ctr s = .next t) :
    canonical t := by
  refine h.runSlot ?_ hr
  extract_lets rest
  have hrest : ∀ x0, Keeps (rest x0) := fun _ => by
    unfold rest
    refine keeps_get.bind fun u hu => keeps_curCtx.bind fun _ _ => keeps_curCore.bind fun _ _ => ?_
    dsimp only
    split
    · split
      · exact keeps_needLegal.bind fun _ _ => keeps_held hu.waitRetry
      · exact keeps_pure
    · exact keeps_needLegal.bind fun _ _ => keeps_held (hu.swapLocked.updCtx' fun _ h => by exact h).waitRetry
  clear_value rest
  split
  · exact keeps_pure.bind fun _ _ => hrest _
  · exact keeps_readK.bind fun _ _ => keeps_cmdCounter.bind fun _ _ => keeps_pure.bind fun _ _ => hrest _

theorem canonical.tokenAdd {k : Nat} {s : State} {t : SwapToken} (h : canonical s) : canonical (tokenAdd k s t) := by
  unfold Machine.tokenAdd
  dsimp only
  split
  · exact h.countReceived
  · split
    · next hx => exact h.countReceived.releaseFor.addVia hx
    · exact h.countReceived.releaseFor.countIfBad.faultRecord

theorem canonical.exchangePlanes {s : State} {k : Nat} (h : canonical s) : canonical (exchangePlanes s k) :=
  h.updCore

theorem canonical.unlockShadow {s : State} {k : Nat} (h : canonical s) : canonical (unlockShadow s k) :=
  ((h.foldl fun _ _ h => h.tokenAdd).foldl fun _ _ h => .ite h.wake h).updCore

theorem canonical.execPlaneFlip {core : Nat} {s t : State} (h : canonical s) (hr : execPlaneFlip core s = .next t) :
    canonical t := by
  unfold Machine.execPlaneFlip at hr
  dsimp only at hr
  split at hr
  · exact h.ofNext hr
  · split at hr
    · exact .ofNext (.ite h.updCore h) hr
    · exact h.exchangePlanes.unlockShadow.ofNext hr

theorem canonical.execManagementFlip {core : Nat} {s t : State} (h : canonical s)
    (hr : execManagementFlip core s = .next t) : canonical t := by
  unfold Machine.execManagementFlip at hr
  dsimp only at hr
  split at hr
  · exact h.ofNext hr
  · exact h.exchangePlanes.ofNext hr

theorem canonical.serveRing {s : State} {r : Region} {sp : Space} {next seen : Nat} (h : canonical s) :
    canonical (serveRing s r sp next seen) :=
  .ite h (.same h)

theorem canonical.ringCounters {s : State} {r : Region} {l d : Nat × Nat} {t : State} (h : canonical s)
    (hr : ringCounters s r = .ok (l, d, t)) : canonical t := by
  unfold Machine.ringCounters at hr
  split at hr
  · cases hr
  · next hx =>
    split at hr
    · cases hr
    · next hy => exact ((h.counterAt hx).counterAt hy).ofOk3 hr

theorem canonical.execLaunch {dst pkt : BitVec 5} {s t : State} (h : canonical s) (hr : execLaunch dst pkt s = .next t) :
    canonical t := by
  refine h.runSlot (keeps_readK.bind fun _ _ => keeps_need.bind fun _ _ => keeps_flushOwn.bind fun _ _ =>
    keeps_loadStrict.bind fun bs _ =>
    keeps_needLegal.bind fun _ _ => keeps_get.bind fun st hst => ?_) hr
  clear hr
  extract_lets c mine rcb withRegion
  have hregion : ∀ r, Keeps (withRegion r) := fun r => by
    refine keeps_need.bind fun _ _ => keeps_get.bind fun st hst => keeps_need.bind fun _ _ => ?_
    extract_lets withCounters
    have hcounters : ∀ p, canonical p.2.2 → Keeps (withCounters p) := fun ⟨⟨lpa, l⟩, ⟨cpa, done⟩, st⟩ hst => by
      refine (keeps_set hst).bind fun _ _ => ?_
      extract_lets old issue room
      have hissue : ∀ u, Keeps (issue u) := fun _ => by
        refine keeps_releaseNow.bind fun _ _ => .bind (P := fun _ => True) (keeps_modify fun s hs =>
          .serveRing (.packageAdd ?_)) fun _ _ => keeps_pendResult
        split
        · next hx => exact hs.writeVia hx
        · exact hs
      clear_value issue
      have hroom : ∀ u, Keeps (room u) := fun _ => .ite ((keeps_held hst.waitRetry).then fun _ => hissue _) (hissue _)
      clear_value room
      split
      · exact keeps_condTrap.then fun _ => hroom _
      · exact hroom _
    clear_value withCounters
    split
    · next p hx =>
      obtain ⟨l, d, u⟩ := p
      exact (keeps_pure_of (P := fun p => canonical p.2.2) (hst.ringCounters hx)).bind fun p hp => hcounters p hp
    · exact (keeps_condTrap (P := fun p => canonical p.2.2)).bind fun p hp => hcounters p hp
  clear_value withRegion
  split
  · next hx => exact (keeps_set (hst.readRegion hx)).bind fun _ _ => keeps_pure.bind fun _ _ => hregion _
  · exact keeps_condTrap.then fun _ => hregion _
  · exact keeps_condTrap.then fun _ => hregion _

theorem canonical.errorAdd {s : State} {r : Region} {ctr : Word} {inc : Nat} {cause : BitVec 8} (h : canonical s) :
    canonical (errorAdd s r ctr inc cause) :=
  .ite h h.packageAdd

theorem canonical.refusePacket {s : State} {r : Region} {p : LaunchPkt} {i : Nat} {cause : BitVec 8} (h : canonical s) :
    canonical (refusePacket s r p i cause) :=
  .faultRecord (.same h.errorAdd)

theorem canonical.startSet {s : State} {r : Region} {p : LaunchPkt} (h : canonical s) : canonical (startSet s r p) :=
  .same h

theorem canonical.launchNode {s : State} {r : Region} {p : LaunchPkt} {i : Nat} (h : canonical s) :
    canonical (launchNode s r p i) := by
  unfold Machine.launchNode
  split
  · exact h.startSet
  · split
    · exact h.errorAdd.faultRecord
    · next hx => exact .ite (h.readVia hx).startSet (.ite (h.readVia hx) (h.readVia hx).packageAdd)

theorem canonical.admitPacket {s : State} {ring : RingState} {bs : List Byte} {r : Region} {t : State} (h : canonical s)
    (hr : admitPacket s ring bs = .ok (r, t)) : canonical t := by
  unfold Machine.admitPacket at hr
  dsimp only at hr
  split at hr
  · cases hr
  · split at hr
    · cases hr
    · next hx =>
      split at hr
      · cases hr
      · split at hr
        · cases hr
        · next hy =>
          split at hr
          · exact ((h.schedRegion hx).readVia hy).ofOk2 hr
          · split at hr
            · cases hr
            · next hz => exact (((h.schedRegion hx).readVia hy).translateCounter hz).ofOk2 hr

theorem canonical.setRing {s : State} {rcb : Word} {f : RingState → RingState} (h : canonical s) : canonical (setRing s rcb f) :=
  .same h

theorem canonical.rereadRing {s : State} {ring : RingState} (h : canonical s) : canonical (rereadRing s ring).2 := by
  unfold Machine.rereadRing
  split
  · next hx => exact h.schedRegion hx
  · exact h

theorem canonical.ringCycle {s : State} (h : canonical s) : canonical (ringCycle s) := by
  unfold Machine.ringCycle
  refine .foldl h fun _ _ h => ?_
  split
  · exact h
  · exact .ite h h.rereadRing.setRing

theorem canonical.readPacket {s : State} {ring : RingState} (h : canonical s) : canonical (readPacket s ring) := by
  unfold Machine.readPacket
  dsimp only
  split
  · exact h.setRing.confirmWalk.packageAdd.faultRecord
  · next hx =>
    split
    · exact (h.setRing.readVia hx).packageAdd.refusePacket
    · next hy =>
        exact .ite (.same ((h.setRing.readVia hx).packageAdd.admitPacket hy))
          ((h.setRing.readVia hx).packageAdd.admitPacket hy).launchNode

theorem canonical.execPacketRead {region : Nat} {s t : State} (h : canonical s)
    (hr : execPacketRead region s = .next t) : canonical t := by
  unfold Machine.execPacketRead at hr
  split at hr
  · split at hr
    · exact h.readPacket.ofNext hr
    · exact h.ofNext hr
  · exact h.ofNext hr

theorem canonical.execNodeEligible {n : Nat} {s t : State} (h : canonical s) (hr : execNodeEligible n s = .next t) :
    canonical t := by
  unfold Machine.execNodeEligible at hr
  split at hr
  · exact h.ofNext hr
  · split at hr
    · exact .ofNext (.launchNode (.same h)) hr
    · exact h.ofNext hr

theorem canonical.advanceSet {s : State} {id n : Nat} (h : canonical s) : canonical (advanceSet s id n) :=
  .same h

theorem canonical.execTaskPlacement {set ctx : Nat} {s t : State} (h : canonical s)
    (hr : execTaskPlacement set ctx s = .next t) : canonical t := by
  unfold Machine.execTaskPlacement at hr
  split at hr
  · exact h.ofNext hr
  · dsimp only at hr
    split at hr
    · exact h.ofNext hr
    · exact h.advanceSet.launchFill.ofNext hr

theorem canonical.startCrew {t : TaskSet} {crew first m : Nat} {window : Word} {cs : List Nat} {s u : State} (h : canonical s)
    (hr : startCrew t crew first window m cs s = some u) : canonical u := by
  induction cs generalizing m s with
  | nil => exact h.ofSome hr
  | cons c cs ih =>
    unfold Machine.startCrew at hr
    dsimp only at hr
    split at hr
    · exact ih h.launchFill hr
    · cases hr

theorem canonical.execCrewPlacement {set cl : Nat} {ctxs : List Nat} {window : Nat} {s t : State} (h : canonical s)
    (hr : execCrewPlacement set cl ctxs window s = .next t) : canonical t := by
  unfold Machine.execCrewPlacement at hr
  split at hr
  · exact h.ofNext hr
  · dsimp only at hr
    split at hr
    · exact h.ofNext hr
    · exact (h.getD fun _ hx => h.advanceSet.updCluster.startCrew hx).ofNext hr

theorem canonical.execSpillOfferWithdrawal {core : Nat} {reserve : Bool} {s t : State} (h : canonical s)
    (hr : execSpillOfferWithdrawal core reserve s = .next t) : canonical t := by
  unfold Machine.execSpillOfferWithdrawal at hr
  exact .ofNext (.ite (h.getD fun _ hx => h.moveImages hx) h) hr

theorem canonical.execSharePreemption {ctx : Nat} {s t : State} (h : canonical s)
    (hr : execSharePreemption ctx s = .next t) : canonical t := by
  unfold Machine.execSharePreemption at hr
  dsimp only at hr
  exact .ofNext (.ite h.requestCrew h) hr

theorem canonical.restoreCrew {cl : Nat} {vs : List Saved} {s t : State} (h : canonical s) (hr : restoreCrew cl vs s = some t) :
    canonical t := by
  induction vs generalizing s with
  | nil => exact h.ofSome hr
  | cons v vs ih =>
    unfold Machine.restoreCrew at hr
    split at hr
    · cases hr
    · exact ih h.restoreTask hr

theorem canonical.startRemoteHandler {s : State} {v : Saved} {c : Nat} (h : canonical s) : canonical (startRemoteHandler s v c) :=
  .same (h.updCtx' fun _ _ => filesCanonical_handlerCtx)

theorem canonical.execSavedTaskRestore {task ctx : Nat} {s t : State} (h : canonical s)
    (hr : execSavedTaskRestore task ctx s = .next t) : canonical t := by
  unfold Machine.execSavedTaskRestore at hr
  split at hr
  · exact h.ofNext hr
  · split at hr
    · split at hr
      · exact h.startRemoteHandler.ofNext hr
      · exact h.ofNext hr
    · split at hr
      · exact h.ofNext hr
      · dsimp only at hr
        exact (h.getD fun _ hx => h.restoreTask.restoreCrew hx).ofNext hr

end Sys2Proof

/-! SUPPORT. The canonical form through the manager of sequences and of KV memory: its frames, its requests and their answers. -/

namespace Sys2Proof

open Machine

theorem canonical.setFreeList {s : State} {o : Nat} {l : List Nat} (h : canonical s) : canonical (setFreeList s o l) :=
  .same h

theorem canonical.splitDown {b w n : Nat} {s : State} (h : canonical s) : canonical (splitDown b w n s) := by
  induction n generalizing s with
  | zero => exact h
  | succ n ih => exact ih h.setFreeList

theorem canonical.allocBlock {s : State} {o r : Nat} {t : State} (h : canonical s) (hr : allocBlock s o = some (r, t)) :
    canonical t := by
  unfold Machine.allocBlock at hr
  split at hr
  · cases hr
  · split at hr
    · cases hr
    · exact h.setFreeList.splitDown.ofSome2 hr

theorem canonical.mergeUp {n b o : Nat} {s : State} (h : canonical s) : canonical (mergeUp n s b o) := by
  induction n generalizing s b o with
  | zero => exact h.setFreeList
  | succ n ih => exact .ite (ih h.setFreeList) h.setFreeList

theorem canonical.freeFrame {s : State} {f : Nat} (h : canonical s) : canonical (freeFrame s f) :=
  h.mergeUp

theorem canonical.updFrame {s : State} {f : Nat} {g : Frame → Frame} (h : canonical s) : canonical (updFrame s f g) :=
  .same h

theorem canonical.reclaim {s : State} {f : Nat} (h : canonical s) : canonical (reclaim s f) :=
  .ite h.updFrame.freeFrame h

theorem canonical.dropUse {s : State} {f : Nat} (h : canonical s) : canonical (dropUse s f) :=
  h.updFrame.reclaim

theorem canonical.unreserve {s : State} {f : Nat} (h : canonical s) : canonical (unreserve s f) :=
  h.updFrame.reclaim

theorem canonical.allocReserved {s : State} {o r : Nat} {t : State} (h : canonical s)
    (hr : allocReserved s o = some (r, t)) : canonical t := by
  unfold Machine.allocReserved at hr
  obtain ⟨⟨a, u⟩, hx, hr⟩ := Option.map_eq_some_iff.mp hr
  cases hr
  exact (h.allocBlock hx).foldl fun _ _ h => h.updFrame

theorem canonical.obtainPage.more {l ext : List Extent} {s t : State} {last : Option Extent} {start : State → Nat → State}
    (h : canonical s) (hstart : ∀ {s f}, canonical s → canonical (start s f)) (hr : obtainPage.more l s last start = .ok (ext, t)) :
    canonical t := by
  unfold Machine.obtainPage.more at hr
  dsimp only at hr
  split at hr
  · cases hr
  · next hx =>
    split at hr
    · split at hr
      · exact canonical.ofOk2 (hstart (h.allocReserved hx)) hr
      · split at hr
        · cases hr
        · exact canonical.ofOk2 (hstart (h.allocReserved hx)) hr
    · exact canonical.ofOk2 (hstart (h.allocReserved hx)) hr

theorem canonical.obtainPage {s t : State} {l ext : List Extent} (h : canonical s) (hr : obtainPage s l = .ok (ext, t)) :
    canonical t := by
  unfold Machine.obtainPage at hr
  dsimp only at hr
  split at hr
  · split at hr
    · exact h.updFrame.ofOk2 hr
    · exact obtainPage.more h (fun h => h.updFrame) hr
  · exact obtainPage.more h (fun h => h.updFrame) hr

theorem canonical.moveRow {sp : Space} {w : Machine.Writer} {die src dst n : Nat} {f : List Byte → List Byte} {s : State}
    {t : State} (h : canonical s) (hr : moveRow sp w die src dst n f s = .ok t) : canonical t := by
  unfold Machine.moveRow at hr
  split at hr
  · cases hr
  · next hx => exact (h.rowRead hx).rowWrite hr

theorem canonical.moveRows {sp : Space} {w : Nat → Machine.Writer} {n : Nat} {f : List Byte → List Byte} {l : List (Nat × Nat × Nat)}
    {s : State} (h : canonical s) : canonical (moveRows sp w n f l s).1 := by
  induction l generalizing s with
  | nil => exact h
  | cons p l ih =>
    unfold Machine.moveRows
    split
    · exact h
    · next hx => exact ih (h.moveRow hx)

theorem canonical.appendPage {sp : Space} {ctx c : Nat} {s : State} {l : List Extent} {page : Nat} {r : List Extent}
    {t : State} (h : canonical s) (hr : appendPage sp ctx c s l page = .ok (r, t)) : canonical t := by
  unfold Machine.appendPage at hr
  split at hr
  · split at hr
    · cases hr
    · next hx =>
      cases hr
      exact h.obtainPage hx
  · split at hr
    · exact h.ofOk2 hr
    · split at hr
      · cases hr
      · next hx =>
        dsimp only at hr
        split at hr
        · cases hr
        · next hy =>
          split at hr
          · cases hr
          · exact (((h.allocBlock hx).moveRows.fst hy).updFrame.updFrame.foldl fun _ _ h => h.unreserve).ofOk2 hr

theorem canonical.appendPage_error {sp : Space} {ctx c page : Nat} {s t : State} {l : List Extent} {e : KvFail} (h : canonical s)
    (hr : Machine.appendPage sp ctx c s l page = Except.error (e, t)) : canonical t := by
  unfold Machine.appendPage at hr
  split at hr
  · split at hr
    · cases hr
      exact h
    · cases hr
  · split at hr
    · cases hr
    · split at hr
      · cases hr
        exact h
      · next hx =>
        dsimp only at hr
        split at hr
        · next hy =>
          cases hr
          exact (h.allocBlock hx).moveRows.fst hy
        · next hy =>
          split at hr
          · cases hr
            exact (h.allocBlock hx).moveRows.fst hy
          · cases hr

theorem canonical.appendPages {sp : Space} {ctx c : Nat} {pages : List Nat} {s t : State} {l ext : List Extent} (h : canonical s)
    (hr : Machine.appendPages sp ctx c pages s l = .ok (ext, t)) : canonical t := by
  induction pages generalizing s l with
  | nil => exact h.ofOk2 hr
  | cons p pages ih =>
    unfold Machine.appendPages at hr
    split at hr
    · cases hr
    · next hx => exact ih (h.appendPage hx) hr

theorem canonical.appendPages_error {sp : Space} {ctx c : Nat} {pages : List Nat} {s t : State} {l : List Extent} {e : KvFail}
    (h : canonical s) (hr : Machine.appendPages sp ctx c pages s l = Except.error (e, t)) : canonical t := by
  induction pages generalizing s l with
  | nil => cases hr
  | cons p pages ih =>
    unfold Machine.appendPages at hr
    split at hr
    · next hx =>
      cases hr
      exact h.appendPage_error hx
    · next hx => exact ih (h.appendPage hx) hr

theorem canonical.KvFail.undo {e : KvFail} {s t : State} (h : canonical s) (h' : canonical t) :
    canonical (KvFail.undo e s t) := by
  unfold Machine.KvFail.undo
  split
  · exact .same h'
  · exact h

theorem canonical.appendRange {sp : Space} {ctx : Nat} {s : State} {l : List Extent} {c n : Nat} {r : List Extent} {t : State}
    (h : canonical s) (hr : appendRange sp ctx s l c n = .ok (r, t)) : canonical t := by
  unfold Machine.appendRange at hr
  dsimp only at hr
  split at hr
  · cases hr
  · next hx =>
    cases hr
    exact h.appendPages hx

theorem canonical.appendRange_error {sp : Space} {ctx c n : Nat} {s t : State} {l : List Extent} {e : KvFail} (h : canonical s)
    (hr : Machine.appendRange sp ctx s l c n = Except.error (e, t)) : canonical t := by
  unfold Machine.appendRange at hr
  dsimp only at hr
  split at hr
  · next hx =>
    cases hr
    exact canonical.KvFail.undo h (h.appendPages_error hx)
  · cases hr

theorem canonical.moveCohort {s : State} {n : Nat} (h : canonical s) : canonical (moveCohort s n) := by
  unfold Machine.moveCohort
  split
  · exact h
  · exact .ite h h.packageAdd

theorem canonical.putSeq {s : State} {id : Nat} {q : Machine.Seq} (h : canonical s) : canonical (putSeq s id q) :=
  .same h

theorem canonical.settleSeq {s : State} {id : Nat} {q : Machine.Seq} (h : canonical s) : canonical (settleSeq s id q) := by
  unfold Machine.settleSeq
  split
  · exact h.putSeq.moveCohort
  · exact h.putSeq

/-! ### Answers of the manager -/

/-- An answer of the manager, if it is known, comes with a canonical state. -/
def Answers (a : Option (Option Word × State)) : Prop := ∀ {w t}, a = some (w, t) → canonical t

theorem answers_now {r : Reply} (h : canonical r.2) : Answers (now r) := fun hr => h.ofSome2 hr

theorem answers_some {w : Option Word} {s : State} (h : canonical s) : Answers (some (w, s)) := fun hr => h.ofSome2 hr

theorem answers_none : Answers none := fun hr => by cases hr

theorem canonical.refuseTrap {s : State} {c : Nat} {cause : BitVec 8} {tval : Word} (h : canonical s) :
    canonical (refuseTrap s c cause tval).2 := h.trapOutside

theorem canonical.refuseFault {s : State} {c : Nat} {cause : BitVec 8} {tval : Word} (h : canonical s) :
    canonical (refuseFault s c cause tval).2 := h.confirmWalk.refuseTrap

theorem canonical.done {s : State} {id : Nat} {q : Machine.Seq} {w : Word} (h : canonical s) : canonical (done s id q w).2 := h.putSeq

theorem canonical.withId {s : State} {c id : Nat} {k1 : Word} {f : Machine.Seq → Reply} (h : canonical s)
    (hf : ∀ q, canonical (f q).2) : canonical (withId (fun r => r) s c id k1 f).2 := by
  unfold Machine.withId
  split
  · exact h.refuseTrap
  · split
    · exact h
    · split
      · exact hf _
      · exact h.refuseTrap

theorem canonical.withSeq {s : State} {c : Nat} {kid : Word} {f : Nat → Machine.Seq → Reply} (h : canonical s)
    (hf : ∀ id q, canonical (f id q).2) : canonical (withSeq s c kid f).2 := h.withId fun q => hf _ q

theorem answers_withId {s : State} {c id : Nat} {k1 : Word} {f : Machine.Seq → Option (Option Word × State)} (h : canonical s)
    (hf : ∀ q, Answers (f q)) : Answers (withId now s c id k1 f) := by
  unfold withId
  split
  · exact answers_now h.refuseTrap
  · split
    · exact answers_now h
    · split
      · exact hf _
      · exact answers_now h.refuseTrap

theorem canonical.kvAsid {s : State} {c : Nat} {k1 : Word} {r : Reply} (h : canonical s) (hr : canonical r.2) :
    canonical (kvAsid (fun r => r) s c k1 r).2 := by
  unfold Machine.kvAsid
  split
  · exact hr
  · exact h.refuseTrap

theorem answers_kvAsid {s : State} {c : Nat} {k1 : Word} {a : Option (Option Word × State)} (h : canonical s) (ha : Answers a) :
    Answers (kvAsid now s c k1 a) := by
  unfold kvAsid
  split
  · exact ha
  · exact answers_now h.refuseTrap

theorem canonical.inStates {s : State} {q : Machine.Seq} {states : List Nat} {home : Bool} {r : Reply} (h : canonical s)
    (hr : canonical r.2) : canonical (inStates s q states home r).2 := by
  unfold Machine.inStates
  split
  · exact h
  · exact hr

theorem canonical.mgrRead {s : State} {c n : Nat} {va : Word} {f : List Byte → State → Reply} (h : canonical s)
    (hf : ∀ {bs t}, canonical t → canonical (f bs t).2) : canonical (mgrRead s c va n f).2 := by
  unfold Machine.mgrRead
  split
  · exact h.refuseFault
  · next hx => exact hf (h.readVia hx)

theorem canonical.mgrWrite {s0 s : State} {c : Nat} {va : Word} {bs : List Byte} {f : State → Reply} (h0 : canonical s0)
    (h : canonical s) (hf : ∀ {t}, canonical t → canonical (f t).2) : canonical (mgrWrite s0 s c va bs f).2 := by
  unfold Machine.mgrWrite
  split
  · exact h0.refuseFault
  · next hx => exact hf (h.writeVia hx)

theorem keeps_requestOr {dst : BitVec 5} {id : State → Option Nat} {f : State → Nat → Option (Option Word × State)}
    (hf : ∀ s c, canonical s → Answers (f s c)) : Keeps (requestOr dst id f) := by
  unfold Machine.requestOr
  refine keeps_get.bind fun _ _ => ?_
  extract_lets rest
  have hrest : ∀ u, Keeps (rest u) := fun _ => by
    unfold rest
    refine keeps_get.bind fun s hs => ?_
    extract_lets perform
    have hperform : ∀ u, Keeps (perform u) := fun _ => by
      unfold perform
      split
      · exact keeps_notReady
      · next hx => exact (keeps_set ((hf _ _ hs hx).foldl fun _ _ h => h.moveCohort)).bind fun _ _ => keeps_pendResult
    clear_value perform
    exact .ite (keeps_notReady.then fun _ => hperform _) (hperform _)
  clear_value rest
  exact .ite (keeps_flushOwn.bind fun _ _ => hrest _) (keeps_notReady.then fun _ => hrest _)

theorem keeps_request {dst : BitVec 5} {id : Option Nat} {f : State → Nat → Reply} (hf : ∀ s c, canonical s → canonical (f s c).2) :
    Keeps (request dst id f) := keeps_requestOr fun s c h => answers_some (hf s c h)

theorem keeps_readRecAddr {k : BitVec 5} : Keeps (readRecAddr k) :=
  keeps_readK.bind fun _ _ => keeps_need.bind fun _ _ => keeps_pure

theorem canonical.leaveCohort {s : State} {q : Machine.Seq} (h : canonical s) : canonical (leaveCohort s q) := by
  unfold Machine.leaveCohort
  split
  · exact h
  · exact .ite (.same h) h.moveCohort

theorem canonical.hostPage {s : State} {sp : Space} {va : Word} {t : State} (h : canonical s) (hr : hostPage s sp va = some t) :
    canonical t := by
  unfold Machine.hostPage at hr
  dsimp only at hr
  split at hr
  · next hx => exact (h.leafFor hx).ofSome hr
  · cases hr

theorem canonical.creationPages {s t : State} {sp : Space} {bs : List Byte} (h : canonical s) (hr : creationPages s sp bs = some t) :
    canonical t := by
  obtain ⟨u, hu, hr⟩ := Option.bind_eq_some_iff.mp hr
  obtain ⟨w, hw, hr⟩ := Option.bind_eq_some_iff.mp hr
  split at hr
  · next hx => exact (((h.hostPage hu).hostPage hw).translate hx).ofSome hr
  · cases hr

theorem canonical.joinCohort {s : State} {r : Region} {bs : List Byte} {t : State} (h : canonical s)
    (hr : joinCohort s r bs = some t) : canonical t := by
  unfold Machine.joinCohort at hr
  dsimp only at hr
  split at hr
  · exact h.ofSome hr
  · split at hr
    · cases hr
    · next hx =>
      split at hr
      · exact .ofSome (.same (h.translateCounter hx)) hr
      · split at hr
        · exact (h.translateCounter hx).ofSome hr
        · cases hr

theorem canonical.create {s : State} {c : Nat} {bs : List Byte} {f : Nat → Machine.Seq → State → Reply} (h : canonical s)
    (hf : ∀ {id q t}, canonical t → canonical (f id q t).2) : canonical (create s c bs f).2 := by
  unfold Machine.create
  dsimp only
  split
  · exact h
  · split
    · exact h
    · next hx =>
      obtain ⟨u, hu, hj⟩ := Option.bind_eq_some_iff.mp hx
      split
      · exact h
      · split
        · exact h.refuseTrap
        · next hy => exact hf (((h.creationPages hu).joinCohort hj).allocReserved hy)

theorem canonical.parentHalf {s0 s : State} {c n : Nat} {q : Machine.Seq} {f : List Byte → State → Reply} (h0 : canonical s0)
    (h : canonical s) (hf : ∀ {bs t}, canonical t → canonical (f bs t).2) : canonical (parentHalf s0 s c q n f).2 := by
  unfold Machine.parentHalf
  split
  · exact hf h
  · split
    · exact h0.refuseFault
    · next hx => exact hf (h.readVia hx)

theorem canonical.execSqnew {dst rec_ : BitVec 5} {s t : State} (h : canonical s) (hr : execSqnew dst rec_ s = .next t) :
    canonical t :=
  h.runSlot (keeps_readRecAddr.bind fun _ _ => keeps_request fun _ _ h => h.mgrRead fun h => h.create fun h => h.done) hr

theorem canonical.execSqfork {dst idk rec_ : BitVec 5} {s t : State} (h : canonical s) (hr : execSqfork dst idk rec_ s = .next t) :
    canonical t := by
  refine h.runSlot (keeps_readK.bind fun _ _ => keeps_readRecAddr.bind fun _ _ => keeps_request fun s0 _ h0 => h0.withSeq fun _ _ =>
    h0.mgrRead fun h => ?_) hr
  dsimp only
  split
  · exact h
  · exact h.create fun h => h0.parentHalf h fun h => h0.mgrWrite h fun h => (h.foldl fun _ _ h => h.updFrame).done

theorem canonical.dropFrames {s : State} {q : Machine.Seq} (h : canonical s) : canonical (dropFrames s q) :=
  ((h.foldl fun _ _ h => h.dropUse).foldl fun _ _ h => h.unreserve).foldl fun _ _ h => h.unreserve

theorem canonical.execSqfree {dst idk : BitVec 5} {s t : State} (h : canonical s) (hr : execSqfree dst idk s = .next t) :
    canonical t := by
  refine h.runSlot (keeps_readK.bind fun _ _ => keeps_get.bind fun _ _ => ?_) hr
  extract_lets rest
  have hrest : ∀ u, Keeps (rest u) := fun _ => keeps_request fun _ _ h => h.withSeq fun _ _ =>
    h.inStates (.leaveCohort (.same h.dropFrames))
  clear_value rest
  exact .ite (keeps_notReady.then fun _ => hrest _) (hrest _)

theorem canonical.execSqtree {dst idk rec_ : BitVec 5} {s t : State} (h : canonical s) (hr : execSqtree dst idk rec_ s = .next t) :
    canonical t := by
  refine h.runSlot (keeps_readK.bind fun _ _ => keeps_readRecAddr.bind fun _ _ => keeps_request fun _ _ h => h.withSeq fun _ _ =>
    h.inStates ?_) hr
  split
  · exact h
  · refine h.mgrRead fun h => ?_
    dsimp only
    split
    · exact h
    · refine h.mgrRead fun h => ?_
      split
      · exact h.done
      · exact h

theorem canonical.toFollowers {s : State} {id : Nat} {q : Machine.Seq} {m : FollowMsg} (h : canonical s) :
    canonical (toFollowers s id q m) :=
  .same h

theorem canonical.execSqacc {dst idk tab : BitVec 5} {s t : State} (h : canonical s) (hr : execSqacc dst idk tab s = .next t) :
    canonical t := by
  refine h.runSlot (keeps_readK.bind fun _ _ => keeps_readRecAddr.bind fun _ _ => keeps_request fun _ _ h => h.withSeq fun _ _ =>
    h.inStates ?_) hr
  split
  · exact h
  · split
    · exact h
    · exact h.mgrRead fun h => h.toFollowers.done

theorem canonical.execSqpreempt {dst idk : BitVec 5} {s t : State} (h : canonical s) (hr : execSqpreempt dst idk s = .next t) :
    canonical t := by
  refine h.runSlot (keeps_readK.bind fun _ _ => keeps_request fun _ _ h => h.withSeq fun _ _ => h.inStates ?_) hr
  dsimp only
  split
  · split
    · exact h.mgrRead fun hu => h.mgrWrite hu fun h => h.done
    · exact h.mgrWrite h fun h => h.done
  · exact h.mgrWrite h fun h => h.done

theorem canonical.execSqresume {dst idk tab : BitVec 5} {s t : State} (h : canonical s) (hr : execSqresume dst idk tab s = .next t) :
    canonical t := by
  refine h.runSlot (keeps_readK.bind fun _ _ => keeps_readRecAddr.bind fun _ _ => keeps_request fun _ _ h0 => h0.withSeq fun _ _ =>
    h0.inStates (h0.mgrRead fun h => ?_)) hr
  split
  · exact h
  · extract_lets table fin
    split
    · exact h.done
    · exact h0.mgrWrite h fun h => h.done

theorem canonical.execSqrewind {dst idk n : BitVec 5} {s t : State} (h : canonical s) (hr : execSqrewind dst idk n s = .next t) :
    canonical t :=
  h.runSlot (keeps_readK.bind fun _ _ => keeps_readK.bind fun _ _ => keeps_request fun _ _ h => h.withSeq fun _ _ =>
    h.inStates (h.mgrRead fun h => h.done)) hr

theorem canonical.execSqstat {dst idk sel : BitVec 5} {s t : State} (h : canonical s) (hr : execSqstat dst idk sel s = .next t) :
    canonical t :=
  h.runSlot (keeps_readK.bind fun _ _ => keeps_request fun _ _ h => h.withSeq fun _ _ => h) hr

theorem canonical.commitPenalty {s : State} {sp : Space} {q : Machine.Seq} {t : State} (h : canonical s)
    (hr : commitPenalty s sp q = .ok t) : canonical t := by
  unfold Machine.commitPenalty at hr
  split at hr
  · exact h.ofOk hr
  · split at hr
    · cases hr
    · next hx => exact (h.readVia hx).writeVia hr

theorem canonical.followCommit {s : State} {id : Nat} {q : Machine.Seq} (h : canonical s) : canonical (followCommit s id q) := by
  unfold Machine.followCommit
  split
  · next hx => exact (h.commitPenalty hx).settleSeq
  · exact h.settleSeq.confirmWalk.faultRecord

theorem canonical.followOne {s : State} {id : Nat} {q : Machine.Seq} {n : FollowMsg} {t : State} (h : canonical s)
    (hr : followOne s id q n = some t) : canonical t := by
  unfold Machine.followOne at hr
  split at hr
  · split at hr
    · dsimp only at hr
      exact h.settleSeq.ofSome hr
    · cases hr
  · split at hr
    · split at hr
      · cases hr
      · exact h.followCommit.ofSome hr
    · cases hr
  · split at hr
    · cases hr
    · dsimp only at hr
      exact h.settleSeq.ofSome hr

theorem canonical.followAll {id : Nat} {ms : List FollowMsg} {s : State} (h : canonical s) : canonical (followAll id ms s) := by
  induction ms generalizing s with
  | nil => exact h
  | cons m ms ih =>
    unfold Machine.followAll
    split
    · exact h
    · split
      · exact h
      · next hx => exact ih (h.followOne hx)

theorem canonical.follow {s : State} {id : Nat} (h : canonical s) : canonical (follow s id) :=
  h.followAll

theorem canonical.now {r : Reply} {w : Option Word} {t : State} (h : canonical r.2) (hr : now r = some (w, t)) : canonical t :=
  answers_now h hr

theorem canonical.kvmapReply {s : State} {c : Nat} {q : Machine.Seq} {slot : Bool} {kb : KvBind} {x : Word} {layer : Nat}
    (h : canonical s) : canonical (kvmapReply s c q slot kb x layer).2 := by
  unfold Machine.kvmapReply
  cases kb with
  | rel =>
    dsimp only
    split
    · exact h
    · exact h.updFrame.reclaim
  | none =>
    dsimp only
    split
    · exact h
    · exact h
  | bind =>
    dsimp only
    split
    · exact h
    · split
      · exact h
      · exact h.updFrame

theorem canonical.execKvmap {slot : Bool} {kb : KvBind} {dst idk x : BitVec 5} {layer : BitVec 16} {s t : State} (h : canonical s)
    (hr : execKvmap slot kb dst idk x layer s = .next t) : canonical t :=
  h.runSlot (keeps_readK.bind fun _ _ => keeps_readK.bind fun _ _ => keeps_request fun _ _ h => h.kvAsid (h.withSeq fun _ _ =>
    h.kvmapReply)) hr

theorem canonical.failAnswer {s : State} {c id : Nat} {e : KvFail} {w : Option Word} {t : State} (h : canonical s)
    (hr : failAnswer s c id e = some (w, t)) : canonical t := by
  cases e with
  | held => cases hr
  | frames => exact h.refuseTrap.now hr
  | extents => exact h.refuseTrap.now hr
  | fault cause a => exact h.refuseFault.now hr

theorem canonical.execKvappend {dst idk n : BitVec 5} {s t : State} (h : canonical s) (hr : execKvappend dst idk n s = .next t) :
    canonical t := by
  refine h.runSlot (keeps_readK.bind fun _ _ => keeps_readK.bind fun _ _ => keeps_needLegal.bind fun _ _ => keeps_requestOr fun _ _ h =>
    answers_kvAsid h (answers_withId h fun _ => ?_)) hr
  split
  · exact answers_now h
  · split
    · next hx => exact (h.appendRange_error hx).failAnswer
    · next hx => exact answers_now (h.appendRange hx).done

theorem canonical.issueCmd {s : State} {c : Nat} {bits : EngBits} (h : canonical s) : canonical (issueCmd s c bits) :=
  .ite (h.updCtx' fun _ h => h) h

theorem canonical.startJob {s : State} {j : KvJob} (h : canonical s) : canonical (startJob s j) :=
  .countSent (.same h)

theorem canonical.execKvcompact {bits : EngBits} {dst idk ctr : BitVec 5} {amount : BitVec 30} {s t : State} (h : canonical s)
    (hr : execKvcompact bits dst idk ctr amount s = .next t) : canonical t := by
  refine h.runSlot (keeps_readK.bind fun _ _ => keeps_readK.bind fun _ _ => keeps_needLegal.bind fun _ _ => keeps_cmdCounter.bind
    fun _ _ => keeps_requestOr fun s c h {w t} hr => ?_) hr
  obtain ⟨⟨w, u⟩, hu, hr⟩ := Option.map_eq_some_iff.mp hr
  obtain ⟨-, rfl⟩ := Prod.mk.inj hr
  refine .issueCmd (answers_kvAsid h (answers_withId h fun _ => ?_) hu)
  split
  · exact answers_now h
  · dsimp only
    split
    · next hx => exact (h.appendRange_error hx).failAnswer
    · next hx => exact answers_now (h.appendRange hx).startJob.done

theorem canonical.endOnDies {s : State} {e : Nat → EngineId} {bad : Option (Nat × BitVec 8)} (h : canonical s) :
    canonical (endOnDies s e bad) :=
  h.foldl fun _ _ h => h.setEngine

theorem canonical.finishJob {s : State} {j : KvJob} {e : Nat → EngineId} {bad : Option (Nat × BitVec 8 × Word)}
    (h : canonical s) : canonical (finishJob s j e bad) := by
  unfold Machine.finishJob
  refine .endOnDies ?_
  split
  · split
    · next hx => exact h.countCommand.addVia hx
    · exact h.countCommand.countIfBad.confirmWalk.outsideTrap
  · refine .outsideTrap (.confirmWalk ?_)
    split
    · next hx => exact h.countCommand.addVia hx
    · exact h.countCommand.countIfBad.confirmWalk.outsideTrap

theorem canonical.compactCopies {s : State} {j : KvJob} {q : Machine.Seq} (h : canonical s) :
    canonical (compactCopies s j q) := by
  unfold Machine.compactCopies
  dsimp only
  split
  · exact h
  · next hx => exact .finishJob (.same (h.moveRows.fst hx))

theorem canonical.execKvcompactCopyDone {id : Nat} {s t : State} (h : canonical s)
    (hr : execKvcompactCopyDone id s = .next t) : canonical t := by
  unfold Machine.execKvcompactCopyDone at hr
  split at hr
  · refine .ofNext ?_ hr
    split
    · exact .ite h.compactCopies h
    · exact .follow (.settleSeq (.same h))
  · exact h.ofNext hr

theorem canonical.execKvrequant {bits : EngBits} {dst rec_ ctr : BitVec 5} {amount : BitVec 30} {s t : State} (h : canonical s)
    (hr : execKvrequant bits dst rec_ ctr amount s = .next t) : canonical t := by
  refine h.runSlot (keeps_readRecAddr.bind fun _ _ => keeps_readK.bind fun _ _ => keeps_needLegal.bind fun _ _ => keeps_cmdCounter.bind
    fun _ _ => keeps_requestOr fun s c h => answers_now (h.issueCmd.kvAsid (h.issueCmd.mgrRead fun h => ?_))) hr
  split
  · exact h.refuseTrap
  · refine h.withId fun q => ?_
    split
    · exact h
    · exact h
    · split
      · exact h
      · split
        · exact h.refuseTrap
        · next hx => exact (h.allocReserved hx).startJob.done

theorem canonical.switchPage {s : State} {j : KvJob} {q : Machine.Seq} {t : State} (h : canonical s)
    (hr : switchPage s j q = some t) : canonical t := by
  unfold Machine.switchPage at hr
  split at hr
  · exact h.unreserve.ofSome hr
  · split at hr
    · split at hr
      · cases hr
      · dsimp only at hr
        exact (h.updFrame.dropUse.foldl fun _ _ h => h.unreserve).settleSeq.ofSome hr

theorem canonical.execKvrequantSwitch {n : Nat} {s t : State} (h : canonical s)
    (hr : execKvrequantSwitch n s = .next t) : canonical t := by
  unfold Machine.execKvrequantSwitch at hr
  split at hr
  · exact h.ofNext hr
  · split at hr
    · split at hr
      · exact h.ofNext hr
      · dsimp only at hr
        split at hr
        · exact h.ofNext hr
        · next hx =>
          split at hr
          · exact .ofNext (.finishJob (.unreserve (.same (h.moveRows.fst hx)))) hr
          · split at hr
            · next hy => exact .ofNext (.finishJob (.switchPage (.same (h.moveRows.fst hx)) hy)) hr
            · exact .ofNext (.finishJob (.unreserve (.same (h.moveRows.fst hx)))) hr
    · exact h.ofNext hr

end Sys2Proof

/-! SUPPORT. The canonical form through commits and their delivery, and the remote access forms. -/

namespace Sys2Proof

open Machine

theorem canonical.tokenImage {s : State} {v : View} {vocab : Word} {size : Nat} {t : BitVec 24} {r : List Byte} {u : State}
    (h : canonical s) (hr : tokenImage s v vocab size t = .ok (r, u)) : canonical u := by
  unfold Machine.tokenImage at hr
  split at hr
  · exact h.ofOk2 hr
  · split at hr
    · cases hr
    · next hx => exact (h.readVia hx).readVia hr

theorem canonical.tokenImages {v : View} {vocab : Word} {size : Nat} {ts r : List Tok} {s t : State} (h : canonical s)
    (hr : tokenImages v vocab size ts s = .ok (r, t)) : canonical t := by
  induction ts generalizing s r t with
  | nil => exact h.ofOk2 hr
  | cons x ts ih =>
    unfold Machine.tokenImages at hr
    split at hr
    · cases hr
    · next hx =>
      split at hr
      · cases hr
      · next hy =>
        have hs := ih (h.tokenImage hx) hy
        exact hs.ofOk2 hr

theorem canonical.matchCommit {s : State} {sp : Space} {q : Machine.Seq} {toks : List Tok} {r : Matched} {t : State}
    (h : canonical s) (hr : matchCommit s sp q toks = .ok (r, t)) : canonical t := by
  unfold Machine.matchCommit at hr
  split at hr
  · exact h.ofOk2 hr
  · split at hr
    · cases hr
    · next hx =>
      split at hr
      · cases hr
      · next hy => exact ((h.readVia hx).tokenImages hy).ofOk2 hr

theorem canonical.hostAddr {s : State} {sp : Space} {va : Word} {r : Nat} {r' : Word} {t : State} (h : canonical s)
    (hr : hostAddr s sp va = .ok (r, r', t)) : canonical t := by
  unfold Machine.hostAddr at hr
  dsimp only at hr
  split at hr
  · cases hr
  · next hx => exact (h.leafFor hx).ofOk3 hr

theorem canonical.writeRecords {sp : Space} {q : Machine.Seq} {rs : List Word} {n : Nat} {s : State} (h : canonical s) :
    canonical (writeRecords sp q rs n s).2.2 := by
  induction rs generalizing n s with
  | nil => exact h
  | cons r rs ih =>
    unfold Machine.writeRecords
    split
    · exact h
    · next hx => exact ih (.same (h.hostAddr hx))

theorem canonical.sendRecords {s : State} {sp : Space} {q : Machine.Seq} {rs : List Word} {t : State} (h : canonical s)
    (hr : sendRecords s sp q rs = .ok t) : canonical t := by
  unfold Machine.sendRecords at hr
  have hwritten := h.writeRecords (sp := sp) (q := q) (rs := rs) (n := q.delivered)
  split at hr
  · exact h.ofOk hr
  · split at hr
    · cases hr
    · next hx =>
      rw [hx] at hwritten
      split at hr
      · cases hr
      · next hy => exact canonical.ofOk (.same (hwritten.hostAddr hy)) hr

theorem canonical.sendRecords_error {s : State} {sp : Space} {q : Machine.Seq} {rs : List Word} {n : Nat} {t : State} (h : canonical s)
    (hr : Machine.sendRecords s sp q rs = .error (n, t)) : canonical t := by
  unfold Machine.sendRecords at hr
  have hwritten := h.writeRecords (sp := sp) (q := q) (rs := rs) (n := q.delivered)
  split at hr
  · cases hr
  · split at hr
    · next hx =>
      rw [hx] at hwritten
      cases hr
      exact hwritten
    · next hx =>
      rw [hx] at hwritten
      split at hr
      · cases hr
        exact hwritten
      · cases hr

theorem canonical.failDelivery {s : State} {id : Nat} {q : Machine.Seq} {n : Nat} {msg : FollowMsg} (h : canonical s) :
    canonical (failDelivery s id q n msg).2 :=
  h.faultRecord.toFollowers.putSeq

theorem canonical.endCommit {s : State} {c id : Nat} {q : Machine.Seq} {m : Matched} {msg : FollowMsg} (h : canonical s) :
    canonical (endCommit s c id q m msg).2 := by
  unfold Machine.endCommit
  split
  · next hx => exact (h.sendRecords_error hx).failDelivery
  · next hx =>
    split
    · exact (h.sendRecords hx).toFollowers.putSeq
    · exact .putSeq (.same (h.sendRecords hx))

theorem canonical.commitTree {s : State} {c id : Nat} {q : Machine.Seq} {a : Accept} (h : canonical s) :
    canonical (commitTree s c id q a).2 := by
  unfold Machine.commitTree
  split
  · exact h.refuseFault
  · next hx =>
    split
    · exact h.refuseFault
    · next hy => exact ((h.matchCommit hx).commitPenalty hy).endCommit

theorem canonical.commitDirect {s : State} {c id : Nat} {q : Machine.Seq} {n : Nat} {tok : Option (BitVec 24)} (h : canonical s) :
    canonical (commitDirect s c id q n tok).2 := by
  unfold Machine.commitDirect
  split
  · exact h
  · split
    · exact h.refuseFault
    · next hx =>
      refine .endCommit ?_
      split at hx
      · exact h.ofOk2 hx
      · exact h.matchCommit hx

theorem canonical.execSqcommit {direct : Option (BitVec 5 × Option (BitVec 24))} {dst idk : BitVec 5} {s t : State} (h : canonical s)
    (hr : execSqcommit direct dst idk s = .next t) : canonical t := by
  refine h.runSlot (keeps_readK.bind fun _ _ => ?_) hr
  extract_lets rest
  have hrest : ∀ n, Keeps (rest n) := fun n => keeps_requestOr fun _ _ h => answers_withId h fun _ => by
    split
    · exact answers_now h
    · exact answers_some h.commitDirect
    · exact answers_some h.commitTree
    · exact answers_now h
  clear_value rest
  split
  · exact keeps_readK.bind fun _ _ => hrest _
  · exact keeps_pure.bind fun _ _ => hrest _

theorem canonical.endDelivery {s : State} {d : Delivery} {q : Machine.Seq} {m : FollowMsg} {w : Word} (h : canonical s) :
    canonical (endDelivery s d q m w) :=
  h.toFollowers.readyPending

theorem canonical.execRdmaAcknowledgement {id : Nat} {s t : State} (h : canonical s)
    (hr : execRdmaAcknowledgement id s = .next t) : canonical t := by
  unfold Machine.execRdmaAcknowledgement at hr
  split at hr
  · exact .ofNext (.endDelivery (.same h)) hr
  · exact h.ofNext hr

theorem canonical.execDeliveryFailure {id : Nat} {s t : State} (h : canonical s)
    (hr : execDeliveryFailure id s = .next t) : canonical t := by
  unfold Machine.execDeliveryFailure at hr
  split at hr
  · dsimp only at hr
    exact .ofNext (.endDelivery (.settleSeq (.faultRecord (.same h)))) hr
  · exact h.ofNext hr

theorem canonical.execFollowerApply {id : Nat} {m : FollowMsg} {s t : State} (h : canonical s)
    (hr : execFollowerApply id m s = .next t) : canonical t := by
  unfold Machine.execFollowerApply at hr
  split at hr
  · exact h.ofNext hr
  · exact .ofNext (.ite h.putSeq.follow h) hr

theorem canonical.pushGroups {s : State} {d : Nat} {p : Packet} (h : canonical s) : canonical (pushGroups s d p) :=
  .ite h h.updDie

theorem canonical.sendRemote {s : State} {d : Nat} {r : Remote} (h : canonical s) : canonical (sendRemote s d r) :=
  h.updDie.pushGroups

theorem keeps_srcBytes {ty : ElemTy} {r : RegRef} : Keeps (srcBytes ty r) :=
  keeps_lVecIndex.bind fun _ _ => keeps_readReg.bind fun _ _ => keeps_pure

theorem keeps_peerLeaf {ea : Word} {size : Nat} {rd wr : Bool} : Keeps (peerLeaf ea size rd wr) := by
  unfold Machine.peerLeaf
  refine keeps_need.bind fun _ _ => keeps_need.bind fun _ _ => keeps_get.bind fun t ht => ?_
  dsimp only
  split
  · exact keeps_condTrap
  · next hx => exact (keeps_set (ht.leafFor hx)).bind fun _ _ => keeps_pure

theorem keeps_needStream {pkg die : Nat} : Keeps (needStream pkg die) :=
  keeps_needRequests.bind fun _ _ => keeps_get.bind fun _ _ => .ite keeps_notReady keeps_pure

theorem keeps_needOrder {pkg die : Nat} {target : Word} {n : Nat} : Keeps (needOrder pkg die target n) :=
  keeps_get.bind fun _ _ => .ite keeps_notReady keeps_pure

theorem keeps_issueRemote {op pkg die : Nat} {target flag : Word} {aux : Nat} {data : List Byte} {pend : Option Nat}
    {ty : Option ElemTy} : Keeps (issueRemote op pkg die target flag aux data pend ty) :=
  keeps_needStream.bind fun _ _ => keeps_modify fun _ h => h.sendRemote

theorem canonical.execNld {ty : ElemTy} {dst : RegRef} {base : BitVec 5} {off : Int} {s t : State} (h : canonical s)
    (hr : execNld ty dst base off s = .next t) : canonical t :=
  h.runSlot (keeps_lVecIndex.bind fun _ _ => keeps_eaOff.bind fun _ _ => keeps_peerLeaf.bind fun _ _ =>
    keeps_needOrder.bind fun _ _ => keeps_needStream.bind fun _ _ => keeps_get.bind fun _ _ => keeps_pendResult.bind fun _ _ =>
    keeps_issueRemote) hr

theorem keeps_flagAddr {flag : Option (BitVec 5)} : Keeps (flagAddr flag) := by
  unfold Machine.flagAddr
  split
  · exact keeps_readP.bind fun _ _ => keeps_pure
  · exact keeps_pure

theorem canonical.execNst {ty : ElemTy} {flag : Option (BitVec 5)} {src : RegRef} {base : BitVec 5} {off : Int} {s : State}
    {t : State} (h : canonical s) (hr : execNst ty flag src base off s = .next t) : canonical t :=
  h.runSlot (keeps_srcBytes.bind fun _ _ => keeps_eaOff.bind fun _ _ => keeps_flagAddr.bind fun _ _ =>
    keeps_peerLeaf.bind fun _ _ => keeps_needOrder.bind fun _ _ => keeps_issueRemote) hr

theorem canonical.execNat {op : AtomOp} {ty : ElemTy} {dst : Option RegRef} {src : RegRef} {base : BitVec 5} {off : Int}
    {s t : State} (h : canonical s) (hr : execNat op ty dst src base off s = .next t) : canonical t := by
  refine h.runSlot (keeps_readScalar.bind fun _ _ => ?_) hr
  extract_lets rest
  have hrest : ∀ x0, Keeps (rest x0) := fun _ => by
    unfold rest
    refine keeps_eaOff.bind fun _ _ => keeps_peerLeaf.bind fun _ _ => keeps_needOrder.bind fun _ _ =>
      keeps_needStream.bind fun _ _ => keeps_get.bind fun _ _ => ?_
    dsimp only
    split
    · exact keeps_pendResult.bind fun _ _ => keeps_issueRemote
    · exact keeps_issueRemote
  clear_value rest
  exact .ite (keeps_readScalar.bind fun _ _ => hrest _) (keeps_pure.bind fun _ _ => hrest _)

theorem keeps_ownerOf {base : BitVec 5} : Keeps (ownerOf base) :=
  keeps_readP.bind fun _ _ => keeps_get.bind fun _ _ => keeps_needLegal.bind fun _ _ => keeps_need.bind fun _ _ => keeps_pure

theorem canonical.execNcb {ty : ElemTy} {src : RegRef} {entry piece : BitVec 6} {base : BitVec 5} {s t : State}
    (h : canonical s) (hr : execNcb ty src entry piece base s = .next t) : canonical t :=
  h.runSlot (keeps_srcBytes.bind fun _ _ => keeps_ownerOf.bind fun _ _ => keeps_issueRemote) hr

theorem canonical.execNts {ty : ElemTy} {src : RegRef} {entry piece : BitVec 6} {slot base : BitVec 5} {s t : State}
    (h : canonical s) (hr : execNts ty src entry piece slot base s = .next t) : canonical t := by
  refine h.runSlot (keeps_srcBytes.bind fun _ _ => keeps_readP.bind fun _ _ => keeps_ownerOf.bind fun _ _ =>
    keeps_get.bind fun _ _ => ?_) hr
  split
  · exact keeps_issueRemote
  · exact keeps_needStream.bind fun _ _ => keeps_modify fun _ h => h.updDie

theorem canonical.execNtsSlotBegins {d n : Nat} {s t : State} (h : canonical s)
    (hr : execNtsSlotBegins d n s = .next t) : canonical t := by
  unfold Machine.execNtsSlotBegins at hr
  split at hr
  · exact h.ofNext hr
  · split at hr
    · exact h.ofNext hr
    · exact h.updDie.sendRemote.ofNext hr

theorem canonical.execNmc {ty : ElemTy} {flag : Option (BitVec 5)} {axis : BitVec 2} {self : Bool} {src : RegRef}
    {base : BitVec 5} {off : Int} {s t : State} (h : canonical s) (hr : execNmc ty flag axis self src base off s =
      .next t) : canonical t := by
  refine h.runSlot (keeps_srcBytes.bind fun _ _ => keeps_eaOff.bind fun _ _ => keeps_flagAddr.bind fun _ _ =>
    keeps_need.bind fun _ _ => keeps_get.bind fun _ _ => ?_) hr
  dsimp only
  split
  · exact keeps_condTrap
  · exact keeps_needLegal.bind fun _ _ => keeps_needRequests.bind fun _ _ => .ite keeps_notReady (keeps_modify fun _ h =>
      h.foldl fun _ _ h => h.sendRemote)

theorem canonical.dropPacket {s : State} {d : Nat} (h : canonical s) : canonical (dropPacket s d) :=
  h.updDie

end Sys2Proof

/-! SUPPORT. The canonical form through packets at a die, the combiner, and the placement's members and conversions. -/

namespace Sys2Proof

open Machine

theorem canonical.respond {s : State} {d : Nat} {p : Packet} {op : Nat} {aux : BitVec 8} {target : Word} {data : List Byte}
    (h : canonical s) : canonical (respond s d p op aux target data) :=
  h.updDie.pushGroups

theorem canonical.ack {s : State} {d : Nat} {p : Packet} (h : canonical s) : canonical (Machine.ack s d p) :=
  h.respond

theorem canonical.nak {s : State} {d : Nat} {p : Packet} {cause : BitVec 8} {va : Word} (h : canonical s) :
    canonical (nak s d p cause va) :=
  h.respond

theorem canonical.onArrival {s : State} {d : Nat} {p : Packet} {ops : List Nat} {f : Option Remote → State} {t : State}
    (h : canonical s) (hf : ∀ r, canonical (f r)) (hr : onArrival s d p ops f = .next t) : canonical t := by
  unfold Machine.onArrival at hr
  refine .ofNext ?_ hr
  split
  · exact h
  · exact h.pushGroups
  · exact hf _

theorem canonical.execNldRequest {d : Nat} {p : Packet} {s t : State} (h : canonical s) (hr : execNldRequest d p s = .next t) :
    canonical t := by
  refine h.onArrival (fun _ => ?_) hr
  split
  · exact h.dropPacket
  · split
    · exact h.confirmWalk.nak
    · next hx => exact (h.translateRange hx).readSpans.respond

theorem canonical.performStore {s : State} {d : Nat} {p : Packet} {sp : Space} {w : Machine.Writer} (h : canonical s) :
    canonical (performStore s d p sp w) := by
  unfold Machine.performStore
  split
  · exact h.confirmWalk.nak
  · next hx =>
    split
    · exact (h.writeVia hx).ack
    · split
      · exact (h.writeVia hx).countIfBad.confirmWalk.nak
      · next hy => exact ((h.writeVia hx).addVia hy).ack

theorem canonical.holdPacket {s : State} {d : Nat} {sp : Space} {p : Packet} {n : Nat} (h : canonical s) :
    canonical (holdPacket s d sp p n) :=
  h.updDie

theorem canonical.storeArrived {s : State} {d : Nat} {p : Packet} {r : Option Remote} (h : canonical s) :
    canonical (storeArrived s d p r) := by
  unfold Machine.storeArrived
  split
  · exact h.dropPacket
  · exact .ite h.holdPacket h.performStore

theorem canonical.execStorePacket {d : Nat} {p : Packet} {s t : State} (h : canonical s) (hr : execStorePacket d p s = .next t) :
    canonical t := h.onArrival (fun _ => h.storeArrived) hr

theorem canonical.natArrived {s : State} {d : Nat} {p : Packet} (h : canonical s) : canonical (natArrived s d p) := by
  unfold Machine.natArrived
  split
  · split
    · exact h.holdPacket
    · split
      · exact h.confirmWalk.nak
      · next hx =>
        dsimp only
        split
        · exact .ite (h.translate hx).respond (h.translate hx).nak
        · exact .ite (h.translate hx).atomApply.respond (h.translate hx).atomApply.ack
  · exact h.dropPacket

theorem canonical.execNatPacket {d : Nat} {p : Packet} {s t : State} (h : canonical s) (hr : execNatPacket d p s = .next t) :
    canonical t := h.onArrival (fun _ => h.natArrived) hr

theorem canonical.closeRemote {s : State} {d : Nat} {r : Remote} (h : canonical s) : canonical (closeRemote s d r) :=
  h.updDie

theorem canonical.execResponse {d : Nat} {a : Packet} {s t : State} (h : canonical s)
    (hr : execResponse d a s = .next t) : canonical t := by
  unfold Machine.execResponse at hr
  split at hr
  · exact h.ofNext hr
  · dsimp only at hr
    split at hr
    · split at hr
      · exact h.closeRemote.ofNext hr
      · split at hr
        · exact h.closeRemote.readyPending.ofNext hr
        · exact h.closeRemote.free64.readyPending.ofNext hr
    · exact h.closeRemote.ofNext hr

theorem canonical.execAcknowledgement {d : Nat} {a : Packet} {s t : State} (h : canonical s)
    (hr : execAcknowledgement d a s = .next t) : canonical t := by
  unfold Machine.execAcknowledgement at hr
  refine .ofNext ?_ hr
  split
  · exact h
  · refine .foldl h fun _ _ h => ?_
    dsimp only
    split
    · exact h.closeRemote
    · exact h

theorem canonical.dropRemoteResult {s : State} {r : Remote} (h : canonical s) : canonical (dropRemoteResult s r) := by
  unfold Machine.dropRemoteResult
  split
  · exact .ite (h.updCtx' fun _ h => h) h
  · exact h

theorem canonical.execNegativeAcknowledgement {d : Nat} {a : Packet} {s t : State} (h : canonical s)
    (hr : execNegativeAcknowledgement d a s = .next t) : canonical t := by
  unfold Machine.execNegativeAcknowledgement at hr
  split at hr
  · exact h.ofNext hr
  · dsimp only at hr
    exact .ofNext (.ite h.closeRemote.dropRemoteResult h.closeRemote.dropRemoteResult.outsideTrap) hr

theorem canonical.setComb {s : State} {d e : Nat} {c : Comb} (h : canonical s) : canonical (setComb s d e c) :=
  h.updDie

theorem canonical.engineWrites {v : View} {w : Machine.Writer} {l : List (Word × List Byte)} {s : State} (h : canonical s) :
    canonical (engineWrites v w l s).1 := by
  induction l generalizing s with
  | nil => exact h
  | cons x l ih =>
    unfold Machine.engineWrites
    split
    · exact h
    · next hx => exact ih (h.rowWrite hx)

theorem canonical.endEntry {s : State} {d e : Nat} {c : Cmd} {err : Option (BitVec 8 × Word)} {errOnly : Option (BitVec 8)}
    (h : canonical s) : canonical (endEntry s d e c err errOnly) :=
  h.setComb.finishCmd.setEngine

theorem canonical.completeEntry {s : State} {d e : Nat} {ok : Bool} (h : canonical s) : canonical (completeEntry s d e ok) := by
  unfold Machine.completeEntry
  dsimp only
  split
  · exact h
  · split
    · exact h
    · next hx => exact (h.engineWrites.fst hx).endEntry
    · next hx => exact (h.engineWrites.fst hx).endEntry

theorem canonical.settleEntry {s : State} {d e : Nat} (h : canonical s) : canonical (settleEntry s d e) :=
  .ite h (.ite h.completeEntry (.ite h.completeEntry h))

theorem canonical.doomEntry {s : State} {d e : Nat} (h : canonical s) : canonical (doomEntry s d e) :=
  h.setComb.settleEntry

theorem canonical.failEntry {r d : Nat} {s : State} {e : Nat} (h : canonical s) : canonical (failEntry r d s e) := by
  unfold Machine.failEntry
  split
  · exact .ite h.doomEntry h
  · exact h

theorem canonical.failEntries {s : State} {d r : Nat} (h : canonical s) : canonical (failEntries s d r) :=
  h.foldl fun _ _ h => h.failEntry

theorem canonical.armEntry {s : State} {d : Nat} {c : Cmd} (h : canonical s) : canonical (armEntry s d c) := by
  unfold Machine.armEntry
  dsimp only
  split
  · exact h.finishCmd.setEngine
  · exact h.setComb.setEngine.foldl fun _ _ h => h.failEntry

theorem canonical.pieceArrived {s : State} {d : Nat} {p : Packet} (h : canonical s) : canonical (pieceArrived s d p) := by
  unfold Machine.pieceArrived
  dsimp only
  split
  · exact h.dropPacket
  · split
    · exact h.dropPacket
    · exact h
    · exact h.dropPacket.ack
    · exact h.dropPacket.ack.setComb.doomEntry
    · exact h.dropPacket.ack.setComb
    · exact h.ack.setComb.settleEntry

theorem canonical.execContributionPiece {d : Nat} {p : Packet} {s t : State} (h : canonical s)
    (hr : execContributionPiece d p s = .next t) : canonical t := h.onArrival (fun _ => h.pieceArrived) hr

theorem canonical.execTimedSlotFold {d e : Nat} {s t : State} (h : canonical s)
    (hr : execTimedSlotFold d e s = .next t) : canonical t := by
  unfold Machine.execTimedSlotFold at hr
  dsimp only at hr
  exact .ofNext (.ite h.setComb.settleEntry h) hr

theorem canonical.execCombinerTimeout {d e : Nat} {s t : State} (h : canonical s)
    (hr : execCombinerTimeout d e s = .next t) : canonical t := by
  unfold Machine.execCombinerTimeout at hr
  exact .ofNext (.ite h.doomEntry h) hr

theorem canonical.updPlaced {s : State} {d : Nat} {addr : Word} {asid : BitVec 16} {f : Placed → Placed} (h : canonical s) :
    canonical (updPlaced s d addr asid f) :=
  h.updDie

theorem canonical.updEvery {s : State} {addr : Word} {asid : BitVec 16} {f : Placed → Placed} (h : canonical s) :
    canonical (updEvery s addr asid f) :=
  h.foldl fun _ _ h => h.updPlaced

theorem canonical.sweepDrops {s : State} {d : Nat} (h : canonical s) : canonical (sweepDrops s d) :=
  h.updDie

theorem canonical.sendColl {s : State} {d rank kind a gen : Nat} {target : Word} {r : Region} {data : List Byte}
    (h : canonical s) : canonical (sendColl s d rank kind a gen target r data) :=
  .ite h.updDie h.sendRemote

theorem canonical.sendOthers {s : State} {d kind a gen : Nat} {q : Placed} {data : List Byte} (h : canonical s) :
    canonical (sendOthers s d kind a gen q data) :=
  h.foldl fun _ _ h => h.sendColl

theorem canonical.giveTo {s : State} {d me i : Nat} {q : Placed} {k w : Nat} {data : Option (List Nat)} (h : canonical s) :
    canonical (giveTo s d me i q k w data) := by
  unfold Machine.giveTo
  dsimp only
  split
  · exact .ite h.updPlaced h.sendColl
  · exact .ite h.updPlaced (h.foldl fun _ _ h => h.sendColl)

theorem canonical.supplyStep {s : State} {d me : Nat} {q : Placed} {t : ConvStep} (h : canonical s) :
    canonical (supplyStep s d me q t) :=
  h.updPlaced.foldl fun _ _ h => h.giveTo

theorem canonical.readShard {s : State} {d : Nat} {q : Placed} (h : canonical s) : canonical (readShard s d q).2 := by
  unfold Machine.readShard
  dsimp only
  split
  · exact h
  · next hx => exact h.readVia hx

theorem canonical.enterConversion {s : State} {d : Nat} {addr : Word} {asid : BitVec 16} {gen demand asker : Nat}
    {mismatch : Bool} (h : canonical s) : canonical (enterConversion s d addr asid gen demand asker mismatch) := by
  unfold Machine.enterConversion
  split
  · exact .ite h.readShard.updPlaced h
  · exact h

theorem canonical.demandMet {s : State} {d : Nat} {q : Placed} {demand rank : Nat} (h : canonical s) :
    canonical (demandMet s d q demand rank) :=
  .ite h.updPlaced h.sendColl

theorem canonical.advanceCoord {d : Nat} {addr : Word} {asid : BitVec 16} {fuel : Nat} {s : State} (h : canonical s) :
    canonical (advanceCoord d addr asid fuel s) := by
  induction fuel generalizing s with
  | zero => exact h
  | succ fuel ih =>
    unfold Machine.advanceCoord
    split
    · exact h
    · dsimp only
      split
      · exact h
      · split
        · split
          · exact ih h.updPlaced.demandMet
          · exact ih h.updEvery.sendOthers
        · split
          · split
            · exact ih (h.updPlaced.foldl fun _ _ h => h.updPlaced).sendOthers
            · exact h.sendOthers.updPlaced.foldl fun _ _ h => h.enterConversion
          · exact h

theorem canonical.runCoord {s : State} {d : Nat} {addr : Word} {asid : BitVec 16} (h : canonical s) :
    canonical (runCoord s d addr asid) := by
  unfold Machine.runCoord
  split
  · exact h.advanceCoord
  · exact h

theorem canonical.queueDemand {s : State} {d : Nat} {q : Placed} {demand : Nat} {ask : Bool} (h : canonical s) :
    canonical (queueDemand s d q demand ask).1 := by
  unfold Machine.queueDemand
  split
  · dsimp only
    split
    · exact h.updPlaced.sendColl
    · split
      · exact h.updPlaced
      · exact h.updPlaced.updPlaced.runCoord
  · dsimp only
    split
    · exact h.updPlaced.sendColl
    · split
      · exact h.updPlaced
      · exact h.updPlaced.updPlaced.runCoord

theorem canonical.takeRelease {s : State} {k rank gen : Nat} {addr : Word} {asid : BitVec 16} {record : List Byte}
    (h : canonical s) : canonical (takeRelease s k rank gen addr asid record) :=
  h.updPlaced.runCoord

theorem canonical.releaseGen {s : State} {d : Nat} {addr : Word} {asid : BitVec 16} (h : canonical s) :
    canonical (releaseGen s d addr asid) := by
  unfold Machine.releaseGen
  split
  · split
    · exact h
    · dsimp only
      split
      · exact h.updPlaced.sendColl
      · exact h.updPlaced.takeRelease
  · exact h

theorem canonical.performHeld {s : State} {d : Nat} {l : List Packet} (h : canonical s) : canonical (performHeld s d l) :=
  h.foldl fun _ _ h => .ite h.natArrived h.storeArrived

theorem canonical.freeEntry {s : State} {d : Nat} {q : Placed} (h : canonical s) : canonical (freeEntry s d q) := by
  unfold Machine.freeEntry
  split
  · exact h.setComb
  · exact h

theorem canonical.failMember {s : State} {d me : Nat} {q : Placed} {cause : BitVec 8} (h : canonical s) :
    canonical (failMember s d me q cause) := by
  unfold Machine.failMember
  refine .performHeld ?_
  split
  · next hx => exact (h.foldl fun _ _ h => h.giveTo).freeEntry.updPlaced.addVia hx
  · exact (h.foldl fun _ _ h => h.giveTo).freeEntry.updPlaced.confirmWalk.faultRecord

theorem canonical.beginGeneration {s : State} {d : Nat} {q : Placed} (h : canonical s) : canonical (beginGeneration s d q) := by
  unfold Machine.beginGeneration
  extract_lets s1 s2 s3 s4
  have h2 : canonical s2 := by
    unfold s2
    split
    · next hx => exact h.updPlaced.addVia hx
    · exact h.updPlaced.confirmWalk.faultRecord
  have h4 : canonical s4 := by
    unfold s4 s3
    split
    · exact .ite h2.performHeld h2.performHeld.releaseGen
    · exact h2.performHeld
  refine .sweepDrops ?_
  split
  · exact h4.runCoord
  · exact h4

theorem canonical.writeStaging {s : State} {d : Nat} {q : Placed} {bs : List Byte} {t : State} (h : canonical s)
    (hr : writeStaging s d q bs = .ok t) : canonical t := by
  unfold Machine.writeStaging at hr
  exact h.writeVia hr

theorem canonical.writeShard {s : State} {d : Nat} {q : Placed} {bs : List Byte} {t : State} (h : canonical s)
    (hr : writeShard s d q bs = .ok t) : canonical t := by
  unfold Machine.writeShard at hr
  dsimp only at hr
  split at hr
  · cases hr
  · next hx =>
    split at hr
    · cases hr
    · next hy => exact ((h.writeStaging hx).readVia hy).writeVia hr

theorem canonical.failWrite {s : State} {d me : Nat} {q : Placed} {e : BitVec 8 × Word} (h : canonical s) :
    canonical (failWrite s d me q e) :=
  h.failMember.confirmWalk.faultRecord

theorem canonical.nextStep {s : State} {d me : Nat} {q : Placed} {cur : List Nat} (h : canonical s) :
    canonical (nextStep s d me q cur) := by
  unfold Machine.nextStep
  dsimp only
  split
  · split
    · exact h.failWrite
    · next hx => exact (h.writeStaging hx).updPlaced
  · split
    · exact h.failWrite
    · next hx => exact (h.writeShard hx).beginGeneration

theorem canonical.takeStep {s : State} {d me : Nat} {q : Placed} {t : ConvStep} {ins : List (Nat × List Nat)}
    (h : canonical s) : canonical (takeStep s d me q t ins) := by
  unfold Machine.takeStep
  dsimp only
  split
  · split
    · exact h
    · exact h.setComb.updPlaced
  · exact .ite h.nextStep h.nextStep

theorem canonical.advanceMember {s : State} {d me : Nat} {q : Placed} {t : ConvStep} (h : canonical s) :
    canonical (advanceMember s d me q t) :=
  .ite (.ite h.supplyStep h.updPlaced) (.ite (h.freeEntry.foldl fun _ _ h => h.giveTo).nextStep (.ite h.takeStep h))

theorem canonical.execMemberShardWrite {d n : Nat} {s t : State} (h : canonical s)
    (hr : execMemberShardWrite d n s = .next t) : canonical t := by
  unfold Machine.execMemberShardWrite at hr
  split at hr
  · dsimp only at hr
    refine .ofNext ?_ hr
    split
    · exact .ite h h.advanceMember
    · exact h
  · exact h.ofNext hr

theorem canonical.execMemberConversionFailed {d n : Nat} {s t : State} (h : canonical s)
    (hr : execMemberConversionFailed d n s = .next t) : canonical t := by
  unfold Machine.execMemberConversionFailed at hr
  split at hr
  · refine .ofNext ?_ hr
    split
    · exact h
    · split
      · exact h.failMember
      · split
        · exact .ite h.failMember h
        · exact h
  · exact h.ofNext hr

end Sys2Proof

/-! SUPPORT. The canonical form through the placement forms, collectives, links, the choice of a bundle, and the clock. -/

namespace Sys2Proof

open Machine

theorem canonical.markFailed {s : State} {pkg die : Nat} (h : canonical s) : canonical (markFailed s pkg die) := by
  unfold Machine.markFailed
  refine (h.foldl fun _ _ h => h.updDie).foldl fun _ _ h => .foldl ?_ fun _ _ h => .ite h.runCoord h
  split
  · exact h.failEntries
  · exact h

theorem canonical.execMarkMemberFailed {pkg die : Nat} {s t : State} (h : canonical s)
    (hr : execMarkMemberFailed pkg die s = .next t) : canonical t := by
  unfold Machine.execMarkMemberFailed at hr
  exact h.markFailed.ofNext hr

theorem keeps_needDesc {a : Word} : Keeps (needDesc a) := by
  unfold Machine.needDesc
  refine keeps_need.bind fun _ _ => keeps_get.bind fun _ _ => ?_
  split
  · exact keeps_pure
  · exact keeps_condTrap

theorem keeps_checkDemand {q : Placed} {demand : Nat} : Keeps (checkDemand q demand) :=
  keeps_get.bind fun _ _ => keeps_needLegal.bind fun _ _ => keeps_need

theorem keeps_needReleased : Keeps needReleased :=
  keeps_get.bind fun _ _ => .ite keeps_flushOwn keeps_notReady

theorem canonical.gatherPending {s : State} {d : Nat} {q : Placed} (h : canonical s) : canonical (gatherPending s d q) := by
  unfold Machine.gatherPending
  split
  · exact h
  · refine .foldl h fun _ _ h => ?_
    split
    · refine .runCoord (.updPlaced (.foldl (.ite h.takeRelease h) fun _ _ h => ?_))
      split
      · exact h.updPlaced.foldl fun _ _ h => h.readyPending
      · exact h
    · exact h

theorem canonical.execPdecl {dst desc : BitVec 5} {s t : State} (h : canonical s)
    (hr : execPdecl dst desc s = .next t) : canonical t := by
  refine h.runSlot (keeps_readK.bind fun _ _ => keeps_need.bind fun _ _ => keeps_get.bind fun _ _ => ?_) hr
  extract_lets c d r rest
  have hrest : ∀ x0, Keeps (rest x0) := fun _ => keeps_pendResult
  clear_value rest
  split
  · exact hrest _
  · split
    · exact hrest _
    · refine keeps_flushOwn.bind fun _ _ => keeps_loadStrict.bind fun _ _ => ?_
      split
      · exact hrest _
      · split
        · exact hrest _
        · exact .bind (keeps_modify fun _ h => h.updDie.gatherPending) fun _ _ => hrest _

theorem canonical.execPrel {drop : Bool} {desc : BitVec 5} {s t : State} (h : canonical s)
    (hr : execPrel drop desc s = .next t) : canonical t :=
  h.runSlot (keeps_readK.bind fun _ _ => keeps_needDesc.bind fun _ _ => keeps_needReleased.bind fun _ _ =>
    keeps_modify fun _ h => .ite h.releaseGen.updPlaced.sweepDrops h.releaseGen) hr

theorem canonical.execPconv {dst desc : BitVec 5} {demand : BitVec 12} {s t : State} (h : canonical s)
    (hr : execPconv dst desc demand s = .next t) : canonical t := by
  refine h.runSlot (keeps_readK.bind fun _ _ => keeps_needDesc.bind fun _ _ => keeps_checkDemand.bind fun _ _ =>
    keeps_needReleased.bind fun _ _ => keeps_get.bind fun s hs => ?_) hr
  exact (keeps_set (.ite hs.queueDemand.releaseGen hs.queueDemand.releaseGen.updPlaced)).bind fun _ _ => keeps_pendResult

theorem canonical.execPqry {dst desc : BitVec 5} {sel : BitVec 2} {s t : State} (h : canonical s)
    (hr : execPqry dst desc sel s = .next t) : canonical t :=
  h.runSlot (keeps_readK.bind fun _ _ => keeps_needDesc.bind fun _ _ => keeps_pendResult) hr

theorem keeps_awaitPlacement {q : Placed} {demand : Nat} : Keeps (awaitPlacement q demand) := by
  unfold Machine.awaitPlacement
  refine keeps_get.bind fun t ht => keeps_need.bind fun _ _ => ?_
  exact .ite keeps_pure (.ite (keeps_held ht.updPlaced.waitRetry) (.ite keeps_notReady
    (keeps_held (ht.updCtx' fun _ h => by exact h).queueDemand.releaseGen.updPlaced.waitRetry)))

theorem canonical.execPld {ty : ElemTy} {dst : RegRef} {base : BitVec 5} {demand : BitVec 12} {desc : BitVec 5} {off : Int}
    {s t : State} (h : canonical s) (hr : execPld ty dst base demand desc off s = .next t) : canonical t := by
  refine h.runSlot (keeps_lVecIndex.bind fun _ _ => keeps_readP.bind fun _ _ => keeps_needDesc.bind fun _ _ =>
    keeps_checkDemand.bind fun _ _ => keeps_eaOff.bind fun _ _ => keeps_accessSpans.bind fun _ _ =>
    keeps_awaitPlacement.bind fun _ _ => keeps_get.bind fun _ _ => keeps_need.bind fun _ _ => ?_) hr
  extract_lets rs rest
  have hrest : ∀ x0, Keeps (rest x0) := fun _ => keeps_modify fun _ h => h.updPlaced.sweepDrops
  clear_value rest
  split
  · exact keeps_loadInto.bind fun _ _ => hrest _
  · exact keeps_needRequests.bind fun _ _ => keeps_loadBytes.bind fun _ _ => keeps_deliverLoad.bind fun _ _ => hrest _

theorem canonical.execPst {ty : ElemTy} {acc : Bool} {src : RegRef} {base desc : BitVec 5} {off : Int} {s t : State}
    (h : canonical s) (hr : execPst ty acc src base desc off s = .next t) : canonical t := by
  refine h.runSlot (keeps_srcBytes.bind fun _ _ => keeps_readP.bind fun _ _ => keeps_needDesc.bind fun _ _ =>
    keeps_eaOff.bind fun _ _ => keeps_get.bind fun _ _ => ?_) hr
  split
  · exact keeps_accessSpans.bind fun _ _ => keeps_need.bind fun _ _ => keeps_storeRanges
  · refine keeps_need.bind fun _ _ => keeps_needRequests.bind fun _ _ => keeps_accessSpans.bind fun _ _ =>
      keeps_need.bind fun _ _ => ?_
    split
    · exact keeps_get.bind fun _ _ => .bind (keeps_modCtx fun _ h => h) fun _ _ => keeps_modify fun _ h => .same h
    · exact keeps_condTrap

theorem canonical.placementTransfer {s : State} {d : Nat} {p : Packet} {t : State} (h : canonical s)
    (hr : placementTransfer s d p = some t) : canonical t := by
  unfold Machine.placementTransfer at hr
  dsimp only at hr
  split at hr
  · split at hr
    · exact .ofSome (.runCoord (.ite h.updPlaced.sendColl h.updPlaced)) hr
    · exact .ofSome (.runCoord (.ite h.updPlaced.sendColl h.updPlaced)) hr
    · exact h.takeRelease.ofSome hr
    · split at hr
      · exact h.updPlaced.ofSome hr
      · cases hr
    · split at hr
      · exact h.enterConversion.ofSome hr
      · cases hr
    · exact h.updPlaced.ofSome hr
    · split at hr
      · exact h.updPlaced.ofSome hr
      · cases hr
    · split at hr
      · exact h.updPlaced.readyPending.ofSome hr
      · cases hr
    · split at hr
      · cases hr
      · split at hr
        · exact h.ofSome hr
        · split at hr
          · exact h.updPlaced.ofSome hr
          · split at hr
            · exact h.updPlaced.ofSome hr
            · cases hr
  · cases hr

theorem canonical.execEcoll {f : EngArgs} {s t : State} (h : canonical s) (hr : execEcoll f s = .next t) :
    canonical t :=
  h.runSlot (keeps_readK.bind fun _ _ => keeps_readK.bind fun _ _ => keeps_readCmdRec.bind fun _ _ => keeps_get.bind fun _ _ =>
    keeps_needLegal.bind fun _ _ => keeps_cmdCounter.bind fun _ _ => keeps_acceptCmd) hr

theorem canonical.tellLine {s : State} {d : Nat} {c : Cmd} {l : List Nat} {kind a : Nat} {data : List Byte} {f : Die → Die}
    (h : canonical s) : canonical (tellLine s d c l kind a data f) :=
  h.foldl fun _ _ h => .ite h.updDie h.sendColl

theorem canonical.endColl {s : State} {d : Nat} {c : Cmd} {err : Option (BitVec 8 × Word)} {errOnly : Option (BitVec 8)}
    (h : canonical s) : canonical (endColl s d c err errOnly) := by
  unfold Machine.endColl
  refine .setEngine ?_
  split
  · split
    · next hx => exact h.updDie.countCommand.addVia hx
    · exact h.updDie.countCommand.countIfBad.confirmWalk.outsideTrap
  · refine .outsideTrap (.confirmWalk ?_)
    split
    · next hx => exact h.updDie.countCommand.addVia hx
    · exact h.updDie.countCommand.countIfBad.confirmWalk.outsideTrap

theorem canonical.sendPieces {s : State} {d : Nat} {c : Cmd} {me : Nat} {dests : List Nat} {bs : List Byte} (h : canonical s) :
    canonical (sendPieces s d c me dests bs) :=
  h.foldl fun _ _ h => h.tellLine

theorem canonical.sendBad {s : State} {d : Nat} {c : Cmd} {me : Nat} {dests : List Nat} (h : canonical s) :
    canonical (sendBad s d c me dests) :=
  h.tellLine

theorem canonical.giveInput {s : State} {d : Nat} {c : Cmd} {me : Nat} {l : List Nat} (h : canonical s) :
    canonical (giveInput s d c me l) := by
  unfold Machine.giveInput
  split
  · exact h.sendBad.endColl
  · next hx =>
      exact .ite (h.readVia hx).sendPieces (.ite ((h.readVia hx).foldl fun _ _ h => h.sendPieces) (h.readVia hx).sendPieces)

theorem canonical.execEcollMatch {d : Nat} {s t : State} (h : canonical s) (hr : execEcollMatch d s = .next t) :
    canonical t := by
  unfold Machine.execEcollMatch at hr
  split at hr
  · exact h.ofNext hr
  · split at hr
    · exact h.ofNext hr
    · split at hr
      · exact h.ofNext hr
      · split at hr
        · exact h.updDie.tellLine.ofNext hr
        · split at hr
          · exact h.updDie.giveInput.ofNext hr
          · exact h.ofNext hr
        · exact h.ofNext hr

theorem canonical.finishColl {s : State} {d : Nat} {c : Cmd} {dests : List Nat} {me : Nat} {out : List Byte} (h : canonical s) :
    canonical (finishColl s d c dests me out) := by
  unfold Machine.finishColl
  dsimp only
  split
  · exact h
  · next hx => exact (h.engineWrites.fst hx).sendPieces.endColl
  · next hx =>
    split
    · exact h
    · exact (h.engineWrites.fst hx).sendPieces.endColl
    · next hy =>
      split
      · exact h
      · next hz => exact (((h.engineWrites.fst hx).rowRead hy).engineWrites.fst hz).sendPieces.endColl
      · next hz => exact (((h.engineWrites.fst hx).rowRead hy).engineWrites.fst hz).sendPieces.endColl

theorem canonical.runCollective {s : State} {d : Nat} (h : canonical s) : canonical (runCollective s d) := by
  unfold Machine.runCollective
  split
  · exact h
  · split
    · exact h
    · split
      · exact h.armEntry
      · split
        · exact h.endColl
        · exact .ite (.endColl (.ite h.sendBad h)) (.ite h (.ite (.ite h h.finishColl) h.finishColl))

theorem canonical.retryEntries {s : State} {d : Nat} (h : canonical s) : canonical (retryEntries s d) :=
  h.foldl fun _ _ h => h.settleEntry

theorem canonical.execEngineCommandComplete {e : EngineId} {s t : State} (h : canonical s)
    (hr : execEngineCommandComplete e s = .next t) : canonical t := by
  unfold Machine.execEngineCommandComplete at hr
  refine .ofNext ?_ hr
  split
  · exact h.runCopyEngine
  · exact h.runCopyEngine
  · exact h.runCopyEngine
  · exact h.runLoader
  · exact h.retryEntries.runCollective
  · exact h
  · exact h

theorem canonical.transferArrived {s : State} {d : Nat} {p : Packet} (h : canonical s) : canonical (transferArrived s d p) := by
  unfold Machine.transferArrived
  split
  · dsimp only
    split
    · next hx =>
      refine .ack ?_
      split at hx
      · exact h.updDie.ofSome hx
      · exact h.updDie.ofSome hx
      · exact h.updDie.ofSome hx
      · exact h.placementTransfer hx
    · exact h
  · exact h.dropPacket

theorem canonical.execCollectiveTransfer {d : Nat} {p : Packet} {s t : State} (h : canonical s)
    (hr : execCollectiveTransfer d p s = .next t) : canonical t := h.onArrival (fun _ => h.transferArrived) hr

theorem canonical.failTransfer {s : State} {d : Nat} {p : Packet} (h : canonical s) : canonical (failTransfer s d p) := by
  unfold Machine.failTransfer
  split
  · exact .ite h.endColl h
  · exact h

theorem canonical.updBundle {s : State} {d pkg : Nat} {f : Bundle → Bundle} (h : canonical s) : canonical (updBundle s d pkg f) :=
  h.updDie

theorem canonical.skidWrite {s : State} {d : Nat} {p : Packet} (h : canonical s) : canonical (skidWrite s d p) := by
  unfold Machine.skidWrite
  split
  · exact h
  · split
    · exact h
    · split
      · exact h
      · split
        · next hx => exact h.writeVia hx
        · exact h

theorem canonical.reportTag {s : State} {p : Packet} (h : canonical s) : canonical (reportTag s p) := by
  unfold Machine.reportTag
  split
  · exact h
  · dsimp only
    split
    · exact h
    · refine .nak ?_
      split
      · next hx => exact (h.readRegion hx).faultRecord
      · exact h.countEvent

theorem canonical.execLinkGroupReceive {d : Nat} {g : FlitGroup} {s t : State} (h : canonical s)
    (hr : execLinkGroupReceive d g s = .next t) : canonical t := by
  unfold Machine.execLinkGroupReceive at hr
  dsimp only at hr
  split at hr
  · exact h.ofNext hr
  · split at hr
    · exact .ofNext (.same h.updBundle.updDie) hr
    · split at hr
      · exact .ofNext (.updBundle (.ite (h.foldl fun _ _ h => h.skidWrite) h)) hr
      · exact .ofNext (.updBundle (.foldl (.ite (h.foldl fun _ _ h => h.skidWrite) h) fun _ _ h => h.reportTag)) hr

theorem canonical.execGroupReplay {d pkg : Nat} {s t : State} (h : canonical s)
    (hr : execGroupReplay d pkg s = .next t) : canonical t := by
  unfold Machine.execGroupReplay at hr
  exact h.updBundle.ofNext hr

theorem canonical.execBundleDetour {d pkg : Nat} {s t : State} (h : canonical s)
    (hr : execBundleDetour d pkg s = .next t) : canonical t := by
  unfold Machine.execBundleDetour at hr
  exact h.updBundle.ofNext hr

theorem canonical.execLaneReturn {d pkg : Nat} {s t : State} (h : canonical s)
    (hr : execLaneReturn d pkg s = .next t) : canonical t := by
  unfold Machine.execLaneReturn at hr
  exact h.updBundle.ofNext hr

theorem canonical.execKeyRotation {d : Nat} {k : BundleKey} {s t : State} (h : canonical s)
    (hr : execKeyRotation d k s = .next t) : canonical t := by
  unfold Machine.execKeyRotation at hr
  exact h.updBundle.ofNext hr

theorem canonical.holdTimers {s : State} {ps : Nat} (h : canonical s) : canonical (holdTimers s ps) :=
  h.foldl fun _ _ h => .ite h.updDie h

theorem canonical.failRemote {s : State} {d : Nat} {r : Remote} (h : canonical s) : canonical (failRemote s d r) := by
  unfold Machine.failRemote
  exact .markFailed (.ite h.closeRemote.dropRemoteResult.failTransfer h.closeRemote.dropRemoteResult.outsideTrap)

theorem canonical.execEndToEndTimeout {d n : Nat} {s t : State} (h : canonical s)
    (hr : execEndToEndTimeout d n s = .next t) : canonical t := by
  unfold Machine.execEndToEndTimeout at hr
  split at hr
  · exact h.ofNext hr
  · split at hr
    · exact h.ofNext hr
    · split at hr
      · dsimp only at hr
        exact h.updDie.pushGroups.ofNext hr
      · exact h.failRemote.ofNext hr

theorem canonical.execIssueSelection {k : Nat} {s t : State} (h : canonical s)
    (hr : execIssueSelection k s = .next t) : canonical t := by
  unfold Machine.execIssueSelection at hr
  exact .ofNext (.same h) hr

theorem canonical.issueTurn {s : State} {b : Bundled} {t : State} (h : canonical s) (hr : issueTurn s b = some t) :
    canonical t := by
  unfold Machine.issueTurn at hr
  split at hr
  · exact h.ofSome hr
  · split at hr
    · cases hr
    · split at hr
      · exact h.ofSome hr
      · dsimp only at hr
        split at hr
        · exact h.performAll.ofSome hr
        · cases hr
  · cases hr

theorem canonical.aged {s : State} {c : Nat} (h : canonical s) : canonical (aged s c) :=
  h.updCtx' fun _ h => h

theorem probeSlots_error_ne_next {m : Meaning} {s t : State} {c : Nat} {r : BitVec 128} {l : List SlotI} :
    probeSlots m s c r l ≠ .error (.next t) := by
  induction l generalizing r with
  | nil => exact fun h => by cases h
  | cons i l ih =>
    unfold probeSlots
    split
    · next hx => exact fun h => runOne_error_ne_next (hx.trans (congrArg _ (Except.error.inj h)))
    · dsimp only
      split
      · next hx => exact fun h => ih (hx.trans (congrArg _ (Except.error.inj h)))
      · exact fun h => by cases h

theorem canonical.attemptBundle {m : Meaning} {s t : State} {c : Nat} (h : canonical s) (hm : KeepsCanonical m)
    (hr : attemptBundle m s c = .next t) : canonical t := by
  unfold Machine.attemptBundle at hr
  split at hr
  · next hx => exact (h.takeBundle_error hx).ofNext hr
  · next hx =>
    have hs := h.takeBundle hx
    split at hr
    · exact hs.ofNext hr
    · split at hr
      · next hy =>
        split at hr
        · next hp => exact absurd (hp.trans (congrArg _ hr)) probeSlots_error_ne_next
        · exact canonical.Bundled.go (hs.issueTurn hy) hm hr
      · split at hr
        · next hp => exact absurd (hp.trans (congrArg _ hr)) probeSlots_error_ne_next
        · exact canonical.ofNext (.ite hs hs.aged) hr

theorem canonical.attempt {m : Meaning} {s t : State} {c : Nat} {rest : List Nat} (h : canonical s) (hm : KeepsCanonical m)
    (hr : attempt m s c rest = .next t) : canonical t := by
  unfold Machine.attempt at hr
  dsimp only at hr
  split at hr
  · exact canonical.ofNext (.same h) hr
  · split at hr
    · exact canonical.attemptBundle (.same h) hm hr
    · split at hr
      · exact canonical.ofNext (.same h) hr
      · split at hr
        · next hx =>
          split at hr
          · exact canonical.attemptBundle (.same h) hm hr
          · exact (hm (.same h) hx).ofNext hr
        · next hx => exact absurd hr (hx t)

theorem canonical.wakeMet {s : State} {c : Nat} (h : canonical s) : canonical (wakeMet s c) := by
  unfold Machine.wakeMet
  split
  · exact .ite h.wake h
  · exact h

theorem canonical.portCycle {s : State} (h : canonical s) : canonical (portCycle s) := by
  have hfold : ∀ (l : List (Nat × Core)) {m : Map Core}, Map.wf {} m = true → Map.wf {} (l.foldl (fun m ((k, x) : Nat × Core) =>
      if x.lBusy = 0 then m else Map.set {} m k { x with lBusy := x.lBusy - 1 }) m) = true := by
    intro l
    induction l with
    | nil => exact fun hm => hm
    | cons p l ih =>
      intro m hm
      rw [List.foldl_cons]
      dsimp only
      split
      · exact ih hm
      · exact ih (Map.wf_set hm _ _)
  exact h.withCores (hfold s.cores h.cores)

theorem canonical.tickClock {s : State} (h : canonical s) : canonical (tickClock s) :=
  .same (.foldl (.foldl (.foldl (.ringCycle (.hostCycle (.holdTimers (.portCycle
    (.same h))))) fun _ _ h => h.wakeMet) fun _ _ h => h.startNeeded) fun _ _ h => .ite h.sweepDrops h)

end Sys2Proof

/-! SUPPORT. The canonical form through the scalar forms and the remaining vector forms, and so through every instruction and every
step. -/

namespace Sys2Proof

open Machine

theorem keeps_fpBin {t : SFmt} {f : SBin} {op : RMode → FVal → FVal → FRes} : Keeps (fpBin t f op) :=
  keeps_readS.bind fun _ _ => keeps_readS.bind fun _ _ => keeps_curCtx.bind fun _ _ => keeps_landF

theorem keeps_fpUn {t : SFmt} {f : SUn} {op : FVal → FRes} : Keeps (fpUn t f op) :=
  keeps_readS.bind fun _ _ => keeps_curCtx.bind fun _ _ => keeps_landF

theorem canonical.execFadd {t : SFmt} {f : SBin} {s u : State} (h : canonical s) (hr : execFadd t f s = .next u) :
    canonical u :=
  h.runSlot keeps_fpBin hr

theorem canonical.execFsub {t : SFmt} {f : SBin} {s u : State} (h : canonical s) (hr : execFsub t f s = .next u) :
    canonical u :=
  h.runSlot keeps_fpBin hr

theorem canonical.execFmul {t : SFmt} {f : SBin} {s u : State} (h : canonical s) (hr : execFmul t f s = .next u) :
    canonical u :=
  h.runSlot keeps_fpBin hr

theorem canonical.execFma {t : SFmt} {f : SBin} {s u : State} (h : canonical s) (hr : execFma t f s = .next u) :
    canonical u :=
  h.runSlot (keeps_readDst.bind fun _ _ => keeps_curCtx.bind fun _ _ => keeps_fpBin) hr

theorem canonical.execFrcp {t : SFmt} {f : SUn} {s u : State} (h : canonical s) (hr : execFrcp t f s = .next u) :
    canonical u :=
  h.runSlot keeps_fpUn hr

theorem canonical.execFrsq {t : SFmt} {f : SUn} {s u : State} (h : canonical s) (hr : execFrsq t f s = .next u) :
    canonical u :=
  h.runSlot keeps_fpUn hr

theorem canonical.execFexp2 {t : SFmt} {f : SUn} {s u : State} (h : canonical s) (hr : execFexp2 t f s = .next u) :
    canonical u :=
  h.runSlot keeps_fpUn hr

theorem canonical.execFlog2 {t : SFmt} {f : SUn} {s u : State} (h : canonical s) (hr : execFlog2 t f s = .next u) :
    canonical u :=
  h.runSlot keeps_fpUn hr

theorem keeps_fpMinMax {t : SFmt} {f : SBin} {max : Bool} : Keeps (fpMinMax t f max) :=
  keeps_readS.bind fun _ _ => keeps_readS.bind fun _ _ => keeps_curCtx.bind fun _ _ => keeps_mergeFlags.bind fun _ _ =>
    keeps_landS

theorem canonical.execFmin {t : SFmt} {f : SBin} {s u : State} (h : canonical s) (hr : execFmin t f s = .next u) :
    canonical u :=
  h.runSlot keeps_fpMinMax hr

theorem canonical.execFmax {t : SFmt} {f : SBin} {s u : State} (h : canonical s) (hr : execFmax t f s = .next u) :
    canonical u :=
  h.runSlot keeps_fpMinMax hr

theorem canonical.execFcmp {t : SFmt} {c : FCond} {f : SBin} {s u : State} (h : canonical s)
    (hr : execFcmp t c f s = .next u) : canonical u :=
  h.runSlot (keeps_readS.bind fun _ _ => keeps_readS.bind fun _ _ => keeps_curCtx.bind fun _ _ =>
    keeps_mergeFlags.bind fun _ _ => keeps_landG) hr

theorem canonical.execFcvt {src dst : ElemTy} {f : SUn} {s t : State} (h : canonical s)
    (hr : execFcvt src dst f s = .next t) : canonical t :=
  h.runSlot (keeps_readS.bind fun _ _ => keeps_curCtx.bind fun _ _ => keeps_drawIf.bind fun _ _ =>
    keeps_mergeFlags.bind fun _ _ => keeps_landS) hr

theorem canonical.execRand {float : Bool} {slot : SSlot} {dst : BitVec 6} {s t : State} (h : canonical s)
    (hr : execRand float slot dst s = .next t) : canonical t :=
  h.runSlot (keeps_draw.bind fun _ _ => keeps_landS) hr

theorem canonical.execNop {_slot : SlotId} {s t : State} (h : canonical s) (hr : execNop _slot s = .next t) :
    canonical t :=
  h.runSlot keeps_pure hr

theorem keeps_intBin {f : SBin} {lat : Nat} {op : Word → Word → Nat} : Keeps (intBin f lat op) :=
  keeps_readS.bind fun _ _ => keeps_readS.bind fun _ _ => keeps_landS

theorem keeps_intUn {f : SUn} {lat : Nat} {op : Word → Nat} : Keeps (intUn f lat op) :=
  keeps_readS.bind fun _ _ => keeps_landS

theorem canonical.execAdd {f : SBin} {s t : State} (h : canonical s) (hr : execAdd f s = .next t) : canonical t :=
  h.runSlot keeps_intBin hr

theorem canonical.execSub {f : SBin} {s t : State} (h : canonical s) (hr : execSub f s = .next t) : canonical t :=
  h.runSlot keeps_intBin hr

theorem canonical.execMul {f : SBin} {s t : State} (h : canonical s) (hr : execMul f s = .next t) : canonical t :=
  h.runSlot keeps_intBin hr

theorem canonical.execMulh {f : SBin} {s t : State} (h : canonical s) (hr : execMulh f s = .next t) : canonical t :=
  h.runSlot keeps_intBin hr

theorem canonical.execDiv {f : SBin} {s t : State} (h : canonical s) (hr : execDiv f s = .next t) : canonical t :=
  h.runSlot keeps_intBin hr

theorem canonical.execRem {f : SBin} {s t : State} (h : canonical s) (hr : execRem f s = .next t) : canonical t :=
  h.runSlot keeps_intBin hr

theorem canonical.execAnd {f : SBin} {s t : State} (h : canonical s) (hr : execAnd f s = .next t) : canonical t :=
  h.runSlot keeps_intBin hr

theorem canonical.execOr {f : SBin} {s t : State} (h : canonical s) (hr : execOr f s = .next t) : canonical t :=
  h.runSlot keeps_intBin hr

theorem canonical.execXor {f : SBin} {s t : State} (h : canonical s) (hr : execXor f s = .next t) : canonical t :=
  h.runSlot keeps_intBin hr

theorem canonical.execAndn {f : SBin} {s t : State} (h : canonical s) (hr : execAndn f s = .next t) : canonical t :=
  h.runSlot keeps_intBin hr

theorem canonical.execShl {f : SBin} {s t : State} (h : canonical s) (hr : execShl f s = .next t) : canonical t :=
  h.runSlot keeps_intBin hr

theorem canonical.execShr {f : SBin} {s t : State} (h : canonical s) (hr : execShr f s = .next t) : canonical t :=
  h.runSlot keeps_intBin hr

theorem canonical.execSar {f : SBin} {s t : State} (h : canonical s) (hr : execSar f s = .next t) : canonical t :=
  h.runSlot keeps_intBin hr

theorem canonical.execRot {f : SBin} {s t : State} (h : canonical s) (hr : execRot f s = .next t) : canonical t :=
  h.runSlot keeps_intBin hr

theorem canonical.execClz {f : SUn} {s t : State} (h : canonical s) (hr : execClz f s = .next t) : canonical t :=
  h.runSlot keeps_intUn hr

theorem canonical.execCtz {f : SUn} {s t : State} (h : canonical s) (hr : execCtz f s = .next t) : canonical t :=
  h.runSlot keeps_intUn hr

theorem canonical.execPopc {f : SUn} {s t : State} (h : canonical s) (hr : execPopc f s = .next t) : canonical t :=
  h.runSlot keeps_intUn hr

theorem canonical.execMin {f : SBin} {s t : State} (h : canonical s) (hr : execMin f s = .next t) : canonical t :=
  h.runSlot keeps_intBin hr

theorem canonical.execMax {f : SBin} {s t : State} (h : canonical s) (hr : execMax f s = .next t) : canonical t :=
  h.runSlot keeps_intBin hr

theorem canonical.execCmp {c : ICond} {f : SBin} {s t : State} (h : canonical s) (hr : execCmp c f s = .next t) :
    canonical t :=
  h.runSlot (keeps_readS.bind fun _ _ => keeps_readS.bind fun _ _ => keeps_landG) hr

theorem canonical.execSel {g : BitVec 3} {neg : Bool} {f : SBin} {s t : State} (h : canonical s)
    (hr : execSel g neg f s = .next t) : canonical t :=
  h.runSlot (keeps_readS.bind fun _ _ => keeps_readS.bind fun _ _ => keeps_curCtx.bind fun _ _ => keeps_landS) hr

theorem canonical.execLi {f : SUn} {s t : State} (h : canonical s) (hr : execLi f s = .next t) : canonical t :=
  h.runSlot (keeps_readS.bind fun _ _ => keeps_landS) hr

theorem canonical.execMov {f : SUn} {s t : State} (h : canonical s) (hr : execMov f s = .next t) : canonical t :=
  h.runSlot (keeps_readS.bind fun _ _ => keeps_landS) hr

theorem canonical.execBfx {pos len : BitVec 6} {f : SUn} {s t : State} (h : canonical s)
    (hr : execBfx pos len f s = .next t) : canonical t :=
  h.runSlot keeps_intUn hr

theorem canonical.execBfi {pos len : BitVec 6} {f : SUn} {s t : State} (h : canonical s)
    (hr : execBfi pos len f s = .next t) : canonical t :=
  h.runSlot (keeps_readS.bind fun _ _ => keeps_readDst.bind fun _ _ => keeps_landS) hr

theorem canonical.execAddr {sh : BitVec 3} {f : SBin} {s t : State} (h : canonical s)
    (hr : execAddr sh f s = .next t) : canonical t :=
  h.runSlot (keeps_readS.bind fun _ _ => keeps_readS.bind fun _ _ => keeps_landS) hr

theorem canonical.execXfer {file : XferFile} {f : SUn} {s t : State} (h : canonical s)
    (hr : execXfer file f s = .next t) : canonical t := by
  refine h.runSlot (keeps_readS.bind fun _ _ => ?_) hr
  dsimp only
  split
  · exact keeps_landAt
  · exact keeps_landAt
  · exact keeps_landAt
  · exact keeps_landAt
  · exact keeps_landAt

theorem keeps_landPart {slot : VSlot} {w ns nd h' : Nat} {m : Option (BitVec 3)} {dst : BitVec 10} {lat : Nat}
    {r : Nat → Nat → Nat × Nat} : Keeps (landPart slot w ns nd h' m dst lat r) := by
  unfold Machine.landPart
  refine keeps_vecIndex.bind fun _ _ => keeps_readActive.bind fun _ _ => ?_
  extract_lets rest
  have hrest : ∀ x0, Keeps (rest x0) := fun _ => keeps_mergeFlags.bind fun _ _ => keeps_landAt
  clear_value rest
  exact .ite (keeps_readReg.bind fun _ _ => hrest _) (keeps_pure.bind fun _ _ => hrest _)

theorem canonical.execVcvt {dst : ElemTy} {h' : BitVec 2} {sat : Bool} {f : VUn} {s t : State} (h : canonical s)
    (hr : execVcvt dst h' sat f s = .next t) : canonical t :=
  h.runSlot (keeps_readV.bind fun _ _ => keeps_curCtx.bind fun _ _ => keeps_drawIf.bind fun _ _ => keeps_landPart) hr

theorem canonical.execVquant {scales : Bool} {dst : ElemTy} {h' : BitVec 2} {f : VBin} {s t : State}
    (h : canonical s) (hr : execVquant scales dst h' f s = .next t) : canonical t := by
  refine h.runSlot (keeps_readV.bind fun _ _ => keeps_curCtx.bind fun _ _ => ?_) hr
  dsimp only
  split
  · exact keeps_vecIndex.bind fun _ _ => keeps_readActive.bind fun _ _ => keeps_readReg.bind fun _ _ =>
      keeps_mergeFlags.bind fun _ _ => keeps_landAt
  · exact keeps_readV.bind fun _ _ => keeps_drawIf.bind fun _ _ => keeps_landPart

theorem canonical.execVdeq {dst : ElemTy} {h' : BitVec 2} {f : VBin} {s t : State} (h : canonical s)
    (hr : execVdeq dst h' f s = .next t) : canonical t :=
  h.runSlot (keeps_readV.bind fun _ _ => keeps_readV.bind fun _ _ => keeps_curCtx.bind fun _ _ => keeps_drawIf.bind fun _ _ =>
    keeps_landPart) hr

theorem canonical.execVcwenc {h' : BitVec 2} {f : VBin} {s t : State} (h : canonical s)
    (hr : execVcwenc h' f s = .next t) : canonical t :=
  h.runSlot (keeps_readV.bind fun _ _ => keeps_readV.bind fun _ _ => keeps_curCtx.bind fun _ _ => keeps_drawIf.bind fun _ _ =>
    keeps_landPart) hr

theorem canonical.execVcwdec {dst : ElemTy} {h' : BitVec 2} {view : CwView} {o : BitVec 4} {f : VBin} {s t : State}
    (h : canonical s) (hr : execVcwdec dst h' view o f s = .next t) : canonical t :=
  h.runSlot (keeps_readV.bind fun _ _ => keeps_readV.bind fun _ _ => keeps_curCtx.bind fun _ _ => keeps_drawIf.bind fun _ _ =>
    keeps_landPart) hr

theorem keeps_vfUn {f : VUn} {lat : Nat} {op : FVal → FRes} : Keeps (vfUn f lat op) :=
  keeps_readV.bind fun _ _ => keeps_curCtx.bind fun _ _ => keeps_landVF

theorem keeps_vfBin {f : VBin} {lat : Nat} {op : RMode → FVal → FVal → FRes} : Keeps (vfBin f lat op) :=
  keeps_readV.bind fun _ _ => keeps_readV.bind fun _ _ => keeps_curCtx.bind fun _ _ => keeps_landVF

theorem keeps_vfTer {f : VTer} {op : RMode → FVal → FVal → FVal → FRes} : Keeps (vfTer f op) :=
  keeps_readV.bind fun _ _ => keeps_readV.bind fun _ _ => keeps_readV.bind fun _ _ => keeps_curCtx.bind fun _ _ => keeps_landVF

theorem canonical.execVadd {f : VBin} {s t : State} (h : canonical s) (hr : execVadd f s = .next t) : canonical t :=
  h.runSlot keeps_vfBin hr

theorem canonical.execVsub {f : VBin} {s t : State} (h : canonical s) (hr : execVsub f s = .next t) : canonical t :=
  h.runSlot keeps_vfBin hr

theorem canonical.execVmul {f : VBin} {s t : State} (h : canonical s) (hr : execVmul f s = .next t) : canonical t :=
  h.runSlot keeps_vfBin hr

theorem canonical.execVfma {f : VTer} {s t : State} (h : canonical s) (hr : execVfma f s = .next t) : canonical t :=
  h.runSlot keeps_vfTer hr

theorem canonical.execVfms {f : VTer} {s t : State} (h : canonical s) (hr : execVfms f s = .next t) : canonical t :=
  h.runSlot keeps_vfTer hr

theorem canonical.execVfnma {f : VTer} {s t : State} (h : canonical s) (hr : execVfnma f s = .next t) :
    canonical t :=
  h.runSlot keeps_vfTer hr

theorem canonical.execVrcp {f : VUn} {s t : State} (h : canonical s) (hr : execVrcp f s = .next t) : canonical t :=
  h.runSlot keeps_vfUn hr

theorem canonical.execVrsq {f : VUn} {s t : State} (h : canonical s) (hr : execVrsq f s = .next t) : canonical t :=
  h.runSlot keeps_vfUn hr

theorem canonical.execVsqrt {f : VUn} {s t : State} (h : canonical s) (hr : execVsqrt f s = .next t) : canonical t :=
  h.runSlot keeps_vfUn hr

theorem canonical.execVexp2 {f : VUn} {s t : State} (h : canonical s) (hr : execVexp2 f s = .next t) : canonical t :=
  h.runSlot keeps_vfUn hr

theorem canonical.execVlog2 {f : VUn} {s t : State} (h : canonical s) (hr : execVlog2 f s = .next t) : canonical t :=
  h.runSlot keeps_vfUn hr

theorem canonical.execVtanh {f : VUn} {s t : State} (h : canonical s) (hr : execVtanh f s = .next t) : canonical t :=
  h.runSlot keeps_vfUn hr

theorem canonical.execVsigm {f : VUn} {s t : State} (h : canonical s) (hr : execVsigm f s = .next t) : canonical t :=
  h.runSlot keeps_vfUn hr

theorem canonical.execVsilu {f : VUn} {s t : State} (h : canonical s) (hr : execVsilu f s = .next t) : canonical t :=
  h.runSlot keeps_vfUn hr

theorem canonical.execVgelu {f : VUn} {s t : State} (h : canonical s) (hr : execVgelu f s = .next t) : canonical t :=
  h.runSlot keeps_vfUn hr

theorem canonical.execVdiv {f : VBin} {s t : State} (h : canonical s) (hr : execVdiv f s = .next t) : canonical t :=
  h.runSlot keeps_vfBin hr

theorem keeps_vfMinMax {f : VBin} {max : Bool} : Keeps (vfMinMax f max) :=
  keeps_readV.bind fun _ _ => keeps_readV.bind fun _ _ => keeps_curCtx.bind fun _ _ => keeps_landVX

theorem canonical.execVmin {f : VBin} {s t : State} (h : canonical s) (hr : execVmin f s = .next t) : canonical t :=
  h.runSlot keeps_vfMinMax hr

theorem canonical.execVmax {f : VBin} {s t : State} (h : canonical s) (hr : execVmax f s = .next t) : canonical t :=
  h.runSlot keeps_vfMinMax hr

theorem keeps_vfSign {f : VUn} {neg : Bool} : Keeps (vfSign f neg) :=
  keeps_readV.bind fun _ _ => keeps_landVX

theorem canonical.execVabs {f : VUn} {s t : State} (h : canonical s) (hr : execVabs f s = .next t) : canonical t :=
  h.runSlot keeps_vfSign hr

theorem canonical.execVneg {f : VUn} {s t : State} (h : canonical s) (hr : execVneg f s = .next t) : canonical t :=
  h.runSlot keeps_vfSign hr

/-! ### Every instruction and every step -/

/-- The meaning of every instruction keeps the canonical form. -/
theorem canonical_exec : KeepsCanonical exec := by
  intro i s t h hr
  cases i with
  | nop slot => exact h.execNop (_slot := slot) hr
  | add => exact h.execAdd hr
  | sub => exact h.execSub hr
  | mul => exact h.execMul hr
  | mulh => exact h.execMulh hr
  | div => exact h.execDiv hr
  | rem => exact h.execRem hr
  | and => exact h.execAnd hr
  | or => exact h.execOr hr
  | xor => exact h.execXor hr
  | andn => exact h.execAndn hr
  | shl => exact h.execShl hr
  | shr => exact h.execShr hr
  | sar => exact h.execSar hr
  | rot => exact h.execRot hr
  | clz => exact h.execClz hr
  | ctz => exact h.execCtz hr
  | popc => exact h.execPopc hr
  | min => exact h.execMin hr
  | max => exact h.execMax hr
  | cmp => exact h.execCmp hr
  | sel => exact h.execSel hr
  | li => exact h.execLi hr
  | mov => exact h.execMov hr
  | bfx => exact h.execBfx hr
  | bfi => exact h.execBfi hr
  | addr => exact h.execAddr hr
  | xfer => exact h.execXfer hr
  | fadd => exact h.execFadd hr
  | fsub => exact h.execFsub hr
  | fmul => exact h.execFmul hr
  | fma => exact h.execFma hr
  | frcp => exact h.execFrcp hr
  | frsq => exact h.execFrsq hr
  | fexp2 => exact h.execFexp2 hr
  | flog2 => exact h.execFlog2 hr
  | fmin => exact h.execFmin hr
  | fmax => exact h.execFmax hr
  | fcmp => exact h.execFcmp hr
  | fcvt => exact h.execFcvt hr
  | rand => exact h.execRand hr
  | vadd => exact h.execVadd hr
  | vsub => exact h.execVsub hr
  | vmul => exact h.execVmul hr
  | vfma => exact h.execVfma hr
  | vfms => exact h.execVfms hr
  | vfnma => exact h.execVfnma hr
  | vmin => exact h.execVmin hr
  | vmax => exact h.execVmax hr
  | vabs => exact h.execVabs hr
  | vneg => exact h.execVneg hr
  | vrcp => exact h.execVrcp hr
  | vrsq => exact h.execVrsq hr
  | vsqrt => exact h.execVsqrt hr
  | vdiv => exact h.execVdiv hr
  | vexp2 => exact h.execVexp2 hr
  | vlog2 => exact h.execVlog2 hr
  | vtanh => exact h.execVtanh hr
  | vsigm => exact h.execVsigm hr
  | vsilu => exact h.execVsilu hr
  | vgelu => exact h.execVgelu hr
  | viadd => exact h.execViadd hr
  | visub => exact h.execVisub hr
  | vimul => exact h.execVimul hr
  | vimad => exact h.execVimad hr
  | vimin => exact h.execVimin hr
  | vimax => exact h.execVimax hr
  | vand => exact h.execVand hr
  | vor => exact h.execVor hr
  | vxor => exact h.execVxor hr
  | vshl => exact h.execVshl hr
  | vshr => exact h.execVshr hr
  | vsar => exact h.execVsar hr
  | vcmp => exact h.execVcmp hr
  | vsel => exact h.execVsel hr
  | vmask => exact h.execVmask hr
  | vmov => exact h.execVmov hr
  | vperm => exact h.execVperm hr
  | vbcast => exact h.execVbcast hr
  | vslide => exact h.execVslide hr
  | vcomp => exact h.execVcomp hr
  | vexpd => exact h.execVexpd hr
  | vpsum => exact h.execVpsum hr
  | vred => exact h.execVred hr
  | vfind => exact h.execVfind hr
  | vcnt => exact h.execVcnt hr
  | viota => exact h.execViota hr
  | vcvt => exact h.execVcvt hr
  | vquant => exact h.execVquant hr
  | vdeq => exact h.execVdeq hr
  | vcwenc => exact h.execVcwenc hr
  | vcwdec => exact h.execVcwdec hr
  | vrand => exact h.execVrand hr
  | vxfer => exact h.execVxfer hr
  | vins => exact h.execVins hr
  | vclass => exact h.execVclass hr
  | lds => exact h.execLds hr
  | sts => exact h.execSts hr
  | vld => exact h.execVld hr
  | vst => exact h.execVst hr
  | vlds => exact h.execVlds hr
  | vsts => exact h.execVsts hr
  | vgath => exact h.execVgath hr
  | vscat => exact h.execVscat hr
  | atom => exact h.execAtom hr
  | pref => exact h.execPref hr
  | wset => exact h.execWset hr
  | wstart => exact h.execWstart hr
  | wstop => exact h.execWstop hr
  | wstat => exact h.execWstat hr
  | cbwait => exact h.execCbwait hr
  | cbadv => exact h.execCbadv hr
  | cbset => exact h.execCbset hr
  | nld => exact h.execNld hr
  | nst => exact h.execNst hr
  | nat => exact h.execNat hr
  | nts => exact h.execNts hr
  | nmc => exact h.execNmc hr
  | ncb => exact h.execNcb hr
  | pld => exact h.execPld hr
  | pst => exact h.execPst hr
  | tcfg => exact h.execTcfg hr
  | tdrain e dA => exact h.execTdrain (_dA := dA) hr
  | tzero => exact h.execTzero hr
  | tmma => exact h.execTmma hr
  | taff => exact h.execTaff hr
  | tscan => exact h.execTscan hr
  | tcarry => exact h.execTcarry hr
  | trd => exact h.execTrd hr
  | twr => exact h.execTwr hr
  | tld => exact h.execTld hr
  | tst => exact h.execTst hr
  | tred => exact h.execTred hr
  | tcomb => exact h.execTcomb hr
  | tres => exact h.execTres hr
  | tdesc => exact h.execTdesc hr
  | br => exact h.execBr hr
  | brc => exact h.execBrc hr
  | jmp => exact h.execJmp hr
  | call => exact h.execCall hr
  | ret => exact h.execRet hr
  | loop => exact h.execLoop hr
  | end_ => exact h.execEnd_ hr
  | yield => exact h.execYield hr
  | cadd rel scope => exact h.execCadd (_scope := scope) hr
  | cwait => exact h.execCwait hr
  | ctest => exact h.execCtest hr
  | cread => exact h.execCread hr
  | fence scope => exact h.execFence (_scope := scope) hr
  | drain => exact h.execDrain hr
  | fork => exact h.execFork hr
  | join => exact h.execJoin hr
  | launch => exact h.execLaunch hr
  | msend => exact h.execMsend hr
  | ecopy => exact h.execEcopy hr
  | egather => exact h.execEgather hr
  | escatter => exact h.execEscatter hr
  | efill => exact h.execEfill hr
  | econv => exact h.execEconv hr
  | ecoll => exact h.execEcoll hr
  | eplane => exact h.execEplane hr
  | estat => exact h.execEstat hr
  | swap => exact h.execSwap hr
  | sqnew => exact h.execSqnew hr
  | sqfork => exact h.execSqfork hr
  | sqfree => exact h.execSqfree hr
  | sqtree => exact h.execSqtree hr
  | sqacc => exact h.execSqacc hr
  | sqcommit => exact h.execSqcommit hr
  | sqrewind => exact h.execSqrewind hr
  | sqpreempt => exact h.execSqpreempt hr
  | sqresume => exact h.execSqresume hr
  | sqstat => exact h.execSqstat hr
  | kvmap => exact h.execKvmap hr
  | kvappend => exact h.execKvappend hr
  | kvcompact => exact h.execKvcompact hr
  | kvrequant => exact h.execKvrequant hr
  | pdecl => exact h.execPdecl hr
  | prel => exact h.execPrel hr
  | pconv => exact h.execPconv hr
  | pqry => exact h.execPqry hr
  | csrr => exact h.execCsrr hr
  | csrw => exact h.execCsrw hr
  | trap => exact h.execTrap hr
  | eret => exact h.execEret hr
  | watch => exact h.execWatch hr
  | snap => exact h.execSnap hr
  | bkpt => exact h.execBkpt hr
  | creset => exact h.execCreset hr
  | nldRequest => exact h.execNldRequest hr
  | storePacket => exact h.execStorePacket hr
  | natPacket => exact h.execNatPacket hr
  | contributionPiece => exact h.execContributionPiece hr
  | collectiveTransfer => exact h.execCollectiveTransfer hr
  | response => exact h.execResponse hr
  | acknowledgement => exact h.execAcknowledgement hr
  | negativeAcknowledgement => exact h.execNegativeAcknowledgement hr
  | issueSelection => exact h.execIssueSelection hr
  | contextPromotion => exact h.execContextPromotion hr
  | yieldExpiry => exact h.execYieldExpiry hr
  | stallExpiry => exact h.execStallExpiry hr
  | fixedLatencyLanding => exact h.execFixedLatencyLanding hr
  | variableLatencyLanding => exact h.execVariableLatencyLanding hr
  | outsideTrap => exact h.execOutsideTrap hr
  | contextSave => exact h.execContextSave hr
  | contextRestore => exact h.execContextRestore hr
  | preemptionRequest => exact h.execPreemptionRequest hr
  | preemptionWithdrawn => exact h.execPreemptionWithdrawn hr
  | taskRetire => exact h.execTaskRetire hr
  | dequeStart => exact h.execDequeStart hr
  | parkedJoinRestore => exact h.execParkedJoinRestore hr
  | waitSatisfied => exact h.execWaitSatisfied hr
  | sweepReread => exact h.execSweepReread hr
  | cwaitTimeout => exact h.execCwaitTimeout hr
  | drainSweep => exact h.execDrainSweep hr
  | latheFetch => exact h.execLatheFetch hr
  | tileOperationExecute => exact h.execTileOperationExecute hr
  | engineShadowSwap => exact h.execEngineShadowSwap hr
  | engineCommandComplete => exact h.execEngineCommandComplete hr
  | atomPerform => exact h.execAtomPerform hr
  | messageArrival => exact h.execMessageArrival hr
  | messageHandlerStart => exact h.execMessageHandlerStart hr
  | pageWalk => exact h.execPageWalk hr
  | sysTlbinv => exact h.execSysTlbinv hr
  | invalidationComplete => exact h.execInvalidationComplete hr
  | watchpointReport => exact h.execWatchpointReport hr
  | coreReset => exact h.execCoreReset hr
  | packageColdReset => exact canonical.execPackageColdReset hr
  | vaultConfigWrite => exact h.execVaultConfigWrite hr
  | divisionChangeComplete => exact h.execDivisionChangeComplete hr
  | reserveRegisterWrite => exact h.execReserveRegisterWrite hr
  | spillOfferWithdrawal => exact h.execSpillOfferWithdrawal hr
  | spareSubstitution => exact h.execSpareSubstitution hr
  | coreDisable => exact h.execCoreDisable hr
  | patrolScrub => exact h.execPatrolScrub hr
  | postPackageRepair => exact h.execPostPackageRepair hr
  | spareChannelMigration => exact h.execSpareChannelMigration hr
  | packetRead => exact h.execPacketRead hr
  | nodeEligible => exact h.execNodeEligible hr
  | taskPlacement => exact h.execTaskPlacement hr
  | crewPlacement => exact h.execCrewPlacement hr
  | sharePreemption => exact h.execSharePreemption hr
  | savedTaskRestore => exact h.execSavedTaskRestore hr
  | configLoaderLoad => exact h.execConfigLoaderLoad hr
  | planeFlip => exact h.execPlaneFlip hr
  | managementEplane => exact h.execManagementEplane hr
  | managementFlip => exact h.execManagementFlip hr
  | kvcompactCopyDone => exact h.execKvcompactCopyDone hr
  | kvrequantSwitch => exact h.execKvrequantSwitch hr
  | followerApply => exact h.execFollowerApply hr
  | deliveryFailure => exact h.execDeliveryFailure hr
  | hostRdmaWrite => exact h.execHostRdmaWrite hr
  | hostRdmaRead => exact h.execHostRdmaRead hr
  | hostFetchAndAdd => exact h.execHostFetchAndAdd hr
  | hostCompareAndSwap qp va c v => exact h.execHostCompareAndSwap (_va := va) (_c := c) (_v := v) hr
  | linkGroupReceive => exact h.execLinkGroupReceive hr
  | groupReplay => exact h.execGroupReplay hr
  | bundleDetour => exact h.execBundleDetour hr
  | keyRotation => exact h.execKeyRotation hr
  | endToEndTimeout => exact h.execEndToEndTimeout hr
  | timedSlotFold => exact h.execTimedSlotFold hr
  | combinerTimeout => exact h.execCombinerTimeout hr
  | ecollMatch => exact h.execEcollMatch hr
  | memberShardWrite => exact h.execMemberShardWrite hr
  | memberConversionFailed => exact h.execMemberConversionFailed hr
  | markMemberFailed => exact h.execMarkMemberFailed hr
  | ntsSlotBegins => exact h.execNtsSlotBegins hr
  | shutterFire => exact h.execShutterFire hr
  | contactSheetGatherEnd => exact h.execContactSheetGatherEnd hr
  | densitometerSample => exact h.execDensitometerSample hr
  | densitometerClear => exact h.execDensitometerClear hr
  | registerWrite => exact h.execRegisterWrite hr
  | boot => exact h.execBoot hr
  | attestationRequest => exact h.execAttestationRequest hr
  | clockThrottle => exact h.execClockThrottle hr
  | accessPerformed => exact h.execAccessPerformed hr
  | uncorrectableError => exact h.execUncorrectableError hr
  | laneReturn => exact h.execLaneReturn hr
  | logicalTimeAdvance => exact h.execLogicalTimeAdvance hr
  | rdmaAcknowledgement => exact h.execRdmaAcknowledgement hr

theorem canonical.step {s t : State} (h : canonical s) (hr : step s = .next t) : canonical t := by
  unfold Machine.step at hr
  split at hr
  · exact canonical_exec (.same h) hr
  · exact h.attempt canonical_exec hr
  · exact h.tickClock.ofNext hr

/-- Settles O51: every function that a step is made of leaves memory, the maps of contexts and cores, and a context's register files in
their canonical forms; the few that write one of these maps do it by `Map.set`, `Map.upd` or a filter, which keep its form. -/
theorem stateStaysCanonical : Obligations.StateStaysCanonical := by
  unfold Obligations.StateStaysCanonical
  exact fun _ _ h hr => h.step hr

end Sys2Proof

/-! SUPPORT. The forms on placement descriptors (R413, R418, R419): the check of a descriptor's register, what PDECL answers, and
the releases of PREL and PCONV. -/

namespace Sys2Proof.Proofs

open Sys2Proof Machine Laws

/-- A form that waits until a release can be made at once goes on with nothing changed. -/
theorem gives_needReleased {s : State} (h : quiet s) : Gives needReleased s () s := by
  obtain ⟨hn, hr⟩ := h
  refine gives_bind (gives_get s) ?_
  rw [if_pos hr]
  exact gives_flushOwn hn

section
variable {s : State} {a : Word} (ha : a.toNat % 128 = 0)
include ha

/-- A descriptor that is declared on the die of the issuing context. -/
theorem gives_needDesc {e : Nat × Placed} (hf : findPlaced s (dieOf s.issue.ctx) a (issuer s).region.space.asid = some e) :
    Reads (needDesc a) s e := by
  refine gives_bind (gives_need (beq_iff_eq.mpr ha) _ _ s) (gives_bind (gives_get s) ?_)
  rw [hf]
  exact gives_pure e s

variable {dst desc : BitVec 5} (hk : Reads (readK desc) s a)
include hk

/-! ### A descriptor that is declared -/

section
variable {i : Nat} {q : Placed} (hf : findPlaced s (dieOf s.issue.ctx) a (issuer s).region.space.asid = some (i, q))
include hf

theorem exec_pdecl_declared : exec (.pdecl dst desc) s =
    .next (awaiting s [(fK, dst.toNat)] (some ([BitVec.ofNat 2048 (2 ^ 62 + i)], none))) := by
  refine runSlot_ok (gives_bind hk (gives_bind (gives_need (beq_iff_eq.mpr ha) _ _ s) (gives_bind (gives_get s) ?_)))
  dsimp only
  rw [hf]
  exact gives_pendResult _ _ s

theorem exec_pqry (sel : BitVec 2) : exec (.pqry dst desc sel) s =
    .next (awaiting s [(fK, dst.toNat)] (some ([BitVec.ofNat 2048 (queryWord q sel.toNat)], none))) :=
  runSlot_ok (gives_bind hk (gives_bind (gives_needDesc ha hf) (gives_pendResult _ _ s)))

variable (hq : quiet s)
include hq

theorem exec_prel (drop : Bool) : exec (.prel drop desc) s = .next (
    let t := releaseGen s (dieOf s.issue.ctx) a q.asid
    if drop then sweepDrops (updPlaced t (dieOf s.issue.ctx) a q.asid (fun x => { x with drop := true })) (dieOf s.issue.ctx)
    else t) :=
  runSlot_ok (gives_bind hk (gives_bind (gives_needDesc ha hf) (gives_bind (gives_needReleased hq) (gives_modify _ s))))

theorem exec_pconv {demand : BitVec 12} {t : State} {g : Option Nat} (hd : Reads (checkDemand q demand.toNat) s ())
    (ht : queueDemand s (dieOf s.issue.ctx) q demand.toNat true = (t, g)) : exec (.pconv dst desc demand) s = .next (
      let u := releaseGen t (dieOf s.issue.ctx) a q.asid
      awaiting (if g.isSome then u else updPlaced u (dieOf s.issue.ctx) a q.asid (fun x =>
        { x with asking := x.asking ++ [(s.issue.ctx, u.issue.order, demand.toNat)] })) [(fK, dst.toNat)]
        (g.map (fun g => ([BitVec.ofNat 2048 g], none)))) := by
  refine runSlot_ok (gives_bind hk (gives_bind (gives_needDesc ha hf) (gives_bind hd (gives_bind (gives_needReleased hq)
    (gives_bind (gives_get s) ?_)))))
  dsimp only
  rw [ht]
  exact gives_bind (gives_set _ s) (gives_pendResult _ _ _)

end

/-! ### A descriptor that is not declared -/

section
variable (hf : findPlaced s (dieOf s.issue.ctx) a (issuer s).region.space.asid = none)
include hf

theorem exec_pdecl_noMesh (hr : s.rank (dieOf s.issue.ctx) = none) : exec (.pdecl dst desc) s =
    .next (awaiting s [(fK, dst.toNat)] (some ([BitVec.ofNat 2048 (2 ^ 63 + 4 * 2 ^ 56)], none))) := by
  refine runSlot_ok (gives_bind hk (gives_bind (gives_need (beq_iff_eq.mpr ha) _ _ s) (gives_bind (gives_get s) ?_)))
  dsimp only
  rw [hf, hr]
  exact gives_pendResult _ _ s

/-- What PDECL leaves once it has read the record, by the first free entry. -/
def declaredIn (s t : State) (a : Word) (bs : List Byte) (dst : BitVec 5) : Option Nat → State
  | none => awaiting t [(fK, dst.toNat)] (some ([BitVec.ofNat 2048 (2 ^ 63 + 1 * 2 ^ 56)], none))
  | some i =>
    let d := dieOf s.issue.ctx
    let q : Placed :=
      { addr := a
        record := bs
        region := (issuer s).region
        placement := dtdCodes bs }
    awaiting (gatherPending (t.updDie d (fun x => { x with placed := x.placed ++ [(i, q)] })) d q) [(fK, dst.toNat)]
      (some ([BitVec.ofNat 2048 i], none))

variable (hr : s.rank (dieOf s.issue.ctx) ≠ none) (hn : nonePosted s) {bs : List Byte} {t : State}
  (hl : Gives (loadStrict false 128 a.toNat 128) s bs t)
include hr hn hl

theorem exec_pdecl_invalid (hb : dtdOk (s.die (dieOf s.issue.ctx)).mesh bs = false) : exec (.pdecl dst desc) s =
    .next (awaiting t [(fK, dst.toNat)] (some ([BitVec.ofNat 2048 (2 ^ 63 + 2 * 2 ^ 56)], none))) := by
  refine runSlot_ok (gives_bind hk (gives_bind (gives_need (beq_iff_eq.mpr ha) _ _ s) (gives_bind (gives_get s) ?_)))
  dsimp only
  rw [hf]
  dsimp only
  rw [if_neg (by simpa using hr)]
  refine gives_bind (gives_flushOwn hn) (gives_bind hl ?_)
  rw [if_pos (by rw [hb]; rfl)]
  exact gives_pendResult _ _ t

theorem exec_pdecl_valid (hb : dtdOk (s.die (dieOf s.issue.ctx)).mesh bs = true) : exec (.pdecl dst desc) s =
    .next (declaredIn s t a bs dst
      ((List.range 64).find? (fun i => !(s.die (dieOf s.issue.ctx)).placed.any (fun e => e.1 == i)))) := by
  refine runSlot_ok (gives_bind hk (gives_bind (gives_need (beq_iff_eq.mpr ha) _ _ s) (gives_bind (gives_get s) ?_)))
  dsimp only
  rw [hf]
  dsimp only
  rw [if_neg (by simpa using hr)]
  refine gives_bind (gives_flushOwn hn) (gives_bind hl ?_)
  rw [if_neg (by rw [hb]; exact Bool.false_ne_true)]
  rcases (List.range 64).find? (fun i => !(s.die (dieOf s.issue.ctx)).placed.any (fun e => e.1 == i)) with _ | i
  · exact gives_pendResult _ _ t
  · exact gives_bind (gives_modify _ t) (gives_pendResult _ _ _)

end

end

/-! ### The lowest free entry -/

section
variable {l : List (Nat × Placed)}

/-- An entry number is taken or free. -/
theorem free_eq_true_iff {i : Nat} : (!l.any (fun e => e.1 == i)) = true ↔ ∀ e ∈ l, e.1 ≠ i := by
  simp

theorem find?_free_eq_none {n : Nat} (h : ∀ i < n, ∃ e ∈ l, e.1 = i) :
    (List.range n).find? (fun i => !l.any (fun e => e.1 == i)) = none := by
  rw [List.find?_eq_none]
  intro i hi hfree
  obtain ⟨e, he, hei⟩ := h i (List.mem_range.mp hi)
  exact free_eq_true_iff.mp hfree e he hei

theorem find?_free_eq_some {n i : Nat} (hi : i < n) (hfree : ∀ e ∈ l, e.1 ≠ i) (hlow : ∀ j < i, ∃ e ∈ l, e.1 = j) :
    (List.range n).find? (fun i => !l.any (fun e => e.1 == i)) = some i := by
  rw [List.find?_range_eq_some]
  refine ⟨free_eq_true_iff.mpr hfree, List.mem_range.mpr hi, fun j hj => ?_⟩
  obtain ⟨e, he, hej⟩ := hlow j hj
  simpa using ⟨e.2, hej ▸ he⟩

end

/-- Settles O41: each form by its lemma. -/
theorem placementForms : Obligations.PlacementForms := by
  unfold Obligations.PlacementForms
  intro dst desc s a hk ha
  refine ⟨fun i q hf => ⟨exec_pdecl_declared ha hk hf, exec_pqry ha hk hf, fun hq => ⟨exec_prel ha hk hf hq false, ?drops, ?asks⟩⟩,
    fun hf => ⟨exec_pdecl_noMesh ha hk hf, fun hr bs t hn hl => ⟨exec_pdecl_invalid ha hk hf hr hn hl, fun hb => ?valid⟩⟩⟩
  case drops =>
    rintro t rfl
    exact exec_prel ha hk hf hq true
  case asks =>
    intro demand t g hd ht
    rw [exec_pconv ha hk hf hq hd ht]
    cases g <;> rfl
  case valid =>
    rw [exec_pdecl_valid ha hk hf hr hn hl hb]
    refine ⟨fun full => ?_, fun i hi hfree hlow => ?_⟩
    · rw [find?_free_eq_none full]
      rfl
    · rw [find?_free_eq_some hi hfree hlow]
      rfl

end Sys2Proof.Proofs

/-! SUPPORT. Packets at a die (R387, R392, R396 to R399, R402, R403, R415, R417, R449): each step on a packet that it performs or
answers again, what a die does with each kind of packet, and the answers at the source. -/

namespace Sys2Proof.Proofs

open Sys2Proof Machine

/-! ### Arrival (R384, R392) -/

section
variable {s : State} {d : Nat} {p a : Packet} {r : Option Remote} {ops ops' : List Nat} {f : Option Remote → State}

/-- What becomes of a packet of the kinds of two steps is the same at both. -/
theorem arrives_congr (h : ops.contains p.op.toNat = ops'.contains p.op.toNat) : arrives s d p ops = arrives s d p ops' := by
  unfold arrives
  rw [h]

theorem onArrival_perform (ha : arrives s d p ops = .perform r) (h : ops.contains p.op.toNat = ops'.contains p.op.toNat) :
    onArrival s d p ops' f = .next (f r) := by
  unfold onArrival
  rw [← arrives_congr h, ha]

theorem onArrival_again (ha : arrives s d p ops = .again a) (h : ops.contains p.op.toNat = ops'.contains p.op.toNat) :
    onArrival s d p ops' f = .next (pushGroups s d a) := by
  unfold onArrival
  rw [← arrives_congr h, ha]

end

/-- The kinds of packet that a die performs. -/
abbrev packetKinds : List Nat := [1, 2, 3, 4, 5, 6]

section
variable {s : State} {d : Nat} {p a : Packet}

theorem exec_packet_again (ha : arrives s d p packetKinds = .again a) :
    (p.op = 1 → exec (.nldRequest d p) s = .next (pushGroups s d a)) ∧
    (p.op = 2 → exec (.storePacket d p) s = .next (pushGroups s d a)) ∧
    (p.op = 3 → exec (.natPacket d p) s = .next (pushGroups s d a)) ∧
    (p.op = 4 ∨ p.op = 5 → exec (.contributionPiece d p) s = .next (pushGroups s d a)) ∧
    (p.op = 6 → exec (.collectiveTransfer d p) s = .next (pushGroups s d a)) :=
  ⟨fun h => onArrival_again ha (by rw [h]; rfl), fun h => onArrival_again ha (by rw [h]; rfl),
    fun h => onArrival_again ha (by rw [h]; rfl),
    fun h => onArrival_again ha (by rcases h with h | h <;> rw [h] <;> rfl), fun h => onArrival_again ha (by rw [h]; rfl)⟩

variable {r : Option Remote} (ha : arrives s d p packetKinds = .perform r)
include ha

theorem exec_storePacket (h : p.op = 2) : exec (.storePacket d p) s = .next (storeArrived s d p r) :=
  onArrival_perform ha (by rw [h]; rfl)

theorem exec_natPacket (h : p.op = 3) : exec (.natPacket d p) s = .next (natArrived s d p) :=
  onArrival_perform ha (by rw [h]; rfl)

theorem exec_contributionPiece (h : p.op = 4 ∨ p.op = 5) : exec (.contributionPiece d p) s = .next (pieceArrived s d p) :=
  onArrival_perform ha (by rcases h with h | h <;> rw [h] <;> rfl)

theorem exec_collectiveTransfer (h : p.op = 6) : exec (.collectiveTransfer d p) s = .next (transferArrived s d p) :=
  onArrival_perform ha (by rw [h]; rfl)

theorem exec_nldRequest (h : p.op = 1) : exec (.nldRequest d p) s = .next (match admission s d p with
    | none => dropPacket s d
    | some m => match translateRange s (dieView (m.space p) d) p.target.toNat (targetSize p) .read with
      | .error (c, t) => nak (confirmWalk s (dieView (m.space p) d) c t.toNat) d p c t
      | .ok (ps, t) => respond (readSpans t ps).2 d p 8 (((badSpan t ps).map (·.1)).getD 0) p.target (readSpans t ps).1) :=
  (onArrival_perform ha (by rw [h]; rfl)).trans rfl

end

/-! ### Packets of no member (R390) -/

section
variable {s : State} {d : Nat} {p : Packet} (hm : admission s d p = none)
include hm

theorem storeArrived_notAdmitted {r : Option Remote} (hr : r.bind (·.own) = none) : storeArrived s d p r = dropPacket s d := by
  unfold storeArrived storeParty
  rw [hr, hm]
  rfl

theorem natArrived_notAdmitted : natArrived s d p = dropPacket s d := by
  unfold natArrived
  rw [hm]
  rcases natOp p with _ | ⟨op, ty⟩ <;> rfl

theorem pieceArrived_notAdmitted : pieceArrived s d p = dropPacket s d := by
  unfold pieceArrived
  rw [hm]
  rfl

theorem transferArrived_notAdmitted : transferArrived s d p = dropPacket s d := by
  unfold transferArrived
  rw [hm]

end

/-! ### Stores (R397, R399, R417) -/

section
variable {s : State} {d : Nat} {p : Packet} {sp : Space} {w : Writer}

theorem storeArrived_of_party {r : Option Remote} (h : storeParty s d p r = some (sp, w)) : storeArrived s d p r =
    if heldShard s d sp p.target.toNat p.data.length then holdPacket s d sp p p.data.length else performStore s d p sp w := by
  unfold storeArrived
  rw [h]

theorem performStore_fault {c : BitVec 8} {a : Word} (h : writeVia s (dieView sp d) w p.target.toNat p.data = .error (c, a)) :
    performStore s d p sp w = nak (confirmWalk s (dieView sp d) c a.toNat) d p c a := by
  unfold performStore
  rw [h]

variable {t : State} (h : writeVia s (dieView sp d) w p.target.toNat p.data = .ok t)
include h

theorem performStore_plain (hp : p.aux = 0) : performStore s d p sp w = ack t d p := by
  unfold performStore
  rw [h]
  exact if_pos hp

theorem performStore_flag (hp : p.aux ≠ 0) {u : State}
    (hu : addVia t (dieView sp d) (remoteWriter p) p.flag 1 none (some (0, 0)) = .ok u) :
    performStore s d p sp w = ack u d p := by
  unfold performStore
  rw [h]
  dsimp only
  rw [if_neg hp, hu]

theorem performStore_flagFault (hp : p.aux ≠ 0) {c : BitVec 8} {a : Word}
    (hu : addVia t (dieView sp d) (remoteWriter p) p.flag 1 none (some (0, 0)) = .error (c, a)) :
    performStore s d p sp w = nak (confirmWalk (countIfBad t c) (dieView sp d) c a.toNat) d p c p.flag := by
  unfold performStore
  rw [h]
  dsimp only
  rw [if_neg hp, hu]

end

/-! ### Atomics (R398, R417, R449) -/

section
variable {s : State} {d : Nat} {p : Packet} {m : Member} (hm : admission s d p = some m)
include hm

theorem natArrived_notPermitted (h : natOp p = none ∨ m.nat = false) : natArrived s d p = dropPacket s d := by
  unfold natArrived
  rw [hm]
  rcases h with h | h
  · rw [h]
  · rw [Option.filter_some_neg (by simp [h])]
    rcases natOp p with _ | ⟨op, ty⟩ <;> rfl

variable {op : AtomOp} {ty : ElemTy} (ho : natOp p = some (op, ty)) (hn : m.nat = true)
include ho hn

theorem natArrived_held (hh : heldShard s d (m.space p) p.target.toNat (elemBytes ty) = true) :
    natArrived s d p = holdPacket s d (m.space p) p (elemBytes ty) := by
  unfold natArrived
  rw [hm, ho, Option.filter_some_pos hn]
  exact if_pos hh

variable (hh : heldShard s d (m.space p) p.target.toNat (elemBytes ty) = false)
include hh

theorem natArrived_fault {c : BitVec 8} (h : translate s (dieView (m.space p) d) p.target.toNat .atomic = .error c) :
    natArrived s d p = nak (confirmWalk s (dieView (m.space p) d) c p.target.toNat) d p c p.target := by
  unfold natArrived
  rw [hm, ho, Option.filter_some_pos hn]
  dsimp only
  rw [if_neg (ne_true_of_eq_false hh), h]

variable {pa : Nat} {w : Bool} {t : State} (h : translate s (dieView (m.space p) d) p.target.toNat .atomic = .ok (pa, w, t))
include h

theorem natArrived_bad {c : BitVec 8} (hb : t.badAt pa (elemBytes ty) = some c) : natArrived s d p =
    if bitAt p.aux.toNat 4 then respond t d p 8 c p.target (leBytes 32 0) else nak t d p c p.target := by
  unfold natArrived
  rw [hm, ho, Option.filter_some_pos hn]
  dsimp only
  rw [if_neg (ne_true_of_eq_false hh), h]
  dsimp only
  rw [hb]

theorem natArrived_applies (hb : t.badAt pa (elemBytes ty) = none) : natArrived s d p =
    let r := atomApply t (remoteWriter p) op ty pa (field p.data 0 8) (field p.data 8 8)
    if bitAt p.aux.toNat 4 then respond r.1 d p 8 0 p.target (leBytes 32 r.2) else ack r.1 d p := by
  unfold natArrived
  rw [hm, ho, Option.filter_some_pos hn]
  dsimp only
  rw [if_neg (ne_true_of_eq_false hh), h]
  dsimp only
  rw [hb]

end

/-! ### Contributions and transfers (R402, R403, R415) -/

/-- What a piece of a combiner's entry leaves, by its fate. -/
def pieceDealt (s : State) (d : Nat) (p : Packet) : PieceFate → State
  | .refuse => dropPacket s d
  | .wait => s
  | .drop => ack (dropPacket s d) d p
  | .late =>
    let e := bitsAt p.flag.toNat 0 6
    doomEntry (setComb (ack (dropPacket s d) d p) d e { combOf s d e with late := true }) d e
  | .duplicate =>
    let e := bitsAt p.flag.toNat 0 6
    setComb (ack (dropPacket s d) d p) d e { combOf s d e with dup := true }
  | .take key =>
    let e := bitsAt p.flag.toNat 0 6
    let c := { combOf s d e with pieces := (combOf s d e).pieces ++ [(key, bitsAt p.flag.toNat 8 6, p.data)] }
    settleEntry (setComb (ack s d p) d e (if c.timed then c else c.foldRanks (c.goal (s.die d).mesh))) d e

section
variable {s : State} {d : Nat} {p : Packet} {m : Member} (hm : admission s d p = some m)
include hm

theorem pieceArrived_notPermitted (hc : m.comb = false) : pieceArrived s d p = dropPacket s d := by
  unfold pieceArrived
  rw [hm, Option.filter_some_neg (by simp [hc])]

/-- A piece that is admitted is dealt with by its fate. -/
theorem pieceArrived_of_comb (hc : m.comb = true) : pieceArrived s d p = pieceDealt s d p (pieceFate s d p) := by
  unfold pieceArrived
  rw [hm, Option.filter_some_pos hc]
  cases pieceFate s d p <;> rfl

variable {r : Nat} (hr : (s.die d).mesh.rankOf p.srcPkg p.srcDie = some r)
include hr

theorem transferArrived_arrived (hk : collKind p = 16) : transferArrived s d p =
    ack (s.updDie d (fun x => { x with collArrived := x.collArrived ++ [(p.target, r)] })) d p := by
  unfold transferArrived
  simp only [hm, hr, hk]

theorem transferArrived_input (hk : collKind p = 17) : transferArrived s d p =
    ack (s.updDie d (fun x => { x with collInputs := x.collInputs ++ [(p.target, r, collArg p, p.data)] })) d p := by
  unfold transferArrived
  simp only [hm, hr, hk]

theorem transferArrived_bad (hk : collKind p = 18) : transferArrived s d p =
    ack (s.updDie d (fun x => { x with collBad := x.collBad ++ [(p.target, r)] })) d p := by
  unfold transferArrived
  simp only [hm, hr, hk]

/-- The other kinds are transfers of a placement. -/
theorem transferArrived_placement (h16 : collKind p ≠ 16) (h17 : collKind p ≠ 17) (h18 : collKind p ≠ 18) :
    transferArrived s d p = ((placementTransfer s d p).map (fun t => ack t d p)).getD s := by
  unfold transferArrived
  simp only [hm, hr]
  rcases placementTransfer s d p with _ | t <;> rfl

end

/-! ### Answers at the source (R392, R396 to R399) -/

section
variable {s : State} {d : Nat} {a : Packet} {r : Remote}

theorem exec_response (ho : a.op = 8) (h : answered s d a = some r) : exec (.response d a) s = .next (
    let t := closeRemote s d r
    match r.pend with
    | some n => if (t.ctx r.ctx).tid ≠ r.tid then t
      else if a.aux = 0 then readyPending t r.ctx n [remoteValue r a.data] none
      else readyPending t.free64.2 r.ctx n [t.free64.1.setWidth 2048] (some (a.aux, r.va))
    | none => t) := by
  change execResponse d a s = _
  unfold execResponse
  rw [if_pos ho, h]
  dsimp only
  rcases r.pend with _ | n
  · rfl
  · dsimp only
    split_ifs <;> rfl

theorem exec_negativeAcknowledgement (ho : a.op = 10) (h : answered s d a = some r) :
    exec (.negativeAcknowledgement d a) s = .next (if r.coll then dropRemoteResult (closeRemote s d r) r
      else outsideTrap (dropRemoteResult (closeRemote s d r) r) r.tid r.region 2 a.aux a.target) := by
  change execNegativeAcknowledgement d a s = _
  unfold execNegativeAcknowledgement
  rw [if_pos ho, h]

theorem exec_acknowledgement_single (ho : a.op = 9) (hx : a.aux = 0) (hs : a.seq < 2 ^ 24) (h : answered s d a = some r) :
    exec (.acknowledgement d a) s = .next (closeRemote s d r) := by
  have known : answered s d { a with seq := (a.seq + 0) % 2 ^ 24 } = some r := by rw [Nat.add_zero, Nat.mod_eq_of_lt hs, h]
  change execAcknowledgement d a s = _
  unfold execAcknowledgement
  have one : List.range (a.aux.toNat + 1) = [0] := by rw [hx]; rfl
  rw [if_neg (not_not.mpr ho), one, List.foldl_cons, List.foldl_nil]
  dsimp only
  by_cases hp : a.srcPkg = s.pkg
  · rw [if_pos (by simp [hp, hx]), known]
  · rw [if_neg (by simp [hp]), if_neg hp, known]

/-- The operations that an acknowledgement of a range closes, one after the other. -/
def closeRange (d : Nat) (a : Packet) (t : State) (i : Nat) : State :=
  match answered t d { a with seq := (a.seq + i) % 2 ^ 24 } with
  | some r => closeRemote t d r
  | none => t

theorem closeRange_pkg (d : Nat) (a : Packet) (t : State) (i : Nat) : (closeRange d a t i).pkg = t.pkg := by
  unfold closeRange
  split <;> rfl

/-- A fold whose steps agree as long as the package keeps its number. -/
theorem foldl_congr_pkg {f g : State → Nat → State} (hg : ∀ t i, (g t i).pkg = t.pkg) {n : Nat}
    (hfg : ∀ t i, t.pkg = n → f t i = g t i) (l : List Nat) (s : State) (hs : s.pkg = n) : l.foldl f s = l.foldl g s := by
  induction l generalizing s with
  | nil => rfl
  | cons i l ih =>
    rw [List.foldl_cons, List.foldl_cons, hfg s i hs]
    exact ih _ ((hg s i).trans hs)

theorem exec_acknowledgement_range (ho : a.op = 9) (hp : a.srcPkg ≠ s.pkg) :
    exec (.acknowledgement d a) s = .next ((List.range (a.aux.toNat + 1)).foldl (closeRange d a) s) := by
  change execAcknowledgement d a s = _
  unfold execAcknowledgement
  rw [if_neg (not_not.mpr ho)]
  refine congrArg Host.Outcome.next (foldl_congr_pkg (closeRange_pkg d a) (n := s.pkg) (fun t i ht => ?_) _ s rfl)
  have other : a.srcPkg ≠ t.pkg := ht ▸ hp
  simp only [other, decide_false, Bool.false_and, Bool.false_eq_true, if_false]
  rfl

end

/-- Settles O58: what becomes of each packet by the lemmas about its kind. -/
theorem packetEvents : Obligations.PacketEvents := by
  unfold Obligations.PacketEvents
  refine ⟨?performs, ?notAdmitted, fun d p a s => exec_packet_again,
    fun d a s r h => ⟨fun ho => exec_response ho h, fun ho => exec_negativeAcknowledgement ho h⟩,
    fun d a s r => exec_acknowledgement_single, fun d a s ho hp n hn => hn ▸ exec_acknowledgement_range ho hp⟩
  case notAdmitted =>
    intro d p s r ha hm
    refine ⟨fun h => ?_, fun h => ?_, fun h hr => ?_, fun h => ?_, fun h => ?_⟩
    · rw [exec_nldRequest ha h, hm]
    · rw [exec_natPacket ha h, natArrived_notAdmitted hm]
    · rw [exec_storePacket ha h, storeArrived_notAdmitted hm hr]
    · rw [exec_contributionPiece ha h, pieceArrived_notAdmitted hm]
    · rw [exec_collectiveTransfer ha h, transferArrived_notAdmitted hm]
  case performs =>
    intro d p s r m ha hm
    refine ⟨fun h => ?load, fun h sp w hw => ?store, fun h op ty ho hn => ?atomic, fun h hn => ?noAtomic,
      fun h hc => ?noPiece, fun h hc => ?piece, fun h r hr => ?transfer⟩
    case load =>
      rw [exec_nldRequest ha h, hm]
      dsimp only
      refine ⟨fun ps t bs u ht hu => ?_, fun c a ht => ?_⟩
      · rw [ht]
        dsimp only
        rw [hu]
      · rw [ht]
    case store =>
      rw [exec_storePacket ha h, storeArrived_of_party hw]
      refine ⟨fun hh => congrArg _ (if_pos hh), fun hh => ?_⟩
      rw [if_neg (ne_true_of_eq_false hh)]
      exact ⟨fun c a hf => congrArg _ (performStore_fault hf), fun t ht =>
        ⟨fun hp => congrArg _ (performStore_plain ht hp), fun hp =>
          ⟨fun u hu => congrArg _ (performStore_flag ht hp hu), fun c a hu => congrArg _ (performStore_flagFault ht hp hu)⟩⟩⟩
    case atomic =>
      rw [exec_natPacket ha h]
      exact ⟨fun hh => congrArg _ (natArrived_held hm ho hn hh), fun hh =>
        ⟨fun c hf => congrArg _ (natArrived_fault hm ho hn hh hf), fun pa w t ht =>
          ⟨fun c hb => congrArg _ (natArrived_bad hm ho hn hh ht hb),
            fun hb => congrArg _ (natArrived_applies hm ho hn hh ht hb)⟩⟩⟩
    case noAtomic => rw [exec_natPacket ha h, natArrived_notPermitted hm hn]
    case noPiece => rw [exec_contributionPiece ha h, pieceArrived_notPermitted hm hc]
    case piece =>
      rw [exec_contributionPiece ha h, pieceArrived_of_comb hm hc]
      refine ⟨fun hf => ?_, fun hf => ?_, fun hf => ?_, fun hf => ?_, fun hf => ?_, fun key hf => ?_⟩ <;> rw [hf] <;> rfl
    case transfer =>
      rw [exec_collectiveTransfer ha h]
      exact ⟨fun hk => congrArg _ (transferArrived_arrived hm hr hk), fun hk => congrArg _ (transferArrived_input hm hr hk),
        fun hk => congrArg _ (transferArrived_bad hm hr hk),
        fun h16 h17 h18 => congrArg _ (transferArrived_placement hm hr h16 h17 h18)⟩

end Sys2Proof.Proofs

/-! SUPPORT. Requests of the sequence manager (R324 to R326, R328, R329): how a request is performed on the sequence that it names, or
waits, or is refused, and the manager's reads and writes that succeed. -/

namespace Sys2Proof.Proofs

open Sys2Proof Machine Laws

/-! ### A request as a whole (R324, R325) -/

section
variable {s t : State} {dst : BitVec 5} (hq : quiet s)
include hq

/-- A request of a context that waits for nothing, on a sequence that is not busy, is performed whole. -/
theorem gives_requestOr {id : State → Option Nat} {f : State → Nat → Option (Option Word × State)} {w : Option Word}
    (hb : ((id s).map s.seqBusy).getD false = false) (hf : f s s.issue.ctx = some (w, t)) :
    Gives (requestOr dst id f) s () (resultLands s t (id s) dst w) := by
  obtain ⟨hn, hr⟩ := hq
  refine gives_bind (gives_get s) ?_
  rw [if_pos hr]
  refine gives_bind (gives_flushOwn hn) (gives_bind (gives_get s) ?_)
  rw [if_neg (ne_true_of_eq_false hb)]
  beta_reduce
  rw [hf]
  exact gives_bind (gives_set _ s) (gives_pendResult _ _ _)

theorem gives_request {id : Nat} {f : State → Nat → Reply} {w : Word} (hb : s.seqBusy id = false) (hf : f s s.issue.ctx = (w, t)) :
    Gives (request dst (some id) f) s () (replied s t (some id) dst w) :=
  gives_requestOr hq hb (by rw [hf])

theorem gives_request_unnamed {f : State → Nat → Reply} {w : Word} (hf : f s s.issue.ctx = (w, t)) :
    Gives (request dst none f) s () (replied s t none dst w) :=
  gives_requestOr hq rfl (by rw [hf])

/-- A request on a sequence that is busy waits. -/
theorem held_requestOr {id : State → Option Nat} {f : State → Nat → Option (Option Word × State)} {n : Nat} (hid : id s = some n)
    (hb : s.seqBusy n = true) : (requestOr dst id f).run s = .error (.held s) := by
  obtain ⟨hn, hr⟩ := hq
  unfold requestOr
  rw [run_bind_of (gives_get s), if_pos hr, run_bind_of (gives_flushOwn hn), run_bind_of (gives_get s), hid, Option.map_some,
    Option.getD_some, if_pos hb]
  rfl

end

/-! ### The sequence that a request names (R326, R329) -/

section
variable {α : Type} {up : Reply → α} {s : State} {c id : Nat} {k : Word} {q : Seq} {f : Seq → α}

theorem withId_ok (hid : id < 2 ^ 15) (hf : Map.find? s.seqs id = some q) (hr : inSubtree q.region (s.ctx c).region = true) :
    withId up s c id k f = f q := by
  have hs : s.seq? id = some q := hf
  unfold withId
  rw [if_neg (Nat.not_le.mpr hid), hs]
  exact if_pos hr

theorem withId_named (h : mayName s k q) : withId up s s.issue.ctx k.toNat k f = f q := by
  obtain ⟨hid, hf, hr⟩ := h
  exact withId_ok hid hf hr

theorem withId_absent (hid : id < 2 ^ 15) (hf : Map.find? s.seqs id = none) : withId up s c id k f = up (refusal 1, s) := by
  have hs : s.seq? id = none := hf
  unfold withId
  rw [if_neg (Nat.not_le.mpr hid), hs]

/-- An id past the last one, or of another region. -/
theorem withId_foreign (h : 2 ^ 15 ≤ id ∨ ∃ q, Map.find? s.seqs id = some q ∧ inSubtree q.region (s.ctx c).region = false) :
    withId up s c id k f = up (refuseTrap s c 0x05 k) := by
  unfold withId
  split_ifs with hid
  · rfl
  · obtain ⟨q, hf, hr⟩ := h.resolve_left hid
    have hs : s.seq? id = some q := hf
    rw [hs]
    exact if_neg (ne_true_of_eq_false hr)

theorem withSeq_named {g : Nat → Seq → Reply} (h : mayName s k q) : withSeq s s.issue.ctx k g = g k.toNat q := withId_named h

end

theorem stateRefusal_ok {q : Seq} {l : List Nat} {home : Bool} (hh : home = true → q.follower = false)
    (hl : l.contains q.st = true) : stateRefusal q l home = none := by
  unfold stateRefusal
  rw [if_neg (by rw [Bool.and_eq_true]; exact fun h => ne_true_of_eq_false (hh h.1) h.2), if_pos hl]

theorem stateRefusal_follower {q : Seq} {l : List Nat} (hf : q.follower = true) : stateRefusal q l true = some 10 := by
  unfold stateRefusal
  rw [hf]
  rfl

theorem inStates_ok {s : State} {q : Seq} {l : List Nat} {home : Bool} {r : Reply} (hh : home = true → q.follower = false)
    (hl : l.contains q.st = true) : inStates s q l home r = r := by
  unfold inStates
  rw [stateRefusal_ok hh hl]

theorem inStates_follower {s : State} {q : Seq} {l : List Nat} {r : Reply} (hf : q.follower = true) :
    inStates s q l true r = (refusal 10, s) := by
  unfold inStates
  rw [stateRefusal_follower hf]

/-- The states that accept what neither a free nor a compacting sequence takes. -/
theorem contains_st {q : Seq} (h0 : q.st ≠ 0) (h4 : q.st ≠ 4) (h8 : q.st < 8) : [1, 2, 3, 5, 6, 7].contains q.st = true := by
  rw [List.contains_iff_mem]
  simp only [List.mem_cons, List.not_mem_nil, or_false]
  omega

/-! ### Reads, writes and creation (R324, R328, R339) -/

section
variable {s s0 t u v : State} {c n : Nat} {va : Word} {bs : List Byte}

theorem mgrRead_ok {f : List Byte → State → Reply} (h : readVia s (packageView (s.ctx c).region.space) va.toNat n = .ok (bs, t)) :
    mgrRead s c va n f = f bs t := by
  have hr : readVia s (packageView (reqSpace s c)) va.toNat n = .ok (bs, t) := h
  unfold mgrRead
  rw [hr]

theorem mgrWrite_ok {f : State → Reply}
    (h : writeVia s (packageView (s.ctx c).region.space) s.pkgWriter va.toNat bs = .ok t) : mgrWrite s0 s c va bs f = f t := by
  have hw : writeVia s (packageView (reqSpace s c)) s.pkgWriter va.toNat bs = .ok t := h
  unfold mgrWrite
  rw [hw]

theorem create_ok {f : Nat → Seq → State → Reply} {id b : Nat} (hok : creationOk bs = true)
    (hp : (creationPages s (s.ctx c).region.space bs).bind (fun x => joinCohort x (s.ctx c).region bs) = some u)
    (hid : pickId u (field bs 0 2) = some id) (hb : allocReserved u 2 = some (b, v)) :
    create s c bs f = f id (seqOf v (s.ctx c).region bs b) v := by
  unfold create
  dsimp only
  rw [if_neg (by rw [hok]; exact Bool.false_ne_true), hp]
  dsimp only
  rw [hid]
  dsimp only
  rw [hb]

theorem parentHalf_ok {q : Seq} {half : List Byte} {f : List Byte → State → Reply}
    (h : if q.penalty = 0 ∨ n = 0 then half = [] ∧ t = s else
      readVia s (packageView (s.ctx c).region.space) q.penalty.toNat (min q.penHalf n) = .ok (half, t)) :
    parentHalf s0 s c q n f = f half t := by
  unfold parentHalf
  simp only [Bool.or_eq_true, decide_eq_true_eq]
  split_ifs at h ⊢ with hn
  · obtain ⟨rfl, rfl⟩ := h
    rfl
  · have hr : readVia s (packageView (reqSpace s c)) q.penalty.toNat (min q.penHalf n) = .ok (half, t) := h
    rw [hr]

end

end Sys2Proof.Proofs

/-! SUPPORT. SQNEW, SQFORK, SQFREE and SQSTAT (R325, R328, R339, R340, R355). -/

namespace Sys2Proof.Proofs

open Sys2Proof Machine Laws

section
variable {s t u v : State} {dst r1 r2 : BitVec 5} (hq : quiet s)
include hq

theorem exec_sqnew {a : Word} {bs : List Byte} {id b : Nat} (ha : Reads (readRecAddr r1) s a)
    (hr : readVia s (packageView (issuer s).region.space) a.toNat 128 = .ok (bs, t)) (hok : creationOk bs = true)
    (hp : (creationPages t (t.ctx s.issue.ctx).region.space bs).bind (fun x => joinCohort x (t.ctx s.issue.ctx).region bs) = some u)
    (hid : pickId u (field bs 0 2) = some id) (hb : allocReserved u 2 = some (b, v)) :
    exec (.sqnew dst r1) s =
      .next (replied s (putSeq v id (seqOf v (t.ctx s.issue.ctx).region bs b)) none dst (BitVec.ofNat 64 id)) :=
  runSlot_ok (gives_bind ha (gives_request_unnamed hq ((mgrRead_ok hr).trans (create_ok hok hp hid hb))))

variable {kid : Word} (hk : Reads (readK r1) s kid)
include hk

section
variable {q : Seq} (hm : mayName s kid q) (hb : s.seqBusy kid.toNat = false)
include hm hb

theorem exec_sqfork {w x : State} {a : Word} {bs half : List Byte} {id b : Nat} (ha : Reads (readRecAddr r2) s a)
    (hr : readVia s (packageView (issuer s).region.space) a.toNat 128 = .ok (bs, t)) {ext : List Extent}
    (he : ext = takePages ((q.c + 15) / 16) q.extents) (hc : ∀ f ∈ pageFrames ext, (frameOf t f).count < 65535)
    (hok : creationOk bs = true)
    (hp : (creationPages t (t.ctx s.issue.ctx).region.space bs).bind (fun x => joinCohort x (t.ctx s.issue.ctx).region bs) = some u)
    (hid : pickId u (field bs 0 2) = some id) (hv : allocReserved u 2 = some (b, v)) {p : Seq} {n : Nat}
    (hpq : p = seqOf v (t.ctx s.issue.ctx).region bs b) (hn : n = if p.penalty = 0 then 0 else p.penHalf)
    (hh : if q.penalty = 0 ∨ n = 0 then half = [] ∧ w = v else
      readVia v (packageView (v.ctx s.issue.ctx).region.space) q.penalty.toNat (min q.penHalf n) = .ok (half, w))
    (hw : writeVia w (packageView (w.ctx s.issue.ctx).region.space) w.pkgWriter p.penalty.toNat
      (if p.penalty = 0 then [] else childHalf half p.penHalf ++ childHalf half p.penHalf) = .ok x) :
    exec (.sqfork dst r1 r2) s = .next (replied s (putSeq ((pageFrames ext).foldl
      (fun s f => updFrame s f (fun y => { y with count := y.count + 1 })) x) id (childOf q p ext)) (some kid.toNat) dst
      (BitVec.ofNat 64 id)) := by
  subst he hpq hn
  have shared : (pageFrames (takePages ((q.c + 15) / 16) q.extents)).any (fun f => decide (65535 ≤ (frameOf t f).count)) = false := by
    rw [List.any_eq_false]
    exact fun f hf => by simpa using hc f hf
  refine runSlot_ok (gives_bind hk (gives_bind ha (gives_request hq hb ((withSeq_named hm).trans ((mgrRead_ok hr).trans ?_)))))
  dsimp only
  rw [if_neg (ne_true_of_eq_false shared), create_ok hok hp hid hv, parentHalf_ok hh, mgrWrite_ok hw]
  rfl

theorem exec_sqfree (hj : requanting s kid.toNat = false) (h0 : q.st ≠ 0) (h4 : q.st ≠ 4) (h8 : q.st < 8) :
    exec (.sqfree dst r1) s = .next (replied s (leaveCohort { dropFrames s q with seqs := Map.erase s.seqs kid.toNat } q)
      (some kid.toNat) dst 0) := by
  refine runSlot_ok (gives_bind hk (gives_bind (gives_get s) ?_))
  rw [if_neg (ne_true_of_eq_false hj)]
  exact gives_request hq hb
    ((withSeq_named hm).trans (inStates_ok (fun h => absurd h Bool.false_ne_true) (contains_st h0 h4 h8)))

theorem exec_sqstat (sel : BitVec 5) :
    exec (.sqstat dst r1 sel) s = .next (replied s s (some kid.toNat) dst (statOf q sel.toNat)) :=
  runSlot_ok (gives_bind hk (gives_request hq hb (withSeq_named hm)))

end

/-- A request waits while its sequence is busy. -/
theorem exec_seq_waits (hb : s.seqBusy kid.toNat = true) (sel : BitVec 5) {a : Word} (ha : Reads (readRecAddr r2) s a) :
    ∀ i ∈ [Instr.sqfree dst r1, .sqstat dst r1 sel, .sqtree dst r1 r2, .sqacc dst r1 r2, .sqcommit none dst r1],
      exec i s = .next (stopped s (.held s)) := by
  have held : ∀ f, (request dst (some kid.toNat) f).run s = .error (.held s) := fun f => held_requestOr hq rfl hb
  intro i hi
  simp only [List.mem_cons, List.not_mem_nil, or_false] at hi
  rcases hi with rfl | rfl | rfl | rfl | rfl
  · refine runSlot_held ?_
    rw [run_bind_of hk, run_bind_of (gives_get s)]
    split_ifs
    · rfl
    · exact held _
  · exact runSlot_held ((run_bind_of hk).trans (held _))
  · exact runSlot_held ((run_bind_of hk).trans ((run_bind_of ha).trans (held _)))
  · exact runSlot_held ((run_bind_of hk).trans ((run_bind_of ha).trans (held _)))
  · exact runSlot_held ((run_bind_of hk).trans ((run_bind_of (gives_pure _ s)).trans (held_requestOr hq rfl hb)))

end

/-- Settles O37: each form by its lemma. -/
theorem sequenceLifetimes : Obligations.SequenceLifetimes := by
  unfold Obligations.SequenceLifetimes
  intro dst r1 r2 s hq
  refine ⟨fun a bs t u v id b => exec_sqnew hq, fun kid q hk hm => ⟨fun hb => ⟨?fork,
    exec_sqfree hq hk hm hb, exec_sqstat hq hk hm hb⟩, fun hb sel a => exec_seq_waits hq hk hb sel⟩⟩
  case fork =>
    intro a bs half t u v w x id b ha hr ext hc hok hp hid hv p n hh hw
    exact exec_sqfork hq hk hm hb ha hr rfl hc hok hp hid hv rfl rfl hh hw

end Sys2Proof.Proofs

/-! SUPPORT. SQTREE, SQACC, SQREWIND, SQPREEMPT and SQRESUME (R341, R342, R347, R351). -/

namespace Sys2Proof.Proofs

open Sys2Proof Machine Laws

section
variable {s t u : State} {dst r1 r2 : BitVec 5} {kid : Word} {q : Seq} (hq : quiet s) (hk : Reads (readK r1) s kid)
  (hm : mayName s kid q) (hf : q.follower = false) (hb : s.seqBusy kid.toNat = false)
include hq hk hm hf hb

section
variable {a : Word} (ha : Reads (readRecAddr r2) s a)
include ha

/-- A tree of 1 to 64 nodes that R341 admits. -/
theorem exec_sqtree {h bs : List Byte} (hs : q.st = 1 ∨ q.st = 2 ∨ q.st = 3)
    (hc : ∀ n, q.cohort = some n → checkPhase s n = false)
    (hr : readVia s (packageView (issuer s).region.space) a.toNat 16 = .ok (h, t)) {m : Nat} (hmf : m = field h 0 1) (h1 : 1 ≤ m)
    (h64 : m ≤ 64) (hz : zeroField h 1 15 = true)
    (hn : readVia t (packageView (t.ctx s.issue.ctx).region.space) (a + 16).toNat (16 * m) = .ok (bs, u))
    (ho : treeOk bs m q.pendTok = true) : exec (.sqtree dst r1 r2) s =
      .next (replied s (putSeq u kid.toNat { q with st := 2, nodes := nodesOf bs m, acc := none }) (some kid.toNat) dst 0) := by
  subst hmf
  have free : (q.cohort.map (checkPhase s)).getD false = false := by
    cases hco : q.cohort with
    | none => rfl
    | some n => exact hc n hco
  have size : (field h 0 1 = 0 || decide (64 < field h 0 1) || !zeroField h 1 15) = false := by
    rw [hz, decide_eq_false (Nat.one_le_iff_ne_zero.mp h1), decide_eq_false h64.not_gt]
    rfl
  refine runSlot_ok (gives_bind hk (gives_bind ha (gives_request hq hb ((withSeq_named hm).trans
    ((inStates_ok (fun _ => hf) (by rcases hs with h | h | h <;> rw [h] <;> rfl)).trans ?_)))))
  rw [if_neg (ne_true_of_eq_false free), mgrRead_ok hr]
  dsimp only
  rw [if_neg (ne_true_of_eq_false size), mgrRead_ok hn]
  exact if_pos ho

/-- An acceptance with a table: its state, its stream, and what the followers are sent. -/
theorem exec_sqacc {bs : List Byte} (hs : q.st = 2) (hc : ∀ n, q.cohort = some n → checkPhase s n = true) (h0 : a ≠ 0)
    (hr : readVia s (packageView (issuer s).region.space) a.toNat 1040 = .ok (bs, t)) : exec (.sqacc dst r1 r2) s = .next (
      let r := acceptWalk q kid.toNat bs
      let w := accWord r.1 r.2.1 r.2.2
      let q' : Seq := { q with
        st := 3
        work := q.work + BitVec.ofNat 128 ((r.2.2 + 3) / 4)
        acc := some { path := r.1, correction := r.2.1, result := w, table := a }
        lastAcc := w }
      replied s (putSeq (toFollowers t kid.toNat q' (.accept w r.1 r.2.1 q'.work)) kid.toNat q') (some kid.toNat) dst w) := by
  have due : (q.cohort.map (fun n => !checkPhase s n)).getD false = false := by
    cases hco : q.cohort with
    | none => rfl
    | some n => rw [Option.map_some, Option.getD_some, hc n hco]; rfl
  refine runSlot_ok (gives_bind hk (gives_bind ha (gives_request hq hb ((withSeq_named hm).trans
    ((inStates_ok (fun _ => hf) (by rw [hs]; rfl)).trans ?_)))))
  rw [if_neg (ne_true_of_eq_false due), if_neg h0, mgrRead_ok hr]
  rfl

/-- A sequence is read back from its save area, and its table written where it now stands. -/
theorem exec_sqresume {bs : List Byte} (hs : q.st = 6)
    (hr : readVia s (packageView (issuer s).region.space) q.save.toNat 2128 = .ok (bs, t)) (ho : saveOk bs q.pendTok = true)
    {table : Word} (ht : table = if a = 0 then fieldW bs 0x20 else a)
    (hw : if table = 0 then u = t else writeVia t (packageView (t.ctx s.issue.ctx).region.space) t.pkgWriter table.toNat
      ((bs.drop 0x440).take 1040) = .ok u) :
    exec (.sqresume dst r1 r2) s = .next (replied s (putSeq u kid.toNat (Machine.resumed q bs table)) (some kid.toNat) dst 0) := by
  subst ht
  refine runSlot_ok (gives_bind hk (gives_bind ha (gives_request hq hb ((withSeq_named hm).trans
    ((inStates_ok (fun _ => hf) (by rw [hs]; rfl)).trans ((mgrRead_ok hr).trans ?_))))))
  rw [if_neg (by rw [ho]; exact Bool.false_ne_true)]
  dsimp only
  by_cases hz : (if a = 0 then fieldW bs 0x20 else a) = 0
  · rw [if_pos hz] at hw ⊢
    rw [hw]
    rfl
  · rw [if_neg hz] at hw ⊢
    exact mgrWrite_ok hw

end

/-- The count goes back by `n`, at the earliest to the one that the host has acknowledged. -/
theorem exec_sqrewind {n : Word} {bs : List Byte} (hn : Reads (readK r2) s n) (hs : q.st = 1 ∨ q.st = 7)
    (hr : readVia s (packageView (issuer s).region.space) q.ack.toNat 8 = .ok (bs, t)) : exec (.sqrewind dst r1 r2) s = .next (
      let low := leNat bs
      let back : Int := (q.c : Int) - n.toNat
      let c' := (max back low).toNat
      replied s (putSeq t kid.toNat { q with
        st := 1
        c := c'
        ackRead := BitVec.ofNat 64 low
        pendTok := none
        carried := [] }) (some kid.toNat) dst (BitVec.ofNat 64 ((if back < low then 11 * 2 ^ 56 else 0) + c' % 2 ^ 32))) := by
  have count : (max ((q.c : Int) - n.toNat) (leNat bs)).toNat = max (q.c - n.toNat) (leNat bs) := by omega
  refine runSlot_ok (gives_bind hk (gives_bind hn (gives_request hq hb ((withSeq_named hm).trans
    ((inStates_ok (fun _ => hf) (by rcases hs with h | h <;> rw [h] <;> rfl)).trans ((mgrRead_ok hr).trans ?_))))))
  dsimp only
  rw [count]
  simp only [decide_eq_true_eq]
  rfl

/-- What SQPREEMPT writes after the head of the save area: the table of an acceptance, or zeros. -/
theorem exec_sqpreempt {table : List Byte} (hs : q.st = 1 ∨ q.st = 2 ∨ q.st = 3)
    (ht : match q.acc with
      | some a => if q.st = 3 then readVia s (packageView (issuer s).region.space) a.table.toNat 1040 = .ok (table, t) else
          t = s ∧ table = leBytes 1040 0
      | none => t = s ∧ table = leBytes 1040 0)
    (hw : writeVia t (packageView (t.ctx s.issue.ctx).region.space) t.pkgWriter q.save.toNat (saveHead q ++ table) = .ok u) :
    exec (.sqpreempt dst r1) s =
      .next (replied s (putSeq u kid.toNat { q with st := 6, nodes := [], acc := none }) (some kid.toNat) dst 0) := by
  refine runSlot_ok (gives_bind hk (gives_request hq hb ((withSeq_named hm).trans
    ((inStates_ok (fun _ => hf) (by rcases hs with h | h | h <;> rw [h] <;> rfl)).trans ?_))))
  rcases hacc : q.acc with _ | a
  · rw [hacc] at ht
    obtain ⟨rfl, rfl⟩ := ht
    exact mgrWrite_ok hw
  · rw [hacc] at ht
    dsimp only at ht ⊢
    split_ifs at ht ⊢
    · exact (mgrRead_ok ht).trans (mgrWrite_ok hw)
    · obtain ⟨rfl, rfl⟩ := ht
      exact mgrWrite_ok hw

end

/-- Settles O38: each form by its lemma. -/
theorem sequenceTrees : Obligations.SequenceTrees := by
  unfold Obligations.SequenceTrees
  intro dst r1 r2 s kid q hq hk hm hf hb
  refine ⟨fun a h bs t u ha hs hc hr => ?tree, fun a bs t ha => exec_sqacc hq hk hm hf hb ha,
    fun n bs t => exec_sqrewind hq hk hm hf hb, fun table t u => exec_sqpreempt hq hk hm hf hb, fun a bs t u ha hs hr ho => exec_sqresume hq hk hm hf hb ha hs hr ho rfl⟩
  case tree => exact exec_sqtree hq hk hm hf hb ha hs hc hr rfl

end Sys2Proof.Proofs

/-! SUPPORT. SQCOMMIT (R344 to R346): how a commit ends, with and without records, and where its delivery fails. -/

namespace Sys2Proof.Proofs

open Sys2Proof Machine Laws

/-! ### The end of a commit -/

section
variable {s t : State} {c id : Nat} {q : Seq} {m : Matched} {msg : FollowMsg}

/-- A commit without records is over at once. -/
theorem endCommit_over (hm : m.records = []) (h : sendRecords s (s.ctx c).region.space q m.records = .ok t) :
    endCommit s c id q m msg = (some (commitWord q.c m.records.length m.stopped), putSeq (toFollowers t id q msg) id
      { q with carried := m.carried, delivered := (q.delivered + m.records.length) % 2 ^ 64 }) := by
  have hs : sendRecords s (reqSpace s c) q m.records = .ok t := h
  unfold endCommit
  dsimp only
  rw [hs]
  exact if_pos (List.isEmpty_iff.mpr hm)

/-- A commit with records waits for their acknowledgement. -/
theorem endCommit_delivers (hm : m.records ≠ []) (h : sendRecords s (s.ctx c).region.space q m.records = .ok t) :
    endCommit s c id q m msg = (none, putSeq { t with deliveries := t.deliveries ++
      [{ id := id, ctx := c, pend := t.issue.order, result := commitWord q.c m.records.length m.stopped, msg := msg }] } id
      { q with carried := m.carried, delivered := (q.delivered + m.records.length) % 2 ^ 64 }) := by
  have hs : sendRecords s (reqSpace s c) q m.records = .ok t := h
  unfold endCommit
  dsimp only
  rw [hs]
  exact if_neg (mt List.isEmpty_iff.mp hm)

theorem endCommit_fails {k : Nat} (h : sendRecords s (s.ctx c).region.space q m.records = .error (k, t)) :
    endCommit s c id q m msg = (some (commitWord q.c k true), putSeq (toFollowers (faultRecord t q.region 4 0x19 0 0 q.hostCtr) id
      { q with carried := m.carried } (failedMsg k msg)) id
      { q with st := 7, carried := m.carried, delivered := (q.delivered + k) % 2 ^ 64 }) := by
  have hs : sendRecords s (reqSpace s c) q m.records = .error (k, t) := h
  unfold endCommit
  dsimp only
  rw [hs]
  rfl

/-- How a performed commit leaves the machine: with its result, waiting for its records, or with its sequence stopped. -/
theorem endCommit_ends {s0 v : State} {dst : BitVec 5} {i : Instr}
    (h : exec i s0 = .next (resultLands s0 (endCommit s c id q m msg).2 (some id) dst (endCommit s c id q m msg).1)) :
    (sendRecords s (s.ctx c).region.space q m.records = .ok v →
      exec i s0 = .next (if m.records = [] then replied s0 (putSeq (toFollowers v id q msg) id
          { q with carried := m.carried, delivered := (q.delivered + m.records.length) % 2 ^ 64 }) (some id) dst
          (commitWord q.c m.records.length m.stopped) else
        resultLands s0 (putSeq { v with deliveries := v.deliveries ++
          [{ id := id, ctx := c, pend := v.issue.order, result := commitWord q.c m.records.length m.stopped, msg := msg }] } id
          { q with carried := m.carried, delivered := (q.delivered + m.records.length) % 2 ^ 64 }) (some id) dst none)) ∧
    ∀ k : Nat, sendRecords s (s.ctx c).region.space q m.records = .error (k, v) →
      exec i s0 = .next (replied s0 (putSeq (toFollowers (faultRecord v q.region 4 0x19 0 0 q.hostCtr) id
        { q with carried := m.carried } (failedMsg k msg)) id
        { q with st := 7, carried := m.carried, delivered := (q.delivered + k) % 2 ^ 64 }) (some id) dst
        (commitWord q.c k true)) := by
  refine ⟨fun hs => h.trans ?_, fun k hs => h.trans ?_⟩
  · by_cases hm : m.records = []
    · rw [if_pos hm, endCommit_over hm hs]
    · rw [if_neg hm, endCommit_delivers hm hs]
  · rw [endCommit_fails hs]

end

/-! ### The matching reads alone (R345) -/

theorem tokenImage_keepsCtxs {s t : State} {v : View} {vocab : Word} {size : Nat} {b : BitVec 24} {img : List Byte}
    (h : tokenImage s v vocab size b = .ok (img, t)) : KeepsCtxs s t := by
  unfold tokenImage at h
  split at h
  · cases h
    exact KeepsCtxs.refl _
  · split at h
    · cases h
    · next hr => exact (readVia_keepsCtxs hr).trans (readVia_keepsCtxs h)

theorem tokenImages_keepsCtxs {v : View} {vocab : Word} {size : Nat} (l : List Tok) {s t : State} {r : List Tok}
    (h : tokenImages v vocab size l s = .ok (r, t)) : KeepsCtxs s t := by
  induction l generalizing s r with
  | nil => cases h; exact KeepsCtxs.refl _
  | cons b l ih =>
    unfold tokenImages at h
    split at h
    · cases h
    · next hi =>
      split at h
      · cases h
      · next hl =>
        cases h
        exact (tokenImage_keepsCtxs hi).trans (ih hl)

theorem matchCommit_keepsCtxs {s t : State} {sp : Space} {q : Seq} {toks : List Tok} {m : Matched}
    (h : matchCommit s sp q toks = .ok (m, t)) : KeepsCtxs s t := by
  unfold matchCommit at h
  split at h
  · cases h
    exact KeepsCtxs.refl _
  · split at h
    · cases h
    · next hr =>
      split at h
      · cases h
      · next hi =>
        cases h
        exact (readVia_keepsCtxs hr).trans (tokenImages_keepsCtxs _ hi)

/-! ### The two forms -/

section
variable {s t u : State} {dst r1 : BitVec 5} {kid : Word} {q : Seq} {m : Matched} (hq : quiet s) (hk : Reads (readK r1) s kid)
  (hm : mayName s kid q) (hf : q.follower = false) (hb : s.seqBusy kid.toNat = false)
include hq hk hm hf hb

theorem exec_sqcommit_direct {k : BitVec 5} {tok : Option (BitVec 24)} {n : Word} (hn : Reads (readK k) s n) (hs : q.st = 1)
    (hp : (q.c + n.toNat + 15) / 16 ≤ pagesHeld q.extents)
    (ht : if tok = none then m = ⟨[], q.carried, false⟩ ∧ t = s else
      matchCommit s (issuer s).region.space q (listToks q.c tok.toList false) = .ok (m, t)) :
    exec (.sqcommit (some (k, tok)) dst r1) s = .next (
      let o := endCommit t s.issue.ctx kid.toNat (committed q n.toNat tok m.stopped false) m (.commitDirect n.toNat tok m.stopped)
      resultLands s o.2 (some kid.toNat) dst o.1) := by
  have matched : (if tok.isNone then .ok (⟨[], q.carried, false⟩, s) else
      matchCommit s (reqSpace s s.issue.ctx) q (listToks q.c tok.toList false)) = Except.ok (m, t) := by
    cases tok with
    | none =>
      obtain ⟨rfl, rfl⟩ := ht
      rfl
    | some b => exact ht
  refine runSlot_ok (gives_bind hk (gives_bind hn (gives_requestOr hq hb ((withId_named hm).trans ?_))))
  rw [stateRefusal_ok (fun _ => hf) (by rw [hs]; rfl)]
  dsimp only
  unfold commitDirect
  rw [if_neg hp.not_gt, matched]

theorem exec_sqcommit_tree {a : Accept} (hs : q.st = 5) (ha : q.acc = some a)
    (ht : matchCommit s (issuer s).region.space q (listToks q.c (pathTokens q a.path ++ [a.correction]) true) = .ok (m, t))
    (hp : commitPenalty t (t.ctx s.issue.ctx).region.space q = .ok u) : exec (.sqcommit none dst r1) s = .next (
      let o := endCommit u s.issue.ctx kid.toNat (committed q a.path.length (some a.correction) m.stopped true) m
        (.commit m.records.length m.stopped)
      resultLands s o.2 (some kid.toNat) dst o.1) := by
  have matched : matchCommit s (reqSpace s s.issue.ctx) q (listToks q.c (pathTokens q a.path ++ [a.correction]) true) =
      .ok (m, t) := ht
  have copied : commitPenalty t (reqSpace s s.issue.ctx) q = .ok u := by
    rwa [(matchCommit_keepsCtxs ht).ctx s.issue.ctx] at hp
  refine runSlot_ok (gives_bind hk (gives_bind (gives_pure _ s) (gives_requestOr hq hb ((withId_named hm).trans ?_))))
  rw [stateRefusal_ok (fun _ => hf) (by rw [hs]; rfl), ha]
  dsimp only
  unfold commitTree
  rw [matched]
  dsimp only
  rw [copied]

end

/-- Settles O39: each form's commit, by the way in which it ends. -/
theorem sequenceCommits : Obligations.SequenceCommits := by
  unfold Obligations.SequenceCommits
  intro dst r1 s t u v kid q m hq hk hm hf hb
  refine ⟨fun k tok n hn hs hp hut ht => ?direct, fun a hs ha ht hp => ?tree⟩
  case direct =>
    subst hut
    exact endCommit_ends (exec_sqcommit_direct hq hk hm hf hb hn hs hp ht)
  case tree => exact endCommit_ends (exec_sqcommit_tree hq hk hm hf hb hs ha ht hp)

end Sys2Proof.Proofs

/-! SUPPORT. A state outside the canonical form, in which a release uncovers another region (R331, R354). -/

namespace Sys2Proof.Proofs

open Sys2Proof Machine Laws

/-- A region of ASID 5. -/
def uncoveredRegion : Region := { rcb := 0x3000, space := { asid := 5 }, chain := [0x3000] }

/-- A sequence of that region with one page, in frame 4. -/
def uncoveredSeq : Seq :=
  { st := 1, region := uncoveredRegion, c := 16, extents := [{ base := 4, len := 1, reserve := 0, stride := 1 }] }

/-- A geometry of ASID 0, and context 0 listed twice: first with its interval one below 0 and all else as at reset, then with the
region of ASID 5. A release drops the first entry, and reads find the second. Both address spaces map the page at address 0, a page
of counters that holds a record of KVREQUANT for sequence 2. -/
def listedTwiceReleasing : State :=
  { State.reset with
    ctxs := [(0, { interval := -1 }), (0, { region := uncoveredRegion })]
    dies := [(0, { tlb := [{ asid := 0, base := 0, level := 2, pte := 0xEF, pteAddr := 0x100000 },
      { asid := 5, base := 0, level := 2, pte := 0xEF, pteAddr := 0x100000 }] })]
    mem := [(0, 2), (8, 2)]
    geom := { frames := 1024, fb := 0x10000, lb := 0x800, tb := 64, layers := 1, pool := [0x70000000] }
    free := [(10, [1024])]
    frames := [(4, { count := 1 })]
    seqs := [(2, uncoveredSeq)] }

/-- The bits of a command that asks for a release. -/
def releasing : EngBits := { acq := false, rel := true, scope := .core }

/-- The jobs of the manager in the state that a step leaves. -/
def jobsAfter : Host.Outcome State Fault Refusal → Nat
  | .next t => t.kvJobs.length
  | _ => 0

/-- After the release the context is of another ASID than the geometry, and the command is refused. -/
theorem jobsAfter_kvrequant : jobsAfter (exec (.kvrequant releasing 9 4 7 1) listedTwiceReleasing) = 0 := by decide +kernel

/-- What an operation that does not fail gives, `d` where it fails. -/
def given {ε α : Type} (d : α) (e : Except ε α) : α := e.toOption.getD d

theorem eq_ok_given {ε α β : Type} {e : Except ε (α × β)} (d : α × β) (h : e.toOption.isSome = true) :
    e = .ok ((given d e).1, (given d e).2) := by
  cases e with
  | ok x => rfl
  | error _ => cases h

/-- Refutes O40 by its clause on KVREQUANT, which does not ask for a canonical state (R331, R354). Before its release the context of
`listedTwiceReleasing` has the geometry's ASID, as the clause asks, so the requantisation must be accepted; but the check is made
after the release, and finds the ASID of the second entry. No state that a run reaches lists a context twice. -/
theorem not_kvRequests : ¬ Obligations.KvRequests := by
  unfold Obligations.KvRequests
  rintro ⟨hkv, -⟩
  obtain ⟨-, hcommands⟩ := hkv 9 4 7 listedTwiceReleasing (by decide +kernel) (by decide +kernel)
  obtain ⟨-, hrequant⟩ := hcommands releasing 1 0 _ _ rfl (by decide) (eq_ok_given (0, State.reset) (by decide +kernel))
    (by decide +kernel) (by decide +kernel)
  have accepted := hrequant 0 uncoveredSeq _ _ _ _ 4 _ rfl (eq_ok_given ([], State.reset) (by decide +kernel))
    (Option.eq_some_of_isSome (by decide +kernel)) (by decide +kernel) (by decide +kernel) (by unfold mayName; decide +kernel)
    (by decide +kernel) (by decide) (by decide) (by decide) (by decide +kernel) (by decide +kernel)
    (Option.eq_some_of_isSome (by decide +kernel))
  have jobs := congrArg jobsAfter accepted
  rw [jobsAfter_kvrequant] at jobs
  revert jobs
  decide +kernel

end Sys2Proof.Proofs

/-! SUPPORT. The remote forms (R395 to R401, R407): what an operation waits for before it leaves, and each form as it leaves. -/

namespace Sys2Proof.Proofs

open Sys2Proof Machine Laws

/-! ### A result that is awaited holds no request (R184) -/

/-- A context that no longer reads as the default leaves the others as they read, in the canonical form or not. -/
theorem ctx_updCtx_other {s : State} {c i : Nat} {f : Ctx → Ctx} (h : f (s.ctx c) ≠ {}) (hi : i ≠ c) :
    (s.updCtx c f).ctx i = s.ctx i := by
  show Map.get {} (Map.set {} s.ctxs c (f (s.ctx c))) i = _
  rw [Map.set, if_neg h]
  exact Map.get_put_of_ne _ _ hi

section
variable (s : State) (dests : List (Nat × Nat))

theorem requestsHeld_awaiting (k : Nat) : requestsHeld (awaiting s dests none) k = requestsHeld s k := by
  have same (c : Nat) : (((awaiting s dests none).ctx c).pending.map (·.lines)).sum +
      (((awaiting s dests none).ctx c).posted.map Posted.lines).sum =
      ((s.ctx c).pending.map (·.lines)).sum + ((s.ctx c).posted.map Posted.lines).sum := by
    unfold awaiting
    by_cases hc : c = s.issue.ctx
    · subst hc
      rw [ctx_updCtx_listed fun h => List.append_ne_nil_of_right_ne_nil _ (List.cons_ne_nil _ []) (congrArg Ctx.pending h)]
      simp
    · rw [ctx_updCtx_other (fun h => List.append_ne_nil_of_right_ne_nil _ (List.cons_ne_nil _ []) (congrArg Ctx.pending h)) hc]
  unfold requestsHeld
  simp only [same]
  rfl

theorem streamFull_awaiting (d pkg die : Nat) : streamFull (awaiting s dests none) d pkg die = streamFull s d pkg die := by
  unfold streamFull unkeyed
  rfl

variable {s dests} in
theorem requestsFree_awaiting {n : Nat} (h : requestsFree s n) : requestsFree (awaiting s dests none) n := by
  show n = 0 ∨ requestsHeld (awaiting s dests none) (coreOf s.issue.ctx) + n ≤ 512
  rwa [requestsHeld_awaiting]

end

/-! ### What an operation waits for -/

section
variable {s : State} {pkg die : Nat}

/-- A target whose stream has room, from a core with a request free. -/
theorem gives_needStream (hs : streamFull s (dieOf s.issue.ctx) pkg die = false) (hf : requestsFree s 1) :
    Gives (needStream pkg die) s () s := by
  refine gives_bind (gives_needRequests hf) (gives_bind (gives_get s) ?_)
  rw [if_neg (ne_true_of_eq_false hs)]
  exact gives_pure () s

/-- A target at which nothing earlier of the context is outstanding. -/
theorem gives_needOrder {target : Word} {n : Nat} (h : outstandingAt s s.issue.ctx pkg die target n = false) :
    Gives (needOrder pkg die target n) s () s := by
  refine gives_bind (gives_get s) ?_
  rw [if_neg (ne_true_of_eq_false h)]
  exact gives_pure () s

/-- `s` with an operation of the issuing context on its way to a die of a package. -/
def remoteSent (s : State) (op pkg die : Nat) (target flag : Word) (aux : Nat) (data : List Byte) (pend : Option Nat)
    (ty : Option ElemTy) : State :=
  sendRemote s (dieOf s.issue.ctx) (remoteFor s s.issue.ctx (packetFor s s.issue.ctx op pkg die target flag aux data) target pend ty)

theorem gives_issueRemote (hs : streamFull s (dieOf s.issue.ctx) pkg die = false) (hf : requestsFree s 1) (op : Nat)
    (target flag : Word) (aux : Nat) (data : List Byte) (pend : Option Nat) (ty : Option ElemTy) :
    Gives (issueRemote op pkg die target flag aux data pend ty) s () (remoteSent s op pkg die target flag aux data pend ty) :=
  gives_bind (gives_needStream hs hf) (gives_modify _ s)

/-- The same once a result of the operation is awaited. -/
theorem gives_issueRemote_awaiting (hs : streamFull s (dieOf s.issue.ctx) pkg die = false) (hf : requestsFree s 1) (op : Nat)
    (target flag : Word) (aux : Nat) (data : List Byte) (pend : Option Nat) (ty : Option ElemTy) (dests : List (Nat × Nat)) :
    Gives (issueRemote op pkg die target flag aux data pend ty) (awaiting s dests none) ()
      (remoteSent (awaiting s dests none) op pkg die target flag aux data pend ty) :=
  gives_issueRemote ((streamFull_awaiting s dests _ pkg die).trans hs) (requestsFree_awaiting hf) op target flag aux data pend ty

end

/-! ### NLD, NST and NAT (R396 to R399) -/

section
variable {ty : ElemTy} {r : RegRef} {base : BitVec 5} {off : Int} {s t : State} {ea : Word} {pkg die : Nat}
  (hea : Reads (eaOff base off) s ea) (hs : streamFull t (dieOf t.issue.ctx) pkg die = false) (hf : requestsFree t 1)
include hea hs hf

theorem exec_nld (hr : Reads (lVecIndex r) s ()) (hp : Gives (peerLeaf ea (accSize ty r) true false) s (pkg, die) t)
    (ho : outstandingAt t t.issue.ctx pkg die ea (accSize ty r) = false) : exec (.nld ty r base off) s =
      .next (remoteSent (awaiting t [(r.file.code, r.idx.toNat)] none) 1 pkg die ea 0 (Nat.log2 (accSize ty r)) []
        (some t.issue.order) (if r.file.isVector || r.file.isMask then none else some ty)) :=
  runSlot_ok (gives_bind hr (gives_bind hea (gives_bind hp (gives_bind (gives_needOrder ho) (gives_bind (gives_needStream hs hf)
    (gives_bind (gives_get t) (gives_bind (gives_pendResult _ _ t) (gives_issueRemote_awaiting hs hf _ _ _ _ _ _ _ _))))))))

theorem exec_nst {bs : List Byte} (hb : Reads (srcBytes ty r) s bs) {flag : Option (BitVec 5)} {f : Word} {aux : Nat}
    (hflag : Reads (flagAddr flag) s (f, aux)) (hp : Gives (peerLeaf ea (accSize ty r) false true) s (pkg, die) t)
    (ho : outstandingAt t t.issue.ctx pkg die ea (accSize ty r) = false) :
    exec (.nst ty flag r base off) s = .next (remoteSent t 2 pkg die ea f aux bs none none) :=
  runSlot_ok (gives_bind hb (gives_bind hea (gives_bind hflag (gives_bind hp (gives_bind (gives_needOrder ho)
    (gives_issueRemote hs hf _ _ _ _ _ _ _))))))

variable {op : AtomOp} {x y : Word} (hx : Reads (readScalar r.file.code r.idx.toNat) s x)
  (hy : if op = .cas then Reads (readScalar r.file.code (r.idx.toNat + 1)) s y else y = 0)
  (hp : Gives (peerLeaf ea (elemBytes ty) true true) s (pkg, die) t) (ho : outstandingAt t t.issue.ctx pkg die ea 8 = false)
include hx hy hp ho

theorem exec_nat : exec (.nat op ty none r base off) s = .next (remoteSent t 3 pkg die ea 0 op.code.toNat
    (leBytes 8 x.toNat ++ leBytes 8 y.toNat ++ leBytes 16 ty.code.toNat) none none) :=
  runSlot_ok (gives_bind hx (gives_ite_bind (reads_second hy) (gives_bind hea (gives_bind hp (gives_bind (gives_needOrder ho)
    (gives_bind (gives_needStream hs hf) (gives_bind (gives_get t) (gives_issueRemote hs hf _ _ _ _ _ _ _))))))))

theorem exec_nat_returns (d : RegRef) : exec (.nat op ty (some d) r base off) s =
    .next (remoteSent (awaiting t [(d.file.code, d.idx.toNat)] none) 3 pkg die ea 0 (op.code.toNat + 16)
      (leBytes 8 x.toNat ++ leBytes 8 y.toNat ++ leBytes 16 ty.code.toNat) (some t.issue.order) (some ty)) :=
  runSlot_ok (gives_bind hx (gives_ite_bind (reads_second hy) (gives_bind hea (gives_bind hp (gives_bind (gives_needOrder ho)
    (gives_bind (gives_needStream hs hf) (gives_bind (gives_get t) (gives_bind (gives_pendResult _ _ t)
      (gives_issueRemote_awaiting hs hf _ _ _ _ _ _ _ _)))))))))

end

/-! ### NCB and NTS (R400, R401) -/

section
variable {ty : ElemTy} {r : RegRef} {entry piece : BitVec 6} {base : BitVec 5} {s : State} {bs : List Byte} {w : Word}
  (hb : Reads (srcBytes ty r) s bs) (hw : Reads (readP base) s w) (hl : w.toNat < 256)
  (hk : s.packages.contains (w.toNat % 32) = true)

include hw hl hk in
/-- The die that owns an entry. -/
theorem gives_ownerOf : Reads (ownerOf base) s (w.toNat % 32, w.toNat / 32) :=
  gives_bind hw (gives_bind (gives_get s) (gives_bind (gives_needLegal (decide_eq_true hl) s) (gives_bind (gives_need hk _ _ s)
    (gives_pure _ s))))

variable (hs : streamFull s (dieOf s.issue.ctx) (w.toNat % 32) (w.toNat / 32) = false) (hf : requestsFree s 1)
include hb hw hl hk hs hf

theorem exec_ncb : exec (.ncb ty r entry piece base) s =
    .next (remoteSent s 4 (w.toNat % 32) (w.toNat / 32) 0 (contribField entry piece 0) 0 bs none none) :=
  runSlot_ok (gives_bind hb (gives_bind (gives_ownerOf hw hl hk) (gives_issueRemote hs hf _ _ _ _ _ _ _)))

/-- A timed contribution leaves in its slot, or is held until that begins. -/
theorem exec_nts {slot : BitVec 5} {v : Word} (hv : Reads (readP slot) s v) {n : Nat} (hn : n = v.toNat % 2 ^ 48) :
    exec (.nts ty r entry piece slot base) s = .next (
      if n ≤ curSlot s then remoteSent s 5 (w.toNat % 32) (w.toNat / 32) 0 (contribField entry piece n) 0 bs none none
      else s.updDie (dieOf s.issue.ctx) (fun d => { d with heldNts := d.heldNts ++ [(n, remoteFor s s.issue.ctx
        (packetFor s s.issue.ctx 5 (w.toNat % 32) (w.toNat / 32) 0 (contribField entry piece n) 0 bs) 0 none none)] })) := by
  subst hn
  refine runSlot_ok (gives_bind hb (gives_bind hv (gives_bind (gives_ownerOf hw hl hk) (gives_bind (gives_get s) ?_))))
  dsimp only
  split
  · exact gives_issueRemote hs hf _ _ _ _ _ _ _
  · exact gives_bind (gives_needStream hs hf) (gives_modify _ s)

end

/-! ### NMC (R407) -/

/-- One store to every rank that NMC names, an own copy under the context's own writer. -/
theorem exec_nmc {ty : ElemTy} {flag : Option (BitVec 5)} {axis : BitVec 2} {self : Bool} {src : RegRef} {base : BitVec 5} {off : Int}
    {s : State} {bs : List Byte} {ea f : Word} {aux r : Nat} (hb : Reads (srcBytes ty src) s bs) (hea : Reads (eaOff base off) s ea)
    (hflag : Reads (flagAddr flag) s (f, aux)) (ha : ea.toNat % accSize ty src = 0)
    {m : Mesh} (hm : m = (s.die (dieOf s.issue.ctx)).mesh) {rcv : List Nat}
    (hrcv : rcv = (m.line r axis.toNat).filter (fun q => m.present q && (self || q != r))) (hr : s.rank (dieOf s.issue.ctx) = some r)
    (hx : axis.toNat < m.axes) (hf : requestsFree s rcv.length)
    (hall : ∀ q ∈ rcv, streamFull s (dieOf s.issue.ctx) (m.pkgOf q) (m.dieAt q) = false ∧
      outstandingAt s s.issue.ctx (m.pkgOf q) (m.dieAt q) ea (accSize ty src) = false) :
    exec (.nmc ty flag axis self src base off) s = .next (rcv.foldl (fun s' q =>
      let e := remoteFor s' s.issue.ctx (packetFor s' s.issue.ctx 2 (m.pkgOf q) (m.dieAt q) ea f aux bs) ea none none
      sendRemote s' (dieOf s.issue.ctx)
        (if q = r then { e with own := some ((s'.ctx s.issue.ctx).region.space, (s'.ctx s.issue.ctx).interval) } else e)) s) := by
  subst hm hrcv
  refine runSlot_ok (gives_bind hb (gives_bind hea (gives_bind hflag (gives_bind (gives_need (beq_iff_eq.mpr ha) _ _ s)
    (gives_bind (gives_get s) ?_)))))
  dsimp only
  rw [hr]
  refine gives_bind (gives_needLegal (decide_eq_true hx) s) (gives_bind (gives_needRequests hf) ?_)
  rw [if_neg]
  · exact gives_modify _ s
  · rw [List.any_eq_true]
    rintro ⟨q, hq, h⟩
    obtain ⟨hs, ho⟩ := hall q hq
    rw [hs, ho] at h
    cases h

/-- Settles O24: each form by its lemma. -/
theorem remoteForms : Obligations.RemoteForms := by
  unfold Obligations.RemoteForms
  refine ⟨⟨fun ty r base off s t ea pkg die hea hs hf => ⟨fun hr hp ho => ?load, fun bs hb hp ho => ?store, fun op x y hx hy hp ho =>
    ⟨exec_nat hea hs hf hx hy hp ho, exec_nat_returns hea hs hf hx hy hp ho⟩⟩,
    fun ty r entry piece base s bs w hb hw hl hk hs hf => ⟨?piece, fun slot v hv => ?timed⟩⟩,
    fun ty flag axis self src base off s bs ea f r hb hea hflag ha hr hx hf hall =>
      exec_nmc hb hea hflag ha rfl rfl hr hx hf hall⟩
  case load =>
    rw [exec_nld hea hs hf hr hp ho]
    simp only [Bool.or_eq_true]
    rfl
  case store =>
    exact ⟨exec_nst hea hs hf hb (gives_pure _ s) hp ho, fun p f hf' =>
      exec_nst hea hs hf hb (gives_bind hf' (gives_pure _ s)) hp ho⟩
  case piece => exact exec_ncb hb hw hl hk hs hf
  case timed =>
    rw [exec_nts hb hw hl hk hs hf hv rfl]
    rfl

end Sys2Proof.Proofs

/-! SUPPORT. PLD whose demand is met, and PST (R417, R420). -/

namespace Sys2Proof.Proofs

open Sys2Proof Machine Laws

/-- A stable placement that meets a demand lets its PLD go on. -/
theorem gives_awaitPlacement {t : State} {q : Placed} {demand : Nat} (hst : q.st = 0 ∨ q.st = 1 ∧ q.released = false)
    (hr : ((issuer t).waitAct && q.refused.contains demand) = false) (hm : q.meets demand = true) :
    Gives (awaitPlacement q demand) t () t := by
  have kept : (!(q.st == 3 || (issuer t).waitAct && q.refused.contains demand)) = true := by
    rw [hr]
    rcases hst with h | ⟨h, -⟩ <;> rw [h] <;> rfl
  have stands : (q.stands && q.meets demand) = true := by
    rw [hm, Bool.and_true, Placed.stands]
    rcases hst with h | ⟨h, hrel⟩
    · rw [h]; rfl
    · rw [h, hrel]; rfl
  refine gives_bind (gives_get t) (gives_bind (gives_need kept _ _ t) ?_)
  rw [if_pos stands]
  exact gives_pure () t

section
variable {ty : ElemTy} {r : RegRef} {base desc : BitVec 5} {off : Int} {s t : State} {a ea : Word} {i : Nat} {q : Placed}
  {ps : List Span} (ha : Reads (readP desc) s a) (hd : Reads (needDesc a) s (i, q)) (hea : Reads (eaOff base off) s ea)
include ha hd hea

/-! ### PLD -/

/-- What PLD leaves of its descriptor once it has loaded: it waits there no more. -/
def settledPlacement (c : Nat) (a : Word) (q : Placed) (u : State) : State :=
  sweepDrops (updPlaced u (dieOf c) a q.asid (fun x => { x with waiting := x.waiting.filter (· != c) })) (dieOf c)

section
variable {demand : BitVec 12} (hr : Reads (lVecIndex r) s ()) (hdem : Reads (checkDemand q demand.toNat) s ())
  (hps : Gives (accessSpans .read (accSize ty r) [(ea.toNat, accSize ty r)]) s ps t)
  (hw : Gives (awaitPlacement q demand.toNat) t () t) (hin : inShard t (dieOf t.issue.ctx) q ea (accSize ty r) = true)
include hr hdem hps hw hin

theorem exec_pld_vector (hv : (r.file.isVector || r.file.isMask) = true) {u : State}
    (hl : Gives (loadInto (accSize ty r) [(ea.toNat, accSize ty r)] id (some ea) 0 r.file.code r.idx.toNat) t () u) :
    exec (.pld ty r base demand desc off) s = .next (settledPlacement t.issue.ctx a q u) := by
  refine runSlot_ok (gives_bind hr (gives_bind ha (gives_bind hd (gives_bind hdem (gives_bind hea (gives_bind hps
    (gives_bind hw (gives_bind (gives_get t) (gives_bind (gives_need hin _ _ t) ?_)))))))))
  dsimp only
  rw [if_pos hv]
  exact gives_bind hl (gives_modify _ u)

theorem exec_pld_scalar (hv : (r.file.isVector || r.file.isMask) = false) {bs : List Byte} {bad : Option (BitVec 8 × Word)}
    {u : State} (hf : inAperture [(ea.toNat, accSize ty r)] = true ∨ requestsFree t 1)
    (hl : Gives (loadBytes true (accSize ty r) [(ea.toNat, accSize ty r)]) t (bs, bad) u) :
    exec (.pld ty r base demand desc off) s = .next (settledPlacement t.issue.ctx a q (loaded u
      (inAperture [(ea.toNat, accSize ty r)]) r.file.code r.idx.toNat ((extElem ty (leNat bs)).setWidth 2048)
      (bad.map (fun e => (e.1, ea))))) := by
  refine runSlot_ok (gives_bind hr (gives_bind ha (gives_bind hd (gives_bind hdem (gives_bind hea (gives_bind hps
    (gives_bind hw (gives_bind (gives_get t) (gives_bind (gives_need hin _ _ t) ?_)))))))))
  dsimp only
  rw [if_neg (ne_true_of_eq_false hv)]
  exact gives_bind (gives_needRequests_unlessOwn hf) (gives_bind hl (gives_bind (gives_deliverLoad u _ _ _ _ _) (gives_modify _ _)))

end

/-! ### PST -/

section
variable {bs : List Byte} (hb : Reads (srcBytes ty r) s bs) (hin : inShard s (dieOf s.issue.ctx) q ea (accSize ty r) = true)
include hb hin

theorem exec_pst {u : State} (hps : Gives (accessSpans .write (accSize ty r) [(ea.toNat, accSize ty r)]) s ps t)
    (hu : Gives (storeRanges (accSize ty r) [(ea.toNat, accSize ty r)] bs) t () u) :
    exec (.pst ty false r base desc off) s = .next u :=
  runSlot_ok (gives_bind hb (gives_bind ha (gives_bind hd (gives_bind hea (gives_bind (gives_get s) (gives_bind hps
    (gives_bind (gives_need hin _ _ t) hu)))))))

/-- The reduction of an accumulating PST is posted as an atomic. -/
theorem exec_pst_accumulates {op : AtomOp} {p : Span}
    (hps : Gives (accessSpans .atomic (accSize ty r) [(ea.toNat, accSize ty r)]) s (p :: ps) t) (h1 : q.stage ≠ 1)
    (h2 : q.stage ≠ 2) (hf : requestsFree s 1) (ho : accumulateOp q.now = some op) :
    exec (.pst ty true r base desc off) s =
      .next (postedNext t s.issue.order (.atom op ty ea p.pa (BitVec.ofNat 64 (leNat bs)) 0 none)) := by
  have stage : (q.stage != 1 && q.stage != 2) = true := by rw [Bool.and_eq_true, bne_iff_ne, bne_iff_ne]; exact ⟨h1, h2⟩
  refine runSlot_ok (gives_bind hb (gives_bind ha (gives_bind hd (gives_bind hea (gives_bind (gives_get s)
    (gives_bind (gives_need stage _ _ s) (gives_bind (gives_needRequests hf) (gives_bind hps
      (gives_bind (gives_need hin _ _ t) ?_)))))))))
  rw [ho]
  unfold postedNext
  rw [posted_interval]
  exact gives_bind (gives_get t) (gives_bind (gives_modCtx _ t) (gives_modify _ _))

end

end

/-- Settles O25: each form by its lemma. -/
theorem placedAccess : Obligations.PlacedAccess := by
  unfold Obligations.PlacedAccess
  intro ty r base desc off s t a ea i q ps ha hd hea
  refine ⟨fun demand hr hdem hps hst hwait hm hin => ?load, fun bs hb hin => ⟨fun u hps hu => exec_pst ha hd hea hb hin hps hu,
    fun op p hps h1 h2 hf ho => exec_pst_accumulates ha hd hea hb hin hps h1 h2 hf ho⟩⟩
  case load =>
    have hw : Gives (awaitPlacement q demand.toNat) t () t := gives_awaitPlacement hst hwait hm
    dsimp only
    split
    · next hv =>
      exact fun qs u hqs => loadsInto_of_gives _ _ _ _ _ hqs fun w hl => exec_pld_vector ha hd hea hr hdem hps hw hin hv hl
    · next hv =>
      exact fun bs bad u hf hl => exec_pld_scalar ha hd hea hr hdem hps hw hin (eq_false_of_ne_true hv) hf hl

end Sys2Proof.Proofs
